-- ==== Sys2Proof/Word.lean ====
section
/-! DEFINITION. The machine's words and their plainest names (R1). -/

namespace Sys2Proof

/-- A byte (R1). -/
abbrev Byte := BitVec 8
/-- A word of 32 bits (R1), the width of a v and of a g register. -/
abbrev Word := BitVec 32
/-- A double of 64 bits (R1), the width of an address and of a register pair. -/
abbrev Double := BitVec 64
/-- One bit for each lane of a warp; bit L stands for lane L (R50). -/
abbrev Lanes := BitVec 32

end Sys2Proof
end

