-- ==== Sys2Proof/Syntax.lean ====
section
/-! DEFINITION. The instructions and the machine's other steps, one constructor of `Instr` for each row
of the opcode table, with the operand codes, formats and modifiers of spec/03_instruction_words.md. -/

namespace Sys2Proof

/-- Source codes (R31, R32). -/
inductive Src where
  | v (n : Fin 512)
  | g (n : Fin 64)
  | p (n : Fin 8)
  | gp (n : Fin 8)
  | by1
  | by2
  | lt (n : Fin 3)
  | special (n : Fin 28)   -- code 0x2C0 + n; the reserved ones among them are refused
  | imm (n : BitVec 11)
  deriving DecidableEq, Repr

/-- Destination codes (R35). -/
inductive Dst where
  | v (n : Fin 512)
  | g (n : Fin 64)
  | p (n : Fin 8)
  | gp (n : Fin 8)
  | discard
  deriving DecidableEq, Repr

/-- Type codes (R46). -/
inductive Ty where
  | s32 | u32 | s64 | u64 | s16x2 | u16x2 | s8x4 | u8x4 | f32 | f16 | bf16 | f16x2 | bf16x2
  deriving DecidableEq, Repr

/-- Rounding codes (R46). -/
inductive Rnd where
  | rn | rz | rd | ru | ra
  deriving DecidableEq, Repr

/-- Scope codes (R46). -/
inductive Scope where
  | warp | core | die | device | system
  deriving DecidableEq, Repr

/-- Order codes (R46). -/
inductive Order where
  | relaxed | acquire | release | acqrel
  deriving DecidableEq, Repr

/-- Size codes (R46). -/
inductive Size where
  | byte | half | word | double | quad
  deriving DecidableEq, Repr

/-- The common fields (R28): U, PG and PN. -/
structure Common where
  u  : Bool
  pg : Fin 8
  pn : Bool
  deriving DecidableEq, Repr

/-- Format A, the register form (R29, R46). -/
structure OpA where
  com   : Common
  nwb   : Bool
  hold  : Fin 4
  hslot : Fin 4
  dst   : Dst
  a     : Src
  b     : Src
  c     : Src
  ty    : Ty
  rnd   : Rnd
  opx   : BitVec 11
  deriving DecidableEq, Repr

/-- Format I, the 32-bit immediate form (R29, R46). -/
structure OpI where
  com   : Common
  nwb   : Bool
  hold  : Fin 4
  hslot : Fin 4
  dst   : Dst
  a     : Src
  b     : Src
  imm   : BitVec 32
  ty    : Ty
  opx   : BitVec 6
  deriving DecidableEq, Repr

/-- Format M: memory, atomic, synchronisation and system (R29). -/
structure OpM where
  com   : Common
  scope : Scope
  order : Order
  dst   : Dst
  a     : Src
  b     : Src
  c     : Src
  size  : Size
  cache : Fin 8
  off   : BitVec 24
  deriving DecidableEq, Repr

/-- Format B: control and regions (R29). -/
structure OpB where
  com : Common
  ctl : Fin 16
  dst : Dst
  a   : Src
  off : BitVec 32
  imm : BitVec 22
  deriving DecidableEq, Repr

/-- Format T: copy, tile, attention and graph (R29). -/
structure OpT where
  com   : Common
  scope : Scope
  tok   : Dst
  a     : Src
  b     : Src
  c     : Src
  opf   : BitVec 30
  deriving DecidableEq, Repr

/-- A gang, named by its warp, its way in a speculative loop and a slice it holds. -/
structure GangRef where
  warp  : Nat
  way   : Nat
  slice : Nat
  deriving DecidableEq, Repr

/-- A row that covers a message names either end of it. -/
inductive Phase where
  | send | take
  deriving DecidableEq, Repr

/-- A host access to device memory (R192, R378): an address, a byte count, the bytes to write (empty
for a read), whether it comes over CXL.mem and leaves the host a copy, and whether the host reports its bytes as poison
(R384). -/
structure HostAcc where
  addr  : Nat
  len   : Nat
  bytes : List (BitVec 8)
  cxl   : Bool
  pois  : Bool := false
  deriving DecidableEq, Repr

/-- An access from another part (R122, R188): plain, or an update with an operation code of R157. -/
structure PeerAcc where
  part  : Nat
  asd   : Option Nat
  addr  : Nat
  len   : Nat
  bytes : List (BitVec 8)
  op    : Option Nat
  deriving DecidableEq, Repr

/-- Where an uncorrectable error strikes (R384). -/
inductive ErrSite where
  | line (l : Nat)
  | vreg (warp lane reg : Nat)
  | greg (warp reg : Nat)
  | scratch (team off : Nat)
  deriving DecidableEq, Repr

/-- A unit that keeps lifetime counters (R390): a core, a die (8 and 9 for the I/O dies), a DRAM layer (stack × 4 +
layer), a fabric lane. -/
inductive ErrUnit where
  | core (n : Nat)
  | die (n : Nat)
  | layer (n : Nat)
  | lane (n : Nat)
  deriving DecidableEq, Repr

/-- What asks for a reset (R406). -/
inductive ResetCause where
  | powerOn | thermalTrip | statusWrite | hotReset
  deriving DecidableEq, Repr

/-- Units that stage 3 finds absent (R406, R407): cores, DRAM layers (stack × 4 + layer), lanes. -/
structure Absent where
  cores  : List Nat
  layers : List Nat
  lanes  : List Nat
  deriving DecidableEq, Repr

/-- A slot table and its masks for a core: those of a SLOTW that wait there, or an image of the application cores (R304,
R376). -/
structure SlotSwap where
  core  : Nat
  image : Option (List Nat × Nat × Nat) := none
  deriving DecidableEq, Repr

/-- A firmware image as it is loaded, and its signature (R380). -/
structure Firmware where
  image     : List (BitVec 8) := []
  signature : List (BitVec 8) := []
  deriving DecidableEq, Repr

/-- A block over its temperature, or below its droop threshold, and the reading (R405). -/
structure BlockOver where
  block   : Nat
  droop   : Bool
  reading : Nat
  deriving DecidableEq, Repr

/-- A block that comes back inside both limits, or whose clock is restored (R405). -/
structure BlockBack where
  block  : Nat
  inside : Bool
  deriving DecidableEq, Repr

/-- A line's bytes as the host sends them, and whether it reports them poisoned (R193, R384). -/
structure HostLine where
  bytes : List Nat
  pois  : Bool := false
  deriving DecidableEq, Repr

/-- Who reaches a control-space register (R374, R409), or, an application core, memory (R379). -/
inductive Agent where
  | supervisor | appCore | host
  deriving DecidableEq, Repr

/-- Configuration-space requests the spec names (R368, R378, R406). -/
inductive CfgAcc where
  | read
  | enablePri (on : Bool)
  | setAllow (n : BitVec 32)
  deriving DecidableEq, Repr

/-- One constructor for each row of the opcode table, in the table's order. An instruction row carries
the fields of its format; a row that is a step of another agent carries the arguments that say where it
happens. -/
inductive Instr where
  | nop (f : OpB)
  | bra (f : OpB)
  | brx (f : OpB)
  | rcv (f : OpB)
  | join (f : OpB)
  | loop (f : OpB)
  | brk (f : OpB)
  | next (f : OpB)
  | call (f : OpB)
  | callx (f : OpB)
  | ret (f : OpB)
  | exit (f : OpB)
  | regang (f : OpB)
  | safept (f : OpB)
  | safeptRf (f : OpB)
  | yield (f : OpB)
  | yieldExpiry (g : GangRef)
  | trap (f : OpB)
  | bkpt (f : OpB)
  | safePointOverdue (g : GangRef)
  | iadd (f : OpA)
  | isub (f : OpA)
  | imul (f : OpA)
  | imulh (f : OpA)
  | imad (f : OpA)
  | imadw (f : OpA)
  | imin (f : OpA)
  | imax (f : OpA)
  | iabs (f : OpA)
  | andL (f : OpA)
  | orL (f : OpA)
  | xorL (f : OpA)
  | lop3 (f : OpA)
  | shl (f : OpA)
  | shr (f : OpA)
  | sar (f : OpA)
  | shf (f : OpA)
  | popc (f : OpA)
  | clz (f : OpA)
  | ctz (f : OpA)
  | brev (f : OpA)
  | bfx (f : OpA)
  | bfi (f : OpA)
  | sel (f : OpA)
  | mov (f : OpA)
  | movi (f : OpI)
  | lea (f : OpA)
  | idp4 (f : OpA)
  | pmac2 (f : OpA)
  | sarn (f : OpA)
  | isat (f : OpA)
  | rget (f : OpA)
  | rput (f : OpA)
  | isetp (f : OpA)
  | fsetp (f : OpA)
  | plop (f : OpA)
  | pmovGet (f : OpA)
  | pmovSet (f : OpA)
  | vote (f : OpA)
  | shfl (f : OpA)
  | slide (f : OpA)
  | redux (f : OpA)
  | scan (f : OpA)
  | matchL (f : OpA)
  | prmt (f : OpA)
  | fadd (f : OpA)
  | fsub (f : OpA)
  | fmul (f : OpA)
  | ffma (f : OpA)
  | fmin (f : OpA)
  | fmax (f : OpA)
  | frcp (f : OpA)
  | frsq (f : OpA)
  | fsqrt (f : OpA)
  | fexp2 (f : OpA)
  | flog2 (f : OpA)
  | fclass (f : OpA)
  | fscale (f : OpA)
  | frnd (f : OpA)
  | hadd2 (f : OpA)
  | hmul2 (f : OpA)
  | hfma2 (f : OpA)
  | hmin2 (f : OpA)
  | hmax2 (f : OpA)
  | fdot2 (f : OpA)
  | cvt (f : OpA)
  | fcvt (f : OpA)
  | pk2 (f : OpA)
  | upk2 (f : OpA)
  | e10enc (f : OpA)
  | e10dec (f : OpA)
  | rnsenc (f : OpA)
  | rnsdec (f : OpA)
  | qnt (f : OpA)
  | dqnt (f : OpA)
  | ld (f : OpM)
  | st (f : OpM)
  | prf (f : OpM)
  | fence (f : OpM)
  | cctlInv (f : OpM)
  | cctlWb (f : OpM)
  | cctlWbinv (f : OpM)
  | cctlZero (f : OpM)
  | cctlInvall (f : OpM)
  | atom (f : OpM)
  | cas (f : OpM)
  | red (f : OpM)
  | bupd (f : OpM)
  | binit (f : OpM)
  | barv (f : OpM)
  | bwait (f : OpM)
  | barw (f : OpM)
  | bexp (f : OpM)
  | waita (f : OpM)
  | waitaDeadline (stack : Nat) (entry : Nat)
  | cpy (f : OpT)
  | cpyt (f : OpT)
  | cpyg (f : OpT)
  | cpys (f : OpT)
  | cpyr (f : OpT)
  | cpyx (f : OpT)
  | cpyq (f : OpT)
  | cpyc (f : OpT)
  | osld (f : OpT)
  | engineStart (op : Nat)
  | copyElement (op : Nat)
  | tokenWrite (op : Nat)
  | byteAddition (op : Nat)
  | cpyxFollowOn (op : Nat)
  | mma (f : OpT)
  | mmag (f : OpT)
  | tzero (f : OpT)
  | tqnt (f : OpT)
  | tdq (f : OpT)
  | tcrt (f : OpT)
  | ttrn (f : OpT)
  | tstat (f : OpT)
  | sequencerStart (core : Nat)
  | tileStep (core : Nat)
  | tileStop (core : Nat)
  | tileResume (core : Nat)
  | kvx (f : OpT)
  | kvvalSet (f : OpT)
  | kvvalClr (f : OpT)
  | kvrcl (f : OpT)
  | skchSlot (f : OpT)
  | skchVec (f : OpT)
  | attn (f : OpT)
  | attnq (f : OpT)
  | sploop (f : OpB)
  | spput (f : OpB)
  | spacc (f : OpB)
  | spnext (f : OpB)
  | spend (f : OpB)
  | spq (f : OpB)
  | wayKeep (warp : Nat)
  | atomb (f : OpB)
  | atome (f : OpB)
  | atoma (f : OpB)
  | atomq (f : OpB)
  | commit (die : Nat)
  | conflictNotice (die : Nat) (line : Nat)
  | rootsw (f : OpM)
  | rootcpFork (f : OpM)
  | rootcpSnap (f : OpM)
  | rootcpDrop (f : OpM)
  | rfrsh (f : OpM)
  | tnode (f : OpM)
  | pgmapFt (f : OpM)
  | pgmapCow (f : OpM)
  | tret (f : OpM)
  | tretKill (f : OpM)
  | csrr (f : OpM)
  | csrw (f : OpM)
  | fltq (f : OpM)
  | pgreq (f : OpM)
  | pageResponse (group : Nat) (code : Nat)
  | faultReply (tenant : Nat) (entry : Nat) (reply : Word)
  | launch (f : OpT)
  | emit (f : OpT)
  | ndone (f : OpT)
  | slotw (f : OpT)
  | prmptStop (f : OpT)
  | prmptEvict (f : OpT)
  | slotTableSwap (swap : SlotSwap)
  | issueCycle (core : Nat)
  | gangWake (warp : Nat)
  | fetch (load : Nat) (line : Nat)
  | leaseExpiry (core : Nat) (line : Nat)
  | writePerform (write : Nat)
  | writeAck (write : Nat)
  | releaseIssue (held : Nat)
  | loadReturn (load : Nat)
  | rds (ph : Phase) (die : Nat) (line : Nat)
  | rdx (ph : Phase) (die : Nat) (line : Nat)
  | upg (ph : Phase) (die : Nat) (line : Nat)
  | wbd (ph : Phase) (die : Nat) (line : Nat)
  | evc (ph : Phase) (die : Nat) (line : Nat)
  | snpinv (die : Nat) (line : Nat)
  | snpfwd (die : Nat) (line : Nat)
  | snpfwdx (die : Nat) (line : Nat)
  | ackinv (ph : Phase) (die : Nat) (line : Nat)
  | rspd (ph : Phase) (die : Nat) (line : Nat)
  | rspi (ph : Phase) (die : Nat) (line : Nat)
  | dats (die : Nat) (line : Nat)
  | date (die : Nat) (line : Nat)
  | datm (die : Nat) (line : Nat)
  | grant (die : Nat) (line : Nat)
  | wback (die : Nat) (line : Nat)
  | backInvalidate (line : Nat)
  | hostSnoop (ph : Phase) (line : Nat) (inv : Bool)
  | hostAccess (ph : Phase) (acc : HostAcc)
  | hostBarAccess (fn : Nat) (ctl : Bool) (acc : HostAcc)
  | postedWriteAck (write : Nat)
  | flushDone (warp : Nat)
  | recordRefetch (asd : Nat) (node : Nat) (record : Nat)
  | groupForm (asd : Nat) (node : Nat)
  | coalesceTimeout (asd : Nat) (node : Nat)
  | dispatch (inst : Nat)
  | admitTeam (core : Nat)
  | teamRetire (team : Nat)
  | instanceComplete (inst : Nat)
  | preemptRequest (inst : Nat)
  | warpSave (warp : Nat)
  | warpResume (warp : Nat) (core : Nat)
  | quantumExpiry (inst : Nat)
  | parkYield (inst : Nat)
  | reclaimRoot
  | correctedError (log : Nat) (addr : Nat) (unit : ErrUnit) (tenant : Nat)
  | uncorrectableError (site : ErrSite)
  | dirEntryError (ph : Phase) (line : Nat)
  | hostLinkDown
  | ideIntegrityFailure (stream : Nat)
  | linkRecover
  | replay (refused : List Nat)
  | disc
  | cold (cause : ResetCause)
  | warm (cause : ResetCause)
  | bootStage (fw : Firmware) (absent : Absent)
  | thermalTrip (stack : Nat)
  | thermalThrottle (block : BlockOver)
  | throttleRelease (block : BlockBack)
  | getVersion
  | getCapabilities
  | negotiateAlgorithms (slhdsa : Bool)
  | getDigests
  | getCertificate (slot : Nat)
  | challenge (nonce : Nat)
  | getMeasurements (index : Nat)
  | keyExchange (nonce : Nat)
  | finish (proof : Bool)
  | endSession
  | ideKm (stream : Nat) (key : Nat)
  | registerWrite (agent : Agent) (offset : Nat) (wide : Bool) (value : Option Double)
  | timeBaseTick
  | peerAccess (acc : PeerAcc)
  | backInvalidationResponse (line : Nat)
  | hostCacheResponse (line : Nat) (data : HostLine)
  | configurationAccess (fn : Nat) (acc : CfgAcc)
  | linkRetrain (unit : Nat)
  deriving DecidableEq, Repr

end Sys2Proof
end

