-- ==== Sys2Proof/WellFormed.lean ====
section
/-! DEFINITION. Which fields an instruction uses and how, and which values they may hold: the legality
of R30, R35 to R40, R45, R47 and of every reference entry; and the ranges of a step's arguments. -/

namespace Sys2Proof

/-- The types whose operand is a register pair (R36, R87). -/
def Ty.wide : Ty → Bool
  | .s64 | .u64 => true
  | _ => false

def Ty.int : Ty → Bool
  | .s32 | .u32 | .s64 | .u64 => true
  | _ => false

def Ty.scalarFloat : Ty → Bool
  | .f32 | .f16 | .bf16 => true
  | _ => false

def Ty.packedFloat : Ty → Bool
  | .f16x2 | .bf16x2 => true
  | _ => false

/-- The number of registers a position of a size takes (R147, R153). -/
def Size.regs : Size → Nat
  | .byte | .half | .word => 1
  | .double => 2
  | .quad => 4

def Size.bytes : Size → Nat
  | .byte => 1
  | .half => 2
  | .word => 4
  | .double => 8
  | .quad => 16

namespace Src
/-- The code that an unused field holds (R30). -/
def unused : Src := .v 0
def isV : Src → Bool | .v _ => true | _ => false
def isG : Src → Bool | .g _ => true | _ => false
def isP : Src → Bool | .p _ => true | _ => false
def isBypass : Src → Bool | .by1 | .by2 | .lt _ => true | _ => false
def isSpecial : Src → Bool | .special _ => true | _ => false
/-- The codes of R32 that name an operand: 0x2C0 to 0x2C5, 0x2C8 to 0x2CD, 0x2D0 to 0x2D5, 0x2D8 to 0x2DB. -/
def namedSpecial (n : Nat) : Bool :=
  n < 6 || (8 ≤ n && n < 14) || (16 ≤ n && n < 22) || (24 ≤ n && n < 28)
/-- No reserved code of R31 or R32. -/
def named : Src → Bool | .special n => namedSpecial n.val | _ => true
/-- A register number aligned to `k` (R36, R147); other operands have no number. -/
def aligned (k : Nat) : Src → Bool
  | .v n => n.val % k == 0
  | .g n => n.val % k == 0
  | _ => true
/-- A g register of a group of `k`. -/
def gReg (k : Nat) : Src → Bool | .g n => n.val % k == 0 | _ => false
def vReg (k : Nat) : Src → Bool | .v n => n.val % k == 0 | _ => false
/-- An immediate whose signed value lies in the range. -/
def immIn (lo hi : Int) : Src → Bool | .imm n => decide (lo ≤ n.toInt) && decide (n.toInt ≤ hi) | _ => false
end Src

namespace Dst
def unused : Dst := .v 0
def isDiscard : Dst → Bool | .discard => true | _ => false
/-- A group register, as a token or a group result: aligned to `k`. -/
def gReg (k : Nat) : Dst → Bool | .g n => n.val % k == 0 | _ => false
def vReg (k : Nat) : Dst → Bool | .v n => n.val % k == 0 | _ => false
end Dst

/-- The roles of a format A instruction's fields. `none` is an unused field; `some t` is read or written
as type `t`, which fixes its width and how an immediate is read there (R34, R87). -/
structure RoleA where
  d : Option Ty
  a : Option Ty
  b : Option Ty
  c : Option Ty
  types : List Ty
  rnd : Bool := false
  opx : Bool
  uForm : Bool := true
  more : Bool := true
  deriving DecidableEq, Repr

def packedTypes : List Ty := [.s16x2, .u16x2, .s8x4, .u8x4]
def intTypes : List Ty := [.s32, .u32, .s64, .u64]
def allInt : List Ty := intTypes ++ packedTypes

def Ty.bits (t : Ty) : Nat := if t.wide then 64 else 32

/-- The type that a code names (R46); 13 to 15 are reserved. -/
def Ty.ofCode : Nat → Option Ty
  | 0 => some .s32 | 1 => some .u32 | 2 => some .s64 | 3 => some .u64 | 4 => some .s16x2 | 5 => some .u16x2
  | 6 => some .s8x4 | 7 => some .u8x4 | 8 => some .f32 | 9 => some .f16 | 10 => some .bf16 | 11 => some .f16x2
  | 12 => some .bf16x2 | _ => none

/-- CVT and FCVT: the source type lies in OPX[3:0] (R248). -/
def OpA.st (f : OpA) : Ty := ((Ty.ofCode (f.opx.toNat % 16))).getD .s32
def OpA.stOk (f : OpA) : Bool := f.opx.toNat < 16 && (Ty.ofCode f.opx.toNat).isSome

/-- OPX bits [hi:lo] as a number. -/
def OpA.opxBits (f : OpA) (lo n : Nat) : Nat := f.opx.toNat / 2 ^ lo % 2 ^ n

def OpA.cmb (f : OpA) : Nat := f.opxBits 3 2

/-- `SLIDE`'s SB: a g register, a gp register or an immediate (R114). -/
def Src.slideAmount : Src → Bool | .g _ | .gp _ | .imm _ => true | _ => false

/-- The roles of each format A instruction (R92 to R117, R240 to R256). -/
def Instr.roleA : Instr → Option (OpA × RoleA)
  | .iadd f => some (f, ⟨some f.ty, some f.ty, some f.ty, none, allInt, false, decide (f.opx.toNat < 2), true, true⟩)
  | .isub f => some (f, ⟨some f.ty, some f.ty, some f.ty, none, allInt, false, decide (f.opx.toNat < 2), true, true⟩)
  | .imul f => some (f, ⟨some f.ty, some f.ty, some f.ty, none, allInt, false, decide (f.opx = 0), true, true⟩)
  | .imulh f => some (f, ⟨some f.ty, some f.ty, some f.ty, none, intTypes, false, decide (f.opx = 0), true, true⟩)
  | .imad f => some (f, ⟨some f.ty, some f.ty, some f.ty, some f.ty, intTypes, false, decide (f.opx.toNat < 2), true, true⟩)
  | .imadw f => some (f, ⟨some (if f.ty = .s32 then .s64 else .u64), some .u32, some .u32, some (if f.ty = .s32 then .s64 else .u64), [.s32, .u32], false, decide (f.opx = 0), true, true⟩)
  | .imin f => some (f, ⟨some f.ty, some f.ty, some f.ty, none, allInt, false, decide (f.opx = 0), true, true⟩)
  | .imax f => some (f, ⟨some f.ty, some f.ty, some f.ty, none, allInt, false, decide (f.opx = 0), true, true⟩)
  | .iabs f => some (f, ⟨some f.ty, some f.ty, none, none, [.s32, .s64, .s16x2, .s8x4], false, decide (f.opx.toNat < 2), true, true⟩)
  | .andL f => some (f, ⟨some f.ty, some f.ty, some f.ty, none, allInt, false, decide (f.opx = 0), true, true⟩)
  | .orL f => some (f, ⟨some f.ty, some f.ty, some f.ty, none, allInt, false, decide (f.opx = 0), true, true⟩)
  | .xorL f => some (f, ⟨some f.ty, some f.ty, some f.ty, none, allInt, false, decide (f.opx = 0), true, true⟩)
  | .lop3 f => some (f, ⟨some f.ty, some f.ty, some f.ty, some f.ty, allInt, false, decide (f.opx.toNat < 256), true, true⟩)
  | .shl f => some (f, ⟨some f.ty, some f.ty, some .u32, none, intTypes, false, decide (f.opx = 0), true, true⟩)
  | .shr f => some (f, ⟨some f.ty, some f.ty, some .u32, none, intTypes, false, decide (f.opx = 0), true, true⟩)
  | .sar f => some (f, ⟨some f.ty, some f.ty, some .u32, none, intTypes, false, decide (f.opx = 0), true, true⟩)
  | .shf f => some (f, ⟨some .u32, some .u32, some .u32, some .u32, [.u32], false, decide (f.opx.toNat < 4), true, true⟩)
  | .popc f => some (f, ⟨some .u32, some f.ty, none, none, intTypes, false, decide (f.opx = 0), true, true⟩)
  | .clz f => some (f, ⟨some .u32, some f.ty, none, none, intTypes, false, decide (f.opx = 0), true, true⟩)
  | .ctz f => some (f, ⟨some .u32, some f.ty, none, none, intTypes, false, decide (f.opx = 0), true, true⟩)
  | .brev f => some (f, ⟨some f.ty, some f.ty, none, none, intTypes, false, decide (f.opx = 0), true, true⟩)
  | .bfx f => some (f, ⟨some f.ty, some f.ty, some .u32, none, intTypes, false, decide (f.opx.toNat ≤ f.ty.bits), true, true⟩)
  | .bfi f => some (f, ⟨some f.ty, some f.ty, some .u32, some f.ty, intTypes, false, decide (f.opx.toNat ≤ f.ty.bits), true, true⟩)
  | .sel f => some (f, ⟨some f.ty, some f.ty, some f.ty, some .u32, allInt, false, decide (f.opx = 0), true, true⟩)
  | .mov f => some (f, ⟨some f.ty, some f.ty, none, none, allInt, false, decide (f.opx = 0), true, true⟩)
  | .lea f => some (f, ⟨some .u64, some .u64, some f.ty, none, intTypes, false, decide (f.opx.toNat < 8), true, true⟩)
  | .idp4 f => some (f, ⟨some .u32, some f.ty, some f.ty, some .u32, [.s8x4, .u8x4], false, decide (f.opx.toNat < 4), true, true⟩)
  | .pmac2 f => some (f, ⟨some .u32, some f.ty, some f.ty, some .u32, [.s16x2, .u16x2], false, decide (f.opx = 0), true, true⟩)
  | .sarn f => some (f, ⟨some f.ty, some f.ty, some .u32, none, [.s32, .s64], true, decide (f.opx.toNat < 128 ∧ f.opxBits 1 6 < f.ty.bits ∧ (f.opxBits 0 1 = 0 → f.opxBits 1 6 = 0)), true, true⟩)
  | .isat f => some (f, ⟨some f.ty, some f.ty, none, none, intTypes, false, decide (f.opx.toNat < 128 ∧ f.opxBits 0 6 < f.ty.bits), true, true⟩)
  | .rget f => some (f, ⟨some f.ty, some .u32, some .u32, none, intTypes, false, decide (f.opx = 0), true, decide (f.hold = 0 ∧ f.hslot = 0)⟩)
  | .rput f => some (f, ⟨none, some .u32, some .u32, some f.ty, intTypes, false, decide (f.opx = 0), true, decide (f.hold = 0 ∧ f.hslot = 0)⟩)
  | .isetp f => some (f, ⟨some .u32, some f.ty, some f.ty, if f.cmb = 0 then none else some .u32, intTypes, false, decide (f.opx.toNat < 32 ∧ f.opxBits 0 3 < 6), true, true⟩)
  | .fsetp f => some (f, ⟨some .u32, some f.ty, some f.ty, if f.cmb = 0 then none else some .u32, [.f32, .f16, .bf16], false, decide (f.opx.toNat < 32), true, true⟩)
  | .plop f => some (f, ⟨some .u32, some .u32, some .u32, some .u32, [.s32], false, decide (f.opx.toNat < 256), true, true⟩)
  | .pmovGet f => some (f, ⟨some .u32, none, none, none, [.s32], false, decide (f.opx = 0), true, true⟩)
  | .pmovSet f => some (f, ⟨none, some .u32, none, none, [.s32], false, decide (f.opx.toNat < 256 ∧ f.opxBits 0 1 = 1), true, true⟩)
  | .vote f => some (f, ⟨some .u32, some .u32, none, none, [.s32], false, decide (f.opx.toNat < 4), true, true⟩)
  | .shfl f => some (f, ⟨some f.ty, some f.ty, some .u32, some f.ty, intTypes, false, decide (f.opx.toNat < 32 ∧ f.opxBits 2 3 < 6), false, true⟩)
  | .slide f => some (f, ⟨some f.ty, some f.ty, some .u32, some f.ty, intTypes, false, decide (f.opx.toNat < 2), false, f.b.slideAmount⟩)
  | .redux f => some (f, ⟨some f.ty, some f.ty, none, none, intTypes, false, decide (f.opx.toNat < 16 ∧ f.opxBits 0 3 < 6 ∧ (f.opxBits 3 1 = 1 → f.opxBits 0 3 = 0)), false, true⟩)
  | .scan f => some (f, ⟨some f.ty, some f.ty, none, none, intTypes, false, decide (f.opx.toNat < 32 ∧ f.opxBits 0 3 < 6 ∧ (f.opxBits 3 1 = 1 → f.opxBits 0 3 = 0)), false, true⟩)
  | .matchL f => some (f, ⟨some .u32, some f.ty, none, none, intTypes, false, decide (f.opx.toNat < 2), false, true⟩)
  | .prmt f => some (f, ⟨some .u32, some .u32, some .u32, some .u32, [.s32], false, decide (f.opx = 0), true, true⟩)
  | .fadd f => some (f, ⟨some f.ty, some f.ty, some f.ty, none, [.f32], true, decide (f.opx = 0), true, true⟩)
  | .fsub f => some (f, ⟨some f.ty, some f.ty, some f.ty, none, [.f32], true, decide (f.opx = 0), true, true⟩)
  | .fmul f => some (f, ⟨some f.ty, some f.ty, some f.ty, none, [.f32], true, decide (f.opx = 0), true, true⟩)
  | .ffma f => some (f, ⟨some f.ty, some f.ty, some f.ty, some f.ty, [.f32], true, decide (f.opx = 0), true, true⟩)
  | .fmin f => some (f, ⟨some f.ty, some f.ty, some f.ty, none, [.f32], false, decide (f.opx = 0), true, true⟩)
  | .fmax f => some (f, ⟨some f.ty, some f.ty, some f.ty, none, [.f32], false, decide (f.opx = 0), true, true⟩)
  | .frcp f => some (f, ⟨some f.ty, some f.ty, none, none, [.f32], true, decide (f.opx = 0), true, true⟩)
  | .frsq f => some (f, ⟨some f.ty, some f.ty, none, none, [.f32], true, decide (f.opx = 0), true, true⟩)
  | .fsqrt f => some (f, ⟨some f.ty, some f.ty, none, none, [.f32], true, decide (f.opx = 0), true, true⟩)
  | .fexp2 f => some (f, ⟨some f.ty, some f.ty, none, none, [.f32], true, decide (f.opx = 0), true, true⟩)
  | .flog2 f => some (f, ⟨some f.ty, some f.ty, none, none, [.f32], true, decide (f.opx = 0), true, true⟩)
  | .fclass f => some (f, ⟨some .u32, some f.ty, none, none, [.f32, .f16, .bf16], false, decide (f.opx.toNat < 512), true, true⟩)
  | .fscale f => some (f, ⟨some f.ty, some f.ty, some .s32, none, [.f32], true, decide (f.opx = 0), true, true⟩)
  | .frnd f => some (f, ⟨some f.ty, some f.ty, none, none, [.f32], true, decide (f.opx.toNat < 2), true, true⟩)
  | .hadd2 f => some (f, ⟨some f.ty, some f.ty, some f.ty, none, [.f16x2, .bf16x2], true, decide (f.opx = 0), true, true⟩)
  | .hmul2 f => some (f, ⟨some f.ty, some f.ty, some f.ty, none, [.f16x2, .bf16x2], true, decide (f.opx = 0), true, true⟩)
  | .hfma2 f => some (f, ⟨some f.ty, some f.ty, some f.ty, some f.ty, [.f16x2, .bf16x2], true, decide (f.opx = 0), true, true⟩)
  | .hmin2 f => some (f, ⟨some f.ty, some f.ty, some f.ty, none, [.f16x2, .bf16x2], false, decide (f.opx = 0), true, true⟩)
  | .hmax2 f => some (f, ⟨some f.ty, some f.ty, some f.ty, none, [.f16x2, .bf16x2], false, decide (f.opx = 0), true, true⟩)
  | .fdot2 f => some (f, ⟨some .f32, some f.ty, some f.ty, some .f32, [.f16x2, .bf16x2], true, decide (f.opx = 0), true, true⟩)
  | .cvt f => some (f, ⟨some f.ty, some f.st, none, none, [.s32, .u32, .s64, .u64, .f32, .f16, .bf16], true, decide (f.stOk ∧ ((f.ty.int ∧ f.st.scalarFloat) ∨ (f.ty.scalarFloat ∧ f.st.int))), true, true⟩)
  | .fcvt f => some (f, ⟨some f.ty, some f.st, none, none, [.f32, .f16, .bf16, .f16x2, .bf16x2], true, decide (f.stOk ∧ ((f.ty.scalarFloat ∧ f.st.scalarFloat) ∨ (f.ty.packedFloat ∧ f.st.packedFloat))), true, true⟩)
  | .pk2 f => some (f, ⟨some f.ty, some (if f.ty.packedFloat then .f32 else .s32), some (if f.ty.packedFloat then .f32 else .s32), none, [.s16x2, .u16x2, .f16x2, .bf16x2], f.ty.packedFloat, decide (f.opx = 0), true, true⟩)
  | .upk2 f => some (f, ⟨some .u32, some f.ty, none, none, [.s16x2, .u16x2, .f16x2, .bf16x2], false, decide (f.opx.toNat < 2), true, true⟩)
  | .e10enc f => some (f, ⟨some .u32, some .f32, none, none, [.f32], true, decide (f.opx = 0), true, true⟩)
  | .e10dec f => some (f, ⟨some .f32, some .u32, none, none, [.f32], false, decide (f.opx = 0), true, true⟩)
  | .rnsenc f => some (f, ⟨some .u32, some .s32, none, none, [.s32], false, decide (f.opx = 0), true, true⟩)
  | .rnsdec f => some (f, ⟨some .s32, some .u32, none, none, [.s32], false, decide (f.opx = 0), true, true⟩)
  | .qnt f => some (f, ⟨some .s32, some f.ty, some .u32, none, [.f32, .f16, .bf16], true, decide (f.opx.toNat < 3), true, true⟩)
  | .dqnt f => some (f, ⟨some .f32, some .u32, some .u32, none, [.f32], false, decide (f.opx.toNat < 3), true, true⟩)
  | _ => none

/-- A source field in a position read as `t` (R30, R31, R36, R39). -/
def srcOk (u : Bool) (t : Option Ty) (s : Src) : Bool :=
  match t with
  | none => s == Src.unused
  | some t => s.named && !(u && s.isV) && (!t.wide || (s.aligned 2 && !s.isSpecial))

/-- A destination written as `t` (R35, R36, R39, R87). -/
def dstOk (u : Bool) (t : Option Ty) (d : Dst) : Bool :=
  match t, d with
  | none, d => d == Dst.unused
  | some _, .discard => true
  | some t, .v n => !u && (!t.wide || n.val % 2 == 0)
  | some t, .g n => u && (!t.wide || n.val % 2 == 0)
  | some t, .p _ => !u && !t.wide
  | some t, .gp _ => u && !t.wide

/-- Write-back and capture (R45): NWB needs the discard code; HOLD names a used field and a slot. -/
def captureOk (nwb : Bool) (hold hslot : Fin 4) (d : Dst) (a b c : Bool) : Bool :=
  (!nwb || d.isDiscard) && (hold != 0 || hslot == 0) && (hold == 0 || hslot.val < 3) &&
  (hold.val != 1 || a) && (hold.val != 2 || b) && (hold.val != 3 || c)

/-- Legality of a format A word from its roles. -/
def wfA (f : OpA) (r : RoleA) : Bool :=
  (r.uForm || !f.com.u) && dstOk f.com.u r.d f.dst && srcOk f.com.u r.a f.a && srcOk f.com.u r.b f.b &&
  srcOk f.com.u r.c f.c && r.types.contains f.ty && (r.rnd || f.rnd == .rn) && r.opx && r.more &&
  captureOk f.nwb f.hold f.hslot f.dst r.a.isSome r.b.isSome r.c.isSome

/-- The same from the instruction. -/
def wfRole (i : Instr) : Bool := match i.roleA with | some (f, r) => wfA f r | none => false

/-- MOVI (R98). -/
def wfI (f : OpI) : Bool :=
  [Ty.s32, .u32, .s64, .u64, .f32].contains f.ty && f.opx == 0 && f.a == .unused && f.b == .unused &&
  dstOk f.com.u (some f.ty) f.dst && captureOk f.nwb f.hold f.hslot f.dst false false false

/-- The two forms of a memory operand (R146): a base g pair with an index code, or a v pair of
addresses with the code that means no index. A U form has the base form with a g index or none. -/
def memOk (u : Bool) (a c : Src) : Bool :=
  match a with
  | .g n => n.val % 2 == 0 && (match c with | .v _ => !u | .g _ => true | .imm k => k == 0 | _ => false)
  | .v n => n.val % 2 == 0 && !u && c == .imm 0
  | _ => false

/-- The memory operand of an instruction that has no index field (R147). -/
def memOkNoIndex (u : Bool) (a : Src) : Bool :=
  match a with
  | .g n => n.val % 2 == 0
  | .v n => n.val % 2 == 0 && !u
  | _ => false

/-- A data operand at an access size (R410). -/
def dataOk (u : Bool) (z : Size) (s : Src) : Bool :=
  s.named && !s.isBypass && !(u && s.isV) && (!s.isSpecial || z == .word) && s.aligned z.regs

/-- A loaded or returned value at an access size (R35, R147). -/
def valueDstOk (u : Bool) (z : Size) (d : Dst) : Bool :=
  match d with
  | .discard => true
  | .v n => !u && n.val % z.regs == 0
  | .g n => u && n.val % z.regs == 0
  | .p _ => !u && z.regs == 1
  | .gp _ => u && z.regs == 1

/-- A count, byte or phase operand: a g register or an immediate from 0 to 1,023 (R163, R168). -/
def countOk (s : Src) : Bool := s.gReg 1 || s.immIn 0 1023

def OpM.opcode (f : OpM) : Nat := f.off.toNat / 2 ^ 20
def OpM.wd (f : OpM) : Bool := f.size == .word || f.size == .double

/-- SIZE of ATOM and RED by operation (R157). -/
def OpM.atomSizeOk (f : OpM) : Bool :=
  (f.opcode ≤ 8 && f.wd) || (9 ≤ f.opcode && f.opcode ≤ 11 && f.size == .word)

def OpM.noOrder (f : OpM) : Bool := f.order == .relaxed
def OpM.plain (f : OpM) : Bool := f.scope == .warp && f.noOrder && f.size == .byte
def OpM.noOperands (f : OpM) : Bool := f.a == .unused && f.b == .unused && f.c == .unused && f.off == 0
def OpM.barOk (f : OpM) : Bool := f.com.u && f.size == .byte && f.cache == 0 && memOk true f.a f.c

/-- SAFEPT, REGANG and the others whose Guard column says none (R69): PG is 0. -/
def Common.noGuard (c : Common) : Bool := c.pg == 0

/-- A control word: unused fields zero (R68). -/
def OpB.zero (f : OpB) (ctl : Nat) (a off imm : Bool) : Bool :=
  f.ctl.val == ctl && (a || f.a == .unused) && (off || f.off == 0) && (imm || f.imm == 0)

def OpB.bare (f : OpB) : Bool := f.dst == .unused

/-- Bits [hi:lo] of OPF. -/
def OpT.bits (f : OpT) (lo n : Nat) : Nat := f.opf.toNat / 2 ^ lo % 2 ^ n
def tokOk (d : Dst) : Bool := d.gReg 1 || d.isDiscard
def tokPairOk (d : Dst) : Bool := d.gReg 2 || d.isDiscard
/-- The flat fields of R169: without BV, BPAIR and BOFF are zero. -/
def OpT.flatOk (f : OpT) : Bool := f.bits 29 1 == 1 || (f.bits 24 5 == 0 && f.bits 16 8 == 0)
def OpT.noB (f : OpT) : Bool := f.b == .unused
def OpT.noC (f : OpT) : Bool := f.c == .unused
/-- An operand pair of either bank (R324). -/
def Src.pair (s : Src) : Bool := s.vReg 2 || s.gReg 2

/-- The tile operation fields of R268: [28] and [11] reserved, MASKQ where it is used and not 15. -/
def OpT.tileOk (f : OpT) (acc mask soff : Bool) (xf : Bool) : Bool :=
  !f.com.u && tokOk f.tok && f.a.gReg 2 && f.c.vReg 1 && (acc || f.bits 29 1 == 0) && f.bits 28 1 == 0 &&
  (if mask then f.bits 24 4 != 15 else f.bits 24 4 == 0) && (soff || f.bits 12 6 == 0) && f.bits 11 1 == 0 && xf

/-- The CSRs of R361: width, read-only, one value per lane, handler-only. -/
structure Csr where
  size : Size
  ro : Bool
  lane : Bool
  handler : Bool
  deriving DecidableEq, Repr

/-- The CSR of a number (R361). -/
def csrOf (n : Nat) : Option Csr :=
  if n = 0x000 then some ⟨.word, false, false, false⟩
  else if n = 0x001 then some ⟨.double, true, false, false⟩
  else if n = 0x002 ∨ n = 0x010 ∨ n = 0x014 ∨ n = 0x020 ∨ n = 0x021 then some ⟨.word, true, false, true⟩
  else if n = 0x011 ∨ n = 0x013 then some ⟨.double, true, false, true⟩
  else if n = 0x012 then some ⟨.double, false, false, true⟩
  else if n = 0x015 then some ⟨.double, true, true, true⟩
  else if n = 0x016 then some ⟨.word, true, true, true⟩
  else if n = 0x030 then some ⟨.word, false, true, true⟩
  else if n = 0x031 then some ⟨.word, false, false, true⟩
  else if 0x040 ≤ n ∧ n ≤ 0x04F then some ⟨.word, false, false, true⟩
  else none

/-- A CSR access that is no illegal word (R361, R363): the number is listed, SIZE is the CSR's width, a
write names no read-only CSR, and a U form writes no lane CSR. -/
def csrOk (n : Nat) (z : Size) (write u : Bool) : Bool :=
  match csrOf n with
  | none => false
  | some c => c.size == z && (!write || !c.ro) && (!(write && u) || !c.lane)

def GangRef.ok (g : GangRef) : Bool := g.way < 8 && g.slice < 8

/-- Legality of an instruction word (R47) and, for the steps of other agents, arguments in range. -/
def Instr.wf : Instr → Bool
  | .nop f => f.bare && f.zero 0 false false false
  | .bra f => f.bare && f.zero 0 false true false
  | .brx f => f.bare && f.zero 0 true false false && f.a.pair && (!f.com.u || f.a.isG)
  | .rcv f => f.bare && !f.com.u && f.com.noGuard && f.zero 0 false true false
  | .join f => f.bare && !f.com.u && f.com.noGuard && f.zero 0 false false false
  | .loop f => f.bare && !f.com.u && f.com.noGuard && f.zero 0 false true false
  | .brk f => f.bare && !f.com.u && f.zero 0 false false false
  | .next f => f.bare && !f.com.u && f.com.noGuard && f.zero 0 false true false
  | .call f => f.bare && !f.com.u && f.zero 0 false true false
  | .callx f => f.bare && !f.com.u && f.a.pair && f.zero 0 true false false
  | .ret f => f.bare && !f.com.u && f.zero 0 false false false
  | .exit f => f.bare && !f.com.u && f.zero 0 false false false
  | .regang f => f.bare && !f.com.u && f.com.noGuard && f.zero 0 false false false
  | .safept f => f.bare && !f.com.u && f.com.noGuard && f.zero 0 false false true && f.imm.toNat < 65536
  | .safeptRf f => f.bare && !f.com.u && f.com.noGuard && f.zero 1 false false true && f.imm.toNat < 65536
  | .yield f => f.bare && !f.com.u && f.com.noGuard && f.zero 0 false false true
  | .yieldExpiry g => g.ok
  | .trap f => f.bare && !f.com.u && f.zero 0 false false true
  | .bkpt f => f.bare && !f.com.u && f.zero 0 false false true
  | .safePointOverdue g => g.ok
  | .iadd f => wfRole (.iadd f)
  | .isub f => wfRole (.isub f)
  | .imul f => wfRole (.imul f)
  | .imulh f => wfRole (.imulh f)
  | .imad f => wfRole (.imad f)
  | .imadw f => wfRole (.imadw f)
  | .imin f => wfRole (.imin f)
  | .imax f => wfRole (.imax f)
  | .iabs f => wfRole (.iabs f)
  | .andL f => wfRole (.andL f)
  | .orL f => wfRole (.orL f)
  | .xorL f => wfRole (.xorL f)
  | .lop3 f => wfRole (.lop3 f)
  | .shl f => wfRole (.shl f)
  | .shr f => wfRole (.shr f)
  | .sar f => wfRole (.sar f)
  | .shf f => wfRole (.shf f)
  | .popc f => wfRole (.popc f)
  | .clz f => wfRole (.clz f)
  | .ctz f => wfRole (.ctz f)
  | .brev f => wfRole (.brev f)
  | .bfx f => wfRole (.bfx f)
  | .bfi f => wfRole (.bfi f)
  | .sel f => wfRole (.sel f)
  | .mov f => wfRole (.mov f)
  | .movi f => wfI f
  | .lea f => wfRole (.lea f)
  | .idp4 f => wfRole (.idp4 f)
  | .pmac2 f => wfRole (.pmac2 f)
  | .sarn f => wfRole (.sarn f)
  | .isat f => wfRole (.isat f)
  | .rget f => wfRole (.rget f)
  | .rput f => wfRole (.rput f)
  | .isetp f => wfRole (.isetp f)
  | .fsetp f => wfRole (.fsetp f)
  | .plop f => wfRole (.plop f)
  | .pmovGet f => wfRole (.pmovGet f)
  | .pmovSet f => wfRole (.pmovSet f)
  | .vote f => wfRole (.vote f)
  | .shfl f => wfRole (.shfl f)
  | .slide f => wfRole (.slide f)
  | .redux f => wfRole (.redux f)
  | .scan f => wfRole (.scan f)
  | .matchL f => wfRole (.matchL f)
  | .prmt f => wfRole (.prmt f)
  | .fadd f => wfRole (.fadd f)
  | .fsub f => wfRole (.fsub f)
  | .fmul f => wfRole (.fmul f)
  | .ffma f => wfRole (.ffma f)
  | .fmin f => wfRole (.fmin f)
  | .fmax f => wfRole (.fmax f)
  | .frcp f => wfRole (.frcp f)
  | .frsq f => wfRole (.frsq f)
  | .fsqrt f => wfRole (.fsqrt f)
  | .fexp2 f => wfRole (.fexp2 f)
  | .flog2 f => wfRole (.flog2 f)
  | .fclass f => wfRole (.fclass f)
  | .fscale f => wfRole (.fscale f)
  | .frnd f => wfRole (.frnd f)
  | .hadd2 f => wfRole (.hadd2 f)
  | .hmul2 f => wfRole (.hmul2 f)
  | .hfma2 f => wfRole (.hfma2 f)
  | .hmin2 f => wfRole (.hmin2 f)
  | .hmax2 f => wfRole (.hmax2 f)
  | .fdot2 f => wfRole (.fdot2 f)
  | .cvt f => wfRole (.cvt f)
  | .fcvt f => wfRole (.fcvt f)
  | .pk2 f => wfRole (.pk2 f)
  | .upk2 f => wfRole (.upk2 f)
  | .e10enc f => wfRole (.e10enc f)
  | .e10dec f => wfRole (.e10dec f)
  | .rnsenc f => wfRole (.rnsenc f)
  | .rnsdec f => wfRole (.rnsdec f)
  | .qnt f => wfRole (.qnt f)
  | .dqnt f => wfRole (.dqnt f)
  | .ld f => valueDstOk f.com.u f.size f.dst && memOk f.com.u f.a f.c && f.b == .unused && (f.order == .relaxed || f.order == .acquire) && f.cache.val < 5
  | .st f => f.dst == .unused && memOk f.com.u f.a f.c && dataOk f.com.u f.size f.b && (f.order == .relaxed || f.order == .release) && f.cache.val < 5
  | .prf f => f.dst == .unused && memOk f.com.u f.a f.c && f.b == .unused && f.plain && f.cache.val < 5
  | .fence f => f.dst == .unused && f.noOperands && !f.noOrder && f.size == .byte && f.cache == 0
  | .cctlInv f => f.dst == .unused && memOk f.com.u f.a f.c && f.b == .unused && f.plain && f.cache.val == 0
  | .cctlWb f => f.dst == .unused && memOk f.com.u f.a f.c && f.b == .unused && f.plain && f.cache.val == 1
  | .cctlWbinv f => f.dst == .unused && memOk f.com.u f.a f.c && f.b == .unused && f.plain && f.cache.val == 2
  | .cctlZero f => f.dst == .unused && memOk f.com.u f.a f.c && f.b == .unused && f.plain && f.cache.val == 3
  | .cctlInvall f => f.dst == .unused && f.noOperands && f.plain && f.cache.val == 4
  | .atom f => valueDstOk f.com.u f.size f.dst && memOk f.com.u f.a f.c && dataOk f.com.u f.size f.b && f.atomSizeOk && f.cache == 0
  | .cas f => valueDstOk f.com.u f.size f.dst && memOkNoIndex f.com.u f.a && dataOk f.com.u f.size f.b && dataOk f.com.u f.size f.c && (f.wd || f.size == .quad) && f.cache == 0
  | .red f => f.dst == .unused && memOk f.com.u f.a f.c && dataOk f.com.u f.size f.b && f.atomSizeOk && f.opcode != 8 && (f.order == .relaxed || f.order == .release) && f.cache == 0
  | .bupd f => !f.com.u && f.dst == .unused && memOk false f.a f.c && dataOk false f.size f.b && f.size == .word && f.opcode < 8 && f.scope == .device && (f.order == .relaxed || f.order == .release) && f.cache == 0
  | .binit f => f.barOk && f.noOrder && f.dst == .unused && countOk f.b
  | .barv f => f.barOk && (f.order == .relaxed || f.order == .release) && valueDstOk true .word f.dst && countOk f.b
  | .bwait f => f.barOk && f.order == .acquire && valueDstOk true .word f.dst && countOk f.b
  | .barw f => f.barOk && (f.order == .acquire || f.order == .acqrel) && valueDstOk true .word f.dst && countOk f.b
  | .bexp f => f.barOk && f.noOrder && f.dst == .unused && countOk f.b
  | .waita f => f.com.u && f.order == .acquire && f.wd && f.cache.val < 6 && f.a.gReg 2 && f.b.gReg (2 * f.size.regs) && (f.c.gReg 1 || f.c.immIn (-1024) 1023) && (f.dst.gReg 2 || f.dst.isDiscard)
  | .waitaDeadline stack entry => decide (stack < 8 ∧ entry < 4096)
  | .cpy f => f.com.u && tokOk f.tok && f.a.gReg 2 && f.b.gReg 2 && countOk f.c && f.flatOk
  | .cpyt f => f.com.u && tokOk f.tok && f.a.gReg 2 && f.noB && f.noC && f.flatOk && f.bits 0 16 == 0
  | .cpyg f => f.com.u && tokOk f.tok && f.a.gReg 2 && f.b.gReg 2 && (f.c.gReg 1 || f.c.immIn 1 1023) && f.flatOk && f.bits 0 8 < 64
  | .cpys f => f.com.u && tokOk f.tok && f.a.gReg 2 && f.b.gReg 2 && (f.c.gReg 1 || f.c.immIn 1 1023) && f.flatOk && f.bits 8 8 < 64
  | .cpyr f => f.com.u && tokOk f.tok && f.a.gReg 2 && f.noB && f.noC && f.opf == 0
  | .cpyx f => !f.com.u && tokOk f.tok && f.a.gReg 2 && f.noB && f.c.vReg 1 && f.flatOk && f.bits 0 16 < 2
  | .cpyq f => f.com.u && f.scope == .warp && f.tok.gReg 2 && f.a == .unused && f.noB && f.noC && f.opf.toNat < 64
  | .cpyc f => f.com.u && f.scope == .warp && f.tok.isDiscard && f.a == .unused && f.noB && f.noC && f.opf.toNat < 64
  | .osld f => f.com.u && tokOk f.tok && f.a.gReg 2 && countOk f.b && countOk f.c && f.flatOk
  | .engineStart _ => true
  | .copyElement _ => true
  | .tokenWrite _ => true
  | .byteAddition _ => true
  | .cpyxFollowOn _ => true
  | .mma f => f.tileOk true true true (f.bits 0 11 < 1536) && f.b.gReg 2
  | .mmag f => f.tileOk true true true true && f.b.gReg 2
  | .tzero f => f.tileOk false true false (f.bits 0 11 == 0) && f.noB
  | .tqnt f => f.tileOk false false true (f.bits 0 11 < 3) && f.b.gReg 2
  | .tdq f => f.tileOk false false true (f.bits 0 11 == 0) && f.b.gReg 2
  | .tcrt f => f.tileOk false true true (f.bits 0 11 == 0) && f.b.gReg 2
  | .ttrn f => !f.com.u && tokOk f.tok && f.a.gReg 2 && f.b.gReg 2 && f.noC && f.bits 28 2 < 3
  | .tstat f => f.tileOk false false true (f.bits 0 11 < 3) && f.b.gReg 2
  | .sequencerStart core => decide (core < 512)
  | .tileStep core => decide (core < 512)
  | .tileStop core => decide (core < 512)
  | .tileResume core => decide (core < 512)
  | .kvx f => !f.com.u && tokPairOk f.tok && f.a.pair && f.scope == .warp && (f.b.isV || f.b.isG) && f.c.vReg 2 && f.opf.toNat < 3
  | .kvvalSet f => !f.com.u && tokPairOk f.tok && f.a.pair && f.scope != .warp && (f.b.isV || f.b.isG) && f.noC && f.opf.toNat < 4 && f.bits 0 1 == 0
  | .kvvalClr f => !f.com.u && tokPairOk f.tok && f.a.pair && f.scope != .warp && (f.b.isV || f.b.isG) && f.noC && f.opf.toNat < 4 && f.bits 0 1 == 1
  | .kvrcl f => f.com.u && f.scope != .warp && tokOk f.tok && f.a.gReg 2 && f.b.gReg 2 && f.noC && f.opf == 0
  | .skchSlot f => !f.com.u && tokPairOk f.tok && f.a.pair && f.scope == .warp && (f.b.isV || f.b.isG) && f.noC && f.opf == 0
  | .skchVec f => !f.com.u && tokPairOk f.tok && f.a.pair && f.scope == .warp && (f.b.isV || f.b.isG) && f.c.vReg 2 && f.opf.toNat < 4 && f.bits 0 1 == 1
  | .attn f => !f.com.u && tokOk f.tok && f.a.gReg 2 && f.noB && f.c.vReg 1 && f.opf.toNat < 16
  | .attnq f => !f.com.u && tokOk f.tok && f.a.gReg 2 && f.noB && f.c.vReg 1 && f.opf == 0
  | .sploop f => f.com.u && f.com.noGuard && f.zero 0 true true true && (f.dst.gReg 1 || f.dst.isDiscard) && countOk f.a && f.imm.toNat < 2 ^ 15 && f.imm.toNat / 2 ^ 12 ≠ 0
  | .spput f => !f.com.u && f.com.noGuard && f.bare && f.a.isV && f.zero 0 true false false
  | .spacc f => f.com.u && f.com.noGuard && f.bare && f.ctl.val < 4 && (f.a.isG || f.a.immIn (-1024) 1023 || (f.ctl.val == 0 && f.a == .unused)) && f.off == 0 && f.imm.toNat < 512
  | .spnext f => f.com.u && f.com.noGuard && f.bare && f.zero 0 true true false && (match f.a with | .gp n => n.val != 0 | s => s == .unused)
  | .spend f => f.com.u && f.com.noGuard && f.zero 0 false false false && (f.dst.gReg 2 || f.dst.isDiscard)
  | .spq f => f.com.u && f.com.noGuard && f.zero 0 false false false && f.dst.gReg 1
  | .wayKeep _ => true
  | .atomb f => !f.com.u && f.zero 0 false true false && (f.dst.vReg 1 || f.dst.isDiscard)
  | .atome f => !f.com.u && f.com.noGuard && f.bare && f.zero 0 false false false
  | .atoma f => !f.com.u && f.bare && f.zero 0 false false false
  | .atomq f => !f.com.u && f.zero 0 false false false && f.dst.vReg 1
  | .commit die => decide (die < 8)
  | .conflictNotice die _ => decide (die < 8)
  | .rootsw f => f.com.u && f.plain && f.off == 0 && f.dst.gReg 1 && f.a.gReg 1 && f.b.gReg 1 && f.c.gReg 2 && f.cache == 0
  | .rootcpFork f => f.com.u && f.plain && f.off == 0 && f.dst.gReg 2 && f.a.gReg 1 && f.b.gReg 1 && f.c == .unused && f.cache.val == 0
  | .rootcpSnap f => f.com.u && f.plain && f.off == 0 && f.dst.gReg 2 && f.a == .unused && f.b.gReg 1 && f.c == .unused && f.cache.val == 1
  | .rootcpDrop f => f.com.u && f.plain && f.off == 0 && f.dst.gReg 2 && f.a == .unused && f.b.gReg 1 && f.c == .unused && f.cache.val == 2
  | .rfrsh f => f.com.u && f.plain && f.off == 0 && (f.dst.gReg 1 || f.dst.isDiscard) && f.a == .unused && f.b == .unused && f.c == .unused && f.cache == 0
  | .tnode f => f.com.u && f.plain && f.off == 0 && f.dst.gReg 2 && f.a.gReg 2 && (f.b.gReg 1 || f.b.immIn 0 255) && f.c.gReg 2 && f.cache.val < 2
  | .pgmapFt f => !f.com.u && f.plain && f.off == 0 && f.dst.vReg 1 && f.a.vReg 2 && f.b == .unused && f.c == .unused && f.cache.val == 0
  | .pgmapCow f => !f.com.u && f.plain && f.off == 0 && f.dst.vReg 1 && f.a.vReg 2 && f.b == .unused && f.c == .unused && f.cache.val == 1
  | .tret f => f.com.u && f.plain && f.off == 0 && f.dst == .unused && f.a == .unused && f.b == .unused && f.c == .unused && f.cache.val == 0
  | .tretKill f => f.com.u && f.plain && f.off == 0 && f.dst == .unused && f.a == .unused && f.b == .unused && f.c == .unused && f.cache.val == 1
  | .csrr f => f.scope == .warp && f.noOrder && f.wd && f.cache == 0 && f.off.toNat < 4096 && f.a == .unused && f.c == .unused && f.b == .unused && valueDstOk f.com.u f.size f.dst && csrOk f.off.toNat f.size false f.com.u
  | .csrw f => f.scope == .warp && f.noOrder && f.wd && f.cache == 0 && f.off.toNat < 4096 && f.a == .unused && f.c == .unused && f.dst == .unused && dataOk f.com.u f.size f.b && csrOk f.off.toNat f.size true f.com.u
  | .fltq f => f.com.u && f.plain && f.off == 0 && f.dst.gReg 1 && f.a == .unused && f.b.gReg 1 && f.c == .unused && f.cache == 0
  | .pgreq f => !f.com.u && f.plain && f.off == 0 && f.dst.vReg 1 && f.a.vReg 2 && f.b == .unused && f.c == .unused && f.cache.val < 4
  | .pageResponse _ code => decide (code < 3)
  | .faultReply tenant _ _ => decide (tenant < 16)
  | .launch f => f.com.u && (f.scope == .device || f.scope == .system) && tokOk f.tok && f.a.gReg 2 && f.b.gReg 2 && (f.c.gReg 1 || f.c.immIn 1 1023) && f.opf == 0
  | .emit f => f.com.u && (f.scope == .device || f.scope == .system) && tokOk f.tok && f.a.gReg 2 && f.b.gReg 2 && (f.c.gReg 1 || f.c.immIn 1 1023) && f.opf == 0
  | .ndone f => f.com.u && (f.scope == .device || f.scope == .system) && f.tok.gReg 1 && f.a == .unused && (f.b.gReg 1 || f.b.immIn (-1024) 1023) && f.noC && f.opf == 0
  | .slotw f => f.com.u && (f.scope == .device || f.scope == .system) && tokOk f.tok && f.a.gReg 2 && countOk f.b && f.noC && f.opf == 0
  | .prmptStop f => f.com.u && (f.scope == .device || f.scope == .system) && tokOk f.tok && f.a.gReg 2 && f.noB && f.noC && f.opf.toNat == 0
  | .prmptEvict f => f.com.u && (f.scope == .device || f.scope == .system) && tokOk f.tok && f.a.gReg 2 && f.noB && f.noC && f.opf.toNat == 1
  | .slotTableSwap x => decide (x.core < 512)
  | .issueCycle core => decide (core < 512)
  | .gangWake _ => true
  | .fetch _ _ => true
  | .leaseExpiry core _ => decide (core < 512)
  | .writePerform _ => true
  | .writeAck _ => true
  | .releaseIssue _ => true
  | .loadReturn _ => true
  | .rds _ die _ => decide (die < 8)
  | .rdx _ die _ => decide (die < 8)
  | .upg _ die _ => decide (die < 8)
  | .wbd _ die _ => decide (die < 8)
  | .evc _ die _ => decide (die < 8)
  | .snpinv die _ => decide (die < 8)
  | .snpfwd die _ => decide (die < 8)
  | .snpfwdx die _ => decide (die < 8)
  | .ackinv _ die _ => decide (die < 8)
  | .rspd _ die _ => decide (die < 8)
  | .rspi _ die _ => decide (die < 8)
  | .dats die _ => decide (die < 8)
  | .date die _ => decide (die < 8)
  | .datm die _ => decide (die < 8)
  | .grant die _ => decide (die < 8)
  | .wback die _ => decide (die < 8)
  | .backInvalidate _ => true
  | .hostSnoop _ _ _ => true
  | .hostAccess _ _ => true
  | .hostBarAccess fn _ _ => decide (fn < 16)
  | .postedWriteAck _ => true
  | .flushDone _ => true
  | .recordRefetch _ _ _ => true
  | .groupForm _ _ => true
  | .coalesceTimeout _ _ => true
  | .dispatch _ => true
  | .admitTeam core => decide (core < 512)
  | .teamRetire _ => true
  | .instanceComplete _ => true
  | .preemptRequest _ => true
  | .warpSave _ => true
  | .warpResume _ core => decide (core < 512)
  | .quantumExpiry _ => true
  | .parkYield _ => true
  | .reclaimRoot => true
  | .correctedError log _ unit tenant => decide (log < 10 ∧ tenant < 16) &&
      (match unit with | .core n => decide (n < 512) | .die n => decide (n < 10) | .layer n => decide (n < 32) | .lane n => decide (n < 88))
  | .uncorrectableError _ => true
  | .dirEntryError _ _ => true
  | .hostLinkDown => true
  | .ideIntegrityFailure _ => true
  | .linkRecover => true
  | .replay _ => true
  | .disc => true
  | .cold _ => true
  | .warm _ => true
  | .bootStage _ _ => true
  | .thermalTrip _ => true
  | .thermalThrottle _ => true
  | .throttleRelease _ => true
  | .getVersion => true
  | .getCapabilities => true
  | .negotiateAlgorithms _ => true
  | .getDigests => true
  | .getCertificate _ => true
  | .challenge _ => true
  | .getMeasurements _ => true
  | .keyExchange _ => true
  | .finish _ => true
  | .endSession => true
  | .ideKm _ _ => true
  | .registerWrite agent offset _ _ => decide (agent = .appCore) || decide (offset < 2 ^ 40)
  | .timeBaseTick => true
  | .peerAccess _ => true
  | .backInvalidationResponse _ => true
  | .hostCacheResponse _ data => decide (data.bytes.length = 64)
  | .configurationAccess fn _ => decide (fn < 16)
  | .linkRetrain _ => true

/-- The well-formed instructions and steps. -/
abbrev WellFormed (i : Instr) : Prop := i.wf = true

end Sys2Proof
end

