-- ==== Sys2Proof/Machine/Numbers.lean ====
section
/-! DEFINITION. Number formats, rounding and the exact arithmetic behind every floating-point result
(spec/15_number_formats.md). -/

namespace Sys2Proof.Machine

/-! ## fstat flags (R225) -/

def flNV : Word := 1
def flDZ : Word := 2
def flOF : Word := 4
def flUF : Word := 8
def flNX : Word := 16
def flINTSAT : Word := 32
def flRNSOVF : Word := 64

/-- A value with the flags that forming it raised. -/
structure Res (α : Type) where
  val : α
  fl  : Word := 0
  deriving DecidableEq, Repr

/-! ## Exact values -/

/-- A floating-point value: a NaN, an infinity, or ±m × 2^e. A finite value that was cut carries `cut`:
the true magnitude lies strictly between m × 2^e and (m + 1) × 2^e. -/
inductive FVal where
  | nan
  | inf (neg : Bool)
  | fin (neg : Bool) (m : Nat) (e : Int) (cut : Bool)
  deriving DecidableEq, Repr

/-- A format (R221): exponent and fraction widths; bf16 has no subnormals (R222). -/
structure FFmt where
  eb  : Nat
  mb  : Nat
  sub : Bool
  deriving DecidableEq, Repr

def fmtF32 : FFmt := ⟨8, 23, true⟩
def fmtF16 : FFmt := ⟨5, 10, true⟩
def fmtBf16 : FFmt := ⟨8, 7, false⟩
def FFmt.bias (f : FFmt) : Int := 2 ^ (f.eb - 1) - 1

/-- The scalar format of a type; packed types name their element's. -/
def ffmtOf : Ty → FFmt
  | .f16 | .f16x2 => fmtF16
  | .bf16 | .bf16x2 => fmtBf16
  | _ => fmtF32

/-- The value of a bit pattern (R221, R222, R239). -/
def FFmt.value (f : FFmt) (x : Nat) : FVal :=
  let frac := x % 2 ^ f.mb
  let ex := x / 2 ^ f.mb % 2 ^ f.eb
  let neg := x / 2 ^ (f.mb + f.eb) % 2 == 1
  if ex = 2 ^ f.eb - 1 then (if frac = 0 then .inf neg else .nan)
  else if ex = 0 then (if f.sub then .fin neg frac (1 - f.bias - f.mb) false else .fin neg 0 0 false)
  else .fin neg (2 ^ f.mb + frac) (ex - f.bias - f.mb) false

def FFmt.signBit (f : FFmt) (neg : Bool) : Nat := if neg then 2 ^ (f.mb + f.eb) else 0
def FFmt.infBits (f : FFmt) (neg : Bool) : Nat := f.signBit neg + (2 ^ f.eb - 1) * 2 ^ f.mb
/-- The canonical NaN (R223). -/
def FFmt.nanBits (f : FFmt) : Nat := (2 ^ f.eb - 1) * 2 ^ f.mb + 2 ^ (f.mb - 1)
def FFmt.maxBits (f : FFmt) (neg : Bool) : Nat := f.infBits neg - 1

def bitLen (m : Nat) : Nat := if m = 0 then 0 else Nat.log2 m + 1

/-- Where a discarded part lies: 0 nothing, 1 below half, 2 half, 3 above half. -/
def dropShift (m sh : Nat) (cut : Bool) : Nat × Nat :=
  if sh = 0 then (m, if cut then 1 else 0)
  else if bitLen m + 1 < sh then (0, if m = 0 ∧ !cut then 0 else 1)
  else
    let r := m % 2 ^ sh
    let h := 2 ^ (sh - 1)
    (m / 2 ^ sh, if r < h then (if r = 0 ∧ !cut then 0 else 1) else if r = h then (if cut then 3 else 2) else 3)

/-- Whether the magnitude goes up under a rounding mode (R46, R224). -/
def roundUp (rm : Rnd) (neg : Bool) (odd : Bool) (pos : Nat) : Bool :=
  match rm with
  | .rn => pos == 3 || (pos == 2 && odd)
  | .rz => false
  | .rd => neg && pos != 0
  | .ru => !neg && pos != 0
  | .ra => 2 ≤ pos

/-- A magnitude rounded to a multiple of 2^g: the quotient and whether it is exact. -/
def roundGrid (rm : Rnd) (neg : Bool) (m : Nat) (e : Int) (cut : Bool) (g : Int) : Nat × Bool :=
  if g ≤ e then
    -- with a cut, the part lost lies below one unit of 2^e: bring the grid below it
    if cut then
      let q := m * 2 ^ (e - g).toNat
      (if roundUp rm neg (q % 2 == 1) 1 then q + 1 else q, false)
    else (m * 2 ^ (e - g).toNat, true)
  else
    let (q, pos) := dropShift m (g - e).toNat cut
    (if roundUp rm neg (q % 2 == 1) pos then q + 1 else q, pos == 0)

/-- `round_to` (R224), with its flags. -/
def FFmt.round (f : FFmt) (rm : Rnd) (x : FVal) : Res Nat :=
  match x with
  | .nan => ⟨f.nanBits, 0⟩
  | .inf neg => ⟨f.infBits neg, 0⟩
  | .fin neg m e cut =>
    if m = 0 ∧ !cut then ⟨f.signBit neg, 0⟩
    else
      -- at least four bits more than the precision, so that a cut lies below the half bit
      let k := f.mb + 4 - bitLen m
      let m := m * 2 ^ k
      let e := e - k
      let top := e + bitLen m - 1                    -- exponent of the leading bit
      let (q, ex) := roundGrid rm neg m e cut (top - f.mb)
      let top' := if q = 2 ^ (f.mb + 1) then top + 1 else top
      if f.bias < top' then
        let big := match rm with | .rn | .ra => true | .rz => false | .rd => neg | .ru => !neg
        ⟨if big then f.infBits neg else f.maxBits neg, flOF ||| flNX⟩
      else if top' < 1 - f.bias then
        if f.sub then
          let (y, ex) := roundGrid rm neg m e cut (1 - f.bias - f.mb)
          ⟨f.signBit neg + y, if ex then 0 else flUF ||| flNX⟩
        else ⟨f.signBit neg, flUF ||| flNX⟩
      else
        let frac := if q = 2 ^ (f.mb + 1) then 0 else q - 2 ^ f.mb
        ⟨f.signBit neg + (top' + f.bias).toNat * 2 ^ f.mb + frac, if ex then 0 else flNX⟩

/-- A finite value rounded to an integer under a mode, and whether it is exact. -/
def roundInt (rm : Rnd) (neg : Bool) (m : Nat) (e : Int) (cut : Bool) : Int × Bool :=
  let (q, ex) := roundGrid rm neg m e cut 0
  (if neg then -(q : Int) else q, ex)

/-! ## Exact arithmetic -/

def FVal.isNan : FVal → Bool | .nan => true | _ => false
def FVal.isInf : FVal → Bool | .inf _ => true | _ => false
def FVal.isZero : FVal → Bool | .fin _ 0 _ false => true | _ => false
def FVal.neg : FVal → FVal
  | .nan => .nan
  | .inf n => .inf (!n)
  | .fin n m e c => .fin (!n) m e c
def FVal.sign : FVal → Bool | .nan => false | .inf n => n | .fin n _ _ _ => n
def FVal.abs : FVal → FVal
  | .nan => .nan
  | .inf _ => .inf false
  | .fin _ m e c => .fin false m e c

def FVal.ofInt (i : Int) : FVal := .fin (decide (i < 0)) i.natAbs 0 false

/-- The signed numerator of a finite value over 2^g, for g at most its exponent. -/
def numer (neg : Bool) (m : Nat) (e g : Int) : Int :=
  let x : Int := m * 2 ^ (e - g).toNat
  if neg then -x else x

/-- An exact sum with its invalid flag (R241): infinities of both signs are invalid; an exact zero is +0,
−0 under rd, or keeps the sign that all its zero terms share. -/
def sumFVal (rm : Rnd) (xs : List FVal) : Res FVal :=
  if xs.any FVal.isNan then ⟨.nan, 0⟩
  else if xs.any (fun x => x == .inf true) && xs.any (fun x => x == .inf false) then ⟨.nan, flNV⟩
  else if xs.any (fun x => x == .inf true) then ⟨.inf true, 0⟩
  else if xs.any (fun x => x == .inf false) then ⟨.inf false, 0⟩
  else
    let g : Int := xs.foldl (fun g x => match x with | .fin _ 0 _ _ => g | .fin _ _ e _ => min g e | _ => g) 4096
    let n : Int := xs.foldl (fun n x => match x with | .fin s m e _ => if m = 0 then n else n + numer s m e g | _ => n) 0
    if n = 0 then
      if xs.all (fun x => x.isZero && x.sign) then ⟨.fin true 0 0 false, 0⟩
      else if xs.all (fun x => x.isZero && !x.sign) then ⟨.fin false 0 0 false, 0⟩
      else ⟨.fin (rm == .rd) 0 0 false, 0⟩
    else ⟨.fin (decide (n < 0)) n.natAbs g false, 0⟩

/-- An exact product; `bad` tells 0 × ∞. -/
def mulFVal (x y : FVal) : FVal × Bool :=
  match x, y with
  | .nan, _ | _, .nan => (.nan, false)
  | .inf a, .inf b => (.inf (xor a b), false)
  | .inf a, .fin b m _ _ => if m = 0 then (.nan, true) else (.inf (xor a b), false)
  | .fin a m _ _, .inf b => if m = 0 then (.nan, true) else (.inf (xor a b), false)
  | .fin a m e _, .fin b n d _ => (.fin (xor a b) (m * n) (e + d) false, false)

/-- An exact quotient, cut to 96 bits or more; the divisor is finite and not zero. -/
def divFVal (x y : FVal) : FVal :=
  match x, y with
  | .nan, _ | _, .nan => .nan
  | .inf a, y => .inf (xor a y.sign)
  | .fin a _ _ _, .inf b => .fin (xor a b) 0 0 false
  | .fin a m e _, .fin b n d _ =>
    let k := 96 + bitLen n
    let q := m * 2 ^ k / n
    .fin (xor a b) q (e - d - k) (m * 2 ^ k % n != 0)

/-- The integer square root, bit by bit from bit `b`. -/
def isqrtFrom : Nat → Nat → Nat → Nat
  | 0, _, r => r
  | b + 1, n, r => isqrtFrom b n (if (r + 2 ^ b) * (r + 2 ^ b) ≤ n then r + 2 ^ b else r)
def isqrt (n : Nat) : Nat := isqrtFrom (bitLen n / 2 + 1) n 0

/-- A square root cut to 48 bits or more, of a positive finite value. -/
def sqrtFVal (m : Nat) (e : Int) : FVal :=
  let k : Nat := 96 + (if (e - 96) % 2 = 0 then 0 else 1)
  let n := m * 2 ^ k
  let r := isqrt n
  .fin false r ((e - k) / 2) (r * r != n)

/-- Working precision of 2^x and log₂ x, bits (log 8). -/
def workBits : Nat := 200

/-- 2^f in fixed point over 2^workBits, f = n / 2^d below 1: the product of the roots 2^(2^-i) of its set bits. -/
def exp2Frac : Nat → Nat → Nat → Nat → Nat
  | 0, _, _, acc => acc
  | d + 1, n, root, acc =>
    let root := isqrt (root * 2 ^ workBits)
    exp2Frac d n root (if n / 2 ^ d % 2 = 1 then acc * root / 2 ^ workBits else acc)

/-- 2^x for a finite nonzero x, exact for an integer, else cut. -/
def exp2FVal (neg : Bool) (m : Nat) (e : Int) : FVal :=
  if 0 ≤ e ∨ m % 2 ^ (-e).toNat = 0 then
    let i : Int := if 0 ≤ e then m * 2 ^ (min e.toNat 64) else m / 2 ^ (-e).toNat
    .fin false 1 (if neg then -i else i) false
  else if e + bitLen m ≤ -30 then
    if neg then .fin false (2 ^ 30 - 1) (-30) true else .fin false (2 ^ 30) (-30) true
  else
    let d := (-e).toNat
    let q : Int := if neg then -(m : Int) else m
    let i := q / 2 ^ d
    let f := (q % 2 ^ d).toNat
    let r := exp2Frac d f (2 * 2 ^ workBits) (2 ^ workBits)
    .fin false (r / 2 ^ 40) (i - workBits + 40) true

/-- Binary digits of log₂ of y over 2^400, 1 ≤ y < 2, by repeated squaring. -/
def log2Digits : Nat → Nat → Nat → Nat
  | 0, _, acc => acc
  | k + 1, y, acc =>
    let z := y * y / 2 ^ 400
    if 2 ^ 401 ≤ z then log2Digits k (z / 2) (2 * acc + 1) else log2Digits k z (2 * acc)

/-- log₂ x of a positive finite x, exact for a power of two, else cut. -/
def log2FVal (m : Nat) (e : Int) : FVal :=
  let l := bitLen m - 1
  let k : Int := e + l
  if m = 2 ^ l then FVal.ofInt k
  else
    let f := log2Digits 160 (m * 2 ^ 400 / 2 ^ l) 0
    let n : Int := k * 2 ^ 160 + f
    if 0 ≤ n then .fin false n.toNat (-160) true
    else .fin true ((-n).toNat - 1) (-160) true

/-- An ordered compare of finite or infinite values as -1, 0 or 1. -/
def cmpFVal (x y : FVal) : Int :=
  match x, y with
  | .inf a, .inf b => if a = b then 0 else if a then -1 else 1
  | .inf a, _ => if a then -1 else 1
  | _, .inf b => if b then 1 else -1
  | .fin a m e _, .fin b n d _ =>
    let g := min e d
    let u := numer a m e g
    let v := numer b n d g
    if u < v then -1 else if u = v then 0 else 1
  | _, _ => 0

/-! ## E10 scales (R226) -/

/-- The value of an E10 container, and whether reading it raises NV. -/
def e10Value (x : Nat) : Res FVal :=
  if x / 2 ^ 10 % 64 ≠ 0 then ⟨.nan, flNV⟩
  else
    let e := x / 8 % 128
    let m := x % 8
    if e = 127 then ⟨.nan, 0⟩
    else if e = 0 then ⟨.fin false 0 0 false, if m = 0 then 0 else flNV⟩
    else ⟨.fin false (8 + m) ((e : Int) - 66) false, 0⟩

/-- E10ENC (R252). -/
def e10Encode (rm : Rnd) (x : FVal) : Res Nat :=
  match x with
  | .nan | .inf _ => ⟨0x03F8, flNV⟩
  | .fin _ m e cut =>
    if m = 0 then ⟨0, 0⟩
    else
      let k := 8 - bitLen m
      let m := m * 2 ^ k
      let e := e - k
      let top := e + bitLen m - 1
      let (q, ex) := roundGrid rm false m e cut (top - 3)
      let top := if q = 16 then top + 1 else top
      let fr := if q = 16 then 0 else q - 8
      if 63 < top then ⟨0x03F7, flOF ||| flNX⟩
      else if top < -62 then ⟨0, flUF ||| flNX⟩
      else ⟨(top + 63).toNat * 8 + fr, if ex then 0 else flNX⟩

/-! ## Residue words (R229 to R231) -/

def residueBad (w : Nat) : Bool :=
  w / 2 ^ 30 != 0 || w % 256 == 255 || 256 < w / 2 ^ 16 % 512 || w / 2 ^ 25 % 32 == 31

/-- The residue word of an integer (R229). -/
def residue (n : Int) : Nat :=
  (n % 31).toNat * 2 ^ 25 + (n % 257).toNat * 2 ^ 16 + (n % 256).toNat * 2 ^ 8 + (n % 255).toNat

/-- `reconstruct` (R230). -/
def reconstruct (w : Nat) : Res Word :=
  if residueBad w then ⟨0x80000000, flRNSOVF⟩
  else
    let y : Nat :=
      (w % 256 * (128 * 65792) + w / 2 ^ 8 % 256 * (255 * 65535) + w / 2 ^ 16 % 512 * (129 * 65280)) % 16776960
    let z : Int := if 8388480 ≤ y then (y : Int) - 16776960 else y
    if (z % 31).toNat ≠ w / 2 ^ 25 % 32 then ⟨0x80000000, flRNSOVF⟩ else ⟨BitVec.ofInt 32 z, 0⟩

/-- RNSENC (R254). -/
def rnsEncode (n : Int) : Res Word :=
  if n < -8388480 ∨ 8388479 < n then ⟨0xC0000000, flRNSOVF⟩ else ⟨BitVec.ofNat 32 (residue n), 0⟩

/-! ## LQ elements and sketches (R227, R232) -/

/-- Element bits of lq8, lq6, lq4. -/
def lqBits : Nat → Nat | 0 => 8 | 1 => 6 | _ => 4

/-- The two's-complement value of the low `n` bits. -/
def signedOf (n x : Nat) : Int :=
  let y := x % 2 ^ n
  if y < 2 ^ (n - 1) then y else (y : Int) - 2 ^ n

/-- One component of a KS4 sketch (R232). -/
def sketchComp (k0 k1 : FVal) (s : Res FVal) : Res Int :=
  let t := fmtF32.value (fmtF32.round .rn (sumFVal .rn [k0, k1]).val).val
  if t.isNan || s.val.isNan then ⟨0, flNV ||| s.fl⟩
  else if t.isInf && s.val.isZero then ⟨0, flNV ||| s.fl⟩
  else match (mulFVal t s.val).1 with
    | .fin neg m e c => ⟨max (-8) (min 7 (roundInt .rn neg m e c).1), s.fl⟩
    | .inf neg => ⟨if neg then -8 else 7, s.fl⟩
    | .nan => ⟨0, s.fl⟩

/-- The sum of products of two sketches' components (R232). -/
def sketchScore (a b : List Byte) : Int :=
  (List.zip a b).foldl (fun n (x, y) =>
    n + signedOf 4 x.toNat * signedOf 4 y.toNat + signedOf 4 (x.toNat / 16) * signedOf 4 (y.toNat / 16)) 0

end Sys2Proof.Machine
end

