-- ==== Sys2Proof/Machine/Flags.lean ====
section
/-! DEFINITION. How results are formed and which flags they raise: wrapping and clamping, packed elements,
compares and three-input logic (R87 to R89, R95, R107, R108). -/

namespace Sys2Proof.Machine

/-- The width and signedness of a type's elements, and their number (R46). -/
def elemOf : Ty → Nat × Bool × Nat
  | .s32 => (32, true, 1) | .u32 => (32, false, 1) | .s64 => (64, true, 1) | .u64 => (64, false, 1)
  | .s16x2 => (16, true, 2) | .u16x2 => (16, false, 2) | .s8x4 => (8, true, 4) | .u8x4 => (8, false, 4)
  | .f32 => (32, false, 1) | .f16 | .bf16 => (16, false, 1) | .f16x2 | .bf16x2 => (16, false, 2)

def signedTy (t : Ty) : Bool := (elemOf t).2.1

/-- `val(x, w)`: the integer that `w` bits denote. -/
def valOf (w : Nat) (signed : Bool) (x : Nat) : Int :=
  if signed then signedOf w x else ((x % 2 ^ w : Nat) : Int)

/-- The integer of a scalar operand. -/
def valTy (t : Ty) (x : Double) : Int := valOf t.bits (signedTy t) x.toNat

/-- `bits(n, W)`. -/
def bitsInt (w : Nat) (n : Int) : Nat := (n % 2 ^ w).toNat

def loOf (w : Nat) (signed : Bool) : Int := if signed then -(2 ^ (w - 1)) else 0
def hiOf (w : Nat) (signed : Bool) : Int := if signed then 2 ^ (w - 1) - 1 else 2 ^ w - 1

/-- `clamp(n, t)` (R89). -/
def clampInt (n lo hi : Int) : Res Int :=
  if n < lo then ⟨lo, flINTSAT⟩ else if hi < n then ⟨hi, flINTSAT⟩ else ⟨n, 0⟩

/-- `store(n, t, sat)` for a result of `w` bits (R89). -/
def storeInt (w : Nat) (signed sat : Bool) (n : Int) : Res Nat :=
  if sat then
    let r := clampInt n (loOf w signed) (hiOf w signed)
    ⟨bitsInt w r.val, r.fl⟩
  else ⟨bitsInt w n, 0⟩

/-- An integer operation on every element of its operands (R88). -/
def perElem (t : Ty) (sat : Bool) (f : Int → Int → Int → Int) (a b c : Double) : Res Double :=
  let (w, sg, k) := elemOf t
  let rs := (List.range k).map (fun i =>
    let el (x : Double) : Int := valOf w sg (x.toNat / 2 ^ (w * i))
    (i, storeInt w sg sat (f (el a) (el b) (el c))))
  ⟨BitVec.ofNat 64 (rs.foldl (fun n (i, r) => n + r.val * 2 ^ (w * i)) 0),
    rs.foldl (fun fl (_, r) => fl ||| r.fl) 0⟩

/-- A 64-bit result of `w` significant bits. -/
def ofBits (n : Nat) : Double := BitVec.ofNat 64 n

/-- An integer compare by its code (R107). -/
def cmpInt (op : Nat) (a b : Int) : Bool :=
  match op with
  | 0 => decide (a = b) | 1 => decide (a ≠ b) | 2 => decide (a < b) | 3 => decide (a ≤ b)
  | 4 => decide (b < a) | _ => decide (b ≤ a)

/-- A floating-point compare with its invalid flag (R107, R108). -/
def cmpFloat (op : Nat) (a b : FVal) : Res Bool :=
  let nan := a.isNan || b.isNan
  let c := cmpFVal a b
  match op with
  | 0 => ⟨!nan && c == 0, 0⟩
  | 1 => ⟨nan || c != 0, 0⟩
  | 2 => ⟨!nan && c == -1, if nan then flNV else 0⟩
  | 3 => ⟨!nan && c != 1, if nan then flNV else 0⟩
  | 4 => ⟨!nan && c == 1, if nan then flNV else 0⟩
  | 5 => ⟨!nan && c != -1, if nan then flNV else 0⟩
  | 6 => ⟨!nan, 0⟩
  | _ => ⟨nan, 0⟩

/-- A compare of two operands of a type. -/
def cmpTy (t : Ty) (op : Nat) (a b : Double) : Res Bool :=
  if t.int then ⟨cmpInt op (valTy t a) (valTy t b), 0⟩
  else cmpFloat op ((ffmtOf t).value a.toNat) ((ffmtOf t).value b.toNat)

/-- The combination of a compare with a truth value (R107). -/
def combine (cmb : Nat) (z c : Bool) : Bool :=
  match cmb with | 0 => z | 1 => z && c | 2 => z || c | _ => xor z c

/-- A function of three bits in algebraic normal form (R95). -/
def anf (k : Nat) (a b c : Bool) : Bool :=
  let t (i : Nat) (m : Bool) : Bool := k.testBit i && m
  xor (t 0 true) (xor (t 1 a) (xor (t 2 b) (xor (t 3 c)
    (xor (t 4 (a && b)) (xor (t 5 (a && c)) (xor (t 6 (b && c)) (t 7 (a && b && c))))))))

/-- The same on each bit of its operands. -/
def anfBits (k : Nat) (a b c : Double) : Double :=
  let t (i : Nat) (m : Double) : Double := if k.testBit i then m else 0
  t 0 (BitVec.allOnes 64) ^^^ t 1 a ^^^ t 2 b ^^^ t 3 c ^^^ t 4 (a &&& b) ^^^ t 5 (a &&& c) ^^^ t 6 (b &&& c) ^^^
    t 7 (a &&& b &&& c)

/-- An exact rational n / 2^s rounded to an integer (R102). -/
def roundShift (rm : Rnd) (n : Int) (s : Nat) : Int :=
  (roundInt rm (decide (n < 0)) n.natAbs (-(s : Int)) false).1

end Sys2Proof.Machine
end

