-- ==== Sys2Proof/Config.lean ====
section
/-! DEFINITION. What an implementation fixes and the spec leaves open, and the free values. -/

namespace Sys2Proof.Config

/-- The two hashes, 0 and 1, of the 1,024-bit signatures (R208, R313) on a block, modulo 1,024. The spec names
no hash, so nothing is known of them (log 6). -/
opaque hash1024 : Nat → Nat → Nat
/-- Which of the posted writes that may go next reaches the host (R197): the fabric's choice. Free (log 6). -/
opaque nextPosted : Nat → Nat
/-- What the trust unit draws for a key exchange (R381): word `i` of the answer to message `n`. Free (log 6). -/
opaque trustWord : Nat → Nat → Nat
/-- The device identity key (R381), derived inside the trust unit, which never leaves it. Free (log 6). -/
opaque identityKey : Nat
/-- What a key's holder publishes of it: the certificate chain of a slot, and the digests of the chains (R381). Free
(log 6). -/
opaque certificate : Nat → Nat → Nat
opaque chainDigests : Nat → Nat
/-- A signature of SLH-DSA-SHAKE-256f (R381): a key, what is signed, the randomness of the signature. Free (log 6). -/
opaque slhSign : Nat → List Nat → Nat → Nat
/-- The capability flags of SPDM (R381), which the spec does not list. Free (log 6). -/
opaque spdmFlags : Nat
/-- The public key fused at manufacture (R380). Free (log 6). -/
opaque fusedKey : Nat
/-- Verification with SLH-DSA-SHAKE-256s of FIPS 205 (R380): a public key, an image, a signature. Free (log 6). -/
opaque slhVerify : Nat → List (BitVec 8) → List (BitVec 8) → Bool
/-- The retire list (R390) in device memory at an address, whose layout the spec does not give: cores, DRAM layers and
lanes. Free (log 6). -/
opaque retireList : List (Nat × BitVec 8) → Nat → List Nat × List Nat × List Nat
/-- The DRAM layer, 0 to 3, of its stack that holds a line, which no rule gives. Free (log 6). -/
opaque layerOf : Nat → Nat
/-- The bin of a histogram of R390 for a reading: of a temperature, or of a droop. Free (log 6). -/
opaque histBin : Bool → Nat → Nat
/-- The PASID of a context of a function (R368, R378). Free (log 6). -/
opaque pasid : Nat → Nat → Nat
/-- The set of the last-level caches that a line belongs to (R375), and the way chosen where several may be taken: the
spec gives neither. Free (log 6). -/
opaque llcSet : Nat → Nat
opaque llcPick : Nat → Nat
/-- What a read of a temperature or a clock reports when no event has set it (R408 THERM). Free (log 6). -/
opaque thermalReading : Nat → Nat
/-- The check code that the home keeps over bits [23:0] of a directory entry (R185, R383): the spec names no
code (log 6). -/
opaque dirCheck : Nat → Nat
/-- The KIND of the record of a host access that failed translation (R378): the table of R385 gives it none.
One of the kinds 1 to 8, less 1: 9 and up are never written. Free (log 6). -/
opaque refusedKind : BitVec 3
/-- The index under which a lifetime counter is read (R390, R408): the spec numbers no record. The argument is
the kind of the counter × 2^32 + its unit. Free (log 6). -/
opaque lifeKey : Nat → Nat
/-- The salvaged records that the host refuses at a replay (R389), which only the host knows. Free (log 6). -/
opaque refusedRecords : Nat → List Nat
/-- How the time bases of the package's points move against each other (R7): at a tick, 5 × a point + how far it
runs ahead of the slowest. Free (log 6, log 135). -/
opaque drift : Nat → Nat
/-- The KIND of the stalled-queue entry of R198, likewise. Free (log 6). -/
opaque stalledKind : BitVec 3

/-- What the fabric, the network or a receiver answers to an engine's access of a peer at a time (R171 codes 0x0A,
0x02, 0x03, by the remainder modulo 4; 0 is acceptance): only the other part knows. Free (log 6). -/
opaque peerAnswer : Nat → Nat → Nat

end Sys2Proof.Config
end

