-- ==== Sys2Proof/Decode.lean ====
section
/-! DEFINITION. The decoder, total on any bytes, and the encoder (spec/03_instruction_words.md). -/

namespace Sys2Proof

/-- Why a word is no instruction: the clauses of R47. -/
inductive DecodeError where
  | truncated            -- fewer than 12 bytes
  | unassignedClass      -- CLASS 0xE or 0xF
  | unassignedFunction   -- FUNC beyond the last of its class
  | reservedSource | reservedDest | reservedType | reservedRounding | reservedScope | reservedSize
  | reservedBit          -- a reserved bit of the format is 1
  | illegalForm          -- an unused field is not zero, or the entry does not permit a value
  | noEncoding           -- the row is a step of another agent
  deriving DecidableEq, Repr

/-! ## Fields -/

/-- The number whose successive fields, lowest first, have the given widths and values. -/
def packFields : List (Nat × Nat) → Nat
  | [] => 0
  | (w, x) :: r => x % 2 ^ w + 2 ^ w * packFields r

/-- The successive fields of a number, lowest first. -/
def unpackFields : List Nat → Nat → List Nat
  | [], _ => []
  | w :: r, n => n % 2 ^ w :: unpackFields r (n / 2 ^ w)

/-- Format A, bits [11:0] first: reserved, Type, Rounding, OPX, SC, SB, SA, DST, HSLOT, HOLD, NWB, PN,
PG, U, FUNC, CLASS (R28, R29, R46). -/
def widthsA : List Nat := [12, 4, 3, 11, 12, 12, 12, 10, 2, 2, 1, 1, 3, 1, 6, 4]
/-- Format I: Type, OPX, IMM32, SB, SA, DST, HSLOT, HOLD, NWB, then as format A. -/
def widthsI : List Nat := [4, 6, 32, 12, 12, 10, 2, 2, 1, 1, 3, 1, 6, 4]
/-- Format M: OFFSET24, CACHE, SIZE, SC, SB, SA, DST, ORDER, SCOPE, then as format A. -/
def widthsM : List Nat := [24, 3, 3, 12, 12, 12, 10, 2, 3, 1, 3, 1, 6, 4]
/-- Format B: IMM22, OFF32, SA, DST, reserved [76], CTL, then as format A. -/
def widthsB : List Nat := [22, 32, 12, 10, 1, 4, 1, 3, 1, 6, 4]
/-- Format T: OPF, SC, SB, SA, TOK, reserved [77:76], SCOPE, then as format A. -/
def widthsT : List Nat := [30, 12, 12, 12, 10, 2, 3, 1, 3, 1, 6, 4]

namespace Src
/-- R31. -/
def code : Src → Nat
  | .v n => n.val
  | .g n => 0x200 + n.val
  | .p n => 0x240 + n.val
  | .gp n => 0x248 + n.val
  | .by1 => 0x280
  | .by2 => 0x281
  | .lt n => 0x284 + n.val
  | .special n => 0x2C0 + n.val
  | .imm n => 0x800 + n.toNat

/-- The operand of a source code; a reserved code is refused (R31, R32). -/
def ofCode (c : Nat) : Except DecodeError Src :=
  if c < 0x200 then .ok (.v (Fin.ofNat 512 c))
  else if c < 0x240 then .ok (.g (Fin.ofNat 64 (c - 0x200)))
  else if c < 0x248 then .ok (.p (Fin.ofNat 8 (c - 0x240)))
  else if c < 0x250 then .ok (.gp (Fin.ofNat 8 (c - 0x248)))
  else if c = 0x280 then .ok .by1
  else if c = 0x281 then .ok .by2
  else if 0x284 ≤ c ∧ c < 0x287 then .ok (.lt (Fin.ofNat 3 (c - 0x284)))
  else if 0x2C0 ≤ c ∧ c < 0x2DC then .ok (.special (Fin.ofNat 28 (c - 0x2C0)))
  else if 0x800 ≤ c ∧ c < 0x1000 then .ok (.imm (BitVec.ofNat 11 (c - 0x800)))
  else .error .reservedSource
end Src

namespace Dst
/-- R35. -/
def code : Dst → Nat
  | .v n => n.val
  | .g n => 0x200 + n.val
  | .p n => 0x240 + n.val
  | .gp n => 0x248 + n.val
  | .discard => 0x3FF

def ofCode (c : Nat) : Except DecodeError Dst :=
  if c < 0x200 then .ok (.v (Fin.ofNat 512 c))
  else if c < 0x240 then .ok (.g (Fin.ofNat 64 (c - 0x200)))
  else if c < 0x248 then .ok (.p (Fin.ofNat 8 (c - 0x240)))
  else if c < 0x250 then .ok (.gp (Fin.ofNat 8 (c - 0x248)))
  else if c = 0x3FF then .ok .discard
  else .error .reservedDest
end Dst

def Ty.code : Ty → Nat
  | .s32 => 0 | .u32 => 1 | .s64 => 2 | .u64 => 3 | .s16x2 => 4 | .u16x2 => 5 | .s8x4 => 6 | .u8x4 => 7
  | .f32 => 8 | .f16 => 9 | .bf16 => 10 | .f16x2 => 11 | .bf16x2 => 12

def Rnd.code : Rnd → Nat | .rn => 0 | .rz => 1 | .rd => 2 | .ru => 3 | .ra => 4
def Rnd.ofCode : Nat → Except DecodeError Rnd
  | 0 => .ok .rn | 1 => .ok .rz | 2 => .ok .rd | 3 => .ok .ru | 4 => .ok .ra | _ => .error .reservedRounding

def Scope.code : Scope → Nat | .warp => 0 | .core => 1 | .die => 2 | .device => 3 | .system => 4
def Scope.ofCode : Nat → Except DecodeError Scope
  | 0 => .ok .warp | 1 => .ok .core | 2 => .ok .die | 3 => .ok .device | 4 => .ok .system
  | _ => .error .reservedScope

def Order.code : Order → Nat | .relaxed => 0 | .acquire => 1 | .release => 2 | .acqrel => 3
def Order.ofCode : Nat → Order | 0 => .relaxed | 1 => .acquire | 2 => .release | _ => .acqrel

def Size.code : Size → Nat | .byte => 0 | .half => 1 | .word => 2 | .double => 3 | .quad => 4
def Size.ofCode : Nat → Except DecodeError Size
  | 0 => .ok .byte | 1 => .ok .half | 2 => .ok .word | 3 => .ok .double | 4 => .ok .quad
  | _ => .error .reservedSize

def Ty.decode (c : Nat) : Except DecodeError Ty :=
  match Ty.ofCode c with | some t => .ok t | none => .error .reservedType

/-- The common fields from U, PG and PN. -/
def Common.ofBits (pn pg u : Nat) : Common := ⟨u == 1, Fin.ofNat 8 pg, pn == 1⟩

def Common.fields (c : Common) (op : Nat) : List (Nat × Nat) :=
  [(1, c.pn.toNat), (3, c.pg.val), (1, c.u.toNat), (6, op % 64), (4, op / 64)]

/-! ## Forms: an opcode with the fields of its format -/

/-- An instruction word as its opcode and the fields of its format. -/
inductive Form where
  | a (op : Nat) (f : OpA)
  | i (op : Nat) (f : OpI)
  | m (op : Nat) (f : OpM)
  | b (op : Nat) (f : OpB)
  | t (op : Nat) (f : OpT)
  deriving DecidableEq, Repr

/-- The fields of a form, lowest first. -/
def Form.fields : Form → List (Nat × Nat)
  | .a op f => [(12, 0), (4, f.ty.code), (3, f.rnd.code), (11, f.opx.toNat), (12, f.c.code), (12, f.b.code),
      (12, f.a.code), (10, f.dst.code), (2, f.hslot.val), (2, f.hold.val), (1, f.nwb.toNat)] ++ f.com.fields op
  | .i op f => [(4, f.ty.code), (6, f.opx.toNat), (32, f.imm.toNat), (12, f.b.code), (12, f.a.code),
      (10, f.dst.code), (2, f.hslot.val), (2, f.hold.val), (1, f.nwb.toNat)] ++ f.com.fields op
  | .m op f => [(24, f.off.toNat), (3, f.cache.val), (3, f.size.code), (12, f.c.code), (12, f.b.code),
      (12, f.a.code), (10, f.dst.code), (2, f.order.code), (3, f.scope.code)] ++ f.com.fields op
  | .b op f => [(22, f.imm.toNat), (32, f.off.toNat), (12, f.a.code), (10, f.dst.code), (1, 0), (4, f.ctl.val)] ++
      f.com.fields op
  | .t op f => [(30, f.opf.toNat), (12, f.c.code), (12, f.b.code), (12, f.a.code), (10, f.tok.code), (2, 0),
      (3, f.scope.code)] ++ f.com.fields op

/-- The 96 bits of a form. -/
def Form.encode (f : Form) : BitVec 96 := BitVec.ofNat 96 (packFields f.fields)

/-- Format letters (R49). -/
inductive Fmt where
  | a | i | m | b | t
  deriving DecidableEq, Repr

/-- The last FUNC of each class (R49). -/
def lastFunc : Nat → Nat
  | 0 => 16 | 1 => 32 | 2 => 19 | 3 => 9 | 4 => 10 | 5 => 4 | 6 => 3 | 7 => 5 | 8 => 8 | 9 => 7
  | 10 => 5 | 11 => 9 | 12 => 9 | _ => 4

/-- The format that an opcode fixes (R29, R49). -/
def formatOf (op : Nat) : Except DecodeError Fmt :=
  let cls := op / 64
  if 14 ≤ cls then .error .unassignedClass
  else if lastFunc cls < op % 64 then .error .unassignedFunction
  else if op = 0x059 then .ok .i
  else if cls = 0 ∨ cls = 11 then .ok .b
  else if cls < 5 then .ok .a
  else if cls < 8 ∨ cls = 12 then .ok .m
  else .ok .t

/-- The fields of a word in the given format; a reserved code or bit is refused by name. -/
def parse (fmt : Fmt) (w : Nat) : Except DecodeError Form :=
  match fmt with
  | .a =>
    match unpackFields widthsA w with
    | [z, ty, rnd, opx, c, b, a, d, hs, ho, nwb, pn, pg, u, fn, cls] => do
      if z ≠ 0 then throw .reservedBit
      let ty ← Ty.decode ty
      let rnd ← Rnd.ofCode rnd
      let c ← Src.ofCode c
      let b ← Src.ofCode b
      let a ← Src.ofCode a
      let d ← Dst.ofCode d
      return .a (cls * 64 + fn) ⟨.ofBits pn pg u, nwb == 1, Fin.ofNat 4 ho, Fin.ofNat 4 hs, d, a, b, c, ty, rnd,
        BitVec.ofNat 11 opx⟩
    | _ => .error .truncated
  | .i =>
    match unpackFields widthsI w with
    | [ty, opx, imm, b, a, d, hs, ho, nwb, pn, pg, u, fn, cls] => do
      let ty ← Ty.decode ty
      let b ← Src.ofCode b
      let a ← Src.ofCode a
      let d ← Dst.ofCode d
      return .i (cls * 64 + fn) ⟨.ofBits pn pg u, nwb == 1, Fin.ofNat 4 ho, Fin.ofNat 4 hs, d, a, b,
        BitVec.ofNat 32 imm, ty, BitVec.ofNat 6 opx⟩
    | _ => .error .truncated
  | .m =>
    match unpackFields widthsM w with
    | [off, cache, size, c, b, a, d, ord, sc, pn, pg, u, fn, cls] => do
      let size ← Size.ofCode size
      let c ← Src.ofCode c
      let b ← Src.ofCode b
      let a ← Src.ofCode a
      let d ← Dst.ofCode d
      let sc ← Scope.ofCode sc
      return .m (cls * 64 + fn) ⟨.ofBits pn pg u, sc, .ofCode ord, d, a, b, c, size, Fin.ofNat 8 cache,
        BitVec.ofNat 24 off⟩
    | _ => .error .truncated
  | .b =>
    match unpackFields widthsB w with
    | [imm, off, a, d, z, ctl, pn, pg, u, fn, cls] => do
      if z ≠ 0 then throw .reservedBit
      let a ← Src.ofCode a
      let d ← Dst.ofCode d
      return .b (cls * 64 + fn) ⟨.ofBits pn pg u, Fin.ofNat 16 ctl, d, a, BitVec.ofNat 32 off, BitVec.ofNat 22 imm⟩
    | _ => .error .truncated
  | .t =>
    match unpackFields widthsT w with
    | [opf, c, b, a, tok, z, sc, pn, pg, u, fn, cls] => do
      if z ≠ 0 then throw .reservedBit
      let c ← Src.ofCode c
      let b ← Src.ofCode b
      let a ← Src.ofCode a
      let tok ← Dst.ofCode tok
      let sc ← Scope.ofCode sc
      return .t (cls * 64 + fn) ⟨.ofBits pn pg u, sc, tok, a, b, c, BitVec.ofNat 30 opf⟩
    | _ => .error .truncated

/-- The form of a word. -/
def parseWord (w : BitVec 96) : Except DecodeError Form :=
  match formatOf (w.toNat / 2 ^ 86) with
  | .error e => .error e
  | .ok fmt => parse fmt w.toNat

/-! ## Instructions and forms -/

/-- The form of an instruction row; a step of another agent has none. -/
def Instr.form : Instr → Option Form
  | .nop f => some (.b 0 f)
  | .bra f => some (.b 1 f)
  | .brx f => some (.b 2 f)
  | .rcv f => some (.b 3 f)
  | .join f => some (.b 4 f)
  | .loop f => some (.b 5 f)
  | .brk f => some (.b 6 f)
  | .next f => some (.b 7 f)
  | .call f => some (.b 8 f)
  | .callx f => some (.b 9 f)
  | .ret f => some (.b 10 f)
  | .exit f => some (.b 11 f)
  | .regang f => some (.b 12 f)
  | .safept f => some (.b 13 f)
  | .safeptRf f => some (.b 13 f)
  | .yield f => some (.b 14 f)
  | .yieldExpiry _ => none
  | .trap f => some (.b 15 f)
  | .bkpt f => some (.b 16 f)
  | .safePointOverdue _ => none
  | .iadd f => some (.a 64 f)
  | .isub f => some (.a 65 f)
  | .imul f => some (.a 66 f)
  | .imulh f => some (.a 67 f)
  | .imad f => some (.a 68 f)
  | .imadw f => some (.a 69 f)
  | .imin f => some (.a 70 f)
  | .imax f => some (.a 71 f)
  | .iabs f => some (.a 72 f)
  | .andL f => some (.a 73 f)
  | .orL f => some (.a 74 f)
  | .xorL f => some (.a 75 f)
  | .lop3 f => some (.a 76 f)
  | .shl f => some (.a 77 f)
  | .shr f => some (.a 78 f)
  | .sar f => some (.a 79 f)
  | .shf f => some (.a 80 f)
  | .popc f => some (.a 81 f)
  | .clz f => some (.a 82 f)
  | .ctz f => some (.a 83 f)
  | .brev f => some (.a 84 f)
  | .bfx f => some (.a 85 f)
  | .bfi f => some (.a 86 f)
  | .sel f => some (.a 87 f)
  | .mov f => some (.a 88 f)
  | .movi f => some (.i 89 f)
  | .lea f => some (.a 90 f)
  | .idp4 f => some (.a 91 f)
  | .pmac2 f => some (.a 92 f)
  | .sarn f => some (.a 93 f)
  | .isat f => some (.a 94 f)
  | .rget f => some (.a 95 f)
  | .rput f => some (.a 96 f)
  | .isetp f => some (.a 256 f)
  | .fsetp f => some (.a 257 f)
  | .plop f => some (.a 258 f)
  | .pmovGet f => some (.a 259 f)
  | .pmovSet f => some (.a 259 f)
  | .vote f => some (.a 260 f)
  | .shfl f => some (.a 261 f)
  | .slide f => some (.a 262 f)
  | .redux f => some (.a 263 f)
  | .scan f => some (.a 266 f)
  | .matchL f => some (.a 264 f)
  | .prmt f => some (.a 265 f)
  | .fadd f => some (.a 128 f)
  | .fsub f => some (.a 129 f)
  | .fmul f => some (.a 130 f)
  | .ffma f => some (.a 131 f)
  | .fmin f => some (.a 132 f)
  | .fmax f => some (.a 133 f)
  | .frcp f => some (.a 134 f)
  | .frsq f => some (.a 135 f)
  | .fsqrt f => some (.a 136 f)
  | .fexp2 f => some (.a 137 f)
  | .flog2 f => some (.a 138 f)
  | .fclass f => some (.a 139 f)
  | .fscale f => some (.a 140 f)
  | .frnd f => some (.a 141 f)
  | .hadd2 f => some (.a 142 f)
  | .hmul2 f => some (.a 143 f)
  | .hfma2 f => some (.a 144 f)
  | .hmin2 f => some (.a 145 f)
  | .hmax2 f => some (.a 146 f)
  | .fdot2 f => some (.a 147 f)
  | .cvt f => some (.a 192 f)
  | .fcvt f => some (.a 193 f)
  | .pk2 f => some (.a 194 f)
  | .upk2 f => some (.a 195 f)
  | .e10enc f => some (.a 196 f)
  | .e10dec f => some (.a 197 f)
  | .rnsenc f => some (.a 198 f)
  | .rnsdec f => some (.a 199 f)
  | .qnt f => some (.a 200 f)
  | .dqnt f => some (.a 201 f)
  | .ld f => some (.m 320 f)
  | .st f => some (.m 321 f)
  | .prf f => some (.m 322 f)
  | .fence f => some (.m 323 f)
  | .cctlInv f => some (.m 324 f)
  | .cctlWb f => some (.m 324 f)
  | .cctlWbinv f => some (.m 324 f)
  | .cctlZero f => some (.m 324 f)
  | .cctlInvall f => some (.m 324 f)
  | .atom f => some (.m 384 f)
  | .cas f => some (.m 385 f)
  | .red f => some (.m 386 f)
  | .bupd f => some (.m 387 f)
  | .binit f => some (.m 448 f)
  | .barv f => some (.m 449 f)
  | .bwait f => some (.m 450 f)
  | .barw f => some (.m 451 f)
  | .bexp f => some (.m 452 f)
  | .waita f => some (.m 453 f)
  | .waitaDeadline _ _ => none
  | .cpy f => some (.t 512 f)
  | .cpyt f => some (.t 513 f)
  | .cpyg f => some (.t 514 f)
  | .cpys f => some (.t 515 f)
  | .cpyr f => some (.t 516 f)
  | .cpyx f => some (.t 517 f)
  | .cpyq f => some (.t 518 f)
  | .cpyc f => some (.t 519 f)
  | .osld f => some (.t 520 f)
  | .engineStart _ => none
  | .copyElement _ => none
  | .tokenWrite _ => none
  | .byteAddition _ => none
  | .cpyxFollowOn _ => none
  | .mma f => some (.t 576 f)
  | .mmag f => some (.t 577 f)
  | .tzero f => some (.t 578 f)
  | .tqnt f => some (.t 579 f)
  | .tdq f => some (.t 580 f)
  | .tcrt f => some (.t 581 f)
  | .ttrn f => some (.t 582 f)
  | .tstat f => some (.t 583 f)
  | .sequencerStart _ => none
  | .tileStep _ => none
  | .tileStop _ => none
  | .tileResume _ => none
  | .kvx f => some (.t 640 f)
  | .kvvalSet f => some (.t 641 f)
  | .kvvalClr f => some (.t 641 f)
  | .kvrcl f => some (.t 642 f)
  | .skchSlot f => some (.t 643 f)
  | .skchVec f => some (.t 643 f)
  | .attn f => some (.t 644 f)
  | .attnq f => some (.t 645 f)
  | .sploop f => some (.b 704 f)
  | .spput f => some (.b 705 f)
  | .spacc f => some (.b 706 f)
  | .spnext f => some (.b 707 f)
  | .spend f => some (.b 708 f)
  | .spq f => some (.b 709 f)
  | .wayKeep _ => none
  | .atomb f => some (.b 710 f)
  | .atome f => some (.b 711 f)
  | .atoma f => some (.b 712 f)
  | .atomq f => some (.b 713 f)
  | .commit _ => none
  | .conflictNotice _ _ => none
  | .rootsw f => some (.m 768 f)
  | .rootcpFork f => some (.m 769 f)
  | .rootcpSnap f => some (.m 769 f)
  | .rootcpDrop f => some (.m 769 f)
  | .rfrsh f => some (.m 770 f)
  | .tnode f => some (.m 771 f)
  | .pgmapFt f => some (.m 772 f)
  | .pgmapCow f => some (.m 772 f)
  | .tret f => some (.m 773 f)
  | .tretKill f => some (.m 773 f)
  | .csrr f => some (.m 774 f)
  | .csrw f => some (.m 775 f)
  | .fltq f => some (.m 776 f)
  | .pgreq f => some (.m 777 f)
  | .pageResponse _ _ => none
  | .faultReply _ _ _ => none
  | .launch f => some (.t 832 f)
  | .emit f => some (.t 833 f)
  | .ndone f => some (.t 834 f)
  | .slotw f => some (.t 835 f)
  | .prmptStop f => some (.t 836 f)
  | .prmptEvict f => some (.t 836 f)
  | .slotTableSwap _ => none
  | .issueCycle _ => none
  | .gangWake _ => none
  | .fetch _ _ => none
  | .leaseExpiry _ _ => none
  | .writePerform _ => none
  | .writeAck _ => none
  | .releaseIssue _ => none
  | .loadReturn _ => none
  | .rds _ _ _ => none
  | .rdx _ _ _ => none
  | .upg _ _ _ => none
  | .wbd _ _ _ => none
  | .evc _ _ _ => none
  | .snpinv _ _ => none
  | .snpfwd _ _ => none
  | .snpfwdx _ _ => none
  | .ackinv _ _ _ => none
  | .rspd _ _ _ => none
  | .rspi _ _ _ => none
  | .dats _ _ => none
  | .date _ _ => none
  | .datm _ _ => none
  | .grant _ _ => none
  | .wback _ _ => none
  | .backInvalidate _ => none
  | .hostSnoop _ _ _ => none
  | .hostAccess _ _ => none
  | .hostBarAccess _ _ _ => none
  | .postedWriteAck _ => none
  | .flushDone _ => none
  | .recordRefetch _ _ _ => none
  | .groupForm _ _ => none
  | .coalesceTimeout _ _ => none
  | .dispatch _ => none
  | .admitTeam _ => none
  | .teamRetire _ => none
  | .instanceComplete _ => none
  | .preemptRequest _ => none
  | .warpSave _ => none
  | .warpResume _ _ => none
  | .quantumExpiry _ => none
  | .parkYield _ => none
  | .reclaimRoot => none
  | .correctedError _ _ _ _ => none
  | .uncorrectableError _ => none
  | .dirEntryError _ _ => none
  | .hostLinkDown => none
  | .ideIntegrityFailure _ => none
  | .linkRecover => none
  | .replay _ => none
  | .disc => none
  | .cold _ => none
  | .warm _ => none
  | .bootStage _ _ => none
  | .thermalTrip _ => none
  | .thermalThrottle _ => none
  | .throttleRelease _ => none
  | .getVersion => none
  | .getCapabilities => none
  | .negotiateAlgorithms _ => none
  | .getDigests => none
  | .getCertificate _ => none
  | .challenge _ => none
  | .getMeasurements _ => none
  | .keyExchange _ => none
  | .finish _ => none
  | .endSession => none
  | .ideKm _ _ => none
  | .registerWrite _ _ _ _ => none
  | .timeBaseTick => none
  | .peerAccess _ => none
  | .backInvalidationResponse _ => none
  | .hostCacheResponse _ _ => none
  | .configurationAccess _ _ => none
  | .linkRetrain _ => none

/-- The instruction of an opcode of format A (R49); a modifier that splits an opcode into rows chooses here. -/
def buildA (op : Nat) (f : OpA) : Option Instr :=
  match op with
  | 64 => some (.iadd f)
  | 65 => some (.isub f)
  | 66 => some (.imul f)
  | 67 => some (.imulh f)
  | 68 => some (.imad f)
  | 69 => some (.imadw f)
  | 70 => some (.imin f)
  | 71 => some (.imax f)
  | 72 => some (.iabs f)
  | 73 => some (.andL f)
  | 74 => some (.orL f)
  | 75 => some (.xorL f)
  | 76 => some (.lop3 f)
  | 77 => some (.shl f)
  | 78 => some (.shr f)
  | 79 => some (.sar f)
  | 80 => some (.shf f)
  | 81 => some (.popc f)
  | 82 => some (.clz f)
  | 83 => some (.ctz f)
  | 84 => some (.brev f)
  | 85 => some (.bfx f)
  | 86 => some (.bfi f)
  | 87 => some (.sel f)
  | 88 => some (.mov f)
  | 90 => some (.lea f)
  | 91 => some (.idp4 f)
  | 92 => some (.pmac2 f)
  | 93 => some (.sarn f)
  | 94 => some (.isat f)
  | 95 => some (.rget f)
  | 96 => some (.rput f)
  | 128 => some (.fadd f)
  | 129 => some (.fsub f)
  | 130 => some (.fmul f)
  | 131 => some (.ffma f)
  | 132 => some (.fmin f)
  | 133 => some (.fmax f)
  | 134 => some (.frcp f)
  | 135 => some (.frsq f)
  | 136 => some (.fsqrt f)
  | 137 => some (.fexp2 f)
  | 138 => some (.flog2 f)
  | 139 => some (.fclass f)
  | 140 => some (.fscale f)
  | 141 => some (.frnd f)
  | 142 => some (.hadd2 f)
  | 143 => some (.hmul2 f)
  | 144 => some (.hfma2 f)
  | 145 => some (.hmin2 f)
  | 146 => some (.hmax2 f)
  | 147 => some (.fdot2 f)
  | 192 => some (.cvt f)
  | 193 => some (.fcvt f)
  | 194 => some (.pk2 f)
  | 195 => some (.upk2 f)
  | 196 => some (.e10enc f)
  | 197 => some (.e10dec f)
  | 198 => some (.rnsenc f)
  | 199 => some (.rnsdec f)
  | 200 => some (.qnt f)
  | 201 => some (.dqnt f)
  | 256 => some (.isetp f)
  | 257 => some (.fsetp f)
  | 258 => some (.plop f)
  | 259 => if f.opx.getLsbD 0 = false then some (.pmovGet f) else if f.opx.getLsbD 0 = true then some (.pmovSet f) else none
  | 260 => some (.vote f)
  | 261 => some (.shfl f)
  | 262 => some (.slide f)
  | 263 => some (.redux f)
  | 264 => some (.matchL f)
  | 265 => some (.prmt f)
  | 266 => some (.scan f)
  | _ => none

/-- The instruction of an opcode of format I (R49); a modifier that splits an opcode into rows chooses here. -/
def buildI (op : Nat) (f : OpI) : Option Instr :=
  match op with
  | 89 => some (.movi f)
  | _ => none

/-- The instruction of an opcode of format M (R49); a modifier that splits an opcode into rows chooses here. -/
def buildM (op : Nat) (f : OpM) : Option Instr :=
  match op with
  | 320 => some (.ld f)
  | 321 => some (.st f)
  | 322 => some (.prf f)
  | 323 => some (.fence f)
  | 324 => if f.cache = 0 then some (.cctlInv f) else if f.cache = 1 then some (.cctlWb f) else if f.cache = 2 then some (.cctlWbinv f) else if f.cache = 3 then some (.cctlZero f) else if f.cache = 4 then some (.cctlInvall f) else none
  | 384 => some (.atom f)
  | 385 => some (.cas f)
  | 386 => some (.red f)
  | 387 => some (.bupd f)
  | 448 => some (.binit f)
  | 449 => some (.barv f)
  | 450 => some (.bwait f)
  | 451 => some (.barw f)
  | 452 => some (.bexp f)
  | 453 => some (.waita f)
  | 768 => some (.rootsw f)
  | 769 => if f.cache = 0 then some (.rootcpFork f) else if f.cache = 1 then some (.rootcpSnap f) else if f.cache = 2 then some (.rootcpDrop f) else none
  | 770 => some (.rfrsh f)
  | 771 => some (.tnode f)
  | 772 => if f.cache = 0 then some (.pgmapFt f) else if f.cache = 1 then some (.pgmapCow f) else none
  | 773 => if f.cache = 0 then some (.tret f) else if f.cache = 1 then some (.tretKill f) else none
  | 774 => some (.csrr f)
  | 775 => some (.csrw f)
  | 776 => some (.fltq f)
  | 777 => some (.pgreq f)
  | _ => none

/-- The instruction of an opcode of format B (R49); a modifier that splits an opcode into rows chooses here. -/
def buildB (op : Nat) (f : OpB) : Option Instr :=
  match op with
  | 0 => some (.nop f)
  | 1 => some (.bra f)
  | 2 => some (.brx f)
  | 3 => some (.rcv f)
  | 4 => some (.join f)
  | 5 => some (.loop f)
  | 6 => some (.brk f)
  | 7 => some (.next f)
  | 8 => some (.call f)
  | 9 => some (.callx f)
  | 10 => some (.ret f)
  | 11 => some (.exit f)
  | 12 => some (.regang f)
  | 13 => if f.ctl = 0 then some (.safept f) else if f.ctl = 1 then some (.safeptRf f) else none
  | 14 => some (.yield f)
  | 15 => some (.trap f)
  | 16 => some (.bkpt f)
  | 704 => some (.sploop f)
  | 705 => some (.spput f)
  | 706 => some (.spacc f)
  | 707 => some (.spnext f)
  | 708 => some (.spend f)
  | 709 => some (.spq f)
  | 710 => some (.atomb f)
  | 711 => some (.atome f)
  | 712 => some (.atoma f)
  | 713 => some (.atomq f)
  | _ => none

/-- The instruction of an opcode of format T (R49); a modifier that splits an opcode into rows chooses here. -/
def buildT (op : Nat) (f : OpT) : Option Instr :=
  match op with
  | 512 => some (.cpy f)
  | 513 => some (.cpyt f)
  | 514 => some (.cpyg f)
  | 515 => some (.cpys f)
  | 516 => some (.cpyr f)
  | 517 => some (.cpyx f)
  | 518 => some (.cpyq f)
  | 519 => some (.cpyc f)
  | 520 => some (.osld f)
  | 576 => some (.mma f)
  | 577 => some (.mmag f)
  | 578 => some (.tzero f)
  | 579 => some (.tqnt f)
  | 580 => some (.tdq f)
  | 581 => some (.tcrt f)
  | 582 => some (.ttrn f)
  | 583 => some (.tstat f)
  | 640 => some (.kvx f)
  | 641 => if f.opf.getLsbD 0 = false then some (.kvvalSet f) else if f.opf.getLsbD 0 = true then some (.kvvalClr f) else none
  | 642 => some (.kvrcl f)
  | 643 => if f.opf.getLsbD 0 = false then some (.skchSlot f) else if f.opf.getLsbD 0 = true then some (.skchVec f) else none
  | 644 => some (.attn f)
  | 645 => some (.attnq f)
  | 832 => some (.launch f)
  | 833 => some (.emit f)
  | 834 => some (.ndone f)
  | 835 => some (.slotw f)
  | 836 => if f.opf.getLsbD 0 = false then some (.prmptStop f) else if f.opf.getLsbD 0 = true then some (.prmptEvict f) else none
  | _ => none

/-- The instruction of a form, before its legality is checked. -/
def Form.build : Form → Option Instr
  | .a op f => buildA op f
  | .i op f => buildI op f
  | .m op f => buildM op f
  | .b op f => buildB op f
  | .t op f => buildT op f

/-- The instruction a 96-bit word encodes (R26 to R49). Every illegal word is refused by name (R47). -/
def decode (w : BitVec 96) : Except DecodeError Instr :=
  match parseWord w with
  | .error e => .error e
  | .ok f =>
    match f.build with
    | none => .error .illegalForm
    | some i => if i.wf then .ok i else .error .illegalForm

/-- The word of an instruction; none for a step of another agent. -/
def encode (i : Instr) : Option (BitVec 96) := i.form.map Form.encode

/-! ## Bytes -/

/-- The little-endian number of a list of bytes (R1). -/
def leNat : List Byte → Nat
  | [] => 0
  | b :: r => b.toNat + 256 * leNat r

/-- `n` bytes of a number, lowest first (R1). -/
def leBytes : Nat → Nat → List Byte
  | 0, _ => []
  | n + 1, x => BitVec.ofNat 8 x :: leBytes n (x / 256)

/-- Decoding from memory: twelve bytes, three little-endian words, W0 lowest (R26). -/
def decodeBytes (bs : List Byte) : Except DecodeError (Instr × List Byte) :=
  if bs.length < 12 then .error .truncated
  else match decode (BitVec.ofNat 96 (leNat (bs.take 12))) with
    | .ok i => .ok (i, bs.drop 12)
    | .error e => .error e

/-- The bytes of an instruction. -/
def encodeBytes (i : Instr) : Option (List Byte) := (encode i).map (fun w => leBytes 12 w.toNat)

/-- The instruction the decoder reads from a word whose bits are `w`, numbered as the opcode table numbers
them; the bits above `nbits` are zero. -/
def decodeTableWord (nbits w : Nat) : Option Instr :=
  match decodeBytes (leBytes 12 (w % 2 ^ nbits)) with
  | .ok (i, _) => some i
  | .error _ => none

end Sys2Proof
end

