-- ==== Sys2Proof/Machine/Table.lean ====
section
/-! DEFINITION. Sparse tables in one canonical form: keys rising, no entry equal to the value that an
unlisted key reads as. Memory, register files and every other indexed store are such tables. -/

namespace Sys2Proof.Machine

/-- A table from numbers to values. -/
abbrev Tab (α : Type) := List (Nat × α)

/-- The value at a key; `d` where nothing is listed. -/
def Tab.get {α : Type} (d : α) : Tab α → Nat → α
  | [], _ => d
  | (j, x) :: r, k => if j = k then x else Tab.get d r k

/-- Without an entry at a key. -/
def Tab.erase {α : Type} : Tab α → Nat → Tab α
  | [], _ => []
  | (j, x) :: r, k => if j = k then Tab.erase r k else (j, x) :: Tab.erase r k

/-- An entry put where the keys stay rising. -/
def Tab.insert {α : Type} : Tab α → Nat → α → Tab α
  | [], k, v => [(k, v)]
  | (j, x) :: r, k, v => if k < j then (k, v) :: (j, x) :: r else (j, x) :: Tab.insert r k v

/-- The table with one value changed; the value that an unlisted key reads as removes the entry. -/
def Tab.set {α : Type} [DecidableEq α] (d : α) (t : Tab α) (k : Nat) (v : α) : Tab α :=
  if v = d then t.erase k else (t.erase k).insert k v

/-- One value changed by a function. -/
def Tab.modify {α : Type} [DecidableEq α] (d : α) (t : Tab α) (k : Nat) (f : α → α) : Tab α :=
  t.set d k (f (t.get d k))

/-- The canonical form. -/
def Tab.canon {α : Type} [DecidableEq α] (d : α) : Tab α → Bool
  | [] => true
  | [(_, x)] => decide (x ≠ d)
  | (j, x) :: (k, y) :: r => decide (x ≠ d) && decide (j < k) && Tab.canon d ((k, y) :: r)

/-- Presence in a table of things that exist or do not. -/
def Tab.find {α : Type} : Tab α → Nat → Option α
  | [], _ => none
  | (j, x) :: r, k => if j = k then some x else Tab.find r k

/-- A thing put into such a table. -/
def Tab.put {α : Type} (t : Tab α) (k : Nat) (v : α) : Tab α := (t.erase k).insert k v

/-- A thing changed, if it is there. -/
def Tab.upd {α : Type} : Tab α → Nat → (α → α) → Tab α
  | [], _, _ => []
  | (j, x) :: r, k, f => if j = k then (j, f x) :: r else (j, x) :: Tab.upd r k f

end Sys2Proof.Machine
end

