-- ==== Sys2Proof/Machine/State.lean ====
section
/-! DEFINITION. The state of the part: everything the spec gives it, as plain data, and its reset. -/

namespace Sys2Proof.Machine

/-! ## A warp (R50 to R62) -/

/-- A reconvergence token (R57): kind 0 reconverge, 1 loop, 2 call; its PC field has 56 bits. -/
structure Token where
  kind : Nat
  mask : BitVec 4
  pc   : BitVec 56
  deriving DecidableEq, Repr

/-- A slice (R50): its PC, active mask and token stack, the top token first; finished (R51). -/
structure Slice where
  pc    : Double := 0
  mask  : BitVec 4 := 0
  stack : List Token := []
  fin   : Bool := true
  deriving DecidableEq, Repr

/-- A tag (R204): the value of symbol `sym` of the lane's region plus a constant. -/
structure Tag where
  sym : Nat
  k   : Double
  deriving DecidableEq, Repr

/-- What can carry a tag in a lane (R204). -/
inductive Loc where
  | v (n : Nat) | p (n : Nat) | by1 | by2 | lt (n : Nat)
  deriving DecidableEq, Repr

/-- The bypass and latches of a gang (R44, R45): the position of the last member issued (0 outside a
chain), how many members are still to issue, and each lane's values. -/
structure Chain where
  pos  : Nat := 0
  left : Nat := 0
  by1  : Tab Double := []
  by2  : Tab Double := []
  lt0  : Tab Double := []
  lt1  : Tab Double := []
  lt2  : Tab Double := []
  deriving DecidableEq, Repr

/-- Why a gang is parked (R296), or stopped at a safe point (R81, R297). -/
inductive Park where
  | none
  | regang
  | sput (s : Nat)          -- SPPUT, with its S (R311)
  | wait (id : Nat)         -- BWAIT, BARW, WAITA, FLTQ or PGREQ, with the waiter's identifier
  | token                   -- an ATOMB that waits for the die's region token (R214)
  | commit (id : Nat)       -- an ATOME that waits for its commit
  | safept (live : Nat)     -- stopped at a SAFEPT with its live-set entry's bits
  | spnext                  -- waiting at SPNEXT (R312)
  deriving DecidableEq, Repr

/-- A gang (R50, R56): its slices, its safe-point count (R82), the cycles a YIELD still takes (R83), its
chain, and the stamp of its last full fence (R140). -/
structure Gang where
  slices : BitVec 8 := 0
  count  : Nat := 0
  park   : Park := .none
  cyc    : Nat := 0
  chain  : Chain := {}
  fence  : Nat := 0
  deriving DecidableEq, Repr

/-- The state that a way copies (R308): every register, predicate and slice of a warp. Vector registers
are keyed by 32 × register + lane, predicates by lane. Poison is per granule of 64 bits (R384). -/
structure Arch where
  v      : Tab Word := []
  p      : Tab (BitVec 8) := []
  g      : Tab Word := []
  gp     : BitVec 8 := 0
  fstat  : Word := 0
  sfmask : Double := 0
  exited : Lanes := 0
  slices : List Slice := []
  gangs  : List Gang := []
  vpois  : Tab Bool := []
  gpois  : Tab Bool := []
  deriving DecidableEq, Repr

/-- A register or predicate awaited by the scoreboard (R106, R153, R171): the request or operation that
will write it, the way, and the lanes. -/
structure Busy where
  id    : Nat
  way   : Nat
  sup   : Bool := false          -- awaited by the handler in its own bank
  reg   : Dst
  lanes : Lanes
  deriving DecidableEq, Repr

/-- A symbol (R204): its location, width in bytes and observed value. -/
structure Sym where
  ta   : Nat
  len  : Nat
  obs  : Nat
  deriving DecidableEq, Repr

/-- A constraint (R205): exact, or a comparison `cmp` of the symbol plus `k` with another value, read as a
type, with the symbol on the left or the right, and its observed outcome. -/
inductive Con where
  | exact (sym : Nat)
  | cmp (sym : Nat) (k : Double) (op : Nat) (ty : Ty) (other : Double) (left : Bool) (out : Bool)
  deriving DecidableEq, Repr

/-- A store kept in a region: deferred (R205) with its symbol, or buffered (R206) with its bytes. -/
inductive RStore where
  | deferred (ta len : Nat) (t : Tag)
  | buffered (ta : Nat) (bytes : List Byte)
  deriving DecidableEq, Repr

/-- A lane's region (R199 to R207). `doom` is the cause of R201, 0 while it is open; stores are oldest first. -/
structure Region where
  fallback : Double
  status   : Option Nat
  pc       : Double
  serial   : Bool := false
  stale    : Bool := false
  doom     : Nat := 0
  syms     : List Sym := []
  cons     : List Con := []
  stores   : List RStore := []
  tags     : List (Loc × Tag) := []
  pols     : Tab Nat := []        -- by line, the cache policy of the latest store (R151)
  deriving DecidableEq, Repr

/-- An acceptance rule (R310). -/
structure AccRule where
  reg   : Nat
  mode  : Nat
  param : Word
  deriving DecidableEq, Repr

/-- A KVVAL recorded by a way (R315, R327). -/
structure KvRec where
  set    : Bool
  len    : Bool
  scope  : Scope
  -- (lane, header address, slot, table address, position)
  lanes  : List (Nat × Nat × Nat × Nat × Nat)
  deriving DecidableEq, Repr

/-- A signature of 64-byte blocks (R208, R313). -/
abbrev Sign := BitVec 1024

/-- A way of a speculative loop (R308 to R315). State 1 guessing, 2 in body, 3 at SPNEXT. -/
structure Way where
  arch    : Arch
  start   : Arch
  st      : Nat
  guesses : Tab Word := []
  lines   : Tab Byte := []       -- buffered bytes by target address
  unc     : List Nat := []       -- the uncached host lines among them
  kv      : List KvRec := []
  reads   : Tab Bool := []       -- by register key: 32 n + lane, and above 2^14 the other registers
  wrote   : Tab Bool := []
  sig     : Sign := 0            -- blocks loaded (R313)
  blocks  : List Nat := []       -- blocks written
  oldest  : Bool := false
  pred    : Nat := 0             -- the exit predicate that its SPNEXT names (R312)
  pols    : Tab Nat := []        -- by line, the cache policy of the latest store (R151)
  stuck   : BitVec 8 := 0        -- slices whose next instruction waits until the way is oldest (R315)
  late    : BitVec 8 := 0        -- slices whose deferred trap arose before it was (R359 SPEC)
  last    : Nat := 7             -- lowest slice of the last issued gang (R59)
  deriving DecidableEq, Repr

/-- The loop record and its round (R309, R316). -/
structure SpecLoop where
  id      : Nat := 0             -- the model's own: which loop of the warp it is
  sup     : Bool := false        -- begun by the warp's handler (R318, log 132)
  n       : Nat
  done    : Nat := 0
  squash  : Nat := 0
  c       : Nat
  b       : Nat
  w       : Nat
  ew      : Nat
  guess   : Double
  body    : Double
  pred    : Nat := 0
  ending  : Bool := false        -- SPEND must follow (R319)
  depths  : List Nat := []       -- each slice's token depth after SPLOOP (R312)
  base    : Nat := 0             -- first iteration of the round
  ctxs    : List Nat := []       -- clone contexts, of ways 1 and up (R309)
  committed : Arch := {}
  ways    : Tab Way := []        -- the live ways by number
  deriving DecidableEq, Repr

/-- The trap record (R359) and what R357 saved. -/
structure TrapRec where
  cause  : Nat
  code   : Nat := 0
  spec   : Bool := false
  tpc    : Double
  tepc   : Double
  tmemb  : Double
  tmask  : Lanes
  taddr  : Tab Double := []
  tkind  : Nat := 3
  way    : Nat := 0
  slices : List Slice
  gangs  : List Gang
  gang   : Nat                   -- a slice of the trapping gang
  p      : Tab (BitVec 8)
  gp     : BitVec 8
  fstat  : Word
  g      : List Word             -- g48 to g63
  sup    : Tab Word := []        -- the supervisor window v0 to v31
  vpois  : Tab Bool := []        -- poisoned granules of the window, and of the handler's own g48 to g63 (R384)
  gpois  : Tab Bool := []
  count  : Nat := 0              -- handler instructions since entry (R360)
  nest   : Bool := false
  fwd    : Bool := false         -- forwarded: leaves the handler on the reply (R365)
  deriving DecidableEq, Repr

/-- A wake for a parked gang (R164, R296): the waiter and what it delivers. -/
structure Wake where
  id     : Nat
  status : Nat
  value  : Word := 0
  deriving DecidableEq, Repr

/-- A warp. Saved: `place` is none. -/
structure Warp where
  team    : Nat := 0
  inst    : Nat := 0
  num     : Nat := 0
  core    : Nat := 0
  ctx     : Nat := 0
  placed  : Bool := true
  order   : Nat := 0             -- admission order (R59)
  alloc   : Nat := 16
  ident   : Nat := 0             -- identifier of lane 0 (R53)
  widths  : List Nat := []
  nlanes  : Nat := 32
  tenant  : Nat := 0
  asd     : Nat := 0
  root    : Nat := 0             -- the pinned root (R346)
  lstab   : Nat := 0             -- the live-set table's address (R287, R288)
  arch    : Arch := {}
  loop    : Option SpecLoop := none
  rules   : List AccRule := []
  trap    : Option TrapRec := none
  busy    : List Busy := []
  late    : List (Busy × Nat) := []    -- results not yet in their registers, with the cycles left (R306)
  wpend   : Nat := 0
  gDie    : Nat := 0
  gDev    : Nat := 0
  gSys    : Nat := 0
  regions : Tab Region := []     -- by lane
  cause   : Tab Nat := []        -- last abort cause by lane (R216)
  aborts  : List (Double × Nat) := []  -- abort count by ATOMB PC (R214)
  group   : List (Nat × Bool) := []    -- open group of PGREQ (R368)
  preempt : Bool := false
  evict   : Bool := false
  wakes   : List Wake := []
  posted  : Option Nat := none   -- the most recent posted write awaiting its flush (R196)
  ndone   : Bool := false
  last    : Nat := 7             -- lowest slice of the last issued gang (R59)
  since   : Nat := 0             -- when its gangs were all parked (R299)
  gone    : Bool := false        -- retired, its pin released (R346)
  deriving DecidableEq, Repr

/-- A team (R65, R126): scratchpad size and bytes, its written sectors, poisoned granules (R384). -/
structure Team where
  inst    : Nat := 0
  index   : Nat := 0
  core    : Nat := 0
  slot    : Nat := 0
  size    : Nat := 0
  opst    : Bool := false
  bytes   : Tab Byte := []
  sectors : Tab Bool := []
  pois    : Tab Bool := []
  units   : Nat := 0             -- granules of its scratchpad (R65)
  deriving DecidableEq, Repr

/-! ## Requests, writes and operations in flight -/

/-- One lane's access (R146, R149): target address (scratchpad from 2^65, the register window from 2^66), length, data, compare value; the byte offsets that a
load still lacks. -/
structure Acc where
  lane : Nat
  ta   : Nat
  len  : Nat
  unc  : Bool := false           -- an uncached host line (R122)
  val  : Nat := 0
  cmp  : Nat := 0
  old  : Nat := 0                -- the bytes read
  left : List Nat := []
  home : Bool := false           -- fetched from the die home point whatever copies there are (R200, R204)
  tag  : Option (Nat × Nat) := none  -- in a region, the symbol and constant of the result's tag (R204)
  obs  : Option Nat := none      -- the symbol whose observed value this load brings
  pois : Bool := false
  deriving DecidableEq, Repr

/-- What a lane of KVX, KVVAL or SKCH found (R325): KVX's address, a page header's or a sketch's place; the slot, the
table's place, the position, the header's place, the sketch. -/
structure KvRes where
  lane : Nat
  addr : Nat
  slot : Nat := 0
  tab  : Nat := 0
  pos  : Nat := 0
  hdr  : Nat := 0
  val  : Nat := 0
  deriving DecidableEq, Repr

/-- What a request of the issue queue does (R129, R411). -/
inductive ReqKind where
  | load
  | store
  | atom (op : Nat)              -- R157; 16 is CAS
  | red (op : Nat)
  | bupd (op : Nat)
  | clean (op : Nat)             -- CCTL 1 wb, 2 wbinv
  | fence
  | bar (op : Nat)               -- FUNC of class 7: 0 BINIT, 1 BARV, 2 BWAIT, 3 BARW, 4 BEXP
  | waita (cmp : Nat) (expect mask timeout : Nat)
  | kv (func opf : Nat) (hits : List KvRes) (replay bad : Lanes)  -- class 0xA: FUNC, OPF, what its lanes found
  | kvval (r : KvRec)
  | commit
  | engine (op : Nat)            -- an engine operation, created and named
  | tree (func mode : Nat) (a b c d : Nat)
  | ndone (status : Nat)
  | prefetch
  | barAdd                       -- a peer's bytes for a barrier object (R181)
  deriving DecidableEq, Repr

/-- A request: a memory, atomic, synchronisation, copy or tile instruction of a gang that has issued. -/
structure Req where
  id     : Nat
  warp   : Nat
  way    : Nat := 0
  slices : BitVec 8 := 0
  core   : Nat := 0
  kind   : ReqKind
  pc     : Double := 0
  scope  : Scope := .device
  order  : Order := .relaxed
  accs   : List Acc := []
  dst    : Dst := .discard
  size   : Size := .word
  u      : Bool := false
  sup    : Bool := false         -- issued by the supervisor handler
  nl1    : Bool := false         -- takes no lease copy and installs none
  pol    : Nat := 0              -- its cache policy (R151)
  seq    : Nat := 0              -- its place in the order in which requests leave their queues
  fence  : Nat := 0
  behind : List Nat := []        -- the requests it is held behind (R137, R138, R140, R411)
  started : Bool := false
  returned : Bool := false
  deriving DecidableEq, Repr

/-- Where a write is performed (R135). -/
inductive Place where
  | die | bank | host | peer | redwin | posted
  deriving DecidableEq, Repr

/-- A write in a store bay or of an engine (R129, R133, R144): one line of one instruction. -/
structure Write where
  id     : Nat
  warp   : Option Nat            -- whose wpend it counts in
  src    : Nat := 0              -- the warp that issued it
  op     : Option Nat := none    -- the engine operation it belongs to
  core   : Nat := 0
  die    : Nat := 0
  line   : Nat
  place  : Place
  kind   : ReqKind
  accs   : List Acc := []
  bytes  : Tab Byte := []        -- bytes stored, by target address
  req    : Nat := 0              -- the request that returns the old values
  done   : Bool := false
  gwct   : Nat := 0
  stamp  : Nat := 0              -- when it was performed, in the order of stamps
  near   : Bool := false         -- the write-through of an update carried out on the core's line (R125)
  made   : Bool := true          -- false until that update has been carried out
  shown  : Bool := false         -- the core's lease copy took its bytes as it issued (R133)
  strict : Bool := false         -- a posted write with relaxed ordering clear (R196)
  pol    : Nat := 0              -- its cache policy (R151)
  tenant : Nat := 0
  time   : Nat := 0              -- when it was made: its place in its home's queue (R188)
  fq     : Option Nat := none    -- the tenant of the fault queue whose next entry it is (R366)
  deriving DecidableEq, Repr

/-- An engine operation (R168 to R184, R265, R330, R334) with its progress record (R175, R278). -/
structure EngOp where
  id     : Nat
  cls    : Nat                   -- class and FUNC of the instruction
  func   : Nat
  warp   : Nat
  team   : Nat
  inst   : Nat := 0
  core   : Nat
  asd    : Nat := 0
  root   : Nat := 0
  sup    : Bool := false         -- issued from the supervisor handler
  scope  : Scope := .device
  tok    : Option Nat := none
  way    : Nat := 0
  tenant : Nat := 0
  a      : Nat := 0              -- operands of its kind: of a copy the destination, source and length
  b      : Nat := 0
  c      : Nat := 0
  opf    : Nat := 0
  fmt    : Nat := 0              -- format word
  mask   : Nat := 0              -- column mask
  tc     : Nat := 0              -- scratchpad offsets of the SA and SB operands of a tile operation
  ta     : Nat := 0
  tx     : Nat := 0              -- B offset, or the group table's scratchpad offset
  tacc   : Bool := false         -- C is read as the initial accumulator
  acc    : Tab Word := []        -- the array's accumulators, by 256 × row + column
  barVa  : Option Nat := none    -- the barrier object's address as the instruction names it
  bar    : Option Nat := none    -- the object, once the engine has found it (R172)
  engine : Nat := 0              -- the copy engine of its die that it is queued at (R20, R170)
  enter  : Nat := 0              -- when it entered its engine's queue
  loop   : Option (Nat × Nat) := none  -- the speculative loop and iteration that issued it
  sdst   : List (Nat × Nat) := []  -- scratchpad ranges it writes (R126): start and length
  caught : List Nat := []        -- captured writes not yet acknowledged (R143)
  gcap   : Nat := 0
  prio   : Nat := 0
  queued : Bool := false         -- past its own issue queue
  started : Bool := false
  susp   : Bool := false         -- suspended by a fault or a stop of the array
  away   : Bool := false         -- suspended by an eviction (R175)
  susc   : Nat := 0              -- cause of the pending fault
  fault  : Nat := 0              -- faulting address
  slot   : Option Nat := none    -- the fault-queue entry that it has posted
  stage  : Nat := 0
  idx    : Nat := 0              -- elements or steps performed
  next   : Nat := 0
  kblk   : Nat := 0
  bitmap : Nat := 0
  code   : Option Nat := none    -- the token code once it is decided
  info   : Nat := 0              -- bits [31:8] of the token
  cancel : Bool := false
  table  : List Nat := []        -- what was read at the start: table, descriptor, groups; source bytes (R176)
  adds   : List (Nat × Nat × List Nat) := []  -- bytes to add to the barrier, their largest GWCT, the writes they wait for
  gmax   : Nat := 0              -- largest GWCT of its acknowledged writes
  home   : Option (Nat × Nat) := none  -- a request of its own at a bank unit: the line, and when it arrived (R188)
  deriving DecidableEq, Repr

/-- What a waiter waits on (R164 to R168, R366, R368). -/
inductive WaitOn where
  | issue                        -- its operation has not been carried out yet
  | woken                        -- its wake is on the way
  | bar (ta : Nat) (team : Option Nat)
  | waita (stack entry : Nat)
  | fault (tenant entry : Nat)
  | page (group : Nat)
  | room (tenant : Nat) (pages : List (Nat × Bool))  -- PGREQ waits for its allowance with its group's pages
  | queue (tenant entry : Nat)   -- FLTQ waits for room in its fault queue for this entry
  deriving DecidableEq, Repr

/-- A parked gang's wait. -/
structure Waiter where
  id   : Nat
  on   : WaitOn
  warp : Nat
  way  : Nat
  dst  : Dst
  lanes : Lanes := 0
  two  : Bool := false           -- WAITA: the value goes to the second register (R165)
  how  : Nat := 0                -- 1 FLTQ, 2 the reply leaves the handler (R365), 3 a nested trap's (R360)
  deriving DecidableEq, Repr

/-- A wait table entry (R167). -/
structure WaitEntry where
  expect : Nat
  mask   : Nat
  deadline : Option Nat
  ta     : Nat
  cmp    : Nat
  wide   : Bool
  waiter : Nat
  pkg    : Nat                   -- package core × 64 + context
  deriving DecidableEq, Repr

/-! ## Caches and the directory (R129 to R134, R185 to R193) -/

/-- A lease copy in a core's L1 (R131): its bytes, expiry, the stamp of its installing, and for each byte
the latest store of the core that updated it (R134). -/
structure Copy where
  bytes : Tab Byte := []
  exp   : Nat := 0
  stamp : Nat := 0
  upd   : Tab Nat := []
  pois  : Bool := false
  stream : Bool := false         -- among the first chosen for eviction (R151)
  deriving DecidableEq, Repr

/-- States of a line in a die L2 (R186). -/
inductive L2St where
  | I | S | E | M | O | IS | IM | SM | MI
  deriving DecidableEq, Repr

/-- A die home point's line (R129, R131, R208): state, bytes, lease length, largest expiry granted,
whether a write was performed since the last lease, watched by regions (R208), a snoop it must answer,
locked by a commit. `snoop` is 0 SnpInv, 1 SnpFwd, 2 SnpFwdX. -/
structure L2Line where
  st     : L2St := .I
  bytes  : Tab Byte := []
  pois   : Bool := false
  len    : Nat := 256
  exp    : Nat := 0
  wrote  : Bool := false
  granted : Bool := false
  watched : Bool := false
  snoop  : Option Nat := none
  locked : Bool := false
  hint   : Nat := 0              -- 1 among the first chosen for eviction, 2 among the last (R151)
  deriving DecidableEq, Repr

/-- Coherence messages (R187), with data where they carry it. -/
inductive MsgKind where
  | rds | rdx | upg | wbd | evc | snpinv | snpfwd | snpfwdx | ackinv | rspd | rspi | dats | date | datm
  | grant | wback
  deriving DecidableEq, Repr

structure Msg where
  kind  : MsgKind
  time  : Nat := 0               -- when it reached its channel
  die   : Nat
  line  : Nat
  bytes : Tab Byte := []
  pois  : Bool := false
  dirty : Bool := false
  deriving DecidableEq, Repr

/-- A transaction of a directory entry: the request taken (`wback` for a bank unit that needs the line), the
dies whose answer is awaited, whether data has been passed on, a recovery of R386. -/
structure Txn where
  kind  : MsgKind
  die   : Nat
  wait  : BitVec 8 := 0
  wbd   : Bool := false          -- a WbD served as the data and was passed on (FWB)
  biw   : Bool := false          -- the back-invalidation has been sent
  hostq : Bool := false          -- data asked of the host (R193)
  recov : Bool := false          -- recovery of R386
  got   : List (Nat × Bool × Tab Byte × Bool) := []  -- copies returned: die, dirty, bytes, poison
  deriving DecidableEq, Repr

/-- A directory entry (R185), also an entry of the host-line filter (R193). Its WATCH bit is read from the
wait tables. -/
structure DirE where
  state  : Nat := 0              -- 0 I, 1 S, 2 X, 3 O
  shar   : BitVec 8 := 0
  owner  : Nat := 0
  trans  : Nat := 0              -- 0 none, 1 INV, 2 FWD, 3 FWB, 4 BIW
  hostc  : Bool := false
  bad    : Bool := false         -- unreadable (R386)
  host   : Nat := 0              -- what the host has granted a host line: 0 nothing, 1 shared, 2 owned (R193)
  hsnp   : Option Bool := none   -- a host access or snoop under way; true gives up every copy
  held   : BitVec 8 := 0         -- dies whose WbAck waits for their answer to a snoop (R191)
  txn    : Option Txn := none
  deriving DecidableEq, Repr

/-- A commit waiting in a die's commit engine (R210). -/
structure Commit where
  id     : Nat
  warp   : Nat
  slice  : Nat
  lines  : List Nat
  locked : Nat := 0
  deriving DecidableEq, Repr

/-- A compute die (R16, R210): the L2 lines, the region token, the commit queue, conflict notices due. -/
structure Die where
  l2      : Tab L2Line := []
  token   : Option Nat := none   -- the warp that holds the region token
  commits : List Commit := []
  notices : List Nat := []       -- lines of notices to deliver
  deriving DecidableEq, Repr

/-- A core: lease copies, slot tables and masks (R295), the pending image (R304), its cycle counter, the
receiver served last on each slot, operand store (R258), signatures (R208), sequencer (R265). -/
structure Core where
  l1     : Tab Copy := []
  slots  : Tab Nat := []         -- 256 × slot + entry
  donor  : BitVec 16 := 0
  recv   : BitVec 16 := 0
  image  : Option (List Nat × Nat × Nat × Nat) := none  -- entries, masks, the operation
  cyc    : Nat := 0
  slot   : Nat := 0
  served : Tab Nat := []
  owed   : Tab Nat := []         -- by slot, cycles that issued words still take (R44, R64)
  ost    : Tab Byte := []
  osten  : Option Nat := none    -- the tenant that holds the operand store
  ostof  : Option Nat := none    -- the tenant whose bytes it holds, free or not
  rsig   : Sign := 0
  wsig   : Sign := 0
  overlap : Nat := 0
  seq    : Option Nat := none    -- the operation the array runs
  queue  : List (Nat × Nat) := []  -- teams queued: instance, team index (R291)
  deriving DecidableEq, Repr

/-! ## Translation trees (R340 to R349) -/

structure Asd where
  valid : Bool := false
  tenant : Nat := 0
  fpool : Nat := 0
  npool : Nat := 0
  curv  : Bool := false
  cur   : Nat := 0
  deriving DecidableEq, Repr

structure Root where
  valid : Bool := false
  pin   : Nat := 0
  asd   : Nat := 0
  top   : Nat := 0
  sup   : Bool := false
  keep  : Bool := false
  ro    : Bool := false
  curr  : Bool := false
  recl  : Bool := false
  deriving DecidableEq, Repr

structure Pool where
  stack : Nat := 0
  cnt   : Nat := 0
  base  : Nat := 0
  nelem : Nat := 0
  free  : Nat := 0
  kind  : Nat := 0
  deriving DecidableEq, Repr

/-- The reclaim walker's progress (R348): the root, whether its top has been visited, and the nodes being
dropped, the deepest first: a node, its next entry, the frames of it that have come free. -/
structure Walk where
  root    : Nat
  visited : Bool := false
  stack   : List (Nat × Nat × List Nat) := []
  deriving DecidableEq, Repr

/-- Address spaces, roots, pools, the order in which roots became reclaimable, the reclaim walker, the levels
plus 1 of nodes built here (R355), the walker bitmaps (R349). -/
structure Trees where
  asds   : Tab Asd := []
  roots  : Tab Root := []
  pools  : Tab Pool := []
  ready  : List Nat := []
  walk   : Option Walk := none
  level  : Tab Nat := []
  walked : Tab (List Nat) := []  -- node line → cores
  deriving DecidableEq, Repr

/-! ## Tenants, the dispatcher, the host link, the platform -/

/-- A tenant (R361, R362, R366, R368, R374). -/
structure Tenant where
  hvec   : Double := 0
  fqbase : Nat := 0
  fqcap  : Nat := 0
  fqhead : Nat := 0
  fqtail : Nat := 0
  valid  : Bool := false
  desc0  : Nat := 0
  llcw   : Nat := 0
  ctxmax : Nat := 0
  sched  : Bool := false
  tree   : Bool := false
  prallow : Nat := 0
  prout  : Nat := 0
  pri    : Bool := false
  deriving DecidableEq, Repr

/-- A PCIe page request (R368): a 4 KiB page, write access asked for, the Last flag. -/
structure PrReq where
  page  : Nat
  write : Bool
  last  : Bool
  deriving DecidableEq, Repr

/-- A page-request group sent and unanswered (R368): its index, the function, the context's PASID, its requests. -/
structure PrGroup where
  id     : Nat
  tenant : Nat
  pasid  : Nat
  reqs   : List PrReq
  waiter : Nat
  deriving DecidableEq, Repr

/-- A node's queue as the dispatcher knows it (R198, R285): first untaken record, when it was first seen,
records checked, refetches due, counts. -/
structure NodeQ where
  asd    : Nat
  node   : Nat
  first  : Nat := 0
  seen   : List (Nat × Nat) := []        -- record, time first seen
  passed : List Nat := []
  refetch : List (Nat × Nat × Nat) := [] -- record, due time, count
  flips  : List (Nat × Nat × Nat) := []  -- predecessor, which object stood there, its flips consumed (R286)
  count  : Nat := 0                      -- instances so far
  taken  : Nat := 0
  groups : List (Nat × Nat × Bool) := [] -- groups not yet retired from TAKEN: first, count, complete
  overrun : Bool := false                -- an overrun predecessor has been reported (R294)
  deriving DecidableEq, Repr

/-- A node instance (R286 to R294). State 0 ready, 1 running, 3 waiting for its predecessors. -/
structure Inst where
  asd    : Nat
  node   : Nat
  num    : Nat
  desc   : Nat := 0              -- the node descriptor, as it was read
  hdr    : Nat := 0              -- the launch header, as it was read
  owner  : Nat := 0              -- tenant of the context that owns the node
  first  : Nat := 0
  nrec   : Nat := 0
  slotAt : Nat := 0              -- address of the first record
  direct : Bool := false         -- it has no record of the node's queue
  launched : Bool := false       -- created by LAUNCH (R301)
  state  : Nat := 0
  err    : Nat := 0
  status : Word := 0
  prio   : Nat := 0
  tenant : Nat := 0
  kind   : Nat := 0
  since  : Nat := 0              -- when it became ready or was stopped
  start  : Nat := 0              -- when it was admitted (R299)
  aged   : Bool := false
  left   : Option Nat := none    -- the next team index to be sent
  back   : List Nat := []        -- teams taken back from cores' queues
  marks  : Bool := false         -- some warp executed NDONE
  arrived : Bool := false        -- CBAR has been arrived on
  faults : List (Nat × Nat × Double) := []  -- team, warp, sfmask
  cancel : Bool := false
  stop   : Bool := false
  evict  : Bool := false
  stopops : List Nat := []       -- PRMPT operations that wait for it
  yielded : Bool := false
  deriving DecidableEq, Repr

/-- A posted write in the egress queue (R196): the write, its warp, its relaxed-ordering attribute, its bytes. -/
structure Posted where
  id      : Nat
  warp    : Nat
  relaxed : Bool := true
  bytes   : Tab Byte := []
  deriving DecidableEq, Repr

/-- What an access from outside the compute dies has been answered with: Unsupported Request, or the bytes of a read, and
whether they are poison (R378, R406, R409). -/
structure Cpl where
  ok   : Bool
  data : List Byte := []
  pois : Bool := false
  deriving DecidableEq, Repr

/-- The host link (R193 to R197, R387, R388) and the salvage area. -/
structure Link where
  down   : Bool := false
  replay : Bool := false         -- REPLAY and DISC, written 1 and not yet carried out (R389, log 133)
  disc   : Bool := false
  egress : List Posted := []        -- posted writes, oldest first
  sbase  : Nat := 0
  scount : Nat := 0
  slost  : Nat := 0
  cxlmem : Bool := false         -- a CXL.mem access has been seen (R386)
  asked  : List (Nat × Bool) := []  -- lines asked of the host, shared or owned
  pend   : List (HostAcc × Nat) := []  -- host accesses at their home and when they arrived, oldest first (R192)
  writer : Tab Nat := []            -- tenant of the last write performed to a host line (R388)
  cpl    : Option Cpl := none       -- the latest answer to the host, or to an application core
  deriving DecidableEq, Repr

/-- An error record (R385). -/
structure ErrRec where
  addr : Nat
  kind : Nat
  core : Nat
  tenant : Nat
  time : Nat
  deriving DecidableEq, Repr

structure ErrLog where
  recs : Tab ErrRec := []
  next : Nat := 0
  lost : Nat := 0
  deriving DecidableEq, Repr

/-- An SPDM session's progress (R381) and the IDE keys (R382). -/
structure Trust where
  version : Bool := false
  caps    : Bool := false
  algs    : Bool := false
  session : Bool := false
  secure  : Bool := false
  answers : List Nat := []       -- the last response: message code, then words
  keys    : Tab Nat := []        -- key + 1 by stream, 0 for none: 16 is the configuration stream, 17 CXL
  count   : Nat := 0             -- messages answered
  deriving DecidableEq, Repr

/-- Package state (R390, R405 to R408). -/
structure Plat where
  bstage : Nat := 0
  ready  : Bool := false
  fail   : Bool := false
  absCores  : List Nat := []
  absLayers : List Nat := []
  absLanes  : List Nat := []
  retire : Nat := 0
  lifeidx : Nat := 0
  life   : Tab Nat := []         -- lifetime records by index
  meas   : Tab Nat := []         -- measurement registers
  therm  : Tab Nat := []         -- readings set by an event
  throttled : List (Nat × Option Nat) := []  -- blocks below nominal clock, and since when back inside both limits
  trip   : Bool := false         -- a thermal trip has been recorded, its reset comes next (R405)
  retired : Absent := ⟨[], [], []⟩  -- the retire list as the last reset took it (R390, R406)
  cold   : Bool := false         -- COLD and WARM of STATUS, written 1 and not yet carried out (R5, log 133)
  warm   : Bool := false
  supply : Bool := true          -- the supply meets its operating conditions (R24)
  trust  : Trust := {}
  deriving DecidableEq, Repr

/-- The clocks and counters: the time base and how far each point runs ahead of the slowest, up to 4 ns (R7: cores 0 to
511, dies 512 to 519, I/O 520), and the model's own counters. -/
structure Clock where
  time  : Nat := 0
  skew  : Tab Nat := []
  fresh : Nat := 1               -- identifiers and stamps
  free  : Nat := 0               -- free values read
  turn  : Nat := 0               -- rotation of the schedule
  deriving DecidableEq, Repr

/-- Names the machine stops by. -/
inductive Fault where
  /-- Raised by `step` where the supply cannot carry its load (R24): the spec gives the part no behaviour
  there. Safe: the model stops where hardware does something the spec does not state. -/
  | outsideOperatingConditions
  deriving DecidableEq, Repr

/-- Names of what the machine does not do. -/
inductive Refusal where
  /-- Raised by an arm of `exec` that has no meaning yet. Safe. -/
  | notModelled (mnemonic : String)
  /-- Raised by the meaning of a step of another agent whose conditions do not hold in the state: the
  machine does not take that step now. Safe: the hardware takes no such step either. -/
  | notEnabled (row : String)
  deriving DecidableEq, Repr

/-- The machine's state. -/
structure State where
  clk    : Clock := {}
  who    : GangRef := ⟨0, 0, 0⟩        -- the gang an ISSUE_CYCLE chose
  issuing : Bool := false
  agenda : List Instr := []           -- the model's own: steps to take next
  mem    : Tab Byte := []             -- device, host and peer memory by target address
  pois   : Tab Bool := []             -- poisoned lines of memory
  warps  : Tab Warp := []
  teams  : Tab Team := []
  cores  : Tab Core := []
  dies   : Tab Die := []
  net    : List Msg := []
  dir    : Tab DirE := []
  reqs   : List Req := []             -- issued and not finished, oldest first
  writes : List Write := []           -- not acknowledged, oldest first
  ops    : List EngOp := []           -- in flight, oldest first
  waits  : List Waiter := []
  tables : Tab WaitEntry := []        -- wait tables: 4096 × stack + entry
  trees  : Trees := {}
  tenants : Tab Tenant := []
  prgroups : List PrGroup := []
  nodes  : List NodeQ := []
  insts  : Tab Inst := []
  flips  : Tab (Nat × Nat × Nat) := []  -- the dispatcher's count of a barrier object's flips (R286, log 138)
  link   : Link := {}
  llc    : Tab Nat := []              -- the way that a device line takes in its LLC bank (R375)
  logs   : Tab ErrLog := []
  plat   : Plat := {}
  deriving DecidableEq, Repr

/-- The part right after a cold reset (R406): stage 0, nothing resident, every SRAM and DRAM zero. The
values the spec does not state are named in logs 3 to 5. -/
def State.reset : State := {}

/-- The canonical form of memory: addresses rising, no zero byte listed. -/
abbrev Memory.wf (s : State) : Prop := Tab.canon (0 : Byte) s.mem = true

end Sys2Proof.Machine
end

