-- ==== Sys2Proof/Machine/Ops.lean ====
section
/-! DEFINITION. The named operations over warps, gangs, registers and tokens; taking a trap and returning
from one. -/

namespace Sys2Proof.Machine

/-- The outcome of one step. -/
abbrev Out := Host.Outcome State Fault Refusal

/-! ## Bits -/

/-- `n` bits of a number from bit `lo`. -/
def bitsOf (x lo n : Nat) : Nat := x / 2 ^ lo % 2 ^ n

/-- The lanes of a mask, ascending. -/
def lanesOf (m : Lanes) : List Nat := (List.range 32).filter (fun l => m.getLsbD l)

/-- The mask of a list of lanes. -/
def maskOf (ls : List Nat) : Lanes := ls.foldl (fun m l => m ||| (1#32 <<< l)) 0

/-- The lowest lane of a mask, 0 for none. -/
def lowest (m : Lanes) : Nat := (lanesOf m).headD 0

/-- The slices of a mask, ascending. -/
def slicesOf (m : BitVec 8) : List Nat := (List.range 8).filter (fun i => m.getLsbD i)

def bit8 (i : Nat) : BitVec 8 := 1#8 <<< i

/-- Lanes 4s to 4s+3 of a mask (R50). -/
def sliceBits (m : Lanes) (s : Nat) : BitVec 4 := m.extractLsb' (4 * s) 4

/-- The part of a warp's lanes that a slice's mask stands for. -/
def laneBits (b : BitVec 4) (s : Nat) : Lanes := (b.setWidth 32) <<< (4 * s)

/-- An address of R118 held as a number. -/
def addr64 (x : Int) : Nat := (x % 2 ^ 64).toNat

/-! ## Parts of the state -/

def State.warp (s : State) (u : Nat) : Warp := (s.warps.find u).getD {}
def State.updWarp (s : State) (u : Nat) (f : Warp → Warp) : State := { s with warps := s.warps.upd u f }
def State.team (s : State) (u : Nat) : Team := (s.teams.find u).getD {}
def State.updTeam (s : State) (u : Nat) (f : Team → Team) : State := { s with teams := s.teams.upd u f }
def State.core (s : State) (c : Nat) : Core := s.cores.get {} c
def State.updCore (s : State) (c : Nat) (f : Core → Core) : State := { s with cores := s.cores.modify {} c f }
def State.die (s : State) (d : Nat) : Die := s.dies.get {} d
def State.updDie (s : State) (d : Nat) (f : Die → Die) : State := { s with dies := s.dies.modify {} d f }
def State.tenant (s : State) (t : Nat) : Tenant := s.tenants.get {} t
def State.updTenant (s : State) (t : Nat) (f : Tenant → Tenant) : State :=
  { s with tenants := s.tenants.modify {} t f }
def State.asd (s : State) (a : Nat) : Asd := s.trees.asds.get {} a
def State.root (s : State) (r : Nat) : Root := s.trees.roots.get {} r
def State.pool (s : State) (k : Nat) : Pool := s.trees.pools.get {} k
def State.updAsd (s : State) (a : Nat) (f : Asd → Asd) : State :=
  { s with trees := { s.trees with asds := s.trees.asds.modify {} a f } }
def State.updRoot (s : State) (r : Nat) (f : Root → Root) : State :=
  { s with trees := { s.trees with roots := s.trees.roots.modify {} r f } }
def State.updPool (s : State) (k : Nat) (f : Pool → Pool) : State :=
  { s with trees := { s.trees with pools := s.trees.pools.modify {} k f } }
def State.inst (s : State) (i : Nat) : Option Inst := s.insts.find i
def State.updInst (s : State) (i : Nat) (f : Inst → Inst) : State := { s with insts := s.insts.upd i f }
def State.op (s : State) (o : Nat) : Option EngOp := s.ops.find? (fun e => e.id == o)
def State.updOp (s : State) (o : Nat) (f : EngOp → EngOp) : State :=
  { s with ops := s.ops.map (fun e => if e.id = o then f e else e) }
def State.req (s : State) (r : Nat) : Option Req := s.reqs.find? (fun e => e.id == r)
def State.updReq (s : State) (r : Nat) (f : Req → Req) : State :=
  { s with reqs := s.reqs.map (fun e => if e.id = r then f e else e) }

/-- A new identifier, larger than every earlier one. -/
def State.bump (s : State) : State := { s with clk := { s.clk with fresh := s.clk.fresh + 1 } }

/-- The local time at a core (R7). -/
def State.coreTime (s : State) (c : Nat) : Nat := s.clk.time + min 4 (s.clk.skew.get 0 c)
/-- The local time at a die or a home stack. -/
def State.dieTime (s : State) (d : Nat) : Nat := s.clk.time + min 4 (s.clk.skew.get 0 (512 + d))

/-! ## Ways, gangs and slices -/

/-- The copy of the warp's state that a way runs on: a live way's own, else the warp's (R308). -/
def Warp.archOf (w : Warp) (k : Nat) : Arch :=
  match w.loop with
  | none => w.arch
  | some l => match l.ways.find k with
    | some y => y.arch
    | none => w.arch

def Warp.updArch (w : Warp) (k : Nat) (f : Arch → Arch) : Warp :=
  match w.loop with
  | none => { w with arch := f w.arch }
  | some l => match l.ways.find k with
    | some _ => { w with loop := some { l with ways := l.ways.upd k (fun y => { y with arch := f y.arch }) } }
    | none => { w with arch := f w.arch }

/-- The live way of a number. -/
def Warp.way? (w : Warp) (k : Nat) : Option Way := w.loop.bind (fun l => l.ways.find k)

def Warp.updWay (w : Warp) (k : Nat) (f : Way → Way) : Warp :=
  match w.loop with
  | none => w
  | some l => { w with loop := some { l with ways := l.ways.upd k f } }

/-- A way that is not the oldest of its loop (R315). -/
def Warp.young (w : Warp) (k : Nat) : Bool :=
  match w.way? k with
  | some y => !y.oldest
  | none => false

def Arch.slice (a : Arch) (i : Nat) : Slice := a.slices.getD i {}
def Arch.updSlice (a : Arch) (i : Nat) (f : Slice → Slice) : Arch :=
  { a with slices := a.slices.modify i f }

/-- The gang that holds a slice. -/
def Arch.gang (a : Arch) (i : Nat) : Gang := (a.gangs.find? (fun g => g.slices.getLsbD i)).getD {}
def Arch.updGang (a : Arch) (i : Nat) (f : Gang → Gang) : Arch :=
  { a with gangs := a.gangs.map (fun g => if g.slices.getLsbD i then f g else g) }

/-- The active lanes of some slices. -/
def Arch.activeIn (a : Arch) (sl : BitVec 8) : Lanes :=
  (slicesOf sl).foldl (fun m i => m ||| laneBits (a.slice i).mask i) 0

/-- The warp, the copy of its state and the gang that are issuing. -/
def State.wWarp (s : State) : Warp := s.warp s.who.warp
def State.arch (s : State) : Arch := s.wWarp.archOf s.who.way
def State.gang (s : State) : Gang := s.arch.gang s.who.slice
def State.active (s : State) : Lanes := s.arch.activeIn s.gang.slices
def State.pc (s : State) : Double := (s.arch.slice s.who.slice).pc
def State.updMy (s : State) (f : Warp → Warp) : State := s.updWarp s.who.warp f
def State.updArch (s : State) (f : Arch → Arch) : State := s.updMy (fun w => w.updArch s.who.way f)
def State.updGang (s : State) (f : Gang → Gang) : State := s.updArch (fun a => a.updGang s.who.slice f)
def State.updWay (s : State) (f : Way → Way) : State := s.updMy (fun w => w.updWay s.who.way f)
/-- The issuing code is the supervisor handler (R359). -/
def State.inHandler (s : State) : Bool := s.wWarp.trap.isSome
/-- The die of the issuing core (R17). -/
def State.myDie (s : State) : Nat := s.wWarp.core / 64
/-- The slices of a copy's gangs: its unfinished slices (R51, R56). -/
def Arch.unfinished (a : Arch) : BitVec 8 := a.gangs.foldl (fun m g => m ||| g.slices) 0

/-- The issuing gang holds every unfinished slice (R163, R264). -/
def State.ganged (s : State) : Bool := s.arch.unfinished &&& ~~~ s.gang.slices == 0

/-! ## Registers. `mine` names the bank: true is what the running code sees (the handler's own in the
handler), false the warp's own values (R359). -/

def vkey (n l : Nat) : Nat := 32 * n + l

def Warp.getV (w : Warp) (k : Nat) (mine : Bool) (n l : Nat) : Word :=
  match w.trap with
  | some t => if mine && n < 32 then t.sup.get 0 (vkey n l) else (w.archOf k).v.get 0 (vkey n l)
  | none => (w.archOf k).v.get 0 (vkey n l)

def Warp.setV (w : Warp) (k : Nat) (mine : Bool) (n l : Nat) (x : Word) : Warp :=
  match w.trap with
  | some t =>
    if mine && n < 32 then { w with trap := some { t with sup := t.sup.set 0 (vkey n l) x } }
    else w.updArch k (fun a => { a with v := a.v.set 0 (vkey n l) x })
  | none => w.updArch k (fun a => { a with v := a.v.set 0 (vkey n l) x })

def Warp.getG (w : Warp) (k : Nat) (mine : Bool) (n : Nat) : Word :=
  match w.trap with
  | some t => if !mine && 48 ≤ n then t.g.getD (n - 48) 0 else (w.archOf k).g.get 0 n
  | none => (w.archOf k).g.get 0 n

def Warp.setG (w : Warp) (k : Nat) (mine : Bool) (n : Nat) (x : Word) : Warp :=
  match w.trap with
  | some t =>
    if !mine && 48 ≤ n then { w with trap := some { t with g := t.g.set (n - 48) x } }
    else w.updArch k (fun a => { a with g := a.g.set 0 n x })
  | none => w.updArch k (fun a => { a with g := a.g.set 0 n x })

/-- A lane's predicate; p0 reads true (R31). -/
def Warp.getP (w : Warp) (k : Nat) (mine : Bool) (n l : Nat) : Bool :=
  n == 0 || (match w.trap with
    | some t => ((if mine then (w.archOf k).p else t.p).get 0 l).getLsbD n
    | none => ((w.archOf k).p.get 0 l).getLsbD n)

/-- A byte of predicates with one bit replaced; bit 0 is never written (R35). -/
def setPred (b : BitVec 8) (n : Nat) (x : Bool) : BitVec 8 :=
  if n = 0 then b else if x then b ||| bit8 n else b &&& ~~~ bit8 n

def Warp.setP (w : Warp) (k : Nat) (mine : Bool) (n l : Nat) (x : Bool) : Warp :=
  match w.trap with
  | some t =>
    if mine then w.updArch k (fun a => { a with p := a.p.modify 0 l (fun b => setPred b n x) })
    else { w with trap := some { t with p := t.p.modify 0 l (fun b => setPred b n x) } }
  | none => w.updArch k (fun a => { a with p := a.p.modify 0 l (fun b => setPred b n x) })

def Warp.getGp (w : Warp) (k : Nat) (mine : Bool) (n : Nat) : Bool :=
  n == 0 || (match w.trap with
    | some t => (if mine then (w.archOf k).gp else t.gp).getLsbD n
    | none => (w.archOf k).gp.getLsbD n)

def Warp.setGp (w : Warp) (k : Nat) (mine : Bool) (n : Nat) (x : Bool) : Warp :=
  match w.trap with
  | some t =>
    if mine then w.updArch k (fun a => { a with gp := setPred a.gp n x })
    else { w with trap := some { t with gp := setPred t.gp n x } }
  | none => w.updArch k (fun a => { a with gp := setPred a.gp n x })

/-- Sticky flags raised (R225), in the bank of the code that raises them. -/
def Warp.raise (w : Warp) (k : Nat) (mine : Bool) (fl : Word) : Warp :=
  match w.trap with
  | some t =>
    if mine then w.updArch k (fun a => { a with fstat := a.fstat ||| fl })
    else { w with trap := some { t with fstat := t.fstat ||| fl } }
  | none => w.updArch k (fun a => { a with fstat := a.fstat ||| fl })

/-! ## Guards (R38, R39) -/

/-- The lanes that execute a U = 0 form. -/
def State.executing (s : State) (c : Common) : Lanes :=
  maskOf ((lanesOf s.active).filter (fun l => xor (s.wWarp.getP s.who.way true c.pg.val l) c.pn))

/-- Whether a U = 1 form executes. -/
def State.executesU (s : State) (c : Common) : Bool :=
  s.active != 0 && xor (s.wWarp.getGp s.who.way true c.pg.val) c.pn

/-- Whether the word would do work (R48). -/
def State.doesWork (s : State) (c : Common) : Bool :=
  if c.u then s.executesU c else s.executing c != 0

/-! ## Slices (R71) -/

/-- Kind `k` tokens' innermost: whether one stands in the stack. -/
def hasToken (k : Nat) (st : List Token) : Bool := st.any (fun t => t.kind == k)

/-- Lanes taken out of every token above the innermost of kind `k`. -/
def removeAbove (k : Nat) (m : BitVec 4) : List Token → List Token
  | [] => []
  | t :: r => if t.kind = k then t :: r else { t with mask := t.mask &&& ~~~ m } :: removeAbove k m r

/-- `remove(s, L, k)`; `none` stands for all. -/
def Slice.remove (s : Slice) (m : BitVec 4) (k : Option Nat) : Slice :=
  { s with
    mask := s.mask &&& ~~~ m
    stack := match k with
      | none => s.stack.map (fun t => { t with mask := t.mask &&& ~~~ m })
      | some k => removeAbove k m s.stack }

/-- A token with its PC field (log 12). -/
def tokenOf (kind : Nat) (mask : BitVec 4) (pc : Double) : Token := ⟨kind, mask, pc.setWidth 56⟩

/-- Where a slice at `pc` goes on when a token is popped: the field's 56 bits below the region that the slice
runs in (log 12). -/
def Token.back (t : Token) (pc : Double) : Double := pc.extractLsb' 56 8 ++ t.pc

/-- The token that `settle` stops at, with the stack below it. -/
def settleStack : List Token → Option (Token × List Token)
  | [] => none
  | t :: r => if t.mask = 0 then settleStack r else some (t, r)

/-- The PC that the last popped token leaves. -/
def lastPc (pc : Double) : List Token → Double
  | [] => pc
  | t :: r => lastPc (t.back pc) r

/-- `settle(s)`: waiting lanes resume once the mask is empty; with none the slice is finished. -/
def Slice.settle (s : Slice) : Slice :=
  if s.mask = 0 then
    match settleStack s.stack with
    | some (t, r) => { s with mask := t.mask, pc := t.back s.pc, stack := r }
    | none => { s with pc := lastPc s.pc s.stack, stack := [], fin := true }
  else s

def Slice.push (s : Slice) (kind : Nat) (mask : BitVec 4) (pc : Double) : Slice :=
  { s with stack := tokenOf kind mask pc :: s.stack }

/-- The distinct members of a list, in order of first appearance. -/
def distinct {α : Type} [BEq α] (xs : List α) : List α :=
  xs.foldl (fun acc x => if acc.contains x then acc else acc ++ [x]) []

/-- A gang parted by next PC (R56); finished slices leave it. Counts, fences and chains pass on (R82). -/
def partGang (a : Arch) (g : Gang) : List Gang :=
  let live := (slicesOf g.slices).filter (fun i => !(a.slice i).fin)
  (distinct (live.map (fun i => (a.slice i).pc))).map (fun p =>
    { g with slices := live.foldl (fun m i => if (a.slice i).pc = p then m ||| bit8 i else m) 0 })

/-- The issuing gang parted after its instruction (R78). -/
def Arch.part (a : Arch) (i : Nat) : Arch :=
  { a with gangs := a.gangs.flatMap (fun g => if g.slices.getLsbD i then partGang a g else [g]) }

/-- Every slice of the issuing gang goes on at PC + 12. -/
def State.advance (s : State) : State :=
  s.updArch (fun a =>
    (slicesOf (a.gang s.who.slice).slices).foldl (fun a i => a.updSlice i (fun x => { x with pc := x.pc + 12 })) a)

/-- The instruction has issued: it counts (R82), and the gang goes on issuing only inside a chain (R44). -/
def State.finish (s : State) : State := { s with issuing := s.gang.chain.left != 0 }

/-- An instruction that waits at issue: nothing changes, the slot is free for another gang. -/
def State.stall (s : State) : State := { s with issuing := false }

/-- One more instruction of the gang (R82); the handler's are counted apart (R360). -/
def State.countOne (s : State) : State :=
  s.updMy (fun w =>
    match w.trap with
    | some t => { w with trap := some { t with count := t.count + 1 } }
    | none => w.updArch s.who.way (fun a => a.updGang s.who.slice (fun g => { g with count := g.count + 1 })))

/-- Park the issuing gang. -/
def State.park (s : State) (p : Park) : State := s.updGang (fun g => { g with park := p })

/-! ## Lines of memory (R18, R136)

A target address is one number: device memory below 2^39, the control register space below 2^40, host memory from
2^60, peers from 2^62, reduction windows from 2^63, scratchpad from 2^65, the register window from 2^66, the receivers
of CPYR from 2^67. -/

def ctlBase : Nat := 2 ^ 39
def hostBase : Nat := 2 ^ 60
def peerBase : Nat := 2 ^ 62
def redBase : Nat := 2 ^ 63

def isDev (ta : Nat) : Bool := ta < ctlBase
def isHost (ta : Nat) : Bool := hostBase ≤ ta && ta < peerBase
def isPeer (ta : Nat) : Bool := peerBase ≤ ta && ta < redBase
def isRed (ta : Nat) : Bool := redBase ≤ ta && ta < 2 ^ 65

/-- The team's scratchpad and the warp's registers, as addresses of an access. -/
def scrBase : Nat := 2 ^ 65
def regBase : Nat := 2 ^ 66
def isScr (ta : Nat) : Bool := scrBase ≤ ta && ta < regBase
def isRegw (ta : Nat) : Bool := regBase ≤ ta && ta < 2 ^ 67
/-- The bytes of CPYR's receivers. -/
def isRcv (ta : Nat) : Bool := 2 ^ 67 ≤ ta
def isCtl (ta : Nat) : Bool := ctlBase ≤ ta && ta < 2 ^ 40
def isGlob (ta : Nat) : Bool := isDev ta || isHost ta || isPeer ta || isRed ta

/-- The line of an address, and the home stack of a line (R18). -/
def lineOf (ta : Nat) : Nat := ta / 64
def stackOf (line : Nat) : Nat := line / 2 ^ 30

/-- Bits `lo` and up of an address are zero below them: alignment to a power of two. -/
def alignedTo (x n : Nat) : Bool := x % n == 0

/-! ## What memory holds now -/

def State.l2 (s : State) (d l : Nat) : L2Line := (s.die d).l2.get {} l
def State.updL2 (s : State) (d l : Nat) (f : L2Line → L2Line) : State :=
  s.updDie d (fun x => { x with l2 := x.l2.modify {} l f })
def State.dirE (s : State) (l : Nat) : DirE := s.dir.get {} l
def State.updDir (s : State) (l : Nat) (f : DirE → DirE) : State := { s with dir := s.dir.modify {} l f }

/-- How surely a copy is the line: an owner's before an upgrading one's. -/
def L2St.rank : L2St → Nat
  | .M | .E | .O => 2
  | .SM => 1
  | _ => 0

/-- The copy that holds a line's latest value, if some die's does. -/
def State.holder (s : State) (l : Nat) : Option L2Line :=
  (List.range 8).foldl (fun best d =>
    let x := s.l2 d l
    match best with
    | some y => if y.st.rank < x.st.rank then some x else best
    | none => if 0 < x.st.rank then some x else none) none

/-- The home takes the data of a message of this die as the line's: from the recorded owner, or from a die that it
still waits for. Data that comes once the line has been passed on is discarded (R191). -/
def DirE.heeds (e : DirE) (d : Nat) : Bool :=
  (2 ≤ e.state && e.owner == d) || (e.trans != 3 && (match e.txn with | some t => t.wait.getLsbD d | none => false))

/-- Dirty data of the line on its way home. -/
def State.inFlight (s : State) (l : Nat) : Option Msg :=
  s.net.find? (fun m => m.line == l && (m.kind == .wbd || (m.kind == .rspd && m.dirty)) && (s.dirE l).heeds m.die)

/-- The line's bytes as the latest performed write left them (R136). -/
def State.lineTab (s : State) (l : Nat) : Tab Byte :=
  match s.holder l with
  | some x => x.bytes
  | none => match s.inFlight l with
    | some m => m.bytes
    | none => s.mem

def State.cur (s : State) (ta : Nat) : Byte := (s.lineTab (lineOf ta)).get 0 ta
def State.curBytes (s : State) (ta n : Nat) : List Byte := (List.range n).map (fun i => s.cur (ta + i))
/-- `n` bytes as a little-endian number (R1). -/
def State.curNat (s : State) (ta n : Nat) : Nat := leNat (s.curBytes ta n)

/-- The line is poisoned where its value now is (R384). -/
def State.linePoison (s : State) (l : Nat) : Bool :=
  match s.holder l with
  | some x => x.pois
  | none => match s.inFlight l with
    | some m => m.pois
    | none => s.pois.get false l

def State.bytesPoison (s : State) (ta n : Nat) : Bool :=
  s.linePoison (lineOf ta) || (n != 0 && s.linePoison (lineOf (ta + n - 1)))

/-- The part of a table of bytes that lies in a line. -/
def cutLine (t : Tab Byte) (l : Nat) : Tab Byte := t.filter (fun p => p.1 / 64 == l)

/-- A line's bytes replaced in memory. -/
def putLine (m : Tab Byte) (t : Tab Byte) (l : Nat) : Tab Byte :=
  (List.range 64).foldl (fun m i => m.set 0 (64 * l + i) (t.get 0 (64 * l + i))) m

def setBytes (t : Tab Byte) (bs : List (Nat × Byte)) : Tab Byte := bs.foldl (fun t p => t.set 0 p.1 p.2) t

/-! ## Wakes (R164, R296) -/

/-- A wake sent to a parked gang. -/
def State.wake (s : State) (id status : Nat) (value : Word := 0) : State :=
  match s.waits.find? (fun w => w.id == id) with
  | none => s
  | some w =>
    let s := { s with waits := s.waits.map (fun (x : Waiter) => if x.id = id then { x with on := .woken } else x) }
    s.updWarp w.warp (fun u => { u with wakes := u.wakes ++ [⟨id, status, value⟩] })

/-- The gang of a wait, and what it waits on. -/
def State.setWait (s : State) (id : Nat) (on : WaitOn) : State :=
  { s with waits := s.waits.map (fun (x : Waiter) => if x.id = id then { x with on := on } else x) }

/-! ## Wait tables (R165, R166) -/

/-- The condition of R165 on values of a width. -/
def waitCond (cmp : Nat) (wide : Bool) (v e m : Nat) : Bool :=
  let w := if wide then 64 else 32
  let a := v &&& m
  let b := e &&& m
  match cmp with
  | 0 => a == b | 1 => a != b | 2 => a < b | 3 => b ≤ a
  | 4 => decide (valOf w true a < valOf w true b) | _ => decide (valOf w true b ≤ valOf w true a)

/-- A fault-queue entry's place. -/
def State.fqAt (s : State) (t slot : Nat) : Nat := (s.tenant t).fqbase + 64 * slot

/-- The part's or the stub's write to a fault queue's line is on its way. -/
def State.fqPending (s : State) (l : Nat) : Bool := s.writes.any (fun w => w.line == l && 2 ^ 65 ≤ w.src && !w.done)

/-- An entry that has been written and whose VALID is clear: it has been answered (R366). -/
def State.answered? (s : State) (t slot : Nat) : Bool :=
  !(s.cur (s.fqAt t slot + 31)).getLsbD 7 && !s.fqPending (lineOf (s.fqAt t slot))

/-- The part's wait on VALID of the entries of a line (R366): their gangs are woken with REPLY, and an engine's answer is
taken next. -/
def State.evalFaults (s : State) (l : Nat) : State :=
  let s := s.waits.foldl (fun s w => match w.on with
    | .fault t slot =>
      if lineOf (s.fqAt t slot) = l ∧ s.answered? t slot then s.wake w.id (s.curNat (s.fqAt t slot + 32) 4) else s
    | _ => s) s
  s.ops.foldl (fun s o => match o.slot with
    | some slot =>
      let i : Instr := .faultReply o.tenant slot 0
      if lineOf (s.fqAt o.tenant slot) = l ∧ s.answered? o.tenant slot ∧ !s.agenda.contains i then
        { s with agenda := i :: s.agenda }
      else s
    | none => s) s

/-- The wait table entries of a line evaluated on its current value (R166), and the fault-queue entries there. -/
def State.evalWaits (s : State) (l : Nat) : State :=
  State.evalFaults ((s.tables.filter (fun p => lineOf p.2.ta == l)).foldl (fun s p =>
    let e := p.2
    let v := s.curNat e.ta (if e.wide then 8 else 4)
    if waitCond e.cmp e.wide v e.expect e.mask then
      ({ s with tables := s.tables.erase p.1 }).wake e.waiter 0 (BitVec.ofNat 32 v)
    else s) s) l

/-! ## Writes of the part's own agents -/

/-- Bytes written to memory as they stand at their home. -/
def writeBytes (m : Tab Byte) (ta : Nat) : List Byte → Tab Byte
  | [] => m
  | b :: r => writeBytes (m.set 0 ta b) (ta + 1) r

def readBytes (m : Tab Byte) (ta : Nat) : Nat → List Byte
  | 0 => []
  | n + 1 => m.get 0 ta :: readBytes m (ta + 1) n

/-- Bytes of a run that lie in one line, put into a copy of it. -/
def writeIn (l : Nat) (t : Tab Byte) (ta : Nat) : List Byte → Tab Byte
  | [] => t
  | b :: r => writeIn l (if ta / 64 = l then t.set 0 ta b else t) (ta + 1) r

def MsgKind.data : MsgKind → Bool
  | .wbd | .rspd | .dats | .date | .datm => true
  | _ => false

/-- Bytes put where they are as the link goes down or its salvage area is replayed (R388, R389): into every copy that a
die or a message holds, with the lease length of the line back to its start (R131). Cores give up their lease copies of
the line, so that no load takes an older value (log 87). The wait table's entries on the line are evaluated (R166). -/
def State.poke (s : State) (ta : Nat) (bs : List Byte) : State :=
  let hit (l : Nat) : Bool := ta / 64 ≤ l && l * 64 < ta + bs.length
  let s := { s with
    mem := writeBytes s.mem ta bs
    cores := s.cores.map (fun p => (p.1, { p.2 with l1 := p.2.l1.filter (fun q => !hit q.1) }))
    dies := s.dies.map (fun p => (p.1, { p.2 with
      l2 := p.2.l2.map (fun (q : Nat × L2Line) => (q.1,
        if q.2.st = .I || !hit q.1 then q.2
        else { q.2 with bytes := writeIn q.1 q.2.bytes ta bs, len := 256, wrote := true })) }))
    net := s.net.map (fun (m : Msg) => if m.kind.data then { m with bytes := writeIn m.line m.bytes ta bs } else m) }
  (distinct ((List.range bs.length).map (fun i => lineOf (ta + i)))).foldl State.evalWaits s

/-! ## Taking a trap (R357 to R360) -/

/-- What a trap reports. -/
structure Trap where
  cause : Nat
  lanes : Lanes
  code  : Nat := 0
  memb  : Option Double := none
  addr  : Tab Double := []
  kind  : Nat := 3
  at'   : Option Double := none  -- the trapping instruction's PC, where the gang has gone on (R387)
  deriving DecidableEq, Repr

/-- The resume PC at entry: the next instruction for TRAP, else the trapping one (R358). -/
def Trap.tepc (t : Trap) (pc : Double) : Double := if t.cause = 0x12 then pc + 12 else t.at'.getD pc

/-- Squash every way younger than `k` (R313): registers, buffered lines, deferred updates go with it. -/
def Warp.squashAbove (w : Warp) (k : Nat) : Warp :=
  match w.loop with
  | none => w
  | some l =>
    { w with
      loop := some { l with squash := l.squash + (l.ways.filter (fun p => k < p.1)).length,
                            ways := l.ways.filter (fun p => !(k < p.1)) }
      busy := w.busy.filter (fun b => !(k < b.way)) }

/-- A squashed way's request that has taken room in wpend: a SKCH whose sketch is not written yet (R329). -/
def Req.pends (r : Req) : Bool :=
  r.started && (match r.kind with | .kv func _ _ _ _ => func != 0 | _ => false)

/-- Operations that captured a request wait for the writes that it has made (R143). -/
def State.handOver (s : State) (req : Nat) (ids : List Nat) : State :=
  { s with ops := s.ops.map (fun (e : EngOp) =>
      if e.caught.contains req then { e with caught := e.caught.flatMap (fun i => if i = req then ids else [i]) } else e) }

/-- The requests of squashed ways go with them, and give back their room in wpend. -/
def State.dropWays (s : State) (u k : Nat) : State :=
  let gone (r : Req) : Bool := r.warp == u && k < r.way
  let hit := s.reqs.filter gone
  let n := (hit.filter Req.pends).length
  let s := hit.foldl (fun s r => s.handOver r.id []) s
  { (s.updWarp u (fun w => { w with wpend := w.wpend - n })) with reqs := s.reqs.filter (fun (r : Req) => !gone r) }

/-- Gangs have merged (R79, R311): what any of them holds in its queue is held for all of their slices (R411). -/
def State.widenReqs (s : State) (u k : Nat) (sl : BitVec 8) : State :=
  let sup := (s.warp u).trap.isSome
  { s with reqs := s.reqs.map (fun (r : Req) =>
      if r.warp = u ∧ r.way = k ∧ r.sup = sup ∧ r.slices &&& sl ≠ 0 then { r with slices := r.slices ||| sl } else r) }

/-- The warp in its handler: the saves of R357, the trap record, the handler's fresh state. Its gang begins with fence
stamp 0: no rule says whether a full fence of the interrupted gang binds the handler's loads (log 124). -/
def Warp.enter (w : Warp) (k sl : Nat) (t : Trap) (hvec : Double) : Warp :=
  let a := w.archOf k
  let g := a.gang sl
  let pc := (a.slice sl).pc
  let spec := match w.way? k with | some y => y.late &&& g.slices != 0 | none => false
  let r : TrapRec :=
    { cause := t.cause, code := t.code, spec := spec, tpc := t.at'.getD pc, tepc := t.tepc pc, tmemb := t.memb.getD (t.at'.getD pc),
      tmask := t.lanes, taddr := t.addr, tkind := t.kind, way := k, slices := a.slices, gangs := a.gangs,
      gang := sl, p := a.p, gp := a.gp, fstat := a.fstat,
      g := (List.range 16).map (fun i => a.g.get 0 (48 + i)), fwd := hvec == 0 }
  let slices := (List.range a.slices.length).map (fun i =>
    if g.slices.getLsbD i then { pc := hvec, mask := sliceBits t.lanes i, stack := [], fin := sliceBits t.lanes i == 0 }
    else a.slice i)
  let held := (List.range 8).foldl (fun m i => if sliceBits t.lanes i = 0 then m else m ||| bit8 i) (0 : BitVec 8)
  let w := w.squashAbove k
  let w := w.updArch k (fun a =>
    { a with
      slices := slices, gangs := [{ slices := g.slices &&& held }], p := [], gp := 0, fstat := 0
      g := (List.range 16).foldl (fun t i => t.set 0 (48 + i) 0) a.g })
  let w := w.updWay k (fun y => { y with stuck := 0, late := 0 })
  { w with trap := some r }

/-- A fault-queue entry of a warp (R366) as a number: fields from bit 0 up. -/
def faultEntry (w : Warp) (cause : Nat) (pc addr : Double) (mask : Lanes) (sword : Word) (nest : Bool) : Nat :=
  packFields [(255, 0), (1, 1), (32, 0), (7, 0), (6, w.ctx), (9, w.core), (1, nest.toNat), (1, 0), (8, cause),
    (32, sword.toNat), (32, mask.toNat), (64, pc.toNat), (64, addr.toNat)]

/-- A write of up to a line by the part's fault units (`src` 2^65) or by the stub (2^65 + 1), on its way to the bank
unit of its home (R134, R188). -/
def State.homeStore (s : State) (src : Nat) (fq : Option Nat) (ta : Nat) (bs : List Byte) : State :=
  let w : Write := {
    id := s.clk.fresh, warp := none, src := src, line := lineOf ta, place := .bank, kind := .store
    bytes := bs.mapIdx (fun i b => (ta + i, b)), time := s.clk.time, fq := fq }
  { s.bump with writes := s.writes ++ [w] }

/-- Entries of a tenant's fault queue that are written or on their way, modulo 2^32 (R366). -/
def State.fqNext (s : State) (t : Nat) : Word :=
  BitVec.ofNat 32 ((s.tenant t).fqtail + (s.writes.filter (fun w => w.fq == some t && !w.done)).length)

/-- There is room for one more. -/
def State.fqRoom (s : State) (t : Nat) : Bool :=
  (s.fqNext t - BitVec.ofNat 32 (s.tenant t).fqhead).toNat < (s.tenant t).fqcap

/-- An entry sent to the next slot; FQTAIL advances over it as it is written (R366). -/
def State.fqPost (s : State) (t entry : Nat) : State × Nat :=
  let slot := (s.fqNext t).toNat % (s.tenant t).fqcap
  (s.homeStore (2 ^ 65) (some t) (s.fqAt t slot) (leBytes 64 entry), slot)

/-- An entry posted to a tenant's fault queue and the waiter on its VALID word (R366); with the queue full
the gang waits for room first. `how` says what the reply does. -/
def State.postFault (s : State) (u k : Nat) (d : Dst) (entry how : Nat) : State × Nat :=
  let w := s.warp u
  let id := s.clk.fresh
  let s := s.bump
  if s.fqRoom w.tenant then
    let (s, slot) := s.fqPost w.tenant entry
    ({ s with waits := s.waits ++ [⟨id, .fault w.tenant slot, u, k, d, 0, false, how⟩] }, id)
  else
    ({ s with waits := s.waits ++ [⟨id, .queue w.tenant entry, u, k, d, 0, false, how⟩] }, id)

/-- Forward the running handler to the stub: post an entry and park its gang (R365). -/
def State.forward (s : State) (u k sl : Nat) (d : Dst) (sword : Word) (how : Nat) : State :=
  match (s.warp u).trap with
  | none => s
  | some r =>
    let low := (lanesOf r.tmask).headD 0
    let (s, id) := s.postFault u k d
      (faultEntry (s.warp u) r.cause r.tpc (r.taddr.get 0 low) r.tmask sword r.nest) how
    s.updWarp u (fun w => w.updArch k (fun a => a.updGang sl (fun g => { g with park := .wait id })))

/-- A trap of the gang that holds slice `sl` of a way: taken now by an oldest way (R357), deferred by a
younger one (R315), the end of a guess routine (R311), or nested (R360). -/
def State.trapAt (s : State) (u k sl : Nat) (t : Trap) : State :=
  let w := s.warp u
  let young := w.young k || (match w.way? k with | some y => y.st == 1 | none => false)
  let gs := ((w.archOf k).gang sl).slices
  if young then
    s.updWarp u (fun w => w.updWay k (fun y => { y with stuck := y.stuck ||| gs, late := y.late ||| gs }))
  else match w.trap with
  | some r =>
    let pc := ((w.archOf k).slice sl).pc
    let s := s.updWarp u (fun w => { w with trap := some { r with nest := true } })
    let low := (lanesOf t.lanes).headD 0
    let (s, id) := s.postFault u k .discard
      (faultEntry w t.cause pc (t.addr.get 0 low) t.lanes 0 true) 3
    s.updWarp u (fun w => w.updArch k (fun a => a.updGang sl (fun g => { g with park := .wait id, chain := {} })))
  | none =>
    let hvec := (s.tenant w.tenant).hvec
    let s := (s.updWarp u (fun w => w.enter k sl t hvec)).dropWays u k
    if hvec = 0 then s.forward u k (lowest t.lanes / 4) .discard 0 2 else s

/-- The issuing gang takes a trap. -/
def State.trap (s : State) (t : Trap) : State :=
  { s.trapAt s.who.warp s.who.way s.who.slice t with issuing := false }

/-- A trap by its cause, in the given lanes. -/
def State.trapC (s : State) (cause : Nat) (lanes : Lanes) : State := s.trap { cause := cause, lanes := lanes }

/-- The faulting lanes of a check that the whole word fails (R357): every active lane of a U form, else
the lanes that executed it. -/
def State.faulting (s : State) (c : Common) : Lanes := if c.u then s.active else s.executing c

/-! ## Returning from a trap (R365) -/

/-- The warp's own slices and gangs, which a trap record holds while the handler runs. -/
def Warp.user (w : Warp) (k : Nat) : Arch :=
  match w.trap with
  | none => w.archOf k
  | some r => { w.archOf k with slices := r.slices, gangs := r.gangs }

def Warp.updUser (w : Warp) (k : Nat) (f : Arch → Arch) : Warp :=
  match w.trap with
  | none => w.updArch k f
  | some r =>
    let b := f (w.user k)
    let w := w.updArch k (fun a => { b with slices := a.slices, gangs := a.gangs })
    { w with trap := some { r with slices := b.slices, gangs := b.gangs } }

/-- Every gang of a warp, of its ways and of its saved state. -/
def Warp.mapGangs (w : Warp) (f : Gang → Gang) : Warp :=
  { w with
    arch := { w.arch with gangs := w.arch.gangs.map f }
    loop := w.loop.map (fun l => { l with
      ways := l.ways.map (fun p => (p.1, { p.2 with arch := { p.2.arch with gangs := p.2.arch.gangs.map f } })) })
    trap := w.trap.map (fun t => { t with gangs := t.gangs.map f }) }

/-- Lanes ended in saved slices, as EXIT ends them (R365, R77). -/
def killLanes (m : Lanes) (sl : List Slice) : List Slice :=
  (List.range sl.length).map (fun i =>
    let x := sl.getD i {}
    let b := sliceBits m i
    if x.fin || b = 0 then x else
    let y := x.remove b none
    if y.mask = 0 then y.settle else y)

/-- A loop that the handler began ends with it: the warp keeps its oldest way's state (log 132). -/
def Warp.dropSup (w : Warp) : Warp :=
  match w.loop with
  | some l => if l.sup then { w with
      arch := match l.ways.find? (fun p => p.2.oldest) with | some p => p.2.arch | none => w.arch
      loop := none } else w
  | none => w

/-- The saved state restored; the trapping gang goes on at TEPC, with its ended lanes gone. -/
def Warp.leave (w : Warp) (r : TrapRec) (kill : Bool) : Warp :=
  let g := (r.gangs.find? (fun g => g.slices.getLsbD r.gang)).getD {}
  let resumed := (List.range r.slices.length).map (fun i =>
    let x := r.slices.getD i {}
    if g.slices.getLsbD i then { x with pc := r.tepc } else x)
  let ends := (w.dropSup.archOf r.way).exited
  let gone := if kill then ends ||| r.tmask else ends
  let slices := killLanes gone resumed
  let w := { w.dropSup with trap := none, busy := w.busy.filter (fun b => !b.sup) }
  w.updArch r.way (fun a =>
    let a := { a with
      slices := slices, p := r.p, gp := r.gp, fstat := r.fstat
      g := (List.range 16).foldl (fun t i => t.set 0 (48 + i) (r.g.getD i 0)) a.g
      exited := gone
      gangs := r.gangs.map (fun (h : Gang) => if h.slices.getLsbD r.gang then
        { h with chain := {}, park := .none, count := if r.cause = 0x08 then 0 else h.count } else h) }
    a.part r.gang)

/-! ## Retirement (R51) -/

/-- The copy of the warp's state that its running code uses: the handler's, the oldest way's, its own. -/
def Warp.current (w : Warp) : Arch :=
  match w.trap, w.loop with
  | some r, _ => w.archOf r.way
  | none, some l => match l.ways.find? (fun p => p.2.oldest) with
    | some p => p.2.arch
    | none => w.arch
  | none, none => w.arch

/-- Every slice is finished (R51): of the running copy, and in a handler of the saved state once the lanes that
have exited meanwhile are taken out of it. -/
def Warp.retired (w : Warp) : Bool :=
  w.current.gangs.isEmpty && (match w.trap with
    | some r => (killLanes w.current.exited r.slices).all (·.fin)
    | none => true)

/-! ## The lane store (R60) and the L1 that it leaves -/

def Warp.granules (w : Warp) : Nat := w.alloc / 16

/-- Clone contexts that a warp's loop holds (R309). -/
def Warp.clones (w : Warp) : Nat := match w.loop with | some l => l.ew - 1 | none => 0

/-- A team lies on its core: a warp of it is resident, or every warp has retired and the team has not yet. -/
def State.teamHere (s : State) (team : Nat) : Bool :=
  let ws := s.warps.filter (fun p => p.2.team == team)
  ws.any (fun p => p.2.placed && !p.2.retired) || ws.all (fun p => p.2.placed)

/-- Granules held on a core: register regions, those of clone contexts, scratchpads (R60). -/
def State.heldGranules (s : State) (c : Nat) : Nat :=
  ((s.warps.filter (fun p => p.2.placed && p.2.core == c && !p.2.retired)).map
    (fun p => p.2.granules * (1 + p.2.clones))).sum +
  ((s.teams.filter (fun t => t.2.core == c && s.teamHere t.1)).map (fun t => t.2.units)).sum

/-- Granules that regions may still take while the cache keeps 128 (R60). -/
def State.freeGranules (s : State) (c : Nat) : Nat := 1536 - 128 - s.heldGranules c

/-- Lines that a core's L1 has room for: 32 to a granule (R60). -/
def State.l1Lines (s : State) (c : Nat) : Nat := 32 * (1536 - s.heldGranules c)

/-- The next lease copy to be given up (log 128): the oldest of those with the stream policy (R151), else the
oldest. -/
def nextVictim (t : Tab Copy) : Option Nat :=
  let oldest (t : Tab Copy) : Option (Nat × Copy) := t.foldl (fun b p => match b with
    | some q => if p.2.stamp < q.2.stamp then some p else some q
    | none => some p) none
  match oldest (t.filter (fun p => p.2.stream)) with
  | some p => some p.1
  | none => (oldest t).map (·.1)

/-- `n` lease copies given up. -/
def dropVictims : Nat → Tab Copy → Tab Copy
  | 0, t => t
  | n + 1, t => match nextVictim t with
    | some l => dropVictims n (t.erase l)
    | none => t

/-- The L1 keeps what the granules left to it hold (R60, R67): copies beyond that are given up. -/
def State.trimL1 (s : State) (c : Nat) : State :=
  let n := (s.core c).l1.length - s.l1Lines c
  if n = 0 then s else s.updCore c (fun x => { x with l1 := dropVictims n x.l1 })

/-! ## Signatures (R208, R313) -/

/-- The two bits of a block. -/
def signBits (b : Nat) : Sign := (1#1024 <<< (Config.hash1024 0 b % 1024)) ||| (1#1024 <<< (Config.hash1024 1 b % 1024))

/-- Blocks entered in a signature. -/
def signAdd (s : Sign) (bs : List Nat) : Sign := bs.foldl (fun s b => s ||| signBits b) s

/-- A block hits: both of its bits are set, by itself or by others. -/
def signHits (s : Sign) (b : Nat) : Bool := signBits b &&& ~~~ s == 0

/-! ## The error log (R385) -/

/-- A record appended to log `n`: the oldest is overwritten once the ring is full. -/
def State.logErr (s : State) (n kind addr core tenant : Nat) : State :=
  let g := s.logs.get {} n
  let r : ErrRec := ⟨addr, kind, core, tenant, s.clk.time % 2 ^ 32⟩
  let slot := g.next % 4096
  let lost := if 4096 ≤ g.next then min (g.lost + 1) (2 ^ 32 - 1) else g.lost
  { s with logs := s.logs.set {} n { recs := g.recs.put slot r, next := g.next + 1, lost := lost } }

/-- Device lines are logged at their home stack, host lines at I/O die 1. -/
def logOf (ta : Nat) : Nat := if isDev ta then ta / 2 ^ 36 else 9

/-- Poison of a register, or of another byte that has no target address, is consumed on a core (R384, R385). -/
def State.consumed (s : State) (core tenant : Nat) : State := s.logErr (core / 64) 3 0 core tenant

/-- Poison of a line is consumed. -/
def State.consumedAt (s : State) (ta core tenant : Nat) : State :=
  if isGlob ta then s.logErr (logOf ta) 3 (64 * lineOf ta) core tenant else s.consumed core tenant

/-! ## The last-level cache (R375) -/

/-- A device line's value is taken from its home for an access of a tenant: on a miss it takes a way that the tenant's LLCW
allows, and none with LLCW = 0 or under nollc (R151). Which line leaves a full set is free (log 143). -/
def State.llcAccess (s : State) (l tenant pol : Nat) : State :=
  let ways := (List.range 16).filter (fun w => (s.tenant tenant).llcw.testBit w)
  if !isDev (64 * l) || (s.llc.find l).isSome || pol == 4 || ways.isEmpty then s
  else
    let mine (p : Nat × Nat) : Bool := Config.llcSet p.1 == Config.llcSet l
    let free := ways.filter (fun w => !s.llc.any (fun p => mine p && p.2 == w))
    let w := free.headD (ways.getD (Config.llcPick s.clk.fresh % ways.length) 0)
    let kept : Tab Nat := s.llc.filter (fun p => !(mine p && p.2 == w))
    { s with llc := kept.put l w }

end Sys2Proof.Machine
end

