-- ==== Sys2Proof/Machine/Operands.lean ====
section
/-! DEFINITION. Every operand form: reading sources, writing destinations, and issuing an instruction with
the checks of R37, R43, R48 and R384 and the waits of the scoreboard. -/

namespace Sys2Proof.Machine

/-! ## Sources (R31 to R36) -/

/-- An immediate read as a type (R34). -/
def immBits (t : Ty) (n : BitVec 11) : Double :=
  let i := n.toInt
  let el (w : Nat) : Nat := (i % 2 ^ w).toNat
  let fl (f : FFmt) : Nat := (f.round .rn (FVal.ofInt i)).val
  BitVec.ofNat 64 (match t with
    | .s32 | .u32 => el 32
    | .s64 | .u64 => el 64
    | .s16x2 | .u16x2 => el 16 * 0x10001
    | .s8x4 | .u8x4 => el 8 * 0x1010101
    | .f32 => fl fmtF32
    | .f16 => fl fmtF16
    | .bf16 => fl fmtBf16
    | .f16x2 => fl fmtF16 * 0x10001
    | .bf16x2 => fl fmtBf16 * 0x10001)

/-- A field of a work identifier (R52). -/
def widField : List Nat → Nat → Nat → Nat
  | [], _, _ => 0
  | w :: _, 0, x => x % 2 ^ w
  | w :: r, k + 1, x => widField r k (x / 2 ^ w)

/-- The special operands (R32), by code − 0x2C0; the lane is the executing one or, in a U form, the lowest
active one (R39). -/
def State.special (s : State) (n l : Nat) : Word :=
  let w := s.wWarp
  let time := s.coreTime w.core
  let id := w.ident + l
  if n = 0 then BitVec.ofNat 32 l
  else if n = 1 then BitVec.ofNat 32 (l / 4)
  else if n = 2 then BitVec.ofNat 32 w.num
  else if n = 3 then BitVec.ofNat 32 (s.team w.team).slot
  else if n = 4 then BitVec.ofNat 32 (w.core % 64)
  else if n = 5 then BitVec.ofNat 32 (w.core / 64)
  else if n < 14 then BitVec.ofNat 32 (widField w.widths (n - 8) id)
  else if n < 22 then BitVec.ofNat 32 (widField w.widths (n - 16) id / 2 ^ 32)
  else if n = 24 then BitVec.ofNat 32 s.who.way
  else if n = 25 then BitVec.ofNat 32 time
  else if n = 26 then BitVec.ofNat 32 (time / 2 ^ 32)
  else BitVec.ofNat 32 w.nlanes

def pairOf (lo hi : Word) : Double := (hi ++ lo : BitVec 64)

/-- A source in a lane, read in a position of a type: 64 bits, the upper half zero in a 32-bit position. A
result of 32 bits in the bypass has a zero upper half, which R45 does not state (log 120). -/
def State.src (s : State) (l : Nat) (t : Ty) (x : Src) : Double :=
  let w := s.wWarp
  let k := s.who.way
  let c := s.gang.chain
  let lo (d : Double) : Double := if t.wide then d else (d.setWidth 32).setWidth 64
  match x with
  | .v n =>
    if t.wide then pairOf (w.getV k true n.val l) (w.getV k true (n.val + 1) l)
    else (w.getV k true n.val l).setWidth 64
  | .g n =>
    if t.wide then pairOf (w.getG k true n.val) (w.getG k true (n.val + 1)) else (w.getG k true n.val).setWidth 64
  | .p n => if w.getP k true n.val l then 1 else 0
  | .gp n => if w.getGp k true n.val then 1 else 0
  | .by1 => lo (c.by1.get 0 l)
  | .by2 => lo (c.by2.get 0 l)
  | .lt n => lo ((if n.val = 0 then c.lt0 else if n.val = 1 then c.lt1 else c.lt2).get 0 l)
  | .special n => (s.special n.val l).setWidth 64
  | .imm n => immBits t n

/-- A 32-bit source. -/
def State.src32 (s : State) (l : Nat) (x : Src) : Word := (s.src l .u32 x).setWidth 32
/-- A 64-bit source. -/
def State.src64 (s : State) (l : Nat) (x : Src) : Double := s.src l .u64 x

/-- The lane in which a U form reads what is held per lane (R39). -/
def State.uLane (s : State) : Nat := lowest s.active

/-! ## Destinations (R35, R36, R45) -/

/-- A value written to a destination in one lane; a wide one to a pair. -/
def Warp.put (w : Warp) (k : Nat) (mine : Bool) (l : Nat) (d : Dst) (wide : Bool) (x : Double) : Warp :=
  match d with
  | .v n =>
    let w := w.setV k mine n.val l (x.setWidth 32)
    if wide then w.setV k mine (n.val + 1) l (x.extractLsb' 32 32) else w
  | .g n =>
    let w := w.setG k mine n.val (x.setWidth 32)
    if wide then w.setG k mine (n.val + 1) (x.extractLsb' 32 32) else w
  | .p n => w.setP k mine n.val l (x.setWidth 32 != 0#32)
  | .gp n => w.setGp k mine n.val (x.setWidth 32 != 0#32)
  | .discard => w

/-- Granules of 64 bits wholly written lose their poison (R384, log 9). -/
def clearPoison (t : Tab Bool) (n : Nat) (ls : Lanes) : Tab Bool :=
  (List.range 16).foldl (fun t i =>
    if ls.getLsbD (2 * i) && ls.getLsbD (2 * i + 1) then t.set false (16 * n + i) false else t) t

def Warp.cleanDst (w : Warp) (k : Nat) (mine : Bool) (d : Dst) (wide : Bool) (ls : Lanes) : Warp :=
  match d with
  | .v n =>
    let clear (t : Tab Bool) : Tab Bool :=
      let t := clearPoison t n.val ls
      if wide then clearPoison t (n.val + 1) ls else t
    if mine && w.trap.isSome && n.val < 32 then { w with trap := w.trap.map (fun t => { t with vpois := clear t.vpois }) }
    else w.updArch k (fun a => { a with vpois := clear a.vpois })
  | .g n =>
    if !wide then w
    else if mine && w.trap.isSome && 48 ≤ n.val then
      { w with trap := w.trap.map (fun t => { t with gpois := t.gpois.set false (n.val / 2) false }) }
    else w.updArch k (fun a => { a with gpois := a.gpois.set false (n.val / 2) false })
  | _ => w

/-- Results written in each lane of a mask. -/
def State.putLanes (s : State) (ls : Lanes) (d : Dst) (wide : Bool) (f : Nat → Double) : State :=
  s.updMy (fun w =>
    ((lanesOf ls).foldl (fun w l => w.put s.who.way true l d wide (f l)) w).cleanDst s.who.way true d wide ls)

/-- Sticky flags raised by the issuing instruction. -/
def State.raise (s : State) (fl : Word) : State := s.updMy (fun w => w.raise s.who.way true fl)

/-! ## What an instruction names (R37, R106, R313, R384) -/

/-- A register or predicate. -/
inductive Reg where
  | v (n : Nat) | g (n : Nat) | p (n : Nat) | gp (n : Nat)
  deriving DecidableEq, Repr

def Src.regsFrom (x : Src) (k : Nat) : List Reg :=
  match x with
  | .v n => (List.range k).map (fun i => .v (n.val + i))
  | .g n => (List.range k).map (fun i => .g (n.val + i))
  | .p n => [.p n.val]
  | .gp n => [.gp n.val]
  | _ => []

/-- Registers that a destination writes: a write to p0 or gp0 is none (R31, R35). -/
def Dst.regsFrom (x : Dst) (k : Nat) : List Reg :=
  match x with
  | .v n => (List.range k).map (fun i => .v (n.val + i))
  | .g n => (List.range k).map (fun i => .g (n.val + i))
  | .p n => if n = 0 then [] else [.p n.val]
  | .gp n => if n = 0 then [] else [.gp n.val]
  | .discard => []

/-- The registers an instruction reads and writes by name. -/
structure Uses where
  com : Common
  rd  : List Reg
  wr  : List Reg := []
  deriving DecidableEq, Repr

def tyRegs (t : Option Ty) : Nat := match t with | none => 0 | some t => if t.wide then 2 else 1

def usesA (f : OpA) (r : RoleA) : Uses :=
  ⟨f.com, Src.regsFrom f.a (tyRegs r.a) ++ Src.regsFrom f.b (tyRegs r.b) ++ Src.regsFrom f.c (tyRegs r.c),
    Dst.regsFrom f.dst (tyRegs r.d)⟩

def usesM (f : OpM) (a b c d : Nat) : Uses :=
  ⟨f.com, Src.regsFrom f.a a ++ Src.regsFrom f.b b ++ Src.regsFrom f.c c, Dst.regsFrom f.dst d⟩
def usesB (f : OpB) (a d : Nat) : Uses := ⟨f.com, Src.regsFrom f.a a, Dst.regsFrom f.dst d⟩

/-- Format T, with the barrier pair of the flat fields (R169) and the mask registers of MASKQ (R268). -/
def usesT (f : OpT) (a b c d : Nat) (flat mask : Bool) : Uses :=
  ⟨f.com, Src.regsFrom f.a a ++ Src.regsFrom f.b b ++ Src.regsFrom f.c c ++
    (if flat && f.bits 29 1 == 1 then [.g (2 * f.bits 24 5), .g (2 * f.bits 24 5 + 1)] else []) ++
    (if mask then (List.range 8).map (fun i => .g (4 * f.bits 24 4 + i)) else []), Dst.regsFrom f.tok d⟩

/-- The predicates of a byte mask, of lanes or of the group. -/
def namedPreds (u : Bool) (m : Nat) : List Reg :=
  ((List.range 8).filter (fun i => m.testBit i)).map (fun i => if u then .gp i else .p i)

def allPreds (u : Bool) : List Reg := namedPreds u 255

/-- What a word names in the fields it uses. -/
def usesOf (i : Instr) : Option Uses :=
  match i with
  | .pmovGet f => some { usesA f ⟨some .u32, none, none, none, [], false, true, true, true⟩ with rd := allPreds f.com.u }
  | .pmovSet f => some ⟨f.com, Src.regsFrom f.a 1, namedPreds f.com.u (f.opxBits 1 7 * 2)⟩
  | .movi f => some ⟨f.com, [], Dst.regsFrom f.dst (tyRegs (some f.ty))⟩
  | .nop f | .bra f | .rcv f | .join f | .loop f | .brk f | .next f | .call f | .ret f | .exit f | .regang f
  | .safept f | .safeptRf f | .yield f | .trap f | .bkpt f | .atome f | .atoma f => some (usesB f 0 0)
  | .brx f | .callx f => some (usesB f 2 0)
  | .sploop f => some (usesB f 1 1)
  | .spput f => some (usesB f 1 0)
  | .spacc f | .spnext f => some (usesB f 1 0)
  | .spend f => some (usesB f 0 2)
  | .spq f | .atomb f | .atomq f => some (usesB f 0 1)
  | .ld f => some (usesM f 2 0 1 f.size.regs)
  | .st f => some (usesM f 2 f.size.regs 1 0)
  | .prf f | .cctlInv f | .cctlWb f | .cctlWbinv f | .cctlZero f => some (usesM f 2 0 1 0)
  | .fence f | .cctlInvall f | .tret f | .tretKill f => some (usesM f 0 0 0 0)
  | .atom f => some (usesM f 2 f.size.regs 1 f.size.regs)
  | .cas f => some (usesM f 2 f.size.regs f.size.regs f.size.regs)
  | .red f | .bupd f => some (usesM f 2 f.size.regs 1 0)
  | .binit f | .bexp f => some (usesM f 2 1 1 0)
  | .barv f | .bwait f | .barw f => some (usesM f 2 1 1 1)
  | .waita f => some (usesM f 2 (2 * f.size.regs) 1 2)
  | .rootsw f => some (usesM f 1 1 2 1)
  | .rootcpFork f => some (usesM f 1 1 0 2)
  | .rootcpSnap f | .rootcpDrop f => some (usesM f 0 1 0 2)
  | .rfrsh f => some (usesM f 0 0 0 1)
  | .tnode f => some (usesM f 2 1 2 2)
  | .pgmapFt f | .pgmapCow f => some (usesM f 2 0 0 1)
  | .csrr f => some (usesM f 0 0 0 f.size.regs)
  | .csrw f => some (usesM f 0 f.size.regs 0 0)
  | .fltq f => some (usesM f 0 1 0 1)
  | .pgreq f => some (usesM f 2 0 0 1)
  | .cpy f => some (usesT f 2 2 1 1 true false)
  | .cpyt f | .cpyr f => some (usesT f 2 0 0 1 true false)
  | .cpyg f | .cpys f => some (usesT f 2 2 1 1 true false)
  | .cpyx f => some (usesT f 2 0 1 1 true false)
  | .cpyq f => some (usesT f 0 0 0 2 false false)
  | .cpyc f => some (usesT f 0 0 0 0 false false)
  | .osld f => some (usesT f 2 1 1 1 true false)
  | .mma f | .mmag f | .tcrt f => some (usesT f 2 2 1 1 false true)
  | .tzero f => some (usesT f 2 0 1 1 false true)
  | .tqnt f | .tdq f | .tstat f => some (usesT f 2 2 1 1 false false)
  | .ttrn f => some (usesT f 2 2 0 1 false false)
  | .kvx f => some { usesT f 2 1 0 2 false false with wr := Dst.regsFrom f.tok 2 ++ Src.regsFrom f.c 2 }
  | .kvvalSet f | .kvvalClr f | .skchSlot f => some (usesT f 2 1 0 2 false false)
  | .skchVec f => some (usesT f 2 1 2 2 false false)
  | .kvrcl f => some (usesT f 2 2 0 1 false false)
  | .attn f | .attnq f => some (usesT f 2 0 1 1 false false)
  | .launch f | .emit f => some (usesT f 2 2 1 1 false false)
  | .ndone f => some (usesT f 0 1 0 1 false false)
  | .slotw f => some (usesT f 2 1 0 1 false false)
  | .prmptStop f | .prmptEvict f => some (usesT f 2 0 0 1 false false)
  | j => match j.roleA with
    | some (f, r) => some (usesA f r)
    | none => none

/-- The registers that a word waits for before its own checks. A collective of the array waits for its mask and token
registers after them (R264). -/
def usesFirst (i : Instr) (u : Uses) : Uses :=
  match i with
  | .mma f | .mmag f | .tcrt f | .tqnt f | .tdq f | .tstat f => usesT f 2 2 1 0 false false
  | .tzero f | .attn f | .attnq f => usesT f 2 0 1 0 false false
  | .ttrn f => usesT f 2 2 0 0 false false
  | _ => u

/-- The lanes a word works in: the executing ones, or for a U form the active ones. -/
def State.workLanes (s : State) (c : Common) : Lanes := if c.u then s.active else s.executing c

/-- Some named v register lies at or above the allocation (R37); the window of the handler does not count. -/
def State.overBound (s : State) (u : Uses) : Bool :=
  (u.rd ++ u.wr).any (fun r => match r with
    | .v n => s.wWarp.alloc ≤ n && !(s.inHandler && n < 32)
    | _ => false)

/-- Some register source holds poison (R384). -/
def State.poisoned (s : State) (u : Uses) (ls : Lanes) : Bool :=
  u.rd.any (fun r => match r with
    | .v n =>
      let t := if n < 32 then (s.wWarp.trap.map (·.vpois)).getD s.arch.vpois else s.arch.vpois
      (lanesOf ls).any (fun l => t.get false ((32 * n + l) / 2))
    | .g n => (if 48 ≤ n then (s.wWarp.trap.map (·.gpois)).getD s.arch.gpois else s.arch.gpois).get false (n / 2)
    | _ => false)

/-- The lanes of a mask in which some register source holds poison. -/
def State.poisonLanes (s : State) (u : Uses) (ls : Lanes) : Lanes :=
  maskOf ((lanesOf ls).filter (fun l => s.poisoned u (maskOf [l])))

/-- The faulting lanes of the poison check (R357): those that failed it, or every active lane of a U form. -/
def State.poisonFault (s : State) (u : Uses) : Lanes :=
  if u.com.u then s.active else s.poisonLanes u (s.workLanes u.com)

/-- A register the scoreboard holds for a request or an engine (R106, R153, R171). -/
def State.busyReg (s : State) (ls : Lanes) (r : Reg) : Bool :=
  s.wWarp.busy.any (fun b =>
    b.way == s.who.way &&
    (match r, b.reg with
      | .v n, .v m => n == m.val && b.lanes &&& ls != 0 && (b.sup || !(s.inHandler && n < 32))
      | .p n, .p m => n == m.val && b.lanes &&& ls != 0 && (b.sup || !s.inHandler)
      | .g n, .g m => n == m.val && (b.sup || !(s.inHandler && 48 ≤ n))
      | .gp n, .gp m => n == m.val && (b.sup || !s.inHandler)
      | _, _ => false))

/-- A result of the issuing way for a register is not in it yet (R306). -/
def State.lateReg (s : State) (ls : Lanes) (r : Reg) : Bool :=
  (s.updMy (fun w => { w with busy := w.late.map (·.1) })).busyReg ls r

/-- The guard's predicate counts as a register read. -/
def guardReg (c : Common) : Reg := if c.u then .gp c.pg.val else .p c.pg.val

/-- The scoreboard makes the word wait. -/
def State.waits? (s : State) (u : Uses) : Bool :=
  s.busyReg s.active (guardReg u.com) || (u.rd ++ u.wr).any (s.busyReg (s.workLanes u.com))

/-! ## What a way reads and writes (R313) -/

/-- Keys of the read and write sets: v by 32 n + lane, then predicates, g and gp. -/
def regKeys (ls : Lanes) (r : Reg) : List Nat :=
  match r with
  | .v n => (lanesOf ls).map (fun l => 32 * n + l)
  | .p n => (lanesOf ls).map (fun l => 2 ^ 14 + 32 * n + l)
  | .g n => [2 ^ 14 + 256 + n]
  | .gp n => [2 ^ 14 + 320 + n]

def Way.track (y : Way) (rd wr : List Nat) : Way :=
  if y.st = 2 then
    { y with
      reads := rd.foldl (fun t k => if y.wrote.get false k then t else t.set false k true) y.reads
      wrote := wr.foldl (fun t k => t.set false k true) y.wrote }
  else y

/-- A register of the running code's own bank: in the handler its window, its predicates and g48 up (R359). -/
def Reg.banked (handler : Bool) (r : Reg) : Bool :=
  handler && (match r with | .v n => n < 32 | .g n => 48 ≤ n | .p _ | .gp _ => true)

/-- The registers an instruction reads and writes, entered in its way's sets; the handler's own bank is no part of the
way. -/
def State.track (s : State) (u : Uses) (ls : Lanes) : State :=
  let own (rs : List Reg) : List Reg := rs.filter (fun r => !r.banked s.inHandler)
  s.updWay (fun y => y.track ((own (guardReg u.com :: u.rd)).flatMap (regKeys (if u.com.u then s.active else ls)))
    ((own u.wr).flatMap (regKeys ls)))

end Sys2Proof.Machine
end

