-- ==== Sys2Proof/Machine/Tags.lean ====
section
/-! DEFINITION. Symbols, tags and constraints of symbolic regions (R204 to R207): what reading and writing a
tagged register does. -/

namespace Sys2Proof.Machine

/-- The issuing way is in its guess routine (R311). -/
def State.guessing (s : State) : Bool :=
  match s.wWarp.way? s.who.way with
  | some y => y.st == 1
  | none => false

/-- A way that may not yet run what only the oldest way runs (R315), or that is in its guess routine. -/
def State.youngWay (s : State) : Bool := s.wWarp.young s.who.way || s.guessing

/-- Regions belong to the warp's own gangs and to the oldest way; the handler is not tracked (R203). -/
def State.untracked (s : State) : Bool := s.inHandler || s.wWarp.regions.isEmpty || s.youngWay

/-- Registers that a tag at a location covers. -/
def Region.width (r : Region) (t : Tag) : Nat := if ((r.syms.getD t.sym ⟨0, 4, 0⟩).len) = 8 then 2 else 1

/-- Whether a tag at a location overlaps `k` registers from another. -/
def Region.overlaps (r : Region) (p : Loc × Tag) (x : Loc) (k : Nat) : Bool :=
  match p.1, x with
  | .v n, .v m => n < m + k && m < n + r.width p.2
  | a, b => a == b

def srcLoc : Src → Option Loc
  | .v n => some (.v n.val) | .p n => some (.p n.val) | .by1 => some .by1 | .by2 => some .by2
  | .lt n => some (.lt n.val) | _ => none

def dstLoc : Dst → Option Loc
  | .v n => some (.v n.val) | .p n => some (.p n.val) | _ => none

def Reg.loc : Reg → Option Loc
  | .v n => some (.v n) | .p n => some (.p n) | _ => none

/-- Tags met by reading `k` registers from a location. -/
def Region.read (r : Region) (x : Option Loc) (k : Nat) : List Tag :=
  match x with
  | none => []
  | some x => (r.tags.filter (fun p => r.overlaps p x k)).map (·.2)

/-- The tag of a source read at its symbol's own width (R205). -/
def Region.tagOf (r : Region) (x : Src) (t : Ty) : Option Tag :=
  match srcLoc x with
  | none => none
  | some (.p _) => none
  | some x =>
    match r.tags.find? (fun p => p.1 == x) with
    | some p => if r.width p.2 = (if t.wide then 2 else 1) then some p.2 else none
    | none => none

/-- A constraint recorded once; a ninth distinct one dooms the region (R205, R207). -/
def Region.constrain (r : Region) (c : Con) : Region :=
  if r.doom ≠ 0 ∨ r.cons.contains c then r
  else if r.cons.length < 8 then { r with cons := r.cons ++ [c] } else { r with doom := 3 }

def Region.exactAll (r : Region) (ts : List Tag) : Region := ts.foldl (fun r t => r.constrain (.exact t.sym)) r

/-- The locations hold every register that a tag covers. -/
def Region.covered (r : Region) (p : Loc × Tag) (xs : List Loc) : Bool :=
  match p.1 with
  | .v n => (List.range (r.width p.2)).all (fun i => xs.contains (.v (n + i)))
  | _ => true

/-- Writing locations drops the tags there; a tag of which a half survives leaves an exact constraint (log 10). -/
def Region.overwriteAll (r : Region) (xs : List Loc) : Region :=
  let hit (p : Loc × Tag) : Bool := xs.any (fun x => r.overlaps p x 1)
  { (r.exactAll ((r.tags.filter (fun p => hit p && !r.covered p xs)).map (·.2))) with
    tags := r.tags.filter (fun p => !hit p) }

/-- Writing `k` registers from a location. -/
def Region.overwrite (r : Region) (x : Option Loc) (k : Nat) : Region :=
  match x with
  | none => r
  | some (.v n) => r.overwriteAll ((List.range k).map (fun i => .v (n + i)))
  | some x => r.overwriteAll [x]

/-- A tag's constant, wrapping at its symbol's width (R204). -/
def Region.tag (r : Region) (sym : Nat) (k : Double) : Tag :=
  ⟨sym, if r.width ⟨sym, k⟩ = 2 then k else (k.setWidth 32).setWidth 64⟩

def Region.setTag (r : Region) (x : Option Loc) (t : Option Tag) : Region :=
  match x, t with
  | some x, some t => { r with tags := r.tags ++ [(x, t)] }
  | _, _ => r

/-- The tag of a result (R205), with the constraints that forming it records. `a` and `b` are the values
that the operands hold in the lane. -/
def Region.resultTag (r : Region) (i : Instr) (f : OpA) (a b : Double) : Region × Option Tag :=
  let ta := r.tagOf f.a f.ty
  let tb := r.tagOf f.b f.ty
  let rda := r.read (srcLoc f.a) (if f.ty.wide then 2 else 1)
  let rdb := r.read (srcLoc f.b) (if f.ty.wide then 2 else 1)
  let guard := r.read (some (.p f.com.pg.val)) 1
  let r := r.exactAll guard
  match i with
  | .iadd _ =>
    if f.ty.int && f.opx = 0 then
      match ta, tb with
      | some t, none => if rdb.isEmpty then (r, some (r.tag t.sym (t.k + b))) else (r.exactAll (rda ++ rdb), none)
      | none, some t => if rda.isEmpty then (r, some (r.tag t.sym (t.k + a))) else (r.exactAll (rda ++ rdb), none)
      | _, _ => (r.exactAll (rda ++ rdb), none)
    else (r.exactAll (rda ++ rdb), none)
  | .isub _ =>
    if f.ty.int && f.opx = 0 && rdb.isEmpty then
      match ta with
      | some t => (r, some (r.tag t.sym (t.k - b)))
      | none => (r.exactAll rda, none)
    else (r.exactAll (rda ++ rdb), none)
  | .mov _ =>
    if f.ty.int then
      match ta with
      | some t => (r, some t)
      | none => (r.exactAll rda, none)
    else (r.exactAll rda, none)
  | .isetp _ | .fsetp _ =>
    let r := if f.cmb = 0 then r else r.exactAll (r.read (srcLoc f.c) 1)
    let ok (t : Tag) : Bool := f.ty.int || (f.ty == .f32 && t.k == 0 && r.width t == 1)
    match ta, tb with
    | some t, none =>
      if rdb.isEmpty && ok t then
        (r.constrain (.cmp t.sym t.k (f.opxBits 0 3) f.ty b true (cmpTy f.ty (f.opxBits 0 3) a b).val), none)
      else (r.exactAll (rda ++ rdb), none)
    | none, some t =>
      if rda.isEmpty && ok t then
        (r.constrain (.cmp t.sym t.k (f.opxBits 0 3) f.ty a false (cmpTy f.ty (f.opxBits 0 3) a b).val), none)
      else (r.exactAll (rda ++ rdb), none)
    | _, _ => (r.exactAll (rda ++ rdb), none)
  | j =>
    match j.roleA with
    | some (_, q) =>
      (r.exactAll (r.read (srcLoc f.a) (tyRegs q.a) ++ (if q.b.isSome then r.read (srcLoc f.b) (tyRegs q.b) else []) ++
        (if q.c.isSome then r.read (srcLoc f.c) (tyRegs q.c) else [])), none)
    | none => (r, none)

/-- Bypass and latch tags after a member (R45, R204): by1 moves to by2, a captured source's tag `held` goes to its latch,
the result's to by1. -/
def Region.chainStep (r : Region) (member : Bool) (hold hslot : Fin 4) (held res : Option Tag) : Region :=
  let keep := r.tags.filterMap (fun p => match p.1 with
    | .by1 => if member then some (Loc.by2, p.2) else none
    | .by2 => none
    | .lt n => if member && !(hold != 0 && n == hslot.val) then some p else none
    | _ => some p)
  let r := { r with tags := keep }
  let r := if hold ≠ 0 then r.setTag (some (.lt hslot.val)) held else r
  r.setTag (some .by1) res

/-- The tags of a chain after a member that the lane executes. -/
def Region.chainTags (r : Region) (member : Bool) (f : OpA) (res : Option Tag) : Region :=
  r.chainStep member f.hold f.hslot (if f.hold.val = 1 then r.tagOf f.a f.ty else if f.hold.val = 2 then r.tagOf f.b f.ty
    else if f.hold.val = 3 then r.tagOf f.c f.ty else none) res

/-- What a format A instruction does to its lane's region: constraints, the destination's tag, the chain's. -/
def Region.stepA (r : Region) (i : Instr) (f : OpA) (k : Nat) (member : Bool) (a b : Double) : Region :=
  let (r', t) := r.resultTag i f a b
  let r' := (r'.chainTags member f t).overwrite (dstLoc f.dst) k
  match f.dst with
  | .discard => r'
  | d => r'.setTag (dstLoc d) t

/-- The lanes' regions changed, lane by lane. -/
def State.updRegions (s : State) (ls : Lanes) (f : Nat → Region → Region) : State :=
  s.updMy (fun w => { w with regions := (lanesOf ls).foldl (fun t l => t.upd l (f l)) w.regions })

/-- Tag work of an instruction that forms no tag: exact constraints on what it reads, tags dropped from
what it writes. A store's data is left to the store (R205). -/
def State.useTags (s : State) (u : Uses) (ls : Lanes) : State :=
  if s.untracked then s
  else s.updRegions ls (fun _ r =>
    let r := (guardReg u.com :: u.rd).foldl (fun r x => r.exactAll (r.read x.loc 1)) r
    r.overwriteAll (u.wr.filterMap Reg.loc))

end Sys2Proof.Machine
end

