-- ==== Sys2Proof/Machine/Issue.lean ====
section
/-! DEFINITION. Issuing an instruction: what is checked, what waits, and how an effect ends; chains and the
shared shape of the register instructions. -/

namespace Sys2Proof.Machine

/-! ## Chains (R41 to R45) -/

/-- The chain after one more member placed its values, zero in lanes that did not execute it: a head
starts the chain, a member shifts the bypass. -/
def Chain.push (c : Chain) (member : Bool) (vals : Tab Double) : Chain :=
  if member then { c with pos := c.pos + 1, left := c.left - 1, by2 := c.by1, by1 := vals }
  else { pos := 1, left := c.left, by1 := vals }

/-- A latch filled (R45). -/
def Chain.latch (c : Chain) (n : Nat) (vals : Tab Double) : Chain :=
  if n = 0 then { c with lt0 := vals } else if n = 1 then { c with lt1 := vals } else { c with lt2 := vals }

def Chain.isMember (c : Chain) : Bool := c.pos != 0 && c.left != 0

/-- The issuing word is a member of a chain whose head has issued. -/
def State.member (s : State) : Bool := s.gang.chain.isMember

/-- A member's values placed in the gang's bypass. -/
def State.bypass (s : State) (vals : Tab Double) : State :=
  s.updGang (fun g => { g with chain := g.chain.push g.chain.isMember vals })

/-- Class 1 to 4, neither RGET nor RPUT (R41). -/
def chainEligible (i : Instr) : Bool :=
  match i with
  | .rget _ | .rput _ => false
  | .movi _ => true
  | j => j.roleA.isSome

/-! ## Issuing -/

/-- How an instruction that would do work ends: done, a trap with nothing changed, a wait at issue, or a
wait until its way is the oldest. -/
inductive Eff where
  | done (s : State)
  | trap (t : Trap)
  | trapFrom (s : State) (t : Trap)   -- a trap after walks or an error that are recorded outside the warp
  | wait
  | waitFrom (s : State)               -- a wait with requests made meanwhile
  | oldest
  | parked (p : Park)                 -- parks where it stands, to issue again

/-- A word that does no work: the gang advances and counts it (R48, R82); one that stands in a chain still holds its
position with zeros (R45). -/
def State.passOver (s : State) (chained : Bool) : State :=
  let t := if chained then s.bypass [] else s
  let t := if chained && !s.untracked then t.updRegions s.active (fun _ q => q.chainStep s.member 0 0 none none) else t
  (t.countOne.advance).finish

def State.noWork (s : State) (i : Instr) : State := s.passOver (s.member || chainEligible i)

/-- Reading a tagged guard is a use of it (R205). -/
def State.guardTags (s : State) (c : Common) : State :=
  if s.untracked || c.u then s
  else s.updRegions s.active (fun _ r => r.exactAll (r.read (some (.p c.pg.val)) 1))

/-- The slices of a gang that waits until its way is the oldest. -/
def State.waitOldest (s : State) : State :=
  { (s.updWay (fun y => { y with stuck := y.stuck ||| s.gang.slices })) with issuing := false }

/-- A deferred trap that does not arise once its way is the oldest is forgotten (R315, R359). -/
def State.clearLate (s : State) (sl : BitVec 8) : State := s.updWay (fun y => { y with late := y.late &&& ~~~ sl })

/-- The end of an issue; `s` is the state before the instruction. -/
def State.ended (s : State) : Eff → State
  | .done t => (t.clearLate s.gang.slices).finish
  | .trap t => s.trap t
  | .trapFrom t x => { t with warps := s.warps }.trap x
  | .wait => s.stall
  | .waitFrom t => { s with reqs := t.reqs, clk := t.clk }.stall
  | .oldest => s.waitOldest
  | .parked p => (s.park p).stall

/-- The instruction counted and its registers entered in the way's sets. -/
def State.begin (s : State) (u : Uses) : State := (s.guardTags u.com).countOne.track u (s.workLanes u.com)

/-- PRF: a lane that fails a check is dropped, and the word takes no trap (R148). -/
def dropsLanes (i : Instr) : Bool := match i with | .prf _ => true | _ => false

/-- The issue of one word: nothing to do, a register over the bound, a wait, poison, or its effect. A chain
member was checked at the head (R43). -/
def State.issue (s : State) (i : Instr) (eff : State → Eff) : State :=
  match usesOf i with
  | none => s
  | some u =>
    if !s.member && s.busyReg s.active (guardReg u.com) then s.stall
    else if !s.doesWork u.com then (s.guardTags u.com).noWork i
    else if s.member then s.ended (eff (s.begin u))
    else if dropsLanes i && s.overBound u then s.ended (.done (s.begin u).advance)
    else if s.overBound u then s.trapC 0x03 (s.faulting u.com)
    else if s.waits? (usesFirst i u) then s.stall
    else if !dropsLanes i && s.poisoned u (s.workLanes u.com) then (s.consumed s.wWarp.core s.wWarp.tenant).trapC 0x0F (s.poisonFault u)
    else s.ended (eff (s.begin u))

/-- An instruction that a way runs only once it is the oldest (R150, R315). -/
def State.oldestOnly (s : State) (eff : State → Eff) : Eff := if s.youngWay then .oldest else eff s

/-- An instruction that a guess routine may not use stops the way there (R311). -/
def State.notGuessing (s : State) (eff : State → Eff) : Eff := if s.guessing then .oldest else eff s

/-- The lanes of a mask that are in a region (R202); the handler's instructions are not tracked (R203). -/
def State.regionLanes (s : State) (ls : Lanes) : Lanes :=
  if s.untracked then 0 else maskOf ((lanesOf ls).filter (fun l => (s.wWarp.regions.find l).isSome))

/-- An instruction that no lane may issue in a region: region misuse (R202). -/
def State.noRegion (s : State) (c : Common) (eff : State → Eff) : Eff :=
  let r := s.regionLanes (s.workLanes c)
  if r = 0 then eff s else .trap { cause := 0x11, lanes := if c.u then s.active else r }

/-! ## Register instructions (classes 1 to 4) -/

/-- The lanes in which a register instruction computes: the executing ones, or the one lane of a U form. -/
def State.calcLanes (s : State) (c : Common) : Lanes :=
  if c.u then maskOf [s.uLane] else s.executing c

/-- The values of a result in each lane, as a table. -/
def laneTab (ls : Lanes) (f : Nat → Double) : Tab Double := (lanesOf ls).foldl (fun t l => t.set 0 l (f l)) []

/-- The source that HOLD captures, with its type (R45). -/
def heldSrc (f : OpA) (r : RoleA) : Option (Src × Ty) :=
  match f.hold.val with
  | 1 => r.a.map (fun t => (f.a, t))
  | 2 => r.b.map (fun t => (f.b, t))
  | 3 => r.c.map (fun t => (f.c, t))
  | _ => none

/-- The effect of a register instruction whose result in a lane is `fn lane`: flags, constraints and tags of
regions, the destination, the capture, the bypass, PC + 12. R45 states no latch value where the capturing
instruction does not execute: such a lane of the entry reads 0, and a capture that no lane executes leaves the
entry as it was (log 120). -/
def State.runA (s : State) (i : Instr) (f : OpA) (r : RoleA) (fn : Nat → Res Double) : State :=
  let ls := s.calcLanes f.com
  let fl := (lanesOf ls).foldl (fun fl l => fl ||| (fn l).fl) 0
  let wide := match r.d with | some t => t.wide | none => false
  let regioned := !s.untracked
  let a (l : Nat) : Double := match r.a with | some t => s.src l t f.a | none => 0
  let b (l : Nat) : Double := match r.b with | some t => s.src l t f.b | none => 0
  let t := s.raise fl
  let t := if regioned then t.updRegions ls (fun l q => q.stepA i f (if wide then 2 else 1) s.member (a l) (b l)) else t
  -- a lane that does not execute the word holds zeros in its place of the chain (R45)
  let t := if regioned && chainEligible i then t.updRegions (s.active &&& ~~~ ls) (fun _ q => q.chainStep s.member f.hold f.hslot none none)
    else t
  let t := if r.d.isSome then t.putLanes ls f.dst wide (fun l => (fn l).val) else t
  let t := if chainEligible i then t.bypass (laneTab ls (fun l => (fn l).val)) else t
  let t := match heldSrc f r with
    | some (x, ty) => t.updGang (fun g => { g with chain := g.chain.latch f.hslot.val (laneTab ls (fun l => s.src l ty x)) })
    | none => t
  t.advance

/-- A register instruction issued: its result in a lane is a function of the state it issues in. -/
def State.alu (s : State) (i : Instr) (fn : OpA → State → Nat → Res Double) : State :=
  match i.roleA with
  | none => s
  | some (f, r) => s.issue i (fun s => .done (s.runA i f r (fn f s)))

/-- Operands read as their roles say. -/
def opA (f : OpA) (t : Ty) (s : State) (l : Nat) : Double := s.src l t f.a
def opB (f : OpA) (t : Ty) (s : State) (l : Nat) : Double := s.src l t f.b
def opC (f : OpA) (t : Ty) (s : State) (l : Nat) : Double := s.src l t f.c

end Sys2Proof.Machine
end

