-- ==== Sys2Proof/Machine/Mem.lean ====
section
/-! DEFINITION. Addresses: the map of R118, translation (R340 to R342), the checks of R148, and the recall of
a line to its home. -/

namespace Sys2Proof.Machine

/-! ## Recall: every die gives up a line (R134, R189, R192) -/

/-- Leases that a die has granted on a line have expired at every point of the package: by the slowest time base, since
the copies under them live by their own cores' (R7, R131, R134, R139). -/
def State.leasesOver (s : State) (d l : Nat) : Bool := (s.l2 d l).exp ≤ s.clk.time

/-- No data or grant of the line is on its way to a die, and every die that holds the line could give it up,
or, without `inv`, pass it on. -/
def State.diesReady (s : State) (l : Nat) (inv : Bool) : Bool :=
  !s.net.any (fun m => m.line == l && (m.kind == .dats || m.kind == .date || m.kind == .datm || m.kind == .grant)) &&
  (List.range 8).all (fun d =>
    let x := s.l2 d l
    x.st == .I || x.st == .IS || x.st == .IM || x.st == .MI ||
      (!x.locked && x.snoop.isNone && (!inv || s.leasesOver d l)))

/-- The home may recall the line now: no transaction, no lock, no live lease. -/
def State.canRecall (s : State) (l : Nat) : Bool := (s.dirE l).trans == 0 && s.diesReady l true

/-- A conflict notice is due where regions watch the line (R208). -/
def State.notice (s : State) (d l : Nat) : State :=
  if (s.l2 d l).watched then s.updDie d (fun x => { x with notices := x.notices ++ [l] }) else s

/-- Every die gives up the line; its value is home. -/
def State.recall (s : State) (l : Nat) : State :=
  let pois := s.linePoison l
  let s := { s with mem := putLine s.mem (s.lineTab l) l }
  let s := { s with pois := s.pois.set false l pois }
  let s := (List.range 8).foldl (fun s d =>
    match (s.l2 d l).st with
    | .S | .E | .M | .O => (s.notice d l).updL2 d l (fun _ => {})
    | .SM => (s.notice d l).updL2 d l (fun _ => { st := .IM })
    | _ => s) s
  s.updDir l (fun e => { e with state := 0, shar := 0, owner := 0 })

/-- The owner passes the line on and keeps it in O; the home has the data (R187). -/
def State.passOn (s : State) (l : Nat) : State :=
  let pois := s.linePoison l
  let s := { s with mem := putLine s.mem (s.lineTab l) l, pois := s.pois.set false l pois }
  let s := (List.range 8).foldl (fun s d =>
    match (s.l2 d l).st with
    | .E | .M => (s.notice d l).updL2 d l (fun x => { x with st := .O })
    | _ => s) s
  s.updDir l (fun e => { e with state := if e.state = 2 then 3 else e.state })

/-! ## The streams of the host ports (R382) -/

/-- Until its keys are programmed a stream carries only configuration and DOE traffic. Streams 0 to 15 are the
functions', 17 is CXL's. -/
def State.carries (s : State) (stream : Nat) : Bool := s.plat.trust.keys.get 0 stream != 0

/-- The stream that an access of a tenant to a host line travels on. -/
def hostStream (tenant : Nat) (unc : Bool) : Nat := if unc then tenant else 17

/-! ## Translation (R340 to R342) -/

/-- A leaf's target: its target address, and whether a host line is uncached (R122, R341). -/
structure Leaf where
  ta  : Nat
  unc : Bool := false
  deriving DecidableEq, Repr

/-- A tree entry's fields (R341). -/
def eV (e : Nat) : Bool := e.testBit 0
def eL (e : Nat) : Bool := e.testBit 1
def eW (e : Nat) : Bool := e.testBit 2
def eX (e : Nat) : Bool := e.testBit 3
def eU (e : Nat) : Bool := e.testBit 4
def eCow (e : Nat) : Bool := e.testBit 5
def eFt (e : Nat) : Bool := e.testBit 6
def eAddr (e : Nat) : Nat := bitsOf e 11 45 * 2048
def eMt (e : Nat) : Nat := bitsOf e 60 2
def eTgt (e : Nat) : Nat := bitsOf e 62 2

/-- Address bits below a level (R340). -/
def levelShift (lvl : Nat) : Nat := 48 - 8 * lvl

/-- A stack none of whose DRAM layers is present (R25). -/
def State.stackAbsent (s : State) (d : Nat) : Bool :=
  (List.range 4).all (fun k => s.plat.absLayers.contains (4 * d + k))

/-- `malformed(e, lvl)` (R342). -/
def State.malformed (s : State) (e lvl : Nat) : Bool :=
  bitsOf e 7 4 != 0 || bitsOf e 56 4 != 0 || (eFt e && (eV e || !eL e)) ||
  (eV e &&
    (if eL e then
      lvl < 2 || 2 ≤ eMt e || !alignedTo (bitsOf e 11 37 * 2048) (2 ^ levelShift lvl) ||
      (match eTgt e with
        | 0 => ctlBase ≤ eAddr e || s.stackAbsent (eAddr e / 2 ^ 36)
        | 1 => false
        | _ => bitsOf e 39 9 != 0)
    else
      lvl == 4 || eTgt e != 0 || eMt e != 0 || eFt e || eU e || eX e || eW e || ctlBase ≤ eAddr e ||
        s.stackAbsent (eAddr e / 2 ^ 36)))

/-- The path of a walk: each level's node and entry, the top first; it ends at a leaf, at an entry that is
not valid, or at a malformed one. -/
def State.walkPath (s : State) (va : Nat) : List Nat → Nat → List (Nat × Nat × Nat)
  | [], _ => []
  | lvl :: r, n =>
    let e := s.curNat (n + 8 * bitsOf va (levelShift lvl) 8) 8
    (lvl, n, e) :: (if s.malformed e lvl || !eV e || eL e then [] else s.walkPath va r (eAddr e))

/-- A core's walker has read the node lines on the path to an address (R349). -/
def State.noteWalk (s : State) (core : Nat) (r : Root) (va : Nat) : State :=
  let path := s.walkPath va [0, 1, 2, 3, 4] r.top
  let add (t : Tab (List Nat)) (p : Nat × Nat × Nat) : Tab (List Nat) :=
    Tab.modify [] t ((p.2.1 + 8 * bitsOf va (levelShift p.1) 8) / 64) (fun cs => if cs.contains core then cs else cs ++ [core])
  let walked := path.foldl add s.trees.walked
  { s with trees := { s.trees with walked := walked } }

/-- The target of a leaf at an address. -/
def leafAt (e lvl va : Nat) : Leaf :=
  let off := bitsOf va 0 (levelShift lvl)
  let a := eAddr e + off
  match eTgt e with
  | 0 => ⟨a, false⟩
  | 1 => ⟨hostBase + a, eMt e == 1⟩
  | 2 => ⟨peerBase + a, true⟩
  | _ => ⟨redBase + a, true⟩

/-- `translate(va, r, kind)`: the target or a trap cause; kind 0 read, 1 write, 2 exec. -/
def State.translate (s : State) (r : Root) (user : Bool) (va kind : Nat) : Except Nat Leaf :=
  let path := s.walkPath va [0, 1, 2, 3, 4] r.top
  match path.getLast? with
  | none => .error 0x0D
  | some (lvl, _, e) =>
    if s.malformed e lvl then .error 0x0D
    else if !eV e then
      (if eL e && eFt e then .error 0x0B else if eL e && eTgt e == 1 then .error 0x0E else .error 0x0A)
    else if user && !eU e then .error 0x0D
    else if kind = 1 ∧ (!eW e || r.ro) then .error 0x0D
    else if kind = 2 ∧ !eX e then .error 0x0D
    else if kind = 1 ∧ (path.any (fun p => eCow p.2.2) || r.sup) then .error 0x0C
    else if eTgt e = 1 ∧ s.link.down then .error 0x15
    else .ok (leafAt e lvl va)

/-- Through the pinned root of a warp. -/
def State.xlate (s : State) (u : Nat) (va kind : Nat) : Except Nat Leaf :=
  s.translate (s.root (s.warp u).root) (s.warp u).trap.isNone va kind

/-! ## The address map (R118 to R121) and the checks of R148 -/

/-- Regions of the map. -/
inductive Region' where
  | glob | scr | regw | phys | none
  deriving DecidableEq, Repr

def regionAt (a : Nat) : Region' :=
  if a < 2 ^ 56 then .glob
  else if 0xFE00000000000000 ≤ a ∧ a < 0xFE40000000000000 then .scr
  else if 0xFE40000000000000 ≤ a ∧ a < 0xFE80000000000000 then .regw
  else if 0xFF00000000000000 ≤ a ∧ a < 0xFF00010000000000 then .phys
  else .none

/-- What an access reaches. -/
inductive Tgt where
  | scr (off : Nat)
  | regw (off : Nat)
  | ctl (off : Nat)
  | mem (ta : Nat) (unc : Bool)
  deriving DecidableEq, Repr

/-- What an instruction accepts (the table of R148). `phys` 0 none, 1 device memory, 2 all of it. -/
structure Want where
  host : Bool
  peer : Bool
  red  : Bool
  scr  : Bool
  regw : Bool
  phys : Nat
  deriving DecidableEq, Repr

def wantLdSt : Want := ⟨true, true, false, true, true, 2⟩
def wantPrf : Want := ⟨true, false, false, false, false, 1⟩
def wantAtom (red : Bool) : Want := ⟨true, true, red, true, false, 1⟩
def wantBupd : Want := ⟨false, false, false, false, false, 1⟩
def wantBar : Want := ⟨false, false, false, true, false, 1⟩

/-- The region of an access, none where it straddles two. -/
def regionOf (a n : Nat) : Region' :=
  if regionAt a = regionAt (a + n - 1) then regionAt a else .none

/-- Registers' bytes of a warp's region (R61). -/
def Warp.regionBytes (w : Warp) : Nat := w.alloc * 128

/-- Offset in a window. -/
def offIn (a : Nat) : Nat :=
  match regionAt a with
  | .scr => a - 0xFE00000000000000
  | .regw => a - 0xFE40000000000000
  | .phys => a - 0xFF00000000000000
  | _ => a

/-- The lanes that fail a test, as a trap. -/
def failing (cause kind : Nat) (as : List (Nat × Nat)) (bad : Nat × Nat → Bool) : Option Trap :=
  match as.filter bad with
  | [] => none
  | l :: r =>
    let addr := (l :: r).foldl (fun t p => Tab.set 0 t p.1 (BitVec.ofNat 64 p.2)) []
    some { cause := cause, lanes := maskOf ((l :: r).map (·.1)), kind := kind, addr := addr }

/-- The first test that fails, in the order of a list. -/
def firstTrap : List (Option Trap) → Option Trap
  | [] => none
  | some t :: _ => some t
  | none :: r => firstTrap r

def okTgt (w : Want) (t : Tgt) : Bool :=
  match t with
  | .mem ta _ => isDev ta || (isHost ta && w.host) || (isPeer ta && w.peer) || (isRed ta && w.red)
  | _ => true

/-- Where an address leads once it has passed every test before translation. -/
def State.tgtAt (s : State) (u a kind : Nat) : Except Nat Tgt :=
  match regionAt a with
  | .scr => .ok (.scr (offIn a))
  | .regw => .ok (.regw (offIn a))
  | .phys => .ok (if offIn a < ctlBase then .mem (offIn a) false else .ctl (offIn a))
  | _ => match s.xlate u a kind with
    | .ok l => .ok (.mem l.ta l.unc)
    | .error c => .error c

/-- The checks of R148 up to the leaf target, over (lane, address) pairs. -/
def State.resolve (s : State) (u : Nat) (w : Want) (as : List (Nat × Nat)) (n kind : Nat) :
    Except Trap (List (Nat × Tgt)) :=
  let hand := (s.warp u).trap.isSome
  let physOff (p : Nat × Nat) : Bool := regionOf p.2 n == .phys
  let early := firstTrap [
    failing 0x09 kind as (fun p => !alignedTo p.2 n),
    failing 0x0D kind as (fun p => regionOf p.2 n == .none),
    failing 0x0D kind as (fun p => match regionOf p.2 n with
      | .scr => !w.scr | .regw => !w.regw | .phys => w.phys == 0 | _ => false),
    failing 0x03 kind as (fun p => regionOf p.2 n == .regw && (s.warp u).regionBytes < offIn p.2 + n),
    failing 0x14 kind as (fun p => physOff p && !hand),
    failing 0x0D kind as (fun p => physOff p && offIn p.2 < ctlBase && s.stackAbsent (offIn p.2 / 2 ^ 36))]
  match early with
  | some t => .error t
  | none =>
    let ts := as.map (fun p => (p, s.tgtAt u p.2 kind))
    match ts.find? (fun t => match t.2 with | .error _ => true | .ok _ => false) with
    | some (_, .error c) =>
      .error ((failing c kind as (fun p => match s.tgtAt u p.2 kind with | .error _ => true | .ok _ => false)).getD
        { cause := c, lanes := 0 })
    | _ =>
      match failing 0x0D kind as (fun p => match s.tgtAt u p.2 kind with
          | .ok (.ctl off) => w.phys != 2 || !(n == 4 || n == 8) || !(off < 2 ^ 40)
          | .ok t => !okTgt w t
          | .error _ => false) with
      | some t => .error t
      | none => .ok (ts.filterMap (fun t => match t.2 with | .ok x => some (t.1.1, x) | .error _ => none))

/-! ## Operand addresses (R146) -/

/-- `addr(L)`: base, index and offset. -/
def State.addrOf (s : State) (f : OpM) (off : Int) (l : Nat) : Nat :=
  let base := (s.src64 l f.a).toNat
  let idx := match f.c with
    | .v _ | .g _ => (s.src32 l f.c).toNat
    | _ => 0
  addr64 ((base : Int) + (match f.a with | .g _ => (idx : Int) | _ => 0) + off)

/-- An instruction whose SC is no index: CAS, WAITA (R157, R165). -/
def noIndex (f : OpM) : OpM := { f with c := .imm 0 }

/-- OFFSET24, or its low 20 bits where the operation code takes the rest (R157). -/
def OpM.off24 (f : OpM) : Int := f.off.toInt
def OpM.off20 (f : OpM) : Int := (f.off.setWidth 20).toInt

/-- The lanes' addresses of an instruction; a U form has one, in the lane that stands for the gang. -/
def State.addrs (s : State) (f : OpM) (off : Int) : List (Nat × Nat) :=
  (if f.com.u then [s.uLane] else lanesOf (s.executing f.com)).map (fun l => (l, s.addrOf f off l))

/-- A core walks to a global address through a warp's pinned root. -/
def State.noteVa (s : State) (u va : Nat) : State :=
  if regionAt va = .glob then s.noteWalk (s.warp u).core (s.root (s.warp u).root) va else s

/-- The addresses that a memory instruction translates are entered in the walker bitmaps of their nodes. -/
def State.noteAccess (s : State) (f : OpM) (off : Int) : State :=
  (s.addrs f off).foldl (fun s p => s.noteVa s.who.warp p.2) s

/-- The end of an instruction whose addresses fail: where it is a translation that fails, the walks that were made are
entered as well (R349). -/
def State.walkTrap (s : State) (f : OpM) (off : Int) (t : Trap) : Eff :=
  if (0x0A ≤ t.cause && t.cause ≤ 0x0E) || t.cause = 0x15 then .trapFrom (s.noteAccess f off) t else .trap t

/-- A trap of a U form is every active lane's (R357). -/
def State.widen (s : State) (u : Bool) (t : Trap) : Trap :=
  if u then
    let a := match t.addr with | [] => 0 | p :: _ => p.2
    { t with lanes := s.active, addr := (lanesOf s.active).foldl (fun m l => m.set 0 l a) [] }
  else t

/-- The address operand of format T or of a system instruction: an even g pair. -/
def State.pairVal (s : State) (x : Src) : Nat := (s.src64 s.uLane x).toNat

/-! ## Pins (R346) -/

/-- A root that has just become reclaimable joins the walker's queue (R348). -/
def State.noteReady (s : State) (r : Nat) : State :=
  let q := s.root r
  if q.valid && q.pin == 0 && !q.curr && !q.keep && !q.recl && !s.trees.ready.contains r then
    { s with trees := { s.trees with ready := s.trees.ready ++ [r] } }
  else s

def State.pin (s : State) (r : Nat) : State :=
  let s := s.updRoot r (fun q => { q with pin := q.pin + 1 })
  { s with trees := { s.trees with ready := s.trees.ready.filter (fun x => x != r) } }

def State.unpin (s : State) (r : Nat) : State := (s.updRoot r (fun q => { q with pin := q.pin - 1 })).noteReady r

/-- A warp's pin moves to its descriptor's current root (R354). -/
def State.repin (s : State) (u : Nat) : State :=
  let w := s.warp u
  let a := s.asd w.asd
  if !a.curv || a.cur == w.root then s
  else ((s.pin a.cur).unpin w.root).updWarp u (fun w => { w with root := a.cur })

/-- Bytes read through a warp's pinned root, byte by byte, or the cause that stops the walk. -/
def State.readVirt (s : State) (u va : Nat) : Nat → Except Nat Nat
  | 0 => .ok 0
  | n + 1 =>
    match s.translate (s.root (s.warp u).root) false va 0 with
    | .error c => .error c
    | .ok l => match s.readVirt u (va + 1) n with
      | .error c => .error c
      | .ok x => .ok ((s.cur l.ta).toNat + 256 * x)

end Sys2Proof.Machine
end

