-- ==== Sys2Proof/Machine/Control.lean ====
section
/-! DEFINITION. Class 0x0: control instructions (R68 to R84). Each acts slice by slice, decided for the whole
gang before any slice changes. -/

namespace Sys2Proof.Machine

/-- The depth at which a push traps (R57, R359). -/
def State.depthLimit (s : State) : Nat := if s.inHandler then 8 else 32

/-- A direct target (R70). -/
def State.target (s : State) (f : OpB) : Double := s.pc + 12 * (f.off.signExtend 64)

/-- A target outside translated global space; the handler may also branch into the supervisor window. -/
def badTarget (s : State) (t : Double) : Bool :=
  !(regionAt t.toNat == .glob) && !(s.inHandler && regionAt t.toNat == .phys)

/-- The checks of R70 over every executing lane's target. They come before those of R78 on tokens and depth, and
among them alignment comes first, then the map, then privilege: the spec states no order (log 121). -/
def State.checkTargets (s : State) (ts : List (Nat × Double)) : Option Trap :=
  let as := ts.map (fun p => (p.1, p.2.toNat))
  firstTrap [
    failing 0x09 2 as (fun p => !alignedTo p.2 12),
    failing 0x0D 2 as (fun p => regionAt p.2 != .glob && regionAt p.2 != .phys),
    failing 0x14 2 as (fun p => regionAt p.2 == .phys && !s.inHandler)]

/-! ## Reganging (R79, R80) -/

/-- Once every gang of a copy is parked at a REGANG: one gang at PC + 12, or the stall of R80. -/
def State.settleRegang (s : State) (u k : Nat) : State :=
  let a := (s.warp u).archOf k
  match a.gangs with
  | [] => s
  | g :: r =>
    if !(g :: r).all (fun h => h.park == .regang) then s else
    let pcOf (h : Gang) : Double := (a.slice ((slicesOf h.slices).headD 0)).pc
    if r.all (fun h => pcOf h == pcOf g) then
      (s.updWarp u (fun w => w.updArch k (fun a =>
        let a := (slicesOf a.unfinished).foldl (fun a i => a.updSlice i (fun x => { x with pc := x.pc + 12 })) a
        { a with gangs := [{ slices := a.unfinished, count := (g :: r).foldl (fun n h => max n h.count) 0,
                             fence := (g :: r).foldl (fun n h => max n h.fence) 0 }] }))).widenReqs u k a.unfinished
    else
      let low := (slicesOf a.unfinished).headD 0
      let lanes := a.activeIn (a.gang low).slices
      (s.updWarp u (fun w => w.updArch k (fun a => a.updGang low (fun h => { h with park := .none })))).trapAt u k low
        { cause := 0x07, lanes := lanes }

/-! ## Moving slices -/

/-- The issuing gang's slices replaced, the finished ones gone, the rest parted by PC (R78). -/
def State.putSlices (s : State) (xs : List (Nat × Slice)) : State :=
  let s := s.updArch (fun a =>
    (xs.foldl (fun (a : Arch) p => { a with slices := a.slices.set p.1 p.2 }) a).part s.who.slice)
  s.settleRegang s.who.warp s.who.way

/-- One slice's change: `E` is the set of its lanes that execute. A cause where it may not happen. -/
abbrev Move := Slice → BitVec 4 → Except Nat Slice

/-- A move made in every slice of the gang, or the trap of the slices that cannot make it. -/
def State.moveAll (s : State) (E : Lanes) (f : Nat → Move) : Eff :=
  let one (i : Nat) : Except Nat Slice :=
    match f i (s.arch.slice i) (sliceBits E i) with
    | .error c => .error c
    | .ok x => if s.depthLimit < x.stack.length then .error 0x06 else .ok x
  let rs := (slicesOf s.gang.slices).map (fun i => (i, one i))
  let bad (c : Nat) : Lanes := rs.foldl (fun m p => match p.2 with
    | .error e => if e = c then m ||| (laneBits (sliceBits E p.1) p.1) else m
    | .ok _ => m) 0
  if bad 0x01 ≠ 0 then .trap { cause := 0x01, lanes := bad 0x01 }
  else if bad 0x06 ≠ 0 then .trap { cause := 0x06, lanes := bad 0x06 }
  else .done (s.putSlices (rs.filterMap (fun p => match p.2 with | .ok x => some (p.1, x) | .error _ => none)))

/-- A slice that goes on while lanes remain, and settles once none does (R75 to R77). -/
def Slice.leaveBy (x : Slice) (pc : Double) : Slice := if x.mask = 0 then x.settle else { x with pc := pc }

/-- Active lanes of a slice grouped by a key, in order of their lowest lanes (R73). -/
def groupBy {κ : Type} [BEq κ] (m : BitVec 4) (key : Nat → κ) : List (κ × BitVec 4) :=
  [0, 1, 2, 3].foldl (fun gs i =>
    if m.getLsbD i then
      if gs.any (fun g => g.1 == key i) then gs.map (fun g => if g.1 == key i then (g.1, g.2 ||| 1#4 <<< i) else g)
      else gs ++ [(key i, 1#4 <<< i)]
    else gs) []

/-- A slice split: the first group goes on, the others wait in tokens that pop in ascending order (R73). -/
def Slice.split (x : Slice) (gs : List (Double × BitVec 4)) : Slice :=
  match gs with
  | [] => x
  | g :: r => { x with mask := g.2, pc := g.1, stack := r.map (fun p => tokenOf 0 p.2 p.1) ++ x.stack }

/-- BRX and ATOME group the lanes by target, the others forming one more group at another PC (R73, R212). -/
def Slice.splitBy (x : Slice) (E : BitVec 4) (pc : Double) (t : Nat → Double) : Slice :=
  x.split ((groupBy x.mask (fun i => if E.getLsbD i then some (t i) else none)).map
    (fun p => (p.1.getD pc, p.2)))

/-! ## Instructions -/

/-- The whole gang goes to one PC (R72). -/
def State.goto (s : State) (pc : Double) : State :=
  s.putSlices ((slicesOf s.gang.slices).map (fun i => (i, { s.arch.slice i with pc := pc })))

def execNop (f : OpB) (s : State) : Out := .next (s.issue (.nop f) (fun s => .done s.advance))

/-- R72. -/
def braMove (pc t : Double) : Move := fun x E =>
  if E = x.mask then .ok { x with pc := t }
  else if E ≠ 0 then .ok { (x.push 0 E t) with mask := x.mask &&& ~~~ E, pc := pc }
  else .ok { x with pc := pc }

/-- A control instruction's use of registers in regions, and its executing lanes. -/
def State.ctlLanes (s : State) (f : OpB) : Lanes := if f.com.u then s.active else s.executing f.com

def execBra (f : OpB) (s : State) : Out :=
  .next (s.issue (.bra f) (fun s =>
    let ls := s.ctlLanes f
    let t := s.target f
    match s.checkTargets ((lanesOf ls).map (fun l => (l, t))) with
    | some tr => .trap tr
    | none => if f.com.u then .done (s.goto t) else s.moveAll ls (fun _ => braMove (s.pc + 12) t)))

/-- R73. -/
def execBrx (f : OpB) (s : State) : Out :=
  .next (s.issue (.brx f) (fun s => s.notGuessing (fun s => s.noRegion f.com (fun s =>
    let ls := s.ctlLanes f
    let at' (l : Nat) : Double := if f.com.u then s.src64 s.uLane f.a else s.src64 l f.a
    match s.checkTargets ((lanesOf ls).map (fun l => (l, at' l))) with
    | some tr => .trap tr
    | none =>
      if f.com.u then .done (s.goto (at' s.uLane))
      else s.moveAll ls (fun i x E => .ok (x.splitBy E (s.pc + 12) (fun j => at' (4 * i + j))))))))

/-- R74. -/
def execRcv (f : OpB) (s : State) : Out :=
  .next (s.issue (.rcv f) (fun s =>
    let t := s.target f
    match s.checkTargets ((lanesOf s.active).map (fun l => (l, t))) with
    | some tr => .trap tr
    | none => s.moveAll s.active (fun _ x _ => .ok { (x.push 0 x.mask t) with pc := s.pc + 12 })))

def joinMove : Move := fun x _ =>
  match x.stack with
  | [] => .error 0x01
  | t :: r => .ok { x with mask := t.mask, pc := t.back x.pc, stack := r }.settle

def execJoin (f : OpB) (s : State) : Out :=
  .next (s.issue (.join f) (fun s => s.moveAll s.active (fun _ => joinMove)))

/-- R75. -/
def execLoop (f : OpB) (s : State) : Out :=
  .next (s.issue (.loop f) (fun s => s.notGuessing (fun s => s.noRegion f.com (fun s =>
    let t := s.target f
    match s.checkTargets ((lanesOf s.active).map (fun l => (l, t))) with
    | some tr => .trap tr
    | none => s.moveAll s.active (fun _ x _ => .ok { (x.push 1 x.mask t) with pc := s.pc + 12 })))))

/-- A loop token with no call token above it (R75). -/
def loopOk : List Token → Bool
  | [] => false
  | t :: r => if t.kind = 2 then false else if t.kind = 1 then true else loopOk r

def brkMove (pc : Double) : Move := fun x E =>
  if E = 0 then .ok { x with pc := pc }
  else if !loopOk x.stack then .error 0x01
  else .ok ((x.remove E (some 1)).leaveBy pc)

def execBrk (f : OpB) (s : State) : Out :=
  .next (s.issue (.brk f) (fun s => s.notGuessing (fun s => s.noRegion f.com (fun s =>
    s.moveAll (s.executing f.com) (fun _ => brkMove (s.pc + 12))))))

def nextMove (t : Double) : Move := fun x _ =>
  match x.stack with
  | [] => .error 0x01
  | k :: _ => if k.kind = 1 then .ok { x with pc := t } else .error 0x01

def execNext (f : OpB) (s : State) : Out :=
  .next (s.issue (.next f) (fun s => s.notGuessing (fun s => s.noRegion f.com (fun s =>
    let t := s.target f
    match s.checkTargets ((lanesOf s.active).map (fun l => (l, t))) with
    | some tr => .trap tr
    | none => s.moveAll s.active (fun _ => nextMove t)))))

/-- R76. -/
def callMove (pc t : Double) : Move := fun x E =>
  if E = 0 then .ok { x with pc := pc } else .ok { (x.push 2 x.mask pc) with mask := E, pc := t }

def execCall (f : OpB) (s : State) : Out :=
  .next (s.issue (.call f) (fun s => s.notGuessing (fun s => s.noRegion f.com (fun s =>
    let ls := s.executing f.com
    let t := s.target f
    match s.checkTargets ((lanesOf ls).map (fun l => (l, t))) with
    | some tr => .trap tr
    | none => s.moveAll ls (fun _ => callMove (s.pc + 12) t)))))

def callxMove (pc : Double) (t : Nat → Double) : Move := fun x E =>
  if E = 0 then .ok { x with pc := pc }
  else .ok ({ (x.push 2 x.mask pc) with mask := E }.splitBy E pc t)

def execCallx (f : OpB) (s : State) : Out :=
  .next (s.issue (.callx f) (fun s => s.notGuessing (fun s => s.noRegion f.com (fun s =>
    let ls := s.executing f.com
    match s.checkTargets ((lanesOf ls).map (fun l => (l, s.src64 l f.a))) with
    | some tr => .trap tr
    | none => s.moveAll ls (fun i => callxMove (s.pc + 12) (fun j => s.src64 (4 * i + j) f.a))))))

def retMove (pc : Double) : Move := fun x E =>
  if E = 0 then .ok { x with pc := pc }
  else if !hasToken 2 x.stack then .error 0x01
  else .ok ((x.remove E (some 2)).leaveBy pc)

def execRet (f : OpB) (s : State) : Out :=
  .next (s.issue (.ret f) (fun s => s.notGuessing (fun s => s.noRegion f.com (fun s =>
    s.moveAll (s.executing f.com) (fun _ => retMove (s.pc + 12))))))

/-- Lanes leave for good (R51, R77). -/
def exitMove (pc : Double) : Move := fun x E =>
  if E = 0 then .ok { x with pc := pc } else .ok ((x.remove E none).leaveBy pc)

def State.exitLanes (s : State) (ls : Lanes) : Eff :=
  (s.updArch (fun a => { a with exited := a.exited ||| ls })).moveAll ls (fun _ => exitMove (s.pc + 12))

/-- R77: speculation misuse in a way. -/
def execExit (f : OpB) (s : State) : Out :=
  .next (s.issue (.exit f) (fun s => s.noRegion f.com (fun s =>
    if s.wWarp.loop.isSome && !s.inHandler then .trap { cause := 0x10, lanes := s.executing f.com }
    else s.exitLanes (s.executing f.com))))

/-- R79. -/
def execRegang (f : OpB) (s : State) : Out :=
  .next (s.issue (.regang f) (fun s => s.notGuessing (fun s => s.noRegion f.com (fun s =>
    .done ((s.park .regang).settleRegang s.who.warp s.who.way)))))

/-! ## Safe points (R81, R82) -/

/-- Some lane of the warp is in a region (R203). -/
def Warp.inRegion (w : Warp) : Bool := !w.regions.isEmpty

/-- A pre-emption request stops the gang here (R81, R203, R316, R357). -/
def State.stopsHere (s : State) : Bool :=
  s.wWarp.preempt && !s.inHandler && s.wWarp.loop.isNone && !s.wWarp.inRegion

/-- The entry of the live-set table that a stop reads, none for an index at or beyond its count; or a cause and
an address (R81, R288). -/
def State.liveEntry (s : State) (n : Nat) : Except (Nat × Nat) (Option Nat) :=
  let t := s.wWarp.lstab
  match s.readVirt s.who.warp t 8 with
  | .error c => .error (c, t)
  | .ok k =>
    if k ≤ n then .ok none
    else match s.readVirt s.who.warp (t + 8 + 64 * n) 64 with
      | .error c => .error (c, t + 8 + 64 * n)
      | .ok x => .ok (some x)

/-- The walks of that reading (R349). -/
def State.liveWalks (s : State) (n : Nat) : State :=
  let u := s.who.warp
  let t := s.wWarp.lstab
  match s.readVirt u t 8 with
  | .ok k => if k ≤ n then s.noteVa u t else (s.noteVa u t).noteVa u (t + 8 + 64 * n)
  | .error _ => s.noteVa u t

/-- A safe point, with or without the re-pin of SAFEPT.rf. A stop reads the live-set table through the root that
is pinned when the SAFEPT issues; a SAFEPT.rf of a way that is not oldest re-pins the whole warp as it issues, and a
later squash does not undo it: the spec states neither (log 122). -/
def State.safePoint (s : State) (f : OpB) (rf : Bool) : Eff :=
  let n := f.imm.toNat % 65536
  let s0 := s
  let s := if s.stopsHere then s.liveWalks n else s
  let s1 := if s.regionLanes s.active = 0 then s.updGang (fun g => { g with count := 0 }) else s
  let s2 := if rf then s1.repin s.who.warp else s1
  if s.stopsHere then
    match s0.liveEntry n with
    | .ok (some x) => .done (s2.advance.park (.safept x))
    | .ok none => .trapFrom s { cause := 0x01, lanes := s.active }
    | .error e => .trapFrom s {
        cause := e.1, lanes := s.active, kind := 0
        addr := (lanesOf s.active).foldl (fun (t : Tab Double) l => t.set 0 l (BitVec.ofNat 64 e.2)) [] }
  else .done s2.advance

def execSafept (f : OpB) (s : State) : Out :=
  .next (s.issue (.safept f) (fun s => s.notGuessing (fun s => s.safePoint f false)))
def execSafeptRf (f : OpB) (s : State) : Out :=
  .next (s.issue (.safeptRf f) (fun s => s.notGuessing (fun s => s.safePoint f true)))

/-- R82: the gang's next issue is the overdue trap. -/
def execSafePointOverdue (g : GangRef) (s : State) : Out :=
  let w := s.warp g.warp
  let h := (w.archOf g.way).gang g.slice
  if w.trap.isNone && h.slices != 0 && 65536 ≤ h.count && h.park == .none && !h.chain.isMember then
    .next (s.trapAt g.warp g.way g.slice { cause := 0x08, lanes := (w.archOf g.way).activeIn h.slices })
  else .refused (.notEnabled "SAFE_POINT_OVERDUE")

/-! ## YIELD (R83). A gang's `cyc` is 0 for ready, 1 for passed over once, 2 for a count that has run out,
and above that the cycles still to pass, plus 2. -/

def execYield (f : OpB) (s : State) : Out :=
  .next (s.issue (.yield f) (fun s => s.notGuessing (fun s =>
    .done (s.advance.updGang (fun g => { g with cyc := if f.imm = 0 then 1 else f.imm.toNat + 2 })))))

def execYieldExpiry (g : GangRef) (s : State) : Out :=
  if ((s.warp g.warp).archOf g.way |>.gang g.slice).cyc = 2 then
    .next (s.updWarp g.warp (fun w => w.updArch g.way (fun a => a.updGang g.slice (fun h => { h with cyc := 0 }))))
  else .refused (.notEnabled "YIELD_EXPIRY")

/-! ## Software traps (R84) -/

def State.softTrap (s : State) (cause : Nat) (f : OpB) : Eff :=
  .trap { cause := cause, lanes := s.executing f.com, code := f.imm.toNat }

def execTrap (f : OpB) (s : State) : Out :=
  .next (s.issue (.trap f) (fun s => s.oldestOnly (fun s => s.softTrap 0x12 f)))
def execBkpt (f : OpB) (s : State) : Out :=
  .next (s.issue (.bkpt f) (fun s => s.oldestOnly (fun s => s.softTrap 0x13 f)))

end Sys2Proof.Machine
end

