-- ==== Sys2Proof/Machine/Coherence.lean ====
section
/-! DEFINITION. Coherence between dies and the host-line filter (R185 to R191, R193, R194): the messages of
R187 travel in the state's list `net`, on the channels of that rule. -/

namespace Sys2Proof.Machine

/-- The step cannot be taken now. -/
def no (row : String) : Out := .refused (.notEnabled row)

/-- A step taken where its condition holds. -/
def onlyIf (row : String) (c : Bool) (s : State) : Out := if c then .next s else no row

def MsgKind.toHome : MsgKind → Bool
  | .rds | .rdx | .upg | .wbd | .evc | .ackinv | .rspd | .rspi => true
  | _ => false

def MsgKind.request : MsgKind → Bool
  | .rds | .rdx | .upg => true
  | _ => false

/-- Between a die and a line's home messages keep their order on one channel (log 15): requests; write-backs and
eviction notices; responses; and what the home sends, where a snoop does not overtake data or a grant sent before it. -/
def MsgKind.channel : MsgKind → Nat
  | .rds | .rdx | .upg => 0
  | .wbd | .evc => 1
  | .ackinv | .rspd | .rspi => 2
  | _ => 3

def State.send (s : State) (m : Msg) : State := { s with net := s.net ++ [{ m with time := s.clk.time }] }

/-- The messages ahead of the first of a kind for a die and line, that message, and those behind. -/
def splitMsg (k : MsgKind) (d l : Nat) : List Msg → Option (List Msg × Msg × List Msg)
  | [] => none
  | m :: r =>
    if m.kind = k ∧ m.die = d ∧ m.line = l then some ([], m, r)
    else match splitMsg k d l r with
      | none => none
      | some (a, x, b) => some (m :: a, x, b)

/-- A message taken out, if nothing between the same two parties about the line is ahead of it on its channel: a
response never waits for a request (R188). -/
def State.takeMsg (s : State) (k : MsgKind) (d l : Nat) : Option (Msg × State) :=
  match splitMsg k d l s.net with
  | none => none
  | some (a, m, b) =>
    if a.any (fun x => x.die == d && x.line == l && x.kind.channel == k.channel) then none
    else some (m, { s with net := a ++ b })

/-- The lines of a span of memory. -/
def spanLines (a n : Nat) : List Nat := (List.range ((a + n + 63) / 64 - a / 64)).map (fun i => a / 64 + i)

def accLines (a : HostAcc) : List Nat := spanLines a.addr a.len

/-- Its values come from what it reads where it is performed. -/
def Write.updates (w : Write) : Bool :=
  w.near || (match w.kind with | .atom _ | .red _ | .bupd _ => true | .bar op => op != 2 | _ => false)

/-- A byte that it writes, or may write. -/
def Write.touches (w : Write) (ta : Nat) : Bool :=
  (w.bytes.find ta).isSome || (w.updates && !(w.near && w.made) && w.accs.any (fun a => a.ta ≤ ta && ta < a.ta + a.len))

/-- A load of the warp that issued earlier has still to fetch a byte that the write changes: the warp's own accesses
keep their order at each location (R136, R155). -/
def State.loadBefore (s : State) (w : Write) : Bool :=
  w.op.isNone && s.reqs.any (fun q => q.started && q.seq < w.id && q.warp == w.src && q.id != w.req && q.kind != .prefetch &&
    q.accs.any (fun a => a.left.any (fun i => w.touches (a.ta + i))))

/-- The oldest write of a warp to a line goes first (R133), of a fault queue's entries the one sent first (R366), and of
updates carried out on a core's own line the one that was carried out first (R125); an update not yet carried out there
has nothing to deliver. -/
def State.firstWrite (s : State) (w : Write) : Bool :=
  (match s.writes.find? (fun x => !x.done && ((w.fq.isSome && x.fq == w.fq) ||
      (x.line == w.line && ((x.src == w.src && x.op == w.op) || (x.near && w.near && x.core == w.core))))) with
    | some x => x.id == w.id
    | none => false) && w.made && !s.loadBefore w

/-- A place in a home's queue (R188): by arrival, and among what arrives in one tick, which log 15 takes for the cycle,
the die L2s by number, the host, the engines of I/O die 0, the peers. -/
def homeKey (time rank unit : Nat) : Nat := (time * 8 + rank) * 16 + unit

/-- A write's place in its home's queue: a warp's or an engine's with its die, the ready pool's and the dispatcher's with
the engines of I/O die 0, where the stub's stand as well, a peer's last. It counts as arrived once it is made (log 15). -/
def Write.key (w : Write) : Nat :=
  let io := w.op.isSome && w.place == .bank && w.kind == .store
  homeKey w.time (if io then 2 else if w.op.isSome ∨ w.src < 2 ^ 64 then 0 else if w.src < 2 ^ 65 then 3 else 2) w.die

/-- An operation's own request at a bank unit: its place in the queue. -/
def EngOp.homeKey (o : EngOp) (t : Nat) : Nat :=
  if o.cls = 0xD ∨ o.cls = 0xE then Sys2Proof.Machine.homeKey t 2 0 else Sys2Proof.Machine.homeKey t 0 (o.core / 64)

/-- Performed at its home, where no die holds the line. -/
def Write.homed (w : Write) : Bool := w.place == .bank || w.place == .host

/-- A request for the line stands ahead of a place in its home's queue (R188). -/
def State.homeAhead (s : State) (l key : Nat) : Bool :=
  s.net.any (fun m => m.line == l && m.kind.request && homeKey m.time 0 m.die < key) ||
  s.link.pend.any (fun p => (accLines p.1).contains l && homeKey p.2 1 0 < key) ||
  s.writes.any (fun w => w.line == l && !w.done && w.homed && w.key < key && s.firstWrite w) ||
  s.ops.any (fun o => match o.home with | some (m, t) => m == l && o.homeKey t < key | none => false)

/-- A request is taken once its line is stable, in its turn (R188); its die's earlier eviction of the line goes
first. -/
def State.takeReq (s : State) (k : MsgKind) (d l : Nat) : Option State :=
  let e := s.dirE l
  if e.trans ≠ 0 ∨ (isHost (64 * l) ∧ e.hsnp.isSome) then none
  else match splitMsg k d l s.net with
    | none => none
    | some (a, m, b) =>
      if a.any (fun x => x.die == d && x.line == l && x.kind.channel < 2) || s.homeAhead l (homeKey m.time 0 d) then none
      else some { s with net := a ++ b }

/-- A die counts as present while its stack has a DRAM layer: the bit of the capability DIES (R25, log 26). -/
def State.present (s : State) (d : Nat) : Bool := !s.stackAbsent d

/-! ## The home (R188 to R194) -/

def State.txn (s : State) (l : Nat) : Txn := (s.dirE l).txn.getD { kind := .wback, die := 0 }

def State.dataMsg (s : State) (k : MsgKind) (d l : Nat) : Msg :=
  { kind := k, die := d, line := l, bytes := cutLine s.mem l, pois := s.pois.get false l }

/-- The transaction ends; the next request may be taken. -/
def State.endTxn (s : State) (l : Nat) : State := s.updDir l (fun e => { e with trans := 0, txn := none })

/-- Data from the home's own copy, with the line in the given state for the requester. -/
def State.grantS (s : State) (d l st : Nat) : State :=
  ((s.send (s.dataMsg .dats d l)).updDir l (fun e => { e with state := st, shar := e.shar ||| bit8 d })).endTxn l
def State.grantE (s : State) (d l : Nat) : State :=
  ((s.send (s.dataMsg .date d l)).updDir l (fun e => { e with state := 2, shar := bit8 d, owner := d })).endTxn l
def State.grantM (s : State) (d l : Nat) : State :=
  ((s.send (s.dataMsg .datm d l)).updDir l (fun e => { e with state := 2, shar := bit8 d, owner := d })).endTxn l
def State.grantUp (s : State) (d l : Nat) : State :=
  ((s.send { kind := .grant, die := d, line := l }).updDir l
    (fun e => { e with state := 2, shar := bit8 d, owner := d })).endTxn l

/-- Snoops sent to a set of dies. -/
def State.snoopAll (s : State) (k : MsgKind) (ds : BitVec 8) (l : Nat) : State :=
  (slicesOf ds).foldl (fun s d => s.send { kind := k, die := d, line := l }) s

/-- The host must give or keep what the request needs: a host line is obtained from the host (R193). -/
def State.needsHost (s : State) (k : MsgKind) (l : Nat) : Bool :=
  isHost (64 * l) && (let h := (s.dirE l).host; if k = .rds then h == 0 else h != 2)

/-- The tenant and the policy of the access for which a die asks for a line. -/
def State.wantedFor (s : State) (d l : Nat) : Option (Nat × Nat) :=
  match s.reqs.find? (fun r => r.core / 64 == d && r.accs.any (fun a => a.left.any (fun i => lineOf (a.ta + i) == l))) with
  | some r => some ((s.warp r.warp).tenant, r.pol)
  | none => (s.writes.find? (fun w => w.die == d && w.line == l && !w.done)).map (fun w => (w.tenant, w.pol))

/-- The home takes a device line's value for a die: it passes through the last-level cache (R375). -/
def State.throughLlc (s : State) (d l : Nat) : State :=
  match s.wantedFor d l with
  | some p => if (s.dirE l).state < 2 then s.llcAccess l p.1 p.2 else s
  | none => s

/-- A request carried out by the home, once the host has been dealt with. -/
def State.serve (s : State) (k : MsgKind) (d l : Nat) : State :=
  let s := s.throughLlc d l
  let e := s.dirE l
  let others := e.shar &&& ~~~ bit8 d
  let k := if k = .upg ∧ !e.shar.getLsbD d then .rdx else k
  let wait (t : Nat) (w : BitVec 8) (s : State) : State :=
    s.updDir l (fun e => { e with trans := t, txn := some { kind := k, die := d, wait := w } })
  match k with
  | .rds =>
    if e.state = 0 then
      (if e.hostc || (isHost (64 * l) && e.host != 2) then s.grantS d l 1 else s.grantE d l)
    else if e.state = 1 then s.grantS d l 1
    else wait 2 (bit8 e.owner) (s.send { kind := .snpfwd, die := e.owner, line := l })
  | .rdx =>
    if e.state < 2 then
      (if others = 0 then s.grantM d l else wait 1 others (s.snoopAll .snpinv others l))
    else
      let s := s.send { kind := .snpfwdx, die := e.owner, line := l }
      let rest := others &&& ~~~ bit8 e.owner
      wait 2 (rest ||| bit8 e.owner) (s.snoopAll .snpinv rest l)
  | .upg => if others = 0 then s.grantUp d l else wait 1 others (s.snoopAll .snpinv others l)
  | _ => s

/-- A request taken: with HOSTC set it waits for a back-invalidation first (R194), for a host line for the
host's copy (R193). -/
def State.take (s : State) (k : MsgKind) (d l : Nat) : State :=
  if s.needsHost k l then
    let s := s.updDir l (fun e => { e with trans := 2, txn := some { kind := k, die := d, hostq := true } })
    { s with link := { s.link with asked := s.link.asked ++ [(l, k == .rds)] } }
  else if (s.dirE l).hostc then
    s.updDir l (fun e => { e with trans := 4, txn := some { kind := k, die := d } })
  else s.serve k d l

/-- Every answer is in. -/
def State.answered (s : State) (l : Nat) : State :=
  let t := s.txn l
  let e := s.dirE l
  if t.recov then s
  else if t.wait ≠ 0 then s
  else match t.kind with
    | .rds =>
      if e.state = 3 then s.grantS t.die l 3
      else if e.state = 1 then s.grantS t.die l 1
      else s.serve .rds t.die l
    | .upg => s.grantUp t.die l
    | _ => s.grantM t.die l

/-- The home no longer waits for a die. -/
def State.unwait (s : State) (d l : Nat) : State :=
  s.updDir l (fun e => { e with txn := e.txn.map (fun t => { t with wait := t.wait &&& ~~~ bit8 d }) })

def State.awaits (s : State) (d l : Nat) : Bool := (s.dirE l).txn.isSome && (s.txn l).wait.getLsbD d

/-- A snoop whose answer is no longer needed, and that answer, are ignored (R189). -/
def State.dropSnoop (s : State) (d l : Nat) : State :=
  let s := { s with net := s.net.filter (fun m => !(m.die == d && m.line == l &&
    [MsgKind.snpinv, .snpfwd, .snpfwdx, .rspi].contains m.kind)) }
  s.updL2 d l (fun x => { x with snoop := none })

/-- A die is no sharer any more. -/
def State.unshare (s : State) (d l : Nat) : State :=
  s.updDir l (fun e =>
    let sh := e.shar &&& ~~~ bit8 d
    { e with
      shar := sh
      state := if sh = 0 then 0 else if e.state ≥ 2 ∧ e.owner = d then 1 else e.state
      owner := if e.owner = d then 0 else e.owner })

/-- A snoop of the line that the home sent the die, or its answer, is on its way. -/
def State.owes (s : State) (d l : Nat) : Bool :=
  (s.l2 d l).snoop.isSome || s.net.any (fun m => m.die == d && m.line == l &&
    [MsgKind.snpinv, .snpfwd, .snpfwdx, .ackinv, .rspd, .rspi].contains m.kind)

/-- WbAck, which waits until the home has the die's answer to every snoop that it sent (R191). -/
def State.wbAck (s : State) (d l : Nat) : State :=
  if s.owes d l then s.updDir l (fun e => { e with held := e.held ||| bit8 d }) else s.send { kind := .wback, die := d, line := l }

/-- Data arriving home is the line's value there. -/
def State.homeData (s : State) (m : Msg) : State :=
  { s with mem := putLine s.mem m.bytes m.line, pois := s.pois.set false m.line m.pois }

/-! ## Die L2s: what they ask for -/

/-- Bytes of a line that a started load still wants from the home point (R132). -/
def Acc.wants (a : Acc) (l : Nat) : Bool := a.left.any (fun i => (a.ta + i) / 64 == l)

def State.needsRead (s : State) (d l : Nat) : Bool :=
  s.reqs.any (fun r => r.started && !r.returned && r.core / 64 == d && r.accs.any (fun a => a.wants l))

/-- The commit that a die's engine takes: the one whose locking has begun, else the earliest that may proceed
beside the region token (R210). -/
def Die.current (d : Die) : Option Commit :=
  match d.commits.find? (fun c => 0 < c.locked) with
  | some c => some c
  | none => d.commits.find? (fun c => match d.token with | some u => c.warp == u | none => true)

def State.needsWrite (s : State) (d l : Nat) : Bool :=
  s.writes.any (fun w => !w.done && w.place == .die && w.kind != .clean 1 && w.kind != .clean 2 && w.die == d && w.line == l) ||
  (match (s.die d).current with
    | some c => c.lines.getD c.locked (2 ^ 80) == l
    | none => false)

/-- The order in which lines are chosen for eviction (R151): stream, the others, keep. -/
def L2Line.rank (x : L2Line) : Nat := if x.hint = 1 then 0 else if x.hint = 2 then 2 else 1

/-- The line could leave its die now. -/
def State.evictable (s : State) (d l : Nat) : Bool :=
  let x := s.l2 d l
  (x.st == .S || x.st == .E || x.st == .M || x.st == .O) && x.snoop.isNone && !x.locked && s.leasesOver d l

/-- No line that goes before it could leave its die (R151). -/
def State.evictNext (s : State) (d l : Nat) : Bool :=
  s.evictable d l && !(s.die d).l2.any (fun p => p.2.rank < (s.l2 d l).rank && s.evictable d p.1)

def State.toState (s : State) (d l : Nat) (st : L2St) : State := s.updL2 d l (fun x => { x with st := st })

/-! ## The rows -/

/-- RdS sent from I for a core's load, or taken by the home. -/
def execRds (ph : Phase) (d l : Nat) (s : State) : Out :=
  match ph with
  | .send => onlyIf "RDS" ((s.l2 d l).st == .I && s.needsRead d l)
      ((s.toState d l .IS).send { kind := .rds, die := d, line := l })
  | .take => match s.takeReq .rds d l with
    | some s => .next (s.take .rds d l)
    | none => no "RDS"

def execRdx (ph : Phase) (d l : Nat) (s : State) : Out :=
  match ph with
  | .send => onlyIf "RDX" ((s.l2 d l).st == .I && s.needsWrite d l)
      ((s.toState d l .IM).send { kind := .rdx, die := d, line := l })
  | .take => match s.takeReq .rdx d l with
    | some s => .next (s.take .rdx d l)
    | none => no "RDX"

/-- R190. -/
def execUpg (ph : Phase) (d l : Nat) (s : State) : Out :=
  match ph with
  | .send =>
    let x := s.l2 d l
    onlyIf "UPG" ((x.st == .S || x.st == .O) && x.snoop.isNone && s.needsWrite d l)
      ((s.toState d l .SM).send { kind := .upg, die := d, line := l })
  | .take => match s.takeReq .upg d l with
    | some s => .next (s.take .upg d l)
    | none => no "UPG"

/-- R189, R191: dirty data of a line the die gives up, taken by the home in the four ways of R191. -/
def execWbd (ph : Phase) (d l : Nat) (s : State) : Out :=
  let x := s.l2 d l
  match ph with
  | .send => onlyIf "WBD" ((x.st == .M || x.st == .O) && s.evictNext d l)
      (((s.notice d l).toState d l .MI).send { kind := .wbd, die := d, line := l, bytes := x.bytes, pois := x.pois, dirty := true })
  | .take => match s.takeMsg .wbd d l with
    | none => no "WBD"
    | some (m, s) =>
      let e := s.dirE l
      let ack (s : State) : State := s.wbAck d l
      let t := s.txn l
      if s.awaits d l && t.recov then
        .next (ack (s.updDir l (fun e => { e with txn := some { t with
          wait := t.wait &&& ~~~ bit8 d, got := t.got ++ [(d, true, m.bytes, m.pois)] } })))
      else if s.awaits d l && e.trans = 2 && e.owner = d then
        let s := (s.homeData m).unshare d l
        let fwb (p : Bool) (s : State) : State :=
          s.updDir l (fun e => { e with trans := 3, txn := some { t with wbd := p } })
        .next (if t.wait = bit8 d then
            fwb true ((s.updDir l (fun e => { e with txn := some { t with wait := 0 } })).answered l)
          else fwb false s)
      else if s.awaits d l then .next (ack ((s.unwait d l).unshare d l |>.answered l))
      else if 2 ≤ e.state && e.owner = d then .next (ack ((s.homeData m).unshare d l))
      else .next (ack s)

def execEvc (ph : Phase) (d l : Nat) (s : State) : Out :=
  let x := s.l2 d l
  match ph with
  | .send => onlyIf "EVC" ((x.st == .S || x.st == .E) && s.evictNext d l)
      (((s.notice d l).updL2 d l (fun _ => {})).send
        { kind := .evc, die := d, line := l })
  | .take => match s.takeMsg .evc d l with
    | none => no "EVC"
    | some (_, s) =>
      if s.awaits d l && (s.dirE l).trans = 1 then
        .next (((s.dropSnoop d l).unwait d l).unshare d l |>.answered l)
      else .next (s.unshare d l)

/-- A snoop reaches a die: no lease is granted from now on (R189), and watching regions are told (R208). -/
def State.snooped (s : State) (k : MsgKind) (n d l : Nat) : Option State :=
  match s.takeMsg k d l with
  | none => none
  | some (_, s) => some ((s.notice d l).updL2 d l (fun x => { x with snoop := some n }))

def execSnpinv (d l : Nat) (s : State) : Out :=
  match s.snooped .snpinv 0 d l with | some s => .next s | none => no "SNPINV"
def execSnpfwd (d l : Nat) (s : State) : Out :=
  match s.snooped .snpfwd 1 d l with | some s => .next s | none => no "SNPFWD"
def execSnpfwdx (d l : Nat) (s : State) : Out :=
  match s.snooped .snpfwdx 2 d l with | some s => .next s | none => no "SNPFWDX"

/-- The die gives up the line for a snoop. -/
def State.giveUp (s : State) (d l : Nat) : State :=
  s.updL2 d l (fun x =>
    match x.st with
    | .MI => { x with snoop := none }
    | .SM => { st := .IM }
    | _ => {})

/-- AckInv, once every lease on the line has expired (R189). -/
def execAckinv (ph : Phase) (d l : Nat) (s : State) : Out :=
  let x := s.l2 d l
  match ph with
  | .send => onlyIf "ACKINV"
      (x.snoop == some 0 && (x.st == .S || x.st == .SM || x.st == .O) && !x.locked && s.leasesOver d l)
      ((s.giveUp d l).send { kind := .ackinv, die := d, line := l })
  | .take => match s.takeMsg .ackinv d l with
    | none => no "ACKINV"
    | some (_, s) => .next (((s.unwait d l).unshare d l).answered l)

/-- RspD: at once to SnpFwd and from a write-back buffer, else after the leases (R187, R189, R191). -/
def execRspd (ph : Phase) (d l : Nat) (s : State) : Out :=
  let x := s.l2 d l
  match ph with
  | .send =>
    let dirty := x.st == .M || x.st == .O || x.st == .SM || x.st == .MI
    let m : Msg := { kind := .rspd, die := d, line := l, bytes := x.bytes, pois := x.pois, dirty := dirty }
    if x.st = .MI ∧ x.snoop.isSome then .next ((s.giveUp d l).send m)
    else if x.snoop = some 1 ∧ (x.st = .M ∨ x.st = .E ∨ x.st = .O ∨ x.st = .SM ∨ x.st = .S) then
      onlyIf "RSPD" (!x.locked)
        ((s.updL2 d l (fun x => { x with snoop := none, st := if x.st = .M ∨ x.st = .E then .O else x.st })).send m)
    else if (x.snoop = some 2 ∧ (x.st = .M ∨ x.st = .E ∨ x.st = .O ∨ x.st = .SM ∨ x.st = .S)) ∨
        (x.snoop = some 0 ∧ (x.st = .M ∨ x.st = .E)) then
      onlyIf "RSPD" (!x.locked && s.leasesOver d l) ((s.giveUp d l).send m)
    else no "RSPD"
  | .take => match s.takeMsg .rspd d l with
    | none => no "RSPD"
    | some (m, s) =>
      let e := s.dirE l
      let t := s.txn l
      -- the answer for which WbAck was held: its bytes are those that the home has (R191)
      if e.held.getLsbD d then
        .next ((s.updDir l (fun e => { e with held := e.held &&& ~~~ bit8 d })).send { kind := .wback, die := d, line := l })
      else if !s.awaits d l then .next s
      else if t.recov then
        .next (s.updDir l (fun e => { e with txn := some { t with
          wait := t.wait &&& ~~~ bit8 d, got := t.got ++ [(d, m.dirty, m.bytes, m.pois)] } }))
      else if e.trans = 3 then
        let s := (s.send { kind := .wback, die := d, line := l }).unwait d l
        .next (if t.wbd then s.endTxn l else s.answered l)
      else
        let s := (s.homeData m).unwait d l
        let s := if t.kind = .rds then s.updDir l (fun e => { e with state := 3 }) else s.unshare d l
        .next (s.answered l)

/-- RspI: no copy held (R189). -/
def execRspi (ph : Phase) (d l : Nat) (s : State) : Out :=
  let x := s.l2 d l
  match ph with
  | .send => onlyIf "RSPI" (x.snoop.isSome && (x.st == .I || x.st == .IS || x.st == .IM))
      ((s.updL2 d l (fun x => { x with snoop := none })).send { kind := .rspi, die := d, line := l })
  | .take => match s.takeMsg .rspi d l with
    | none => no "RSPI"
    | some (_, s) =>
      if !s.awaits d l then .next s
      else .next (((s.unwait d l).unshare d l).answered l)

/-- Data or a grant reaches the die (R186). -/
def State.received (s : State) (k : MsgKind) (d l : Nat) (sts : List L2St) (st : L2St) (data : Bool) : Option State :=
  if !sts.contains (s.l2 d l).st then none
  else match s.takeMsg k d l with
    | none => none
    | some (m, s) =>
      if data then some (s.updL2 d l (fun x => { x with st := st, bytes := m.bytes, pois := m.pois }))
      else some (s.toState d l st)

def execDats (d l : Nat) (s : State) : Out :=
  match s.received .dats d l [.IS] .S true with | some s => .next s | none => no "DATS"
def execDate (d l : Nat) (s : State) : Out :=
  match s.received .date d l [.IS] .E true with | some s => .next s | none => no "DATE"
def execDatm (d l : Nat) (s : State) : Out :=
  match s.received .datm d l [.IM] .M true with | some s => .next s | none => no "DATM"
def execGrant (d l : Nat) (s : State) : Out :=
  match s.received .grant d l [.SM] .M false with | some s => .next s | none => no "GRANT"
/-- The buffer is freed (R191). -/
def execWback (d l : Nat) (s : State) : Out :=
  if (s.l2 d l).st ≠ .MI then no "WBACK"
  else match s.takeMsg .wback d l with
    | some (_, s) => .next (s.updL2 d l (fun _ => {}))
    | none => no "WBACK"

/-! ## Back-invalidation and the host-line filter (R193, R194) -/

/-- A bank unit wants a line that the host may hold: for a write, for a request of an operation, or, among lines that
are found only as it runs, for a tree instruction or the reclaim walker. -/
def State.bankWants (s : State) (l : Nat) : Bool :=
  s.writes.any (fun w => !w.done && w.place == .bank && w.line == l) ||
    s.ops.any (fun o => match o.home with | some (m, _) => m == l | none => false) ||
    s.trees.walk.isSome || s.reqs.any (fun r => r.started && (match r.kind with | .tree _ _ _ _ _ _ => true | _ => false))

/-- The snoop is sent for the request that waits in BIW, or for a bank unit. -/
def execBackInvalidate (l : Nat) (s : State) : Out :=
  let e := s.dirE l
  if e.trans = 4 ∧ !(s.txn l).biw then
    .next (s.updDir l (fun e => { e with txn := e.txn.map (fun t => { t with biw := true }) }))
  else if e.trans = 0 ∧ e.hostc ∧ s.bankWants l then
    .next (s.updDir l (fun e => { e with trans := 4, txn := some { kind := .wback, die := 0, biw := true } }))
  else no "BACK_INVALIDATE"

/-- The host's response: kept as a sharer after a downgrade, gone after an invalidation. -/
def execBackInvalidationResponse (l : Nat) (s : State) : Out :=
  let e := s.dirE l
  let t := s.txn l
  if t.recov ∧ t.biw then
    .next (s.updDir l (fun e => { e with txn := e.txn.map (fun t => { t with biw := false }) }))
  else if e.trans ≠ 4 ∨ !t.biw then no "BACK_INVALIDATION_RESPONSE"
  else if t.kind = .rds then .next ((s.updDir l (fun e => { e with trans := 0, txn := none })).serve .rds t.die l)
  else
    let s := s.updDir l (fun e => { e with hostc := false, trans := 0, txn := none })
    .next (if t.kind = .wback then s else s.serve t.kind t.die l)

/-- The host's line arrives for a shared or an owned copy, with the poison that the host reports (R384). -/
def execHostCacheResponse (l : Nat) (data : HostLine) (s : State) : Out :=
  let t := s.txn l
  if !(t.hostq && isHost (64 * l)) || data.bytes.length ≠ 64 || s.link.down || !s.carries 17 then no "HOST_CACHE_RESPONSE"
  else
    let s := { s with
      mem := (List.range 64).foldl (fun m i => m.set 0 (64 * l + i) (BitVec.ofNat 8 (data.bytes.getD i 0))) s.mem
      pois := s.pois.set false l data.pois
      link := { s.link with asked := s.link.asked.filter (fun p => p.1 != l) } }
    let s := s.updDir l (fun e => { e with trans := 0, txn := none, host := if t.kind = .rds then max e.host 1 else 2 })
    .next (s.serve t.kind t.die l)

end Sys2Proof.Machine
end

