-- ==== Sys2Proof/Machine/CtlSpace.lean ====
section
/-! DEFINITION. The control and capability register space (R362, R408): reads and writes of its doubles and
words, and error logging (R385). -/

namespace Sys2Proof.Machine

/-! ## The error log (R385) -/

def ErrRec.double (r : ErrRec) (hi : Bool) : Nat :=
  if hi then r.addr % 2 ^ 64
  else packFields [(32, r.time), (11, 0), (4, r.tenant), (9, r.core), (8, r.kind)]

/-! ## Reads -/

/-- `Σ 2^i` over the numbers that satisfy a test. -/
def bitmap (n : Nat) (p : Nat → Bool) : Nat := (List.range n).foldl (fun m i => if p i then m + 2 ^ i else m) 0

def Plat.core (p : Plat) (c : Nat) : Bool := !p.absCores.contains c

/-- STATUS (R408). -/
def State.status (s : State) : Nat :=
  let p := s.plat
  packFields [(1, p.ready.toNat), (3, p.bstage), (3, 0), (1, p.fail.toNat),
    (1, (!(p.absCores.isEmpty && p.absLayers.isEmpty && p.absLanes.isEmpty)).toNat),
    (1, (!p.throttled.isEmpty).toNat), (1, p.warm.toNat), (1, p.cold.toNat)]

/-- The capability registers by their offset. -/
def State.capRead (s : State) (o : Nat) : Nat :=
  let p := s.plat
  if o = 0 then 0x0000960101000001
  else if o = 0x008 then s.status
  else if o = 0x010 then bitmap 8 (fun d => !s.stackAbsent d) + 256 * bitmap 32 (fun i => !p.absLayers.contains i)
  else if 0x018 ≤ o ∧ o < 0x058 then bitmap 64 (fun c => p.core (64 * ((o - 0x018) / 8) + c))
  else if o = 0x058 then bitmap 64 (fun i => !p.absLanes.contains i)
  else if o = 0x060 then bitmap 24 (fun i => !p.absLanes.contains (64 + i))
  else if 0x068 ≤ o ∧ o < 0x0A8 then
    let d := (o - 0x068) / 8
    (p.therm.find d).getD (Config.thermalReading (8 * s.clk.time + d) % 2 ^ 32)
  else if o = 0x0A8 then p.lifeidx
  else if o = 0x0B0 then p.life.get 0 p.lifeidx
  else if o = 0x0B8 then p.retire
  else 0

def Asd.double (a : Asd) : Nat :=
  packFields [(10, a.cur), (1, a.curv.toNat), (21, 0), (4, a.npool), (4, a.fpool), (4, a.tenant), (19, 0),
    (1, a.valid.toNat)]

def Root.double (r : Root) (hi : Bool) : Nat :=
  if hi then packFields [(8, r.asd), (24, 0), (32, r.pin)]
  else packFields [(1, r.valid.toNat), (1, r.recl.toNat), (1, r.curr.toNat), (1, r.ro.toNat), (1, r.keep.toNat),
    (1, r.sup.toNat), (5, 0), (28, r.top / 2048)]

def Pool.double (p : Pool) (k : Nat) : Nat :=
  match k with
  | 0 => packFields [(2, p.kind), (6, 0), (24, p.free), (32, p.nelem)]
  | 1 => p.base
  | 2 => p.cnt
  | _ => p.stack

def WaitEntry.double (e : WaitEntry) (k : Nat) : Nat :=
  match k with
  | 0 => packFields [(1, 1), (8, 0), (15, e.pkg), (1, e.wide.toNat), (3, e.cmp), (36, e.ta / 8)]
  | 1 => e.deadline.getD (2 ^ 64 - 1)
  | 2 => e.mask
  | _ => e.expect

def Tenant.block (t : Tenant) : Nat :=
  packFields [(1, t.tree.toNat), (1, t.sched.toNat), (22, 0), (8, t.ctxmax), (16, t.llcw), (8, t.desc0), (7, 0),
    (1, t.valid.toNat)]

/-- A wait table entry names the line. -/
def State.watchedLine (s : State) (l : Nat) : Bool := s.tables.any (fun p => lineOf p.2.ta == l)

/-- A directory entry as the supervisor reads it (R185); the check code of an entry as it is at reset is 0. -/
def State.dirWord (s : State) (l : Nat) : Nat :=
  let e := s.dirE l
  let low := packFields [(3, e.state), (5, 0), (3, e.trans), (3, e.owner), (1, (s.watchedLine l).toNat),
    (1, e.hostc.toNat), (8, e.shar.toNat)]
  if low = 0 then 0 else low + 2 ^ 24 * (Config.dirCheck low % 256)

/-- The warp in a context of a core. -/
def State.atContext (s : State) (core ctx : Nat) : Option Warp :=
  let here := (s.warps.filter (fun p => p.2.placed && p.2.core == core && p.2.ctx == ctx)).map (·.2)
  match here.find? (fun w => !w.arch.gangs.isEmpty || w.trap.isSome) with
  | some w => some w
  | none => here.getLast?

def Link.double (k : Link) (hi : Bool) : Nat :=
  if hi then k.sbase else packFields [(1, k.down.toNat), (1, k.replay.toNat), (1, k.disc.toNat), (21, 0), (20, k.slost), (20, k.scount)]

/-- The double at a physical offset that is a multiple of 8 (R362). -/
def State.ctlDouble (s : State) (o : Nat) : Nat :=
  if o < 0x8010000000 then s.capRead (o - 0x8000000000)
  else if o < 0x8010000080 then (s.tenant ((o - 0x8010000000) / 8)).hvec.toNat
  else if o < 0x8010000100 then 0
  else if o < 0x8010000300 then
    let t := s.tenant ((o - 0x8010000100) / 32)
    match (o - 0x8010000100) / 8 % 4 with
    | 0 => t.fqbase
    | 1 => t.fqcap % 2 ^ 32 + 2 ^ 32 * (t.fqhead % 2 ^ 32)
    | 2 => t.fqtail % 2 ^ 32
    | _ => 0
  else if o < 0x8020000000 then 0
  else if o < 0x8020000800 then (s.asd ((o - 0x8020000000) / 8)).double
  else if o < 0x8020010000 then 0
  else if o < 0x8020014000 then (s.root ((o - 0x8020010000) / 16)).double (o / 8 % 2 == 1)
  else if o < 0x8020020000 then 0
  else if o < 0x8020020200 then (s.pool ((o - 0x8020020000) / 32)).double (o / 8 % 4)
  else if o < 0x8030000000 then 0
  else if o < 0x8031000000 then
    let r := (o - 0x8030000000) % 0x200000
    if r < 0x20000 then
      match s.tables.find (4096 * ((o - 0x8030000000) / 0x200000) + r / 32) with
      | some e => e.double (r / 8 % 4)
      | none => 0
    else 0
  else if o < 0x8040000000 then 0
  else if o < 0x8042000000 then
    let c := (o - 0x8040000000) / 0x10000
    let r := (o - 0x8040000000) % 0x10000
    if r = 0 then (s.core c).overlap
    else if 0x100 ≤ r ∧ r < 0x300 then
      (match s.atContext c ((r - 0x100) / 8) with | some w => w.current.sfmask.toNat | none => 0)
    else 0
  else if o < 0x8050000000 then 0
  else if o < 0x8050000080 then (s.tenant ((o - 0x8050000000) / 8)).block
  else if o < 0x8060000000 then 0
  else if o < 0x8060140000 then
    let g := s.logs.get {} ((o - 0x8060000000) / 0x20000)
    let r := (o - 0x8060000000) % 0x20000
    if r < 0x10000 then (match g.recs.find (r / 16) with | some e => e.double (r / 8 % 2 == 1) | none => 0)
    else if r = 0x10000 then g.next % 4096 + 2 ^ 32 * g.lost
    else 0
  else if o = 0x8061000000 then s.link.double false
  else if o = 0x8061000008 then s.link.double true
  else if o < 0xC000000000 then 0
  else if o < 0xC800000000 then
    let st := (o - 0xC000000000) / 2 ^ 32
    let n := (o - 0xC000000000) % 2 ^ 32 / 4
    s.dirWord (st * 2 ^ 30 + n) + 2 ^ 32 * s.dirWord (st * 2 ^ 30 + n + 1)
  else 0

/-- A word or double read. -/
def State.ctlRead (s : State) (o n : Nat) : Nat :=
  s.ctlDouble (o - o % 8) / 2 ^ (8 * (o % 8)) % 2 ^ (8 * n)

/-! ## Engines' progress records and faults (R174, R175, R278, R337, R366) -/

/-- FUNC of ATTN and ATTNQ in class 0xA. -/
def EngOp.attn (o : EngOp) : Bool := o.cls == 0xA && (o.func == 4 || o.func == 5)
/-- It runs on the array: a tile operation, or a CPYX whose copy has landed. -/
def EngOp.tile (o : EngOp) : Bool := o.cls == 9 || (o.cls == 8 && o.func == 5 && o.stage == 1)

/-- The progress record, 128 bits. -/
def EngOp.record (o : EngOp) : Nat :=
  let top := if o.attn then o.next % 2 ^ 13
    else if o.tile then o.kblk % 2 ^ 8 + 2 ^ 8 * (o.next % 2 ^ 9)
    else o.bitmap % 2 ^ 64
  packFields [(1, 1), (8, 0), (6, o.tok.getD 0), (1, o.tok.isNone.toNat), (4, o.func), (4, if o.cls = 9 then 0 else o.stage),
    (8, o.susc), (32, o.idx), (64, top)]

/-- An engine's entry in its tenant's fault queue. -/
def State.engineEntry (s : State) (o : EngOp) : Nat :=
  o.record + packFields [(128, 0), (127, 0), (1, 1), (32, 0), (7, 0), (6, (s.warp o.warp).ctx), (9, o.core), (1, 0), (1, 1),
    (8, o.susc), (32, 0), (32, 0), (64, 0), (64, o.fault)]

/-- A suspended engine posts its entry, if the queue has room. -/
def State.postEngine (s : State) (o : EngOp) : State :=
  if o.susc = 0 ∨ o.slot.isSome ∨ !s.fqRoom o.tenant then s else
  let (s, slot) := s.fqPost o.tenant (s.engineEntry o)
  s.updOp o.id (fun e => { e with slot := some slot })

/-! ## Writes -/

/-- A double with `n` bytes at its offset replaced. -/
def mergeDouble (old o n v : Nat) : Nat :=
  let sh := 2 ^ (8 * (o % 8))
  let m := 2 ^ (8 * n)
  old - (old / sh % m) * sh + (v % m) * sh

def Asd.write (a : Asd) (x : Nat) : Asd :=
  { a with valid := x.testBit 63, tenant := bitsOf x 40 4, fpool := bitsOf x 36 4, npool := bitsOf x 32 4 }

def Pool.write (p : Pool) (k x : Nat) : Pool :=
  match k with
  | 0 => { p with kind := bitsOf x 0 2, free := bitsOf x 8 24, nelem := bitsOf x 32 32 }
  | 1 => { p with base := x }
  | 2 => { p with cnt := x }
  | _ => { p with stack := x }

def Tenant.writeBlock (t : Tenant) (x : Nat) : Tenant :=
  { t with valid := x.testBit 63, desc0 := bitsOf x 48 8, llcw := bitsOf x 32 16, ctxmax := bitsOf x 24 8,
           sched := x.testBit 1, tree := x.testBit 0 }

/-- Room appears in a fault queue: the gangs and engines that wait for it post their entries (R366). -/
def State.postWaiting (s : State) (t : Nat) : State :=
  let s := (s.ops.filter (fun o => o.tenant == t)).foldl State.postEngine s
  s.waits.foldl (fun s w =>
    match w.on with
    | .queue t' entry =>
      if t' = t ∧ s.fqRoom t then
        let (s, slot) := s.fqPost t entry
        { s with waits := s.waits.map (fun x => if x.id = w.id then { x with on := .fault t slot } else x) }
      else s
    | _ => s) s

/-- REPLAY is asked for; it is carried out while the link is up. -/
def State.askReplay (s : State) : State :=
  { s with
    clk := { s.clk with free := s.clk.free + 1 }
    link := { s.link with replay := true }
    agenda := .replay (Config.refusedRecords s.clk.free) :: s.agenda }

/-- A double of the space written with its bytes replaced: fields that are RO, and reserved offsets, keep
their values (R4, R5). A write of 1 to COLD, WARM, REPLAY or DISC sets the bit and puts that step next on the agenda; the
bit clears as the step is done (log 133). -/
def State.ctlWrite (s : State) (o n v : Nat) : State :=
  let o8 := o - o % 8
  let x := mergeDouble (s.ctlDouble o8) o n v
  let set := v % 2 ^ (8 * n) * 2 ^ (8 * (o % 8))        -- the bits written as 1
  if o8 = 0x8000000008 then
    if !s.plat.ready then s
    else
      let c := set.testBit 11
      let w := set.testBit 10
      { s with
        plat := { s.plat with cold := s.plat.cold || c, warm := s.plat.warm || w }
        agenda := (if c then [.cold .statusWrite] else if w then [.warm .statusWrite] else []) ++ s.agenda }
  else if o8 = 0x80000000A8 then { s with plat := { s.plat with lifeidx := x } }
  else if o8 = 0x80000000B8 then { s with plat := { s.plat with retire := x } }
  else if o8 < 0x8010000000 then s
  else if o8 < 0x8010000080 then s.updTenant ((o8 - 0x8010000000) / 8) (fun t => { t with hvec := BitVec.ofNat 64 x })
  else if o8 < 0x8010000100 then s
  else if o8 < 0x8010000300 then
    let t := (o8 - 0x8010000100) / 32
    match (o8 - 0x8010000100) / 8 % 4 with
    | 0 => s.updTenant t (fun q => { q with fqbase := x })
    | 1 => (s.updTenant t (fun q => { q with fqcap := x % 2 ^ 32, fqhead := x / 2 ^ 32 })).postWaiting t
    | _ => s
  else if o8 < 0x8020000000 then s
  else if o8 < 0x8020000800 then s.updAsd ((o8 - 0x8020000000) / 8) (fun a => a.write x)
  else if o8 < 0x8020020000 then s
  else if o8 < 0x8020020200 then s.updPool ((o8 - 0x8020020000) / 32) (fun p => p.write (o8 / 8 % 4) x)
  else if o8 < 0x8050000000 then s
  else if o8 < 0x8050000080 then s.updTenant ((o8 - 0x8050000000) / 8) (fun t => t.writeBlock x)
  else if o8 = 0x8061000008 then { s with link := { s.link with sbase := x } }
  else if o8 = 0x8061000000 then
    let s := if set.testBit 1 then s.askReplay else s
    if set.testBit 2 then { s with link := { s.link with disc := true }, agenda := .disc :: s.agenda } else s
  else s

/-- A store to a tenant block from a compute core (R374). -/
def isBlock (o : Nat) : Bool := 0x8050000000 ≤ o && o < 0x8050000080

end Sys2Proof.Machine
end

