-- ==== Sys2Proof/Machine/Integer.lean ====
section
/-! DEFINITION. Class 0x1: integer and address instructions (R85 to R106). Each result is a function of the
operands in one lane. -/

namespace Sys2Proof.Machine

/-- Operands read at the width of the type. -/
def tA (f : OpA) (s : State) (l : Nat) : Double := s.src l f.ty f.a
def tB (f : OpA) (s : State) (l : Nat) : Double := s.src l f.ty f.b
def tC (f : OpA) (s : State) (l : Nat) : Double := s.src l f.ty f.c
/-- Operands read as 32-bit unsigned integers. -/
def nA (f : OpA) (s : State) (l : Nat) : Nat := (s.src32 l f.a).toNat
def nB (f : OpA) (s : State) (l : Nat) : Nat := (s.src32 l f.b).toNat
def nC (f : OpA) (s : State) (l : Nat) : Nat := (s.src32 l f.c).toNat

/-- OPX[0] as .sat. -/
def OpA_sat (f : OpA) : Bool := f.opx.getLsbD 0

/-- An arithmetic instruction of R92, element by element. -/
def arith (f : OpA) (sat : Bool) (op : Int → Int → Int → Int) (s : State) (l : Nat) : Res Double :=
  perElem f.ty sat op (tA f s l) (tB f s l) (tC f s l)

/-- A result without flags. -/
def plain (x : Double) : Res Double := ⟨x, 0⟩
def plainN (n : Nat) : Res Double := ⟨BitVec.ofNat 64 n, 0⟩

def resIadd (f : OpA) := arith f (OpA_sat f) (fun a b _ => a + b)
def execIadd (f : OpA) (s : State) : Out := .next (s.alu (.iadd f) resIadd)

def resIsub (f : OpA) := arith f (OpA_sat f) (fun a b _ => a - b)
def execIsub (f : OpA) (s : State) : Out := .next (s.alu (.isub f) resIsub)

def resImul (f : OpA) := arith f false (fun a b _ => a * b)
def execImul (f : OpA) (s : State) : Out := .next (s.alu (.imul f) resImul)

/-- The high half of the exact product (R92). -/
def resImulh (f : OpA) := arith f false (fun a b _ => a * b / 2 ^ f.ty.bits)
def execImulh (f : OpA) (s : State) : Out := .next (s.alu (.imulh f) resImulh)

def resImad (f : OpA) := arith f (OpA_sat f) (fun a b c => a * b + c)
def execImad (f : OpA) (s : State) : Out := .next (s.alu (.imad f) resImad)

/-- R93. -/
def resImadw (f : OpA) (s : State) (l : Nat) : Res Double :=
  let sg := signedTy f.ty
  let a := valOf 32 sg (s.src32 l f.a).toNat
  let b := valOf 32 sg (s.src32 l f.b).toNat
  let c := valOf 64 sg (s.src l (if f.ty = .s32 then .s64 else .u64) f.c).toNat
  plain (ofBits (bitsInt 64 (a * b + c)))
def execImadw (f : OpA) (s : State) : Out := .next (s.alu (.imadw f) resImadw)

def resImin (f : OpA) := arith f false (fun a b _ => min a b)
def execImin (f : OpA) (s : State) : Out := .next (s.alu (.imin f) resImin)

def resImax (f : OpA) := arith f false (fun a b _ => max a b)
def execImax (f : OpA) (s : State) : Out := .next (s.alu (.imax f) resImax)

def resIabs (f : OpA) := arith f (OpA_sat f) (fun a _ _ => (a.natAbs : Int))
def execIabs (f : OpA) (s : State) : Out := .next (s.alu (.iabs f) resIabs)

/-! ## Logic, shifts and bit fields (R94 to R97) -/

def resAnd (f : OpA) (s : State) (l : Nat) : Res Double := plain (tA f s l &&& tB f s l)
def execAnd (f : OpA) (s : State) : Out := .next (s.alu (.andL f) resAnd)

def resOr (f : OpA) (s : State) (l : Nat) : Res Double := plain (tA f s l ||| tB f s l)
def execOr (f : OpA) (s : State) : Out := .next (s.alu (.orL f) resOr)

def resXor (f : OpA) (s : State) (l : Nat) : Res Double := plain (tA f s l ^^^ tB f s l)
def execXor (f : OpA) (s : State) : Out := .next (s.alu (.xorL f) resXor)

/-- R94, R95: the upper half of a 32-bit result is zero. -/
def resLop3 (f : OpA) (s : State) (l : Nat) : Res Double :=
  let z := anfBits f.opx.toNat (tA f s l) (tB f s l) (tC f s l)
  plain (if f.ty.wide then z else (z.setWidth 32).setWidth 64)
def execLop3 (f : OpA) (s : State) : Out := .next (s.alu (.lop3 f) resLop3)

/-- Shift amounts are read as u32; W or more shifts everything out (R94). -/
def resShl (f : OpA) (s : State) (l : Nat) : Res Double :=
  plainN (if f.ty.bits ≤ nB f s l then 0 else (tA f s l).toNat * 2 ^ nB f s l % 2 ^ f.ty.bits)
def execShl (f : OpA) (s : State) : Out := .next (s.alu (.shl f) resShl)

def resShr (f : OpA) (s : State) (l : Nat) : Res Double :=
  plainN (if f.ty.bits ≤ nB f s l then 0 else (tA f s l).toNat / 2 ^ nB f s l)
def execShr (f : OpA) (s : State) : Out := .next (s.alu (.shr f) resShr)

/-- The arithmetic right shift of the low `w` bits (R94, R97). -/
def sarBits (w x n : Nat) : Nat := bitsInt w (signedOf w x / 2 ^ min n w)

def resSar (f : OpA) (s : State) (l : Nat) : Res Double := plainN (sarBits f.ty.bits (tA f s l).toNat (nB f s l))
def execSar (f : OpA) (s : State) : Out := .next (s.alu (.sar f) resSar)

/-- R96. -/
def resShf (f : OpA) (s : State) (l : Nat) : Res Double :=
  let x := nB f s l * 2 ^ 32 + nA f s l
  let n := nC f s l
  let hi := f.opx.getLsbD 0
  if f.opx.getLsbD 1 then
    let p := if hi then (96 - n % 64) % 64 else n % 64
    plainN ((x + x * 2 ^ 64) / 2 ^ p % 2 ^ 32)
  else
    let n := min n 32
    plainN (x / 2 ^ (if hi then 32 - n else n) % 2 ^ 32)
def execShf (f : OpA) (s : State) : Out := .next (s.alu (.shf f) resShf)

/-- The number of 1 bits among the low `w`. -/
def onesIn : Nat → Nat → Nat
  | 0, _ => 0
  | w + 1, x => x % 2 + onesIn w (x / 2)
/-- Zero bits below the lowest 1 bit among the low `w`. -/
def zerosBelow : Nat → Nat → Nat
  | 0, _ => 0
  | w + 1, x => if x % 2 = 1 then 0 else 1 + zerosBelow w (x / 2)
/-- The low `w` bits in reverse order. -/
def revBits : Nat → Nat → Nat
  | 0, _ => 0
  | w + 1, x => x % 2 * 2 ^ w + revBits w (x / 2)

def resPopc (f : OpA) (s : State) (l : Nat) : Res Double := plainN (onesIn f.ty.bits (tA f s l).toNat)
def execPopc (f : OpA) (s : State) : Out := .next (s.alu (.popc f) resPopc)

def resClz (f : OpA) (s : State) (l : Nat) : Res Double := plainN (f.ty.bits - bitLen (tA f s l).toNat)
def execClz (f : OpA) (s : State) : Out := .next (s.alu (.clz f) resClz)

def resCtz (f : OpA) (s : State) (l : Nat) : Res Double := plainN (zerosBelow f.ty.bits (tA f s l).toNat)
def execCtz (f : OpA) (s : State) : Out := .next (s.alu (.ctz f) resCtz)

def resBrev (f : OpA) (s : State) (l : Nat) : Res Double := plainN (revBits f.ty.bits (tA f s l).toNat)
def execBrev (f : OpA) (s : State) : Out := .next (s.alu (.brev f) resBrev)

/-- BFX (R97): N lies in OPX. -/
def resBfx (f : OpA) (s : State) (l : Nat) : Res Double :=
  let w := f.ty.bits
  let n := f.opx.toNat
  let p := nB f s l
  let a := (tA f s l).toNat
  let x := if signedTy f.ty then sarBits w a p else if w ≤ p then 0 else a / 2 ^ p
  plainN (if n = 0 then 0 else if signedTy f.ty then bitsInt w (signedOf n x) else x % 2 ^ n)
def execBfx (f : OpA) (s : State) : Out := .next (s.alu (.bfx f) resBfx)

/-- BFI (R97): bits of the field beyond W are dropped. -/
def resBfi (f : OpA) (s : State) (l : Nat) : Res Double :=
  let w := f.ty.bits
  let n := f.opx.toNat
  let p := nB f s l
  let a := (tA f s l).toNat
  let c := (tC f s l).toNat
  plainN (if w ≤ p then c else
    let k := min n (w - p)
    c % 2 ^ p + a % 2 ^ k * 2 ^ p + c / 2 ^ (p + k) * 2 ^ (p + k))
def execBfi (f : OpA) (s : State) : Out := .next (s.alu (.bfi f) resBfi)

/-! ## Moves, selection and addresses (R98, R99) -/

def resSel (f : OpA) (s : State) (l : Nat) : Res Double := plain (if nC f s l ≠ 0 then tA f s l else tB f s l)
def execSel (f : OpA) (s : State) : Out := .next (s.alu (.sel f) resSel)

def resMov (f : OpA) (s : State) (l : Nat) : Res Double := plain (tA f s l)
def execMov (f : OpA) (s : State) : Out := .next (s.alu (.mov f) resMov)

/-- MOVI (R98): IMM32, sign-extended for s64 and zero-extended for u64. -/
def resMovi (f : OpI) : Double := if f.ty = .s64 then f.imm.signExtend 64 else f.imm.setWidth 64
/-- MOVI as a register instruction without sources. -/
def moviA (f : OpI) : OpA := ⟨f.com, f.nwb, f.hold, f.hslot, f.dst, .unused, .unused, .unused, f.ty, .rn, 0⟩
def execMovi (f : OpI) (s : State) : Out :=
  .next (s.issue (.movi f) (fun s =>
    .done (s.runA (.movi f) (moviA f) ⟨some f.ty, none, none, none, [], false, true, true, true⟩
      (fun _ => plain (resMovi f)))))

def resLea (f : OpA) (s : State) (l : Nat) : Res Double :=
  plainN (bitsInt 64 ((s.src64 l f.a).toNat + valTy f.ty (tB f s l) * 2 ^ f.opx.toNat))
def execLea (f : OpA) (s : State) : Out := .next (s.alu (.lea f) resLea)

/-! ## Narrow arithmetic (R100 to R103) -/

/-- R100: the domain is signed if either operand is. -/
def resIdp4 (f : OpA) (s : State) (l : Nat) : Res Double :=
  let sa := signedTy f.ty
  let sb := if f.opx.getLsbD 0 then !sa else sa
  let dom := sa || sb
  let a := (tA f s l).toNat
  let b := (tB f s l).toNat
  let n := (List.range 4).foldl (fun n i => n + valOf 8 sa (a / 2 ^ (8 * i)) * valOf 8 sb (b / 2 ^ (8 * i)))
    (valOf 32 dom (nC f s l))
  let r := storeInt 32 dom (f.opx.getLsbD 1) n
  ⟨ofBits r.val, r.fl⟩
def execIdp4 (f : OpA) (s : State) : Out := .next (s.alu (.idp4 f) resIdp4)

/-- R101: always saturating, only the final value clamps. -/
def resPmac2 (f : OpA) (s : State) (l : Nat) : Res Double :=
  let sg := signedTy f.ty
  let a := (tA f s l).toNat
  let b := (tB f s l).toNat
  let n := valOf 32 sg (nC f s l) + valOf 16 sg a * valOf 16 sg b + valOf 16 sg (a / 2 ^ 16) * valOf 16 sg (b / 2 ^ 16)
  let r := storeInt 32 sg true n
  ⟨ofBits r.val, r.fl⟩
def execPmac2 (f : OpA) (s : State) : Out := .next (s.alu (.pmac2 f) resPmac2)

/-- R102. -/
def resSarn (f : OpA) (s : State) (l : Nat) : Res Double :=
  let w := f.ty.bits
  let m := roundShift f.rnd (valTy f.ty (tA f s l)) (nB f s l)
  if f.opx.getLsbD 0 then
    let n := f.opxBits 1 6 + 1
    let r := clampInt m (loOf n true) (hiOf n true)
    ⟨ofBits (bitsInt w r.val), r.fl⟩
  else plainN (bitsInt w m)
def execSarn (f : OpA) (s : State) : Out := .next (s.alu (.sarn f) resSarn)

/-- R103. -/
def resIsat (f : OpA) (s : State) (l : Nat) : Res Double :=
  let n := f.opxBits 0 6 + 1
  let sg := !f.opx.getLsbD 6
  let r := clampInt (valTy f.ty (tA f s l)) (loOf n sg) (hiOf n sg)
  ⟨ofBits (bitsInt f.ty.bits r.val), r.fl⟩
def execIsat (f : OpA) (s : State) : Out := .next (s.alu (.isat f) resIsat)

/-! ## Registers by computed index (R104 to R106) -/

/-- The index a lane computes; bit 0 is cleared for a pair. -/
def regIndex (f : OpA) (s : State) (l : Nat) : Nat :=
  let n := (nA f s l + nB f s l) % 2 ^ 32
  if f.ty.wide then n - n % 2 else n

/-- The lanes whose index fails its bound (R105); inside the handler v0 to v31 always exist (R359). -/
def badIndex (f : OpA) (s : State) : Lanes :=
  maskOf ((lanesOf (s.calcLanes f.com)).filter (fun l =>
    let n := regIndex f s l + (if f.ty.wide then 1 else 0)
    if f.com.u then decide (64 ≤ n) else decide (s.wWarp.alloc ≤ n) && !(s.inHandler && decide (n < 32))))

/-- The registers that the indexes name, as the scoreboard and the way's sets see them. -/
def indexed (f : OpA) (s : State) (l : Nat) : List Reg :=
  let n := regIndex f s l
  (if f.ty.wide then [n, n + 1] else [n]).map (fun i => if f.com.u then .g i else .v i)

/-- An indexed access checked and waited for, then performed. -/
def indexedOp (f : OpA) (write : Bool) (s : State) (eff : State → State) : Eff :=
  let ls := s.calcLanes f.com
  if badIndex f s ≠ 0 then .trap { cause := 0x03, lanes := if f.com.u then s.active else badIndex f s }
  else if (lanesOf ls).any (fun l => (indexed f s l).any (fun r => s.busyReg (maskOf [l]) r || s.lateReg (maskOf [l]) r)) then .wait
  else if !write && (lanesOf ls).any (fun l => s.poisoned ⟨f.com, indexed f s l, []⟩ (maskOf [l])) then
    .trapFrom (s.consumed s.wWarp.core s.wWarp.tenant) { cause := 0x0F, lanes := if f.com.u then s.active else maskOf ((lanesOf ls).filter (fun l =>
      s.poisoned ⟨f.com, indexed f s l, []⟩ (maskOf [l]))) }
  else
    let keys := (lanesOf ls).flatMap (fun l => (indexed f s l).flatMap (regKeys (maskOf [l])))
    let s := s.updWay (fun y => if write then y.track [] keys else y.track keys [])
    let regs := !s.untracked
    let s := if regs then s.updRegions ls (fun l r =>
      if write then
        ((guardReg f.com :: (usesOf (.rput f)).elim [] Uses.rd).foldl (fun r x => r.exactAll (r.read x.loc 1)) r).overwriteAll
          ((indexed f s l).filterMap Reg.loc)
      else (indexed f s l).foldl (fun r x => r.exactAll (r.read x.loc 1)) r) else s
    .done (eff s)

/-- The register an index names, as a source or a destination. -/
def indexSrc (f : OpA) (n : Nat) : Src := if f.com.u then .g (Fin.ofNat 64 n) else .v (Fin.ofNat 512 n)
def indexDst (f : OpA) (n : Nat) : Dst := if f.com.u then .g (Fin.ofNat 64 n) else .v (Fin.ofNat 512 n)

def resRget (f : OpA) (s : State) (l : Nat) : Res Double := plain (s.src l f.ty (indexSrc f (regIndex f s l)))

def execRget (f : OpA) (s : State) : Out :=
  .next (match (Instr.rget f).roleA with
    | none => s
    | some (_, r) => s.issue (.rget f) (fun s => indexedOp f false s (fun s => s.runA (.rget f) f r (resRget f s))))

/-- The granules that the lanes of an RPUT write whole between them lose their poison (R106, R384). -/
def cleanIndexed (f : OpA) (old s : State) : State :=
  let ls := lanesOf (old.calcLanes f.com)
  (distinct (ls.flatMap (indexed f old))).foldl (fun t r => match r with
    | .v n => t.updMy (fun w => w.cleanDst t.who.way true (indexDst f n) false
        (maskOf (ls.filter (fun l => (indexed f old l).contains r))))
    | _ => t) s

/-- RPUT writes c into the addressed register of each lane. -/
def putIndexed (f : OpA) (s : State) : State :=
  let ls := s.calcLanes f.com
  let old := s
  let s := (lanesOf ls).foldl (fun t l =>
    t.putLanes (maskOf [l]) (indexDst f (regIndex f old l)) f.ty.wide (fun l => tC f old l)) s
  (cleanIndexed f old s).advance

def execRput (f : OpA) (s : State) : Out :=
  .next (s.issue (.rput f) (fun s => indexedOp f true s (putIndexed f)))

end Sys2Proof.Machine
end

