-- ==== Sys2Proof/Machine/Float.lean ====
section
/-! DEFINITION. Class 0x2: floating point within each lane (R237 to R247). -/

namespace Sys2Proof.Machine

/-- An operand's bits as a value of a format. -/
def fval (f : FFmt) (x : Double) : FVal := f.value x.toNat

/-- A rounded result with the flags of forming it. -/
def rounded (f : FFmt) (rm : Rnd) (x : Res FVal) : Res Nat :=
  let r := f.round rm x.val
  ⟨r.val, r.fl ||| x.fl⟩

/-- R241: x + y, x × y and x × y + z, exact and rounded once. -/
def fadd (f : FFmt) (rm : Rnd) (x y : FVal) : Res Nat := rounded f rm (sumFVal rm [x, y])
def fmul (f : FFmt) (rm : Rnd) (x y : FVal) : Res Nat :=
  let p := mulFVal x y
  rounded f rm ⟨p.1, if p.2 then flNV else 0⟩
def ffma (f : FFmt) (rm : Rnd) (x y z : FVal) : Res Nat :=
  if x.isNan || y.isNan || z.isNan then ⟨f.nanBits, 0⟩
  else
    let p := mulFVal x y
    if p.2 then ⟨f.nanBits, flNV⟩ else rounded f rm (sumFVal rm [p.1, z])

/-- minimumNumber and maximumNumber (R223, R242): the chosen operand's bits, a bf16 subnormal as zero. -/
def keepBits (f : FFmt) (x : Nat) : Nat := (f.round .rz (f.value x)).val
def fminmax (f : FFmt) (max : Bool) (x y : Nat) : Nat :=
  let a := f.value x
  let b := f.value y
  if a.isNan && b.isNan then f.nanBits
  else if a.isNan then keepBits f y
  else if b.isNan then keepBits f x
  else
    let c := cmpFVal a b
    let less := if c = 0 then a.sign && !b.sign else c == -1
    keepBits f (if xor less max then x else y)

/-- A scalar f32 result. -/
def f32Res (r : Res Nat) : Res Double := ⟨ofBits r.val, r.fl⟩
def fA (f : OpA) (s : State) (l : Nat) : FVal := fval fmtF32 (tA f s l)
def fB (f : OpA) (s : State) (l : Nat) : FVal := fval fmtF32 (tB f s l)
def fC (f : OpA) (s : State) (l : Nat) : FVal := fval fmtF32 (tC f s l)

def resFadd (f : OpA) (s : State) (l : Nat) : Res Double := f32Res (fadd fmtF32 f.rnd (fA f s l) (fB f s l))
def execFadd (f : OpA) (s : State) : Out := .next (s.alu (.fadd f) resFadd)

def resFsub (f : OpA) (s : State) (l : Nat) : Res Double := f32Res (fadd fmtF32 f.rnd (fA f s l) (fB f s l).neg)
def execFsub (f : OpA) (s : State) : Out := .next (s.alu (.fsub f) resFsub)

def resFmul (f : OpA) (s : State) (l : Nat) : Res Double := f32Res (fmul fmtF32 f.rnd (fA f s l) (fB f s l))
def execFmul (f : OpA) (s : State) : Out := .next (s.alu (.fmul f) resFmul)

def resFfma (f : OpA) (s : State) (l : Nat) : Res Double :=
  f32Res (ffma fmtF32 f.rnd (fA f s l) (fB f s l) (fC f s l))
def execFfma (f : OpA) (s : State) : Out := .next (s.alu (.ffma f) resFfma)

def resFmin (f : OpA) (s : State) (l : Nat) : Res Double :=
  plainN (fminmax fmtF32 false (tA f s l).toNat (tB f s l).toNat)
def execFmin (f : OpA) (s : State) : Out := .next (s.alu (.fmin f) resFmin)

def resFmax (f : OpA) (s : State) (l : Nat) : Res Double :=
  plainN (fminmax fmtF32 true (tA f s l).toNat (tB f s l).toNat)
def execFmax (f : OpA) (s : State) : Out := .next (s.alu (.fmax f) resFmax)

/-! ## The correctly rounded functions (R243) -/

def one : FVal := .fin false 1 0 false

/-- 1/x. -/
def frcp (x : FVal) : Res FVal :=
  match x with
  | .fin n 0 _ _ => ⟨.inf n, flDZ⟩
  | y => ⟨divFVal one y, 0⟩
/-- √x. -/
def fsqrt (x : FVal) : Res FVal :=
  match x with
  | .nan => ⟨.nan, 0⟩
  | .inf n => if n then ⟨.nan, flNV⟩ else ⟨.inf false, 0⟩
  | .fin n m e _ => if m = 0 then ⟨x, 0⟩ else if n then ⟨.nan, flNV⟩ else ⟨sqrtFVal m e, 0⟩
/-- 1/√x, as the root of 1/x where that is exact, else of the cut quotient. -/
def frsq (x : FVal) : Res FVal :=
  match x with
  | .nan => ⟨.nan, 0⟩
  | .inf n => if n then ⟨.nan, flNV⟩ else ⟨.fin false 0 0 false, 0⟩
  | .fin n m e _ =>
    if m = 0 then ⟨.inf n, flDZ⟩
    else if n then ⟨.nan, flNV⟩
    else
      -- 2^(2k) / m over an even exponent, cut; exact only where both steps are
      let e1 := e - (e % 2)
      let m1 := m * 2 ^ (e % 2).toNat
      let num := 2 ^ 240
      let q := num / m1
      let r := isqrt q
      ⟨.fin false r (-(e1 / 2) - 120) (r * r != q || num % m1 != 0), 0⟩
/-- 2^x. -/
def fexp2 (x : FVal) : Res FVal :=
  match x with
  | .nan => ⟨.nan, 0⟩
  | .inf n => if n then ⟨.fin false 0 0 false, 0⟩ else ⟨.inf false, 0⟩
  | .fin n m e _ => if m = 0 then ⟨one, 0⟩ else ⟨exp2FVal n m e, 0⟩
/-- log₂ x. -/
def flog2 (x : FVal) : Res FVal :=
  match x with
  | .nan => ⟨.nan, 0⟩
  | .inf n => if n then ⟨.nan, flNV⟩ else ⟨.inf false, 0⟩
  | .fin n m e _ => if m = 0 then ⟨.inf true, flDZ⟩ else if n then ⟨.nan, flNV⟩ else ⟨log2FVal m e, 0⟩

def fun1 (g : FVal → Res FVal) (f : OpA) (s : State) (l : Nat) : Res Double :=
  f32Res (rounded fmtF32 f.rnd (g (fA f s l)))

def resFrcp := fun1 frcp
def execFrcp (f : OpA) (s : State) : Out := .next (s.alu (.frcp f) resFrcp)
def resFrsq := fun1 frsq
def execFrsq (f : OpA) (s : State) : Out := .next (s.alu (.frsq f) resFrsq)
def resFsqrt := fun1 fsqrt
def execFsqrt (f : OpA) (s : State) : Out := .next (s.alu (.fsqrt f) resFsqrt)
def resFexp2 := fun1 fexp2
def execFexp2 (f : OpA) (s : State) : Out := .next (s.alu (.fexp2 f) resFexp2)
def resFlog2 := fun1 flog2
def execFlog2 (f : OpA) (s : State) : Out := .next (s.alu (.flog2 f) resFlog2)

/-- The class bit of R245. -/
def classBit (f : FFmt) (x : Nat) : Nat :=
  match f.value x with
  | .nan => 8
  | .inf n => if n then 0 else 7
  | .fin n m _ _ => if m = 0 then (if n then 3 else 4) else if m < 2 ^ f.mb then (if n then 2 else 5) else if n then 1 else 6

def resFclass (f : OpA) (s : State) (l : Nat) : Res Double :=
  plainN ((2 ^ classBit (ffmtOf f.ty) (tA f s l).toNat) &&& f.opx.toNat)
def execFclass (f : OpA) (s : State) : Out := .next (s.alu (.fclass f) resFclass)

/-- R244: x × 2^b, exact before rounding. -/
def resFscale (f : OpA) (s : State) (l : Nat) : Res Double :=
  f32Res (match fA f s l with
    | .fin n m e c => fmtF32.round f.rnd (.fin n m (e + (s.src32 l f.b).toInt) c)
    | x => fmtF32.round f.rnd x)
def execFscale (f : OpA) (s : State) : Out := .next (s.alu (.fscale f) resFscale)

/-- R244: an integral value; only .nx tells that it differs. -/
def resFrnd (f : OpA) (s : State) (l : Nat) : Res Double :=
  match fA f s l with
  | .fin n m e c =>
    if m = 0 then plain (tA f s l)
    else
      let (i, ex) := roundInt f.rnd n m e c
      ⟨ofBits (fmtF32.round .rn (.fin n i.natAbs 0 false)).val, if f.opx.getLsbD 0 && !ex then flNX else 0⟩
  | x => plainN (fmtF32.round f.rnd x).val
def execFrnd (f : OpA) (s : State) : Out := .next (s.alu (.frnd f) resFrnd)

/-! ## Packed elements (R246) -/

/-- Both elements of packed operands on their own, flags combined. -/
def packed2 (g : Nat → Nat → Nat → Res Nat) (f : OpA) (s : State) (l : Nat) : Res Double :=
  let el (x : Double) (i : Nat) : Nat := x.toNat / 2 ^ (16 * i) % 2 ^ 16
  let r (i : Nat) : Res Nat := g (el (tA f s l) i) (el (tB f s l) i) (el (tC f s l) i)
  ⟨ofBits ((r 0).val + (r 1).val * 2 ^ 16), (r 0).fl ||| (r 1).fl⟩

def resHadd2 (f : OpA) := packed2 (fun a b _ =>
  fadd (ffmtOf f.ty) f.rnd ((ffmtOf f.ty).value a) ((ffmtOf f.ty).value b)) f
def execHadd2 (f : OpA) (s : State) : Out := .next (s.alu (.hadd2 f) resHadd2)

def resHmul2 (f : OpA) := packed2 (fun a b _ =>
  fmul (ffmtOf f.ty) f.rnd ((ffmtOf f.ty).value a) ((ffmtOf f.ty).value b)) f
def execHmul2 (f : OpA) (s : State) : Out := .next (s.alu (.hmul2 f) resHmul2)

def resHfma2 (f : OpA) := packed2 (fun a b c =>
  ffma (ffmtOf f.ty) f.rnd ((ffmtOf f.ty).value a) ((ffmtOf f.ty).value b) ((ffmtOf f.ty).value c)) f
def execHfma2 (f : OpA) (s : State) : Out := .next (s.alu (.hfma2 f) resHfma2)

def resHmin2 (f : OpA) := packed2 (fun a b _ => ⟨fminmax (ffmtOf f.ty) false a b, 0⟩) f
def execHmin2 (f : OpA) (s : State) : Out := .next (s.alu (.hmin2 f) resHmin2)

def resHmax2 (f : OpA) := packed2 (fun a b _ => ⟨fminmax (ffmtOf f.ty) true a b, 0⟩) f
def execHmax2 (f : OpA) (s : State) : Out := .next (s.alu (.hmax2 f) resHmax2)

/-- R247: z + xlo × ylo + xhi × yhi, rounded once. -/
def resFdot2 (f : OpA) (s : State) (l : Nat) : Res Double :=
  let q := ffmtOf f.ty
  let el (x : Double) (i : Nat) : FVal := q.value (x.toNat / 2 ^ (16 * i))
  let a := tA f s l
  let b := tB f s l
  let z := fval fmtF32 (s.src l .f32 f.c)
  if [el a 0, el a 1, el b 0, el b 1, z].any FVal.isNan then plainN fmtF32.nanBits
  else
    let p := mulFVal (el a 0) (el b 0)
    let r := mulFVal (el a 1) (el b 1)
    if p.2 || r.2 then ⟨ofBits fmtF32.nanBits, flNV⟩ else f32Res (rounded fmtF32 f.rnd (sumFVal f.rnd [z, p.1, r.1]))
def execFdot2 (f : OpA) (s : State) : Out := .next (s.alu (.fdot2 f) resFdot2)

end Sys2Proof.Machine
end

