-- ==== Sys2Proof/Machine/Order.lean ====
section
/-! DEFINITION. The ordering machine (R129 to R142, R411): requests, store bays, leases, writes and their
acknowledgements; and what is carried out where a write is performed: atomic operations (R157, R160) and
barrier objects (R161, R162). -/

namespace Sys2Proof.Machine

/-! ## Barrier objects (R161, R162, R164) -/

structure Bar where
  arrived  : Nat
  expected : Nat
  phase    : Bool
  ovr      : Bool
  reset    : Nat
  remain   : Nat
  deriving DecidableEq, Repr

def Bar.ofNat (x : Nat) : Bar :=
  ⟨bitsOf x 96 32, bitsOf x 64 32, x.testBit 63, x.testBit 62, bitsOf x 20 20, bitsOf x 0 20⟩
def Bar.toNat (b : Bar) : Nat :=
  packFields [(20, b.remain), (20, b.reset), (22, 0), (1, b.ovr.toNat), (1, b.phase.toNat), (32, b.expected),
    (32, b.arrived)]

/-- `evaluate(b)`: the object after it and the status it wakes every waiter with. -/
def Bar.evaluate (b : Bar) : Bar × Option Nat :=
  if b.ovr then (b, some 1)
  else if b.reset = 0 ∧ b.expected = 0 then (b, none)
  else if b.remain = 0 ∧ b.arrived = b.expected then
    ({ b with phase := !b.phase, remain := b.reset, expected := 0, arrived := 0 }, some 0)
  else if b.remain = 0 ∧ b.expected ≠ 0 ∧ b.expected < b.arrived then ({ b with ovr := true }, some 1)
  else (b, none)

/-- An operation that would overrun sets OVER and changes no count; while OVER is set nothing changes. -/
def Bar.arrive (b : Bar) (n : Nat) : Bar × Option Nat :=
  (if b.ovr then b else if b.remain < n then { b with ovr := true } else { b with remain := b.remain - n }).evaluate
def Bar.expect (b : Bar) (n : Nat) : Bar × Option Nat :=
  (if b.ovr then b else if 0xFFFFFFFF < b.expected + n then { b with ovr := true }
    else { b with expected := b.expected + n }).evaluate
def Bar.addBytes (b : Bar) (n : Nat) : Bar × Option Nat :=
  (if b.ovr then b else if 0xFFFFFFFF < b.arrived + n then { b with ovr := true }
    else { b with arrived := b.arrived + n }).evaluate
/-- BINIT's object. -/
def Bar.init (n : Nat) : Bar := ⟨0, 0, false, 1048575 < n, n % 2 ^ 20, n % 2 ^ 20⟩

/-- `wake_all(b, status)` for the object at an address; in scratchpad it is the team's own. -/
def State.wakeAll (s : State) (ta : Nat) (team : Option Nat) (status : Nat) : State :=
  (s.waits.filter (fun w => w.on == .bar ta team)).foldl (fun s w => s.wake w.id status) s

/-! ## Scratchpad and register window (R121, R126, R135) -/

def State.scrBytes (s : State) (team off n : Nat) : List Byte :=
  (List.range n).map (fun i => (s.team team).bytes.get 0 (off + i))

/-- Bytes written to scratchpad: their sectors count as written (R126). -/
def State.scrPut (s : State) (team off : Nat) (bs : List Byte) : State :=
  s.updTeam team (fun t =>
    { t with
      bytes := writeBytes t.bytes off bs
      sectors := (List.range bs.length).foldl (fun m i => m.set false ((off + i) / 32) true) t.sectors
      pois := (List.range bs.length).foldl (fun m i =>
        if (off + i) % 8 = 0 ∧ i + 8 ≤ bs.length then m.set false ((off + i) / 8) false else m) t.pois })

/-- `R126`: the code of a lane's access, 0 where it is sound. -/
def State.scrCode (s : State) (team off n : Nat) (rd : Bool) : Nat :=
  let t := s.team team
  if t.size < off + n then 1
  else if s.ops.any (fun o => o.team == team && o.sdst.any (fun r => off < r.1 + r.2 && r.1 < off + n)) then 3
  else if rd && (List.range n).any (fun i => !t.sectors.get false ((off + i) / 32)) then 2
  else 0

def Warp.regByte (w : Warp) (k off : Nat) : Byte :=
  (w.getV k false (off / 128) (off % 128 / 4)).extractLsb' (8 * (off % 4)) 8

/-- One byte of the warp's own registers replaced. -/
def Warp.setRegByte (w : Warp) (k off : Nat) (b : Byte) : Warp :=
  let x := w.getV k false (off / 128) (off % 128 / 4)
  let sh := 8 * (off % 4)
  w.setV k false (off / 128) (off % 128 / 4) ((x &&& ~~~ (255#32 <<< sh)) ||| (b.setWidth 32 <<< sh))

/-! ## Operations on values (R157, R160) -/

def float2 (f : FFmt) (a b : Nat) : Nat :=
  let el (i : Nat) : Nat := (fadd f .rn (f.value (a / 2 ^ (16 * i) % 2 ^ 16)) (f.value (b / 2 ^ (16 * i) % 2 ^ 16))).val
  el 0 + 65536 * el 1

/-- ATOM and RED, by operation code, on values of `w` bits. -/
def atomOp (op w old b : Nat) : Nat :=
  let lt : Bool := valOf w true old < valOf w true b
  match op with
  | 0 => (old + b) % 2 ^ w
  | 1 => if lt then old else b
  | 2 => if lt then b else old
  | 3 => min old b
  | 4 => max old b
  | 5 => old &&& b
  | 6 => old ||| b
  | 7 => old ^^^ b
  | 8 => b
  | 9 => (fadd fmtF32 .rn (fmtF32.value old) (fmtF32.value b)).val
  | 10 => float2 fmtF16 old b
  | _ => float2 fmtBf16 old b

/-- BUPD, by element operation. -/
def bupdOp (op old b : Nat) : Nat :=
  match op with
  | 0 => (old + b) % 2 ^ 32
  | 1 => bitsInt 32 (clampInt (valOf 32 true old + valOf 32 true b) (loOf 32 true) (hiOf 32 true)).val
  | 2 => (fadd fmtF32 .rn (fmtF32.value old) (fmtF32.value b)).val
  | 3 => float2 fmtBf16 old b
  | 4 => float2 fmtF16 old b
  | 5 => fminmax fmtF32 true old b
  | 6 => fminmax fmtF32 false old b
  | _ => if valOf 32 true old < valOf 32 true b then b else old

/-- The value that an access leaves. -/
def newValue (k : ReqKind) (a : Acc) (old : Nat) : Nat :=
  match k with
  | .atom 16 => if old = a.cmp then a.val else old
  | .atom op | .red op => atomOp op (8 * a.len) old a.val
  | .bupd op => bupdOp op old a.val
  | _ => a.val

/-! ## Requests -/

def Req.acquires (r : Req) : Bool := r.order == .acquire || r.order == .acqrel
def Req.releases (r : Req) : Bool := r.order == .release || r.order == .acqrel

/-- Later memory instructions of the gang wait behind it (R137, R138, R210, R352). -/
def Req.holds (r : Req) : Bool :=
  r.kind != .prefetch && (!r.started || (!r.returned && (r.acquires ||
    (match r.kind with | .commit | .tree _ _ _ _ _ _ => true | _ => false))))

/-- A fence that waits for loads and atomics. -/
def Req.fenceAcq (r : Req) : Bool := r.kind == .fence && r.acquires

/-- The earlier requests of the gang that a new one waits behind; an acquire fence waits for every load and
atomic that has not returned (R140). -/
def State.behindOf (s : State) (u k : Nat) (sl : BitVec 8) (sup all : Bool) : List Nat :=
  (s.reqs.filter (fun r => r.warp == u && r.way == k && r.sup == sup && r.slices &&& sl != 0 && ((all && r.kind != .prefetch) || r.holds))).map
    (·.id)

/-- What a request waits behind is past. -/
def State.freed (s : State) (r : Req) : Bool :=
  r.behind.all (fun i => match s.req i with
    | some q => !r.fenceAcq && !q.holds
    | none => true)

/-- `release_ready(w, s)` (R137, R196). -/
def State.releaseReady (s : State) (u : Nat) (sc : Scope) : Bool :=
  let w := s.warp u
  let t := s.coreTime w.core
  match sc with
  | .warp => true
  | .core => w.wpend == 0
  | .die => w.wpend == 0 && w.gDie + 4 ≤ t
  | .device => w.wpend == 0 && w.gDev + 4 ≤ t
  | .system => w.wpend == 0 && w.posted.isNone && w.gSys + 4 ≤ t

/-- Accesses carried out on the core's own L1 line (R124). -/
def Acc.coreLevel (a : Acc) (sc : Scope) : Bool :=
  (sc == .warp || sc == .core) && (isDev a.ta || (isHost a.ta && !a.unc))

/-- Where a line's write of a request is performed (R124, R135). -/
def placeOf (k : ReqKind) (sc : Scope) (a : Acc) : Place :=
  let upd := match k with | .atom _ | .red _ | .bupd _ | .bar _ => true | _ => false
  let wide := sc == .device || sc == .system
  if isPeer a.ta then .peer
  else if isRed a.ta then .redwin
  else if isHost a.ta then
    if upd && (a.unc || wide) then .host
    else if a.unc then .posted
    else .die
  else match k with
    | .bupd _ | .bar _ => .bank
    | _ => if upd && wide then .bank else .die

def distinctLines (as : List Acc) : List Nat := distinct (as.map (fun a => lineOf a.ta))

/-- The writes that a request adds to wpend (R149, R156, R158 to R160). -/
def Req.nWrites (r : Req) : Nat :=
  match r.kind with
  | .clean 0 => 0
  | .store | .atom _ | .red _ | .bupd _ | .clean _ => (distinctLines (r.accs.filter (fun a => isGlob a.ta))).length
  | .kv func _ _ _ _ => if func = 0 then 0 else 1      -- held until its own writes are counted (R327, R329)
  | .kvval _ => 1
  | _ => 0

def State.putReq (s : State) (r : Req) : State :=
  if s.reqs.any (fun q => q.id == r.id) then { s with reqs := s.reqs.map (fun (q : Req) => if q.id = r.id then r else q) }
  else { s with reqs := s.reqs ++ [r] }
def State.dropReq (s : State) (i : Nat) : State := { s with reqs := s.reqs.filter (fun (q : Req) => q.id != i) }

/-! ## Where a load finds its bytes (R132) -/

/-- A write of a store bay: it is not performed yet (R129, R132). -/
def Write.inBay (w : Write) : Bool := w.op.isNone && !w.done

/-- A byte after one more write: its new value, or none inside where that is known only once it is performed. -/
def Write.over (w : Write) (ta : Nat) (b : Option (Option Byte)) : Option (Option Byte) :=
  match w.bytes.find ta with
  | some x => some (some x)
  | none => if w.touches ta then some none else b

/-- What the youngest write of the warp's bay to a byte, among those issued before `seq`, makes of it (R132). -/
def State.bayByte (s : State) (u ta seq : Nat) : Option (Option Byte) :=
  s.writes.foldl (fun b w => if w.id < seq ∧ w.src = u ∧ w.inBay then w.over ta b else b) none

/-- A load of the gang that left its queue earlier has still to fetch the byte (R136). -/
def State.loadAhead (s : State) (r : Req) (ta : Nat) : Bool :=
  s.reqs.any (fun q => q.started && q.seq < r.seq && q.warp == r.warp && q.way == r.way && q.sup == r.sup &&
    q.slices &&& r.slices != 0 && q.kind != .prefetch && q.accs.any (fun a => a.left.any (fun i => a.ta + i == ta)))

/-- A lease copy that the gang may use: live, and not from before its last full fence (R131, R140). -/
def State.liveCopy (s : State) (c l fence : Nat) : Option Copy :=
  match (s.core c).l1.find l with
  | some p => if s.coreTime c < p.exp ∧ fence < p.stamp then some p else none
  | none => none

/-- A byte of a lease copy that is older than a performed write of the warp, whose acknowledgement is on its way: the
copy was installed before the write was performed, and no younger store has updated it (R134, R136). -/
def State.staleByte (s : State) (u c : Nat) (p : Copy) (ta : Nat) : Bool :=
  s.writes.any (fun w => w.done && w.op.isNone && w.src == u && w.core == c && w.line == lineOf ta && p.stamp < w.stamp &&
    p.upd.get 0 ta < w.id && w.touches ta)

/-- A byte that another warp's store, not performed yet, has put into the core's copy as it issued before `seq` (R133):
no other warp's load returns it (R136). -/
def State.unseen (s : State) (u c seq ta : Nat) : Bool :=
  s.writes.any (fun w => w.shown && !w.done && w.core == c && w.id < seq && w.line == lineOf ta && w.src != u && w.touches ta)

/-- A byte without a fetch: the way's own buffered lines (R315), the bay, a lease copy. Of a live copy, a byte is passed
over that would go backward for the warp, or that no load may return yet (R136, log 136). -/
def State.nearByte (s : State) (r : Req) (a : Acc) (ta : Nat) : Option Byte :=
  if a.home then none else
  let way := match (s.warp r.warp).way? r.way with
    | some y => y.lines.find ta
    | none => none
  match way with
  | some b => some b
  | none => match s.bayByte r.warp ta r.seq with
    | some b => b
    | none =>
      if r.nl1 || a.unc || s.loadAhead r ta || s.unseen r.warp r.core r.seq ta then none
      else match s.liveCopy r.core (lineOf ta) r.fence with
        | some p => if s.staleByte r.warp r.core p ta then none else some (p.bytes.get 0 ta)
        | none => none

/-- The bytes at hand put together, the others left to be fetched. -/
def Acc.gather (a : Acc) (f : Nat → Option Byte) : Acc :=
  a.left.foldl (fun (a : Acc) i => match f (a.ta + i) with
    | some b => { a with old := a.old + b.toNat * 256 ^ i, left := a.left.filter (fun j => j != i) }
    | none => a) a

/-- A local read: scratchpad, register window or control space, at once. -/
def State.localRead (s : State) (r : Req) (a : Acc) : Nat :=
  if isScr a.ta then leNat (s.scrBytes (s.warp r.warp).team (a.ta - scrBase) a.len)
  else if isRegw a.ta then leNat ((List.range a.len).map (fun i => (s.warp r.warp).regByte r.way (a.ta - regBase + i)))
  else s.ctlRead a.ta a.len

def State.localWrite (s : State) (r : Req) (a : Acc) (v : Nat) : State :=
  if isScr a.ta then s.scrPut (s.warp r.warp).team (a.ta - scrBase) (leBytes a.len v)
  else if isRegw a.ta then
    let off := a.ta - regBase
    s.updWarp r.warp (fun w =>
      let w := (List.range a.len).foldl (fun w i => w.setRegByte r.way (off + i) (BitVec.ofNat 8 (v / 256 ^ i))) w
      if a.len < 8 then w
      else w.updArch r.way (fun x => { x with
        vpois := (List.range (a.len / 8)).foldl (fun t i => Tab.set false t (off / 8 + i) false) x.vpois }))
  else s.ctlWrite a.ta a.len v

def isLocal (ta : Nat) : Bool := isScr ta || isRegw ta || isCtl ta

/-! ## Issuing from the queue -/

/-- A core's lease copy of a line changed by its own store: the bytes and the store that last updated them. -/
def State.storeToCopy (s : State) (c l id : Nat) (bs : Tab Byte) : State :=
  s.updCore c (fun x => { x with l1 := x.l1.upd l (fun p =>
    { p with
      bytes := bs.foldl (fun t b => t.set 0 b.1 b.2) p.bytes
      upd := bs.foldl (fun t b => t.set 0 b.1 id) p.upd }) })

def State.dropCopy (s : State) (c l : Nat) : State := s.updCore c (fun x => { x with l1 := x.l1.erase l })

/-- The bytes that accesses store, later lanes over earlier ones (R149). -/
def storedBytes (as : List Acc) : Tab Byte :=
  as.foldl (fun t a => (List.range a.len).foldl (fun t i => t.put (a.ta + i) (BitVec.ofNat 8 (a.val / 256 ^ i))) t) []

/-- The bytes that a request's write of one line carries: a store's, or the zeros of CCTL.zero (R156). -/
def writtenBytes (k : ReqKind) (as : List Acc) (l : Nat) : Tab Byte :=
  match k with
  | .store => storedBytes as
  | .clean 3 => (List.range 64).foldl (fun t i => t.put (64 * l + i) 0) []
  | _ => []

/-- One write per line enters the bay and counts in wpend (R133, R149); the core's lease copy is updated. The write
of an update on the core's own line takes its place here and gets its bytes when it is carried out (R125). -/
def State.enterBay (s : State) (r : Req) (as : List Acc) : State :=
  (distinctLines as).foldl (fun s l =>
    let mine := as.filter (fun a => lineOf a.ta == l)
    let bs := writtenBytes r.kind mine l
    let id := s.clk.fresh
    let place := match mine with | a :: _ => placeOf r.kind r.scope a | [] => .die
    let upd := match r.kind with | .atom _ | .red _ => true | _ => false
    let near := upd && mine.any (fun a => a.coreLevel r.scope)
    let drop := r.nl1 && r.kind == .store
    let w : Write := {
      id := id, warp := some r.warp, src := r.warp, core := r.core, die := r.core / 64, line := l, place := place
      kind := if near then .store else r.kind, accs := mine, bytes := bs, req := r.id, tenant := (s.warp r.warp).tenant
      near := near, made := !near, shown := near || (!drop && ((s.core r.core).l1.find l).isSome), pol := r.pol
      strict := r.releases && r.scope == .system, time := s.clk.time }
    let s := { s.bump with writes := s.writes ++ [w] }
    if drop then s.dropCopy r.core l else s.storeToCopy r.core l id bs) s

def State.addPend (s : State) (u n : Nat) : State := s.updWarp u (fun w => { w with wpend := w.wpend + n })

/-- Accesses of a local place carried out in lane order; old values are kept where they are returned. -/
def State.updateLocal (s : State) (r : Req) : State × Req :=
  r.accs.foldl (fun (p : State × Req) a =>
    if isLocal a.ta then
      let old := p.1.localRead r a
      let s := p.1.localWrite r a (newValue r.kind a old)
      (s, { p.2 with accs := p.2.accs ++ [{ a with old := old, left := [] }] })
    else (p.1, { p.2 with accs := p.2.accs ++ [a] })) (s, { r with accs := [] })

/-- A barrier operation on the object that lies at `ta` (in scratchpad the team's), holding `x`: the object,
and what becomes of the request. -/
def State.barOp (s : State) (r : Req) (op : Nat) (a : Acc) (team : Option Nat) (x : Nat) : Nat × State :=
  let b := Bar.ofNat x
  let woken (p : Bar × Option Nat) (s : State) : State :=
    match p.2 with | some st => s.wakeAll a.ta team st | none => s
  let ret (s : State) : State := s.putReq { r with started := true, accs := [{ a with old := b.phase.toNat, left := [] }] }
  let wait (s : State) : State := (s.setWait r.id (.bar a.ta team)).dropReq r.id
  match op with
  | 0 =>
    let s := s.wakeAll a.ta team 2
    let p := (Bar.init a.val).evaluate
    (p.1.toNat, (woken p s).dropReq r.id)
  | 1 =>
    let p := b.arrive a.val
    (p.1.toNat, ret (woken p s))
  | 2 =>
    if b.ovr then (x, (s.wake r.id 1).dropReq r.id)
    else if b.phase.toNat ≠ a.val % 2 then (x, (s.wake r.id 0).dropReq r.id)
    else (x, wait s)
  | 3 =>
    let p := b.arrive a.val
    let s := woken p s
    (p.1.toNat, if p.1.ovr then (s.wake r.id 1).dropReq r.id
      else if p.1.phase ≠ b.phase then (s.wake r.id 0).dropReq r.id else wait s)
  | _ =>
    let p := b.expect a.val
    (p.1.toNat, (woken p s).dropReq r.id)

/-! ## WAITA (R165 to R167) -/

/-- The first free entry of a stack's table. -/
def State.freeEntry (s : State) (st : Nat) : Option Nat :=
  (List.range 4096).find? (fun n => (s.tables.find (4096 * st + n)).isNone)

/-- WAITA at its home: met, tested once, parked in the table, or no entry. -/
def State.doWaita (s : State) (r : Req) (cmp e m tmo : Nat) : State :=
  match r.accs with
  | [] => s.dropReq r.id
  | a :: _ =>
    let wide := a.len == 8
    let v := s.curNat a.ta a.len
    let st := stackOf (lineOf a.ta)
    let back (n : Nat) : State := (s.wake r.id n (BitVec.ofNat 32 v)).dropReq r.id
    if waitCond cmp wide v e m then back 0
    else if tmo = 0 then back 1
    else match s.freeEntry st with
      | none => back 2
      | some n =>
        let w := s.warp r.warp
        let x : WaitEntry := ⟨e, m, if tmo = 0xFFFFFFFF then none else some (s.dieTime st + tmo), a.ta, cmp, wide, r.id,
          w.core * 64 + w.ctx⟩
        ({ s with tables := s.tables.put (4096 * st + n) x }.setWait r.id (.waita st n)).dropReq r.id

/-! ## Starting and finishing -/

/-- A full fence is stamped on the gangs of its slices and on what waits behind it (R140): in a speculative loop, on
those of every way, so of the later iterations and of what comes after the loop. The gangs of a fence that completes while
the warp's handler runs are the saved ones. -/
def State.fenced (s : State) (r : Req) : State :=
  if r.order = .acqrel ∧ (r.scope = .die ∨ r.scope = .device ∨ r.scope = .system) then
    let n := s.clk.fresh
    let s := s.bump
    let mark (a : Arch) : Arch :=
      { a with gangs := a.gangs.map (fun (g : Gang) => if g.slices &&& r.slices != 0 then { g with fence := n } else g) }
    let s := s.updWarp r.warp (fun w =>
      let w := if r.sup then w.updArch r.way mark else w.updUser r.way mark
      { w with loop := w.loop.map (fun l => { l with
          committed := mark l.committed
          ways := l.ways.map (fun (p : Nat × Way) => (p.1,
            { p.2 with start := mark p.2.start, arch := if p.1 = r.way then p.2.arch else mark p.2.arch })) }) })
    { s with reqs := s.reqs.map (fun (q : Req) => if q.behind.contains r.id then { q with fence := n } else q) }
  else s

def insertNat (n : Nat) : List Nat → List Nat
  | [] => [n]
  | m :: r => if n < m then n :: m :: r else if n = m then m :: r else m :: insertNat n r

/-- Distinct numbers, ascending. -/
def sortNat (l : List Nat) : List Nat := l.foldl (fun t n => insertNat n t) []

def RStore.line : RStore → Nat
  | .deferred ta _ _ | .buffered ta _ => lineOf ta

/-- The lines of a commit, ascending: symbol sources, deferred and buffered stores (R210). -/
def Warp.regionLines (w : Warp) (ls : Lanes) : List Nat :=
  sortNat ((w.regions.filter (fun p => ls.getLsbD p.1)).flatMap (fun p =>
    p.2.syms.map (fun y => lineOf y.ta) ++ p.2.stores.map RStore.line))

/-- gwct of a scope (R143). -/
def Warp.gwct (w : Warp) (sc : Scope) : Nat :=
  match sc with | .die => w.gDie | .device => w.gDev | .system => w.gSys | _ => 0

/-- A request that counts in wpend and makes its writes only as it returns: KVVAL and SKCH (R327, R329). -/
def Req.owes (r : Req) : Bool :=
  r.started && (match r.kind with | .kv func _ _ _ _ => func != 0 | .kvval _ => true | _ => false)

/-- An engine operation enters its queue and captures the warp's writes (R143). -/
def State.capture (s : State) (o : Nat) : State :=
  s.bump.updOp o (fun e =>
    { e with
      queued := true, enter := s.clk.fresh
      caught := (s.writes.filter (fun w => w.warp == some e.warp)).map (·.id) ++
        (s.reqs.filter (fun r => r.warp == e.warp && r.owes)).map (·.id)
      gcap := (s.warp e.warp).gwct e.scope })

/-- A request leaves the issue queue. A prefetch goes to the home point unless the core has a live copy (R154). -/
def State.start (s : State) (r : Req) : State :=
  let r := { r with started := true, behind := [], seq := s.clk.fresh }
  let s := s.bump
  match r.kind with
  | .prefetch =>
    s.putReq { r with accs := r.accs.map (fun a =>
      if isLocal a.ta || (!r.nl1 && (s.liveCopy r.core (lineOf a.ta) r.fence).isSome) then { a with left := [] } else a) }
  | .load =>
    s.putReq { r with accs := r.accs.map (fun a =>
      if isLocal a.ta then { a with old := s.localRead r a, left := [] } else a.gather (s.nearByte r a)) }
  | .store =>
    let (s, r) := s.updateLocal r
    let glob := r.accs.filter (fun a => isGlob a.ta)
    (((s.enterBay r glob).addPend r.warp r.nWrites)).dropReq r.id
  | .atom _ | .red _ =>
    let (s, r) := s.updateLocal r
    let glob := r.accs.filter (fun a => isGlob a.ta)
    let near := glob.any (fun a => a.coreLevel r.scope)
    let s := (s.enterBay r glob).addPend r.warp r.nWrites
    if near || (match r.kind with | .atom _ => true | _ => false) then s.putReq r else s.dropReq r.id
  | .bupd _ => ((s.enterBay r r.accs).addPend r.warp r.nWrites).dropReq r.id
  | .clean 0 => (r.accs.foldl (fun s a => s.dropCopy r.core (lineOf a.ta)) s).dropReq r.id
  | .clean 4 => (s.updCore r.core (fun x => { x with l1 := [] })).dropReq r.id
  | .clean _ => ((s.enterBay r r.accs).addPend r.warp r.nWrites).dropReq r.id
  | .fence => (s.fenced r).dropReq r.id
  | .bar op =>
    match r.accs with
    | [] => s.dropReq r.id
    | a :: _ =>
      if isScr a.ta then
        let team := (s.warp r.warp).team
        let (x, s) := s.barOp r op a (some team) (s.localRead r a)
        s.scrPut team (a.ta - scrBase) (leBytes 16 x)
      else
        let s := s.putReq r
        let w : Write := {
          id := s.clk.fresh, warp := none, src := r.warp, core := r.core, die := r.core / 64
          line := lineOf a.ta, place := .bank, kind := r.kind, accs := [a], req := r.id, tenant := (s.warp r.warp).tenant
          time := s.clk.time }
        { s.bump with writes := s.writes ++ [w] }
  | .waita cmp e m t => s.doWaita r cmp e m t
  | .kv _ _ _ _ _ | .kvval _ => (s.putReq r).addPend r.warp r.nWrites
  | .engine o => (s.capture o).dropReq r.id
  | .commit =>
    let w := s.warp r.warp
    let c : Commit := {
      id := r.id, warp := r.warp, slice := (slicesOf r.slices).headD 0
      lines := w.regionLines ((w.user r.way).activeIn r.slices) }
    (s.putReq r).updDie (r.core / 64) (fun d => { d with commits := d.commits ++ [c] })
  | _ => s.putReq r

/-- The request may leave the queue now. -/
def State.canStart (s : State) (r : Req) : Bool :=
  s.freed r && (!r.releases || s.releaseReady r.warp r.scope) && (s.warp r.warp).wpend + r.nWrites ≤ 255

/-- A new request of the issuing gang with its identifier and what it waits behind. -/
def State.newReq (s : State) (r : Req) : Req :=
  let g := s.gang
  let r := { r with
    id := s.clk.fresh, warp := s.who.warp, way := s.who.way, slices := g.slices, core := s.wWarp.core, pc := s.pc
    sup := s.inHandler, fence := g.fence, seq := s.clk.fresh }
  { r with behind := s.behindOf r.warp r.way r.slices r.sup r.fenceAcq }

/-- The registers that a request will write, awaited by the scoreboard. -/
def Dst.span (d : Dst) (k : Nat) : List Dst :=
  match d with
  | .v n => (List.range k).map (fun i => .v (n + Fin.ofNat 512 i))
  | .g n => (List.range k).map (fun i => .g (n + Fin.ofNat 64 i))
  | .discard => []
  | x => [x]

def State.await (s : State) (id : Nat) (d : Dst) (k : Nat) (ls : Lanes) : State :=
  s.updMy (fun w => { w with busy := w.busy ++ (Dst.span d k).map (fun x => ⟨id, s.who.way, w.trap.isSome, x, ls⟩) })

def Req.sysRelease (r : Req) : Bool := r.releases && r.scope == .system

/-- A system-scope release that waits for the host links while they are down (R196, R387). -/
def State.linkLost (s : State) (r : Req) : Bool :=
  r.sysRelease && !r.started && s.link.down && (s.warp r.warp).posted.isSome && (s.warp r.warp).wpend == 0 && s.freed r

/-- Its gang parks once it has issued (R164, R210). -/
def Req.parks (r : Req) : Bool :=
  match r.kind with | .bar op => op == 2 || op == 3 | .waita _ _ _ _ | .commit => true | _ => false

/-- It waits at issue where it could not leave the queue: for room in wpend (R130), through the register window,
whose accesses act as they issue (R63, R121), and where the gang would park with a system-scope release held, which
must be able to take its trap (R387). -/
def State.stays (s : State) (r : Req) : Bool :=
  (r.behind.isEmpty && !r.releases) || r.accs.any (fun a => isRegw a.ta) ||
  (r.parks && (r.sysRelease || r.behind.any (fun i => match s.req i with | some q => q.sysRelease && !q.started | none => false)))

/-- A register that an access through the window reaches is still to be written by an earlier instruction (R63, R106):
the access waits for it, as one that names the register would. -/
def State.windowWaits (s : State) (r : Req) : Bool :=
  let w := s.warp r.warp
  let pend := w.busy ++ w.late.map (·.1)
  r.accs.any (fun a => isRegw a.ta && (List.range ((a.ta % 4 + a.len + 3) / 4)).any (fun i =>
    let k := (a.ta - regBase) / 4 + i
    pend.any (fun b => b.way == r.way && b.lanes.getLsbD (k % 32) && (match b.reg with
      | .v n => n.val == k / 32 && (!b.sup || 32 ≤ n.val)
      | _ => false))))

/-- A memory instruction issues: it starts now, joins its gang's queue (R137, R411), or waits at issue. -/
def State.submit (s : State) (r : Req) (t : State → State) : Eff :=
  let r := s.newReq r
  if s.linkLost r then .trap { cause := 0x15, lanes := s.active }
  else if s.windowWaits r then .wait
  else if s.canStart r then .done (t (s.bump.start r))
  else if s.stays r then .wait
  else .done (t (s.bump.putReq r))

/-- A held instruction issues from its gang's queue (R137, R138, R140). -/
def execReleaseIssue (held : Nat) (s : State) : Out :=
  match s.req held with
  | none => no "RELEASE_ISSUE"
  | some r => onlyIf "RELEASE_ISSUE" (!r.started && s.canStart r) (s.start r)

/-! ## Fetches and returns -/

/-- The lease that a home point grants (R131, R193). -/
def State.grantLease (s : State) (d l : Nat) : State :=
  let t := s.dieTime d
  s.updL2 d l (fun x =>
    let len := if isHost (64 * l) then 256
      else if x.granted && !x.wrote && x.exp ≤ t then min 2048 (2 * x.len) else x.len
    { x with len := len, exp := max x.exp (t + len), granted := true, wrote := false })

/-- A cache policy noted on a die's line (R151): 1 stream, 2 keep. The LLC holds no value of its own, so nollc
changes nothing (log 129). -/
def L2Line.policy (x : L2Line) (pol : Nat) : L2Line :=
  if pol = 2 then { x with hint := 1 } else if pol = 3 then { x with hint := 2 } else x

/-- The bytes of updates carried out on a core's own copy of a line that are not performed yet, youngest last (R125). -/
def State.nearBytes (s : State) (c l : Nat) : List (Nat × Nat × Byte) :=
  (s.writes.filter (fun w => w.near && w.made && !w.done && w.core == c && w.line == l)).flatMap (fun w =>
    w.bytes.map (fun b => (w.id, b.1, b.2)))

/-- A fetched line installed as the core's lease copy, in the room that the L1 has (R60). What the core's own updates have
made of it stands in it (R125, R136). -/
def State.install (s : State) (c l pol : Nat) : State :=
  let d := c / 64
  let s := s.grantLease d l
  let x := s.l2 d l
  let mine := s.nearBytes c l
  let p : Copy := {
    bytes := mine.foldl (fun t b => t.set 0 b.2.1 b.2.2) x.bytes, upd := mine.foldl (fun t b => t.set 0 b.2.1 b.1) []
    exp := s.dieTime d + x.len, stamp := s.clk.fresh, pois := x.pois, stream := pol == 2 }
  (s.bump.updCore c (fun k => { k with l1 := k.l1.put l p })).trimL1 c

/-- A write or an operation's request at the line's home waits for the dies to give the line up: no lease is granted
meanwhile (R189). -/
def State.recallWaits (s : State) (l : Nat) : Bool :=
  s.writes.any (fun w => w.line == l && !w.done &&
    (w.place == .bank || (w.place == .host && !w.accs.any (fun a => a.unc)) || w.kind == .clean 2) && s.firstWrite w) ||
  s.ops.any (fun o => match o.home with | some (m, _) => m == l | none => false)

/-- The home point may answer core fetches of the line. -/
def State.readable (s : State) (d l : Nat) : Bool :=
  let x := s.l2 d l
  (x.st == .S || x.st == .E || x.st == .M || x.st == .O) && x.snoop.isNone && !x.locked && (s.dirE l).hsnp.isNone &&
    !s.recallWaits l

/-- A byte that an access still wants may be fetched: earlier loads of the gang for it have fetched, and neither an
update of the warp nor a store that the core's copy has shown is still on its way (R132, R136). A symbol's byte is
fetched once the warp's own store to it is performed (R204). -/
def State.fetchByte (s : State) (r : Req) (a : Acc) (ta : Nat) : Bool :=
  !s.loadAhead r ta &&
  (match s.bayByte r.warp ta r.seq with | some none => false | some (some _) => !a.home | none => true) &&
  !s.unseen r.warp r.core r.seq ta

def State.fetchable (s : State) (r : Req) (l : Nat) : Bool :=
  r.kind == .prefetch ||
    r.accs.all (fun a => a.left.all (fun i => (a.ta + i) / 64 != l || s.fetchByte r a (a.ta + i)))

/-- A fetch's bytes delivered to the accesses that want them. -/
def Acc.fill (a : Acc) (l : Nat) (t : Tab Byte) (pois : Bool) : Acc :=
  if !a.wants l then a
  else { (a.gather (fun ta => if ta / 64 = l then some (t.get 0 ta) else none)) with pois := a.pois || pois }

/-- The posted write that reaches the host next: any with relaxed ordering, or the oldest; the choice is free
(R197). -/
def pickPosted (es : List Posted) (k : Nat) : Option Posted :=
  let may := (es.take 1).filter (fun e => !e.relaxed) ++ es.filter (fun e => e.relaxed)
  match may with
  | [] => none
  | [e] => some e
  | _ => may[Config.nextPosted k % may.length]?

def deliverPosted : Nat → List Posted → Nat → Tab Byte → Tab Byte
  | 0, _, _, m => m
  | n + 1, es, k, m => match pickPosted es k with
    | none => m
    | some e => deliverPosted n (es.erase e) (k + 1) (setBytes m e.bytes)

/-- Every posted write in the egress queue reaches the host. -/
def State.pushPosted (s : State) : State :=
  let n := s.link.egress.length
  { s with
    mem := deliverPosted n s.link.egress s.clk.free s.mem
    clk := { s.clk with free := s.clk.free + n }
    link := { s.link with egress := [] } }

/-- A load's fetch is taken: at the die home point under R132 step 3, or at an uncached host or peer home. -/
def execFetch (load l : Nat) (s : State) : Out :=
  match s.req load with
  | none => no "FETCH"
  | some r =>
    let d := r.core / 64
    let want := r.started && !r.returned && r.accs.any (fun a => a.wants l)
    let atom := match r.kind with | .atom _ | .red _ => true | _ => false
    if !want || !s.fetchable r l then no "FETCH"
    else if r.accs.any (fun a => a.wants l && (a.unc || isPeer a.ta)) && !atom then
      -- an uncached read pushes the posted writes ahead of it (R196)
      let host := isHost (64 * l)
      let s := if host then s.pushPosted else s
      onlyIf "FETCH" (!host || (!s.link.down && s.carries (s.warp r.warp).tenant)) (s.updReq load (fun r => { r with accs := r.accs.map (fun a => a.fill l s.mem (s.pois.get false l)) }))
    else if !s.readable d l then no "FETCH"
    else if atom then
      onlyIf "FETCH" (r.accs.any (fun a => a.wants l && a.coreLevel r.scope) && (s.liveCopy r.core l 0).isNone)
        (s.install r.core l r.pol)
    else
      let x := s.l2 d l
      let watch := r.accs.any (fun a => a.wants l && a.obs.isSome)
      let s := if watch then s.updL2 d l (fun x => { x with watched := true }) else s
      -- a load that takes no copy leaves none from before it (R136, log 130)
      let s := if r.nl1 then (if r.kind == .load then s.dropCopy r.core l else s) else s.install r.core l r.pol
      .next ((s.updL2 d l (fun x => x.policy r.pol)).updReq load (fun r => { r with accs := r.accs.map (fun a => a.fill l x.bytes x.pois) }))

/-- A copy is no longer live once its expiry has passed (R131). -/
def execLeaseExpiry (c l : Nat) (s : State) : Out :=
  match (s.core c).l1.find l with
  | some p => onlyIf "LEASE_EXPIRY" (p.exp ≤ s.coreTime c) (s.dropCopy c l)
  | none => no "LEASE_EXPIRY"

/-- Registers written by a returned value of a size: one, two or four registers (R153). -/
def Warp.putSize (w : Warp) (k : Nat) (mine : Bool) (l : Nat) (d : Dst) (n x : Nat) : Warp :=
  ((List.range n).zip (Dst.span d n)).foldl (fun w p => w.put k mine l p.2 false (BitVec.ofNat 64 (x / 2 ^ (32 * p.1) % 2 ^ 32))) w

/-- One register of a lane holds poison; `sup` for the handler, whose window and g48 to g63 are its own. -/
def Warp.poisonReg (w : Warp) (k : Nat) (sup : Bool) (l : Nat) (d : Dst) : Warp :=
  match d, w.trap with
  | .v m, some t =>
    if sup && m.val < 32 then { w with trap := some { t with vpois := t.vpois.set false ((32 * m.val + l) / 2) true } }
    else w.updArch k (fun a => { a with vpois := a.vpois.set false ((32 * m.val + l) / 2) true })
  | .g m, some t =>
    if sup && 48 ≤ m.val then { w with trap := some { t with gpois := t.gpois.set false (m.val / 2) true } }
    else w.updArch k (fun a => { a with gpois := a.gpois.set false (m.val / 2) true })
  | .v m, none => w.updArch k (fun a => { a with vpois := a.vpois.set false ((32 * m.val + l) / 2) true })
  | .g m, none => w.updArch k (fun a => { a with gpois := a.gpois.set false (m.val / 2) true })
  | _, _ => w

/-- Poison that arrives with data (R384). -/
def Warp.poisonDst (w : Warp) (k : Nat) (sup : Bool) (l : Nat) (d : Dst) (n : Nat) : Warp :=
  (List.range n).foldl (fun w i => match (Dst.span d n)[i]? with
    | some x => w.poisonReg k sup l x
    | none => w) w

/-- A load's values in its registers, the scoreboard cleared. -/
def Warp.receive (w : Warp) (r : Req) : Warp :=
  let n := r.size.regs
  let w := r.accs.foldl (fun w a => w.putSize r.way r.sup a.lane r.dst n a.old) w
  let w := (List.range n).foldl (fun w i => match (Dst.span r.dst n)[i]? with
    | some x => w.cleanDst r.way r.sup x false (maskOf (r.accs.map (·.lane)))
    | none => w) w
  let w := r.accs.foldl (fun w a => if a.pois then w.poisonDst r.way r.sup a.lane r.dst n else w) w
  { w with busy := w.busy.filter (fun b => b.id != r.id) }

/-- In a region: the observed value of a new symbol, and the result's tag (R204). -/
def Warp.observe (w : Warp) (r : Req) : Warp :=
  { w with regions := r.accs.foldl (fun t a =>
      t.upd a.lane (fun g =>
        let g := match a.obs with
          | some i => { g with syms := g.syms.modify i (fun y => { y with obs := a.old }) }
          | none => g
        match a.tag with
        | some (i, k) => if g.doom = 0 then g.setTag (dstLoc r.dst) (some ⟨i, BitVec.ofNat 64 k⟩) else g
        | none => g)) w.regions }

/-- What a byte holds for an update on the core's own line (R125): the youngest write of the warp, or update of the
core, that issued before it and is not performed yet; else the core's copy, none inside where that goes backward for the
warp until an acknowledgement has come (R136). -/
def State.coreByte (s : State) (w : Write) (ta : Nat) : Option Byte :=
  match s.writes.foldl (fun b x =>
      if x.id < w.id ∧ (x.src = w.src ∨ (x.near ∧ x.core = w.core)) ∧ x.inBay then x.over ta b else b) none with
  | some b => b
  | none => match (s.core w.core).l1.find w.line with
    | some p => if s.staleByte w.src w.core p ta then none else some (p.bytes.get 0 ta)
    | none => none

/-- A request's updates on the core's own lines. -/
def State.nearWrites (s : State) (r : Req) : List Write := s.writes.filter (fun w => w.near && w.req == r.id)

/-- An update can be carried out on the core's line: the copy is live, what it reads is known, and earlier updates
of the core on the line have been carried out. -/
def State.nearReady (s : State) (w : Write) : Bool :=
  (s.liveCopy w.core w.line 0).isSome &&
  w.accs.all (fun a => (List.range a.len).all (fun i => (s.coreByte w (a.ta + i)).isSome)) &&
  !s.writes.any (fun x => x.near && !x.made && x.core == w.core && x.line == w.line && x.id < w.id)

/-- Old values put into a request's accesses. -/
def Req.takeOld (r : Req) (as : List Acc) : Req :=
  { r with accs := r.accs.map (fun a =>
    match as.find? (fun b => b.lane == a.lane && b.ta == a.ta) with
    | some b => { a with old := b.old, left := [], pois := a.pois || b.pois }
    | none => a) }

/-- A write's lanes applied to a table of bytes in lane order: the bytes it leaves, and the old values. -/
def Write.apply (w : Write) (rd : Nat → Byte) : Tab Byte × List Acc :=
  w.accs.foldl (fun (p : Tab Byte × List Acc) a =>
    let b (i : Nat) : Byte := match p.1.find (a.ta + i) with | some x => x | none => rd (a.ta + i)
    let old := leNat ((List.range a.len).map b)
    let bs := storedBytes [{ a with val := newValue w.kind a old }]
    (bs.foldl (fun t x => t.put x.1 x.2) p.1, p.2 ++ [{ a with old := old, left := [] }])) ([], [])

/-- A core-scope atomic on the core's own lines (R125): each lane in turn on the copy; the bytes that change are
written through. On a poisoned copy nothing changes (R159, R384). -/
def State.coreAtomic (s : State) (r : Req) : State × Req :=
  (s.nearWrites r).foldl (fun (p : State × Req) w =>
    let s := p.1
    let rd (ta : Nat) : Byte := (s.coreByte w ta).getD 0
    let dead := ((s.core w.core).l1.find w.line).elim false (·.pois)
    let (bs, olds) := ({ w with kind := r.kind } : Write).apply rd
    let bs := if dead then [] else bs.filter (fun (b : Nat × Byte) => b.2 != rd b.1)
    let s := if dead then s.consumedAt (64 * w.line) w.core w.tenant else s
    let s := { s with writes := s.writes.map (fun (x : Write) => if x.id = w.id then { x with bytes := bs, made := true } else x) }
    (s.storeToCopy w.core w.line w.id bs, p.2.takeOld (olds.map (fun a => { a with pois := dead })))) (s, r)

/-- A load, a BARV or an atomic returns its value (R138, R153, R158). -/
def returnLoad (load : Nat) (s : State) : Out :=
  match s.req load with
  | none => no "LOAD_RETURN"
  | some r =>
    let give (s : State) (r : Req) : State :=
      (s.updWarp r.warp (fun w => (w.receive r).observe r)).dropReq r.id
    if !r.started || r.returned then no "LOAD_RETURN"
    else match r.kind with
      | .load => onlyIf "LOAD_RETURN" (r.accs.all (fun a => a.left.isEmpty)) (give s r)
      -- an arrival returns its phase once it has been performed (R164)
      | .bar 1 => onlyIf "LOAD_RETURN" (!s.writes.any (fun w => w.req == r.id)) (give s r)
      | .prefetch => onlyIf "LOAD_RETURN" (r.accs.all (fun a => a.left.isEmpty)) (s.dropReq r.id)
      | .atom _ | .red _ =>
        let near (a : Acc) : Bool := isGlob a.ta && a.coreLevel r.scope
        if r.accs.all (fun a => near a || a.left.isEmpty) && (s.nearWrites r).all s.nearReady then
          let (s, r) := s.coreAtomic r
          .next (give s r)
        else no "LOAD_RETURN"
      | _ => no "LOAD_RETURN"

/-! ## Performing writes (R134, R135) -/

def fullLine (t : Tab Byte) (l : Nat) : Bool := (List.range 64).all (fun i => (t.find (64 * l + i)).isSome)

/-- A store of a whole line clears its poison; a partial store, or an update, changes nothing in a poisoned line
(R159, R384). -/
def Write.clears (w : Write) (bs : Tab Byte) : Bool :=
  !w.updates && (match w.kind with | .store | .clean 3 => true | _ => false) && fullLine bs w.line

/-- The bytes that a write leaves in the line, and the values its lanes read. -/
def Write.effect (w : Write) (rd : Nat → Byte) : Tab Byte × List Acc :=
  match w.kind with
  | .atom _ | .red _ | .bupd _ => w.apply rd
  | _ => (w.bytes, [])

/-- Old values handed to the request that returns them. -/
def State.returnOld (s : State) (w : Write) (as : List Acc) : State :=
  s.updReq w.req (fun r => r.takeOld as)

/-- The write is performed: it carries its GWCT, and its place in the order of stamps. With a fault-queue entry FQTAIL
advances (R366). -/
def State.performed (s : State) (w : Write) (bs : Tab Byte) (g : Nat) : State :=
  let n := s.clk.fresh
  let s := { s.bump with writes := s.writes.map (fun (x : Write) =>
    if x.id = w.id then { x with done := true, gwct := g, stamp := n, bytes := bs } else x) }
  let s := match w.fq with
    | some t => s.updTenant t (fun q => { q with fqtail := (q.fqtail + 1) % 2 ^ 32 })
    | none => s
  s.evalWaits w.line

/-- A write performed at the die home point, which holds the line in M or E (R134). -/
def State.performDie (s : State) (w : Write) : State :=
  let x := s.l2 w.die w.line
  let (bs, olds) := w.effect (fun ta => x.bytes.get 0 ta)
  let dead := x.pois && !w.clears bs
  let g := max (s.dieTime w.die) x.exp
  let s := if dead then s.logErr (logOf (64 * w.line)) 3 (64 * w.line) w.core w.tenant else s
  let s := s.notice w.die w.line
  let s := if isHost (64 * w.line) then
      { s with link := { s.link with writer := s.link.writer.put w.line w.tenant } } else s
  let s := s.updL2 w.die w.line (fun x =>
    ({ x with
      st := .M
      bytes := if dead then x.bytes else setBytes x.bytes bs
      pois := dead
      len := 256, wrote := true } : L2Line).policy w.pol)
  (s.returnOld w (olds.map (fun a => { a with pois := dead }))).performed w (if dead then [] else bs) g

/-- A write performed at a home that no die holds: a bank unit, the host or a peer (R135). -/
def State.performHome (s : State) (w : Write) (l g : Nat) : State :=
  let (bs, olds) := w.effect (fun ta => s.mem.get 0 (ta - 64 * w.line + 64 * l))
  let dead := s.pois.get false l && !w.clears bs
  let s := if dead then s.logErr (logOf (64 * l)) 3 (64 * l) w.core w.tenant else s
  let s := if dead then s else { s with
    mem := bs.foldl (fun m b => m.set 0 (b.1 - 64 * w.line + 64 * l) b.2) s.mem
    pois := if w.clears bs then s.pois.set false l false else s.pois }
  ((s.llcAccess l w.tenant w.pol).returnOld w (olds.map (fun a => { a with pois := dead }))).performed w bs g

/-- CCTL.wb and CCTL.wbinv (R156): dirty data goes home; after wbinv the die holds nothing. -/
def State.cleanLine (s : State) (d l : Nat) (inv : Bool) : State :=
  let x := s.l2 d l
  let dirty := x.st == .M || x.st == .O
  let s := if dirty then { s with mem := putLine s.mem x.bytes l, pois := s.pois.set false l x.pois } else s
  if inv then
    if x.st = .I then s else (((s.notice d l).updL2 d l (fun _ => {})).unshare d l)
  else if x.st = .M then s.toState d l .E
  else if x.st = .O then (s.toState d l .S).updDir l (fun e => { e with state := 1 })
  else s

/-- The dies that CCTL.wb or CCTL.wbinv concerns: one that holds the line in M or O, and for wbinv the issuing core's
(R156, log 131). -/
def State.cleanDies (s : State) (d l : Nat) (inv : Bool) : List Nat :=
  (List.range 8).filter (fun e => (s.l2 e l).st == .M || (s.l2 e l).st == .O || (inv && e == d))

/-- The die's line may be cleaned now: settled, and for wbinv with its leases over. -/
def State.canClean (s : State) (d l : Nat) (inv : Bool) : Bool :=
  let x := s.l2 d l
  (s.dirE l).trans == 0 && x.snoop.isNone &&
  (x.st == .I || x.st == .S || x.st == .E || x.st == .M || x.st == .O) && (!inv || (!x.locked && s.leasesOver d l))

/-- CCTL.wb or CCTL.wbinv carried out; its GWCT is no earlier than the leases that it waited for. -/
def State.performClean (s : State) (w : Write) (inv : Bool) : Out :=
  let ds := s.cleanDies w.die w.line inv
  onlyIf "WRITE_PERFORM" (ds.all (fun d => s.canClean d w.line inv))
    ((ds.foldl (fun s d => s.cleanLine d w.line inv) s).performed w []
      (ds.foldl (fun g d => if inv then max g (s.l2 d w.line).exp else g) (s.dieTime w.die)))

/-- A home's bank unit may carry out a request in this place of the line's queue now: every die can give the line up, and
nothing stands ahead of it (R134, R188, R194). -/
def State.homeTurn (s : State) (l key : Nat) : Bool :=
  s.canRecall l && !(s.dirE l).hostc && !s.homeAhead l key

/-- Which barrier object stands at an address, and how often it has flipped, as the dispatcher counts (R286): an object
changed by something else than the operations of R162 since is another one, with its phase as its count (log 138). -/
def State.flipsOf (s : State) (ta x : Nat) : Nat × Nat :=
  match s.flips.find ta with
  | some (y, e, n) => if y = x then (e, n) else (e + 1, bitsOf x 63 1)
  | none => (0, bitsOf x 63 1)

/-- An operation of R162 has changed an object from one value to another; BINIT makes it another object. -/
def State.noteFlip (s : State) (ta old new : Nat) (init : Bool) : State :=
  let (e, n) := s.flipsOf ta old
  let count := if init then (new, e + 1, 0) else (new, e, if bitsOf old 63 1 = bitsOf new 63 1 then n else n + 1)
  { s with flips := s.flips.put ta count }

/-- A change of a barrier object by an engine, the dispatcher or a peer, its waiters woken; those of a receiver's object
are not in this part. -/
def State.barChange (s : State) (team : Nat) (ta : Nat) (f : Bar → Bar × Option Nat) : State :=
  if isScr ta then
    let p := f (Bar.ofNat (leNat (s.scrBytes team (ta - scrBase) 16)))
    let s := s.scrPut team (ta - scrBase) (leBytes 16 p.1.toNat)
    match p.2 with
    | some st => s.wakeAll ta (some team) st
    | none => s
  else if isRcv ta then
    { s with mem := writeBytes s.mem ta (leBytes 16 (f (Bar.ofNat (leNat (readBytes s.mem ta 16)))).1.toNat) }
  else
    let s := s.recall (lineOf ta)
    if s.pois.get false (lineOf ta) then s.logErr (logOf ta) 3 (64 * lineOf ta) 0 0
    else
      let x := s.curNat ta 16
      let p := f (Bar.ofNat x)
      let s := (({ s with mem := writeBytes s.mem ta (leBytes 16 p.1.toNat) }).noteFlip ta x p.1.toNat false).evalWaits (lineOf ta)
      match p.2 with
      | some st => s.wakeAll ta none st
      | none => s

/-- A write performed at its home with a GWCT (R134, R135). -/
def execWritePerform (write : Nat) (s : State) : Out :=
  match s.writes.find? (fun w => w.id == write) with
  | none => no "WRITE_PERFORM"
  | some w =>
    let x := s.l2 w.die w.line
    if w.done || !s.firstWrite w then no "WRITE_PERFORM"
    else match w.kind, w.place with
      | .clean 1, _ => s.performClean w false
      | .clean 2, _ => s.performClean w true
      | .bar op, _ =>
        match s.req w.req, w.accs with
        | some r, a :: _ =>
          if s.homeTurn w.line w.key then
            let s := s.recall w.line
            let x := s.curNat a.ta 16
            let (v, s) := s.barOp r op a none x
            let dead := s.pois.get false w.line
            let s := if dead then s.logErr (logOf a.ta) 3 (64 * w.line) w.core w.tenant
              else ({ s with mem := writeBytes s.mem a.ta (leBytes 16 v) }).noteFlip a.ta x v (op == 0)
            let s := { s with writes := s.writes.filter (fun (y : Write) => y.id != w.id) }
            .next (s.evalWaits w.line)
          else no "WRITE_PERFORM"
        | _, _ => .next { s with writes := s.writes.filter (fun (y : Write) => y.id != w.id) }
      | .barAdd, _ => match w.accs with
        | a :: _ => onlyIf "WRITE_PERFORM" (s.homeTurn w.line w.key)
            ({ s with writes := s.writes.filter (fun (y : Write) => y.id != w.id) }.barChange 0 a.ta (fun b => b.addBytes a.val))
        | [] => .next { s with writes := s.writes.filter (fun (y : Write) => y.id != w.id) }
      | _, .die => onlyIf "WRITE_PERFORM" (x.st == .M || x.st == .E) (s.performDie w)
      | _, .bank => onlyIf "WRITE_PERFORM" (s.homeTurn w.line w.key)
          ((s.recall w.line).performHome w w.line (s.dieTime (stackOf w.line)))
      | _, .host => onlyIf "WRITE_PERFORM"
          (s.canRecall w.line && !s.homeAhead w.line w.key && !s.link.down && s.carries (hostStream w.tenant (w.accs.any (fun a => a.unc))))
          (((s.pushPosted.recall w.line).updDir w.line (fun e => { e with host := 0 })).performHome w w.line s.clk.time)
      | _, .peer => .next (s.performHome w w.line s.clk.time)
      | _, .redwin => .next (s.performHome w (w.line - redBase / 64 + peerBase / 64) s.clk.time)
      | _, .posted => no "WRITE_PERFORM"

/-- A posted write enters the egress queue, which acknowledges it (R196). -/
def execPostedWriteAck (write : Nat) (s : State) : Out :=
  match s.writes.find? (fun w => w.id == write) with
  | none => no "POSTED_WRITE_ACK"
  | some w =>
    if w.done || w.place ≠ .posted || !s.firstWrite w || s.link.down then no "POSTED_WRITE_ACK"
    else
      let s := { s with link := { s.link with egress := s.link.egress ++ [({ id := w.id, warp := w.src, relaxed := !w.strict, bytes := w.bytes } : Posted)] } }
      let s := if w.op.isNone then s.updWarp w.src (fun u => { u with posted := some w.id }) else s
      .next (s.performed w w.bytes (s.dieTime 8))

/-- The read behind a warp's last posted write has completed: it has pushed every write ahead of it (R196). -/
def execFlushDone (warp : Nat) (s : State) : Out :=
  match (s.warp warp).posted with
  | none => no "FLUSH_DONE"
  | some _ =>
    if s.link.down || !s.carries (s.warp warp).tenant then no "FLUSH_DONE"
    else .next (s.pushPosted.updWarp warp (fun u => { u with posted := none }))

/-- Which gwct registers a write raises (R135). -/
def Warp.raiseGwct (w : Warp) (p : Place) (host : Bool) (unc : Bool) (g : Nat) : Warp :=
  let only := p == .posted || p == .peer || p == .redwin || (host && unc)
  { w with
    gDie := if only then w.gDie else max w.gDie g
    gDev := if only then w.gDev else max w.gDev g
    gSys := max w.gSys g }

/-- An acknowledgement's bytes in the issuing core's lease copy (R134). -/
def State.ackCopy (s : State) (w : Write) : State :=
  s.updCore w.core (fun x => { x with l1 := x.l1.upd w.line (fun p =>
    if w.place ≠ .die ∨ w.op.isSome ∨ w.stamp < p.stamp then p
    else { p with bytes := w.bytes.foldl (fun t b => if p.upd.get 0 b.1 ≤ w.id then t.set 0 b.1 b.2 else t) p.bytes }) })

/-- A performed write acknowledged (R135); an engine's acknowledgement goes to its operation (R144). -/
def State.ackWrite (s : State) (w : Write) : State :=
  let unc := w.accs.any (fun a => a.unc)
  let s := { (s.ackCopy w) with writes := s.writes.filter (fun (x : Write) => x.id != w.id) }
  let s := match w.warp with
    | some u => s.updWarp u (fun v => { (v.raiseGwct w.place (isHost (64 * w.line)) unc w.gwct) with wpend := v.wpend - 1 })
    | none => s
  let s := match w.op with
    | some o => s.updOp o (fun e => { e with
        gmax := max e.gmax w.gwct
        adds := e.adds.map (fun (a : Nat × Nat × List Nat) =>
          if a.2.2.contains w.id then (a.1, max a.2.1 w.gwct, a.2.2.filter (fun i => i != w.id)) else a) })
    | none => s
  -- operations that captured the write wait for its GWCT as well (R143)
  { s with ops := s.ops.map (fun (e : EngOp) =>
    if e.caught.contains w.id then
      { e with caught := e.caught.filter (fun i => i != w.id)
               gcap := if e.scope = .warp ∨ e.scope = .core then e.gcap else max e.gcap w.gwct }
    else e) }

/-- An acknowledgement arrives. -/
def execWriteAck (write : Nat) (s : State) : Out :=
  match s.writes.find? (fun w => w.id == write) with
  | none => no "WRITE_ACK"
  | some w => onlyIf "WRITE_ACK" w.done (s.ackWrite w)

end Sys2Proof.Machine
end

