-- ==== Sys2Proof/Machine/Memory.lean ====
section
/-! DEFINITION. Class 0x5: LD, ST, PRF, FENCE and CCTL (R146 to R156), with the checks of R148, the
scratchpad violations of R127, and what regions (R204 to R207) and ways (R315) make of them. -/

namespace Sys2Proof.Machine

/-! ## Accesses -/

/-- What an access reaches, as a target address. -/
def Tgt.addr : Tgt → Nat
  | .scr o => scrBase + o
  | .regw o => regBase + o
  | .ctl o => o
  | .mem ta _ => ta

def Tgt.uncached : Tgt → Bool
  | .mem _ u => u
  | _ => false

/-- The accesses of an instruction, past the tests of R148 up to the leaf target. -/
def State.accs (s : State) (f : OpM) (w : Want) (n kind : Nat) (off : Int) : Except Trap (List Acc) :=
  match s.resolve s.who.warp w (s.addrs f off) n kind with
  | .error t => .error (s.widen f.com.u t)
  | .ok ts => .ok (ts.map (fun p =>
      { lane := p.1, ta := p.2.addr, len := n, unc := p.2.uncached, left := List.range n }))

/-- A trap of some lanes of a memory instruction, with their addresses. -/
def State.accTrap (s : State) (f : OpM) (off : Int) (cause kind : Nat) (bad : List Nat) : Trap :=
  s.widen f.com.u
    { cause := cause, lanes := maskOf bad, kind := kind,
      addr := bad.foldl (fun t l => t.set 0 l (BitVec.ofNat 64 (s.addrOf f off l))) [] }

/-- In-region lanes that reach what a region may not, or all of them where the instruction is not permitted: at its
place after translation (R202). -/
def State.regionTrap (s : State) (f : OpM) (off : Int) (kind : Nat) (never : Bool) (as : List Acc) : Option Trap :=
  let inR (l : Nat) : Bool := if f.com.u then s.regionLanes s.active != 0 else (s.regionLanes s.active).getLsbD l
  match as.filter (fun a => inR a.lane && (never || !isDev a.ta)) with
  | [] => none
  | bad => some (s.accTrap f off 0x11 kind (bad.map (·.lane)))

/-- The lanes whose scratchpad access fails, with their codes; a U form's is every active lane's (R126, R127). -/
def State.scrFails (s : State) (f : OpM) (rd : Bool) (as : List Acc) : List (Nat × Nat) :=
  let bad := (as.filter (fun a => isScr a.ta)).filterMap (fun a =>
    let c := s.scrCode s.wWarp.team (a.ta - scrBase) a.len rd
    if c = 0 then none else some (a.lane, c))
  match f.com.u, bad with
  | true, (_, c) :: _ => (lanesOf s.active).map (fun l => (l, c))
  | _, bad => bad

def dropFailed (fails : List (Nat × Nat)) (as : List Acc) : List Acc :=
  as.filter (fun a => !fails.any (fun p => p.1 == a.lane))

/-- Two bits of sfmask; a lane holds only its first code (R127). -/
def setCode (m : Double) (l c : Nat) : Double :=
  if m.extractLsb' (2 * l) 2 = 0 then m ||| (BitVec.ofNat 64 c <<< (2 * l)) else m

/-- Failing lanes are switched off: exited, and out of every mask and token (R127, R51). -/
def State.switchOff (s : State) (fails : List (Nat × Nat)) : State :=
  if fails.isEmpty then s else
  let m := maskOf (fails.map (·.1))
  let s := s.updArch (fun a =>
    { a with
      sfmask := fails.foldl (fun x p => setCode x p.1 p.2) a.sfmask
      exited := a.exited ||| m })
  s.putSlices ((slicesOf s.gang.slices).map (fun i =>
    let x := (s.arch.slice i).remove (sliceBits m i) none
    (i, if x.mask = 0 then x.settle else x)))

/-! ## Operand data (R410) -/

/-- Some registers, the lowest first, as one number. -/
def regsNat (n k : Nat) (rd : Nat → Word) : Nat := leWords ((List.range k).map (fun i => (rd (n + i)).toNat))
where
  leWords : List Nat → Nat
    | [] => 0
    | x :: r => x + 2 ^ 32 * leWords r

/-- A source that carries data, at the access size. -/
def State.dataOf (s : State) (l : Nat) (sz : Size) (x : Src) : Nat :=
  let w := s.wWarp
  let k := s.who.way
  (match x with
    | .v n => regsNat n.val sz.regs (fun r => w.getV k true r l)
    | .g n => regsNat n.val sz.regs (fun r => w.getG k true r)
    | .imm n => (n.toInt % 2 ^ (8 * sz.bytes)).toNat
    | x => (s.src32 l x).toNat) % 2 ^ (8 * sz.bytes)

/-! ## Poison (R384) -/

/-- The data that an access would read now is poisoned. -/
def State.accPoison (s : State) (r : Req) (a : Acc) : Bool :=
  if isScr a.ta then
    let o := a.ta - scrBase
    (List.range a.len).any (fun i => (s.team s.wWarp.team).pois.get false ((o + i) / 8))
  else if isRegw a.ta then (List.range a.len).any (fun i => s.arch.vpois.get false ((a.ta - regBase + i) / 8))
  else if isCtl a.ta then false
  else if (a.gather (s.nearByte r a)).left.isEmpty then
    !r.nl1 && (match s.liveCopy r.core (lineOf a.ta) r.fence with | some p => p.pois | none => false)
  else s.bytesPoison a.ta a.len

/-- Poison consumed: logged, with the trap (R148, R385). -/
def State.poisonTrap (s : State) (f : OpM) (off : Int) (kind : Nat) (r : Req) (as : List Acc) : Option (State × Trap) :=
  match as.filter (s.accPoison r) with
  | [] => none
  | bad =>
    let s' := (bad.filter (fun a => isGlob a.ta)).foldl
      (fun s a => s.logErr (logOf a.ta) 3 (64 * lineOf a.ta) s.wWarp.core s.wWarp.tenant) s
    some (s', s.accTrap f off 0x0F kind (bad.map (·.lane)))

/-! ## Regions -/

def RStore.at' : RStore → Nat
  | .deferred ta _ _ | .buffered ta _ => ta
def RStore.len : RStore → Nat
  | .deferred _ n _ => n
  | .buffered _ bs => bs.length

def Region.obs (g : Region) (i : Nat) : Nat := (g.syms.getD i ⟨0, 4, 0⟩).obs

/-- A load's lane in an open region (R204); `plain` where the destination takes no tag. A lane dooms its
region where a limit is reached, and loads on as an ordinary load. -/
def Region.load (g : Region) (a : Acc) (plain : Bool) : Region × Acc :=
  let far : Acc := { a with home := true }
  if g.doom ≠ 0 then (g, far) else
  let exact (i : Nat) (b : Acc) : Region × Acc :=
    let h := g.constrain (.exact i)
    if h.doom = 0 then (h, b) else (h, far)
  match (g.stores.filter (fun r => r.at' < a.ta + a.len && a.ta < r.at' + r.len)).getLast? with
  | some (.buffered ta bs) =>
    if ta ≤ a.ta ∧ a.ta + a.len ≤ ta + bs.length then
      (g, { a with old := leNat ((bs.drop (a.ta - ta)).take a.len), left := [] })
    else ({ g with doom := 6 }, far)
  | some (.deferred ta n t) =>
    if ta ≤ a.ta ∧ a.ta + a.len ≤ ta + n then
      let v := (g.obs t.sym + t.k.toNat) % 256 ^ n / 256 ^ (a.ta - ta) % 256 ^ a.len
      if ta = a.ta ∧ n = a.len ∧ !plain then (g, { a with old := v, left := [], tag := some (t.sym, t.k.toNat) })
      else exact t.sym { a with old := v, left := [] }
    else ({ g with doom := 6 }, far)
  | none =>
    let taggable := (a.len == 4 || a.len == 8) && !plain
    match g.syms.findIdx? (fun y => y.ta == a.ta && y.len == a.len) with
    | some i =>
      let b := { a with old := g.obs i, left := [] }
      if taggable then (g, { b with tag := some (i, 0) }) else exact i b
    | none =>
      let i := g.syms.length
      if 4 ≤ i then ({ g with doom := 2 }, far) else
      let h := { g with syms := g.syms ++ [⟨a.ta, a.len, 0⟩] }
      if taggable then (h, { far with obs := some i, tag := some (i, 0) })
      else
        let h := h.constrain (.exact i)
        if h.doom = 0 then (h, { far with obs := some i }) else (h, far)

/-- The lanes whose regions an access belongs to: its own, or for a U form every one that is in a region, the lowest
last (R211). -/
def State.regionsOfAcc (s : State) (u : Bool) (l : Nat) : List Nat :=
  let rs := s.regionLanes s.active
  if u then (lanesOf rs).reverse else if rs.getLsbD l then [l] else []

/-- Lines added to a core's read or write signature (R208). -/
def State.sign (s : State) (rd : Bool) (ls : List Nat) : State :=
  s.updCore s.wWarp.core (fun c =>
    if rd then { c with rsig := signAdd c.rsig ls } else { c with wsig := signAdd c.wsig ls })

def State.setRegion (s : State) (l : Nat) (g : Region) : State :=
  s.updMy (fun w => { w with regions := w.regions.upd l (fun _ => g) })

/-- One lane's part of a load in its region. -/
def State.laneLoad (s : State) (f : OpM) (a : Acc) (l : Nat) : State × Acc :=
  match s.wWarp.regions.find l with
  | none => (s, a)
  | some g =>
    let plain := match f.dst with | .v _ | .discard => f.com.u | _ => true
    let (g, b) := g.load { a with lane := l } plain
    let s := s.setRegion l g
    (if b.obs.isSome then s.sign true [lineOf b.ta] else s, b)

/-- The in-region lanes of a load; the value of a U form is the lowest such lane's (R39). -/
def State.regionLoad (s : State) (f : OpM) (as : List Acc) : State × List Acc :=
  as.foldl (fun (p : State × List Acc) a =>
    match p.1.regionsOfAcc f.com.u a.lane with
    | [] => (p.1, p.2 ++ [a])
    | ls => ls.foldl (fun (q : State × List Acc) l =>
        let x := q.1.laneLoad f a l
        (x.1, q.2 ++ [x.2])) p) (s, [])

/-- A symbol's value that is still on its way holds back its lane's next load. -/
def State.obsPending (s : State) (u : Bool) (as : List Acc) : Bool :=
  as.any (fun a => (s.regionsOfAcc u a.lane).any (fun l =>
    s.reqs.any (fun r => r.warp == s.who.warp && r.accs.any (fun b => b.lane == l && b.obs.isSome))))

/-- Lines with buffered stores, over all regions of a warp (R207). -/
def Warp.bufLines (w : Warp) : List Nat :=
  distinct (w.regions.flatMap (fun p => p.2.stores.filterMap (fun r => match r with
    | .buffered ta _ => some (lineOf ta)
    | .deferred _ _ _ => none)))

/-- A store's lane in an open region (R205, R206): deferred, or buffered where its line has room. -/
def Region.store (g : Region) (f : OpM) (a : Acc) (room : Bool) : Region :=
  if g.doom ≠ 0 then g else
  let pol := g.pols.set 0 (lineOf a.ta) f.cache.val
  let addr := g.read (srcLoc f.a) 2 ++ g.read (srcLoc f.c) 1
  let tag := if addr.isEmpty && (f.size == .word || f.size == .double) then
    g.tagOf f.b (if f.size == .double then .u64 else .u32) else none
  match tag with
  | some t =>
    if (g.stores.filter (fun r => match r with | .deferred _ _ _ => true | _ => false)).length < 8 then
      { g with stores := g.stores ++ [.deferred a.ta a.len t], pols := pol }
    else { g with doom := 4 }
  | none =>
    let g := g.exactAll (g.read (srcLoc f.b) f.size.regs)
    if g.doom ≠ 0 then g
    else if room then { g with stores := g.stores ++ [.buffered a.ta (leBytes a.len a.val)], pols := pol }
    else { g with doom := 5 }

/-- One lane's part of a store in its region. -/
def State.laneStore (s : State) (f : OpM) (a : Acc) (l : Nat) : State :=
  match s.wWarp.regions.find l with
  | none => s
  | some g =>
    let lines := s.wWarp.bufLines
    let room := lines.contains (lineOf a.ta) || lines.length < 32
    let h := g.store f a room
    let s := s.setRegion l h
    if h.stores.length = g.stores.length then s else s.sign false [lineOf a.ta]

/-- The in-region lanes of a store; the others are left. -/
def State.regionStore (s : State) (f : OpM) (as : List Acc) : State × List Acc :=
  as.foldl (fun (p : State × List Acc) a =>
    match p.1.regionsOfAcc f.com.u a.lane with
    | [] => (p.1, p.2 ++ [a])
    | ls => (ls.foldl (fun s l => s.laneStore f a l) p.1, p.2)) (s, [])

/-! ## Ways (R313, R315) -/

/-- Registers that accesses through the register window reach, as keys of the read and write sets. -/
def windowKeys (as : List Acc) : List Nat :=
  (as.filter (fun a => isRegw a.ta)).flatMap (fun a =>
    (List.range ((a.ta % 4 + a.len + 3) / 4)).map (fun i => (a.ta - regBase) / 4 + i))

/-- Blocks and registers that the way's body loads, and those it writes. -/
def State.noteReads (s : State) (as : List Acc) : State :=
  s.updWay (fun y =>
    let y := y.track (windowKeys as) []
    if y.st = 2 then
      { y with sig := signAdd y.sig ((as.filter (fun a => isGlob a.ta || isScr a.ta)).map (fun a => lineOf a.ta)) }
    else y)

def State.noteWrites (s : State) (as : List Acc) : State :=
  s.updWay (fun y =>
    let y := y.track [] (windowKeys as)
    { y with blocks := distinct (y.blocks ++ (as.filter (fun a => isGlob a.ta || isScr a.ta)).map (fun a => lineOf a.ta)) })

/-- A young way's store kept in its lines; none where a 129th is needed. The lines keep its cache policy until they are
written through (R151). -/
def State.bufferStore (s : State) (pol : Nat) (as : List Acc) : Option State :=
  match s.wWarp.way? s.who.way with
  | none => none
  | some y =>
    let glob := as.filter (fun a => isGlob a.ta)
    let lines := storedBytes glob
    let all := lines.foldl (fun t p => t.put p.1 p.2) y.lines
    if 128 < (distinct (all.map (fun p => p.1 / 64))).length then none
    else
      let unc := distinct (y.unc ++ (glob.filter (fun a => a.unc)).map (fun a => lineOf a.ta))
      let pols := glob.foldl (fun t a => t.set 0 (lineOf a.ta) pol) y.pols
      some ((s.updWay (fun y => { y with lines := all, unc := unc, pols := pols })).noteWrites as)

/-! ## The instructions -/

/-- A request of a memory instruction. -/
def mreq (f : OpM) (k : ReqKind) (as : List Acc) : Req :=
  { id := 0, warp := 0, kind := k, scope := f.scope, order := f.order, accs := as, dst := f.dst, size := f.size,
    u := f.com.u, nl1 := f.cache == 1, pol := f.cache.val }

/-- LD (R148, R153). -/
def State.load (s : State) (f : OpM) : Eff :=
  match s.accs f wantLdSt f.size.bytes 0 (OpM.off24 f) with
  | .error t => s.walkTrap f (OpM.off24 f) t
  | .ok as =>
    let s := s.noteAccess f (OpM.off24 f)
    match s.regionTrap f (OpM.off24 f) 0 (f.order != .relaxed) as with
    | some t => .trapFrom s t
    | none =>
      let fails := s.scrFails f true as
      let as := dropFailed fails as
      if !fails.isEmpty && s.youngWay then .oldest
      else if s.obsPending f.com.u as then .wait
      else match s.poisonTrap f (OpM.off24 f) 0 (s.newReq (mreq f .load as)) as with
        | some (s', t) => .trapFrom s' t
        | none =>
          let s := s.useTags (usesM f 2 0 1 f.size.regs) (s.workLanes f.com)
          let (s, as) := s.regionLoad f as
          let s := s.noteReads as
          let id := s.clk.fresh
          if as.isEmpty then .done (s.advance.switchOff fails)
          else s.submit (mreq f .load as) (fun s =>
            ((s.await id f.dst f.size.regs (maskOf (as.map (·.lane)))).advance).switchOff fails)

def execLd (f : OpM) (s : State) : Out := .next (s.issue (.ld f) (fun s => s.load f))

/-- The lanes that store to a tenant block from a core (R374). -/
def blockStores (as : List Acc) : List Nat := (as.filter (fun a => isCtl a.ta && isBlock a.ta)).map (·.lane)

/-- ST (R148, R149, R153). -/
def State.store (s : State) (f : OpM) : Eff :=
  match s.accs f wantLdSt f.size.bytes 1 (OpM.off24 f) with
  | .error t => s.walkTrap f (OpM.off24 f) t
  | .ok as =>
    let s := s.noteAccess f (OpM.off24 f)
    match s.regionTrap f (OpM.off24 f) 1 (f.order != .relaxed) as, blockStores as with
    | some t, _ => .trapFrom s t
    | none, l :: r => .trapFrom s (s.accTrap f (OpM.off24 f) 0x0D 1 (l :: r))
    | none, [] =>
      if s.guessing || (s.youngWay && (f.order != .relaxed || as.any (fun a => isScr a.ta))) then .oldest
      else
        let fails := s.scrFails f false as
        let as := (dropFailed fails as).map (fun a => { a with val := s.dataOf a.lane f.size f.b, left := [] })
        let s := s.useTags (usesM f 2 0 1 0) (s.workLanes f.com)
        let (s, as) := s.regionStore f as
        if s.youngWay then
          -- it waits behind what its gang still holds, whose bytes it must not hide (R136, R411)
          if s.windowWaits (s.newReq (mreq f .store as)) || !(s.newReq (mreq f .store as)).behind.isEmpty then .wait
          else match s.bufferStore f.cache.val as with
          | none => .oldest
          | some s => .done (((s.updateLocal (s.newReq (mreq f .store as))).1).advance)
        else
          let s := s.noteWrites as
          if as.isEmpty then .done (s.advance.switchOff fails)
          else s.submit (mreq f .store as) (fun s => s.advance.switchOff fails)

def execSt (f : OpM) (s : State) : Out := .next (s.issue (.st f) (fun s => s.store f))

/-- PRF: a lane that fails any check is dropped (R148, R154), one that names the register window among them (log
125). -/
def State.prefetch (s : State) (f : OpM) : Eff :=
  let ok (p : Nat × Nat) : Option Acc :=
    match s.resolve s.who.warp wantPrf [p] 1 0 with
    | .ok [(l, t)] =>
      let a : Acc := { lane := l, ta := t.addr, len := 1, unc := t.uncached, left := [0] }
      let inR := !(s.regionsOfAcc f.com.u l).isEmpty
      if a.unc || (inR && !isDev a.ta) || s.bytesPoison a.ta 1 || s.poisoned (usesM f 2 0 1 0) (maskOf [l]) then none
      else some a
    | _ => none
  let as := (s.addrs f (OpM.off24 f)).filterMap ok
  let s := ((s.noteAccess f (OpM.off24 f)).useTags (usesM f 2 0 1 0) (s.workLanes f.com)).noteReads as
  if as.isEmpty then .done s.advance else s.submit (mreq f .prefetch as) State.advance

def execPrf (f : OpM) (s : State) : Out := .next (s.issue (.prf f) (fun s => s.prefetch f))

/-- FENCE (R140, R155). -/
def execFence (f : OpM) (s : State) : Out :=
  .next (s.issue (.fence f) (fun s => s.noRegion f.com (fun s => s.oldestOnly (fun s =>
    if f.scope = .warp then .done s.advance else s.submit (mreq f .fence []) State.advance))))

/-- CCTL with an address (R156). -/
def State.cctl (s : State) (i : Instr) (f : OpM) (op : Nat) : State :=
  s.issue i (fun s => s.oldestOnly (fun s =>
    match s.accs f wantPrf (if op = 3 then 64 else 1) (if op = 3 then 1 else 0) (OpM.off24 f) with
    | .error t => s.walkTrap f (OpM.off24 f) t
    | .ok as =>
      let as := as.map (fun a => { a with left := [] })
      let s := s.noteAccess f (OpM.off24 f)
      match s.regionTrap f (OpM.off24 f) (if op = 3 then 1 else 0) true as with
      | some t => .trapFrom s t
      | none =>
        let s := if op = 3 then s.noteWrites as else s
        s.submit { mreq f (.clean op) as with nl1 := false, pol := 0 } State.advance))

def execCctlInv (f : OpM) (s : State) : Out := .next (s.cctl (.cctlInv f) f 0)
def execCctlWb (f : OpM) (s : State) : Out := .next (s.cctl (.cctlWb f) f 1)
def execCctlWbinv (f : OpM) (s : State) : Out := .next (s.cctl (.cctlWbinv f) f 2)
def execCctlZero (f : OpM) (s : State) : Out := .next (s.cctl (.cctlZero f) f 3)

def execCctlInvall (f : OpM) (s : State) : Out :=
  .next (s.issue (.cctlInvall f) (fun s => s.noRegion f.com (fun s => s.oldestOnly (fun s =>
    s.submit { mreq f (.clean 4) [] with nl1 := false, pol := 0 } State.advance))))

end Sys2Proof.Machine
end

