-- ==== Sys2Proof/Machine/Atomic.lean ====
section
/-! DEFINITION. Class 0x6: ATOM, CAS, RED and BUPD (R157 to R160). -/

namespace Sys2Proof.Machine

/-- The operation code of ATOM, RED and BUPD, OFFSET24[23:20] (R157). -/
def atomCode (f : OpM) : Nat := (f.off.extractLsb' 20 4).toNat

/-- An atomic instruction: its checks, then its request with a lane's operands. `traps` where poisoned data
stops it (R384). -/
def State.atomic (s : State) (i : Instr) (f : OpM) (w : Want) (off : Int) (k : ReqKind) (traps : Bool)
    (val cmp : State → Nat → Nat) : State :=
  s.issue i (fun s => s.oldestOnly (fun s =>
    match s.accs f w f.size.bytes 1 off with
    | .error t => s.walkTrap f off t
    | .ok as =>
      let s := s.noteAccess f off
      match s.regionTrap f off 1 true as with
      | some t => .trapFrom s t
      | none =>
      let fails := s.scrFails f true as
      let as := (dropFailed fails as).map (fun a => { a with val := val s a.lane, cmp := cmp s a.lane })
      match (if traps then s.poisonTrap f off 1 (s.newReq (mreq f k as)) as else none) with
      | some (s', t) => .trapFrom s' t
      | none =>
        let s := (s.noteReads as).noteWrites as
        let id := s.clk.fresh
        if as.isEmpty then .done (s.advance.switchOff fails)
        else s.submit { mreq f k as with nl1 := false, pol := 0 } (fun s =>
          ((if traps then s.await id f.dst f.size.regs (maskOf (as.map (·.lane))) else s).advance).switchOff fails)))

def execAtom (f : OpM) (s : State) : Out :=
  .next (s.atomic (.atom f) f (wantAtom (f.dst == .discard && atomCode f != 8)) (OpM.off20 f) (.atom (atomCode f)) true
    (fun s l => s.dataOf l f.size f.b) (fun _ _ => 0))

/-- CAS compares with SB and writes SC; its operation code in a request is 16. -/
def execCas (f : OpM) (s : State) : Out :=
  .next (s.atomic (.cas f) (noIndex f) (wantAtom false) (OpM.off24 f) (.atom 16) true
    (fun s l => s.dataOf l f.size f.c) (fun s l => s.dataOf l f.size f.b))

def execRed (f : OpM) (s : State) : Out :=
  .next (s.atomic (.red f) f (wantAtom true) (OpM.off20 f) (.red (atomCode f)) false
    (fun s l => s.dataOf l f.size f.b) (fun _ _ => 0))

def execBupd (f : OpM) (s : State) : Out :=
  .next (s.atomic (.bupd f) f wantBupd (OpM.off20 f) (.bupd (atomCode f)) false
    (fun s l => s.dataOf l f.size f.b) (fun _ _ => 0))

end Sys2Proof.Machine
end

