-- ==== Sys2Proof/Machine/Engine.lean ====
section
/-! DEFINITION. What engine operations share (R143 to R145, R170 to R175): issue, what their addresses reach,
reads and writes, barrier bytes, errors and suspension, the token. -/

namespace Sys2Proof.Machine

/-! ## Issue (R143, R170) -/

/-- Engine operations of a warp in flight. -/
def State.opsOf (s : State) (u : Nat) : List EngOp := s.ops.filter (fun o => o.warp == u)

def Dst.gNum : Dst → Option Nat
  | .g n => some n.val
  | _ => none

/-- A new operation of the issuing warp. -/
def State.newOp (s : State) (cls func : Nat) (f : OpT) : EngOp :=
  let w := s.wWarp
  { id := s.clk.fresh, cls := cls, func := func, warp := s.who.warp, team := w.team, inst := w.inst, core := w.core,
    asd := w.asd, root := w.root, sup := s.inHandler, scope := f.scope, tok := Dst.gNum f.tok, way := s.who.way
    loop := w.loop.map (fun l => (l.id, l.done))
    tenant := w.tenant, opf := f.opf.toNat, prio := ((s.inst w.inst).map (·.prio)).getD 0 }

/-- An operation that a copy engine runs (R20, R330). -/
def EngOp.copies (o : EngOp) : Bool := o.cls == 8 || o.cls == 0xF || (o.cls == 0xA && o.func == 2)

/-- An operation that stands in its copy engine's queue and could run: past its own queue, not suspended, not at its
follow-on. -/
def EngOp.standing (o : EngOp) : Bool :=
  o.copies && o.queued && o.code.isNone && !o.tile && !o.susp && !o.away && o.susc == 0

/-- The engine of a die with the fewest operations in flight, the lowest among equals; the spec leaves the choice
open (log 55). -/
def State.pickEngine (s : State) (die : Nat) : Nat :=
  let load (k : Nat) : Nat := (s.ops.filter (fun o => o.copies && o.core / 64 == die && o.engine == k && o.code.isNone)).length
  (List.range 8).foldl (fun best k => if load k < load best then k else best) 0

/-- Nothing that could run stands before the operation in its engine's queue (R129, R170). -/
def State.engineTurn (s : State) (o : EngOp) : Bool :=
  !s.ops.any (fun e => e.standing && e.core / 64 == o.core / 64 && e.engine == o.engine &&
    (e.enter < o.enter || (e.enter == o.enter && e.id < o.id)))

/-- A way's engine may write any block: this one hits every signature that holds a block (R313). -/
def anyBlock : Nat := 2 ^ 80

/-- The operation issues: it holds its token register and its root, and enters its queue once the gang's queue
lets it go (R411); a 33rd of the warp waits at issue. -/
def State.engIssue (s : State) (o : EngOp) (tok : Dst) : Eff :=
  if 32 ≤ (s.opsOf o.warp).length then .wait
  else
    let o := { o with engine := s.pickEngine (o.core / 64) }
    let s := ({ s.bump with ops := s.ops ++ [o] }.pin o.root).await o.id tok 1 0
    let s := s.updWay (fun y => { y with blocks := distinct (y.blocks ++ [anyBlock]) })
    s.submit { id := 0, warp := 0, kind := .engine o.id, scope := o.scope } State.advance

/-- An instruction of classes 0x8 to 0xD that issues as one operation. -/
def State.engine (s : State) (i : Instr) (f : OpT) (go : State → Eff) : State :=
  s.issue i (fun s => s.noRegion f.com (fun s => s.oldestOnly go))

/-- A count, length, size or offset in SB or SC, read as u32. -/
def State.u32Of (s : State) (x : Src) : Nat := (s.src32 s.uLane x).toNat

/-- The signed offsets of the flat fields, in bytes (R169). -/
def OpT.doff (f : OpT) : Int := 16 * (f.opf.extractLsb' 8 8).toInt
def OpT.soff (f : OpT) : Int := 16 * (f.opf.extractLsb' 0 8).toInt

/-- The barrier address of the flat fields. -/
def State.flatBar (s : State) (f : OpT) : Option Nat :=
  let x := f.opf.toNat
  if x.testBit 29 then
    let n := 2 * bitsOf x 24 5
    let rd (k : Nat) : Nat := (s.wWarp.getG s.who.way true k).toNat
    some (addr64 ((rd n + 2 ^ 32 * rd (n + 1) + 16 * bitsOf x 16 8 : Nat) : Int))
  else none

/-- Bytes of the scratchpad window that a span names. -/
def scrSpan (va n : Nat) : List (Nat × Nat) :=
  match regionAt va with
  | .scr => if n = 0 then [] else [(offIn va, n)]
  | _ => []

/-! ## When an engine may read (R143) -/

def State.mayRead (s : State) (o : EngOp) : Bool :=
  o.queued && o.caught.isEmpty &&
  (o.scope == .warp || o.scope == .core || o.gcap + 4 ≤ s.dieTime (o.core / 64))

/-! ## What an address reaches (R171, R172, R174) -/

/-- What ends an element: a token code, or a fault that the stub runtime resolves. -/
inductive Stop where
  | code (c : Nat)
  | fault (cause va : Nat)
  | poison (ta : Option Nat)     -- poison was read, in a line where it has a target address (R384)
  | wait                         -- the host's stream carries no traffic yet (R382)
  deriving DecidableEq, Repr

/-- Where bytes lie. -/
inductive ELoc where
  | scr (off : Nat)
  | glob (ta : Nat) (unc : Bool)
  deriving DecidableEq, Repr

/-- The token code of a trap cause, or the fault that suspends the engine. -/
def stopOf (cause va : Nat) : Stop :=
  if cause = 0x0B ∨ cause = 0x0C ∨ cause = 0x0E then .fault cause va
  else if cause = 0x0A then .code 3
  else if cause = 0x15 then .code 6
  else .code 2

/-- What some bytes of one line name, before any other part is asked for them; kind 0 read, 1 write. R121 gives an
address in the register window cause 0x0D; for a copy, whose addresses no lane forms, R172 gives code 0x02, which is
taken (log 125). -/
def State.engReach (s : State) (o : EngOp) (va n kind : Nat) : Except Stop ELoc :=
  match regionAt va with
  | .glob => match s.translate (s.root o.root) (!o.sup) va kind with
    | .ok l => if isRed l.ta then .error (.code 2) else .ok (.glob l.ta l.unc)
    | .error c => .error (stopOf c va)
  | .scr => if offIn va + n ≤ (s.team o.team).size then .ok (.scr (offIn va)) else .error (.code 7)
  | .phys =>
    if !o.sup || ctlBase ≤ offIn va || s.stackAbsent (offIn va / 2 ^ 36) then .error (.code 2)
    else .ok (.glob (offIn va) false)
  | _ => .error (.code 2)

/-- Some bytes of one line: a peer may turn the access away, and a host's waits for the keys of its stream (R382). -/
def State.engLoc (s : State) (o : EngOp) (va n kind : Nat) : Except Stop ELoc :=
  match s.engReach o va n kind with
  | .ok (.glob ta unc) =>
    if isPeer ta && Config.peerAnswer s.clk.time ta % 2 = 1 then .error (.code 0x0A)
    else if isHost ta && !s.carries (hostStream o.tenant unc) then .error .wait
    else .ok (.glob ta unc)
  | r => r

/-- A span cut at line boundaries: addresses and lengths; the first argument bounds their number. -/
def cutSpan : Nat → Nat → Nat → List (Nat × Nat)
  | 0, _, _ => []
  | k + 1, va, n =>
    if n = 0 then [] else
    let m := min (64 - va % 64) n
    (va % 2 ^ 64, m) :: cutSpan k (va + m) (n - m)

def pieces (va n : Nat) : List (Nat × Nat) := cutSpan (n / 64 + 2) va n

/-- The places of a span, or the first that stops it. -/
def State.engLocs (s : State) (o : EngOp) (kind : Nat) : List (Nat × Nat) → Except Stop (List (ELoc × Nat))
  | [] => .ok []
  | p :: r =>
    match s.engLoc o p.1 p.2 kind with
    | .error e => .error e
    | .ok l => match s.engLocs o kind r with
      | .error e => .error e
      | .ok ls => .ok ((l, p.2) :: ls)

def State.placeBytes (s : State) (o : EngOp) (l : ELoc) (n : Nat) : List Byte :=
  match l with
  | .scr off => s.scrBytes o.team off n
  | .glob ta unc => (if unc then s.pushPosted else s).curBytes ta n

def State.placePoison (s : State) (o : EngOp) (l : ELoc) (n : Nat) : Bool :=
  match l with
  | .scr off => (List.range n).any (fun i => (s.team o.team).pois.get false ((off + i) / 8))
  | .glob ta _ => s.bytesPoison ta n

/-- Bytes read by an engine. -/
def State.engRead (s : State) (o : EngOp) (va n : Nat) : Except Stop (List Byte) :=
  match s.engLocs o 0 (pieces va n) with
  | .error e => .error e
  | .ok ls =>
    match ls.find? (fun p => s.placePoison o p.1 p.2) with
    | some (.glob ta _, _) => .error (.poison (some ta))
    | some (.scr _, _) => .error (.poison none)
    | none => .ok (ls.flatMap (fun p => s.placeBytes o p.1 p.2))

/-- A number read by an engine. -/
def State.engNat (s : State) (o : EngOp) (va n : Nat) : Except Stop Nat :=
  match s.engRead o va n with
  | .error e => .error e
  | .ok bs => .ok (leNat bs)

/-- Only device frames, aligned to a power of two (R330, R332): anything else that could be reached is code 0x02, a
host's leaf with its link down (0x06) and scratchpad beyond the team's (0x07) among them. -/
def State.engDev (s : State) (o : EngOp) (va n al kind : Nat) : Except Stop Nat :=
  if va % al ≠ 0 then .error (.code 2)
  else match s.engReach o va n kind with
    | .error (.code c) => .error (.code (if c = 6 ∨ c = 7 then 2 else c))
    | .error e => .error e
    | .ok (.glob ta _) => if isDev ta then .ok ta else .error (.code 2)
    | .ok (.scr _) => .error (.code 2)

/-- Pieces of a span that must all lie in device frames. -/
def State.engDevs (s : State) (o : EngOp) (kind : Nat) : List (Nat × Nat) → Except Stop Unit
  | [] => .ok ()
  | p :: r => match s.engDev o p.1 p.2 1 kind with
    | .error e => .error e
    | .ok _ => s.engDevs o kind r

/-- Bytes read that must all lie in device frames (R330, R331). -/
def State.engReadDev (s : State) (o : EngOp) (va n : Nat) : Except Stop (List Byte) :=
  match s.engDevs o 0 (pieces va n) with
  | .error e => .error e
  | .ok _ => s.engRead o va n

/-- A write of an engine to one line, performed at a place (R144). -/
def State.putWriteAt (s : State) (o : EngOp) (place : Place) (ta : Nat) (unc : Bool) (bs : List Byte) : State :=
  let a : Acc := { lane := 0, ta := ta, len := bs.length, unc := unc, val := leNat bs }
  let w : Write := {
    id := s.clk.fresh, warp := none, src := o.warp, op := some o.id, core := o.core, die := o.core / 64
    line := lineOf ta, place := place, kind := .store, accs := [a], bytes := storedBytes [a]
    tenant := o.tenant, time := s.clk.time }
  { s.bump with writes := s.writes ++ [w] }

/-- A write of an engine to one line of global memory. -/
def State.putWrite (s : State) (o : EngOp) (ta : Nat) (unc : Bool) (bs : List Byte) : State :=
  s.putWriteAt o (placeOf .store .device { lane := 0, ta := ta, len := bs.length, unc := unc }) ta unc bs

/-- Bytes written piece by piece; the identifiers of the writes that this made. -/
def State.putPieces (s : State) (o : EngOp) : List (ELoc × Nat) → List Byte → State × List Nat
  | [], _ => (s, [])
  | (.scr off, n) :: r, bs => (s.scrPut o.team off (bs.take n)).putPieces o r (bs.drop n)
  | (.glob ta unc, n) :: r, bs =>
    let id := s.clk.fresh
    let (s, ids) := (s.putWrite o ta unc (bs.take n)).putPieces o r (bs.drop n)
    (s, id :: ids)

/-- Bytes written by an engine, if every one of them may be. -/
def State.engWrite (s : State) (o : EngOp) (va : Nat) (bs : List Byte) : Except Stop (State × List Nat) :=
  match s.engLocs o 1 (pieces va bs.length) with
  | .error e => .error e
  | .ok ls => .ok (s.putPieces o ls bs)

/-- A write of the operation has not been performed yet. -/
def State.unperformed (s : State) (o : Nat) : Bool := s.writes.any (fun w => w.op == some o && !w.done)
def State.unacked (s : State) (o : Nat) : Bool := s.writes.any (fun w => w.op == some o)

/-! ## Barrier objects (R145, R172, R173) -/

/-- The barrier object of an operation: checked before the first element. -/
def State.barTarget (s : State) (o : EngOp) (va : Nat) : Except Stop Nat :=
  if va % 16 ≠ 0 then .error (.code 2)
  else match s.engReach o va 16 1 with
    | .error (.code c) => .error (.code (if c = 6 then 2 else c))
    | .error e => .error e
    | .ok (.scr off) => .ok (scrBase + off)
    | .ok (.glob ta _) => if isDev ta then .ok ta else .error (.code 2)

/-- A request of an operation at a bank unit: it joins the line's queue at its home, and is carried out in its turn (R134,
R188, R189). The lane store, and a receiver's home, which is another part's, take it at once. -/
def State.atHome (s : State) (row : String) (o : EngOp) (ta : Nat) (go : State → State) : Out :=
  let join (s : State) : State := s.updOp o.id (fun e => { e with home := some (lineOf ta, s.clk.time) })
  if isScr ta || isRcv ta then .next (go s)
  else match o.home with
    | none => .next (join s)
    | some (l, t) =>
      if l ≠ lineOf ta then .next (join s)
      else onlyIf row (s.homeTurn l (o.homeKey t)) (go (s.updOp o.id (fun e => { e with home := none })))

def Bar.setOver (b : Bar) : Bar × Option Nat := ({ b with ovr := true }, some 1)

/-- The bytes of an element: added now where they meet R144 already, else kept until their writes do. -/
def State.addBytesOf (s : State) (o : EngOp) (n : Nat) (ids : List Nat) : State :=
  match o.bar with
  | none => s
  | some ta =>
    if n = 0 then s
    else if ids.isEmpty && isScr ta then s.barChange o.team ta (fun b => b.addBytes n)
    else s.updOp o.id (fun e => { e with adds := e.adds ++ [(n, 0, ids)] })

/-- A GWCT + 4 has passed at an operation's die (R144); 0 stands for no write. -/
def State.passed (s : State) (o : EngOp) (g : Nat) : Bool := g == 0 || g + 4 ≤ s.dieTime (o.core / 64)

/-- Landed bytes are added to the barrier object (R145). -/
def execByteAddition (op : Nat) (s : State) : Out :=
  match s.op op with
  | none => no "BYTE_ADDITION"
  | some o =>
    match o.bar, o.adds.find? (fun a => a.2.2.isEmpty && s.passed o a.2.1) with
    | some ta, some a =>
      s.atHome "BYTE_ADDITION" o ta (fun s =>
        (s.updOp op (fun e => { e with adds := e.adds.erase a })).barChange o.team ta (fun b => b.addBytes a.1))
    | _, _ => no "BYTE_ADDITION"

/-! ## Ends and suspensions (R173, R174) -/

/-- The barrier object of an operation that ends with an error: the one that it has found, or, where it ends before
it has looked for it, the one that its address reaches; none where the check of R172 has failed (R173). -/
def State.barOf (s : State) (o : EngOp) : Option Nat :=
  match o.bar, o.barVa with
  | some ta, _ => some ta
  | none, none => none
  | none, some va =>
    if o.started || o.susc != 0 then none
    else match s.barTarget o va with | .ok ta => some ta | .error _ => none

/-- The operation ends with a code; the token carries the element's index, or a count of pages reclaimed. -/
def State.endOp (s : State) (op c : Nat) : State :=
  s.updOp op (fun e =>
    { e with
      code := some c, susp := false, away := false, susc := 0, slot := none, home := none, bar := if c = 0 then e.bar else s.barOf e
      info := (if e.cls = 0xA ∧ e.func = 2 then e.kblk else if c = 0 then 0 else e.idx) % 2 ^ 24 })

def State.stopOp (s : State) (op : Nat) (e : Stop) : State :=
  match e with
  | .code c => s.endOp op c
  | .poison ta => match s.op op with
    | some o => (match ta with | some ta => s.consumedAt ta o.core o.tenant | none => s.consumed o.core o.tenant).endOp op 5
    | none => s
  | .wait => s
  | .fault cause va =>
    let s := s.updOp op (fun e => { e with susp := true, susc := cause, fault := va, slot := none, home := none })
    match s.op op with
    | some o => s.postEngine o
    | none => s

/-- A step of an operation that an access has stopped; one that waits for the keys of a stream is not taken, and leaves
no request at a home meanwhile. -/
def State.stopped (s : State) (row : String) (o : EngOp) (e : Stop) : Out :=
  match e with
  | .wait => onlyIf row o.home.isSome (s.updOp o.id (fun x => { x with home := none }))
  | e => .next (s.stopOp o.id e)

/-! ## The token (R144, R171, R173) -/

/-- The copy-only operation of an instance (R289). -/
def EngOp.listOp (o : EngOp) : Bool := o.cls == 0xF

/-- The token register written, the scoreboard cleared. -/
def Warp.putToken (w : Warp) (o : EngOp) (x : Word) : Warp :=
  let w := { w with busy := w.busy.filter (fun b => b.id != o.id) }
  match o.tok with
  | some n => w.setG o.way o.sup n x
  | none => w

/-- Every write of the operation is acknowledged and 4 ns lie behind the largest GWCT. -/
def State.tokenReady (s : State) (o : EngOp) : Bool :=
  !s.unacked o.id && o.adds.isEmpty && s.passed o o.gmax

def execTokenWrite (op : Nat) (s : State) : Out :=
  match s.op op with
  | none => no "TOKEN_WRITE"
  | some o =>
    match o.code with
    | none => no "TOKEN_WRITE"
    | some c =>
      let give (s : State) : State :=
        let s := { s with ops := s.ops.filter (fun (e : EngOp) => e.id != op) }
        let s := s.unpin o.root
        if o.listOp then s.updInst o.inst (fun i => { i with err := if c = 0 then i.err else 5, left := none })
        else s.updWarp o.warp (fun w => w.putToken o (BitVec.ofNat 32 (c + 2 ^ 8 * o.info)))
      if !s.tokenReady o then no "TOKEN_WRITE"
      else match o.bar with
        | some ta =>
          if c = 0 then .next (give s)
          -- the object is marked first (R173)
          else s.atHome "TOKEN_WRITE" o ta (fun s => give (s.barChange o.team ta Bar.setOver))
        | none => .next (give s)

end Sys2Proof.Machine
end

