-- ==== Sys2Proof/Machine/Copy.lean ====
section
/-! DEFINITION. Class 0x8: the copy instructions (R168 to R184, R280, R281), and what each kind reads before its
first element and does in one element. KVRCL's elements (R330) and the copy-only instances of R291 are here as
well, since copy engines run them. -/

namespace Sys2Proof.Machine

/-! ## Format words (R262, R263) -/

structure Fmt where
  ta   : Nat
  tb   : Nat
  form : Nat
  sa   : Bool
  sb   : Bool
  zero : Nat
  m    : Nat
  nkb  : Nat
  deriving DecidableEq, Repr

def fmtOf (w : Nat) : Fmt :=
  { ta := bitsOf w 0 4, tb := bitsOf w 4 4, form := bitsOf w 8 2, sa := w.testBit 10, sb := w.testBit 11
    zero := bitsOf w 12 4, m := bitsOf w 16 8 + 1, nkb := bitsOf w 24 8 + 1 }

/-- Bytes of a block of 48 elements (R259). -/
def blockBytes (t : Nat) : Nat := match t with | 0 => 48 | 1 => 36 | 2 => 24 | _ => 96

/-- The MMA and MMAG rows of R263. -/
def Fmt.mma (f : Fmt) : Bool :=
  let lq := f.ta ≤ 2 && f.tb ≤ 2
  f.zero == 0 &&
  ((f.form == 1 && (lq || ((f.ta == 3 || f.ta == 4) && f.ta == f.tb && !f.sa && !f.sb))) ||
   (f.form == 0 && lq && !f.sa && !f.sb))

/-- Row bytes of an A tile, its scale plane's offset, and all its bytes (R259). -/
def Fmt.rowA (f : Fmt) : Nat := f.nkb * blockBytes f.ta
def Fmt.planeA (f : Fmt) : Nat := (f.m * f.rowA + 15) / 16 * 16
def Fmt.bytesA (f : Fmt) : Nat := if f.sa then f.planeA + 2 * f.m * f.nkb else f.m * f.rowA

/-- Runs of enabled columns of a mask, as first column and length. -/
def maskRuns (mask : Nat) : List (Nat × Nat) :=
  (List.range 256).foldl (fun rs j =>
    if mask.testBit j then
      match rs.getLast? with
      | some (a, n) => if a + n = j then rs.dropLast ++ [(a, n + 1)] else rs ++ [(j, 1)]
      | none => [(j, 1)]
    else rs) []

/-- The bytes of a C tile's enabled columns (R261, R266). -/
def spansC (c m mask : Nat) : List (Nat × Nat) :=
  (List.range m).flatMap (fun i => (maskRuns mask).map (fun r => (c + 1024 * i + 4 * r.1, 4 * r.2)))

/-- Bytes from a C tile's address to the end of its enabled columns (R264). -/
def bytesC (m mask : Nat) : Nat := if mask = 0 then 0 else 1024 * (m - 1) + 4 * bitLen mask

/-! ## The vote (R182, R264) -/

/-- The format word that every executing lane carries. -/
def State.vote (s : State) (f : OpT) : Except Trap Nat :=
  if !s.ganged then .error { cause := 0x05, lanes := s.active }
  else
    let ls := lanesOf (s.executing f.com)
    let w (l : Nat) : Word := s.src32 l f.c
    let first := w (ls.headD 0)
    match ls.find? (fun l => w l != first) with
    | some l => .error { cause := 0x04, lanes := s.active, code := l }
    | none => .ok first.toNat

/-! ## Instructions -/

def execCpy (f : OpT) (s : State) : Out :=
  .next (s.engine (.cpy f) f (fun s =>
    let dst := addr64 ((s.pairVal f.a : Int) + OpT.doff f)
    let n := s.u32Of f.c
    s.engIssue { s.newOp 8 0 f with
      a := dst, b := addr64 ((s.pairVal f.b : Int) + OpT.soff f), c := n, barVa := s.flatBar f, sdst := scrSpan dst n } f.tok))


/-- An element size of 0, or above 1,023, is illegal (R180). -/
def sizeOk (n : Nat) : Bool := 0 < n && n ≤ 1023

def execCpyg (f : OpT) (s : State) : Out :=
  .next (s.engine (.cpyg f) f (fun s =>
    let n := s.u32Of f.c
    let dst := addr64 ((s.pairVal f.a : Int) + OpT.doff f)
    if !sizeOk n then .trap { cause := 0x01, lanes := s.active }
    else s.engIssue { s.newOp 8 2 f with
      a := dst, b := s.pairVal f.b, c := n, barVa := s.flatBar f
      sdst := scrSpan dst (n * (bitsOf f.opf.toNat 0 8 + 1)) } f.tok))

def execCpyr (f : OpT) (s : State) : Out :=
  .next (s.engine (.cpyr f) f (fun s => s.engIssue { s.newOp 8 4 f with b := s.pairVal f.a } f.tok))

/-- The operation that holds a token register: the handler's g48 to g63 are its own. -/
def State.holderOf (s : State) (n : Nat) : Option EngOp :=
  s.ops.find? (fun o => o.warp == s.who.warp && o.tok == some n && (n < 48 || o.sup == s.inHandler))

/-- CPYQ's state and DONE (R183). -/
def EngOp.query (o : EngOp) : Nat × Nat :=
  (if o.susp || o.away then 3 else if o.started || (o.cls == 8 && o.tile) then 2 else 1,
    if o.cls = 8 ∧ o.func = 5 ∧ o.stage = 1 ∧ o.started then 2 ^ 31 + o.idx % 2 ^ 31 else o.idx % 2 ^ 32)

def execCpyq (f : OpT) (s : State) : Out :=
  .next (s.engine (.cpyq f) f (fun s =>
    let q := ((s.holderOf (bitsOf f.opf.toNat 0 6)).map EngOp.query).getD (0, 0)
    .done ((s.putLanes (maskOf [s.uLane]) f.tok true (fun _ => BitVec.ofNat 64 (q.1 + 2 ^ 32 * q.2))).advance)))

def execCpyc (f : OpT) (s : State) : Out :=
  .next (s.engine (.cpyc f) f (fun s =>
    match s.holderOf (bitsOf f.opf.toNat 0 6) with
    | none => .done s.advance
    | some o => .done ((s.updOp o.id (fun e => { e with cancel := true })).advance)))

def execOsld (f : OpT) (s : State) : Out :=
  .next (s.engine (.osld f) f (fun s =>
    s.engIssue { s.newOp 8 8 f with
      a := s.u32Of f.b, b := addr64 ((s.pairVal f.a : Int) + OpT.soff f), c := s.u32Of f.c, barVa := s.flatBar f } f.tok))

/-! ## What is read before the first element -/

/-- A copy's source bytes as they stand now: 256 for one that cannot be read yet, 257 for poison (R176). -/
def State.snapshot (s : State) (o : EngOp) (va n : Nat) : List Nat :=
  (pieces va n).flatMap (fun p =>
    match s.engLoc o p.1 p.2 0 with
    | .error _ => List.replicate p.2 256
    | .ok l =>
      if s.placePoison o l p.2 then List.replicate p.2 257
      else (s.placeBytes o l p.2).map BitVec.toNat)

/-- A CPYT descriptor as a list: source, destination, extents, source and destination strides, element size
(R179); none where it is malformed. -/
def parseCpyt (d : Nat) : Option (List Nat) :=
  let nd := bitsOf d 516 2 + 1
  let dims (lo : Nat) : List Nat := (List.range nd).map (fun k => bitsOf d (lo + 32 * k) 32)
  if d / 2 ^ 518 ≠ 0 ∨ d.testBit 515 ∨ 4 < bitsOf d 512 3 then none
  else some ([bitsOf d 0 64, bitsOf d 64 64, nd, 2 ^ bitsOf d 512 3] ++ dims 128 ++ dims 256 ++ dims 384)

/-- A signed stride. -/
def signed32 (x : Nat) : Int := if x < 2 ^ 31 then x else (x : Int) - 2 ^ 32

/-- Elements of a CPYT descriptor. -/
def cpytTotal (t : List Nat) : Nat :=
  let nd := t.getD 2 0
  ((t.drop 4).take nd).foldl (fun n e => n * e) 1

/-- Where element `i` comes from and goes to, i0 varying fastest. -/
def cpytElem (t : List Nat) (i : Nat) : Nat × Nat :=
  let nd := t.getD 2 0
  let ext := (t.drop 4).take nd
  let ss := ((t.drop 4).drop nd).take nd
  let ds := ((t.drop 4).drop (2 * nd)).take nd
  let digits := (ext.foldl (fun (p : Nat × List Nat) e => (p.1 / e, p.2 ++ [p.1 % e])) (i, [])).2
  let sum (base : Nat) (st : List Nat) : Nat :=
    addr64 ((List.zip digits st).foldl (fun (a : Int) p => a + (p.1 : Int) * signed32 p.2) (base : Int))
  (sum (t.getD 0 0) ss, sum (t.getD 1 0) ds)

def State.readCpyt (s : State) (o : EngOp) (va : Nat) : Except Stop (List Nat) :=
  if va % 128 ≠ 0 then .error (.code 2)
  else match s.engNat o va 128 with
    | .error e => .error e
    | .ok d => match parseCpyt d with
      | none => .error (.code 9)
      | some t => .ok t

/-- Scratchpad that a CPYT writes. -/
def cpytSpans (t : List Nat) : List (Nat × Nat) :=
  (List.range (cpytTotal t)).flatMap (fun i => scrSpan (cpytElem t i).2 (t.getD 3 1))

/-- A table of 64-bit addresses. -/
def State.readTable (s : State) (o : EngOp) (va : Nat) : Nat → Except Stop (List Nat)
  | 0 => .ok []
  | n + 1 => match s.engNat o va 8 with
    | .error e => .error e
    | .ok x => match s.readTable o (addr64 (va + 8)) n with
      | .error e => .error e
      | .ok xs => .ok (x :: xs)

/-- n of CPYG and CPYS. -/
def EngOp.count (o : EngOp) : Nat := bitsOf o.opf (if o.func = 2 then 0 else 8) 8 + 1

/-- Nibble `h` of HPERM. -/
def hperm (d h : Nat) : Nat := bitsOf d (392 + 4 * h) 4

/-- A CPYR descriptor breaks R181. -/
def badCpyr (d : Nat) : Bool :=
  let h := bitsOf d 344 4 + 1
  let ps := (List.range h).map (hperm d)
  d / 2 ^ 456 != 0 || 3 < bitsOf d 348 4 || !(List.range h).all (fun i => ps.contains i) ||
    bitsOf d (392 + 4 * h) (64 - 4 * h) != 0

/-- The receiver's bytes, by its number and address space; the receiver translates (R181). -/
def rcvAddr (d va : Nat) : Nat := 2 ^ 67 + (bitsOf d 320 16 * 2 ^ 8 + bitsOf d 336 8) * 2 ^ 64 + va % 2 ^ 64

/-- What a receiver answers to an access: 0, or the token code with which it turns it away (R171, R172). -/
def State.rcvCode (s : State) (ta : Nat) : Nat :=
  match Config.peerAnswer s.clk.time ta % 4 with | 0 => 0 | 1 => 0x0A | 2 => 2 | _ => 3

/-- A 64-byte page header's fields (R322). -/
def hdValid (h : Nat) : Nat := bitsOf h 0 64
def hdSlc (h : Nat) : Nat := bitsOf h 320 2
def hdEt (h : Nat) : Nat := bitsOf h 322 2
def hdRbu (h : Nat) : Nat := bitsOf h 328 8
def hdScale (h : Nat) : Nat := bitsOf h 336 16
def hdSeq (h : Nat) : Nat := bitsOf h 352 32
def hdSk (h : Nat) : Nat := bitsOf h 448 64
/-- A reserved value, or a nonzero reserved bit. -/
def hdBad (h : Nat) : Bool :=
  bitsOf h 64 256 != 0 || 2 ≤ hdEt h || bitsOf h 324 4 != 0 || bitsOf h 416 32 != 0 ||
    hdValid h / 2 ^ (8 * 2 ^ hdSlc h) != 0

/-- A sequence table's header (R323). -/
def tbNp (t : Nat) : Nat := bitsOf t 0 32
def tbSlc (t : Nat) : Nat := bitsOf t 32 2
def tbSlots (t : Nat) : Nat := 8 * 2 ^ tbSlc t
def tbRbu (t : Nat) : Nat := bitsOf t 36 8
def tbBase (t : Nat) : Nat := bitsOf t 64 32
def tbLen (t : Nat) : Nat := bitsOf t 96 32
def tbBad (t : Nat) : Bool := bitsOf t 34 2 != 0 || bitsOf t 44 20 != 0 || tbBase t % tbSlots t != 0

/-- CPYX's descriptor and the checks before its copy (R280, R281). -/
def State.prepareCpyx (s : State) (o : EngOp) (d : Nat) : Except Stop EngOp :=
  let f := fmtOf o.fmt
  let aoff := bitsOf d 64 32
  let n := bitsOf d 96 32
  let coff := bitsOf d 128 32
  let xoff := bitsOf d 160 32
  let mask := bitsOf d 256 256
  let grouped := o.opf.testBit 0
  let size := (s.team o.team).size
  if bitsOf d 193 63 ≠ 0 ∨ n = 0 ∨ (!grouped ∧ 24560 < xoff) then .error (.code 9)
  else if !f.mma || aoff % 16 != 0 || coff % 16 != 0 || xoff % 16 != 0 || size < aoff + f.bytesA ||
      size < coff + bytesC f.m mask || (grouped && size < xoff + 16) || !(s.team o.team).opst then .error (.code 0x0C)
  else .ok { o with
    a := 0xFE00000000000000 + aoff, b := bitsOf d 0 64, c := n, tc := coff, ta := aoff, tx := xoff, mask := mask
    tacc := d.testBit 192
    sdst := (aoff, n) :: spansC coff f.m mask
    table := s.snapshot o (bitsOf d 0 64) n }

/-- The table and pool that KVRCL reads (R330). -/
def State.prepareKvrcl (s : State) (o : EngOp) : Except Stop EngOp :=
  match s.engDev o o.b 16 16 0, s.engDev o o.a 16 16 1 with
  | .error e, _ => .error e
  | _, .error e => .error e
  | .ok _, .ok _ => match s.engNat o o.b 16 with
    | .error e => .error e
    | .ok t => if tbBad t then .error (.code 9) else .ok { o with table := [t], c := tbNp t }

/-- Everything that a copy reads before its first element, with its barrier object's check. -/
def State.prepare (s : State) (o : EngOp) : Except Stop EngOp :=
  if o.cls = 0xA then s.prepareKvrcl o
  else if o.cls = 0xF then
    if o.a % 128 ≠ 0 then .error (.code 2)
    else match s.engNat o o.a 8 with
      | .error e => .error e
      | .ok n =>
        if n = 0 then .ok { o with c := 0 }
        else match s.readCpyt o (addr64 (o.a + 128)) with
          | .error e => .error e
          | .ok t => .ok { o with c := n, table := t }
  else match o.func with
    | 0 => .ok { o with table := s.snapshot o o.b o.c }
    | 1 => match s.readCpyt o o.b with
      | .error e => .error e
      | .ok t => .ok { o with table := t, sdst := cpytSpans t }
    | 2 => match s.readTable o o.b o.count with
      | .error e => .error e
      | .ok t => .ok { o with table := t }
    | 3 => match s.readTable o o.a o.count with
      | .error e => .error e
      | .ok t => .ok { o with table := t, sdst := t.flatMap (fun x => scrSpan x o.c) }
    | 4 =>
      if o.b % 128 ≠ 0 then .error (.code 2)
      else match s.engNat o o.b 128 with
        | .error e => .error e
        | .ok d =>
          let rb := bitsOf d 128 64
          if badCpyr d then .error (.code 9)
          else if rb % 16 ≠ 0 ∨ (rb ≠ 0 ∧ regionAt rb ≠ .glob) then .error (.code 2)
          else if rb ≠ 0 ∧ s.rcvCode (rcvAddr d rb) ≠ 0 then .error (.code (s.rcvCode (rcvAddr d rb)))
          else .ok { o with
            table := [d], c := bitsOf d 224 32 * (bitsOf d 344 4 + 1), bar := if rb = 0 then none else some (rcvAddr d rb) }
    | 5 => match s.engNat o o.b 64 with
      | .error e => .error e
      | .ok d => s.prepareCpyx o d
    | _ =>
      let n := bitsOf o.opf 8 8 + 1
      if !(s.team o.team).opst || (24576 < o.c && 1 < n) then .error (.code 8) else .ok o

/-- Memory with the issuing warp's own stores and updates that are not performed yet: what its operation will find (R143). -/
def State.ahead (s : State) (u : Nat) : State :=
  let put (s : State) (bs : Tab Byte) : State := bs.foldl (fun s b => s.poke b.1 [b.2]) s
  let s := (s.writes.filter (fun w => w.src == u && w.op.isNone && !w.done)).foldl (fun s w => put s (w.effect s.cur).1) s
  (s.reqs.filter (fun r => r.warp == u && !r.started)).foldl (fun s r => match r.kind with
    | .store => put s (storedBytes r.accs)
    | .atom _ | .red _ | .bupd _ =>
      put s ((({ id := 0, warp := none, line := 0, place := .die, kind := r.kind, accs := r.accs } : Write).effect s.cur).1)
    | _ => s) s

/-- The scratchpad that an operation will write, as its descriptor or table names it at issue; what the engine
reads before the first element replaces it (R126). -/
def State.peek (s : State) (o : EngOp) : EngOp :=
  match (s.ahead o.warp).prepare o with
  | .ok e => { o with sdst := e.sdst }
  | .error _ => o

def execCpyt (f : OpT) (s : State) : Out :=
  .next (s.engine (.cpyt f) f (fun s =>
    s.engIssue (s.peek { s.newOp 8 1 f with b := s.pairVal f.a, barVa := s.flatBar f }) f.tok))

def execCpys (f : OpT) (s : State) : Out :=
  .next (s.engine (.cpys f) f (fun s =>
    let n := s.u32Of f.c
    if !sizeOk n then .trap { cause := 0x01, lanes := s.active }
    else s.engIssue (s.peek { s.newOp 8 3 f with
      a := s.pairVal f.a, b := addr64 ((s.pairVal f.b : Int) + OpT.soff f), c := n, barVa := s.flatBar f }) f.tok))

def execCpyx (f : OpT) (s : State) : Out :=
  .next (s.engine (.cpyx f) f (fun s =>
    match s.vote f with
    | .error t => .trap t
    | .ok w => s.engIssue (s.peek { s.newOp 8 5 f with b := s.pairVal f.a, fmt := w, barVa := s.flatBar f }) f.tok))

/-- Elements that the operation counts. -/
def EngOp.total (o : EngOp) : Nat :=
  if o.cls = 8 then
    match o.func with
    | 1 => cpytTotal o.table
    | 2 | 3 => o.count
    | 8 => bitsOf o.opf 8 8 + 1
    | _ => o.c
  else o.c

/-! ## Elements -/

/-- One more element performed: its bytes go to the barrier object once its writes allow. -/
def State.stepOp (s : State) (o : EngOp) (n k : Nat) (ids : List Nat) : State :=
  (s.addBytesOf o n ids).updOp o.id (fun e => { e with idx := e.idx + k })

/-- An element read whole and then written (R176). -/
def State.copyOne (s : State) (o : EngOp) (src dst n : Nat) : Except Stop (State × List Nat) :=
  match s.engRead o src n with
  | .error e => .error e
  | .ok bs => s.engWrite o dst bs

/-- One destination line of a CPY (R177): offset and length from the bytes done. -/
def cpyChunk (dst src len done : Nat) : Nat × Nat :=
  if dst < src then (done, min (64 - (dst + done) % 64) (len - done))
  else
    let last := len - done
    let m := min ((dst + last - 1) % 64 + 1) last
    (last - m, m)

def State.cpyElement (s : State) (o : EngOp) : Except Stop State :=
  let (off, m) := cpyChunk o.a o.b o.c o.idx
  let bs := (o.table.drop off).take m
  let src : Except Stop (List Byte) :=
    if bs.contains 256 then s.engRead o (addr64 (o.b + off)) m
    else if bs.contains 257 then .error (.poison none)
    else .ok (bs.map (fun n => BitVec.ofNat 8 n))
  match src with
  | .error e => .error e
  | .ok bs => match s.engWrite o (addr64 (o.a + off)) bs with
    | .error e => .error e
    | .ok (s, ids) => .ok (s.stepOp o m m ids)

/-- One column of OSLD (R178). -/
def State.osldElement (s : State) (o : EngOp) : Except Stop State :=
  let at' := o.a + 24576 * o.idx
  if o.c ≠ 0 ∧ 6291456 < at' + o.c then .error (.code 8)
  else match s.engRead o (addr64 (o.b + o.idx * o.c)) o.c with
    | .error e => .error e
    | .ok bs => .ok ((s.updCore o.core (fun c => { c with ost := writeBytes c.ost at' bs })).stepOp o o.c 1 [])

/-- One element of a CPYT descriptor, of a gather or of a scatter (R179, R180). -/
def State.tableElement (s : State) (o : EngOp) : Except Stop State :=
  let (src, dst, n) : Nat × Nat × Nat :=
    if o.cls = 0xF ∨ o.func = 1 then
      ((cpytElem o.table o.idx).1, (cpytElem o.table o.idx).2, o.table.getD 3 1)
    else if o.func = 2 then (o.table.getD o.idx 0, addr64 (o.a + o.idx * o.c), o.c)
    else (addr64 (o.b + o.idx * o.c), o.table.getD o.idx 0, o.c)
  match s.copyOne o src dst n with
  | .error e => .error e
  | .ok (s, ids) =>
    .ok ((s.stepOp o n 1 ids).updOp o.id (fun e =>
      if o.cls = 8 ∧ o.func ≠ 1 then { e with bitmap := e.bitmap ||| 2 ^ o.idx } else e))

/-- A copy-only instance's next descriptor (R291). -/
def State.nextDescriptor (s : State) (o : EngOp) : Except Stop State :=
  match s.readCpyt o (addr64 (o.a + 128 * (o.kblk + 2))) with
  | .error e => .error e
  | .ok t => .ok (s.updOp o.id (fun e => { e with table := t, idx := 0, kblk := o.kblk + 1 }))

/-- A write to the receiver of a CPYR. -/
def State.putRcv (s : State) (o : EngOp) (ta : Nat) (bs : List Byte) : State :=
  (List.range (bs.length / 64 + 2)).foldl (fun s k =>
    let cut := (pieces (ta % 64) bs.length).take k
    match (pieces (ta % 64) bs.length)[k]? with
    | none => s
    | some (_, m) =>
      let off := cut.foldl (fun n p => n + p.2) 0
      let piece := (bs.drop off).take m
      let a : Acc := { lane := 0, ta := ta + off, len := m, unc := true, val := leNat piece }
      let w : Write := {
        id := s.clk.fresh, warp := none, src := o.warp, op := some o.id, core := o.core, die := o.core / 64
        line := lineOf (ta + off), place := .peer, kind := .store, accs := [a], bytes := storedBytes [a]
        tenant := o.tenant, time := s.clk.time }
      { s.bump with writes := s.writes ++ [w] }) s

/-- Element (position, head) of a CPYR: first the rows and the header, then, once they are acknowledged, the
valid bit and the receiver's barrier bytes (R181). -/
def State.cpyrElement (s : State) (o : EngOp) : Except Stop State :=
  let d := o.table.getD 0 0
  let hs := bitsOf d 344 4 + 1
  let p0 := bitsOf d 192 32
  let p := p0 + o.idx / hs
  let h := o.idx % hs
  let sbase := bitsOf d 256 32
  let dbase := bitsOf d 288 32
  let slots := 8 * 2 ^ bitsOf d 348 4
  let rb := 16 * (bitsOf d 352 8 + 1)
  let srow := bitsOf d 360 16
  let drow := bitsOf d 376 16
  let si := (p - sbase) / 32
  let ss := (p - sbase) % 32
  let di := (p - dbase) / slots
  let ds := (p - dbase) % slots
  let srcPage (q : Nat) : Except Stop Nat :=
    if q < sbase ∨ srow ≤ (q - sbase) / 32 then .error (.code 9)
    else s.engNat o (addr64 (bitsOf d 0 64 + 8 * (h * srow + (q - sbase) / 32))) 8
  let firstPos := max p0 (dbase + slots * di)
  if p < dbase ∨ drow ≤ di ∨ p < sbase ∨ srow ≤ si then .error (.code 9)
  else match srcPage p, srcPage firstPos, s.engNat o (addr64 (bitsOf d 64 64 + 8 * (hperm d h * drow + di))) 8 with
  | .ok sp, .ok sp0, .ok dp =>
    if s.rcvCode (rcvAddr d dp) ≠ 0 then .error (.code (s.rcvCode (rcvAddr d dp))) else
    match s.engNat o sp 64, s.engNat o sp0 64 with
    | .ok hd, .ok hd0 =>
      let valid := hd.testBit ss
      if hdScale hd ≠ hdScale hd0 then .error (.code 0x0B)
      else if o.next = 0 then
        let s := if p = firstPos then
            ((s.putRcv o (rcvAddr d (dp + 42)) (leBytes 2 (hdScale hd))).putRcv o (rcvAddr d (dp + 44))
              (leBytes 4 (hdSeq hd))).putRcv o (rcvAddr d (dp + 48)) (leBytes 4 (dbase + slots * di))
          else s
        let rows (s : State) : Except Stop State :=
          match s.engRead o (addr64 (sp + 64 + ss * rb)) rb, s.engRead o (addr64 (sp + 64 + 32 * rb + ss * rb)) rb,
              s.engRead o (addr64 (hdSk hd + 32 * ss)) 32 with
          | .ok k, .ok v, .ok sk =>
            let dsk := leNat (readBytes s.mem (rcvAddr d (dp + 56)) 8)
            .ok (((s.putRcv o (rcvAddr d (dp + 64 + ds * rb)) k).putRcv o
              (rcvAddr d (dp + 64 + slots * rb + ds * rb)) v).putRcv o (rcvAddr d (dsk + 32 * ds)) sk)
          | .error e, _, _ => .error e
          | _, .error e, _ => .error e
          | _, _, .error e => .error e
        match (if valid then rows s else .ok s) with
        | .error e => .error e
        | .ok s => .ok (s.updOp o.id (fun e => { e with next := 1 }))
      else
        let va := rcvAddr d (dp + ds / 8)
        let b := (s.mem.get 0 va).toNat
        let b := if b.testBit (ds % 8) then b - 2 ^ (ds % 8) else b
        let id := s.clk.fresh
        let s := s.putRcv o va [BitVec.ofNat 8 (if valid then b + 2 ^ (ds % 8) else b)]
        .ok ((s.stepOp o (2 * rb) 1 [id]).updOp o.id (fun e => { e with next := 0 }))
    | .error e, _ => .error e
    | _, .error e => .error e
  | .error e, _, _ => .error e
  | _, .error e, _ => .error e
  | _, _, .error e => .error e

/-- One entry of KVRCL (R330): the page's address goes to the pool, then, as a release, the pool's count, then
the entry is cleared. -/
def State.kvrclElement (s : State) (o : EngOp) : Except Stop State :=
  let t := o.table.getD 0 0
  let slot := addr64 (o.b + 16 + 8 * o.idx)
  match s.engReadDev o slot 8, s.engNat o o.a 16, s.engDev o o.a 16 16 1 with
  | .ok bs, .ok pool, .ok pta =>
    let e := leNat bs
    let count := bitsOf pool 0 32
    let walk (s : State) (k : Nat) : State :=
      s.updOp o.id (fun x => { x with next := 0, idx := x.idx + 1, kblk := x.kblk + k })
    if o.next = 0 then
      if e = 0 ∨ tbBase t + tbSlots t * o.idx < tbLen t then .ok (walk s 0)
      else match s.engDev o e 64 64 0, s.engNat o e 64 with
        | .ok _, .ok h =>
          if hdBad h then .error (.code 9)
          else if hdValid h ≠ 0 then .ok (walk s 0)
          else if count = bitsOf pool 32 32 then .error (.code 0x0E)
          else match s.engWrite o (addr64 (bitsOf pool 64 64 + 8 * count)) (leBytes 8 e) with
            | .error x => .error x
            | .ok (s, _) => .ok (s.updOp o.id (fun x => { x with next := 1 }))
        | .error x, _ => .error x
        | _, .error x => .error x
    else
      -- the increment is a write of the operation at the pool's bank unit (R144)
      let one : Acc := { lane := 0, ta := pta, len := 4, val := 1 }
      let w : Write := {
        id := s.clk.fresh, warp := none, src := o.warp, op := some o.id, core := o.core, die := o.core / 64
        line := lineOf pta, place := .bank, kind := .red 0, accs := [one], tenant := o.tenant, time := s.clk.time }
      let s := { s.bump with writes := s.writes ++ [w] }
      match s.engWrite o slot (leBytes 8 0) with
      | .error x => .error x
      | .ok (s, _) => .ok (walk s 1)
  | .error x, _, _ => .error x
  | _, .error x, _ => .error x
  | _, _, .error x => .error x

/-- An element may be performed now: earlier writes that it could overlap have been performed (R176), and for the
second half of an element its first half is acknowledged. -/
def State.elementReady (s : State) (o : EngOp) : Bool :=
  if o.next = 1 ∧ (o.func = 4 ∨ o.cls = 0xA) then
    !s.unacked o.id && s.passed o o.gmax
  else (o.cls == 8 && (o.func == 0 || o.func == 5 || o.func == 8)) || !s.unperformed o.id

def State.element (s : State) (o : EngOp) : Except Stop State :=
  if o.cls = 0xA then s.kvrclElement o
  else if o.cls = 0xF then (if o.idx < cpytTotal o.table then s.tableElement o else s.nextDescriptor o)
  else match o.func with
    | 0 | 5 => s.cpyElement o
    | 4 => s.cpyrElement o
    | 8 => s.osldElement o
    | _ => s.tableElement o

/-- Every element has been performed. -/
def EngOp.finished (o : EngOp) : Bool :=
  if o.cls = 0xF then o.c ≤ o.kblk + 1 && cpytTotal o.table ≤ o.idx || o.c == 0 else o.total ≤ o.idx && o.next == 0

/-- After the last element the operation is done; a CPYX then waits for the sequencer (R182, R281). -/
def State.settleOp (s : State) (op : Nat) : State :=
  match s.op op with
  | none => s
  | some o =>
    if o.code.isSome || !o.started || !o.finished then s
    else if o.cls = 8 ∧ o.func = 5 ∧ o.mask ≠ 0 then
      s.updOp op (fun e => { e with stage := 1, next := 0, kblk := 0, table := [], started := false })
    else s.endOp op 0

/-- A copy's first read: its barrier object and what its kind reads first. -/
def State.beginCopy (s : State) (o : EngOp) : State :=
  let bar := match o.barVa with
    | none => Except.ok none
    | some va => match s.barTarget o va with
      | .ok ta => .ok (some ta)
      | .error e => .error e
  match bar with
  | .error e => s.stopOp o.id e
  | .ok bar =>
    let o := { o with bar := bar }
    match s.prepare o with
    | .error e => (s.updOp o.id (fun e => { e with bar := bar })).stopOp o.id e
    | .ok e => (s.updOp o.id (fun _ => { e with started := true })).settleOp o.id

/-- A copy engine's operation that is past its first read. -/
def EngOp.copying (o : EngOp) : Bool :=
  o.started && o.code.isNone && !o.tile && (o.cls == 8 || o.cls == 0xF || (o.cls == 0xA && o.func == 2))

def execCopyElement (op : Nat) (s : State) : Out :=
  match s.op op with
  | none => no "COPY_ELEMENT"
  | some o =>
    if !o.copying then no "COPY_ELEMENT"
    else if o.cancel && (o.next == 0 || o.susc != 0) then .next (s.endOp op 1)
    else if ((o.susp || o.away) && o.next == 0) || o.susc != 0 || !s.engineTurn o || !s.elementReady o then no "COPY_ELEMENT"
    else match s.element o with
      | .error e => .next (s.stopOp op e)
      | .ok t => .next (t.settleOp op)

end Sys2Proof.Machine
end

