-- ==== Sys2Proof/Machine/Kv.lean ====
section
/-! DEFINITION. The per-lane instructions of class 0xA: KVX, KVVAL and SKCH (R322 to R329), and how a load, an
atomic or one of these returns. -/

namespace Sys2Proof.Machine

/-! ## A lane's (table, position) (R325) -/

/-- How a lane fares; `wait` where what it reads is still on its way, with the lines that are to be fetched. -/
inductive KvLane (α : Type) where
  | malformed
  | replay
  | poison
  | wait (lines : List Nat)
  | ok (x : α)
  deriving DecidableEq, Repr

def KvLane.bind {α β : Type} (x : KvLane α) (f : α → KvLane β) : KvLane β :=
  match x with
  | .malformed => .malformed
  | .replay => .replay
  | .poison => .poison
  | .wait ls => .wait ls
  | .ok a => f a

/-- Two parts of a lane's work, neither of which depends on the other: a malformed part decides, then one that fails
translation, then one that is still on its way, then poison (R325). -/
def KvLane.both {α β : Type} (x : KvLane α) (y : KvLane β) : KvLane (α × β) :=
  match x, y with
  | .malformed, _ | _, .malformed => .malformed
  | .replay, _ | _, .replay => .replay
  | .wait a, .wait b => .wait (a ++ b)
  | .wait a, _ | _, .wait a => .wait a
  | .poison, _ | _, .poison => .poison
  | .ok a, .ok b => .ok (a, b)

def KvLane.map {α β : Type} (f : α → β) (x : KvLane α) : KvLane β := x.bind (fun a => .ok (f a))

/-- What a lane found: its entry's address, the page, slot, slots, row bytes; the header's place and value. -/
structure KvHit where
  tab   : Nat
  page  : Nat
  slot  : Nat
  slots : Nat
  rb    : Nat
  hdTa  : Nat := 0
  hd    : Nat := 0
  deriving DecidableEq, Repr

/-- Where a device frame's address leads: a replay for a fault, malformed outside device frames. -/
def State.kvAt (s : State) (u va kind : Nat) : KvLane Nat :=
  match regionAt va with
  | .glob => match s.xlate u va kind with
    | .ok l => if isDev l.ta then .ok l.ta else .malformed
    | .error _ => .replay
  | .phys => if (s.warp u).trap.isSome && offIn va < ctlBase && !s.stackAbsent (offIn va / 2 ^ 36) then .ok (offIn va)
    else .malformed
  | _ => .malformed

/-- Bytes within a line as a relaxed load reads them (R132): from the way's lines, the bay or a live lease copy; where the
core has no live copy, the line is to be fetched into it first. -/
def State.kvRead (s : State) (r : Req) (ta n : Nat) : KvLane (List Byte) :=
  let a : Acc := { lane := 0, ta := ta, len := n, left := List.range n }
  if !(a.gather (s.nearByte r a)).left.isEmpty then
    .wait (if (s.liveCopy r.core (lineOf ta) r.fence).isSome then [] else [lineOf ta])
  else if s.accPoison r a then .poison
  else .ok ((List.range n).map (fun i => (s.nearByte r a (ta + i)).getD 0))

def State.kvReadAt (s : State) (r : Req) (va n : Nat) : KvLane (List Byte) := (s.kvAt r.warp va 0).bind (fun ta => s.kvRead r ta n)

/-- Bytes of a run of lines. -/
def State.kvBytes (s : State) (r : Req) : List (Nat × Nat) → KvLane (List Byte)
  | [] => .ok []
  | p :: ps => ((s.kvReadAt r p.1 p.2).both (s.kvBytes r ps)).map (fun x => x.1 ++ x.2)

/-- The address of the table entry of a position, with the slot, the slots and the row bytes. -/
def State.kvTable (s : State) (r : Req) (tab p : Nat) : KvLane (Nat × Nat × Nat × Nat) :=
  if tab % 16 ≠ 0 then .malformed
  else (s.kvReadAt r tab 16).bind (fun hb =>
    let t := leNat hb
    let i := (p - tbBase t) / tbSlots t
    if tbBad t ∨ p < tbBase t ∨ tbNp t ≤ i then .malformed
    else .ok (addr64 (tab + 16 + 8 * i), (p - tbBase t) % tbSlots t, tbSlots t, 16 * (tbRbu t + 1)))

/-- The lane's page and slot. -/
def State.kvPage (s : State) (r : Req) (tab p : Nat) : KvLane KvHit :=
  (s.kvTable r tab p).bind (fun t => (s.kvReadAt r t.1 8).bind (fun eb =>
    let e := leNat eb
    if e % 64 ≠ 0 then .malformed
    else if e = 0 then .replay
    else (s.kvAt r.warp tab 0).bind (fun ta => .ok { tab := ta, page := e, slot := t.2.1, slots := t.2.2.1, rb := t.2.2.2 })))

/-- The page with its header, which must agree with the table. -/
def State.kvHead (s : State) (r : Req) (tab p : Nat) : KvLane KvHit :=
  (s.kvPage r tab p).bind (fun h => (s.kvAt r.warp h.page 0).bind (fun pa => (s.kvRead r pa 64).bind (fun pb =>
    let hd := leNat pb
    if hdBad hd ∨ 8 * 2 ^ hdSlc hd ≠ h.slots ∨ 16 * (hdRbu hd + 1) ≠ h.rb then .malformed
    else .ok { h with hdTa := pa, hd := hd })))

/-- A page's K row of a slot, by line. -/
def KvHit.row (h : KvHit) : List (Nat × Nat) := pieces (h.page + 64 + h.slot * h.rb) h.rb

def KvHit.sketch (h : KvHit) : Nat := addr64 (hdSk h.hd + 32 * h.slot)

/-! ## Sketches (R232, R329) -/

/-- The 32 bytes of a key's sketch, and the flag it raises. -/
def sketchOf (f : FFmt) (key : List Byte) (scale : Nat) : List Byte × Word :=
  let el (i : Nat) : FVal := f.value (leNat ((key.drop (2 * i)).take 2))
  let cs := (List.range 64).map (fun j => sketchComp (el (2 * j)) (el (2 * j + 1)) (e10Value scale))
  ((List.range 32).map (fun b =>
      let nib (j : Nat) : Nat := (((cs.map (·.val)).getD j 0) % 16).toNat
      BitVec.ofNat 8 (nib (2 * b) + 16 * nib (2 * b + 1))),
    cs.foldl (fun fl c => fl ||| c.fl) 0)

/-- A place of SKCH.vec: scratchpad of the team, or a device frame; all else is malformed (R329). -/
def State.vecAt (s : State) (r : Req) (va n kind : Nat) : KvLane Nat :=
  match regionAt va with
  | .scr => if offIn va + n ≤ (s.team (s.warp r.warp).team).size then .ok (scrBase + offIn va) else .malformed
  | _ => match s.kvAt r.warp va kind with
    | .ok ta => .ok ta
    | _ => .malformed

/-- Bytes of SKCH.vec's source. -/
def State.vecBytes (s : State) (r : Req) : List (Nat × Nat) → KvLane (List Byte)
  | [] => .ok []
  | p :: ps =>
    let team := (s.warp r.warp).team
    let here : KvLane (List Byte) := (s.vecAt r p.1 p.2 0).bind (fun ta =>
      if !isScr ta then s.kvRead r ta p.2
      else if (List.range p.2).any (fun i => (s.team team).pois.get false ((ta - scrBase + i) / 8)) then .poison
      else .ok (s.scrBytes team (ta - scrBase) p.2))
    (here.both (s.vecBytes r ps)).map (fun x => x.1 ++ x.2)

/-! ## One lane of each instruction -/

/-- FUNC 0 KVX, 1 KVVAL, 3 SKCH on a lane's arguments (lane, table or source, position or scale, destination): what it
found, and the flag of a sketch. A lane is malformed before it is a replay, whatever else fails (R325). -/
def State.kvLane (s : State) (r : Req) (func opf : Nat) (a : Nat × Nat × Nat × Nat) : KvLane (KvRes × Word) :=
  let (l, tab, p, dst) := a
  match func with
  | 0 => (s.kvPage r tab p).bind (fun h =>
      let addr := if opf % 4 = 2 then h.page else h.page + 64 + (if opf % 4 = 1 then h.slots * h.rb else 0) + h.slot * h.rb
      .ok ({ lane := l, addr := addr }, 0))
  | 1 => (s.kvHead r tab p).bind (fun h =>
      (if opf.testBit 1 then s.kvAt r.warp tab 1 else .ok 0).bind (fun _ => (s.kvAt r.warp h.page 1).bind (fun _ =>
        .ok ({ lane := l, addr := h.hdTa, slot := h.slot, tab := h.tab, pos := p }, 0))))
  | _ =>
    if opf.testBit 0 then
      ((if dst % 32 = 0 then s.vecAt r dst 32 1 else .malformed).both (s.vecBytes r (pieces tab 256))).map (fun x =>
        let k := sketchOf (if opf.testBit 1 then fmtF16 else fmtBf16) x.2 (p % 2 ^ 16)
        ({ lane := l, addr := x.1, val := leNat k.1 }, k.2))
    else (s.kvHead r tab p).bind (fun h =>
      if h.rb ≠ 256 ∨ h.sketch % 32 ≠ 0 then .malformed
      else ((s.kvAt r.warp h.sketch 1).both (s.kvBytes r h.row)).map (fun x =>
        let k := sketchOf (if hdEt h.hd = 0 then fmtBf16 else fmtF16) x.2 (hdScale h.hd)
        ({ lane := l, addr := x.1, slot := h.slot, hdr := h.hdTa, val := leNat k.1 }, k.2)))

/-- The addresses that a lane reads, however it fares. -/
def State.kvReads (s : State) (r : Req) (func opf : Nat) (a : Nat × Nat × Nat × Nat) : List Nat :=
  if func = 3 ∧ opf.testBit 0 then (pieces a.2.1 256).map (·.1)
  else a.2.1 :: (match s.kvTable r a.2.1 a.2.2.1 with
    | .ok t => t.1 :: (match func, s.kvPage r a.2.1 a.2.2.1 with
      | 0, _ => []
      | _, .ok h => h.page :: (match func, s.kvHead r a.2.1 a.2.2.1 with
        | 3, .ok h => h.row.map (·.1)
        | _, _ => [])
      | _, _ => [])
    | _ => [])

/-- The addresses that a lane would write. -/
def State.kvWrites (s : State) (r : Req) (func opf : Nat) (a : Nat × Nat × Nat × Nat) : List Nat :=
  if func ≠ 3 then []
  else if opf.testBit 0 then [a.2.2.2]
  else match s.kvHead r a.2.1 a.2.2.1 with | .ok h => [h.sketch] | _ => []

/-! ## Issue -/

/-- The lanes' arguments of an instruction. -/
def State.kvArgs (s : State) (f : OpT) (ls : Lanes) : List (Nat × Nat × Nat × Nat) :=
  (lanesOf ls).map (fun l =>
    (l, (s.src64 l f.a).toNat, (s.src32 l f.b).toNat, match f.c with | .v _ => (s.src64 l f.c).toNat | _ => 0))

def srcDst : Src → Dst
  | .v n => .v n
  | _ => .discard

/-- Lines of a lane's reads and of its writes, as accesses for a way's blocks (R313). -/
def lineAccs (ls : List Nat) : List Acc := ls.map (fun l => { lane := 0, ta := 64 * l, len := 1 })

/-- Scratchpad violations of SKCH.vec's lanes other than range, which is malformed (R126, R127). -/
def State.vecFails (s : State) (args : List (Nat × Nat × Nat × Nat)) : List (Nat × Nat) :=
  args.filterMap (fun a =>
    let code (va n : Nat) (rd : Bool) : Nat :=
      match regionAt va with
      | .scr => s.scrCode s.wWarp.team (offIn va) n rd
      | _ => 0
    let c := if code a.2.1 256 true = 0 ∨ code a.2.1 256 true = 1 then code a.2.2.2 32 false else code a.2.1 256 true
    if c = 2 ∨ c = 3 then some (a.1, c) else none)

/-- Fetches into the core's L1 of lines that a per-lane instruction reads, each once (R132, step 3). -/
def State.fetchLines (s : State) (ls : List Nat) : State :=
  (distinct ls).foldl (fun s l =>
    let there (q : Req) : Bool := q.kind == .prefetch && q.warp == s.who.warp && !q.nl1 && q.accs.any (fun a => lineOf a.ta == l)
    if s.reqs.any there then s
    else
      let r := s.newReq {
        id := 0, warp := 0, kind := .prefetch, started := true, accs := [{ lane := 0, ta := 64 * l, len := 1, left := [0] }] }
      { s.bump with reqs := s.reqs ++ [{ r with behind := [] }] }) s

/-- A per-lane instruction. Its reads are made as it issues, behind nothing that its gang still holds, so that poison
is met precisely and before anything is written (R325), and through the root pinned then (R346). While a line that it
reads is not at hand it waits at issue for its fetch. A lane of SKCH.vec that violates the scratchpad rules and is not
malformed is switched off (R127, R329). -/
def State.kv (s : State) (i : Instr) (f : OpT) (func : Nat) (rel : Bool) : State :=
  s.issue i (fun s => s.noRegion f.com (fun s =>
    if s.guessing then .oldest else
    let opf := f.opf.toNat
    let vec := func == 3 && opf.testBit 0
    let args := s.kvArgs f (s.executing f.com)
    let young := s.youngWay
    let r : Req := {
      id := 0, warp := 0, kind := .kv func opf [] 0 0, scope := f.scope
      order := if rel && !young then .release else .relaxed, dst := f.tok }
    let q := s.newReq r
    let found := args.map (fun a => (a, s.kvLane q func opf a))
    let fails := if vec then s.vecFails ((found.filter (fun p => match p.2 with | .malformed => false | _ => true)).map (·.1)) else []
    let args := args.filter (fun a => !fails.any (fun p => p.1 == a.1))
    let found := found.filter (fun p => !fails.any (fun q => q.1 == p.1.1))
    let hits := found.filterMap (fun p => match p.2 with | .ok h => some h | _ => none)
    let pick (t : KvLane (KvRes × Word) → Bool) : Lanes := maskOf ((found.filter (fun p => t p.2)).map (fun p => p.1.1))
    let bad := found.filterMap (fun p => match p.2 with | .poison => some p.1 | _ => none)
    let reads := args.flatMap (s.kvReads q func opf)
    -- SKCH in a young way: into a valid slot, to scratchpad, or past 128 lines it waits (R315)
    let stuck := young && func == 3 &&
      (hits.any (fun h => if vec then isScr h.1.addr else (s.curNat h.1.hdr 8).testBit h.1.slot) || !fails.isEmpty ||
       (vec && (s.bufferStore 0 (hits.map (fun h => { lane := 0, ta := h.1.addr, len := 32 }))).isNone))
    let t := (reads ++ args.flatMap (s.kvWrites q func opf)).foldl (fun t va => t.noteVa s.who.warp va) s
    let due := found.flatMap (fun p => match p.2 with | .wait ls => ls | _ => [])
    if !q.behind.isEmpty then .wait
    else if found.any (fun p => match p.2 with | .wait _ => true | _ => false) then .waitFrom (s.fetchLines due)
    else if !bad.isEmpty then
      .trapFrom (bad.foldl (fun t a => match s.kvAt s.who.warp a.2.1 0 with
        | .ok ta => t.consumedAt ta s.wWarp.core s.wWarp.tenant
        | _ => t.consumed s.wWarp.core s.wWarp.tenant) t) {
        cause := 0x0F, lanes := maskOf (bad.map (·.1)), kind := 0
        addr := bad.foldl (fun (t : Tab Double) a => t.set 0 a.1 (BitVec.ofNat 64 a.2.1)) [] }
    else if stuck then .oldest
    else
      let s := t.noteReads (lineAccs (reads.filterMap (fun va => match regionAt va, s.kvAt s.who.warp va 0 with
        | .scr, _ => if vec then some (lineOf (scrBase + offIn va)) else none
        | _, .ok ta => some (lineOf ta)
        | _, _ => none)))
      -- SKCH.vec in a young way is an ST to its destination (R315)
      let s := if vec && young then
          (s.bufferStore 0 (hits.map (fun h => { lane := h.1.lane, ta := h.1.addr, len := 32, val := h.1.val }))).getD s
        else s
      let s := if func = 1 then s.noteWrites (lineAccs (hits.flatMap (fun h =>
          lineOf h.1.addr :: (if opf.testBit 1 then [lineOf (h.1.tab + 12)] else []))))
        else if func = 3 then s.noteWrites (hits.map (fun h => { lane := 0, ta := h.1.addr, len := 32 })) else s
      let s := s.raise (hits.foldl (fun fl h => fl ||| h.2) 0)
      let id := s.clk.fresh
      let replay := pick (fun x => match x with | .replay => true | _ => false)
      let malformed := pick (fun x => match x with | .malformed => true | _ => false)
      s.submit { r with kind := .kv func opf (if vec && young then [] else hits.map (·.1)) replay malformed } (fun s =>
        (((s.await id f.tok 2 s.active).await id (if func = 0 then srcDst f.c else .discard) 2
          (maskOf (args.map (·.1)))).advance).switchOff fails)))

def execKvx (f : OpT) (s : State) : Out := .next (s.kv (.kvx f) f 0 false)
def execKvvalSet (f : OpT) (s : State) : Out := .next (s.kv (.kvvalSet f) f 1 true)
def execKvvalClr (f : OpT) (s : State) : Out := .next (s.kv (.kvvalClr f) f 1 false)
def execSkchSlot (f : OpT) (s : State) : Out := .next (s.kv (.skchSlot f) f 3 false)
def execSkchVec (f : OpT) (s : State) : Out := .next (s.kv (.skchVec f) f 3 false)

/-- KVRCL (R330). -/
def execKvrcl (f : OpT) (s : State) : Out :=
  .next (s.engine (.kvrcl f) f (fun s =>
    s.engIssue { s.newOp 0xA 2 f with b := s.pairVal f.a, a := s.pairVal f.b } f.tok))

/-! ## Applying KVVAL (R327) -/

/-- A write of several lanes carried out at a bank unit. -/
def State.bankWrite (s : State) (r : Req) (k : ReqKind) (as : List Acc) : State :=
  match as with
  | [] => s
  | a :: _ =>
    let w : Write := {
      id := s.clk.fresh, warp := some r.warp, src := r.warp, core := r.core, die := r.core / 64, line := lineOf a.ta
      place := .bank, kind := k, accs := as, req := r.id, tenant := (s.warp r.warp).tenant, time := s.clk.time }
    ({ s.bump with writes := s.writes ++ [w] }).addPend r.warp 1

/-- The valid bits' updates: one write per header, lanes ascending. -/
def State.setValid (s : State) (r : Req) (k : KvRec) : State :=
  (distinct (k.lanes.map (fun p => p.2.1))).foldl (fun s h =>
    let mine := k.lanes.filter (fun p => p.2.1 == h)
    let acc (p : Nat × Nat × Nat × Nat × Nat) : Acc :=
      let bit := 2 ^ p.2.2.1
      { lane := p.1, ta := h, len := 8, val := if k.set then bit else 2 ^ 64 - 1 - bit }
    s.bankWrite r (.red (if k.set then 6 else 5)) (mine.map acc)) s

/-- LEN's updates: LEN stands in the table header's bits [127:96]. -/
def State.setLen (s : State) (r : Req) (k : KvRec) : State :=
  (distinct (k.lanes.map (fun p => p.2.2.2.1))).foldl (fun s t =>
    let mine := k.lanes.filter (fun p => p.2.2.2.1 == t)
    let acc (p : Nat × Nat × Nat × Nat × Nat) : Acc :=
      { lane := p.1, ta := t + 12, len := 4, val := if k.set then p.2.2.2.2 + 1 else p.2.2.2.2 }
    s.bankWrite r (.red (if k.set then 4 else 3)) (mine.map acc)) s

/-- Writes that the next part of a KVVAL makes. -/
def KvRec.writes (k : KvRec) (len : Bool) : Nat :=
  (distinct (k.lanes.map (fun p => if len then p.2.2.2.1 else p.2.1))).length

/-- The request's own place in wpend is given up. -/
def State.dropPend (s : State) (r : Req) : State := s.updWarp r.warp (fun w => { w with wpend := w.wpend - r.nWrites })

/-- The writes made since an identifier was new, for the operations that captured the request (R143). -/
def State.handWrites (s : State) (r : Req) (fresh : Nat) (more : List Nat) : State :=
  s.handOver r.id ((s.writes.filter (fun w => fresh ≤ w.id)).map (·.id) ++ more)

/-- One part of a KVVAL that applies: the valid bits, then, once they are performed, LEN. -/
def State.applyKv (s : State) (r : Req) (k : KvRec) : Out :=
  if !r.returned then
    onlyIf "LOAD_RETURN" ((s.warp r.warp).wpend + k.writes false ≤ 255)
      (let t := (s.setValid r k).handWrites r s.clk.fresh (if k.len then [r.id] else [])
       if k.len then t.putReq { r with kind := .kvval k, returned := true } else (t.dropPend r).dropReq r.id)
  else if s.writes.any (fun w => w.req == r.id && !w.done) then no "LOAD_RETURN"
  else onlyIf "LOAD_RETURN" ((s.warp r.warp).wpend + k.writes true ≤ 255)
    ((((s.setLen r k).handWrites r s.clk.fresh []).dropPend r).dropReq r.id)

/-! ## Returning -/

/-- TOK and TOK + 1 take the replay and the malformed mask; the registers are awaited no more. -/
def State.kvMasks (s : State) (r : Req) (replay bad : Lanes) : State :=
  s.updWarp r.warp (fun w =>
    let w := w.put r.way r.sup 0 r.dst true ((replay.setWidth 64) ||| ((bad.setWidth 64) <<< 32))
    { w with busy := w.busy.filter (fun b => b.id != r.id) })

/-- KVX returns: each lane's address in its d pair. -/
def Warp.takeKvx (w : Warp) (r : Req) (hits : List KvRes) : Warp :=
  match (w.busy.find? (fun b => b.id == r.id && (match b.reg with | .v _ => true | _ => false))).map (·.reg) with
  | none => w
  | some d => (hits.foldl (fun w h => w.put r.way r.sup h.lane d true (BitVec.ofNat 64 h.addr)) w).cleanDst r.way r.sup d true
      (maskOf (hits.map (·.lane)))

/-- The reads of a per-lane instruction have returned. -/
def State.returnKv (s : State) (r : Req) (func opf : Nat) (hits : List KvRes) (replay bad : Lanes) : Out :=
  let masks (s : State) : State := s.kvMasks r replay bad
  let w := s.warp r.warp
  let young := w.young r.way
  match func with
  | 0 => .next ((masks (s.updWarp r.warp (fun w => w.takeKvx r hits))).dropReq r.id)
  | 1 =>
    let k : KvRec := {
      set := !opf.testBit 0, len := opf.testBit 1, scope := r.scope
      lanes := hits.map (fun h => (h.lane, h.addr, h.slot, h.tab, h.pos)) }
    if young then
      .next (((((masks s).updWarp r.warp (fun w => w.updWay r.way (fun y => { y with kv := y.kv ++ [k] }))).dropPend r).handOver
        r.id []).dropReq r.id)
    else if k.set && !r.releases then
      -- recorded by a way that has become the oldest meanwhile: it waits as a release first (R315, R327)
      .next (((masks s).dropPend r).putReq { r with kind := .kvval k, order := .release, started := false })
    else (masks s).applyKv r k
  | _ =>
    let accs : List Acc := hits.map (fun h => { lane := h.lane, ta := h.addr, len := 32, val := h.val })
    let glob := accs.filter (fun a => isGlob a.ta)
    let n := (distinctLines glob).length
    -- a young way's sketch waits where its slot has become valid (R315)
    if 255 < w.wpend + n || (young && !opf.testBit 0 && hits.any (fun h => (s.curNat h.hdr 8).testBit h.slot)) then no "LOAD_RETURN"
    else
      let s := accs.foldl (fun s a => if isScr a.ta then s.localWrite r a a.val else s) s
      let t := (s.enterBay { r with kind := .store } glob).addPend r.warp n
      .next ((((masks t).handWrites r s.clk.fresh []).dropPend r).dropReq r.id)

/-- A load, an atomic or a per-lane instruction returns (R138, R153, R158, R325). -/
def returnAny (load : Nat) (s : State) : Out :=
  match s.req load with
  | none => no "LOAD_RETURN"
  | some r =>
    match r.started, r.kind with
    | true, .kv func opf hits replay bad => s.returnKv r func opf hits replay bad
    | true, .kvval k => s.applyKv r k
    | _, _ => returnLoad load s

end Sys2Proof.Machine
end

