-- ==== Sys2Proof/Machine/Convert.lean ====
section
/-! DEFINITION. Class 0x3: conversions between the number formats (R248 to R256). -/

namespace Sys2Proof.Machine

/-- R249: a value converted to an integer of `w` bits; a clamp is invalid. -/
def toInt (w : Nat) (sg : Bool) (rm : Rnd) (x : FVal) : Res Nat :=
  match x with
  | .nan => ⟨0, flNV⟩
  | .inf n => ⟨bitsInt w (if n then loOf w sg else hiOf w sg), flNV⟩
  | .fin n m e c =>
    let (i, ex) := roundInt rm n m e c
    if i < loOf w sg then ⟨bitsInt w (loOf w sg), flNV⟩
    else if hiOf w sg < i then ⟨bitsInt w (hiOf w sg), flNV⟩
    else ⟨bitsInt w i, if ex then 0 else flNX⟩

def resCvt (f : OpA) (s : State) (l : Nat) : Res Double :=
  let a := s.src l f.st f.a
  f32Res (if f.st.int then (ffmtOf f.ty).round f.rnd (FVal.ofInt (valTy f.st a))
    else toInt f.ty.bits (signedTy f.ty) f.rnd (fval (ffmtOf f.st) a))
def execCvt (f : OpA) (s : State) : Out := .next (s.alu (.cvt f) resCvt)

/-- R250: each element on its own. -/
def resFcvt (f : OpA) (s : State) (l : Nat) : Res Double :=
  let a := (s.src l f.st f.a).toNat
  let g := ffmtOf f.ty
  let h := ffmtOf f.st
  if f.ty.packedFloat then
    let r0 := g.round f.rnd (h.value (a % 2 ^ 16))
    let r1 := g.round f.rnd (h.value (a / 2 ^ 16))
    ⟨ofBits (r0.val + r1.val * 2 ^ 16), r0.fl ||| r1.fl⟩
  else f32Res (g.round f.rnd (h.value a))
def execFcvt (f : OpA) (s : State) : Out := .next (s.alu (.fcvt f) resFcvt)

/-- R251. -/
def resPk2 (f : OpA) (s : State) (l : Nat) : Res Double :=
  let t : Ty := if f.ty.packedFloat then .f32 else .s32
  let one (x : Double) : Res Nat :=
    if f.ty.packedFloat then (ffmtOf f.ty).round f.rnd (fval fmtF32 x)
    else storeInt 16 (signedTy f.ty) true (valOf 32 true x.toNat)
  let r0 := one (s.src l t f.a)
  let r1 := one (s.src l t f.b)
  ⟨ofBits (r0.val + r1.val * 2 ^ 16), r0.fl ||| r1.fl⟩
def execPk2 (f : OpA) (s : State) : Out := .next (s.alu (.pk2 f) resPk2)

def resUpk2 (f : OpA) (s : State) (l : Nat) : Res Double :=
  let x := (tA f s l).toNat / 2 ^ (16 * f.opx.toNat) % 2 ^ 16
  if f.ty.packedFloat then plainN (fmtF32.round .rn ((ffmtOf f.ty).value x)).val
  else plainN (bitsInt 32 (valOf 16 (signedTy f.ty) x))
def execUpk2 (f : OpA) (s : State) : Out := .next (s.alu (.upk2 f) resUpk2)

def resE10enc (f : OpA) (s : State) (l : Nat) : Res Double :=
  f32Res (e10Encode f.rnd (fval fmtF32 (s.src l .f32 f.a)).abs)
def execE10enc (f : OpA) (s : State) : Out := .next (s.alu (.e10enc f) resE10enc)

/-- R253: bits [31:16] are ignored. -/
def resE10dec (f : OpA) (s : State) (l : Nat) : Res Double :=
  let r := e10Value (nA f s l % 2 ^ 16)
  ⟨ofBits (fmtF32.round .rn r.val).val, r.fl⟩
def execE10dec (f : OpA) (s : State) : Out := .next (s.alu (.e10dec f) resE10dec)

def resRnsenc (f : OpA) (s : State) (l : Nat) : Res Double :=
  let r := rnsEncode (s.src32 l f.a).toInt
  ⟨r.val.setWidth 64, r.fl⟩
def execRnsenc (f : OpA) (s : State) : Out := .next (s.alu (.rnsenc f) resRnsenc)

def resRnsdec (f : OpA) (s : State) (l : Nat) : Res Double :=
  let r := reconstruct (nA f s l)
  ⟨r.val.setWidth 64, r.fl⟩
def execRnsdec (f : OpA) (s : State) : Out := .next (s.alu (.rnsdec f) resRnsdec)

/-- A value over a scale as an LQ element of `n` bits (R255). -/
def quantise (n : Nat) (rm : Rnd) (x : FVal) (sc : Res FVal) : Res Int :=
  if x.isNan || sc.val.isNan then ⟨0, flNV ||| sc.fl⟩
  else if sc.val.isZero then ⟨0, (if x.isZero then 0 else flDZ) ||| sc.fl⟩
  else match divFVal x sc.val with
    | .inf neg => ⟨if neg then loOf n true else hiOf n true, flINTSAT⟩
    | .fin neg m e c =>
      let (i, ex) := roundInt rm neg m e c
      if i < loOf n true ∨ hiOf n true < i then clampInt i (loOf n true) (hiOf n true)
      else ⟨i, if ex then 0 else flNX⟩
    | .nan => ⟨0, flNV⟩

def resQnt (f : OpA) (s : State) (l : Nat) : Res Double :=
  let r := quantise (lqBits f.opx.toNat) f.rnd (fval (ffmtOf f.ty) (tA f s l)) (e10Value (nB f s l % 2 ^ 16))
  ⟨ofBits (bitsInt 32 r.val), r.fl⟩
def execQnt (f : OpA) (s : State) : Out := .next (s.alu (.qnt f) resQnt)

/-- An element times a scale as f32 bits (R256, R273). -/
def dequantise (n : Int) (sc : Res FVal) : Res Nat :=
  match sc.val with
  | .nan => ⟨fmtF32.nanBits, sc.fl⟩
  | v =>
    if n = 0 ∨ v.isZero then ⟨0, sc.fl⟩
    else ⟨(fmtF32.round .rn (mulFVal (FVal.ofInt n) v).1).val, sc.fl⟩

def resDqnt (f : OpA) (s : State) (l : Nat) : Res Double :=
  let n := lqBits f.opx.toNat
  f32Res (dequantise (signedOf n (nA f s l)) (e10Value (nB f s l % 2 ^ 16)))
def execDqnt (f : OpA) (s : State) : Out := .next (s.alu (.dqnt f) resDqnt)

end Sys2Proof.Machine
end

