-- ==== Sys2Proof/Machine/Tile.lean ====
section
/-! DEFINITION. Class 0x9: the tile instructions (R257 to R279): issue, the checks at the start, and the steps
of each on the array. -/

namespace Sys2Proof.Machine

/-! ## Operands (R259 to R263, R275) -/

/-- The accepted format words of R263. -/
def Fmt.accepts (f : Fmt) (func : Nat) : Bool :=
  match func with
  | 0 | 1 => f.mma
  | 2 => f.zero == 0 && f.ta == 0 && f.tb == 0 && f.form ≤ 1 && !f.sa && !f.sb && f.nkb == 1
  | 3 => f.zero == 0 && f.ta ≤ 2 && f.tb == 0 && f.form == 0 && f.sa && !f.sb
  | 4 => f.zero == 0 && f.ta ≤ 2 && f.tb == 0 && f.form == 0 && !f.sb
  | 5 => f.zero == 0 && f.ta == 0 && f.tb == 0 && f.form == 0 && !f.sa && !f.sb && f.nkb == 1
  | 7 => f.zero == 0 && f.ta == 0 && f.tb == 0 && f.form == 0 && !f.sa && !f.sb
  | _ => true

/-- TTRN's fields (R275): element bytes, rows, columns, source and destination strides. -/
structure Trn where
  e  : Nat
  nr : Nat
  nc : Nat
  ss : Nat
  ds : Nat
  deriving DecidableEq, Repr

def trnOf (opf : Nat) : Trn :=
  ⟨2 ^ bitsOf opf 28 2, bitsOf opf 20 8 + 1, bitsOf opf 12 8 + 1, 64 * (bitsOf opf 6 6 + 1), 64 * (bitsOf opf 0 6 + 1)⟩

/-- Bytes of an element of TQNT's and TSTAT's source, and its format. -/
def srcBytes (opf : Nat) : Nat := if bitsOf opf 0 2 = 0 then 4 else 2
def srcFmt (opf : Nat) : FFmt := match bitsOf opf 0 2 with | 0 => fmtF32 | 1 => fmtBf16 | _ => fmtF16

/-- Bytes of the SA and of the SB operand, a C tile over its columns up to `cols` of the mask. -/
def tileSpans (func opf : Nat) (f : Fmt) (c : Nat) : Nat × Nat :=
  let t := trnOf opf
  match func with
  | 0 | 1 => (c, f.bytesA)
  | 2 => (c, 0)
  | 3 => (f.bytesA, f.m * 48 * f.nkb * srcBytes opf)
  | 4 => (f.m * 192 * f.nkb, f.bytesA)
  | 5 => (c, c)
  | 6 => ((t.nc - 1) * t.ds + t.nr * t.e, (t.nr - 1) * t.ss + t.nc * t.e)
  | _ => (4 * f.m * f.nkb, f.m * 48 * f.nkb * srcBytes opf)

/-- The bytes that an operation will write (R266). -/
def tileWrites (func opf : Nat) (f : Fmt) (at' mask : Nat) : List (Nat × Nat) :=
  let t := trnOf opf
  match func with
  | 3 => [(at', f.m * f.rowA), (at' + f.planeA, 2 * f.m * f.nkb)]
  | 4 => [(at', f.m * 192 * f.nkb)]
  | 6 => (List.range t.nc).map (fun j => (at' + j * t.ds, t.nr * t.e))
  | 7 => [(at', 4 * f.m * f.nkb)]
  | _ => spansC at' f.m mask

/-! ## Checks at the start (R265, R270) -/

/-- The instruction that an operation runs as on the array: a CPYX's follow-on is MMA or MMAG. -/
def EngOp.tileFunc (o : EngOp) : Nat := if o.cls = 8 then bitsOf o.opf 0 1 else o.func

def State.scrNat (s : State) (team off n : Nat) : Nat := leNat (s.scrBytes team off n)

/-- Groups of an MMA or MMAG: first row, rows, B offset, B scale offset. -/
abbrev Group := Nat × Nat × Nat × Nat

/-- Entries of a group table from row `r0` on, or a malformed one (R270). -/
def parseGroups (sb : Bool) : Nat → List Nat → Option (List Group)
  | _, [] => some []
  | r0, e :: es =>
    let rows := bitsOf e 0 32
    let boff := bitsOf e 32 32
    let bscl := bitsOf e 64 32
    if bitsOf e 96 32 ≠ 0 ∨ 256 < rows ∨ boff % 16 ≠ 0 ∨ bscl % 2 ≠ 0 ∨ (!sb ∧ bscl ≠ 0) then none
    else (parseGroups sb (r0 + rows) es).map (fun gs => (r0, rows, boff, bscl) :: gs)

/-- An MMAG's group table, or a token code. -/
def State.groups (s : State) (o : EngOp) (f : Fmt) : Except Nat (List Group) :=
  let size := (s.team o.team).size
  if size < o.tx + 16 then .error 0x07
  else
    let hd := s.scrNat o.team o.tx 16
    let ng := bitsOf hd 0 32
    if ng = 0 ∨ 256 < ng then .error 0x09
    else if size < o.tx + 16 + 16 * ng then .error 0x07
    else if bitsOf hd 32 96 ≠ 0 then .error 0x09
    else match parseGroups f.sb 0 ((List.range ng).map (fun k => s.scrNat o.team (o.tx + 16 + 16 * k) 16)) with
      | none => .error 0x09
      | some gs => if gs.foldl (fun n g => n + g.2.1) 0 = f.m then .ok gs else .error 0x09

/-- A B element or scale beyond its column (R265). -/
def badB (f : Fmt) (gs : List Group) : Bool :=
  gs.any (fun g => g.2.1 != 0 &&
    (24576 < g.2.2.1 + f.nkb * blockBytes f.tb || (f.sb && 24576 < g.2.2.2 + 2 * f.nkb)))

/-- The checks before a tile operation's first read: its groups, or the token code. -/
def State.tileChecks (s : State) (o : EngOp) : Except Nat (List Group) :=
  let f := fmtOf o.fmt
  let func := o.tileFunc
  let size := (s.team o.team).size
  let opst := (s.team o.team).opst
  let span := tileSpans func o.opf f (bytesC f.m o.mask)
  let rest (gs : List Group) : Except Nat (List Group) :=
    if size < o.tc + span.1 ∨ (func ≠ 2 ∧ size < o.ta + span.2) then .error 0x07
    else if func ≤ 1 && (!opst || badB f gs) then .error 0x08
    else .ok gs
  if !f.accepts func then .error 0x09
  else match func with
    | 0 => rest [(0, f.m, o.tx, o.tx + (f.nkb * blockBytes f.tb + 15) / 16 * 16)]
    | 1 =>
      if !opst then (if size < o.tx + 16 then .error 0x07 else rest [])
      else match s.groups o f with
        | .error c => .error c
        | .ok gs => rest gs
    | _ => rest []

/-! ## Elements -/

/-- Element `k` of an LQ block, its bytes as one number (R227). -/
def lqElem (t blk k : Nat) : Int := signedOf (lqBits t) (blk / 2 ^ (lqBits t * k))

/-- 48 elements packed as an LQ block. -/
def lqPack (t : Nat) (xs : List Int) : Nat :=
  (xs.foldl (fun (p : Nat × Nat) x => (p.1 + (x % 2 ^ lqBits t).toNat * 2 ^ p.2, p.2 + lqBits t)) (0, 0)).1

/-- Element `k` of a block as an exact value. -/
def blockElem (t blk k : Nat) : FVal :=
  match t with
  | 3 => fmtBf16.value (blk / 2 ^ (16 * k) % 2 ^ 16)
  | 4 => fmtF16.value (blk / 2 ^ (16 * k) % 2 ^ 16)
  | _ => FVal.ofInt (lqElem t blk k)

/-- An exact group sum with its specials (R233, R234): a zero sum is +0. -/
def groupSum (xs ys : List FVal) : Res FVal :=
  if xs.any FVal.isNan || ys.any FVal.isNan then ⟨.nan, 0⟩
  else
    let ps := (List.zip xs ys).map (fun p => mulFVal p.1 p.2)
    if ps.any (·.2) then ⟨.nan, flNV⟩
    else
      let r := sumFVal .rn (ps.map (·.1))
      if r.val.isZero then ⟨.fin false 0 0 false, r.fl⟩ else r

/-- One group added to an f32 accumulator, with the group's scales (R233, R234). -/
def addGroup (acc : Nat) (xs ys : List FVal) (sa sb : Res FVal) : Res Nat :=
  let g := groupSum xs ys
  let v := (mulFVal (mulFVal g.val sa.val).1 sb.val).1
  let v := if v.isZero then .fin false 0 0 false else v
  let r := fmtF32.round .rn v
  let t := sumFVal .rn [fmtF32.value acc, fmtF32.value r.val]
  let u := fmtF32.round .rn t.val
  ⟨u.val, g.fl ||| sa.fl ||| sb.fl ||| r.fl ||| t.fl ||| u.fl⟩

/-- A group's integer sum added to a residue word; a malformed accumulator stays malformed (R235). -/
def addResidue (acc : Nat) (n : Int) : Nat :=
  if residueBad acc then 0xC0000000
  else
    let ch (sh w q : Nat) : Nat := (((acc / 2 ^ sh % 2 ^ w : Nat) + n) % (q : Int)).toNat * 2 ^ sh
    ch 0 8 255 + ch 8 8 256 + ch 16 9 257 + ch 25 5 31

/-! ## Steps -/

/-- The way that issued an operation is still live: its loop goes on, and its iteration has not been kept. -/
def Warp.issuerLives (w : Warp) (o : EngOp) : Bool :=
  match w.loop, o.loop with
  | some l, some (id, n) => l.id == id && l.done ≤ n && (w.way? o.way).isSome
  | none, none => true
  | _, _ => false

/-- Flags raised in every copy of the warp's own state: its ways', what they started from, what a handler saved. -/
def Warp.raiseAll (w : Warp) (fl : Word) : Warp :=
  let up (a : Arch) : Arch := { a with fstat := a.fstat ||| fl }
  let hand (k : Nat) : Bool := match w.trap with | some t => t.way == k | none => false
  { w with
    trap := w.trap.map (fun t => { t with fstat := t.fstat ||| fl })
    arch := if w.trap.isSome && w.loop.isNone then w.arch else up w.arch
    loop := w.loop.map (fun l => { l with
      committed := up l.committed
      ways := l.ways.map (fun p =>
        (p.1, { p.2 with arch := if hand p.1 then p.2.arch else up p.2.arch, start := up p.2.start })) }) }

/-- Flags of a step go to the issuing warp's fstat (R225): to the way that issued it, or once that has been kept to
every copy; those of a handler's operation to the handler's, which is gone after TRET. -/
def Warp.raiseOp (w : Warp) (o : EngOp) (fl : Word) : Warp :=
  if o.sup then (match w.trap with | some t => w.raise t.way true fl | none => w)
  else if w.issuerLives o then w.raise o.way false fl
  else w.raiseAll fl

def State.raiseOp (s : State) (o : EngOp) (fl : Word) : State := s.updWarp o.warp (fun w => w.raiseOp o fl)

/-- Enabled columns. -/
def maskCols (mask : Nat) : List Nat := (List.range 256).filter (fun j => mask.testBit j)

def State.wordC (s : State) (o : EngOp) (base i j : Nat) : Nat := s.scrNat o.team (base + 1024 * i + 4 * j) 4

/-- Accumulators written to C (R261, R277). -/
def State.putAcc (s : State) (o : EngOp) : State :=
  o.acc.foldl (fun s p =>
    s.scrPut o.team (o.tc + 1024 * (p.1 / 256) + 4 * (p.1 % 256)) (leBytes 4 p.2.toNat)) s

/-- C read as the accumulators of some rows. -/
def State.readAcc (s : State) (o : EngOp) (rows : List Nat) : Tab Word :=
  rows.flatMap (fun i => (maskCols o.mask).map (fun j => (256 * i + j, BitVec.ofNat 32 (s.wordC o o.tc i j))))

/-- The first group from `n` on that has rows. -/
def nextGroup (gs : List Group) (n : Nat) : Option Nat :=
  (List.range gs.length).find? (fun k => n ≤ k && (gs.getD k (0, 0, 0, 0)).2.1 != 0)

/-- Groups kept in the operation's table, and read back. -/
def flatGroups (gs : List Group) : List Nat := gs.flatMap (fun g => [g.1, g.2.1, g.2.2.1, g.2.2.2])
def unflatGroups : List Nat → List Group
  | a :: b :: c :: d :: r => (a, b, c, d) :: unflatGroups r
  | _ => []

/-- A step of MMA or MMAG: one K block of one group, for its rows and the enabled columns (R269, R270). -/
def State.mmaStep (s : State) (o : EngOp) : State :=
  let f := fmtOf o.fmt
  let gs := unflatGroups o.table
  let grp := gs.getD o.next (0, 0, 0, 0)
  let rows := (List.range grp.2.1).map (fun i => grp.1 + i)
  let g := o.kblk
  let ba := blockBytes f.ta
  let bb := blockBytes f.tb
  let ost := (s.core o.core).ost
  let bad (w : Nat) : Bool := f.form == 0 && residueBad w
  let start : Tab Word × Word :=
    if g ≠ 0 then (o.acc, 0)
    else if o.tacc then
      let t := s.readAcc o rows
      (t, if t.any (fun p => bad p.2.toNat) then flRNSOVF else 0)
    else (rows.flatMap (fun i => (maskCols o.mask).map (fun j => (256 * i + j, 0))), 0)
  let scaleOf (b : Bool) (x : Nat) : Res FVal := if b then e10Value x else ⟨.fin false 1 0 false, 0⟩
  let one (key : Nat) (acc : Word) : Res Nat :=
    let i := key / 256
    let j := key % 256
    let ab := s.scrNat o.team (o.ta + i * f.rowA + g * ba) ba
    let bbk := leNat (readBytes ost (24576 * j + grp.2.2.1 + g * bb) bb)
    if f.form = 0 then
      ⟨addResidue acc.toNat ((List.range 48).foldl (fun (n : Int) k => n + lqElem f.ta ab k * lqElem f.tb bbk k) 0), 0⟩
    else
      let sa := scaleOf f.sa (s.scrNat o.team (o.ta + f.planeA + 2 * (i * f.nkb + g)) 2)
      let sb := scaleOf f.sb (leNat (readBytes ost (24576 * j + grp.2.2.2 + 2 * g) 2))
      addGroup acc.toNat ((List.range 48).map (blockElem f.ta ab)) ((List.range 48).map (blockElem f.tb bbk)) sa sb
  let done := start.1.map (fun p => (p.1, one p.1 p.2))
  let fl := done.foldl (fun fl p => fl ||| p.2.fl) start.2
  let acc : Tab Word := done.map (fun p => (p.1, BitVec.ofNat 32 p.2.val))
  let s := s.raiseOp o fl
  if g + 1 < f.nkb then s.updOp o.id (fun e => { e with acc := acc, kblk := g + 1, idx := e.idx + 1 })
  else
    let s := s.putAcc { o with acc := acc }
    match nextGroup gs (o.next + 1) with
    | some n => s.updOp o.id (fun e => { e with acc := [], kblk := 0, next := n, idx := e.idx + 1 })
    | none => s.updOp o.id (fun e => { e with acc := [], kblk := 0, next := gs.length, idx := e.idx + 1 })

/-- A block quantised (R272): its scale's container, its elements, its flags. -/
def quantBlock (t : Nat) (xs : List FVal) : Nat × List Int × Word :=
  if xs.any (fun x => x.isNan || x.isInf) then (0x03F8, xs.map (fun _ => 0), flNV)
  else
    let a := xs.foldl (fun a x => if cmpFVal a x.abs < 0 then x.abs else a) (.fin false 0 0 false)
    if a.isZero then (0, xs.map (fun _ => 0), 0)
    else
      let hi := hiOf (lqBits t) true
      let e := e10Encode .ru (divFVal a (FVal.ofInt hi))
      let sc := if e.val = 0 then 0x0008 else e.val
      let fl := if e.fl &&& flOF != 0 then flOF ||| flNX else 0
      let qs := xs.map (fun x =>
        match divFVal x (e10Value sc).val with
        | .fin neg m ex c =>
          let (i, exact) := roundInt .rn neg m ex c
          let r := clampInt i (loOf (lqBits t) true) hi
          (r.val, r.fl ||| (if exact then 0 else flNX))
        | _ => (0, 0))
      (sc, qs.map (·.1), qs.foldl (fun fl q => fl ||| q.2) fl)

/-- A step of the instructions whose steps are rows (R271 to R276). -/
def State.rowStep (s : State) (o : EngOp) : State :=
  let f := fmtOf o.fmt
  let i := o.next
  let put (s : State) (off : Nat) (bs : List Byte) : State := s.scrPut o.team off bs
  let eb := srcBytes o.opf
  let elems (g : Nat) : List FVal := (List.range 48).map (fun k =>
    (srcFmt o.opf).value (s.scrNat o.team (o.ta + (i * 48 * f.nkb + 48 * g + k) * eb) eb))
  let next (s : State) : State := s.updOp o.id (fun e => { e with next := i + 1, idx := e.idx + 1 })
  match o.func with
  | 2 => next ((maskCols o.mask).foldl (fun s j => put s (o.tc + 1024 * i + 4 * j) (leBytes 4 0)) s)
  | 3 =>
    let bs := (List.range f.nkb).map (fun g => (g, quantBlock f.ta (elems g)))
    let s' := bs.foldl (fun s p =>
      put (put s (o.tc + i * f.rowA + p.1 * blockBytes f.ta) (leBytes (blockBytes f.ta) (lqPack f.ta p.2.2.1)))
        (o.tc + f.planeA + 2 * (i * f.nkb + p.1)) (leBytes 2 p.2.1)) s
    next (s'.raiseOp o (bs.foldl (fun fl p => fl ||| p.2.2.2) 0))
  | 4 =>
    let bb := blockBytes f.ta
    let bs := (List.range f.nkb).flatMap (fun g =>
      let blk := s.scrNat o.team (o.ta + i * f.rowA + g * bb) bb
      let sc : Res FVal := if f.sa then e10Value (s.scrNat o.team (o.ta + f.planeA + 2 * (i * f.nkb + g)) 2)
        else ⟨.fin false 1 0 false, 0⟩
      (List.range 48).map (fun k => (48 * g + k, dequantise (lqElem f.ta blk k) sc)))
    let s' := bs.foldl (fun s p => put s (o.tc + i * 192 * f.nkb + 4 * p.1) (leBytes 4 p.2.val)) s
    next (s'.raiseOp o (bs.foldl (fun fl p => fl ||| p.2.fl) 0))
  | 5 =>
    let ws := (maskCols o.mask).map (fun j => (j, reconstruct (s.wordC o o.ta i j)))
    let s' := ws.foldl (fun s p => put s (o.tc + 1024 * i + 4 * p.1) (leBytes 4 p.2.val.toNat)) s
    next (s'.raiseOp o (ws.foldl (fun fl p => fl ||| p.2.fl) 0))
  | 6 =>
    let t := trnOf o.opf
    next ((List.range t.nc).foldl (fun s j =>
      put s (o.tc + j * t.ds + i * t.e) (leBytes t.e (o.table.getD (i * t.nc + j) 0))) s)
  | _ =>
    next ((List.range f.nkb).foldl (fun s' g =>
      let xs := elems g
      let v : Nat := if xs.any FVal.isNan then fmtF32.nanBits
        else (fmtF32.round .rn (xs.foldl (fun a x => if cmpFVal a x.abs < 0 then x.abs else a) (.fin false 0 0 false))).val
      put s' (o.tc + 4 * (i * f.nkb + g)) (leBytes 4 v)) s)

/-- Rows that an operation of row steps takes. -/
def EngOp.tileRows (o : EngOp) : Nat := if o.func = 6 then (trnOf o.opf).nr else (fmtOf o.fmt).m

/-- What an operation holds when it has started (R265, R270, R275). -/
def State.tileBegin (s : State) (o : EngOp) (gs : List Group) : EngOp :=
  let o := { o with started := true, susp := false, idx := 0, kblk := 0, next := (nextGroup gs 0).getD 0, table := flatGroups gs }
  if o.tileFunc = 6 ∧ o.cls = 9 then
    let t := trnOf o.opf
    { o with table := (List.range t.nr).flatMap (fun i =>
        (List.range t.nc).map (fun j => s.scrNat o.team (o.ta + i * t.ss + j * t.e) t.e)) }
  else o

def EngOp.tileDone (o : EngOp) : Bool :=
  if o.tileFunc ≤ 1 ∨ o.cls = 8 then (unflatGroups o.table).length ≤ o.next else o.tileRows ≤ o.next

def State.tileStep (s : State) (o : EngOp) : State :=
  if o.tileFunc ≤ 1 ∨ o.cls = 8 then s.mmaStep o else s.rowStep o

/-! ## What a tile operation reads (R266) -/

/-- Operand spans: true in scratchpad, false in the operand store. A group table counts with as many entries as its
header names now; a header that a copy will still replace is waited for first. -/
def State.tileReads (s : State) (o : EngOp) : List (Bool × Nat × Nat) :=
  let f := fmtOf o.fmt
  let func := o.tileFunc
  let span := tileSpans func o.opf f (bytesC f.m o.mask)
  let b := if func = 2 then [] else [(true, o.ta, span.2)]
  if func ≤ 1 then
    let gs := match s.tileChecks o with | .ok gs => gs | .error _ => []
    b ++ (if o.tacc then [(true, o.tc, span.1)] else []) ++
      (if func = 1 then [(true, o.tx, 16 + 16 * min 256 (bitsOf (s.scrNat o.team o.tx 16) 0 32))] else []) ++
      gs.flatMap (fun g => (maskCols o.mask).flatMap (fun j =>
        (false, 24576 * j + g.2.2.1, f.nkb * blockBytes f.tb) ::
          (if f.sb then [(false, 24576 * j + g.2.2.2, 2 * f.nkb)] else [])))
  else b

/-- Bytes of the operand store that an OSLD in flight writes. -/
def EngOp.osSpans (o : EngOp) : List (Nat × Nat) :=
  if o.cls = 8 ∧ o.func = 8 then (List.range (bitsOf o.opf 8 8 + 1)).map (fun j => (o.a + 24576 * j, o.c)) else []

/-- Scratchpad that a copy lands bytes in; a CPYX's C is its follow-on's, and counts for R126 only (R281). -/
def EngOp.lands (o : EngOp) : List (Nat × Nat) := if o.func = 5 then o.sdst.take 1 else o.sdst

/-- A copy in flight targets an operand byte. A CPYX that the same warp issued later is not waited for: its follow-on
stands behind this operation (R282, log 127). -/
def State.copiesInto (s : State) (o : EngOp) (reads : List (Bool × Nat × Nat)) : Bool :=
  s.ops.any (fun e => e.id != o.id && e.cls == 8 && !(e.func == 5 && e.warp == o.warp && o.id < e.id) &&
    reads.any (fun r =>
      if r.1 then e.team == o.team && e.lands.any (fun d => d.1 < r.2.1 + r.2.2 && r.2.1 < d.1 + d.2)
      else e.core == o.core && e.osSpans.any (fun d => d.1 < r.2.1 + r.2.2 && r.2.1 < d.1 + d.2)))

/-! ## Issue (R264) -/

/-- A span that leaves the scratchpad window. -/
def outsideScr (va n : Nat) : Bool := regionAt va != .scr || (n != 0 && regionAt (va + n - 1) != .scr)

/-- Some operand byte in scratchpad holds poison as the instruction issues, and no copy in flight will write it: the
instruction consumes it (R384). What becomes poison later is read as it stands, since a tile operation has no token code
for it (R265, log 65). -/
def State.tilePoison (s : State) (o : EngOp) : Bool :=
  let hit (r : Bool × Nat × Nat) : Bool :=
    r.1 && (s.team o.team).pois.any (fun p => p.2 && 8 * p.1 < r.2.1 + r.2.2 && r.2.1 < 8 * p.1 + 8)
  (s.tileReads o).any hit && !s.copiesInto o (s.tileReads o)

def State.tile (s : State) (i : Instr) (f : OpT) (func : Nat) : State :=
  s.engine i f (fun s =>
    let vote := if func = 6 then (if s.ganged then .ok 0 else .error { cause := 0x05, lanes := s.active }) else s.vote f
    match vote with
    | .error t => .trap t
    | .ok w =>
      let x := f.opf.toNat
      let fm := fmtOf w
      let sa := addr64 ((s.pairVal f.a : Int) + (if func = 6 then 0 else 256 * bitsOf x 18 6 : Nat))
      let sb := addr64 ((s.pairVal f.b : Int) + (if func = 6 then 0 else 256 * bitsOf x 12 6 : Nat))
      let span := tileSpans func x fm (1024 * fm.m)
      let masked := func == 0 || func == 1 || func == 2 || func == 5
      if sa % 16 ≠ 0 ∨ (func ≠ 2 ∧ sb % 16 ≠ 0) then .trap { cause := 0x09, lanes := s.active }
      else if outsideScr sa span.1 || (func != 2 && outsideScr sb span.2) then .trap { cause := 0x0D, lanes := s.active }
      else
        let mask := if masked then
            regsNat (4 * bitsOf x 24 4) 8 (fun n => s.wWarp.getG s.who.way true n) else 0
        let o := s.newOp 9 func f
        let named := (if masked then (List.range 8).map (fun k => Reg.g (4 * bitsOf x 24 4 + k)) else []) ++ Dst.regsFrom f.tok 1
        if named.any (s.busyReg s.active) then .wait
        else if masked && mask == 0 then s.engIssue { o with code := some 0 } f.tok
        else
          let o := { o with
            fmt := w, mask := mask, tc := offIn sa, ta := if func = 2 then 0 else offIn sb
            tx := 16 * bitsOf x 0 11 + (if func = 1 then offIn sb else 0), tacc := x.testBit 29
            sdst := tileWrites func x fm (offIn sa) mask }
          if s.tilePoison o then
            .trapFrom (s.consumed s.wWarp.core s.wWarp.tenant) { cause := 0x0F, lanes := s.active }
          else s.engIssue o f.tok)

def execMma (f : OpT) (s : State) : Out := .next (s.tile (.mma f) f 0)
def execMmag (f : OpT) (s : State) : Out := .next (s.tile (.mmag f) f 1)
def execTzero (f : OpT) (s : State) : Out := .next (s.tile (.tzero f) f 2)
def execTqnt (f : OpT) (s : State) : Out := .next (s.tile (.tqnt f) f 3)
def execTdq (f : OpT) (s : State) : Out := .next (s.tile (.tdq f) f 4)
def execTcrt (f : OpT) (s : State) : Out := .next (s.tile (.tcrt f) f 5)
def execTtrn (f : OpT) (s : State) : Out := .next (s.tile (.ttrn f) f 6)
def execTstat (f : OpT) (s : State) : Out := .next (s.tile (.tstat f) f 7)

end Sys2Proof.Machine
end

