-- ==== Sys2Proof/Machine/Attn.lean ====
section
/-! DEFINITION. ATTN and ATTNQ (R332 to R337), and the macro sequencer that runs them, the tile operations and
the follow-ons of CPYX (R265, R277, R282). -/

namespace Sys2Proof.Machine

/-! ## The descriptor (R332) -/

structure AttnD where
  table : Nat
  p0    : Nat
  p1    : Nat
  scale : Nat
  thr   : Int
  win   : Nat
  bud   : Nat
  qoff  : Nat
  ooff  : Nat
  moff  : Nat
  loff  : Nat
  qsk   : Nat
  done  : Nat
  work  : Nat
  base  : Nat      -- from the table header
  slots : Nat
  slc   : Nat
  rbu   : Nat
  deriving DecidableEq, Repr

/-- Descriptor and table header, as two numbers. -/
def attnOf (d t : Nat) : AttnD :=
  { table := bitsOf d 0 64, p0 := bitsOf d 128 32, p1 := bitsOf d 160 32, scale := bitsOf d 192 32
    thr := signed32 (bitsOf d 224 32), win := bitsOf d 256 16, bud := bitsOf d 272 16, qoff := bitsOf d 288 32
    ooff := bitsOf d 320 32, moff := bitsOf d 352 32, loff := bitsOf d 384 32, qsk := bitsOf d 416 32
    done := bitsOf d 448 32, work := bitsOf d 480 32, base := tbBase t, slots := tbSlots t, slc := tbSlc t
    rbu := tbRbu t }

def AttnD.i0 (d : AttnD) : Nat := (d.p0 - d.base) / d.slots
def AttnD.i1 (d : AttnD) : Nat := (d.p1 - 1 - d.base) / d.slots
/-- NPG. -/
def AttnD.pages (d : AttnD) : Nat := d.i1 - d.i0 + 1
def AttnD.rb (d : AttnD) : Nat := 16 * (d.rbu + 1)
def AttnD.hd (d : AttnD) : Nat := d.rb / 2
/-- Bytes of a bitmap over the pages. -/
def AttnD.bitmap (d : AttnD) : Nat := (d.pages + 127) / 128 * 16

/-- Its options: acc, norm, pre, nofilt (R324). -/
def EngOp.oAcc (o : EngOp) : Bool := o.func == 4 && o.opf.testBit 0
def EngOp.oNorm (o : EngOp) : Bool := o.func == 4 && o.opf.testBit 1
def EngOp.oPre (o : EngOp) : Bool := o.func == 4 && o.opf.testBit 2
def EngOp.oNofilt (o : EngOp) : Bool := o.func == 4 && o.opf.testBit 3

/-- The format word that ATTN takes (R333). -/
def Fmt.attn (f : Fmt) : Bool :=
  f.zero == 0 && (f.ta == 3 || f.ta == 4) && f.ta == f.tb && f.form == 1 && !f.sa && !f.sb && f.nkb == 1

/-- Spans that the descriptor names: offset and length. -/
def AttnD.spans (d : AttnD) (m : Nat) : List (Nat × Nat) :=
  [(d.qoff, d.rb * m), (d.ooff, 4 * d.hd * m), (d.moff, 4 * m), (d.loff, 4 * m), (d.qsk, 32 * m), (d.done, d.bitmap),
   (d.work, d.bitmap + 2 * d.pages)]

/-- What it writes (R333). -/
def AttnD.writes (d : AttnD) (o : EngOp) (m : Nat) : List (Nat × Nat) :=
  (if o.oPre then [] else [(d.work, d.bitmap)]) ++ (if o.oPre || o.oNofilt then [] else [(d.work + d.bitmap, 2 * d.pages)]) ++
    (if o.func = 5 then [] else [(d.ooff, 4 * d.hd * m), (d.moff, 4 * m), (d.loff, 4 * m), (d.done, d.bitmap)])

/-- A descriptor or a table header that breaks R332. -/
def AttnD.bad (d : AttnD) (o : EngOp) (raw t : Nat) : Bool :=
  bitsOf raw 64 64 != 0 || tbBad t || d.p1 ≤ d.p0 || d.p0 < d.base || tbNp t ≤ d.i1 || 8192 < d.pages ||
    (!o.oNofilt && (d.bud < d.win + 1 || d.rbu != 15)) ||
    [d.qoff, d.ooff, d.moff, d.loff, d.qsk, d.done, d.work].any (fun x => x % 16 != 0)

/-- The checks at the start, in their order; the descriptor and the table header are kept. -/
def State.attnBegin (s : State) (o : EngOp) : Except Stop EngOp :=
  let f := fmtOf o.fmt
  let size := (s.team o.team).size
  if o.b % 64 ≠ 0 then .error (.code 2)
  else match s.engReach o o.b 64 0 with
  | .error (.code c) => .error (.code (if c = 6 ∨ c = 7 then 2 else c))
  | .error e => .error e
  | .ok (.glob ta _) =>
    if !isDev ta then .error (.code 2) else rest f size
  | .ok (.scr _) => rest f size
where
  rest (f : Fmt) (size : Nat) : Except Stop EngOp :=
    match s.engNat o o.b 64 with
    | .error e => .error e
    | .ok raw =>
      match s.engDev o (bitsOf raw 0 64) 16 16 0 with
      | .error e => .error e
      | .ok _ => match s.engNat o (bitsOf raw 0 64) 16 with
        | .error e => .error e
        | .ok t =>
          let d := attnOf raw t
          if !f.attn || d.bad o raw t then .error (.code 9)
          else if (d.spans f.m).any (fun p => size < p.1 + p.2) then .error (.code 7)
          else .ok { o with started := true, susp := false, table := [raw, t], sdst := d.writes o f.m }

/-! ## Issue (R333) -/

/-- A table header with the fewest pages and the shortest rows that a descriptor allows. -/
def leastHeader (o : EngOp) (raw : Nat) : Nat :=
  packFields [(32, 2 ^ 32 - 1), (2, 3), (2, 0), (8, if o.oNofilt then 0 else 15), (20, 0), (32, bitsOf raw 128 32 / 64 * 64)]

/-- The scratchpad that it will write, as its descriptor stands at issue; while a fault keeps the table's header from it,
what any header gives, and while one keeps the descriptor from it, nothing (R333, log 139). -/
def State.peekAttn (s : State) (o : EngOp) : EngOp :=
  let s := s.ahead o.warp
  match s.attnBegin o with
  | .ok e => { o with sdst := e.sdst }
  | .error (.fault _ _) => match s.engNat o o.b 64 with
    | .ok raw =>
      let d := attnOf raw (leastHeader o raw)
      let f := fmtOf o.fmt
      if !f.attn || d.bad o raw (leastHeader o raw) then o else { o with sdst := d.writes o f.m }
    | .error _ => o
  | .error _ => o

def State.attnIssue (s : State) (i : Instr) (f : OpT) (func : Nat) : State :=
  s.engine i f (fun s =>
    match s.vote f with
    | .error t => .trap t
    | .ok w =>
      if s.pairVal f.a % 16 ≠ 0 then .trap { cause := 0x09, lanes := s.active }
      else if (Dst.regsFrom f.tok 1).any (s.busyReg s.active) then .wait
      else s.engIssue (s.peekAttn { s.newOp 0xA func f with b := s.pairVal f.a, fmt := w }) f.tok)

def execAttn (f : OpT) (s : State) : Out := .next (s.attnIssue (.attn f) f 4)
def execAttnq (f : OpT) (s : State) : Out := .next (s.attnIssue (.attnq f) f 5)

/-! ## Steps (R334 to R336) -/

/-- A page of the range as a step reads it: its address, its header, its counted slots. -/
structure AttnPage where
  page : Nat
  hd   : Nat
  js   : List Nat
  deriving DecidableEq, Repr

/-- Scratchpad bytes that an operation reads, none of them poisoned (R331). -/
def State.scrRead (s : State) (o : EngOp) (spans : List (Nat × Nat)) : Except Stop Unit :=
  if spans.any (fun p => s.placePoison o (.scr p.1) p.2) then .error (.poison none) else .ok ()

/-- Page `k` of the range; an absent one has no slots. -/
def State.attnPage (s : State) (o : EngOp) (d : AttnD) (k : Nat) : Except Stop AttnPage :=
  match s.engReadDev o (addr64 (d.table + 16 + 8 * (d.i0 + k))) 8 with
  | .error e => .error e
  | .ok bs =>
    let e := leNat bs
    if e = 0 then .ok ⟨0, 0, []⟩
    else match s.engDev o e 64 64 0, s.engNat o e 64 with
      | .error x, _ => .error x
      | _, .error x => .error x
      | .ok _, .ok h =>
        let pos (j : Nat) : Nat := d.base + d.slots * (d.i0 + k) + j
        if hdBad h ∨ hdSlc h ≠ d.slc ∨ hdRbu h ≠ d.rbu ∨ hdEt h + 3 ≠ (fmtOf o.fmt).ta then .error (.code 9)
        else .ok ⟨e, h, (List.range d.slots).filter (fun j => h.testBit j && d.p0 ≤ pos j && pos j < d.p1)⟩

def State.scrBit (s : State) (o : EngOp) (base k : Nat) : Bool := ((s.scrNat o.team (base + k / 8) 1).testBit (k % 8))

/-- −32,768 as two bytes. -/
def noScore : Int := -32768

def State.scoreOf (s : State) (o : EngOp) (d : AttnD) (k : Nat) : Int :=
  signedOf 16 (s.scrNat o.team (d.work + d.bitmap + 2 * k) 2)

def State.zeros (s : State) (o : EngOp) (off n : Nat) : State := s.scrPut o.team off (List.replicate n 0)

/-- Stage 0. -/
def State.attnInit (s : State) (o : EngOp) (d : AttnD) (m : Nat) : State :=
  let s := if o.oPre then s else s.zeros o d.work d.bitmap
  if o.func = 5 then s
  else
    let s := s.zeros o d.done d.bitmap
    if o.oAcc then s
    else
      let s := s.scrPut o.team d.moff ((List.replicate m (leBytes 4 0xFF800000)).flatten)
      (s.zeros o d.loff (4 * m)).zeros o d.ooff (4 * d.hd * m)

/-- Stage 1: the page's score (R335). -/
def State.attnFilter (s : State) (o : EngOp) (d : AttnD) (m k : Nat) : Except Stop State :=
  match s.attnPage o d k with
  | .error e => .error e
  | .ok p =>
    let qs := (List.range m).map (fun r => s.scrBytes o.team (d.qsk + 32 * r) 32)
    let scores := p.js.foldl (fun (acc : Except Stop Int) j =>
      match acc, s.engDev o (addr64 ((hdSk p.hd + 32 * j : Nat) : Int)) 32 32 0, s.engRead o (addr64 ((hdSk p.hd + 32 * j : Nat) : Int)) 32 with
      | .ok best, .ok _, .ok sk => .ok (qs.foldl (fun b q => max b (sketchScore q sk)) best)
      | .error e, _, _ => .error e
      | _, .error e, _ => .error e
      | _, _, .error e => .error e) (.ok noScore)
    match s.scrRead o [(d.qsk, 32 * m)], scores with
    | .error e, _ => .error e
    | _, .error e => .error e
    | .ok _, .ok b => .ok (s.scrPut o.team (d.work + d.bitmap + 2 * k) (leBytes 2 (b % 2 ^ 16).toNat))

/-- Candidates ordered by score descending, then index ascending. -/
def insertCand (p : Int × Nat) : List (Int × Nat) → List (Int × Nat)
  | [] => [p]
  | q :: r => if q.1 < p.1 then p :: q :: r else q :: insertCand p r

/-- The survivors of stage 2 (R335). -/
def survivors (scores : List Int) (thr : Int) (win bud : Nat) : List Nat :=
  let n := scores.length
  let mandatory (k : Nat) : Bool := k == 0 || n ≤ k + win
  let sc (k : Nat) : Int := scores.getD k noScore
  let mand := (List.range n).filter (fun k => mandatory k && noScore < sc k)
  let cand := ((List.range n).filter (fun k => !mandatory k && noScore < sc k && thr ≤ sc k)).foldl
    (fun l k => insertCand (sc k, k) l) []
  mand ++ (cand.take (bud - mand.length)).map (·.2)

/-- A bitmap's bytes. -/
def bitmapBytes (n : Nat) (ks : List Nat) : List Byte := leBytes n (ks.foldl (fun m k => m + 2 ^ k) 0)

/-- Pages with a valid slot in range. -/
def State.pagesWith (s : State) (o : EngOp) (d : AttnD) : List Nat → Except Stop (List Nat)
  | [] => .ok []
  | k :: ks =>
    match s.attnPage o d k, s.pagesWith o d ks with
    | .ok p, .ok r => .ok (if p.js.isEmpty then r else k :: r)
    | .error e, _ => .error e
    | _, .error e => .error e

/-- Stage 2: the survivor bitmap. -/
def State.attnSelect (s : State) (o : EngOp) (d : AttnD) : Except Stop State :=
  let ks : Except Stop (List Nat) :=
    if o.oNofilt then s.pagesWith o d (List.range d.pages)
    else match s.scrRead o [(d.work + d.bitmap, 2 * d.pages)] with
      | .error e => .error e
      | .ok _ => .ok (survivors ((List.range d.pages).map (s.scoreOf o d)) d.thr d.win d.bud)
  match ks with
  | .error e => .error e
  | .ok ks => .ok (s.scrPut o.team d.work (bitmapBytes d.bitmap ks))

/-- An exact value rounded to f32, its flags with those of forming it. -/
def toF32 (r : Res FVal) : Res FVal :=
  let x := fmtF32.round .rn r.val
  ⟨fmtF32.value x.val, r.fl ||| x.fl⟩

/-- A product with its invalid flag. -/
def prod (x y : FVal) : Res FVal := let p := mulFVal x y; ⟨p.1, if p.2 then flNV else 0⟩

/-- An exact sum of products and values; where an operand is NaN it raises no flag (R241). -/
def sumRes (rs : List (Res FVal)) : Res FVal :=
  if rs.any (fun r => r.val.isNan && r.fl == 0) then ⟨.nan, 0⟩
  else
    let t := sumFVal .rn (rs.map (·.val))
    ⟨t.val, rs.foldl (fun fl r => fl ||| r.fl) t.fl⟩

/-- The larger, NaN if either is. -/
def mxFVal (x y : FVal) : FVal := if x.isNan || y.isNan then .nan else if cmpFVal x y < 0 then y else x

/-- 2^(x − y) rounded twice (R336, R243). -/
def expDiff (x y : FVal) : Res FVal :=
  let e := toF32 (sumFVal .rn [x, y.neg])
  let p := fexp2 e.val
  let r := toF32 p
  ⟨r.val, e.fl ||| r.fl⟩

/-- One row's update: m, l and the outputs, with the flags; nothing where mn is −∞. -/
def attnRow (scale : FVal) (m l : FVal) (os : List FVal) (q : List FVal) (kv : List (List FVal × List FVal)) :
    Option (FVal × FVal × List FVal) × Word :=
  let xs := kv.map (fun p =>
    let dot := toF32 (sumRes (List.zipWith prod q p.1))
    let x := toF32 (prod dot.val scale)
    (⟨x.val, dot.fl ||| x.fl⟩ : Res FVal))
  let fl0 := xs.foldl (fun fl x => fl ||| x.fl) 0
  let mn := xs.foldl (fun a x => mxFVal a x.val) m
  if mn = .inf true then (none, fl0)
  else
    let c : Res FVal := if m = .inf true then ⟨.fin false 0 0 false, 0⟩ else expDiff m mn
    let ws := xs.map (fun x => expDiff x.val mn)
    let l' := toF32 (sumRes (prod l c.val :: ws.map (fun w => ⟨w.val, 0⟩)))
    let os' := (List.range os.length).map (fun e =>
      toF32 (sumRes (prod (os.getD e .nan) c.val ::
        (List.zipWith (fun (w : Res FVal) (p : List FVal × List FVal) => prod w.val (p.2.getD e .nan)) ws kv))))
    let fl := ws.foldl (fun fl w => fl ||| w.fl) (fl0 ||| c.fl ||| l'.fl)
    (some (mn, l'.val, os'.map (·.val)), os'.foldl (fun fl o => fl ||| o.fl) fl)

def f32Bits (x : FVal) : Nat := (fmtF32.round .rn x).val

/-- Stage 3: one surviving page folded in; its DONE bit is the last write (R336). -/
def State.attnExact (s : State) (o : EngOp) (d : AttnD) (m k : Nat) : Except Stop State :=
  match s.attnPage o d k with
  | .error e => .error e
  | .ok p =>
    let fm := if (fmtOf o.fmt).ta = 3 then fmtBf16 else fmtF16
    let els (bs : List Byte) : List FVal := (List.range d.hd).map (fun i => fm.value (leNat ((bs.drop (2 * i)).take 2)))
    let row (off j : Nat) : Except Stop (List FVal) :=
      match s.engReadDev o (addr64 (p.page + 64 + off + j * d.rb)) d.rb with
      | .error e => .error e
      | .ok bs => .ok (els bs)
    let kvs := p.js.foldr (fun j (acc : Except Stop (List (List FVal × List FVal))) =>
      match row 0 j, row (d.slots * d.rb) j, acc with
      | .ok kr, .ok vr, .ok r => .ok ((kr, vr) :: r)
      | .error e, _, _ => .error e
      | _, .error e, _ => .error e
      | _, _, .error e => .error e) (.ok [])
    let own := (if p.js.isEmpty then [] else [(d.qoff, d.rb * m), (d.ooff, 4 * d.hd * m), (d.moff, 4 * m), (d.loff, 4 * m)]) ++
      [(d.done + k / 8, 1)]
    match kvs, s.scrRead o own with
    | .error e, _ => .error e
    | _, .error e => .error e
    | .ok kv, .ok _ =>
      let w (off : Nat) : FVal := fmtF32.value (s.scrNat o.team off 4)
      let scale := fmtF32.value d.scale
      let s' := if kv.isEmpty then s else (List.range m).foldl (fun s' r =>
        let out := d.ooff + 4 * d.hd * r
        let res := attnRow scale (w (d.moff + 4 * r)) (w (d.loff + 4 * r)) ((List.range d.hd).map (fun e => w (out + 4 * e)))
          (els (s.scrBytes o.team (d.qoff + d.rb * r) d.rb)) kv
        let s' := s'.raiseOp o res.2
        match res.1 with
        | none => s'
        | some (mn, l, os) =>
          ((s'.scrPut o.team (d.moff + 4 * r) (leBytes 4 (f32Bits mn))).scrPut o.team (d.loff + 4 * r)
            (leBytes 4 (f32Bits l))).scrPut o.team out (os.flatMap (fun x => leBytes 4 (f32Bits x)))) s
      let b := s'.scrNat o.team (d.done + k / 8) 1
      .ok (s'.scrPut o.team (d.done + k / 8) (leBytes 1 (b ||| 2 ^ (k % 8))))

/-- Stage 4: one correctly rounded quotient for each output (R336). -/
def State.attnNorm (s : State) (o : EngOp) (d : AttnD) (m : Nat) : Except Stop State :=
  match s.scrRead o [(d.ooff, 4 * d.hd * m), (d.loff, 4 * m)] with
  | .error e => .error e
  | .ok _ => .ok <| (List.range m).foldl (fun s' r =>
    let l := fmtF32.value (s.scrNat o.team (d.loff + 4 * r) 4)
    (List.range d.hd).foldl (fun s' e =>
      let off := d.ooff + 4 * d.hd * r + 4 * e
      let x := fmtF32.value (s.scrNat o.team off 4)
      let q : Res FVal :=
        if x.isNan then ⟨.nan, 0⟩
        else if l.isZero then ⟨.fin false 0 0 false, 0⟩
        else if x.isInf && l.isInf then ⟨.nan, flNV⟩
        else ⟨divFVal x l, 0⟩
      let y := fmtF32.round .rn q.val
      (s'.raiseOp o (q.fl ||| y.fl)).scrPut o.team off (leBytes 4 y.val)) s') s

/-- The stage that follows one, 5 for none. -/
def EngOp.stageAfter (o : EngOp) (st : Nat) : Nat :=
  let stages := (if o.oPre || o.oNofilt then [] else [1]) ++ (if o.oPre then [] else [2]) ++
    (if o.func = 5 then [] else 3 :: (if o.oNorm then [4] else []))
  (stages.find? (fun x => st < x)).getD 5

/-- The first of some pages that survives and is not done, by bits that hold no poison (R331). -/
def State.scanPages (s : State) (o : EngOp) (d : AttnD) : List Nat → Except Stop (Option Nat)
  | [] => .ok none
  | j :: r => match s.scrRead o [(d.work + j / 8, 1), (d.done + j / 8, 1)] with
    | .error e => .error e
    | .ok _ => if s.scrBit o d.work j && !s.scrBit o d.done j then .ok (some j) else s.scanPages o d r

/-- The page that a stage 3 step takes next: surviving and not done. -/
def State.nextPage (s : State) (o : EngOp) (d : AttnD) (k : Nat) : Except Stop (Option Nat) :=
  s.scanPages o d ((List.range d.pages).drop k)

/-- A stage without a step left is passed over. The next page offset stays the one after the page just done: the step
that follows looks for the next surviving page from there (R339). -/
def State.settleStage (s : State) (o : EngOp) (d : AttnD) (st next : Nat) : Nat × Nat :=
  let exact (k : Nat) : Nat × Nat := match s.nextPage o d k with
    | .ok none => (o.stageAfter 3, 0)
    | _ => (3, k)
  if st = 3 then exact next
  else if st = 1 ∧ d.pages ≤ next then (if o.stageAfter 1 = 3 then exact 0 else (o.stageAfter 1, 0))
  else (st, next)

/-- One step (R334). -/
def State.attnStep (s : State) (o : EngOp) : Option State :=
  let d := attnOf (o.table.getD 0 0) (o.table.getD 1 0)
  let m := (fmtOf o.fmt).m
  let res : Except Stop (State × Nat × Nat) :=
    match o.stage with
    | 0 => .ok (s.attnInit o d m, o.stageAfter 0, 0)
    | 1 => match s.attnFilter o d m o.next with
      | .error e => .error e
      | .ok s => .ok (s, 1, o.next + 1)
    | 2 => match s.attnSelect o d with
      | .error e => .error e
      | .ok s => .ok (s, o.stageAfter 2, 0)
    | 3 => match s.nextPage o d o.next with
      | .error e => .error e
      | .ok j =>
        let k := j.getD o.next
        match s.attnExact o d m k with
        | .error e => .error e
        | .ok s => .ok (s, 3, k + 1)
    | _ => match s.attnNorm o d m with
      | .error e => .error e
      | .ok s => .ok (s, 5, 0)
  match res with
  | .error .wait => none                            -- the step waits, the array with it
  | .error e => some ((s.updCore o.core (fun c => { c with seq := none })).stopOp o.id e)
  | .ok (s, st, nx) =>
    let p := s.settleStage o d st nx
    some (s.updOp o.id (fun e => { e with stage := p.1, next := p.2, idx := e.idx + 1 }))

/-! ## The sequencer (R265, R266, R277, R282) -/

/-- It goes through the sequencer's queue. -/
def EngOp.queueOp (o : EngOp) : Bool := o.cls == 9 || o.attn || (o.cls == 8 && o.func == 5)

/-- The context has not left the operation's core (R267): an unfinished warp of its team is there, or, where the team has
none, of the instance anywhere, or every warp has retired. -/
def State.onCore (s : State) (o : EngOp) : Bool :=
  let ws := s.warps.filter (fun p => p.2.inst == o.inst && !p.2.retired)
  let own := ws.filter (fun p => p.2.team == o.team)
  if own.isEmpty then ws.any (fun p => p.2.placed) || ws.isEmpty
  else own.any (fun p => p.2.placed && p.2.core == o.core)

/-- The operation may start or resume on the array: past its captured writes, first of its warp, its landed copies
behind it. -/
def State.seqReady (s : State) (o : EngOp) : Bool :=
  (o.cls == 9 || o.attn || o.tile) && o.code.isNone && o.susc == 0 && (!o.started || o.susp) && s.mayRead o &&
    s.onCore o && !o.cancel &&
    !s.ops.any (fun e => e.queueOp && e.warp == o.warp && e.id < o.id && e.code.isNone) &&
    (o.attn || !s.copiesInto o (s.tileReads o))

/-- The waiting operation of the highest priority, and among equals the earliest issued. -/
def State.seqNext (s : State) (core : Nat) : Option EngOp :=
  (s.ops.filter (fun o => o.core == core && s.seqReady o)).foldl (fun best o =>
    match best with
    | none => some o
    | some b => if b.prio < o.prio ∨ (b.prio = o.prio ∧ o.id < b.id) then some o else some b) none

def State.setSeq (s : State) (core : Nat) (o : Option Nat) : State := s.updCore core (fun c => { c with seq := o })

/-- An operation starts on the array: its remaining checks, then its first step is due. -/
def State.seqStart (s : State) (o : EngOp) : State :=
  if o.attn then
    match s.attnBegin o with
    | .error e => s.stopOp o.id e
    | .ok e => (s.updOp o.id (fun _ => e)).setSeq o.core (some o.id)
  else match s.tileChecks o with
    | .error c => s.endOp o.id (if o.cls = 8 then 0x0C else c)
    | .ok gs => (s.updOp o.id (fun _ => s.tileBegin o gs)).setSeq o.core (some o.id)

/-- A waiting operation that has been cancelled (R184, R279). -/
def State.seqCancelled (s : State) (core : Nat) : Option EngOp :=
  s.ops.find? (fun o => o.core == core && (o.cls == 9 || o.attn || o.tile) && o.code.isNone && o.cancel && o.queued &&
    (s.core core).seq != some o.id)

def execSequencerStart (core : Nat) (s : State) : Out :=
  match s.seqCancelled core with
  | some o => .next (s.endOp o.id 1)
  | none =>
    if (s.core core).seq.isSome then no "SEQUENCER_START"
    else match s.seqNext core with
      | some o => if o.started || o.cls == 8 then no "SEQUENCER_START" else .next (s.seqStart o)
      | none => no "SEQUENCER_START"

/-- The sequencer starts a CPYX's follow-on (R182). -/
def execCpyxFollowOn (op : Nat) (s : State) : Out :=
  match s.op op with
  | none => no "CPYX_FOLLOW_ON"
  | some o =>
    if (s.core o.core).seq.isSome then no "CPYX_FOLLOW_ON"
    else match s.seqNext o.core with
      | some e => if e.id = op ∧ e.cls = 8 ∧ !e.started then .next (s.seqStart e) else no "CPYX_FOLLOW_ON"
      | none => no "CPYX_FOLLOW_ON"

/-- The running operation must stop at this boundary (R277). -/
def State.mustStop (s : State) (o : EngOp) : Bool :=
  o.cancel || !s.onCore o ||
    (match s.seqNext o.core with | some e => o.prio < e.prio | none => false)

/-- The operation that a core's array runs. -/
def State.running (s : State) (core : Nat) : Option EngOp := (s.core core).seq.bind s.op

def EngOp.arrayDone (o : EngOp) : Bool := if o.attn then 5 ≤ o.stage else o.tileDone

/-- One step of a tile or attention operation; after the last the operation is done. -/
def execTileStep (core : Nat) (s : State) : Out :=
  match s.running core with
  | none => no "TILE_STEP"
  | some o =>
    if s.mustStop o || (!o.attn && s.copiesInto o (s.tileReads o)) then no "TILE_STEP"
    else
      match if o.attn then s.attnStep o else some (s.tileStep o) with
      | none => no "TILE_STEP"
      | some s => match s.op o.id with
      | some e => .next (if e.code.isNone && e.arrayDone then (s.endOp o.id 0).setSeq core none
          else if e.code.isSome || e.susc != 0 then s.setSeq core none else s)
      | none => .next (s.setSeq core none)

/-- The sequencer stops the operation between steps: a cancelled one ends; another keeps its accumulators in C
(R277 to R279). -/
def execTileStop (core : Nat) (s : State) : Out :=
  match s.running core with
  | none => no "TILE_STOP"
  | some o =>
    if !s.mustStop o then no "TILE_STOP"
    else if o.cancel then .next ((s.endOp o.id 1).setSeq core none)
    else .next (((s.putAcc o).updOp o.id (fun e => { e with susp := true, acc := [] })).setSeq core none)

/-- A stopped operation resumes; MMA and MMAG read C back as it then stands. -/
def execTileResume (core : Nat) (s : State) : Out :=
  if (s.core core).seq.isSome then no "TILE_RESUME"
  else match s.seqNext core with
    | none => no "TILE_RESUME"
    | some o =>
      if !o.started then no "TILE_RESUME"
      else
        let grp := (unflatGroups o.table).getD o.next (0, 0, 0, 0)
        let acc := if !o.attn && (o.tileFunc ≤ 1 || o.cls == 8) && o.kblk != 0 then
          s.readAcc o ((List.range grp.2.1).map (fun i => grp.1 + i)) else []
        .next ((s.updOp o.id (fun e => { e with susp := false, acc := acc })).setSeq core (some o.id))

end Sys2Proof.Machine
end

