-- ==== Sys2Proof/Machine/Regions.lean ====
section
/-! DEFINITION. Symbolic atomic regions: ATOMB, ATOME, ATOMA, ATOMQ, the commit engine and conflict notices
(R199 to R216). -/

namespace Sys2Proof.Machine

/-! ## Leaving a region -/

/-- Watches and signatures go once no region is open on the die, or on the core (R208, R209). -/
def State.tidyRegions (s : State) (core : Nat) : State :=
  let open' (p : Warp → Bool) : Bool := s.warps.any (fun x => x.2.placed && p x.2 && !x.2.regions.isEmpty)
  let s := if open' (fun w => w.core == core) then s else s.updCore core (fun c => { c with rsig := 0, wsig := 0 })
  if open' (fun w => w.core / 64 == core / 64) then s
  else s.updDie (core / 64) (fun d => { d with
    notices := []
    l2 := d.l2.foldl (fun t p => Tab.set {} t p.1 { p.2 with watched := false }) [] })

/-- Commits given up with their warp: the lines that they had locked are free (R210). -/
def State.unlockCommits (s : State) (d : Nat) (p : Commit → Bool) : State :=
  let free := ((s.die d).commits.filter p).flatMap (fun c => c.lines.take c.locked)
  s.updDie d (fun x => { x with
    l2 := x.l2.map (fun (q : Nat × L2Line) => (q.1, if free.contains q.1 then { q.2 with locked := false } else q.2))
    commits := x.commits.filter (fun c => !p c) })

/-- Gangs that wait for the die's region token issue their ATOMB again (R214). -/
def State.wakeTokens (s : State) (d : Nat) : State :=
  { s with warps := s.warps.map (fun p =>
      if p.2.core / 64 = d then
        (p.1, p.2.mapGangs (fun g => if g.park = .token then { g with park := .none } else g))
      else p) }

/-- The token is given up once none of the warp's regions is serial (R214). -/
def State.releaseToken (s : State) (u : Nat) : State :=
  let w := s.warp u
  let d := w.core / 64
  if (s.die d).token = some u ∧ !w.regions.any (fun p => p.2.serial) then
    (s.updDie d (fun x => { x with token := none })).wakeTokens d
  else s

/-- A lane leaves its region: with a cause other than 0 it aborts, and its status register takes the cause
(R201, R212). -/
def Warp.leaveRegion (w : Warp) (k l cause : Nat) : Warp :=
  match w.regions.find l with
  | none => w
  | some g =>
    let w := { w with regions := w.regions.erase l }
    if cause = 0 then w
    else
      let w := { w with cause := w.cause.set 0 l cause }
      match g.status with
      | some n => w.setV k false n l (BitVec.ofNat 32 cause)
      | none => w

/-- Loads in flight no longer bring a symbol of a lane that has left. -/
def State.forgetObs (s : State) (u : Nat) (ls : Lanes) : State :=
  { s with reqs := s.reqs.map (fun (r : Req) =>
      if r.warp = u ∧ !r.sup then
        { r with accs := r.accs.map (fun a => if ls.getLsbD a.lane then { a with obs := none, tag := none } else a) }
      else r) }

/-- An abort count by ATOMB PC (R214). -/
def Warp.abortsAt (w : Warp) (pc : Double) : Nat := ((w.aborts.find? (fun p => p.1 == pc)).map (·.2)).getD 0
def Warp.setAborts (w : Warp) (pc : Double) (n : Nat) : Warp :=
  let rest := w.aborts.filter (fun p => p.1 != pc)
  { w with aborts := if n = 0 then rest else rest ++ [(pc, n)] }

/-- The counts after some lanes ended: `gone` are the regions that ended, with their causes. -/
def Warp.countAborts (w : Warp) (gone : List (Region × Nat)) (commit : Bool) : Warp :=
  (distinct (gone.map (fun p => p.1.pc))).foldl (fun w pc =>
    let here := gone.filter (fun p => p.1.pc == pc)
    let w := if here.any (fun p => p.2 != 0 && p.2 != 7) then w.setAborts pc (w.abortsAt pc + 1)
      else if commit && gone.all (fun p => p.2 == 0) then w.setAborts pc 0 else w
    if here.any (fun p => p.1.serial) && !w.regions.any (fun p => p.2.serial && p.2.pc == pc) then w.setAborts pc 0 else w) w

/-- Lanes leave their regions, each with its cause. -/
def State.endRegions (s : State) (u k : Nat) (ends : List (Nat × Nat)) (commit : Bool) : State :=
  let w := s.warp u
  let gone := ends.filterMap (fun p => (w.regions.find p.1).map (fun g => (g, p.2)))
  let s := s.forgetObs u (maskOf (ends.map (·.1)))
  let s := s.updWarp u (fun w => (ends.foldl (fun w p => w.leaveRegion k p.1 p.2) w).countAborts gone commit)
  (s.tidyRegions w.core).releaseToken u

/-- A gang's lanes split by the PC each goes to, as BRX does (R212, R213). -/
def Arch.splitTo (a : Arch) (sl : BitVec 8) (pcOf : Nat → Double) : Arch :=
  let a := (slicesOf sl).foldl (fun (a : Arch) i =>
    a.updSlice i (fun x => if x.mask = 0 then x else x.splitBy x.mask x.pc (fun j => pcOf (4 * i + j)))) a
  a.part ((slicesOf sl).headD 0)

/-! ## ATOMB, ATOMA, ATOMQ -/

/-- R199, R201, R214. The handler's instructions are not tracked, so it opens no region (R203). -/
def execAtomb (f : OpB) (s : State) : Out :=
  .next (s.issue (.atomb f) (fun s => s.noRegion f.com (fun s => s.oldestOnly (fun s =>
    let ls := s.executing f.com
    let pc := s.pc
    let serial := 2 ≤ s.wWarp.abortsAt pc
    let u := s.who.warp
    let tok := (s.die s.myDie).token
    if s.inHandler then .done (s.putLanes ls f.dst false (fun _ => 0)).advance
    else if serial && tok.isSome then .parked .token
    else
      let g : Region := {
        fallback := s.target f, pc := pc, serial := serial
        status := match f.dst with | .v n => some n.val | _ => none }
      let s := if serial then s.updDie s.myDie (fun d => { d with token := some u }) else s
      let s := s.updMy (fun w => { w with regions := (lanesOf ls).foldl (fun t l => t.put l g) w.regions })
      .done (s.putLanes ls f.dst false (fun _ => 0)).advance))))

/-- The lanes among some that are in a region, and where each would go on an abort. -/
def State.fallbacks (s : State) (ls : Lanes) : List (Nat × Double) :=
  (lanesOf (s.regionLanes ls)).filterMap (fun l => (s.wWarp.regions.find l).map (fun g => (l, g.fallback)))

/-- Slices in which `n` more tokens would not fit (R212). -/
def State.tooDeep (s : State) (n : Nat → Nat) : List Nat :=
  (slicesOf s.gang.slices).filter (fun i => s.depthLimit < (s.arch.slice i).stack.length + n i)

/-- ATOMA (R213). -/
def execAtoma (f : OpB) (s : State) : Out :=
  .next (s.issue (.atoma f) (fun s => s.notGuessing (fun s =>
    let ls := s.executing f.com
    let fs := s.fallbacks ls
    let next := s.pc + 12
    let pcOf (l : Nat) : Double := ((fs.find? (fun p => p.1 == l)).map (·.2)).getD next
    let groups (i : Nat) : Nat :=
      (distinct ((lanesOf (laneBits (s.arch.slice i).mask i)).map pcOf)).length - 1
    match s.tooDeep groups with
    | i :: r => .trap { cause := 0x06, lanes := (i :: r).foldl (fun m i => m ||| (ls &&& laneBits 15 i)) 0 }
    | [] =>
      let sl := s.gang.slices
      let s := s.endRegions s.who.warp s.who.way (fs.map (fun p => (p.1, 7))) false
      let s := s.updArch (fun a => a.splitTo sl pcOf)
      .done (s.settleRegang s.who.warp s.who.way))))

/-- ATOMQ's word (R216). -/
def Warp.regionWord (w : Warp) (l : Nat) (inside : Bool) : Word :=
  let cause := w.cause.get 0 l
  BitVec.ofNat 32 (match inside, w.regions.find l with
    | true, some g =>
      packFields [(2, if g.doom = 0 then 1 else 2), (1, g.stale.toNat), (1, g.serial.toNat), (3, g.syms.length),
        (4, g.cons.length),
        (4, (g.stores.filter (fun r => match r with | .deferred _ _ _ => true | _ => false)).length),
        (6, w.bufLines.length), (3, 0), (8, cause)]
    | _, _ => packFields [(15, 0), (6, w.bufLines.length), (3, 0), (8, cause)])

def execAtomq (f : OpB) (s : State) : Out :=
  .next (s.issue (.atomq f) (fun s => s.notGuessing (fun s =>
    let ls := s.executing f.com
    let s := s.useTags (usesB f 0 1) ls
    .done (s.putLanes ls f.dst false (fun l => (s.wWarp.regionWord l (!s.youngWay)).setWidth 64)).advance)))

/-! ## ATOME and the commit engine (R210 to R214) -/

/-- A load of the gang's in-region lanes has not returned. -/
def State.regionLoads (s : State) (ls : Lanes) : Bool :=
  s.reqs.any (fun r => r.warp == s.who.warp && r.way == s.who.way && !r.sup &&
    r.accs.any (fun a => ls.getLsbD a.lane && (a.obs.isSome || a.tag.isSome)))

def execAtome (f : OpB) (s : State) : Out :=
  .next (s.issue (.atome f) (fun s => s.oldestOnly (fun s =>
    let ls := s.regionLanes s.active
    let fs := s.fallbacks s.active
    let labels (i : Nat) : Nat := (distinct ((fs.filter (fun p => p.1 / 4 == i)).map (·.2))).length
    if ls = 0 then .done s.advance
    else match s.tooDeep labels with
      | i :: r => .trap { cause := 0x06, lanes := (i :: r).foldl (fun m i => m ||| (s.active &&& laneBits 15 i)) 0 }
      | [] =>
        if s.regionLoads ls then .wait
        else
          let id := s.clk.fresh
          let r : Req := { id := 0, warp := 0, kind := .commit, scope := .device, order := .release }
          s.submit r (fun s => s.park (.commit id)))))

/-- A symbol's fresh value: what memory holds under the locks, or what was observed. -/
def Region.fresh (g : Region) (s : State) (buf : Tab Byte) (i : Nat) : Nat :=
  let y := g.syms.getD i ⟨0, 4, 0⟩
  if g.stale || buf.any (fun p => lineOf p.1 == lineOf y.ta) then
    leNat ((List.range y.len).map (fun j => (buf.find (y.ta + j)).getD (s.cur (y.ta + j))))
  else y.obs

/-- A constraint holds on fresh values (R205). -/
def Con.holds (c : Con) (g : Region) (fresh : Nat → Nat) : Bool :=
  match c with
  | .exact i => fresh i == g.obs i
  | .cmp i k op ty other left out =>
    let y := g.syms.getD i ⟨0, 4, 0⟩
    let v : Double := BitVec.ofNat 64 ((fresh i + k.toNat) % 256 ^ y.len)
    (if left then cmpTy ty op v other else cmpTy ty op other v).val == out

/-- A tagged register receives its symbol's value (R210). -/
def Warp.settleTag (w : Warp) (k l : Nat) (g : Region) (fresh : Nat → Nat) (p : Loc × Tag) : Warp :=
  let n := (g.syms.getD p.2.sym ⟨0, 4, 0⟩).len
  let v := (fresh p.2.sym + p.2.k.toNat) % 256 ^ n
  match p.1 with
  | .v r =>
    let w := w.setV k false r l (BitVec.ofNat 32 v)
    if n = 8 then w.setV k false (r + 1) l (BitVec.ofNat 32 (v / 2 ^ 32)) else w
  | .p r => w.setP k false r l (v != 0)
  | _ => w

/-- One lane of a commit: its cause, 0 where it commits, and the bytes written so far. -/
def State.commitLane (s : State) (u k l : Nat) (buf : Tab Byte) : State × Tab Byte × Nat :=
  match (s.warp u).regions.find l with
  | none => (s, buf, 0)
  | some g =>
    let fresh := g.fresh s buf
    if g.doom ≠ 0 then (s, buf, g.doom)
    else if !g.cons.all (fun c => c.holds g fresh) then (s, buf, 1)
    else
      let put (t : Tab Byte) (ta : Nat) (bs : List Byte) : Tab Byte :=
        (List.range bs.length).foldl (fun t i => t.put (ta + i) (bs.getD i 0)) t
      -- oldest first, so that where a deferred and a buffered store meet the younger stands (R211, log 137)
      let buf := g.stores.foldl (fun t r => match r with
        | .deferred ta n x => put t ta (leBytes n (fresh x.sym + x.k.toNat))
        | .buffered ta bs => put t ta bs) buf
      (s.updWarp u (fun w => g.tags.foldl (fun w p => w.settleTag k l g fresh p) w), buf, 0)

/-- The commit carried out under its locks; its writes count in wpend, one for each line. Of more than 255 lines the
ones past the room of wpend are acknowledged at once (R130, log 40). -/
def State.doCommit (s : State) (d : Nat) (c : Commit) (r : Req) : State :=
  let u := c.warp
  let k := r.way
  let a := (s.warp u).user k
  let ls := lanesOf (a.activeIn r.slices)
  let w0 := s.warp u
  let (s, buf, ends) := ls.foldl (fun (p : State × Tab Byte × List (Nat × Nat)) l =>
    if (w0.regions.find l).isNone then p
    else
      let q := p.1.commitLane u k l p.2.1
      (q.1, q.2.1, p.2.2 ++ [(l, q.2.2)])) (s, [], [])
  let next := (a.slice ((slicesOf r.slices).headD 0)).pc + 12
  let pcOf (l : Nat) : Double := match ends.find? (fun p => p.1 == l && p.2 != 0) with
    | some _ => ((w0.regions.find l).map (·.fallback)).getD next
    | none => next
  let lines := distinct (buf.map (fun p => lineOf p.1))
  let first := s.clk.fresh
  let pol (l : Nat) : Nat := w0.regions.foldl (fun n g => if (g.2.pols.find l).isSome then g.2.pols.get 0 l else n) 0
  let s := lines.foldl (fun s l =>
    let w : Write := {
      id := s.clk.fresh, warp := some u, src := u, core := w0.core, die := d, line := l, place := .die, kind := .store
      bytes := buf.filter (fun p => lineOf p.1 == l), tenant := w0.tenant, pol := pol l, time := s.clk.time }
    let s := { s.bump with writes := s.writes ++ [w] }.performDie w
    if pol l = 1 then s.dropCopy w0.core l else s) s
  let s := s.addPend u lines.length
  let s := (s.writes.filter (fun w => first ≤ w.id && w.src == u)).drop 255 |>.foldl State.ackWrite s
  let s := s.updWarp u (fun w => w.updWay k (fun y => { y with blocks := distinct (y.blocks ++ lines) }))
  let s := c.lines.foldl (fun s l => s.updL2 d l (fun x => { x with locked := false })) s
  let s := (s.updDie d (fun x => { x with commits := x.commits.filter (fun (y : Commit) => y.id != c.id) })).dropReq c.id
  let s := s.endRegions u k ends true
  let s := s.updWarp u (fun w => w.updUser k (fun a =>
    let gs := a.gangs.map (fun (g : Gang) => if g.park = Park.commit c.id then { g with park := .none } else g)
    { a with gangs := gs }.splitTo r.slices pcOf))
  if (s.warp u).trap.isNone then s.settleRegang u k else s

/-- One step of a die's commit engine: the next line locked once the die holds it in M or E, or the commit
(R210). A commit waits for notices about its lines that are on their way. -/
def execCommit (die : Nat) (s : State) : Out :=
  match (s.die die).current with
  | none => no "COMMIT"
  | some c =>
    match c.lines[c.locked]? with
    | some l =>
      let x := s.l2 die l
      onlyIf "COMMIT" ((x.st == .M || x.st == .E) && x.snoop.isNone && !x.locked)
        ((s.updL2 die l (fun x => { x with locked := true })).updDie die (fun d =>
          let cs := d.commits.map (fun (y : Commit) => if y.id = c.id then { y with locked := y.locked + 1 } else y)
          { d with commits := cs }))
    | none =>
      match s.req c.id with
      | none => no "COMMIT"
      | some r =>
        let t := s.doCommit die c r
        onlyIf "COMMIT" ((s.die die).notices.all (fun l => !c.lines.contains l) &&
          ((s.warp c.warp).wpend == 0 || (t.warp c.warp).wpend ≤ 255)) t

/-- A notice reaches every core of the die with an open region (R208, R209). -/
def execConflictNotice (die line : Nat) (s : State) : Out :=
  if !(s.die die).notices.contains line then no "CONFLICT_NOTICE"
  else
    let s := s.updDie die (fun d => { d with notices := d.notices.erase line })
    let hit (sig : Sign) : Bool := signHits sig line
    let cores := distinct ((s.warps.filter (fun p => p.2.placed && p.2.core / 64 == die && !p.2.regions.isEmpty)).map
      (fun p => p.2.core))
    .next (cores.foldl (fun s c =>
      if hit (s.core c).rsig then
        { s with warps := s.warps.map (fun p => if p.2.placed && p.2.core == c then
            (p.1, { p.2 with regions := p.2.regions.map (fun (q : Nat × Region) => (q.1, { q.2 with stale := true })) }) else p) }
      else if hit (s.core c).wsig then s.updCore c (fun x => { x with overlap := x.overlap + 1 })
      else s) s)

end Sys2Proof.Machine
end

