-- ==== Sys2Proof/Machine/Sync.lean ====
section
/-! DEFINITION. Class 0x7: barrier instructions and WAITA (R161 to R167), and how a wake reaches its gang. -/

namespace Sys2Proof.Machine

/-! ## Wakes (R164, R296) -/

/-- A wake delivered: the gang goes on, with its status and, for WAITA, the value. A gang that waits while
its warp's handler runs holds the warp's own registers. -/
def Warp.awake (w : Warp) (x : Waiter) (k : Wake) : Warp :=
  let free (g : Gang) : Gang := if g.park = .wait k.id then { g with park := .none } else g
  let mine := w.trap.isNone || (w.archOf x.way).gangs.any (fun g => g.park == .wait k.id)
  let w := w.updArch x.way (fun a => { a with gangs := a.gangs.map free })
  let w := { w with
    trap := w.trap.map (fun t => { t with gangs := t.gangs.map free })
    wakes := w.wakes.filter (fun (y : Wake) => y.id != k.id) }
  let status : Double := BitVec.ofNat 64 k.status
  match x.dst with
  | .v n => (lanesOf x.lanes).foldl (fun w l => w.put x.way mine l (.v n) false status) w
  | .p n => (lanesOf x.lanes).foldl (fun w l => w.put x.way mine l (.p n) false status) w
  | .gp n => w.put x.way mine 0 (.gp n) false status
  | .g n =>
    let w := w.put x.way mine 0 (.g n) false status
    if x.two then w.put x.way mine 0 (.g (n + 1)) false (k.value.setWidth 64) else w
  | _ => w

def State.deliver (s : State) (u : Nat) (k : Wake) : State :=
  match s.waits.find? (fun x => x.id == k.id) with
  | none => s.updWarp u (fun w => { w with wakes := w.wakes.filter (fun (y : Wake) => y.id != k.id) })
  | some x => { s.updWarp u (fun w => w.awake x k) with waits := s.waits.filter (fun (y : Waiter) => y.id != k.id) }

/-- The issuing gang parks; a wake that has come at once is taken at once. -/
def State.parkOn (s : State) (id : Nat) : State :=
  let s := s.advance.park (.wait id)
  match s.wWarp.wakes.find? (fun k => k.id == id) with
  | some k => s.deliver s.who.warp k
  | none => s

/-- A request whose gang parks until its wake. -/
def State.submitWait (s : State) (r : Req) (two : Bool) : Eff :=
  let id := s.clk.fresh
  let x : Waiter := { id := id, on := .issue, warp := s.who.warp, way := s.who.way, dst := r.dst, two := two }
  { s with waits := s.waits ++ [x] }.submit r (fun s => s.parkOn id)

/-! ## Barrier instructions (R163, R164) -/

/-- The shape of class 0x7: one gang, one access. -/
def State.sync (s : State) (i : Instr) (f : OpM) (w : Want) (n kind : Nat) (reads : Bool) (go : State → Acc → Eff) :
    State :=
  s.issue i (fun s => s.oldestOnly (fun s =>
    if !s.ganged then .trap { cause := 0x05, lanes := s.active }
    else match s.accs f w n kind (OpM.off24 f) with
      | .error t => s.walkTrap f (OpM.off24 f) t
      | .ok [] => .wait
      | .ok (a :: _) =>
        let s := s.noteAccess f (OpM.off24 f)
        match s.regionTrap f (OpM.off24 f) kind true [a] with
        | some t => .trapFrom s t
        | none =>
        let fails := s.scrFails f false [a]
        let a := { a with left := [] }
        if !fails.isEmpty then .done (s.advance.switchOff fails)
        else match (if reads then s.poisonTrap f (OpM.off24 f) kind (s.newReq (mreq f .load [])) [{ a with left := List.range n }]
            else none) with
          | some (s', t) => .trapFrom s' t
          | none => go (s.noteWrites [a]) a))

/-- A count, a byte value or a phase: a g register or an immediate. -/
def State.countOf (s : State) (f : OpM) : Nat := (s.src32 s.uLane f.b).toNat

def barReq (f : OpM) (op : Nat) (a : Acc) (v : Nat) : Req :=
  { mreq f (.bar op) [{ a with val := v }] with nl1 := false, pol := 0, size := .word }

def execBinit (f : OpM) (s : State) : Out :=
  .next (s.sync (.binit f) f wantBar 16 1 false (fun s a => s.submit (barReq f 0 a (s.countOf f)) State.advance))

def execBarv (f : OpM) (s : State) : Out :=
  .next (s.sync (.barv f) f wantBar 16 1 true (fun s a =>
    let id := s.clk.fresh
    s.submit (barReq f 1 a (s.countOf f)) (fun s => (s.await id f.dst 1 s.active).advance)))

def execBwait (f : OpM) (s : State) : Out :=
  .next (s.sync (.bwait f) f wantBar 16 0 true (fun s a => s.submitWait (barReq f 2 a (s.countOf f)) false))

def execBarw (f : OpM) (s : State) : Out :=
  .next (s.sync (.barw f) f wantBar 16 1 true (fun s a => s.submitWait (barReq f 3 a (s.countOf f)) false))

def execBexp (f : OpM) (s : State) : Out :=
  .next (s.sync (.bexp f) f wantBar 16 1 true (fun s a => s.submit (barReq f 4 a (s.countOf f)) State.advance))

/-! ## WAITA (R165, R166) -/

/-- The expected value and the mask: a pair of words, or of doubles. -/
def State.waitPair (s : State) (f : OpM) : Nat × Nat :=
  match f.b with
  | .g n =>
    let rd (r : Nat) : Word := s.wWarp.getG s.who.way true r
    (regsNat n.val f.size.regs rd, regsNat (n.val + f.size.regs) f.size.regs rd)
  | _ => (0, 0)

def execWaita (f : OpM) (s : State) : Out :=
  .next (s.sync (.waita f) (noIndex f) wantBupd f.size.bytes 0 true (fun s a =>
    let p := s.waitPair f
    s.submitWait { mreq f (.waita f.cache.val p.1 p.2 (s.src32 s.uLane f.c).toNat) [a] with nl1 := false, pol := 0 } true))

/-- At the deadline the entry is freed and the gang woken with the current value (R166). -/
def execWaitaDeadline (stack entry : Nat) (s : State) : Out :=
  match s.tables.find (4096 * stack + entry) with
  | none => no "WAITA_DEADLINE"
  | some e =>
    match e.deadline with
    | none => no "WAITA_DEADLINE"
    | some t =>
      onlyIf "WAITA_DEADLINE" (t ≤ s.dieTime stack)
        ({ s with tables := s.tables.erase (4096 * stack + entry) }.wake e.waiter 1
          (BitVec.ofNat 32 (s.curNat e.ta (if e.wide then 8 else 4))))

end Sys2Proof.Machine
end

