-- ==== Sys2Proof/Machine/SpecLoop.lean ====
section
/-! DEFINITION. Speculative loops: SPLOOP, SPPUT, SPACC, SPNEXT, SPEND, SPQ and the keeping of a way
(R308 to R320). -/

namespace Sys2Proof.Machine

/-! ## The core's room (R60, R309) -/

/-- Free warp contexts of a core: neither a warp nor a clone holds them. -/
def State.freeCtxs (s : State) (c : Nat) : List Nat :=
  let used := (s.warps.filter (fun p => p.2.placed && p.2.core == c && !p.2.retired)).flatMap (fun p =>
    p.2.ctx :: (match p.2.loop with | some l => l.ctxs | none => []))
  (List.range 64).filter (fun n => !used.contains n)
def State.freeContexts (s : State) (c : Nat) : Nat := (s.freeCtxs c).length

/-- The effective width of a loop of width `wmax` for a warp (R309). -/
def State.loopWidth (s : State) (w : Warp) (wmax : Nat) : Nat :=
  min wmax (1 + min (s.freeContexts w.core) (s.freeGranules w.core / w.granules))

/-! ## Rounds (R308, R313) -/

/-- Every unfinished slice at one PC, in one gang. -/
def Arch.oneGang (a : Arch) (pc : Double) : Arch :=
  let u := a.unfinished
  let a' := (slicesOf u).foldl (fun a i => a.updSlice i (fun x => { x with pc := pc })) a
  { a' with gangs := if u = 0 then [] else [{
      slices := u
      count := a.gangs.foldl (fun n h => max n h.count) 0
      fence := a.gangs.foldl (fun n h => max n h.fence) 0 }] }

/-- A round: way 0 runs the body, every other way the guess routine, each on the committed state. -/
def SpecLoop.startRound (l : SpecLoop) : SpecLoop :=
  let n := if l.n = 0 then l.ew else min l.ew (l.n - l.done)
  let c := l.committed
  let one (k : Nat) : Nat × Way :=
    -- the flags of a way that is not the oldest are those that it raises
    let c := if k = 0 then c else { c with fstat := 0 }
    (k, { arch := c.oneGang (if k = 0 then l.body else l.guess), start := c, st := if k = 0 then 2 else 1, oldest := k == 0 })
  { l with base := l.done, ways := (List.range n).map one }

/-! ## Acceptance (R310) -/

/-- `o(x)` of the ulp mode. -/
def ulpOrder (x : Word) : Int :=
  if x.getLsbD 31 then -((x &&& 0x7FFFFFFF#32).toNat : Int) else (x.toNat : Int)

def isNan32 (x : Word) : Bool := 0x7F800000#32 < (x &&& 0x7FFFFFFF#32)

/-- A guess is accepted for a true value. -/
def AccRule.accepts (r : AccRule) (g t : Word) : Bool :=
  match r.mode with
  | 0 => g == t
  | 1 => (g ^^^ t) &&& r.param == 0
  | 2 => (g.toInt - t.toInt).natAbs ≤ r.param.toNat
  | _ => (isNan32 g && isNan32 t) ||
      (!isNan32 g && !isNan32 t && (ulpOrder g - ulpOrder t).natAbs ≤ r.param.toNat)

def Warp.ruleOf (w : Warp) (n : Nat) : AccRule := (w.rules.find? (fun r => r.reg == n)).getD ⟨n, 0, 0⟩

/-- A way's guesses against a carry-out, in every lane of the way that is not exited. -/
def Warp.guessesOk (w : Warp) (l : SpecLoop) (y : Way) (t : Arch) : Bool :=
  (List.range l.c).all (fun j => (List.range 32).all (fun lane =>
    y.arch.exited.getLsbD lane ||
    (w.ruleOf (l.b + j)).accepts (y.guesses.get 0 (vkey j lane)) (t.v.get 0 (vkey (l.b + j) lane))))

/-! ## SPLOOP, SPACC, SPEND, SPQ (R317 to R320) -/

def State.misuse (s : State) : Eff := .trap { cause := 0x10, lanes := s.active }

/-- Registers of the issuing way that the scoreboard still awaits, or whose results are late (R306). -/
def State.wayBusy (s : State) : Bool :=
  s.wWarp.busy.any (fun b => b.way == s.who.way) || s.wWarp.late.any (fun b => b.1.way == s.who.way)
/-- Requests of the issuing way still under way, prefetches apart. -/
def State.wayReqs (s : State) : Bool :=
  s.reqs.any (fun r => r.warp == s.who.warp && r.way == s.who.way && r.kind != .prefetch)

/-- R318: the checks in order, then EW and the first round; the cache gives up what the clones take. It waits until
the warp's registers are there to be copied. A loop of the handler runs on its own way alone, since no other runs while
the warp is in its handler (R316, log 132). -/
def State.sploop (s : State) (f : OpB) : Eff :=
  let w := s.wWarp
  let b := bitsOf f.imm.toNat 0 9
  let c := bitsOf f.imm.toNat 9 3 + 1
  let wmax := bitsOf f.imm.toNat 12 3 + 1
  if !s.ganged then .trap { cause := 0x05, lanes := s.active }
  else if w.alloc ≤ b + c - 1 then .trap { cause := 0x03, lanes := s.active }
  else if w.loop.isSome || w.rules.any (fun r => r.reg < b || b + c ≤ r.reg) then s.misuse
  else if s.wayBusy || s.wayReqs then .wait
  else
    let n := (s.src32 s.uLane f.a).toNat
    let ew := s.loopWidth w wmax
    let ctxs := (s.freeCtxs w.core).take (ew - 1)
    let id := s.clk.fresh
    let s := (s.bump.putLanes (maskOf [s.uLane]) f.dst false (fun _ => BitVec.ofNat 64 ew)).advance
    let body := s.pc
    let guess := body + 12 * (f.off.signExtend 64) - 12
    .done ((s.updMy (fun w =>
      let l : SpecLoop := {
        id := id, sup := s.inHandler, n := n, c := c, b := b, w := wmax, ew := ew, guess := guess, body := body, committed := w.arch, ctxs := ctxs
        depths := w.arch.slices.map (fun x => x.stack.length) }
      { w with loop := some l.startRound })).trimL1 w.core)

def execSploop (f : OpB) (s : State) : Out :=
  .next (s.issue (.sploop f) (fun s => s.noRegion f.com (fun s => s.notGuessing (fun s => s.sploop f))))

/-- A rule entered in the table: an entry of the same register is replaced (R310). -/
def setRule (rs : List AccRule) (r : AccRule) : List AccRule :=
  if rs.any (fun x => x.reg == r.reg) then rs.map (fun x => if x.reg = r.reg then r else x) else rs ++ [r]

def execSpacc (f : OpB) (s : State) : Out :=
  .next (s.issue (.spacc f) (fun s => s.noRegion f.com (fun s => s.notGuessing (fun s =>
    let p : Word := match f.a with
      | .imm n => n.signExtend 32
      | .g n => s.src32 s.uLane (.g n)
      | _ => 0                                      -- exact, written without a parameter
    let r : AccRule := ⟨bitsOf f.imm.toNat 0 9, f.ctl.val % 4, p⟩
    let rs := s.wWarp.rules
    if s.wWarp.loop.isSome || (rs.length ≥ 8 && !rs.any (fun x => x.reg == r.reg)) || (r.mode == 0 && p != 0) then s.misuse
    else .done (s.updMy (fun w => { w with rules := setRule w.rules r })).advance))))

/-- R319: done and the squash count; the clone contexts and their regions are free again. -/
def execSpend (f : OpB) (s : State) : Out :=
  .next (s.issue (.spend f) (fun s => s.noRegion f.com (fun s => s.notGuessing (fun s =>
    match s.wWarp.loop with
    | some l =>
      if s.inHandler != l.sup || !l.ending then s.misuse
      else
        let s := s.updMy (fun w => { w with loop := none, rules := [] })
        .done (s.putLanes (maskOf [s.uLane]) f.dst true
          (fun _ => BitVec.ofNat 64 (l.done % 2 ^ 32 + 2 ^ 32 * (l.squash % 2 ^ 32)))).advance
    | none => s.misuse))))

/-- The SPQ word of a way (R320). -/
def Warp.spqWord (w : Warp) (k : Nat) : Nat :=
  match w.loop, w.way? k with
  | some l, some y =>
    packFields [(12, l.base + k), (2, y.st), (1, y.oldest.toNat), (3, k), (3, l.ew - 1),
      (8, (distinct (y.lines.map (fun p => lineOf p.1))).length)]
  | _, _ => 0

def execSpq (f : OpB) (s : State) : Out :=
  .next (s.issue (.spq f) (fun s => s.notGuessing (fun s => s.noRegion f.com (fun s =>
    .done (s.putLanes (maskOf [s.uLane]) f.dst false (fun _ => BitVec.ofNat 64 (s.wWarp.spqWord s.who.way))).advance))))

/-! ## SPPUT (R311) -/

/-- The S that a slice's gang parked with. -/
def Arch.sputOf (a : Arch) (i : Nat) : Nat := match (a.gang i).park with | .sput n => n | _ => 0

/-- What SPPUT leaves: the guesses in the carried block, all else as the round began. -/
def Way.put (y : Way) (l : SpecLoop) : Way :=
  let a := y.arch
  let lanes := (lanesOf (~~~ a.exited)).filter (fun i => a.unfinished.getLsbD (i / 4))
  let cells := (List.range l.c).flatMap (fun j =>
    lanes.map (fun i => (j, i, a.v.get 0 (vkey (a.sputOf (i / 4) + j) i))))
  let v := cells.foldl (fun (t : Tab Word) p => t.set 0 (vkey (l.b + p.1) p.2.1) p.2.2) y.start.v
  let pois := cells.foldl (fun (t : Tab Bool) p => t.set false (vkey (l.b + p.1) p.2.1 / 2) false) y.start.vpois
  let b : Arch := { y.start with v := v, vpois := pois, gangs := a.gangs }
  { y with
    arch := b.oneGang l.body, st := 2
    guesses := cells.foldl (fun (t : Tab Word) p => t.set 0 (vkey p.1 p.2.1) p.2.2) []
    reads := [], wrote := [], sig := 0, blocks := [] }

/-- Once every gang of the way has parked at an SPPUT, it acts for the way. -/
def State.settleSput (s : State) (u k : Nat) : State :=
  match (s.warp u).loop, (s.warp u).way? k with
  | some l, some y =>
    if y.arch.gangs.all (fun g => match g.park with | .sput _ => true | _ => false) then
      (s.updWarp u (fun w => w.updWay k (fun y => y.put l))).widenReqs u k y.arch.unfinished
    else s
  | _, _ => s

def execSpput (f : OpB) (s : State) : Out :=
  .next (s.issue (.spput f) (fun s =>
    match s.guessing && !s.inHandler, s.wWarp.loop, f.a with
    | true, some l, .v n =>
      if s.wWarp.alloc ≤ n.val + l.c - 1 then .trap { cause := 0x03, lanes := s.active }
      else if s.wayBusy then .wait
      else if s.poisoned ⟨f.com, Src.regsFrom f.a l.c, []⟩ s.active then .trapFrom (s.consumed s.wWarp.core s.wWarp.tenant) { cause := 0x0F, lanes := s.active }
      else .done ((s.park (.sput n.val)).settleSput s.who.warp s.who.way)
    | _, _, _ => s.noRegion f.com (fun s => s.oldestOnly State.misuse)))

/-! ## SPNEXT (R312) -/

/-- Each unfinished slice's token depth is as it was after SPLOOP. -/
def State.depthsOk (s : State) (l : SpecLoop) : Bool :=
  (slicesOf s.gang.slices).all (fun i => (s.arch.slice i).stack.length == l.depths.getD i 0)

def execSpnext (f : OpB) (s : State) : Out :=
  .next (s.issue (.spnext f) (fun s => s.notGuessing (fun s => s.noRegion f.com (fun s =>
    match s.wWarp.loop with
    | some l =>
      if s.inHandler != l.sup || !s.ganged || !s.depthsOk l || s.target f != l.body then s.misuse
      else if s.wayBusy || s.wayReqs then .wait
      else
        let pred := match f.a with | .gp n => n.val | _ => 0
        .done ((s.updWay (fun y => { y with st := 3, pred := pred })).park .spnext)
    | none => s.misuse))))

/-! ## Keeping a way (R313) -/

/-- Reads outside the carried block that meet what a kept way wrote. -/
def Way.clashes (y : Way) (l : SpecLoop) (k : Way) : Bool :=
  y.reads.any (fun p => !(32 * l.b ≤ p.1 && p.1 < 32 * (l.b + l.c)) && k.wrote.get false p.1)

/-- A hit of the way's signature on a block that a kept way wrote. -/
def Way.hits (y : Way) (k : Way) : Bool :=
  k.blocks.any (fun b => if b == anyBlock then y.sig != 0 else signHits y.sig b)

/-- Ways `j` and up squashed. -/
def State.squashFrom (s : State) (u j : Nat) : State :=
  (s.updWarp u (fun w => w.squashAbove (j - 1))).dropWays u (j - 1)

/-- Bits of `mine` where `pick` is set, of `prev` elsewhere. -/
def mixBits {n : Nat} (pick mine prev : BitVec n) : BitVec n := (mine &&& pick) ||| (prev &&& ~~~ pick)

/-- The state on which a way goes on as the oldest (R313, R314): the registers of its carried block and those it wrote are
its own, every other is as the ways kept before it left it, with the flags that it raised. -/
def Way.joined (y : Way) (l : SpecLoop) : Arch :=
  let prev := l.committed
  let own (key : Nat) : Bool := (32 * l.b ≤ key && key < 32 * (l.b + l.c)) || y.wrote.get false key
  let bits (key : Nat → Nat) : BitVec 8 := (List.range 8).foldl (fun m n => if own (key n) then m ||| bit8 n else m) 0
  let vkeys := distinct ((y.arch.v ++ prev.v).map (·.1))
  let pick {α : Type} [DecidableEq α] (d : α) (key : Nat → Nat) (ks : List Nat) (mine old : Tab α) : Tab α :=
    ks.foldl (fun t k => t.set d k (if own (key k) then mine.get d k else old.get d k)) []
  -- a granule is the way's own where it changed it
  let pois (mine old start : Tab Bool) : Tab Bool :=
    (distinct ((mine ++ old ++ start).map (·.1))).foldl (fun t k =>
      t.set false k (if mine.get false k = start.get false k then old.get false k else mine.get false k)) []
  { y.arch with
    v := pick 0 id vkeys y.arch.v prev.v
    g := pick 0 (fun k => 2 ^ 14 + 256 + k) (List.range 64) y.arch.g prev.g
    p := (List.range 32).foldl (fun t i =>
      t.set 0 i (mixBits (bits (fun n => 2 ^ 14 + 32 * n + i)) (y.arch.p.get 0 i) (prev.p.get 0 i))) []
    gp := mixBits (bits (fun n => 2 ^ 14 + 320 + n)) y.arch.gp prev.gp
    vpois := pois y.arch.vpois prev.vpois y.start.vpois
    gpois := pois y.arch.gpois prev.gpois y.start.gpois
    fstat := prev.fstat ||| y.arch.fstat
    sfmask := prev.sfmask ||| y.arch.sfmask }

/-- Buffered lines written through: they enter the store bay (R315). -/
def State.writeThrough (s : State) (u k : Nat) : State :=
  match (s.warp u).way? k with
  | none => s
  | some y =>
    let w := s.warp u
    let ls := distinct (y.lines.map (fun p => lineOf p.1))
    let s := ls.foldl (fun s l =>
      let drop := y.pols.get 0 l == 1
      let bs := cutLine y.lines l
      let a : Acc := { lane := 0, ta := 64 * l, len := 0, unc := y.unc.contains l }
      let x : Write := {
        id := s.clk.fresh, warp := some u, src := u, core := w.core, die := w.core / 64, line := l
        place := placeOf .store .device a, kind := .store, accs := [a], bytes := bs, tenant := w.tenant
        shown := !drop && ((s.core w.core).l1.find l).isSome, pol := y.pols.get 0 l, time := s.clk.time }
      let s := { s.bump with writes := s.writes ++ [x] }
      if drop then s.dropCopy w.core l else s.storeToCopy w.core l x.id bs) s
    (s.addPend u ls.length).updWarp u (fun w => w.updWay k (fun y =>
      { y with lines := [], unc := [], pols := [], oldest := true, stuck := 0 }))

/-- The deferred KVVAL updates of a way, as requests in their order (R315, R327). -/
def State.submitKv (s : State) (u k : Nat) (rs : List KvRec) : State :=
  rs.foldl (fun s r =>
    let w := s.warp u
    let behind := (s.reqs.filter (fun (q : Req) => q.warp == u && (match q.kind with | .kvval _ => true | _ => false))).map (·.id)
    let q : Req := {
      id := s.clk.fresh, warp := u, way := k, slices := (w.archOf k).unfinished, core := w.core, kind := .kvval r
      scope := r.scope, order := if r.set then .release else .relaxed, behind := behind }
    { s.bump with reqs := s.reqs ++ [q] }) s

/-- The loop stops here with its committed state. -/
def Warp.leaveLoop (w : Warp) (l : SpecLoop) (a : Arch) (ending : Bool) : Warp :=
  { w with arch := a, loop := some { l with ending := ending, ways := [], committed := a } }

/-- The oldest way is kept: the end of the loop, squashes, the next oldest, or a new round. A pre-emption
request starts no new round (R316). -/
def State.keepWay (s : State) (u k : Nat) (l : SpecLoop) (y : Way) : State :=
  let w := s.warp u
  let a := y.arch
  let left : SpecLoop := {
    l with done := l.done + 1, committed := a, pred := y.pred, ways := l.ways.filter (fun p => p.1 != k) }
  let s := s.updWarp u (fun w => { w with arch := a, loop := some left })
  let pred := y.pred != 0 && y.arch.gp.getLsbD y.pred
  if (l.n != 0 && l.done + 1 == l.n) || pred then
    let pc := (y.arch.slice ((slicesOf y.arch.unfinished).headD 0)).pc + 12
    (s.squashFrom u (k + 1)).updWarp u (fun w => match w.loop with
      | some l => w.leaveLoop l (a.oneGang pc) true
      | none => w)
  else
    let bad := left.ways.find? (fun p => p.2.clashes l y || p.2.hits y || y.arch.exited != y.start.exited)
    let s := match bad with | some p => s.squashFrom u p.1 | none => s
    let s := match (s.warp u).way? (k + 1) with
      | some n => if n.st = 1 || !w.guessesOk l n a then s.squashFrom u (k + 1) else s
      | none => s
    match (s.warp u).way? (k + 1) with
    | some _ => (s.updWarp u (fun w => w.updWay (k + 1) (fun y => { y with arch := y.joined left, start := a }))).writeThrough u (k + 1)
    | none => s.updWarp u (fun w => match w.loop with
      | some l => if w.preempt && !l.sup then w.leaveLoop l a false else { w with loop := some l.startRound }
      | none => w)

/-- The oldest way of a loop that stands at SPNEXT. -/
def Warp.toKeep (w : Warp) : Option (Nat × SpecLoop × Way) :=
  match w.loop with
  | some l => match l.ways.find? (fun p => p.2.oldest && p.2.st == 3) with
    | some (k, y) => if l.ending || l.sup != w.trap.isSome then none else some (k, l, y)
    | none => none
  | none => none

/-- R313, R315: the way's KVVAL updates are applied first; the writes of the way that becomes oldest need their
room in wpend. -/
def execWayKeep (warp : Nat) (s : State) : Out :=
  let w := s.warp warp
  match w.toKeep with
  | none => no "WAY_KEEP"
  | some (k, l, y) =>
    if !y.kv.isEmpty then
      .next ((s.submitKv warp k y.kv).updWarp warp (fun w => w.updWay k (fun y => { y with kv := [] })))
    else
      let next := match l.ways.find (k + 1) with
        | some n => (distinct (n.lines.map (fun p => lineOf p.1))).length
        | none => 0
      onlyIf "WAY_KEEP" (w.wpend + next ≤ 255 &&
          !s.reqs.any (fun r => r.warp == warp && (match r.kind with | .kvval _ => true | _ => false)))
        (s.keepWay warp k l y)

end Sys2Proof.Machine
end

