-- ==== Sys2Proof/Machine/Trees.lean ====
section
/-! DEFINITION. Translation trees as they change: pools and counts (R343), the instructions ROOTSW, ROOTCP, RFRSH,
TNODE and PGMAP (R350 to R356), and the reclaim walker (R348). -/

namespace Sys2Proof.Machine

/-- A tree operation: it cannot be carried out yet (`none`), it fails with a status, or it has a result. -/
abbrev Tree (α : Type) := Except (Option Nat) α

def Tree.guard (b : Bool) (st : Nat) : Tree Unit := if b then .ok () else .error (some st)

/-! ## Bytes at the home -/

/-- Bytes of one line changed at their home, once every die can give the line up (R134, R343). -/
def State.bankPut (s : State) (ta : Nat) (bs : List Byte) : Tree State :=
  let l := lineOf ta
  if s.canRecall l && !(s.dirE l).hostc then
    let s := s.recall l
    .ok ({ s with
      mem := writeBytes s.mem ta bs
      pois := if bs.length = 64 then s.pois.set false l false else s.pois }.evalWaits l)
  else .error none

/-- Whole lines from a line-aligned address; the first argument bounds their number. -/
def State.putLines (s : State) : Nat → Nat → List Byte → Tree State
  | 0, _, _ => .ok s
  | k + 1, ta, bs => do
    let s ← s.bankPut ta (bs.take 64)
    s.putLines k (ta + 64) (bs.drop 64)

/-! ## Pools and counts (R343) -/

def Pool.size (p : Pool) : Nat := if p.kind = 1 then 2048 else 65536

/-- The index of the element at an address. -/
def Pool.index (p : Pool) (kind pa : Nat) : Option Nat :=
  if p.kind = kind ∧ p.base ≤ pa ∧ (pa - p.base) % p.size = 0 ∧ (pa - p.base) / p.size < p.nelem then
    some ((pa - p.base) / p.size)
  else none

def State.countWord (s : State) (k i : Nat) : Nat := s.curNat ((s.pool k).cnt + 4 * i) 4
def State.putCount (s : State) (k i x : Nat) : Tree State := s.bankPut ((s.pool k).cnt + 4 * i) (leBytes 4 x)

/-- The count of the element at an address, and whether it is live. -/
def State.countAt (s : State) (k kind pa : Nat) : Nat :=
  match (s.pool k).index kind pa with
  | some i => s.countWord k i % 2 ^ 31
  | none => 0
def State.live (s : State) (k kind pa : Nat) : Bool :=
  match (s.pool k).index kind pa with
  | some i => (s.countWord k i).testBit 31
  | none => false

/-- The count of the element at an address raised. -/
def State.raiseCount (s : State) (k kind pa n : Nat) : Tree State :=
  match (s.pool k).index kind pa with
  | some i => s.putCount k i (s.countWord k i + n)
  | none => .ok s

/-- An element taken from its pool: ALLOC set, the count zero. -/
def State.allocElem (s : State) (k : Nat) : Tree (State × Nat) := do
  let p := s.pool k
  Tree.guard (p.free != 0) 0x04
  let i := s.curNat (p.stack + 4 * (p.free - 1)) 4
  let s := s.updPool k (fun p => { p with free := p.free - 1 })
  let s ← s.putCount k i (2 ^ 31)
  return (s, p.base + p.size * i)

/-- What an entry names has its count raised. -/
def State.raiseEntry (s : State) (a : Asd) (e n : Nat) : Tree State :=
  if !eV e then .ok s
  else if !eL e then s.raiseCount a.npool 1 (eAddr e) n
  else if eTgt e = 0 then s.raiseCount a.fpool 2 (eAddr e) n
  else .ok s

/-! ## Levels (R355) -/

/-- The level at which a node stands below some nodes of one level. -/
def State.levelBelow (s : State) (n : Nat) : List Nat → List Nat → Option Nat
  | [], _ => none
  | lvl :: r, front =>
    if front.contains n then some lvl
    else s.levelBelow n r (distinct (front.flatMap (fun m => (List.range 256).filterMap (fun i =>
      let e := s.curNat (m + 8 * i) 8
      if eV e && !eL e && !s.malformed e lvl then some (eAddr e) else none))))

/-- The levels a node may have: its place in a tree (R355), else those it was built for; a fresh node may have any
(DESIGN CHOICE, log 80). -/
def State.levelsOf (s : State) (n : Nat) : List Nat :=
  match s.levelBelow n [0, 1, 2, 3, 4] ((s.trees.roots.filter (fun p => p.2.valid)).map (fun p => p.2.top)) with
  | some l => [l]
  | none =>
    let k := s.trees.level.get 0 n
    [0, 1, 2, 3, 4].filter (fun l => k == 0 || k.testBit l)

/-- The levels a node may have, noted; the empty list forgets them. -/
def State.setLevels (s : State) (n : Nat) (ls : List Nat) : State :=
  { s with trees := { s.trees with level := s.trees.level.set 0 n (ls.foldl (fun k l => k ||| 2 ^ l) 0) } }

/-- The levels that an entry leaves to a node of some levels: where it breaks no rule of R341, and where what it
names may stand one level below. -/
def State.levelsFor (s : State) (e : Nat) (ls : List Nat) : List Nat :=
  ls.filter (fun l => !s.malformed e l && (!eV e || eL e || (s.levelsOf (eAddr e)).contains (l + 1)))

/-! ## Building nodes (R355) -/

/-- A node's entries as the issuing warp sees them: its own writes before memory. -/
def State.nodeEntry (s : State) (u n j : Nat) : Nat :=
  leNat ((List.range 8).map (fun i =>
    let ta := n + 8 * j + i
    match s.bayByte u ta s.clk.fresh with
    | some (some b) => b
    | _ => s.cur ta))

def cowEntry (e : Nat) : Nat := if eV e && !eCow e then e + 32 else e

/-- The checks of TNODE in their order. -/
def State.tnodeOk (s : State) (a : Asd) (o i e : Nat) : Bool :=
  i ≤ 255 && s.live a.npool 1 o && (s.levelsOf o).any (fun l => !s.malformed e l) &&
    (!eV e || (if eL e then eTgt e != 0 || s.live a.fpool 2 (eAddr e) else s.live a.npool 1 (eAddr e)))

/-- TNODE up to its writes: the new node and its bytes; the counts of what it names raised. -/
def State.tnode (s : State) (u : Nat) (a : Asd) (cow : Bool) (o i e : Nat) : Tree (State × Nat × List Byte) := do
  Tree.guard (s.tnodeOk a o i e) 0x05
  let es := (List.range 256).map (fun j =>
    if j = i then e else if cow then cowEntry (s.nodeEntry u o j) else s.nodeEntry u o j)
  let lvls := (s.levelsOf o).filter (fun l => !s.malformed e l)
  let lvls := if (s.levelsFor e lvls).isEmpty then lvls else s.levelsFor e lvls
  let (s, m) ← s.allocElem a.npool
  let s ← es.foldlM (fun s e => s.raiseEntry a e 1) s
  return (s.setLevels m lvls, m, es.flatMap (leBytes 8))

/-- TNODE with its node written at once. -/
def State.tnodeNow (s : State) (u : Nat) (a : Asd) (cow : Bool) (o i e : Nat) : Tree (State × Nat) := do
  let (s, m, bs) ← s.tnode u a cow o i e
  let s ← s.putLines 32 m bs
  return (s, m)

/-! ## Roots (R345, R352, R353) -/

/-- The lowest free root slots. -/
def State.freeRoots (s : State) (n : Nat) : List Nat := ((List.range 1024).filter (fun q => !(s.root q).valid)).take n

/-- ROOTSW at the root table. -/
def State.rootsw (s : State) (a x n : Nat) : Tree (State × Nat) := do
  let d := s.asd a
  Tree.guard (a < 256 && d.valid && s.live d.npool 1 n) 0x05
  Tree.guard (d.curv && d.cur == x) (2 + 2 ^ 16 * d.cur)
  match s.freeRoots 1 with
  | [] => .error (some 0x03)
  | q :: _ =>
    let s := s.updRoot q (fun _ => { valid := true, asd := a, top := n, curr := true })
    let s ← s.raiseCount d.npool 1 n 1
    let s := s.updRoot x (fun r => { r with curr := false })
    let s := s.updAsd a (fun d => { d with cur := q, curv := true })
    return ((s.noteReady x).setLevels n [0], 2 ^ 16 * q)

/-- A copy of a top node with every valid entry COW, and its root. -/
def State.copyTop (s : State) (k q : Nat) (bs : List Byte) (r : Root) : Tree State := do
  let (s, m) ← s.allocElem k
  let s ← s.putLines 32 m bs
  let s := (s.updRoot q (fun _ => { r with valid := true, top := m })).setLevels m [0]
  s.raiseCount k 1 m 1

/-- ROOTCP.fork (mode 0) and snap (mode 1): the status word and the new current root. -/
def State.rootcp (s : State) (u mode dest src : Nat) : Tree (State × Nat × Nat) := do
  let t := s.root src
  let a := s.asd t.asd
  let d := s.asd dest
  Tree.guard (src < 1024 && t.valid && t.curr) 0x02
  Tree.guard (mode != 0 || (dest < 256 && d.valid && d.npool == a.npool && !d.curv)) 0x06
  match s.freeRoots 2 with
  | ra :: rb :: _ =>
    Tree.guard (2 ≤ (s.pool a.npool).free) 0x04
    let es := (List.range 256).map (s.nodeEntry u t.top)
    let bs := es.flatMap (fun e => leBytes 8 (cowEntry e))
    let s ← es.foldlM (fun s e => s.raiseEntry a e 2) s
    let s ← s.copyTop a.npool ra bs { asd := t.asd, curr := true }
    let s ← s.copyTop a.npool rb bs
      (if mode = 0 then { asd := dest, curr := true } else { asd := t.asd, ro := true, keep := true })
    let s := s.updRoot src (fun r => { r with curr := false, sup := true })
    let s := s.updAsd t.asd (fun a => { a with cur := ra })
    let s := if mode = 0 then s.updAsd dest (fun a => { a with cur := rb, curv := true }) else s
    return (s.noteReady src, 2 ^ 16 * rb, ra)
  | _ => .error (some 0x03)

/-- ROOTCP.drop. -/
def State.rootDrop (s : State) (src : Nat) : State × Nat :=
  let r := s.root src
  if src < 1024 && r.valid && r.keep then ((s.updRoot src (fun r => { r with keep := false })).noteReady src, 0)
  else (s, 0x06)

/-! ## PGMAP (R356) -/

/-- Bit fields of an entry replaced. -/
def withAddr (e m : Nat) : Nat := e - eAddr e + m
def noCow (e : Nat) : Nat := if eCow e then e - 32 else e

/-- Nodes of a path rebuilt from one level up to the top, each naming the new item below it: levels `k` and
down, TNODE.cow at `h` and below. Path entries lose COW where `clear` says so: under .cow, where R356 states
COW = 0 for them; a first touch leaves them as they are, since other trees may reach what stands beside. -/
def State.rebuild (s : State) (u : Nat) (a : Asd) (path : List (Nat × Nat × Nat)) (va h : Nat) (clear : Bool) :
    Nat → Nat → Tree (State × Nat)
  | 0, item => s.tnodeNow u a (h ≤ 0) (path.getD 0 (0, 0, 0)).2.1 (bitsOf va (levelShift 0) 8) item
  | k + 1, item => do
    let (s, m) ← s.tnodeNow u a (h ≤ k + 1) (path.getD (k + 1) (0, 0, 0)).2.1 (bitsOf va (levelShift (k + 1)) 8) item
    let e := (path.getD k (0, 0, 0)).2.2
    s.rebuild u a path va h clear k (withAddr (if clear then noCow e else e) m)

/-- A new frame with these bytes. -/
def State.newFrame (s : State) (a : Asd) (bs : List Byte) : Tree (State × Nat) := do
  let (s, f) ← s.allocElem a.fpool
  let s ← s.putLines 1024 f bs
  return (s, f)

/-- One lane of PGMAP on the current tree: mode 0 first touch, 1 copy-on-write. -/
def State.pgmap (s : State) (u mode va : Nat) : Tree (State × Nat) := do
  let ai := (s.warp u).asd
  let a := s.asd ai
  Tree.guard (a.curv && va < 2 ^ 56) 0x05
  let r := s.root a.cur
  let path := s.walkPath va [0, 1, 2, 3, 4] r.top
  let last := path.length - 1
  let (lvl, _, e) := path.getD last (0, 0, 0)
  let leaf := eL e && !s.malformed e lvl
  let cows := (List.range path.length).filter (fun k => eCow (path.getD k (0, 0, 0)).2.2)
  if mode = 0 then
    Tree.guard (leaf && !eV e && eFt e) 0x01
    let (s, f) ← s.newFrame a (List.replicate 65536 0)
    -- V := 1, FT := 0, TGT 0
    let item := withAddr (e % 2 ^ 62) f + 1 - 64
    let (s, top) ← s.rebuild u a path va (last + 1) false last item
    s.rootsw ai a.cur top
  else
    Tree.guard (leaf && eV e && (!cows.isEmpty || r.sup)) 0x01
    let h := cows.headD 0
    let shared := 1 < (if eTgt e = 0 then s.countAt a.fpool 2 (eAddr e) else 0) ||
      (List.range path.length).any (fun k => h < k && 1 < s.countAt a.npool 1 (path.getD k (0, 0, 0)).2.1)
    if shared then
      let src := (leafAt e lvl (va - va % 65536)).ta
      let (s, f) ← s.newFrame a (s.curBytes src 65536)
      let (s, top) ← s.rebuild u a path va h true last (withAddr (noCow e % 2 ^ 62) f)
      s.rootsw ai a.cur top
    else
      let b := cows.getLastD last
      let (s, top) ← s.rebuild u a path va h true b (noCow (path.getD b (0, 0, 0)).2.2)
      s.rootsw ai a.cur top

/-! ## Issue (R350) -/

/-- The tree privilege of the context, or the handler. -/
def State.treePriv (s : State) : Bool := s.inHandler || (s.tenant s.wWarp.tenant).tree

/-- A descriptor of another tenant. -/
def State.foreign (s : State) (a : Nat) : Bool :=
  a < 256 && (s.asd a).valid && (s.asd a).tenant != s.wWarp.tenant

/-- A tree instruction's request; it waits as a release where its order says so. -/
def State.treeReq (s : State) (f : OpM) (k : ReqKind) (o : Order) (as : List Acc) (n : Nat) (ls : Lanes) : Eff :=
  let id := s.clk.fresh
  s.submit { id := 0, warp := 0, kind := k, scope := .device, order := o, accs := as, dst := f.dst, u := f.com.u }
    (fun s => (s.await id f.dst n ls).advance)

/-- An instruction of the chapter: not in a region, only the oldest way, with the privilege it needs. -/
def State.treeInstr (s : State) (i : Instr) (f : OpM) (ok : State → Bool) (go : State → Eff) : Out :=
  .next (s.issue i (fun s => s.noRegion f.com (fun s => s.oldestOnly (fun s =>
    if ok s then go s else .trap { cause := 0x14, lanes := s.faulting f.com }))))

def execRootsw (f : OpM) (s : State) : Out :=
  s.treeInstr (.rootsw f) f (fun s => s.treePriv && !s.foreign (s.u32Of f.a)) (fun s =>
    s.treeReq f (.tree 0 0 (s.u32Of f.a) (s.u32Of f.b) (s.pairVal f.c) 0) .release [] 1 0)

def State.rootcpInstr (s : State) (i : Instr) (f : OpM) (mode : Nat) : Out :=
  s.treeInstr i f (fun s =>
    let r := s.root (s.u32Of f.b)
    s.treePriv && !(r.valid && s.foreign r.asd) && !(mode == 0 && s.foreign (s.u32Of f.a))) (fun s =>
    s.treeReq f (.tree 1 mode (if mode = 0 then s.u32Of f.a else 0) (s.u32Of f.b) 0 0) .release [] 2 0)

def execRootcpFork (f : OpM) (s : State) : Out := s.rootcpInstr (.rootcpFork f) f 0
def execRootcpSnap (f : OpM) (s : State) : Out := s.rootcpInstr (.rootcpSnap f) f 1
def execRootcpDrop (f : OpM) (s : State) : Out := s.rootcpInstr (.rootcpDrop f) f 2

/-- R354. -/
def execRfrsh (f : OpM) (s : State) : Out :=
  s.treeInstr (.rfrsh f) f (fun _ => true) (fun s =>
    let s := s.repin s.who.warp
    .done (s.putLanes (maskOf [s.uLane]) f.dst false (fun _ => BitVec.ofNat 64 s.wWarp.root)).advance)

def execTnode (f : OpM) (s : State) : Out :=
  s.treeInstr (.tnode f) f State.treePriv (fun s =>
    s.treeReq f (.tree 3 f.cache.val (s.pairVal f.a) (s.u32Of f.b) (s.pairVal f.c) 0) .relaxed [] 2 0)

/-- The executing lanes of PGMAP with their addresses. -/
def State.pgmapAccs (s : State) (f : OpM) : List Acc :=
  (lanesOf (s.executing f.com)).map (fun l => { lane := l, ta := (s.src64 l f.a).toNat, len := 0 })

def State.pgmapInstr (s : State) (i : Instr) (f : OpM) (mode : Nat) : Out :=
  s.treeInstr i f State.inHandler (fun s =>
    s.treeReq f (.tree 4 mode 0 0 0 0) .release (s.pgmapAccs f) 1 (s.executing f.com))

def execPgmapFt (f : OpM) (s : State) : Out := s.pgmapInstr (.pgmapFt f) f 0
def execPgmapCow (f : OpM) (s : State) : Out := s.pgmapInstr (.pgmapCow f) f 1

/-! ## Carrying out (R352 to R356) -/

/-- The destination written, the scoreboard cleared, the request gone. -/
def State.treeDone (s : State) (r : Req) (wide : Bool) (vals : List (Nat × Nat)) : State :=
  (s.updWarp r.warp (fun w =>
    let w := vals.foldl (fun w p => w.put r.way r.sup p.1 r.dst wide (BitVec.ofNat 64 p.2)) w
    { w with busy := w.busy.filter (fun b => b.id != r.id) })).dropReq r.id

/-- A result that may be a failing status, which changes nothing else. -/
def orStatus {α : Type} (t : Tree α) (ok : α → State) (bad : Nat → State) : Out :=
  match t with
  | .ok x => .next (ok x)
  | .error (some st) => .next (bad st)
  | .error none => no "LOAD_RETURN"

/-- The lanes of PGMAP in ascending order; 0x00 and 0x01 re-pin the warp. -/
def State.pgmapLanes (s : State) (u mode : Nat) : List Acc → Tree (State × List (Nat × Nat))
  | [] => .ok (s, [])
  | a :: r => do
    let d := s.asd (s.warp u).asd
    -- the walk of the current tree is the core's own (R349)
    let s := if d.curv then s.noteWalk (s.warp u).core (s.root d.cur) a.ta else s
    let (s, st) ← match s.pgmap u mode a.ta with
      | .ok (s, st) => .ok (s, st)
      | .error (some st) => .ok (s, st)
      | .error none => .error none
    let s := if st % 256 ≤ 1 then s.repin u else s
    let (s, sts) ← s.pgmapLanes u mode r
    return (s, (a.lane, st) :: sts)

/-- A new node's bytes enter the store bay, one write per line (R355). -/
def State.enterNode (s : State) (r : Req) (m : Nat) (bs : List Byte) : State :=
  let as : List Acc := (List.range 32).map (fun k =>
    { lane := 0, ta := m + 64 * k, len := 64, val := leNat ((bs.drop (64 * k)).take 64) })
  (s.enterBay { r with kind := .store } as).addPend r.warp 32

/-- A tree request carried out. -/
def State.doTree (s : State) (r : Req) (func mode a b c : Nat) : Out :=
  match func with
  | 0 => orStatus (s.rootsw a b c) (fun x => x.1.treeDone r false [(0, x.2)]) (fun st => s.treeDone r false [(0, st)])
  | 1 =>
    let part (s : State) (st : Nat) : State := s.treeDone r false [(0, st)]
    if mode = 2 then let x := s.rootDrop b; .next (part x.1 x.2)
    else orStatus (s.rootcp r.warp mode a b) (fun x => x.1.treeDone r true [(0, x.2.1 + 2 ^ 32 * x.2.2)]) (part s)
  | 3 =>
    if 255 < (s.warp r.warp).wpend + 32 then no "LOAD_RETURN"
    else orStatus (s.tnode r.warp (s.asd (s.warp r.warp).asd) (mode == 1) a b c)
      (fun x => (x.1.enterNode r x.2.1 x.2.2).treeDone r true [(0, x.2.1)])
      (fun st => s.treeDone r true [(0, 2 ^ 63 + st)])
  | _ => orStatus (s.pgmapLanes r.warp mode r.accs) (fun x => x.1.treeDone r false x.2) (fun _ => s)

/-- What a gang's request returns arrives: a load, an atomic, a per-lane instruction (R138, R153, R158, R325), a
tree instruction (R352). -/
def execLoadReturn (load : Nat) (s : State) : Out :=
  match s.req load with
  | none => no "LOAD_RETURN"
  | some r =>
    match r.started, r.kind with
    | true, .tree func mode a b c _ => s.doTree r func mode a b c
    | _, _ => returnAny load s

/-! ## The reclaim walker (R348, R349) -/

/-- Frames of a leaf: one page, or the whole run of a larger leaf. -/
def runOf (lvl : Nat) : Nat := 2 ^ (levelShift lvl - 16)

/-- A count lowered by one; at zero ALLOC goes with it. The result says whether it is zero. -/
def State.lower (s : State) (k kind pa : Nat) : Tree (State × Bool) :=
  match (s.pool k).index kind pa with
  | none => .ok (s, false)
  | some i => do
    let n := s.countWord k i % 2 ^ 31 - 1
    let s ← s.putCount k i (if n = 0 then 0 else 2 ^ 31 + n)
    return (s, n == 0)

/-- An element's index pushed on its pool's free stack. -/
def State.pushElem (s : State) (k kind pa : Nat) : Tree State :=
  match (s.pool k).index kind pa with
  | none => .ok s
  | some i => do
    let s ← s.putCount k i 0
    let s ← s.bankPut ((s.pool k).stack + 4 * (s.pool k).free) (leBytes 4 i)
    return s.updPool k (fun p => { p with free := p.free + 1 })

/-- Entries of a node dropped in order, up to the first child whose count came to zero: the entry after it,
the frames that came free, and that child. -/
def State.scanNode (s : State) (a : Asd) (n : Nat) : List Nat → List Nat → Tree (State × Nat × List Nat × Option Nat)
  | [], freed => .ok (s, 256, freed, none)
  | j :: r, freed => do
    let e := s.curNat (n + 8 * j) 8
    if eV e && !eL e then
      let (s, zero) ← s.lower a.npool 1 (eAddr e)
      if zero then return (s, j + 1, freed, some (eAddr e)) else s.scanNode a n r freed
    else if eV e && eL e && eTgt e == 0 then
      let (s, zero) ← s.lower a.fpool 2 (eAddr e)
      s.scanNode a n r (if zero then freed ++ [eAddr e] else freed)
    else s.scanNode a n r freed

/-- A node that has been dropped: its lines leave every walker, its frames and then itself their free stacks. -/
def State.freeNode (s : State) (a : Asd) (lvl n : Nat) (freed : List Nat) : Tree State := do
  let s := { s with trees := { s.trees with
    walked := (List.range 32).foldl (fun t k => t.erase (n / 64 + k)) s.trees.walked } }
  let frames := freed.flatMap (fun f => (List.range (runOf lvl)).map (fun i => f + 65536 * i))
  let s ← frames.foldlM (fun s f => s.pushElem a.fpool 2 f) s
  let s ← s.pushElem a.npool 1 n
  return s.setLevels n []

def State.setWalk (s : State) (w : Option Walk) : State := { s with trees := { s.trees with walk := w } }

/-- One node of the walk, from stop to stop. -/
def State.walkStep (s : State) (w : Walk) : Tree State := do
  let q := s.root w.root
  let a := s.asd q.asd
  match w.stack with
  | [] =>
    if w.visited then return (s.updRoot w.root (fun q => { q with valid := false })).setWalk none
    else
      let (s, zero) ← s.lower a.npool 1 q.top
      return s.setWalk (some { w with visited := true, stack := if zero then [(q.top, 0, [])] else [] })
  | (n, i, freed) :: r =>
    let (s, j, freed, child) ← s.scanNode a n ((List.range 256).drop i) freed
    match child with
    | some c => return s.setWalk (some { w with stack := (c, 0, []) :: (n, j, freed) :: r })
    | none =>
      let s ← s.freeNode a r.length n freed
      return s.setWalk (some { w with stack := r })

/-- The walker takes the next reclaimable root, or goes on with its walk; it stops between nodes. -/
def execReclaimRoot (s : State) : Out :=
  match s.trees.walk, s.trees.ready with
  | some w, _ =>
    (match s.walkStep w with
      | .ok s => .next s
      | .error _ => no "RECLAIM_ROOT")
  | none, r :: rest =>
    let s := { s with trees := { s.trees with ready := rest, walk := some { root := r } } }
    .next (s.updRoot r (fun q => { q with recl := true }))
  | none, [] => no "RECLAIM_ROOT"

end Sys2Proof.Machine
end

