-- ==== Sys2Proof/Machine/System.lean ====
section
/-! DEFINITION. System instructions: TRET, CSRR, CSRW, FLTQ and PGREQ (R361 to R368), the replies of the stub and
the host's page responses. -/

namespace Sys2Proof.Machine

/-! ## TRET (R365) -/

/-- The handler's own requests and the registers they will write. -/
def State.handlerBusy (s : State) : Bool :=
  s.wWarp.busy.any (fun b => b.sup) || s.reqs.any (fun r => r.warp == s.who.warp && r.sup && r.kind != .prefetch)

/-- The warp of a trap record leaves its handler; the regions of lanes that it ended go with them. -/
def State.leaveHandler (s : State) (u : Nat) (kill : Bool) : State :=
  match (s.warp u).trap with
  | none => s
  | some r =>
    let gone := if kill then (lanesOf r.tmask).filter (fun l => ((s.warp u).regions.find l).isSome) else []
    let s := s.updWarp u (fun w => w.leave r kill)
    let s := s.endRegions u r.way (gone.map (fun l => (l, 0))) false
    s.settleRegang u r.way

/-- TRET waits until what the handler issued has come back to it. -/
def State.tret (s : State) (i : Instr) (f : OpM) (kill : Bool) : Out :=
  .next (s.issue i (fun s =>
    if !s.inHandler then (s.noRegion f.com (fun s => s.oldestOnly (fun s => .trap { cause := 0x14, lanes := s.active })))
    else if !s.ganged then .trap { cause := 0x05, lanes := s.active }
    else if s.handlerBusy then .wait
    else .done (s.leaveHandler s.who.warp kill)))

def execTret (f : OpM) (s : State) : Out := s.tret (.tret f) f false
def execTretKill (f : OpM) (s : State) : Out := s.tret (.tretKill f) f true

/-! ## CSRs (R361, R364) -/

/-- A CSR: whether it is a double, held per lane, writable, handler-only. -/
structure Csr where
  wide : Bool
  lane : Bool
  rw   : Bool
  hand : Bool
  deriving DecidableEq, Repr

def csrOf (n : Nat) : Option Csr :=
  match n with
  | 0x000 => some ⟨false, false, true, false⟩
  | 0x001 => some ⟨true, false, false, false⟩
  | 0x002 | 0x010 | 0x014 | 0x020 | 0x021 => some ⟨false, false, false, true⟩
  | 0x011 | 0x013 => some ⟨true, false, false, true⟩
  | 0x012 => some ⟨true, false, true, true⟩
  | 0x015 => some ⟨true, true, false, true⟩
  | 0x016 => some ⟨false, true, false, true⟩
  | 0x030 => some ⟨false, true, true, true⟩
  | 0x031 => some ⟨false, false, true, true⟩
  | n => if 0x040 ≤ n ∧ n < 0x050 then some ⟨false, false, true, true⟩ else none

/-- TCAUSE (R359). -/
def TrapRec.word (t : TrapRec) : Nat := packFields [(8, t.cause), (22, t.code), (1, 0), (1, t.spec.toNat)]

/-- A CSR's value in a lane. -/
def State.csrRead (s : State) (n l : Nat) : Nat :=
  let w := s.wWarp
  let a := s.arch
  match w.trap with
  | none => if n = 0 then a.fstat.toNat else if n = 1 then a.sfmask.toNat else 0
  | some t =>
    let g := (t.gangs.find? (fun g => g.slices.getLsbD t.gang)).getD {}
    match n with
    | 0x000 => t.fstat.toNat
    | 0x001 => a.sfmask.toNat
    | 0x002 => g.count
    | 0x010 => t.word
    | 0x011 => t.tpc.toNat
    | 0x012 => t.tepc.toNat
    | 0x013 => t.tmemb.toNat
    | 0x014 => t.tmask.toNat
    | 0x015 => (t.taddr.get 0 l).toNat
    | 0x016 => if t.tmask.getLsbD l then t.tkind else 3
    | 0x020 => (s.tenant w.tenant).prallow
    | 0x021 => (s.tenant w.tenant).prout
    | 0x030 => (t.p.get 0 l ||| 1).toNat
    | 0x031 => (t.gp ||| 1).toNat
    | n => (t.g.getD (n - 0x040) 0).toNat

/-- A CSR written in a lane: reserved bits stay zero (R225, R361). -/
def State.csrWrite (s : State) (n l x : Nat) : State :=
  s.updMy (fun w =>
    match w.trap with
    | none => if n = 0 then w.updArch s.who.way (fun a => { a with fstat := BitVec.ofNat 32 (x % 128) }) else w
    | some t =>
      { w with trap := some (match n with
        | 0x000 => { t with fstat := BitVec.ofNat 32 (x % 128) }
        | 0x012 => { t with tepc := BitVec.ofNat 64 x }
        | 0x030 => { t with p := t.p.set 0 l (BitVec.ofNat 8 x &&& 0xFE) }
        | 0x031 => { t with gp := BitVec.ofNat 8 x &&& 0xFE }
        | n => { t with g := t.g.set (n - 0x040) (BitVec.ofNat 32 x) }) })

/-- The cause that a CSR instruction takes, 0 where it may run. -/
def State.csrCause (s : State) (f : OpM) (write : Bool) : Nat :=
  match csrOf (f.off.toNat % 4096) with
  | none => 0x01
  | some c =>
    if c.wide != (f.size == .double) || (write && (!c.rw || (c.lane && f.com.u))) then 0x01
    else if c.hand && !s.inHandler then 0x14 else 0

def execCsrr (f : OpM) (s : State) : Out :=
  .next (s.issue (.csrr f) (fun s => s.noRegion f.com (fun s => s.oldestOnly (fun s =>
    let c := s.csrCause f false
    if c ≠ 0 then .trap { cause := c, lanes := s.faulting f.com }
    else
      let ls := if f.com.u then maskOf [s.uLane] else s.executing f.com
      .done (s.putLanes ls f.dst (f.size == .double)
        (fun l => BitVec.ofNat 64 (s.csrRead (f.off.toNat % 4096) l))).advance))))

def execCsrw (f : OpM) (s : State) : Out :=
  .next (s.issue (.csrw f) (fun s => s.noRegion f.com (fun s => s.oldestOnly (fun s =>
    let c := s.csrCause f true
    if c ≠ 0 then .trap { cause := c, lanes := s.faulting f.com }
    else
      let ls := if f.com.u then [s.uLane] else lanesOf (s.executing f.com)
      .done (ls.foldl (fun t l => t.csrWrite (f.off.toNat % 4096) l (s.dataOf l f.size f.b)) s).advance))))

/-! ## FLTQ and PGREQ (R365, R368) -/

/-- FLTQ. -/
def execFltq (f : OpM) (s : State) : Out :=
  .next (s.issue (.fltq f) (fun s => s.noRegion f.com (fun s => s.oldestOnly (fun s =>
    if !s.inHandler then .trap { cause := 0x14, lanes := s.active }
    else
      let sword := s.src32 s.uLane f.b
      .done (s.advance.forward s.who.warp s.who.way s.who.slice f.dst sword 1)))))

/-- Pages of an open group, each once. -/
def groupPages (g : List (Nat × Bool)) : List Nat := distinct (g.map (·.1))

/-- Its page requests: one for each page, with write access where some lane asked for it, the last flagged. -/
def pageReqs (g : List (Nat × Bool)) : List PrReq :=
  let ps := groupPages g
  ps.mapIdx (fun k p => ⟨p, g.contains (p, true), k + 1 == ps.length⟩)

/-- A tenant's function may send `n` page requests now: none of its waiters is ahead, and its stream has keys (R382). -/
def State.prRoom (s : State) (t n : Nat) : Bool :=
  (s.tenant t).pri && (s.tenant t).prout + n ≤ (s.tenant t).prallow && s.carries t

/-- A group of page requests sent, with the PASID of the waiter's context; its gang waits for the response. -/
def State.sendGroup (s : State) (t : Nat) (pages : List (Nat × Bool)) (x : Waiter) : State :=
  let id := s.clk.fresh
  let g : PrGroup := ⟨id, t, Config.pasid t (s.warp x.warp).inst % 2 ^ 20, pageReqs pages, x.id⟩
  let s := { s.bump with prgroups := s.prgroups ++ [g] }
  (s.updTenant t (fun q => { q with prout := q.prout + (groupPages pages).length })).setWait x.id (.page id)

/-- Waiters of a function take their turn in order while its allowance lasts. -/
def State.roomFor (s : State) (t : Nat) : List Waiter → State
  | [] => s
  | x :: r => match x.on with
    | .room t' ps =>
      if t' ≠ t then s.roomFor t r
      else if s.prRoom t (groupPages ps).length then (s.sendGroup t ps x).roomFor t r else s
    | _ => s.roomFor t r

/-- PGREQ: its lanes' pages join the open group; .last closes it. -/
def execPgreq (f : OpM) (s : State) : Out :=
  .next (s.issue (.pgreq f) (fun s => s.noRegion f.com (fun s => s.oldestOnly (fun s =>
    let ls := s.executing f.com
    if !s.inHandler then .trap { cause := 0x14, lanes := ls }
    else
      let t := s.wWarp.tenant
      let pages := (lanesOf ls).map (fun l => ((s.src64 l f.a).toNat / 4096, f.cache.val % 2 == 1))
      let g := distinct (s.wWarp.group ++ pages)
      let last := 2 ≤ f.cache.val
      let put (st : Nat) (s : State) : Eff := .done (s.putLanes ls f.dst false (fun _ => BitVec.ofNat 64 st)).advance
      if !last then put 0 (s.updMy (fun w => { w with group := g }))
      else
        let n := (groupPages g).length
        let s := s.updMy (fun w => { w with group := [] })
        if s.link.down then put 4 s
        else if min 64 (s.tenant t).prallow < n then put 3 s
        else if !(s.tenant t).pri then put 2 s
        else
          let id := s.clk.fresh
          let x : Waiter := { id := id, on := .room t g, warp := s.who.warp, way := s.who.way, dst := f.dst, lanes := ls }
          let s := { s.bump with waits := s.waits ++ [x] }
          .done ((s.advance.park (.wait id)).roomFor t s.waits)))))

/-- The host's response to a group: Success, Invalid Request, or a Response Failure, which disables page
requests for the function. -/
def execPageResponse (group code : Nat) (s : State) : Out :=
  match s.prgroups.find? (fun g => g.id == group) with
  | none => no "PAGE_RESPONSE"
  | some g =>
    if 2 < code || s.link.down || !s.carries g.tenant then no "PAGE_RESPONSE"
    else
      let s := { s with prgroups := s.prgroups.filter (fun (x : PrGroup) => x.id != group) }
      let s := s.updTenant g.tenant (fun q => { q with prout := q.prout - g.reqs.length, pri := q.pri && code != 2 })
      let s := s.wake g.waiter code
      .next (s.roomFor g.tenant s.waits)

/-! ## The stub's reply (R366) -/

/-- An engine goes on with its element, or ends; a cancelled one as cancelled (R184). -/
def State.engineReply (s : State) (o : EngOp) (reply : Nat) : State :=
  let r := reply % 256
  if o.cls = 0xE then
    -- the dispatcher makes its access again; of a completion's, one answered otherwise is left out (R370)
    if o.func = 0 then { s with ops := s.ops.filter (fun (e : EngOp) => e.id != o.id) }
    else s.updOp o.id (fun e => { e with susp := false, susc := 0, slot := none, cancel := r ≠ 0 })
  else if r = 0 then s.updOp o.id (fun e => { e with susp := e.attn && e.started, susc := 0, slot := none })
  else
    s.endOp o.id (if o.cancel then 1 else if r = 4 then 4 else 3)

/-- The stub answers an entry that stands in the queue: it writes REPLY and clears VALID, on its way to the line's home
(R366). Once VALID is clear, an engine that waits on the entry takes the REPLY that stands there; a gang has been woken
with it as VALID was cleared. -/
def execFaultReply (tenant entry : Nat) (reply : Word) (s : State) : Out :=
  let at' := s.fqAt tenant entry
  let op := s.ops.find? (fun o => o.tenant == tenant && o.slot == some entry)
  if s.fqPending (lineOf at') then no "FAULT_REPLY"
  else if (s.cur (at' + 31)).getLsbD 7 then
    onlyIf "FAULT_REPLY" (entry < (s.tenant tenant).fqcap)
      (s.homeStore (2 ^ 65 + 1) none (at' + 31) ((s.cur (at' + 31) &&& 0x7F) :: leBytes 4 reply.toNat))
  else match op with
    | some o => .next (s.engineReply o (s.curNat (at' + 32) 4))
    | none => no "FAULT_REPLY"

end Sys2Proof.Machine
end

