-- ==== Sys2Proof/Machine/Graph.lean ====
section
/-! DEFINITION. Graphs: node descriptors and launch headers (R284 to R290), the instructions of class 0xD
(R300 to R305), the start of every engine operation (R143), and what a pre-emption request does (R297). -/

namespace Sys2Proof.Machine

/-! ## Node descriptors (R284) -/

structure NodeD where
  hdr    : Nat
  qbase  : Nat
  cbar   : Nat
  crec   : Nat
  preds  : List Nat
  rdbase : Nat
  rdlen  : Nat
  wrlen  : Nat
  wrbase : Nat
  tmo    : Nat
  qcap   : Nat
  rsz    : Nat
  coal   : Nat
  npred  : Nat
  kind   : Nat
  crent  : Nat
  crcap  : Nat
  res    : Nat
  taken  : Nat
  tail   : Nat
  deriving DecidableEq, Repr

def NodeD.ofNat (x : Nat) : NodeD :=
  { hdr := bitsOf x 0 64, qbase := bitsOf x 64 64, cbar := bitsOf x 128 64, crec := bitsOf x 192 64
    preds := (List.range (min 4 (bitsOf x 769 3))).map (fun k => bitsOf x (256 + 64 * k) 64)
    rdbase := bitsOf x 512 64, rdlen := bitsOf x 576 32, wrlen := bitsOf x 608 32, wrbase := bitsOf x 640 64
    tmo := bitsOf x 704 32, qcap := bitsOf x 736 20, rsz := bitsOf x 756 5, coal := bitsOf x 761 8
    npred := bitsOf x 769 3, kind := bitsOf x 772 2, crent := bitsOf x 774 6, crcap := bitsOf x 780 16
    res := bitsOf x 796 100, taken := bitsOf x 896 64, tail := bitsOf x 960 64 }

/-- It holds a reserved value. -/
def NodeD.bad (d : NodeD) : Bool :=
  d.res != 0 || 4 < d.npred || d.rsz < 3 || d.coal == 0 || d.crcap == 0 || 524288 < d.qcap ||
    !(d.qcap == 0 || (List.range 20).any (fun k => d.qcap == 2 ^ k))

def NodeD.recSize (d : NodeD) : Nat := 8 * (d.rsz + 1)
/-- The address of record `i`'s slot (R285). -/
def NodeD.slot (d : NodeD) (i : Nat) : Nat := addr64 (d.qbase + d.recSize * (i % d.qcap) : Nat)

/-! ## Launch headers (R287) -/

/-- A node's header where none can be read: it is refused with error 1 (R402). -/
def noHdr : Nat := 2 ^ 512

structure Hdr where
  entry  : Nat
  asd    : Nat
  regs   : Nat
  scr    : Nat
  wpt    : Nat
  tlvl   : Nat
  tenant : Nat
  prio   : Nat
  dies   : Nat
  opst   : Bool
  fields : List (Nat × Nat)      -- width and extent of fields 0 to 5
  lstab  : Nat
  zero   : Bool                  -- the reserved bits are zero
  plain  : Bool                  -- every field but those of R289 is zero
  deriving DecidableEq, Repr

def Hdr.ofNat (x : Nat) : Hdr :=
  { entry := bitsOf x 0 56, asd := bitsOf x 56 8 + 256 * (x / noHdr), regs := bitsOf x 64 9 + 1, scr := bitsOf x 73 9, wpt := bitsOf x 82 6 + 1
    tlvl := bitsOf x 88 3, tenant := bitsOf x 91 4, prio := bitsOf x 95 3, dies := bitsOf x 98 8, opst := x.testBit 106
    fields := (List.range 6).map (fun k =>
      let w := bitsOf x (128 + 7 * k) 7
      let e := bitsOf x (192 + 32 * k) 32 + 1
      (w, if w ≤ 32 then e else e * 2 ^ (w - 32)))
    lstab := bitsOf x 448 56
    zero := x < noHdr && bitsOf x 107 21 == 0 && bitsOf x 170 22 == 0 && bitsOf x 440 8 == 0 && bitsOf x 504 8 == 0
    plain := bitsOf x 64 27 == 0 && bitsOf x 106 406 == 0 }

/-- Width of the fields 0 to the team level (R53). -/
def Hdr.low (h : Hdr) : Nat := ((h.fields.take (h.tlvl + 1)).map (·.1)).sum
def Hdr.alloc (h : Hdr) : Nat := (h.regs + 15) / 16 * 16

/-- The checks of R52, R53, R65, R287 and R289 on a header of a kind. -/
def Hdr.ok (h : Hdr) (kind : Nat) : Bool :=
  if kind = 1 ∨ kind = 2 then h.zero && h.plain && (kind != 1 || h.entry % 128 == 0)
  else
    h.zero && h.tlvl ≤ 5 && (h.fields.map (·.1)).sum ≤ 64 &&
    h.fields.all (fun f => f.1 ≤ 64 && f.2 ≤ 2 ^ f.1) &&
    5 ≤ h.low && h.low ≤ 11 && h.wpt == 2 ^ (h.low - 5) && h.scr ≤ 256 && h.entry % 12 == 0

/-! ## Memory through a descriptor's current root (R370) -/

/-- The places of a span, with their lengths and whether they are uncached host lines: an access from outside the handler
(R342), which reaches a host's leaf once its stream has keys (R382). -/
def State.asdLocs (s : State) (a kind : Nat) : List (Nat × Nat) → Except Stop (List (Nat × Nat × Bool))
  | [] => .ok []
  | p :: r =>
    if !(s.asd a).curv || 2 ^ 56 ≤ p.1 then .error (.code 2)
    else match s.translate (s.root (s.asd a).cur) true p.1 kind with
      | .error c => .error (stopOf c p.1)
      | .ok l =>
        if isRed l.ta then .error (.code 2)
        else if isHost l.ta && !s.carries (hostStream (s.asd a).tenant l.unc) then .error .wait
        else match s.asdLocs a kind r with
          | .error e => .error e
          | .ok ls => .ok ((l.ta, p.2, l.unc) :: ls)

def State.asdRead (s : State) (a va n : Nat) : Except Stop (List Byte) :=
  match s.asdLocs a 0 (pieces va n) with
  | .error e => .error e
  | .ok ls =>
    if ls.any (fun p => s.bytesPoison p.1 p.2.1) then .error (.code 5)
    else .ok (ls.flatMap (fun p => (if p.2.2 then s.pushPosted else s).curBytes p.1 p.2.1))

/-- Where a write of the engines of I/O die 0 is performed: they have no die L2 (R135, R188). -/
def ioPlace (ta : Nat) (unc : Bool) : Place :=
  if isPeer ta then .peer else if isHost ta then (if unc then .posted else .host) else .bank

/-- Bytes written by the ready pool or the dispatcher for an operation, at their homes (R144, R302, log 126). -/
def State.poolWrite (s : State) (o : EngOp) : List (Nat × Nat × Bool) → List Byte → State
  | [], _ => s
  | p :: r, bs => (s.putWriteAt o (ioPlace p.1 p.2.2) p.1 p.2.2 (bs.take p.2.1)).poolWrite o r (bs.drop p.2.1)

/-- Bytes written for an operation through a descriptor's current root. -/
def State.asdWrite (s : State) (o : EngOp) (a va : Nat) (bs : List Byte) : Except Stop State :=
  match s.asdLocs a 1 (pieces va bs.length) with
  | .error e => .error e
  | .ok ls => .ok (s.poolWrite o ls bs)

/-! ## Queues and instances -/

def State.nodeQ (s : State) (a n : Nat) : NodeQ := (s.nodes.find? (fun q => q.asd == a && q.node == n)).getD { asd := a, node := n }
def State.putNodeQ (s : State) (q : NodeQ) : State :=
  { s with nodes := s.nodes.filter (fun (x : NodeQ) => !(x.asd == q.asd && x.node == q.node)) ++ [q] }
def State.updNodeQ (s : State) (a n : Nat) (f : NodeQ → NodeQ) : State := s.putNodeQ (f (s.nodeQ a n))

def Inst.d (i : Inst) : NodeD := NodeD.ofNat i.desc
def Inst.h (i : Inst) : Hdr := Hdr.ofNat i.hdr

/-- The descriptor through whose current root a node's objects are found: the one that its header names, and for want of a
header the node's own (R370, log 140). -/
def nodeAsd (a h : Nat) : Nat := if h < noHdr then (Hdr.ofNat h).asd else a
def Inst.io (i : Inst) : Nat := nodeAsd i.asd i.hdr

/-- A new instance of a node, numbered among the node's. -/
def State.newInst (s : State) (i : Inst) : State :=
  let q := s.nodeQ i.asd i.node
  let id := s.clk.fresh
  let i := { i with num := q.count, since := s.clk.time, prio := i.h.prio, tenant := i.h.tenant, kind := i.d.kind }
  { s.bump with insts := s.insts.put id i }.putNodeQ { q with count := q.count + 1 }

/-- The warps of an instance, with their keys. -/
def State.warpsOf (s : State) (i : Nat) : List (Nat × Warp) := s.warps.filter (fun p => p.2.inst == i)
/-- Some unfinished warp of it is on a core. -/
def State.resident (s : State) (i : Nat) : Bool := (s.warpsOf i).any (fun p => p.2.placed && !p.2.retired)

/-! ## Issue of class 0xD (R300) -/

/-- Outside the issue queue: the operation captures its warp's writes at once (R369). -/
def State.graphIssue (s : State) (o : EngOp) (tok : Dst) : Eff :=
  if 32 ≤ (s.opsOf o.warp).length then .wait
  else
    let s := ({ s.bump with ops := s.ops ++ [o] }.pin o.root).await o.id tok 1 0
    .done ((s.updWay (fun y => { y with blocks := distinct (y.blocks ++ [anyBlock]) })).capture o.id).advance

/-- LAUNCH and EMIT: a count in a register that is zero or negative is illegal. -/
def State.counted (s : State) (f : OpT) (func : Nat) : Eff :=
  let n := s.u32Of f.c
  if n = 0 ∨ 2 ^ 31 ≤ n then .trap { cause := 0x01, lanes := s.active }
  else s.graphIssue { s.newOp 0xD func f with a := s.pairVal f.a, b := s.pairVal f.b, c := n } f.tok

def execLaunch (f : OpT) (s : State) : Out := .next (s.engine (.launch f) f (fun s => s.counted f 0))
def execEmit (f : OpT) (s : State) : Out := .next (s.engine (.emit f) f (fun s => s.counted f 1))
def execNdone (f : OpT) (s : State) : Out :=
  .next (s.engine (.ndone f) f (fun s => s.graphIssue { s.newOp 0xD 2 f with b := s.u32Of f.b } f.tok))

/-- The scheduling privilege, or the handler. -/
def State.schedPriv (s : State) : Bool := s.inHandler || (s.tenant s.wWarp.tenant).sched

def execSlotw (f : OpT) (s : State) : Out :=
  .next (s.engine (.slotw f) f (fun s =>
    if s.schedPriv then s.graphIssue { s.newOp 0xD 3 f with a := s.pairVal f.a, b := s.u32Of f.b } f.tok
    else .trap { cause := 0x14, lanes := s.active }))

def State.prmpt (s : State) (i : Instr) (f : OpT) (evict : Bool) : Out :=
  .next (s.engine i f (fun s =>
    if s.schedPriv then s.graphIssue { s.newOp 0xD 4 f with a := s.pairVal f.a, b := evict.toNat } f.tok
    else .trap { cause := 0x14, lanes := s.active }))

def execPrmptStop (f : OpT) (s : State) : Out := s.prmpt (.prmptStop f) f false
def execPrmptEvict (f : OpT) (s : State) : Out := s.prmpt (.prmptEvict f) f true

/-! ## Pre-emption requests (R297, R316) -/

/-- A request reaches a warp: no new round, no way but the oldest. -/
def State.askWarp (s : State) (u : Nat) (evict : Bool) : State :=
  let k := match (s.warp u).loop with
    | some l => ((l.ways.find? (fun p => p.2.oldest)).map (·.1)).getD 0
    | none => 0
  (s.updWarp u (fun w => { (w.squashAbove k) with preempt := true, evict := w.evict || evict })).dropWays u k

/-- Teams of an instance taken back from the queues of the cores. -/
def State.takeBack (s : State) (i : Nat) : State :=
  let mine := s.cores.flatMap (fun p => (p.2.queue.filter (fun t => t.1 == i)).map (·.2))
  let s := { s with cores := s.cores.foldl (fun t (p : Nat × Core) =>
    Tab.set {} t p.1 { p.2 with queue := p.2.queue.filter (fun t => t.1 != i) }) [] }
  s.updInst i (fun x => { x with back := sortNat (x.back ++ mine) })

/-- A pre-emption request for a context. -/
def State.askStop (s : State) (i : Nat) (evict : Bool) : State :=
  let s := (s.takeBack i).updInst i (fun x => { x with stop := true, evict := x.evict || evict })
  (s.warpsOf i).foldl (fun s p => s.askWarp p.1 evict) s

/-- PRMPT operations whose instances have all been saved, or have gone (R305). -/
def State.settleStops (s : State) : State :=
  (s.ops.filter (fun o => o.cls == 0xD && o.func == 4 && o.started && o.code.isNone)).foldl (fun s o =>
    if s.insts.any (fun p => p.2.stopops.contains o.id && s.resident p.1) then s else s.endOp o.id 0) s

/-! ## Carrying out -/

/-- Code 2 for an access that reaches no device frame (R300). -/
def Stop.graph : Stop → Stop
  | .code _ => .code 2
  | e => e

/-- Bytes that must lie in device frames, aligned: code 2 where they do not (R300). -/
def State.devRead (s : State) (o : EngOp) (va n al : Nat) : Except Stop (List Byte) :=
  if va % al ≠ 0 then .error (.code 2)
  else match s.engDevs o 0 (pieces va n) with
    | .error e => .error e.graph
    | .ok _ => s.engRead o va n

/-- A node and its header as an operation reads them: code 9 for a malformed node, 0x22 for another tenant's. A header that
cannot be read is none (R402). -/
def State.readNode (s : State) (o : EngOp) : Except Stop (Nat × Nat) :=
  match s.devRead o o.a 128 128 with
  | .error e => .error e
  | .ok bs =>
    let d := NodeD.ofNat (leNat bs)
    if d.bad then .error (.code 9)
    else match s.devRead o d.hdr 64 64 with
      | .error (.code _) => .ok (leNat bs, noHdr)
      | .error e => .error e
      | .ok hs =>
        let a := s.asd (Hdr.ofNat (leNat hs)).asd
        if a.valid && a.tenant != o.tenant then .error (.code 0x22) else .ok (leNat bs, leNat hs)

/-- LAUNCH (R301). -/
def State.launch (s : State) (o : EngOp) : State :=
  match s.readNode o, s.devRead o o.b 8 8 with
  | .error e, _ | _, .error e => s.stopOp o.id e
  | .ok (d, h), .ok _ =>
    (s.newInst {
      asd := o.asd, node := o.a, num := 0, desc := d, hdr := h, owner := o.tenant, nrec := o.c, slotAt := o.b, direct := true
      launched := true }).endOp o.id 0

/-- Where the records of EMIT go, from an index on, with their bytes. -/
def State.emitPlaces (s : State) (d : NodeD) (a : Nat) :
    List (Nat × List Byte) → Except Stop (List (List (Nat × Nat × Bool) × List Byte))
  | [] => .ok []
  | p :: r =>
    let bs := p.2.take (d.recSize - 8) ++ leBytes 8 p.1
    match s.asdLocs a 1 (pieces (d.slot p.1) bs.length) with
    | .error e => .error e.graph
    | .ok ls => match s.emitPlaces d a r with
      | .error e => .error e
      | .ok rest => .ok ((ls, bs) :: rest)

/-- EMIT (R302): the pool takes it by advancing TAIL, which waits while the node's line cannot be changed at its home;
then it writes the records. Both are writes of the operation (R144). -/
def State.emit (s : State) (o : EngOp) : Out :=
  match s.readNode o with
  | .error e => s.stopped "ENGINE_START" o e
  | .ok (x, h) =>
    let d := NodeD.ofNat x
    if d.qcap = 0 ∨ d.qcap ≤ d.tail + o.c - 1 - d.taken then .next (s.endOp o.id 0x20)
    else match s.devRead o o.b (d.recSize * o.c) 8, s.engDev o o.a 128 128 1 with
      | .error e, _ => s.stopped "ENGINE_START" o e
      | _, .error e => s.stopped "ENGINE_START" o e.graph
      | .ok bs, .ok ta =>
        let recs := (List.range o.c).map (fun i => (d.tail + i, (bs.drop (d.recSize * i)).take d.recSize))
        match s.emitPlaces d (nodeAsd o.asd h) recs with
        | .error e => s.stopped "ENGINE_START" o e
        | .ok ps => s.atHome "ENGINE_START" o (ta + 120) (fun s =>
          let l := lineOf (ta + 120)
          let tail : Write := {
            id := s.clk.fresh, warp := none, src := o.warp, op := some o.id, core := o.core, die := o.core / 64, line := l
            place := .bank, kind := .store, bytes := (leBytes 8 (d.tail + o.c)).mapIdx (fun i b => (ta + 120 + i, b))
            tenant := o.tenant, time := s.clk.time }
          let s := ({ s.bump with writes := s.writes ++ [tail] }.recall l).performHome tail l (s.dieTime (stackOf l))
          ((ps.foldl (fun s p => s.poolWrite o p.1 p.2) s).updNodeQ o.asd o.a id).endOp o.id 0)

/-- NDONE (R303), once it may act as a release and its warp's earlier ones have. -/
def State.doNdone (s : State) (o : EngOp) : Option State :=
  if !s.releaseReady o.warp o.scope ||
      s.ops.any (fun e => e.cls == 0xD && e.func == 2 && e.warp == o.warp && e.id < o.id && e.code.isNone) then none
  else if (s.warp o.warp).ndone then some (s.endOp o.id 1)
  else
    let s := s.updWarp o.warp (fun w => { w with ndone := true })
    some ((s.updInst o.inst (fun i => { i with marks := true, status := i.status ||| BitVec.ofNat 32 o.b })).endOp o.id 0)

/-- SLOTW (R304): the image waits for the core's entry counter. -/
def State.doSlotw (s : State) (o : EngOp) : Option State :=
  if (s.core o.b).image.isSome then none
  else some (
    if 512 ≤ o.b ∨ s.plat.absCores.contains o.b then s.endOp o.id 2
    else match s.devRead o o.a 528 1 with
      | .error e => s.stopOp o.id e
      | .ok bs =>
        let x := leNat bs
        if bitsOf x 4128 96 ≠ 0 then s.endOp o.id 9
        else
          let entries := (List.range 1024).map (fun e => bitsOf x (4 * e) 4)
          (s.updCore o.b (fun c => { c with image := some (entries, bitsOf x 4096 16, bitsOf x 4112 16, o.id) })).updOp o.id
            (fun e => { e with started := true }))

/-- PRMPT (R305). -/
def State.doPrmpt (s : State) (o : EngOp) : State :=
  match s.readNode o with
  | .error e => s.stopOp o.id e
  | .ok _ =>
    let is := (s.insts.filter (fun p => p.2.asd == o.asd && p.2.node == o.a && p.2.state == 1 && s.resident p.1)).map (·.1)
    if is.isEmpty then s.endOp o.id 0x21
    else
      let s := is.foldl (fun s i =>
        (s.askStop i (o.b == 1)).updInst i (fun x => { x with stopops := x.stopops ++ [o.id] })) s
      (s.updOp o.id (fun e => { e with started := true })).settleStops

/-- The operation is carried out by its own queue, not by the array. -/
def EngOp.queued' (o : EngOp) : Bool := o.copies || o.cls == 0xD

/-- An operation makes its first read once its captured writes are acknowledged and their GWCT + 4 has passed
(R143). -/
def execEngineStart (op : Nat) (s : State) : Out :=
  match s.op op with
  | none => no "ENGINE_START"
  | some o =>
    if !o.queued' || o.started || o.stage != 0 || o.code.isSome then no "ENGINE_START"
    else if o.cancel then .next (s.endOp op 1)
    else if o.susp || o.away || o.susc ≠ 0 || !s.mayRead o || (o.copies && !s.engineTurn o) then no "ENGINE_START"
    else if o.cls ≠ 0xD then .next (s.beginCopy o)
    else
      let may (r : Option State) : Out := match r with | some t => .next t | none => no "ENGINE_START"
      match o.func with
      | 0 => .next (s.launch o)
      | 1 => s.emit o
      | 2 => may (s.doNdone o)
      | 3 => may (s.doSlotw o)
      | _ => .next (s.doPrmpt o)

end Sys2Proof.Machine
end

