-- ==== Sys2Proof/Machine/Fetch.lean ====
section
/-! DEFINITION. The front end: fetching a gang's word (R26, R70, R342), the chain checks of R41 to R43, and
what is decided before a word issues (R48, R82, R319, R360). -/

namespace Sys2Proof.Machine

/-! ## Fetching -/

/-- A word's target address at a code address, or a cause (R27, R70, R118, R342). The handler's code in the
supervisor window is fetched without translation. -/
def State.codeAddr (s : State) (u a : Nat) : Except Nat Nat :=
  match regionAt a with
  | .glob => match s.xlate u a 2 with
    | .ok l => .ok l.ta
    | .error c => .error c
  | .phys =>
    if (s.warp u).trap.isNone then .error 0x14
    else if ctlBase ≤ offIn a ∨ s.stackAbsent (offIn a / 2 ^ 36) then .error 0x0D
    else .ok (offIn a)
  | _ => .error 0x0D

/-- Three words from a PC; each lies in one frame. A fault names the address of the word. -/
def State.fetchAt (s : State) (u pc : Nat) : Except (Nat × Nat) (BitVec 96) :=
  let one (i : Nat) : Except (Nat × Nat) Nat :=
    match s.codeAddr u (addr64 (pc + 4 * i)) with
    | .error c => .error (c, addr64 (pc + 4 * i))
    | .ok ta => if s.linePoison (lineOf ta) then .error (0x0F, addr64 (pc + 4 * i)) else .ok (s.curNat ta 4)
  match one 0, one 1, one 2 with
  | .error e, _, _ => .error e
  | _, .error e, _ => .error e
  | _, _, .error e => .error e
  | .ok a, .ok b, .ok c => .ok (BitVec.ofNat 96 (a + 2 ^ 32 * b + 2 ^ 64 * c))

/-! ## Words -/

def wordClass (w : BitVec 96) : Nat := (w.extractLsb' 92 4).toNat
def wordFunc (w : BitVec 96) : Nat := (w.extractLsb' 86 6).toNat
/-- The common fields of any word (R28). -/
def wordCom (w : BitVec 96) : Common :=
  .ofBits (w.extractLsb' 81 1).toNat (w.extractLsb' 82 3).toNat (w.extractLsb' 85 1).toNat

/-- Class 1 to 4, neither RGET (FUNC 31) nor RPUT (FUNC 32) (R41). -/
def wordEligible (w : BitVec 96) : Bool :=
  1 ≤ wordClass w && wordClass w ≤ 4 && !(wordClass w == 1 && (wordFunc w == 31 || wordFunc w == 32))

/-- Bypass and latch source codes (R31). -/
def isBypass (c : Nat) : Bool := 0x280 ≤ c && c ≤ 0x286

/-- The word's form with v0, v8, v16 and v24 in DST, SA, SB and SC: its opcode and modifiers alone, or, where
they form no entry, its opcode with every modifier zero. -/
def wordProbe (w : BitVec 96) : Option Instr :=
  let probe : Nat := 8 * 2 ^ 54 + 16 * 2 ^ 42 + 24 * 2 ^ 30
  let top := w.toNat / 2 ^ 81 * 2 ^ 81
  let form (n : Nat) : Option Instr := match parseWord (BitVec.ofNat 96 n) with
    | .ok f => f.build
    | .error _ => none
  (form (w.toNat / 2 ^ 76 * 2 ^ 76 + probe + w.toNat % 2 ^ 30)).or (form (top + probe))

/-- The source codes in the fields that a word uses (R41). -/
def wordSources (w : BitVec 96) : List Nat :=
  match (wordProbe w).bind usesOf with
  | none => []
  | some u =>
    let used (n lo : Nat) : List Nat :=
      if (u.rd ++ u.wr).contains (.v n) then [(w.extractLsb' lo 12).toNat] else []
    used 8 54 ++ used 16 42 ++ used 24 30

def readsBypass (w : BitVec 96) : Bool := (wordSources w).any isBypass

/-- The instruction that a legal word encodes. -/
def wordInstr (w : BitVec 96) : Option Instr := match decode w with | .ok i => some i | .error _ => none

def wordUses (w : BitVec 96) : Option Uses := (wordInstr w).bind usesOf

/-- The latch slot that a word fills, if it captures (R45). -/
def wordHold (w : BitVec 96) : Option Nat :=
  if wordEligible w && (w.extractLsb' 78 2).toNat != 0 then some (w.extractLsb' 76 2).toNat else none

/-! ## Chains (R41 to R43) -/

/-- The chain that starts at a head: the words of its members, or the fault of a word that cannot be
fetched. -/
def State.members (s : State) (u pc : Nat) (head : BitVec 96) : Except (Nat × Nat) (List (BitVec 96)) :=
  if !wordEligible head || readsBypass head then .ok []
  else match s.fetchAt u (pc + 12) with
    | .error e => .error e
    | .ok w2 =>
      if !readsBypass w2 then .ok []
      else match s.fetchAt u (pc + 24) with
        | .error e => .error e
        | .ok w3 => .ok (if readsBypass w3 then [w2, w3] else [w2])

/-- R42's condition that a member's lanes are known before the head issues. -/
def guardKnown (before : List (BitVec 96)) (w : BitVec 96) : Bool :=
  (wordCom w).pg == 0 || before.all (fun b => match wordUses b with
    | some u => !u.wr.contains (guardReg (wordCom w))
    | none => true)

/-- The other conditions of R42 on a word with the chain's earlier words. -/
def memberOk (before : List (BitVec 96)) (w : BitVec 96) : Bool :=
  let codes := wordSources w
  wordEligible w &&
  (!codes.contains 0x281 || before.length == 2) &&
  codes.all (fun c => !(0x284 ≤ c && c ≤ 0x286) || before.any (fun b => wordHold b == some (c - 0x284))) &&
  (match before with | h :: _ => (wordCom h).u == (wordCom w).u | [] => true)

/-- The registers that earlier words of a chain write in a lane: those that execute there (R38, R43). -/
def State.writtenIn (s : State) (before : List (BitVec 96)) (l : Nat) : List Reg :=
  before.flatMap (fun b => match wordUses b with
    | some v => if s.doesWork v.com && (s.workLanes v.com).getLsbD l then v.wr else []
    | none => [])

/-- The lanes in which a word reads poison that no earlier word of its chain replaces there (R43). -/
def State.chainPoison (s : State) (before : List (BitVec 96)) (u : Uses) : Lanes :=
  maskOf ((lanesOf (s.workLanes u.com)).filter (fun l =>
    s.poisoned { u with rd := u.rd.filter (fun r => !(s.writtenIn before l).contains r) } (maskOf [l])))

/-- PRF takes no trap but that of an illegal word (R148). -/
def wordDrops (w : BitVec 96) : Bool := match wordInstr w with | some (.prf _) => true | _ => false

/-- The check of one word of R48 up to poison; `before` are the chain's earlier words. A word that would do no
work is a no-op whatever its bits, but for a guard that an earlier member writes, which leaves open whether it
would (R42, log 30). -/
def State.wordCause (s : State) (before : List (BitVec 96)) (w : BitVec 96) : Option Nat :=
  if !guardKnown before w then some (if (wordUses w).isNone && s.doesWork (wordCom w) then 0x01 else 0x02)
  else if !s.doesWork (wordCom w) then none
  else match wordUses w with
  | none => some 0x01
  | some u =>
    if before.isEmpty && readsBypass w then some 0x02
    else if !before.isEmpty && !memberOk before w then some 0x02
    else if wordDrops w then none
    else if s.overBound u then some 0x03
    else if s.chainPoison before u ≠ 0 then some 0x0F
    else none

/-- The faulting lanes of a word that fails its check after `before` (R357). -/
def State.chainFault (s : State) (before : List (BitVec 96)) (w : BitVec 96) (c : Nat) : Lanes :=
  let ls := s.faulting (wordCom w)
  let ps := match wordUses w with | some u => s.chainPoison before u | none => 0
  if ls = 0 then s.active else if c = 0x0F ∧ (wordCom w).u = false then ps else ls

/-- The first word of a chain that fails, with its position and cause. -/
def State.chainCheck (s : State) (before : List (BitVec 96)) : List (BitVec 96) → Option (Nat × BitVec 96 × Nat)
  | [] => none
  | w :: r => match s.wordCause before w with
    | some c => some (before.length, w, c)
    | none => s.chainCheck (before ++ [w]) r

/-- The scoreboard holds back the head until every member's operands are there (R44). -/
def State.chainWaits (s : State) (ws : List (BitVec 96)) : Bool :=
  ws.any (fun w => s.busyReg s.active (guardReg (wordCom w)) || (match wordInstr w, wordUses w with
    | some i, some u => s.doesWork u.com && s.waits? (usesFirst i u)
    | _, _ => false))

/-! ## Before a word issues -/

/-- What the front end makes of the issuing gang: an instruction to execute, or a step of its own. -/
inductive Front where
  | run (i : Instr) (s : State)
  | took (s : State)
  deriving DecidableEq, Repr

/-- The walks of the fetch of `n` 32-bit words from the PC on are entered (R349). -/
def State.noteFetch (s : State) (n : Nat) : State :=
  (List.range n).foldl (fun t i => t.noteVa s.who.warp (addr64 (s.pc.toNat + 4 * i : Nat))) s

/-- A trap whose access is the fetch of a word; the walks up to it are entered (R349). A poisoned word is consumed (R385). -/
def State.fetchTrap (s : State) (e : Nat × Nat) : State :=
  let s := match e.1, s.codeAddr s.who.warp e.2 with
    | 0x0F, .ok ta => s.consumedAt ta s.wWarp.core s.wWarp.tenant
    | _, _ => s
  (if e.1 = 0x09 then s else s.noteFetch (addr64 ((e.2 : Int) - s.pc.toNat) / 4 + 1)).trap {
    cause := e.1, lanes := s.active, kind := 2
    addr := (lanesOf s.active).foldl (fun (t : Tab Double) l => t.set 0 l (BitVec.ofNat 64 e.2)) [] }

/-- A word that does no work, whatever its bits (R48); it keeps its place in a chain (R45). -/
def State.skipWord (s : State) (w : BitVec 96) : State := s.passOver (s.member || wordEligible w)

/-- The words that the front end fetches for a head: itself, the word after it where a chain could begin, and the one
after that where that word reads the bypass (R43). -/
def headWords (w : BitVec 96) (ws : List (BitVec 96)) : Nat :=
  if !wordEligible w || readsBypass w then 1 else if ws.isEmpty then 2 else 3

/-- An illegal word, or the instruction of a legal one. -/
def State.enterWord (s : State) (w : BitVec 96) : Front :=
  match wordInstr w with
  | some i => .run i s
  | none =>
    if s.doesWork (wordCom w) then .took (s.trapC 0x01 (s.faulting (wordCom w))) else .took (s.skipWord w)

/-- Too many instructions since a safe point, or since the handler's entry (R82, R360). -/
def State.overdue (s : State) (n : Nat) : Bool :=
  match s.wWarp.trap with
  | some t => 65536 < t.count + n
  | none => 65536 ≤ s.gang.count

/-- Only SPEND may follow a loop's end (R319). -/
def State.loopEnding (s : State) : Bool :=
  match s.wWarp.loop with | some l => l.ending && l.sup == s.inHandler | none => false

def isSpend (w : BitVec 96) : Bool := wordClass w == 11 && wordFunc w == 4

/-- A release that takes its trap late: it and every later request of its gang, all of which it still holds, leave the
queue with what they would have brought, and the gang issues them again (R137, R357, R387, log 23). -/
def State.takeBackReqs (s : State) (r : Req) : State :=
  let mine (q : Req) : Bool := q.warp == r.warp && q.way == r.way && q.sup == r.sup && q.slices &&& r.slices != 0 &&
    !q.started && r.id ≤ q.id
  let gone := s.reqs.filter mine
  let ops := s.ops.filter (fun o => gone.any (fun q => q.kind == .engine o.id))
  let s := ops.foldl (fun s o => s.unpin o.root) s
  { (s.updWarp r.warp (fun w => { w with busy := w.busy.filter (fun b =>
        !gone.any (fun q => q.id == b.id) && !ops.any (fun o => o.id == b.id)) })) with
    reqs := s.reqs.filter (fun q => !mine q)
    ops := s.ops.filter (fun o => !ops.any (fun e => e.id == o.id)) }

/-- A system-scope release that the gang has passed, and that waits for host links that are down (R387): it takes its
trap now, at its own PC, with the gang's later requests taken back (log 23). -/
def State.lostRelease (s : State) : Option Req :=
  s.reqs.find? (fun r => r.warp == s.who.warp && r.way == s.who.way && r.sup == s.inHandler && r.slices &&& s.gang.slices != 0 &&
    s.linkLost r)

/-- The issuing gang's next word. -/
def State.frontEnd (s : State) : Front :=
  let u := s.who.warp
  let pc := s.pc.toNat
  if s.member then
    match s.fetchAt u pc with
    | .error e => .took (s.fetchTrap e)
    | .ok w => (s.noteFetch 3).enterWord w
  else
    let s := s.updGang (fun g => { g with chain := {} })
    if s.overdue 1 then .took (s.trapC 0x08 s.active)
    else match s.lostRelease with
    | some r => .took ((s.takeBackReqs r).trap { cause := 0x15, lanes := s.active, at' := some r.pc })
    | none =>
    if !alignedTo pc 12 then .took (s.fetchTrap (0x09, pc))
    else match s.fetchAt u pc with
      | .error e => .took (s.fetchTrap e)
      | .ok w =>
        if s.loopEnding && !isSpend w && s.doesWork (wordCom w) then
          .took ((s.noteFetch 3).trapC 0x10 (s.faulting (wordCom w)))
        else match s.members u pc w with
          | .error e => .took (s.fetchTrap e)
          | .ok ws =>
            let s := s.noteFetch (3 * headWords w ws)
            if s.inHandler && s.overdue (1 + ws.length) then .took (s.trapC 0x08 s.active)
            else match s.chainCheck [] (w :: ws) with
              | some (k, m, c) =>
                let s := if c = 0x0F then s.consumed s.wWarp.core s.wWarp.tenant else s
                .took (s.trap {
                  cause := c, lanes := s.chainFault ((w :: ws).take k) m c
                  memb := if k = 0 then none else some (s.pc + 12 * BitVec.ofNat 64 k) })
              | none =>
                if s.chainWaits (w :: ws) then .took s.stall
                else
                  let s := if ws.isEmpty then s else s.updGang (fun g => { g with chain := { left := ws.length } })
                  s.enterWord w

end Sys2Proof.Machine
end

