-- ==== Sys2Proof/Machine/Sched.lean ====
section
/-! DEFINITION. The dispatcher's queues, dispatch, admission, completion, pre-emption and readmission (R198, R285
to R299), and each cycle's choice of a gang (R59, R295). -/

namespace Sys2Proof.Machine

/-! ## Input queues (R198, R285) -/

/-- A header as the dispatcher reads it through a descriptor's current root; `noHdr` where there is none (R402). -/
def State.readHdr (s : State) (a va : Nat) : Except Stop Nat :=
  if va % 64 ≠ 0 then .ok noHdr
  else match s.asdRead a va 64 with
    | .ok hs => .ok (leNat hs)
    | .error (.code _) => .ok noHdr
    | .error e => .error e

/-- A node as the dispatcher reads it, with its header: 128 bytes of a device frame, aligned (R284). -/
def State.queueNode (s : State) (a n : Nat) : Except Stop (Nat × Nat) :=
  let dev := match s.asdLocs a 0 (pieces n 128) with | .ok ls => ls.all (fun p => isDev p.1) | .error _ => true
  if n % 128 ≠ 0 ∨ !dev then .error (.code 2) else
  match s.asdRead a n 128 with
  | .error e => .error e
  | .ok bs => match s.readHdr a (NodeD.ofNat (leNat bs)).hdr with
    | .error e => .error e
    | .ok h => .ok (leNat bs, h)

/-- The dispatcher's access through a descriptor has met a fault that the stub runtime resolves: it is posted as an
engine's, once while it stands, to the descriptor's tenant (R370, log 90). Anything else leaves the step untaken. -/
def State.meets (s : State) (row : String) (a : Nat) (e : Stop) : Out :=
  match e with
  | .fault cause va =>
    let o : EngOp := {
      id := s.clk.fresh, cls := 0xE, func := 0, warp := 2 ^ 64, team := 2 ^ 64, inst := 2 ^ 64, core := 0, asd := a
      tenant := (s.asd a).tenant, susp := true, susc := cause, fault := va }
    onlyIf row (!s.ops.any (fun x => x.cls == 0xE && x.func == 0 && x.asd == a && x.fault == va))
      ({ s.bump with ops := s.ops ++ [o] }.postEngine o)
  | _ => no row

/-- The sequence word of a record holds its index. -/
def State.seqOk (s : State) (d : NodeD) (ha i : Nat) : Except Stop Bool :=
  match s.asdRead ha (addr64 (d.slot i + d.recSize - 8 : Nat)) 8 with
  | .ok bs => .ok (leNat bs == i)
  | .error (.code _) => .ok false
  | .error e => .error e

/-- The pool has reserved a record's slot for an EMIT and not written it yet (R302). -/
def State.emitting (s : State) (ha : Nat) (d : NodeD) (i : Nat) : Bool :=
  match s.asdLocs ha 0 (pieces (d.slot i) d.recSize) with
  | .error _ => false
  | .ok ls => s.writes.any (fun w => !w.done && w.place != .die && w.op.isSome &&
      ls.any (fun p => w.accs.any (fun a => a.ta < p.1 + p.2.1 && p.1 < a.ta + a.len)))

/-- The stack whose log is a node's (R198, R385). -/
def State.nodeLog (s : State) (a n : Nat) : Nat × Nat :=
  match s.asdLocs a 0 [(n, 8)] with
  | .ok ((ta, _) :: _) => (logOf ta, ta)
  | _ => (9, n)

/-- Where the dispatcher's wait on a node's tail would stand: the tail's place and a free entry of the wait table of its
stack; none where it waits already or the table is full. -/
def State.tailEntry (s : State) (a n : Nat) : Option (Nat × Nat) :=
  match s.asdLocs a 0 [(n + 120, 8)] with
  | .ok ((ta, _) :: _) =>
    if s.tables.any (fun p => p.2.waiter == 0 && p.2.ta == ta) then none
    else (s.freeEntry (stackOf (lineOf ta))).map (fun k => (ta, k))
  | _ => none

/-- The dispatcher waits on a node's tail with WAITA.ne, with the tail as it has just been read (R166, R198, log 134). -/
def State.watchTail (s : State) (a n tail : Nat) : State :=
  match s.tailEntry a n with
  | none => s
  | some (ta, k) => { s with tables := s.tables.put (4096 * stackOf (lineOf ta) + k) ⟨tail, 2 ^ 64 - 1, none, ta, 1, true, 0, 0⟩ }

/-- A record below the tail is read: for the first time, or again 1,000 ns after its word differed. Where none is left
below the tail the dispatcher waits on the tail alone. -/
def execRecordRefetch (a n r : Nat) (s : State) : Out :=
  match s.queueNode a n with
  | .error e => s.meets "RECORD_REFETCH" a e
  | .ok (x, h) =>
    let d := NodeD.ofNat x
    let q := s.nodeQ a n
    let t := s.clk.time
    let old := q.refetch.find? (fun p => p.1 == r)
    let due := match old with | some p => p.2.1 ≤ t | none => true
    let io := nodeAsd a h
    if d.bad || d.qcap == 0 || r < q.first || d.tail < r || q.first + d.qcap ≤ r || q.passed.contains r || !due ||
        s.emitting io d r then
      no "RECORD_REFETCH"
    else if r = d.tail then onlyIf "RECORD_REFETCH" (s.tailEntry a n).isSome ((s.watchTail a n d.tail).putNodeQ q)
    else match s.seqOk d io r with
      | .error e => s.meets "RECORD_REFETCH" io e
      | .ok same =>
        let q := { q with
          seen := if q.seen.any (fun p => p.1 == r) then q.seen else q.seen ++ [(r, t)]
          refetch := q.refetch.filter (fun p => p.1 != r) }
        let s := s.watchTail a n d.tail
        if same then .next (s.putNodeQ { q with passed := insertNat r q.passed })
        else
          let k := match old with | some p => p.2.2 + 1 | none => 0
          let s := s.putNodeQ { q with refetch := q.refetch ++ [(r, t + 1000, k)] }
          let (g, ta) := s.nodeLog a n
          .next (if k = 1000 then s.logErr g (1 + Config.stalledKind.toNat) ta 0 0 else s)

/-- Records from the first untaken one on that have passed, up to the end of the ring and COAL. -/
def NodeQ.ripe (q : NodeQ) (d : NodeD) : Nat :=
  let room := min d.coal (d.qcap - q.first % d.qcap)
  ((List.range room).takeWhile (fun i => q.passed.contains (q.first + i))).length

/-- All of COAL records from the first untaken one on have passed, wherever the ring ends. -/
def NodeQ.full (q : NodeQ) (d : NodeD) : Bool := (List.range d.coal).all (fun i => q.passed.contains (q.first + i))

/-- A group of `n` records becomes an instance that waits for its predecessors. -/
def State.formGroup (s : State) (a n x h k err : Nat) : State :=
  let q := s.nodeQ a n
  let d := NodeD.ofNat x
  let i : Inst := {
    asd := a, node := n, num := 0, desc := x, hdr := h, owner := (s.asd a).tenant, first := q.first, nrec := k
    slotAt := d.slot q.first, state := 3, err := err }
  let s := s.newInst i
  s.updNodeQ a n (fun q =>
    { q with
      first := q.first + k
      passed := q.passed.filter (fun r => q.first + k ≤ r)
      seen := q.seen.filter (fun p => q.first + k ≤ p.1)
      refetch := q.refetch.filter (fun p => q.first + k ≤ p.1)
      groups := q.groups ++ [(q.first, k, false)] })

/-- Predecessor objects, each with which object it is and how often it has flipped (R286): barrier objects lie in device
frames (R161). -/
def State.predBars (s : State) (a : Nat) : List Nat → Except Stop (List (Bar × Nat × Nat))
  | [] => .ok []
  | p :: r => match s.asdLocs a 0 [(p, 16)] with
    | .error e => .error e
    | .ok ls =>
      let ta := (ls.map (·.1)).headD 0
      let x := s.curNat ta 16
      if p % 16 ≠ 0 || !isDev ta then .error (.code 2)
      else if s.bytesPoison ta 16 then .error (.code 5)
      else match s.predBars a r with
        | .error e => .error e
        | .ok bs => .ok ((Bar.ofNat x, s.flipsOf ta x) :: bs)

/-- Flips of the object that stands at predecessor `k` which the node's dispatches have consumed. -/
def NodeQ.consumed (q : NodeQ) (k e : Nat) : Nat :=
  match q.flips.find? (fun p => p.1 == k) with
  | some (_, x, c) => if x = e then c else 0
  | none => 0

/-- The predecessor objects of an instance: whether all have flipped, and whether some has overrun. -/
def State.preds (s : State) (i : Inst) : Except Stop (Bool × Bool) :=
  match s.predBars i.io i.d.preds with
  | .error e => .error e
  | .ok bs =>
    let q := s.nodeQ i.asd i.node
    .ok ((bs.mapIdx (fun k b => decide (q.consumed k b.2.1 < b.2.2))).all id, bs.any (fun b => b.1.ovr))

/-- Instances of a node that have not been dispatched. -/
def State.undispatched (s : State) (a n : Nat) : List (Nat × Inst) :=
  s.insts.filter (fun p => p.2.asd == a && p.2.node == n && p.2.state != 1 && p.2.err == 0)

/-- One flip of every predecessor is consumed (R286), as an instance is dispatched. One that LAUNCH created has
none to consume (R301). -/
def State.consume (s : State) (i : Inst) : State :=
  if i.d.preds.isEmpty || i.launched then s
  else match s.predBars i.io i.d.preds with
    | .error _ => s
    | .ok bs => s.updNodeQ i.asd i.node (fun q =>
        { q with flips := bs.mapIdx (fun k b => (k, b.2.1, q.consumed k b.2.1 + 1)) })

/-- An instance of a node without a queue: its predecessors have flipped, or one has overrun, which is reported
once (R286, R294). A malformed node's completes with an error as it is formed, its flips consumed (R284). -/
def State.formDirect (s : State) (a n x h : Nat) : Out :=
  let d := NodeD.ofNat x
  let i : Inst := {
    asd := a, node := n, num := 0, desc := x, hdr := h, owner := (s.asd a).tenant, direct := true, state := 3
    err := if d.bad then 3 else 0 }
  let said := (s.nodeQ a n).overrun
  let mark (b : Bool) (s : State) : State := s.updNodeQ a n (fun q => { q with overrun := b })
  if d.preds.isEmpty || !(s.undispatched a n).isEmpty then no "GROUP_FORM"
  else match s.preds i with
    | .ok (_, true) => onlyIf "GROUP_FORM" (!said) (mark true (s.newInst i))
    | .ok (true, false) => .next (mark false (if d.bad then (s.newInst i).consume i else s.newInst i))
    | .ok (false, false) => onlyIf "GROUP_FORM" said (mark false s)
    | .error e => s.meets "GROUP_FORM" i.io e

/-- A group once COAL records have passed; for a node without a queue, once its predecessors have flipped; of a
malformed node, whatever its tail covers (R284). -/
def execGroupForm (a n : Nat) (s : State) : Out :=
  match s.queueNode a n with
  | .error e => s.meets "GROUP_FORM" a e
  | .ok (x, h) =>
    let d := NodeD.ofNat x
    let q := s.nodeQ a n
    if d.qcap = 0 then s.formDirect a n x h
    else if d.bad then
      onlyIf "GROUP_FORM" (q.first < d.tail) (s.formGroup a n x h (min (max 1 d.coal) (d.tail - q.first)) 3)
    else onlyIf "GROUP_FORM" (q.full d) (s.formGroup a n x h (q.ripe d) 0)

def execCoalesceTimeout (a n : Nat) (s : State) : Out :=
  match s.queueNode a n with
  | .error e => s.meets "COALESCE_TIMEOUT" a e
  | .ok (x, h) =>
    let d := NodeD.ofNat x
    let q := s.nodeQ a n
    let late := match q.seen.find? (fun p => p.1 == q.first) with
      | some p => p.2 + d.tmo ≤ s.clk.time
      | none => false
    onlyIf "COALESCE_TIMEOUT" (!d.bad && d.qcap != 0 && late && 0 < q.ripe d) (s.formGroup a n x h (q.ripe d) 0)

/-! ## Teams (R52 to R55, R291) -/

/-- The least valid number from one on, over fields given by width and extent, the lowest first. -/
def nextValid : List (Nat × Nat) → Nat → Option Nat
  | [], k => if k = 0 then some 0 else none
  | (w, e) :: r, k =>
    let lo := k % 2 ^ w
    let hi := k / 2 ^ w
    match nextValid r hi with
    | none => none
    | some h =>
      if h ≠ hi then some (h * 2 ^ w)
      else if lo < e then some k
      else match nextValid r (hi + 1) with
        | none => none
        | some h => some (h * 2 ^ w)

/-- The next created team from an index on. -/
def Hdr.nextTeam (h : Hdr) (k : Nat) : Option Nat := nextValid (h.fields.drop (h.tlvl + 1)) k

/-- Every declared field of an identifier is inside its extent (R54). -/
def insideFields : List (Nat × Nat) → Nat → Bool
  | [], _ => true
  | (w, e) :: r, x => x % 2 ^ w < e && insideFields r (x / 2 ^ w)

def Hdr.base (h : Hdr) (team num : Nat) : Nat := team * 2 ^ h.low + 32 * num

/-- The lanes of a warp inside the extent. -/
def Hdr.lanes (h : Hdr) (team num : Nat) : Lanes :=
  maskOf ((List.range 32).filter (fun l => insideFields h.fields (h.base team num + l)))

/-- The warps that a team creates. -/
def Hdr.warps (h : Hdr) (team : Nat) : List Nat := (List.range h.wpt).filter (fun n => h.lanes team n != 0)

/-! ## Room (R66, R258, R373, R375) -/

/-- A context that holds its cores or its place: running, not saved. -/
def State.holds (s : State) (p : Nat × Inst) : Bool := p.2.state == 1 && (!p.2.stop || s.resident p.1)

/-- Contexts on a core. -/
def State.coreInsts (s : State) (c : Nat) : List Nat :=
  distinct ((s.warps.filter (fun p => p.2.placed && p.2.core == c)).map (fun p => p.2.inst))

/-- Teams on a core hold its slots. -/
def State.teamSlots (s : State) (c : Nat) : List Nat :=
  (s.teams.filter (fun t => t.2.core == c && s.teamHere t.1)).map (fun t => t.2.slot)

/-- L1 lines of a core that may not be given up yet: with stores that have not been performed, or buffered by a
speculative way or an open region (R67, log 91). -/
def State.heldLines (s : State) (c : Nat) : Nat :=
  (distinct ((s.writes.filter (fun w => w.core == c && w.op.isNone && w.place == .die && !w.done)).map (·.line))).length +
  ((s.warps.filter (fun p => p.2.placed && p.2.core == c)).map (fun p =>
    p.2.bufLines.length + (match p.2.loop with
      | some l => (l.ways.map (fun y => (distinct (y.2.lines.map (fun q => lineOf q.1))).length)).sum
      | none => 0))).sum

/-- Room on a core for `n` warps of `g` granules in all, of a context and tenant. -/
def State.roomOn (s : State) (c i tenant n g : Nat) (opst : Bool) : Bool :=
  let is := s.coreInsts c
  n ≤ s.freeContexts c && (s.teamSlots c).length < 64 && g ≤ s.freeGranules c &&
  s.heldLines c + 32 * g ≤ s.l1Lines c &&
  (is.contains i || is.length < 16) &&
  (!opst || (match (s.core c).osten with | some t => t == tenant | none => true))

def State.canAdmit (s : State) (c i : Nat) (h : Hdr) (team : Nat) : Bool :=
  let n := (h.warps team).length
  s.roomOn c i h.tenant n (n * (h.alloc / 16) + 2 * h.scr) h.opst

/-- Present cores of the dies that a header allows. -/
def State.allowed (s : State) (h : Hdr) : List Nat :=
  (List.range 512).filter (fun c => h.dies.testBit (c / 64) && s.plat.core c && s.present (c / 64))

/-- Waiting contexts (R299): ready instances, and saved ones that are candidates. -/
def Gang.waits (g : Gang) : Bool :=
  match g.park with | .none | .safept _ | .spnext | .token => false | _ => true

/-- A saved context is a candidate unless its every gang is parked with no wake. -/
def State.savedCandidate (s : State) (i : Nat) : Bool :=
  let ws := s.warpsOf i
  ws.all (fun p => !p.2.placed || p.2.retired) &&
    ws.any (fun p => !p.2.placed && (!p.2.wakes.isEmpty || (p.2.user 0).gangs.any (fun g => !g.waits)))

/-- The cores in whose queues teams of an instance stand: they hold them back (R66). -/
def State.queuedOn (s : State) (i : Nat) : List Nat :=
  (s.cores.filter (fun p => p.2.queue.any (fun t => t.1 == i))).map (·.1)

/-- An instance that has been dispatched and has no team on a core yet, and some in the queues of cores. -/
def State.queuedOnly (s : State) (p : Nat × Inst) : Bool :=
  p.2.state == 1 && !p.2.stop && (s.warpsOf p.1).isEmpty && !(s.queuedOn p.1).isEmpty

def State.waiting (s : State) (p : Nat × Inst) : Bool :=
  (p.2.state == 0 && p.2.err == 0) || (p.2.state == 1 && p.2.stop && s.savedCandidate p.1) || s.queuedOnly p

/-- Ranks of waiting contexts: those that have waited 4 ms first, oldest first; then by priority, then age. -/
def State.before (s : State) (a b : Inst) : Bool :=
  let old (x : Inst) : Bool := x.since + 4000000 ≤ s.clk.time
  if old a then !old b || a.since < b.since
  else !old b && (b.prio < a.prio || (b.prio == a.prio && a.since < b.since))

/-! ## Dispatch (R286, R290 to R292) -/

/-- The refusal of a header, 0 for none. -/
def State.refusal (s : State) (i : Inst) : Nat :=
  let h := i.h
  if !h.ok i.kind || h.tenant != i.owner || !(s.tenant h.tenant).valid || !(s.asd h.asd).curv then 1
  else if !(List.range 8).any (fun d => h.dies.testBit d && s.present d) then 2
  else if (i.kind == 0 || i.kind == 3) && (s.allowed h).isEmpty then 2
  else 0

def overlap (a n b m : Nat) : Bool := n != 0 && m != 0 && a < b + m && b < a + n

/-- Declared ranges conflict with a running instance of another node of the tenant. -/
def State.conflict (s : State) (i : Inst) : Bool :=
  let d := i.d
  s.insts.any (fun p =>
    let e := p.2.d
    p.2.state == 1 && p.2.tenant == i.tenant && !(p.2.asd == i.asd && p.2.node == i.node) &&
    (overlap d.wrbase d.wrlen e.wrbase e.wrlen || overlap d.wrbase d.wrlen e.rdbase e.rdlen ||
      overlap d.rdbase d.rdlen e.wrbase e.wrlen))

/-- Room for one more context on the part and for its tenant (R373, R375). -/
def State.ctxRoom (s : State) (t : Nat) : Bool :=
  let cs := s.insts.filter s.holds
  let m := (s.tenant t).ctxmax
  cs.length < 256 && (cs.filter (fun p => p.2.tenant == t)).length < (if m = 0 then 256 else m)

/-- A running instance still has teams to send. -/
def Inst.sending (i : Inst) : Bool := i.state == 1 && !i.stop && (i.left.isSome && i.kind != 1 || !i.back.isEmpty)

def State.startable (s : State) (i : Inst) : Bool :=
  s.refusal i != 0 || (!s.conflict i && s.ctxRoom i.tenant && (i.kind == 1 || i.kind == 2 || !s.insts.any (fun p => p.2.sending)))

/-- `a` is taken before `b` among ready instances (R291). -/
def Inst.ahead (a b : Inst) : Bool :=
  b.prio < a.prio || (a.prio == b.prio && (a.since < b.since || (a.since == b.since && a.node < b.node)))

/-- The die whose stack homes RDBASE. -/
def State.homeDie (s : State) (i : Inst) : Option Nat :=
  if i.d.rdlen = 0 then none
  else match s.asdLocs i.io 0 [(i.d.rdbase, 1)] with
    | .ok ((ta, _) :: _) => if isDev ta then some (ta / 2 ^ 36) else none
    | _ => none

/-- The least of some cores by a key. -/
def leastBy (key : Nat → Nat) : List Nat → Option Nat
  | [] => none
  | c :: r => match leastBy key r with
    | none => some c
    | some d => if key c ≤ key d then some c else some d

/-- The core that a team is sent to. -/
def State.pickCore (s : State) (p : Nat × Inst) (team : Nat) : Option Nat :=
  let h := p.2.h
  let cs := s.allowed h
  let home := s.homeDie p.2
  let far (c : Nat) : Nat := if home = some (c / 64) then 0 else 1
  let busy (c : Nat) : Nat := if p.2.kind = 3 ∧ (s.ops.any (fun o => o.core == c && (o.attn || o.tile))) then 1 else 0
  match leastBy (fun c => busy c * 2048 + far c * 1024 + c)
      (cs.filter (fun c => (s.core c).queue.isEmpty && s.canAdmit c p.1 h team)) with
  | some c => some c
  | none => leastBy (fun c => (s.core c).queue.length * 2048 + far c * 1024 + c) cs

/-- One team sent to a core's queue. -/
def State.sendTeam (s : State) (i : Nat) (x : Inst) (team : Nat) : State :=
  match s.pickCore (i, x) team with
  | none => s
  | some c => s.updCore c (fun k => { k with queue := k.queue ++ [(i, team)] })

/-- The copy-only operation of an instance (R289). -/
def State.startList (s : State) (i : Nat) (x : Inst) : State :=
  let a := s.asd x.h.asd
  let die := ((List.range 8).find? (fun d => x.h.dies.testBit d && s.present d)).getD 0
  let o : EngOp := {
    id := s.clk.fresh, cls := 0xF, func := 0, warp := 2 ^ 64, team := 2 ^ 64, inst := i, core := 64 * die, asd := x.h.asd
    root := a.cur, tenant := x.tenant, a := x.h.entry, prio := x.prio, queued := true
    engine := s.pickEngine die, enter := s.clk.fresh }
  { s.bump with ops := s.ops ++ [o] }.pin a.cur

/-- A ready instance is taken. -/
def State.begin' (s : State) (i : Nat) (x : Inst) : State :=
  let e := s.refusal x
  let s := s.consume x
  if e ≠ 0 then s.updInst i (fun x => { x with err := e })
  else
    let s := s.updInst i (fun y => { y with
      state := 1, start := s.clk.time
      left := if x.kind = 1 then some 0 else if x.kind = 2 then none else x.h.nextTeam 0 })
    if x.kind = 1 then s.startList i x else s

/-- The header of an instance as it stands now: the check of R290 takes what the current root gives, which a load may have
replaced since the instance was formed (R402); that of LAUNCH has been read through its warp's own root (R370). -/
def State.freshHdr (s : State) (x : Inst) : Except Stop Nat :=
  if x.launched then .ok x.hdr else s.readHdr x.asd x.d.hdr

def Inst.rehead (x : Inst) (h : Nat) : Inst := { x with hdr := h, prio := (Hdr.ofNat h).prio, tenant := (Hdr.ofNat h).tenant }

/-- One step of the dispatcher with an instance: it becomes ready, has its header read afresh, is taken, or has its next
team sent. -/
def execDispatch (inst : Nat) (s : State) : Out :=
  match s.inst inst with
  | none => no "DISPATCH"
  | some x =>
    if x.err ≠ 0 then no "DISPATCH"
    else if x.state = 3 then
      let first := (s.undispatched x.asd x.node).all (fun p => p.1 == inst || (p.2.state == 3 && x.num ≤ p.2.num) || (p.2.launched && p.2.state == 0))
      match s.preds x with
      | .ok (_, true) => onlyIf "DISPATCH" first (s.updInst inst (fun y => { y with err := 6 }))
      | .ok (true, false) => onlyIf "DISPATCH" first (s.updInst inst (fun y => { y with state := 0, since := s.clk.time }))
      | .ok _ => no "DISPATCH"
      | .error e => s.meets "DISPATCH" x.io e
    else if x.state = 0 then
      let rival (p : Nat × Inst) : Bool :=
        p.1 != inst && p.2.state == 0 && p.2.err == 0 && p.2.ahead x && s.startable p.2
      let saved (p : Nat × Inst) : Bool :=
        p.2.state == 1 && p.2.stop && s.savedCandidate p.1 && s.before p.2 x && (p.2.h.dies &&& x.h.dies) != 0
      let ok := s.startable x && !s.insts.any rival && !s.insts.any saved
      match s.freshHdr x with
      | .error e => s.meets "DISPATCH" x.asd e
      | .ok h =>
        if h ≠ x.hdr then .next (s.updInst inst (fun y => y.rehead h))
        else if x.launched || x.d.preds.isEmpty then onlyIf "DISPATCH" ok (s.begin' inst x)
        else match s.preds x with
          -- a predecessor that has overrun meanwhile (R294)
          | .ok (_, true) => .next (s.updInst inst (fun y => { y with err := 6 }))
          | .error (.fault c va) => s.meets "DISPATCH" x.io (.fault c va)
          | _ => onlyIf "DISPATCH" ok (s.begin' inst x)
    else if x.stop then no "DISPATCH"
    else match x.back, x.left with
      | t :: r, _ => .next ((s.sendTeam inst x t).updInst inst (fun y => { y with back := r }))
      | [], some t =>
        if x.kind = 1 then no "DISPATCH"
        else .next ((s.sendTeam inst x t).updInst inst (fun y => { y with left := y.h.nextTeam (t + 1) }))
      | [], none => no "DISPATCH"

/-- The saved warps of a team. -/
def State.savedOf (s : State) (team : Nat) : List (Nat × Warp) :=
  s.warps.filter (fun p => p.2.team == team && !p.2.placed)

/-- An MMA or MMAG on the array, a CPYX's follow-on among them. -/
def EngOp.multiplies (o : EngOp) : Bool := o.tile && (o.cls == 8 || o.func < 2)

/-- A team of a saved context has warps to restore and fits on a core; interrupted multiplications, and an operation that
still stands on an array, bind it to theirs (R258). -/
def State.canResume (s : State) (team core : Nat) (h : Hdr) : Bool :=
  let ws := s.savedOf team
  let t := s.team team
  let here := s.warps.any (fun p => p.2.team == team && p.2.placed && !p.2.retired)
  !ws.isEmpty && (s.allowed h).contains core && (!here || t.core == core) &&
  s.roomOn core t.inst h.tenant ws.length ((ws.map (fun p => p.2.granules)).sum + (if here then 0 else t.units)) t.opst &&
  s.ops.all (fun o => o.core == core ||
    !(o.team == team && (o.multiplies && o.started && o.code.isNone || (s.core o.core).seq == some o.id)))

/-- A saved context takes a freed core before a queued team of another: it has waited 4 ms, or goes before it by priority
and age (R299). -/
def State.savedFirst (s : State) (i core : Nat) (x : Inst) (p : Nat × Inst) : Bool :=
  p.1 != i && p.2.state == 1 && p.2.stop && s.savedCandidate p.1 && s.before p.2 x && s.ctxRoom p.2.tenant &&
    s.teams.any (fun t => t.2.inst == p.1 && s.canResume t.1 core p.2.h)

/-! ## Admission (R55, R62, R66, R286, R346) -/

/-- A created warp at its entry point. -/
def newWarp (x : Inst) (i id team core ctx order root tindex num : Nat) : Warp :=
  let h := x.h
  let m := h.lanes tindex num
  let entry : Double := BitVec.ofNat 64 h.entry
  let slices : List Slice := (List.range 8).map (fun k =>
    { pc := entry, mask := sliceBits m k, fin := sliceBits m k == 0 })
  let live := (List.range 8).foldl (fun (t : BitVec 8) k => if sliceBits m k = 0 then t else t ||| bit8 k) 0
  let g : Tab Word := [(0, x.slotAt), (1, x.slotAt / 2 ^ 32), (2, x.nrec), (3, if x.direct then 0 else x.first)].foldl
    (fun (t : Tab Word) p => t.set 0 p.1 (BitVec.ofNat 32 p.2)) []
  let _ := id
  { team := team, inst := i, num := num, core := core, ctx := ctx, order := order, alloc := h.alloc
    ident := h.base tindex num, widths := h.fields.map (·.1), nlanes := (lanesOf m).length, tenant := h.tenant
    asd := h.asd, root := root, lstab := h.lstab
    arch := { slices := slices, gangs := [{ slices := live }], exited := ~~~ m, g := g } }

/-- The operand store passes to a tenant: zeroed, unless its bytes are the tenant's already (R258). -/
def Core.takeStore (k : Core) (t : Nat) : Core :=
  { k with osten := some t, ostof := some t, ost := if k.ostof = some t then k.ost else [] }

/-- The team and its warps, each pinning the current root of the header's descriptor. -/
def State.place (s : State) (c i : Nat) (x : Inst) (tindex : Nat) : State :=
  let h := x.h
  let t := s.clk.fresh
  let root := (s.asd h.asd).cur
  let slot := ((List.range 64).find? (fun k => !(s.teamSlots c).contains k)).getD 0
  let ctxs := s.freeCtxs c
  let s := { s.bump with teams := s.teams.put t {
    inst := i, index := tindex, core := c, slot := slot, size := 4096 * h.scr, opst := h.opst, units := 2 * h.scr } }
  let s := if h.opst then
      s.updCore c (fun k => k.takeStore h.tenant)
    else s
  let s := if s.resident i then s else s.updInst i (fun y => { y with start := s.clk.time })
  (h.warps tindex).zip ctxs |>.foldl (fun s p =>
    let id := s.clk.fresh
    { s.bump with warps := s.warps.put id (newWarp x i id t c p.2 t root tindex p.1) }.pin root) s

/-- The first team of a core's queue is admitted once there is room for it and no saved context goes first. -/
def execAdmitTeam (core : Nat) (s : State) : Out :=
  match (s.core core).queue with
  | [] => no "ADMIT_TEAM"
  | (i, t) :: r =>
    match s.inst i with
    | none => .next (s.updCore core (fun k => { k with queue := r }))
    | some x =>
      onlyIf "ADMIT_TEAM" (s.canAdmit core i x.h t && !s.insts.any (s.savedFirst i core x))
        (((s.updCore core (fun k => { k with queue := r })).place core i x t).trimL1 core)

/-! ## Retirement (R51, R128, R258, R346) -/

/-- The operand store is free once no team of its tenant remains on the core; its bytes stay until it passes to
another tenant. -/
def State.freeStore (s : State) (c : Nat) : State :=
  match (s.core c).osten with
  | none => s
  | some t =>
    if s.warps.any (fun p => p.2.placed && p.2.core == c && p.2.tenant == t) then s
    else s.updCore c (fun k => { k with osten := none })

/-- The first warp of a team that has retired and still holds its pin. -/
def State.leaving (s : State) (team : Nat) : Option (Nat × Warp) :=
  s.warps.find? (fun p => p.2.team == team && p.2.retired && !p.2.gone)

/-- On eviction engine operations are suspended at their element boundaries: those of saved warps, and once the context has
no warp on a core any more, of them all (R175). -/
def State.suspendOps (s : State) (i : Nat) : State :=
  let left (o : EngOp) : Bool := let w := s.warp o.warp; (!w.placed && !w.retired) || !s.resident i
  { s with ops := s.ops.map (fun (o : EngOp) =>
      if o.inst = i ∧ o.code.isNone ∧ o.copies ∧ !o.tile ∧ left o then { o with away := true } else o) }

/-- A warp of a context that has been asked to stop has left its core, saved or retired (R297, R305): with the last one the
context waits from now on. -/
def State.leftCore (s : State) (i : Nat) : State :=
  let x := (s.inst i).getD { asd := 0, node := 0, num := 0 }
  if !x.stop then s
  else
    let s := if x.evict then s.suspendOps i else s
    let s := if s.resident i ∨ x.start < x.since then s else s.updInst i (fun y => { y with since := s.clk.time })
    s.settleStops

/-- A retired warp lets its pin go; the last one retires the team once its operations have completed. -/
def execTeamRetire (team : Nat) (s : State) : Out :=
  match s.teams.find team, s.leaving team with
  | none, _ => no "TEAM_RETIRE"
  | some _, some p => .next (((s.unpin p.2.root).updWarp p.1 (fun w => { w with gone := true })).leftCore p.2.inst)
  | some t, none =>
    let ws := s.warps.filter (fun p => p.2.team == team)
    let mine (u : Nat) : Bool := ws.any (fun p => p.1 == u)
    if !ws.all (fun p => p.2.gone) || s.ops.any (fun o => mine o.warp) || s.reqs.any (fun r => mine r.warp) then
      no "TEAM_RETIRE"
    else
      let fs := (ws.filter (fun p => p.2.current.sfmask != 0)).map (fun p => (t.index, p.2.num, p.2.current.sfmask))
      let s := s.updInst t.inst (fun x => { x with faults := x.faults ++ fs })
      let s := { s with warps := s.warps.filter (fun p => !mine p.1), teams := s.teams.erase team }
      .next ((s.freeStore t.core).settleStops)

/-! ## Completion (R293, R294, R303) -/

def insertFault (x : Nat × Nat × Double) : List (Nat × Nat × Double) → List (Nat × Nat × Double)
  | [] => [x]
  | y :: r => if x.1 < y.1 ∨ (x.1 = y.1 ∧ x.2.1 < y.2.1) then x :: y :: r else y :: insertFault x r

/-- The completion record. -/
def State.record (s : State) (x : Inst) : List Byte :=
  let d := x.d
  let fs := x.faults.foldl (fun l f => insertFault f l) []
  let nf := min fs.length d.crent
  let head := packFields [(64, x.num), (32, x.status.toNat), (8, x.err), (8, nf), (8, min 255 (fs.length - nf)), (8, 0),
    (64, if x.direct then 0 else x.first), (32, x.nrec), (64, s.clk.time)]
  let one (f : Nat × Nat × Double) : List Byte := leBytes 16 (packFields [(64, f.2.2.toNat), (32, f.1), (6, f.2.1)])
  leBytes 64 head ++ (fs.take nf).flatMap one ++ List.replicate (16 * (d.crent - nf)) 0

def Inst.recordAt (x : Inst) : Nat := addr64 (x.d.crec + (64 + 16 * x.d.crent) * (x.num % x.d.crcap) : Nat)

/-- The groups of a node with an instance's marked complete, those that stay, and the records that TAKEN passes. -/
def State.takenBy (s : State) (x : Inst) : List (Nat × Nat × Bool) × Nat :=
  let gs := (s.nodeQ x.asd x.node).groups.map (fun g => if g.1 = x.first then (g.1, g.2.1, true) else g)
  let done := gs.takeWhile (fun g => g.2.2)
  (gs.drop done.length, (done.map (fun g => g.2.1)).sum)

/-- The dispatcher's own count follows. -/
def State.noteTaken (s : State) (x : Inst) : State :=
  if x.direct then s
  else s.updNodeQ x.asd x.node (fun q => { q with groups := (s.takenBy x).1, taken := q.taken + (s.takenBy x).2 })

/-- A write of the dispatcher to a line of the span is still on its way to its home. -/
def State.takenPending (s : State) (a va : Nat) : Bool :=
  match s.asdLocs a 0 [(va, 8)] with
  | .ok ((ta, _) :: _) => s.writes.any (fun w => w.src == 2 ^ 64 && w.op.isSome && !w.done && w.line == lineOf ta)
  | _ => false

/-- TAKEN over the groups at the front that have completed; none while an earlier value is still on its way. -/
def State.advanceTaken (s : State) (o : EngOp) (x : Inst) : Except Stop (Option State) :=
  let n := (s.takenBy x).2
  if x.direct ∨ n = 0 then .ok (some s)
  else if s.takenPending x.asd (x.node + 112) then .ok none
  else match s.asdRead x.asd (x.node + 112) 8 with
    | .error e => .error e
    | .ok bs => match s.asdWrite o x.asd (x.node + 112) (leBytes 8 (leNat bs + n)) with
      | .error e => .error e
      | .ok t => .ok (some t)

/-- Where the arrival on CBAR goes; none where there is no object, or it has been arrived on. -/
def State.cbarAt (s : State) (x : Inst) : Except Stop (Option Nat) :=
  if x.d.cbar = 0 ∨ x.arrived then .ok none
  else if x.d.cbar % 16 ≠ 0 then .error (.code 2)
  else match s.asdLocs x.io 1 [(x.d.cbar, 16)] with
    | .error e => .error e
    | .ok ls => if ls.all (fun p => isDev p.1) then .ok ((ls.map (·.1)).head?) else .error (.code 2)

/-- The dispatcher's last step with a completion, or with an arrival ahead of it (R303). -/
def State.completed (s : State) (i : Nat) (o : EngOp) : State :=
  let s := { s with ops := s.ops.filter (fun (e : EngOp) => e.id != o.id) }
  if o.c = 1 then s.updInst i (fun y => { y with arrived := true })
  else ({ s with insts := s.insts.erase i }).settleStops

/-- A completion's next access, by its stage: the record, TAKEN, and CBAR with release order, in this order (R293, R294). One
that ends with a code, or whose fault has been answered with one, is left out (R370, log 90). -/
def State.complete (s : State) (i : Nat) (o : EngOp) (x : Inst) : Out :=
  let on (s : State) (k : Nat) : State := s.updOp o.id (fun e => { e with stage := k, cancel := false })
  let take (r : Except Stop (Option State)) (skip : State) : Out :=
    if o.cancel then .next skip
    else match r with
      | .ok (some t) => .next t
      | .ok none => no "INSTANCE_COMPLETE"
      | .error (.code _) => .next skip
      | .error e => s.stopped "INSTANCE_COMPLETE" o e
  match o.stage with
  | 0 =>
    let r := if x.d.crcap = 0 then Except.error (Stop.code 2) else s.asdWrite o x.io x.recordAt (s.record x)
    take (match r with | .ok t => .ok (some (on t 1)) | .error e => .error e) (on s 1)
  | 1 => take (match s.advanceTaken o x with
      | .ok (some t) => .ok (some (on (t.noteTaken x) 2))
      | .ok none => .ok none
      | .error e => .error e) (on (s.noteTaken x) 2)
  | _ => match o.bar with
    | some ta => s.atHome "INSTANCE_COMPLETE" o ta (fun s =>
        (s.barChange 0 ta (fun b => if x.err = 0 then b.arrive 1 else b.setOver)).completed i o)
    | none =>
      if !s.tokenReady o then no "INSTANCE_COMPLETE"
      else take (match s.cbarAt x with
        | .ok (some ta) => .ok (some (s.updOp o.id (fun e => { e with bar := some ta })))
        | .ok none => .ok (some (s.completed i o))
        | .error e => .error e) (s.completed i o)

/-- The dispatcher begins with an instance: from the record on, or with `early` from its arrival. -/
def State.beginComplete (s : State) (i : Nat) (x : Inst) (early : Bool) : State :=
  let o : EngOp := {
    id := s.clk.fresh, cls := 0xE, func := 1, warp := 2 ^ 64, team := 2 ^ 64, inst := i, core := 0, asd := x.io
    tenant := (s.asd x.io).tenant, started := true, stage := if early then 2 else 0, c := early.toNat }
  { s.bump with ops := s.ops ++ [o] }

/-- No team of an instance is still to come. -/
def State.allSent (s : State) (i : Nat) (x : Inst) : Bool :=
  x.left.isNone && x.back.isEmpty && !s.cores.any (fun p => p.2.queue.any (fun t => t.1 == i))

/-- An instance completes; or, with every warp done or retired, it arrives on CBAR ahead of that (R303): the dispatcher
begins, and goes on access by access. -/
def execInstanceComplete (inst : Nat) (s : State) : Out :=
  match s.inst inst with
  | none => no "INSTANCE_COMPLETE"
  | some x =>
    let sent := x.state == 1 && s.allSent inst x
    match s.ops.find? (fun o => o.cls == 0xE && o.func == 1 && o.inst == inst) with
    | some o => if o.susc ≠ 0 then no "INSTANCE_COMPLETE" else s.complete inst o x
    | none =>
      if (x.state ≠ 1 ∧ x.err ≠ 0) ∨ (sent && (s.warpsOf inst).isEmpty && !s.ops.any (fun o => o.inst == inst)) then
        .next (s.beginComplete inst x false)
      else onlyIf "INSTANCE_COMPLETE"
        (sent && x.marks && !x.arrived && x.err == 0 && (s.warpsOf inst).all (fun p => p.2.ndone || p.2.retired))
        (s.beginComplete inst x true)

/-! ## Teardown (R175, R360, R365) -/

/-- A warp of a context that is torn down: every lane ends; its wait table entries are freed without a wake (R167), and
lines that a commit of it has locked are unlocked. -/
def State.endWarp (s : State) (u : Nat) : State :=
  let ls := (s.warp u).regions.map (fun p => (p.1, 0))
  let k := match (s.warp u).trap with | some t => t.way | none => 0
  let s := s.endRegions u k ls false
  let mine (id : Nat) : Bool := s.waits.any (fun x => x.id == id && x.warp == u)
  let s := s.unlockCommits ((s.warp u).core / 64) (fun c => c.warp == u)
  let s := { s with
    reqs := s.reqs.filter (fun (r : Req) => r.warp != u)
    tables := s.tables.filter (fun p => !mine p.2.waiter)
    waits := s.waits.filter (fun (x : Waiter) => x.warp != u) }
  let s := s.updDie ((s.warp u).core / 64) (fun d => { d with
    commits := d.commits.filter (fun (c : Commit) => c.warp != u)
    token := if d.token = some u then none else d.token })
  s.updWarp u (fun w => { w with
    trap := none, loop := none, rules := [], wakes := []
    busy := w.busy.filter (fun b => s.ops.any (fun o => o.id == b.id))
    arch := { w.current with
      gangs := [], exited := ~~~ 0
      slices := w.current.slices.map (fun (x : Slice) => { x with mask := 0, stack := [], fin := true }) } })

/-- An operation is cancelled: at once where it stands at a boundary, else at its next one (R175, R277). -/
def State.cancelOp (s : State) (o : EngOp) : State :=
  if o.copying || (s.core o.core).seq == some o.id then s.updOp o.id (fun e => { e with cancel := true })
  else s.endOp o.id 1

/-- A context is torn down: its operations are cancelled, its lanes end, its instance completes with an error. -/
def State.teardown (s : State) (i err : Nat) : State :=
  let s := (s.ops.filter (fun o => o.inst == i && o.code.isNone && o.cls != 0xE)).foldl State.cancelOp s
  let s := (s.takeBack i).updInst i (fun x => { x with err := err, left := none, back := [], cancel := true })
  ((s.warpsOf i).foldl (fun s p => s.endWarp p.1) s).settleStops

/-! ## Wakes (R296, R360, R365) -/

/-- The first wake of a resident warp is delivered: a status, the stub's reply, or the end of its handler. -/
def execGangWake (warp : Nat) (s : State) : Out :=
  let w := s.warp warp
  match w.wakes with
  | [] => no "GANG_WAKE"
  | k :: _ =>
    if !w.placed then no "GANG_WAKE"
    else
      let how := ((s.waits.find? (fun x => x.id == k.id)).map (·.how)).getD 0
      let t := s.deliver warp k
      .next (if how = 3 ∨ (how = 2 ∧ 2 ≤ k.status) then t.teardown w.inst 4
        else if how = 2 then t.leaveHandler warp (k.status == 1)
        else t)

/-! ## Pre-emption and readmission (R297 to R299) -/

/-- Every unfinished gang of a warp has stopped, at a safe point or parked, and nothing holds the warp back. -/
def Warp.stopped (w : Warp) : Bool :=
  w.trap.isNone && w.regions.isEmpty &&
  (match w.loop with | none => true | some l => l.ways.isEmpty && !l.ending) &&
  w.arch.gangs.all (fun g => g.park != .none && !g.chain.isMember)

/-- What a stop at a SAFEPT does not save reads zero afterwards (R81, R298). -/
def Arch.keepLive (a : Arch) : Arch :=
  a.gangs.foldl (fun a g =>
    match g.park with
    | .safept live =>
      let mine (key : Nat) : Bool := g.slices.getLsbD (key % 32 / 4)
      { a with
        v := a.v.filter (fun p => !mine p.1 || live.testBit (p.1 / 32))
        vpois := a.vpois.filter (fun p => !mine (2 * p.1) || live.testBit (2 * p.1 / 32)) }
    | _ => a) a

/-- A stopped warp with wpend zero is saved. -/
def execWarpSave (warp : Nat) (s : State) : Out :=
  let w := s.warp warp
  if !(w.preempt && w.placed && w.stopped && !w.retired && w.wpend == 0) || s.reqs.any (fun r => r.warp == warp && r.kind != .prefetch) then
    no "WARP_SAVE"
  else
    let a := w.arch.keepLive
    let s := s.updWarp warp (fun w => { w with
      placed := false, arch := a, since := 0, late := []
      loop := w.loop.map (fun l => { l with ew := 1, ctxs := [] }) })
    .next ((s.leftCore w.inst).freeStore w.core)

/-- A restored warp: its gangs go on. It counts as admitted anew in the order of R59, which the spec leaves open
(log 123). -/
def State.restore (s : State) (core ctx order : Nat) (u : Nat) : State :=
  s.updWarp u (fun w => { w with
    placed := true, core := core, ctx := ctx, order := order, preempt := false, evict := false, since := 0
    arch := { w.arch with gangs := w.arch.gangs.map (fun (g : Gang) =>
      if g.waits then g else { g with park := .none }) } })

/-- The loop of a restored warp starts a round with a new width (R309, R316), once every warp of its team holds its
context. -/
def State.reround (s : State) (core : Nat) (u : Nat) : State :=
  match (s.warp u).loop with
  | none => s
  | some l =>
    if l.ending then s else
    let w := s.warp u
    let ew := s.loopWidth w l.w
    let ctxs := (s.freeCtxs core).take (ew - 1)
    s.updWarp u (fun w => { w with loop := some ({ l with ew := ew, ctxs := ctxs, committed := w.arch }).startRound })

/-- Another context that waits goes before the saved context `i` on a core (R299). -/
def State.goesFirst (s : State) (i core : Nat) (x : Inst) (p : Nat × Inst) : Bool :=
  p.1 != i && s.waiting p && s.before p.2 x &&
    (if p.2.state = 0 then (match p.2.h.nextTeam 0 with
        | some t => (s.allowed p.2.h).contains core && s.canAdmit core p.1 p.2.h t
        | none => false)
      else if !p.2.stop then (s.core core).queue.any (fun t => t.1 == p.1 && s.canAdmit core p.1 p.2.h t.2)
      else s.teams.any (fun t => t.2.inst == p.1 && s.canResume t.1 core p.2.h))

/-- A team's slot and its tenant's operand store on the core where it is restored. -/
def State.seatTeam (s : State) (team core tenant : Nat) : State :=
  let slot := ((List.range 64).find? (fun k => !(s.teamSlots core).contains k)).getD 0
  let here := s.warps.any (fun p => p.2.team == team && p.2.placed && !p.2.retired)
  let s := if here then s else s.updTeam team (fun t => { t with core := core, slot := slot })
  if (s.team team).opst then
    s.updCore core (fun k => k.takeStore tenant)
  else s

/-- The saved warps `ws` of a team restored, the team's operations with them (log 55), and those of teams of the instance
that have nothing saved. -/
def State.resumeTeam (s : State) (team core tenant : Nat) (ws : List (Nat × Warp)) : State :=
  let order := s.clk.fresh
  let inst := (s.team team).inst
  let s := s.bump.seatTeam team core tenant
  let s := (ws.zip (s.freeCtxs core)).foldl (fun s p => s.restore core p.2 order p.1.1) s
  let s := ws.foldl (fun s p => s.reround core p.1) s
  let s := { s with ops := s.ops.map (fun (o : EngOp) =>
    if o.team = team then { o with core := core, away := false }
    else if o.inst = inst ∧ (s.savedOf o.team).isEmpty then { o with away := false }
    else o) }
  s.trimL1 core

/-- The saved warps of a warp's team are restored to a core. -/
def execWarpResume (warp core : Nat) (s : State) : Out :=
  let w := s.warp warp
  match s.inst w.inst with
  | none => no "WARP_RESUME"
  | some x =>
    let partly := x.state == 1 && s.resident w.inst && !x.stop
    if w.placed || !(partly || (x.stop && s.savedCandidate w.inst && s.ctxRoom x.tenant)) || !s.canResume w.team core x.h ||
        s.insts.any (s.goesFirst w.inst core x) then no "WARP_RESUME"
    else
      .next ((s.resumeTeam w.team core x.h.tenant (s.savedOf w.team)).updInst w.inst (fun y =>
        if partly then y
        else { y with
          stop := false, evict := false, yielded := false, stopops := [], start := s.clk.time
          aged := y.since + 4000000 ≤ s.clk.time }))

/-- All of a context's resident warps are parked. -/
def State.allParked (s : State) (i : Nat) : Bool :=
  (s.warpsOf i).all (fun p => !p.2.placed || p.2.retired || (p.2.trap.isNone && p.2.arch.gangs.all Gang.waits))

/-- A ready or saved context of higher priority, or one whose teams all wait in the queues of cores, finds no core
it can be admitted to, and this one holds one that it could use. -/
def State.pressed (s : State) (i : Nat) (x : Inst) : Bool :=
  s.insts.any (fun p =>
    s.waiting p && x.prio < p.2.prio && p.1 != i &&
    (let cs := if s.queuedOnly p then s.queuedOn p.1 else s.allowed p.2.h
     (if p.2.state = 0 then (match p.2.h.nextTeam 0 with
          | some t => s.refusal p.2 == 0 && !cs.any (fun c => s.canAdmit c p.1 p.2.h t)
          | none => false)
        else if !p.2.stop then
          cs.all (fun c => !(s.core c).queue.any (fun t => t.1 == p.1 && s.canAdmit c p.1 p.2.h t.2))
        else s.teams.any (fun t => t.2.inst == p.1 && !(s.savedOf t.1).isEmpty && !cs.any (fun c => s.canResume t.1 c p.2.h))) &&
     (s.warpsOf i).any (fun w => w.2.placed && cs.contains w.2.core)))

/-- A context that may be asked to stop. -/
def State.stoppable (s : State) (i : Nat) (x : Inst) : Bool := x.state == 1 && !x.stop && s.resident i

/-- R297; a context readmitted because it aged is safe for 2 ms, or until all its warps have parked (R299). -/
def execPreemptRequest (inst : Nat) (s : State) : Out :=
  match s.inst inst with
  | none => no "PREEMPT_REQUEST"
  | some x =>
    let safe := x.aged && s.clk.time < x.start + 2000000 && !s.allParked inst
    onlyIf "PREEMPT_REQUEST" (s.stoppable inst x && !safe && s.pressed inst x) (s.askStop inst false)

/-- R299: 2 ms on its cores, and a context that waits has the priority or has waited 4 ms. -/
def execQuantumExpiry (inst : Nat) (s : State) : Out :=
  match s.inst inst with
  | none => no "QUANTUM_EXPIRY"
  | some x =>
    let waiter (p : Nat × Inst) : Bool :=
      p.1 != inst && s.waiting p && (x.prio ≤ p.2.prio || p.2.since + 4000000 ≤ s.clk.time)
    onlyIf "QUANTUM_EXPIRY" (s.stoppable inst x && x.start + 2000000 ≤ s.clk.time && s.insts.any waiter) (s.askStop inst false)

/-- R299: every resident warp has been parked for more than 10 µs. -/
def execParkYield (inst : Nat) (s : State) : Out :=
  match s.inst inst with
  | none => no "PARK_YIELD"
  | some x =>
    let idle (p : Nat × Warp) : Bool :=
      !p.2.placed || p.2.retired || (p.2.since != 0 && p.2.since + 10000 < s.clk.time)
    onlyIf "PARK_YIELD" (s.stoppable inst x && (s.warpsOf inst).all idle && s.allParked inst)
      ((s.askStop inst false).updInst inst (fun y => { y with yielded := true }))

/-! ## Each cycle (R59, R295, R304) -/

/-- Slot tables and masks replaced. -/
def Core.putTables (k : Core) (es : List Nat) (donor recv : Nat) : Core :=
  { k with
    slots := (List.range 1024).foldl (fun (t : Tab Nat) e => t.set 0 e (es.getD e 0 % 16)) []
    donor := BitVec.ofNat 16 donor, recv := BitVec.ofNat 16 recv }

/-- A new slot image takes effect when the entry counter is 0: that of a SLOTW, or one that the application cores have
written (R376). -/
def execSlotTableSwap (x : SlotSwap) (s : State) : Out :=
  let k := s.core x.core
  let now := k.cyc % 256 == 0 && k.slot == 0
  match x.image, k.image with
  | some (es, donor, recv), _ =>
    onlyIf "SLOT_TABLE_SWAP" (now && x.core < 512 && !s.plat.absCores.contains x.core && 2 ≤ s.plat.bstage && !s.plat.fail)
      (s.updCore x.core (fun k => k.putTables es donor recv))
  | none, none => no "SLOT_TABLE_SWAP"
  | none, some (es, donor, recv, op) =>
    onlyIf "SLOT_TABLE_SWAP" now ((s.updCore x.core (fun k => { k.putTables es donor recv with image := none })).endOp op 0)

/-- A gang that might issue: where it is, its tenant, its rank among warps, whether YIELD 0 passes it over. -/
structure Cand where
  ref    : GangRef
  tenant : Nat
  rank   : Nat
  soft   : Bool
  deriving DecidableEq, Repr

/-- The copies of a warp's state that issue, by way: in the handler only the one it runs on. -/
def Warp.runs (w : Warp) : List (Nat × Arch) :=
  match w.loop, w.trap with
  | some l, none => if l.ways.isEmpty then [(0, w.arch)] else l.ways.map (fun p => (p.1, p.2.arch))
  | _, some t => [(t.way, w.archOf t.way)]
  | none, none => [(0, w.arch)]

/-- The context that a way runs in: the home warp's for way 0, else its clone's (R308). -/
def Warp.ctxOf (w : Warp) (k : Nat) : Nat :=
  match k, w.loop with
  | k + 1, some l => l.ctxs.getD k w.ctx
  | _, _ => w.ctx

/-! ### The cycles that words take (R44, R64, R306) -/

/-- Cycles that reads of one bank add: of v registers in the lane store, each counted once (R64). -/
def Uses.conflicts (u : Uses) (handler : Bool) : Nat :=
  let vs := distinct (u.rd.filterMap (fun r => match r with
    | .v n => if handler && n < 32 then none else some n
    | _ => none))
  (List.range 4).foldl (fun k b => max k (vs.filter (fun n => n % 4 == b)).length) 1 - 1

/-- Cycles from a word's issue until its result can be read (R306). -/
def wordLatency (w : BitVec 96) : Nat :=
  if wordClass w = 2 ∨ wordClass w = 3 then
    match wordInstr w with
    | some (.frcp _) | some (.frsq _) | some (.fsqrt _) | some (.fexp2 _) | some (.flog2 _) => 12
    | _ => 4
  else 0

def Reg.dst : Reg → Dst
  | .v n => .v (Fin.ofNat 512 n)
  | .g n => .g (Fin.ofNat 64 n)
  | .p n => .p (Fin.ofNat 8 n)
  | .gp n => .gp (Fin.ofNat 8 n)

/-- What the issuing gang's words take: their cycles in all, and the results on their way, each with the cycles of
the slot that pass before one in which it can be read. -/
def State.issueCost (s : State) (ws : List (BitVec 96)) : Nat × List (Busy × Nat) :=
  ws.foldl (fun (p : Nat × List (Busy × Nat)) w =>
    match wordUses w with
    | none => (p.1 + 1, p.2)
    | some u =>
      if !s.doesWork u.com then (p.1 + 1, p.2)
      else
        let k := p.1 + u.conflicts s.inHandler
        let n := wordLatency w
        (k + 1, if n = 0 then p.2 else p.2 ++ u.wr.map (fun r =>
          (⟨0, s.who.way, s.inHandler, r.dst, s.workLanes u.com⟩, k + n - 1)))) (0, [])

/-- The words that a gang issues next: one word or a whole chain; none where one cannot be fetched. -/
def State.nextWords (s : State) (r : GangRef) : Option (List (BitVec 96)) :=
  let s := { s with who := r }
  match s.fetchAt r.warp s.pc.toNat with
  | .error _ => none
  | .ok w => match s.members r.warp s.pc.toNat w with
    | .error _ => none
    | .ok ws => some (w :: ws)

/-- A word reads a result that is not in its register yet (R306). -/
def State.readsLate (s : State) (w : BitVec 96) : Bool :=
  match wordUses w with
  | none => false
  | some u => s.lateReg s.active (guardReg u.com) || (s.doesWork u.com && u.rd.any (s.lateReg (s.workLanes u.com)))

/-- The next words of a gang have their operands. -/
def State.hasOperands (s : State) (r : GangRef) : Bool :=
  match s.nextWords r with
  | none => true
  | some ws => !({ s with who := r }).chainWaits ws && !ws.any ({ s with who := r }).readsLate

/-- The chosen gang's words hold its slot for their cycles, and their results come late. -/
def State.charge (s : State) (core slot : Nat) (r : GangRef) : State :=
  match s.nextWords r with
  | none => s
  | some ws =>
    let c := ({ s with who := r }).issueCost ws
    (s.updCore core (fun k => { k with owed := k.owed.set 0 slot (c.1 - 1) })).updWarp r.warp (fun w =>
      { w with late := w.late ++ c.2 })

/-- A gang is ready (R59, R83, R315). -/
def State.gangReady (s : State) (w : Warp) (k : Nat) (g : Gang) (r : GangRef) : Bool :=
  g.slices != 0 && g.park == .none && g.cyc < 2 && !(match w.trap with | some t => t.nest | none => false) &&
  (match w.way? k with | some y => y.oldest || y.stuck &&& g.slices == 0 | none => true) && s.hasOperands r

/-- Within a warp, the ready gang whose lowest slice comes next after that of the last. -/
def nextGang (last : Nat) (gs : List Gang) : Option Gang :=
  let low (g : Gang) : Nat := (slicesOf g.slices).headD 0
  gs.foldl (fun best g => match best with
    | none => some g
    | some b => if (low g + 15 - last) % 8 < (low b + 15 - last) % 8 then some g else some b) none

/-- One candidate for each warp or way with a ready gang on a slot; gangs passed over by YIELD 0 come after
the others of their warp. -/
def State.cands (s : State) (core slot : Nat) : List Cand :=
  (s.warps.filter (fun p => p.2.placed && p.2.core == core)).flatMap (fun p =>
    (p.2.runs.filter (fun a => p.2.ctxOf a.1 % 4 == slot)).filterMap (fun a =>
      let last := match p.2.way? a.1 with | some y => y.last | none => p.2.last
      let ref (g : Gang) : GangRef := ⟨p.1, a.1, (slicesOf g.slices).headD 0⟩
      let ready := a.2.gangs.filter (fun g => s.gangReady p.2 a.1 g (ref g))
      let firm := ready.filter (fun g => g.cyc == 0)
      (nextGang last (if firm.isEmpty then ready else firm)).map (fun g =>
        ⟨ref g, p.2.tenant, (p.2.order * 64 + p.2.ctx) * 8 + a.1, firm.isEmpty⟩)))

/-- The oldest warp's of some candidates. -/
def oldest : List Cand → Option Cand
  | [] => none
  | c :: r => match oldest r with
    | none => some c
    | some d => if c.rank ≤ d.rank then some c else some d

/-- A tenant's gang: passed over by YIELD 0 only where another is ready. -/
def ofTenant (t : Nat) (cs : List Cand) : Option Cand :=
  match oldest (cs.filter (fun c => c.tenant == t && !c.soft)) with
  | some c => some c
  | none => oldest (cs.filter (fun c => c.tenant == t))

/-- The receivers in turn, after the one served last. -/
def nextRecv (recv : BitVec 16) (last : Nat) (cs : List Cand) : Option Cand :=
  ((List.range 16).map (fun k => (last + 1 + k) % 16)).foldl (fun best t =>
    match best with
    | some c => some c
    | none => if recv.getLsbD t then ofTenant t cs else none) none

/-- Cycles of YIELD pass for the gangs of a slot; one that has run out is handed to its expiry. -/
def Warp.yieldPass (w : Warp) (slot : Nat) : Warp :=
  let f (g : Gang) : Gang := if 2 < g.cyc then { g with cyc := g.cyc - 1 } else if g.cyc = 1 then { g with cyc := 0 } else g
  -- a gang that a handler keeps from issuing: its count passes as well, and needs no expiry
  let kept (g : Gang) : Gang := { g with cyc := if 3 < g.cyc then g.cyc - 1 else 0 }
  let mine (k : Nat) : Bool := w.ctxOf k % 4 == slot
  let pass (a : Arch) : Arch := { a with gangs := a.gangs.map f }
  let w' := (w.runs.filter (fun a => mine a.1)).foldl (fun w a => w.updArch a.1 pass) w
  { w' with
    late := w.late.filterMap (fun p =>
      if !mine p.1.way then some p else if p.2 ≤ 1 then none else some (p.1, p.2 - 1))
    trap := w'.trap.map (fun t => if mine t.way then { t with gangs := t.gangs.map kept } else t) }

/-- Gangs of a slot whose YIELD has run out. -/
def State.yielded (s : State) (core slot : Nat) : List Instr :=
  (s.warps.filter (fun p => p.2.placed && p.2.core == core)).flatMap (fun p =>
    (p.2.runs.filter (fun a => p.2.ctxOf a.1 % 4 == slot)).flatMap (fun a =>
      (a.2.gangs.filter (fun g => g.cyc == 2)).map (fun g => Instr.yieldExpiry ⟨p.1, a.1, (slicesOf g.slices).headD 0⟩)))

/-- One slot's cycle: the gang that it chooses is the next to issue. -/
def execIssueCycle (core : Nat) (s : State) : Out :=
  if s.plat.absCores.contains core || 512 ≤ core then no "ISSUE_CYCLE"
  else
    let k := s.core core
    let slot := k.slot
    let owed := k.owed.get 0 slot
    let cs := if owed = 0 then s.cands core slot else []
    let t := k.slots.get 0 (256 * slot + k.cyc % 256)
    let named := ofTenant t cs
    let given := if named.isNone && k.donor.getLsbD t then nextRecv k.recv (k.served.get 15 slot) cs else none
    let s := { s with warps := s.warps.map (fun (p : Nat × Warp) =>
      if p.2.placed && p.2.core == core then (p.1, p.2.yieldPass slot) else p) }
    let cyc := if slot = 3 then (k.cyc + 1) % 256 else k.cyc
    let s := s.updCore core (fun k => { k with slot := (slot + 1) % 4, cyc := cyc, owed := k.owed.set 0 slot (owed - 1) })
    let s := { s with agenda := s.yielded core slot ++
      (if k.image.isSome && slot == 3 && cyc == 0 then [Instr.slotTableSwap ⟨core, none⟩] else []) ++ s.agenda }
    let s := match given with
      | some c => s.updCore core (fun k => { k with served := k.served.set 15 slot c.tenant })
      | none => s
    match named.orElse (fun _ => given) with
    | none => .next s
    | some c =>
      let s := s.updWarp c.ref.warp (fun w =>
        match w.way? c.ref.way with
        | some _ => w.updWay c.ref.way (fun y => { y with last := c.ref.slice })
        | none => { w with last := c.ref.slice })
      .next { s.charge core slot c.ref with who := c.ref, issuing := true }

end Sys2Proof.Machine
end

