-- ==== Sys2Proof/Machine/Host.lean ====
section
/-! DEFINITION. What reaches the part from outside: host accesses and snoops (R192, R193, R195), BAR and
configuration accesses (R378, R406), peers (R188), and register writes (R362). -/

namespace Sys2Proof.Machine

/-! ## Host accesses at their home (R192, R197) -/

def accWr (a : HostAcc) : Bool := !a.bytes.isEmpty

/-- It names bytes of device memory that is present, and carries as many as it writes. -/
def State.goodAcc (s : State) (a : HostAcc) : Bool :=
  0 < a.len && a.addr + a.len ≤ ctlBase && (a.bytes.isEmpty || a.bytes.length == a.len) &&
    (accLines a).all (fun l => !s.stackAbsent (stackOf l))

/-- Each line's directory says whether host accesses wait for it: no lease is granted meanwhile. -/
def State.markHost (s : State) (l : Nat) : State :=
  let here := s.link.pend.filter (fun p => (accLines p.1).contains l)
  s.updDir l (fun e => { e with hsnp := if here.isEmpty then none else some (here.any (fun p => accWr p.1)) })

/-- An access reaches the home of its lines. -/
def State.arriveHost (s : State) (a : HostAcc) : State :=
  let s := { s with link := { s.link with pend := s.link.pend ++ [(a, s.clk.time)] } }
  (accLines a).foldl State.markHost s

/-- What an access from outside is answered with. -/
def State.answerWith (s : State) (c : Cpl) : State := { s with link := { s.link with cpl := some c } }

/-- A span's bytes written at home, line by line; a partial store leaves a poisoned line as it is (R384). Bytes that the
host reports as poison make their line poison, which is logged. -/
def State.homeWrite (s : State) (addr : Nat) (bs : List Byte) (pois : Bool) : State :=
  (spanLines addr bs.length).foldl (fun s l =>
    let mine := (List.range bs.length).filter (fun i => (addr + i) / 64 == l)
    let full := mine.length == 64
    if s.pois.get false l && !full && !pois then s.logErr (logOf (64 * l)) 3 (64 * l) 0 0
    else
      let mem := mine.foldl (fun m i => m.set 0 (addr + i) (bs.getD i 0)) s.mem
      let s := if pois then s.logErr (logOf (64 * l)) 2 (64 * l) 0 0 else s
      { s with mem := mem, pois := s.pois.set false l pois }.evalWaits l) s

/-- A host access is performed once the snoops of its lines are answered: every copy given up for a write,
passed on for a read, which is answered with its bytes. Over CXL.mem it leaves the host a copy. -/
def State.performHost (s : State) (a : HostAcc) : State :=
  let s := (accLines a).foldl (fun s l => if accWr a then s.recall l else s.passOn l) s
  let s := if accWr a then (s.homeWrite a.addr a.bytes a.pois).answerWith { ok := true }
    else s.answerWith { ok := true, data := s.curBytes a.addr a.len, pois := s.bytesPoison a.addr a.len }
  let s := if a.cxl then (accLines a).foldl (fun s l => s.updDir l (fun e => { e with hostc := true })) s else s
  let s := { s with link := { s.link with pend := s.link.pend.eraseP (fun p => p.1 == a) } }
  (accLines a).foldl State.markHost s

/-- It is its turn at each of its lines (R188), and every snoop can be answered. -/
def State.hostTurn (s : State) (a : HostAcc) : Bool :=
  match s.link.pend.find? (fun p => (accLines p.1).any (fun l => (accLines a).contains l)) with
  | some (b, t) => b == a && (accLines a).all (fun l => (s.dirE l).trans == 0 && s.diesReady l (accWr a) &&
      !s.homeAhead l (homeKey t 1 0))
  | none => false

/-- A CXL.mem access arrives; a host access of either port is performed at its home. -/
def execHostAccess (ph : Phase) (acc : HostAcc) (s : State) : Out :=
  match ph with
  | .send => onlyIf "HOST_ACCESS" (acc.cxl && s.plat.ready && !s.link.down && s.carries 17 && s.goodAcc acc)
      ({ s with link := { s.link with cxlmem := true } }.arriveHost acc)
  | .take => onlyIf "HOST_ACCESS" (s.hostTurn acc) (s.performHost acc)

/-! ## Host snoops (R193, R195) -/

/-- A snoop of the host reaches the filter, and is answered once the dies of its bitmap have answered. -/
def execHostSnoop (ph : Phase) (line : Nat) (inv : Bool) (s : State) : Out :=
  let e := s.dirE line
  if !isHost (64 * line) then no "HOST_SNOOP"
  else match ph with
  | .send => onlyIf "HOST_SNOOP" (e.hsnp.isNone && !s.link.down && s.carries 17)
      (s.updDir line (fun e => { e with hsnp := some inv }))
  | .take =>
    let stable := e.trans == 0 || (s.txn line).hostq
    let t := if inv then (s.recall line).updDir line (fun e => { e with hsnp := none, host := 0 })
      else (s.passOn line).updDir line (fun e => { e with hsnp := none, host := min 1 e.host })
    onlyIf "HOST_SNOOP" (e.hsnp == some inv && stable && s.diesReady line inv) t

/-! ## BARs (R378, R406) -/

/-- A write to the control space through a BAR or by the application cores (R362, R409). -/
def State.regWrite (s : State) (o n v : Nat) : State := s.ctlWrite o n v

/-- Unsupported Request: nothing is written. -/
def State.unsupported (s : State) : State := s.answerWith { ok := false }

/-- A refused host access is logged at I/O die 0 and writes nothing. -/
def State.refuseHost (s : State) (fn addr : Nat) : State :=
  (s.logErr 8 (1 + Config.refusedKind.toNat) addr 0 fn).unsupported

/-- The device addresses of a span that a function's window reaches. -/
def State.window (s : State) (fn : Nat) (a : HostAcc) : Option (List (Nat × Nat)) :=
  let d := s.asd (s.tenant fn).desc0
  if !d.curv then none
  else (pieces a.addr a.len).foldl (fun acc p =>
    match acc, s.translate (s.root d.cur) true p.1 (if accWr a then 1 else 0) with
    | some ls, .ok l => if isDev l.ta then some (ls ++ [(l.ta, p.2)]) else none
    | _, _ => none) (some [])

/-- Each piece of an access arrives at its home. -/
def State.arriveAll (s : State) (pois : Bool) : List (Nat × Nat) → List Byte → State
  | [], _ => s
  | p :: r, bs =>
    (s.arriveHost { addr := p.1, len := p.2, bytes := bs.take p.2, cxl := false, pois := pois }).arriveAll pois r (bs.drop p.2)

/-- A read of the control space, answered with its bytes (R362, R409). -/
def State.regRead (s : State) (o n : Nat) : State := s.answerWith { ok := true, data := leBytes n (s.ctlRead o n) }

/-- The control BAR takes aligned words and doubles; before READY only reads of the capability and identification
registers (R406, R408). -/
def State.controlBar (s : State) (a : HostAcc) : State :=
  if !((a.len == 4 || a.len == 8) && a.addr % a.len == 0) then s.unsupported
  else if !accWr a then
    (if s.plat.ready || a.addr < 0x0C0 then s.regRead (ctlBase + a.addr) a.len else s.unsupported)
  else if s.plat.ready then (s.regWrite (ctlBase + a.addr) a.len (leNat a.bytes)).answerWith { ok := true }
  else s.unsupported

/-- An access through a function's BAR: the control BAR of function 0, or a memory window of 64 GiB. -/
def execHostBarAccess (fn : Nat) (ctl : Bool) (acc : HostAcc) (s : State) : Out :=
  if 16 ≤ fn || acc.len == 0 || !(acc.bytes.isEmpty || acc.bytes.length == acc.len) || s.link.down || !s.carries fn then
    no "HOST_BAR_ACCESS"
  else if ctl then onlyIf "HOST_BAR_ACCESS" (fn == 0 && acc.addr + acc.len ≤ 2 ^ 39) (s.controlBar acc)
  else if 2 ^ 36 < acc.addr + acc.len then no "HOST_BAR_ACCESS"
  else if !s.plat.ready then .next s.unsupported
  else match s.window fn acc with
    | none => .next (s.refuseHost fn acc.addr)
    | some ls => .next (s.arriveAll acc.pois ls acc.bytes)

/-! ## Configuration space (R368, R406) -/

/-- Reads change nothing; the host enables page requests for a function or sets its allowance, and waiters that
now have room take their turn. -/
def execConfigurationAccess (fn : Nat) (acc : CfgAcc) (s : State) : Out :=
  if 16 ≤ fn then no "CONFIGURATION_ACCESS"
  else match acc with
    | .read => .next s
    | .enablePri on =>
      let s := s.updTenant fn (fun t => { t with pri := on })
      .next (s.roomFor fn s.waits)
    | .setAllow n =>
      let s := s.updTenant fn (fun t => { t with prallow := n.toNat })
      .next (s.roomFor fn s.waits)

/-! ## Other parts (R122, R181, R188) -/

/-- The device addresses of a peer's access: its own number, or through a descriptor's current root. -/
def State.peerLocs (s : State) (a : PeerAcc) (kind : Nat) : List (Nat × Nat) :=
  match a.asd with
  | none =>
    if a.addr + a.len ≤ ctlBase && !s.stackAbsent (a.addr / 2 ^ 36) && !s.stackAbsent ((a.addr + a.len - 1) / 2 ^ 36) then
      pieces a.addr a.len
    else []
  | some d => match s.asdLocs d kind (pieces a.addr a.len) with
    | .ok ls => if ls.all (fun p => isDev p.1) then ls.map (fun p => (p.1, p.2.1)) else []
    | .error _ => []

/-- A peer's write joins the writes at their homes; its own later writes to a line wait for it. -/
def State.peerWrite (s : State) (part : Nat) (k : ReqKind) (ta n v : Nat) : State :=
  let a : Acc := { lane := 0, ta := ta, len := n, val := v }
  let w : Write := {
    id := s.clk.fresh, warp := none, src := 2 ^ 64 + part, line := lineOf ta, place := .bank, kind := k
    accs := [a], bytes := writtenBytes k [a] (lineOf ta), time := s.clk.time }
  { s.bump with writes := s.writes ++ [w] }

def State.peerStore (s : State) (part : Nat) : List (Nat × Nat) → List Byte → State
  | [], _ => s
  | p :: r, bs => (s.peerWrite part .store p.1 p.2 (leNat (bs.take p.2))).peerStore part r (bs.drop p.2)

/-- A read, which changes nothing here; a store; an update with an operation of R157, or with code 16 the bytes
of a CPYR added to a barrier object (R181). What this part refuses changes nothing. -/
def execPeerAccess (acc : PeerAcc) (s : State) : Out :=
  let wr := !acc.bytes.isEmpty
  if !s.plat.ready || acc.len == 0 || (wr && acc.bytes.length != acc.len) || (!wr && acc.op.isSome) then no "PEER_ACCESS"
  else
    let ls := s.peerLocs acc (if wr then 1 else 0)
    match acc.op, ls with
    | none, _ => .next (if wr then s.peerStore acc.part ls acc.bytes else s)
    | some 16, [(ta, _)] =>
      if ta % 16 ≠ 0 then .next s
      else .next (s.peerWrite acc.part .barAdd ta 16 (leNat acc.bytes))
    | some op, [(ta, n)] =>
      .next (if op < 12 && op != 8 && (n == 4 || n == 8) && ta % n == 0 then
        s.peerWrite acc.part (.red op) ta n (leNat acc.bytes) else s)
    | some _, _ => .next s

/-! ## Register writes (R362, R374, R379, R409) -/

/-- An application core's access to memory by its target address (R379): a read is answered with what stands there, a
write is on its way to the line's home, as the stub's others are (log 144). -/
def State.appMemory (s : State) (ta n : Nat) (value : Option Double) : State :=
  match value with
  | none => s.answerWith { ok := true, data := s.curBytes ta n, pois := s.bytesPoison ta n }
  | some v => s.homeStore (2 ^ 65 + 1) none ta (leBytes n v.toNat)

/-- A word or double of the control space written, or read, by the supervisor window, an application core, or the host's
control BAR. A tenant block is not written from a compute core (R374). An application core reaches memory as well. -/
def execRegisterWrite (agent : Agent) (offset : Nat) (wide : Bool) (value : Option Double) (s : State) : Out :=
  let n := if wide then 8 else 4
  let may := match agent with
    | .supervisor => s.plat.ready && !(isBlock offset && value.isSome)
    | .appCore => 2 ≤ s.plat.bstage && !s.plat.fail
    | .host => s.plat.ready && !s.link.down && s.carries 0
  let there := (isDev offset && !s.stackAbsent (stackOf (lineOf offset))) || (isHost offset && !s.link.down)
  if !may || offset % n != 0 then no "REGISTER_WRITE"
  else if isCtl offset then .next (match value with
    | some v => s.regWrite offset n v.toNat
    | none => s.regRead offset n)
  else onlyIf "REGISTER_WRITE" (agent == .appCore && there) (s.appMemory offset n value)

end Sys2Proof.Machine
end

