-- ==== Sys2Proof/Machine/Lane.lean ====
section
/-! DEFINITION. Class 0x4: compares, predicates and moves between the lanes of a gang (R107 to R117). -/

namespace Sys2Proof.Machine

def boolD (b : Bool) : Double := if b then 1 else 0

/-- R107: the compare, then its combination with the truth of c. -/
def resSetp (f : OpA) (s : State) (l : Nat) : Res Double :=
  let r := cmpTy f.ty (f.opxBits 0 3) (tA f s l) (tB f s l)
  ⟨boolD (combine f.cmb r.val (nC f s l != 0)), r.fl⟩
def execIsetp (f : OpA) (s : State) : Out := .next (s.alu (.isetp f) resSetp)
def execFsetp (f : OpA) (s : State) : Out := .next (s.alu (.fsetp f) resSetp)

/-- R109. -/
def resPlop (f : OpA) (s : State) (l : Nat) : Res Double :=
  plain (boolD (anf f.opx.toNat (nA f s l != 0) (nB f s l != 0) (nC f s l != 0)))
def execPlop (f : OpA) (s : State) : Out := .next (s.alu (.plop f) resPlop)

/-- R110: the predicates of a lane, or the group predicates, as a byte. -/
def resPmovGet (f : OpA) (s : State) (l : Nat) : Res Double :=
  plainN ((List.range 8).foldl (fun n i =>
    n + if (if f.com.u then s.wWarp.getGp s.who.way true i else s.wWarp.getP s.who.way true i l) then 2 ^ i else 0) 0)
def execPmovGet (f : OpA) (s : State) : Out := .next (s.alu (.pmovGet f) resPmovGet)

/-- R110: the predicates that the mask names receive the bits of a, as `s` holds it. -/
def setPreds (f : OpA) (s t : State) : State :=
  let ls := s.calcLanes f.com
  let m := f.opxBits 1 7 * 2
  t.updMy (fun w => (lanesOf ls).foldl (fun w l =>
    (List.range 8).foldl (fun w i =>
      if m.testBit i then
        (if f.com.u then w.setGp s.who.way true i ((nA f s l).testBit i) else w.setP s.who.way true i l ((nA f s l).testBit i))
      else w) w) w)
/-- PMOV.set has no result; what it places in the bypass is the value of a (log 120). -/
def execPmovSet (f : OpA) (s : State) : Out :=
  .next (match (Instr.pmovSet f).roleA with
    | none => s
    | some (_, r) => s.issue (.pmovSet f) (fun s =>
        .done (setPreds f s (s.runA (.pmovSet f) f r (fun l => plain (s.src l .u32 f.a))))))

/-- The participants of a cross-lane instruction (R111). -/
def participants (f : OpA) (s : State) : Lanes := if f.com.u then s.active else s.executing f.com

/-- R112: in a U form a p register is read in every participant, every other source once (R39). -/
def resVote (f : OpA) (s : State) (_ : Nat) : Res Double :=
  let ps := lanesOf (participants f s)
  let t (l : Nat) : Bool := nA f s (if f.com.u && !f.a.isP then s.uLane else l) != 0
  match f.opxBits 0 2 with
  | 0 => plain (boolD (ps.all t))
  | 1 => plain (boolD (ps.any t))
  | 2 => plain (boolD (ps.all t || ps.all (fun l => !t l)))
  | _ => plainN (maskOf (ps.filter t)).toNat
def execVote (f : OpA) (s : State) : Out := .next (s.alu (.vote f) resVote)

/-- R113. -/
def resShfl (f : OpA) (s : State) (l : Nat) : Res Double :=
  let z := 2 ^ f.opxBits 2 3
  let base := l - l % z
  let b := nB f s l
  let src : Option Nat := match f.opxBits 0 2 with
    | 0 => some (base + b % z)
    | 1 => if b ≤ l - base then some (l - b) else none
    | 2 => if l + b < base + z then some (l + b) else none
    | _ => some (l ^^^ (b % z))
  match src with
  | some k => if (participants f s).getLsbD k then plain (tA f s k) else plain (tC f s l)
  | none => plain (tC f s l)
def execShfl (f : OpA) (s : State) : Out := .next (s.alu (.shfl f) resShfl)

/-- R114: the participants by rank. -/
def resSlide (f : OpA) (s : State) (l : Nat) : Res Double :=
  let ps := lanesOf (participants f s)
  let m := nB f s (ps.headD 0)
  let j := (ps.filter (· < l)).length
  if f.opx.getLsbD 0 then
    if j + m < ps.length then plain (tA f s (ps.getD (j + m) 0)) else plain (tC f s l)
  else if m ≤ j then plain (tA f s (ps.getD (j - m) 0)) else plain (tC f s l)
def execSlide (f : OpA) (s : State) : Out := .next (s.alu (.slide f) resSlide)

/-- The combination of a list of values (R115); the identity where it is empty. -/
def reduce (t : Ty) (op : Nat) (sat : Bool) (xs : List Double) : Res Double :=
  let w := t.bits
  let sg := signedTy t
  let vs := xs.map (valTy t)
  match op with
  | 0 => let r := storeInt w sg sat (vs.foldl (· + ·) 0); ⟨ofBits r.val, r.fl⟩
  | 1 => plainN (bitsInt w (vs.foldl min (hiOf w sg)))
  | 2 => plainN (bitsInt w (vs.foldl max (loOf w sg)))
  | 3 => plain (xs.foldl (· &&& ·) (ofBits (2 ^ w - 1)))
  | 4 => plain (xs.foldl (· ||| ·) 0)
  | _ => plain (xs.foldl (· ^^^ ·) 0)

def resRedux (f : OpA) (s : State) (_ : Nat) : Res Double :=
  reduce f.ty (f.opxBits 0 3) (f.opx.getLsbD 3) ((lanesOf (participants f s)).map (tA f s))
def execRedux (f : OpA) (s : State) : Out := .next (s.alu (.redux f) resRedux)

def resScan (f : OpA) (s : State) (l : Nat) : Res Double :=
  let excl := f.opx.getLsbD 4
  reduce f.ty (f.opxBits 0 3) (f.opx.getLsbD 3)
    (((lanesOf (participants f s)).filter (fun k => if excl then k < l else k ≤ l)).map (tA f s))
def execScan (f : OpA) (s : State) : Out := .next (s.alu (.scan f) resScan)

/-- R116. -/
def resMatch (f : OpA) (s : State) (l : Nat) : Res Double :=
  let ps := lanesOf (participants f s)
  if f.opx.getLsbD 0 then
    plainN (if ps.all (fun k => tA f s k == tA f s l) then (participants f s).toNat else 0)
  else plainN (maskOf (ps.filter (fun k => tA f s k == tA f s l))).toNat
def execMatch (f : OpA) (s : State) : Out := .next (s.alu (.matchL f) resMatch)

/-- One result byte of PRMT from its selector (R117). -/
def prmtByte (x sel : Nat) : Nat :=
  let b := x / 2 ^ (8 * (sel % 8)) % 256
  if sel.testBit 6 then 0xFF else if sel.testBit 5 then 0 else if sel.testBit 4 then (if 128 ≤ b then 0xFF else 0) else b

def resPrmt (f : OpA) (s : State) (l : Nat) : Res Double :=
  let x := nA f s l + nB f s l * 2 ^ 32
  plainN ((List.range 4).foldl (fun n i => n + prmtByte x (nC f s l / 2 ^ (8 * i) % 256) * 2 ^ (8 * i)) 0)
def execPrmt (f : OpA) (s : State) : Out := .next (s.alu (.prmt f) resPrmt)

end Sys2Proof.Machine
end

