-- ==== Sys2Proof/Machine/Recovery.lean ====
section
/-! DEFINITION. Errors and poison (R383 to R385), the recovery of a directory entry (R386), the loss and return
of the host link with its salvage area (R387 to R389), link retrains (R390). -/

namespace Sys2Proof.Machine

/-! ## Lifetime counters (R390) -/

/-- What a counter counts: corrected and uncorrectable errors of cores, dies, DRAM layers and fabric lanes, retrains; a
histogram's bin, 16 × the block + its number; trips. -/
inductive LifeKind where
  | coreCorr | dieCorr | layerCorr | laneCorr | coreBad | dieBad | layerBad | laneBad | retrain | heat | droop | trip
  deriving DecidableEq, Repr

def LifeKind.num : LifeKind → Nat
  | .coreCorr => 0 | .dieCorr => 1 | .layerCorr => 2 | .laneCorr => 3
  | .coreBad => 4 | .dieBad => 5 | .layerBad => 6 | .laneBad => 7
  | .retrain => 8 | .heat => 9 | .droop => 10 | .trip => 11

/-- One more in a lifetime record. -/
def State.lifeUp (s : State) (k : LifeKind) (unit : Nat) : State :=
  { s with plat := { s.plat with life := s.plat.life.modify 0 (Config.lifeKey (k.num * 2 ^ 32 + unit)) (fun n => n + 1) } }

/-- A corrected error of a unit. -/
def State.unitCorr (s : State) (u : ErrUnit) : State :=
  match u with
  | .core n => s.lifeUp .coreCorr n
  | .die n => s.lifeUp .dieCorr n
  | .layer n => s.lifeUp .layerCorr n
  | .lane n => s.lifeUp .laneCorr n

/-- An uncorrectable error of a line: at its home die, and for device memory at the DRAM layer that holds it (log 145). -/
def State.lineBad (s : State) (l : Nat) : State :=
  let s := s.lifeUp .dieBad (logOf (64 * l))
  if isDev (64 * l) then s.lifeUp .layerBad (4 * stackOf l + Config.layerOf l % 4) else s

/-! ## Errors (R383, R384) -/

/-- A corrected error is logged, with the core where one is involved, and changes no value; its unit counts it. -/
def execCorrectedError (log addr : Nat) (unit : ErrUnit) (tenant : Nat) (s : State) : Out :=
  let core := match unit with | .core n => n | _ => 0
  onlyIf "CORRECTED_ERROR" (log < 10) ((s.logErr log 1 addr core tenant).unitCorr unit)

/-- A line becomes poison wherever a die or the home holds it. -/
def State.poisonLine (s : State) (l : Nat) : State :=
  { s with
    pois := s.pois.set false l true
    dies := s.dies.map (fun p => (p.1, { p.2 with
      l2 := p.2.l2.map (fun (q : Nat × L2Line) =>
        (q.1, if q.1 = l ∧ q.2.st ≠ .I then { q.2 with pois := true } else q.2)) }))
    net := s.net.map (fun (m : Msg) => if m.kind.data && m.line == l then { m with pois := true } else m) }

/-- The line, the granule of a register (R384), or the granule of scratchpad becomes poison. -/
def execUncorrectableError (site : ErrSite) (s : State) : Out :=
  match site with
  | .line l =>
    onlyIf "UNCORRECTABLE_ERROR" (isDev (64 * l) && !s.stackAbsent (stackOf l) || isHost (64 * l))
      (((s.poisonLine l).logErr (logOf (64 * l)) 2 (if isDev (64 * l) then 64 * l else 64 * l - hostBase) 0 0).lineBad l)
  | .vreg u l n =>
    let w := s.warp u
    onlyIf "UNCORRECTABLE_ERROR" ((s.warps.find u).isSome && w.placed && n < w.alloc && l < 32)
      (((s.updWarp u (fun w => w.updArch 0 (fun a => { a with vpois := a.vpois.set false (vkey n l / 2) true }))).logErr
        (w.core / 64) 2 0 w.core w.tenant).lifeUp .coreBad w.core)
  | .greg u n =>
    let w := s.warp u
    onlyIf "UNCORRECTABLE_ERROR" ((s.warps.find u).isSome && w.placed && n < 64)
      (((s.updWarp u (fun w => w.updArch 0 (fun a => { a with gpois := a.gpois.set false (n / 2) true }))).logErr
        (w.core / 64) 2 0 w.core w.tenant).lifeUp .coreBad w.core)
  | .scratch t off =>
    let x := s.team t
    onlyIf "UNCORRECTABLE_ERROR" ((s.teams.find t).isSome && off < x.size)
      (((s.updTeam t (fun x => { x with pois := x.pois.set false (off / 8) true })).logErr (x.core / 64) 2 0 x.core 0).lifeUp
        .coreBad x.core)

/-! ## A directory entry that cannot be read (R386) -/

/-- Distinct contents, as lists of a line's bytes. -/
def lineBytes (t : Tab Byte) (l : Nat) : List Byte := (List.range 64).map (fun i => t.get 0 (64 * l + i))

/-- The home has found it: every present die is asked for its copy, and the host for its own. -/
def State.beginRecovery (s : State) (l : Nat) : State :=
  let ds := (List.range 8).foldl (fun m d => if s.present d then m ||| bit8 d else m) (0 : BitVec 8)
  let s := s.updDir l (fun e => { e with
    bad := true, state := 2, shar := 255, hostc := true, owner := 0, trans := 2
    txn := some { kind := .wback, die := 0, wait := ds, recov := true, biw := s.link.cxlmem } })
  s.snoopAll .snpfwdx ds l

/-- The answers are in: the line's value is the one dirty copy's or the home's; a disagreement poisons it. -/
def State.endRecovery (s : State) (l : Nat) : State :=
  let got := (s.txn l).got
  let dirty := got.filter (fun g => g.2.1)
  let vals := distinct (dirty.map (fun g => lineBytes g.2.2.1 l))
  let home := lineBytes s.mem l
  let v := vals.headD home
  let pois := match dirty with
    | [] => s.pois.get false l
    | g :: _ => g.2.2.2
  let bad := 1 < vals.length || got.any (fun g => !g.2.1 && lineBytes g.2.2.1 l != v)
  let s :=
    if bad then ({ s with pois := s.pois.set false l true }).logErr (stackOf l) 5 (64 * l) 0 0
    else ({ s with mem := writeBytes s.mem (64 * l) v, pois := s.pois.set false l pois }).logErr (stackOf l) 4 (64 * l) 0 0
  s.updDir l (fun e => { hsnp := e.hsnp, held := e.held })

/-- The error is found when the home would read the entry, and the recovery ends once every answer is in. -/
def execDirEntryError (ph : Phase) (line : Nat) (s : State) : Out :=
  let e := s.dirE line
  match ph with
  | .send => onlyIf "DIR_ENTRY_ERROR" (isDev (64 * line) && !s.stackAbsent (stackOf line) && e.trans == 0)
      (s.beginRecovery line)
  | .take => onlyIf "DIR_ENTRY_ERROR" (e.bad && (s.txn line).recov && (s.txn line).wait == 0 && !(s.txn line).biw)
      (s.endRecovery line)

/-! ## The host link (R387, R388) -/

/-- A host line's value is dirty in some die, or on its way to the filter. -/
def State.dirtyHost (s : State) (l : Nat) : Bool :=
  (List.range 8).any (fun d =>
    let x := s.l2 d l
    x.st == .M || x.st == .O || (x.st == .SM && (s.dirE l).state == 3 && (s.dirE l).owner == d)) ||
  (s.inFlight l).isSome

/-- One dirty line into the salvage area, or lost where that is full or disabled. -/
def State.salvage (s : State) (l : Nat) : State :=
  let k := s.link
  let bus := 64 * l - hostBase
  let t := k.writer.get 0 l
  if k.sbase ≠ 0 ∧ k.scount < 524288 then
    let at' := k.sbase + 128 * k.scount
    let bs := lineBytes (s.lineTab l) l ++ leBytes 8 bus ++ leBytes 1 t ++ leBytes 55 0
    let s := { s with pois := (s.pois.set false (lineOf at') (s.linePoison l)).set false (lineOf at' + 1) false }
    ({ s.poke at' bs with link := { k with scount := k.scount + 1 } }).logErr 9 6 bus 0 t
  else
    ({ s with link := { k with slost := min (k.slost + 1) (2 ^ 20 - 1) } }).logErr 9 7 bus 0 t

/-- The posted writes still in the egress queue are discarded, each logged once. -/
def State.dropPosted (s : State) : State :=
  let s := s.link.egress.foldl (fun s (e : Posted) =>
    s.logErr 8 7 (((e.bytes.map (·.1)).headD hostBase) - hostBase) (s.warp e.warp).core (s.warp e.warp).tenant) s
  { s with link := { s.link with egress := [] } }

/-- Commits that name a host line lock their lines again. -/
def Die.relock (d : Die) : Die :=
  let hit := d.commits.filter (fun c => 0 < c.locked && c.lines.any (fun l => isHost (64 * l)))
  let free := hit.flatMap (fun c => c.lines.take c.locked)
  { d with
    l2 := d.l2.map (fun (q : Nat × L2Line) => (q.1, if free.contains q.1 then { q.2 with locked := false } else q.2))
    commits := d.commits.map (fun (c : Commit) => if hit.any (fun x => x.id == c.id) then { c with locked := 0 } else c) }

/-- The filter invalidates every host line at once, without waiting for leases; dirty ones are salvaged. -/
def State.takeLinkDown (s : State) : State :=
  let held := s.dies.flatMap (fun p => (p.2.l2.filter (fun (q : Nat × L2Line) => isHost (64 * q.1))).map (·.1))
  let sent := (s.net.filter (fun m => isHost (64 * m.line))).map (·.line)
  let lines := sortNat (held ++ sent)
  let s := s.dropPosted
  let s := (lines.filter (fun l => s.dirtyHost l)).foldl State.salvage s
  let s := (List.range 8).foldl (fun s d => lines.foldl (fun s l => s.notice d l) s) s
  { s with
    dies := s.dies.map (fun p =>
      let d := p.2.relock
      (p.1, { d with l2 := d.l2.filter (fun (q : Nat × L2Line) => !isHost (64 * q.1)) }))
    cores := s.cores.map (fun p => (p.1, { p.2 with l1 := p.2.l1.filter (fun (q : Nat × Copy) => !isHost (64 * q.1)) }))
    net := s.net.filter (fun (m : Msg) => !isHost (64 * m.line))
    dir := s.dir.filter (fun (p : Nat × DirE) => !isHost (64 * p.1))
    link := { s.link with down := true, asked := [], writer := [] } }

def execHostLinkDown (s : State) : Out := onlyIf "HOST_LINK_DOWN" (!s.link.down) s.takeLinkDown

/-- An integrity failure on a stream that has keys takes the link down (R382). -/
def execIdeIntegrityFailure (stream : Nat) (s : State) : Out :=
  onlyIf "IDE_INTEGRITY_FAILURE" (stream < 18 && s.carries stream && !s.link.down) s.takeLinkDown

/-- The stub reports recovery: the writes that were lost are awaited no more, and a replay asked for meanwhile comes
next. -/
def execLinkRecover (s : State) : Out :=
  let s' := { s with
    link := { s.link with down := false }
    warps := s.warps.map (fun (p : Nat × Warp) => (p.1, { p.2 with posted := none })) }
  onlyIf "LINK_RECOVER" s.link.down (if s.link.replay then s'.askReplay else s')

/-- A salvage record: its bytes, bus address and tenant. -/
def State.salvaged (s : State) (i : Nat) : List Byte × Nat × Nat :=
  let at' := s.link.sbase + 128 * i
  (s.curBytes at' 64, s.curNat (at' + 64) 8 % 2 ^ 56, s.curNat (at' + 72) 1 % 16)

/-- The records written to the host in order; `refused` are those that it refuses (R389). -/
def execReplay (refused : List Nat) (s : State) : Out :=
  let s' := (List.range s.link.scount).foldl (fun s i =>
    let r := s.salvaged i
    if refused.contains i then s.logErr 9 7 r.2.1 0 r.2.2
    else
      let l := lineOf (hostBase + r.2.1)
      let pois := s.linePoison (lineOf (s.link.sbase + 128 * i))
      let s := { s with pois := s.pois.set false l pois }
      (s.poke (64 * l) r.1).logErr 9 8 r.2.1 0 r.2.2) s
  onlyIf "REPLAY" (!s.link.down) { s' with link := { s'.link with scount := 0, replay := false } }

/-- Every record is given up (R389). -/
def execDisc (s : State) : Out :=
  let s' := (List.range s.link.scount).foldl (fun s i =>
    let r := s.salvaged i
    s.logErr 9 7 r.2.1 0 r.2.2) s
  .next { s' with link := { s'.link with scount := 0, disc := false } }

/-- A lane or link retrains; its lifetime record counts it (R390). -/
def execLinkRetrain (unit : Nat) (s : State) : Out := .next (s.lifeUp .retrain unit)

end Sys2Proof.Machine
end

