-- ==== Sys2Proof/Machine/Shake.lean ====
section
/-! DEFINITION. SHAKE256 of FIPS 202, by which the trust unit measures firmware images (R380, log 142). -/

namespace Sys2Proof.Machine

/-- The round constants of Keccak-f[1600]. -/
def keccakRc : List (BitVec 64) :=
  [0x0000000000000001, 0x0000000000008082, 0x800000000000808A, 0x8000000080008000, 0x000000000000808B, 0x0000000080000001,
   0x8000000080008081, 0x8000000000008009, 0x000000000000008A, 0x0000000000000088, 0x0000000080008009, 0x000000008000000A] ++
  [0x000000008000808B, 0x800000000000008B, 0x8000000000008089, 0x8000000000008003, 0x8000000000008002, 0x8000000000000080,
   0x000000000000800A, 0x800000008000000A, 0x8000000080008081, 0x8000000000008080, 0x0000000080000001, 0x8000000080008008]

/-- The rotations of its lanes, lane (x, y) at x + 5 y. -/
def keccakRho : List Nat :=
  [0, 1, 62, 28, 27, 36, 44, 6, 55, 20, 3, 10, 43] ++ [25, 39, 41, 45, 15, 21, 8, 18, 2, 61, 56, 14]

/-- A list of lanes by a function of their index. -/
def lanes25 (f : Nat → BitVec 64) : List (BitVec 64) := (List.range 25).map f

/-- One round: theta, rho and pi, chi, iota. -/
def keccakRound (a : List (BitVec 64)) (rc : BitVec 64) : List (BitVec 64) :=
  let c := (List.range 5).map (fun x => (List.range 5).foldl (fun s y => s ^^^ a.getD (x + 5 * y) 0) 0)
  let a := lanes25 (fun i => a.getD i 0 ^^^ c.getD ((i % 5 + 4) % 5) 0 ^^^ (c.getD ((i % 5 + 1) % 5) 0).rotateLeft 1)
  let b := lanes25 (fun i =>
    let from' := (i % 5 + 3 * (i / 5)) % 5 + 5 * (i % 5)
    (a.getD from' 0).rotateLeft (keccakRho.getD from' 0))
  let e := lanes25 (fun i =>
    let row := 5 * (i / 5)
    b.getD i 0 ^^^ (~~~ b.getD (row + (i % 5 + 1) % 5) 0 &&& b.getD (row + (i % 5 + 2) % 5) 0))
  e.set 0 (e.getD 0 0 ^^^ rc)

def keccakF (a : List (BitVec 64)) : List (BitVec 64) := keccakRc.foldl keccakRound a

/-- Blocks of 136 bytes absorbed one after another; the first argument bounds their number. -/
def absorb : Nat → List (BitVec 64) → List Byte → List (BitVec 64)
  | 0, a, _ => a
  | k + 1, a, bs =>
    if bs.isEmpty then a
    else
      let blk := bs.take 136
      absorb k (keccakF (lanes25 (fun i => a.getD i 0 ^^^ BitVec.ofNat 64 (leNat ((blk.drop (8 * i)).take 8))))) (bs.drop 136)

/-- The message with its suffix and padding, a multiple of 136 bytes. -/
def shakePad (bs : List Byte) : List Byte :=
  let n := 136 - bs.length % 136
  bs ++ (if n = 1 then [0x9F] else 0x1F :: (List.replicate (n - 2) 0 ++ [0x80]))

/-- SHAKE256 with 64 bytes of output, as a little-endian number. -/
def shake256 (bs : List Byte) : Nat :=
  let msg := shakePad bs
  leNat (((absorb (msg.length / 136) (List.replicate 25 0) msg).take 8).flatMap (fun x => leBytes 8 x.toNat))

end Sys2Proof.Machine
end

