-- ==== Sys2Proof/Machine/Platform.lean ====
section
/-! DEFINITION. Reset and the boot stages (R380, R406, R407), thermal events (R405), the time base (R7), the
SPDM messages of the trust unit (R381) and the keys of the links (R382). -/

namespace Sys2Proof.Machine

/-! ## Reset (R406) -/

/-- Everything at its reset value, at stage 0, but for what outlives a reset: the lifetime records, the retire
list, what the boards and the room fix, and memory, which stage 3 writes with zeros. The clocks and the model's
own counters go on. -/
def State.resetPart (s : State) : State :=
  { State.reset with
    clk := s.clk
    agenda := s.agenda
    mem := s.mem
    pois := s.pois
    plat := {
      retire := s.plat.retire, retired := s.plat.retired, life := s.plat.life
      therm := s.plat.therm, throttled := s.plat.throttled
      supply := s.plat.supply } }

/-- Power-on, a thermal trip that has been recorded (R405), or COLD, which is ignored before READY (R407). -/
def execCold (cause : ResetCause) (s : State) : Out :=
  onlyIf "COLD" (cause == .powerOn || (cause == .thermalTrip && s.plat.trip) || (cause == .statusWrite && s.plat.ready)) s.resetPart

/-- A PCIe hot reset, or WARM, which is ignored before READY (R407). -/
def execWarm (cause : ResetCause) (s : State) : Out :=
  onlyIf "WARM" (cause == .hotReset || (cause == .statusWrite && s.plat.ready)) s.resetPart

/-- The retire list that this reset applies: what RETIRE names in device memory, which it reads before DRAM is zeroed, or
where that is 0 the list kept since an earlier reset (R390, R406, log 146). -/
def State.retireNow (s : State) : Absent :=
  if s.plat.retire = 0 then s.plat.retired
  else
    let l := Config.retireList s.mem s.plat.retire
    ⟨l.1, l.2.1, l.2.2⟩

/-- Stage 3: the units on the retire list and those that fail their test are absent; DRAM is zero, poison is
cleared, and the registers read as the table of R408 gives them. -/
def State.selfTest (s : State) (a : Absent) : State :=
  let r := s.retireNow
  let units (xs ys : List Nat) (n : Nat) : List Nat := sortNat (distinct ((xs ++ ys).filter (fun c => c < n)))
  { s with
    mem := s.mem.filter (fun p => !isDev p.1)
    pois := s.pois.filter (fun p => !isDev (64 * p.1))
    plat := { s.plat with
      bstage := 4, ready := true, retire := 0, lifeidx := 0, retired := r
      absCores := units r.cores a.cores 512
      absLayers := units r.layers a.layers 32
      absLanes := units r.lanes a.lanes 88 } }

/-- The current stage completes: its image is verified against the fused key and measured before the next stage is
released, or the sequence stops (R380). The last one tests the units. -/
def execBootStage (fw : Firmware) (absent : Absent) (s : State) : Out :=
  let p := s.plat
  if p.fail || p.ready || 4 ≤ p.bstage then no "BOOT_STAGE"
  else if p.bstage = 3 then .next (s.selfTest absent)
  else if !Config.slhVerify Config.fusedKey fw.image fw.signature then .next { s with plat := { p with fail := true } }
  else .next { s with plat := { p with bstage := p.bstage + 1, meas := p.meas.set 0 p.bstage (shake256 fw.image) } }

/-! ## Heat and clocks (R405) -/

/-- A junction of a stack, or of an I/O die (8 and 9), trips: the trip is recorded, and the package's cold reset comes
next. -/
def execThermalTrip (stack : Nat) (s : State) : Out :=
  let s := s.lifeUp .trip stack
  onlyIf "THERMAL_TRIP" (stack < 10)
    { s with plat := { s.plat with trip := true }, agenda := .cold .thermalTrip :: s.agenda }

/-- A block's entry among those at a low clock. -/
def State.throttle (s : State) (block : Nat) (e : Option (Option Nat)) : State :=
  let ts := s.plat.throttled.filter (fun (p : Nat × Option Nat) => p.1 != block)
  { s with plat := { s.plat with throttled := match e with | some t => ts ++ [(block, t)] | none => ts } }

/-- A block is over its temperature, or with `droop` below its droop threshold: its clock is low from now on, and the bin of
the reading counts the event (R390). -/
def execThermalThrottle (x : BlockOver) (s : State) : Out :=
  .next ((s.lifeUp (if x.droop then .droop else .heat) (16 * x.block + Config.histBin x.droop x.reading % 16)).throttle x.block
    (some none))

/-- With `inside` the block is back inside both limits; without, it has been there for 1 ms, and its clock is restored. -/
def execThrottleRelease (x : BlockBack) (s : State) : Out :=
  match s.plat.throttled.find? (fun p => p.1 == x.block), x.inside with
  | some (_, none), true => .next (s.throttle x.block (some (some s.clk.time)))
  | some (_, some t), false => onlyIf "THROTTLE_RELEASE" (t + 1000000 ≤ s.clk.time) (s.throttle x.block none)
  | _, _ => no "THROTTLE_RELEASE"

/-- Since when a warp's gangs have all been parked (R299). -/
def Warp.noteParked (w : Warp) (now : Nat) : Warp :=
  if !w.placed then w
  else if !w.wakes.isEmpty || (w.archOf 0).gangs.isEmpty || !(w.archOf 0).gangs.all Gang.waits then { w with since := 0 }
  else if w.since = 0 then { w with since := now }
  else w

/-- A context that has been readmitted because it aged has parked all its warps: it is protected no longer (R299). -/
def Inst.noteParked (x : Inst) (i : Nat) (ws : Tab Warp) : Inst :=
  { x with aged := x.aged && !ws.all (fun p => p.2.inst != i || !p.2.placed || p.2.retired || p.2.since != 0) }

/-- One nanosecond passes, and one point's time base moves against the others: never back, never more than 4 ns ahead
of the slowest (R7, log 135). -/
def Clock.tick (c : Clock) : Clock :=
  let x := Config.drift c.free
  let p := x / 5 % 521
  { c with time := c.time + 1, free := c.free + 1, skew := c.skew.set 0 p (max (x % 5) (min 4 (c.skew.get 0 p) - 1)) }

/-- One nanosecond (R7). -/
def execTimeBaseTick (s : State) : Out :=
  let t := s.clk.time + 1
  let ws := s.warps.map (fun (p : Nat × Warp) => (p.1, p.2.noteParked t))
  .next { s with
    clk := s.clk.tick
    warps := ws
    insts := s.insts.map (fun (p : Nat × Inst) => (p.1, p.2.noteParked p.1 ws)) }

/-! ## SPDM over DOE (R381) -/

def State.updTrust (s : State) (f : Trust → Trust) : State := { s with plat := { s.plat with trust := f s.plat.trust } }

/-- A response: its message code and what follows it. -/
def State.answer (s : State) (ws : List Nat) : State :=
  s.updTrust (fun t => { t with answers := ws, count := t.count + 1 })

/-- An ERROR response with its error code. -/
def State.spdmError (s : State) (code : Nat) : State := s.answer [0x7F, code]

/-- A response with the identity key's signature over it; what the unit draws for it is free. -/
def State.answerSigned (s : State) (ws : List Nat) : State :=
  { s.answer (ws ++ [Config.slhSign Config.identityKey ws s.clk.free]) with clk := { s.clk with free := s.clk.free + 1 } }

/-- The measurement registers, in order (R381). -/
def State.measured (s : State) : List Nat := (List.range 3).map (fun i => s.plat.meas.get 0 i)

/-- A message whose turn has come, or the error that it has not. -/
def State.inTurn (s : State) (c : Bool) (t : State) : Out := .next (if c then t else s.spdmError 4)

/-- GET_VERSION opens a connection; what an earlier one had agreed is gone. -/
def execGetVersion (s : State) : Out :=
  .next ((s.updTrust (fun t => { keys := t.keys, count := t.count, version := true })).answer [0x04, 0x13])

def execGetCapabilities (s : State) : Out :=
  s.inTurn s.plat.trust.version ((s.updTrust (fun t => { t with caps := true })).answer [0x61, Config.spdmFlags])

/-- A requester that does not select SLH-DSA is refused. -/
def execNegotiateAlgorithms (slhdsa : Bool) (s : State) : Out :=
  s.inTurn s.plat.trust.caps
    (if slhdsa then (s.updTrust (fun t => { t with algs := true })).answer [0x63]
    else (s.updTrust (fun t => { t with algs := false })).spdmError 1)

def execGetDigests (s : State) : Out := s.inTurn s.plat.trust.algs (s.answer [0x01, Config.chainDigests Config.identityKey])

/-- The certificate chain of a slot, which the identity key's public part ends. -/
def execGetCertificate (slot : Nat) (s : State) : Out :=
  s.inTurn s.plat.trust.algs (s.answer [0x02, slot, Config.certificate Config.identityKey slot])

/-- The nonce and the measurements, signed with the identity key. -/
def execChallenge (nonce : Nat) (s : State) : Out := s.inTurn s.plat.trust.algs (s.answerSigned ([0x03, nonce] ++ s.measured))

/-- The measurement registers in order: 0 asks for their number, 255 for all. -/
def execGetMeasurements (index : Nat) (s : State) : Out :=
  s.inTurn s.plat.trust.algs
    (if index = 0 then s.answer [0x60, 3]
    else if index ≤ 3 then s.answer [0x60, s.measured.getD (index - 1) 0]
    else if index = 255 then s.answer (0x60 :: s.measured)
    else s.spdmError 1)

def execKeyExchange (nonce : Nat) (s : State) : Out :=
  s.inTurn s.plat.trust.algs
    ((s.updTrust (fun t => { t with session := true, secure := false })).answerSigned [0x64, nonce, Config.trustWord s.clk.free 0])

/-- The requester's proof completes the session, or ends it. -/
def execFinish (proof : Bool) (s : State) : Out :=
  s.inTurn (s.plat.trust.session && !s.plat.trust.secure)
    (if proof then (s.updTrust (fun t => { t with secure := true })).answer [0x65]
    else (s.updTrust (fun t => { t with session := false })).spdmError 6)

def execEndSession (s : State) : Out :=
  s.inTurn s.plat.trust.secure ((s.updTrust (fun t => { t with session := false, secure := false })).answer [0x6C])

/-- Keys are programmed inside a secure session only (R382); page requests that waited for them go out. -/
def execIdeKm (stream key : Nat) (s : State) : Out :=
  s.inTurn s.plat.trust.secure
    (if stream < 18 then
      (s.updTrust (fun t => { t with keys := t.keys.set 0 stream (key + 1), count := t.count + 1 })).roomFor stream s.waits
    else s.spdmError 1)

end Sys2Proof.Machine
end

