-- ==== Sys2Proof/Machine/Dispatch.lean ====
section
/-! DEFINITION. One arm for each row of the opcode table. -/

namespace Sys2Proof.Machine

def exec (i : Instr) (s : State) : Host.Outcome State Fault Refusal :=
  match i with
  | .nop f => Sys2Proof.Machine.execNop f s
  | .bra f => Sys2Proof.Machine.execBra f s
  | .brx f => Sys2Proof.Machine.execBrx f s
  | .rcv f => Sys2Proof.Machine.execRcv f s
  | .join f => Sys2Proof.Machine.execJoin f s
  | .loop f => Sys2Proof.Machine.execLoop f s
  | .brk f => Sys2Proof.Machine.execBrk f s
  | .next f => Sys2Proof.Machine.execNext f s
  | .call f => Sys2Proof.Machine.execCall f s
  | .callx f => Sys2Proof.Machine.execCallx f s
  | .ret f => Sys2Proof.Machine.execRet f s
  | .exit f => Sys2Proof.Machine.execExit f s
  | .regang f => Sys2Proof.Machine.execRegang f s
  | .safept f => Sys2Proof.Machine.execSafept f s
  | .safeptRf f => Sys2Proof.Machine.execSafeptRf f s
  | .yield f => Sys2Proof.Machine.execYield f s
  | .yieldExpiry g => Sys2Proof.Machine.execYieldExpiry g s
  | .trap f => Sys2Proof.Machine.execTrap f s
  | .bkpt f => Sys2Proof.Machine.execBkpt f s
  | .safePointOverdue g => Sys2Proof.Machine.execSafePointOverdue g s
  | .iadd f => Sys2Proof.Machine.execIadd f s
  | .isub f => Sys2Proof.Machine.execIsub f s
  | .imul f => Sys2Proof.Machine.execImul f s
  | .imulh f => Sys2Proof.Machine.execImulh f s
  | .imad f => Sys2Proof.Machine.execImad f s
  | .imadw f => Sys2Proof.Machine.execImadw f s
  | .imin f => Sys2Proof.Machine.execImin f s
  | .imax f => Sys2Proof.Machine.execImax f s
  | .iabs f => Sys2Proof.Machine.execIabs f s
  | .andL f => Sys2Proof.Machine.execAnd f s
  | .orL f => Sys2Proof.Machine.execOr f s
  | .xorL f => Sys2Proof.Machine.execXor f s
  | .lop3 f => Sys2Proof.Machine.execLop3 f s
  | .shl f => Sys2Proof.Machine.execShl f s
  | .shr f => Sys2Proof.Machine.execShr f s
  | .sar f => Sys2Proof.Machine.execSar f s
  | .shf f => Sys2Proof.Machine.execShf f s
  | .popc f => Sys2Proof.Machine.execPopc f s
  | .clz f => Sys2Proof.Machine.execClz f s
  | .ctz f => Sys2Proof.Machine.execCtz f s
  | .brev f => Sys2Proof.Machine.execBrev f s
  | .bfx f => Sys2Proof.Machine.execBfx f s
  | .bfi f => Sys2Proof.Machine.execBfi f s
  | .sel f => Sys2Proof.Machine.execSel f s
  | .mov f => Sys2Proof.Machine.execMov f s
  | .movi f => Sys2Proof.Machine.execMovi f s
  | .lea f => Sys2Proof.Machine.execLea f s
  | .idp4 f => Sys2Proof.Machine.execIdp4 f s
  | .pmac2 f => Sys2Proof.Machine.execPmac2 f s
  | .sarn f => Sys2Proof.Machine.execSarn f s
  | .isat f => Sys2Proof.Machine.execIsat f s
  | .rget f => Sys2Proof.Machine.execRget f s
  | .rput f => Sys2Proof.Machine.execRput f s
  | .isetp f => Sys2Proof.Machine.execIsetp f s
  | .fsetp f => Sys2Proof.Machine.execFsetp f s
  | .plop f => Sys2Proof.Machine.execPlop f s
  | .pmovGet f => Sys2Proof.Machine.execPmovGet f s
  | .pmovSet f => Sys2Proof.Machine.execPmovSet f s
  | .vote f => Sys2Proof.Machine.execVote f s
  | .shfl f => Sys2Proof.Machine.execShfl f s
  | .slide f => Sys2Proof.Machine.execSlide f s
  | .redux f => Sys2Proof.Machine.execRedux f s
  | .scan f => Sys2Proof.Machine.execScan f s
  | .matchL f => Sys2Proof.Machine.execMatch f s
  | .prmt f => Sys2Proof.Machine.execPrmt f s
  | .fadd f => Sys2Proof.Machine.execFadd f s
  | .fsub f => Sys2Proof.Machine.execFsub f s
  | .fmul f => Sys2Proof.Machine.execFmul f s
  | .ffma f => Sys2Proof.Machine.execFfma f s
  | .fmin f => Sys2Proof.Machine.execFmin f s
  | .fmax f => Sys2Proof.Machine.execFmax f s
  | .frcp f => Sys2Proof.Machine.execFrcp f s
  | .frsq f => Sys2Proof.Machine.execFrsq f s
  | .fsqrt f => Sys2Proof.Machine.execFsqrt f s
  | .fexp2 f => Sys2Proof.Machine.execFexp2 f s
  | .flog2 f => Sys2Proof.Machine.execFlog2 f s
  | .fclass f => Sys2Proof.Machine.execFclass f s
  | .fscale f => Sys2Proof.Machine.execFscale f s
  | .frnd f => Sys2Proof.Machine.execFrnd f s
  | .hadd2 f => Sys2Proof.Machine.execHadd2 f s
  | .hmul2 f => Sys2Proof.Machine.execHmul2 f s
  | .hfma2 f => Sys2Proof.Machine.execHfma2 f s
  | .hmin2 f => Sys2Proof.Machine.execHmin2 f s
  | .hmax2 f => Sys2Proof.Machine.execHmax2 f s
  | .fdot2 f => Sys2Proof.Machine.execFdot2 f s
  | .cvt f => Sys2Proof.Machine.execCvt f s
  | .fcvt f => Sys2Proof.Machine.execFcvt f s
  | .pk2 f => Sys2Proof.Machine.execPk2 f s
  | .upk2 f => Sys2Proof.Machine.execUpk2 f s
  | .e10enc f => Sys2Proof.Machine.execE10enc f s
  | .e10dec f => Sys2Proof.Machine.execE10dec f s
  | .rnsenc f => Sys2Proof.Machine.execRnsenc f s
  | .rnsdec f => Sys2Proof.Machine.execRnsdec f s
  | .qnt f => Sys2Proof.Machine.execQnt f s
  | .dqnt f => Sys2Proof.Machine.execDqnt f s
  | .ld f => Sys2Proof.Machine.execLd f s
  | .st f => Sys2Proof.Machine.execSt f s
  | .prf f => Sys2Proof.Machine.execPrf f s
  | .fence f => Sys2Proof.Machine.execFence f s
  | .cctlInv f => Sys2Proof.Machine.execCctlInv f s
  | .cctlWb f => Sys2Proof.Machine.execCctlWb f s
  | .cctlWbinv f => Sys2Proof.Machine.execCctlWbinv f s
  | .cctlZero f => Sys2Proof.Machine.execCctlZero f s
  | .cctlInvall f => Sys2Proof.Machine.execCctlInvall f s
  | .atom f => Sys2Proof.Machine.execAtom f s
  | .cas f => Sys2Proof.Machine.execCas f s
  | .red f => Sys2Proof.Machine.execRed f s
  | .bupd f => Sys2Proof.Machine.execBupd f s
  | .binit f => Sys2Proof.Machine.execBinit f s
  | .barv f => Sys2Proof.Machine.execBarv f s
  | .bwait f => Sys2Proof.Machine.execBwait f s
  | .barw f => Sys2Proof.Machine.execBarw f s
  | .bexp f => Sys2Proof.Machine.execBexp f s
  | .waita f => Sys2Proof.Machine.execWaita f s
  | .waitaDeadline stack entry => Sys2Proof.Machine.execWaitaDeadline stack entry s
  | .cpy f => Sys2Proof.Machine.execCpy f s
  | .cpyt f => Sys2Proof.Machine.execCpyt f s
  | .cpyg f => Sys2Proof.Machine.execCpyg f s
  | .cpys f => Sys2Proof.Machine.execCpys f s
  | .cpyr f => Sys2Proof.Machine.execCpyr f s
  | .cpyx f => Sys2Proof.Machine.execCpyx f s
  | .cpyq f => Sys2Proof.Machine.execCpyq f s
  | .cpyc f => Sys2Proof.Machine.execCpyc f s
  | .osld f => Sys2Proof.Machine.execOsld f s
  | .engineStart op => Sys2Proof.Machine.execEngineStart op s
  | .copyElement op => Sys2Proof.Machine.execCopyElement op s
  | .tokenWrite op => Sys2Proof.Machine.execTokenWrite op s
  | .byteAddition op => Sys2Proof.Machine.execByteAddition op s
  | .cpyxFollowOn op => Sys2Proof.Machine.execCpyxFollowOn op s
  | .mma f => Sys2Proof.Machine.execMma f s
  | .mmag f => Sys2Proof.Machine.execMmag f s
  | .tzero f => Sys2Proof.Machine.execTzero f s
  | .tqnt f => Sys2Proof.Machine.execTqnt f s
  | .tdq f => Sys2Proof.Machine.execTdq f s
  | .tcrt f => Sys2Proof.Machine.execTcrt f s
  | .ttrn f => Sys2Proof.Machine.execTtrn f s
  | .tstat f => Sys2Proof.Machine.execTstat f s
  | .sequencerStart core => Sys2Proof.Machine.execSequencerStart core s
  | .tileStep core => Sys2Proof.Machine.execTileStep core s
  | .tileStop core => Sys2Proof.Machine.execTileStop core s
  | .tileResume core => Sys2Proof.Machine.execTileResume core s
  | .kvx f => Sys2Proof.Machine.execKvx f s
  | .kvvalSet f => Sys2Proof.Machine.execKvvalSet f s
  | .kvvalClr f => Sys2Proof.Machine.execKvvalClr f s
  | .kvrcl f => Sys2Proof.Machine.execKvrcl f s
  | .skchSlot f => Sys2Proof.Machine.execSkchSlot f s
  | .skchVec f => Sys2Proof.Machine.execSkchVec f s
  | .attn f => Sys2Proof.Machine.execAttn f s
  | .attnq f => Sys2Proof.Machine.execAttnq f s
  | .sploop f => Sys2Proof.Machine.execSploop f s
  | .spput f => Sys2Proof.Machine.execSpput f s
  | .spacc f => Sys2Proof.Machine.execSpacc f s
  | .spnext f => Sys2Proof.Machine.execSpnext f s
  | .spend f => Sys2Proof.Machine.execSpend f s
  | .spq f => Sys2Proof.Machine.execSpq f s
  | .wayKeep warp => Sys2Proof.Machine.execWayKeep warp s
  | .atomb f => Sys2Proof.Machine.execAtomb f s
  | .atome f => Sys2Proof.Machine.execAtome f s
  | .atoma f => Sys2Proof.Machine.execAtoma f s
  | .atomq f => Sys2Proof.Machine.execAtomq f s
  | .commit die => Sys2Proof.Machine.execCommit die s
  | .conflictNotice die line => Sys2Proof.Machine.execConflictNotice die line s
  | .rootsw f => Sys2Proof.Machine.execRootsw f s
  | .rootcpFork f => Sys2Proof.Machine.execRootcpFork f s
  | .rootcpSnap f => Sys2Proof.Machine.execRootcpSnap f s
  | .rootcpDrop f => Sys2Proof.Machine.execRootcpDrop f s
  | .rfrsh f => Sys2Proof.Machine.execRfrsh f s
  | .tnode f => Sys2Proof.Machine.execTnode f s
  | .pgmapFt f => Sys2Proof.Machine.execPgmapFt f s
  | .pgmapCow f => Sys2Proof.Machine.execPgmapCow f s
  | .tret f => Sys2Proof.Machine.execTret f s
  | .tretKill f => Sys2Proof.Machine.execTretKill f s
  | .csrr f => Sys2Proof.Machine.execCsrr f s
  | .csrw f => Sys2Proof.Machine.execCsrw f s
  | .fltq f => Sys2Proof.Machine.execFltq f s
  | .pgreq f => Sys2Proof.Machine.execPgreq f s
  | .pageResponse group code => Sys2Proof.Machine.execPageResponse group code s
  | .faultReply tenant entry reply => Sys2Proof.Machine.execFaultReply tenant entry reply s
  | .launch f => Sys2Proof.Machine.execLaunch f s
  | .emit f => Sys2Proof.Machine.execEmit f s
  | .ndone f => Sys2Proof.Machine.execNdone f s
  | .slotw f => Sys2Proof.Machine.execSlotw f s
  | .prmptStop f => Sys2Proof.Machine.execPrmptStop f s
  | .prmptEvict f => Sys2Proof.Machine.execPrmptEvict f s
  | .slotTableSwap swap => Sys2Proof.Machine.execSlotTableSwap swap s
  | .issueCycle core => Sys2Proof.Machine.execIssueCycle core s
  | .gangWake warp => Sys2Proof.Machine.execGangWake warp s
  | .fetch load line => Sys2Proof.Machine.execFetch load line s
  | .leaseExpiry core line => Sys2Proof.Machine.execLeaseExpiry core line s
  | .writePerform write => Sys2Proof.Machine.execWritePerform write s
  | .writeAck write => Sys2Proof.Machine.execWriteAck write s
  | .releaseIssue held => Sys2Proof.Machine.execReleaseIssue held s
  | .loadReturn load => Sys2Proof.Machine.execLoadReturn load s
  | .rds ph die line => Sys2Proof.Machine.execRds ph die line s
  | .rdx ph die line => Sys2Proof.Machine.execRdx ph die line s
  | .upg ph die line => Sys2Proof.Machine.execUpg ph die line s
  | .wbd ph die line => Sys2Proof.Machine.execWbd ph die line s
  | .evc ph die line => Sys2Proof.Machine.execEvc ph die line s
  | .snpinv die line => Sys2Proof.Machine.execSnpinv die line s
  | .snpfwd die line => Sys2Proof.Machine.execSnpfwd die line s
  | .snpfwdx die line => Sys2Proof.Machine.execSnpfwdx die line s
  | .ackinv ph die line => Sys2Proof.Machine.execAckinv ph die line s
  | .rspd ph die line => Sys2Proof.Machine.execRspd ph die line s
  | .rspi ph die line => Sys2Proof.Machine.execRspi ph die line s
  | .dats die line => Sys2Proof.Machine.execDats die line s
  | .date die line => Sys2Proof.Machine.execDate die line s
  | .datm die line => Sys2Proof.Machine.execDatm die line s
  | .grant die line => Sys2Proof.Machine.execGrant die line s
  | .wback die line => Sys2Proof.Machine.execWback die line s
  | .backInvalidate line => Sys2Proof.Machine.execBackInvalidate line s
  | .hostSnoop ph line inv => Sys2Proof.Machine.execHostSnoop ph line inv s
  | .hostAccess ph acc => Sys2Proof.Machine.execHostAccess ph acc s
  | .hostBarAccess fn ctl acc => Sys2Proof.Machine.execHostBarAccess fn ctl acc s
  | .postedWriteAck write => Sys2Proof.Machine.execPostedWriteAck write s
  | .flushDone warp => Sys2Proof.Machine.execFlushDone warp s
  | .recordRefetch asd node record => Sys2Proof.Machine.execRecordRefetch asd node record s
  | .groupForm asd node => Sys2Proof.Machine.execGroupForm asd node s
  | .coalesceTimeout asd node => Sys2Proof.Machine.execCoalesceTimeout asd node s
  | .dispatch inst => Sys2Proof.Machine.execDispatch inst s
  | .admitTeam core => Sys2Proof.Machine.execAdmitTeam core s
  | .teamRetire team => Sys2Proof.Machine.execTeamRetire team s
  | .instanceComplete inst => Sys2Proof.Machine.execInstanceComplete inst s
  | .preemptRequest inst => Sys2Proof.Machine.execPreemptRequest inst s
  | .warpSave warp => Sys2Proof.Machine.execWarpSave warp s
  | .warpResume warp core => Sys2Proof.Machine.execWarpResume warp core s
  | .quantumExpiry inst => Sys2Proof.Machine.execQuantumExpiry inst s
  | .parkYield inst => Sys2Proof.Machine.execParkYield inst s
  | .reclaimRoot => Sys2Proof.Machine.execReclaimRoot s
  | .correctedError log addr unit tenant => Sys2Proof.Machine.execCorrectedError log addr unit tenant s
  | .uncorrectableError site => Sys2Proof.Machine.execUncorrectableError site s
  | .dirEntryError ph line => Sys2Proof.Machine.execDirEntryError ph line s
  | .hostLinkDown => Sys2Proof.Machine.execHostLinkDown s
  | .ideIntegrityFailure stream => Sys2Proof.Machine.execIdeIntegrityFailure stream s
  | .linkRecover => Sys2Proof.Machine.execLinkRecover s
  | .replay refused => Sys2Proof.Machine.execReplay refused s
  | .disc => Sys2Proof.Machine.execDisc s
  | .cold cause => Sys2Proof.Machine.execCold cause s
  | .warm cause => Sys2Proof.Machine.execWarm cause s
  | .bootStage fw absent => Sys2Proof.Machine.execBootStage fw absent s
  | .thermalTrip stack => Sys2Proof.Machine.execThermalTrip stack s
  | .thermalThrottle block => Sys2Proof.Machine.execThermalThrottle block s
  | .throttleRelease block => Sys2Proof.Machine.execThrottleRelease block s
  | .getVersion => Sys2Proof.Machine.execGetVersion s
  | .getCapabilities => Sys2Proof.Machine.execGetCapabilities s
  | .negotiateAlgorithms slhdsa => Sys2Proof.Machine.execNegotiateAlgorithms slhdsa s
  | .getDigests => Sys2Proof.Machine.execGetDigests s
  | .getCertificate slot => Sys2Proof.Machine.execGetCertificate slot s
  | .challenge nonce => Sys2Proof.Machine.execChallenge nonce s
  | .getMeasurements index => Sys2Proof.Machine.execGetMeasurements index s
  | .keyExchange nonce => Sys2Proof.Machine.execKeyExchange nonce s
  | .finish proof => Sys2Proof.Machine.execFinish proof s
  | .endSession => Sys2Proof.Machine.execEndSession s
  | .ideKm stream key => Sys2Proof.Machine.execIdeKm stream key s
  | .registerWrite agent offset wide value => Sys2Proof.Machine.execRegisterWrite agent offset wide value s
  | .timeBaseTick => Sys2Proof.Machine.execTimeBaseTick s
  | .peerAccess acc => Sys2Proof.Machine.execPeerAccess acc s
  | .backInvalidationResponse line => Sys2Proof.Machine.execBackInvalidationResponse line s
  | .hostCacheResponse line data => Sys2Proof.Machine.execHostCacheResponse line data s
  | .configurationAccess fn acc => Sys2Proof.Machine.execConfigurationAccess fn acc s
  | .linkRetrain unit => Sys2Proof.Machine.execLinkRetrain unit s

end Sys2Proof.Machine
end

