-- ==== Sys2Proof/Machine/Rotation.lean ====
section
/-! DEFINITION. The model's own schedule of the steps that no agent outside the part takes: which are worth
trying in a state, and which is taken next (log 1). -/

namespace Sys2Proof.Machine

/-- The step that takes a message of the coherence protocol. -/
def takeOf (m : Msg) : State → Out :=
  match m.kind with
  | .rds => execRds .take m.die m.line
  | .rdx => execRdx .take m.die m.line
  | .upg => execUpg .take m.die m.line
  | .wbd => execWbd .take m.die m.line
  | .evc => execEvc .take m.die m.line
  | .ackinv => execAckinv .take m.die m.line
  | .rspd => execRspd .take m.die m.line
  | .rspi => execRspi .take m.die m.line
  | .snpinv => execSnpinv m.die m.line
  | .snpfwd => execSnpfwd m.die m.line
  | .snpfwdx => execSnpfwdx m.die m.line
  | .dats => execDats m.die m.line
  | .date => execDate m.die m.line
  | .datm => execDatm m.die m.line
  | .grant => execGrant m.die m.line
  | .wback => execWback m.die m.line

/-- Requests and writes of warps and engines (R129). -/
def State.orderSteps (s : State) : List (State → Out) :=
  s.reqs.flatMap (fun r =>
    execReleaseIssue r.id :: execLoadReturn r.id ::
      (distinct (r.accs.flatMap (fun a => a.left.map (fun i => (a.ta + i) / 64)))).map (fun l => execFetch r.id l)) ++
  s.writes.flatMap (fun w => [execWritePerform w.id, execWriteAck w.id, execPostedWriteAck w.id])

/-- What a die does about a line that it holds, wants or is asked for. -/
def dieSteps (d l : Nat) : List (State → Out) :=
  [execRds .send d l, execRdx .send d l, execUpg .send d l, execAckinv .send d l, execRspd .send d l, execRspi .send d l]

/-- The lines a die is concerned with. -/
def State.dieLines (s : State) (d : Nat) : List Nat :=
  distinct ((s.die d).l2.map (·.1) ++
    (s.reqs.filter (fun r => r.core / 64 == d)).flatMap (fun r =>
      r.accs.flatMap (fun a => a.left.map (fun i => (a.ta + i) / 64))) ++
    (s.writes.filter (fun w => w.die == d && w.place == .die && !w.done)).map (·.line) ++
    (s.die d).commits.flatMap (·.lines))

/-- Coherence: messages, dies, the homes, and what the host answers. -/
def State.coherenceSteps (s : State) : List (State → Out) :=
  s.net.map takeOf ++
  (List.range 8).flatMap (fun d => (s.dieLines d).flatMap (dieSteps d)) ++
  s.dir.flatMap (fun p =>
    [execBackInvalidate p.1, execBackInvalidationResponse p.1,
      execHostCacheResponse p.1 ⟨(List.range 64).map (fun i => (s.mem.get 0 (64 * p.1 + i)).toNat), s.pois.get false p.1⟩,
      execHostSnoop .take p.1 (p.2.hsnp == some true), execDirEntryError .take p.1]) ++
  s.link.pend.map (fun p => execHostAccess .take p.1) ++
  s.cores.flatMap (fun p => p.2.l1.map (fun (q : Nat × Copy) => execLeaseExpiry p.1 q.1))

/-- Engines, arrays and commit engines. -/
def State.engineSteps (s : State) : List (State → Out) :=
  s.ops.flatMap (fun o => [execEngineStart o.id, execCopyElement o.id, execByteAddition o.id, execTokenWrite o.id, execCpyxFollowOn o.id]) ++
  (distinct (s.ops.map (·.core))).flatMap (fun c => [execSequencerStart c, execTileStep c, execTileStop c, execTileResume c]) ++
  s.dies.flatMap (fun p => execCommit p.1 :: p.2.notices.map (fun l => execConflictNotice p.1 l)) ++
  [execReclaimRoot]

/-- Warps and what wakes or stops them. -/
def State.warpSteps (s : State) : List (State → Out) :=
  s.warps.flatMap (fun p =>
    [execGangWake p.1, execFlushDone p.1, execWayKeep p.1, execWarpSave p.1] ++
    (if p.2.placed then [] else (List.range 512).map (fun c => execWarpResume p.1 c)) ++
    p.2.arch.gangs.map (fun g => execSafePointOverdue ⟨p.1, 0, (slicesOf g.slices).headD 0⟩)) ++
  s.tables.map (fun p => execWaitaDeadline (p.1 / 4096) (p.1 % 4096)) ++
  s.prgroups.map (fun g => execPageResponse g.id 0)

/-- The record that the dispatcher reads next for the first time, or the tail on which it waits (R198). -/
def State.nextRecord (s : State) (q : NodeQ) : Option Nat :=
  match s.queueNode q.asd q.node with
  | .error _ => some q.first
  | .ok (x, _) =>
    let d := NodeD.ofNat x
    ((List.range (min (d.tail + 1 - q.first) d.qcap)).map (fun i => q.first + i)).find? (fun r =>
      !q.passed.contains r && !q.refetch.any (fun p => p.1 == r))

/-- The dispatcher. -/
def State.graphSteps (s : State) : List (State → Out) :=
  s.nodes.flatMap (fun q => [execGroupForm q.asd q.node, execCoalesceTimeout q.asd q.node] ++
    (q.refetch.map (·.1) ++ (s.nextRecord q).toList).map (fun r => execRecordRefetch q.asd q.node r)) ++
  s.insts.flatMap (fun p => [execDispatch p.1, execInstanceComplete p.1, execPreemptRequest p.1, execQuantumExpiry p.1, execParkYield p.1]) ++
  s.cores.map (fun p => execAdmitTeam p.1) ++
  s.teams.map (fun p => execTeamRetire p.1) ++
  s.plat.throttled.map (fun p => execThrottleRelease ⟨p.1, false⟩)

/-- Steps that may be possible now; boot goes on by itself. -/
def State.candidates (s : State) : List (State → Out) :=
  if !s.plat.ready then (if s.plat.fail then [] else [execBootStage {} ⟨[], [], []⟩])
  else s.orderSteps ++ s.coherenceSteps ++ s.engineSteps ++ s.warpSteps ++ s.graphSteps

/-- The first of a list that the machine can take. -/
def State.firstOf (s : State) : List (State → Out) → Option State
  | [] => none
  | i :: r => match i s with
    | .next t => some t
    | _ => s.firstOf r

/-- A list begun at another place. -/
def turned {α : Type} (n : Nat) (xs : List α) : List α := xs.drop (n % xs.length) ++ xs.take (n % xs.length)

/-- A core that holds warps, by turns. -/
def State.nextCore (s : State) (n : Nat) : Option Nat :=
  let cs := distinct ((s.warps.filter (fun p => p.2.placed && !p.2.gone)).map (fun p => p.2.core))
  cs[n % cs.length]?

/-- The step that the machine takes by itself: an issue cycle of a core, a step of another agent, and a
nanosecond, by turns. -/
def State.nextEvent (s : State) : State :=
  let n := s.clk.turn
  let s := { s with clk := { s.clk with turn := n + 1 } }
  let other :=
    if n % 3 = 0 then (match s.nextCore (n / 3) with | some c => s.firstOf [execIssueCycle c] | none => none)
    else if n % 3 = 1 then s.firstOf (turned (n / 3) s.candidates)
    else none
  match other with
  | some t => t
  | none => match execTimeBaseTick s with
    | .next t => t
    | _ => s

end Sys2Proof.Machine
end

