-- ==== Sys2Proof/Machine/Step.lean ====
section
/-! DEFINITION. One step: the issuing gang's word, else the next step of the agenda, else one that the machine
takes by itself (log 1). -/

namespace Sys2Proof.Machine

def step (s : State) : Host.Outcome State Fault Refusal :=
  if !s.plat.supply then .fault .outsideOperatingConditions
  else if s.issuing then
    match s.frontEnd with
    | .took t => .next t
    | .run i t => exec i t
  else
    match s.agenda with
    | i :: r =>
      match exec i { s with agenda := r } with
      | .refused _ => .next { s with agenda := r }
      | o => o
    | [] => .next s.nextEvent

/-! ## A program placed from outside (log 2) -/

/-- Where `withFetchWord` puts the nodes of its tree, and the code. -/
def fetchTop : Nat := 0x100000
def fetchPc : Nat := 0x200040

/-- An entry that leads to a node. -/
def treeEntry (pa : Nat) : Nat := pa + 1
/-- A leaf over the first 4 GiB: device memory that can be read, written and fetched outside the handler. -/
def leafEntry : Nat := 0x1F

/-- A part that has booted, with one warp of 32 lanes on core 0 that issues its next word: the bytes of `w`
lie at its PC, the bits above `nbits` zero. -/
def State.withFetchWord (s : State) (nbits w : Nat) : State :=
  let mem := writeBytes s.mem fetchTop (leBytes 8 (treeEntry (fetchTop + 0x800)))
  let mem := writeBytes mem (fetchTop + 0x800) (leBytes 8 (treeEntry (fetchTop + 0x1000)))
  let mem := writeBytes mem (fetchTop + 0x1000) (leBytes 8 leafEntry)
  let mem := writeBytes mem fetchPc (leBytes 12 (w % 2 ^ nbits))
  let slices := List.replicate 8 { pc := BitVec.ofNat 64 fetchPc, mask := 15, fin := false }
  let warp : Warp := {
    alloc := 64, widths := [5], arch := { slices := slices, gangs := [{ slices := 255 }] } }
  { s with
    mem := mem
    plat := { s.plat with bstage := 4, ready := true }
    tenants := s.tenants.set {} 0 { valid := true }
    trees := { s.trees with
      asds := s.trees.asds.set {} 0 { valid := true, curv := true, cur := 0 }
      roots := s.trees.roots.set {} 0 { valid := true, pin := 1, top := fetchTop, curr := true } }
    warps := [(0, warp)]
    teams := [(0, { size := 1024, units := 1 })]
    who := ⟨0, 0, 0⟩
    issuing := true }

end Sys2Proof.Machine
end

