-- ==== Sys2Proof/Safety.lean ====
section
/-! DEFINITION. Runs that stop nowhere, and the terms in which statements about the machine are made. -/

namespace Sys2Proof.Safety
open Sys2Proof.Machine

/-- `k` steps from a state end in a state. -/
def Runs (k : Nat) (s : State) : Prop := ∃ t, Host.Core.run core k s = .next t

/-- The part meets its operating conditions (R24), which no step changes. -/
def Supplied (s : State) : Prop := s.plat.supply = true

/-- A state from which no number of steps ends in a fault or a refusal. -/
def Safe (s : State) : Prop := ∀ k, Runs k s

/-! ## Registers as the running code sees them -/

def vreg (s : State) (n l : Nat) : Word := s.wWarp.getV s.who.way true n l
def greg (s : State) (n : Nat) : Word := s.wWarp.getG s.who.way true n
def preg (s : State) (n l : Nat) : Bool := s.wWarp.getP s.who.way true n l
def gpreg (s : State) (n : Nat) : Bool := s.wWarp.getGp s.who.way true n

/-! ## When a word issues -/

/-- The warp that issues is there. -/
def Present (s : State) : Prop := (s.warps.find s.who.warp).isSome = true

/-- The word's guard lets it do work, its registers lie below the allocation and hold no poison, and the
scoreboard awaits none of them; a chain member was checked at its head (R37, R43, R48, R106, R384). -/
def Issues (s : State) (u : Uses) : Prop :=
  s.doesWork u.com = true ∧
  (s.member = true ∨
    (s.busyReg s.active (guardReg u.com) = false ∧ s.overBound u = false ∧ s.waits? u = false ∧
      s.poisoned u (s.workLanes u.com) = false))

/-! ## What an instruction leaves as it was -/

/-- Nothing outside the issuing warp has changed. -/
structure OnlyWarp (s t : State) : Prop where
  frame  : t = { s with warps := t.warps, issuing := t.issuing }
  others : ∀ u, u ≠ s.who.warp → t.warps.find u = s.warps.find u

/-- A warp without what an instruction's registers, gangs and tags are kept in. -/
def restOf (w : Warp) : Warp := { w with arch := {}, loop := none, trap := none, regions := [] }

/-- A trap record without what the handler changes as it runs: its window, its poison and its count. -/
def savedPart (r : TrapRec) : TrapRec := { r with sup := [], vpois := [], gpois := [], count := 0 }

/-- Of the issuing warp, only registers, flags, PCs, gang counts, chains and tags may have changed. -/
structure OnlyRegisters (s t : State) : Prop extends OnlyWarp s t where
  rest   : restOf t.wWarp = restOf s.wWarp
  trap   : t.wWarp.trap.map savedPart = s.wWarp.trap.map savedPart
  loop   : t.wWarp.loop.isSome = s.wWarp.loop.isSome
  sfmask : t.arch.sfmask = s.arch.sfmask
  exited : t.arch.exited = s.arch.exited
  gangs  : t.arch.gangs.map (fun g => (g.slices, g.park, g.cyc, g.fence)) =
    s.arch.gangs.map (fun g => (g.slices, g.park, g.cyc, g.fence))

/-- The issuing gang's slices have gone on by one word, the others not (R26). -/
structure WentOn (s t : State) : Prop where
  length : t.arch.slices.length = s.arch.slices.length
  slices : ∀ i, i < s.arch.slices.length → t.arch.slice i =
    if s.gang.slices.getLsbD i then { s.arch.slice i with pc := (s.arch.slice i).pc + 12 } else s.arch.slice i

/-! ## What a result leaves in the registers (R35, R36, R39) -/

/-- A vector register after results `r` of the lanes `ls` have been written to `d`. -/
def newV (s : State) (ls : Lanes) (d : Dst) (wide : Bool) (r : Nat → Double) (n l : Nat) : Word :=
  match d with
  | .v m =>
    if ls.getLsbD l && n == m.val then (r l).setWidth 32
    else if ls.getLsbD l && wide && n == m.val + 1 then (r l).extractLsb' 32 32
    else vreg s n l
  | _ => vreg s n l

/-- A scalar register after a U form's result has been written. -/
def newG (s : State) (d : Dst) (wide : Bool) (x : Double) (n : Nat) : Word :=
  match d with
  | .g m =>
    if n = m.val then x.setWidth 32 else if wide && n == m.val + 1 then x.extractLsb' 32 32 else greg s n
  | _ => greg s n

/-- A predicate after results have been written: true for a value that is not 0; p0 is never written. -/
def newP (s : State) (ls : Lanes) (d : Dst) (r : Nat → Double) (n l : Nat) : Bool :=
  match d with
  | .p m => if ls.getLsbD l && n == m.val && n != 0 then (r l).setWidth 32 != 0#32 else preg s n l
  | _ => preg s n l

def newGp (s : State) (d : Dst) (x : Double) (n : Nat) : Bool :=
  match d with
  | .gp m => if n == m.val && n != 0 then x.setWidth 32 != 0#32 else gpreg s n
  | _ => gpreg s n

/-- A register instruction's whole effect: `r` gives each lane's result and flags, `d` is the destination,
`wide` a pair. -/
structure Wrote (s t : State) (c : Common) (d : Dst) (wide : Bool) (r : Nat → Res Double) : Prop
    extends OnlyRegisters s t, WentOn s t where
  vregs : ∀ n l, l < 32 → vreg t n l = newV s (s.calcLanes c) d wide (fun l => (r l).val) n l
  gregs : ∀ n, greg t n = newG s d wide (r s.uLane).val n
  pregs : ∀ n l, n < 8 → l < 32 → preg t n l = newP s (s.calcLanes c) d (fun l => (r l).val) n l
  gps   : ∀ n, n < 8 → gpreg t n = newGp s d (r s.uLane).val n
  flags : t.arch.fstat = (lanesOf (s.calcLanes c)).foldl (fun fl l => fl ||| (r l).fl) s.arch.fstat

/-! ## Completing -/

/-- A well-formed word that issues in a state. -/
structure Ready (i : Instr) (s : State) : Prop where
  wf      : i.wf = true
  present : Present s
  issues  : ∃ u, usesOf i = some u ∧ Issues s u

/-- The state in which an issuing word acts: the word counted and its registers entered in its way's sets. -/
def begun (i : Instr) (s : State) : State :=
  match usesOf i with
  | some u => s.begin u
  | none => s

/-- Wherever it issues, the register instruction completes with `r`'s result and flags in each lane. -/
def Yields (i : Instr) (f : OpA) (ty : Ty) (r : State → Nat → Res Double) : Prop :=
  ∀ s, Ready i s → ∃ t, exec i s = .next t ∧ Wrote s t f.com f.dst ty.wide (r s)

/-- Wherever it issues and `cond` holds as it acts, the instruction completes with the effect `g`. -/
def Acts (i : Instr) (cond : State → Prop) (g : State → State) : Prop :=
  ∀ s, Ready i s → cond (begun i s) → exec i s = .next (s.ended (.done (g (begun i s))))

/-- Wherever it issues and `cond` holds as it acts, the instruction traps for this reason. -/
def Traps (i : Instr) (cond : State → Prop) (t : State → Trap) : Prop :=
  ∀ s, Ready i s → cond (begun i s) → exec i s = .next (s.trap (t (begun i s)))

/-! ## Control -/

/-- Every slice of the issuing gang changed by `f` from the slice and those of its lanes in `E`. -/
def movedBy (b : State) (E : Lanes) (f : Nat → Slice → BitVec 4 → Slice) : State :=
  b.putSlices ((slicesOf b.gang.slices).map (fun i => (i, f i (b.arch.slice i) (sliceBits E i))))

/-- The slices so changed keep within the depth of a token stack (R57). -/
def roomFor (b : State) (E : Lanes) (f : Nat → Slice → BitVec 4 → Slice) : Prop :=
  ∀ i ∈ slicesOf b.gang.slices, (f i (b.arch.slice i) (sliceBits E i)).stack.length ≤ b.depthLimit

/-- Targets that may be branched to (R70): multiples of 12 in global space, or for the handler in the
supervisor window. -/
def targetsOk (b : State) (ls : Lanes) (t : Nat → Double) : Prop :=
  ∀ l ∈ lanesOf ls, (t l).toNat % 12 = 0 ∧
    (regionAt (t l).toNat = .glob ∨ (regionAt (t l).toNat = .phys ∧ b.inHandler = true))

/-- Every slice of the gang has a token stack with this property. -/
def stacksOk (b : State) (E : Lanes) (p : List Token → Bool) : Prop :=
  ∀ i ∈ slicesOf b.gang.slices, sliceBits E i ≠ 0 → p (b.arch.slice i).stack = true

/-- No lane that would work is in a region (R202), and the way is no guess routine (R311). -/
def outsideRegions (b : State) (c : Common) : Prop := b.regionLanes (b.workLanes c) = 0
def plainCode (b : State) (c : Common) : Prop := b.guessing = false ∧ outsideRegions b c

/-! ## Memory words -/

/-- Instructions of one agent only: outside regions, and not in a way that is not the oldest (R202, R315). -/
def oldestCode (b : State) (c : Common) : Prop := outsideRegions b c ∧ b.youngWay = false

/-- The request of an instruction started, or put in its gang's queue behind earlier ones (R137, R138). -/
def sent (b : State) (r : Req) : State :=
  if b.canStart (b.newReq r) then b.bump.start (b.newReq r) else b.bump.putReq (b.newReq r)

/-- The request need not wait at issue: it can start, or it may stand in its gang's queue, behind others or as a
release, where none of its accesses goes through the register window and its gang does not park with a release at
system scope held (R63, R130, R137, R387); and no register it reaches through the window is still to be written. -/
def sendable (b : State) (r : Req) : Prop :=
  (b.canStart (b.newReq r) = true ∨ b.stays (b.newReq r) = false) ∧ b.windowWaits (b.newReq r) = false

/-- It is no release at system scope that waits for the link while that is down, with the warp's other writes
acknowledged (R387). -/
def linkFits (b : State) (r : Req) : Prop :=
  ¬(r.releases = true ∧ r.scope = .system ∧ b.link.down = true ∧ (b.warp r.warp).posted.isSome = true ∧
    (b.warp r.warp).wpend = 0 ∧ b.freed r = true)

/-- The accesses of an instruction whose addresses pass every check (R148), none for one that fails. -/
def accesses (b : State) (f : OpM) (w : Want) (n kind : Nat) (off : Int) : List Acc :=
  match b.accs f w n kind off with
  | .ok as => as
  | .error _ => []

/-- Every check of R148 and R126 passes. -/
def sound (b : State) (f : OpM) (w : Want) (n kind : Nat) (off : Int) (rd : Bool) : Prop :=
  (∃ as, b.accs f w n kind off = .ok as ∧ as ≠ []) ∧ b.scrFails f rd (accesses b f w n kind off) = []

/-- No region is open in the warp and no speculative loop runs. -/
def lone (b : State) : Prop := b.wWarp.regions = [] ∧ b.wWarp.loop = none

/-- The request goes: it starts or is queued, and no failed link stops it. -/
def goes (b : State) (r : Req) : Prop := sendable b r ∧ linkFits b (b.newReq r)

/-- No data that the accesses would read is poisoned (R384). -/
def unpoisoned (b : State) (r : Req) (as : List Acc) : Prop := ∀ a ∈ as, b.accPoison (b.newReq r) a = false

/-! ## Engine operations -/

/-- The operation enrolled: queued at one of its die's copy engines, its root pinned, its token register awaited, and
its way's writes unknown (R20, R143, R170, R313). -/
def enrolled (b : State) (o : EngOp) (tok : Dst) : State :=
  ((({ b.bump with ops := b.ops ++ [{ o with engine := b.pickEngine (o.core / 64) }] }).pin o.root).await o.id tok 1 0).updWay
    (fun y => { y with blocks := distinct (y.blocks ++ [anyBlock]) })

/-- The request by which an operation enters its engine's queue. -/
def opReq (o : EngOp) : Req := { id := 0, warp := 0, kind := .engine o.id, scope := o.scope }

/-- The warp has fewer than 32 operations in flight (R170), and the request goes. -/
def engineFits (b : State) (o : EngOp) (tok : Dst) : Prop :=
  (b.opsOf o.warp).length < 32 ∧ goes (enrolled b o tok) (opReq o)

/-- The operation issued: enrolled, its request sent, the gang at PC + 12. -/
def issued (b : State) (o : EngOp) (tok : Dst) : State := (sent (enrolled b o tok) (opReq o)).advance

/-- A word that issues as one engine operation, wherever `cond` holds. -/
def Launches (i : Instr) (f : OpT) (cond : State → Prop) (o : State → EngOp) : Prop :=
  Acts i (fun b => oldestCode b f.com ∧ cond b ∧ engineFits b (o b) f.tok) (fun b => issued b (o b) f.tok)

/-- The whole warp votes for one format word (R264). -/
def votes (b : State) (f : OpT) (w : Nat) : Prop :=
  b.ganged = true ∧ ∃ l r, lanesOf (b.executing f.com) = l :: r ∧ (b.src32 l f.c).toNat = w ∧
    ∀ k ∈ r, b.src32 k f.c = b.src32 l f.c


/-! ## Messages between dies and homes (R187 to R191) -/

/-- The next message of a kind between a die and the home about a line: none between them about the line is ahead of it
on its channel. `rest` is what stays on the way. -/
def Arrives (s : State) (k : MsgKind) (d l : Nat) (m : Msg) (rest : List Msg) : Prop :=
  ∃ a b, s.net = a ++ m :: b ∧ rest = a ++ b ∧ m.kind = k ∧ m.die = d ∧ m.line = l ∧
    ∀ x ∈ a, x.die = d → x.line = l → x.kind.channel ≠ k.channel

/-- Nothing for the line has a place before this one in the queue of its home (R188): no request of a die, no access of
the host, no write that may go, no operation's own request. -/
def headOfLine (s : State) (l key : Nat) : Prop :=
  (∀ m ∈ s.net, m.line = l → m.kind.request = true → key ≤ homeKey m.time 0 m.die) ∧
  (∀ p ∈ s.link.pend, l ∈ accLines p.1 → key ≤ homeKey p.2 1 0) ∧
  (∀ w ∈ s.writes, w.line = l → w.done = false → w.homed = true → s.firstWrite w = true → key ≤ w.key) ∧
  (∀ o ∈ s.ops, ∀ t, o.home = some (l, t) → key ≤ o.homeKey t)

/-- A request whose turn it is at its home: its line is stable, no host snoop waits at a host line, no earlier request or
eviction of the die for the line is ahead, and nothing else has a place before it in the line's queue (R188). -/
structure Turn (s : State) (k : MsgKind) (d l : Nat) (rest : List Msg) : Prop where
  stable : (s.dirE l).trans = 0
  host   : isHost (64 * l) = true → (s.dirE l).hsnp = none
  first  : ∃ a m b, s.net = a ++ m :: b ∧ rest = a ++ b ∧ m.kind = k ∧ m.die = d ∧ m.line = l ∧
    (∀ x ∈ a, x.die = d → x.line = l → 2 ≤ x.kind.channel) ∧ headOfLine s l (homeKey m.time 0 d)

/-- A started load of a core of the die waits for a byte of the line (R132). -/
def loadWants (s : State) (d l : Nat) : Prop :=
  ∃ r ∈ s.reqs, r.started = true ∧ r.returned = false ∧ r.core / 64 = d ∧
    ∃ a ∈ r.accs, ∃ i ∈ a.left, (a.ta + i) / 64 = l

/-- A write that is performed at the die's L2, other than a clean, waits for the line, or the die's commit engine is to
lock it (R133, R210). -/
def writeWants (s : State) (d l : Nat) : Prop :=
  (∃ w ∈ s.writes, w.done = false ∧ w.place = .die ∧ w.kind ≠ .clean 1 ∧ w.kind ≠ .clean 2 ∧ w.die = d ∧ w.line = l) ∨
  (∃ c, (s.die d).current = some c ∧ c.lines.getD c.locked (2 ^ 80) = l)

/-- No commit has the line locked, and every lease on it has expired (R189, R210). -/
def unleased (s : State) (d l : Nat) : Prop := (s.l2 d l).locked = false ∧ s.leasesOver d l = true

/-- The die could give the line up by itself. -/
def leavable (s : State) (d l : Nat) : Prop :=
  ((s.l2 d l).st = .S ∨ (s.l2 d l).st = .E ∨ (s.l2 d l).st = .M ∨ (s.l2 d l).st = .O) ∧ (s.l2 d l).snoop = none ∧
    unleased s d l

/-- It is a line that goes first: none that its hint puts before it could go (R151). -/
def leavesNext (s : State) (d l : Nat) : Prop :=
  leavable s d l ∧ ∀ p ∈ (s.die d).l2, p.2.rank < (s.l2 d l).rank → ¬leavable s d p.1

/-- Every die could give the line up, or without `inv` pass it on, and no data or grant of it is on its way. -/
def answerable (s : State) (l : Nat) (inv : Bool) : Prop :=
  (∀ m ∈ s.net, m.line = l → m.kind ≠ .dats ∧ m.kind ≠ .date ∧ m.kind ≠ .datm ∧ m.kind ≠ .grant) ∧
  ∀ d, d < 8 → (s.l2 d l).st = .I ∨ (s.l2 d l).st = .IS ∨ (s.l2 d l).st = .IM ∨ (s.l2 d l).st = .MI ∨
    ((s.l2 d l).locked = false ∧ (s.l2 d l).snoop = none ∧ (inv = true → s.leasesOver d l = true))

/-! ## Engines and arrays that go on -/

/-- The home's bank unit may change the line now: no transaction of it is open, no data or grant of it is on its way, no
die locks it or holds a lease on it that has not ended, and the host has no copy of it (R135, R188, R189, R194). -/
structure BankFree (s : State) (l : Nat) : Prop where
  idle : (s.dirE l).trans = 0
  dies : answerable s l true
  host : (s.dirE l).hostc = false

/-- The home's bank unit may carry out the request in this place of the line's queue now (R134, R188, R194). -/
structure HomeTurn (s : State) (l key : Nat) : Prop extends BankFree s l where
  head : headOfLine s l key

/-- An operation's request for a line at its home: in its lane store, and for another part's home, it goes at once; else it
goes in its turn, and leaves the queue. `t` is the state in which it acts. -/
def AtHome (s : State) (o : EngOp) (ta : Nat) (t : State) : Prop :=
  ((isScr ta = true ∨ isRcv ta = true) ∧ t = s) ∨
  (isScr ta = false ∧ isRcv ta = false ∧ t = s.updOp o.id (fun e => { e with home := none }) ∧
    ∃ k, o.home = some (lineOf ta, k) ∧ HomeTurn s (lineOf ta) (o.homeKey k))

/-- A request that has no place yet in the queue of the line's home takes one. -/
def Joins (o : EngOp) (ta : Nat) : Prop :=
  isScr ta = false ∧ isRcv ta = false ∧ ∀ l k, o.home = some (l, k) → l ≠ lineOf ta
def joined (s : State) (o : EngOp) (ta : Nat) : State :=
  s.updOp o.id (fun e => { e with home := some (lineOf ta, s.clk.time) })

/-- 4 ns lie behind a GWCT at the operation's die; 0 stands for no write (R144). -/
def behind (s : State) (o : EngOp) (g : Nat) : Prop := g = 0 ∨ g + 4 ≤ s.dieTime (o.core / 64)

/-- Past its own queue, its captured writes acknowledged and their GWCT + 4 passed (R143). -/
structure Captured (s : State) (o : EngOp) : Prop where
  queued : o.queued = true
  caught : o.caught = []
  passed : o.scope = .warp ∨ o.scope = .core ∨ o.gcap + 4 ≤ s.dieTime (o.core / 64)

/-- Of the operations of its copy engine that could run it entered the queue first (R129, R170). -/
def engineFirst (s : State) (o : EngOp) : Prop :=
  ∀ e ∈ s.ops, e.standing = true → e.core / 64 = o.core / 64 → e.engine = o.engine →
    o.enter < e.enter ∨ (o.enter = e.enter ∧ o.id ≤ e.id)

/-- No fault, eviction or stop holds the operation. -/
def unheld (o : EngOp) : Prop := o.susp = false ∧ o.away = false ∧ o.susc = 0

/-- Every write of the operation has been performed; or every one is acknowledged, with 4 ns behind the largest
GWCT. -/
def performed (s : State) (o : EngOp) : Prop := ∀ w ∈ s.writes, w.op = some o.id → w.done = true
def settled (s : State) (o : EngOp) : Prop := (∀ w ∈ s.writes, w.op ≠ some o.id) ∧ behind s o o.gmax

/-- A copy's next element may be performed: of two halves the second waits until the first is acknowledged (R144, R181,
R330); an element that can overlap an earlier one waits until that is performed (R176). -/
def elementFree (s : State) (o : EngOp) : Prop :=
  if o.next = 1 ∧ (o.func = 4 ∨ o.cls = 0xA) then settled s o
  else (o.cls = 8 ∧ (o.func = 0 ∨ o.func = 5 ∨ o.func = 8)) ∨ performed s o

/-- An operation of the array: a tile operation, ATTN or ATTNQ, or a CPYX whose copy has landed. -/
def ofArray (o : EngOp) : Prop := o.cls = 9 ∨ o.attn = true ∨ (o.cls = 8 ∧ o.func = 5 ∧ o.stage = 1)

/-- The operation's context has not left its core: an unfinished warp of its team is there; or, where its team has none,
one of the context is on some core, or every warp of the context has retired (R267). -/
def placedOn (s : State) (o : EngOp) : Prop :=
  let live (p : Nat × Warp) : Prop := p.2.inst = o.inst ∧ p.2.retired = false
  (∃ p ∈ s.warps, live p ∧ p.2.team = o.team ∧ p.2.placed = true ∧ p.2.core = o.core) ∨
  ((∀ p ∈ s.warps, live p → p.2.team ≠ o.team) ∧ ((∃ p ∈ s.warps, live p ∧ p.2.placed = true) ∨ ∀ p ∈ s.warps, ¬live p))

/-- The operation may start on its core's array, or go on there after a stop: past its captured writes, the first of its
warp, with no copy in flight into what it reads (R143, R265 to R267, R277, R282). -/
structure ArrayReady (s : State) (o : EngOp) : Prop extends Captured s o where
  kind   : ofArray o
  live   : o.code = none ∧ o.susc = 0 ∧ o.cancel = false
  halted : o.started = false ∨ o.susp = true
  placed : placedOn s o
  first  : ∀ e ∈ s.ops, e.queueOp = true → e.warp = o.warp → e.code = none → o.id ≤ e.id
  copies : o.attn = true ∨ s.copiesInto o (s.tileReads o) = false

/-- Of a core's operations that may go on the array it is the one of the highest priority, the first issued among
equals. -/
def ArrayNext (s : State) (core : Nat) (o : EngOp) : Prop :=
  o ∈ s.ops ∧ o.core = core ∧ ArrayReady s o ∧
  ∀ e ∈ s.ops, e.core = core → ArrayReady s e → e = o ∨ e.prio < o.prio ∨ (e.prio = o.prio ∧ o.id < e.id)

/-- A waiting operation of the array that has been cancelled (R184, R279). -/
def withdrawn (s : State) (core : Nat) (o : EngOp) : Prop :=
  o.core = core ∧ ofArray o ∧ o.code = none ∧ o.cancel = true ∧ o.queued = true ∧ (s.core core).seq ≠ some o.id

/-- The running operation must leave the array: cancelled, its context gone from the core, or outranked (R277, R279). -/
def mustLeave (s : State) (o : EngOp) : Prop :=
  o.cancel = true ∨ ¬placedOn s o ∨ ∃ e ∈ s.ops, e.core = o.core ∧ ArrayReady s e ∧ o.prio < e.prio

/-- The spans of a tile operation's operands lie in the scratchpad, and its format and B are such as it takes (R265). -/
def tileFits (s : State) (o : EngOp) (gs : List Group) : Prop :=
  let f := fmtOf o.fmt
  let span := tileSpans o.tileFunc o.opf f (bytesC f.m o.mask)
  f.accepts o.tileFunc = true ∧ o.tc + span.1 ≤ (s.team o.team).size ∧
  (o.tileFunc = 2 ∨ o.ta + span.2 ≤ (s.team o.team).size) ∧
  (o.tileFunc ≤ 1 → (s.team o.team).opst = true ∧ badB f gs = false)

/-! ## The dispatcher -/

/-- A core has room for a team: contexts, one of 64 slots, granules beside the 128 of the L1, L1 lines beside those that
are held, one of 16 launch contexts, and the operand store where the team takes it (R60, R66, R67, R258, R373). -/
def HasRoom (s : State) (c i : Nat) (h : Hdr) (team : Nat) : Prop :=
  let n := (h.warps team).length
  let g := n * (h.alloc / 16) + 2 * h.scr
  n ≤ s.freeContexts c ∧ (s.teamSlots c).length < 64 ∧ g ≤ s.freeGranules c ∧ s.heldLines c + 32 * g ≤ s.l1Lines c ∧
  (i ∈ s.coreInsts c ∨ (s.coreInsts c).length < 16) ∧
  (h.opst = true → ∀ t, (s.core c).osten = some t → t = h.tenant)

/-- A ready instance may be taken: to be refused, or with no conflict of its declared ranges, room for its context, and,
where it has teams, no other instance still sending its own (R286, R290, R291, R373). -/
def startsNow (s : State) (x : Inst) : Prop :=
  s.refusal x ≠ 0 ∨ (s.conflict x = false ∧ s.ctxRoom x.tenant = true ∧
    (x.kind = 1 ∨ x.kind = 2 ∨ ∀ p ∈ s.insts, p.2.sending = false))

/-! ## The front end -/

/-- The walks of the fetch of `n` words of 32 bits at the PC entered in their walker's bitmaps (R349). -/
def walked (s : State) (n : Nat) : State :=
  (List.range n).foldl (fun t i => t.noteVa s.who.warp (addr64 (s.pc.toNat + 4 * i : Nat))) s

/-- The issuing gang with no chain begun. -/
def unchained (s : State) : State := s.updGang (fun g => { g with chain := {} })

/-- A word that has been fetched at the PC, with the other members of its chain, none of whose fetches fails
(R26, R41, R82, R319), and no release of its gang waits for a link that is down (R387). -/
structure Fetched (b : State) (w : BitVec 96) (ws : List (BitVec 96)) : Prop where
  counted : b.overdue 1 = false
  linked  : b.lostRelease = none
  aligned : b.pc.toNat % 12 = 0
  word    : b.fetchAt b.who.warp b.pc.toNat = .ok w
  ending  : b.loopEnding = false ∨ isSpend w = true ∨ b.doesWork (wordCom w) = false
  members : b.members b.who.warp b.pc.toNat w = .ok ws
  handler : b.inHandler = false ∨ b.overdue (1 + ws.length) = false

/-- The head's state as it issues: its chain has begun if it has members. -/
def headed (b : State) (ws : List (BitVec 96)) : State :=
  if ws = [] then b else b.updGang (fun g => { g with chain := { left := ws.length } })

/-! ## What regions shut out (R202) -/

/-- Words that R202 does not permit in a region and that no address of theirs is checked for first. -/
def shutOut : Instr → Bool
  | .nop _ | .bra _ | .rcv _ | .join _ | .safept _ | .safeptRf _ | .yield _ | .trap _ | .bkpt _ => false
  | .atome _ | .atoma _ | .atomq _ | .prf _ | .movi _ | .rget _ | .rput _ => false
  | .ld _ | .st _ | .atom _ | .cas _ | .red _ | .bupd _ | .cctlInv _ | .cctlWb _ | .cctlWbinv _ | .cctlZero _ => false
  | .binit _ | .barv _ | .bwait _ | .barw _ | .bexp _ | .waita _ => false
  | i => i.roleA.isNone

/-- How a word accesses memory: its format with the index it uses, what it accepts, the bytes of a lane, whether it
writes, its offset; and whether R202 shuts it out of a region wherever it reaches. -/
structure Reach where
  f     : OpM
  want  : Want
  len   : Nat
  kind  : Nat
  off   : Int
  never : Bool

/-- The words of a region that are checked after their addresses. -/
def reach : Instr → Option Reach
  | .ld f => some ⟨f, wantLdSt, f.size.bytes, 0, f.off.toInt, f.order != .relaxed⟩
  | .st f => some ⟨f, wantLdSt, f.size.bytes, 1, f.off.toInt, f.order != .relaxed⟩
  | .atom f => some ⟨f, wantAtom (f.dst == .discard && atomCode f != 8), f.size.bytes, 1, (f.off.setWidth 20).toInt, true⟩
  | .cas f => some ⟨noIndex f, wantAtom false, f.size.bytes, 1, f.off.toInt, true⟩
  | .red f => some ⟨f, wantAtom true, f.size.bytes, 1, (f.off.setWidth 20).toInt, true⟩
  | .bupd f => some ⟨f, wantBupd, f.size.bytes, 1, (f.off.setWidth 20).toInt, true⟩
  | .cctlInv f | .cctlWb f | .cctlWbinv f => some ⟨f, wantPrf, 1, 0, f.off.toInt, true⟩
  | .cctlZero f => some ⟨f, wantPrf, 64, 1, f.off.toInt, true⟩
  | .binit f | .barv f | .barw f | .bexp f => some ⟨f, wantBar, 16, 1, f.off.toInt, true⟩
  | .bwait f => some ⟨f, wantBar, 16, 0, f.off.toInt, true⟩
  | .waita f => some ⟨noIndex f, wantBupd, f.size.bytes, 0, f.off.toInt, true⟩
  | _ => none

/-- Words that only a gang which is the whole warp may issue (R163, R166). -/
def wholeWarp : Instr → Bool
  | .binit _ | .barv _ | .bwait _ | .barw _ | .bexp _ | .waita _ => true
  | _ => false

/-- A lane of a region that reaches what R202 shuts out; a U form belongs to every active lane. -/
def shutAt (b : State) (r : Reach) (c : Acc) : Prop :=
  (if r.f.com.u then b.regionLanes b.active ≠ 0 else (b.regionLanes b.active).getLsbD c.lane = true) ∧
    (r.never = true ∨ isDev c.ta = false)
end Sys2Proof.Safety
end

