-- ==== Sys2Proof/Certificates/Slice0/Obligations.lean ====
section
/-! DEFINITION. The statements for the provers. -/


open Sys2Proof Sys2Proof.Machine Sys2Proof.Safety

/-! ## Register instructions (classes 1 to 4). Each completes wherever it issues: its result in each lane, its
flags, PC + 12, and every other register, flag, special register, gang and byte of memory as it was. -/

/-- R92, R93: the exact integer result of each element, wrapped or clamped as R88 and R89 say. -/
def Obligations.IntegerArithmeticCompletes : Prop := ∀ f : OpA,
  Yields (.iadd f) f f.ty (fun s l => perElem f.ty (f.opx.getLsbD 0) (fun a b _ => a + b) (s.src l f.ty f.a) (s.src l f.ty f.b) 0) ∧
  Yields (.isub f) f f.ty (fun s l => perElem f.ty (f.opx.getLsbD 0) (fun a b _ => a - b) (s.src l f.ty f.a) (s.src l f.ty f.b) 0) ∧
  Yields (.imul f) f f.ty (fun s l => perElem f.ty false (fun a b _ => a * b) (s.src l f.ty f.a) (s.src l f.ty f.b) 0) ∧
  Yields (.imulh f) f f.ty (fun s l => perElem f.ty false (fun a b _ => a * b / 2 ^ f.ty.bits) (s.src l f.ty f.a) (s.src l f.ty f.b) 0) ∧
  Yields (.imad f) f f.ty (fun s l => perElem f.ty (f.opx.getLsbD 0) (fun a b c => a * b + c) (s.src l f.ty f.a) (s.src l f.ty f.b) (s.src l f.ty f.c)) ∧
  Yields (.imadw f) f (if f.ty = .s32 then .s64 else .u64) (fun s l =>
    let c := s.src l (if f.ty = .s32 then .s64 else .u64) f.c
    ⟨if f.ty = .s32 then (s.src32 l f.a).signExtend 64 * (s.src32 l f.b).signExtend 64 + c
      else (s.src32 l f.a).setWidth 64 * (s.src32 l f.b).setWidth 64 + c, 0⟩) ∧
  Yields (.imin f) f f.ty (fun s l => perElem f.ty false (fun a b _ => min a b) (s.src l f.ty f.a) (s.src l f.ty f.b) 0) ∧
  Yields (.imax f) f f.ty (fun s l => perElem f.ty false (fun a b _ => max a b) (s.src l f.ty f.a) (s.src l f.ty f.b) 0) ∧
  Yields (.iabs f) f f.ty (fun s l => perElem f.ty (f.opx.getLsbD 0) (fun a _ _ => |a|) (s.src l f.ty f.a) 0 0)

/-- R94, R95: bitwise logic; shifts of the type's width in which an amount of the width or more shifts
everything out. -/
def Obligations.LogicAndShiftsComplete : Prop := ∀ f : OpA,
  Yields (.andL f) f f.ty (fun s l => ⟨s.src l f.ty f.a &&& s.src l f.ty f.b, 0⟩) ∧
  Yields (.orL f) f f.ty (fun s l => ⟨s.src l f.ty f.a ||| s.src l f.ty f.b, 0⟩) ∧
  Yields (.xorL f) f f.ty (fun s l => ⟨s.src l f.ty f.a ^^^ s.src l f.ty f.b, 0⟩) ∧
  Yields (.lop3 f) f f.ty (fun s l =>
    let z := anfBits f.opx.toNat (s.src l f.ty f.a) (s.src l f.ty f.b) (s.src l f.ty f.c)
    ⟨if f.ty.wide then z else (z.setWidth 32).setWidth 64, 0⟩) ∧
  Yields (.shl f) f f.ty (fun s l =>
    let n := (s.src32 l f.b).toNat
    ⟨if f.ty.wide then s.src64 l f.a <<< n else (s.src32 l f.a <<< n).setWidth 64, 0⟩) ∧
  Yields (.shr f) f f.ty (fun s l =>
    let n := (s.src32 l f.b).toNat
    ⟨if f.ty.wide then s.src64 l f.a >>> n else (s.src32 l f.a >>> n).setWidth 64, 0⟩) ∧
  Yields (.sar f) f f.ty (fun s l =>
    let n := (s.src32 l f.b).toNat
    ⟨if f.ty.wide then (s.src64 l f.a).sshiftRight n else ((s.src32 l f.a).sshiftRight n).setWidth 64, 0⟩) ∧
  Yields (.shf f) f .u32 (fun s l =>
    let n := (s.src32 l f.c).toNat
    let x : Double := s.src32 l f.b ++ s.src32 l f.a
    let y : Double :=
      if f.opx.getLsbD 1 then (if f.opx.getLsbD 0 then (x.rotateLeft n).extractLsb' 32 32 else (x.rotateRight n).extractLsb' 0 32).setWidth 64
      else if f.opx.getLsbD 0 then ((x <<< min n 32).extractLsb' 32 32).setWidth 64
      else ((x >>> min n 32).extractLsb' 0 32).setWidth 64
    ⟨y, 0⟩)

/-- R94: counts and reversal of bits. R97 to R99: fields, moves, selection and addresses. -/
def Obligations.FieldsAndMovesComplete : Prop := (∀ f : OpA,
  Yields (.popc f) f .u32 (fun s l => ⟨if f.ty.wide then (s.src64 l f.a).cpop else ((s.src32 l f.a).cpop).setWidth 64, 0⟩) ∧
  Yields (.clz f) f .u32 (fun s l => ⟨if f.ty.wide then (s.src64 l f.a).clz else ((s.src32 l f.a).clz).setWidth 64, 0⟩) ∧
  Yields (.ctz f) f .u32 (fun s l => ⟨if f.ty.wide then (s.src64 l f.a).ctz else ((s.src32 l f.a).ctz).setWidth 64, 0⟩) ∧
  Yields (.brev f) f f.ty (fun s l =>
    ⟨if f.ty.wide then (s.src64 l f.a).reverse else ((s.src32 l f.a).reverse).setWidth 64, 0⟩) ∧
  Yields (.bfx f) f f.ty (fun s l =>
    let n := f.opx.toNat
    let p := (s.src32 l f.b).toNat
    ⟨match f.ty with
      | .s64 => (((s.src64 l f.a).sshiftRight p).setWidth n).signExtend 64
      | .u64 => ((s.src64 l f.a >>> p).setWidth n).setWidth 64
      | .s32 => ((((s.src32 l f.a).sshiftRight p).setWidth n).signExtend 32).setWidth 64
      | _ => ((s.src32 l f.a >>> p).setWidth n).setWidth 64, 0⟩) ∧
  Yields (.bfi f) f f.ty (fun s l =>
    let p := (s.src32 l f.b).toNat
    let field : Double := ((BitVec.allOnes f.opx.toNat).setWidth 64) <<< p
    let x := (s.src l f.ty f.c &&& ~~~ field) ||| (s.src l f.ty f.a <<< p &&& field)
    ⟨if f.ty.wide then x else (x.setWidth 32).setWidth 64, 0⟩) ∧
  Yields (.sel f) f f.ty (fun s l => ⟨if s.src32 l f.c ≠ 0 then s.src l f.ty f.a else s.src l f.ty f.b, 0⟩) ∧
  Yields (.mov f) f f.ty (fun s l => ⟨s.src l f.ty f.a, 0⟩) ∧
  Yields (.lea f) f .u64 (fun s l =>
    let b : Double := match f.ty with
      | .s32 => (s.src32 l f.b).signExtend 64
      | .u32 => (s.src32 l f.b).setWidth 64
      | _ => s.src64 l f.b
    ⟨s.src64 l f.a + b <<< f.opx.toNat, 0⟩)) ∧
  (∀ (f : OpI) (s : State), Ready (.movi f) s → ∃ t, exec (.movi f) s = .next t ∧
    Wrote s t f.com f.dst f.ty.wide (fun _ => ⟨if f.ty = .s64 then f.imm.signExtend 64 else f.imm.setWidth 64, 0⟩))

/-- R100 to R103: dot products of bytes and halves, rounding shifts and clamps, with the saturation flag; their functions,
types, modifiers and group-wide forms. -/
def Obligations.NarrowArithmeticCompletes : Prop := ∀ f : OpA,
  Yields (.idp4 f) f .u32 (fun s l =>
    let sa := f.ty == .s8x4
    let sb := if f.opx.getLsbD 0 then !sa else sa
    let byte (x : Src) (i : Nat) : Nat := (s.src l f.ty x).toNat / 2 ^ (8 * i)
    let n := valOf 32 (sa || sb) (s.src32 l f.c).toNat +
      (valOf 8 sa (byte f.a 0) * valOf 8 sb (byte f.b 0) + valOf 8 sa (byte f.a 1) * valOf 8 sb (byte f.b 1) +
        valOf 8 sa (byte f.a 2) * valOf 8 sb (byte f.b 2) + valOf 8 sa (byte f.a 3) * valOf 8 sb (byte f.b 3))
    let r := storeInt 32 (sa || sb) (f.opx.getLsbD 1) n
    ⟨BitVec.ofNat 64 r.val, r.fl⟩) ∧
  Yields (.pmac2 f) f .u32 (fun s l =>
    let sg := f.ty == .s16x2
    let half (x : Src) (i : Nat) : Int := valOf 16 sg ((s.src l f.ty x).toNat / 2 ^ (16 * i))
    let n := valOf 32 sg (s.src32 l f.c).toNat + half f.a 0 * half f.b 0 + half f.a 1 * half f.b 1
    let r := storeInt 32 sg true n
    ⟨BitVec.ofNat 64 r.val, r.fl⟩) ∧
  Yields (.sarn f) f f.ty (fun s l =>
    let a := valOf f.ty.bits true (s.src l f.ty f.a).toNat
    let m := (roundInt f.rnd (decide (a < 0)) a.natAbs (-((s.src32 l f.b).toNat : Int)) false).1
    let n := f.opxBits 1 6 + 1
    let r := if f.opx.getLsbD 0 then clampInt m (-2 ^ (n - 1)) (2 ^ (n - 1) - 1) else ⟨m, 0⟩
    ⟨BitVec.ofNat 64 (r.val % 2 ^ f.ty.bits).toNat, r.fl⟩) ∧
  Yields (.isat f) f f.ty (fun s l =>
    let n := f.opxBits 0 6 + 1
    let a := valOf f.ty.bits (signedTy f.ty) (s.src l f.ty f.a).toNat
    let r := if f.opx.getLsbD 6 then clampInt a 0 (2 ^ n - 1) else clampInt a (-2 ^ (n - 1)) (2 ^ (n - 1) - 1)
    ⟨BitVec.ofNat 64 (r.val % 2 ^ f.ty.bits).toNat, r.fl⟩) ∧
  ((∀ w, encode (.idp4 f) = some w → w.extractLsb' 86 10 = 64 + 27) ∧ (∀ w, encode (.pmac2 f) = some w → w.extractLsb' 86 10 = 64 + 28) ∧
    (∀ w, encode (.sarn f) = some w → w.extractLsb' 86 10 = 64 + 29) ∧ (∀ w, encode (.isat f) = some w → w.extractLsb' 86 10 = 64 + 30)) ∧
  ((Instr.idp4 f).wf = true → (f.ty = .s8x4 ∨ f.ty = .u8x4) ∧ f.opx.toNat < 4) ∧
  ((Instr.pmac2 f).wf = true → (f.ty = .s16x2 ∨ f.ty = .u16x2) ∧ f.opx = 0) ∧
  ((Instr.sarn f).wf = true → (f.ty = .s32 ∨ f.ty = .s64) ∧ f.opxBits 1 6 < f.ty.bits ∧ (f.opx.getLsbD 0 = false → f.opxBits 1 6 = 0)) ∧
  ((Instr.isat f).wf = true → (f.ty = .s32 ∨ f.ty = .u32 ∨ f.ty = .s64 ∨ f.ty = .u64) ∧ f.opxBits 0 6 < f.ty.bits) ∧
  (∃ x y z w : OpA, (x.com.u && y.com.u && z.com.u && w.com.u && (Instr.idp4 x).wf && (Instr.pmac2 y).wf && (Instr.sarn z).wf &&
    (Instr.isat w).wf) = true)

/-- R104, R105: an index inside its bound names the register read or written, each lane its own; the pair's
lower register is even. -/
def Obligations.IndexedRegistersComplete : Prop := ∀ (f : OpA) (s : State),
  let index (l : Nat) : Nat :=
    let n := (s.src32 l f.a + s.src32 l f.b).toNat
    if f.ty.wide then n - n % 2 else n
  let top (l : Nat) : Nat := if f.ty.wide then index l + 1 else index l
  let b (i : Instr) : State := begun i s
  let free (i : Instr) : Prop :=
    ∀ l ∈ lanesOf (s.calcLanes f.com),
      (if f.com.u then top l < 64 else top l < s.wWarp.alloc ∨ (s.inHandler = true ∧ top l < 32)) ∧
      (indexed f (b i) l).any (fun r => (b i).busyReg (maskOf [l]) r || (b i).lateReg (maskOf [l]) r) = false
  (Ready (.rget f) s → free (.rget f) →
    (∀ l ∈ lanesOf (s.calcLanes f.com), (b (.rget f)).poisoned ⟨f.com, indexed f s l, []⟩ (maskOf [l]) = false) →
    ∃ t, exec (.rget f) s = .next t ∧
      Wrote s t f.com f.dst f.ty.wide (fun l => ⟨s.src l f.ty (indexSrc f (index l)), 0⟩)) ∧
  (Ready (.rput f) s → free (.rput f) → ∃ t, exec (.rput f) s = .next t ∧ OnlyRegisters s t ∧ WentOn s t ∧
    (∀ n l, l < 32 → vreg t n l =
      if f.com.u = false ∧ (s.executing f.com).getLsbD l = true ∧ n = index l then (s.src l f.ty f.c).setWidth 32
      else if f.com.u = false ∧ (s.executing f.com).getLsbD l = true ∧ f.ty.wide = true ∧ n = index l + 1 then
        (s.src l f.ty f.c).extractLsb' 32 32
      else vreg s n l) ∧
    (∀ n, greg t n =
      if f.com.u = true ∧ n = index s.uLane then (s.src s.uLane f.ty f.c).setWidth 32
      else if f.com.u = true ∧ f.ty.wide = true ∧ n = index s.uLane + 1 then (s.src s.uLane f.ty f.c).extractLsb' 32 32
      else greg s n) ∧
    (∀ n l, n < 8 → l < 32 → preg t n l = preg s n l) ∧ (∀ n, n < 8 → gpreg t n = gpreg s n) ∧
    t.arch.fstat = s.arch.fstat)

/-- R107 to R110: compares with their combination, three-input logic of truths, and predicates moved as a byte;
`PMOV.set` writes only the predicates that its mask names. -/
def Obligations.PredicatesComplete : Prop := ∀ f : OpA,
  let comb (c z : Bool) : Bool := match f.opxBits 3 2 with | 0 => z | 1 => z && c | 2 => z || c | _ => z ^^ c
  let bool (z : Bool) : Double := if z then 1 else 0
  Yields (.isetp f) f .u32 (fun s l =>
    let a := valOf f.ty.bits (signedTy f.ty) (s.src l f.ty f.a).toNat
    let b := valOf f.ty.bits (signedTy f.ty) (s.src l f.ty f.b).toNat
    let z := match f.opxBits 0 3 with
      | 0 => decide (a = b) | 1 => decide (a ≠ b) | 2 => decide (a < b) | 3 => decide (a ≤ b) | 4 => decide (a > b)
      | _ => decide (a ≥ b)
    ⟨bool (comb (s.src32 l f.c != 0) z), 0⟩) ∧
  Yields (.fsetp f) f .u32 (fun s l =>
    let r := cmpFloat (f.opxBits 0 3) ((ffmtOf f.ty).value (s.src l f.ty f.a).toNat) ((ffmtOf f.ty).value (s.src l f.ty f.b).toNat)
    ⟨bool (comb (s.src32 l f.c != 0) r.val), r.fl⟩) ∧
  Yields (.plop f) f .u32 (fun s l =>
    let a := s.src32 l f.a != 0
    let b := s.src32 l f.b != 0
    let c := s.src32 l f.c != 0
    let k (i : Nat) : Bool := f.opx.getLsbD i
    ⟨bool (k 0 ^^ (k 1 && a) ^^ (k 2 && b) ^^ (k 3 && c) ^^ (k 4 && a && b) ^^ (k 5 && a && c) ^^ (k 6 && b && c) ^^
      (k 7 && a && b && c)), 0⟩) ∧
  Yields (.pmovGet f) f .u32 (fun s l =>
    ⟨(List.range 8).foldl (fun x i => if (if f.com.u then gpreg s i else preg s i l) then x ||| 1 <<< i else x) 0, 0⟩) ∧
  (∀ s, Ready (.pmovSet f) s → ∃ t, exec (.pmovSet f) s = .next t ∧ OnlyRegisters s t ∧ WentOn s t ∧
    (∀ n l, l < 32 → vreg t n l = vreg s n l) ∧ (∀ n, greg t n = greg s n) ∧
    (∀ n l, n < 8 → l < 32 → preg t n l =
      if f.com.u = false ∧ (s.executing f.com).getLsbD l = true ∧ n ≠ 0 ∧ f.opx.getLsbD n = true then
        (s.src32 l f.a).getLsbD n
      else preg s n l) ∧
    (∀ n, n < 8 → gpreg t n =
      if f.com.u = true ∧ n ≠ 0 ∧ f.opx.getLsbD n = true then (s.src32 s.uLane f.a).getLsbD n else gpreg s n) ∧
    t.arch.fstat = s.arch.fstat)

/-- R111 to R117: values combined across the participants, the executing lanes or in a U form the active ones; of a U
form VOTE reads a p register in each of them, and any other source once (R39, R112). -/
def Obligations.CrossLaneCompletes : Prop := ∀ f : OpA,
  let parts (s : State) : Lanes := if f.com.u then s.active else s.executing f.com
  Yields (.vote f) f .u32 (fun s _ =>
    let a (k : Nat) : Word := match f.a with
      | .p _ => s.src32 k f.a
      | _ => s.src32 (if f.com.u then s.uLane else k) f.a
    let yes := maskOf ((lanesOf (parts s)).filter (fun k => a k != 0))
    ⟨match f.opxBits 0 2 with
      | 0 => if yes = parts s then 1 else 0
      | 1 => if yes ≠ 0 then 1 else 0
      | 2 => if yes = parts s ∨ yes = 0 then 1 else 0
      | _ => yes.setWidth 64, 0⟩) ∧
  Yields (.shfl f) f f.ty (fun s l =>
    let z := 2 ^ f.opxBits 2 3
    let b := (s.src32 l f.b).toNat
    let valid := match f.opxBits 0 2 with | 1 => decide (b ≤ l % z) | 2 => decide (l % z + b < z) | _ => true
    let k := match f.opxBits 0 2 with | 0 => l - l % z + b % z | 1 => l - b | 2 => l + b | _ => l ^^^ (b % z)
    ⟨if valid && (parts s).getLsbD k then s.src k f.ty f.a else s.src l f.ty f.c, 0⟩) ∧
  Yields (.slide f) f f.ty (fun s l =>
    let ps := lanesOf (parts s)
    let m := (s.src32 (ps.headD 0) f.b).toNat
    let j := (ps.filter (· < l)).length
    ⟨if f.opx.getLsbD 0 then (if j + m < ps.length then s.src (ps.getD (j + m) 0) f.ty f.a else s.src l f.ty f.c)
      else if m ≤ j then s.src (ps.getD (j - m) 0) f.ty f.a else s.src l f.ty f.c, 0⟩) ∧
  Yields (.redux f) f f.ty (fun s _ =>
    reduce f.ty (f.opxBits 0 3) (f.opx.getLsbD 3) ((lanesOf (parts s)).map (fun k => s.src k f.ty f.a))) ∧
  Yields (.scan f) f f.ty (fun s l =>
    reduce f.ty (f.opxBits 0 3) (f.opx.getLsbD 3)
      (((lanesOf (parts s)).filter (fun k => decide (k < l) || (!f.opx.getLsbD 4 && decide (k = l)))).map
        (fun k => s.src k f.ty f.a))) ∧
  Yields (.matchL f) f .u32 (fun s l =>
    let same := maskOf ((lanesOf (parts s)).filter (fun k => s.src k f.ty f.a == s.src l f.ty f.a))
    ⟨if f.opx.getLsbD 0 then (if same = parts s then (parts s).setWidth 64 else 0) else same.setWidth 64, 0⟩) ∧
  Yields (.prmt f) f .u32 (fun s l =>
    let x : Double := s.src32 l f.b ++ s.src32 l f.a
    let out (i : Nat) : Byte :=
      let k : Byte := (s.src32 l f.c).extractLsb' (8 * i) 8
      let b : Byte := x.extractLsb' (8 * (k.toNat % 8)) 8
      if k.getLsbD 6 then 0xFF else if k.getLsbD 5 then 0 else if k.getLsbD 4 then (if b.msb then 0xFF else 0) else b
    ⟨(out 3 ++ out 2 ++ out 1 ++ out 0 : BitVec 32).setWidth 64, 0⟩)

/-- R240 to R245: single-precision results, exact and rounded once, with their flags. -/
def Obligations.FloatArithmeticCompletes : Prop := ∀ f : OpA,
  let x (s : State) (l : Nat) : FVal := fmtF32.value (s.src l .f32 f.a).toNat
  let y (s : State) (l : Nat) : FVal := fmtF32.value (s.src l .f32 f.b).toNat
  let out (r : Res Nat) : Res Double := ⟨BitVec.ofNat 64 r.val, r.fl⟩
  let fun1 (g : FVal → Res FVal) (s : State) (l : Nat) : Res Double := out (rounded fmtF32 f.rnd (g (x s l)))
  Yields (.fadd f) f .f32 (fun s l => out (fadd fmtF32 f.rnd (x s l) (y s l))) ∧
  Yields (.fsub f) f .f32 (fun s l => out (fadd fmtF32 f.rnd (x s l) (y s l).neg)) ∧
  Yields (.fmul f) f .f32 (fun s l => out (fmul fmtF32 f.rnd (x s l) (y s l))) ∧
  Yields (.ffma f) f .f32 (fun s l => out (ffma fmtF32 f.rnd (x s l) (y s l) (fmtF32.value (s.src l .f32 f.c).toNat))) ∧
  Yields (.fmin f) f .f32 (fun s l => ⟨BitVec.ofNat 64 (fminmax fmtF32 false (s.src l .f32 f.a).toNat (s.src l .f32 f.b).toNat), 0⟩) ∧
  Yields (.fmax f) f .f32 (fun s l => ⟨BitVec.ofNat 64 (fminmax fmtF32 true (s.src l .f32 f.a).toNat (s.src l .f32 f.b).toNat), 0⟩) ∧
  Yields (.frcp f) f .f32 (fun1 frcp) ∧ Yields (.frsq f) f .f32 (fun1 frsq) ∧
  Yields (.fsqrt f) f .f32 (fun1 fsqrt) ∧ Yields (.fexp2 f) f .f32 (fun1 fexp2) ∧
  Yields (.flog2 f) f .f32 (fun1 flog2) ∧
  Yields (.fclass f) f .u32 (fun s l =>
    ⟨BitVec.ofNat 64 (2 ^ classBit (ffmtOf f.ty) (s.src l f.ty f.a).toNat &&& f.opx.toNat), 0⟩) ∧
  Yields (.fscale f) f .f32 (fun s l => out (fmtF32.round f.rnd (match x s l with
    | .fin n m e c => .fin n m (e + (s.src32 l f.b).toInt) c
    | v => v))) ∧
  Yields (.frnd f) f .f32 (fun s l => match x s l with
    | .fin n m e c =>
      if m = 0 then ⟨s.src l .f32 f.a, 0⟩
      else ⟨BitVec.ofNat 64 (fmtF32.round .rn (.fin n (roundInt f.rnd n m e c).1.natAbs 0 false)).val,
        if f.opx.getLsbD 0 && !(roundInt f.rnd n m e c).2 then flNX else 0⟩
    | v => ⟨BitVec.ofNat 64 (fmtF32.round f.rnd v).val, 0⟩)

/-- R246, R247: each half on its own, flags combined; the dot product of halves rounded once. -/
def Obligations.PackedFloatCompletes : Prop := ∀ f : OpA,
  let half (s : State) (l : Nat) (x : Src) (i : Nat) : Nat := ((s.src l f.ty x).extractLsb' (16 * i) 16).toNat
  let val (s : State) (l : Nat) (x : Src) (i : Nat) : FVal := (ffmtOf f.ty).value (half s l x i)
  let both (r : Nat → Res Nat) : Res Double :=
    ⟨(BitVec.ofNat 16 (r 1).val ++ BitVec.ofNat 16 (r 0).val : BitVec 32).setWidth 64, (r 0).fl ||| (r 1).fl⟩
  Yields (.hadd2 f) f f.ty (fun s l => both (fun i => fadd (ffmtOf f.ty) f.rnd (val s l f.a i) (val s l f.b i))) ∧
  Yields (.hmul2 f) f f.ty (fun s l => both (fun i => fmul (ffmtOf f.ty) f.rnd (val s l f.a i) (val s l f.b i))) ∧
  Yields (.hfma2 f) f f.ty (fun s l =>
    both (fun i => ffma (ffmtOf f.ty) f.rnd (val s l f.a i) (val s l f.b i) (val s l f.c i))) ∧
  Yields (.hmin2 f) f f.ty (fun s l => both (fun i => ⟨fminmax (ffmtOf f.ty) false (half s l f.a i) (half s l f.b i), 0⟩)) ∧
  Yields (.hmax2 f) f f.ty (fun s l => both (fun i => ⟨fminmax (ffmtOf f.ty) true (half s l f.a i) (half s l f.b i), 0⟩)) ∧
  Yields (.fdot2 f) f .f32 (fun s l =>
    let z := fmtF32.value (s.src l .f32 f.c).toNat
    let p := mulFVal (val s l f.a 0) (val s l f.b 0)
    let q := mulFVal (val s l f.a 1) (val s l f.b 1)
    let r : Res Nat :=
      if (val s l f.a 0).isNan || (val s l f.a 1).isNan || (val s l f.b 0).isNan || (val s l f.b 1).isNan || z.isNan then
        ⟨fmtF32.nanBits, 0⟩
      else if p.2 || q.2 then ⟨fmtF32.nanBits, flNV⟩
      else rounded fmtF32 f.rnd (sumFVal f.rnd [z, p.1, q.1])
    ⟨BitVec.ofNat 64 r.val, r.fl⟩)

/-- R248 to R256: conversions between the number formats. -/
def Obligations.ConversionsComplete : Prop := ∀ f : OpA,
  let out (r : Res Nat) : Res Double := ⟨BitVec.ofNat 64 r.val, r.fl⟩
  let fmt : FFmt := ffmtOf f.ty
  let half (x : Double) (i : Nat) : Nat := (x.extractLsb' (16 * i) 16).toNat
  let both (r : Nat → Res Nat) : Res Double :=
    ⟨(BitVec.ofNat 16 (r 1).val ++ BitVec.ofNat 16 (r 0).val : BitVec 32).setWidth 64, (r 0).fl ||| (r 1).fl⟩
  Yields (.cvt f) f f.ty (fun s l => out
    (if f.st.int then fmt.round f.rnd (FVal.ofInt (valOf f.st.bits (signedTy f.st) (s.src l f.st f.a).toNat))
      else toInt f.ty.bits (signedTy f.ty) f.rnd ((ffmtOf f.st).value (s.src l f.st f.a).toNat))) ∧
  Yields (.fcvt f) f f.ty (fun s l =>
    if f.ty.packedFloat then both (fun i => fmt.round f.rnd ((ffmtOf f.st).value (half (s.src l f.st f.a) i)))
    else out (fmt.round f.rnd ((ffmtOf f.st).value (s.src l f.st f.a).toNat))) ∧
  Yields (.pk2 f) f f.ty (fun s l => both (fun i =>
    let x := if i = 0 then f.a else f.b
    if f.ty.packedFloat then fmt.round f.rnd (fmtF32.value (s.src l .f32 x).toNat)
    else storeInt 16 (f.ty == .s16x2) true (s.src32 l x).toInt)) ∧
  Yields (.upk2 f) f .u32 (fun s l =>
    let h := half (s.src l f.ty f.a) f.opx.toNat
    if f.ty.packedFloat then ⟨BitVec.ofNat 64 (fmtF32.round .rn (fmt.value h)).val, 0⟩
    else if f.ty = .s16x2 then ⟨(((BitVec.ofNat 16 h).signExtend 32).setWidth 64), 0⟩ else ⟨BitVec.ofNat 64 h, 0⟩) ∧
  Yields (.e10enc f) f .u32 (fun s l => out (e10Encode f.rnd (fmtF32.value (s.src l .f32 f.a).toNat).abs)) ∧
  Yields (.e10dec f) f .f32 (fun s l =>
    let r := e10Value (half (s.src l .u32 f.a) 0)
    ⟨BitVec.ofNat 64 (fmtF32.round .rn r.val).val, r.fl⟩) ∧
  Yields (.rnsenc f) f .u32 (fun s l => ⟨(rnsEncode (s.src32 l f.a).toInt).val.setWidth 64, (rnsEncode (s.src32 l f.a).toInt).fl⟩) ∧
  Yields (.rnsdec f) f .s32 (fun s l => ⟨(reconstruct (s.src32 l f.a).toNat).val.setWidth 64, (reconstruct (s.src32 l f.a).toNat).fl⟩) ∧
  Yields (.qnt f) f .s32 (fun s l =>
    let r := quantise (lqBits f.opx.toNat) f.rnd (fmt.value (s.src l f.ty f.a).toNat) (e10Value (half (s.src l .u32 f.b) 0))
    ⟨(BitVec.ofInt 32 r.val).setWidth 64, r.fl⟩) ∧
  Yields (.dqnt f) f .f32 (fun s l =>
    out (dequantise ((s.src32 l f.a).setWidth (lqBits f.opx.toNat)).toInt (e10Value (half (s.src l .u32 f.b) 0))))

/-! ## Control (class 0) -/

/-- R68, R72 to R78: each slice of the gang moves on its own, then the gang parts by PC. A token holds 56 bits of PC; that
the byte above them stays that of the slice is the model's choice (log 12). -/
def Obligations.BranchesComplete : Prop := ∀ f : OpB,
  let t (b : State) : Double := b.pc + 12 * f.off.signExtend 64
  let at' (b : State) (l : Nat) : Double := b.src64 (if f.com.u then b.uLane else l) f.a
  let bra (b : State) (_ : Nat) (x : Slice) (E : BitVec 4) : Slice :=
    if E = x.mask then { x with pc := t b }
    else if E ≠ 0 then { x with mask := x.mask &&& ~~~ E, pc := b.pc + 12, stack := ⟨0, E, (t b).setWidth 56⟩ :: x.stack }
    else { x with pc := b.pc + 12 }
  let brx (b : State) (i : Nat) (x : Slice) (E : BitVec 4) : Slice :=
    x.splitBy E (b.pc + 12) (fun j => at' b (4 * i + j))
  let rcv (b : State) (k : Nat) (_ : Nat) (x : Slice) (_ : BitVec 4) : Slice :=
    { x with pc := b.pc + 12, stack := ⟨k, x.mask, (t b).setWidth 56⟩ :: x.stack }
  let pop (_ : Nat) (x : Slice) (_ : BitVec 4) : Slice :=
    match x.stack with
    | k :: r => Slice.settle { x with mask := k.mask, pc := x.pc.extractLsb' 56 8 ++ k.pc, stack := r }
    | [] => x
  let next (b : State) (_ : Nat) (x : Slice) (_ : BitVec 4) : Slice := { x with pc := t b }
  Acts (.nop f) (fun _ => True) State.advance ∧
  (f.com.u = true → Acts (.bra f) (fun b => targetsOk b b.active (fun _ => t b)) (fun b => movedBy b 0 (next b))) ∧
  (f.com.u = false → Acts (.bra f)
    (fun b => targetsOk b (b.executing f.com) (fun _ => t b) ∧ roomFor b (b.executing f.com) (bra b))
    (fun b => movedBy b (b.executing f.com) (bra b))) ∧
  (f.com.u = true → Acts (.brx f) (fun b => plainCode b f.com ∧ targetsOk b b.active (at' b))
    (fun b => movedBy b 0 (fun _ x _ => { x with pc := at' b 0 }))) ∧
  (f.com.u = false → Acts (.brx f)
    (fun b => plainCode b f.com ∧ targetsOk b (b.executing f.com) (at' b) ∧ roomFor b (b.executing f.com) (brx b))
    (fun b => movedBy b (b.executing f.com) (brx b))) ∧
  Acts (.rcv f) (fun b => targetsOk b b.active (fun _ => t b) ∧ roomFor b b.active (rcv b 0))
    (fun b => movedBy b b.active (rcv b 0)) ∧
  Acts (.join f) (fun b => (∀ i ∈ slicesOf b.gang.slices, (b.arch.slice i).stack ≠ []) ∧ roomFor b b.active pop)
    (fun b => movedBy b b.active pop) ∧
  Acts (.loop f) (fun b => plainCode b f.com ∧ targetsOk b b.active (fun _ => t b) ∧ roomFor b b.active (rcv b 1))
    (fun b => movedBy b b.active (rcv b 1)) ∧
  Acts (.next f)
    (fun b => plainCode b f.com ∧ targetsOk b b.active (fun _ => t b) ∧ roomFor b b.active (next b) ∧
      ∀ i ∈ slicesOf b.gang.slices, ((b.arch.slice i).stack.head?.map (fun k => k.kind)) = some 1)
    (fun b => movedBy b b.active (next b))

/-- R75 to R77: lanes leave a loop, a call or the program; the rest go on, and a slice left without lanes
settles. -/
def Obligations.CallsAndExitsComplete : Prop := ∀ f : OpB,
  let t (b : State) : Double := b.pc + 12 * f.off.signExtend 64
  let go (b : State) (x : Slice) : Slice := if x.mask = 0 then x.settle else { x with pc := b.pc + 12 }
  let out (k : Option Nat) (b : State) (_ : Nat) (x : Slice) (E : BitVec 4) : Slice :=
    if E = 0 then { x with pc := b.pc + 12 } else go b (x.remove E k)
  let call (b : State) (x : Slice) (E : BitVec 4) : Slice :=
    { x with mask := E, pc := t b, stack := ⟨2, x.mask, (b.pc + 12).setWidth 56⟩ :: x.stack }
  let callF (b : State) (_ : Nat) (x : Slice) (E : BitVec 4) : Slice :=
    if E = 0 then { x with pc := b.pc + 12 } else call b x E
  let callxF (b : State) (i : Nat) (x : Slice) (E : BitVec 4) : Slice :=
    if E = 0 then { x with pc := b.pc + 12 }
    else (call b x E).splitBy E (b.pc + 12) (fun j => b.src64 (4 * i + j) f.a)
  Acts (.brk f)
    (fun b => plainCode b f.com ∧ stacksOk b (b.executing f.com) loopOk ∧ roomFor b (b.executing f.com) (out (some 1) b))
    (fun b => movedBy b (b.executing f.com) (out (some 1) b)) ∧
  Acts (.call f)
    (fun b => plainCode b f.com ∧ targetsOk b (b.executing f.com) (fun _ => t b) ∧ roomFor b (b.executing f.com) (callF b))
    (fun b => movedBy b (b.executing f.com) (callF b)) ∧
  Acts (.callx f)
    (fun b => plainCode b f.com ∧ targetsOk b (b.executing f.com) (fun l => b.src64 l f.a) ∧
      roomFor b (b.executing f.com) (callxF b))
    (fun b => movedBy b (b.executing f.com) (callxF b)) ∧
  Acts (.ret f)
    (fun b => plainCode b f.com ∧ stacksOk b (b.executing f.com) (fun st => st.any (fun k => k.kind == 2)) ∧
      roomFor b (b.executing f.com) (out (some 2) b))
    (fun b => movedBy b (b.executing f.com) (out (some 2) b)) ∧
  Acts (.exit f)
    (fun b => outsideRegions b f.com ∧ (b.wWarp.loop.isSome && !b.inHandler) = false ∧
      roomFor b (b.executing f.com) (out none b))
    (fun b => movedBy (b.updArch (fun a => { a with exited := a.exited ||| b.executing f.com })) (b.executing f.com) (out none b))

/-- R79 to R84: gangs meet again, safe points, yields and software traps. A gang that stops at a safe point keeps the
entry that its live-set table then holds (R288). That SAFEPT.rf re-pins whether it stops or not, and that one which stops
reads its table through the root pinned before, is the model's choice (log 122). -/
def Obligations.GangControlCompletes : Prop := ∀ f : OpB,
  let n := f.imm.toNat % 65536
  let table (b : State) : Nat := b.wWarp.lstab
  let entry (b : State) : Except Nat Nat := b.readVirt b.who.warp (table b + 8 + 64 * n) 64
  let reset (b : State) : State :=
    let w := if b.stopsHere then (b.noteVa b.who.warp (table b)).noteVa b.who.warp (table b + 8 + 64 * n) else b
    if w.regionLanes w.active = 0 then w.updGang (fun g => { g with count := 0 }) else w
  let safe (b r : State) : State :=
    if b.stopsHere then r.advance.park (.safept (match entry b with | .ok x => x | .error _ => 0)) else r.advance
  let listed (b : State) : Prop :=
    b.guessing = false ∧ (b.stopsHere = true → (∃ k, b.readVirt b.who.warp (table b) 8 = .ok k ∧ n < k) ∧
      ∃ x, entry b = .ok x)
  Acts (.regang f) (fun b => plainCode b f.com) (fun b => (b.park .regang).settleRegang b.who.warp b.who.way) ∧
  Acts (.safept f) listed (fun b => safe b (reset b)) ∧
  Acts (.safeptRf f) listed (fun b => safe b ((reset b).repin b.who.warp)) ∧
  Acts (.yield f) (fun b => b.guessing = false)
    (fun b => b.advance.updGang (fun g => { g with cyc := if f.imm = 0 then 1 else f.imm.toNat + 2 })) ∧
  Traps (.trap f) (fun b => b.youngWay = false)
    (fun b => { cause := 0x12, lanes := b.executing f.com, code := f.imm.toNat }) ∧
  Traps (.bkpt f) (fun b => b.youngWay = false)
    (fun b => { cause := 0x13, lanes := b.executing f.com, code := f.imm.toNat }) ∧
  (∀ (g : GangRef) (s : State), ((s.warp g.warp).archOf g.way |>.gang g.slice).cyc = 2 → exec (.yieldExpiry g) s =
    .next (s.updWarp g.warp (fun w => w.updArch g.way (fun a => a.updGang g.slice (fun h => { h with cyc := 0 }))))) ∧
  (∀ (g : GangRef) (s : State), let h := ((s.warp g.warp).archOf g.way).gang g.slice
    (s.warp g.warp).trap = none → h.slices ≠ 0 → 65536 ≤ h.count → h.park = .none → h.chain.isMember = false →
    exec (.safePointOverdue g) s = .next (s.trapAt g.warp g.way g.slice
      { cause := 0x08, lanes := ((s.warp g.warp).archOf g.way).activeIn h.slices }))

/-! ## Memory, atomics and synchronisation (classes 5 to 7) -/

/-- R146 to R156: where its addresses are sound, a memory word becomes a request of its gang, a load's
destination waits on the scoreboard, and the gang goes on at PC + 12. A prefetch drops the lanes that fail, one with a
poisoned register among them (R148). That CCTL wb
and wbinv are walked as reads is the model's choice (log 46). -/
def Obligations.MemoryWordsComplete : Prop := ∀ f : OpM,
  let off := f.off.toInt
  let at' (b : State) : State := b.noteAccess f off
  let loads (b : State) : List Acc := accesses b f wantLdSt f.size.bytes 0 off
  let stores (b : State) : List Acc := (accesses b f wantLdSt f.size.bytes 1 off).map (fun a =>
    { a with val := (at' b).dataOf a.lane f.size f.b, left := [] })
  let kept (b : State) : List Acc := (b.addrs f off).filterMap (fun p => match b.resolve b.who.warp wantPrf [p] 1 0 with
    | .ok [(l, t)] =>
      if t.uncached || b.bytesPoison t.addr 1 || b.poisoned (usesM f 2 0 1 0) (maskOf [l]) then none
      else some { lane := l, ta := t.addr, len := 1, unc := t.uncached, left := [0] }
    | _ => none)
  let lines (op : Nat) (b : State) : List Acc :=
    (accesses b f wantPrf (if op = 3 then 64 else 1) (if op = 3 then 1 else 0) off).map (fun a => { a with left := [] })
  let clean (op : Nat) (i : Instr) : Prop :=
    let r (b : State) : Req := { mreq f (.clean op) (lines op b) with nl1 := false, pol := 0 }
    let b' (b : State) : State := if op = 3 then (at' b).noteWrites (lines op b) else at' b
    Acts i (fun b => oldestCode b f.com ∧
        (∃ as, b.accs f wantPrf (if op = 3 then 64 else 1) (if op = 3 then 1 else 0) off = .ok as) ∧ goes (b' b) (r b))
      (fun b => (sent (b' b) (r b)).advance)
  Acts (.ld f)
    (fun b => lone b ∧ sound b f wantLdSt f.size.bytes 0 off true ∧
      unpoisoned (at' b) (mreq f .load (loads b)) (loads b) ∧ goes (at' b) (mreq f .load (loads b)))
    (fun b => ((sent (at' b) (mreq f .load (loads b))).await (at' b).clk.fresh f.dst f.size.regs
      (maskOf ((loads b).map (·.lane)))).advance) ∧
  Acts (.st f)
    (fun b => lone b ∧ sound b f wantLdSt f.size.bytes 1 off false ∧
      (∀ a ∈ stores b, (isCtl a.ta && isBlock a.ta) = false) ∧ goes (at' b) (mreq f .store (stores b)))
    (fun b => (sent (at' b) (mreq f .store (stores b))).advance) ∧
  (∀ s u, (Instr.prf f).wf = true → Present s → usesOf (.prf f) = some u → s.doesWork u.com = true →
    (s.member = true ∨
      (s.busyReg s.active (guardReg u.com) = false ∧ s.overBound u = false ∧ s.waits? (usesFirst (.prf f) u) = false)) →
    let b := s.begin u
    lone b → (kept b ≠ [] → goes (at' b) (mreq f .prefetch (kept b))) → exec (.prf f) s = .next (s.ended (.done
      (if kept b = [] then (at' b).advance else (sent (at' b) (mreq f .prefetch (kept b))).advance)))) ∧
  (f.scope = .warp → Acts (.fence f) (fun b => oldestCode b f.com) State.advance) ∧
  (f.scope ≠ .warp → Acts (.fence f) (fun b => oldestCode b f.com ∧ goes b (mreq f .fence []))
    (fun b => (sent b (mreq f .fence [])).advance)) ∧
  clean 0 (.cctlInv f) ∧ clean 1 (.cctlWb f) ∧ clean 2 (.cctlWbinv f) ∧ clean 3 (.cctlZero f) ∧
  Acts (.cctlInvall f) (fun b => oldestCode b f.com ∧ goes b { mreq f (.clean 4) [] with nl1 := false, pol := 0 })
    (fun b => (sent b { mreq f (.clean 4) [] with nl1 := false, pol := 0 }).advance)

/-- R157 to R160: where its addresses are sound, an atomic becomes a request that carries each lane's operands;
ATOM and CAS wait for the value that they return. -/
def Obligations.AtomicsComplete : Prop := ∀ f : OpM,
  let lanes (off : Int) (w : Want) (val cmp : State → Nat → Nat) (b : State) : List Acc :=
    (accesses b f w f.size.bytes 1 off).map (fun a => { a with val := val b a.lane, cmp := cmp b a.lane })
  let lanes' (q : OpM) (off : Int) (s : State) : List Acc := (accesses s q (wantAtom false) f.size.bytes 1 off).map (fun a =>
    { a with val := s.dataOf a.lane f.size f.c, cmp := s.dataOf a.lane f.size f.b })
  let noted (off : Int) (b : State) (as : List Acc) : State := ((b.noteAccess f off).noteReads as).noteWrites as
  let updates (i : Instr) (off : Int) (w : Want) (k : ReqKind) (returns : Bool) (val cmp : State → Nat → Nat) : Prop :=
    let as := lanes off w val cmp
    let r (b : State) : Req := { mreq f k (as b) with nl1 := false, pol := 0 }
    let b' (b : State) : State := noted off b (as b)
    Acts i (fun b => oldestCode b f.com ∧ sound b f w f.size.bytes 1 off true ∧
        (returns = true → unpoisoned b (mreq f k (as b)) (as b)) ∧ goes (b' b) (r b))
      (fun b => if returns then ((sent (b' b) (r b)).await (b' b).clk.fresh f.dst f.size.regs
          (maskOf ((as b).map (·.lane)))).advance
        else (sent (b' b) (r b)).advance)
  let code := (f.off.extractLsb' 20 4).toNat
  let off := (f.off.setWidth 20).toInt
  let b (s : State) (l : Nat) : Nat := s.dataOf l f.size f.b
  updates (.atom f) off (wantAtom (f.dst == .discard && code != 8)) (.atom code) true b (fun _ _ => 0) ∧
  updates (.red f) off (wantAtom true) (.red code) false b (fun _ _ => 0) ∧
  updates (.bupd f) off wantBupd (.bupd code) false b (fun _ _ => 0) ∧
  (let q : OpM := { f with c := .imm 0 }
    let as := lanes' q f.off.toInt
    let r (s : State) : Req := { mreq q (.atom 16) (as s) with nl1 := false, pol := 0 }
    let s' (s : State) : State := ((s.noteAccess q f.off.toInt).noteReads (as s)).noteWrites (as s)
    Acts (.cas f)
      (fun s => oldestCode s f.com ∧ sound s q (wantAtom false) f.size.bytes 1 f.off.toInt true ∧
        unpoisoned s (mreq q (.atom 16) (as s)) (as s) ∧ goes (s' s) (r s))
      (fun s => ((sent (s' s) (r s)).await (s' s).clk.fresh f.dst f.size.regs (maskOf ((as s).map (·.lane)))).advance))

/-- R161 to R167: a barrier operation or a WAITA of a whole warp becomes one request; BWAIT, BARW and WAITA
park the gang, with a waiter that holds its destination. -/
def Obligations.SynchronisationCompletes : Prop := ∀ f : OpM,
  let off := f.off.toInt
  let acc (q : OpM) (w : Want) (n kind : Nat) (b : State) : Acc :=
    { ((accesses b q w n kind off).headD { lane := 0, ta := 0, len := 0 }) with left := [] }
  let ready (q : OpM) (w : Want) (n kind : Nat) (reads : Bool) (b : State) : Prop :=
    oldestCode b f.com ∧ b.ganged = true ∧ (∃ as, b.accs q w n kind off = .ok as ∧ as ≠ []) ∧
    b.scrFails q false [acc q w n kind b] = [] ∧
    (reads = true → b.accPoison (b.newReq (mreq q .load [])) { acc q w n kind b with left := List.range n } = false)
  let noted (q : OpM) (w : Want) (n kind : Nat) (b : State) : State :=
    (b.noteAccess q off).noteWrites [acc q w n kind b]
  let bar (op : Nat) (w : Want) (n kind : Nat) (b : State) : Req :=
    { mreq f (.bar op) [{ acc f w n kind b with val := ((noted f w n kind b).src32 (noted f w n kind b).uLane f.b).toNat }] with
      nl1 := false, pol := 0, size := .word }
  let parked (s : State) (r : Req) (two : Bool) : State :=
    let x : Waiter := { id := s.clk.fresh, on := .issue, warp := s.who.warp, way := s.who.way, dst := r.dst, two := two }
    (sent { s with waits := s.waits ++ [x] } r).parkOn s.clk.fresh
  let parks (s : State) (r : Req) (two : Bool) : Prop :=
    let x : Waiter := { id := s.clk.fresh, on := .issue, warp := s.who.warp, way := s.who.way, dst := r.dst, two := two }
    goes { s with waits := s.waits ++ [x] } r
  let b1 (kind : Nat) (b : State) : State := noted f wantBar 16 kind b
  Acts (.binit f) (fun b => ready f wantBar 16 1 false b ∧ goes (b1 1 b) (bar 0 wantBar 16 1 b))
    (fun b => (sent (b1 1 b) (bar 0 wantBar 16 1 b)).advance) ∧
  Acts (.barv f) (fun b => ready f wantBar 16 1 true b ∧ goes (b1 1 b) (bar 1 wantBar 16 1 b))
    (fun b => ((sent (b1 1 b) (bar 1 wantBar 16 1 b)).await (b1 1 b).clk.fresh f.dst 1
      (sent (b1 1 b) (bar 1 wantBar 16 1 b)).active).advance) ∧
  Acts (.bexp f) (fun b => ready f wantBar 16 1 true b ∧ goes (b1 1 b) (bar 4 wantBar 16 1 b))
    (fun b => (sent (b1 1 b) (bar 4 wantBar 16 1 b)).advance) ∧
  Acts (.bwait f) (fun b => ready f wantBar 16 0 true b ∧ parks (b1 0 b) (bar 2 wantBar 16 0 b) false)
    (fun b => parked (b1 0 b) (bar 2 wantBar 16 0 b) false) ∧
  Acts (.barw f) (fun b => ready f wantBar 16 1 true b ∧ parks (b1 1 b) (bar 3 wantBar 16 1 b) false)
    (fun b => parked (b1 1 b) (bar 3 wantBar 16 1 b) false) ∧
  (let q : OpM := { f with c := .imm 0 }
    let b2 (b : State) : State := noted q wantBupd f.size.bytes 0 b
    let wait (b : State) : Req :=
      { mreq f (.waita f.cache.val ((b2 b).waitPair f).1 ((b2 b).waitPair f).2 ((b2 b).src32 (b2 b).uLane f.c).toNat)
          [acc q wantBupd f.size.bytes 0 b] with nl1 := false, pol := 0 }
    Acts (.waita f) (fun b => ready q wantBupd f.size.bytes 0 true b ∧ parks (b2 b) (wait b) true)
      (fun b => parked (b2 b) (wait b) true)) ∧
  (∀ (stack entry t : Nat) (e : WaitEntry) (s : State), s.tables.find (4096 * stack + entry) = some e →
    e.deadline = some t → t ≤ s.dieTime stack → exec (.waitaDeadline stack entry) s =
      .next ({ s with tables := s.tables.erase (4096 * stack + entry) }.wake e.waiter 1
        (BitVec.ofNat 32 (s.curNat e.ta (if e.wide then 8 else 4)))))

/-! ## The ordering machine -/

/-- R129 to R140, R153, R158, R166: a queued request starts once what it stands behind is past; a fetch fills a load's
bytes from the die home point or from an uncached home, and brings the core its copy; a load returns once it has every
byte, an arrival once it has been performed, an atomic once its old values are there or can be read on the core's line.
That a load with policy nl1 drops the core's lease copy is the model's choice (log 130). -/
def Obligations.LoadStepsComplete : Prop := ∀ (i l core : Nat) (s : State),
  (∀ r, s.req i = some r → r.started = false → s.canStart r = true → exec (.releaseIssue i) s = .next (s.start r)) ∧
  (∀ r, s.req i = some r → r.started = true → r.returned = false → r.accs.any (fun a => a.wants l) = true →
    s.fetchable r l = true →
    let d := r.core / 64
    let filled (t : State) (bs : Tab Byte) (pois : Bool) : State :=
      t.updReq i (fun r => { r with accs := r.accs.map (fun a => a.fill l bs pois) })
    let far := r.accs.any (fun a => a.wants l && (a.unc || isPeer a.ta))
    ((∀ op, r.kind ≠ .atom op ∧ r.kind ≠ .red op) →
      (far = true → isHost (64 * l) = false → exec (.fetch i l) s = .next (filled s s.mem (s.pois.get false l))) ∧
      (far = true → isHost (64 * l) = true → s.link.down = false → s.carries (s.warp r.warp).tenant = true →
        exec (.fetch i l) s = .next (filled s.pushPosted s.pushPosted.mem (s.pois.get false l))) ∧
      (far = false → s.readable d l = true →
        let w := if r.accs.any (fun a => a.wants l && a.obs.isSome) then s.updL2 d l (fun x => { x with watched := true }) else s
        let t := if r.nl1 then (if r.kind = .load then w.dropCopy r.core l else w) else w.install r.core l r.pol
        exec (.fetch i l) s = .next (filled (t.updL2 d l (fun x => x.policy r.pol)) (s.l2 d l).bytes (s.l2 d l).pois))) ∧
    (∀ op, r.kind = .atom op ∨ r.kind = .red op → r.accs.any (fun a => a.wants l && a.coreLevel r.scope) = true →
      s.liveCopy r.core l 0 = none → s.readable d l = true → exec (.fetch i l) s = .next (s.install r.core l r.pol))) ∧
  (∀ r, s.req i = some r → r.started = true → r.returned = false →
    let given (t : State) (r : Req) : State := (t.updWarp r.warp (fun w => (w.receive r).observe r)).dropReq i
    (r.kind = .load → r.accs.all (fun a => a.left.isEmpty) = true → exec (.loadReturn i) s = .next (given s r)) ∧
    (r.kind = .bar 1 → (∀ w ∈ s.writes, w.req ≠ i) → exec (.loadReturn i) s = .next (given s r)) ∧
    (r.kind = .prefetch → r.accs.all (fun a => a.left.isEmpty) = true → exec (.loadReturn i) s = .next (s.dropReq i)) ∧
    (∀ op, r.kind = .atom op ∨ r.kind = .red op →
      (∀ a ∈ r.accs, (isGlob a.ta && a.coreLevel r.scope) = true ∨ a.left = []) →
      (∀ w ∈ s.writes, w.near = true → w.req = i → s.nearReady w = true) →
      exec (.loadReturn i) s = .next (given (s.coreAtomic r).1 (s.coreAtomic r).2))) ∧
  (∀ p, (s.core core).l1.find l = some p → p.exp ≤ s.coreTime core →
    exec (.leaseExpiry core l) s = .next (s.updCore core (fun x => { x with l1 := x.l1.erase l })))

/-- R133 to R135, R143, R144, R156, R196: a write is performed at its home, the first of its line's writes; its
acknowledgement lowers wpend and raises the gwct registers, or goes to its engine's operation, and the operations that
captured it wait for it no more; posted writes are acknowledged by the egress queue, and a flush pushes them to the host. -/
def Obligations.WriteStepsComplete : Prop := ∀ (i u : Nat) (w : Write) (s : State),
  (s.writes.find? (fun x => x.id == i) = some w → w.done = false → s.firstWrite w = true →
    let x := s.l2 w.die w.line
    let cleaned (inv : Bool) : Prop :=
      let ds := s.cleanDies w.die w.line inv
      (∀ d ∈ ds, s.canClean d w.line inv = true) → exec (.writePerform i) s =
        .next ((ds.foldl (fun t d => t.cleanLine d w.line inv) s).performed w []
          (ds.foldl (fun g d => if inv then max g (s.l2 d w.line).exp else g) (s.dieTime w.die)))
    (w.kind ≠ .clean 1 → w.kind ≠ .clean 2 → w.kind ≠ .barAdd → (∀ op, w.kind ≠ .bar op) →
      (w.place = .die → (x.st = .M ∨ x.st = .E) → exec (.writePerform i) s = .next (s.performDie w)) ∧
      (w.place = .bank → HomeTurn s w.line w.key → exec (.writePerform i) s =
        .next ((s.recall w.line).performHome w w.line (s.dieTime (stackOf w.line)))) ∧
      (w.place = .host → s.canRecall w.line = true → headOfLine s w.line w.key → s.link.down = false →
        s.carries (hostStream w.tenant (w.accs.any (fun a => a.unc))) = true → exec (.writePerform i) s =
        .next (((s.pushPosted.recall w.line).updDir w.line (fun e => { e with host := 0 })).performHome w w.line s.clk.time)) ∧
      (w.place = .peer → exec (.writePerform i) s = .next (s.performHome w w.line s.clk.time)) ∧
      (w.place = .redwin → exec (.writePerform i) s =
        .next (s.performHome w (w.line - redBase / 64 + peerBase / 64) s.clk.time))) ∧
    (w.kind = .clean 1 → cleaned false) ∧
    (w.kind = .clean 2 → cleaned true) ∧
    (∀ a as, w.kind = .barAdd → w.accs = a :: as → HomeTurn s w.line w.key → exec (.writePerform i) s =
      .next ({ s with writes := s.writes.filter (fun y => y.id != w.id) }.barChange 0 a.ta (fun b => b.addBytes a.val))) ∧
    (∀ op r a as, w.kind = .bar op → s.req w.req = some r → w.accs = a :: as → HomeTurn s w.line w.key →
      let h := s.recall w.line
      let x := h.curNat a.ta 16
      let p := h.barOp r op a none x
      let t := if p.2.pois.get false w.line then p.2.logErr (logOf a.ta) 3 (64 * w.line) w.core w.tenant
        else { p.2 with mem := writeBytes p.2.mem a.ta (leBytes 16 p.1) }.noteFlip a.ta x p.1 (op == 0)
      exec (.writePerform i) s = .next ({ t with writes := t.writes.filter (fun y => y.id != w.id) }.evalWaits w.line)) ∧
    (w.place = .posted → s.link.down = false → exec (.postedWriteAck i) s =
      let q := { s with link := { s.link with
        egress := s.link.egress ++ [({ id := w.id, warp := w.src, relaxed := !w.strict, bytes := w.bytes } : Posted)] } }
      .next ((if w.op = none then q.updWarp w.src (fun v => { v with posted := some w.id }) else q).performed w w.bytes
        (s.dieTime 8)))) ∧
  (s.writes.find? (fun x => x.id == i) = some w → w.done = true →
    let gone : State := { (s.ackCopy w) with writes := s.writes.filter (fun x => x.id != w.id) }
    let released (t : State) : State := { t with ops := t.ops.map (fun e =>
      if w.id ∈ e.caught then { e with
        caught := e.caught.filter (fun k => k != w.id)
        gcap := if e.scope = .warp ∨ e.scope = .core then e.gcap else max e.gcap w.gwct }
      else e) }
    (w.warp = some u → w.op = none → exec (.writeAck i) s = .next (released (gone.updWarp u (fun v =>
      { (v.raiseGwct w.place (isHost (64 * w.line)) (w.accs.any (fun a => a.unc)) w.gwct) with wpend := v.wpend - 1 })))) ∧
    (w.warp = none → w.op = none → exec (.writeAck i) s = .next (released gone)) ∧
    (∀ o, w.warp = none → w.op = some o → exec (.writeAck i) s = .next (released (gone.updOp o (fun e => { e with
      gmax := max e.gmax w.gwct
      adds := e.adds.map (fun a =>
        if w.id ∈ a.2.2 then (a.1, max a.2.1 w.gwct, a.2.2.filter (fun k => k != w.id)) else a) }))))) ∧
  ((s.warp u).posted.isSome = true → s.link.down = false → s.carries (s.warp u).tenant = true →
    exec (.flushDone u) s = .next (s.pushPosted.updWarp u (fun v => { v with posted := none })))

/-! ## Copies, tiles, keys and values (classes 8 to 10) -/

/-- R168 to R184, R330: a copy instruction issues one engine operation with its operands; CPYQ and CPYC act on
the operation that holds the token register named. -/
def Obligations.CopyWordsComplete : Prop := ∀ f : OpT,
  let x := f.opf.toNat
  let pair (b : State) (r : Src) : Nat := (b.src64 b.uLane r).toNat
  let word (b : State) (r : Src) : Nat := (b.src32 b.uLane r).toNat
  let dst (b : State) : Nat := (((pair b f.a : Int) + 16 * (f.opf.extractLsb' 8 8).toInt) % 2 ^ 64).toNat
  let src (b : State) (r : Src) : Nat := (((pair b r : Int) + 16 * (f.opf.extractLsb' 0 8).toInt) % 2 ^ 64).toNat
  let op (b : State) (k : Nat) : EngOp := { b.newOp 8 k f with barVa := b.flatBar f }
  let sized (b : State) : Prop := 0 < word b f.c ∧ word b f.c ≤ 1023
  Launches (.cpy f) f (fun _ => True) (fun b =>
    { op b 0 with a := dst b, b := src b f.b, c := word b f.c, sdst := scrSpan (dst b) (word b f.c) }) ∧
  Launches (.cpyt f) f (fun _ => True) (fun b => b.peek { op b 1 with b := pair b f.a }) ∧
  Launches (.cpyg f) f sized (fun b =>
    { op b 2 with a := dst b, b := pair b f.b, c := word b f.c, sdst := scrSpan (dst b) (word b f.c * (bitsOf x 0 8 + 1)) }) ∧
  Launches (.cpys f) f sized (fun b => b.peek { op b 3 with a := pair b f.a, b := src b f.b, c := word b f.c }) ∧
  Launches (.cpyr f) f (fun _ => True) (fun b => { b.newOp 8 4 f with b := pair b f.a }) ∧
  (∀ w, Launches (.cpyx f) f (fun b => votes b f w) (fun b => b.peek { op b 5 with b := pair b f.a, fmt := w })) ∧
  Launches (.osld f) f (fun _ => True) (fun b => { op b 8 with a := word b f.b, b := src b f.a, c := word b f.c }) ∧
  Launches (.kvrcl f) f (fun _ => True) (fun b => { b.newOp 0xA 2 f with b := pair b f.a, a := pair b f.b }) ∧
  Acts (.cpyq f) (fun b => oldestCode b f.com) (fun b =>
    let q := ((b.holderOf (bitsOf x 0 6)).map EngOp.query).getD (0, 0)
    (b.putLanes (maskOf [b.uLane]) f.tok true (fun _ => BitVec.ofNat 64 (q.1 + 2 ^ 32 * q.2))).advance) ∧
  Acts (.cpyc f) (fun b => oldestCode b f.com) (fun b => match b.holderOf (bitsOf x 0 6) with
    | none => b.advance
    | some o => (b.updOp o.id (fun e => { e with cancel := true })).advance)

/-- R257 to R276: a tile instruction issues one operation: the voted format word, its column mask and the
scratchpad offsets of its operands, once its mask and token registers are free; with a mask of no column it is done
with token code 0. -/
def Obligations.TileWordsComplete : Prop := ∀ (f : OpT) (w : Nat),
  let x := f.opf.toNat
  let pair (b : State) (r : Src) : Nat := (b.src64 b.uLane r).toNat
  let mask (b : State) : Nat := regsNat (4 * bitsOf x 24 4) 8 (fun n => b.wWarp.getG b.who.way true n)
  let free (b : State) (ns : List Nat) : Prop :=
    ∀ r ∈ ns.map Reg.g ++ Dst.regsFrom f.tok 1, b.busyReg b.active r = false
  let tile (i : Instr) (k : Nat) : Prop :=
    let sa (b : State) : Nat := if k = 6 then pair b f.a % 2 ^ 64 else (pair b f.a + 256 * bitsOf x 18 6) % 2 ^ 64
    let sb (b : State) : Nat := if k = 6 then pair b f.b % 2 ^ 64 else (pair b f.b + 256 * bitsOf x 12 6) % 2 ^ 64
    let w := if k = 6 then 0 else w
    let m := fmtOf w
    let span := tileSpans k x m (1024 * m.m)
    let masked := k = 0 ∨ k = 1 ∨ k = 2 ∨ k = 5
    let ok (b : State) : Prop :=
      (if k = 6 then b.ganged = true else votes b f w) ∧ sa b % 16 = 0 ∧ (k = 2 ∨ sb b % 16 = 0) ∧
        outsideScr (sa b) span.1 = false ∧ (k = 2 ∨ outsideScr (sb b) span.2 = false) ∧
        free b (if masked then (List.range 8).map (fun j => 4 * bitsOf x 24 4 + j) else [])
    let full (b : State) : EngOp :=
      let mk := if masked then mask b else 0
      { b.newOp 9 k f with
        fmt := w, mask := mk, tc := offIn (sa b), ta := if k = 2 then 0 else offIn (sb b)
        tx := 16 * bitsOf x 0 11 + (if k = 1 then offIn (sb b) else 0), tacc := x.testBit 29
        sdst := tileWrites k x m (offIn (sa b)) mk }
    Launches i f (fun b => ok b ∧ ¬ (masked ∧ mask b = 0)) full ∧
    (masked → Launches i f (fun b => ok b ∧ mask b = 0) (fun b => { b.newOp 9 k f with code := some 0 }))
  tile (.mma f) 0 ∧ tile (.mmag f) 1 ∧ tile (.tzero f) 2 ∧ tile (.tqnt f) 3 ∧ tile (.tdq f) 4 ∧ tile (.tcrt f) 5 ∧
  tile (.ttrn f) 6 ∧ tile (.tstat f) 7 ∧
  Launches (.attn f) f (fun b => votes b f w ∧ pair b f.a % 16 = 0 ∧ free b []) (fun b => b.peekAttn { b.newOp 0xA 4 f with b := pair b f.a, fmt := w }) ∧
  Launches (.attnq f) f (fun b => votes b f w ∧ pair b f.a % 16 = 0 ∧ free b []) (fun b => b.peekAttn { b.newOp 0xA 5 f with b := pair b f.a, fmt := w })

/-- R322 to R329: a per-lane instruction reads its lanes' tables, headers and rows through the root that is pinned as
it issues, and sends what each lane found, with the lanes that are to be replayed and the malformed ones; its mask pair
and, for KVX, its destination wait on the scoreboard. -/
def Obligations.KeyValueWordsComplete : Prop := ∀ f : OpT,
  let args (b : State) : List (Nat × Nat × Nat × Nat) := (lanesOf (b.executing f.com)).map (fun l =>
    (l, (b.src64 l f.a).toNat, (b.src32 l f.b).toNat, match f.c with | .v _ => (b.src64 l f.c).toNat | _ => 0))
  let word (i : Instr) (k : Nat) (ord : Order) (d : Dst) : Prop :=
    let r (hits : List KvRes) (replay bad : Lanes) : Req :=
      { id := 0, warp := 0, kind := .kv k f.opf.toNat hits replay bad, scope := f.scope, order := ord, dst := f.tok }
    let q (b : State) : Req := b.newReq (r [] 0 0)
    let found (b : State) (a : Nat × Nat × Nat × Nat) : KvLane (KvRes × Word) := b.kvLane (q b) k f.opf.toNat a
    let hits (b : State) : List (KvRes × Word) := (args b).filterMap (fun a => match found b a with | .ok h => some h | _ => none)
    let lanes (b : State) (p : KvLane (KvRes × Word) → Bool) : Lanes :=
      maskOf (((args b).filter (fun a => p (found b a))).map (fun a => a.1))
    let sends (b : State) : Req := r ((hits b).map (fun h => h.1))
      (lanes b (fun x => match x with | .replay => true | _ => false))
      (lanes b (fun x => match x with | .malformed => true | _ => false))
    let read (b : State) : State :=
      (((args b).flatMap (b.kvReads (q b) k f.opf.toNat) ++ (args b).flatMap (b.kvWrites (q b) k f.opf.toNat)).foldl
        (fun t va => t.noteVa b.who.warp va) b).raise ((hits b).foldl (fun fl h => fl ||| h.2) 0)
    Acts i (fun b => lone b ∧ args b ≠ [] ∧ (q b).behind = [] ∧ (∀ a ∈ args b, found b a ≠ .poison ∧ ∀ ls, found b a ≠ .wait ls) ∧
        ((k = 3 ∧ f.opf.getLsbD 0 = true) →
          b.vecFails ((args b).filter (fun a => match found b a with | .malformed => false | _ => true)) = []) ∧ goes (read b) (sends b))
      (fun b =>
        let t := sent (read b) (sends b)
        ((t.await (read b).clk.fresh f.tok 2 t.active).await (read b).clk.fresh d 2 (maskOf ((args b).map (fun a => a.1)))).advance)
  word (.kvx f) 0 .relaxed (srcDst f.c) ∧ word (.kvvalSet f) 1 .release .discard ∧ word (.kvvalClr f) 1 .relaxed .discard ∧
  word (.skchSlot f) 3 .relaxed .discard ∧ word (.skchVec f) 3 .relaxed .discard

/-! ## Speculative loops and regions (class 11) -/

/-- R309 to R320: SPLOOP opens a loop of the effective width, for which the cache gives up its room, and starts its first
round, SPPUT and SPNEXT park the gang, SPACC enters a rule, SPEND closes the loop with its counts, SPQ reads the way's
word. That a loop's clones take the lowest free contexts is the model's choice (log 77), and so is how a loop that the
handler opens runs (log 132). -/
def Obligations.SpeculativeWordsComplete : Prop := ∀ (f : OpB) (l : SpecLoop),
  let first := bitsOf f.imm.toNat 0 9
  let n := bitsOf f.imm.toNat 9 3 + 1
  let wmax := bitsOf f.imm.toNat 12 3 + 1
  let plain (b : State) : Prop := outsideRegions b f.com ∧ b.guessing = false
  let rule (b : State) : AccRule := ⟨first, f.ctl.val,
    match f.a with | .imm k => k.signExtend 32 | .g k => b.src32 b.uLane (.g k) | _ => 0⟩
  let loop (b s : State) (ew : Nat) (a : Arch) : SpecLoop :=
    {
      id := b.clk.fresh, sup := s.inHandler, n := (b.src32 b.uLane f.a).toNat, c := n, b := first, w := wmax, ew := ew, body := s.pc,
      guess := s.pc + 12 * f.off.signExtend 64 - 12, committed := a,
      ctxs := (b.freeCtxs b.wWarp.core).take (ew - 1), depths := a.slices.map (fun x => x.stack.length) }
  Acts (.sploop f)
    (fun b => plain b ∧ b.ganged = true ∧ first + n ≤ b.wWarp.alloc ∧ b.wWarp.loop = none ∧
      (∀ r ∈ b.wWarp.rules, first ≤ r.reg ∧ r.reg < first + n) ∧ b.wayBusy = false ∧ b.wayReqs = false)
    (fun b =>
      let ew := b.loopWidth b.wWarp wmax
      let s := (b.bump.putLanes (maskOf [b.uLane]) f.dst false (fun _ => BitVec.ofNat 64 ew)).advance
      (s.updMy (fun w => { w with loop := some (loop b s ew w.arch).startRound })).trimL1 b.wWarp.core) ∧
  (∀ k, f.a = .v k → Acts (.spput f)
    (fun b => b.guessing = true ∧ b.inHandler = false ∧ b.wWarp.loop = some l ∧ k.val + l.c ≤ b.wWarp.alloc ∧ 0 < l.c ∧
      b.wayBusy = false ∧ b.poisoned ⟨f.com, Src.regsFrom f.a l.c, []⟩ b.active = false)
    (fun b => (b.park (.sput k.val)).settleSput b.who.warp b.who.way)) ∧
  (f.ctl.val < 4 → Acts (.spacc f)
    (fun b => plain b ∧ b.wWarp.loop = none ∧
      (b.wWarp.rules.length < 8 ∨ b.wWarp.rules.any (fun x => x.reg == first) = true) ∧ ¬ (f.ctl.val = 0 ∧ (rule b).param ≠ 0))
    (fun b => (b.updMy (fun w => { w with rules := setRule w.rules (rule b) })).advance)) ∧
  Acts (.spnext f)
    (fun b => b.guessing = false ∧ b.inHandler = l.sup ∧ b.wWarp.loop = some l ∧ b.ganged = true ∧ b.depthsOk l = true ∧
      b.pc + 12 * f.off.signExtend 64 = l.body ∧ outsideRegions b f.com ∧ b.wayBusy = false ∧ b.wayReqs = false)
    (fun b => (b.updWay (fun y => { y with st := 3, pred := match f.a with | .gp k => k.val | _ => 0 })).park .spnext) ∧
  Acts (.spend f) (fun b => plain b ∧ b.wWarp.loop = some l ∧ b.inHandler = l.sup ∧ l.ending = true)
    (fun b => ((b.updMy (fun w => { w with loop := none, rules := [] })).putLanes
      (maskOf [(b.updMy (fun w => { w with loop := none, rules := [] })).uLane]) f.dst true
      (fun _ => BitVec.ofNat 64 (l.done % 2 ^ 32 + 2 ^ 32 * (l.squash % 2 ^ 32)))).advance) ∧
  Acts (.spq f) plain
    (fun b => (b.putLanes (maskOf [b.uLane]) f.dst false (fun _ => BitVec.ofNat 64 (b.wWarp.spqWord b.who.way))).advance) ∧
  (∀ (u k : Nat) (y : Way) (s : State), (s.warp u).toKeep = some (k, l, y) →
    (y.kv ≠ [] → exec (.wayKeep u) s =
      .next ((s.submitKv u k y.kv).updWarp u (fun w => w.updWay k (fun y => { y with kv := [] })))) ∧
    (y.kv = [] → (s.reqs.any (fun r => r.warp == u && (match r.kind with | .kvval _ => true | _ => false))) = false →
      (s.warp u).wpend + (match l.ways.find (k + 1) with
        | some n => (distinct (n.lines.map (fun p => lineOf p.1))).length | none => 0) ≤ 255 →
      exec (.wayKeep u) s = .next (s.keepWay u k l y)))

/-- R199 to R216: ATOMB opens a region in each executing lane, ATOME commits, ATOMA aborts with cause 7, ATOMQ
reads the region's word; the handler opens no region. A commit locks its lines one by one, and notices reach the cores of
the die. -/
def Obligations.RegionWordsComplete : Prop := ∀ f : OpB,
  let begin (b : State) : State :=
    let serial := 2 ≤ b.wWarp.abortsAt b.pc
    let st := match f.dst with | .v n => some n.val | _ => none
    let g : Region := { fallback := b.pc + 12 * f.off.signExtend 64, pc := b.pc, serial := serial, status := st }
    let s := if serial then b.updDie b.myDie (fun d => { d with token := some b.who.warp }) else b
    s.updMy (fun w => { w with regions := (lanesOf (b.executing f.com)).foldl (fun t l => t.put l g) w.regions })
  let next (b : State) (l : Nat) : Double :=
    (((b.fallbacks (b.executing f.com)).find? (fun p => p.1 == l)).map (·.2)).getD (b.pc + 12)
  let commit : Req := { id := 0, warp := 0, kind := .commit, scope := .device, order := .release }
  Acts (.atomb f)
    (fun b => oldestCode b f.com ∧ b.inHandler = false ∧ (2 ≤ b.wWarp.abortsAt b.pc → (b.die b.myDie).token = none))
    (fun b => ((begin b).putLanes (b.executing f.com) f.dst false (fun _ => 0)).advance) ∧
  Acts (.atomb f) (fun b => oldestCode b f.com ∧ b.inHandler = true)
    (fun b => (b.putLanes (b.executing f.com) f.dst false (fun _ => 0)).advance) ∧
  Acts (.atome f)
    (fun b => b.youngWay = false ∧ b.regionLanes b.active = 0) State.advance ∧
  Acts (.atome f)
    (fun b => b.youngWay = false ∧ b.regionLanes b.active ≠ 0 ∧ b.regionLoads (b.regionLanes b.active) = false ∧
      b.tooDeep (fun i => (distinct (((b.fallbacks b.active).filter (fun p => p.1 / 4 == i)).map (·.2))).length) = [] ∧
      goes b commit)
    (fun b => (sent b commit).park (.commit b.clk.fresh)) ∧
  Acts (.atoma f)
    (fun b => b.guessing = false ∧
      b.tooDeep (fun i => (distinct ((lanesOf (laneBits (b.arch.slice i).mask i)).map (next b))).length - 1) = [])
    (fun b => ((b.endRegions b.who.warp b.who.way ((b.fallbacks (b.executing f.com)).map (fun p => (p.1, 7))) false).updArch
      (fun a => a.splitTo b.gang.slices (next b))).settleRegang
        ((b.endRegions b.who.warp b.who.way ((b.fallbacks (b.executing f.com)).map (fun p => (p.1, 7))) false)).who.warp
        ((b.endRegions b.who.warp b.who.way ((b.fallbacks (b.executing f.com)).map (fun p => (p.1, 7))) false)).who.way) ∧
  Acts (.atomq f) (fun b => b.guessing = false)
    (fun b =>
      let s := b.useTags (usesB f 0 1) (b.executing f.com)
      (s.putLanes (b.executing f.com) f.dst false (fun l => (s.wWarp.regionWord l (!s.youngWay)).setWidth 64)).advance) ∧
  (∀ (d line : Nat) (c : Commit) (r : Req) (s : State), (s.die d).current = some c →
    (∀ l, c.lines[c.locked]? = some l → ((s.l2 d l).st = .M ∨ (s.l2 d l).st = .E) → (s.l2 d l).snoop = none →
      (s.l2 d l).locked = false → exec (.commit d) s =
        let cs (x : List Commit) := x.map (fun y => if y.id = c.id then { y with locked := y.locked + 1 } else y)
        .next ((s.updL2 d l (fun x => { x with locked := true })).updDie d
          (fun x => { x with commits := cs x.commits }))) ∧
    (c.lines[c.locked]? = none → s.req c.id = some r → (∀ l ∈ (s.die d).notices, l ∉ c.lines) →
      ((s.warp c.warp).wpend = 0 ∨ ((s.doCommit d c r).warp c.warp).wpend ≤ 255) →
      exec (.commit d) s = .next (s.doCommit d c r)) ∧
    (line ∈ (s.die d).notices → (∀ p ∈ s.warps, p.2.regions = []) → exec (.conflictNotice d line) s =
      .next (s.updDie d (fun x => { x with notices := x.notices.erase line }))))

/-! ## Trees and system instructions (class 12) -/

/-- R350 to R356, R361 to R368, R370: tree instructions send one request each, RFRSH re-pins at once, a CSR is read or
written in the lanes that execute, FLTQ posts the handler's fault and parks, PGREQ adds to its group or closes it, and
TRET leaves the handler; the stub answers an entry of a fault queue, and once VALID is clear an engine that waits on the
entry takes the reply. A fault of the dispatcher waits as an operation of class 0xE, which is the model's choice
(log 90; R370 says only that its accesses fault as an engine's do). -/
def Obligations.SystemWordsComplete : Prop := ∀ f : OpM,
  let word (b : State) (x : Src) : Nat := (b.src32 b.uLane x).toNat
  let pair (b : State) (x : Src) : Nat := (b.src64 b.uLane x).toNat
  let tree (i : Instr) (priv : State → Prop) (o : Order) (k : State → ReqKind) (as : State → List Acc) (n : Nat)
      (ls : State → Lanes) : Prop :=
    let r (b : State) : Req :=
      { id := 0, warp := 0, kind := k b, scope := .device, order := o, accs := as b, dst := f.dst, u := f.com.u }
    Acts i (fun b => oldestCode b f.com ∧ priv b ∧ goes b (r b))
      (fun b => ((sent b (r b)).await b.clk.fresh f.dst n (ls b)).advance)
  let own (b : State) (a : Nat) : Prop := b.foreign a = false
  let ownRoot (b : State) (r : Nat) : Prop := (b.root r).valid = true → own b (b.root r).asd
  let csr := f.off.toNat % 4096
  let lanes (b : State) : Lanes := if f.com.u then maskOf [b.uLane] else b.executing f.com
  tree (.rootsw f) (fun b => b.treePriv = true ∧ own b (word b f.a)) .release
    (fun b => .tree 0 0 (word b f.a) (word b f.b) (pair b f.c) 0) (fun _ => []) 1 (fun _ => 0) ∧
  tree (.rootcpFork f) (fun b => b.treePriv = true ∧ ownRoot b (word b f.b) ∧ own b (word b f.a)) .release
    (fun b => .tree 1 0 (word b f.a) (word b f.b) 0 0) (fun _ => []) 2 (fun _ => 0) ∧
  tree (.rootcpSnap f) (fun b => b.treePriv = true ∧ ownRoot b (word b f.b)) .release
    (fun b => .tree 1 1 0 (word b f.b) 0 0) (fun _ => []) 2 (fun _ => 0) ∧
  tree (.rootcpDrop f) (fun b => b.treePriv = true ∧ ownRoot b (word b f.b)) .release
    (fun b => .tree 1 2 0 (word b f.b) 0 0) (fun _ => []) 2 (fun _ => 0) ∧
  tree (.tnode f) (fun b => b.treePriv = true) .relaxed
    (fun b => .tree 3 f.cache.val (pair b f.a) (word b f.b) (pair b f.c) 0) (fun _ => []) 2 (fun _ => 0) ∧
  tree (.pgmapFt f) (fun b => b.inHandler = true) .release (fun _ => .tree 4 0 0 0 0 0) (fun b => b.pgmapAccs f) 1
    (fun b => b.executing f.com) ∧
  tree (.pgmapCow f) (fun b => b.inHandler = true) .release (fun _ => .tree 4 1 0 0 0 0) (fun b => b.pgmapAccs f) 1
    (fun b => b.executing f.com) ∧
  Acts (.rfrsh f) (fun b => oldestCode b f.com) (fun b =>
    let s := b.repin b.who.warp
    (s.putLanes (maskOf [s.uLane]) f.dst false (fun _ => BitVec.ofNat 64 s.wWarp.root)).advance) ∧
  Acts (.csrr f) (fun b => oldestCode b f.com ∧ b.csrCause f false = 0) (fun b =>
    (b.putLanes (lanes b) f.dst (f.size == .double) (fun l => BitVec.ofNat 64 (b.csrRead csr l))).advance) ∧
  Acts (.csrw f) (fun b => oldestCode b f.com ∧ b.csrCause f true = 0) (fun b =>
    ((if f.com.u then [b.uLane] else lanesOf (b.executing f.com)).foldl
      (fun t l => t.csrWrite csr l (b.dataOf l f.size f.b)) b).advance) ∧
  Acts (.fltq f) (fun b => oldestCode b f.com ∧ b.inHandler = true)
    (fun b => b.advance.forward b.who.warp b.who.way b.who.slice f.dst (b.src32 b.uLane f.b) 1) ∧
  Acts (.pgreq f) (fun b => oldestCode b f.com ∧ b.inHandler = true) (fun b =>
    let g := distinct (b.wWarp.group ++ (lanesOf (b.executing f.com)).map (fun l =>
      ((b.src64 l f.a).toNat / 4096, f.cache.val % 2 == 1)))
    let n := (distinct (g.map (fun p => p.1))).length
    let t := b.tenant b.wWarp.tenant
    let group (g : List (Nat × Bool)) : State := b.updMy (fun w => { w with group := g })
    let answer (s : State) (st : Nat) : State :=
      (s.putLanes (b.executing f.com) f.dst false (fun _ => BitVec.ofNat 64 st)).advance
    if f.cache.val < 2 then answer (group g) 0
    else if b.link.down then answer (group []) 4
    else if min 64 t.prallow < n then answer (group []) 3
    else if t.pri = false then answer (group []) 2
    else
      let x : Waiter := { id := b.clk.fresh, on := .room b.wWarp.tenant g, warp := b.who.warp, way := b.who.way,
                          dst := f.dst, lanes := b.executing f.com }
      (({ (group []).bump with waits := b.waits ++ [x] }.advance).park (.wait b.clk.fresh)).roomFor b.wWarp.tenant
        (b.waits ++ [x])) ∧
  Acts (.tret f) (fun b => b.inHandler = true ∧ b.ganged = true ∧ b.handlerBusy = false)
    (fun b => b.leaveHandler b.who.warp false) ∧
  Acts (.tretKill f) (fun b => b.inHandler = true ∧ b.ganged = true ∧ b.handlerBusy = false)
    (fun b => b.leaveHandler b.who.warp true) ∧
  (∀ (i code : Nat) (g : PrGroup) (s : State), s.prgroups.find? (fun x => x.id == i) = some g → code ≤ 2 →
    s.link.down = false → s.carries g.tenant = true → exec (.pageResponse i code) s =
      let t := (({ s with prgroups := s.prgroups.filter (fun x => x.id != i) }).updTenant g.tenant (fun q =>
        { q with prout := q.prout - g.reqs.length, pri := q.pri && code != 2 })).wake g.waiter code
      .next (t.roomFor g.tenant t.waits)) ∧
  (∀ (tenant entry : Nat) (reply : Word) (s : State),
    let at' := (s.tenant tenant).fqbase + 64 * entry
    let r := s.curNat (at' + 32) 4 % 256
    (∀ w ∈ s.writes, w.line = lineOf at' → 2 ^ 65 ≤ w.src → w.done = true) →
    ((s.cur (at' + 31)).getLsbD 7 = true → entry < (s.tenant tenant).fqcap → exec (.faultReply tenant entry reply) s =
      .next (s.homeStore (2 ^ 65 + 1) none (at' + 31) ((s.cur (at' + 31) &&& 0x7F) :: leBytes 4 reply.toNat))) ∧
    (∀ o, (s.cur (at' + 31)).getLsbD 7 = false →
      s.ops.find? (fun x => x.tenant == tenant && x.slot == some entry) = some o → exec (.faultReply tenant entry reply) s =
      .next (if o.cls = 0xE ∧ o.func = 0 then { s with ops := s.ops.filter (fun (x : EngOp) => x.id != o.id) }
        else if o.cls = 0xE then s.updOp o.id (fun e => { e with susp := false, susc := 0, slot := none, cancel := decide (r ≠ 0) })
        else if r = 0 then s.updOp o.id (fun e => { e with susp := e.attn && e.started, susc := 0, slot := none })
        else s.endOp o.id (if o.cancel then 1 else if r = 4 then 4 else 3))))

/-! ## Graphs (class 13) and the events of engines -/

/-- R300 to R305: a graph instruction issues one operation that captures its warp's writes at once; LAUNCH and EMIT take a
positive count, SLOTW and PRMPT need the scheduling privilege or the handler. -/
def Obligations.GraphWordsComplete : Prop := ∀ f : OpT,
  let pair (b : State) (r : Src) : Nat := (b.src64 b.uLane r).toNat
  let word (b : State) (r : Src) : Nat := (b.src32 b.uLane r).toNat
  let put (b : State) (o : EngOp) : State :=
    ((({ b.bump with ops := b.ops ++ [o] }.pin o.root).await o.id f.tok 1 0).updWay
      (fun y => { y with blocks := distinct (y.blocks ++ [anyBlock]) }))
  let enters (i : Instr) (cond : State → Prop) (o : State → EngOp) : Prop :=
    Acts i (fun b => oldestCode b f.com ∧ cond b ∧ (b.opsOf (o b).warp).length < 32)
      (fun b => ((put b (o b)).capture (o b).id).advance)
  let count (b : State) : Prop := 1 ≤ word b f.c ∧ word b f.c < 2 ^ 31
  let may (b : State) : Prop := b.inHandler = true ∨ (b.tenant b.wWarp.tenant).sched = true
  enters (.launch f) count (fun b => { b.newOp 0xD 0 f with a := pair b f.a, b := pair b f.b, c := word b f.c }) ∧
  enters (.emit f) count (fun b => { b.newOp 0xD 1 f with a := pair b f.a, b := pair b f.b, c := word b f.c }) ∧
  enters (.ndone f) (fun _ => True) (fun b => { b.newOp 0xD 2 f with b := word b f.b }) ∧
  enters (.slotw f) may (fun b => { b.newOp 0xD 3 f with a := pair b f.a, b := word b f.b }) ∧
  enters (.prmptStop f) may (fun b => { b.newOp 0xD 4 f with a := pair b f.a, b := 0 }) ∧
  enters (.prmptEvict f) may (fun b => { b.newOp 0xD 4 f with a := pair b f.a, b := 1 })

/-- R143 to R145, R171, R173 to R181, R184, R300 to R305: an operation past its captured writes makes its first read, a
copy once it is first at its engine, a graph operation by doing what it is for; a cancelled one ends. A copy goes on
element by element; landed bytes are added to its barrier object; the token is written once every write is acknowledged
and 4 ns have passed, an error marking the object. -/
def Obligations.EngineEventsComplete : Prop :=
  (∀ (op : Nat) (o : EngOp) (s : State), s.op op = some o →
    o.started = false → o.stage = 0 → o.code = none →
    let starts (t : State) : Prop := exec (.engineStart op) s = .next t
    let graph (n : Nat) : Prop := o.cancel = false ∧ unheld o ∧ Captured s o ∧ o.cls = 0xD ∧ o.func = n
    (o.copies = true ∨ o.cls = 0xD → o.cancel = true → starts (s.endOp op 1)) ∧
    (o.copies = true → o.cancel = false → unheld o → Captured s o → engineFirst s o → starts (s.beginCopy o) ∧
      (o.cls = 8 → o.func = 0 → o.barVa = none → starts ((s.updOp o.id (fun _ =>
        { o with bar := none, table := s.snapshot o o.b o.c, started := true })).settleOp o.id))) ∧
    (graph 0 → starts (match s.readNode o, s.devRead o o.b 8 8 with
      | .error e, _ | _, .error e => s.stopOp o.id e
      | .ok (d, h), .ok _ =>
        (s.newInst { asd := o.asd, node := o.a, num := 0, desc := d, hdr := h, owner := o.tenant, nrec := o.c, slotAt := o.b
                     direct := true, launched := true }).endOp o.id 0)) ∧
    (graph 1 → (∀ e, s.readNode o = .error e → e ≠ .wait → starts (s.stopOp o.id e)) ∧
      (∀ x h, s.readNode o = .ok (x, h) →
        let d := NodeD.ofNat x
        let full := d.qcap = 0 ∨ d.qcap ≤ d.tail + o.c - 1 - d.taken
        let places (bs : List Byte) := s.emitPlaces d (nodeAsd o.asd h) ((List.range o.c).map (fun i =>
          (d.tail + i, (bs.drop (d.recSize * i)).take d.recSize)))
        (full → starts (s.endOp o.id 0x20)) ∧
        (¬full → (∀ e, s.devRead o o.b (d.recSize * o.c) 8 = .error e → e ≠ .wait → starts (s.stopOp o.id e)) ∧
          (∀ bs, s.devRead o o.b (d.recSize * o.c) 8 = .ok bs →
            (∀ e, s.engDev o o.a 128 128 1 = .error e → e ≠ .wait → starts (s.stopOp o.id e.graph)) ∧
            (∀ ta, s.engDev o o.a 128 128 1 = .ok ta → (∀ e, places bs = .error e → e ≠ .wait → starts (s.stopOp o.id e)) ∧
              (∀ ps, places bs = .ok ps → (Joins o (ta + 120) → starts (joined s o (ta + 120))) ∧
                (∀ u, AtHome s o (ta + 120) u →
                  let l := lineOf (ta + 120)
                  let tail : Write := {
                    id := u.clk.fresh, warp := none, src := o.warp, op := some o.id, core := o.core, die := o.core / 64
                    line := l, place := .bank, kind := .store, tenant := o.tenant, time := u.clk.time
                    bytes := (leBytes 8 (d.tail + o.c)).mapIdx (fun i b => (ta + 120 + i, b)) }
                  let t := ({ u.bump with writes := u.writes ++ [tail] }.recall l).performHome tail l (u.dieTime (stackOf l))
                  starts (((ps.foldl (fun t p => t.poolWrite o p.1 p.2) t).updNodeQ o.asd o.a id).endOp o.id 0)))))))) ∧
    (graph 2 → s.releaseReady o.warp o.scope = true →
      (∀ e ∈ s.ops, e.cls = 0xD → e.func = 2 → e.warp = o.warp → e.code = none → o.id ≤ e.id) →
      starts (if (s.warp o.warp).ndone then s.endOp o.id 1 else
        ((s.updWarp o.warp (fun w => { w with ndone := true })).updInst o.inst (fun i =>
          { i with marks := true, status := i.status ||| BitVec.ofNat 32 o.b })).endOp o.id 0)) ∧
    (graph 3 → (s.core o.b).image = none → starts (
      if 512 ≤ o.b ∨ s.plat.absCores.contains o.b then s.endOp o.id 2
      else match s.devRead o o.a 528 1 with
        | .error e => s.stopOp o.id e
        | .ok bs =>
          let x := leNat bs
          if bitsOf x 4128 96 ≠ 0 then s.endOp o.id 9
          else (s.updCore o.b (fun c => { c with image := some ((List.range 1024).map (fun e => bitsOf x (4 * e) 4),
              bitsOf x 4096 16, bitsOf x 4112 16, o.id) })).updOp o.id (fun e => { e with started := true }))) ∧
    (graph 4 → starts (match s.readNode o with
      | .error e => s.stopOp o.id e
      | .ok _ =>
        let is := (s.insts.filter (fun p => p.2.asd == o.asd && p.2.node == o.a && p.2.state == 1 && s.resident p.1)).map (·.1)
        if is = [] then s.endOp o.id 0x21
        else ((is.foldl (fun s i => (s.askStop i (o.b == 1)).updInst i (fun x =>
          { x with stopops := x.stopops ++ [o.id] })) s).updOp o.id (fun e => { e with started := true })).settleStops))) ∧
  (∀ (op : Nat) (o : EngOp) (s : State), s.op op = some o →
    let starts := o.copying = true ∧ o.susc = 0 ∧ engineFirst s o ∧ elementFree s o
    (o.copying = true → o.cancel = true → o.next = 0 ∨ o.susc ≠ 0 → exec (.copyElement op) s = .next (s.endOp op 1)) ∧
    (starts → (o.next = 0 → o.cancel = false ∧ o.susp = false ∧ o.away = false) →
      exec (.copyElement op) s = .next (match s.element o with
        | .error e => s.stopOp op e
        | .ok t => t.settleOp op) ∧
      (∀ ls, o.cls = 8 → o.func = 0 →
        let chunk := cpyChunk o.a o.b o.c o.idx
        let read := (o.table.drop chunk.1).take chunk.2
        let bs := read.map (fun n => BitVec.ofNat 8 n)
        (∀ n ∈ read, n < 256) → s.engLocs o 1 (pieces (addr64 (o.a + chunk.1)) read.length) = .ok ls →
        exec (.copyElement op) s = .next
          (((s.putPieces o ls bs).1.stepOp o chunk.2 chunk.2 (s.putPieces o ls bs).2).settleOp op))) ∧
    (∀ ta pre n g post, o.bar = some ta → o.adds = pre ++ (n, g, []) :: post → behind s o g →
      (∀ a ∈ pre, a.2.2 = [] → ¬behind s o a.2.1) →
      (Joins o ta → exec (.byteAddition op) s = .next (joined s o ta)) ∧
      (∀ u, AtHome s o ta u → exec (.byteAddition op) s = .next
        ((u.updOp op (fun e => { e with adds := e.adds.erase (n, g, []) })).barChange o.team ta (fun b => b.addBytes n)))) ∧
    (∀ c, o.code = some c → settled s o → o.adds = [] →
      let given (t : State) : State :=
        let gone := { t with ops := t.ops.filter (fun (e : EngOp) => e.id != op) }.unpin o.root
        if o.cls = 0xF then gone.updInst o.inst (fun i => { i with err := if c = 0 then i.err else 5, left := none })
        else gone.updWarp o.warp (fun w => w.putToken o (BitVec.ofNat 32 (c + 2 ^ 8 * o.info)))
      (c = 0 ∨ o.bar = none → exec (.tokenWrite op) s = .next (given s)) ∧
      (∀ ta, o.bar = some ta → c ≠ 0 → (Joins o ta → exec (.tokenWrite op) s = .next (joined s o ta)) ∧
        (∀ u, AtHome s o ta u → exec (.tokenWrite op) s = .next (given (u.barChange o.team ta Bar.setOver))))))

/-- R265, R266, R277 to R279, R182, R334: the sequencer starts the operation whose turn it is once its checks pass, runs
it step by step, stops it where it must leave the array, and resumes it; a CPYX's follow-on starts the same way. -/
def Obligations.SequencerEventsComplete : Prop := ∀ (core : Nat) (o : EngOp) (s : State),
  let groupsOf : List Group := if o.tileFunc = 0 then
      [(0, (fmtOf o.fmt).m, o.tx, o.tx + ((fmtOf o.fmt).nkb * blockBytes (fmtOf o.fmt).tb + 15) / 16 * 16)]
    else []
  let began (gs : List Group) : State := (s.updOp o.id (fun _ => s.tileBegin o gs)).setSeq o.core (some o.id)
  let starts := (s.core core).seq = none ∧ ArrayNext s core o ∧ o.started = false
  let runs := (s.core core).seq = some o.id ∧ s.op o.id = some o
  let stays := runs ∧ ¬mustLeave s o
  let done (t : State) (code : Option Nat) (susc : Nat) (last : Bool) : State :=
    if code = none ∧ last then (t.endOp o.id 0).setSeq core none
    else if code ≠ none ∨ susc ≠ 0 then t.setSeq core none else t
  let stepped (t : State) : State := match t.op o.id with
    | some e => done t e.code e.susc e.arrayDone
    | none => t.setSeq core none
  (starts → o.cls ≠ 8 → (∀ e ∈ s.ops, ¬withdrawn s core e) →
    exec (.sequencerStart core) s = .next (if o.attn then
        match s.attnBegin o with
        | .error e => s.stopOp o.id e
        | .ok e => (s.updOp o.id (fun _ => e)).setSeq o.core (some o.id)
      else match s.tileChecks o with
        | .error c => s.endOp o.id c
        | .ok gs => began gs) ∧
    (o.attn = false → o.tileFunc ≠ 1 → tileFits s o groupsOf → exec (.sequencerStart core) s = .next (began groupsOf)) ∧
    (∀ gs, o.attn = false → o.tileFunc = 1 → s.groups o (fmtOf o.fmt) = .ok gs → tileFits s o gs →
      exec (.sequencerStart core) s = .next (began gs))) ∧
  (∀ pre post, s.ops = pre ++ o :: post → withdrawn s core o → (∀ e ∈ pre, ¬withdrawn s core e) →
    exec (.sequencerStart core) s = .next (s.endOp o.id 1)) ∧
  (stays → o.attn = false → s.copiesInto o (s.tileReads o) = false →
    exec (.tileStep core) s = .next (stepped (s.tileStep o))) ∧
  (∀ t, stays → o.attn = true → s.attnStep o = some t → exec (.tileStep core) s = .next (stepped t)) ∧
  (runs → mustLeave s o → exec (.tileStop core) s = .next (if o.cancel then (s.endOp o.id 1).setSeq core none else
    ((s.putAcc o).updOp o.id (fun e => { e with susp := true, acc := [] })).setSeq core none)) ∧
  ((s.core core).seq = none → ArrayNext s core o → o.started = true → exec (.tileResume core) s =
    let grp := (unflatGroups o.table).getD o.next (0, 0, 0, 0)
    let acc := if o.attn = false ∧ (o.tileFunc ≤ 1 ∨ o.cls = 8) ∧ o.kblk ≠ 0 then
      s.readAcc o ((List.range grp.2.1).map (fun i => grp.1 + i)) else []
    .next ((s.updOp o.id (fun e => { e with susp := false, acc := acc })).setSeq core (some o.id))) ∧
  (starts → o.core = core → o.cls = 8 → o.attn = false → s.op o.id = some o → exec (.cpyxFollowOn o.id) s =
    .next (match s.tileChecks o with
      | .error _ => s.endOp o.id 0x0C
      | .ok gs => began gs))

/-- R59, R295, R296, R304: in a cycle the slot that is next chooses a gang of the tenant that its table names, and
that gang is the next to issue, unless earlier words still hold the slot (R44, R64); an image of the slot table, of a
SLOTW or of the application cores (R376), takes effect at entry 0; a wake reaches its gang, and the stub's reply to an unhandled fault ends it or its context. -/
def Obligations.IssueEventsComplete : Prop := ∀ (core u : Nat) (s : State),
  let k := s.core core
  let entry := k.slots.get 0 (256 * k.slot + k.cyc % 256)
  let named := ofTenant entry (if k.owed.get 0 k.slot = 0 then s.cands core k.slot else [])
  (core < 512 → s.plat.absCores.contains core = false → ∃ t, exec (.issueCycle core) s = .next t ∧
    (t.core core).slot = (k.slot + 1) % 4 ∧ (t.core core).cyc = (if k.slot = 3 then (k.cyc + 1) % 256 else k.cyc) ∧
    (t.core core).owed.get 0 ((k.slot + 1) % 4) = k.owed.get 0 ((k.slot + 1) % 4) ∧
    (named = none → (t.core core).owed.get 0 k.slot = k.owed.get 0 k.slot - 1 ∨ k.donor.getLsbD entry = true) ∧
    t.mem = s.mem ∧ t.clk = s.clk ∧ t.ops = s.ops ∧ t.reqs = s.reqs ∧ t.writes = s.writes ∧ t.dies = s.dies ∧
    (∀ c, named = some c → t.who = c.ref ∧ t.issuing = true) ∧
    (named = none → k.donor.getLsbD entry = false → t.who = s.who ∧ t.issuing = s.issuing)) ∧
  (k.cyc % 256 = 0 → k.slot = 0 → ∀ es dn rc,
    let put (k : Core) : Core := { k with
      slots := (List.range 1024).foldl (fun (t : Tab Nat) e => t.set 0 e (es.getD e 0 % 16)) []
      donor := BitVec.ofNat 16 dn, recv := BitVec.ofNat 16 rc }
    (∀ op, k.image = some (es, dn, rc, op) → exec (.slotTableSwap ⟨core, none⟩) s =
      .next ((s.updCore core (fun k => { put k with image := none })).endOp op 0)) ∧
    (core < 512 → s.plat.absCores.contains core = false → 2 ≤ s.plat.bstage → s.plat.fail = false →
      exec (.slotTableSwap ⟨core, some (es, dn, rc)⟩) s = .next (s.updCore core put))) ∧
  (∀ w ws, (s.warp u).wakes = w :: ws → (s.warp u).placed = true →
    (s.waits.find? (fun x => x.id == w.id) = none → exec (.gangWake u) s =
      .next (s.updWarp u (fun v => { v with wakes := v.wakes.filter (fun (y : Wake) => y.id != w.id) }))) ∧
    (∀ x, s.waits.find? (fun x => x.id == w.id) = some x →
      let t := { s.updWarp u (fun v => v.awake x w) with waits := s.waits.filter (fun (y : Waiter) => y.id != w.id) }
      exec (.gangWake u) s = .next (if x.how = 3 ∨ (x.how = 2 ∧ 2 ≤ w.status) then t.teardown (s.warp u).inst 4
        else if x.how = 2 then t.leaveHandler u (w.status == 1) else t)))

/-! ## Coherence between dies (R185 to R191) -/

/-- R186 to R190, R193, R194: a die asks for a line that it needs; the home takes a request once the line is stable and
its turn has come, asks the host or waits for a back-invalidation where it must, and grants the line from its own copy,
from the owner's, or once every other copy is given up. The value passes through the last-level cache, whose choice of a
way is the model's (log 143). -/
def Obligations.CoherenceRequestsComplete : Prop := ∀ (d l : Nat) (s : State),
  let x := s.l2 d l
  let e := s.dirE l
  let others : BitVec 8 := e.shar &&& ~~~ bit8 d
  let waiting (k : MsgKind) (trans : Nat) (w : BitVec 8) (u : State) : State :=
    u.updDir l (fun e => { e with trans := trans, txn := some { kind := k, die := d, wait := w } })
  let exclusive (t : State) : State :=
    if e.state < 2 then
      (if others = 0 then t.grantM d l else waiting .rdx 1 others (t.snoopAll .snpinv others l))
    else waiting .rdx 2 ((others &&& ~~~ bit8 e.owner) ||| bit8 e.owner)
      ((t.send { kind := .snpfwdx, die := e.owner, line := l }).snoopAll .snpinv (others &&& ~~~ bit8 e.owner) l)
  let hosted : Bool := isHost (64 * l)
  let cached (t : State) : State := t.throughLlc d l
  let asked (k : MsgKind) (t : State) : State :=
    let u := t.updDir l (fun e => { e with trans := 2, txn := some { kind := k, die := d, hostq := true } })
    { u with link := { u.link with asked := u.link.asked ++ [(l, k == .rds)] } }
  let recalled (k : MsgKind) (t : State) : State :=
    t.updDir l (fun e => { e with trans := 4, txn := some { kind := k, die := d } })
  (x.st = .I → loadWants s d l →
    exec (.rds .send d l) s = .next ((s.toState d l .IS).send { kind := .rds, die := d, line := l })) ∧
  (x.st = .I → writeWants s d l →
    exec (.rdx .send d l) s = .next ((s.toState d l .IM).send { kind := .rdx, die := d, line := l })) ∧
  (x.st = .S ∨ x.st = .O → x.snoop = none → writeWants s d l →
    exec (.upg .send d l) s = .next ((s.toState d l .SM).send { kind := .upg, die := d, line := l })) ∧
  (∀ rest, Turn s .rds d l rest →
    let t := { s with net := rest }
    exec (.rds .take d l) s = .next (if hosted ∧ e.host = 0 then asked .rds t
      else if e.hostc then recalled .rds t
      else if e.state = 0 then (if hosted ∧ e.host ≠ 2 then (cached t).grantS d l 1 else (cached t).grantE d l)
      else if e.state = 1 then (cached t).grantS d l 1
      else waiting .rds 2 (bit8 e.owner) ((cached t).send { kind := .snpfwd, die := e.owner, line := l }))) ∧
  (∀ rest, Turn s .rdx d l rest →
    let t := { s with net := rest }
    exec (.rdx .take d l) s = .next (if hosted ∧ e.host ≠ 2 then asked .rdx t
      else if e.hostc then recalled .rdx t else exclusive (cached t))) ∧
  (∀ rest, Turn s .upg d l rest →
    let t := { s with net := rest }
    exec (.upg .take d l) s = .next (if hosted ∧ e.host ≠ 2 then asked .upg t
      else if e.hostc then recalled .upg t
      else if e.shar.getLsbD d = false then exclusive (cached t)
      else if others = 0 then (cached t).grantUp d l else waiting .upg 1 others ((cached t).snoopAll .snpinv others l)))

/-- R187, R189, R191: a die gives a line up, or answers a snoop that makes it give the line up, once every lease on it has
expired, and passes it on at once; the home takes the answers, and a write-back in each of its four ways, whose acknowledgement
waits for the die's answer to a snoop still on its way, and goes on when the last is in. -/
def Obligations.CoherenceAnswersComplete : Prop := ∀ (d l : Nat) (s : State),
  let x := s.l2 d l
  let e := s.dirE l
  let dirty := x.st == .M || x.st == .O || x.st == .SM || x.st == .MI
  let data : Msg := { kind := .rspd, die := d, line := l, bytes := x.bytes, pois := x.pois, dirty := dirty }
  let copy := x.st = .M ∨ x.st = .E ∨ x.st = .O ∨ x.st = .SM ∨ x.st = .S
  let awaited (y : Txn) : Prop := e.txn = some y ∧ y.wait.getLsbD d = true
  let unasked : Prop := ∀ y, e.txn = some y → y.wait.getLsbD d = false
  let freed (u : State) : State := u.send { kind := .wback, die := d, line := l }
  let back (u : State) : State := if u.owes d l then u.updDir l (fun e => { e with held := e.held ||| bit8 d }) else freed u
  let given (u : State) : State := ((u.unwait d l).unshare d l).answered l
  let noted (y : Txn) (m : Msg) (dirt : Bool) (u : State) : State := u.updDir l (fun e => { e with
    txn := some { y with wait := y.wait &&& ~~~ bit8 d, got := y.got ++ [(d, dirt, m.bytes, m.pois)] } })
  (x.st = .M ∨ x.st = .O → leavesNext s d l → exec (.wbd .send d l) s =
    .next (((s.notice d l).toState d l .MI).send
      { kind := .wbd, die := d, line := l, bytes := x.bytes, pois := x.pois, dirty := true })) ∧
  (x.st = .S ∨ x.st = .E → leavesNext s d l → exec (.evc .send d l) s =
    .next (((s.notice d l).updL2 d l (fun _ => {})).send { kind := .evc, die := d, line := l })) ∧
  (x.st = .S ∨ x.st = .SM ∨ x.st = .O → x.snoop = some 0 → unleased s d l → exec (.ackinv .send d l) s =
    .next ((s.giveUp d l).send { kind := .ackinv, die := d, line := l })) ∧
  ((x.st = .M ∨ x.st = .E) ∧ x.snoop = some 0 ∨ copy ∧ x.snoop = some 2 → unleased s d l →
    exec (.rspd .send d l) s = .next ((s.giveUp d l).send data)) ∧
  (copy → x.snoop = some 1 → x.locked = false → exec (.rspd .send d l) s = .next ((s.updL2 d l (fun x =>
    { x with snoop := none, st := if x.st = .M ∨ x.st = .E then .O else x.st })).send data)) ∧
  (x.st = .MI → x.snoop.isSome = true → exec (.rspd .send d l) s = .next ((s.giveUp d l).send data)) ∧
  (x.st = .I ∨ x.st = .IS ∨ x.st = .IM → x.snoop.isSome = true → exec (.rspi .send d l) s =
    .next ((s.updL2 d l (fun x => { x with snoop := none })).send { kind := .rspi, die := d, line := l })) ∧
  (∀ m rest, Arrives s .wbd d l m rest →
    let t := { s with net := rest }
    let holds (p : Bool) (y : Txn) (u : State) : State :=
      u.updDir l (fun e => { e with trans := 3, txn := some { y with wbd := p } })
    (unasked → exec (.wbd .take d l) s =
      .next (back (if 2 ≤ e.state ∧ e.owner = d then (t.homeData m).unshare d l else t))) ∧
    (∀ y, awaited y → y.recov = true → exec (.wbd .take d l) s = .next (back (noted y m true t))) ∧
    (∀ y, awaited y → y.recov = false → (e.trans ≠ 2 ∨ e.owner ≠ d) →
      exec (.wbd .take d l) s = .next (back (given t))) ∧
    (∀ y, awaited y → y.recov = false → e.trans = 2 → e.owner = d → exec (.wbd .take d l) s =
      let u := (t.homeData m).unshare d l
      .next (if y.wait = bit8 d then
          holds true y ((u.updDir l (fun e => { e with txn := some { y with wait := 0 } })).answered l)
        else holds false y u))) ∧
  (∀ m rest, Arrives s .evc d l m rest →
    let t := { s with net := rest }
    (∀ y, awaited y → e.trans = 1 → exec (.evc .take d l) s = .next (given (t.dropSnoop d l))) ∧
    (unasked ∨ e.trans ≠ 1 → exec (.evc .take d l) s = .next (t.unshare d l))) ∧
  (∀ m rest, Arrives s .ackinv d l m rest → exec (.ackinv .take d l) s = .next (given { s with net := rest })) ∧
  (∀ m rest, Arrives s .rspd d l m rest →
    let t := { s with net := rest }
    (e.held.getLsbD d = true → exec (.rspd .take d l) s =
      .next (freed (t.updDir l (fun e => { e with held := e.held &&& ~~~ bit8 d })))) ∧
    (e.held.getLsbD d = false → unasked → exec (.rspd .take d l) s = .next t) ∧
    (∀ y, e.held.getLsbD d = false → awaited y → y.recov = true → exec (.rspd .take d l) s = .next (noted y m m.dirty t)) ∧
    (∀ y, e.held.getLsbD d = false → awaited y → y.recov = false → e.trans = 3 → exec (.rspd .take d l) s =
      .next (if y.wbd then ((freed t).unwait d l).endTxn l else ((freed t).unwait d l).answered l)) ∧
    (∀ y, e.held.getLsbD d = false → awaited y → y.recov = false → e.trans ≠ 3 → exec (.rspd .take d l) s = .next (if y.kind = .rds then
        (((t.homeData m).unwait d l).updDir l (fun e => { e with state := 3 })).answered l
      else (((t.homeData m).unwait d l).unshare d l).answered l))) ∧
  (∀ m rest, Arrives s .rspi d l m rest →
    let t := { s with net := rest }
    (unasked → exec (.rspi .take d l) s = .next t) ∧
    (∀ y, awaited y → exec (.rspi .take d l) s = .next (given t)))

/-- R186, R189, R191, R208: a snoop reaches a die and stops its leases; data and grants reach the die that asked;
a write-back's acknowledgement frees its buffer. -/
def Obligations.CoherenceDeliveriesComplete : Prop := ∀ (d l : Nat) (m : Msg) (rest : List Msg) (s : State),
  let t := { s with net := rest }
  let filled (st : L2St) : State := t.updL2 d l (fun x => { x with st := st, bytes := m.bytes, pois := m.pois })
  let snooped (n : Nat) : State := (t.notice d l).updL2 d l (fun x => { x with snoop := some n })
  (Arrives s .snpinv d l m rest → exec (.snpinv d l) s = .next (snooped 0)) ∧
  (Arrives s .snpfwd d l m rest → exec (.snpfwd d l) s = .next (snooped 1)) ∧
  (Arrives s .snpfwdx d l m rest → exec (.snpfwdx d l) s = .next (snooped 2)) ∧
  (Arrives s .dats d l m rest → (s.l2 d l).st = .IS → exec (.dats d l) s = .next (filled .S)) ∧
  (Arrives s .date d l m rest → (s.l2 d l).st = .IS → exec (.date d l) s = .next (filled .E)) ∧
  (Arrives s .datm d l m rest → (s.l2 d l).st = .IM → exec (.datm d l) s = .next (filled .M)) ∧
  (Arrives s .grant d l m rest → (s.l2 d l).st = .SM →
    exec (.grant d l) s = .next (t.updL2 d l (fun x => { x with st := .M }))) ∧
  (Arrives s .wback d l m rest → (s.l2 d l).st = .MI → exec (.wback d l) s = .next (t.updL2 d l (fun _ => {})))

/-! ## The host and other parts -/

/-- R192 to R195: back-invalidation, host snoops, the host's own lines, and its accesses at their home. -/
def Obligations.HostCoherenceCompletes : Prop := ∀ (l : Nat) (inv : Bool) (data : List Nat) (a : HostAcc) (s : State),
  let e := s.dirE l
  let t := s.txn l
  let live : Prop := s.link.down = false ∧ s.carries 17 = true
  let bankWants : Prop := (∃ w ∈ s.writes, w.done = false ∧ w.place = .bank ∧ w.line = l) ∨
    (∃ o ∈ s.ops, ∃ k, o.home = some (l, k)) ∨ s.trees.walk.isSome = true ∨
    (∃ r ∈ s.reqs, r.started = true ∧ ∃ i j a b c x, r.kind = .tree i j a b c x)
  (e.trans = 4 → t.biw = false → exec (.backInvalidate l) s = .next (s.updDir l (fun e =>
    { e with txn := e.txn.map (fun t => { t with biw := true }) }))) ∧
  (e.trans = 0 → e.hostc = true → bankWants → exec (.backInvalidate l) s =
    .next (s.updDir l (fun e => { e with trans := 4, txn := some { kind := .wback, die := 0, biw := true } }))) ∧
  (t.recov = true → t.biw = true → exec (.backInvalidationResponse l) s = .next (s.updDir l (fun e =>
    { e with txn := e.txn.map (fun t => { t with biw := false }) }))) ∧
  (e.trans = 4 → t.biw = true → t.recov = false → exec (.backInvalidationResponse l) s =
    let gone := s.updDir l (fun e => { e with hostc := false, trans := 0, txn := none })
    .next (if t.kind = .rds then (s.updDir l (fun e => { e with trans := 0, txn := none })).serve .rds t.die l
      else if t.kind = .wback then gone else gone.serve t.kind t.die l)) ∧
  (t.hostq = true → isHost (64 * l) = true → data.length = 64 → live → ∀ pois, exec (.hostCacheResponse l ⟨data, pois⟩) s =
    let u := { s with
      pois := s.pois.set false l pois
      mem := (List.range 64).foldl (fun m i => m.set 0 (64 * l + i) (BitVec.ofNat 8 (data.getD i 0))) s.mem
      link := { s.link with asked := s.link.asked.filter (fun p => p.1 != l) } }
    .next ((u.updDir l (fun e => { e with trans := 0, txn := none, host := if t.kind = .rds then max e.host 1 else 2 })).serve
      t.kind t.die l)) ∧
  (isHost (64 * l) = true → e.hsnp = none → live →
    exec (.hostSnoop .send l inv) s = .next (s.updDir l (fun e => { e with hsnp := some inv }))) ∧
  (isHost (64 * l) = true → e.hsnp = some inv → (e.trans = 0 ∨ t.hostq = true) → answerable s l inv →
    exec (.hostSnoop .take l inv) s = .next (if inv then (s.recall l).updDir l (fun e => { e with hsnp := none, host := 0 })
      else (s.passOn l).updDir l (fun e => { e with hsnp := none, host := min 1 e.host }))) ∧
  (a.cxl = true → s.plat.ready = true → live → 0 < a.len → a.addr + a.len ≤ ctlBase →
    (a.bytes = [] ∨ a.bytes.length = a.len) → (∀ l ∈ accLines a, s.stackAbsent (stackOf l) = false) →
    exec (.hostAccess .send a) s = .next ({ s with link := { s.link with cxlmem := true } }.arriveHost a)) ∧
  (∀ pre time post, s.link.pend = pre ++ (a, time) :: post → accLines a ≠ [] →
    (∀ p ∈ pre, ∀ l ∈ accLines a, l ∉ accLines p.1) →
    (∀ l ∈ accLines a, (s.dirE l).trans = 0 ∧ answerable s l (accWr a) ∧ headOfLine s l (homeKey time 1 0)) →
    exec (.hostAccess .take a) s = .next (s.performHost a))

/-- R122, R181, R188, R362, R368, R378, R379, R406, R409: BARs, configuration space, register accesses, other parts. That a
peer's access code 16 adds bytes to a barrier object and that a refused peer access changes nothing is the model's
(log 99); so is the form of an application core's access to memory (log 144). -/
def Obligations.OutsideAccessesComplete : Prop :=
  let answered (s : State) (c : Cpl) : State := { s with link := { s.link with cpl := some c } }
  let read (s : State) (off n : Nat) : State := answered s { ok := true, data := leBytes n (s.ctlRead off n) }
  (∀ (fn : Nat) (a : HostAcc) (s : State), fn < 16 → a.len ≠ 0 → (a.bytes = [] ∨ a.bytes.length = a.len) →
    s.link.down = false → s.carries fn = true →
    (a.addr + a.len ≤ 2 ^ 36 → exec (.hostBarAccess fn false a) s =
      .next (if s.plat.ready = false then answered s { ok := false }
        else match s.window fn a with
          | some ls => s.arriveAll a.pois ls a.bytes
          | none => answered (s.logErr 8 (1 + Config.refusedKind.toNat) a.addr 0 fn) { ok := false })) ∧
    (fn = 0 → a.addr + a.len ≤ 2 ^ 39 → exec (.hostBarAccess fn true a) s =
      .next (if (a.len = 4 ∨ a.len = 8) ∧ a.addr % a.len = 0 ∧ (s.plat.ready = true ∨ (a.bytes = [] ∧ a.addr < 0x0C0)) then
          if a.bytes = [] then read s (ctlBase + a.addr) a.len
          else answered (s.ctlWrite (ctlBase + a.addr) a.len (leNat a.bytes)) { ok := true }
        else answered s { ok := false }))) ∧
  (∀ (fn : Nat) (s : State), fn < 16 →
    exec (.configurationAccess fn .read) s = .next s ∧
    (∀ on, exec (.configurationAccess fn (.enablePri on)) s =
      .next ((s.updTenant fn (fun t => { t with pri := on })).roomFor fn s.waits)) ∧
    (∀ n, exec (.configurationAccess fn (.setAllow n)) s =
      .next ((s.updTenant fn (fun t => { t with prallow := n.toNat })).roomFor fn s.waits))) ∧
  (∀ (off : Nat) (wide : Bool) (s : State),
    let n := if wide then 8 else 4
    let done (v : Option Double) : State := match v with
      | some v => s.ctlWrite off n v.toNat
      | none => read s off n
    let app : Prop := 2 ≤ s.plat.bstage ∧ s.plat.fail = false
    off % n = 0 →
    (isCtl off = true → ∀ v,
      (s.plat.ready = true → (isBlock off = false ∨ v = none) → exec (.registerWrite .supervisor off wide v) s = .next (done v)) ∧
      (app → exec (.registerWrite .appCore off wide v) s = .next (done v)) ∧
      (s.plat.ready = true → s.link.down = false → s.carries 0 = true → exec (.registerWrite .host off wide v) s = .next (done v))) ∧
    (isCtl off = false → app →
      (isDev off = true ∧ s.stackAbsent (stackOf (lineOf off)) = false) ∨ (isHost off = true ∧ s.link.down = false) →
      exec (.registerWrite .appCore off wide none) s =
        .next (answered s { ok := true, data := s.curBytes off n, pois := s.bytesPoison off n }) ∧
      ∀ v, exec (.registerWrite .appCore off wide (some v)) s = .next (s.homeStore (2 ^ 65 + 1) none off (leBytes n v.toNat)))) ∧
  (∀ (a : PeerAcc) (s : State), s.plat.ready = true → a.len ≠ 0 → a.bytes.length = a.len →
    (a.op = none → exec (.peerAccess a) s = .next (s.peerStore a.part (s.peerLocs a 1) a.bytes)) ∧
    (∀ op, a.op = some op → (∀ p, s.peerLocs a 1 ≠ [p]) → exec (.peerAccess a) s = .next s) ∧
    (∀ op ta n, a.op = some op → s.peerLocs a 1 = [(ta, n)] → exec (.peerAccess a) s = .next (
      if op = 16 then (if ta % 16 = 0 then s.peerWrite a.part .barAdd ta 16 (leNat a.bytes) else s)
      else if op < 12 ∧ op ≠ 8 ∧ (n = 4 ∨ n = 8) ∧ ta % n = 0 then s.peerWrite a.part (.red op) ta n (leNat a.bytes)
      else s))) ∧
  (∀ (a : PeerAcc) (s : State), s.plat.ready = true → a.len ≠ 0 → a.bytes = [] → a.op = none →
    exec (.peerAccess a) s = .next s)

/-! ## The dispatcher and the scheduler (R285 to R299) -/

/-- R285 to R294, R198, R370: a record passes or is read again 1,000 ns later; groups form; an instance becomes ready, has
its header read afresh, is taken and has its teams sent; a team is admitted and retires; an instance completes access by
access; a fault that the dispatcher meets is posted once. That the dispatcher waits on a queue's tail by an entry of the
wait table is the model's choice (log 134), and so are a completion that is carried out access by access and leaves out
an access answered with a code or a record whose ring has no slot (logs 90, 93), and the form in which a fault waits
(log 90). -/
def Obligations.DispatcherEventsComplete : Prop :=
  let met (s : State) (a c va : Nat) : State :=
    let o : EngOp := {
      id := s.clk.fresh, cls := 0xE, func := 0, warp := 2 ^ 64, team := 2 ^ 64, inst := 2 ^ 64, core := 0, asd := a
      tenant := (s.asd a).tenant, susp := true, susc := c, fault := va }
    { s.bump with ops := s.ops ++ [o] }.postEngine o
  let unmet (s : State) (a va : Nat) : Prop := ∀ x ∈ s.ops, x.cls = 0xE → x.func = 0 → x.asd = a → x.fault ≠ va
  (∀ (a n r c va : Nat) (s : State), s.queueNode a n = .error (.fault c va) → unmet s a va →
    exec (.recordRefetch a n r) s = .next (met s a c va) ∧ exec (.groupForm a n) s = .next (met s a c va) ∧
      exec (.coalesceTimeout a n) s = .next (met s a c va)) ∧
  (∀ (a n r x h : Nat) (s : State), s.queueNode a n = .ok (x, h) →
    let d := NodeD.ofNat x
    let io := nodeAsd a h
    let q := s.nodeQ a n
    let p : NodeQ := { q with
      seen := if q.seen.any (fun p => p.1 == r) then q.seen else q.seen ++ [(r, s.clk.time)]
      refetch := q.refetch.filter (fun p => p.1 != r) }
    let k := match q.refetch.find? (fun p => p.1 == r) with | some p => p.2.2 + 1 | none => 0
    let t := s.watchTail a n d.tail
    let late := t.putNodeQ { p with refetch := p.refetch ++ [(r, s.clk.time + 1000, k)] }
    let i : Inst := {
      asd := a, node := n, num := 0, desc := x, hdr := h, owner := (s.asd a).tenant, direct := true, state := 3
      err := if d.bad then 3 else 0 }
    let mark (b : Bool) (s : State) : State := s.updNodeQ a n (fun q => { q with overrun := b })
    let opens := d.qcap = 0 ∧ d.preds ≠ [] ∧ s.undispatched a n = []
    (d.bad = false → d.qcap ≠ 0 → q.first ≤ r → r < q.first + d.qcap → r ∉ q.passed →
      (∀ p ∈ q.refetch, p.1 = r → p.2.1 ≤ s.clk.time) → s.emitting io d r = false →
      (r < d.tail → ∀ b, s.seqOk d io r = .ok b → exec (.recordRefetch a n r) s = .next (
        if b then t.putNodeQ { p with passed := insertNat r p.passed }
        else if k = 1000 then late.logErr (late.nodeLog a n).1 (1 + Config.stalledKind.toNat) (late.nodeLog a n).2 0 0
        else late)) ∧
      (r < d.tail → ∀ c va, s.seqOk d io r = .error (.fault c va) → unmet s io va →
        exec (.recordRefetch a n r) s = .next (met s io c va)) ∧
      (r = d.tail → (s.tailEntry a n).isSome = true → exec (.recordRefetch a n r) s = .next (t.putNodeQ q))) ∧
    (d.bad = false → d.qcap ≠ 0 → (∀ j, j < d.coal → q.first + j ∈ q.passed) →
      exec (.groupForm a n) s = .next (s.formGroup a n x h (q.ripe d) 0)) ∧
    (d.bad = true → d.qcap ≠ 0 → q.first < d.tail →
      exec (.groupForm a n) s = .next (s.formGroup a n x h (min (max 1 d.coal) (d.tail - q.first)) 3)) ∧
    (∀ b, opens → s.preds i = .ok (b, true) → q.overrun = false →
      exec (.groupForm a n) s = .next (mark true (s.newInst i))) ∧
    (opens → s.preds i = .ok (true, false) →
      exec (.groupForm a n) s = .next (mark false (if d.bad then (s.newInst i).consume i else s.newInst i))) ∧
    (opens → s.preds i = .ok (false, false) → q.overrun = true →
      exec (.groupForm a n) s = .next (mark false s)) ∧
    (∀ c va, opens → s.preds i = .error (.fault c va) → unmet s i.io va →
      exec (.groupForm a n) s = .next (met s i.io c va)) ∧
    (∀ t, d.bad = false → d.qcap ≠ 0 → q.seen.find? (fun p => p.1 == q.first) = some (q.first, t) →
      t + d.tmo ≤ s.clk.time → q.first ∈ q.passed → 1 ≤ d.coal →
      exec (.coalesceTimeout a n) s = .next (s.formGroup a n x h (q.ripe d) 0))) ∧
  (∀ (i : Nat) (x : Inst) (s : State), s.inst i = some x → x.err = 0 →
    let ends (e : Nat) : State := s.updInst i (fun y => { y with err := e })
    let mine := ∀ p ∈ s.undispatched x.asd x.node, p.1 = i ∨ (p.2.state = 3 ∧ x.num ≤ p.2.num) ∨
      (p.2.launched = true ∧ p.2.state = 0)
    let fresh : Except Stop Nat := if x.launched then .ok x.hdr else s.readHdr x.asd x.d.hdr
    let alone := x.launched = true ∨ x.d.preds = []
    let t := s.consume x
    (∀ b, x.state = 3 → mine → s.preds x = .ok (b, true) → exec (.dispatch i) s = .next (ends 6)) ∧
    (x.state = 3 → mine → s.preds x = .ok (true, false) →
      exec (.dispatch i) s = .next (s.updInst i (fun y => { y with state := 0, since := s.clk.time }))) ∧
    (∀ c va, x.state = 3 ∨ (x.state = 0 ∧ fresh = .ok x.hdr ∧ ¬alone) → s.preds x = .error (.fault c va) → unmet s x.io va →
      exec (.dispatch i) s = .next (met s x.io c va)) ∧
    (∀ c va, x.state = 0 → fresh = .error (.fault c va) → unmet s x.asd va → exec (.dispatch i) s = .next (met s x.asd c va)) ∧
    (∀ h, x.state = 0 → fresh = .ok h → h ≠ x.hdr → exec (.dispatch i) s = .next (s.updInst i (fun y =>
      { y with hdr := h, prio := (Hdr.ofNat h).prio, tenant := (Hdr.ofNat h).tenant }))) ∧
    (∀ b, x.state = 0 → fresh = .ok x.hdr → ¬alone → s.preds x = .ok (b, true) → exec (.dispatch i) s = .next (ends 6)) ∧
    (x.state = 0 → fresh = .ok x.hdr →
      (alone ∨ ((∀ b, s.preds x ≠ .ok (b, true)) ∧ ∀ c va, s.preds x ≠ .error (.fault c va))) → startsNow s x →
      (∀ p ∈ s.insts, p.1 ≠ i → p.2.state = 0 → p.2.err = 0 → p.2.ahead x = true → ¬startsNow s p.2) →
      (∀ p ∈ s.insts, p.2.state = 1 → p.2.stop = true → s.savedCandidate p.1 = true → s.before p.2 x = true →
        p.2.h.dies &&& x.h.dies = 0) →
      exec (.dispatch i) s = .next (if s.refusal x ≠ 0 then t.updInst i (fun y => { y with err := s.refusal x })
        else
          let u := t.updInst i (fun y => { y with
            state := 1, start := t.clk.time
            left := if x.kind = 1 then some 0 else if x.kind = 2 then none else x.h.nextTeam 0 })
          if x.kind = 1 then u.startList i x else u)) ∧
    (∀ t, x.state = 1 → x.stop = false → x.back = [] → x.left = some t → x.kind ≠ 1 →
      exec (.dispatch i) s = .next ((s.sendTeam i x t).updInst i (fun y => { y with left := y.h.nextTeam (t + 1) }))) ∧
    (∀ t r, x.state = 1 → x.stop = false → x.back = t :: r →
      exec (.dispatch i) s = .next ((s.sendTeam i x t).updInst i (fun y => { y with back := r })))) ∧
  (∀ (c i t : Nat) (r : List (Nat × Nat)) (s : State), (s.core c).queue = (i, t) :: r →
    (s.inst i = none → exec (.admitTeam c) s = .next (s.updCore c (fun k => { k with queue := r }))) ∧
    (∀ x, s.inst i = some x → HasRoom s c i x.h t → (∀ p ∈ s.insts, s.savedFirst i c x p = false) →
      exec (.admitTeam c) s = .next (((s.updCore c (fun k => { k with queue := r })).place c i x t).trimL1 c))) ∧
  (∀ (t : Nat) (x : Team) (s : State), s.teams.find t = some x →
    let ws := s.warps.filter (fun p => p.2.team == t)
    (∀ pre p post, s.warps = pre ++ p :: post → p.2.team = t → p.2.retired = true → p.2.gone = false →
      (∀ q ∈ pre, q.2.team = t → q.2.retired = false ∨ q.2.gone = true) →
      exec (.teamRetire t) s =
        .next (((s.unpin p.2.root).updWarp p.1 (fun w => { w with gone := true })).leftCore p.2.inst)) ∧
    ((∀ p ∈ ws, p.2.gone = true) → (∀ p ∈ ws, (∀ o ∈ s.ops, o.warp ≠ p.1) ∧ ∀ r ∈ s.reqs, r.warp ≠ p.1) →
      exec (.teamRetire t) s =
        let fs := (ws.filter (fun p => p.2.current.sfmask != 0)).map (fun p => (x.index, p.2.num, p.2.current.sfmask))
        let u := s.updInst x.inst (fun y => { y with faults := y.faults ++ fs })
        .next (({ u with warps := u.warps.filter (fun p => !ws.any (fun q => q.1 == p.1)), teams := u.teams.erase t }.freeStore
          x.core).settleStops))) ∧
  (∀ (i : Nat) (x : Inst) (s : State), s.inst i = some x →
    let ended := (x.state ≠ 1 ∧ x.err ≠ 0) ∨
      (x.state = 1 ∧ s.allSent i x = true ∧ s.warpsOf i = [] ∧ ∀ o ∈ s.ops, o.inst ≠ i)
    let begins (early : Bool) : State := { s.bump with ops := s.ops ++ [{
      id := s.clk.fresh, cls := 0xE, func := 1, warp := 2 ^ 64, team := 2 ^ 64, inst := i, core := 0, asd := x.io
      tenant := (s.asd x.io).tenant, started := true, stage := if early then 2 else 0, c := early.toNat }] }
    ((∀ o ∈ s.ops, o.cls = 0xE → o.func = 1 → o.inst ≠ i) →
      (ended → exec (.instanceComplete i) s = .next (begins false)) ∧
      (¬ended → x.state = 1 → s.allSent i x = true → x.marks = true → x.arrived = false → x.err = 0 →
        (∀ p ∈ s.warpsOf i, p.2.ndone = true ∨ p.2.retired = true) → exec (.instanceComplete i) s = .next (begins true))) ∧
    (∀ pre o post, s.ops = pre ++ o :: post → o.cls = 0xE → o.func = 1 → o.inst = i →
      (∀ e ∈ pre, e.cls = 0xE → e.func = 1 → e.inst ≠ i) → o.susc = 0 →
      let goes (t : State) : Prop := exec (.instanceComplete i) s = .next t
      let on (t : State) (k : Nat) : State := t.updOp o.id (fun e => { e with stage := k, cancel := false })
      let last (t : State) : State :=
        let u := { t with ops := t.ops.filter (fun (e : EngOp) => e.id != o.id) }
        if o.c = 1 then u.updInst i (fun y => { y with arrived := true }) else { u with insts := u.insts.erase i }.settleStops
      (o.stage = 0 → (x.d.crcap = 0 ∨ o.cancel = true → goes (on s 1)) ∧
        (x.d.crcap ≠ 0 → o.cancel = false →
          (∀ t, s.asdWrite o x.io x.recordAt (s.record x) = .ok t → goes (on t 1)) ∧
          (∀ c, s.asdWrite o x.io x.recordAt (s.record x) = .error (.code c) → goes (on s 1)) ∧
          (∀ c va, s.asdWrite o x.io x.recordAt (s.record x) = .error (.fault c va) → goes (s.stopOp o.id (.fault c va))))) ∧
      (o.stage = 1 → (o.cancel = true → goes (on (s.noteTaken x) 2)) ∧
        (o.cancel = false → (∀ t, s.advanceTaken o x = .ok (some t) → goes (on (t.noteTaken x) 2)) ∧
          (∀ c, s.advanceTaken o x = .error (.code c) → goes (on (s.noteTaken x) 2)) ∧
          (∀ c va, s.advanceTaken o x = .error (.fault c va) → goes (s.stopOp o.id (.fault c va))))) ∧
      (2 ≤ o.stage → o.bar = none → settled s o → o.adds = [] → (o.cancel = true → goes (last s)) ∧
        (o.cancel = false → (∀ ta, s.cbarAt x = .ok (some ta) → goes (s.updOp o.id (fun e => { e with bar := some ta }))) ∧
          ((s.cbarAt x = .ok none ∨ ∃ c, s.cbarAt x = .error (.code c)) → goes (last s)) ∧
          (∀ c va, s.cbarAt x = .error (.fault c va) → goes (s.stopOp o.id (.fault c va))))) ∧
      (∀ ta, 2 ≤ o.stage → o.bar = some ta → (Joins o ta → goes (joined s o ta)) ∧
        (∀ u, AtHome s o ta u → goes (last (u.barChange 0 ta (fun b => if x.err = 0 then b.arrive 1 else b.setOver)))))))

/-- R297 to R299, R316, R347: a context is asked to stop for one of higher priority, when its quantum ends, or when
all of it is parked; a stopped warp is saved and its team restored; an unreferenced root is reclaimed node by
node. -/
def Obligations.SchedulerEventsComplete : Prop :=
  (∀ (i : Nat) (x : Inst) (s : State), s.inst i = some x → x.state = 1 → x.stop = false →
    (∃ p ∈ s.warps, p.2.inst = i ∧ p.2.placed = true ∧ p.2.retired = false) →
    let parked := ∀ p ∈ s.warps, p.2.inst = i → p.2.placed = true → p.2.retired = false →
      p.2.trap = none ∧ ∀ g ∈ p.2.arch.gangs, g.waits = true
    let askable := x.aged = false ∨ x.start + 2000000 ≤ s.clk.time ∨ parked
    let asked := s.askStop i false
    (askable → s.pressed i x = true → exec (.preemptRequest i) s = .next asked) ∧
    (∀ p ∈ s.insts, ∀ t, askable → p.1 ≠ i → p.2.state = 0 → p.2.err = 0 → x.prio < p.2.prio → s.refusal p.2 = 0 →
      p.2.h.nextTeam 0 = some t → (∀ c ∈ s.allowed p.2.h, ¬HasRoom s c p.1 p.2.h t) →
      (∃ q ∈ s.warps, q.2.inst = i ∧ q.2.placed = true ∧ q.2.core ∈ s.allowed p.2.h) →
      exec (.preemptRequest i) s = .next asked) ∧
    (x.start + 2000000 ≤ s.clk.time → (∃ p ∈ s.insts, p.1 ≠ i ∧ s.waiting p = true ∧
        (x.prio ≤ p.2.prio ∨ p.2.since + 4000000 ≤ s.clk.time)) →
      exec (.quantumExpiry i) s = .next asked) ∧
    (parked → (∀ p ∈ s.warps, p.2.inst = i → p.2.placed = true → p.2.retired = false →
        p.2.since ≠ 0 ∧ p.2.since + 10000 < s.clk.time) →
      exec (.parkYield i) s = .next (asked.updInst i (fun y => { y with yielded := true })))) ∧
  (∀ (u : Nat) (s : State), let w := s.warp u
    w.preempt = true → w.placed = true → w.retired = false → w.wpend = 0 →
    w.trap = none → w.regions = [] → (∀ l, w.loop = some l → l.ways = [] ∧ l.ending = false) →
    (∀ g ∈ w.arch.gangs, g.park ≠ .none ∧ g.chain.isMember = false) →
    (∀ r ∈ s.reqs, r.warp = u → r.kind = .prefetch) →
    exec (.warpSave u) s =
      .next (((s.updWarp u (fun v => { v with
        placed := false, arch := w.arch.keepLive, since := 0, late := []
        loop := v.loop.map (fun l => { l with ew := 1, ctxs := [] }) })).leftCore w.inst).freeStore w.core)) ∧
  (∀ (u core : Nat) (x : Inst) (s : State), let w := s.warp u
    let t := s.resumeTeam w.team core x.h.tenant (s.savedOf w.team)
    s.inst w.inst = some x → w.placed = false → s.canResume w.team core x.h = true →
    (∀ p ∈ s.insts, s.goesFirst w.inst core x p = false) →
    (x.stop = true → s.savedCandidate w.inst = true → s.ctxRoom x.tenant = true →
      exec (.warpResume u core) s = .next (t.updInst w.inst (fun y => { y with
        stop := false, evict := false, yielded := false, stopops := [], start := s.clk.time,
        aged := y.since + 4000000 ≤ s.clk.time }))) ∧
    (x.state = 1 → x.stop = false → (∃ p ∈ s.warps, p.2.inst = w.inst ∧ p.2.placed = true ∧ p.2.retired = false) →
      exec (.warpResume u core) s = .next (t.updInst w.inst (fun y => y))) ∧
    ∀ v, (∀ p ∈ s.savedOf w.team, p.1 ≠ v) → t.warps.find v = s.warps.find v) ∧
  (∀ (r : Nat) (rest : List Nat) (s : State), s.trees.walk = none → s.trees.ready = r :: rest →
    exec .reclaimRoot s = .next ({ s with trees := { s.trees with ready := rest, walk := some { root := r } } }.updRoot r
      (fun q => { q with recl := true })))

/-! ## Errors, recovery, heat and boot -/

/-- R383 to R386, R390: errors are logged and counted; an uncorrectable one poisons what it names; a directory entry
that cannot be read is rebuilt from every die's answer. That an uncorrectable error of a line counts at its home die and at
a DRAM layer is the model's (log 145). -/
def Obligations.ErrorEventsComplete : Prop :=
  (∀ (log addr n tenant : Nat) (s : State), log < 10 →
    exec (.correctedError log addr (.core n) tenant) s = .next ((s.logErr log 1 addr n tenant).lifeUp .coreCorr n) ∧
    exec (.correctedError log addr (.die n) tenant) s = .next ((s.logErr log 1 addr 0 tenant).lifeUp .dieCorr n) ∧
    exec (.correctedError log addr (.layer n) tenant) s = .next ((s.logErr log 1 addr 0 tenant).lifeUp .layerCorr n) ∧
    exec (.correctedError log addr (.lane n) tenant) s = .next ((s.logErr log 1 addr 0 tenant).lifeUp .laneCorr n)) ∧
  (∀ (l : Nat) (s : State), (isDev (64 * l) = true ∧ s.stackAbsent (stackOf l) = false) ∨ isHost (64 * l) = true →
    exec (.uncorrectableError (.line l)) s =
      let t := ((s.poisonLine l).logErr (logOf (64 * l)) 2
        (if isDev (64 * l) then 64 * l else 64 * l - hostBase) 0 0).lifeUp .dieBad (logOf (64 * l))
      .next (if isDev (64 * l) then t.lifeUp .layerBad (4 * stackOf l + Config.layerOf l % 4) else t)) ∧
  (∀ (u l n : Nat) (s : State), let w := s.warp u
    (s.warps.find u).isSome = true → w.placed = true →
    (n < w.alloc → l < 32 → exec (.uncorrectableError (.vreg u l n)) s =
      .next (((s.updWarp u (fun w => w.updArch 0 (fun a => { a with vpois := a.vpois.set false (vkey n l / 2) true }))).logErr
        (w.core / 64) 2 0 w.core w.tenant).lifeUp .coreBad w.core)) ∧
    (n < 64 → exec (.uncorrectableError (.greg u n)) s =
      .next (((s.updWarp u (fun w => w.updArch 0 (fun a => { a with gpois := a.gpois.set false (n / 2) true }))).logErr
        (w.core / 64) 2 0 w.core w.tenant).lifeUp .coreBad w.core))) ∧
  (∀ (t off : Nat) (s : State), let x := s.team t
    (s.teams.find t).isSome = true → off < x.size → exec (.uncorrectableError (.scratch t off)) s =
      .next (((s.updTeam t (fun x => { x with pois := x.pois.set false (off / 8) true })).logErr (x.core / 64) 2 0 x.core 0).lifeUp
        .coreBad x.core)) ∧
  (∀ (l : Nat) (s : State), let e := s.dirE l
    (isDev (64 * l) = true → s.stackAbsent (stackOf l) = false → e.trans = 0 →
      exec (.dirEntryError .send l) s = .next (s.beginRecovery l)) ∧
    (e.bad = true → (s.txn l).recov = true → (s.txn l).wait = 0 → (s.txn l).biw = false →
      exec (.dirEntryError .take l) s =
        let got := (s.txn l).got
        let dirty := got.filter (fun g => g.2.1)
        let vals := distinct (dirty.map (fun g => lineBytes g.2.2.1 l))
        let v := vals.headD (lineBytes s.mem l)
        let apart := 1 < vals.length ∨ ∃ g ∈ got, g.2.1 = false ∧ lineBytes g.2.2.1 l ≠ v
        let pois := match dirty with | [] => s.pois.get false l | g :: _ => g.2.2.2
        .next ((if apart then { s with pois := s.pois.set false l true }.logErr (stackOf l) 5 (64 * l) 0 0
          else { s with
            mem := writeBytes s.mem (64 * l) v, pois := s.pois.set false l pois }.logErr (stackOf l) 4 (64 * l) 0 0).updDir l
          (fun e => { hsnp := e.hsnp, held := e.held })))) ∧
  (∀ (unit : Nat) (s : State), exec (.linkRetrain unit) s = .next (s.lifeUp .retrain unit))

/-- R382, R387 to R389: the host link goes down at a failure or an integrity error, its host lines given up and the
dirty ones salvaged; it comes back; the salvaged records are written to the host in order, or given up. That the REPLAY
and DISC bits clear as their step is done, and that a recovery takes a replay asked for meanwhile, is the model's (logs 106,
133). -/
def Obligations.HostLinkEventsComplete : Prop :=
  (∀ (stream : Nat) (s : State), s.link.down = false →
    exec .hostLinkDown s = .next s.takeLinkDown ∧
    (stream < 18 → s.carries stream = true → exec (.ideIntegrityFailure stream) s = .next s.takeLinkDown)) ∧
  (∀ s : State, s.link.down = true → exec .linkRecover s =
    let t := { s with
      link := { s.link with down := false }
      warps := s.warps.map (fun (p : Nat × Warp) => (p.1, { p.2 with posted := none })) }
    .next (if s.link.replay then t.askReplay else t)) ∧
  (∀ (refused : List Nat) (s : State), s.link.down = false → exec (.replay refused) s =
    let t := (List.range s.link.scount).foldl (fun t i =>
      let r := t.salvaged i
      let l := lineOf (hostBase + r.2.1)
      if refused.contains i then t.logErr 9 7 r.2.1 0 r.2.2
      else ({ t with pois := t.pois.set false l (t.linePoison (lineOf (t.link.sbase + 128 * i))) }.poke (64 * l) r.1).logErr
        9 8 r.2.1 0 r.2.2) s
    .next { t with link := { t.link with scount := 0, replay := false } }) ∧
  (∀ s : State, exec .disc s =
    let t := (List.range s.link.scount).foldl (fun t i => t.logErr 9 7 (t.salvaged i).2.1 0 (t.salvaged i).2.2) s
    .next { t with link := { t.link with scount := 0, disc := false } })

/-- R7, R380, R390, R405 to R408: resets, the boot stages with their verification and measurements, the self test, thermal
events, and one nanosecond of the time base. R7 gives only its bound of 4 ns: which point moves at a tick, and how far, is the
model's law of free drift (logs 6, 135). -/
def Obligations.PlatformEventsComplete : Prop := ∀ s : State,
  let low (t : State) (b : Nat) (e : List (Option Nat)) : State := { t with plat := { t.plat with
    throttled := t.plat.throttled.filter (fun (p : Nat × Option Nat) => p.1 != b) ++ e.map (fun x => (b, x)) } }
  (exec (.cold .powerOn) s = .next s.resetPart ∧ (s.plat.trip = true → exec (.cold .thermalTrip) s = .next s.resetPart) ∧
    exec (.warm .hotReset) s = .next s.resetPart) ∧
  (s.plat.ready = true → exec (.cold .statusWrite) s = .next s.resetPart ∧ exec (.warm .statusWrite) s = .next s.resetPart) ∧
  (∀ img sig a, s.plat.fail = false → s.plat.ready = false →
    (s.plat.bstage < 3 → Config.slhVerify Config.fusedKey img sig = true → exec (.bootStage ⟨img, sig⟩ a) s = .next { s with
      plat := { s.plat with bstage := s.plat.bstage + 1, meas := s.plat.meas.set 0 s.plat.bstage (shake256 img) } }) ∧
    (s.plat.bstage < 3 → Config.slhVerify Config.fusedKey img sig = false →
      exec (.bootStage ⟨img, sig⟩ a) s = .next { s with plat := { s.plat with fail := true } }) ∧
    (s.plat.bstage = 3 → exec (.bootStage ⟨img, sig⟩ a) s = .next (s.selfTest a))) ∧
  (∀ k, k < 10 → exec (.thermalTrip k) s =
    let t := s.lifeUp .trip k
    .next { t with plat := { t.plat with trip := true }, agenda := .cold .thermalTrip :: t.agenda }) ∧
  (∀ b r, exec (.thermalThrottle ⟨b, false, r⟩) s = .next (low (s.lifeUp .heat (16 * b + Config.histBin false r % 16)) b [none]) ∧
    exec (.thermalThrottle ⟨b, true, r⟩) s = .next (low (s.lifeUp .droop (16 * b + Config.histBin true r % 16)) b [none])) ∧
  (∀ b pre x post, s.plat.throttled = pre ++ (b, x) :: post → (∀ p ∈ pre, p.1 ≠ b) →
    (x = none → exec (.throttleRelease ⟨b, true⟩) s = .next (low s b [some s.clk.time])) ∧
    (∀ t, x = some t → t + 1000000 ≤ s.clk.time → exec (.throttleRelease ⟨b, false⟩) s = .next (low s b []))) ∧
  exec .timeBaseTick s =
    let x := Config.drift s.clk.free
    let p := x / 5 % 521
    let ws := s.warps.map (fun (p : Nat × Warp) => (p.1, p.2.noteParked (s.clk.time + 1)))
    .next { s with
      insts := s.insts.map (fun (p : Nat × Inst) => (p.1, p.2.noteParked p.1 ws))
      clk := { s.clk with
        time := s.clk.time + 1, free := s.clk.free + 1
        skew := s.clk.skew.set 0 p (max (x % 5) (min 4 (s.clk.skew.get 0 p) - 1)) }
      warps := ws }

/-- R381, R382: the trust unit answers each SPDM message whose turn it is, with the device's identity key where it signs, and
programs keys in a secure session only; a message out of turn is answered with an error and changes nothing else. R381 lists
the messages: their codes, their order and the error answers are presumed (log 110), and that keys are held for 18 streams
is the model's (log 111). -/
def Obligations.TrustMessagesComplete : Prop := ∀ s : State,
  let t := s.plat.trust
  let say (u : State) (ws : List Nat) : State :=
    u.updTrust (fun t => { t with answers := ws, count := t.count + 1 })
  let signed (u : State) (ws : List Nat) : State :=
    { say u (ws ++ [Config.slhSign Config.identityKey ws u.clk.free]) with clk := { u.clk with free := u.clk.free + 1 } }
  let inTurn (i : Instr) (c : Bool) (r : State) : Prop := exec i s = .next (if c then r else say s [0x7F, 4])
  let m (i : Nat) : Nat := s.plat.meas.get 0 i
  exec .getVersion s = .next (say (s.updTrust (fun t => { keys := t.keys, count := t.count, version := true })) [0x04, 0x13]) ∧
  inTurn .getCapabilities t.version (say (s.updTrust (fun t => { t with caps := true })) [0x61, Config.spdmFlags]) ∧
  inTurn (.negotiateAlgorithms true) t.caps (say (s.updTrust (fun t => { t with algs := true })) [0x63]) ∧
  inTurn (.negotiateAlgorithms false) t.caps (say (s.updTrust (fun t => { t with algs := false })) [0x7F, 1]) ∧
  inTurn .getDigests t.algs (say s [0x01, Config.chainDigests Config.identityKey]) ∧
  (∀ k, inTurn (.getCertificate k) t.algs (say s [0x02, k, Config.certificate Config.identityKey k])) ∧
  (∀ n, inTurn (.challenge n) t.algs (signed s [0x03, n, m 0, m 1, m 2])) ∧
  inTurn (.getMeasurements 0) t.algs (say s [0x60, 3]) ∧
  (∀ k, 1 ≤ k → k ≤ 3 → inTurn (.getMeasurements k) t.algs (say s [0x60, m (k - 1)])) ∧
  inTurn (.getMeasurements 255) t.algs (say s [0x60, m 0, m 1, m 2]) ∧
  (∀ n, inTurn (.keyExchange n) t.algs (signed (s.updTrust (fun t => { t with session := true, secure := false }))
    [0x64, n, Config.trustWord s.clk.free 0])) ∧
  inTurn (.finish true) (t.session && !t.secure) (say (s.updTrust (fun t => { t with secure := true })) [0x65]) ∧
  inTurn (.finish false) (t.session && !t.secure) (say (s.updTrust (fun t => { t with session := false })) [0x7F, 6]) ∧
  inTurn .endSession t.secure (say (s.updTrust (fun t => { t with session := false, secure := false })) [0x6C]) ∧
  (∀ k key, k < 18 → inTurn (.ideKm k key) t.secure
    ((s.updTrust (fun t => { t with keys := t.keys.set 0 k (key + 1), count := t.count + 1 })).roomFor k s.waits)) ∧
  (∀ k key, 18 ≤ k → inTurn (.ideKm k key) t.secure (say s [0x7F, 1]))

/-! ## Issuing, fetching and stepping -/

/-- R26, R38, R45, R48, R82: a word whose guard lets it do no work advances the gang by one word and changes no
register, predicate, flag or byte of memory; a chain member was checked at its head. -/
def Obligations.GuardedOffWordsOnlyAdvance : Prop := ∀ (i : Instr) (u : Uses) (s : State),
  usesOf i = some u → Present s → s.doesWork u.com = false →
  (s.member = true ∨ s.busyReg s.active (guardReg u.com) = false) →
  ∃ t, exec i s = .next t ∧ OnlyRegisters s t ∧ WentOn s t ∧ (∀ n l, vreg t n l = vreg s n l) ∧
    (∀ n, greg t n = greg s n) ∧ (∀ n l, preg t n l = preg s n l) ∧ (∀ n, gpreg t n = gpreg s n) ∧
    t.arch.fstat = s.arch.fstat

/-- R37, R43, R44, R48, R106, R148, R264, R384: before a word acts, its guard is awaited, then a register over the bound
traps, then the scoreboard holds it back, then poison traps, which is logged; in each case nothing of the word has happened. A
word of the array awaits here only the registers that its own checks read; its mask and token registers come after those
(R264). PRF traps for neither: over the bound it does nothing, and it drops a poisoned lane by itself. -/
def Obligations.WordChecksEndInOrder : Prop := ∀ (i : Instr) (u : Uses) (s : State),
  usesOf i = some u → s.member = false →
  (s.busyReg s.active (guardReg u.com) = true → exec i s = .next s.stall) ∧
  (s.busyReg s.active (guardReg u.com) = false → s.doesWork u.com = true →
    (s.overBound u = true → exec i s =
      .next (if dropsLanes i then s.ended (.done (s.begin u).advance) else s.trapC 0x03 (s.faulting u.com))) ∧
    (s.overBound u = false → s.waits? (usesFirst i u) = true → exec i s = .next s.stall) ∧
    (s.overBound u = false → s.waits? (usesFirst i u) = false → s.poisoned u (s.workLanes u.com) = true → dropsLanes i = false →
      exec i s = .next ((s.consumed s.wWarp.core s.wWarp.tenant).trapC 0x0F (s.poisonFault u))))

/-- R24, R26, R41 to R44, R48, R82, R319, R360, R387: a step of a gang that issues is `exec` of the instruction that its
word decodes to, once the chain's checks pass; else the trap, wait or no-op that they give. Otherwise the agenda's first
step is taken, or passed over if it cannot happen; with none, the machine picks one (log 1). -/
def Obligations.StepRunsTheDecodedInstruction : Prop := ∀ (s : State) (w : BitVec 96),
  let b := unchained s
  (s.plat.supply = false → step s = .fault .outsideOperatingConditions) ∧
  (Supplied s → s.issuing = true → s.member = true →
    (∀ e, s.fetchAt s.who.warp s.pc.toNat = .error e → step s = .next (s.fetchTrap e)) ∧
    (s.fetchAt s.who.warp s.pc.toNat = .ok w →
      let v := walked s 3
      (∀ i, decode w = .ok i → step s = exec i v) ∧
      (∀ e, decode w = .error e → step s = .next (
        if s.doesWork (wordCom w) then v.trapC 0x01 (v.faulting (wordCom w)) else v.skipWord w)))) ∧
  (Supplied s → s.issuing = true → s.member = false →
    (b.overdue 1 = true → step s = .next (b.trapC 0x08 b.active)) ∧
    (b.overdue 1 = false → ∀ r, b.lostRelease = some r →
      step s = .next ((b.takeBackReqs r).trap { cause := 0x15, lanes := b.active, at' := some r.pc })) ∧
    (b.overdue 1 = false → b.lostRelease = none → b.pc.toNat % 12 ≠ 0 →
      step s = .next (b.fetchTrap (0x09, b.pc.toNat))) ∧
    (b.overdue 1 = false → b.lostRelease = none → b.pc.toNat % 12 = 0 →
      (∀ e, b.fetchAt b.who.warp b.pc.toNat = .error e → step s = .next (b.fetchTrap e)) ∧
      (b.fetchAt b.who.warp b.pc.toNat = .ok w →
        (b.loopEnding = true ∧ isSpend w = false ∧ b.doesWork (wordCom w) = true →
          step s = .next ((walked b 3).trapC 0x10 (b.faulting (wordCom w)))) ∧
        (b.loopEnding = false ∨ isSpend w = true ∨ b.doesWork (wordCom w) = false →
          (∀ e, b.members b.who.warp b.pc.toNat w = .error e → step s = .next (b.fetchTrap e)) ∧
          (∀ ws, b.members b.who.warp b.pc.toNat w = .ok ws → b.inHandler = true → b.overdue (1 + ws.length) = true →
            step s = .next ((walked b (3 * headWords w ws)).trapC 0x08 b.active))))) ∧
    (∀ ws, Fetched b w ws →
      let v := walked b (3 * headWords w ws)
      (∀ k m c, v.chainCheck [] (w :: ws) = some (k, m, c) →
        let t := if c = 0x0F then v.consumed v.wWarp.core v.wWarp.tenant else v
        step s = .next (t.trap {
          cause := c, lanes := t.chainFault ((w :: ws).take k) m c
          memb := if k = 0 then none else some (b.pc + 12 * BitVec.ofNat 64 k) })) ∧
      (v.chainCheck [] (w :: ws) = none → v.chainWaits (w :: ws) = true → step s = .next v.stall) ∧
      (v.chainCheck [] (w :: ws) = none → v.chainWaits (w :: ws) = false →
        (∀ i, decode w = .ok i → step s = exec i (headed v ws)) ∧
        (∀ e, decode w = .error e → step s = .next ((headed v ws).skipWord w))))) ∧
  (Supplied s → s.issuing = false →
    (∀ i r, s.agenda = i :: r → step s = match exec i { s with agenda := r } with
      | .refused _ => .next { s with agenda := r }
      | o => o) ∧
    (s.agenda = [] → step s = .next s.nextEvent))

/-- R24: a part that meets its operating conditions never stops: no number of steps, from any state, ends in a
fault or a refusal. -/
def Obligations.SuppliedPartsAreSafe : Prop := ∀ s : State, Supplied s → Safe s

/-- R185, R295, R343, R345, R374, R385, R388, R406: after reset nothing is present, running or held: boot is at stage 0,
directory entries, descriptors, roots, tenants and logs are clear, every slot-table entry names tenant 0 with
both masks zero. That the supply is sound, that every line reads zero at its home, that no die holds it, and the zeros
of handler vectors and fault queues are the model's choices (logs 3 to 5). -/
def Obligations.ResetState : Prop :=
  let s := State.reset
  Memory.wf s ∧ Supplied s ∧ s.issuing = false ∧ s.agenda = [] ∧ s.warps = [] ∧ s.teams = [] ∧ s.insts = [] ∧
  s.ops = [] ∧ s.reqs = [] ∧ s.writes = [] ∧ s.waits = [] ∧ s.net = [] ∧
  s.plat.bstage = 0 ∧ s.plat.ready = false ∧ s.plat.fail = false ∧ s.link.egress = [] ∧ s.link.scount = 0 ∧ s.link.slost = 0 ∧ s.logs = [] ∧
  (∀ a, s.cur a = 0) ∧ (∀ l, s.linePoison l = false) ∧
  (∀ l, (s.dirE l).state = 0 ∧ (s.dirE l).trans = 0 ∧ (s.dirE l).hostc = false) ∧
  (∀ d l, (s.l2 d l).st = .I ∧ (s.l2 d l).len = 256 ∧ (s.l2 d l).exp = 0) ∧
  (∀ c, (s.core c).l1 = [] ∧ (s.core c).image = none ∧ (s.core c).donor = 0 ∧ (s.core c).recv = 0 ∧
    ∀ n, (s.core c).slots.get 0 n = 0) ∧
  (∀ t, (s.tenant t).valid = false ∧ (s.tenant t).hvec = 0 ∧ (s.tenant t).fqhead = 0 ∧ (s.tenant t).fqtail = 0) ∧
  (∀ a, (s.asd a).valid = false) ∧ (∀ r, (s.root r).valid = false ∧ (s.root r).pin = 0) ∧
  (∀ k, (s.pool k).cnt = 0)

/-- The model's memory keeps its one form: every step from a state whose memory is canonical ends in such a
state. -/
def Obligations.StepsKeepMemoryCanonical : Prop := ∀ s t : State, Memory.wf s → step s = .next t → Memory.wf t

/-! ## Encodings -/

/-- R28 to R36, R46, R47, R49: every well-formed word encodes, and its encoding decodes to it, with every operand at
every value. -/
def Obligations.DecodeOfEncode : Prop := ∀ i : Instr, i.wf = true → i.form.isSome = true →
  ∃ w, encode i = some w ∧ decode w = .ok i

/-- R47: a word that decodes is the encoding of a well-formed instruction: no other word is legal, and no bit of a
legal word is passed over. -/
def Obligations.EncodeOfDecode : Prop := ∀ (w : BitVec 96) (i : Instr), decode w = .ok i → i.wf = true ∧ encode i = some w

/-- Words that the spec writes out bit by bit, one or more of each format. -/
def Obligations.SpecWordsDecode : Prop :=
  let word (w2 w1 w0 : BitVec 32) : BitVec 96 := w2 ++ w1 ++ w0
  let sure : Common := ⟨false, 0, false⟩
  let group : Common := ⟨true, 0, false⟩
  decode (word 0 0 0) = .ok (.nop ⟨sure, 0, .v 0, .v 0, 0, 0⟩) ∧
  decode (word 0x10440004 0x0060C800 0) = .ok (.isub ⟨⟨false, 1, false⟩, false, 0, 0, .v 1, .v 1, .imm 50, .v 0, .s32, .rn, 0⟩) ∧
  decode (word 0x16600814 0x3F8 0) = .ok (.movi ⟨group, false, 0, 0, .g 5, .v 0, .v 0, 0xFE000000, .s32, 0⟩) ∧
  decode (word 0x01400000 0 0x01800000) = .ok (.loop ⟨sure, 0, .v 0, .v 0, 6, 0⟩) ∧
  decode (word 0x5040C000 0x81000800 0x50000000) =
    .ok (.st ⟨sure, .device, .relaxed, .v 0, .g 4, .v 2, .v 1, .word, 0, 0⟩) ∧
  decode (word 0x8020C828 0x81081A20 0x22100000) =
    .ok (.cpy ⟨group, .device, .g 10, .g 4, .g 6, .imm 128, 0x22100000⟩) ∧
  decode (word 0xB1800024 0 0x02000000) = .ok (.atomb ⟨sure, 0, .v 9, .v 0, 8, 0⟩) ∧
  decode (word 0xC1800000 0 0x10000010) = .ok (.csrr ⟨sure, .warp, .relaxed, .v 0, .v 0, .v 0, .v 0, .word, 0, 0x10⟩)

/-! ## Traps -/

/-- R357 to R359: outside the handler and in no way that is not the oldest, a trap saves what R357 names and
enters the handler: the gang's slices hold their faulting lanes at the tenant's HVEC, the supervisor window,
predicates, flags and g48 to g63 read zero, every other register reads as before, and nothing else changes, but that the requests of younger ways, which are squashed, go.
The record holds the gang's PC, or that of an earlier instruction of the gang whose failure is reported late (log 23). -/
def Obligations.TrapsEnterTheHandler : Prop := ∀ (s : State) (t : Trap),
  let w := s.wWarp
  let n := s.trap t
  Present s → w.trap = none → w.young s.who.way = false →
  (∀ y, w.way? s.who.way = some y → y.st ≠ 1) → (s.tenant w.tenant).hvec ≠ 0 →
  n = { s with warps := n.warps, reqs := n.reqs, ops := n.ops, issuing := false } ∧
  (∀ (k : Nat) (o : EngOp), n.ops[k]? = some o → ∃ p : EngOp, s.ops[k]? = some p ∧ o = { p with caught := o.caught }) ∧
  ((∀ r ∈ s.reqs, r.warp ≠ s.who.warp ∨ r.way ≤ s.who.way) → n.reqs = s.reqs ∧ n.ops = s.ops) ∧
  (∀ u, u ≠ s.who.warp → n.warps.find u = s.warps.find u) ∧
  (∀ r ∈ s.reqs, r.warp ≠ s.who.warp ∨ r.way ≤ s.who.way → r ∈ n.reqs) ∧
  (∃ r, n.wWarp.trap = some r ∧ r.cause = t.cause ∧ r.code = t.code ∧ r.tpc = t.at'.getD s.pc ∧
    r.tepc = (if t.cause = 0x12 then s.pc + 12 else t.at'.getD s.pc) ∧ r.tmemb = t.memb.getD (t.at'.getD s.pc) ∧ r.tmask = t.lanes ∧
    r.taddr = t.addr ∧ r.tkind = t.kind ∧ r.slices = s.arch.slices ∧ r.gangs = s.arch.gangs ∧ r.p = s.arch.p ∧
    r.gp = s.arch.gp ∧ r.fstat = s.arch.fstat ∧ (∀ k, k < 16 → r.g.getD k 0 = greg s (48 + k)) ∧ r.nest = false ∧
    r.fwd = false ∧ r.count = 0) ∧
  (∀ i, i < s.arch.slices.length → n.arch.slice i =
    if s.gang.slices.getLsbD i then ⟨(s.tenant w.tenant).hvec, sliceBits t.lanes i, [], sliceBits t.lanes i == 0⟩
    else s.arch.slice i) ∧
  (∀ k l, vreg n k l = if k < 32 then 0 else vreg s k l) ∧ (∀ k, greg n k = if 48 ≤ k ∧ k < 64 then 0 else greg s k) ∧
  (∀ k l, preg n k l = (k == 0)) ∧ (∀ k, gpreg n k = (k == 0)) ∧ n.arch.fstat = 0

/-- R357, R359, R365: a handler that returns to where the trap was taken, with no lane exited, leaves every register,
predicate, flag and slice as the trap found it; only the PC of TEPC may differ. -/
def Obligations.ReturnRestoresTheWarp : Prop := ∀ (w : Warp) (k sl : Nat) (t : Trap) (hvec : Double),
  let g := (w.archOf k).gang sl
  let b := w.enter k sl t hvec
  w.trap = none → (w.archOf k).exited = 0 → ∀ r, b.trap = some r →
    let x := b.leave r false
    x.trap = none ∧ (∀ n l, x.getV k true n l = w.getV k true n l) ∧ (∀ n, x.getG k true n = w.getG k true n) ∧
    (∀ n l, x.getP k true n l = w.getP k true n l) ∧ (∀ n, x.getGp k true n = w.getGp k true n) ∧
    (x.archOf k).fstat = (w.archOf k).fstat ∧ (x.archOf k).slices.length = (w.archOf k).slices.length ∧
    (∀ i, i < (w.archOf k).slices.length → (x.archOf k).slice i =
      if g.slices.getLsbD i then { (w.archOf k).slice i with pc := t.tepc ((w.archOf k).slice sl).pc }
      else (w.archOf k).slice i)

/-- R300, R350, R361, R363 to R365, R368: what only the handler, or a context with the privilege, may run takes
privilege, 0x14, elsewhere; a handler-only CSR does so too. -/
def Obligations.PrivilegedWordsTrap : Prop := ∀ (f : OpM) (g : OpT),
  let only (i : Instr) (c : Common) (priv : State → Prop) (lanes : State → Lanes) : Prop :=
    Traps i (fun b => oldestCode b c ∧ ¬ priv b) (fun b => { cause := 0x14, lanes := lanes b })
  let handler (b : State) : Prop := b.inHandler = true
  let trees (b : State) : Prop := b.treePriv = true
  let bad (b : State) : Lanes := b.faulting f.com
  only (.tret f) f.com handler State.active ∧ only (.tretKill f) f.com handler State.active ∧
  only (.fltq f) f.com handler State.active ∧ only (.pgreq f) f.com handler (fun b => b.executing f.com) ∧
  only (.rootsw f) f.com trees bad ∧ only (.rootcpFork f) f.com trees bad ∧ only (.rootcpSnap f) f.com trees bad ∧
  only (.rootcpDrop f) f.com trees bad ∧ only (.tnode f) f.com trees bad ∧
  only (.pgmapFt f) f.com handler bad ∧ only (.pgmapCow f) f.com handler bad ∧
  only (.slotw g) g.com (fun b => b.schedPriv = true) State.active ∧
  only (.prmptStop g) g.com (fun b => b.schedPriv = true) State.active ∧
  only (.prmptEvict g) g.com (fun b => b.schedPriv = true) State.active ∧
  (∀ c, Machine.csrOf (f.off.toNat % 4096) = some c → c.hand = true → c.wide = (f.size == .double) →
    only (.csrr f) f.com handler bad ∧
    (c.rw = true → (c.lane && f.com.u) = false → only (.csrw f) f.com handler bad))

/-- R202, R203: in a region every word outside the permitted list takes region misuse before it does anything. A word that
accesses memory takes it once its addresses have passed the tests of R148 up to the leaf target, with the lanes of a region
that it may not serve: all of them, or for a relaxed LD or ST those that reach no device frame; its walks are noted
(R349). -/
def Obligations.RegionsShutWordsOut : Prop :=
  (∀ (i : Instr) (u : Uses), shutOut i = true → usesOf i = some u →
    Traps i (fun b => b.regionLanes (b.workLanes u.com) ≠ 0)
      (fun b => { cause := 0x11, lanes := if u.com.u then b.active else b.regionLanes (b.workLanes u.com) })) ∧
  (∀ (i : Instr) (r : Reach), reach i = some r → ∀ (s : State) (as : List Acc), Ready i s →
    let b := begun i s
    ((∃ f, i = .ld f ∨ i = .st f) ∨ b.youngWay = false) → (wholeWarp i = true → b.ganged = true) →
    b.accs r.f r.want r.len r.kind r.off = .ok as → (∃ c ∈ as, shutAt b r c) →
      ∃ t : Trap, exec i s = .next ({ b.noteAccess r.f r.off with warps := s.warps }.trap t) ∧ t.cause = 0x11 ∧
        t.kind = r.kind ∧ (∀ l, l < 32 → (t.lanes.getLsbD l = true ↔
          if r.f.com.u then b.active.getLsbD l = true else ∃ c ∈ as, c.lane = l ∧ shutAt b r c)))

/-- R119, R148, R202: an LD, ST, atomic, BUPD or CAS some lane of which is not aligned to its size traps 0x09 with those
lanes, wherever the addresses lie and in a region too; no lane has accessed memory. -/
def Obligations.MisalignedAccessesTrap : Prop := ∀ (f : OpM) (i : Instr) (off : Int),
  ((i, off) = (.ld f, f.off.toInt) ∨ (i, off) = (.st f, f.off.toInt) ∨ (i, off) = (.cas f, f.off.toInt) ∨
    (i, off) = (.atom f, (f.off.setWidth 20).toInt) ∨ (i, off) = (.red f, (f.off.setWidth 20).toInt) ∨
    (i, off) = (.bupd f, (f.off.setWidth 20).toInt)) →
  ∀ s, Ready i s → (i = .ld f ∨ i = .st f ∨ (begun i s).youngWay = false) →
    let q : OpM := if i = .cas f then { f with c := .imm 0 } else f
    let bad (l : Nat) : Bool := (begun i s).addrOf q off l % f.size.bytes != 0
    let ls := if f.com.u then [(begun i s).uLane] else lanesOf ((begun i s).executing f.com)
    ls.any bad = true →
      ∃ t : Trap, exec i s = .next (s.trap t) ∧ t.cause = 0x09 ∧
        (∀ l, l < 32 → t.lanes.getLsbD l = if f.com.u then (begun i s).active.getLsbD l else ls.contains l && bad l) ∧
        (f.com.u = false → ∀ l, ls.contains l = true → bad l = true →
          t.addr.get 0 l = BitVec.ofNat 64 ((begun i s).addrOf q off l))

/-- R74, R78: RCV pushes (0, A, target) in each slice and goes on at PC + 12; JOIN pops the top token, takes its mask and
PC and settles; JOIN at depth 0 traps 0x01, and a push at full depth 0x06, with nothing changed in any slice. A token's PC
has 56 bits; that the byte above them stays that of the slice is the model's choice (log 12). -/
def Obligations.RcvPushesAndJoinPops : Prop := ∀ f : OpB,
  let t (b : State) : Double := b.pc + 12 * f.off.signExtend 64
  let rcv (b : State) (_ : Nat) (x : Slice) (_ : BitVec 4) : Slice :=
    { x with pc := b.pc + 12, stack := ⟨0, x.mask, (t b).setWidth 56⟩ :: x.stack }
  let join (_ : Nat) (x : Slice) (_ : BitVec 4) : Slice :=
    match x.stack with
    | k :: r => Slice.settle { x with mask := k.mask, pc := x.pc.extractLsb' 56 8 ++ k.pc, stack := r }
    | [] => x
  let stack (b : State) (l : Nat) : List Token := (b.arch.slice (l / 4)).stack
  let traps (i : Instr) (cond : State → Prop) (c : Nat) (bad : State → Nat → Prop) : Prop :=
    ∀ s, Ready i s → cond (begun i s) → (∃ l ∈ lanesOf (begun i s).active, bad (begun i s) l) →
      ∃ tr : Trap, exec i s = .next (s.trap tr) ∧ tr.cause = c ∧
        ∀ l, l < 32 → (tr.lanes.getLsbD l = true ↔ l ∈ lanesOf (begun i s).active ∧ bad (begun i s) l)
  Acts (.rcv f) (fun b => targetsOk b b.active (fun _ => t b) ∧ roomFor b b.active (rcv b))
    (fun b => movedBy b b.active (rcv b)) ∧
  Acts (.join f) (fun b => (∀ i ∈ slicesOf b.gang.slices, (b.arch.slice i).stack ≠ []) ∧ roomFor b b.active join)
    (fun b => movedBy b b.active join) ∧
  traps (.join f) (fun _ => True) 0x01 (fun b l => stack b l = []) ∧
  traps (.rcv f) (fun b => targetsOk b b.active (fun _ => t b)) 0x06 (fun b l => b.depthLimit ≤ (stack b l).length)

/-- R99: LEA adds its second operand, extended by the type and shifted by K, to a 64-bit base, modulo 2^64. -/
def Obligations.LeaAddsAScaledIndex : Prop := ∀ f : OpA,
  let k := (f.opx.extractLsb' 0 3).toNat
  let ext (s : State) (l : Nat) : Int :=
    match f.ty with
    | .s32 => (s.src32 l f.b).toInt
    | .u32 => (s.src32 l f.b).toNat
    | _ => (s.src64 l f.b).toNat
  ((Instr.lea f).wf = true → (f.ty = .s32 ∨ f.ty = .u32 ∨ f.ty = .s64 ∨ f.ty = .u64) ∧ f.opx.toNat < 8) ∧
  (∀ w, encode (.lea f) = some w → w.extractLsb' 86 10 = 64 + 26) ∧ (∃ g : OpA, g.com.u = true ∧ (Instr.lea g).wf = true) ∧
  Yields (.lea f) f .u64 (fun s l => ⟨BitVec.ofInt 64 ((s.src64 l f.a).toNat + ext s l * 2 ^ k), 0⟩) ∧
  (∀ s t : State, f.com = ⟨false, 0, false⟩ → f.dst = .v 6 → f.a = .g 4 → f.b = .special 0 → f.ty = .u32 → f.opx = 2 →
    Ready (.lea f) s → greg s 4 = 0 → greg s 5 = 0xFE000000 → s.active.getLsbD 5 = true → exec (.lea f) s = .next t →
    vreg t 6 5 = 0x14 ∧ vreg t 7 5 = 0xFE000000)

/-- R88, R89: a result of any width is the exact integer modulo 2^W, or clamped to the type with the saturation flag
exactly when it is clamped; in a packed operand each element is formed alone. -/
def Obligations.IntegerResultsWrapOrClamp : Prop :=
  (∀ (w : Nat) (sg sat : Bool) (n : Int), 0 < w →
    let lo : Int := if sg then -2 ^ (w - 1) else 0
    let hi : Int := if sg then 2 ^ (w - 1) - 1 else 2 ^ w - 1
    let r := storeInt w sg sat n
    r.val < 2 ^ w ∧
    (sat = false → (r.val : Int) = n % 2 ^ w ∧ r.fl = 0) ∧
    (sat = true → valOf w sg r.val = max lo (min hi n) ∧ (r.fl = if lo ≤ n ∧ n ≤ hi then 0 else flINTSAT)) ∧
    (lo ≤ n → n ≤ hi → valOf w sg r.val = n ∧ r.fl = 0)) ∧
  (∀ (t : Ty) (sat : Bool) (op : Int → Int → Int → Int) (a b c : Double) (i : Nat),
    let (w, sg, k) := elemOf t
    let el (x : Double) : Int := valOf w sg (x.toNat / 2 ^ (w * i))
    i < k →
      (perElem t sat op a b c).val.toNat / 2 ^ (w * i) % 2 ^ w = (storeInt w sg sat (op (el a) (el b) (el c))).val) ∧
  (∀ (t : Ty) (sat : Bool) (op : Int → Int → Int → Int) (a b c : Double),
    let (w, sg, k) := elemOf t
    ((perElem t sat op a b c).fl = 0 ↔ ∀ i, i < k →
      (storeInt w sg sat (op (valOf w sg (a.toNat / 2 ^ (w * i))) (valOf w sg (b.toNat / 2 ^ (w * i)))
        (valOf w sg (c.toNat / 2 ^ (w * i))))).fl = 0))

/-- R221 to R224: a value that a format holds rounds to itself without flags in every mode, a bf16 subnormal to zero and
a NaN to the canonical one; rounding down never exceeds the exact value and rounding up never falls below it. -/
def Obligations.RoundingIsFaithful : Prop :=
  (∀ (f : FFmt) (rm : Rnd) (x : Nat), (f = fmtF32 ∨ f = fmtF16 ∨ f = fmtBf16) → x < 2 ^ (1 + f.eb + f.mb) →
    f.round rm (f.value x) =
      ⟨if f.value x = .nan then f.nanBits
        else if f.sub = false ∧ x / 2 ^ f.mb % 2 ^ f.eb = 0 then x / 2 ^ (f.mb + f.eb) * 2 ^ (f.mb + f.eb)
        else x, 0⟩) ∧
  (∀ (f : FFmt) (neg : Bool) (m : Nat) (e : Int), (f = fmtF32 ∨ f = fmtF16) →
    let x := FVal.fin neg m e false
    cmpFVal (f.value (f.round .rd x).val) x ≤ 0 ∧ 0 ≤ cmpFVal (f.value (f.round .ru x).val) x ∧
    cmpFVal (f.value (f.round .rz x).val).abs x.abs ≤ 0)

/-! ## Memory -/

/-- R133 to R136, R149, R158: a store carries exactly the bytes of its lanes, a later lane's over an earlier one's; a
write that is performed, at a die's home point or at its home, changes exactly the bytes that it carries. -/
def Obligations.WritesChangeOnlyTheirBytes : Prop :=
  (∀ (as : List Acc) (a : Nat), (storedBytes as).find a =
    ((as.filter (fun c => c.ta ≤ a && a < c.ta + c.len)).getLast?).map (fun c =>
      BitVec.ofNat 8 (c.val / 256 ^ (a - c.ta)))) ∧
  (∀ (s : State) (w : Write) (g a : Nat),
    let bs := (w.effect (fun ta => s.mem.get 0 (ta - 64 * w.line + 64 * w.line))).1
    let t := s.performHome w w.line g
    (∀ p ∈ bs, p.1 / 64 = w.line) → (bs.map Prod.fst).Nodup →
      (s.pois.get false w.line = false → t.mem.get 0 a = (bs.find a).getD (s.mem.get 0 a)) ∧
      (bs.find a = none → t.mem.get 0 a = s.mem.get 0 a) ∧ (∀ d l, (t.l2 d l).bytes = (s.l2 d l).bytes)) ∧
  (∀ (s : State) (w : Write) (d l a : Nat),
    let bs := (w.effect (fun ta => (s.l2 w.die w.line).bytes.get 0 ta)).1
    let t := s.performDie w
    (bs.map Prod.fst).Nodup →
      t.mem = s.mem ∧ ((d, l) ≠ (w.die, w.line) → t.l2 d l = s.l2 d l) ∧
      ((s.l2 w.die w.line).pois = false →
        (t.l2 w.die w.line).bytes.get 0 a = (bs.find a).getD ((s.l2 w.die w.line).bytes.get 0 a)) ∧
      (bs.find a = none → (t.l2 w.die w.line).bytes.get 0 a = (s.l2 w.die w.line).bytes.get 0 a))

/-- R129, R133, R135: a request that is sent or queued changes no byte of device or host memory at its home, in a die or in
a core's view, nothing in any team's scratchpad unless it reaches scratchpad, which it accesses at once, and no register,
predicate, flag or slice unless it reaches the register window; requests to the control register space are left aside. -/
def Obligations.IssuingLeavesMemory : Prop := ∀ (s : State) (r : Req), Present s →
  let t := sent s r
  (∀ a ∈ r.accs, isCtl a.ta = false) →
  (∀ a, t.cur a = s.cur a) ∧ t.mem = s.mem ∧ (∀ d l, t.l2 d l = s.l2 d l) ∧ (∀ l, t.dirE l = s.dirE l) ∧
  (∀ u, u ≠ s.who.warp → (t.warp u).arch = (s.warp u).arch) ∧
  ((∀ a ∈ r.accs, isScr a.ta = false) → t.teams = s.teams) ∧
  ((∀ a ∈ r.accs, isRegw a.ta = false) →
    (∀ n l, vreg t n l = vreg s n l) ∧ (∀ n, greg t n = greg s n) ∧ (∀ n l, preg t n l = preg s n l) ∧
    (∀ n, gpreg t n = gpreg s n) ∧ t.arch.fstat = s.arch.fstat ∧ t.arch.slices = s.arch.slices)

/-- R162, R164: a barrier's phase ends when its arrivals and bytes are complete; one that would overrun is marked
over and changes no count; while it is over nothing changes and every waiter is woken with status 1. -/
def Obligations.BarriersEvaluate : Prop := ∀ (b : Bar) (n : Nat),
  (b.ovr = true → b.evaluate = (b, some 1) ∧ b.arrive n = (b, some 1) ∧ b.expect n = (b, some 1) ∧ b.addBytes n = (b, some 1)) ∧
  (b.ovr = false → b.reset = 0 → b.expected = 0 → b.evaluate = (b, none)) ∧
  (b.ovr = false → (b.reset ≠ 0 ∨ b.expected ≠ 0) → b.remain = 0 → b.arrived = b.expected →
    b.evaluate = (⟨0, 0, !b.phase, false, b.reset, b.reset⟩, some 0)) ∧
  (b.ovr = false → b.remain = 0 → b.expected ≠ 0 → b.expected < b.arrived → b.evaluate = ({ b with ovr := true }, some 1)) ∧
  (b.ovr = false → (b.remain ≠ 0 ∨ b.arrived < b.expected) → b.evaluate = (b, none)) ∧
  (b.ovr = false → b.remain < n → b.arrive n = ({ b with ovr := true }, some 1)) ∧
  (b.ovr = false → n ≤ b.remain → b.arrive n = ({ b with remain := b.remain - n }).evaluate) ∧
  (b.ovr = false → 2 ^ 32 ≤ b.expected + n → b.expect n = ({ b with ovr := true }, some 1)) ∧
  (b.ovr = false → b.expected + n < 2 ^ 32 → b.expect n = ({ b with expected := b.expected + n }).evaluate) ∧
  (b.ovr = false → 2 ^ 32 ≤ b.arrived + n → b.addBytes n = ({ b with ovr := true }, some 1)) ∧
  (b.ovr = false → b.arrived + n < 2 ^ 32 → b.addBytes n = ({ b with arrived := b.arrived + n }).evaluate) ∧
  Bar.init n = ⟨0, 0, false, decide (1048575 < n), n % 2 ^ 20, n % 2 ^ 20⟩
end

