-- ==== Sys2Proof/Laws/Dispatch.lean ====
section
/-! SUPPORT. What `exec` is on each instruction. -/

namespace Sys2Proof.Machine

@[simp] theorem exec_nop (f : OpB) (s : State) : exec (.nop f) s = execNop f s := rfl
@[simp] theorem exec_bra (f : OpB) (s : State) : exec (.bra f) s = execBra f s := rfl
@[simp] theorem exec_brx (f : OpB) (s : State) : exec (.brx f) s = execBrx f s := rfl
@[simp] theorem exec_rcv (f : OpB) (s : State) : exec (.rcv f) s = execRcv f s := rfl
@[simp] theorem exec_join (f : OpB) (s : State) : exec (.join f) s = execJoin f s := rfl
@[simp] theorem exec_loop (f : OpB) (s : State) : exec (.loop f) s = execLoop f s := rfl
@[simp] theorem exec_brk (f : OpB) (s : State) : exec (.brk f) s = execBrk f s := rfl
@[simp] theorem exec_next (f : OpB) (s : State) : exec (.next f) s = execNext f s := rfl
@[simp] theorem exec_call (f : OpB) (s : State) : exec (.call f) s = execCall f s := rfl
@[simp] theorem exec_callx (f : OpB) (s : State) : exec (.callx f) s = execCallx f s := rfl
@[simp] theorem exec_ret (f : OpB) (s : State) : exec (.ret f) s = execRet f s := rfl
@[simp] theorem exec_exit (f : OpB) (s : State) : exec (.exit f) s = execExit f s := rfl
@[simp] theorem exec_regang (f : OpB) (s : State) : exec (.regang f) s = execRegang f s := rfl
@[simp] theorem exec_safept (f : OpB) (s : State) : exec (.safept f) s = execSafept f s := rfl
@[simp] theorem exec_safeptRf (f : OpB) (s : State) : exec (.safeptRf f) s = execSafeptRf f s := rfl
@[simp] theorem exec_yield (f : OpB) (s : State) : exec (.yield f) s = execYield f s := rfl
@[simp] theorem exec_yieldExpiry (g : GangRef) (s : State) : exec (.yieldExpiry g) s = execYieldExpiry g s := rfl
@[simp] theorem exec_trap (f : OpB) (s : State) : exec (.trap f) s = execTrap f s := rfl
@[simp] theorem exec_bkpt (f : OpB) (s : State) : exec (.bkpt f) s = execBkpt f s := rfl
@[simp] theorem exec_safePointOverdue (g : GangRef) (s : State) : exec (.safePointOverdue g) s = execSafePointOverdue g s := rfl
@[simp] theorem exec_iadd (f : OpA) (s : State) : exec (.iadd f) s = execIadd f s := rfl
@[simp] theorem exec_isub (f : OpA) (s : State) : exec (.isub f) s = execIsub f s := rfl
@[simp] theorem exec_imul (f : OpA) (s : State) : exec (.imul f) s = execImul f s := rfl
@[simp] theorem exec_imulh (f : OpA) (s : State) : exec (.imulh f) s = execImulh f s := rfl
@[simp] theorem exec_imad (f : OpA) (s : State) : exec (.imad f) s = execImad f s := rfl
@[simp] theorem exec_imadw (f : OpA) (s : State) : exec (.imadw f) s = execImadw f s := rfl
@[simp] theorem exec_imin (f : OpA) (s : State) : exec (.imin f) s = execImin f s := rfl
@[simp] theorem exec_imax (f : OpA) (s : State) : exec (.imax f) s = execImax f s := rfl
@[simp] theorem exec_iabs (f : OpA) (s : State) : exec (.iabs f) s = execIabs f s := rfl
@[simp] theorem exec_andL (f : OpA) (s : State) : exec (.andL f) s = execAnd f s := rfl
@[simp] theorem exec_orL (f : OpA) (s : State) : exec (.orL f) s = execOr f s := rfl
@[simp] theorem exec_xorL (f : OpA) (s : State) : exec (.xorL f) s = execXor f s := rfl
@[simp] theorem exec_lop3 (f : OpA) (s : State) : exec (.lop3 f) s = execLop3 f s := rfl
@[simp] theorem exec_shl (f : OpA) (s : State) : exec (.shl f) s = execShl f s := rfl
@[simp] theorem exec_shr (f : OpA) (s : State) : exec (.shr f) s = execShr f s := rfl
@[simp] theorem exec_sar (f : OpA) (s : State) : exec (.sar f) s = execSar f s := rfl
@[simp] theorem exec_shf (f : OpA) (s : State) : exec (.shf f) s = execShf f s := rfl
@[simp] theorem exec_popc (f : OpA) (s : State) : exec (.popc f) s = execPopc f s := rfl
@[simp] theorem exec_clz (f : OpA) (s : State) : exec (.clz f) s = execClz f s := rfl
@[simp] theorem exec_ctz (f : OpA) (s : State) : exec (.ctz f) s = execCtz f s := rfl
@[simp] theorem exec_brev (f : OpA) (s : State) : exec (.brev f) s = execBrev f s := rfl
@[simp] theorem exec_bfx (f : OpA) (s : State) : exec (.bfx f) s = execBfx f s := rfl
@[simp] theorem exec_bfi (f : OpA) (s : State) : exec (.bfi f) s = execBfi f s := rfl
@[simp] theorem exec_sel (f : OpA) (s : State) : exec (.sel f) s = execSel f s := rfl
@[simp] theorem exec_mov (f : OpA) (s : State) : exec (.mov f) s = execMov f s := rfl
@[simp] theorem exec_movi (f : OpI) (s : State) : exec (.movi f) s = execMovi f s := rfl
@[simp] theorem exec_lea (f : OpA) (s : State) : exec (.lea f) s = execLea f s := rfl
@[simp] theorem exec_idp4 (f : OpA) (s : State) : exec (.idp4 f) s = execIdp4 f s := rfl
@[simp] theorem exec_pmac2 (f : OpA) (s : State) : exec (.pmac2 f) s = execPmac2 f s := rfl
@[simp] theorem exec_sarn (f : OpA) (s : State) : exec (.sarn f) s = execSarn f s := rfl
@[simp] theorem exec_isat (f : OpA) (s : State) : exec (.isat f) s = execIsat f s := rfl
@[simp] theorem exec_rget (f : OpA) (s : State) : exec (.rget f) s = execRget f s := rfl
@[simp] theorem exec_rput (f : OpA) (s : State) : exec (.rput f) s = execRput f s := rfl
@[simp] theorem exec_isetp (f : OpA) (s : State) : exec (.isetp f) s = execIsetp f s := rfl
@[simp] theorem exec_fsetp (f : OpA) (s : State) : exec (.fsetp f) s = execFsetp f s := rfl
@[simp] theorem exec_plop (f : OpA) (s : State) : exec (.plop f) s = execPlop f s := rfl
@[simp] theorem exec_pmovGet (f : OpA) (s : State) : exec (.pmovGet f) s = execPmovGet f s := rfl
@[simp] theorem exec_pmovSet (f : OpA) (s : State) : exec (.pmovSet f) s = execPmovSet f s := rfl
@[simp] theorem exec_vote (f : OpA) (s : State) : exec (.vote f) s = execVote f s := rfl
@[simp] theorem exec_shfl (f : OpA) (s : State) : exec (.shfl f) s = execShfl f s := rfl
@[simp] theorem exec_slide (f : OpA) (s : State) : exec (.slide f) s = execSlide f s := rfl
@[simp] theorem exec_redux (f : OpA) (s : State) : exec (.redux f) s = execRedux f s := rfl
@[simp] theorem exec_scan (f : OpA) (s : State) : exec (.scan f) s = execScan f s := rfl
@[simp] theorem exec_matchL (f : OpA) (s : State) : exec (.matchL f) s = execMatch f s := rfl
@[simp] theorem exec_prmt (f : OpA) (s : State) : exec (.prmt f) s = execPrmt f s := rfl
@[simp] theorem exec_fadd (f : OpA) (s : State) : exec (.fadd f) s = execFadd f s := rfl
@[simp] theorem exec_fsub (f : OpA) (s : State) : exec (.fsub f) s = execFsub f s := rfl
@[simp] theorem exec_fmul (f : OpA) (s : State) : exec (.fmul f) s = execFmul f s := rfl
@[simp] theorem exec_ffma (f : OpA) (s : State) : exec (.ffma f) s = execFfma f s := rfl
@[simp] theorem exec_fmin (f : OpA) (s : State) : exec (.fmin f) s = execFmin f s := rfl
@[simp] theorem exec_fmax (f : OpA) (s : State) : exec (.fmax f) s = execFmax f s := rfl
@[simp] theorem exec_frcp (f : OpA) (s : State) : exec (.frcp f) s = execFrcp f s := rfl
@[simp] theorem exec_frsq (f : OpA) (s : State) : exec (.frsq f) s = execFrsq f s := rfl
@[simp] theorem exec_fsqrt (f : OpA) (s : State) : exec (.fsqrt f) s = execFsqrt f s := rfl
@[simp] theorem exec_fexp2 (f : OpA) (s : State) : exec (.fexp2 f) s = execFexp2 f s := rfl
@[simp] theorem exec_flog2 (f : OpA) (s : State) : exec (.flog2 f) s = execFlog2 f s := rfl
@[simp] theorem exec_fclass (f : OpA) (s : State) : exec (.fclass f) s = execFclass f s := rfl
@[simp] theorem exec_fscale (f : OpA) (s : State) : exec (.fscale f) s = execFscale f s := rfl
@[simp] theorem exec_frnd (f : OpA) (s : State) : exec (.frnd f) s = execFrnd f s := rfl
@[simp] theorem exec_hadd2 (f : OpA) (s : State) : exec (.hadd2 f) s = execHadd2 f s := rfl
@[simp] theorem exec_hmul2 (f : OpA) (s : State) : exec (.hmul2 f) s = execHmul2 f s := rfl
@[simp] theorem exec_hfma2 (f : OpA) (s : State) : exec (.hfma2 f) s = execHfma2 f s := rfl
@[simp] theorem exec_hmin2 (f : OpA) (s : State) : exec (.hmin2 f) s = execHmin2 f s := rfl
@[simp] theorem exec_hmax2 (f : OpA) (s : State) : exec (.hmax2 f) s = execHmax2 f s := rfl
@[simp] theorem exec_fdot2 (f : OpA) (s : State) : exec (.fdot2 f) s = execFdot2 f s := rfl
@[simp] theorem exec_cvt (f : OpA) (s : State) : exec (.cvt f) s = execCvt f s := rfl
@[simp] theorem exec_fcvt (f : OpA) (s : State) : exec (.fcvt f) s = execFcvt f s := rfl
@[simp] theorem exec_pk2 (f : OpA) (s : State) : exec (.pk2 f) s = execPk2 f s := rfl
@[simp] theorem exec_upk2 (f : OpA) (s : State) : exec (.upk2 f) s = execUpk2 f s := rfl
@[simp] theorem exec_e10enc (f : OpA) (s : State) : exec (.e10enc f) s = execE10enc f s := rfl
@[simp] theorem exec_e10dec (f : OpA) (s : State) : exec (.e10dec f) s = execE10dec f s := rfl
@[simp] theorem exec_rnsenc (f : OpA) (s : State) : exec (.rnsenc f) s = execRnsenc f s := rfl
@[simp] theorem exec_rnsdec (f : OpA) (s : State) : exec (.rnsdec f) s = execRnsdec f s := rfl
@[simp] theorem exec_qnt (f : OpA) (s : State) : exec (.qnt f) s = execQnt f s := rfl
@[simp] theorem exec_dqnt (f : OpA) (s : State) : exec (.dqnt f) s = execDqnt f s := rfl
@[simp] theorem exec_ld (f : OpM) (s : State) : exec (.ld f) s = execLd f s := rfl
@[simp] theorem exec_st (f : OpM) (s : State) : exec (.st f) s = execSt f s := rfl
@[simp] theorem exec_prf (f : OpM) (s : State) : exec (.prf f) s = execPrf f s := rfl
@[simp] theorem exec_fence (f : OpM) (s : State) : exec (.fence f) s = execFence f s := rfl
@[simp] theorem exec_cctlInv (f : OpM) (s : State) : exec (.cctlInv f) s = execCctlInv f s := rfl
@[simp] theorem exec_cctlWb (f : OpM) (s : State) : exec (.cctlWb f) s = execCctlWb f s := rfl
@[simp] theorem exec_cctlWbinv (f : OpM) (s : State) : exec (.cctlWbinv f) s = execCctlWbinv f s := rfl
@[simp] theorem exec_cctlZero (f : OpM) (s : State) : exec (.cctlZero f) s = execCctlZero f s := rfl
@[simp] theorem exec_cctlInvall (f : OpM) (s : State) : exec (.cctlInvall f) s = execCctlInvall f s := rfl
@[simp] theorem exec_atom (f : OpM) (s : State) : exec (.atom f) s = execAtom f s := rfl
@[simp] theorem exec_cas (f : OpM) (s : State) : exec (.cas f) s = execCas f s := rfl
@[simp] theorem exec_red (f : OpM) (s : State) : exec (.red f) s = execRed f s := rfl
@[simp] theorem exec_bupd (f : OpM) (s : State) : exec (.bupd f) s = execBupd f s := rfl
@[simp] theorem exec_binit (f : OpM) (s : State) : exec (.binit f) s = execBinit f s := rfl
@[simp] theorem exec_barv (f : OpM) (s : State) : exec (.barv f) s = execBarv f s := rfl
@[simp] theorem exec_bwait (f : OpM) (s : State) : exec (.bwait f) s = execBwait f s := rfl
@[simp] theorem exec_barw (f : OpM) (s : State) : exec (.barw f) s = execBarw f s := rfl
@[simp] theorem exec_bexp (f : OpM) (s : State) : exec (.bexp f) s = execBexp f s := rfl
@[simp] theorem exec_waita (f : OpM) (s : State) : exec (.waita f) s = execWaita f s := rfl
@[simp] theorem exec_waitaDeadline (stack : Nat) (entry : Nat) (s : State) : exec (.waitaDeadline stack entry) s = execWaitaDeadline stack entry s := rfl
@[simp] theorem exec_cpy (f : OpT) (s : State) : exec (.cpy f) s = execCpy f s := rfl
@[simp] theorem exec_cpyt (f : OpT) (s : State) : exec (.cpyt f) s = execCpyt f s := rfl
@[simp] theorem exec_cpyg (f : OpT) (s : State) : exec (.cpyg f) s = execCpyg f s := rfl
@[simp] theorem exec_cpys (f : OpT) (s : State) : exec (.cpys f) s = execCpys f s := rfl
@[simp] theorem exec_cpyr (f : OpT) (s : State) : exec (.cpyr f) s = execCpyr f s := rfl
@[simp] theorem exec_cpyx (f : OpT) (s : State) : exec (.cpyx f) s = execCpyx f s := rfl
@[simp] theorem exec_cpyq (f : OpT) (s : State) : exec (.cpyq f) s = execCpyq f s := rfl
@[simp] theorem exec_cpyc (f : OpT) (s : State) : exec (.cpyc f) s = execCpyc f s := rfl
@[simp] theorem exec_osld (f : OpT) (s : State) : exec (.osld f) s = execOsld f s := rfl
@[simp] theorem exec_engineStart (op : Nat) (s : State) : exec (.engineStart op) s = execEngineStart op s := rfl
@[simp] theorem exec_copyElement (op : Nat) (s : State) : exec (.copyElement op) s = execCopyElement op s := rfl
@[simp] theorem exec_tokenWrite (op : Nat) (s : State) : exec (.tokenWrite op) s = execTokenWrite op s := rfl
@[simp] theorem exec_byteAddition (op : Nat) (s : State) : exec (.byteAddition op) s = execByteAddition op s := rfl
@[simp] theorem exec_cpyxFollowOn (op : Nat) (s : State) : exec (.cpyxFollowOn op) s = execCpyxFollowOn op s := rfl
@[simp] theorem exec_mma (f : OpT) (s : State) : exec (.mma f) s = execMma f s := rfl
@[simp] theorem exec_mmag (f : OpT) (s : State) : exec (.mmag f) s = execMmag f s := rfl
@[simp] theorem exec_tzero (f : OpT) (s : State) : exec (.tzero f) s = execTzero f s := rfl
@[simp] theorem exec_tqnt (f : OpT) (s : State) : exec (.tqnt f) s = execTqnt f s := rfl
@[simp] theorem exec_tdq (f : OpT) (s : State) : exec (.tdq f) s = execTdq f s := rfl
@[simp] theorem exec_tcrt (f : OpT) (s : State) : exec (.tcrt f) s = execTcrt f s := rfl
@[simp] theorem exec_ttrn (f : OpT) (s : State) : exec (.ttrn f) s = execTtrn f s := rfl
@[simp] theorem exec_tstat (f : OpT) (s : State) : exec (.tstat f) s = execTstat f s := rfl
@[simp] theorem exec_sequencerStart (core : Nat) (s : State) : exec (.sequencerStart core) s = execSequencerStart core s := rfl
@[simp] theorem exec_tileStep (core : Nat) (s : State) : exec (.tileStep core) s = execTileStep core s := rfl
@[simp] theorem exec_tileStop (core : Nat) (s : State) : exec (.tileStop core) s = execTileStop core s := rfl
@[simp] theorem exec_tileResume (core : Nat) (s : State) : exec (.tileResume core) s = execTileResume core s := rfl
@[simp] theorem exec_kvx (f : OpT) (s : State) : exec (.kvx f) s = execKvx f s := rfl
@[simp] theorem exec_kvvalSet (f : OpT) (s : State) : exec (.kvvalSet f) s = execKvvalSet f s := rfl
@[simp] theorem exec_kvvalClr (f : OpT) (s : State) : exec (.kvvalClr f) s = execKvvalClr f s := rfl
@[simp] theorem exec_kvrcl (f : OpT) (s : State) : exec (.kvrcl f) s = execKvrcl f s := rfl
@[simp] theorem exec_skchSlot (f : OpT) (s : State) : exec (.skchSlot f) s = execSkchSlot f s := rfl
@[simp] theorem exec_skchVec (f : OpT) (s : State) : exec (.skchVec f) s = execSkchVec f s := rfl
@[simp] theorem exec_attn (f : OpT) (s : State) : exec (.attn f) s = execAttn f s := rfl
@[simp] theorem exec_attnq (f : OpT) (s : State) : exec (.attnq f) s = execAttnq f s := rfl
@[simp] theorem exec_sploop (f : OpB) (s : State) : exec (.sploop f) s = execSploop f s := rfl
@[simp] theorem exec_spput (f : OpB) (s : State) : exec (.spput f) s = execSpput f s := rfl
@[simp] theorem exec_spacc (f : OpB) (s : State) : exec (.spacc f) s = execSpacc f s := rfl
@[simp] theorem exec_spnext (f : OpB) (s : State) : exec (.spnext f) s = execSpnext f s := rfl
@[simp] theorem exec_spend (f : OpB) (s : State) : exec (.spend f) s = execSpend f s := rfl
@[simp] theorem exec_spq (f : OpB) (s : State) : exec (.spq f) s = execSpq f s := rfl
@[simp] theorem exec_wayKeep (warp : Nat) (s : State) : exec (.wayKeep warp) s = execWayKeep warp s := rfl
@[simp] theorem exec_atomb (f : OpB) (s : State) : exec (.atomb f) s = execAtomb f s := rfl
@[simp] theorem exec_atome (f : OpB) (s : State) : exec (.atome f) s = execAtome f s := rfl
@[simp] theorem exec_atoma (f : OpB) (s : State) : exec (.atoma f) s = execAtoma f s := rfl
@[simp] theorem exec_atomq (f : OpB) (s : State) : exec (.atomq f) s = execAtomq f s := rfl
@[simp] theorem exec_commit (die : Nat) (s : State) : exec (.commit die) s = execCommit die s := rfl
@[simp] theorem exec_conflictNotice (die : Nat) (line : Nat) (s : State) : exec (.conflictNotice die line) s = execConflictNotice die line s := rfl
@[simp] theorem exec_rootsw (f : OpM) (s : State) : exec (.rootsw f) s = execRootsw f s := rfl
@[simp] theorem exec_rootcpFork (f : OpM) (s : State) : exec (.rootcpFork f) s = execRootcpFork f s := rfl
@[simp] theorem exec_rootcpSnap (f : OpM) (s : State) : exec (.rootcpSnap f) s = execRootcpSnap f s := rfl
@[simp] theorem exec_rootcpDrop (f : OpM) (s : State) : exec (.rootcpDrop f) s = execRootcpDrop f s := rfl
@[simp] theorem exec_rfrsh (f : OpM) (s : State) : exec (.rfrsh f) s = execRfrsh f s := rfl
@[simp] theorem exec_tnode (f : OpM) (s : State) : exec (.tnode f) s = execTnode f s := rfl
@[simp] theorem exec_pgmapFt (f : OpM) (s : State) : exec (.pgmapFt f) s = execPgmapFt f s := rfl
@[simp] theorem exec_pgmapCow (f : OpM) (s : State) : exec (.pgmapCow f) s = execPgmapCow f s := rfl
@[simp] theorem exec_tret (f : OpM) (s : State) : exec (.tret f) s = execTret f s := rfl
@[simp] theorem exec_tretKill (f : OpM) (s : State) : exec (.tretKill f) s = execTretKill f s := rfl
@[simp] theorem exec_csrr (f : OpM) (s : State) : exec (.csrr f) s = execCsrr f s := rfl
@[simp] theorem exec_csrw (f : OpM) (s : State) : exec (.csrw f) s = execCsrw f s := rfl
@[simp] theorem exec_fltq (f : OpM) (s : State) : exec (.fltq f) s = execFltq f s := rfl
@[simp] theorem exec_pgreq (f : OpM) (s : State) : exec (.pgreq f) s = execPgreq f s := rfl
@[simp] theorem exec_pageResponse (group : Nat) (code : Nat) (s : State) : exec (.pageResponse group code) s = execPageResponse group code s := rfl
@[simp] theorem exec_faultReply (tenant : Nat) (entry : Nat) (reply : Word) (s : State) : exec (.faultReply tenant entry reply) s = execFaultReply tenant entry reply s := rfl
@[simp] theorem exec_launch (f : OpT) (s : State) : exec (.launch f) s = execLaunch f s := rfl
@[simp] theorem exec_emit (f : OpT) (s : State) : exec (.emit f) s = execEmit f s := rfl
@[simp] theorem exec_ndone (f : OpT) (s : State) : exec (.ndone f) s = execNdone f s := rfl
@[simp] theorem exec_slotw (f : OpT) (s : State) : exec (.slotw f) s = execSlotw f s := rfl
@[simp] theorem exec_prmptStop (f : OpT) (s : State) : exec (.prmptStop f) s = execPrmptStop f s := rfl
@[simp] theorem exec_prmptEvict (f : OpT) (s : State) : exec (.prmptEvict f) s = execPrmptEvict f s := rfl
@[simp] theorem exec_slotTableSwap (swap : SlotSwap) (s : State) : exec (.slotTableSwap swap) s = execSlotTableSwap swap s := rfl
@[simp] theorem exec_issueCycle (core : Nat) (s : State) : exec (.issueCycle core) s = execIssueCycle core s := rfl
@[simp] theorem exec_gangWake (warp : Nat) (s : State) : exec (.gangWake warp) s = execGangWake warp s := rfl
@[simp] theorem exec_fetch (load : Nat) (line : Nat) (s : State) : exec (.fetch load line) s = execFetch load line s := rfl
@[simp] theorem exec_leaseExpiry (core : Nat) (line : Nat) (s : State) : exec (.leaseExpiry core line) s = execLeaseExpiry core line s := rfl
@[simp] theorem exec_writePerform (write : Nat) (s : State) : exec (.writePerform write) s = execWritePerform write s := rfl
@[simp] theorem exec_writeAck (write : Nat) (s : State) : exec (.writeAck write) s = execWriteAck write s := rfl
@[simp] theorem exec_releaseIssue (held : Nat) (s : State) : exec (.releaseIssue held) s = execReleaseIssue held s := rfl
@[simp] theorem exec_loadReturn (load : Nat) (s : State) : exec (.loadReturn load) s = execLoadReturn load s := rfl
@[simp] theorem exec_rds (ph : Phase) (die : Nat) (line : Nat) (s : State) : exec (.rds ph die line) s = execRds ph die line s := rfl
@[simp] theorem exec_rdx (ph : Phase) (die : Nat) (line : Nat) (s : State) : exec (.rdx ph die line) s = execRdx ph die line s := rfl
@[simp] theorem exec_upg (ph : Phase) (die : Nat) (line : Nat) (s : State) : exec (.upg ph die line) s = execUpg ph die line s := rfl
@[simp] theorem exec_wbd (ph : Phase) (die : Nat) (line : Nat) (s : State) : exec (.wbd ph die line) s = execWbd ph die line s := rfl
@[simp] theorem exec_evc (ph : Phase) (die : Nat) (line : Nat) (s : State) : exec (.evc ph die line) s = execEvc ph die line s := rfl
@[simp] theorem exec_snpinv (die : Nat) (line : Nat) (s : State) : exec (.snpinv die line) s = execSnpinv die line s := rfl
@[simp] theorem exec_snpfwd (die : Nat) (line : Nat) (s : State) : exec (.snpfwd die line) s = execSnpfwd die line s := rfl
@[simp] theorem exec_snpfwdx (die : Nat) (line : Nat) (s : State) : exec (.snpfwdx die line) s = execSnpfwdx die line s := rfl
@[simp] theorem exec_ackinv (ph : Phase) (die : Nat) (line : Nat) (s : State) : exec (.ackinv ph die line) s = execAckinv ph die line s := rfl
@[simp] theorem exec_rspd (ph : Phase) (die : Nat) (line : Nat) (s : State) : exec (.rspd ph die line) s = execRspd ph die line s := rfl
@[simp] theorem exec_rspi (ph : Phase) (die : Nat) (line : Nat) (s : State) : exec (.rspi ph die line) s = execRspi ph die line s := rfl
@[simp] theorem exec_dats (die : Nat) (line : Nat) (s : State) : exec (.dats die line) s = execDats die line s := rfl
@[simp] theorem exec_date (die : Nat) (line : Nat) (s : State) : exec (.date die line) s = execDate die line s := rfl
@[simp] theorem exec_datm (die : Nat) (line : Nat) (s : State) : exec (.datm die line) s = execDatm die line s := rfl
@[simp] theorem exec_grant (die : Nat) (line : Nat) (s : State) : exec (.grant die line) s = execGrant die line s := rfl
@[simp] theorem exec_wback (die : Nat) (line : Nat) (s : State) : exec (.wback die line) s = execWback die line s := rfl
@[simp] theorem exec_backInvalidate (line : Nat) (s : State) : exec (.backInvalidate line) s = execBackInvalidate line s := rfl
@[simp] theorem exec_hostSnoop (ph : Phase) (line : Nat) (inv : Bool) (s : State) : exec (.hostSnoop ph line inv) s = execHostSnoop ph line inv s := rfl
@[simp] theorem exec_hostAccess (ph : Phase) (acc : HostAcc) (s : State) : exec (.hostAccess ph acc) s = execHostAccess ph acc s := rfl
@[simp] theorem exec_hostBarAccess (fn : Nat) (ctl : Bool) (acc : HostAcc) (s : State) : exec (.hostBarAccess fn ctl acc) s = execHostBarAccess fn ctl acc s := rfl
@[simp] theorem exec_postedWriteAck (write : Nat) (s : State) : exec (.postedWriteAck write) s = execPostedWriteAck write s := rfl
@[simp] theorem exec_flushDone (warp : Nat) (s : State) : exec (.flushDone warp) s = execFlushDone warp s := rfl
@[simp] theorem exec_recordRefetch (asd : Nat) (node : Nat) (record : Nat) (s : State) : exec (.recordRefetch asd node record) s = execRecordRefetch asd node record s := rfl
@[simp] theorem exec_groupForm (asd : Nat) (node : Nat) (s : State) : exec (.groupForm asd node) s = execGroupForm asd node s := rfl
@[simp] theorem exec_coalesceTimeout (asd : Nat) (node : Nat) (s : State) : exec (.coalesceTimeout asd node) s = execCoalesceTimeout asd node s := rfl
@[simp] theorem exec_dispatch (inst : Nat) (s : State) : exec (.dispatch inst) s = execDispatch inst s := rfl
@[simp] theorem exec_admitTeam (core : Nat) (s : State) : exec (.admitTeam core) s = execAdmitTeam core s := rfl
@[simp] theorem exec_teamRetire (team : Nat) (s : State) : exec (.teamRetire team) s = execTeamRetire team s := rfl
@[simp] theorem exec_instanceComplete (inst : Nat) (s : State) : exec (.instanceComplete inst) s = execInstanceComplete inst s := rfl
@[simp] theorem exec_preemptRequest (inst : Nat) (s : State) : exec (.preemptRequest inst) s = execPreemptRequest inst s := rfl
@[simp] theorem exec_warpSave (warp : Nat) (s : State) : exec (.warpSave warp) s = execWarpSave warp s := rfl
@[simp] theorem exec_warpResume (warp : Nat) (core : Nat) (s : State) : exec (.warpResume warp core) s = execWarpResume warp core s := rfl
@[simp] theorem exec_quantumExpiry (inst : Nat) (s : State) : exec (.quantumExpiry inst) s = execQuantumExpiry inst s := rfl
@[simp] theorem exec_parkYield (inst : Nat) (s : State) : exec (.parkYield inst) s = execParkYield inst s := rfl
@[simp] theorem exec_reclaimRoot (s : State) : exec (.reclaimRoot) s = execReclaimRoot s := rfl
@[simp] theorem exec_correctedError (log : Nat) (addr : Nat) (unit : ErrUnit) (tenant : Nat) (s : State) : exec (.correctedError log addr unit tenant) s = execCorrectedError log addr unit tenant s := rfl
@[simp] theorem exec_uncorrectableError (site : ErrSite) (s : State) : exec (.uncorrectableError site) s = execUncorrectableError site s := rfl
@[simp] theorem exec_dirEntryError (ph : Phase) (line : Nat) (s : State) : exec (.dirEntryError ph line) s = execDirEntryError ph line s := rfl
@[simp] theorem exec_hostLinkDown (s : State) : exec (.hostLinkDown) s = execHostLinkDown s := rfl
@[simp] theorem exec_ideIntegrityFailure (stream : Nat) (s : State) : exec (.ideIntegrityFailure stream) s = execIdeIntegrityFailure stream s := rfl
@[simp] theorem exec_linkRecover (s : State) : exec (.linkRecover) s = execLinkRecover s := rfl
@[simp] theorem exec_replay (refused : List Nat) (s : State) : exec (.replay refused) s = execReplay refused s := rfl
@[simp] theorem exec_disc (s : State) : exec (.disc) s = execDisc s := rfl
@[simp] theorem exec_cold (cause : ResetCause) (s : State) : exec (.cold cause) s = execCold cause s := rfl
@[simp] theorem exec_warm (cause : ResetCause) (s : State) : exec (.warm cause) s = execWarm cause s := rfl
@[simp] theorem exec_bootStage (fw : Firmware) (absent : Absent) (s : State) : exec (.bootStage fw absent) s = execBootStage fw absent s := rfl
@[simp] theorem exec_thermalTrip (stack : Nat) (s : State) : exec (.thermalTrip stack) s = execThermalTrip stack s := rfl
@[simp] theorem exec_thermalThrottle (block : BlockOver) (s : State) : exec (.thermalThrottle block) s = execThermalThrottle block s := rfl
@[simp] theorem exec_throttleRelease (block : BlockBack) (s : State) : exec (.throttleRelease block) s = execThrottleRelease block s := rfl
@[simp] theorem exec_getVersion (s : State) : exec (.getVersion) s = execGetVersion s := rfl
@[simp] theorem exec_getCapabilities (s : State) : exec (.getCapabilities) s = execGetCapabilities s := rfl
@[simp] theorem exec_negotiateAlgorithms (slhdsa : Bool) (s : State) : exec (.negotiateAlgorithms slhdsa) s = execNegotiateAlgorithms slhdsa s := rfl
@[simp] theorem exec_getDigests (s : State) : exec (.getDigests) s = execGetDigests s := rfl
@[simp] theorem exec_getCertificate (slot : Nat) (s : State) : exec (.getCertificate slot) s = execGetCertificate slot s := rfl
@[simp] theorem exec_challenge (nonce : Nat) (s : State) : exec (.challenge nonce) s = execChallenge nonce s := rfl
@[simp] theorem exec_getMeasurements (index : Nat) (s : State) : exec (.getMeasurements index) s = execGetMeasurements index s := rfl
@[simp] theorem exec_keyExchange (nonce : Nat) (s : State) : exec (.keyExchange nonce) s = execKeyExchange nonce s := rfl
@[simp] theorem exec_finish (proof : Bool) (s : State) : exec (.finish proof) s = execFinish proof s := rfl
@[simp] theorem exec_endSession (s : State) : exec (.endSession) s = execEndSession s := rfl
@[simp] theorem exec_ideKm (stream : Nat) (key : Nat) (s : State) : exec (.ideKm stream key) s = execIdeKm stream key s := rfl
@[simp] theorem exec_registerWrite (agent : Agent) (offset : Nat) (wide : Bool) (value : Option Double) (s : State) : exec (.registerWrite agent offset wide value) s = execRegisterWrite agent offset wide value s := rfl
@[simp] theorem exec_timeBaseTick (s : State) : exec (.timeBaseTick) s = execTimeBaseTick s := rfl
@[simp] theorem exec_peerAccess (acc : PeerAcc) (s : State) : exec (.peerAccess acc) s = execPeerAccess acc s := rfl
@[simp] theorem exec_backInvalidationResponse (line : Nat) (s : State) : exec (.backInvalidationResponse line) s = execBackInvalidationResponse line s := rfl
@[simp] theorem exec_hostCacheResponse (line : Nat) (data : HostLine) (s : State) : exec (.hostCacheResponse line data) s = execHostCacheResponse line data s := rfl
@[simp] theorem exec_configurationAccess (fn : Nat) (acc : CfgAcc) (s : State) : exec (.configurationAccess fn acc) s = execConfigurationAccess fn acc s := rfl
@[simp] theorem exec_linkRetrain (unit : Nat) (s : State) : exec (.linkRetrain unit) s = execLinkRetrain unit s := rfl

end Sys2Proof.Machine
end

