-- ==== Sys2Proof/Laws/State.lean ====
section
/-! SUPPORT. What each update of the state leaves as it was, field by field. -/

namespace Sys2Proof.Machine

@[simp] theorem State.updWarp_clk (s : State) (u : Nat) (f : Warp → Warp) : (s.updWarp u f).clk = s.clk := rfl
@[simp] theorem State.updWarp_who (s : State) (u : Nat) (f : Warp → Warp) : (s.updWarp u f).who = s.who := rfl
@[simp] theorem State.updWarp_issuing (s : State) (u : Nat) (f : Warp → Warp) : (s.updWarp u f).issuing = s.issuing := rfl
@[simp] theorem State.updWarp_agenda (s : State) (u : Nat) (f : Warp → Warp) : (s.updWarp u f).agenda = s.agenda := rfl
@[simp] theorem State.updWarp_mem (s : State) (u : Nat) (f : Warp → Warp) : (s.updWarp u f).mem = s.mem := rfl
@[simp] theorem State.updWarp_pois (s : State) (u : Nat) (f : Warp → Warp) : (s.updWarp u f).pois = s.pois := rfl
@[simp] theorem State.updWarp_teams (s : State) (u : Nat) (f : Warp → Warp) : (s.updWarp u f).teams = s.teams := rfl
@[simp] theorem State.updWarp_cores (s : State) (u : Nat) (f : Warp → Warp) : (s.updWarp u f).cores = s.cores := rfl
@[simp] theorem State.updWarp_dies (s : State) (u : Nat) (f : Warp → Warp) : (s.updWarp u f).dies = s.dies := rfl
@[simp] theorem State.updWarp_net (s : State) (u : Nat) (f : Warp → Warp) : (s.updWarp u f).net = s.net := rfl
@[simp] theorem State.updWarp_dir (s : State) (u : Nat) (f : Warp → Warp) : (s.updWarp u f).dir = s.dir := rfl
@[simp] theorem State.updWarp_reqs (s : State) (u : Nat) (f : Warp → Warp) : (s.updWarp u f).reqs = s.reqs := rfl
@[simp] theorem State.updWarp_writes (s : State) (u : Nat) (f : Warp → Warp) : (s.updWarp u f).writes = s.writes := rfl
@[simp] theorem State.updWarp_ops (s : State) (u : Nat) (f : Warp → Warp) : (s.updWarp u f).ops = s.ops := rfl
@[simp] theorem State.updWarp_waits (s : State) (u : Nat) (f : Warp → Warp) : (s.updWarp u f).waits = s.waits := rfl
@[simp] theorem State.updWarp_tables (s : State) (u : Nat) (f : Warp → Warp) : (s.updWarp u f).tables = s.tables := rfl
@[simp] theorem State.updWarp_trees (s : State) (u : Nat) (f : Warp → Warp) : (s.updWarp u f).trees = s.trees := rfl
@[simp] theorem State.updWarp_tenants (s : State) (u : Nat) (f : Warp → Warp) : (s.updWarp u f).tenants = s.tenants := rfl
@[simp] theorem State.updWarp_prgroups (s : State) (u : Nat) (f : Warp → Warp) : (s.updWarp u f).prgroups = s.prgroups := rfl
@[simp] theorem State.updWarp_flips (s : State) (u : Nat) (f : Warp → Warp) : (s.updWarp u f).flips = s.flips := rfl
@[simp] theorem State.updWarp_llc (s : State) (u : Nat) (f : Warp → Warp) : (s.updWarp u f).llc = s.llc := rfl
@[simp] theorem State.updWarp_nodes (s : State) (u : Nat) (f : Warp → Warp) : (s.updWarp u f).nodes = s.nodes := rfl
@[simp] theorem State.updWarp_insts (s : State) (u : Nat) (f : Warp → Warp) : (s.updWarp u f).insts = s.insts := rfl
@[simp] theorem State.updWarp_link (s : State) (u : Nat) (f : Warp → Warp) : (s.updWarp u f).link = s.link := rfl
@[simp] theorem State.updWarp_logs (s : State) (u : Nat) (f : Warp → Warp) : (s.updWarp u f).logs = s.logs := rfl
@[simp] theorem State.updWarp_plat (s : State) (u : Nat) (f : Warp → Warp) : (s.updWarp u f).plat = s.plat := rfl

@[simp] theorem State.updMy_clk (s : State) (f : Warp → Warp) : (s.updMy f).clk = s.clk := rfl
@[simp] theorem State.updMy_who (s : State) (f : Warp → Warp) : (s.updMy f).who = s.who := rfl
@[simp] theorem State.updMy_issuing (s : State) (f : Warp → Warp) : (s.updMy f).issuing = s.issuing := rfl
@[simp] theorem State.updMy_agenda (s : State) (f : Warp → Warp) : (s.updMy f).agenda = s.agenda := rfl
@[simp] theorem State.updMy_mem (s : State) (f : Warp → Warp) : (s.updMy f).mem = s.mem := rfl
@[simp] theorem State.updMy_pois (s : State) (f : Warp → Warp) : (s.updMy f).pois = s.pois := rfl
@[simp] theorem State.updMy_teams (s : State) (f : Warp → Warp) : (s.updMy f).teams = s.teams := rfl
@[simp] theorem State.updMy_cores (s : State) (f : Warp → Warp) : (s.updMy f).cores = s.cores := rfl
@[simp] theorem State.updMy_dies (s : State) (f : Warp → Warp) : (s.updMy f).dies = s.dies := rfl
@[simp] theorem State.updMy_net (s : State) (f : Warp → Warp) : (s.updMy f).net = s.net := rfl
@[simp] theorem State.updMy_dir (s : State) (f : Warp → Warp) : (s.updMy f).dir = s.dir := rfl
@[simp] theorem State.updMy_reqs (s : State) (f : Warp → Warp) : (s.updMy f).reqs = s.reqs := rfl
@[simp] theorem State.updMy_writes (s : State) (f : Warp → Warp) : (s.updMy f).writes = s.writes := rfl
@[simp] theorem State.updMy_ops (s : State) (f : Warp → Warp) : (s.updMy f).ops = s.ops := rfl
@[simp] theorem State.updMy_waits (s : State) (f : Warp → Warp) : (s.updMy f).waits = s.waits := rfl
@[simp] theorem State.updMy_tables (s : State) (f : Warp → Warp) : (s.updMy f).tables = s.tables := rfl
@[simp] theorem State.updMy_trees (s : State) (f : Warp → Warp) : (s.updMy f).trees = s.trees := rfl
@[simp] theorem State.updMy_tenants (s : State) (f : Warp → Warp) : (s.updMy f).tenants = s.tenants := rfl
@[simp] theorem State.updMy_prgroups (s : State) (f : Warp → Warp) : (s.updMy f).prgroups = s.prgroups := rfl
@[simp] theorem State.updMy_flips (s : State) (f : Warp → Warp) : (s.updMy f).flips = s.flips := rfl
@[simp] theorem State.updMy_llc (s : State) (f : Warp → Warp) : (s.updMy f).llc = s.llc := rfl
@[simp] theorem State.updMy_nodes (s : State) (f : Warp → Warp) : (s.updMy f).nodes = s.nodes := rfl
@[simp] theorem State.updMy_insts (s : State) (f : Warp → Warp) : (s.updMy f).insts = s.insts := rfl
@[simp] theorem State.updMy_link (s : State) (f : Warp → Warp) : (s.updMy f).link = s.link := rfl
@[simp] theorem State.updMy_logs (s : State) (f : Warp → Warp) : (s.updMy f).logs = s.logs := rfl
@[simp] theorem State.updMy_plat (s : State) (f : Warp → Warp) : (s.updMy f).plat = s.plat := rfl

@[simp] theorem State.updArch_clk (s : State) (f : Arch → Arch) : (s.updArch f).clk = s.clk := rfl
@[simp] theorem State.updArch_who (s : State) (f : Arch → Arch) : (s.updArch f).who = s.who := rfl
@[simp] theorem State.updArch_issuing (s : State) (f : Arch → Arch) : (s.updArch f).issuing = s.issuing := rfl
@[simp] theorem State.updArch_agenda (s : State) (f : Arch → Arch) : (s.updArch f).agenda = s.agenda := rfl
@[simp] theorem State.updArch_mem (s : State) (f : Arch → Arch) : (s.updArch f).mem = s.mem := rfl
@[simp] theorem State.updArch_pois (s : State) (f : Arch → Arch) : (s.updArch f).pois = s.pois := rfl
@[simp] theorem State.updArch_teams (s : State) (f : Arch → Arch) : (s.updArch f).teams = s.teams := rfl
@[simp] theorem State.updArch_cores (s : State) (f : Arch → Arch) : (s.updArch f).cores = s.cores := rfl
@[simp] theorem State.updArch_dies (s : State) (f : Arch → Arch) : (s.updArch f).dies = s.dies := rfl
@[simp] theorem State.updArch_net (s : State) (f : Arch → Arch) : (s.updArch f).net = s.net := rfl
@[simp] theorem State.updArch_dir (s : State) (f : Arch → Arch) : (s.updArch f).dir = s.dir := rfl
@[simp] theorem State.updArch_reqs (s : State) (f : Arch → Arch) : (s.updArch f).reqs = s.reqs := rfl
@[simp] theorem State.updArch_writes (s : State) (f : Arch → Arch) : (s.updArch f).writes = s.writes := rfl
@[simp] theorem State.updArch_ops (s : State) (f : Arch → Arch) : (s.updArch f).ops = s.ops := rfl
@[simp] theorem State.updArch_waits (s : State) (f : Arch → Arch) : (s.updArch f).waits = s.waits := rfl
@[simp] theorem State.updArch_tables (s : State) (f : Arch → Arch) : (s.updArch f).tables = s.tables := rfl
@[simp] theorem State.updArch_trees (s : State) (f : Arch → Arch) : (s.updArch f).trees = s.trees := rfl
@[simp] theorem State.updArch_tenants (s : State) (f : Arch → Arch) : (s.updArch f).tenants = s.tenants := rfl
@[simp] theorem State.updArch_prgroups (s : State) (f : Arch → Arch) : (s.updArch f).prgroups = s.prgroups := rfl
@[simp] theorem State.updArch_flips (s : State) (f : Arch → Arch) : (s.updArch f).flips = s.flips := rfl
@[simp] theorem State.updArch_llc (s : State) (f : Arch → Arch) : (s.updArch f).llc = s.llc := rfl
@[simp] theorem State.updArch_nodes (s : State) (f : Arch → Arch) : (s.updArch f).nodes = s.nodes := rfl
@[simp] theorem State.updArch_insts (s : State) (f : Arch → Arch) : (s.updArch f).insts = s.insts := rfl
@[simp] theorem State.updArch_link (s : State) (f : Arch → Arch) : (s.updArch f).link = s.link := rfl
@[simp] theorem State.updArch_logs (s : State) (f : Arch → Arch) : (s.updArch f).logs = s.logs := rfl
@[simp] theorem State.updArch_plat (s : State) (f : Arch → Arch) : (s.updArch f).plat = s.plat := rfl

@[simp] theorem State.updGang_clk (s : State) (f : Gang → Gang) : (s.updGang f).clk = s.clk := rfl
@[simp] theorem State.updGang_who (s : State) (f : Gang → Gang) : (s.updGang f).who = s.who := rfl
@[simp] theorem State.updGang_issuing (s : State) (f : Gang → Gang) : (s.updGang f).issuing = s.issuing := rfl
@[simp] theorem State.updGang_agenda (s : State) (f : Gang → Gang) : (s.updGang f).agenda = s.agenda := rfl
@[simp] theorem State.updGang_mem (s : State) (f : Gang → Gang) : (s.updGang f).mem = s.mem := rfl
@[simp] theorem State.updGang_pois (s : State) (f : Gang → Gang) : (s.updGang f).pois = s.pois := rfl
@[simp] theorem State.updGang_teams (s : State) (f : Gang → Gang) : (s.updGang f).teams = s.teams := rfl
@[simp] theorem State.updGang_cores (s : State) (f : Gang → Gang) : (s.updGang f).cores = s.cores := rfl
@[simp] theorem State.updGang_dies (s : State) (f : Gang → Gang) : (s.updGang f).dies = s.dies := rfl
@[simp] theorem State.updGang_net (s : State) (f : Gang → Gang) : (s.updGang f).net = s.net := rfl
@[simp] theorem State.updGang_dir (s : State) (f : Gang → Gang) : (s.updGang f).dir = s.dir := rfl
@[simp] theorem State.updGang_reqs (s : State) (f : Gang → Gang) : (s.updGang f).reqs = s.reqs := rfl
@[simp] theorem State.updGang_writes (s : State) (f : Gang → Gang) : (s.updGang f).writes = s.writes := rfl
@[simp] theorem State.updGang_ops (s : State) (f : Gang → Gang) : (s.updGang f).ops = s.ops := rfl
@[simp] theorem State.updGang_waits (s : State) (f : Gang → Gang) : (s.updGang f).waits = s.waits := rfl
@[simp] theorem State.updGang_tables (s : State) (f : Gang → Gang) : (s.updGang f).tables = s.tables := rfl
@[simp] theorem State.updGang_trees (s : State) (f : Gang → Gang) : (s.updGang f).trees = s.trees := rfl
@[simp] theorem State.updGang_tenants (s : State) (f : Gang → Gang) : (s.updGang f).tenants = s.tenants := rfl
@[simp] theorem State.updGang_prgroups (s : State) (f : Gang → Gang) : (s.updGang f).prgroups = s.prgroups := rfl
@[simp] theorem State.updGang_flips (s : State) (f : Gang → Gang) : (s.updGang f).flips = s.flips := rfl
@[simp] theorem State.updGang_llc (s : State) (f : Gang → Gang) : (s.updGang f).llc = s.llc := rfl
@[simp] theorem State.updGang_nodes (s : State) (f : Gang → Gang) : (s.updGang f).nodes = s.nodes := rfl
@[simp] theorem State.updGang_insts (s : State) (f : Gang → Gang) : (s.updGang f).insts = s.insts := rfl
@[simp] theorem State.updGang_link (s : State) (f : Gang → Gang) : (s.updGang f).link = s.link := rfl
@[simp] theorem State.updGang_logs (s : State) (f : Gang → Gang) : (s.updGang f).logs = s.logs := rfl
@[simp] theorem State.updGang_plat (s : State) (f : Gang → Gang) : (s.updGang f).plat = s.plat := rfl

@[simp] theorem State.updWay_clk (s : State) (f : Way → Way) : (s.updWay f).clk = s.clk := rfl
@[simp] theorem State.updWay_who (s : State) (f : Way → Way) : (s.updWay f).who = s.who := rfl
@[simp] theorem State.updWay_issuing (s : State) (f : Way → Way) : (s.updWay f).issuing = s.issuing := rfl
@[simp] theorem State.updWay_agenda (s : State) (f : Way → Way) : (s.updWay f).agenda = s.agenda := rfl
@[simp] theorem State.updWay_mem (s : State) (f : Way → Way) : (s.updWay f).mem = s.mem := rfl
@[simp] theorem State.updWay_pois (s : State) (f : Way → Way) : (s.updWay f).pois = s.pois := rfl
@[simp] theorem State.updWay_teams (s : State) (f : Way → Way) : (s.updWay f).teams = s.teams := rfl
@[simp] theorem State.updWay_cores (s : State) (f : Way → Way) : (s.updWay f).cores = s.cores := rfl
@[simp] theorem State.updWay_dies (s : State) (f : Way → Way) : (s.updWay f).dies = s.dies := rfl
@[simp] theorem State.updWay_net (s : State) (f : Way → Way) : (s.updWay f).net = s.net := rfl
@[simp] theorem State.updWay_dir (s : State) (f : Way → Way) : (s.updWay f).dir = s.dir := rfl
@[simp] theorem State.updWay_reqs (s : State) (f : Way → Way) : (s.updWay f).reqs = s.reqs := rfl
@[simp] theorem State.updWay_writes (s : State) (f : Way → Way) : (s.updWay f).writes = s.writes := rfl
@[simp] theorem State.updWay_ops (s : State) (f : Way → Way) : (s.updWay f).ops = s.ops := rfl
@[simp] theorem State.updWay_waits (s : State) (f : Way → Way) : (s.updWay f).waits = s.waits := rfl
@[simp] theorem State.updWay_tables (s : State) (f : Way → Way) : (s.updWay f).tables = s.tables := rfl
@[simp] theorem State.updWay_trees (s : State) (f : Way → Way) : (s.updWay f).trees = s.trees := rfl
@[simp] theorem State.updWay_tenants (s : State) (f : Way → Way) : (s.updWay f).tenants = s.tenants := rfl
@[simp] theorem State.updWay_prgroups (s : State) (f : Way → Way) : (s.updWay f).prgroups = s.prgroups := rfl
@[simp] theorem State.updWay_flips (s : State) (f : Way → Way) : (s.updWay f).flips = s.flips := rfl
@[simp] theorem State.updWay_llc (s : State) (f : Way → Way) : (s.updWay f).llc = s.llc := rfl
@[simp] theorem State.updWay_nodes (s : State) (f : Way → Way) : (s.updWay f).nodes = s.nodes := rfl
@[simp] theorem State.updWay_insts (s : State) (f : Way → Way) : (s.updWay f).insts = s.insts := rfl
@[simp] theorem State.updWay_link (s : State) (f : Way → Way) : (s.updWay f).link = s.link := rfl
@[simp] theorem State.updWay_logs (s : State) (f : Way → Way) : (s.updWay f).logs = s.logs := rfl
@[simp] theorem State.updWay_plat (s : State) (f : Way → Way) : (s.updWay f).plat = s.plat := rfl

@[simp] theorem State.advance_clk (s : State) : (s.advance).clk = s.clk := rfl
@[simp] theorem State.advance_who (s : State) : (s.advance).who = s.who := rfl
@[simp] theorem State.advance_issuing (s : State) : (s.advance).issuing = s.issuing := rfl
@[simp] theorem State.advance_agenda (s : State) : (s.advance).agenda = s.agenda := rfl
@[simp] theorem State.advance_mem (s : State) : (s.advance).mem = s.mem := rfl
@[simp] theorem State.advance_pois (s : State) : (s.advance).pois = s.pois := rfl
@[simp] theorem State.advance_teams (s : State) : (s.advance).teams = s.teams := rfl
@[simp] theorem State.advance_cores (s : State) : (s.advance).cores = s.cores := rfl
@[simp] theorem State.advance_dies (s : State) : (s.advance).dies = s.dies := rfl
@[simp] theorem State.advance_net (s : State) : (s.advance).net = s.net := rfl
@[simp] theorem State.advance_dir (s : State) : (s.advance).dir = s.dir := rfl
@[simp] theorem State.advance_reqs (s : State) : (s.advance).reqs = s.reqs := rfl
@[simp] theorem State.advance_writes (s : State) : (s.advance).writes = s.writes := rfl
@[simp] theorem State.advance_ops (s : State) : (s.advance).ops = s.ops := rfl
@[simp] theorem State.advance_waits (s : State) : (s.advance).waits = s.waits := rfl
@[simp] theorem State.advance_tables (s : State) : (s.advance).tables = s.tables := rfl
@[simp] theorem State.advance_trees (s : State) : (s.advance).trees = s.trees := rfl
@[simp] theorem State.advance_tenants (s : State) : (s.advance).tenants = s.tenants := rfl
@[simp] theorem State.advance_prgroups (s : State) : (s.advance).prgroups = s.prgroups := rfl
@[simp] theorem State.advance_flips (s : State) : (s.advance).flips = s.flips := rfl
@[simp] theorem State.advance_llc (s : State) : (s.advance).llc = s.llc := rfl
@[simp] theorem State.advance_nodes (s : State) : (s.advance).nodes = s.nodes := rfl
@[simp] theorem State.advance_insts (s : State) : (s.advance).insts = s.insts := rfl
@[simp] theorem State.advance_link (s : State) : (s.advance).link = s.link := rfl
@[simp] theorem State.advance_logs (s : State) : (s.advance).logs = s.logs := rfl
@[simp] theorem State.advance_plat (s : State) : (s.advance).plat = s.plat := rfl

@[simp] theorem State.countOne_clk (s : State) : (s.countOne).clk = s.clk := rfl
@[simp] theorem State.countOne_who (s : State) : (s.countOne).who = s.who := rfl
@[simp] theorem State.countOne_issuing (s : State) : (s.countOne).issuing = s.issuing := rfl
@[simp] theorem State.countOne_agenda (s : State) : (s.countOne).agenda = s.agenda := rfl
@[simp] theorem State.countOne_mem (s : State) : (s.countOne).mem = s.mem := rfl
@[simp] theorem State.countOne_pois (s : State) : (s.countOne).pois = s.pois := rfl
@[simp] theorem State.countOne_teams (s : State) : (s.countOne).teams = s.teams := rfl
@[simp] theorem State.countOne_cores (s : State) : (s.countOne).cores = s.cores := rfl
@[simp] theorem State.countOne_dies (s : State) : (s.countOne).dies = s.dies := rfl
@[simp] theorem State.countOne_net (s : State) : (s.countOne).net = s.net := rfl
@[simp] theorem State.countOne_dir (s : State) : (s.countOne).dir = s.dir := rfl
@[simp] theorem State.countOne_reqs (s : State) : (s.countOne).reqs = s.reqs := rfl
@[simp] theorem State.countOne_writes (s : State) : (s.countOne).writes = s.writes := rfl
@[simp] theorem State.countOne_ops (s : State) : (s.countOne).ops = s.ops := rfl
@[simp] theorem State.countOne_waits (s : State) : (s.countOne).waits = s.waits := rfl
@[simp] theorem State.countOne_tables (s : State) : (s.countOne).tables = s.tables := rfl
@[simp] theorem State.countOne_trees (s : State) : (s.countOne).trees = s.trees := rfl
@[simp] theorem State.countOne_tenants (s : State) : (s.countOne).tenants = s.tenants := rfl
@[simp] theorem State.countOne_prgroups (s : State) : (s.countOne).prgroups = s.prgroups := rfl
@[simp] theorem State.countOne_flips (s : State) : (s.countOne).flips = s.flips := rfl
@[simp] theorem State.countOne_llc (s : State) : (s.countOne).llc = s.llc := rfl
@[simp] theorem State.countOne_nodes (s : State) : (s.countOne).nodes = s.nodes := rfl
@[simp] theorem State.countOne_insts (s : State) : (s.countOne).insts = s.insts := rfl
@[simp] theorem State.countOne_link (s : State) : (s.countOne).link = s.link := rfl
@[simp] theorem State.countOne_logs (s : State) : (s.countOne).logs = s.logs := rfl
@[simp] theorem State.countOne_plat (s : State) : (s.countOne).plat = s.plat := rfl

@[simp] theorem State.park_clk (s : State) (p : Park) : (s.park p).clk = s.clk := rfl
@[simp] theorem State.park_who (s : State) (p : Park) : (s.park p).who = s.who := rfl
@[simp] theorem State.park_issuing (s : State) (p : Park) : (s.park p).issuing = s.issuing := rfl
@[simp] theorem State.park_agenda (s : State) (p : Park) : (s.park p).agenda = s.agenda := rfl
@[simp] theorem State.park_mem (s : State) (p : Park) : (s.park p).mem = s.mem := rfl
@[simp] theorem State.park_pois (s : State) (p : Park) : (s.park p).pois = s.pois := rfl
@[simp] theorem State.park_teams (s : State) (p : Park) : (s.park p).teams = s.teams := rfl
@[simp] theorem State.park_cores (s : State) (p : Park) : (s.park p).cores = s.cores := rfl
@[simp] theorem State.park_dies (s : State) (p : Park) : (s.park p).dies = s.dies := rfl
@[simp] theorem State.park_net (s : State) (p : Park) : (s.park p).net = s.net := rfl
@[simp] theorem State.park_dir (s : State) (p : Park) : (s.park p).dir = s.dir := rfl
@[simp] theorem State.park_reqs (s : State) (p : Park) : (s.park p).reqs = s.reqs := rfl
@[simp] theorem State.park_writes (s : State) (p : Park) : (s.park p).writes = s.writes := rfl
@[simp] theorem State.park_ops (s : State) (p : Park) : (s.park p).ops = s.ops := rfl
@[simp] theorem State.park_waits (s : State) (p : Park) : (s.park p).waits = s.waits := rfl
@[simp] theorem State.park_tables (s : State) (p : Park) : (s.park p).tables = s.tables := rfl
@[simp] theorem State.park_trees (s : State) (p : Park) : (s.park p).trees = s.trees := rfl
@[simp] theorem State.park_tenants (s : State) (p : Park) : (s.park p).tenants = s.tenants := rfl
@[simp] theorem State.park_prgroups (s : State) (p : Park) : (s.park p).prgroups = s.prgroups := rfl
@[simp] theorem State.park_flips (s : State) (p : Park) : (s.park p).flips = s.flips := rfl
@[simp] theorem State.park_llc (s : State) (p : Park) : (s.park p).llc = s.llc := rfl
@[simp] theorem State.park_nodes (s : State) (p : Park) : (s.park p).nodes = s.nodes := rfl
@[simp] theorem State.park_insts (s : State) (p : Park) : (s.park p).insts = s.insts := rfl
@[simp] theorem State.park_link (s : State) (p : Park) : (s.park p).link = s.link := rfl
@[simp] theorem State.park_logs (s : State) (p : Park) : (s.park p).logs = s.logs := rfl
@[simp] theorem State.park_plat (s : State) (p : Park) : (s.park p).plat = s.plat := rfl

@[simp] theorem State.raise_clk (s : State) (fl : Word) : (s.raise fl).clk = s.clk := rfl
@[simp] theorem State.raise_who (s : State) (fl : Word) : (s.raise fl).who = s.who := rfl
@[simp] theorem State.raise_issuing (s : State) (fl : Word) : (s.raise fl).issuing = s.issuing := rfl
@[simp] theorem State.raise_agenda (s : State) (fl : Word) : (s.raise fl).agenda = s.agenda := rfl
@[simp] theorem State.raise_mem (s : State) (fl : Word) : (s.raise fl).mem = s.mem := rfl
@[simp] theorem State.raise_pois (s : State) (fl : Word) : (s.raise fl).pois = s.pois := rfl
@[simp] theorem State.raise_teams (s : State) (fl : Word) : (s.raise fl).teams = s.teams := rfl
@[simp] theorem State.raise_cores (s : State) (fl : Word) : (s.raise fl).cores = s.cores := rfl
@[simp] theorem State.raise_dies (s : State) (fl : Word) : (s.raise fl).dies = s.dies := rfl
@[simp] theorem State.raise_net (s : State) (fl : Word) : (s.raise fl).net = s.net := rfl
@[simp] theorem State.raise_dir (s : State) (fl : Word) : (s.raise fl).dir = s.dir := rfl
@[simp] theorem State.raise_reqs (s : State) (fl : Word) : (s.raise fl).reqs = s.reqs := rfl
@[simp] theorem State.raise_writes (s : State) (fl : Word) : (s.raise fl).writes = s.writes := rfl
@[simp] theorem State.raise_ops (s : State) (fl : Word) : (s.raise fl).ops = s.ops := rfl
@[simp] theorem State.raise_waits (s : State) (fl : Word) : (s.raise fl).waits = s.waits := rfl
@[simp] theorem State.raise_tables (s : State) (fl : Word) : (s.raise fl).tables = s.tables := rfl
@[simp] theorem State.raise_trees (s : State) (fl : Word) : (s.raise fl).trees = s.trees := rfl
@[simp] theorem State.raise_tenants (s : State) (fl : Word) : (s.raise fl).tenants = s.tenants := rfl
@[simp] theorem State.raise_prgroups (s : State) (fl : Word) : (s.raise fl).prgroups = s.prgroups := rfl
@[simp] theorem State.raise_flips (s : State) (fl : Word) : (s.raise fl).flips = s.flips := rfl
@[simp] theorem State.raise_llc (s : State) (fl : Word) : (s.raise fl).llc = s.llc := rfl
@[simp] theorem State.raise_nodes (s : State) (fl : Word) : (s.raise fl).nodes = s.nodes := rfl
@[simp] theorem State.raise_insts (s : State) (fl : Word) : (s.raise fl).insts = s.insts := rfl
@[simp] theorem State.raise_link (s : State) (fl : Word) : (s.raise fl).link = s.link := rfl
@[simp] theorem State.raise_logs (s : State) (fl : Word) : (s.raise fl).logs = s.logs := rfl
@[simp] theorem State.raise_plat (s : State) (fl : Word) : (s.raise fl).plat = s.plat := rfl

@[simp] theorem State.bypass_clk (s : State) (v : Tab Double) : (s.bypass v).clk = s.clk := rfl
@[simp] theorem State.bypass_who (s : State) (v : Tab Double) : (s.bypass v).who = s.who := rfl
@[simp] theorem State.bypass_issuing (s : State) (v : Tab Double) : (s.bypass v).issuing = s.issuing := rfl
@[simp] theorem State.bypass_agenda (s : State) (v : Tab Double) : (s.bypass v).agenda = s.agenda := rfl
@[simp] theorem State.bypass_mem (s : State) (v : Tab Double) : (s.bypass v).mem = s.mem := rfl
@[simp] theorem State.bypass_pois (s : State) (v : Tab Double) : (s.bypass v).pois = s.pois := rfl
@[simp] theorem State.bypass_teams (s : State) (v : Tab Double) : (s.bypass v).teams = s.teams := rfl
@[simp] theorem State.bypass_cores (s : State) (v : Tab Double) : (s.bypass v).cores = s.cores := rfl
@[simp] theorem State.bypass_dies (s : State) (v : Tab Double) : (s.bypass v).dies = s.dies := rfl
@[simp] theorem State.bypass_net (s : State) (v : Tab Double) : (s.bypass v).net = s.net := rfl
@[simp] theorem State.bypass_dir (s : State) (v : Tab Double) : (s.bypass v).dir = s.dir := rfl
@[simp] theorem State.bypass_reqs (s : State) (v : Tab Double) : (s.bypass v).reqs = s.reqs := rfl
@[simp] theorem State.bypass_writes (s : State) (v : Tab Double) : (s.bypass v).writes = s.writes := rfl
@[simp] theorem State.bypass_ops (s : State) (v : Tab Double) : (s.bypass v).ops = s.ops := rfl
@[simp] theorem State.bypass_waits (s : State) (v : Tab Double) : (s.bypass v).waits = s.waits := rfl
@[simp] theorem State.bypass_tables (s : State) (v : Tab Double) : (s.bypass v).tables = s.tables := rfl
@[simp] theorem State.bypass_trees (s : State) (v : Tab Double) : (s.bypass v).trees = s.trees := rfl
@[simp] theorem State.bypass_tenants (s : State) (v : Tab Double) : (s.bypass v).tenants = s.tenants := rfl
@[simp] theorem State.bypass_prgroups (s : State) (v : Tab Double) : (s.bypass v).prgroups = s.prgroups := rfl
@[simp] theorem State.bypass_flips (s : State) (v : Tab Double) : (s.bypass v).flips = s.flips := rfl
@[simp] theorem State.bypass_llc (s : State) (v : Tab Double) : (s.bypass v).llc = s.llc := rfl
@[simp] theorem State.bypass_nodes (s : State) (v : Tab Double) : (s.bypass v).nodes = s.nodes := rfl
@[simp] theorem State.bypass_insts (s : State) (v : Tab Double) : (s.bypass v).insts = s.insts := rfl
@[simp] theorem State.bypass_link (s : State) (v : Tab Double) : (s.bypass v).link = s.link := rfl
@[simp] theorem State.bypass_logs (s : State) (v : Tab Double) : (s.bypass v).logs = s.logs := rfl
@[simp] theorem State.bypass_plat (s : State) (v : Tab Double) : (s.bypass v).plat = s.plat := rfl

@[simp] theorem State.putLanes_clk (s : State) (ls : Lanes) (d : Dst) (w : Bool) (f : Nat → Double) : (s.putLanes ls d w f).clk = s.clk := rfl
@[simp] theorem State.putLanes_who (s : State) (ls : Lanes) (d : Dst) (w : Bool) (f : Nat → Double) : (s.putLanes ls d w f).who = s.who := rfl
@[simp] theorem State.putLanes_issuing (s : State) (ls : Lanes) (d : Dst) (w : Bool) (f : Nat → Double) : (s.putLanes ls d w f).issuing = s.issuing := rfl
@[simp] theorem State.putLanes_agenda (s : State) (ls : Lanes) (d : Dst) (w : Bool) (f : Nat → Double) : (s.putLanes ls d w f).agenda = s.agenda := rfl
@[simp] theorem State.putLanes_mem (s : State) (ls : Lanes) (d : Dst) (w : Bool) (f : Nat → Double) : (s.putLanes ls d w f).mem = s.mem := rfl
@[simp] theorem State.putLanes_pois (s : State) (ls : Lanes) (d : Dst) (w : Bool) (f : Nat → Double) : (s.putLanes ls d w f).pois = s.pois := rfl
@[simp] theorem State.putLanes_teams (s : State) (ls : Lanes) (d : Dst) (w : Bool) (f : Nat → Double) : (s.putLanes ls d w f).teams = s.teams := rfl
@[simp] theorem State.putLanes_cores (s : State) (ls : Lanes) (d : Dst) (w : Bool) (f : Nat → Double) : (s.putLanes ls d w f).cores = s.cores := rfl
@[simp] theorem State.putLanes_dies (s : State) (ls : Lanes) (d : Dst) (w : Bool) (f : Nat → Double) : (s.putLanes ls d w f).dies = s.dies := rfl
@[simp] theorem State.putLanes_net (s : State) (ls : Lanes) (d : Dst) (w : Bool) (f : Nat → Double) : (s.putLanes ls d w f).net = s.net := rfl
@[simp] theorem State.putLanes_dir (s : State) (ls : Lanes) (d : Dst) (w : Bool) (f : Nat → Double) : (s.putLanes ls d w f).dir = s.dir := rfl
@[simp] theorem State.putLanes_reqs (s : State) (ls : Lanes) (d : Dst) (w : Bool) (f : Nat → Double) : (s.putLanes ls d w f).reqs = s.reqs := rfl
@[simp] theorem State.putLanes_writes (s : State) (ls : Lanes) (d : Dst) (w : Bool) (f : Nat → Double) : (s.putLanes ls d w f).writes = s.writes := rfl
@[simp] theorem State.putLanes_ops (s : State) (ls : Lanes) (d : Dst) (w : Bool) (f : Nat → Double) : (s.putLanes ls d w f).ops = s.ops := rfl
@[simp] theorem State.putLanes_waits (s : State) (ls : Lanes) (d : Dst) (w : Bool) (f : Nat → Double) : (s.putLanes ls d w f).waits = s.waits := rfl
@[simp] theorem State.putLanes_tables (s : State) (ls : Lanes) (d : Dst) (w : Bool) (f : Nat → Double) : (s.putLanes ls d w f).tables = s.tables := rfl
@[simp] theorem State.putLanes_trees (s : State) (ls : Lanes) (d : Dst) (w : Bool) (f : Nat → Double) : (s.putLanes ls d w f).trees = s.trees := rfl
@[simp] theorem State.putLanes_tenants (s : State) (ls : Lanes) (d : Dst) (w : Bool) (f : Nat → Double) : (s.putLanes ls d w f).tenants = s.tenants := rfl
@[simp] theorem State.putLanes_prgroups (s : State) (ls : Lanes) (d : Dst) (w : Bool) (f : Nat → Double) : (s.putLanes ls d w f).prgroups = s.prgroups := rfl
@[simp] theorem State.putLanes_flips (s : State) (ls : Lanes) (d : Dst) (w : Bool) (f : Nat → Double) : (s.putLanes ls d w f).flips = s.flips := rfl
@[simp] theorem State.putLanes_llc (s : State) (ls : Lanes) (d : Dst) (w : Bool) (f : Nat → Double) : (s.putLanes ls d w f).llc = s.llc := rfl
@[simp] theorem State.putLanes_nodes (s : State) (ls : Lanes) (d : Dst) (w : Bool) (f : Nat → Double) : (s.putLanes ls d w f).nodes = s.nodes := rfl
@[simp] theorem State.putLanes_insts (s : State) (ls : Lanes) (d : Dst) (w : Bool) (f : Nat → Double) : (s.putLanes ls d w f).insts = s.insts := rfl
@[simp] theorem State.putLanes_link (s : State) (ls : Lanes) (d : Dst) (w : Bool) (f : Nat → Double) : (s.putLanes ls d w f).link = s.link := rfl
@[simp] theorem State.putLanes_logs (s : State) (ls : Lanes) (d : Dst) (w : Bool) (f : Nat → Double) : (s.putLanes ls d w f).logs = s.logs := rfl
@[simp] theorem State.putLanes_plat (s : State) (ls : Lanes) (d : Dst) (w : Bool) (f : Nat → Double) : (s.putLanes ls d w f).plat = s.plat := rfl

@[simp] theorem State.updRegions_clk (s : State) (ls : Lanes) (f : Nat → Region → Region) : (s.updRegions ls f).clk = s.clk := rfl
@[simp] theorem State.updRegions_who (s : State) (ls : Lanes) (f : Nat → Region → Region) : (s.updRegions ls f).who = s.who := rfl
@[simp] theorem State.updRegions_issuing (s : State) (ls : Lanes) (f : Nat → Region → Region) : (s.updRegions ls f).issuing = s.issuing := rfl
@[simp] theorem State.updRegions_agenda (s : State) (ls : Lanes) (f : Nat → Region → Region) : (s.updRegions ls f).agenda = s.agenda := rfl
@[simp] theorem State.updRegions_mem (s : State) (ls : Lanes) (f : Nat → Region → Region) : (s.updRegions ls f).mem = s.mem := rfl
@[simp] theorem State.updRegions_pois (s : State) (ls : Lanes) (f : Nat → Region → Region) : (s.updRegions ls f).pois = s.pois := rfl
@[simp] theorem State.updRegions_teams (s : State) (ls : Lanes) (f : Nat → Region → Region) : (s.updRegions ls f).teams = s.teams := rfl
@[simp] theorem State.updRegions_cores (s : State) (ls : Lanes) (f : Nat → Region → Region) : (s.updRegions ls f).cores = s.cores := rfl
@[simp] theorem State.updRegions_dies (s : State) (ls : Lanes) (f : Nat → Region → Region) : (s.updRegions ls f).dies = s.dies := rfl
@[simp] theorem State.updRegions_net (s : State) (ls : Lanes) (f : Nat → Region → Region) : (s.updRegions ls f).net = s.net := rfl
@[simp] theorem State.updRegions_dir (s : State) (ls : Lanes) (f : Nat → Region → Region) : (s.updRegions ls f).dir = s.dir := rfl
@[simp] theorem State.updRegions_reqs (s : State) (ls : Lanes) (f : Nat → Region → Region) : (s.updRegions ls f).reqs = s.reqs := rfl
@[simp] theorem State.updRegions_writes (s : State) (ls : Lanes) (f : Nat → Region → Region) : (s.updRegions ls f).writes = s.writes := rfl
@[simp] theorem State.updRegions_ops (s : State) (ls : Lanes) (f : Nat → Region → Region) : (s.updRegions ls f).ops = s.ops := rfl
@[simp] theorem State.updRegions_waits (s : State) (ls : Lanes) (f : Nat → Region → Region) : (s.updRegions ls f).waits = s.waits := rfl
@[simp] theorem State.updRegions_tables (s : State) (ls : Lanes) (f : Nat → Region → Region) : (s.updRegions ls f).tables = s.tables := rfl
@[simp] theorem State.updRegions_trees (s : State) (ls : Lanes) (f : Nat → Region → Region) : (s.updRegions ls f).trees = s.trees := rfl
@[simp] theorem State.updRegions_tenants (s : State) (ls : Lanes) (f : Nat → Region → Region) : (s.updRegions ls f).tenants = s.tenants := rfl
@[simp] theorem State.updRegions_prgroups (s : State) (ls : Lanes) (f : Nat → Region → Region) : (s.updRegions ls f).prgroups = s.prgroups := rfl
@[simp] theorem State.updRegions_flips (s : State) (ls : Lanes) (f : Nat → Region → Region) : (s.updRegions ls f).flips = s.flips := rfl
@[simp] theorem State.updRegions_llc (s : State) (ls : Lanes) (f : Nat → Region → Region) : (s.updRegions ls f).llc = s.llc := rfl
@[simp] theorem State.updRegions_nodes (s : State) (ls : Lanes) (f : Nat → Region → Region) : (s.updRegions ls f).nodes = s.nodes := rfl
@[simp] theorem State.updRegions_insts (s : State) (ls : Lanes) (f : Nat → Region → Region) : (s.updRegions ls f).insts = s.insts := rfl
@[simp] theorem State.updRegions_link (s : State) (ls : Lanes) (f : Nat → Region → Region) : (s.updRegions ls f).link = s.link := rfl
@[simp] theorem State.updRegions_logs (s : State) (ls : Lanes) (f : Nat → Region → Region) : (s.updRegions ls f).logs = s.logs := rfl
@[simp] theorem State.updRegions_plat (s : State) (ls : Lanes) (f : Nat → Region → Region) : (s.updRegions ls f).plat = s.plat := rfl

@[simp] theorem State.track_clk (s : State) (u : Uses) (ls : Lanes) : (s.track u ls).clk = s.clk := rfl
@[simp] theorem State.track_who (s : State) (u : Uses) (ls : Lanes) : (s.track u ls).who = s.who := rfl
@[simp] theorem State.track_issuing (s : State) (u : Uses) (ls : Lanes) : (s.track u ls).issuing = s.issuing := rfl
@[simp] theorem State.track_agenda (s : State) (u : Uses) (ls : Lanes) : (s.track u ls).agenda = s.agenda := rfl
@[simp] theorem State.track_mem (s : State) (u : Uses) (ls : Lanes) : (s.track u ls).mem = s.mem := rfl
@[simp] theorem State.track_pois (s : State) (u : Uses) (ls : Lanes) : (s.track u ls).pois = s.pois := rfl
@[simp] theorem State.track_teams (s : State) (u : Uses) (ls : Lanes) : (s.track u ls).teams = s.teams := rfl
@[simp] theorem State.track_cores (s : State) (u : Uses) (ls : Lanes) : (s.track u ls).cores = s.cores := rfl
@[simp] theorem State.track_dies (s : State) (u : Uses) (ls : Lanes) : (s.track u ls).dies = s.dies := rfl
@[simp] theorem State.track_net (s : State) (u : Uses) (ls : Lanes) : (s.track u ls).net = s.net := rfl
@[simp] theorem State.track_dir (s : State) (u : Uses) (ls : Lanes) : (s.track u ls).dir = s.dir := rfl
@[simp] theorem State.track_reqs (s : State) (u : Uses) (ls : Lanes) : (s.track u ls).reqs = s.reqs := rfl
@[simp] theorem State.track_writes (s : State) (u : Uses) (ls : Lanes) : (s.track u ls).writes = s.writes := rfl
@[simp] theorem State.track_ops (s : State) (u : Uses) (ls : Lanes) : (s.track u ls).ops = s.ops := rfl
@[simp] theorem State.track_waits (s : State) (u : Uses) (ls : Lanes) : (s.track u ls).waits = s.waits := rfl
@[simp] theorem State.track_tables (s : State) (u : Uses) (ls : Lanes) : (s.track u ls).tables = s.tables := rfl
@[simp] theorem State.track_trees (s : State) (u : Uses) (ls : Lanes) : (s.track u ls).trees = s.trees := rfl
@[simp] theorem State.track_tenants (s : State) (u : Uses) (ls : Lanes) : (s.track u ls).tenants = s.tenants := rfl
@[simp] theorem State.track_prgroups (s : State) (u : Uses) (ls : Lanes) : (s.track u ls).prgroups = s.prgroups := rfl
@[simp] theorem State.track_flips (s : State) (u : Uses) (ls : Lanes) : (s.track u ls).flips = s.flips := rfl
@[simp] theorem State.track_llc (s : State) (u : Uses) (ls : Lanes) : (s.track u ls).llc = s.llc := rfl
@[simp] theorem State.track_nodes (s : State) (u : Uses) (ls : Lanes) : (s.track u ls).nodes = s.nodes := rfl
@[simp] theorem State.track_insts (s : State) (u : Uses) (ls : Lanes) : (s.track u ls).insts = s.insts := rfl
@[simp] theorem State.track_link (s : State) (u : Uses) (ls : Lanes) : (s.track u ls).link = s.link := rfl
@[simp] theorem State.track_logs (s : State) (u : Uses) (ls : Lanes) : (s.track u ls).logs = s.logs := rfl
@[simp] theorem State.track_plat (s : State) (u : Uses) (ls : Lanes) : (s.track u ls).plat = s.plat := rfl

@[simp] theorem State.clearLate_clk (s : State) (sl : BitVec 8) : (s.clearLate sl).clk = s.clk := rfl
@[simp] theorem State.clearLate_who (s : State) (sl : BitVec 8) : (s.clearLate sl).who = s.who := rfl
@[simp] theorem State.clearLate_issuing (s : State) (sl : BitVec 8) : (s.clearLate sl).issuing = s.issuing := rfl
@[simp] theorem State.clearLate_agenda (s : State) (sl : BitVec 8) : (s.clearLate sl).agenda = s.agenda := rfl
@[simp] theorem State.clearLate_mem (s : State) (sl : BitVec 8) : (s.clearLate sl).mem = s.mem := rfl
@[simp] theorem State.clearLate_pois (s : State) (sl : BitVec 8) : (s.clearLate sl).pois = s.pois := rfl
@[simp] theorem State.clearLate_teams (s : State) (sl : BitVec 8) : (s.clearLate sl).teams = s.teams := rfl
@[simp] theorem State.clearLate_cores (s : State) (sl : BitVec 8) : (s.clearLate sl).cores = s.cores := rfl
@[simp] theorem State.clearLate_dies (s : State) (sl : BitVec 8) : (s.clearLate sl).dies = s.dies := rfl
@[simp] theorem State.clearLate_net (s : State) (sl : BitVec 8) : (s.clearLate sl).net = s.net := rfl
@[simp] theorem State.clearLate_dir (s : State) (sl : BitVec 8) : (s.clearLate sl).dir = s.dir := rfl
@[simp] theorem State.clearLate_reqs (s : State) (sl : BitVec 8) : (s.clearLate sl).reqs = s.reqs := rfl
@[simp] theorem State.clearLate_writes (s : State) (sl : BitVec 8) : (s.clearLate sl).writes = s.writes := rfl
@[simp] theorem State.clearLate_ops (s : State) (sl : BitVec 8) : (s.clearLate sl).ops = s.ops := rfl
@[simp] theorem State.clearLate_waits (s : State) (sl : BitVec 8) : (s.clearLate sl).waits = s.waits := rfl
@[simp] theorem State.clearLate_tables (s : State) (sl : BitVec 8) : (s.clearLate sl).tables = s.tables := rfl
@[simp] theorem State.clearLate_trees (s : State) (sl : BitVec 8) : (s.clearLate sl).trees = s.trees := rfl
@[simp] theorem State.clearLate_tenants (s : State) (sl : BitVec 8) : (s.clearLate sl).tenants = s.tenants := rfl
@[simp] theorem State.clearLate_prgroups (s : State) (sl : BitVec 8) : (s.clearLate sl).prgroups = s.prgroups := rfl
@[simp] theorem State.clearLate_flips (s : State) (sl : BitVec 8) : (s.clearLate sl).flips = s.flips := rfl
@[simp] theorem State.clearLate_llc (s : State) (sl : BitVec 8) : (s.clearLate sl).llc = s.llc := rfl
@[simp] theorem State.clearLate_nodes (s : State) (sl : BitVec 8) : (s.clearLate sl).nodes = s.nodes := rfl
@[simp] theorem State.clearLate_insts (s : State) (sl : BitVec 8) : (s.clearLate sl).insts = s.insts := rfl
@[simp] theorem State.clearLate_link (s : State) (sl : BitVec 8) : (s.clearLate sl).link = s.link := rfl
@[simp] theorem State.clearLate_logs (s : State) (sl : BitVec 8) : (s.clearLate sl).logs = s.logs := rfl
@[simp] theorem State.clearLate_plat (s : State) (sl : BitVec 8) : (s.clearLate sl).plat = s.plat := rfl

@[simp] theorem State.updTeam_clk (s : State) (u : Nat) (f : Team → Team) : (s.updTeam u f).clk = s.clk := rfl
@[simp] theorem State.updTeam_who (s : State) (u : Nat) (f : Team → Team) : (s.updTeam u f).who = s.who := rfl
@[simp] theorem State.updTeam_issuing (s : State) (u : Nat) (f : Team → Team) : (s.updTeam u f).issuing = s.issuing := rfl
@[simp] theorem State.updTeam_agenda (s : State) (u : Nat) (f : Team → Team) : (s.updTeam u f).agenda = s.agenda := rfl
@[simp] theorem State.updTeam_mem (s : State) (u : Nat) (f : Team → Team) : (s.updTeam u f).mem = s.mem := rfl
@[simp] theorem State.updTeam_pois (s : State) (u : Nat) (f : Team → Team) : (s.updTeam u f).pois = s.pois := rfl
@[simp] theorem State.updTeam_warps (s : State) (u : Nat) (f : Team → Team) : (s.updTeam u f).warps = s.warps := rfl
@[simp] theorem State.updTeam_cores (s : State) (u : Nat) (f : Team → Team) : (s.updTeam u f).cores = s.cores := rfl
@[simp] theorem State.updTeam_dies (s : State) (u : Nat) (f : Team → Team) : (s.updTeam u f).dies = s.dies := rfl
@[simp] theorem State.updTeam_net (s : State) (u : Nat) (f : Team → Team) : (s.updTeam u f).net = s.net := rfl
@[simp] theorem State.updTeam_dir (s : State) (u : Nat) (f : Team → Team) : (s.updTeam u f).dir = s.dir := rfl
@[simp] theorem State.updTeam_reqs (s : State) (u : Nat) (f : Team → Team) : (s.updTeam u f).reqs = s.reqs := rfl
@[simp] theorem State.updTeam_writes (s : State) (u : Nat) (f : Team → Team) : (s.updTeam u f).writes = s.writes := rfl
@[simp] theorem State.updTeam_ops (s : State) (u : Nat) (f : Team → Team) : (s.updTeam u f).ops = s.ops := rfl
@[simp] theorem State.updTeam_waits (s : State) (u : Nat) (f : Team → Team) : (s.updTeam u f).waits = s.waits := rfl
@[simp] theorem State.updTeam_tables (s : State) (u : Nat) (f : Team → Team) : (s.updTeam u f).tables = s.tables := rfl
@[simp] theorem State.updTeam_trees (s : State) (u : Nat) (f : Team → Team) : (s.updTeam u f).trees = s.trees := rfl
@[simp] theorem State.updTeam_tenants (s : State) (u : Nat) (f : Team → Team) : (s.updTeam u f).tenants = s.tenants := rfl
@[simp] theorem State.updTeam_prgroups (s : State) (u : Nat) (f : Team → Team) : (s.updTeam u f).prgroups = s.prgroups := rfl
@[simp] theorem State.updTeam_flips (s : State) (u : Nat) (f : Team → Team) : (s.updTeam u f).flips = s.flips := rfl
@[simp] theorem State.updTeam_llc (s : State) (u : Nat) (f : Team → Team) : (s.updTeam u f).llc = s.llc := rfl
@[simp] theorem State.updTeam_nodes (s : State) (u : Nat) (f : Team → Team) : (s.updTeam u f).nodes = s.nodes := rfl
@[simp] theorem State.updTeam_insts (s : State) (u : Nat) (f : Team → Team) : (s.updTeam u f).insts = s.insts := rfl
@[simp] theorem State.updTeam_link (s : State) (u : Nat) (f : Team → Team) : (s.updTeam u f).link = s.link := rfl
@[simp] theorem State.updTeam_logs (s : State) (u : Nat) (f : Team → Team) : (s.updTeam u f).logs = s.logs := rfl
@[simp] theorem State.updTeam_plat (s : State) (u : Nat) (f : Team → Team) : (s.updTeam u f).plat = s.plat := rfl

@[simp] theorem State.updCore_clk (s : State) (c : Nat) (f : Core → Core) : (s.updCore c f).clk = s.clk := rfl
@[simp] theorem State.updCore_who (s : State) (c : Nat) (f : Core → Core) : (s.updCore c f).who = s.who := rfl
@[simp] theorem State.updCore_issuing (s : State) (c : Nat) (f : Core → Core) : (s.updCore c f).issuing = s.issuing := rfl
@[simp] theorem State.updCore_agenda (s : State) (c : Nat) (f : Core → Core) : (s.updCore c f).agenda = s.agenda := rfl
@[simp] theorem State.updCore_mem (s : State) (c : Nat) (f : Core → Core) : (s.updCore c f).mem = s.mem := rfl
@[simp] theorem State.updCore_pois (s : State) (c : Nat) (f : Core → Core) : (s.updCore c f).pois = s.pois := rfl
@[simp] theorem State.updCore_warps (s : State) (c : Nat) (f : Core → Core) : (s.updCore c f).warps = s.warps := rfl
@[simp] theorem State.updCore_teams (s : State) (c : Nat) (f : Core → Core) : (s.updCore c f).teams = s.teams := rfl
@[simp] theorem State.updCore_dies (s : State) (c : Nat) (f : Core → Core) : (s.updCore c f).dies = s.dies := rfl
@[simp] theorem State.updCore_net (s : State) (c : Nat) (f : Core → Core) : (s.updCore c f).net = s.net := rfl
@[simp] theorem State.updCore_dir (s : State) (c : Nat) (f : Core → Core) : (s.updCore c f).dir = s.dir := rfl
@[simp] theorem State.updCore_reqs (s : State) (c : Nat) (f : Core → Core) : (s.updCore c f).reqs = s.reqs := rfl
@[simp] theorem State.updCore_writes (s : State) (c : Nat) (f : Core → Core) : (s.updCore c f).writes = s.writes := rfl
@[simp] theorem State.updCore_ops (s : State) (c : Nat) (f : Core → Core) : (s.updCore c f).ops = s.ops := rfl
@[simp] theorem State.updCore_waits (s : State) (c : Nat) (f : Core → Core) : (s.updCore c f).waits = s.waits := rfl
@[simp] theorem State.updCore_tables (s : State) (c : Nat) (f : Core → Core) : (s.updCore c f).tables = s.tables := rfl
@[simp] theorem State.updCore_trees (s : State) (c : Nat) (f : Core → Core) : (s.updCore c f).trees = s.trees := rfl
@[simp] theorem State.updCore_tenants (s : State) (c : Nat) (f : Core → Core) : (s.updCore c f).tenants = s.tenants := rfl
@[simp] theorem State.updCore_prgroups (s : State) (c : Nat) (f : Core → Core) : (s.updCore c f).prgroups = s.prgroups := rfl
@[simp] theorem State.updCore_flips (s : State) (c : Nat) (f : Core → Core) : (s.updCore c f).flips = s.flips := rfl
@[simp] theorem State.updCore_llc (s : State) (c : Nat) (f : Core → Core) : (s.updCore c f).llc = s.llc := rfl
@[simp] theorem State.updCore_nodes (s : State) (c : Nat) (f : Core → Core) : (s.updCore c f).nodes = s.nodes := rfl
@[simp] theorem State.updCore_insts (s : State) (c : Nat) (f : Core → Core) : (s.updCore c f).insts = s.insts := rfl
@[simp] theorem State.updCore_link (s : State) (c : Nat) (f : Core → Core) : (s.updCore c f).link = s.link := rfl
@[simp] theorem State.updCore_logs (s : State) (c : Nat) (f : Core → Core) : (s.updCore c f).logs = s.logs := rfl
@[simp] theorem State.updCore_plat (s : State) (c : Nat) (f : Core → Core) : (s.updCore c f).plat = s.plat := rfl

@[simp] theorem State.updDie_clk (s : State) (d : Nat) (f : Die → Die) : (s.updDie d f).clk = s.clk := rfl
@[simp] theorem State.updDie_who (s : State) (d : Nat) (f : Die → Die) : (s.updDie d f).who = s.who := rfl
@[simp] theorem State.updDie_issuing (s : State) (d : Nat) (f : Die → Die) : (s.updDie d f).issuing = s.issuing := rfl
@[simp] theorem State.updDie_agenda (s : State) (d : Nat) (f : Die → Die) : (s.updDie d f).agenda = s.agenda := rfl
@[simp] theorem State.updDie_mem (s : State) (d : Nat) (f : Die → Die) : (s.updDie d f).mem = s.mem := rfl
@[simp] theorem State.updDie_pois (s : State) (d : Nat) (f : Die → Die) : (s.updDie d f).pois = s.pois := rfl
@[simp] theorem State.updDie_warps (s : State) (d : Nat) (f : Die → Die) : (s.updDie d f).warps = s.warps := rfl
@[simp] theorem State.updDie_teams (s : State) (d : Nat) (f : Die → Die) : (s.updDie d f).teams = s.teams := rfl
@[simp] theorem State.updDie_cores (s : State) (d : Nat) (f : Die → Die) : (s.updDie d f).cores = s.cores := rfl
@[simp] theorem State.updDie_net (s : State) (d : Nat) (f : Die → Die) : (s.updDie d f).net = s.net := rfl
@[simp] theorem State.updDie_dir (s : State) (d : Nat) (f : Die → Die) : (s.updDie d f).dir = s.dir := rfl
@[simp] theorem State.updDie_reqs (s : State) (d : Nat) (f : Die → Die) : (s.updDie d f).reqs = s.reqs := rfl
@[simp] theorem State.updDie_writes (s : State) (d : Nat) (f : Die → Die) : (s.updDie d f).writes = s.writes := rfl
@[simp] theorem State.updDie_ops (s : State) (d : Nat) (f : Die → Die) : (s.updDie d f).ops = s.ops := rfl
@[simp] theorem State.updDie_waits (s : State) (d : Nat) (f : Die → Die) : (s.updDie d f).waits = s.waits := rfl
@[simp] theorem State.updDie_tables (s : State) (d : Nat) (f : Die → Die) : (s.updDie d f).tables = s.tables := rfl
@[simp] theorem State.updDie_trees (s : State) (d : Nat) (f : Die → Die) : (s.updDie d f).trees = s.trees := rfl
@[simp] theorem State.updDie_tenants (s : State) (d : Nat) (f : Die → Die) : (s.updDie d f).tenants = s.tenants := rfl
@[simp] theorem State.updDie_prgroups (s : State) (d : Nat) (f : Die → Die) : (s.updDie d f).prgroups = s.prgroups := rfl
@[simp] theorem State.updDie_flips (s : State) (d : Nat) (f : Die → Die) : (s.updDie d f).flips = s.flips := rfl
@[simp] theorem State.updDie_llc (s : State) (d : Nat) (f : Die → Die) : (s.updDie d f).llc = s.llc := rfl
@[simp] theorem State.updDie_nodes (s : State) (d : Nat) (f : Die → Die) : (s.updDie d f).nodes = s.nodes := rfl
@[simp] theorem State.updDie_insts (s : State) (d : Nat) (f : Die → Die) : (s.updDie d f).insts = s.insts := rfl
@[simp] theorem State.updDie_link (s : State) (d : Nat) (f : Die → Die) : (s.updDie d f).link = s.link := rfl
@[simp] theorem State.updDie_logs (s : State) (d : Nat) (f : Die → Die) : (s.updDie d f).logs = s.logs := rfl
@[simp] theorem State.updDie_plat (s : State) (d : Nat) (f : Die → Die) : (s.updDie d f).plat = s.plat := rfl

@[simp] theorem State.updTenant_clk (s : State) (t : Nat) (f : Tenant → Tenant) : (s.updTenant t f).clk = s.clk := rfl
@[simp] theorem State.updTenant_who (s : State) (t : Nat) (f : Tenant → Tenant) : (s.updTenant t f).who = s.who := rfl
@[simp] theorem State.updTenant_issuing (s : State) (t : Nat) (f : Tenant → Tenant) : (s.updTenant t f).issuing = s.issuing := rfl
@[simp] theorem State.updTenant_agenda (s : State) (t : Nat) (f : Tenant → Tenant) : (s.updTenant t f).agenda = s.agenda := rfl
@[simp] theorem State.updTenant_mem (s : State) (t : Nat) (f : Tenant → Tenant) : (s.updTenant t f).mem = s.mem := rfl
@[simp] theorem State.updTenant_pois (s : State) (t : Nat) (f : Tenant → Tenant) : (s.updTenant t f).pois = s.pois := rfl
@[simp] theorem State.updTenant_warps (s : State) (t : Nat) (f : Tenant → Tenant) : (s.updTenant t f).warps = s.warps := rfl
@[simp] theorem State.updTenant_teams (s : State) (t : Nat) (f : Tenant → Tenant) : (s.updTenant t f).teams = s.teams := rfl
@[simp] theorem State.updTenant_cores (s : State) (t : Nat) (f : Tenant → Tenant) : (s.updTenant t f).cores = s.cores := rfl
@[simp] theorem State.updTenant_dies (s : State) (t : Nat) (f : Tenant → Tenant) : (s.updTenant t f).dies = s.dies := rfl
@[simp] theorem State.updTenant_net (s : State) (t : Nat) (f : Tenant → Tenant) : (s.updTenant t f).net = s.net := rfl
@[simp] theorem State.updTenant_dir (s : State) (t : Nat) (f : Tenant → Tenant) : (s.updTenant t f).dir = s.dir := rfl
@[simp] theorem State.updTenant_reqs (s : State) (t : Nat) (f : Tenant → Tenant) : (s.updTenant t f).reqs = s.reqs := rfl
@[simp] theorem State.updTenant_writes (s : State) (t : Nat) (f : Tenant → Tenant) : (s.updTenant t f).writes = s.writes := rfl
@[simp] theorem State.updTenant_ops (s : State) (t : Nat) (f : Tenant → Tenant) : (s.updTenant t f).ops = s.ops := rfl
@[simp] theorem State.updTenant_waits (s : State) (t : Nat) (f : Tenant → Tenant) : (s.updTenant t f).waits = s.waits := rfl
@[simp] theorem State.updTenant_tables (s : State) (t : Nat) (f : Tenant → Tenant) : (s.updTenant t f).tables = s.tables := rfl
@[simp] theorem State.updTenant_trees (s : State) (t : Nat) (f : Tenant → Tenant) : (s.updTenant t f).trees = s.trees := rfl
@[simp] theorem State.updTenant_prgroups (s : State) (t : Nat) (f : Tenant → Tenant) : (s.updTenant t f).prgroups = s.prgroups := rfl
@[simp] theorem State.updTenant_flips (s : State) (t : Nat) (f : Tenant → Tenant) : (s.updTenant t f).flips = s.flips := rfl
@[simp] theorem State.updTenant_llc (s : State) (t : Nat) (f : Tenant → Tenant) : (s.updTenant t f).llc = s.llc := rfl
@[simp] theorem State.updTenant_nodes (s : State) (t : Nat) (f : Tenant → Tenant) : (s.updTenant t f).nodes = s.nodes := rfl
@[simp] theorem State.updTenant_insts (s : State) (t : Nat) (f : Tenant → Tenant) : (s.updTenant t f).insts = s.insts := rfl
@[simp] theorem State.updTenant_link (s : State) (t : Nat) (f : Tenant → Tenant) : (s.updTenant t f).link = s.link := rfl
@[simp] theorem State.updTenant_logs (s : State) (t : Nat) (f : Tenant → Tenant) : (s.updTenant t f).logs = s.logs := rfl
@[simp] theorem State.updTenant_plat (s : State) (t : Nat) (f : Tenant → Tenant) : (s.updTenant t f).plat = s.plat := rfl

@[simp] theorem State.updAsd_clk (s : State) (a : Nat) (f : Asd → Asd) : (s.updAsd a f).clk = s.clk := rfl
@[simp] theorem State.updAsd_who (s : State) (a : Nat) (f : Asd → Asd) : (s.updAsd a f).who = s.who := rfl
@[simp] theorem State.updAsd_issuing (s : State) (a : Nat) (f : Asd → Asd) : (s.updAsd a f).issuing = s.issuing := rfl
@[simp] theorem State.updAsd_agenda (s : State) (a : Nat) (f : Asd → Asd) : (s.updAsd a f).agenda = s.agenda := rfl
@[simp] theorem State.updAsd_mem (s : State) (a : Nat) (f : Asd → Asd) : (s.updAsd a f).mem = s.mem := rfl
@[simp] theorem State.updAsd_pois (s : State) (a : Nat) (f : Asd → Asd) : (s.updAsd a f).pois = s.pois := rfl
@[simp] theorem State.updAsd_warps (s : State) (a : Nat) (f : Asd → Asd) : (s.updAsd a f).warps = s.warps := rfl
@[simp] theorem State.updAsd_teams (s : State) (a : Nat) (f : Asd → Asd) : (s.updAsd a f).teams = s.teams := rfl
@[simp] theorem State.updAsd_cores (s : State) (a : Nat) (f : Asd → Asd) : (s.updAsd a f).cores = s.cores := rfl
@[simp] theorem State.updAsd_dies (s : State) (a : Nat) (f : Asd → Asd) : (s.updAsd a f).dies = s.dies := rfl
@[simp] theorem State.updAsd_net (s : State) (a : Nat) (f : Asd → Asd) : (s.updAsd a f).net = s.net := rfl
@[simp] theorem State.updAsd_dir (s : State) (a : Nat) (f : Asd → Asd) : (s.updAsd a f).dir = s.dir := rfl
@[simp] theorem State.updAsd_reqs (s : State) (a : Nat) (f : Asd → Asd) : (s.updAsd a f).reqs = s.reqs := rfl
@[simp] theorem State.updAsd_writes (s : State) (a : Nat) (f : Asd → Asd) : (s.updAsd a f).writes = s.writes := rfl
@[simp] theorem State.updAsd_ops (s : State) (a : Nat) (f : Asd → Asd) : (s.updAsd a f).ops = s.ops := rfl
@[simp] theorem State.updAsd_waits (s : State) (a : Nat) (f : Asd → Asd) : (s.updAsd a f).waits = s.waits := rfl
@[simp] theorem State.updAsd_tables (s : State) (a : Nat) (f : Asd → Asd) : (s.updAsd a f).tables = s.tables := rfl
@[simp] theorem State.updAsd_tenants (s : State) (a : Nat) (f : Asd → Asd) : (s.updAsd a f).tenants = s.tenants := rfl
@[simp] theorem State.updAsd_prgroups (s : State) (a : Nat) (f : Asd → Asd) : (s.updAsd a f).prgroups = s.prgroups := rfl
@[simp] theorem State.updAsd_flips (s : State) (a : Nat) (f : Asd → Asd) : (s.updAsd a f).flips = s.flips := rfl
@[simp] theorem State.updAsd_llc (s : State) (a : Nat) (f : Asd → Asd) : (s.updAsd a f).llc = s.llc := rfl
@[simp] theorem State.updAsd_nodes (s : State) (a : Nat) (f : Asd → Asd) : (s.updAsd a f).nodes = s.nodes := rfl
@[simp] theorem State.updAsd_insts (s : State) (a : Nat) (f : Asd → Asd) : (s.updAsd a f).insts = s.insts := rfl
@[simp] theorem State.updAsd_link (s : State) (a : Nat) (f : Asd → Asd) : (s.updAsd a f).link = s.link := rfl
@[simp] theorem State.updAsd_logs (s : State) (a : Nat) (f : Asd → Asd) : (s.updAsd a f).logs = s.logs := rfl
@[simp] theorem State.updAsd_plat (s : State) (a : Nat) (f : Asd → Asd) : (s.updAsd a f).plat = s.plat := rfl

@[simp] theorem State.updRoot_clk (s : State) (r : Nat) (f : Root → Root) : (s.updRoot r f).clk = s.clk := rfl
@[simp] theorem State.updRoot_who (s : State) (r : Nat) (f : Root → Root) : (s.updRoot r f).who = s.who := rfl
@[simp] theorem State.updRoot_issuing (s : State) (r : Nat) (f : Root → Root) : (s.updRoot r f).issuing = s.issuing := rfl
@[simp] theorem State.updRoot_agenda (s : State) (r : Nat) (f : Root → Root) : (s.updRoot r f).agenda = s.agenda := rfl
@[simp] theorem State.updRoot_mem (s : State) (r : Nat) (f : Root → Root) : (s.updRoot r f).mem = s.mem := rfl
@[simp] theorem State.updRoot_pois (s : State) (r : Nat) (f : Root → Root) : (s.updRoot r f).pois = s.pois := rfl
@[simp] theorem State.updRoot_warps (s : State) (r : Nat) (f : Root → Root) : (s.updRoot r f).warps = s.warps := rfl
@[simp] theorem State.updRoot_teams (s : State) (r : Nat) (f : Root → Root) : (s.updRoot r f).teams = s.teams := rfl
@[simp] theorem State.updRoot_cores (s : State) (r : Nat) (f : Root → Root) : (s.updRoot r f).cores = s.cores := rfl
@[simp] theorem State.updRoot_dies (s : State) (r : Nat) (f : Root → Root) : (s.updRoot r f).dies = s.dies := rfl
@[simp] theorem State.updRoot_net (s : State) (r : Nat) (f : Root → Root) : (s.updRoot r f).net = s.net := rfl
@[simp] theorem State.updRoot_dir (s : State) (r : Nat) (f : Root → Root) : (s.updRoot r f).dir = s.dir := rfl
@[simp] theorem State.updRoot_reqs (s : State) (r : Nat) (f : Root → Root) : (s.updRoot r f).reqs = s.reqs := rfl
@[simp] theorem State.updRoot_writes (s : State) (r : Nat) (f : Root → Root) : (s.updRoot r f).writes = s.writes := rfl
@[simp] theorem State.updRoot_ops (s : State) (r : Nat) (f : Root → Root) : (s.updRoot r f).ops = s.ops := rfl
@[simp] theorem State.updRoot_waits (s : State) (r : Nat) (f : Root → Root) : (s.updRoot r f).waits = s.waits := rfl
@[simp] theorem State.updRoot_tables (s : State) (r : Nat) (f : Root → Root) : (s.updRoot r f).tables = s.tables := rfl
@[simp] theorem State.updRoot_tenants (s : State) (r : Nat) (f : Root → Root) : (s.updRoot r f).tenants = s.tenants := rfl
@[simp] theorem State.updRoot_prgroups (s : State) (r : Nat) (f : Root → Root) : (s.updRoot r f).prgroups = s.prgroups := rfl
@[simp] theorem State.updRoot_flips (s : State) (r : Nat) (f : Root → Root) : (s.updRoot r f).flips = s.flips := rfl
@[simp] theorem State.updRoot_llc (s : State) (r : Nat) (f : Root → Root) : (s.updRoot r f).llc = s.llc := rfl
@[simp] theorem State.updRoot_nodes (s : State) (r : Nat) (f : Root → Root) : (s.updRoot r f).nodes = s.nodes := rfl
@[simp] theorem State.updRoot_insts (s : State) (r : Nat) (f : Root → Root) : (s.updRoot r f).insts = s.insts := rfl
@[simp] theorem State.updRoot_link (s : State) (r : Nat) (f : Root → Root) : (s.updRoot r f).link = s.link := rfl
@[simp] theorem State.updRoot_logs (s : State) (r : Nat) (f : Root → Root) : (s.updRoot r f).logs = s.logs := rfl
@[simp] theorem State.updRoot_plat (s : State) (r : Nat) (f : Root → Root) : (s.updRoot r f).plat = s.plat := rfl

@[simp] theorem State.updPool_clk (s : State) (k : Nat) (f : Pool → Pool) : (s.updPool k f).clk = s.clk := rfl
@[simp] theorem State.updPool_who (s : State) (k : Nat) (f : Pool → Pool) : (s.updPool k f).who = s.who := rfl
@[simp] theorem State.updPool_issuing (s : State) (k : Nat) (f : Pool → Pool) : (s.updPool k f).issuing = s.issuing := rfl
@[simp] theorem State.updPool_agenda (s : State) (k : Nat) (f : Pool → Pool) : (s.updPool k f).agenda = s.agenda := rfl
@[simp] theorem State.updPool_mem (s : State) (k : Nat) (f : Pool → Pool) : (s.updPool k f).mem = s.mem := rfl
@[simp] theorem State.updPool_pois (s : State) (k : Nat) (f : Pool → Pool) : (s.updPool k f).pois = s.pois := rfl
@[simp] theorem State.updPool_warps (s : State) (k : Nat) (f : Pool → Pool) : (s.updPool k f).warps = s.warps := rfl
@[simp] theorem State.updPool_teams (s : State) (k : Nat) (f : Pool → Pool) : (s.updPool k f).teams = s.teams := rfl
@[simp] theorem State.updPool_cores (s : State) (k : Nat) (f : Pool → Pool) : (s.updPool k f).cores = s.cores := rfl
@[simp] theorem State.updPool_dies (s : State) (k : Nat) (f : Pool → Pool) : (s.updPool k f).dies = s.dies := rfl
@[simp] theorem State.updPool_net (s : State) (k : Nat) (f : Pool → Pool) : (s.updPool k f).net = s.net := rfl
@[simp] theorem State.updPool_dir (s : State) (k : Nat) (f : Pool → Pool) : (s.updPool k f).dir = s.dir := rfl
@[simp] theorem State.updPool_reqs (s : State) (k : Nat) (f : Pool → Pool) : (s.updPool k f).reqs = s.reqs := rfl
@[simp] theorem State.updPool_writes (s : State) (k : Nat) (f : Pool → Pool) : (s.updPool k f).writes = s.writes := rfl
@[simp] theorem State.updPool_ops (s : State) (k : Nat) (f : Pool → Pool) : (s.updPool k f).ops = s.ops := rfl
@[simp] theorem State.updPool_waits (s : State) (k : Nat) (f : Pool → Pool) : (s.updPool k f).waits = s.waits := rfl
@[simp] theorem State.updPool_tables (s : State) (k : Nat) (f : Pool → Pool) : (s.updPool k f).tables = s.tables := rfl
@[simp] theorem State.updPool_tenants (s : State) (k : Nat) (f : Pool → Pool) : (s.updPool k f).tenants = s.tenants := rfl
@[simp] theorem State.updPool_prgroups (s : State) (k : Nat) (f : Pool → Pool) : (s.updPool k f).prgroups = s.prgroups := rfl
@[simp] theorem State.updPool_flips (s : State) (k : Nat) (f : Pool → Pool) : (s.updPool k f).flips = s.flips := rfl
@[simp] theorem State.updPool_llc (s : State) (k : Nat) (f : Pool → Pool) : (s.updPool k f).llc = s.llc := rfl
@[simp] theorem State.updPool_nodes (s : State) (k : Nat) (f : Pool → Pool) : (s.updPool k f).nodes = s.nodes := rfl
@[simp] theorem State.updPool_insts (s : State) (k : Nat) (f : Pool → Pool) : (s.updPool k f).insts = s.insts := rfl
@[simp] theorem State.updPool_link (s : State) (k : Nat) (f : Pool → Pool) : (s.updPool k f).link = s.link := rfl
@[simp] theorem State.updPool_logs (s : State) (k : Nat) (f : Pool → Pool) : (s.updPool k f).logs = s.logs := rfl
@[simp] theorem State.updPool_plat (s : State) (k : Nat) (f : Pool → Pool) : (s.updPool k f).plat = s.plat := rfl

@[simp] theorem State.updInst_clk (s : State) (i : Nat) (f : Inst → Inst) : (s.updInst i f).clk = s.clk := rfl
@[simp] theorem State.updInst_who (s : State) (i : Nat) (f : Inst → Inst) : (s.updInst i f).who = s.who := rfl
@[simp] theorem State.updInst_issuing (s : State) (i : Nat) (f : Inst → Inst) : (s.updInst i f).issuing = s.issuing := rfl
@[simp] theorem State.updInst_agenda (s : State) (i : Nat) (f : Inst → Inst) : (s.updInst i f).agenda = s.agenda := rfl
@[simp] theorem State.updInst_mem (s : State) (i : Nat) (f : Inst → Inst) : (s.updInst i f).mem = s.mem := rfl
@[simp] theorem State.updInst_pois (s : State) (i : Nat) (f : Inst → Inst) : (s.updInst i f).pois = s.pois := rfl
@[simp] theorem State.updInst_warps (s : State) (i : Nat) (f : Inst → Inst) : (s.updInst i f).warps = s.warps := rfl
@[simp] theorem State.updInst_teams (s : State) (i : Nat) (f : Inst → Inst) : (s.updInst i f).teams = s.teams := rfl
@[simp] theorem State.updInst_cores (s : State) (i : Nat) (f : Inst → Inst) : (s.updInst i f).cores = s.cores := rfl
@[simp] theorem State.updInst_dies (s : State) (i : Nat) (f : Inst → Inst) : (s.updInst i f).dies = s.dies := rfl
@[simp] theorem State.updInst_net (s : State) (i : Nat) (f : Inst → Inst) : (s.updInst i f).net = s.net := rfl
@[simp] theorem State.updInst_dir (s : State) (i : Nat) (f : Inst → Inst) : (s.updInst i f).dir = s.dir := rfl
@[simp] theorem State.updInst_reqs (s : State) (i : Nat) (f : Inst → Inst) : (s.updInst i f).reqs = s.reqs := rfl
@[simp] theorem State.updInst_writes (s : State) (i : Nat) (f : Inst → Inst) : (s.updInst i f).writes = s.writes := rfl
@[simp] theorem State.updInst_ops (s : State) (i : Nat) (f : Inst → Inst) : (s.updInst i f).ops = s.ops := rfl
@[simp] theorem State.updInst_waits (s : State) (i : Nat) (f : Inst → Inst) : (s.updInst i f).waits = s.waits := rfl
@[simp] theorem State.updInst_tables (s : State) (i : Nat) (f : Inst → Inst) : (s.updInst i f).tables = s.tables := rfl
@[simp] theorem State.updInst_trees (s : State) (i : Nat) (f : Inst → Inst) : (s.updInst i f).trees = s.trees := rfl
@[simp] theorem State.updInst_tenants (s : State) (i : Nat) (f : Inst → Inst) : (s.updInst i f).tenants = s.tenants := rfl
@[simp] theorem State.updInst_prgroups (s : State) (i : Nat) (f : Inst → Inst) : (s.updInst i f).prgroups = s.prgroups := rfl
@[simp] theorem State.updInst_flips (s : State) (i : Nat) (f : Inst → Inst) : (s.updInst i f).flips = s.flips := rfl
@[simp] theorem State.updInst_llc (s : State) (i : Nat) (f : Inst → Inst) : (s.updInst i f).llc = s.llc := rfl
@[simp] theorem State.updInst_nodes (s : State) (i : Nat) (f : Inst → Inst) : (s.updInst i f).nodes = s.nodes := rfl
@[simp] theorem State.updInst_link (s : State) (i : Nat) (f : Inst → Inst) : (s.updInst i f).link = s.link := rfl
@[simp] theorem State.updInst_logs (s : State) (i : Nat) (f : Inst → Inst) : (s.updInst i f).logs = s.logs := rfl
@[simp] theorem State.updInst_plat (s : State) (i : Nat) (f : Inst → Inst) : (s.updInst i f).plat = s.plat := rfl

@[simp] theorem State.updOp_clk (s : State) (o : Nat) (f : EngOp → EngOp) : (s.updOp o f).clk = s.clk := rfl
@[simp] theorem State.updOp_who (s : State) (o : Nat) (f : EngOp → EngOp) : (s.updOp o f).who = s.who := rfl
@[simp] theorem State.updOp_issuing (s : State) (o : Nat) (f : EngOp → EngOp) : (s.updOp o f).issuing = s.issuing := rfl
@[simp] theorem State.updOp_agenda (s : State) (o : Nat) (f : EngOp → EngOp) : (s.updOp o f).agenda = s.agenda := rfl
@[simp] theorem State.updOp_mem (s : State) (o : Nat) (f : EngOp → EngOp) : (s.updOp o f).mem = s.mem := rfl
@[simp] theorem State.updOp_pois (s : State) (o : Nat) (f : EngOp → EngOp) : (s.updOp o f).pois = s.pois := rfl
@[simp] theorem State.updOp_warps (s : State) (o : Nat) (f : EngOp → EngOp) : (s.updOp o f).warps = s.warps := rfl
@[simp] theorem State.updOp_teams (s : State) (o : Nat) (f : EngOp → EngOp) : (s.updOp o f).teams = s.teams := rfl
@[simp] theorem State.updOp_cores (s : State) (o : Nat) (f : EngOp → EngOp) : (s.updOp o f).cores = s.cores := rfl
@[simp] theorem State.updOp_dies (s : State) (o : Nat) (f : EngOp → EngOp) : (s.updOp o f).dies = s.dies := rfl
@[simp] theorem State.updOp_net (s : State) (o : Nat) (f : EngOp → EngOp) : (s.updOp o f).net = s.net := rfl
@[simp] theorem State.updOp_dir (s : State) (o : Nat) (f : EngOp → EngOp) : (s.updOp o f).dir = s.dir := rfl
@[simp] theorem State.updOp_reqs (s : State) (o : Nat) (f : EngOp → EngOp) : (s.updOp o f).reqs = s.reqs := rfl
@[simp] theorem State.updOp_writes (s : State) (o : Nat) (f : EngOp → EngOp) : (s.updOp o f).writes = s.writes := rfl
@[simp] theorem State.updOp_waits (s : State) (o : Nat) (f : EngOp → EngOp) : (s.updOp o f).waits = s.waits := rfl
@[simp] theorem State.updOp_tables (s : State) (o : Nat) (f : EngOp → EngOp) : (s.updOp o f).tables = s.tables := rfl
@[simp] theorem State.updOp_trees (s : State) (o : Nat) (f : EngOp → EngOp) : (s.updOp o f).trees = s.trees := rfl
@[simp] theorem State.updOp_tenants (s : State) (o : Nat) (f : EngOp → EngOp) : (s.updOp o f).tenants = s.tenants := rfl
@[simp] theorem State.updOp_prgroups (s : State) (o : Nat) (f : EngOp → EngOp) : (s.updOp o f).prgroups = s.prgroups := rfl
@[simp] theorem State.updOp_flips (s : State) (o : Nat) (f : EngOp → EngOp) : (s.updOp o f).flips = s.flips := rfl
@[simp] theorem State.updOp_llc (s : State) (o : Nat) (f : EngOp → EngOp) : (s.updOp o f).llc = s.llc := rfl
@[simp] theorem State.updOp_nodes (s : State) (o : Nat) (f : EngOp → EngOp) : (s.updOp o f).nodes = s.nodes := rfl
@[simp] theorem State.updOp_insts (s : State) (o : Nat) (f : EngOp → EngOp) : (s.updOp o f).insts = s.insts := rfl
@[simp] theorem State.updOp_link (s : State) (o : Nat) (f : EngOp → EngOp) : (s.updOp o f).link = s.link := rfl
@[simp] theorem State.updOp_logs (s : State) (o : Nat) (f : EngOp → EngOp) : (s.updOp o f).logs = s.logs := rfl
@[simp] theorem State.updOp_plat (s : State) (o : Nat) (f : EngOp → EngOp) : (s.updOp o f).plat = s.plat := rfl

@[simp] theorem State.updReq_clk (s : State) (r : Nat) (f : Req → Req) : (s.updReq r f).clk = s.clk := rfl
@[simp] theorem State.updReq_who (s : State) (r : Nat) (f : Req → Req) : (s.updReq r f).who = s.who := rfl
@[simp] theorem State.updReq_issuing (s : State) (r : Nat) (f : Req → Req) : (s.updReq r f).issuing = s.issuing := rfl
@[simp] theorem State.updReq_agenda (s : State) (r : Nat) (f : Req → Req) : (s.updReq r f).agenda = s.agenda := rfl
@[simp] theorem State.updReq_mem (s : State) (r : Nat) (f : Req → Req) : (s.updReq r f).mem = s.mem := rfl
@[simp] theorem State.updReq_pois (s : State) (r : Nat) (f : Req → Req) : (s.updReq r f).pois = s.pois := rfl
@[simp] theorem State.updReq_warps (s : State) (r : Nat) (f : Req → Req) : (s.updReq r f).warps = s.warps := rfl
@[simp] theorem State.updReq_teams (s : State) (r : Nat) (f : Req → Req) : (s.updReq r f).teams = s.teams := rfl
@[simp] theorem State.updReq_cores (s : State) (r : Nat) (f : Req → Req) : (s.updReq r f).cores = s.cores := rfl
@[simp] theorem State.updReq_dies (s : State) (r : Nat) (f : Req → Req) : (s.updReq r f).dies = s.dies := rfl
@[simp] theorem State.updReq_net (s : State) (r : Nat) (f : Req → Req) : (s.updReq r f).net = s.net := rfl
@[simp] theorem State.updReq_dir (s : State) (r : Nat) (f : Req → Req) : (s.updReq r f).dir = s.dir := rfl
@[simp] theorem State.updReq_writes (s : State) (r : Nat) (f : Req → Req) : (s.updReq r f).writes = s.writes := rfl
@[simp] theorem State.updReq_ops (s : State) (r : Nat) (f : Req → Req) : (s.updReq r f).ops = s.ops := rfl
@[simp] theorem State.updReq_waits (s : State) (r : Nat) (f : Req → Req) : (s.updReq r f).waits = s.waits := rfl
@[simp] theorem State.updReq_tables (s : State) (r : Nat) (f : Req → Req) : (s.updReq r f).tables = s.tables := rfl
@[simp] theorem State.updReq_trees (s : State) (r : Nat) (f : Req → Req) : (s.updReq r f).trees = s.trees := rfl
@[simp] theorem State.updReq_tenants (s : State) (r : Nat) (f : Req → Req) : (s.updReq r f).tenants = s.tenants := rfl
@[simp] theorem State.updReq_prgroups (s : State) (r : Nat) (f : Req → Req) : (s.updReq r f).prgroups = s.prgroups := rfl
@[simp] theorem State.updReq_flips (s : State) (r : Nat) (f : Req → Req) : (s.updReq r f).flips = s.flips := rfl
@[simp] theorem State.updReq_llc (s : State) (r : Nat) (f : Req → Req) : (s.updReq r f).llc = s.llc := rfl
@[simp] theorem State.updReq_nodes (s : State) (r : Nat) (f : Req → Req) : (s.updReq r f).nodes = s.nodes := rfl
@[simp] theorem State.updReq_insts (s : State) (r : Nat) (f : Req → Req) : (s.updReq r f).insts = s.insts := rfl
@[simp] theorem State.updReq_link (s : State) (r : Nat) (f : Req → Req) : (s.updReq r f).link = s.link := rfl
@[simp] theorem State.updReq_logs (s : State) (r : Nat) (f : Req → Req) : (s.updReq r f).logs = s.logs := rfl
@[simp] theorem State.updReq_plat (s : State) (r : Nat) (f : Req → Req) : (s.updReq r f).plat = s.plat := rfl

@[simp] theorem State.bump_who (s : State) : (s.bump).who = s.who := rfl
@[simp] theorem State.bump_issuing (s : State) : (s.bump).issuing = s.issuing := rfl
@[simp] theorem State.bump_agenda (s : State) : (s.bump).agenda = s.agenda := rfl
@[simp] theorem State.bump_mem (s : State) : (s.bump).mem = s.mem := rfl
@[simp] theorem State.bump_pois (s : State) : (s.bump).pois = s.pois := rfl
@[simp] theorem State.bump_warps (s : State) : (s.bump).warps = s.warps := rfl
@[simp] theorem State.bump_teams (s : State) : (s.bump).teams = s.teams := rfl
@[simp] theorem State.bump_cores (s : State) : (s.bump).cores = s.cores := rfl
@[simp] theorem State.bump_dies (s : State) : (s.bump).dies = s.dies := rfl
@[simp] theorem State.bump_net (s : State) : (s.bump).net = s.net := rfl
@[simp] theorem State.bump_dir (s : State) : (s.bump).dir = s.dir := rfl
@[simp] theorem State.bump_reqs (s : State) : (s.bump).reqs = s.reqs := rfl
@[simp] theorem State.bump_writes (s : State) : (s.bump).writes = s.writes := rfl
@[simp] theorem State.bump_ops (s : State) : (s.bump).ops = s.ops := rfl
@[simp] theorem State.bump_waits (s : State) : (s.bump).waits = s.waits := rfl
@[simp] theorem State.bump_tables (s : State) : (s.bump).tables = s.tables := rfl
@[simp] theorem State.bump_trees (s : State) : (s.bump).trees = s.trees := rfl
@[simp] theorem State.bump_tenants (s : State) : (s.bump).tenants = s.tenants := rfl
@[simp] theorem State.bump_prgroups (s : State) : (s.bump).prgroups = s.prgroups := rfl
@[simp] theorem State.bump_flips (s : State) : (s.bump).flips = s.flips := rfl
@[simp] theorem State.bump_llc (s : State) : (s.bump).llc = s.llc := rfl
@[simp] theorem State.bump_nodes (s : State) : (s.bump).nodes = s.nodes := rfl
@[simp] theorem State.bump_insts (s : State) : (s.bump).insts = s.insts := rfl
@[simp] theorem State.bump_link (s : State) : (s.bump).link = s.link := rfl
@[simp] theorem State.bump_logs (s : State) : (s.bump).logs = s.logs := rfl
@[simp] theorem State.bump_plat (s : State) : (s.bump).plat = s.plat := rfl

@[simp] theorem State.stall_clk (s : State) : (s.stall).clk = s.clk := rfl
@[simp] theorem State.stall_who (s : State) : (s.stall).who = s.who := rfl
@[simp] theorem State.stall_agenda (s : State) : (s.stall).agenda = s.agenda := rfl
@[simp] theorem State.stall_mem (s : State) : (s.stall).mem = s.mem := rfl
@[simp] theorem State.stall_pois (s : State) : (s.stall).pois = s.pois := rfl
@[simp] theorem State.stall_warps (s : State) : (s.stall).warps = s.warps := rfl
@[simp] theorem State.stall_teams (s : State) : (s.stall).teams = s.teams := rfl
@[simp] theorem State.stall_cores (s : State) : (s.stall).cores = s.cores := rfl
@[simp] theorem State.stall_dies (s : State) : (s.stall).dies = s.dies := rfl
@[simp] theorem State.stall_net (s : State) : (s.stall).net = s.net := rfl
@[simp] theorem State.stall_dir (s : State) : (s.stall).dir = s.dir := rfl
@[simp] theorem State.stall_reqs (s : State) : (s.stall).reqs = s.reqs := rfl
@[simp] theorem State.stall_writes (s : State) : (s.stall).writes = s.writes := rfl
@[simp] theorem State.stall_ops (s : State) : (s.stall).ops = s.ops := rfl
@[simp] theorem State.stall_waits (s : State) : (s.stall).waits = s.waits := rfl
@[simp] theorem State.stall_tables (s : State) : (s.stall).tables = s.tables := rfl
@[simp] theorem State.stall_trees (s : State) : (s.stall).trees = s.trees := rfl
@[simp] theorem State.stall_tenants (s : State) : (s.stall).tenants = s.tenants := rfl
@[simp] theorem State.stall_prgroups (s : State) : (s.stall).prgroups = s.prgroups := rfl
@[simp] theorem State.stall_flips (s : State) : (s.stall).flips = s.flips := rfl
@[simp] theorem State.stall_llc (s : State) : (s.stall).llc = s.llc := rfl
@[simp] theorem State.stall_nodes (s : State) : (s.stall).nodes = s.nodes := rfl
@[simp] theorem State.stall_insts (s : State) : (s.stall).insts = s.insts := rfl
@[simp] theorem State.stall_link (s : State) : (s.stall).link = s.link := rfl
@[simp] theorem State.stall_logs (s : State) : (s.stall).logs = s.logs := rfl
@[simp] theorem State.stall_plat (s : State) : (s.stall).plat = s.plat := rfl

@[simp] theorem State.finish_clk (s : State) : (s.finish).clk = s.clk := rfl
@[simp] theorem State.finish_who (s : State) : (s.finish).who = s.who := rfl
@[simp] theorem State.finish_agenda (s : State) : (s.finish).agenda = s.agenda := rfl
@[simp] theorem State.finish_mem (s : State) : (s.finish).mem = s.mem := rfl
@[simp] theorem State.finish_pois (s : State) : (s.finish).pois = s.pois := rfl
@[simp] theorem State.finish_warps (s : State) : (s.finish).warps = s.warps := rfl
@[simp] theorem State.finish_teams (s : State) : (s.finish).teams = s.teams := rfl
@[simp] theorem State.finish_cores (s : State) : (s.finish).cores = s.cores := rfl
@[simp] theorem State.finish_dies (s : State) : (s.finish).dies = s.dies := rfl
@[simp] theorem State.finish_net (s : State) : (s.finish).net = s.net := rfl
@[simp] theorem State.finish_dir (s : State) : (s.finish).dir = s.dir := rfl
@[simp] theorem State.finish_reqs (s : State) : (s.finish).reqs = s.reqs := rfl
@[simp] theorem State.finish_writes (s : State) : (s.finish).writes = s.writes := rfl
@[simp] theorem State.finish_ops (s : State) : (s.finish).ops = s.ops := rfl
@[simp] theorem State.finish_waits (s : State) : (s.finish).waits = s.waits := rfl
@[simp] theorem State.finish_tables (s : State) : (s.finish).tables = s.tables := rfl
@[simp] theorem State.finish_trees (s : State) : (s.finish).trees = s.trees := rfl
@[simp] theorem State.finish_tenants (s : State) : (s.finish).tenants = s.tenants := rfl
@[simp] theorem State.finish_prgroups (s : State) : (s.finish).prgroups = s.prgroups := rfl
@[simp] theorem State.finish_flips (s : State) : (s.finish).flips = s.flips := rfl
@[simp] theorem State.finish_llc (s : State) : (s.finish).llc = s.llc := rfl
@[simp] theorem State.finish_nodes (s : State) : (s.finish).nodes = s.nodes := rfl
@[simp] theorem State.finish_insts (s : State) : (s.finish).insts = s.insts := rfl
@[simp] theorem State.finish_link (s : State) : (s.finish).link = s.link := rfl
@[simp] theorem State.finish_logs (s : State) : (s.finish).logs = s.logs := rfl
@[simp] theorem State.finish_plat (s : State) : (s.finish).plat = s.plat := rfl

@[simp] theorem State.stall_issuing (s : State) : s.stall.issuing = false := rfl
@[simp] theorem State.updWarp_warps (s : State) (u : Nat) (f : Warp → Warp) : (s.updWarp u f).warps = s.warps.upd u f := rfl
@[simp] theorem State.updTeam_teams (s : State) (u : Nat) (f : Team → Team) : (s.updTeam u f).teams = s.teams.upd u f := rfl
@[simp] theorem State.updCore_cores (s : State) (c : Nat) (f : Core → Core) : (s.updCore c f).cores = s.cores.modify {} c f := rfl
@[simp] theorem State.updDie_dies (s : State) (d : Nat) (f : Die → Die) : (s.updDie d f).dies = s.dies.modify {} d f := rfl
@[simp] theorem State.updTenant_tenants (s : State) (t : Nat) (f : Tenant → Tenant) : (s.updTenant t f).tenants = s.tenants.modify {} t f := rfl
@[simp] theorem State.updInst_insts (s : State) (i : Nat) (f : Inst → Inst) : (s.updInst i f).insts = s.insts.upd i f := rfl
@[simp] theorem State.bump_fresh (s : State) : s.bump.clk.fresh = s.clk.fresh + 1 := rfl

end Sys2Proof.Machine
end

