-- ==== Sys2Proof/Laws/Table.lean ====
section
/-! SUPPORT. The laws of tables: what is read after a change, and that every change keeps the canonical form. -/

namespace Sys2Proof.Machine
variable {α : Type}

@[simp] theorem Tab.get_nil (d : α) (k : Nat) : Tab.get d [] k = d := rfl
@[simp] theorem Tab.find_nil (k : Nat) : Tab.find ([] : Tab α) k = none := rfl

theorem Tab.get_erase_self (d : α) (t : Tab α) (k : Nat) : Tab.get d (t.erase k) k = d := by
  induction t with
  | nil => rfl
  | cons p r ih =>
    obtain ⟨j, x⟩ := p
    by_cases h : j = k <;> simp [Tab.erase, Tab.get, h, ih]

theorem Tab.get_erase_ne (d : α) (t : Tab α) {k j : Nat} (h : j ≠ k) : Tab.get d (t.erase k) j = Tab.get d t j := by
  induction t with
  | nil => rfl
  | cons p r ih =>
    obtain ⟨i, x⟩ := p
    by_cases hi : i = k
    · have : i ≠ j := fun e => h (e ▸ hi)
      simp [Tab.erase, Tab.get, hi, ih]
      intro e; exact absurd e.symm h
    · simp [Tab.erase, Tab.get, hi, ih]

theorem Tab.get_insert_ne (d : α) (t : Tab α) {k j : Nat} (v : α) (h : j ≠ k) :
    Tab.get d (t.insert k v) j = Tab.get d t j := by
  have h' : k ≠ j := fun e => h e.symm
  induction t with
  | nil => simp [Tab.insert, Tab.get, h']
  | cons p r ih =>
    obtain ⟨i, x⟩ := p
    by_cases hi : k < i <;> simp [Tab.insert, Tab.get, hi, ih, h']

theorem Tab.get_insert_self (d : α) (t : Tab α) (k : Nat) (v : α) :
    Tab.get d ((t.erase k).insert k v) k = v := by
  induction t with
  | nil => simp [Tab.erase, Tab.insert, Tab.get]
  | cons p r ih =>
    obtain ⟨i, x⟩ := p
    by_cases hi : i = k
    · simp [Tab.erase, hi, ih]
    · by_cases hl : k < i
      · simp [Tab.erase, Tab.insert, Tab.get, hi, hl]
      · simp [Tab.erase, Tab.insert, Tab.get, hi, hl, ih]

/-- What is read at a key that has been set is what was set. -/
@[simp] theorem Tab.get_set_self [DecidableEq α] (d : α) (t : Tab α) (k : Nat) (v : α) :
    Tab.get d (t.set d k v) k = v := by
  unfold Tab.set
  split
  · next h => rw [Tab.get_erase_self, h]
  · exact Tab.get_insert_self d t k v

/-- Setting one key leaves every other as it was. -/
theorem Tab.get_set_ne [DecidableEq α] (d : α) (t : Tab α) {k j : Nat} (v : α) (h : j ≠ k) :
    Tab.get d (t.set d k v) j = Tab.get d t j := by
  unfold Tab.set
  split
  · exact Tab.get_erase_ne d t h
  · rw [Tab.get_insert_ne d _ v h, Tab.get_erase_ne d t h]

theorem Tab.get_set [DecidableEq α] (d : α) (t : Tab α) (k j : Nat) (v : α) :
    Tab.get d (t.set d k v) j = if j = k then v else Tab.get d t j := by
  split
  · next h => rw [h, Tab.get_set_self]
  · next h => exact Tab.get_set_ne d t v h

theorem Tab.get_modify [DecidableEq α] (d : α) (t : Tab α) (k j : Nat) (f : α → α) :
    Tab.get d (t.modify d k f) j = if j = k then f (Tab.get d t k) else Tab.get d t j :=
  Tab.get_set d t k j _

/-! ## The canonical form -/

/-- Keys rising from a bound, no entry the default: the canonical form below a bound. -/
def Tab.canonFrom [DecidableEq α] (d : α) : Nat → Tab α → Prop
  | _, [] => True
  | lo, (j, x) :: r => lo ≤ j ∧ x ≠ d ∧ Tab.canonFrom d (j + 1) r

theorem Tab.canonFrom_mono [DecidableEq α] {d : α} {a b : Nat} {t : Tab α} (h : b ≤ a) (c : t.canonFrom d a) :
    t.canonFrom d b := by
  cases t with
  | nil => trivial
  | cons p r => exact ⟨le_trans h c.1, c.2⟩

theorem Tab.canon_cons [DecidableEq α] (d : α) (j : Nat) (x : α) (r : Tab α) :
    Tab.canon d ((j, x) :: r) = true ↔ x ≠ d ∧ r.canonFrom d (j + 1) := by
  induction r generalizing j x with
  | nil => simp [Tab.canon, Tab.canonFrom]
  | cons p r ih =>
    obtain ⟨k, y⟩ := p
    simp only [Tab.canon, Bool.and_eq_true, decide_eq_true_eq, ih, Tab.canonFrom]
    constructor
    · rintro ⟨⟨h1, h2⟩, h3, h4⟩; exact ⟨h1, h2, h3, h4⟩
    · rintro ⟨h1, h2, h3, h4⟩; exact ⟨⟨h1, h2⟩, h3, h4⟩

theorem Tab.canon_iff [DecidableEq α] (d : α) (t : Tab α) : Tab.canon d t = true ↔ t.canonFrom d 0 := by
  cases t with
  | nil => simp [Tab.canon, Tab.canonFrom]
  | cons p r => rw [Tab.canon_cons]; simp [Tab.canonFrom]

theorem Tab.canonFrom_erase [DecidableEq α] {d : α} {lo : Nat} {t : Tab α} (k : Nat) (c : t.canonFrom d lo) :
    (t.erase k).canonFrom d lo := by
  induction t generalizing lo with
  | nil => trivial
  | cons p r ih =>
    obtain ⟨j, x⟩ := p
    obtain ⟨h1, h2, h3⟩ := c
    by_cases h : j = k
    · simp only [Tab.erase, h, if_true]
      exact Tab.canonFrom_mono (Nat.le_succ_of_le (h ▸ h1)) (ih (h ▸ h3))
    · simp only [Tab.erase, h, if_false]
      exact ⟨h1, h2, ih h3⟩

theorem Tab.canonFrom_insert [DecidableEq α] {d : α} {lo : Nat} {t : Tab α} {k : Nat} {v : α}
    (hk : lo ≤ k) (hv : v ≠ d) (c : t.canonFrom d lo) : ((t.erase k).insert k v).canonFrom d lo := by
  induction t generalizing lo with
  | nil => exact ⟨hk, hv, trivial⟩
  | cons p r ih =>
    obtain ⟨j, x⟩ := p
    obtain ⟨h1, h2, h3⟩ := c
    by_cases h : j = k
    · simp only [Tab.erase, h, if_true]
      exact ih hk (Tab.canonFrom_mono (h ▸ Nat.le_succ_of_le h1) (h ▸ h3))
    · by_cases hl : k < j
      · simp only [Tab.erase, h, if_false, Tab.insert, hl, if_true]
        refine ⟨hk, hv, hl, h2, Tab.canonFrom_erase k h3⟩
      · simp only [Tab.erase, h, if_false, Tab.insert, hl]
        exact ⟨h1, h2, ih (Nat.lt_of_le_of_ne (Nat.le_of_not_lt hl) h) h3⟩

/-- Setting a key keeps the canonical form. -/
theorem Tab.canon_set [DecidableEq α] {d : α} {t : Tab α} (k : Nat) (v : α) (c : Tab.canon d t = true) :
    Tab.canon d (t.set d k v) = true := by
  rw [Tab.canon_iff] at *
  unfold Tab.set
  split
  · exact Tab.canonFrom_erase k c
  · next h => exact Tab.canonFrom_insert (Nat.zero_le k) h c

theorem Tab.canon_modify [DecidableEq α] {d : α} {t : Tab α} (k : Nat) (f : α → α) (c : Tab.canon d t = true) :
    Tab.canon d (t.modify d k f) = true := Tab.canon_set k _ c

/-! ## Things that are there or not -/

theorem Tab.find_upd (t : Tab α) (k j : Nat) (f : α → α) :
    (t.upd k f).find j = if j = k then (t.find j).map f else t.find j := by
  induction t with
  | nil => simp [Tab.upd]
  | cons p r ih =>
    obtain ⟨i, x⟩ := p
    by_cases hi : i = k
    · by_cases hj : j = k
      · simp [Tab.upd, Tab.find, hi, hj]
      · have : ¬ i = j := fun e => hj (e ▸ hi)
        simp [Tab.upd, Tab.find, hi, hj]
        have : ¬ k = j := fun e => hj e.symm
        simp [this]
    · by_cases hij : i = j
      · have : ¬ j = k := fun e => hi (hij.trans e)
        simp [Tab.upd, Tab.find, hij, this]
      · simp [Tab.upd, Tab.find, hi, hij, ih]

@[simp] theorem Tab.find_upd_self (t : Tab α) (k : Nat) (f : α → α) : (t.upd k f).find k = (t.find k).map f := by
  simp [Tab.find_upd]

theorem Tab.find_upd_ne (t : Tab α) {k j : Nat} (f : α → α) (h : j ≠ k) : (t.upd k f).find j = t.find j := by
  simp [Tab.find_upd, h]

end Sys2Proof.Machine
end

