-- ==== Sys2Proof/Laws/Registers.lean ====
section
/-! SUPPORT. Registers: what is read after a write, in every bank and way. -/

namespace Sys2Proof.Machine
open Sys2Proof.Safety

/-! ## The copy a way runs on -/

@[simp] theorem Warp.archOf_updArch (w : Warp) (k : Nat) (f : Arch → Arch) :
    (w.updArch k f).archOf k = f (w.archOf k) := by
  unfold Warp.updArch Warp.archOf
  cases h : w.loop with
  | none => simp [h]
  | some l =>
    cases hy : Tab.find l.ways k with
    | none => simp [h, hy]
    | some y => simp [hy]

@[simp] theorem Warp.updArch_trap (w : Warp) (k : Nat) (f : Arch → Arch) : (w.updArch k f).trap = w.trap := by
  unfold Warp.updArch; split <;> (try split) <;> rfl
@[simp] theorem Warp.updArch_regions (w : Warp) (k : Nat) (f : Arch → Arch) :
    (w.updArch k f).regions = w.regions := by
  unfold Warp.updArch; split <;> (try split) <;> rfl
@[simp] theorem Warp.updArch_busy (w : Warp) (k : Nat) (f : Arch → Arch) : (w.updArch k f).busy = w.busy := by
  unfold Warp.updArch; split <;> (try split) <;> rfl
@[simp] theorem Warp.updArch_alloc (w : Warp) (k : Nat) (f : Arch → Arch) : (w.updArch k f).alloc = w.alloc := by
  unfold Warp.updArch; split <;> (try split) <;> rfl

@[simp] theorem Warp.updArch_rest (w : Warp) (k : Nat) (f : Arch → Arch) : restOf (w.updArch k f) = restOf w := by
  unfold Warp.updArch; split <;> (try split) <;> rfl

theorem Warp.updArch_loop (w : Warp) (k : Nat) (f : Arch → Arch) :
    ((w.updArch k f).loop).isSome = w.loop.isSome := by
  unfold Warp.updArch; split <;> (try split) <;> simp_all

@[simp] theorem Warp.archOf_trap (w : Warp) (k : Nat) (t : Option TrapRec) :
    Warp.archOf { w with trap := t } k = w.archOf k := rfl
@[simp] theorem Warp.archOf_regions (w : Warp) (k : Nat) (t : Tab Region) :
    Warp.archOf { w with regions := t } k = w.archOf k := rfl

@[simp] theorem Warp.archOf_updWay (w : Warp) (k : Nat) (f : Way → Way) (h : ∀ y, (f y).arch = y.arch) :
    (w.updWay k f).archOf k = w.archOf k := by
  unfold Warp.updWay Warp.archOf
  cases hl : w.loop with
  | none => simp [hl]
  | some l => cases hy : Tab.find l.ways k <;> simp [hy, h]

@[simp] theorem Warp.updWay_trap (w : Warp) (k : Nat) (f : Way → Way) : (w.updWay k f).trap = w.trap := by
  unfold Warp.updWay; split <;> rfl
@[simp] theorem Warp.updWay_rest (w : Warp) (k : Nat) (f : Way → Way) : restOf (w.updWay k f) = restOf w := by
  unfold Warp.updWay; split <;> rfl

theorem Warp.getV_updArch (w : Warp) (k : Nat) (mine : Bool) (n l : Nat) (f : Arch → Arch)
    (h : ∀ a, (f a).v = a.v) : (w.updArch k f).getV k mine n l = w.getV k mine n l := by
  unfold Warp.getV; cases ht : w.trap <;> simp [ht, h]
theorem Warp.getG_updArch (w : Warp) (k : Nat) (mine : Bool) (n : Nat) (f : Arch → Arch)
    (h : ∀ a, (f a).g = a.g) : (w.updArch k f).getG k mine n = w.getG k mine n := by
  unfold Warp.getG; cases ht : w.trap <;> simp [ht, h]
theorem Warp.getP_updArch (w : Warp) (k : Nat) (mine : Bool) (n l : Nat) (f : Arch → Arch)
    (h : ∀ a, (f a).p = a.p) : (w.updArch k f).getP k mine n l = w.getP k mine n l := by
  unfold Warp.getP; cases ht : w.trap <;> simp [ht, h]
theorem Warp.getGp_updArch (w : Warp) (k : Nat) (mine : Bool) (n : Nat) (f : Arch → Arch)
    (h : ∀ a, (f a).gp = a.gp) : (w.updArch k f).getGp k mine n = w.getGp k mine n := by
  unfold Warp.getGp; cases ht : w.trap <;> simp [ht, h]

def Arch.noGangs (a : Arch) : Arch := { a with gangs := [] }
def Gang.noCount (g : Gang) : Gang := { g with count := 0 }
def TrapRec.noCount (r : TrapRec) : TrapRec := { r with count := 0 }

/-- Two warps that read alike: same registers, predicates, flags and slices, gangs but for their counts, a trap
record but for its count, and the same in all that is no register, gang or tag. -/
structure Warp.Alike (k : Nat) (w x : Warp) : Prop where
  rest  : restOf x = restOf w
  trap  : x.trap.map TrapRec.noCount = w.trap.map TrapRec.noCount
  loop  : x.loop.isSome = w.loop.isSome
  arch  : (x.archOf k).noGangs = (w.archOf k).noGangs
  gangs : (x.archOf k).gangs.map Gang.noCount = (w.archOf k).gangs.map Gang.noCount

theorem Warp.Alike.refl (k : Nat) (w : Warp) : Warp.Alike k w w := ⟨rfl, rfl, rfl, rfl, rfl⟩

theorem Warp.Alike.trans {k : Nat} {w x y : Warp} (a : Warp.Alike k w x) (b : Warp.Alike k x y) :
    Warp.Alike k w y :=
  ⟨b.rest.trans a.rest, b.trap.trans a.trap, b.loop.trans a.loop, b.arch.trans a.arch, b.gangs.trans a.gangs⟩

theorem Warp.Alike.getV {k : Nat} {w x : Warp} (h : Warp.Alike k w x) (mine : Bool) (n l : Nat) :
    x.getV k mine n l = w.getV k mine n l := by
  have hv := congrArg Arch.v h.arch
  change (x.archOf k).v = (w.archOf k).v at hv
  have ht := h.trap
  unfold Warp.getV
  rw [hv]
  cases hx : x.trap <;> cases hw : w.trap <;> simp [hx, hw] at ht ⊢
  have e : _ = _ := congrArg TrapRec.sup ht
  simp only [TrapRec.noCount] at e
  rw [e]

theorem Warp.Alike.getG {k : Nat} {w x : Warp} (h : Warp.Alike k w x) (mine : Bool) (n : Nat) :
    x.getG k mine n = w.getG k mine n := by
  have hv := congrArg Arch.g h.arch
  change (x.archOf k).g = (w.archOf k).g at hv
  have ht := h.trap
  unfold Warp.getG
  rw [hv]
  cases hx : x.trap <;> cases hw : w.trap <;> simp [hx, hw] at ht ⊢
  have e : _ = _ := congrArg TrapRec.g ht
  simp only [TrapRec.noCount] at e
  rw [e]

theorem Warp.Alike.getP {k : Nat} {w x : Warp} (h : Warp.Alike k w x) (mine : Bool) (n l : Nat) :
    x.getP k mine n l = w.getP k mine n l := by
  have hv := congrArg Arch.p h.arch
  change (x.archOf k).p = (w.archOf k).p at hv
  have ht := h.trap
  unfold Warp.getP
  rw [hv]
  cases hx : x.trap <;> cases hw : w.trap <;> simp [hx, hw] at ht ⊢
  have e : _ = _ := congrArg TrapRec.p ht
  simp only [TrapRec.noCount] at e
  rw [e]

theorem Warp.Alike.getGp {k : Nat} {w x : Warp} (h : Warp.Alike k w x) (mine : Bool) (n : Nat) :
    x.getGp k mine n = w.getGp k mine n := by
  have hv := congrArg Arch.gp h.arch
  change (x.archOf k).gp = (w.archOf k).gp at hv
  have ht := h.trap
  unfold Warp.getGp
  rw [hv]
  cases hx : x.trap <;> cases hw : w.trap <;> simp [hx, hw] at ht ⊢
  have e : _ = _ := congrArg TrapRec.gp ht
  simp only [TrapRec.noCount] at e
  rw [e]

theorem find_map_gangs (i : Nat) (xs ys : List Gang)
    (h : xs.map Gang.noCount = ys.map Gang.noCount) :
    ((xs.find? (fun g => g.slices.getLsbD i)).getD {}).noCount =
      ((ys.find? (fun g => g.slices.getLsbD i)).getD {}).noCount := by
  induction xs generalizing ys with
  | nil => cases ys with
    | nil => rfl
    | cons b r => simp at h
  | cons a r ih =>
    cases ys with
    | nil => simp at h
    | cons b q =>
      simp only [List.map_cons, List.cons.injEq] at h
      have hs := congrArg Gang.slices h.1
      change a.slices = b.slices at hs
      by_cases e : b.slices.getLsbD i = true
      · rw [List.find?_cons_of_pos (by simpa [hs] using e), List.find?_cons_of_pos (by simpa using e)]
        exact h.1
      · rw [List.find?_cons_of_neg (by simpa [hs] using e), List.find?_cons_of_neg (by simpa using e)]
        exact ih q h.2

theorem Warp.Alike.gang {k : Nat} {w x : Warp} (h : Warp.Alike k w x) (i : Nat) :
    ((x.archOf k).gang i).noCount = ((w.archOf k).gang i).noCount :=
  find_map_gangs i _ _ h.gangs

/-! ## Keys -/

theorem vkey_inj {n m l j : Nat} (hl : l < 32) (hj : j < 32) : vkey n l = vkey m j ↔ n = m ∧ l = j := by
  unfold vkey; omega

/-! ## Vector registers -/

theorem Warp.getV_setV (w : Warp) (k : Nat) (mine : Bool) {n m l j : Nat} (x : Word) (hl : l < 32) (hj : j < 32) :
    (w.setV k mine n l x).getV k mine m j = if m = n ∧ j = l then x else w.getV k mine m j := by
  have key : vkey m j = vkey n l ↔ m = n ∧ j = l := vkey_inj hj hl
  unfold Warp.setV
  cases ht : w.trap with
  | none => simp [Warp.getV, ht, Tab.get_set, key]
  | some t =>
    by_cases hb : mine = true ∧ n < 32
    · obtain ⟨hm, hn⟩ := hb
      simp only [hm, hn, decide_true, Bool.and_true, if_true, Warp.getV, Warp.archOf_trap]
      by_cases hm' : m < 32
      · simp [hm', Tab.get_set, key, ht]
      · have : ¬ (m = n ∧ j = l) := fun e => hm' (e.1 ▸ hn)
        simp [hm', this, ht]
    · have hb' : (mine && decide (n < 32)) = false := by simpa using hb
      simp only [hb', Warp.getV, Warp.updArch_trap, ht, Warp.archOf_updArch, Tab.get_set, key]
      by_cases hc : mine = true ∧ m < 32
      · have : ¬ (m = n ∧ j = l) := fun e => hb ⟨hc.1, e.1 ▸ hc.2⟩
        simp [hc.1, hc.2, this, ht]
      · have : (mine && decide (m < 32)) = false := by simpa using hc
        simp [this, ht, Tab.get_set, key]

theorem Warp.getG_setV (w : Warp) (k : Nat) (mine : Bool) (n l m : Nat) (x : Word) :
    (w.setV k mine n l x).getG k mine m = w.getG k mine m := by
  unfold Warp.setV
  cases ht : w.trap with
  | none => simp [Warp.getG, ht]
  | some t => by_cases hb : mine && decide (n < 32) <;> simp [hb, Warp.getG, ht]

theorem Warp.getP_setV (w : Warp) (k : Nat) (mine : Bool) (n l m j : Nat) (x : Word) :
    (w.setV k mine n l x).getP k mine m j = w.getP k mine m j := by
  unfold Warp.setV
  cases ht : w.trap with
  | none => simp [Warp.getP, ht]
  | some t => by_cases hb : mine && decide (n < 32) <;> simp [hb, Warp.getP, ht]

theorem Warp.getGp_setV (w : Warp) (k : Nat) (mine : Bool) (n l m : Nat) (x : Word) :
    (w.setV k mine n l x).getGp k mine m = w.getGp k mine m := by
  unfold Warp.setV
  cases ht : w.trap with
  | none => simp [Warp.getGp, ht]
  | some t => by_cases hb : mine && decide (n < 32) <;> simp [hb, Warp.getGp, ht]

/-! ## Scalar registers, in the bank of the running code -/

theorem Warp.getG_setG (w : Warp) (k n m : Nat) (x : Word) :
    (w.setG k true n x).getG k true m = if m = n then x else w.getG k true m := by
  unfold Warp.setG Warp.getG
  cases ht : w.trap <;> simp [ht, Tab.get_set]

theorem Warp.getV_setG (w : Warp) (k n m l : Nat) (x : Word) :
    (w.setG k true n x).getV k true m l = w.getV k true m l := by
  unfold Warp.setG Warp.getV
  cases ht : w.trap <;> simp [ht]

theorem Warp.getP_setG (w : Warp) (k n m l : Nat) (x : Word) :
    (w.setG k true n x).getP k true m l = w.getP k true m l := by
  unfold Warp.setG Warp.getP
  cases ht : w.trap <;> simp [ht]

theorem Warp.getGp_setG (w : Warp) (k n m : Nat) (x : Word) :
    (w.setG k true n x).getGp k true m = w.getGp k true m := by
  unfold Warp.setG Warp.getGp
  cases ht : w.trap <;> simp [ht]

/-! ## Predicates, in the bank of the running code -/

theorem setPred_bit (b : BitVec 8) {n m : Nat} (hn : n < 8) (hm : m < 8) (x : Bool) :
    (setPred b n x).getLsbD m = if m = n ∧ n ≠ 0 then x else b.getLsbD m := by
  unfold setPred bit8
  by_cases h0 : n = 0
  · simp [h0]
  · cases x <;> by_cases e : m = n <;> simp [h0, e, BitVec.getLsbD_or, BitVec.getLsbD_and, BitVec.getLsbD_not, BitVec.getLsbD_shiftLeft, hn, hm] <;> omega

theorem Warp.getP_setP (w : Warp) (k : Nat) {n m : Nat} (l j : Nat) (hn : n < 8) (hm : m < 8) (x : Bool) :
    (w.setP k true n l x).getP k true m j = if m = n ∧ j = l ∧ n ≠ 0 then x else w.getP k true m j := by
  unfold Warp.setP Warp.getP
  cases ht : w.trap <;>
  · simp only [ht, Warp.updArch_trap, Warp.archOf_updArch, Tab.get_modify, if_true]
    by_cases hj : j = l
    · subst hj
      by_cases h0 : m = 0
      · by_cases e : m = n <;> simp [h0] <;> omega
      · simp [h0, setPred_bit _ hn hm]
        by_cases e : m = n <;> simp [e]
        · subst e; simp [h0]
    · simp [hj]

theorem Warp.getV_setP (w : Warp) (k n m l j : Nat) (x : Bool) :
    (w.setP k true n l x).getV k true m j = w.getV k true m j := by
  unfold Warp.setP Warp.getV
  cases ht : w.trap <;> simp [ht]

theorem Warp.getG_setP (w : Warp) (k n m l : Nat) (x : Bool) :
    (w.setP k true n l x).getG k true m = w.getG k true m := by
  unfold Warp.setP Warp.getG
  cases ht : w.trap <;> simp [ht]

theorem Warp.getGp_setP (w : Warp) (k n m l : Nat) (x : Bool) :
    (w.setP k true n l x).getGp k true m = w.getGp k true m := by
  unfold Warp.setP Warp.getGp
  cases ht : w.trap <;> simp [ht]

theorem Warp.getGp_setGp (w : Warp) (k : Nat) {n m : Nat} (hn : n < 8) (hm : m < 8) (x : Bool) :
    (w.setGp k true n x).getGp k true m = if m = n ∧ n ≠ 0 then x else w.getGp k true m := by
  unfold Warp.setGp Warp.getGp
  cases ht : w.trap <;>
  · simp only [ht, Warp.updArch_trap, Warp.archOf_updArch, if_true]
    by_cases h0 : m = 0
    · by_cases e : m = n <;> simp [h0] <;> omega
    · simp [h0, setPred_bit _ hn hm]
      by_cases e : m = n <;> simp [e]
      · subst e; simp [h0]

theorem Warp.getV_setGp (w : Warp) (k n m j : Nat) (x : Bool) :
    (w.setGp k true n x).getV k true m j = w.getV k true m j := by
  unfold Warp.setGp Warp.getV
  cases ht : w.trap <;> simp [ht]

theorem Warp.getG_setGp (w : Warp) (k n m : Nat) (x : Bool) :
    (w.setGp k true n x).getG k true m = w.getG k true m := by
  unfold Warp.setGp Warp.getG
  cases ht : w.trap <;> simp [ht]

theorem Warp.getP_setGp (w : Warp) (k n m l : Nat) (x : Bool) :
    (w.setGp k true n x).getP k true m l = w.getP k true m l := by
  unfold Warp.setGp Warp.getP
  cases ht : w.trap <;> simp [ht]

end Sys2Proof.Machine
end

