-- ==== Sys2Proof/Laws/Issue.lean ====
section
/-! SUPPORT. Issuing: what counting, tracking and writing results leave as it was, and the whole effect of a
register instruction. -/

namespace Sys2Proof.Machine
open Sys2Proof.Safety

/-! ## Lanes -/

theorem mem_lanesOf {m : Lanes} {l : Nat} : l ∈ lanesOf m ↔ l < 32 ∧ m.getLsbD l = true := by
  simp [lanesOf, List.mem_filter, List.mem_range]

theorem lt_of_mem_lanesOf {m : Lanes} {l : Nat} (h : l ∈ lanesOf m) : l < 32 := (mem_lanesOf.1 h).1

theorem lanesOf_nodup (m : Lanes) : (lanesOf m).Nodup := List.Nodup.filter _ List.nodup_range

theorem getLsbD_foldl_or (ls : List Nat) (m : Lanes) (l : Nat) (h : l < 32) :
    (ls.foldl (fun m l => m ||| (1#32 <<< l)) m).getLsbD l = (m.getLsbD l || decide (l ∈ ls)) := by
  induction ls generalizing m with
  | nil => simp
  | cons a r ih =>
    rw [List.foldl_cons, ih]
    by_cases e : l = a
    · subst e; simp [BitVec.getLsbD_or, BitVec.getLsbD_shiftLeft, h]
    · have hb : (!decide (l < a) && decide (l - a = 0)) = false := by
        simp only [Bool.and_eq_false_iff, Bool.not_eq_false', decide_eq_true_eq, decide_eq_false_iff_not]; omega
      simp [BitVec.getLsbD_or, BitVec.getLsbD_shiftLeft, h, e, hb]

@[simp] theorem getLsbD_maskOf (ls : List Nat) {l : Nat} (h : l < 32) :
    (maskOf ls).getLsbD l = decide (l ∈ ls) := by
  unfold maskOf
  rw [getLsbD_foldl_or ls 0 l h]; simp

/-! ## The warp after an update -/

theorem State.warp_updWarp (s : State) (u v : Nat) (f : Warp → Warp) (h : (s.warps.find u).isSome = true) :
    (s.updWarp u f).warp v = if v = u then f (s.warp v) else s.warp v := by
  unfold State.warp
  rw [State.updWarp_warps, Tab.find_upd]
  split
  · next e =>
    subst e
    obtain ⟨w, hw⟩ := Option.isSome_iff_exists.1 h
    simp [hw]
  · rfl

@[simp] theorem State.wWarp_updMy (s : State) (f : Warp → Warp) (h : (s.warps.find s.who.warp).isSome = true) :
    (s.updMy f).wWarp = f s.wWarp := by
  unfold State.wWarp State.updMy
  rw [State.updWarp_who, State.warp_updWarp s _ _ f h]
  simp

theorem State.present_updMy (s : State) (f : Warp → Warp) :
    ((s.updMy f).warps.find (s.updMy f).who.warp).isSome = (s.warps.find s.who.warp).isSome := by
  simp [State.updMy]

theorem State.find_updMy_ne (s : State) (f : Warp → Warp) {u : Nat} (h : u ≠ s.who.warp) :
    (s.updMy f).warps.find u = s.warps.find u := by
  simp [State.updMy, Tab.find_upd_ne _ _ h]

theorem Tab.upd_upd {α : Type} (t : Tab α) (k : Nat) (f g : α → α) :
    (t.upd k f).upd k g = t.upd k (fun x => g (f x)) := by
  induction t with
  | nil => rfl
  | cons p r ih =>
    obtain ⟨j, x⟩ := p
    by_cases h : j = k <;> simp [Tab.upd, h, ih]

/-- Two updates of the issuing warp are one. -/
theorem State.updMy_updMy (s : State) (f g : Warp → Warp) :
    (s.updMy f).updMy g = s.updMy (fun w => g (f w)) := by
  simp only [State.updMy, State.updWarp, Tab.upd_upd]

/-! ## States that read alike -/

/-- `t` is `s` with nothing changed but counts, tags and a way's sets. -/
structure State.Alike (s t : State) : Prop extends OnlyWarp s t where
  warp : Warp.Alike s.who.way s.wWarp t.wWarp

theorem State.Alike.who {s t : State} (h : State.Alike s t) : t.who = s.who := by rw [h.frame]

theorem State.Alike.refl (s : State) : State.Alike s s := ⟨⟨rfl, fun _ _ => rfl⟩, Warp.Alike.refl _ _⟩

theorem State.Alike.trans {s t u : State} (a : State.Alike s t) (b : State.Alike t u) : State.Alike s u := by
  refine ⟨⟨?_, fun v hv => ?_⟩, ?_⟩
  · rw [b.frame, a.frame]
  · rw [b.others v (a.who ▸ hv), a.others v hv]
  · exact a.warp.trans (a.who ▸ b.warp)

theorem State.Alike.updMy (s : State) (f : Warp → Warp) (hp : Present s)
    (h : Warp.Alike s.who.way s.wWarp (f s.wWarp)) : State.Alike s (s.updMy f) :=
  ⟨⟨rfl, fun _ hu => State.find_updMy_ne s f hu⟩, by rw [State.wWarp_updMy s f hp]; exact h⟩

theorem present_updMy {s : State} (f : Warp → Warp) (hp : Present s) : Present (s.updMy f) := by
  unfold Present; rw [State.present_updMy]; exact hp

theorem alike_guardTags (s : State) (c : Common) (hp : Present s) :
    State.Alike s (s.guardTags c) ∧ Present (s.guardTags c) := by
  unfold State.guardTags
  split
  · exact ⟨.refl s, hp⟩
  · exact ⟨State.Alike.updMy s _ hp ⟨rfl, rfl, rfl, rfl, rfl⟩, present_updMy _ hp⟩

theorem alike_countOne (s : State) (hp : Present s) :
    State.Alike s s.countOne ∧ Present s.countOne := by
  refine ⟨State.Alike.updMy s _ hp ?_, present_updMy _ hp⟩
  cases ht : s.wWarp.trap with
  | some t => exact ⟨rfl, by simp [ht, TrapRec.noCount], rfl, rfl, rfl⟩
  | none =>
    refine ⟨by simp, by simp, by simp [Warp.updArch_loop], by simp [Arch.updGang, Arch.noGangs], ?_⟩
    simp only [Warp.archOf_updArch, Arch.updGang, List.map_map]
    apply List.map_congr_left
    intro g _
    simp only [Function.comp]
    split <;> rfl

theorem alike_track (s : State) (u : Uses) (ls : Lanes) (hp : Present s) :
    State.Alike s (s.track u ls) ∧ Present (s.track u ls) := by
  refine ⟨State.Alike.updMy s _ hp ?_, present_updMy _ hp⟩
  have key : ∀ (rd wr : List Nat) (y : Way), (y.track rd wr).arch = y.arch := by
    intro rd wr y; unfold Way.track; split <;> rfl
  refine ⟨by simp, by simp, ?_, by rw [Warp.archOf_updWay _ _ _ (key _ _)], by rw [Warp.archOf_updWay _ _ _ (key _ _)]⟩
  unfold Warp.updWay; split <;> simp_all

/-- Counting an instruction and entering its registers in the way's sets changes nothing it reads. -/
theorem alike_begin (s : State) (u : Uses) (hp : Present s) : State.Alike s (s.begin u) ∧ Present (s.begin u) := by
  unfold State.begin
  obtain ⟨a1, p1⟩ := alike_guardTags s u.com hp
  obtain ⟨a2, p2⟩ := alike_countOne _ p1
  obtain ⟨a3, p3⟩ := alike_track _ u (s.workLanes u.com) p2
  exact ⟨(a1.trans a2).trans a3, p3⟩

namespace State.Alike
variable {s t : State} (h : State.Alike s t)
include h

theorem vreg (n l : Nat) : vreg t n l = vreg s n l := by
  unfold Safety.vreg; rw [h.who]; exact h.warp.getV true n l
theorem greg (n : Nat) : greg t n = greg s n := by
  unfold Safety.greg; rw [h.who]; exact h.warp.getG true n
theorem preg (n l : Nat) : preg t n l = preg s n l := by
  unfold Safety.preg; rw [h.who]; exact h.warp.getP true n l
theorem gpreg (n : Nat) : gpreg t n = gpreg s n := by
  unfold Safety.gpreg; rw [h.who]; exact h.warp.getGp true n

theorem archEq : t.arch.noGangs = s.arch.noGangs := by
  unfold State.arch; rw [h.who]; exact h.warp.arch
theorem gangEq : t.gang.noCount = s.gang.noCount := by
  unfold State.gang State.arch; rw [h.who]; exact h.warp.gang _
theorem gangSlices : t.gang.slices = s.gang.slices := by
  have e := congrArg Gang.slices h.gangEq; exact e
theorem chain : t.gang.chain = s.gang.chain := by
  have e := congrArg Gang.chain h.gangEq; exact e
theorem slicesEq : t.arch.slices = s.arch.slices := by
  have e := congrArg Arch.slices h.archEq; exact e
theorem slice (i : Nat) : t.arch.slice i = s.arch.slice i := by
  unfold Arch.slice; rw [h.slicesEq]
theorem pc : t.pc = s.pc := by unfold State.pc; rw [h.who, h.slice]
theorem active : t.active = s.active := by
  unfold State.active Arch.activeIn; rw [h.gangSlices]; simp only [h.slice]
theorem uLane : t.uLane = s.uLane := by unfold State.uLane; rw [h.active]
theorem inHandler : t.inHandler = s.inHandler := by
  unfold State.inHandler
  have := congrArg Option.isSome h.warp.trap
  simpa using this
theorem executing (c : Common) : t.executing c = s.executing c := by
  unfold State.executing
  rw [h.active]
  congr 1
  apply List.filter_congr
  intro l _
  exact congrArg (fun b => b ^^ c.pn) (h.preg c.pg.val l)
theorem calcLanes (c : Common) : t.calcLanes c = s.calcLanes c := by
  unfold State.calcLanes; rw [h.uLane, h.executing]
theorem workLanes (c : Common) : t.workLanes c = s.workLanes c := by
  unfold State.workLanes; rw [h.active, h.executing]
theorem member : t.member = s.member := by unfold State.member; rw [h.chain]

theorem special (n l : Nat) : t.special n l = s.special n l := by
  have r := h.warp.rest
  have e1 := congrArg Warp.ident r
  have e2 := congrArg Warp.num r
  have e3 := congrArg Warp.team r
  have e4 := congrArg Warp.core r
  have e5 := congrArg Warp.widths r
  have e6 := congrArg Warp.nlanes r
  simp only [restOf] at e1 e2 e3 e4 e5 e6
  have e7 : ∀ v, t.team v = s.team v := fun v => by unfold State.team; rw [h.frame]
  have e8 : ∀ c, t.coreTime c = s.coreTime c := fun c => by unfold State.coreTime; rw [h.frame]
  unfold State.special
  simp only [e1, e2, e3, e4, e5, e6, e7, e8, h.who]

/-- A source reads the same. -/
theorem src (l : Nat) (ty : Ty) (x : Src) : t.src l ty x = s.src l ty x := by
  unfold State.src
  simp only [h.chain, h.special]
  have hv := h.vreg; have hg := h.greg; have hp := h.preg; have hq := h.gpreg
  unfold Safety.vreg at hv; unfold Safety.greg at hg; unfold Safety.preg at hp; unfold Safety.gpreg at hq
  cases x <;> simp only [hv, hg, hp, hq]

theorem src32 (l : Nat) (x : Src) : t.src32 l x = s.src32 l x := by unfold State.src32; rw [h.src]
theorem src64 (l : Nat) (x : Src) : t.src64 l x = s.src64 l x := by unfold State.src64; rw [h.src]

end State.Alike

/-! ## Writing results -/

/-- What a write to a register leaves as it was in a warp. -/
structure Warp.Kept (k : Nat) (w x : Warp) : Prop where
  rest   : restOf x = restOf w
  trap   : x.trap.map savedPart = w.trap.map savedPart
  loop   : x.loop.isSome = w.loop.isSome
  slices : (x.archOf k).slices = (w.archOf k).slices
  gangs  : (x.archOf k).gangs = (w.archOf k).gangs
  fstat  : (x.archOf k).fstat = (w.archOf k).fstat
  sfmask : (x.archOf k).sfmask = (w.archOf k).sfmask
  exited : (x.archOf k).exited = (w.archOf k).exited

theorem Warp.Kept.refl (k : Nat) (w : Warp) : Warp.Kept k w w := ⟨rfl, rfl, rfl, rfl, rfl, rfl, rfl, rfl⟩

theorem Warp.Kept.trans {k : Nat} {w x y : Warp} (a : Warp.Kept k w x) (b : Warp.Kept k x y) : Warp.Kept k w y :=
  ⟨b.rest.trans a.rest, b.trap.trans a.trap, b.loop.trans a.loop, b.slices.trans a.slices, b.gangs.trans a.gangs,
    b.fstat.trans a.fstat, b.sfmask.trans a.sfmask, b.exited.trans a.exited⟩

theorem Warp.Kept.updArch (k : Nat) (w : Warp) (f : Arch → Arch)
    (h : ∀ a, (f a).slices = a.slices ∧ (f a).gangs = a.gangs ∧ (f a).fstat = a.fstat ∧
      (f a).sfmask = a.sfmask ∧ (f a).exited = a.exited) : Warp.Kept k w (w.updArch k f) := by
  obtain ⟨h1, h2, h3, h4, h5⟩ := h (w.archOf k)
  exact ⟨by simp, by simp, by simp [Warp.updArch_loop], by simp [h1], by simp [h2], by simp [h3], by simp [h4],
    by simp [h5]⟩

theorem Warp.Kept.setV (k : Nat) (w : Warp) (n l : Nat) (x : Word) : Warp.Kept k w (w.setV k true n l x) := by
  unfold Warp.setV
  cases ht : w.trap with
  | none => exact Warp.Kept.updArch k w _ (fun a => ⟨rfl, rfl, rfl, rfl, rfl⟩)
  | some t =>
    by_cases hn : n < 32
    · simp only [hn, decide_true, Bool.and_true, if_true]
      exact ⟨rfl, by simp [ht, savedPart], rfl, rfl, rfl, rfl, rfl, rfl⟩
    · simp only [hn, decide_false, Bool.and_false, Bool.false_eq_true, if_false]
      exact Warp.Kept.updArch k w _ (fun a => ⟨rfl, rfl, rfl, rfl, rfl⟩)

theorem Warp.Kept.setG (k : Nat) (w : Warp) (n : Nat) (x : Word) : Warp.Kept k w (w.setG k true n x) := by
  unfold Warp.setG
  cases w.trap <;> (try simp only [Bool.not_true, Bool.false_and, Bool.false_eq_true, if_false, if_true]) <;>
    exact Warp.Kept.updArch k w _ (fun a => ⟨rfl, rfl, rfl, rfl, rfl⟩)

theorem Warp.Kept.setP (k : Nat) (w : Warp) (n l : Nat) (x : Bool) : Warp.Kept k w (w.setP k true n l x) := by
  unfold Warp.setP
  cases w.trap <;> (try simp only [Bool.not_true, Bool.false_and, Bool.false_eq_true, if_false, if_true]) <;>
    exact Warp.Kept.updArch k w _ (fun a => ⟨rfl, rfl, rfl, rfl, rfl⟩)

theorem Warp.Kept.setGp (k : Nat) (w : Warp) (n : Nat) (x : Bool) : Warp.Kept k w (w.setGp k true n x) := by
  unfold Warp.setGp
  cases w.trap <;> (try simp only [Bool.not_true, Bool.false_and, Bool.false_eq_true, if_false, if_true]) <;>
    exact Warp.Kept.updArch k w _ (fun a => ⟨rfl, rfl, rfl, rfl, rfl⟩)

theorem Warp.Kept.put (k : Nat) (w : Warp) (l : Nat) (d : Dst) (wide : Bool) (x : Double) :
    Warp.Kept k w (w.put k true l d wide x) := by
  unfold Warp.put
  cases d with
  | v n => cases wide; exacts [.setV k w _ _ _, (Warp.Kept.setV k w _ _ _).trans (.setV k _ _ _ _)]
  | g n => cases wide; exacts [.setG k w _ _, (Warp.Kept.setG k w _ _).trans (.setG k _ _ _)]
  | p n => exact .setP k w _ _ _
  | gp n => exact .setGp k w _ _
  | discard => exact .refl k w

theorem Warp.Kept.putAll (k : Nat) (L : List Nat) (w : Warp) (d : Dst) (wide : Bool) (f : Nat → Double) :
    Warp.Kept k w (L.foldl (fun w l => w.put k true l d wide (f l)) w) := by
  induction L generalizing w with
  | nil => exact .refl k w
  | cons a r ih => exact (Warp.Kept.put k w a d wide (f a)).trans (ih _)

theorem Warp.Kept.cleanDst (k : Nat) (w : Warp) (d : Dst) (wide : Bool) (ls : Lanes) :
    Warp.Kept k w (w.cleanDst k true d wide ls) := by
  have own : ∀ f : TrapRec → TrapRec, (∀ t, savedPart (f t) = savedPart t) →
      Warp.Kept k w { w with trap := w.trap.map f } := fun f h => by
    refine ⟨rfl, ?_, rfl, rfl, rfl, rfl, rfl, rfl⟩
    cases w.trap <;> simp [h]
  unfold Warp.cleanDst
  cases d <;> dsimp only <;> repeat' split
  all_goals first
    | exact .refl k w
    | exact own _ (fun _ => rfl)
    | exact Warp.Kept.updArch k w _ (fun a => ⟨rfl, rfl, rfl, rfl, rfl⟩)

/-- One lane's result in the vector registers. -/
theorem getV_put (w : Warp) (k : Nat) {l n j : Nat} (d : Dst) (wide : Bool) (x : Double) (hl : l < 32) (hj : j < 32) :
    (w.put k true l d wide x).getV k true n j =
      match d with
      | .v m =>
        if j = l ∧ n = m.val then x.setWidth 32
        else if j = l ∧ wide = true ∧ n = m.val + 1 then x.extractLsb' 32 32 else w.getV k true n j
      | _ => w.getV k true n j := by
  unfold Warp.put
  cases d with
  | v m =>
    cases wide
    · simp only [Bool.false_eq_true, if_false, Warp.getV_setV _ _ _ _ hl hj, false_and, and_false]
      by_cases a : j = l <;> by_cases b : n = m.val <;> simp [a, b]
    · simp only [if_true, Warp.getV_setV _ _ _ _ hl hj, true_and]
      by_cases a : j = l <;> by_cases b : n = m.val <;> by_cases c : n = m.val + 1 <;> simp [a, b, c] <;> omega
  | g m => cases wide <;> simp [Warp.getV_setG]
  | p m => simp [Warp.getV_setP]
  | gp m => simp [Warp.getV_setGp]
  | discard => rfl

theorem getV_putAll (k : Nat) (L : List Nat) (w : Warp) {n j : Nat} (d : Dst) (wide : Bool) (f : Nat → Double)
    (hL : ∀ l ∈ L, l < 32) (hj : j < 32) :
    (L.foldl (fun w l => w.put k true l d wide (f l)) w).getV k true n j =
      match d with
      | .v m =>
        if j ∈ L ∧ n = m.val then (f j).setWidth 32
        else if j ∈ L ∧ wide = true ∧ n = m.val + 1 then (f j).extractLsb' 32 32 else w.getV k true n j
      | _ => w.getV k true n j := by
  induction L generalizing w with
  | nil => cases d <;> simp
  | cons a r ih =>
    rw [List.foldl_cons, ih _ (fun l h => hL l (List.mem_cons_of_mem _ h)), getV_put _ _ _ _ _ (hL a List.mem_cons_self) hj]
    cases d with
    | v m =>
      simp only [List.mem_cons]
      by_cases e : j = a
      · subst e
        cases wide <;> by_cases hr : j ∈ r <;> by_cases b : n = m.val <;> by_cases c : n = m.val + 1 <;> simp [hr, b, c]
      · simp [e]
    | _ => rfl

/-- One lane's result in the scalar registers. -/
theorem getG_put (w : Warp) (k l n : Nat) (d : Dst) (wide : Bool) (x : Double) :
    (w.put k true l d wide x).getG k true n =
      match d with
      | .g m =>
        if n = m.val then x.setWidth 32
        else if wide = true ∧ n = m.val + 1 then x.extractLsb' 32 32 else w.getG k true n
      | _ => w.getG k true n := by
  unfold Warp.put
  cases d with
  | v m => cases wide <;> simp [Warp.getG_setV]
  | g m =>
    cases wide
    · simp [Warp.getG_setG]
    · simp only [if_true, Warp.getG_setG, true_and]
      by_cases b : n = m.val <;> by_cases c : n = m.val + 1 <;> simp [b, c] <;> omega
  | p m => simp [Warp.getG_setP]
  | gp m => simp [Warp.getG_setGp]
  | discard => rfl

theorem getP_put (w : Warp) (k l : Nat) {n : Nat} (j : Nat) (d : Dst) (wide : Bool) (x : Double) (hn : n < 8) :
    (w.put k true l d wide x).getP k true n j =
      match d with
      | .p m => if n = m.val ∧ j = l ∧ m.val ≠ 0 then x.setWidth 32 != 0#32 else w.getP k true n j
      | _ => w.getP k true n j := by
  unfold Warp.put
  cases d with
  | v m => cases wide <;> simp [Warp.getP_setV]
  | g m => cases wide <;> simp [Warp.getP_setG]
  | p m => exact Warp.getP_setP w k l j m.isLt hn _
  | gp m => simp [Warp.getP_setGp]
  | discard => rfl

theorem getGp_put (w : Warp) (k l : Nat) {n : Nat} (d : Dst) (wide : Bool) (x : Double) (hn : n < 8) :
    (w.put k true l d wide x).getGp k true n =
      match d with
      | .gp m => if n = m.val ∧ m.val ≠ 0 then x.setWidth 32 != 0#32 else w.getGp k true n
      | _ => w.getGp k true n := by
  unfold Warp.put
  cases d with
  | v m => cases wide <;> simp [Warp.getGp_setV]
  | g m => cases wide <;> simp [Warp.getGp_setG]
  | p m => simp [Warp.getGp_setP]
  | gp m => exact Warp.getGp_setGp w k m.isLt hn _
  | discard => rfl

theorem getP_putAll (k : Nat) (L : List Nat) (w : Warp) {n : Nat} (j : Nat) (d : Dst) (wide : Bool) (f : Nat → Double)
    (hn : n < 8) :
    (L.foldl (fun w l => w.put k true l d wide (f l)) w).getP k true n j =
      match d with
      | .p m => if n = m.val ∧ j ∈ L ∧ m.val ≠ 0 then (f j).setWidth 32 != 0#32 else w.getP k true n j
      | _ => w.getP k true n j := by
  induction L generalizing w with
  | nil => cases d <;> simp
  | cons a r ih =>
    rw [List.foldl_cons, ih, getP_put _ _ _ _ _ _ _ hn]
    cases d with
    | p m =>
      simp only [List.mem_cons]
      by_cases e : j = a
      · subst e
        by_cases hr : j ∈ r <;> by_cases b : n = m.val <;> by_cases c : m.val = 0 <;> simp [hr, b, c]
      · simp [e]
    | _ => rfl

theorem getG_putAll_ne (k : Nat) (L : List Nat) (w : Warp) (d : Dst) (wide : Bool) (f : Nat → Double) {n : Nat}
    (h : ∀ m, d ≠ .g m) : (L.foldl (fun w l => w.put k true l d wide (f l)) w).getG k true n = w.getG k true n := by
  induction L generalizing w with
  | nil => rfl
  | cons a r ih =>
    rw [List.foldl_cons, ih, getG_put]
    cases d with
    | g m => exact absurd rfl (h m)
    | _ => rfl

theorem getGp_putAll_ne (k : Nat) (L : List Nat) (w : Warp) (d : Dst) (wide : Bool) (f : Nat → Double) {n : Nat}
    (hn : n < 8) (h : ∀ m, d ≠ .gp m) :
    (L.foldl (fun w l => w.put k true l d wide (f l)) w).getGp k true n = w.getGp k true n := by
  induction L generalizing w with
  | nil => rfl
  | cons a r ih =>
    rw [List.foldl_cons, ih, getGp_put _ _ _ _ _ _ hn]
    cases d with
    | gp m => exact absurd rfl (h m)
    | _ => rfl

theorem cleanDst_reads (k : Nat) (w : Warp) (d : Dst) (wide : Bool) (ls : Lanes) (n l : Nat) :
    (w.cleanDst k true d wide ls).getV k true n l = w.getV k true n l ∧
    (w.cleanDst k true d wide ls).getG k true n = w.getG k true n ∧
    (w.cleanDst k true d wide ls).getP k true n l = w.getP k true n l ∧
    (w.cleanDst k true d wide ls).getGp k true n = w.getGp k true n := by
  have own : ∀ f : TrapRec → TrapRec, (∀ t, (f t).sup = t.sup) →
      ({ w with trap := w.trap.map f } : Warp).getV k true n l = w.getV k true n l ∧
      ({ w with trap := w.trap.map f } : Warp).getG k true n = w.getG k true n ∧
      ({ w with trap := w.trap.map f } : Warp).getP k true n l = w.getP k true n l ∧
      ({ w with trap := w.trap.map f } : Warp).getGp k true n = w.getGp k true n := fun f h => by
    unfold Warp.getV Warp.getG Warp.getP Warp.getGp
    cases w.trap <;> simp [h, Warp.archOf]
  unfold Warp.cleanDst
  cases d <;> dsimp only <;> repeat' split
  all_goals first
    | exact ⟨rfl, rfl, rfl, rfl⟩
    | exact own _ (fun _ => rfl)
    | exact ⟨Warp.getV_updArch _ _ _ _ _ _ (fun _ => rfl), Warp.getG_updArch _ _ _ _ _ (fun _ => rfl),
        Warp.getP_updArch _ _ _ _ _ _ (fun _ => rfl), Warp.getGp_updArch _ _ _ _ _ (fun _ => rfl)⟩

/-! ## A register instruction's whole effect -/

theorem lanesOf_maskOf_one {l : Nat} (h : l < 32) : lanesOf (maskOf [l]) = [l] := by
  have : ∀ l : Fin 32, lanesOf (maskOf [l.val]) = [l.val] := by decide
  exact this ⟨l, h⟩

theorem uLane_lt (s : State) : s.uLane < 32 := by
  unfold State.uLane lowest
  cases h : lanesOf s.active with
  | nil => simp
  | cons a r => exact lt_of_mem_lanesOf (h ▸ List.mem_cons_self)

def Gang.sig (g : Gang) : BitVec 8 × Park × Nat × Nat := (g.slices, g.park, g.cyc, g.fence)

/-- `x` is `w` with slices `sl` and flags `fs`, its registers and all else as they were but chains and tags. -/
structure Warp.Near (k : Nat) (w x : Warp) (sl : List Slice) (fs : Word) : Prop where
  rest   : restOf x = restOf w
  trap   : x.trap.map savedPart = w.trap.map savedPart
  loop   : x.loop.isSome = w.loop.isSome
  slices : (x.archOf k).slices = sl
  fstat  : (x.archOf k).fstat = fs
  gangs  : (x.archOf k).gangs.map Gang.sig = (w.archOf k).gangs.map Gang.sig
  sfmask : (x.archOf k).sfmask = (w.archOf k).sfmask
  exited : (x.archOf k).exited = (w.archOf k).exited
  v      : ∀ n l, x.getV k true n l = w.getV k true n l
  g      : ∀ n, x.getG k true n = w.getG k true n
  p      : ∀ n l, x.getP k true n l = w.getP k true n l
  gp     : ∀ n, x.getGp k true n = w.getGp k true n

theorem Warp.Near.refl (k : Nat) (w : Warp) : Warp.Near k w w (w.archOf k).slices (w.archOf k).fstat :=
  ⟨rfl, rfl, rfl, rfl, rfl, rfl, rfl, rfl, fun _ _ => rfl, fun _ => rfl, fun _ _ => rfl, fun _ => rfl⟩

theorem Warp.Near.trans {k : Nat} {w x y : Warp} {sl sl' : List Slice} {fs fs' : Word}
    (a : Warp.Near k w x sl fs) (b : Warp.Near k x y sl' fs') : Warp.Near k w y sl' fs' :=
  ⟨b.rest.trans a.rest, b.trap.trans a.trap, b.loop.trans a.loop, b.slices, b.fstat, b.gangs.trans a.gangs,
    b.sfmask.trans a.sfmask, b.exited.trans a.exited, fun n l => (b.v n l).trans (a.v n l),
    fun n => (b.g n).trans (a.g n), fun n l => (b.p n l).trans (a.p n l), fun n => (b.gp n).trans (a.gp n)⟩

/-- A change of a way's copy that writes no register. -/
theorem Warp.Near.updArch (k : Nat) (w : Warp) (f : Arch → Arch)
    (h : ∀ a, (f a).v = a.v ∧ (f a).g = a.g ∧ (f a).p = a.p ∧ (f a).gp = a.gp ∧ (f a).sfmask = a.sfmask ∧
      (f a).exited = a.exited ∧ (f a).gangs.map Gang.sig = a.gangs.map Gang.sig) :
    Warp.Near k w (w.updArch k f) (f (w.archOf k)).slices (f (w.archOf k)).fstat :=
  ⟨by simp, by simp, by simp [Warp.updArch_loop], by simp, by simp, by simpa using (h _).2.2.2.2.2.2,
    by simpa using (h _).2.2.2.2.1, by simpa using (h _).2.2.2.2.2.1,
    fun _ _ => Warp.getV_updArch _ _ _ _ _ _ (fun a => (h a).1),
    fun _ => Warp.getG_updArch _ _ _ _ _ (fun a => (h a).2.1),
    fun _ _ => Warp.getP_updArch _ _ _ _ _ _ (fun a => (h a).2.2.1),
    fun _ => Warp.getGp_updArch _ _ _ _ _ (fun a => (h a).2.2.2.1)⟩

theorem Warp.Near.raise (k : Nat) (w : Warp) (fl : Word) :
    Warp.Near k w (w.raise k true fl) (w.archOf k).slices ((w.archOf k).fstat ||| fl) := by
  unfold Warp.raise
  cases w.trap <;> (try simp only [if_true]) <;>
    exact Warp.Near.updArch k w (fun a => { a with fstat := a.fstat ||| fl }) (fun a => ⟨rfl, rfl, rfl, rfl, rfl, rfl, rfl⟩)

theorem Warp.Near.regions (k : Nat) (w : Warp) (t : Tab Region) :
    Warp.Near k w { w with regions := t } (w.archOf k).slices (w.archOf k).fstat :=
  ⟨rfl, rfl, rfl, rfl, rfl, rfl, rfl, rfl, fun _ _ => rfl, fun _ => rfl, fun _ _ => rfl, fun _ => rfl⟩

theorem Warp.Near.updGang (k i : Nat) (w : Warp) (f : Gang → Gang) (h : ∀ g, (f g).sig = g.sig) :
    Warp.Near k w (w.updArch k (fun a => a.updGang i f)) (w.archOf k).slices (w.archOf k).fstat := by
  refine Warp.Near.updArch k w _ (fun a => ⟨rfl, rfl, rfl, rfl, rfl, rfl, ?_⟩)
  simp only [Arch.updGang, List.map_map]
  apply List.map_congr_left
  intro g _
  simp only [Function.comp]
  split
  · exact h g
  · rfl

theorem Warp.Near.updWay (k : Nat) (w : Warp) (f : Way → Way) (h : ∀ y, (f y).arch = y.arch) :
    Warp.Near k w (w.updWay k f) (w.archOf k).slices (w.archOf k).fstat := by
  have e := Warp.archOf_updWay w k f h
  refine ⟨by simp, by simp, by unfold Warp.updWay; split <;> simp_all, by rw [e], by rw [e], by rw [e], by rw [e], by rw [e],
    fun n l => ?_, fun n => ?_, fun n l => ?_, fun n => ?_⟩
  · unfold Warp.getV; rw [e, Warp.updWay_trap]
  · unfold Warp.getG; rw [e, Warp.updWay_trap]
  · unfold Warp.getP; rw [e, Warp.updWay_trap]
  · unfold Warp.getGp; rw [e, Warp.updWay_trap]

/-! ## Going on by one word -/

theorem updSlice_slice (a : Arch) (i j : Nat) (f : Slice → Slice) (hj : j < a.slices.length) :
    (a.updSlice i f).slice j = if j = i then f (a.slice j) else a.slice j := by
  unfold Arch.updSlice Arch.slice
  by_cases e : j = i
  · subst e; simp [List.getD, hj]
  · simp [List.getD, e, List.getElem?_modify, Ne.symm e]

theorem updSlice_length (a : Arch) (i : Nat) (f : Slice → Slice) :
    (a.updSlice i f).slices.length = a.slices.length := by simp [Arch.updSlice]

theorem updSlices_fold (L : List Nat) (a : Arch) (f : Slice → Slice) (hn : L.Nodup) :
    (L.foldl (fun a i => a.updSlice i f) a).slices.length = a.slices.length ∧
    ∀ j, j < a.slices.length →
      (L.foldl (fun a i => a.updSlice i f) a).slice j = if j ∈ L then f (a.slice j) else a.slice j := by
  induction L generalizing a with
  | nil => simp
  | cons i r ih =>
    obtain ⟨h1, h2⟩ := ih (a.updSlice i f) (List.nodup_cons.1 hn).2
    rw [updSlice_length] at h1 h2
    refine ⟨h1, fun j hj => ?_⟩
    rw [List.foldl_cons, h2 j hj, updSlice_slice _ _ _ _ hj]
    by_cases e : j = i
    · subst e; simp [(List.nodup_cons.1 hn).1]
    · simp [e]

theorem updSlices_other (L : List Nat) (a : Arch) (f : Slice → Slice) :
    ∃ sl, L.foldl (fun a i => a.updSlice i f) a = { a with slices := sl } := by
  induction L generalizing a with
  | nil => exact ⟨a.slices, rfl⟩
  | cons i r ih =>
    obtain ⟨sl, h⟩ := ih (a.updSlice i f)
    exact ⟨sl, h⟩

theorem mem_slicesOf {m : BitVec 8} {i : Nat} : i ∈ slicesOf m ↔ m.getLsbD i = true := by
  simp only [slicesOf, List.mem_filter, List.mem_range]
  constructor
  · exact fun h => h.2
  · intro h
    refine ⟨?_, h⟩
    by_contra hi
    rw [BitVec.getLsbD_of_ge _ _ (by omega)] at h
    cases h

theorem slicesOf_nodup (m : BitVec 8) : (slicesOf m).Nodup := List.Nodup.filter _ List.nodup_range

/-- Slices of a gang with PC + 12. -/
def Arch.goOn (i : Nat) (a : Arch) : Arch :=
  (slicesOf (a.gang i).slices).foldl (fun a i => a.updSlice i (fun x => { x with pc := x.pc + 12 })) a

theorem goOn_slices (a : Arch) (i : Nat) :
    (a.goOn i).slices.length = a.slices.length ∧
    ∀ j, j < a.slices.length → (a.goOn i).slice j =
      if (a.gang i).slices.getLsbD j then { a.slice j with pc := (a.slice j).pc + 12 } else a.slice j := by
  obtain ⟨h1, h2⟩ := updSlices_fold _ a (fun x => { x with pc := x.pc + 12 }) (slicesOf_nodup (a.gang i).slices)
  refine ⟨h1, fun j hj => ?_⟩
  have := h2 j hj
  simp only [mem_slicesOf] at this
  exact this

theorem gang_slices_congr (i : Nat) (xs ys : List Gang) (h : xs.map Gang.sig = ys.map Gang.sig) :
    ((xs.find? (fun g => g.slices.getLsbD i)).getD {}).slices =
      ((ys.find? (fun g => g.slices.getLsbD i)).getD {}).slices := by
  induction xs generalizing ys with
  | nil => cases ys with
    | nil => rfl
    | cons b r => simp at h
  | cons a r ih =>
    cases ys with
    | nil => simp at h
    | cons b q =>
      simp only [List.map_cons, List.cons.injEq] at h
      have hs := congrArg (fun p => p.1) h.1
      change a.slices = b.slices at hs
      by_cases e : b.slices.getLsbD i = true
      · rw [List.find?_cons_of_pos (by simpa [hs] using e), List.find?_cons_of_pos (by simpa using e)]
        exact hs
      · rw [List.find?_cons_of_neg (by simpa [hs] using e), List.find?_cons_of_neg (by simpa using e)]
        exact ih q h.2

theorem foldSlices_congr (L : List Nat) (a b : Arch) (f : Slice → Slice) (h : a.slices = b.slices) :
    (L.foldl (fun a i => a.updSlice i f) a).slices = (L.foldl (fun a i => a.updSlice i f) b).slices := by
  induction L generalizing a b with
  | nil => exact h
  | cons i r ih => exact ih _ _ (by simp [Arch.updSlice, h])

theorem goOn_congr (a b : Arch) (i : Nat) (hs : a.slices = b.slices) (hg : a.gangs.map Gang.sig = b.gangs.map Gang.sig) :
    (a.goOn i).slices = (b.goOn i).slices := by
  have e : (a.gang i).slices = (b.gang i).slices := gang_slices_congr i _ _ hg
  unfold Arch.goOn
  rw [e]
  exact foldSlices_congr _ _ _ _ hs

theorem Warp.Near.goOn (k i : Nat) (w : Warp) :
    Warp.Near k w (w.updArch k (Arch.goOn i)) ((w.archOf k).goOn i).slices (w.archOf k).fstat := by
  have key : ∀ a : Arch, ∃ sl, a.goOn i = { a with slices := sl } := fun a => updSlices_other _ a _
  have h := Warp.Near.updArch k w (Arch.goOn i) (fun a => by
    obtain ⟨sl, e⟩ := key a
    rw [e]; exact ⟨rfl, rfl, rfl, rfl, rfl, rfl, rfl⟩)
  have e : ((w.archOf k).goOn i).fstat = (w.archOf k).fstat := by
    obtain ⟨sl, e⟩ := key (w.archOf k); rw [e]
  rwa [e] at h

/-- `t` is `s` with the issuing warp changed to `x`. -/
def State.To (s t : State) (x : Warp) : Prop := ∃ f : Warp → Warp, t = s.updMy f ∧ f s.wWarp = x

theorem State.To.step {s t : State} {x : Warp} (h : State.To s t x) (g : Warp → Warp) :
    State.To s (t.updMy g) (g x) := by
  obtain ⟨f, e, hx⟩ := h
  exact ⟨fun w => g (f w), by rw [e, State.updMy_updMy], by rw [← hx]⟩

theorem State.To.who {s t : State} {x : Warp} (h : State.To s t x) : t.who = s.who := by
  obtain ⟨f, e, _⟩ := h; rw [e]; rfl

theorem State.To.wWarp {s t : State} {x : Warp} (h : State.To s t x) (hp : Present s) : t.wWarp = x := by
  obtain ⟨f, e, hx⟩ := h; rw [e, State.wWarp_updMy s f hp, hx]

theorem State.To.onlyWarp {s t : State} {x : Warp} (h : State.To s t x) : OnlyWarp s t.finish := by
  obtain ⟨f, e, _⟩ := h
  subst e
  exact ⟨rfl, fun u hu => State.find_updMy_ne s f hu⟩

/-- A state whose issuing warp has new slices, flags and results, and nothing else that is no chain or tag. -/
theorem wrote_of {s t : State} {x y : Warp} {c : Common} {d : Dst} {wide : Bool} {r : Nat → Res Double}
    {ty : Ty} (hp : Present s) (hd : dstOk c.u (some ty) d = true) (ht : State.To s t y) {fs : Word}
    (h1 : Warp.Near s.who.way s.wWarp x s.arch.slices fs)
    (h2 : Warp.Near s.who.way
      (((lanesOf (s.calcLanes c)).foldl (fun w l => w.put s.who.way true l d wide (r l).val) x).cleanDst
        s.who.way true d wide (s.calcLanes c)) y (s.arch.goOn s.who.slice).slices fs)
    (hfs : fs = (lanesOf (s.calcLanes c)).foldl (fun fl l => fl ||| (r l).fl) s.arch.fstat) :
    Wrote s t.finish c d wide r := by
  have hw : t.finish.wWarp = y := ht.wWarp hp
  have hwho : t.finish.who = s.who := ht.who
  have harch : t.finish.arch = y.archOf s.who.way := by unfold State.arch; rw [hw, hwho]
  let L := lanesOf (s.calcLanes c)
  let z := L.foldl (fun w l => w.put s.who.way true l d wide (r l).val) x
  have k1 : Warp.Kept s.who.way x z := Warp.Kept.putAll _ L x d wide _
  have k2 := Warp.Kept.cleanDst s.who.way z d wide (s.calcLanes c)
  have k := k1.trans k2
  have hL : ∀ l ∈ L, l < 32 := fun l hl => lt_of_mem_lanesOf hl
  have mem : ∀ l, l < 32 → (l ∈ L ↔ (s.calcLanes c).getLsbD l = true) := fun l hl => by
    simp [L, mem_lanesOf, hl]
  have clean := cleanDst_reads s.who.way z d wide (s.calcLanes c)
  have hU : c.u = true → L = [s.uLane] := fun hu => by
    simp only [L, State.calcLanes, hu, if_true, lanesOf_maskOf_one (uLane_lt s)]
  refine ⟨⟨ht.onlyWarp, ?_, ?_, ?_, ?_, ?_, ?_⟩, ⟨?_, ?_⟩, ?_, ?_, ?_, ?_, ?_⟩
  · rw [hw, h2.rest, k.rest, h1.rest]
  · rw [hw, h2.trap, k.trap, h1.trap]
  · rw [hw, h2.loop, k.loop, h1.loop]
  · rw [harch, h2.sfmask, k.sfmask, h1.sfmask]; rfl
  · rw [harch, h2.exited, k.exited, h1.exited]; rfl
  · have := (h2.gangs.trans (congrArg _ k.gangs)).trans h1.gangs
    rw [harch]; exact this
  · rw [harch, h2.slices]; exact (goOn_slices s.arch s.who.slice).1
  · intro i hi
    have e := (goOn_slices s.arch s.who.slice).2 i hi
    have e2 : t.finish.arch.slice i = (s.arch.goOn s.who.slice).slice i := by
      unfold Arch.slice; rw [harch, h2.slices]
    rw [e2, e]; rfl
  · intro n l hl
    have e : vreg t.finish n l = y.getV s.who.way true n l := by unfold vreg; rw [hw, hwho]
    rw [e, h2.v, (clean n l).1, getV_putAll _ _ _ _ _ _ hL hl, ]
    unfold newV
    cases d with
    | v m =>
      simp only [mem l hl, h1.v]
      by_cases a : (s.calcLanes c).getLsbD l = true <;> by_cases b : n = m.val <;> by_cases e : wide = true <;>
        by_cases g : n = m.val + 1 <;> simp [a, b, e, g, vreg]
    | _ => exact h1.v n l
  · intro n
    have e : greg t.finish n = y.getG s.who.way true n := by unfold greg; rw [hw, hwho]
    rw [e, h2.g, (clean n 0).2.1]
    unfold newG
    cases d with
    | g m =>
      have hu : c.u = true := by simp only [dstOk, Bool.and_eq_true] at hd; exact hd.1
      change (L.foldl _ x).getG _ _ _ = _
      rw [hU hu, List.foldl_cons, List.foldl_nil, getG_put, h1.g]
      by_cases a : n = m.val <;> by_cases b : n = m.val + 1 <;> cases wide <;> simp [a, b, greg]
    | v m => exact (getG_putAll_ne _ _ _ _ _ _ (fun m h => by cases h)).trans (h1.g n)
    | p m => exact (getG_putAll_ne _ _ _ _ _ _ (fun m h => by cases h)).trans (h1.g n)
    | gp m => exact (getG_putAll_ne _ _ _ _ _ _ (fun m h => by cases h)).trans (h1.g n)
    | discard => exact (getG_putAll_ne _ _ _ _ _ _ (fun m h => by cases h)).trans (h1.g n)
  · intro n l hn hl
    have e : preg t.finish n l = y.getP s.who.way true n l := by unfold preg; rw [hw, hwho]
    rw [e, h2.p, (clean n l).2.2.1, getP_putAll _ _ _ _ _ _ _ hn]
    unfold newP
    cases d with
    | p m =>
      simp only [mem l hl, h1.p]
      by_cases a : (s.calcLanes c).getLsbD l = true <;> by_cases b : n = m.val <;> by_cases e : m.val = 0 <;>
        simp [a, b, e, preg]
    | _ => exact h1.p n l
  · intro n hn
    have e : gpreg t.finish n = y.getGp s.who.way true n := by unfold gpreg; rw [hw, hwho]
    rw [e, h2.gp, (clean n 0).2.2.2]
    unfold newGp
    cases d with
    | gp m =>
      have hu : c.u = true := by simp only [dstOk, Bool.and_eq_true] at hd; exact hd.1
      change (L.foldl _ x).getGp _ _ _ = _
      rw [hU hu, List.foldl_cons, List.foldl_nil, getGp_put _ _ _ _ _ _ hn, h1.gp]
      by_cases a : n = m.val <;> by_cases b : m.val = 0 <;> simp [a, b, gpreg]
    | v m => exact (getGp_putAll_ne _ _ _ _ _ _ hn (fun m h => by cases h)).trans (h1.gp n)
    | p m => exact (getGp_putAll_ne _ _ _ _ _ _ hn (fun m h => by cases h)).trans (h1.gp n)
    | g m => exact (getGp_putAll_ne _ _ _ _ _ _ hn (fun m h => by cases h)).trans (h1.gp n)
    | discard => exact (getGp_putAll_ne _ _ _ _ _ _ hn (fun m h => by cases h)).trans (h1.gp n)
  · rw [harch, h2.fstat, hfs]

theorem State.To.self (s : State) : State.To s (s.updMy (fun w => w)) s.wWarp := ⟨fun w => w, rfl, rfl⟩

/-- A step that keeps registers, slices and flags, in front of what follows. -/
theorem near_chain {k : Nat} {w x : Warp} {sl : List Slice} {fs : Word}
    (a : Warp.Near k w x sl fs) {y : Warp}
    (h : Warp.Near k x y (x.archOf k).slices (x.archOf k).fstat) : Warp.Near k w y sl fs := by
  have := a.trans h
  rwa [a.slices, a.fstat] at this

theorem State.updGang_eq (s : State) (f : Gang → Gang) :
    s.updGang f = s.updMy (fun w => w.updArch s.who.way (fun a => a.updGang s.who.slice f)) := rfl

theorem State.advance_eq (s : State) :
    s.advance = s.updMy (fun w => w.updArch s.who.way (Arch.goOn s.who.slice)) := rfl

/-- The whole effect of a register instruction. -/
theorem runA_wrote {s : State} (hp : Present s) (i : Instr) (f : OpA) (r : RoleA) {ty : Ty} (hr : r.d = some ty)
    (hd : dstOk f.com.u (some ty) f.dst = true) (fn : Nat → Res Double) (sl : BitVec 8) :
    Wrote s ((s.runA i f r fn).clearLate sl).finish f.com f.dst ty.wide fn := by
  let k := s.who.way
  let fl := (lanesOf (s.calcLanes f.com)).foldl (fun fl l => fl ||| (fn l).fl) 0
  let fs := s.arch.fstat ||| fl
  have hfs : fs = (lanesOf (s.calcLanes f.com)).foldl (fun fl l => fl ||| (fn l).fl) s.arch.fstat := by
    have gen : ∀ (L : List Nat) (a b : Word), a ||| L.foldl (fun fl l => fl ||| (fn l).fl) b =
        L.foldl (fun fl l => fl ||| (fn l).fl) (a ||| b) := by
      intro L
      induction L with
      | nil => intro a b; rfl
      | cons c q ih => intro a b; rw [List.foldl_cons, ih, List.foldl_cons, BitVec.or_assoc]
    have := gen (lanesOf (s.calcLanes f.com)) s.arch.fstat 0
    simpa [fs, fl] using this
  -- raise
  have t1 : State.To s (s.raise fl) (s.wWarp.raise k true fl) := ⟨fun w => w.raise k true fl, rfl, rfl⟩
  have n1 : Warp.Near k s.wWarp (s.wWarp.raise k true fl) s.arch.slices fs := Warp.Near.raise k s.wWarp fl
  -- tags
  obtain ⟨T1, x1, e1, u1, m1⟩ : ∃ T x, T = (if (!s.untracked) = true then
      (s.raise fl).updRegions (s.calcLanes f.com) (fun l q => q.stepA i f (if ty.wide then 2 else 1) s.member
        (match r.a with | some t => s.src l t f.a | none => 0) (match r.b with | some t => s.src l t f.b | none => 0))
      else s.raise fl) ∧ State.To s T x ∧ Warp.Near k s.wWarp x s.arch.slices fs := by
    by_cases hu : (!s.untracked) = true
    · rw [if_pos hu]
      exact ⟨_, _, rfl, t1.step _, near_chain n1 (Warp.Near.regions k _ _)⟩
    · rw [if_neg hu]; exact ⟨_, _, rfl, t1, n1⟩
  obtain ⟨T2, x2, e2, t2, n2⟩ : ∃ T x, T = (if (!s.untracked && chainEligible i) = true then
      T1.updRegions (s.active &&& ~~~ s.calcLanes f.com) (fun _ q => q.chainStep s.member f.hold f.hslot none none)
      else T1) ∧ State.To s T x ∧ Warp.Near k s.wWarp x s.arch.slices fs := by
    by_cases hu : (!s.untracked && chainEligible i) = true
    · rw [if_pos hu]
      exact ⟨_, _, rfl, u1.step _, near_chain m1 (Warp.Near.regions k _ _)⟩
    · rw [if_neg hu]; exact ⟨_, _, rfl, u1, m1⟩
  -- results
  have w2 : T2.who = s.who := t2.who
  let put : Warp → Warp := fun w =>
    ((lanesOf (s.calcLanes f.com)).foldl (fun w l => w.put T2.who.way true l f.dst ty.wide (fn l).val) w).cleanDst
      T2.who.way true f.dst ty.wide (s.calcLanes f.com)
  have t3 : State.To s (T2.putLanes (s.calcLanes f.com) f.dst ty.wide (fun l => (fn l).val)) (put x2) := t2.step put
  let z := put x2
  have n3 : Warp.Near k z z (z.archOf k).slices (z.archOf k).fstat := Warp.Near.refl k z
  -- bypass
  obtain ⟨T4, x4, e4, t4, n4⟩ : ∃ T x, T = (if chainEligible i then
      (T2.putLanes (s.calcLanes f.com) f.dst ty.wide (fun l => (fn l).val)).bypass
        (laneTab (s.calcLanes f.com) (fun l => (fn l).val))
      else T2.putLanes (s.calcLanes f.com) f.dst ty.wide (fun l => (fn l).val)) ∧ State.To s T x ∧
      Warp.Near k z x (z.archOf k).slices (z.archOf k).fstat := by
    by_cases hc : chainEligible i = true
    · rw [if_pos hc]
      refine ⟨_, _, rfl, t3.step _, near_chain n3 ?_⟩
      have := t3.who
      simp only [this]
      exact Warp.Near.updGang k _ _ _ (fun g => rfl)
    · rw [if_neg hc]; exact ⟨_, _, rfl, t3, n3⟩
  -- capture
  obtain ⟨T5, x5, e5, t5, n5⟩ : ∃ T x, T = (match heldSrc f r with
      | some (v, ty) => T4.updGang (fun g =>
          { g with chain := g.chain.latch f.hslot.val (laneTab (s.calcLanes f.com) (fun l => s.src l ty v)) })
      | none => T4) ∧ State.To s T x ∧ Warp.Near k z x (z.archOf k).slices (z.archOf k).fstat := by
    cases hh : heldSrc f r with
    | none => exact ⟨_, _, rfl, t4, n4⟩
    | some q =>
      refine ⟨_, _, rfl, t4.step _, near_chain n4 ?_⟩
      have := t4.who
      simp only [this]
      exact Warp.Near.updGang k _ _ _ (fun g => rfl)
  -- the end
  have t6 : State.To s T5.advance (x5.updArch k (Arch.goOn s.who.slice)) := by
    have := t5.step (fun w => w.updArch T5.who.way (Arch.goOn T5.who.slice))
    rw [← State.advance_eq] at this
    rwa [t5.who] at this
  have t7 : State.To s (T5.advance.clearLate sl)
      ((x5.updArch k (Arch.goOn s.who.slice)).updWay k (fun y => { y with late := y.late &&& ~~~ sl })) := by
    have := t6.step (fun w => w.updWay T5.advance.who.way (fun y => { y with late := y.late &&& ~~~ sl }))
    rw [t6.who] at this
    have e : T5.advance.updMy (fun w => w.updWay s.who.way (fun y => { y with late := y.late &&& ~~~ sl })) =
        T5.advance.clearLate sl := by
      unfold State.clearLate State.updWay; rw [t6.who]
    rwa [e] at this
  have hrun : s.runA i f r fn = T5.advance := by
    unfold State.runA
    simp only [hr, Option.isSome_some, if_true, e5, e4, e2, e1, fl] <;> rfl
  rw [hrun]
  have kz : Warp.Kept k x2 z := by
    have e : T2.who.way = k := by rw [w2]
    simp only [z, put, e]
    exact (Warp.Kept.putAll k _ x2 _ _ _).trans (Warp.Kept.cleanDst k _ _ _ _)
  have sz : (z.archOf k).slices = s.arch.slices := kz.slices.trans n2.slices
  have fz : (z.archOf k).fstat = fs := kz.fstat.trans n2.fstat
  have gz : (z.archOf k).gangs.map Gang.sig = s.arch.gangs.map Gang.sig := by
    rw [kz.gangs]; exact n2.gangs
  have n7 : Warp.Near k z (x5.updArch k (Arch.goOn s.who.slice)) (s.arch.goOn s.who.slice).slices fs := by
    have e := n5.trans (Warp.Near.goOn k s.who.slice x5)
    rw [n5.fstat, fz, goOn_congr (x5.archOf k) s.arch s.who.slice (n5.slices.trans sz) (n5.gangs.trans gz)] at e
    exact e
  have n8 := near_chain n7 (Warp.Near.updWay k _ (fun y => { y with late := y.late &&& ~~~ sl }) (fun y => rfl))
  refine wrote_of hp hd t7 n2 ?_ hfs
  have e : T2.who.way = s.who.way := by rw [w2]
  simp only [z, put, e] at n8
  exact n8

/-- What a word waits for before its own checks is among what it names (R264). -/
theorem usesFirst_sub {i : Instr} {u : Uses} (hu : usesOf i = some u) :
    (usesFirst i u).com = u.com ∧ (∀ r ∈ (usesFirst i u).rd, r ∈ u.rd) ∧ ∀ r ∈ (usesFirst i u).wr, r ∈ u.wr := by
  unfold usesFirst
  split
  all_goals first
    | exact ⟨rfl, fun _ h => h, fun _ h => h⟩
    | (simp only [usesOf, Option.some.injEq] at hu
       subst hu
       refine ⟨rfl, fun r h => ?_, fun r h => ?_⟩
       · simp only [usesT, List.mem_append] at h ⊢; tauto
       · revert h
         simp only [usesT]
         cases OpT.tok _ <;> simp [Dst.regsFrom])

/-- A word whose registers are all there does not wait before its own checks. -/
theorem waits_first {s : State} {i : Instr} {u : Uses} (hu : usesOf i = some u) (h : s.waits? u = false) :
    s.waits? (usesFirst i u) = false := by
  obtain ⟨hc, hr, hw⟩ := usesFirst_sub hu
  unfold State.waits? at h ⊢
  rw [hc]
  simp only [Bool.or_eq_false_iff, List.any_eq_false, List.mem_append] at h ⊢
  exact ⟨h.1, fun r m => h.2 r (m.imp (hr r) (hw r))⟩

/-- A word that issues ends as its effect does. -/
theorem issue_issues {s : State} {i : Instr} {u : Uses} (hu : usesOf i = some u) (h : Issues s u) (eff : State → Eff) :
    s.issue i eff = s.ended (eff (s.begin u)) := by
  obtain ⟨hw, hm⟩ := h
  unfold State.issue
  simp only [hu, hw, Bool.not_true]
  cases e : s.member with
  | true => simp
  | false =>
    rcases hm with hm | ⟨h1, h2, h3, h4⟩
    · rw [e] at hm; cases hm
    · simp [h1, h2, waits_first hu h3, h4]

/-- What a state that reads alike is left as, the first is left as. -/
theorem Wrote.of_alike {s b t : State} {c : Common} {d : Dst} {wide : Bool} {r : Nat → Res Double}
    (h : State.Alike s b) (w : Wrote b t c d wide r) : Wrote s t c d wide r := by
  have hv := h.vreg; have hg := h.greg; have hp := h.preg; have hq := h.gpreg
  refine ⟨⟨⟨?_, fun u hu => ?_⟩, ?_, ?_, ?_, ?_, ?_, ?_⟩, ⟨?_, ?_⟩, ?_, ?_, ?_, ?_, ?_⟩
  · rw [w.frame, h.frame]
  · rw [w.others u (h.who ▸ hu), h.others u hu]
  · exact w.rest.trans h.warp.rest
  · refine w.trap.trans ?_
    have := congrArg (Option.map savedPart) h.warp.trap
    simp only [Option.map_map] at this
    exact this
  · exact w.loop.trans h.warp.loop
  · have e := congrArg Arch.sfmask h.archEq; exact w.sfmask.trans e
  · have e := congrArg Arch.exited h.archEq; exact w.exited.trans e
  · refine w.gangs.trans ?_
    have := congrArg (List.map (fun g : Gang => (g.slices, g.park, g.cyc, g.fence))) h.warp.gangs
    simp only [List.map_map] at this
    unfold State.arch; rw [h.who]
    exact this
  · rw [w.length, h.slicesEq]
  · intro i hi
    rw [w.slices i (by rw [h.slicesEq]; exact hi), h.gangSlices, h.slice]
  · intro n l hl
    rw [w.vregs n l hl, h.calcLanes]
    unfold newV; simp only [hv]
  · intro n
    rw [w.gregs n, h.uLane]
    unfold newG; simp only [hg]
  · intro n l hn hl
    rw [w.pregs n l hn hl, h.calcLanes]
    unfold newP; simp only [hp]
  · intro n hn
    rw [w.gps n hn, h.uLane]
    unfold newGp; simp only [hq]
  · have e := congrArg Arch.fstat h.archEq
    rw [w.flags, h.calcLanes]
    change b.arch.fstat = s.arch.fstat at e
    rw [e]

/-- A register instruction that issues completes, its results computed from the state it issues in. -/
theorem alu_wrote {s : State} {i : Instr} {f : OpA} {r : RoleA} {u : Uses} {ty : Ty} (hp : Present s)
    (hi : i.roleA = some (f, r)) (hr : r.d = some ty) (hd : dstOk f.com.u (some ty) f.dst = true)
    (hu : usesOf i = some u) (h : Issues s u) (fn : OpA → State → Nat → Res Double)
    (hfn : ∀ l, fn f (s.begin u) l = fn f s l) :
    Wrote s (s.alu i fn) f.com f.dst ty.wide (fn f s) := by
  unfold State.alu
  simp only [hi]
  rw [issue_issues hu h]
  obtain ⟨a, p⟩ := alike_begin s u hp
  have w := runA_wrote p i f r hr hd (fn f (s.begin u)) s.gang.slices
  have e : fn f (s.begin u) = fn f s := funext hfn
  rw [e] at w
  have := Wrote.of_alike a w
  simp only [State.ended]
  rw [e]
  exact this

end Sys2Proof.Machine
end

