-- ==== Sys2Proof/Laws/Completes.lean ====
section
/-! SUPPORT. From the shared shapes of `exec` to whole effects: register instructions, and words whose effect
is a named operation. -/

namespace Sys2Proof.Machine
open Sys2Proof.Safety

theorem dstOk_of_wfA {f : OpA} {r : RoleA} (h : wfA f r = true) : dstOk f.com.u r.d f.dst = true := by
  unfold wfA at h; simp only [Bool.and_eq_true] at h; exact h.1.1.1.1.1.1.1.1.2

theorem types_of_wfA {f : OpA} {r : RoleA} (h : wfA f r = true) : f.ty ∈ r.types := by
  unfold wfA at h; simp only [Bool.and_eq_true] at h; exact List.contains_iff_mem.1 h.1.1.1.1.2

theorem opx_of_wfA {f : OpA} {r : RoleA} (h : wfA f r = true) : r.opx = true := by
  unfold wfA at h; simp only [Bool.and_eq_true] at h; exact h.1.1.2

/-- A register instruction whose result depends only on what counting leaves as it was. -/
theorem yields_of {i : Instr} {f : OpA} {r : RoleA} {ty : Ty} {fn : OpA → State → Nat → Res Double}
    {res : State → Nat → Res Double} (he : ∀ s, exec i s = .next (s.alu i fn)) (hi : i.roleA = some (f, r))
    (hr : r.d = some ty) (hw : i.wf = wfRole i) (hfn : ∀ s b, State.Alike s b → ∀ l, fn f b l = fn f s l)
    (hv : wfA f r = true → ∀ s l, fn f s l = res s l) : Yields i f ty res := by
  intro s ⟨wf, hp, u, hu, h⟩
  have w : wfA f r = true := by rw [hw] at wf; simpa [wfRole, hi] using wf
  have d := dstOk_of_wfA w
  rw [hr] at d
  obtain ⟨a, _⟩ := alike_begin s u hp
  refine ⟨_, he s, ?_⟩
  have := alu_wrote hp hi hr d hu h fn (hfn s _ a)
  have e : fn f s = res s := funext (hv w s)
  rwa [e] at this

/-- A word whose effect is a named operation. -/
theorem acts_of {i : Instr} {cond : State → Prop} {g : State → State} {eff : State → Eff}
    (he : ∀ s, exec i s = .next (s.issue i eff)) (h : ∀ b, i.wf = true → cond b → eff b = .done (g b)) :
    Acts i cond g := by
  intro s ⟨wf, _, u, hu, h1⟩ hc
  have e : begun i s = s.begin u := by unfold begun; rw [hu]
  rw [he, issue_issues hu h1, ← e, h _ wf hc]

/-- A word that traps. -/
theorem traps_of {i : Instr} {cond : State → Prop} {t : State → Trap} {eff : State → Eff}
    (he : ∀ s, exec i s = .next (s.issue i eff)) (h : ∀ b, i.wf = true → cond b → eff b = .trap (t b)) :
    Traps i cond t := by
  intro s ⟨wf, _, u, hu, h1⟩ hc
  have e : begun i s = s.begin u := by unfold begun; rw [hu]
  rw [he, issue_issues hu h1, ← e, h _ wf hc]; rfl

end Sys2Proof.Machine
end

