-- ==== Sys2Proof/Laws/Control.lean ====
section
/-! SUPPORT. What the shared operations of control instructions answer. -/

namespace Sys2Proof.Machine
open Sys2Proof.Safety

theorem failing_none {c k : Nat} {as : List (Nat × Nat)} {bad : Nat × Nat → Bool} (h : ∀ p ∈ as, bad p = false) :
    failing c k as bad = none := by
  unfold failing
  rw [List.filter_eq_nil_iff.2 (fun p hp => by simp [h p hp])]

/-- Targets that may be branched to pass the checks of R70. -/
theorem checkTargets_none {b : State} {ls : Lanes} {t : Nat → Double} (h : targetsOk b ls t) :
    b.checkTargets ((lanesOf ls).map (fun l => (l, t l))) = none := by
  have key : ∀ (bad : Nat × Nat → Bool), (∀ l ∈ lanesOf ls, bad (l, (t l).toNat) = false) → ∀ c k,
      failing c k (((lanesOf ls).map (fun l => (l, t l))).map (fun p => (p.1, p.2.toNat))) bad = none := by
    intro bad hb c k
    apply failing_none
    intro p hp
    simp only [List.map_map, List.mem_map, Function.comp] at hp
    obtain ⟨l, hl, rfl⟩ := hp
    exact hb l hl
  unfold State.checkTargets
  simp only
  rw [key _ (fun l hl => by simp [alignedTo, (h l hl).1]), key _ (fun l hl => by rcases (h l hl).2 with e | ⟨e, _⟩ <;> simp [e]),
    key _ (fun l hl => by rcases (h l hl).2 with e | ⟨e, e'⟩ <;> simp [e] <;> simp_all)]
  rfl

/-- A move that every slice of the gang can make. -/
theorem moveAll_done {b : State} {E : Lanes} {f : Nat → Move} {F : Nat → Slice → BitVec 4 → Slice}
    (h : ∀ i ∈ slicesOf b.gang.slices, f i (b.arch.slice i) (sliceBits E i) = .ok (F i (b.arch.slice i) (sliceBits E i)))
    (hr : roomFor b E F) : b.moveAll E f = .done (movedBy b E F) := by
  have hm : ∀ X : Nat → Nat × Except Nat Slice,
      (∀ i ∈ slicesOf b.gang.slices, X i = (i, .ok (F i (b.arch.slice i) (sliceBits E i)))) →
      (slicesOf b.gang.slices).map X =
        (slicesOf b.gang.slices).map (fun i => (i, .ok (F i (b.arch.slice i) (sliceBits E i)))) :=
    fun X hX => List.map_congr_left hX
  have hc : ∀ (L : List Nat) (m : Lanes), L.foldl (fun m _ => m) m = m := by
    intro L; induction L with
    | nil => intro m; rfl
    | cons a r ih => exact ih
  unfold State.moveAll
  simp only
  rw [hm _ (fun i hi => by rw [h i hi]; simp only [Nat.not_lt.2 (hr i hi), if_false])]
  simp only [List.foldl_map, hc, ne_eq, not_true_eq_false, if_false]
  unfold movedBy
  generalize slicesOf b.gang.slices = L
  congr 2
  induction L with
  | nil => rfl
  | cons a r ih => simp only [List.map_cons, List.filterMap_cons]; rw [ih]

theorem notGuessing_eq {b : State} {eff : State → Eff} (h : b.guessing = false) : b.notGuessing eff = eff b := by
  simp [State.notGuessing, h]

theorem noRegion_eq {b : State} {c : Common} {eff : State → Eff} (h : outsideRegions b c) :
    b.noRegion c eff = eff b := by
  unfold outsideRegions at h
  simp [State.noRegion, h]

theorem plain_eq {b : State} {c : Common} {eff : State → Eff} (h : plainCode b c) :
    b.notGuessing (fun b => b.noRegion c eff) = eff b := by
  rw [notGuessing_eq h.1, noRegion_eq h.2]

end Sys2Proof.Machine
end

