-- ==== Sys2Proof/Laws/Homes.lean ====
section
/-! SUPPORT. The queue of a line at its home: what the machine tests, in the words of the statements (R134, R188,
R189). -/

namespace Sys2Proof.Machine
open Sys2Proof.Safety

/-- Every die can give the line up. -/
theorem answerable_iff {s : State} {l : Nat} {inv : Bool} : answerable s l inv ↔ s.diesReady l inv = true := by
  unfold answerable State.diesReady
  simp only [Bool.and_eq_true, Bool.not_eq_true', List.any_eq_false, List.all_eq_true, List.mem_range, Bool.or_eq_true, beq_iff_eq]
  constructor
  · intro ⟨h1, h2⟩
    refine ⟨fun m hm hc => by have := h1 m hm hc.1; tauto, fun d hd => ?_⟩
    have := h2 d hd
    rcases this with h | h | h | h | ⟨h, h', h''⟩ <;> simp [*]
    cases inv <;> simp_all
  · intro ⟨h1, h2⟩
    refine ⟨fun m hm hl => by have := h1 m hm; tauto, fun d hd => ?_⟩
    have := h2 d hd
    simp only [Option.isNone_iff_eq_none] at this
    rcases this with (((h | h) | h) | h) | ⟨⟨a, b⟩, c⟩
    · exact .inl h
    · exact .inr (.inl h)
    · exact .inr (.inr (.inl h))
    · exact .inr (.inr (.inr (.inl h)))
    · exact .inr (.inr (.inr (.inr ⟨a, b, fun e => by simpa [e] using c⟩)))

/-- Nothing stands ahead in the queue. -/
theorem headOfLine_iff {s : State} {l k : Nat} : headOfLine s l k ↔ s.homeAhead l k = false := by
  unfold headOfLine State.homeAhead
  simp only [Bool.or_eq_false_iff, List.any_eq_false, Bool.and_eq_true, beq_iff_eq, decide_eq_true_eq, Bool.not_eq_true',
    List.contains_iff_mem]
  constructor
  · intro ⟨h1, h2, h3, h4⟩
    refine ⟨⟨⟨fun m hm h => absurd (h1 m hm h.1.1 h.1.2) (Nat.not_le.2 h.2), fun p hp h => absurd (h2 p hp h.1) (Nat.not_le.2 h.2)⟩,
      fun w hw h => absurd (h3 w hw h.1.1.1.1 h.1.1.1.2 h.1.1.2 h.2) (Nat.not_le.2 h.1.2)⟩, fun o ho h => ?_⟩
    cases e : o.home with
    | none => simp [e] at h
    | some p =>
      rw [e] at h
      simp only [Bool.and_eq_true, beq_iff_eq, decide_eq_true_eq] at h
      exact absurd (h4 o ho p.2 (by rw [e, ← h.1])) (Nat.not_le.2 h.2)
  · intro ⟨⟨⟨h1, h2⟩, h3⟩, h4⟩
    refine ⟨fun m hm a b => Nat.not_lt.1 fun h => h1 m hm ⟨⟨a, b⟩, h⟩, fun p hp a => Nat.not_lt.1 fun h => h2 p hp ⟨a, h⟩,
      fun w hw a b c d => Nat.not_lt.1 fun h => h3 w hw ⟨⟨⟨⟨a, b⟩, c⟩, h⟩, d⟩, fun o ho t e => Nat.not_lt.1 fun h => h4 o ho ?_⟩
    simp [e, h]

/-- The bank unit may change the line. -/
theorem bankFree_recall {s : State} {l : Nat} (h : BankFree s l) : s.canRecall l = true ∧ (s.dirE l).hostc = false :=
  ⟨by simp [State.canRecall, h.idle, answerable_iff.1 h.dies], h.host⟩

theorem homeTurn_iff {s : State} {l k : Nat} : HomeTurn s l k ↔ s.homeTurn l k = true := by
  simp only [State.homeTurn, Bool.and_eq_true, Bool.not_eq_true']
  refine ⟨fun h => ⟨bankFree_recall h.toBankFree, headOfLine_iff.1 h.head⟩, fun ⟨⟨h1, h2⟩, h3⟩ => ?_⟩
  simp only [State.canRecall, Bool.and_eq_true, beq_iff_eq] at h1
  exact ⟨⟨h1.1, answerable_iff.2 h1.2, h2⟩, headOfLine_iff.2 h3⟩

/-- A request at the lane store or at a receiver's home goes at once; one whose turn it is goes, and leaves the queue. -/
theorem atHome_runs {s t : State} {row : String} {o : EngOp} {ta : Nat} {go : State → State} (h : AtHome s o ta t) :
    s.atHome row o ta go = .next (go t) := by
  unfold State.atHome
  rcases h with ⟨h | h, rfl⟩ | ⟨h1, h2, rfl, k, h3, h4⟩
  · simp [h]
  · simp [h]
  · have := homeTurn_iff.1 h4
    simp [h1, h2, h3, this, onlyIf]

/-- A request with no place in the queue of its line takes one. -/
theorem atHome_joins {s : State} {row : String} {o : EngOp} {ta : Nat} {go : State → State} (h : Joins o ta) :
    s.atHome row o ta go = .next (joined s o ta) := by
  obtain ⟨h1, h2, h3⟩ := h
  unfold State.atHome joined
  cases ho : o.home with
  | none => simp [h1, h2]
  | some p => simp [h1, h2, h3 p.1 p.2 (by rw [ho])]

end Sys2Proof.Machine
end

