-- ==== Sys2Proof/Laws/Keep.lean ====
section
/-! SUPPORT. What every operation keeps: the supply, and the canonical form of memory where it is asked for. -/

namespace Sys2Proof.Machine

/-- The part is supplied, and where `b` asks for it its memory is canonical. -/
def Ok (b : Bool) (s : State) : Prop := s.plat.supply = true ∧ (b = true → Tab.canon (0 : Byte) s.mem = true)

/-- The same of an outcome, which is no fault. -/
def OkO (b : Bool) : Out → Prop
  | .next t => Ok b t
  | .fault _ => False
  | .refused _ => True

def OkF (b : Bool) : Eff → Prop
  | .done t => Ok b t
  | .trapFrom t _ => Ok b t
  | .waitFrom t => Ok b t
  | _ => True

def OkE {ε α : Type} (b : Bool) (p : α → State) : Except ε α → Prop
  | .ok x => Ok b (p x)
  | .error _ => True

def OkS {α : Type} (b : Bool) (p : α → State) : Option α → Prop
  | some x => Ok b (p x)
  | none => True

theorem okO_next {b : Bool} {t : State} (h : Ok b t) : OkO b (.next t) := h
theorem okO_refused {b : Bool} {r : Refusal} : OkO b (.refused r) := trivial
theorem okO_no {b : Bool} {n : String} : OkO b (no n) := trivial
theorem okO_onlyIf {b c : Bool} {n : String} {t : State} (h : Ok b t) : OkO b (onlyIf n c t) := by
  unfold onlyIf; split; exacts [h, trivial]
theorem okF_done {b : Bool} {t : State} (h : Ok b t) : OkF b (.done t) := h
theorem okF_trapFrom {b : Bool} {t : State} {x : Trap} (h : Ok b t) : OkF b (.trapFrom t x) := h
theorem okF_trap {b : Bool} {x : Trap} : OkF b (.trap x) := trivial
theorem okF_waitFrom {b : Bool} {t : State} (h : Ok b t) : OkF b (.waitFrom t) := h
theorem okF_wait {b : Bool} : OkF b .wait := trivial
theorem okF_oldest {b : Bool} : OkF b .oldest := trivial
theorem okF_parked {b : Bool} {p : Park} : OkF b (.parked p) := trivial
theorem okE_ok {ε α : Type} {b : Bool} {p : α → State} {x : α} (h : Ok b (p x)) : OkE (ε := ε) b p (.ok x) := h
theorem okE_error {ε α : Type} {b : Bool} {p : α → State} {e : ε} : OkE b p (.error e) := trivial
theorem okS_some {α : Type} {b : Bool} {p : α → State} {x : α} (h : Ok b (p x)) : OkS b p (some x) := h
theorem okS_none {α : Type} {b : Bool} {p : α → State} : OkS b p none := trivial

theorem okS_getD {b : Bool} {x : Option State} {s : State} (hx : OkS b (fun t => t) x) (h : Ok b s) : Ok b (x.getD s) := by
  cases x; exacts [h, hx]

/-- A change of neither memory nor the platform. -/
theorem ok_mk {b : Bool} {t : State} {clk who issuing agenda pois warps teams cores dies net dir reqs writes ops waits
    tables trees tenants prgroups nodes insts flips link llc logs} :
    Ok b ⟨clk, who, issuing, agenda, t.mem, pois, warps, teams, cores, dies, net, dir, reqs, writes, ops, waits,
      tables, trees, tenants, prgroups, nodes, insts, flips, link, llc, logs, t.plat⟩ ↔ Ok b t := Iff.rfl

/-- A change of the platform that leaves the supply. -/
theorem ok_mkp {b : Bool} {t : State} {clk who issuing agenda pois warps teams cores dies net dir reqs writes ops waits
    tables trees tenants prgroups nodes insts flips link llc logs bstage ready fail absCores absLayers absLanes retire lifeidx life
    meas therm throttled trip retired cold warm trust} :
    Ok b ⟨clk, who, issuing, agenda, t.mem, pois, warps, teams, cores, dies, net, dir, reqs, writes, ops, waits,
      tables, trees, tenants, prgroups, nodes, insts, flips, link, llc, logs, ⟨bstage, ready, fail, absCores, absLayers, absLanes,
      retire, lifeidx, life, meas, therm, throttled, trip, retired, cold, warm, t.plat.supply, trust⟩⟩ ↔ Ok b t := Iff.rfl

/-- A write of memory. -/
theorem ok_mem {b : Bool} {t : State} {m : Tab Byte} {clk who issuing agenda pois warps teams cores dies net dir reqs writes ops waits
    tables trees tenants prgroups nodes insts flips link llc logs} (h : Ok b t)
    (hm : Tab.canon 0 t.mem = true → Tab.canon (0 : Byte) m = true) :
    Ok b ⟨clk, who, issuing, agenda, m, pois, warps, teams, cores, dies, net, dir, reqs, writes, ops, waits,
      tables, trees, tenants, prgroups, nodes, insts, flips, link, llc, logs, t.plat⟩ := ⟨h.1, fun e => hm (h.2 e)⟩

theorem ok_ite {b : Bool} {c : Prop} [Decidable c] {s t : State} (hs : Ok b s) (ht : Ok b t) :
    Ok b (if c then s else t) := by split <;> assumption

theorem ok_foldl {b : Bool} {α : Type} {f : State → α → State} {l : List α} {s : State} (h : Ok b s)
    (hf : ∀ t x, Ok b t → Ok b (f t x)) : Ok b (l.foldl f s) := by
  induction l generalizing s with
  | nil => exact h
  | cons a r ih => exact ih (hf _ _ h)

theorem ok_foldl1 {b : Bool} {α β : Type} {f : State × β → α → State × β} {l : List α} {p : State × β} (h : Ok b p.1)
    (hf : ∀ p x, Ok b p.1 → Ok b (f p x).1) : Ok b (l.foldl f p).1 := by
  induction l generalizing p with
  | nil => exact h
  | cons a r ih => exact ih (hf _ _ h)

theorem ok_foldl2 {b : Bool} {α β : Type} {f : β × State → α → β × State} {l : List α} {p : β × State} (h : Ok b p.2)
    (hf : ∀ p x, Ok b p.2 → Ok b (f p x).2) : Ok b (l.foldl f p).2 := by
  induction l generalizing p with
  | nil => exact h
  | cons a r ih => exact ih (hf _ _ h)

theorem okE_pure {ε α : Type} {b : Bool} {p : α → State} {x : α} (h : Ok b (p x)) :
    OkE b p (pure x : Except ε α) := h

theorem okE_bind {ε α β : Type} {b : Bool} {p : α → State} {q : β → State} {x : Except ε α} {f : α → Except ε β}
    (hx : OkE b p x) (hf : ∀ y, Ok b (p y) → OkE b q (f y)) : OkE b q (x >>= f) := by
  cases x with
  | error e => trivial
  | ok y => exact hf y hx

/-- A first part that holds no state. -/
theorem okE_binds {ε α β : Type} {b : Bool} {q : β → State} {x : Except ε α} {f : α → Except ε β}
    (hf : ∀ y, OkE b q (f y)) : OkE b q (x >>= f) := by
  cases x with
  | error e => trivial
  | ok y => exact hf y

theorem okE_foldlM {ε α : Type} {b : Bool} {f : State → α → Except ε State} {l : List α} {s : State} (h : Ok b s)
    (hf : ∀ t x, Ok b t → OkE b (fun t => t) (f t x)) : OkE b (fun t => t) (l.foldlM f s) := by
  induction l generalizing s with
  | nil => exact h
  | cons a r ih => exact okE_bind (hf _ _ h) fun y hy => ih hy

/-- Bytes written one by one keep memory canonical. -/
theorem canon_foldl {α : Type} {m : Tab Byte} (f : Tab Byte → α → Tab Byte) (l : List α)
    (hf : ∀ m x, Tab.canon (0 : Byte) m = true → Tab.canon (0 : Byte) (f m x) = true) (h : Tab.canon (0 : Byte) m = true) :
    Tab.canon (0 : Byte) (l.foldl f m) = true := by
  induction l generalizing m with
  | nil => exact h
  | cons a r ih => exact ih (hf _ _ h)

/-- Entries left out keep memory canonical. -/
theorem canon_filter {m : Tab Byte} (f : Nat × Byte → Bool) (h : Tab.canon (0 : Byte) m = true) :
    Tab.canon (0 : Byte) (m.filter f) = true := by
  rw [Tab.canon_iff] at *
  suffices ∀ lo, m.canonFrom 0 lo → Tab.canonFrom 0 lo (m.filter f) from this 0 h
  intro lo c
  induction m generalizing lo with
  | nil => exact c
  | cons p r ih =>
    obtain ⟨h1, h2, h3⟩ := c
    rw [List.filter_cons]
    split
    · exact ⟨h1, h2, ih (Tab.canonFrom_mono (Nat.zero_le _) h3) _ h3⟩
    · exact ih (Tab.canonFrom_mono (Nat.zero_le _) h3) _
        (Tab.canonFrom_mono (Nat.le_succ_of_le h1) h3)

/-- A run of bytes written keeps memory canonical. -/
theorem canon_writeBytes {m : Tab Byte} (ta : Nat) (bs : List Byte) (h : Tab.canon (0 : Byte) m = true) :
    Tab.canon (0 : Byte) (writeBytes m ta bs) = true := by
  induction bs generalizing m ta with
  | nil => exact h
  | cons x r ih => exact ih _ (Tab.canon_set _ _ h)

/-- A line put into memory keeps it canonical. -/
theorem canon_putLine {m : Tab Byte} (t : Tab Byte) (l : Nat) (h : Tab.canon (0 : Byte) m = true) :
    Tab.canon (0 : Byte) (putLine m t l) = true := canon_foldl _ _ (fun _ _ c => Tab.canon_set _ _ c) h

/-- Bytes put into memory keep it canonical. -/
theorem canon_setBytes {m : Tab Byte} (bs : List (Nat × Byte)) (h : Tab.canon (0 : Byte) m = true) :
    Tab.canon (0 : Byte) (setBytes m bs) = true := canon_foldl _ _ (fun _ _ c => Tab.canon_set _ _ c) h

theorem ok_pair {α : Type} {b : Bool} {x : State × α} {s : State} {a : α} (e : x = (s, a)) (h : Ok b x.1) : Ok b s := by
  rw [e] at h; exact h

/-- The memory after reset has the canonical form. -/
theorem reset_canon : Memory.wf State.reset := by decide

end Sys2Proof.Machine
end

