-- ==== Sys2Proof/Laws/KeepWords.lean ====
section
/-! SUPPORT. What the operations over registers and one line of memory keep. -/

namespace Sys2Proof.Machine

/-! ## Ops -/

theorem ok_updWarp {bb : Bool} {s : State} {u : Nat} {f : Warp → Warp} (h : Ok bb s) : Ok bb (State.updWarp s u f) := by
  unfold State.updWarp
  (try dsimp only) <;> with_reducible (repeat' (first | assumption | intro _ | split | dsimp only | simp only [ok_mk]))

theorem ok_updTeam {bb : Bool} {s : State} {u : Nat} {f : Team → Team} (h : Ok bb s) : Ok bb (State.updTeam s u f) := by
  unfold State.updTeam
  (try dsimp only) <;> with_reducible (repeat' (first | assumption | intro _ | split | dsimp only | simp only [ok_mk]))

theorem ok_updCore {bb : Bool} {s : State} {c : Nat} {f : Core → Core} (h : Ok bb s) : Ok bb (State.updCore s c f) := by
  unfold State.updCore
  (try dsimp only) <;> with_reducible (repeat' (first | assumption | intro _ | split | dsimp only | simp only [ok_mk]))

theorem ok_updDie {bb : Bool} {s : State} {d : Nat} {f : Die → Die} (h : Ok bb s) : Ok bb (State.updDie s d f) := by
  unfold State.updDie
  (try dsimp only) <;> with_reducible (repeat' (first | assumption | intro _ | split | dsimp only | simp only [ok_mk]))

theorem ok_updTenant {bb : Bool} {s : State} {t : Nat} {f : Tenant → Tenant} (h : Ok bb s) : Ok bb (State.updTenant s t f) := by
  unfold State.updTenant
  (try dsimp only) <;> with_reducible (repeat' (first | assumption | intro _ | split | dsimp only | simp only [ok_mk]))

theorem ok_updAsd {bb : Bool} {s : State} {a : Nat} {f : Asd → Asd} (h : Ok bb s) : Ok bb (State.updAsd s a f) := by
  unfold State.updAsd
  (try dsimp only) <;> with_reducible (repeat' (first | assumption | intro _ | split | dsimp only | simp only [ok_mk]))

theorem ok_updRoot {bb : Bool} {s : State} {r : Nat} {f : Root → Root} (h : Ok bb s) : Ok bb (State.updRoot s r f) := by
  unfold State.updRoot
  (try dsimp only) <;> with_reducible (repeat' (first | assumption | intro _ | split | dsimp only | simp only [ok_mk]))

theorem ok_updPool {bb : Bool} {s : State} {k : Nat} {f : Pool → Pool} (h : Ok bb s) : Ok bb (State.updPool s k f) := by
  unfold State.updPool
  (try dsimp only) <;> with_reducible (repeat' (first | assumption | intro _ | split | dsimp only | simp only [ok_mk]))

theorem ok_updInst {bb : Bool} {s : State} {i : Nat} {f : Inst → Inst} (h : Ok bb s) : Ok bb (State.updInst s i f) := by
  unfold State.updInst
  (try dsimp only) <;> with_reducible (repeat' (first | assumption | intro _ | split | dsimp only | simp only [ok_mk]))

theorem ok_updOp {bb : Bool} {s : State} {o : Nat} {f : EngOp → EngOp} (h : Ok bb s) : Ok bb (State.updOp s o f) := by
  unfold State.updOp
  (try dsimp only) <;> with_reducible (repeat' (first | assumption | intro _ | apply ok_ite | split | dsimp only | simp only [ok_mk]))

theorem ok_updReq {bb : Bool} {s : State} {r : Nat} {f : Req → Req} (h : Ok bb s) : Ok bb (State.updReq s r f) := by
  unfold State.updReq
  (try dsimp only) <;> with_reducible (repeat' (first | assumption | intro _ | apply ok_ite | split | dsimp only | simp only [ok_mk]))

theorem ok_bump {bb : Bool} {s : State} (h : Ok bb s) : Ok bb (State.bump s) := by
  unfold State.bump
  (try dsimp only) <;> with_reducible (repeat' (first | assumption | intro _ | split | dsimp only | simp only [ok_mk]))

theorem ok_updMy {bb : Bool} {s : State} {f : Warp → Warp} (h : Ok bb s) : Ok bb (State.updMy s f) := by
  unfold State.updMy
  (try dsimp only) <;> with_reducible (repeat' (first | assumption | intro _ | apply ok_updWarp | split | dsimp only | simp only [ok_mk]))

theorem ok_updArch {bb : Bool} {s : State} {f : Arch → Arch} (h : Ok bb s) : Ok bb (State.updArch s f) := by
  unfold State.updArch
  (try dsimp only) <;> with_reducible (repeat' (first | assumption | intro _ | apply ok_updMy | split | dsimp only | simp only [ok_mk]))

theorem ok_updGang {bb : Bool} {s : State} {f : Gang → Gang} (h : Ok bb s) : Ok bb (State.updGang s f) := by
  unfold State.updGang
  (try dsimp only) <;> with_reducible (repeat' (first | assumption | intro _ | apply ok_updArch | split | dsimp only | simp only [ok_mk]))

theorem ok_updWay {bb : Bool} {s : State} {f : Way → Way} (h : Ok bb s) : Ok bb (State.updWay s f) := by
  unfold State.updWay
  (try dsimp only) <;> with_reducible (repeat' (first | assumption | intro _ | apply ok_updMy | split | dsimp only | simp only [ok_mk]))

theorem ok_advance {bb : Bool} {s : State} (h : Ok bb s) : Ok bb (State.advance s) := by
  unfold State.advance
  (try dsimp only) <;> with_reducible (repeat' (first | assumption | intro _ | apply ok_foldl | apply ok_foldl1 | apply ok_foldl2 | apply ok_updArch | split | dsimp only | simp only [ok_mk]))

theorem ok_finish {bb : Bool} {s : State} (h : Ok bb s) : Ok bb (State.finish s) := by
  unfold State.finish
  (try dsimp only) <;> with_reducible (repeat' (first | assumption | intro _ | split | dsimp only | simp only [ok_mk]))

theorem ok_stall {bb : Bool} {s : State} (h : Ok bb s) : Ok bb (State.stall s) := by
  unfold State.stall
  (try dsimp only) <;> with_reducible (repeat' (first | assumption | intro _ | split | dsimp only | simp only [ok_mk]))

theorem ok_countOne {bb : Bool} {s : State} (h : Ok bb s) : Ok bb (State.countOne s) := by
  unfold State.countOne
  (try dsimp only) <;> with_reducible (repeat' (first | assumption | intro _ | apply okF_done | apply okF_trapFrom | apply okF_trap | apply okF_waitFrom | apply okF_wait | apply okF_oldest | apply okF_parked | apply ok_updMy | apply ok_updArch | apply ok_updGang | split | dsimp only | simp only [ok_mk]))

theorem ok_park {bb : Bool} {s : State} {p : Park} (h : Ok bb s) : Ok bb (State.park s p) := by
  unfold State.park
  (try dsimp only) <;> with_reducible (repeat' (first | assumption | intro _ | apply ok_updGang | split | dsimp only | simp only [ok_mk]))

theorem ok_updL2 {bb : Bool} {s : State} {d l : Nat} {f : L2Line → L2Line} (h : Ok bb s) : Ok bb (State.updL2 s d l f) := by
  unfold State.updL2
  (try dsimp only) <;> with_reducible (repeat' (first | assumption | intro _ | apply ok_updDie | split | dsimp only | simp only [ok_mk]))

theorem ok_updDir {bb : Bool} {s : State} {l : Nat} {f : DirE → DirE} (h : Ok bb s) : Ok bb (State.updDir s l f) := by
  unfold State.updDir
  (try dsimp only) <;> with_reducible (repeat' (first | assumption | intro _ | split | dsimp only | simp only [ok_mk]))

theorem ok_wake {bb : Bool} {s : State} {id status : Nat} {value : Word} (h : Ok bb s) : Ok bb (State.wake s id status value) := by
  unfold State.wake
  (try dsimp only) <;> with_reducible (repeat' (first | assumption | intro _ | apply okF_done | apply okF_trapFrom | apply okF_trap | apply okF_waitFrom | apply okF_wait | apply okF_oldest | apply okF_parked | apply ok_ite | apply ok_updWarp | split | dsimp only | simp only [ok_mk]))

theorem ok_setWait {bb : Bool} {s : State} {id : Nat} {on : WaitOn} (h : Ok bb s) : Ok bb (State.setWait s id on) := by
  unfold State.setWait
  (try dsimp only) <;> with_reducible (repeat' (first | assumption | intro _ | apply okF_done | apply okF_trapFrom | apply okF_trap | apply okF_waitFrom | apply okF_wait | apply okF_oldest | apply okF_parked | apply ok_ite | split | dsimp only | simp only [ok_mk]))

theorem ok_evalFaults {bb : Bool} {s : State} {l : Nat} (h : Ok bb s) : Ok bb (State.evalFaults s l) := by
  unfold State.evalFaults
  (try dsimp only) <;> with_reducible (repeat' (first | assumption | intro _ | apply okF_done | apply okF_trapFrom | apply okF_trap | apply okF_waitFrom | apply okF_wait | apply okF_oldest | apply okF_parked | apply ok_foldl | apply ok_foldl1 | apply ok_foldl2 | apply ok_ite | apply ok_wake | split | dsimp only | simp only [ok_mk]))

theorem ok_evalWaits {bb : Bool} {s : State} {l : Nat} (h : Ok bb s) : Ok bb (State.evalWaits s l) := by
  unfold State.evalWaits
  (try dsimp only) <;> with_reducible (repeat' (first | assumption | intro _ | apply okF_done | apply okF_trapFrom | apply okF_trap | apply okF_waitFrom | apply okF_wait | apply okF_oldest | apply okF_parked | apply ok_foldl | apply ok_foldl1 | apply ok_foldl2 | apply ok_ite | apply ok_wake | apply ok_evalFaults | split | dsimp only | simp only [ok_mk]))

theorem ok_poke {bb : Bool} {s : State} {ta : Nat} {bs : List Byte} (h : Ok bb s) : Ok bb (State.poke s ta bs) := by
  unfold State.poke
  (try dsimp only) <;> with_reducible (repeat' (first | assumption | intro _ | apply ok_foldl | apply ok_foldl1 | apply ok_foldl2 | apply ok_ite | apply ok_evalWaits | split | dsimp only | simp only [ok_mk] | refine ok_mem ?_ (canon_writeBytes _ _)))

theorem ok_handOver {bb : Bool} {s : State} {req : Nat} {ids : List Nat} (h : Ok bb s) : Ok bb (State.handOver s req ids) := by
  unfold State.handOver
  (try dsimp only) <;> with_reducible (repeat' (first | assumption | intro _ | apply ok_ite | split | dsimp only | simp only [ok_mk]))

theorem ok_dropWays {bb : Bool} {s : State} {u k : Nat} (h : Ok bb s) : Ok bb (State.dropWays s u k) := by
  unfold State.dropWays
  (try dsimp only) <;> with_reducible (repeat' (first | assumption | intro _ | apply ok_foldl | apply ok_foldl1 | apply ok_foldl2 | apply ok_updWarp | apply ok_handOver | split | dsimp only | simp only [ok_mk]))

theorem ok_widenReqs {bb : Bool} {s : State} {u k : Nat} {sl : BitVec 8} (h : Ok bb s) : Ok bb (State.widenReqs s u k sl) := by
  unfold State.widenReqs
  (try dsimp only) <;> with_reducible (repeat' (first | assumption | intro _ | apply okF_done | apply okF_trapFrom | apply okF_trap | apply okF_waitFrom | apply okF_wait | apply okF_oldest | apply okF_parked | apply ok_ite | split | dsimp only | simp only [ok_mk]))

theorem ok_homeStore {bb : Bool} {s : State} {src : Nat} {fq : Option Nat} {ta : Nat} {bs : List Byte} (h : Ok bb s) : Ok bb (State.homeStore s src fq ta bs) := by
  unfold State.homeStore
  (try dsimp only) <;> with_reducible (repeat' (first | assumption | intro _ | apply ok_bump | split | dsimp only | simp only [ok_mk]))

theorem ok_fqPost {bb : Bool} {s : State} {t entry : Nat} (h : Ok bb s) : Ok bb (State.fqPost s t entry).1 := by
  unfold State.fqPost
  (try dsimp only) <;> with_reducible (repeat' (first | assumption | intro _ | apply ok_homeStore | split | dsimp only | simp only [ok_mk]))

theorem ok_fqPost_eq {bb : Bool} {s t' : State} {a'} {t entry : Nat} (e_ : State.fqPost s t entry = (t', a')) (h : Ok bb s) : Ok bb t' := by
  have := ok_fqPost (bb := bb) (s := s) (t := t) (entry := entry) h; rw [e_] at this; exact this

theorem ok_postFault {bb : Bool} {s : State} {u k : Nat} {d : Dst} {entry how : Nat} (h : Ok bb s) : Ok bb (State.postFault s u k d entry how).1 := by
  unfold State.postFault
  extract_lets w id s1
  have h1 : Ok bb s1 := ok_bump h
  clear_value s1 w id
  split
  · have := ok_fqPost (t := w.tenant) (entry := entry) h1
    revert this
    generalize s1.fqPost w.tenant entry = p
    intro this
    exact ok_mk.mpr this
  · exact ok_mk.mpr h1

theorem ok_postFault_eq {bb : Bool} {s t' : State} {a'} {u k : Nat} {d : Dst} {entry how : Nat} (e_ : State.postFault s u k d entry how = (t', a')) (h : Ok bb s) : Ok bb t' := by
  have := ok_postFault (bb := bb) (s := s) (u := u) (k := k) (d := d) (entry := entry) (how := how) h; rw [e_] at this; exact this

theorem ok_forward {bb : Bool} {s : State} {u k sl : Nat} {d : Dst} {sword : Word} {how : Nat} (h : Ok bb s) : Ok bb (State.forward s u k sl d sword how) := by
  unfold State.forward
  (try dsimp only) <;> with_reducible (repeat' (first | assumption | intro _ | refine ok_postFault_eq (by assumption) ?_ | apply okF_done | apply okF_trapFrom | apply okF_trap | apply okF_waitFrom | apply okF_wait | apply okF_oldest | apply okF_parked | apply ok_updWarp | apply ok_updArch | apply ok_updGang | apply ok_postFault | split | dsimp only | simp only [ok_mk]))

theorem ok_trapAt {bb : Bool} {s : State} {u k sl : Nat} {t : Trap} (h : Ok bb s) : Ok bb (State.trapAt s u k sl t) := by
  unfold State.trapAt
  (try dsimp only) <;> with_reducible (repeat' (first | assumption | intro _ | refine ok_postFault_eq (by assumption) ?_ | apply okF_done | apply okF_trapFrom | apply okF_trap | apply okF_waitFrom | apply okF_wait | apply okF_oldest | apply okF_parked | apply ok_ite | apply ok_updWarp | apply ok_updArch | apply ok_updGang | apply ok_updWay | apply ok_dropWays | apply ok_postFault | apply ok_forward | split | dsimp only | simp only [ok_mk]))

theorem ok_trap {bb : Bool} {s : State} {t : Trap} (h : Ok bb s) : Ok bb (State.trap s t) := by
  unfold State.trap
  (try dsimp only) <;> with_reducible (repeat' (first | assumption | intro _ | apply okF_done | apply okF_trapFrom | apply okF_trap | apply okF_waitFrom | apply okF_wait | apply okF_oldest | apply okF_parked | apply ok_trapAt | split | dsimp only | simp only [ok_mk]))

theorem ok_trapC {bb : Bool} {s : State} {cause : Nat} {lanes : Lanes} (h : Ok bb s) : Ok bb (State.trapC s cause lanes) := by
  unfold State.trapC
  (try dsimp only) <;> with_reducible (repeat' (first | assumption | intro _ | apply okF_done | apply okF_trapFrom | apply okF_trap | apply okF_waitFrom | apply okF_wait | apply okF_oldest | apply okF_parked | apply ok_trap | split | dsimp only | simp only [ok_mk]))

theorem ok_trimL1 {bb : Bool} {s : State} {c : Nat} (h : Ok bb s) : Ok bb (State.trimL1 s c) := by
  unfold State.trimL1
  (try dsimp only) <;> with_reducible (repeat' (first | assumption | intro _ | apply ok_ite | apply ok_updCore | split | dsimp only | simp only [ok_mk]))

theorem ok_logErr {bb : Bool} {s : State} {n kind addr core tenant : Nat} (h : Ok bb s) : Ok bb (State.logErr s n kind addr core tenant) := by
  unfold State.logErr
  (try dsimp only) <;> with_reducible (repeat' (first | assumption | intro _ | apply okO_next | apply okO_refused | apply okO_no | apply okO_onlyIf | apply ok_ite | split | dsimp only | simp only [ok_mk]))

theorem ok_consumed {bb : Bool} {s : State} {core tenant : Nat} (h : Ok bb s) : Ok bb (State.consumed s core tenant) := by
  unfold State.consumed
  (try dsimp only) <;> with_reducible (repeat' (first | assumption | intro _ | apply ok_logErr | split | dsimp only | simp only [ok_mk]))

theorem ok_consumedAt {bb : Bool} {s : State} {ta core tenant : Nat} (h : Ok bb s) : Ok bb (State.consumedAt s ta core tenant) := by
  unfold State.consumedAt
  (try dsimp only) <;> with_reducible (repeat' (first | assumption | intro _ | apply ok_ite | apply ok_logErr | apply ok_consumed | split | dsimp only | simp only [ok_mk]))

theorem ok_llcAccess {bb : Bool} {s : State} {l tenant pol : Nat} (h : Ok bb s) : Ok bb (State.llcAccess s l tenant pol) := by
  unfold State.llcAccess
  (try dsimp only) <;> with_reducible (repeat' (first | assumption | intro _ | apply ok_ite | split | dsimp only | simp only [ok_mk]))

/-! ## Operands -/

theorem ok_putLanes {bb : Bool} {s : State} {ls : Lanes} {d : Dst} {wide : Bool} {f : Nat → Double} (h : Ok bb s) : Ok bb (State.putLanes s ls d wide f) := by
  unfold State.putLanes
  (try dsimp only) <;> with_reducible (repeat' (first | assumption | intro _ | apply ok_foldl | apply ok_foldl1 | apply ok_foldl2 | apply ok_updMy | split | dsimp only | simp only [ok_mk]))

theorem ok_raise {bb : Bool} {s : State} {fl : Word} (h : Ok bb s) : Ok bb (State.raise s fl) := by
  unfold State.raise
  (try dsimp only) <;> with_reducible (repeat' (first | assumption | intro _ | apply ok_updMy | split | dsimp only | simp only [ok_mk]))

theorem ok_track {bb : Bool} {s : State} {u : Uses} {ls : Lanes} (h : Ok bb s) : Ok bb (State.track s u ls) := by
  unfold State.track
  (try dsimp only) <;> with_reducible (repeat' (first | assumption | intro _ | apply ok_ite | apply ok_updWay | split | dsimp only | simp only [ok_mk]))

/-! ## Tags -/

theorem ok_updRegions {bb : Bool} {s : State} {ls : Lanes} {f : Nat → Region → Region} (h : Ok bb s) : Ok bb (State.updRegions s ls f) := by
  unfold State.updRegions
  (try dsimp only) <;> with_reducible (repeat' (first | assumption | intro _ | apply ok_foldl | apply ok_foldl1 | apply ok_foldl2 | apply ok_updMy | split | dsimp only | simp only [ok_mk]))

theorem ok_useTags {bb : Bool} {s : State} {u : Uses} {ls : Lanes} (h : Ok bb s) : Ok bb (State.useTags s u ls) := by
  unfold State.useTags
  (try dsimp only) <;> with_reducible (repeat' (first | assumption | intro _ | apply ok_foldl | apply ok_foldl1 | apply ok_foldl2 | apply ok_ite | apply ok_updRegions | split | dsimp only | simp only [ok_mk]))

/-! ## Issue -/

theorem ok_bypass {bb : Bool} {s : State} {vals : Tab Double} (h : Ok bb s) : Ok bb (State.bypass s vals) := by
  unfold State.bypass
  (try dsimp only) <;> with_reducible (repeat' (first | assumption | intro _ | apply ok_updGang | split | dsimp only | simp only [ok_mk]))

theorem ok_passOver {bb : Bool} {s : State} {ch : Bool} (h : Ok bb s) : Ok bb (State.passOver s ch) := by
  unfold State.passOver
  (try dsimp only) <;> with_reducible (repeat' (first | assumption | intro _ | apply ok_ite | apply ok_advance | apply ok_finish | apply ok_countOne | apply ok_updRegions | apply ok_bypass | split | dsimp only | simp only [ok_mk]))

theorem ok_noWork {bb : Bool} {s : State} {i : Instr} (h : Ok bb s) : Ok bb (State.noWork s i) := ok_passOver h

theorem ok_guardTags {bb : Bool} {s : State} {c : Common} (h : Ok bb s) : Ok bb (State.guardTags s c) := by
  unfold State.guardTags
  (try dsimp only) <;> with_reducible (repeat' (first | assumption | intro _ | apply ok_ite | apply ok_updRegions | split | dsimp only | simp only [ok_mk]))

theorem ok_waitOldest {bb : Bool} {s : State} (h : Ok bb s) : Ok bb (State.waitOldest s) := by
  unfold State.waitOldest
  (try dsimp only) <;> with_reducible (repeat' (first | assumption | intro _ | apply okF_done | apply okF_trapFrom | apply okF_trap | apply okF_waitFrom | apply okF_wait | apply okF_oldest | apply okF_parked | apply ok_updWay | split | dsimp only | simp only [ok_mk]))

theorem ok_clearLate {bb : Bool} {s : State} {sl : BitVec 8} (h : Ok bb s) : Ok bb (State.clearLate s sl) := by
  unfold State.clearLate
  (try dsimp only) <;> with_reducible (repeat' (first | assumption | intro _ | apply ok_updWay | split | dsimp only | simp only [ok_mk]))

theorem ok_ended {b : Bool} {s : State} {e : Eff} (h : Ok b s) (he : OkF b e) : Ok b (State.ended s e) := by
  unfold State.ended
  split
  · exact ok_finish (ok_clearLate he)
  · exact ok_trap h
  · exact ok_trap (ok_mk.mpr he)
  · exact ok_stall h
  · exact ok_stall (ok_mk.mpr h)
  · exact ok_waitOldest h
  · exact ok_stall (ok_park h)

theorem ok_begin {bb : Bool} {s : State} {u : Uses} (h : Ok bb s) : Ok bb (State.begin s u) := by
  unfold State.begin
  (try dsimp only) <;> with_reducible (repeat' (first | assumption | intro _ | apply ok_countOne | apply ok_track | apply ok_guardTags | split | dsimp only | simp only [ok_mk]))

theorem ok_issue {bb : Bool} {s : State} {i : Instr} {eff : State → Eff} (h : Ok bb s) (he : ∀ x0_, Ok bb x0_ → OkF bb (eff x0_)) : Ok bb (State.issue s i eff) := by
  unfold State.issue
  (try dsimp only) <;> with_reducible (repeat' (first | assumption | intro _ | apply okF_done | apply okF_trapFrom | apply okF_trap | apply okF_waitFrom | apply okF_wait | apply okF_oldest | apply okF_parked | apply ok_ite | apply ok_advance | apply ok_stall | apply ok_trapC | apply ok_consumed | apply ok_noWork | apply ok_guardTags | apply ok_ended | apply ok_begin | apply he | split | dsimp only | simp only [ok_mk]))

theorem ok_oldestOnly {bb : Bool} {s : State} {eff : State → Eff} (h : Ok bb s) (he : ∀ x0_, Ok bb x0_ → OkF bb (eff x0_)) : OkF bb (State.oldestOnly s eff) := by
  unfold State.oldestOnly
  (try dsimp only) <;> with_reducible (repeat' (first | assumption | intro _ | apply okF_done | apply okF_trapFrom | apply okF_trap | apply okF_waitFrom | apply okF_wait | apply okF_oldest | apply okF_parked | apply ok_ite | apply he | split | dsimp only | simp only [ok_mk]))

theorem ok_notGuessing {bb : Bool} {s : State} {eff : State → Eff} (h : Ok bb s) (he : ∀ x0_, Ok bb x0_ → OkF bb (eff x0_)) : OkF bb (State.notGuessing s eff) := by
  unfold State.notGuessing
  (try dsimp only) <;> with_reducible (repeat' (first | assumption | intro _ | apply okF_done | apply okF_trapFrom | apply okF_trap | apply okF_waitFrom | apply okF_wait | apply okF_oldest | apply okF_parked | apply ok_ite | apply he | split | dsimp only | simp only [ok_mk]))

theorem ok_noRegion {bb : Bool} {s : State} {c : Common} {eff : State → Eff} (h : Ok bb s) (he : ∀ x0_, Ok bb x0_ → OkF bb (eff x0_)) : OkF bb (State.noRegion s c eff) := by
  unfold State.noRegion
  (try dsimp only) <;> with_reducible (repeat' (first | assumption | intro _ | apply okF_done | apply okF_trapFrom | apply okF_trap | apply okF_waitFrom | apply okF_wait | apply okF_oldest | apply okF_parked | apply ok_ite | apply ok_trap | apply he | split | dsimp only | simp only [ok_mk]))

theorem ok_runA {bb : Bool} {s : State} {i : Instr} {f : OpA} {r : RoleA} {fn : Nat → Res Double} (h : Ok bb s) : Ok bb (State.runA s i f r fn) := by
  unfold State.runA
  (try dsimp only) <;> with_reducible (repeat' (first | assumption | intro _ | apply ok_foldl | apply ok_foldl1 | apply ok_foldl2 | apply ok_ite | apply ok_updGang | apply ok_advance | apply ok_putLanes | apply ok_raise | apply ok_updRegions | apply ok_bypass | split | dsimp only | simp only [ok_mk]))

theorem ok_alu {bb : Bool} {s : State} {i : Instr} {fn : OpA → State → Nat → Res Double} (h : Ok bb s) : Ok bb (State.alu s i fn) := by
  unfold State.alu
  (try dsimp only) <;> with_reducible (repeat' (first | assumption | intro _ | apply okF_done | apply okF_trapFrom | apply okF_trap | apply okF_waitFrom | apply okF_wait | apply okF_oldest | apply okF_parked | apply ok_issue | apply ok_runA | split | dsimp only | simp only [ok_mk]))

/-! ## Integer -/

theorem ok_execIadd {bb : Bool} {s : State} {f : OpA} (h : Ok bb s) : OkO bb (execIadd f s) := by
  unfold execIadd
  (try dsimp only) <;> with_reducible (repeat' (first | assumption | intro _ | apply okO_next | apply okO_refused | apply okO_no | apply okO_onlyIf | apply ok_alu | split | dsimp only | simp only [ok_mk]))

theorem ok_execIsub {bb : Bool} {s : State} {f : OpA} (h : Ok bb s) : OkO bb (execIsub f s) := by
  unfold execIsub
  (try dsimp only) <;> with_reducible (repeat' (first | assumption | intro _ | apply okO_next | apply okO_refused | apply okO_no | apply okO_onlyIf | apply ok_alu | split | dsimp only | simp only [ok_mk]))

theorem ok_execImul {bb : Bool} {s : State} {f : OpA} (h : Ok bb s) : OkO bb (execImul f s) := by
  unfold execImul
  (try dsimp only) <;> with_reducible (repeat' (first | assumption | intro _ | apply okO_next | apply okO_refused | apply okO_no | apply okO_onlyIf | apply ok_alu | split | dsimp only | simp only [ok_mk]))

theorem ok_execImulh {bb : Bool} {s : State} {f : OpA} (h : Ok bb s) : OkO bb (execImulh f s) := by
  unfold execImulh
  (try dsimp only) <;> with_reducible (repeat' (first | assumption | intro _ | apply okO_next | apply okO_refused | apply okO_no | apply okO_onlyIf | apply ok_alu | split | dsimp only | simp only [ok_mk]))

theorem ok_execImad {bb : Bool} {s : State} {f : OpA} (h : Ok bb s) : OkO bb (execImad f s) := by
  unfold execImad
  (try dsimp only) <;> with_reducible (repeat' (first | assumption | intro _ | apply okO_next | apply okO_refused | apply okO_no | apply okO_onlyIf | apply ok_alu | split | dsimp only | simp only [ok_mk]))

theorem ok_execImadw {bb : Bool} {s : State} {f : OpA} (h : Ok bb s) : OkO bb (execImadw f s) := by
  unfold execImadw
  (try dsimp only) <;> with_reducible (repeat' (first | assumption | intro _ | apply okO_next | apply okO_refused | apply okO_no | apply okO_onlyIf | apply ok_alu | split | dsimp only | simp only [ok_mk]))

theorem ok_execImin {bb : Bool} {s : State} {f : OpA} (h : Ok bb s) : OkO bb (execImin f s) := by
  unfold execImin
  (try dsimp only) <;> with_reducible (repeat' (first | assumption | intro _ | apply okO_next | apply okO_refused | apply okO_no | apply okO_onlyIf | apply ok_alu | split | dsimp only | simp only [ok_mk]))

theorem ok_execImax {bb : Bool} {s : State} {f : OpA} (h : Ok bb s) : OkO bb (execImax f s) := by
  unfold execImax
  (try dsimp only) <;> with_reducible (repeat' (first | assumption | intro _ | apply okO_next | apply okO_refused | apply okO_no | apply okO_onlyIf | apply ok_alu | split | dsimp only | simp only [ok_mk]))

theorem ok_execIabs {bb : Bool} {s : State} {f : OpA} (h : Ok bb s) : OkO bb (execIabs f s) := by
  unfold execIabs
  (try dsimp only) <;> with_reducible (repeat' (first | assumption | intro _ | apply okO_next | apply okO_refused | apply okO_no | apply okO_onlyIf | apply ok_alu | split | dsimp only | simp only [ok_mk]))

theorem ok_execAnd {bb : Bool} {s : State} {f : OpA} (h : Ok bb s) : OkO bb (execAnd f s) := by
  unfold execAnd
  (try dsimp only) <;> with_reducible (repeat' (first | assumption | intro _ | apply okO_next | apply okO_refused | apply okO_no | apply okO_onlyIf | apply ok_alu | split | dsimp only | simp only [ok_mk]))

theorem ok_execOr {bb : Bool} {s : State} {f : OpA} (h : Ok bb s) : OkO bb (execOr f s) := by
  unfold execOr
  (try dsimp only) <;> with_reducible (repeat' (first | assumption | intro _ | apply okO_next | apply okO_refused | apply okO_no | apply okO_onlyIf | apply ok_alu | split | dsimp only | simp only [ok_mk]))

theorem ok_execXor {bb : Bool} {s : State} {f : OpA} (h : Ok bb s) : OkO bb (execXor f s) := by
  unfold execXor
  (try dsimp only) <;> with_reducible (repeat' (first | assumption | intro _ | apply okO_next | apply okO_refused | apply okO_no | apply okO_onlyIf | apply ok_alu | split | dsimp only | simp only [ok_mk]))

theorem ok_execLop3 {bb : Bool} {s : State} {f : OpA} (h : Ok bb s) : OkO bb (execLop3 f s) := by
  unfold execLop3
  (try dsimp only) <;> with_reducible (repeat' (first | assumption | intro _ | apply okO_next | apply okO_refused | apply okO_no | apply okO_onlyIf | apply ok_alu | split | dsimp only | simp only [ok_mk]))

theorem ok_execShl {bb : Bool} {s : State} {f : OpA} (h : Ok bb s) : OkO bb (execShl f s) := by
  unfold execShl
  (try dsimp only) <;> with_reducible (repeat' (first | assumption | intro _ | apply okO_next | apply okO_refused | apply okO_no | apply okO_onlyIf | apply ok_alu | split | dsimp only | simp only [ok_mk]))

theorem ok_execShr {bb : Bool} {s : State} {f : OpA} (h : Ok bb s) : OkO bb (execShr f s) := by
  unfold execShr
  (try dsimp only) <;> with_reducible (repeat' (first | assumption | intro _ | apply okO_next | apply okO_refused | apply okO_no | apply okO_onlyIf | apply ok_alu | split | dsimp only | simp only [ok_mk]))

theorem ok_execSar {bb : Bool} {s : State} {f : OpA} (h : Ok bb s) : OkO bb (execSar f s) := by
  unfold execSar
  (try dsimp only) <;> with_reducible (repeat' (first | assumption | intro _ | apply okO_next | apply okO_refused | apply okO_no | apply okO_onlyIf | apply ok_alu | split | dsimp only | simp only [ok_mk]))

theorem ok_execShf {bb : Bool} {s : State} {f : OpA} (h : Ok bb s) : OkO bb (execShf f s) := by
  unfold execShf
  (try dsimp only) <;> with_reducible (repeat' (first | assumption | intro _ | apply okO_next | apply okO_refused | apply okO_no | apply okO_onlyIf | apply ok_alu | split | dsimp only | simp only [ok_mk]))

theorem ok_execPopc {bb : Bool} {s : State} {f : OpA} (h : Ok bb s) : OkO bb (execPopc f s) := by
  unfold execPopc
  (try dsimp only) <;> with_reducible (repeat' (first | assumption | intro _ | apply okO_next | apply okO_refused | apply okO_no | apply okO_onlyIf | apply ok_alu | split | dsimp only | simp only [ok_mk]))

theorem ok_execClz {bb : Bool} {s : State} {f : OpA} (h : Ok bb s) : OkO bb (execClz f s) := by
  unfold execClz
  (try dsimp only) <;> with_reducible (repeat' (first | assumption | intro _ | apply okO_next | apply okO_refused | apply okO_no | apply okO_onlyIf | apply ok_alu | split | dsimp only | simp only [ok_mk]))

theorem ok_execCtz {bb : Bool} {s : State} {f : OpA} (h : Ok bb s) : OkO bb (execCtz f s) := by
  unfold execCtz
  (try dsimp only) <;> with_reducible (repeat' (first | assumption | intro _ | apply okO_next | apply okO_refused | apply okO_no | apply okO_onlyIf | apply ok_alu | split | dsimp only | simp only [ok_mk]))

theorem ok_execBrev {bb : Bool} {s : State} {f : OpA} (h : Ok bb s) : OkO bb (execBrev f s) := by
  unfold execBrev
  (try dsimp only) <;> with_reducible (repeat' (first | assumption | intro _ | apply okO_next | apply okO_refused | apply okO_no | apply okO_onlyIf | apply ok_alu | split | dsimp only | simp only [ok_mk]))

theorem ok_execBfx {bb : Bool} {s : State} {f : OpA} (h : Ok bb s) : OkO bb (execBfx f s) := by
  unfold execBfx
  (try dsimp only) <;> with_reducible (repeat' (first | assumption | intro _ | apply okO_next | apply okO_refused | apply okO_no | apply okO_onlyIf | apply ok_alu | split | dsimp only | simp only [ok_mk]))

theorem ok_execBfi {bb : Bool} {s : State} {f : OpA} (h : Ok bb s) : OkO bb (execBfi f s) := by
  unfold execBfi
  (try dsimp only) <;> with_reducible (repeat' (first | assumption | intro _ | apply okO_next | apply okO_refused | apply okO_no | apply okO_onlyIf | apply ok_alu | split | dsimp only | simp only [ok_mk]))

theorem ok_execSel {bb : Bool} {s : State} {f : OpA} (h : Ok bb s) : OkO bb (execSel f s) := by
  unfold execSel
  (try dsimp only) <;> with_reducible (repeat' (first | assumption | intro _ | apply okO_next | apply okO_refused | apply okO_no | apply okO_onlyIf | apply ok_alu | split | dsimp only | simp only [ok_mk]))

theorem ok_execMov {bb : Bool} {s : State} {f : OpA} (h : Ok bb s) : OkO bb (execMov f s) := by
  unfold execMov
  (try dsimp only) <;> with_reducible (repeat' (first | assumption | intro _ | apply okO_next | apply okO_refused | apply okO_no | apply okO_onlyIf | apply ok_alu | split | dsimp only | simp only [ok_mk]))

theorem ok_execMovi {bb : Bool} {s : State} {f : OpI} (h : Ok bb s) : OkO bb (execMovi f s) := by
  unfold execMovi
  (try dsimp only) <;> with_reducible (repeat' (first | assumption | intro _ | apply okO_next | apply okO_refused | apply okO_no | apply okO_onlyIf | apply okF_done | apply okF_trapFrom | apply okF_trap | apply okF_waitFrom | apply okF_wait | apply okF_oldest | apply okF_parked | apply ok_issue | apply ok_runA | split | dsimp only | simp only [ok_mk]))

theorem ok_execLea {bb : Bool} {s : State} {f : OpA} (h : Ok bb s) : OkO bb (execLea f s) := by
  unfold execLea
  (try dsimp only) <;> with_reducible (repeat' (first | assumption | intro _ | apply okO_next | apply okO_refused | apply okO_no | apply okO_onlyIf | apply ok_alu | split | dsimp only | simp only [ok_mk]))

theorem ok_execIdp4 {bb : Bool} {s : State} {f : OpA} (h : Ok bb s) : OkO bb (execIdp4 f s) := by
  unfold execIdp4
  (try dsimp only) <;> with_reducible (repeat' (first | assumption | intro _ | apply okO_next | apply okO_refused | apply okO_no | apply okO_onlyIf | apply ok_alu | split | dsimp only | simp only [ok_mk]))

theorem ok_execPmac2 {bb : Bool} {s : State} {f : OpA} (h : Ok bb s) : OkO bb (execPmac2 f s) := by
  unfold execPmac2
  (try dsimp only) <;> with_reducible (repeat' (first | assumption | intro _ | apply okO_next | apply okO_refused | apply okO_no | apply okO_onlyIf | apply ok_alu | split | dsimp only | simp only [ok_mk]))

theorem ok_execSarn {bb : Bool} {s : State} {f : OpA} (h : Ok bb s) : OkO bb (execSarn f s) := by
  unfold execSarn
  (try dsimp only) <;> with_reducible (repeat' (first | assumption | intro _ | apply okO_next | apply okO_refused | apply okO_no | apply okO_onlyIf | apply ok_alu | split | dsimp only | simp only [ok_mk]))

theorem ok_execIsat {bb : Bool} {s : State} {f : OpA} (h : Ok bb s) : OkO bb (execIsat f s) := by
  unfold execIsat
  (try dsimp only) <;> with_reducible (repeat' (first | assumption | intro _ | apply okO_next | apply okO_refused | apply okO_no | apply okO_onlyIf | apply ok_alu | split | dsimp only | simp only [ok_mk]))

theorem ok_indexedOp {bb : Bool} {s : State} {f : OpA} {write : Bool} {eff : State → State} (h : Ok bb s) (he : ∀ x0_, Ok bb x0_ → Ok bb (eff x0_)) : OkF bb (indexedOp f write s eff) := by
  unfold indexedOp
  (try dsimp only) <;> with_reducible (repeat' (first | assumption | intro _ | apply okF_done | apply okF_trapFrom | apply okF_trap | apply okF_waitFrom | apply okF_wait | apply okF_oldest | apply okF_parked | apply ok_foldl | apply ok_foldl1 | apply ok_foldl2 | apply ok_ite | apply ok_updWay | apply ok_trap | apply ok_consumed | apply ok_track | apply ok_updRegions | apply he | split | dsimp only | simp only [ok_mk]))

theorem ok_execRget {bb : Bool} {s : State} {f : OpA} (h : Ok bb s) : OkO bb (execRget f s) := by
  unfold execRget
  (try dsimp only) <;> with_reducible (repeat' (first | assumption | intro _ | apply okO_next | apply okO_refused | apply okO_no | apply okO_onlyIf | apply okF_done | apply okF_trapFrom | apply okF_trap | apply okF_waitFrom | apply okF_wait | apply okF_oldest | apply okF_parked | apply ok_issue | apply ok_runA | apply ok_indexedOp | split | dsimp only | simp only [ok_mk]))

theorem ok_cleanIndexed {bb : Bool} {s : State} {f : OpA} (h : Ok bb s) : Ok bb (cleanIndexed f old s) := by
  unfold cleanIndexed
  (try dsimp only) <;> with_reducible (repeat' (first | assumption | intro _ | apply ok_foldl | apply ok_foldl1 | apply ok_foldl2 | apply ok_updMy | split | dsimp only | simp only [ok_mk]))

theorem ok_putIndexed {bb : Bool} {s : State} {f : OpA} (h : Ok bb s) : Ok bb (putIndexed f s) := by
  unfold putIndexed
  (try dsimp only) <;> with_reducible (repeat' (first | assumption | intro _ | apply ok_foldl | apply ok_foldl1 | apply ok_foldl2 | apply ok_advance | apply ok_putLanes | apply ok_cleanIndexed | split | dsimp only | simp only [ok_mk]))

theorem ok_execRput {bb : Bool} {s : State} {f : OpA} (h : Ok bb s) : OkO bb (execRput f s) := by
  unfold execRput
  (try dsimp only) <;> with_reducible (repeat' (first | assumption | intro _ | apply okO_next | apply okO_refused | apply okO_no | apply okO_onlyIf | apply okF_done | apply okF_trapFrom | apply okF_trap | apply okF_waitFrom | apply okF_wait | apply okF_oldest | apply okF_parked | apply ok_issue | apply ok_indexedOp | apply ok_putIndexed | split | dsimp only | simp only [ok_mk]))

/-! ## Float -/

theorem ok_execFadd {bb : Bool} {s : State} {f : OpA} (h : Ok bb s) : OkO bb (execFadd f s) := by
  unfold execFadd
  (try dsimp only) <;> with_reducible (repeat' (first | assumption | intro _ | apply okO_next | apply okO_refused | apply okO_no | apply okO_onlyIf | apply ok_alu | split | dsimp only | simp only [ok_mk]))

theorem ok_execFsub {bb : Bool} {s : State} {f : OpA} (h : Ok bb s) : OkO bb (execFsub f s) := by
  unfold execFsub
  (try dsimp only) <;> with_reducible (repeat' (first | assumption | intro _ | apply okO_next | apply okO_refused | apply okO_no | apply okO_onlyIf | apply ok_alu | split | dsimp only | simp only [ok_mk]))

theorem ok_execFmul {bb : Bool} {s : State} {f : OpA} (h : Ok bb s) : OkO bb (execFmul f s) := by
  unfold execFmul
  (try dsimp only) <;> with_reducible (repeat' (first | assumption | intro _ | apply okO_next | apply okO_refused | apply okO_no | apply okO_onlyIf | apply ok_alu | split | dsimp only | simp only [ok_mk]))

theorem ok_execFfma {bb : Bool} {s : State} {f : OpA} (h : Ok bb s) : OkO bb (execFfma f s) := by
  unfold execFfma
  (try dsimp only) <;> with_reducible (repeat' (first | assumption | intro _ | apply okO_next | apply okO_refused | apply okO_no | apply okO_onlyIf | apply ok_alu | split | dsimp only | simp only [ok_mk]))

theorem ok_execFmin {bb : Bool} {s : State} {f : OpA} (h : Ok bb s) : OkO bb (execFmin f s) := by
  unfold execFmin
  (try dsimp only) <;> with_reducible (repeat' (first | assumption | intro _ | apply okO_next | apply okO_refused | apply okO_no | apply okO_onlyIf | apply ok_alu | split | dsimp only | simp only [ok_mk]))

theorem ok_execFmax {bb : Bool} {s : State} {f : OpA} (h : Ok bb s) : OkO bb (execFmax f s) := by
  unfold execFmax
  (try dsimp only) <;> with_reducible (repeat' (first | assumption | intro _ | apply okO_next | apply okO_refused | apply okO_no | apply okO_onlyIf | apply ok_alu | split | dsimp only | simp only [ok_mk]))

theorem ok_execFrcp {bb : Bool} {s : State} {f : OpA} (h : Ok bb s) : OkO bb (execFrcp f s) := by
  unfold execFrcp
  (try dsimp only) <;> with_reducible (repeat' (first | assumption | intro _ | apply okO_next | apply okO_refused | apply okO_no | apply okO_onlyIf | apply ok_alu | split | dsimp only | simp only [ok_mk]))

theorem ok_execFrsq {bb : Bool} {s : State} {f : OpA} (h : Ok bb s) : OkO bb (execFrsq f s) := by
  unfold execFrsq
  (try dsimp only) <;> with_reducible (repeat' (first | assumption | intro _ | apply okO_next | apply okO_refused | apply okO_no | apply okO_onlyIf | apply ok_alu | split | dsimp only | simp only [ok_mk]))

theorem ok_execFsqrt {bb : Bool} {s : State} {f : OpA} (h : Ok bb s) : OkO bb (execFsqrt f s) := by
  unfold execFsqrt
  (try dsimp only) <;> with_reducible (repeat' (first | assumption | intro _ | apply okO_next | apply okO_refused | apply okO_no | apply okO_onlyIf | apply ok_alu | split | dsimp only | simp only [ok_mk]))

theorem ok_execFexp2 {bb : Bool} {s : State} {f : OpA} (h : Ok bb s) : OkO bb (execFexp2 f s) := by
  unfold execFexp2
  (try dsimp only) <;> with_reducible (repeat' (first | assumption | intro _ | apply okO_next | apply okO_refused | apply okO_no | apply okO_onlyIf | apply ok_alu | split | dsimp only | simp only [ok_mk]))

theorem ok_execFlog2 {bb : Bool} {s : State} {f : OpA} (h : Ok bb s) : OkO bb (execFlog2 f s) := by
  unfold execFlog2
  (try dsimp only) <;> with_reducible (repeat' (first | assumption | intro _ | apply okO_next | apply okO_refused | apply okO_no | apply okO_onlyIf | apply ok_alu | split | dsimp only | simp only [ok_mk]))

theorem ok_execFclass {bb : Bool} {s : State} {f : OpA} (h : Ok bb s) : OkO bb (execFclass f s) := by
  unfold execFclass
  (try dsimp only) <;> with_reducible (repeat' (first | assumption | intro _ | apply okO_next | apply okO_refused | apply okO_no | apply okO_onlyIf | apply ok_alu | split | dsimp only | simp only [ok_mk]))

theorem ok_execFscale {bb : Bool} {s : State} {f : OpA} (h : Ok bb s) : OkO bb (execFscale f s) := by
  unfold execFscale
  (try dsimp only) <;> with_reducible (repeat' (first | assumption | intro _ | apply okO_next | apply okO_refused | apply okO_no | apply okO_onlyIf | apply ok_alu | split | dsimp only | simp only [ok_mk]))

theorem ok_execFrnd {bb : Bool} {s : State} {f : OpA} (h : Ok bb s) : OkO bb (execFrnd f s) := by
  unfold execFrnd
  (try dsimp only) <;> with_reducible (repeat' (first | assumption | intro _ | apply okO_next | apply okO_refused | apply okO_no | apply okO_onlyIf | apply ok_alu | split | dsimp only | simp only [ok_mk]))

theorem ok_execHadd2 {bb : Bool} {s : State} {f : OpA} (h : Ok bb s) : OkO bb (execHadd2 f s) := by
  unfold execHadd2
  (try dsimp only) <;> with_reducible (repeat' (first | assumption | intro _ | apply okO_next | apply okO_refused | apply okO_no | apply okO_onlyIf | apply ok_alu | split | dsimp only | simp only [ok_mk]))

theorem ok_execHmul2 {bb : Bool} {s : State} {f : OpA} (h : Ok bb s) : OkO bb (execHmul2 f s) := by
  unfold execHmul2
  (try dsimp only) <;> with_reducible (repeat' (first | assumption | intro _ | apply okO_next | apply okO_refused | apply okO_no | apply okO_onlyIf | apply ok_alu | split | dsimp only | simp only [ok_mk]))

theorem ok_execHfma2 {bb : Bool} {s : State} {f : OpA} (h : Ok bb s) : OkO bb (execHfma2 f s) := by
  unfold execHfma2
  (try dsimp only) <;> with_reducible (repeat' (first | assumption | intro _ | apply okO_next | apply okO_refused | apply okO_no | apply okO_onlyIf | apply ok_alu | split | dsimp only | simp only [ok_mk]))

theorem ok_execHmin2 {bb : Bool} {s : State} {f : OpA} (h : Ok bb s) : OkO bb (execHmin2 f s) := by
  unfold execHmin2
  (try dsimp only) <;> with_reducible (repeat' (first | assumption | intro _ | apply okO_next | apply okO_refused | apply okO_no | apply okO_onlyIf | apply ok_alu | split | dsimp only | simp only [ok_mk]))

theorem ok_execHmax2 {bb : Bool} {s : State} {f : OpA} (h : Ok bb s) : OkO bb (execHmax2 f s) := by
  unfold execHmax2
  (try dsimp only) <;> with_reducible (repeat' (first | assumption | intro _ | apply okO_next | apply okO_refused | apply okO_no | apply okO_onlyIf | apply ok_alu | split | dsimp only | simp only [ok_mk]))

theorem ok_execFdot2 {bb : Bool} {s : State} {f : OpA} (h : Ok bb s) : OkO bb (execFdot2 f s) := by
  unfold execFdot2
  (try dsimp only) <;> with_reducible (repeat' (first | assumption | intro _ | apply okO_next | apply okO_refused | apply okO_no | apply okO_onlyIf | apply ok_alu | split | dsimp only | simp only [ok_mk]))

/-! ## Convert -/

theorem ok_execCvt {bb : Bool} {s : State} {f : OpA} (h : Ok bb s) : OkO bb (execCvt f s) := by
  unfold execCvt
  (try dsimp only) <;> with_reducible (repeat' (first | assumption | intro _ | apply okO_next | apply okO_refused | apply okO_no | apply okO_onlyIf | apply ok_alu | split | dsimp only | simp only [ok_mk]))

theorem ok_execFcvt {bb : Bool} {s : State} {f : OpA} (h : Ok bb s) : OkO bb (execFcvt f s) := by
  unfold execFcvt
  (try dsimp only) <;> with_reducible (repeat' (first | assumption | intro _ | apply okO_next | apply okO_refused | apply okO_no | apply okO_onlyIf | apply ok_alu | split | dsimp only | simp only [ok_mk]))

theorem ok_execPk2 {bb : Bool} {s : State} {f : OpA} (h : Ok bb s) : OkO bb (execPk2 f s) := by
  unfold execPk2
  (try dsimp only) <;> with_reducible (repeat' (first | assumption | intro _ | apply okO_next | apply okO_refused | apply okO_no | apply okO_onlyIf | apply ok_alu | split | dsimp only | simp only [ok_mk]))

theorem ok_execUpk2 {bb : Bool} {s : State} {f : OpA} (h : Ok bb s) : OkO bb (execUpk2 f s) := by
  unfold execUpk2
  (try dsimp only) <;> with_reducible (repeat' (first | assumption | intro _ | apply okO_next | apply okO_refused | apply okO_no | apply okO_onlyIf | apply ok_alu | split | dsimp only | simp only [ok_mk]))

theorem ok_execE10enc {bb : Bool} {s : State} {f : OpA} (h : Ok bb s) : OkO bb (execE10enc f s) := by
  unfold execE10enc
  (try dsimp only) <;> with_reducible (repeat' (first | assumption | intro _ | apply okO_next | apply okO_refused | apply okO_no | apply okO_onlyIf | apply ok_alu | split | dsimp only | simp only [ok_mk]))

theorem ok_execE10dec {bb : Bool} {s : State} {f : OpA} (h : Ok bb s) : OkO bb (execE10dec f s) := by
  unfold execE10dec
  (try dsimp only) <;> with_reducible (repeat' (first | assumption | intro _ | apply okO_next | apply okO_refused | apply okO_no | apply okO_onlyIf | apply ok_alu | split | dsimp only | simp only [ok_mk]))

theorem ok_execRnsenc {bb : Bool} {s : State} {f : OpA} (h : Ok bb s) : OkO bb (execRnsenc f s) := by
  unfold execRnsenc
  (try dsimp only) <;> with_reducible (repeat' (first | assumption | intro _ | apply okO_next | apply okO_refused | apply okO_no | apply okO_onlyIf | apply ok_alu | split | dsimp only | simp only [ok_mk]))

theorem ok_execRnsdec {bb : Bool} {s : State} {f : OpA} (h : Ok bb s) : OkO bb (execRnsdec f s) := by
  unfold execRnsdec
  (try dsimp only) <;> with_reducible (repeat' (first | assumption | intro _ | apply okO_next | apply okO_refused | apply okO_no | apply okO_onlyIf | apply ok_alu | split | dsimp only | simp only [ok_mk]))

theorem ok_execQnt {bb : Bool} {s : State} {f : OpA} (h : Ok bb s) : OkO bb (execQnt f s) := by
  unfold execQnt
  (try dsimp only) <;> with_reducible (repeat' (first | assumption | intro _ | apply okO_next | apply okO_refused | apply okO_no | apply okO_onlyIf | apply ok_alu | split | dsimp only | simp only [ok_mk]))

theorem ok_execDqnt {bb : Bool} {s : State} {f : OpA} (h : Ok bb s) : OkO bb (execDqnt f s) := by
  unfold execDqnt
  (try dsimp only) <;> with_reducible (repeat' (first | assumption | intro _ | apply okO_next | apply okO_refused | apply okO_no | apply okO_onlyIf | apply ok_alu | split | dsimp only | simp only [ok_mk]))

/-! ## Lane -/

theorem ok_execIsetp {bb : Bool} {s : State} {f : OpA} (h : Ok bb s) : OkO bb (execIsetp f s) := by
  unfold execIsetp
  (try dsimp only) <;> with_reducible (repeat' (first | assumption | intro _ | apply okO_next | apply okO_refused | apply okO_no | apply okO_onlyIf | apply ok_alu | split | dsimp only | simp only [ok_mk]))

theorem ok_execFsetp {bb : Bool} {s : State} {f : OpA} (h : Ok bb s) : OkO bb (execFsetp f s) := by
  unfold execFsetp
  (try dsimp only) <;> with_reducible (repeat' (first | assumption | intro _ | apply okO_next | apply okO_refused | apply okO_no | apply okO_onlyIf | apply ok_alu | split | dsimp only | simp only [ok_mk]))

theorem ok_execPlop {bb : Bool} {s : State} {f : OpA} (h : Ok bb s) : OkO bb (execPlop f s) := by
  unfold execPlop
  (try dsimp only) <;> with_reducible (repeat' (first | assumption | intro _ | apply okO_next | apply okO_refused | apply okO_no | apply okO_onlyIf | apply ok_alu | split | dsimp only | simp only [ok_mk]))

theorem ok_execPmovGet {bb : Bool} {s : State} {f : OpA} (h : Ok bb s) : OkO bb (execPmovGet f s) := by
  unfold execPmovGet
  (try dsimp only) <;> with_reducible (repeat' (first | assumption | intro _ | apply okO_next | apply okO_refused | apply okO_no | apply okO_onlyIf | apply ok_alu | split | dsimp only | simp only [ok_mk]))

theorem ok_setPreds {bb : Bool} {t : State} {f : OpA} (h : Ok bb t) : Ok bb (setPreds f s t) := by
  unfold setPreds
  (try dsimp only) <;> with_reducible (repeat' (first | assumption | intro _ | apply ok_foldl | apply ok_foldl1 | apply ok_foldl2 | apply ok_ite | apply ok_updMy | split | dsimp only | simp only [ok_mk]))

theorem ok_execPmovSet {bb : Bool} {s : State} {f : OpA} (h : Ok bb s) : OkO bb (execPmovSet f s) := by
  unfold execPmovSet
  (try dsimp only) <;> with_reducible (repeat' (first | assumption | intro _ | apply okO_next | apply okO_refused | apply okO_no | apply okO_onlyIf | apply okF_done | apply okF_trapFrom | apply okF_trap | apply okF_waitFrom | apply okF_wait | apply okF_oldest | apply okF_parked | apply ok_issue | apply ok_runA | apply ok_setPreds | split | dsimp only | simp only [ok_mk]))

theorem ok_execVote {bb : Bool} {s : State} {f : OpA} (h : Ok bb s) : OkO bb (execVote f s) := by
  unfold execVote
  (try dsimp only) <;> with_reducible (repeat' (first | assumption | intro _ | apply okO_next | apply okO_refused | apply okO_no | apply okO_onlyIf | apply ok_alu | split | dsimp only | simp only [ok_mk]))

theorem ok_execShfl {bb : Bool} {s : State} {f : OpA} (h : Ok bb s) : OkO bb (execShfl f s) := by
  unfold execShfl
  (try dsimp only) <;> with_reducible (repeat' (first | assumption | intro _ | apply okO_next | apply okO_refused | apply okO_no | apply okO_onlyIf | apply ok_alu | split | dsimp only | simp only [ok_mk]))

theorem ok_execSlide {bb : Bool} {s : State} {f : OpA} (h : Ok bb s) : OkO bb (execSlide f s) := by
  unfold execSlide
  (try dsimp only) <;> with_reducible (repeat' (first | assumption | intro _ | apply okO_next | apply okO_refused | apply okO_no | apply okO_onlyIf | apply ok_alu | split | dsimp only | simp only [ok_mk]))

theorem ok_execRedux {bb : Bool} {s : State} {f : OpA} (h : Ok bb s) : OkO bb (execRedux f s) := by
  unfold execRedux
  (try dsimp only) <;> with_reducible (repeat' (first | assumption | intro _ | apply okO_next | apply okO_refused | apply okO_no | apply okO_onlyIf | apply ok_alu | split | dsimp only | simp only [ok_mk]))

theorem ok_execScan {bb : Bool} {s : State} {f : OpA} (h : Ok bb s) : OkO bb (execScan f s) := by
  unfold execScan
  (try dsimp only) <;> with_reducible (repeat' (first | assumption | intro _ | apply okO_next | apply okO_refused | apply okO_no | apply okO_onlyIf | apply ok_alu | split | dsimp only | simp only [ok_mk]))

theorem ok_execMatch {bb : Bool} {s : State} {f : OpA} (h : Ok bb s) : OkO bb (execMatch f s) := by
  unfold execMatch
  (try dsimp only) <;> with_reducible (repeat' (first | assumption | intro _ | apply okO_next | apply okO_refused | apply okO_no | apply okO_onlyIf | apply ok_alu | split | dsimp only | simp only [ok_mk]))

theorem ok_execPrmt {bb : Bool} {s : State} {f : OpA} (h : Ok bb s) : OkO bb (execPrmt f s) := by
  unfold execPrmt
  (try dsimp only) <;> with_reducible (repeat' (first | assumption | intro _ | apply okO_next | apply okO_refused | apply okO_no | apply okO_onlyIf | apply ok_alu | split | dsimp only | simp only [ok_mk]))

/-! ## Mem -/

theorem ok_notice {bb : Bool} {s : State} {d l : Nat} (h : Ok bb s) : Ok bb (State.notice s d l) := by
  unfold State.notice
  (try dsimp only) <;> with_reducible (repeat' (first | assumption | intro _ | apply ok_ite | apply ok_updDie | split | dsimp only | simp only [ok_mk]))

theorem ok_recall {bb : Bool} {s : State} {l : Nat} (h : Ok bb s) : Ok bb (State.recall s l) := by
  unfold State.recall
  (try dsimp only) <;> with_reducible (repeat' (first | assumption | intro _ | apply ok_foldl | apply ok_foldl1 | apply ok_foldl2 | apply ok_updL2 | apply ok_updDir | apply ok_notice | split | dsimp only | simp only [ok_mk] | refine ok_mem ?_ (canon_putLine _ _)))

theorem ok_passOn {bb : Bool} {s : State} {l : Nat} (h : Ok bb s) : Ok bb (State.passOn s l) := by
  unfold State.passOn
  (try dsimp only) <;> with_reducible (repeat' (first | assumption | intro _ | apply ok_foldl | apply ok_foldl1 | apply ok_foldl2 | apply ok_ite | apply ok_updL2 | apply ok_updDir | apply ok_notice | split | dsimp only | simp only [ok_mk] | refine ok_mem ?_ (canon_putLine _ _)))

theorem ok_noteWalk {bb : Bool} {s : State} {core : Nat} {r : Root} {va : Nat} (h : Ok bb s) : Ok bb (State.noteWalk s core r va) := by
  unfold State.noteWalk
  (try dsimp only) <;> with_reducible (repeat' (first | assumption | intro _ | apply ok_foldl | apply ok_foldl1 | apply ok_foldl2 | apply ok_ite | split | dsimp only | simp only [ok_mk]))

theorem ok_noteVa {bb : Bool} {s : State} {u va : Nat} (h : Ok bb s) : Ok bb (State.noteVa s u va) := by
  unfold State.noteVa
  (try dsimp only) <;> with_reducible (repeat' (first | assumption | intro _ | apply ok_ite | apply ok_noteWalk | split | dsimp only | simp only [ok_mk]))

theorem ok_noteAccess {bb : Bool} {s : State} {f : OpM} {off : Int} (h : Ok bb s) : Ok bb (State.noteAccess s f off) := by
  unfold State.noteAccess
  (try dsimp only) <;> with_reducible (repeat' (first | assumption | intro _ | apply ok_foldl | apply ok_foldl1 | apply ok_foldl2 | apply ok_noteVa | split | dsimp only | simp only [ok_mk]))

theorem ok_walkTrap {bb : Bool} {s : State} {f : OpM} {off : Int} {t : Trap} (h : Ok bb s) : OkF bb (State.walkTrap s f off t) := by
  unfold State.walkTrap
  (try dsimp only) <;> with_reducible (repeat' (first | assumption | intro _ | apply okF_done | apply okF_trapFrom | apply okF_trap | apply okF_waitFrom | apply okF_wait | apply okF_oldest | apply okF_parked | apply ok_ite | apply ok_trap | apply ok_noteAccess | split | dsimp only | simp only [ok_mk]))

theorem ok_noteReady {bb : Bool} {s : State} {r : Nat} (h : Ok bb s) : Ok bb (State.noteReady s r) := by
  unfold State.noteReady
  (try dsimp only) <;> with_reducible (repeat' (first | assumption | intro _ | apply ok_ite | split | dsimp only | simp only [ok_mk]))

theorem ok_pin {bb : Bool} {s : State} {r : Nat} (h : Ok bb s) : Ok bb (State.pin s r) := by
  unfold State.pin
  (try dsimp only) <;> with_reducible (repeat' (first | assumption | intro _ | apply ok_updRoot | split | dsimp only | simp only [ok_mk]))

theorem ok_unpin {bb : Bool} {s : State} {r : Nat} (h : Ok bb s) : Ok bb (State.unpin s r) := by
  unfold State.unpin
  (try dsimp only) <;> with_reducible (repeat' (first | assumption | intro _ | apply ok_updRoot | apply ok_noteReady | apply ok_pin | split | dsimp only | simp only [ok_mk]))

theorem ok_repin {bb : Bool} {s : State} {u : Nat} (h : Ok bb s) : Ok bb (State.repin s u) := by
  unfold State.repin
  (try dsimp only) <;> with_reducible (repeat' (first | assumption | intro _ | apply ok_ite | apply ok_updWarp | apply ok_pin | apply ok_unpin | split | dsimp only | simp only [ok_mk]))

end Sys2Proof.Machine
end

