-- ==== Sys2Proof/Laws/KeepMemory.lean ====
section
/-! SUPPORT. What coherence, the memory order, control flow and memory words keep. -/

namespace Sys2Proof.Machine

/-! ## Coherence -/

theorem ok_no {bb : Bool} {None : State} {row : String} (h : Ok bb None) : OkO bb (no row) := by
  unfold no
  (try dsimp only) <;> with_reducible (repeat' (first | assumption | intro _ | apply okO_next | apply okO_refused | apply okO_no | apply okO_onlyIf | split | dsimp only | simp only [ok_mk]))

theorem ok_onlyIf {bb : Bool} {s : State} {row : String} {c : Bool} (h : Ok bb s) : OkO bb (onlyIf row c s) := by
  unfold onlyIf
  (try dsimp only) <;> with_reducible (repeat' (first | assumption | intro _ | apply okO_next | apply okO_refused | apply okO_no | apply okO_onlyIf | apply ok_ite | apply ok_no | split | dsimp only | simp only [ok_mk]))

theorem ok_send {bb : Bool} {s : State} {m : Msg} (h : Ok bb s) : Ok bb (State.send s m) := by
  unfold State.send
  (try dsimp only) <;> with_reducible (repeat' (first | assumption | intro _ | split | dsimp only | simp only [ok_mk]))

theorem ok_takeMsg {bb : Bool} {s : State} {k : MsgKind} {d l : Nat} (h : Ok bb s) : OkS bb (·.2) (State.takeMsg s k d l) := by
  unfold State.takeMsg
  (try dsimp only) <;> with_reducible (repeat' (first | assumption | intro _ | apply okS_some | apply okS_none | apply ok_ite | split | dsimp only | simp only [ok_mk]))

theorem ok_takeMsg_eq {bb : Bool} {s t' : State} {a'} {k : MsgKind} {d l : Nat} (e_ : State.takeMsg s k d l = some (a', t')) (h : Ok bb s) : Ok bb t' := by
  have := ok_takeMsg (bb := bb) (s := s) (k := k) (d := d) (l := l) h; rw [e_] at this; exact this

theorem ok_takeReq {bb : Bool} {s : State} {k : MsgKind} {d l : Nat} (h : Ok bb s) : OkS bb (fun t => t) (State.takeReq s k d l) := by
  unfold State.takeReq
  (try dsimp only) <;> with_reducible (repeat' (first | assumption | intro _ | apply okS_some | apply okS_none | apply ok_ite | split | dsimp only | simp only [ok_mk]))

theorem ok_takeReq_eq {bb : Bool} {s t' : State} {k : MsgKind} {d l : Nat} (e_ : State.takeReq s k d l = some t') (h : Ok bb s) : Ok bb t' := by
  have := ok_takeReq (bb := bb) (s := s) (k := k) (d := d) (l := l) h; rw [e_] at this; exact this

theorem ok_endTxn {bb : Bool} {s : State} {l : Nat} (h : Ok bb s) : Ok bb (State.endTxn s l) := by
  unfold State.endTxn
  (try dsimp only) <;> with_reducible (repeat' (first | assumption | intro _ | apply ok_updDir | split | dsimp only | simp only [ok_mk]))

theorem ok_grantS {bb : Bool} {s : State} {d l st : Nat} (h : Ok bb s) : Ok bb (State.grantS s d l st) := by
  unfold State.grantS
  (try dsimp only) <;> with_reducible (repeat' (first | assumption | intro _ | apply ok_updDir | apply ok_send | apply ok_endTxn | split | dsimp only | simp only [ok_mk]))

theorem ok_grantE {bb : Bool} {s : State} {d l : Nat} (h : Ok bb s) : Ok bb (State.grantE s d l) := by
  unfold State.grantE
  (try dsimp only) <;> with_reducible (repeat' (first | assumption | intro _ | apply ok_updDir | apply ok_send | apply ok_endTxn | split | dsimp only | simp only [ok_mk]))

theorem ok_grantM {bb : Bool} {s : State} {d l : Nat} (h : Ok bb s) : Ok bb (State.grantM s d l) := by
  unfold State.grantM
  (try dsimp only) <;> with_reducible (repeat' (first | assumption | intro _ | apply ok_updDir | apply ok_send | apply ok_endTxn | split | dsimp only | simp only [ok_mk]))

theorem ok_grantUp {bb : Bool} {s : State} {d l : Nat} (h : Ok bb s) : Ok bb (State.grantUp s d l) := by
  unfold State.grantUp
  (try dsimp only) <;> with_reducible (repeat' (first | assumption | intro _ | apply ok_updDir | apply ok_send | apply ok_endTxn | split | dsimp only | simp only [ok_mk]))

theorem ok_snoopAll {bb : Bool} {s : State} {k : MsgKind} {ds : BitVec 8} {l : Nat} (h : Ok bb s) : Ok bb (State.snoopAll s k ds l) := by
  unfold State.snoopAll
  (try dsimp only) <;> with_reducible (repeat' (first | assumption | intro _ | apply ok_foldl | apply ok_foldl1 | apply ok_foldl2 | apply ok_send | split | dsimp only | simp only [ok_mk]))

theorem ok_throughLlc {bb : Bool} {s : State} {d l : Nat} (h : Ok bb s) : Ok bb (State.throughLlc s d l) := by
  unfold State.throughLlc
  (try dsimp only) <;> with_reducible (repeat' (first | assumption | intro _ | apply ok_ite | apply ok_llcAccess | split | dsimp only | simp only [ok_mk]))

theorem ok_serve {bb : Bool} {s : State} {k : MsgKind} {d l : Nat} (h : Ok bb s) : Ok bb (State.serve s k d l) := by
  unfold State.serve
  (try dsimp only) <;> with_reducible (repeat' (first | assumption | intro _ | apply ok_ite | apply ok_updDir | apply ok_send | apply ok_grantS | apply ok_grantE | apply ok_grantM | apply ok_grantUp | apply ok_snoopAll | apply ok_throughLlc | split | dsimp only | simp only [ok_mk]))

theorem ok_take {bb : Bool} {s : State} {k : MsgKind} {d l : Nat} (h : Ok bb s) : Ok bb (State.take s k d l) := by
  unfold State.take
  (try dsimp only) <;> with_reducible (repeat' (first | assumption | intro _ | apply ok_ite | apply ok_updDir | apply ok_serve | split | dsimp only | simp only [ok_mk]))

theorem ok_answered {bb : Bool} {s : State} {l : Nat} (h : Ok bb s) : Ok bb (State.answered s l) := by
  unfold State.answered
  (try dsimp only) <;> with_reducible (repeat' (first | assumption | intro _ | apply okF_done | apply okF_trapFrom | apply okF_trap | apply okF_waitFrom | apply okF_wait | apply okF_oldest | apply okF_parked | apply ok_ite | apply ok_grantS | apply ok_grantM | apply ok_grantUp | apply ok_serve | split | dsimp only | simp only [ok_mk]))

theorem ok_unwait {bb : Bool} {s : State} {d l : Nat} (h : Ok bb s) : Ok bb (State.unwait s d l) := by
  unfold State.unwait
  (try dsimp only) <;> with_reducible (repeat' (first | assumption | intro _ | apply okF_done | apply okF_trapFrom | apply okF_trap | apply okF_waitFrom | apply okF_wait | apply okF_oldest | apply okF_parked | apply ok_updDir | split | dsimp only | simp only [ok_mk]))

theorem ok_dropSnoop {bb : Bool} {s : State} {d l : Nat} (h : Ok bb s) : Ok bb (State.dropSnoop s d l) := by
  unfold State.dropSnoop
  (try dsimp only) <;> with_reducible (repeat' (first | assumption | intro _ | apply ok_updL2 | split | dsimp only | simp only [ok_mk]))

theorem ok_unshare {bb : Bool} {s : State} {d l : Nat} (h : Ok bb s) : Ok bb (State.unshare s d l) := by
  unfold State.unshare
  (try dsimp only) <;> with_reducible (repeat' (first | assumption | intro _ | apply ok_ite | apply ok_updDir | split | dsimp only | simp only [ok_mk]))

theorem ok_wbAck {bb : Bool} {s : State} {d l : Nat} (h : Ok bb s) : Ok bb (State.wbAck s d l) := by
  unfold State.wbAck
  (try dsimp only) <;> with_reducible (repeat' (first | assumption | intro _ | apply ok_ite | apply ok_updDir | apply ok_send | split | dsimp only | simp only [ok_mk]))

theorem ok_homeData {bb : Bool} {s : State} {m : Msg} (h : Ok bb s) : Ok bb (State.homeData s m) := by
  unfold State.homeData
  (try dsimp only) <;> with_reducible (repeat' (first | assumption | intro _ | split | dsimp only | simp only [ok_mk] | refine ok_mem ?_ (canon_putLine _ _)))

theorem ok_toState {bb : Bool} {s : State} {d l : Nat} {st : L2St} (h : Ok bb s) : Ok bb (State.toState s d l st) := by
  unfold State.toState
  (try dsimp only) <;> with_reducible (repeat' (first | assumption | intro _ | apply ok_updL2 | split | dsimp only | simp only [ok_mk]))

theorem ok_execRds {bb : Bool} {s : State} {ph : Phase} {d l : Nat} (h : Ok bb s) : OkO bb (execRds ph d l s) := by
  unfold execRds
  (try dsimp only) <;> with_reducible (repeat' (first | assumption | intro _ | refine ok_takeReq_eq (by assumption) ?_ | apply okO_next | apply okO_refused | apply okO_no | apply okO_onlyIf | apply ok_no | apply ok_onlyIf | apply ok_send | apply ok_takeReq | apply ok_take | apply ok_toState | split | dsimp only | simp only [ok_mk]))

theorem ok_execRdx {bb : Bool} {s : State} {ph : Phase} {d l : Nat} (h : Ok bb s) : OkO bb (execRdx ph d l s) := by
  unfold execRdx
  (try dsimp only) <;> with_reducible (repeat' (first | assumption | intro _ | refine ok_takeReq_eq (by assumption) ?_ | apply okO_next | apply okO_refused | apply okO_no | apply okO_onlyIf | apply ok_no | apply ok_onlyIf | apply ok_send | apply ok_takeReq | apply ok_take | apply ok_toState | split | dsimp only | simp only [ok_mk]))

theorem ok_execUpg {bb : Bool} {s : State} {ph : Phase} {d l : Nat} (h : Ok bb s) : OkO bb (execUpg ph d l s) := by
  unfold execUpg
  (try dsimp only) <;> with_reducible (repeat' (first | assumption | intro _ | refine ok_takeReq_eq (by assumption) ?_ | apply okO_next | apply okO_refused | apply okO_no | apply okO_onlyIf | apply ok_no | apply ok_onlyIf | apply ok_send | apply ok_takeReq | apply ok_take | apply ok_toState | split | dsimp only | simp only [ok_mk]))

theorem ok_execWbd {bb : Bool} {s : State} {ph : Phase} {d l : Nat} (h : Ok bb s) : OkO bb (execWbd ph d l s) := by
  unfold execWbd
  (try dsimp only) <;> with_reducible (repeat' (first | assumption | intro _ | refine ok_takeMsg_eq (by assumption) ?_ | apply okO_next | apply okO_refused | apply okO_no | apply okO_onlyIf | apply okF_done | apply okF_trapFrom | apply okF_trap | apply okF_waitFrom | apply okF_wait | apply okF_oldest | apply okF_parked | apply ok_ite | apply ok_updDir | apply ok_notice | apply ok_no | apply ok_onlyIf | apply ok_send | apply ok_takeMsg | apply ok_take | apply ok_answered | apply ok_unwait | apply ok_unshare | apply ok_wbAck | apply ok_homeData | apply ok_toState | split | dsimp only | simp only [ok_mk]))

theorem ok_execEvc {bb : Bool} {s : State} {ph : Phase} {d l : Nat} (h : Ok bb s) : OkO bb (execEvc ph d l s) := by
  unfold execEvc
  (try dsimp only) <;> with_reducible (repeat' (first | assumption | intro _ | refine ok_takeMsg_eq (by assumption) ?_ | apply okO_next | apply okO_refused | apply okO_no | apply okO_onlyIf | apply ok_ite | apply ok_updL2 | apply ok_notice | apply ok_no | apply ok_onlyIf | apply ok_send | apply ok_takeMsg | apply ok_take | apply ok_answered | apply ok_unwait | apply ok_dropSnoop | apply ok_unshare | split | dsimp only | simp only [ok_mk]))

theorem ok_snooped {bb : Bool} {s : State} {k : MsgKind} {n d l : Nat} (h : Ok bb s) : OkS bb (fun t => t) (State.snooped s k n d l) := by
  unfold State.snooped
  (try dsimp only) <;> with_reducible (repeat' (first | assumption | intro _ | refine ok_takeMsg_eq (by assumption) ?_ | apply okS_some | apply okS_none | apply ok_updL2 | apply ok_notice | apply ok_takeMsg | split | dsimp only | simp only [ok_mk]))

theorem ok_snooped_eq {bb : Bool} {s t' : State} {k : MsgKind} {n d l : Nat} (e_ : State.snooped s k n d l = some t') (h : Ok bb s) : Ok bb t' := by
  have := ok_snooped (bb := bb) (s := s) (k := k) (n := n) (d := d) (l := l) h; rw [e_] at this; exact this

theorem ok_execSnpinv {bb : Bool} {s : State} {d l : Nat} (h : Ok bb s) : OkO bb (execSnpinv d l s) := by
  unfold execSnpinv
  (try dsimp only) <;> with_reducible (repeat' (first | assumption | intro _ | refine ok_snooped_eq (by assumption) ?_ | apply okO_next | apply okO_refused | apply okO_no | apply okO_onlyIf | apply ok_no | apply ok_snooped | split | dsimp only | simp only [ok_mk]))

theorem ok_execSnpfwd {bb : Bool} {s : State} {d l : Nat} (h : Ok bb s) : OkO bb (execSnpfwd d l s) := by
  unfold execSnpfwd
  (try dsimp only) <;> with_reducible (repeat' (first | assumption | intro _ | refine ok_snooped_eq (by assumption) ?_ | apply okO_next | apply okO_refused | apply okO_no | apply okO_onlyIf | apply ok_no | apply ok_snooped | split | dsimp only | simp only [ok_mk]))

theorem ok_execSnpfwdx {bb : Bool} {s : State} {d l : Nat} (h : Ok bb s) : OkO bb (execSnpfwdx d l s) := by
  unfold execSnpfwdx
  (try dsimp only) <;> with_reducible (repeat' (first | assumption | intro _ | refine ok_snooped_eq (by assumption) ?_ | apply okO_next | apply okO_refused | apply okO_no | apply okO_onlyIf | apply ok_no | apply ok_snooped | split | dsimp only | simp only [ok_mk]))

theorem ok_giveUp {bb : Bool} {s : State} {d l : Nat} (h : Ok bb s) : Ok bb (State.giveUp s d l) := by
  unfold State.giveUp
  (try dsimp only) <;> with_reducible (repeat' (first | assumption | intro _ | apply ok_updL2 | split | dsimp only | simp only [ok_mk]))

theorem ok_execAckinv {bb : Bool} {s : State} {ph : Phase} {d l : Nat} (h : Ok bb s) : OkO bb (execAckinv ph d l s) := by
  unfold execAckinv
  (try dsimp only) <;> with_reducible (repeat' (first | assumption | intro _ | refine ok_takeMsg_eq (by assumption) ?_ | apply okO_next | apply okO_refused | apply okO_no | apply okO_onlyIf | apply ok_no | apply ok_onlyIf | apply ok_send | apply ok_takeMsg | apply ok_take | apply ok_answered | apply ok_unwait | apply ok_unshare | apply ok_giveUp | split | dsimp only | simp only [ok_mk]))

theorem ok_execRspd {bb : Bool} {s : State} {ph : Phase} {d l : Nat} (h : Ok bb s) : OkO bb (execRspd ph d l s) := by
  unfold execRspd
  (try dsimp only) <;> with_reducible (repeat' (first | assumption | intro _ | refine ok_takeMsg_eq (by assumption) ?_ | apply okO_next | apply okO_refused | apply okO_no | apply okO_onlyIf | apply okF_done | apply okF_trapFrom | apply okF_trap | apply okF_waitFrom | apply okF_wait | apply okF_oldest | apply okF_parked | apply ok_ite | apply ok_updL2 | apply ok_updDir | apply ok_no | apply ok_onlyIf | apply ok_send | apply ok_takeMsg | apply ok_endTxn | apply ok_take | apply ok_answered | apply ok_unwait | apply ok_unshare | apply ok_homeData | apply ok_giveUp | split | dsimp only | simp only [ok_mk]))

theorem ok_execRspi {bb : Bool} {s : State} {ph : Phase} {d l : Nat} (h : Ok bb s) : OkO bb (execRspi ph d l s) := by
  unfold execRspi
  (try dsimp only) <;> with_reducible (repeat' (first | assumption | intro _ | refine ok_takeMsg_eq (by assumption) ?_ | apply okO_next | apply okO_refused | apply okO_no | apply okO_onlyIf | apply ok_ite | apply ok_updL2 | apply ok_no | apply ok_onlyIf | apply ok_send | apply ok_takeMsg | apply ok_take | apply ok_answered | apply ok_unwait | apply ok_unshare | split | dsimp only | simp only [ok_mk]))

theorem ok_received {bb : Bool} {s : State} {k : MsgKind} {d l : Nat} {sts : List L2St} {st : L2St} {data : Bool} (h : Ok bb s) : OkS bb (fun t => t) (State.received s k d l sts st data) := by
  unfold State.received
  (try dsimp only) <;> with_reducible (repeat' (first | assumption | intro _ | refine ok_takeMsg_eq (by assumption) ?_ | apply okS_some | apply okS_none | apply ok_ite | apply ok_updL2 | apply ok_takeMsg | apply ok_toState | split | dsimp only | simp only [ok_mk]))

theorem ok_received_eq {bb : Bool} {s t' : State} {k : MsgKind} {d l : Nat} {sts : List L2St} {st : L2St} {data : Bool} (e_ : State.received s k d l sts st data = some t') (h : Ok bb s) : Ok bb t' := by
  have := ok_received (bb := bb) (s := s) (k := k) (d := d) (l := l) (sts := sts) (st := st) (data := data) h; rw [e_] at this; exact this

theorem ok_execDats {bb : Bool} {s : State} {d l : Nat} (h : Ok bb s) : OkO bb (execDats d l s) := by
  unfold execDats
  (try dsimp only) <;> with_reducible (repeat' (first | assumption | intro _ | refine ok_received_eq (by assumption) ?_ | apply okO_next | apply okO_refused | apply okO_no | apply okO_onlyIf | apply ok_no | apply ok_received | split | dsimp only | simp only [ok_mk]))

theorem ok_execDate {bb : Bool} {s : State} {d l : Nat} (h : Ok bb s) : OkO bb (execDate d l s) := by
  unfold execDate
  (try dsimp only) <;> with_reducible (repeat' (first | assumption | intro _ | refine ok_received_eq (by assumption) ?_ | apply okO_next | apply okO_refused | apply okO_no | apply okO_onlyIf | apply ok_no | apply ok_received | split | dsimp only | simp only [ok_mk]))

theorem ok_execDatm {bb : Bool} {s : State} {d l : Nat} (h : Ok bb s) : OkO bb (execDatm d l s) := by
  unfold execDatm
  (try dsimp only) <;> with_reducible (repeat' (first | assumption | intro _ | refine ok_received_eq (by assumption) ?_ | apply okO_next | apply okO_refused | apply okO_no | apply okO_onlyIf | apply ok_no | apply ok_received | split | dsimp only | simp only [ok_mk]))

theorem ok_execGrant {bb : Bool} {s : State} {d l : Nat} (h : Ok bb s) : OkO bb (execGrant d l s) := by
  unfold execGrant
  (try dsimp only) <;> with_reducible (repeat' (first | assumption | intro _ | refine ok_received_eq (by assumption) ?_ | apply okO_next | apply okO_refused | apply okO_no | apply okO_onlyIf | apply ok_no | apply ok_received | split | dsimp only | simp only [ok_mk]))

theorem ok_execWback {bb : Bool} {s : State} {d l : Nat} (h : Ok bb s) : OkO bb (execWback d l s) := by
  unfold execWback
  (try dsimp only) <;> with_reducible (repeat' (first | assumption | intro _ | refine ok_takeMsg_eq (by assumption) ?_ | apply okO_next | apply okO_refused | apply okO_no | apply okO_onlyIf | apply ok_ite | apply ok_updL2 | apply ok_no | apply ok_takeMsg | split | dsimp only | simp only [ok_mk]))

theorem ok_execBackInvalidate {bb : Bool} {s : State} {l : Nat} (h : Ok bb s) : OkO bb (execBackInvalidate l s) := by
  unfold execBackInvalidate
  (try dsimp only) <;> with_reducible (repeat' (first | assumption | intro _ | apply okO_next | apply okO_refused | apply okO_no | apply okO_onlyIf | apply ok_ite | apply ok_updDir | apply ok_no | split | dsimp only | simp only [ok_mk]))

theorem ok_execBackInvalidationResponse {bb : Bool} {s : State} {l : Nat} (h : Ok bb s) : OkO bb (execBackInvalidationResponse l s) := by
  unfold execBackInvalidationResponse
  (try dsimp only) <;> with_reducible (repeat' (first | assumption | intro _ | apply okO_next | apply okO_refused | apply okO_no | apply okO_onlyIf | apply ok_ite | apply ok_updDir | apply ok_no | apply ok_serve | split | dsimp only | simp only [ok_mk]))

theorem ok_execHostCacheResponse {bb : Bool} {s : State} {l : Nat} {data : HostLine} (h : Ok bb s) : OkO bb (execHostCacheResponse l data s) := by
  unfold execHostCacheResponse
  (try dsimp only) <;> with_reducible (repeat' (first | assumption | intro _ | apply okO_next | apply okO_refused | apply okO_no | apply okO_onlyIf | apply ok_foldl | apply ok_foldl1 | apply ok_foldl2 | apply ok_ite | apply ok_updDir | apply ok_no | apply ok_serve | split | dsimp only | simp only [ok_mk] | refine ok_mem ?_ (canon_foldl _ _ fun _ _ c => Tab.canon_set _ _ c)))

/-! ## CtlSpace -/

theorem ok_postEngine {bb : Bool} {s : State} {o : EngOp} (h : Ok bb s) : Ok bb (State.postEngine s o) := by
  unfold State.postEngine
  (try dsimp only) <;> with_reducible (repeat' (first | assumption | intro _ | refine ok_fqPost_eq (by assumption) ?_ | apply ok_ite | apply ok_updOp | apply ok_fqPost | split | dsimp only | simp only [ok_mk]))

theorem ok_postWaiting {bb : Bool} {s : State} {t : Nat} (h : Ok bb s) : Ok bb (State.postWaiting s t) := by
  unfold State.postWaiting
  (try dsimp only) <;> with_reducible (repeat' (first | assumption | intro _ | refine ok_fqPost_eq (by assumption) ?_ | apply okF_done | apply okF_trapFrom | apply okF_trap | apply okF_waitFrom | apply okF_wait | apply okF_oldest | apply okF_parked | apply ok_foldl | apply ok_foldl1 | apply ok_foldl2 | apply ok_ite | apply ok_fqPost | apply ok_postEngine | split | dsimp only | simp only [ok_mk]))

theorem ok_askReplay {bb : Bool} {s : State} (h : Ok bb s) : Ok bb (State.askReplay s) := by
  unfold State.askReplay
  (try dsimp only) <;> with_reducible (repeat' (first | assumption | intro _ | split | dsimp only | simp only [ok_mk]))

theorem ok_ctlWrite {bb : Bool} {s : State} {o n v : Nat} (h : Ok bb s) : Ok bb (State.ctlWrite s o n v) := by
  unfold State.ctlWrite
  (try dsimp only) <;> with_reducible (repeat' (first | assumption | intro _ | apply ok_ite | apply ok_updTenant | apply ok_updAsd | apply ok_updPool | apply ok_postWaiting | apply ok_askReplay | split | dsimp only | simp only [ok_mk, ok_mkp]))

/-! ## Order -/

theorem ok_wakeAll {bb : Bool} {s : State} {ta : Nat} {team : Option Nat} {status : Nat} (h : Ok bb s) : Ok bb (State.wakeAll s ta team status) := by
  unfold State.wakeAll
  (try dsimp only) <;> with_reducible (repeat' (first | assumption | intro _ | apply okF_done | apply okF_trapFrom | apply okF_trap | apply okF_waitFrom | apply okF_wait | apply okF_oldest | apply okF_parked | apply ok_foldl | apply ok_foldl1 | apply ok_foldl2 | apply ok_wake | split | dsimp only | simp only [ok_mk]))

theorem ok_scrPut {bb : Bool} {s : State} {team off : Nat} {bs : List Byte} (h : Ok bb s) : Ok bb (State.scrPut s team off bs) := by
  unfold State.scrPut
  (try dsimp only) <;> with_reducible (repeat' (first | assumption | intro _ | apply ok_foldl | apply ok_foldl1 | apply ok_foldl2 | apply ok_ite | apply ok_updTeam | split | dsimp only | simp only [ok_mk] | refine ok_mem ?_ (canon_foldl _ _ fun _ _ c => Tab.canon_set _ _ c)))

theorem ok_putReq {bb : Bool} {s : State} {r : Req} (h : Ok bb s) : Ok bb (State.putReq s r) := by
  unfold State.putReq
  (try dsimp only) <;> with_reducible (repeat' (first | assumption | intro _ | apply ok_ite | split | dsimp only | simp only [ok_mk]))

theorem ok_dropReq {bb : Bool} {s : State} {i : Nat} (h : Ok bb s) : Ok bb (State.dropReq s i) := by
  unfold State.dropReq
  (try dsimp only) <;> with_reducible (repeat' (first | assumption | intro _ | split | dsimp only | simp only [ok_mk]))

theorem ok_localWrite {bb : Bool} {s : State} {r : Req} {a : Acc} {v : Nat} (h : Ok bb s) : Ok bb (State.localWrite s r a v) := by
  unfold State.localWrite
  (try dsimp only) <;> with_reducible (repeat' (first | assumption | intro _ | apply ok_foldl | apply ok_foldl1 | apply ok_foldl2 | apply ok_ite | apply ok_updWarp | apply ok_updArch | apply ok_ctlWrite | apply ok_scrPut | split | dsimp only | simp only [ok_mk]))

theorem ok_storeToCopy {bb : Bool} {s : State} {c l id : Nat} {bs : Tab Byte} (h : Ok bb s) : Ok bb (State.storeToCopy s c l id bs) := by
  unfold State.storeToCopy
  (try dsimp only) <;> with_reducible (repeat' (first | assumption | intro _ | apply ok_foldl | apply ok_foldl1 | apply ok_foldl2 | apply ok_updCore | split | dsimp only | simp only [ok_mk]))

theorem ok_dropCopy {bb : Bool} {s : State} {c l : Nat} (h : Ok bb s) : Ok bb (State.dropCopy s c l) := by
  unfold State.dropCopy
  (try dsimp only) <;> with_reducible (repeat' (first | assumption | intro _ | apply ok_updCore | split | dsimp only | simp only [ok_mk]))

theorem ok_enterBay {bb : Bool} {s : State} {r : Req} {as : List Acc} (h : Ok bb s) : Ok bb (State.enterBay s r as) := by
  unfold State.enterBay
  (try dsimp only) <;> with_reducible (repeat' (first | assumption | intro _ | apply ok_foldl | apply ok_foldl1 | apply ok_foldl2 | apply ok_ite | apply ok_bump | apply ok_storeToCopy | apply ok_dropCopy | split | dsimp only | simp only [ok_mk]))

theorem ok_addPend {bb : Bool} {s : State} {u n : Nat} (h : Ok bb s) : Ok bb (State.addPend s u n) := by
  unfold State.addPend
  (try dsimp only) <;> with_reducible (repeat' (first | assumption | intro _ | apply ok_updWarp | split | dsimp only | simp only [ok_mk]))

theorem ok_updateLocal {bb : Bool} {s : State} {r : Req} (h : Ok bb s) : Ok bb (State.updateLocal s r).1 := by
  unfold State.updateLocal
  (try dsimp only) <;> with_reducible (repeat' (first | assumption | intro _ | apply ok_foldl | apply ok_foldl1 | apply ok_foldl2 | apply ok_ite | apply ok_localWrite | split | dsimp only | simp only [ok_mk]))

theorem ok_updateLocal_eq {bb : Bool} {s t' : State} {a'} {r : Req} (e_ : State.updateLocal s r = (t', a')) (h : Ok bb s) : Ok bb t' := by
  have := ok_updateLocal (bb := bb) (s := s) (r := r) h; rw [e_] at this; exact this

theorem ok_barOp {bb : Bool} {s : State} {r : Req} {op : Nat} {a : Acc} {team : Option Nat} {x : Nat} (h : Ok bb s) : Ok bb (State.barOp s r op a team x).2 := by
  unfold State.barOp
  (try dsimp only) <;> with_reducible (repeat' (first | assumption | intro _ | apply ok_ite | apply ok_wake | apply ok_setWait | apply ok_wakeAll | apply ok_putReq | apply ok_dropReq | split | dsimp only | simp only [ok_mk]))

theorem ok_barOp_eq {bb : Bool} {s t' : State} {a'} {r : Req} {op : Nat} {a : Acc} {team : Option Nat} {x : Nat} (e_ : State.barOp s r op a team x = (a', t')) (h : Ok bb s) : Ok bb t' := by
  have := ok_barOp (bb := bb) (s := s) (r := r) (op := op) (a := a) (team := team) (x := x) h; rw [e_] at this; exact this

theorem ok_doWaita {bb : Bool} {s : State} {r : Req} {cmp e m tmo : Nat} (h : Ok bb s) : Ok bb (State.doWaita s r cmp e m tmo) := by
  unfold State.doWaita
  (try dsimp only) <;> with_reducible (repeat' (first | assumption | intro _ | apply okF_done | apply okF_trapFrom | apply okF_trap | apply okF_waitFrom | apply okF_wait | apply okF_oldest | apply okF_parked | apply ok_ite | apply ok_wake | apply ok_setWait | apply ok_dropReq | split | dsimp only | simp only [ok_mk]))

theorem ok_fenced {bb : Bool} {s : State} {r : Req} (h : Ok bb s) : Ok bb (State.fenced s r) := by
  unfold State.fenced
  (try dsimp only) <;> with_reducible (repeat' (first | assumption | intro _ | apply ok_ite | apply ok_updWarp | apply ok_bump | apply ok_updArch | split | dsimp only | simp only [ok_mk]))

theorem ok_capture {bb : Bool} {s : State} {o : Nat} (h : Ok bb s) : Ok bb (State.capture s o) := by
  unfold State.capture
  (try dsimp only) <;> with_reducible (repeat' (first | assumption | intro _ | apply ok_updOp | apply ok_bump | split | dsimp only | simp only [ok_mk]))

theorem ok_start {bb : Bool} {s : State} {r : Req} (h : Ok bb s) : Ok bb (State.start s r) := by
  unfold State.start
  (try dsimp only) <;> with_reducible (repeat' (first | assumption | intro _ | refine ok_updateLocal_eq (by assumption) ?_ | refine ok_barOp_eq (by assumption) ?_ | apply okF_done | apply okF_trapFrom | apply okF_trap | apply okF_waitFrom | apply okF_wait | apply okF_oldest | apply okF_parked | apply ok_foldl | apply ok_foldl1 | apply ok_foldl2 | apply ok_ite | apply ok_updCore | apply ok_updDie | apply ok_bump | apply ok_scrPut | apply ok_putReq | apply ok_dropReq | apply ok_dropCopy | apply ok_enterBay | apply ok_addPend | apply ok_updateLocal | apply ok_barOp | apply ok_doWaita | apply ok_fenced | apply ok_capture | split | dsimp only | simp only [ok_mk]))

theorem ok_await {bb : Bool} {s : State} {id : Nat} {d : Dst} {k : Nat} {ls : Lanes} (h : Ok bb s) : Ok bb (State.await s id d k ls) := by
  unfold State.await
  (try dsimp only) <;> with_reducible (repeat' (first | assumption | intro _ | apply okF_done | apply okF_trapFrom | apply okF_trap | apply okF_waitFrom | apply okF_wait | apply okF_oldest | apply okF_parked | apply ok_updMy | apply ok_trap | split | dsimp only | simp only [ok_mk]))

theorem ok_submit {bb : Bool} {s : State} {r : Req} {t : State → State} (h : Ok bb s) (he : ∀ x0_, Ok bb x0_ → Ok bb (t x0_)) : OkF bb (State.submit s r t) := by
  unfold State.submit
  (try dsimp only) <;> with_reducible (repeat' (first | assumption | intro _ | apply okF_done | apply okF_trapFrom | apply okF_trap | apply okF_waitFrom | apply okF_wait | apply okF_oldest | apply okF_parked | apply ok_ite | apply ok_bump | apply ok_trap | apply ok_putReq | apply ok_start | apply he | split | dsimp only | simp only [ok_mk]))

theorem ok_execReleaseIssue {bb : Bool} {s : State} {held : Nat} (h : Ok bb s) : OkO bb (execReleaseIssue held s) := by
  unfold execReleaseIssue
  (try dsimp only) <;> with_reducible (repeat' (first | assumption | intro _ | apply okO_next | apply okO_refused | apply okO_no | apply okO_onlyIf | apply ok_no | apply ok_onlyIf | apply ok_start | split | dsimp only | simp only [ok_mk]))

theorem ok_grantLease {bb : Bool} {s : State} {d l : Nat} (h : Ok bb s) : Ok bb (State.grantLease s d l) := by
  unfold State.grantLease
  (try dsimp only) <;> with_reducible (repeat' (first | assumption | intro _ | apply ok_ite | apply ok_updL2 | split | dsimp only | simp only [ok_mk]))

theorem ok_install {bb : Bool} {s : State} {c l pol : Nat} (h : Ok bb s) : Ok bb (State.install s c l pol) := by
  unfold State.install
  (try dsimp only) <;> with_reducible (repeat' (first | assumption | intro _ | apply ok_foldl | apply ok_foldl1 | apply ok_foldl2 | apply ok_updCore | apply ok_bump | apply ok_trimL1 | apply ok_grantLease | split | dsimp only | simp only [ok_mk]))

/-- Posted writes that reach the host keep memory canonical. -/
theorem canon_deliverPosted (n : Nat) (es : List Posted) (k : Nat) {m : Tab Byte} (h : Tab.canon (0 : Byte) m = true) :
    Tab.canon (0 : Byte) (deliverPosted n es k m) = true := by
  induction n generalizing es k m with
  | zero => exact h
  | succ n ih =>
    unfold deliverPosted
    split
    · exact h
    · exact ih _ _ (canon_setBytes _ h)

theorem ok_pushPosted {bb : Bool} {s : State} (h : Ok bb s) : Ok bb (State.pushPosted s) :=
  ok_mem h (canon_deliverPosted _ _ _)

theorem ok_execFetch {bb : Bool} {s : State} {load l : Nat} (h : Ok bb s) : OkO bb (execFetch load l s) := by
  unfold execFetch
  (try dsimp only) <;> with_reducible (repeat' (first | assumption | intro _ | apply okO_next | apply okO_refused | apply okO_no | apply okO_onlyIf | apply ok_ite | apply ok_updReq | apply ok_updL2 | apply ok_no | apply ok_onlyIf | apply ok_dropCopy | apply ok_install | apply ok_pushPosted | split | dsimp only | simp only [ok_mk]))

theorem ok_execLeaseExpiry {bb : Bool} {s : State} {c l : Nat} (h : Ok bb s) : OkO bb (execLeaseExpiry c l s) := by
  unfold execLeaseExpiry
  (try dsimp only) <;> with_reducible (repeat' (first | assumption | intro _ | apply okO_next | apply okO_refused | apply okO_no | apply okO_onlyIf | apply ok_no | apply ok_onlyIf | apply ok_dropCopy | split | dsimp only | simp only [ok_mk]))

theorem ok_coreAtomic {bb : Bool} {s : State} {r : Req} (h : Ok bb s) : Ok bb (State.coreAtomic s r).1 := by
  unfold State.coreAtomic
  (try dsimp only) <;> with_reducible (repeat' (first | assumption | intro _ | apply ok_foldl | apply ok_foldl1 | apply ok_foldl2 | apply ok_ite | apply ok_consumedAt | apply ok_storeToCopy | split | dsimp only | simp only [ok_mk]))

theorem ok_coreAtomic_eq {bb : Bool} {s t' : State} {a'} {r : Req} (e_ : State.coreAtomic s r = (t', a')) (h : Ok bb s) : Ok bb t' := by
  have := ok_coreAtomic (bb := bb) (s := s) (r := r) h; rw [e_] at this; exact this

theorem ok_returnLoad {bb : Bool} {s : State} {load : Nat} (h : Ok bb s) : OkO bb (returnLoad load s) := by
  unfold returnLoad
  (try dsimp only) <;> with_reducible (repeat' (first | assumption | intro _ | refine ok_coreAtomic_eq (by assumption) ?_ | apply okO_next | apply okO_refused | apply okO_no | apply okO_onlyIf | apply ok_ite | apply ok_updWarp | apply ok_no | apply ok_onlyIf | apply ok_dropReq | apply ok_coreAtomic | split | dsimp only | simp only [ok_mk]))

theorem ok_returnOld {bb : Bool} {s : State} {w : Write} {as : List Acc} (h : Ok bb s) : Ok bb (State.returnOld s w as) := by
  unfold State.returnOld
  (try dsimp only) <;> with_reducible (repeat' (first | assumption | intro _ | apply ok_updReq | split | dsimp only | simp only [ok_mk]))

theorem ok_performed {bb : Bool} {s : State} {w : Write} {bs : Tab Byte} {g : Nat} (h : Ok bb s) : Ok bb (State.performed s w bs g) := by
  unfold State.performed
  (try dsimp only) <;> with_reducible (repeat' (first | assumption | intro _ | apply ok_ite | apply ok_updTenant | apply ok_bump | apply ok_evalWaits | split | dsimp only | simp only [ok_mk]))

theorem ok_performDie {bb : Bool} {s : State} {w : Write} (h : Ok bb s) : Ok bb (State.performDie s w) := by
  unfold State.performDie
  (try dsimp only) <;> with_reducible (repeat' (first | assumption | intro _ | apply ok_ite | apply ok_updL2 | apply ok_logErr | apply ok_notice | apply ok_returnOld | apply ok_performed | split | dsimp only | simp only [ok_mk]))

theorem ok_performHome {bb : Bool} {s : State} {w : Write} {l g : Nat} (h : Ok bb s) : Ok bb (State.performHome s w l g) := by
  unfold State.performHome
  (try dsimp only) <;> with_reducible (repeat' (first | assumption | intro _ | apply ok_foldl | apply ok_foldl1 | apply ok_foldl2 | apply ok_ite | apply ok_logErr | apply ok_llcAccess | apply ok_returnOld | apply ok_performed | split | dsimp only | simp only [ok_mk] | refine ok_mem ?_ (canon_foldl _ _ fun _ _ c => Tab.canon_set _ _ c)))

theorem ok_cleanLine {bb : Bool} {s : State} {d l : Nat} {inv : Bool} (h : Ok bb s) : Ok bb (State.cleanLine s d l inv) := by
  unfold State.cleanLine
  (try dsimp only) <;> with_reducible (repeat' (first | assumption | intro _ | apply ok_ite | apply ok_updL2 | apply ok_updDir | apply ok_notice | apply ok_unshare | apply ok_toState | split | dsimp only | simp only [ok_mk] | refine ok_mem ?_ (canon_putLine _ _)))

theorem ok_performClean {bb : Bool} {s : State} {w : Write} {inv : Bool} (h : Ok bb s) : OkO bb (State.performClean s w inv) := by
  unfold State.performClean
  (try dsimp only) <;> with_reducible (repeat' (first | assumption | intro _ | apply okO_next | apply okO_refused | apply okO_no | apply okO_onlyIf | apply ok_foldl | apply ok_foldl1 | apply ok_foldl2 | apply ok_ite | apply ok_onlyIf | apply ok_performed | apply ok_cleanLine | split | dsimp only | simp only [ok_mk]))

theorem ok_noteFlip {bb : Bool} {s : State} {ta old new : Nat} {init : Bool} (h : Ok bb s) : Ok bb (State.noteFlip s ta old new init) := by
  unfold State.noteFlip
  (try dsimp only) <;> with_reducible (repeat' (first | assumption | intro _ | apply ok_ite | split | dsimp only | simp only [ok_mk]))

theorem ok_barChange {bb : Bool} {s : State} {team : Nat} {ta : Nat} {f : Bar → Bar × Option Nat} (h : Ok bb s) : Ok bb (State.barChange s team ta f) := by
  unfold State.barChange
  (try dsimp only) <;> with_reducible (repeat' (first | assumption | intro _ | apply ok_ite | apply ok_evalWaits | apply ok_logErr | apply ok_recall | apply ok_wakeAll | apply ok_scrPut | apply ok_noteFlip | split | dsimp only | simp only [ok_mk] | refine ok_mem ?_ (canon_writeBytes _ _)))

theorem ok_execWritePerform {bb : Bool} {s : State} {write : Nat} (h : Ok bb s) : OkO bb (execWritePerform write s) := by
  unfold execWritePerform
  (try dsimp only) <;> with_reducible (repeat' (first | assumption | intro _ | refine ok_barOp_eq (by assumption) ?_ | apply okO_next | apply okO_refused | apply okO_no | apply okO_onlyIf | apply okF_done | apply okF_trapFrom | apply okF_trap | apply okF_waitFrom | apply okF_wait | apply okF_oldest | apply okF_parked | apply ok_ite | apply ok_updDir | apply ok_evalWaits | apply ok_logErr | apply ok_recall | apply ok_no | apply ok_onlyIf | apply ok_barOp | apply ok_pushPosted | apply ok_performDie | apply ok_performHome | apply ok_performClean | apply ok_noteFlip | apply ok_barChange | split | dsimp only | simp only [ok_mk] | refine ok_mem ?_ (canon_writeBytes _ _)))

theorem ok_execPostedWriteAck {bb : Bool} {s : State} {write : Nat} (h : Ok bb s) : OkO bb (execPostedWriteAck write s) := by
  unfold execPostedWriteAck
  (try dsimp only) <;> with_reducible (repeat' (first | assumption | intro _ | apply okO_next | apply okO_refused | apply okO_no | apply okO_onlyIf | apply okF_done | apply okF_trapFrom | apply okF_trap | apply okF_waitFrom | apply okF_wait | apply okF_oldest | apply okF_parked | apply ok_ite | apply ok_updWarp | apply ok_no | apply ok_performed | split | dsimp only | simp only [ok_mk]))

theorem ok_execFlushDone {bb : Bool} {s : State} {warp : Nat} (h : Ok bb s) : OkO bb (execFlushDone warp s) := by
  unfold execFlushDone
  (try dsimp only) <;> with_reducible (repeat' (first | assumption | intro _ | apply okO_next | apply okO_refused | apply okO_no | apply okO_onlyIf | apply ok_ite | apply ok_updWarp | apply ok_no | apply ok_pushPosted | split | dsimp only | simp only [ok_mk]))

theorem ok_ackCopy {bb : Bool} {s : State} {w : Write} (h : Ok bb s) : Ok bb (State.ackCopy s w) := by
  unfold State.ackCopy
  (try dsimp only) <;> with_reducible (repeat' (first | assumption | intro _ | apply ok_foldl | apply ok_foldl1 | apply ok_foldl2 | apply ok_ite | apply ok_updCore | split | dsimp only | simp only [ok_mk]))

theorem ok_ackWrite {bb : Bool} {s : State} {w : Write} (h : Ok bb s) : Ok bb (State.ackWrite s w) := by
  unfold State.ackWrite
  (try dsimp only) <;> with_reducible (repeat' (first | assumption | intro _ | apply ok_ite | apply ok_updWarp | apply ok_updOp | apply ok_ackCopy | split | dsimp only | simp only [ok_mk]))

theorem ok_execWriteAck {bb : Bool} {s : State} {write : Nat} (h : Ok bb s) : OkO bb (execWriteAck write s) := by
  unfold execWriteAck
  (try dsimp only) <;> with_reducible (repeat' (first | assumption | intro _ | apply okO_next | apply okO_refused | apply okO_no | apply okO_onlyIf | apply okF_done | apply okF_trapFrom | apply okF_trap | apply okF_waitFrom | apply okF_wait | apply okF_oldest | apply okF_parked | apply ok_no | apply ok_onlyIf | apply ok_ackWrite | split | dsimp only | simp only [ok_mk]))

/-! ## Control -/

theorem ok_settleRegang {bb : Bool} {s : State} {u k : Nat} (h : Ok bb s) : Ok bb (State.settleRegang s u k) := by
  unfold State.settleRegang
  (try dsimp only) <;> with_reducible (repeat' (first | assumption | intro _ | apply okF_done | apply okF_trapFrom | apply okF_trap | apply okF_waitFrom | apply okF_wait | apply okF_oldest | apply okF_parked | apply ok_foldl | apply ok_foldl1 | apply ok_foldl2 | apply ok_ite | apply ok_updWarp | apply ok_updArch | apply ok_updGang | apply ok_park | apply ok_widenReqs | apply ok_trapAt | split | dsimp only | simp only [ok_mk]))

theorem ok_putSlices {bb : Bool} {s : State} {xs : List (Nat × Slice)} (h : Ok bb s) : Ok bb (State.putSlices s xs) := by
  unfold State.putSlices
  (try dsimp only) <;> with_reducible (repeat' (first | assumption | intro _ | apply ok_foldl | apply ok_foldl1 | apply ok_foldl2 | apply ok_updArch | apply ok_settleRegang | split | dsimp only | simp only [ok_mk]))

theorem ok_moveAll {bb : Bool} {s : State} {E : Lanes} {f : Nat → Move} (h : Ok bb s) : OkF bb (State.moveAll s E f) := by
  unfold State.moveAll
  (try dsimp only) <;> with_reducible (repeat' (first | assumption | intro _ | apply okF_done | apply okF_trapFrom | apply okF_trap | apply okF_waitFrom | apply okF_wait | apply okF_oldest | apply okF_parked | apply ok_foldl | apply ok_foldl1 | apply ok_foldl2 | apply ok_ite | apply ok_trap | apply ok_putSlices | split | dsimp only | simp only [ok_mk]))

theorem ok_goto {bb : Bool} {s : State} {pc : Double} (h : Ok bb s) : Ok bb (State.goto s pc) := by
  unfold State.goto
  (try dsimp only) <;> with_reducible (repeat' (first | assumption | intro _ | apply ok_putSlices | split | dsimp only | simp only [ok_mk]))

theorem ok_execNop {bb : Bool} {s : State} {f : OpB} (h : Ok bb s) : OkO bb (execNop f s) := by
  unfold execNop
  (try dsimp only) <;> with_reducible (repeat' (first | assumption | intro _ | apply okO_next | apply okO_refused | apply okO_no | apply okO_onlyIf | apply okF_done | apply okF_trapFrom | apply okF_trap | apply okF_waitFrom | apply okF_wait | apply okF_oldest | apply okF_parked | apply ok_advance | apply ok_issue | split | dsimp only | simp only [ok_mk]))

theorem ok_execBra {bb : Bool} {s : State} {f : OpB} (h : Ok bb s) : OkO bb (execBra f s) := by
  unfold execBra
  (try dsimp only) <;> with_reducible (repeat' (first | assumption | intro _ | apply okO_next | apply okO_refused | apply okO_no | apply okO_onlyIf | apply okF_done | apply okF_trapFrom | apply okF_trap | apply okF_waitFrom | apply okF_wait | apply okF_oldest | apply okF_parked | apply ok_ite | apply ok_trap | apply ok_issue | apply ok_moveAll | apply ok_goto | split | dsimp only | simp only [ok_mk]))

theorem ok_execBrx {bb : Bool} {s : State} {f : OpB} (h : Ok bb s) : OkO bb (execBrx f s) := by
  unfold execBrx
  (try dsimp only) <;> with_reducible (repeat' (first | assumption | intro _ | apply okO_next | apply okO_refused | apply okO_no | apply okO_onlyIf | apply okF_done | apply okF_trapFrom | apply okF_trap | apply okF_waitFrom | apply okF_wait | apply okF_oldest | apply okF_parked | apply ok_ite | apply ok_trap | apply ok_issue | apply ok_notGuessing | apply ok_noRegion | apply ok_moveAll | apply ok_goto | split | dsimp only | simp only [ok_mk]))

theorem ok_execRcv {bb : Bool} {s : State} {f : OpB} (h : Ok bb s) : OkO bb (execRcv f s) := by
  unfold execRcv
  (try dsimp only) <;> with_reducible (repeat' (first | assumption | intro _ | apply okO_next | apply okO_refused | apply okO_no | apply okO_onlyIf | apply okF_done | apply okF_trapFrom | apply okF_trap | apply okF_waitFrom | apply okF_wait | apply okF_oldest | apply okF_parked | apply ok_trap | apply ok_issue | apply ok_moveAll | split | dsimp only | simp only [ok_mk]))

theorem ok_execJoin {bb : Bool} {s : State} {f : OpB} (h : Ok bb s) : OkO bb (execJoin f s) := by
  unfold execJoin
  (try dsimp only) <;> with_reducible (repeat' (first | assumption | intro _ | apply okO_next | apply okO_refused | apply okO_no | apply okO_onlyIf | apply okF_done | apply okF_trapFrom | apply okF_trap | apply okF_waitFrom | apply okF_wait | apply okF_oldest | apply okF_parked | apply ok_issue | apply ok_moveAll | split | dsimp only | simp only [ok_mk]))

theorem ok_execLoop {bb : Bool} {s : State} {f : OpB} (h : Ok bb s) : OkO bb (execLoop f s) := by
  unfold execLoop
  (try dsimp only) <;> with_reducible (repeat' (first | assumption | intro _ | apply okO_next | apply okO_refused | apply okO_no | apply okO_onlyIf | apply okF_done | apply okF_trapFrom | apply okF_trap | apply okF_waitFrom | apply okF_wait | apply okF_oldest | apply okF_parked | apply ok_trap | apply ok_issue | apply ok_notGuessing | apply ok_noRegion | apply ok_moveAll | split | dsimp only | simp only [ok_mk]))

theorem ok_execBrk {bb : Bool} {s : State} {f : OpB} (h : Ok bb s) : OkO bb (execBrk f s) := by
  unfold execBrk
  (try dsimp only) <;> with_reducible (repeat' (first | assumption | intro _ | apply okO_next | apply okO_refused | apply okO_no | apply okO_onlyIf | apply okF_done | apply okF_trapFrom | apply okF_trap | apply okF_waitFrom | apply okF_wait | apply okF_oldest | apply okF_parked | apply ok_issue | apply ok_notGuessing | apply ok_noRegion | apply ok_moveAll | split | dsimp only | simp only [ok_mk]))

theorem ok_execNext {bb : Bool} {s : State} {f : OpB} (h : Ok bb s) : OkO bb (execNext f s) := by
  unfold execNext
  (try dsimp only) <;> with_reducible (repeat' (first | assumption | intro _ | apply okO_next | apply okO_refused | apply okO_no | apply okO_onlyIf | apply okF_done | apply okF_trapFrom | apply okF_trap | apply okF_waitFrom | apply okF_wait | apply okF_oldest | apply okF_parked | apply ok_trap | apply ok_issue | apply ok_notGuessing | apply ok_noRegion | apply ok_moveAll | split | dsimp only | simp only [ok_mk]))

theorem ok_execCall {bb : Bool} {s : State} {f : OpB} (h : Ok bb s) : OkO bb (execCall f s) := by
  unfold execCall
  (try dsimp only) <;> with_reducible (repeat' (first | assumption | intro _ | apply okO_next | apply okO_refused | apply okO_no | apply okO_onlyIf | apply okF_done | apply okF_trapFrom | apply okF_trap | apply okF_waitFrom | apply okF_wait | apply okF_oldest | apply okF_parked | apply ok_trap | apply ok_issue | apply ok_notGuessing | apply ok_noRegion | apply ok_moveAll | split | dsimp only | simp only [ok_mk]))

theorem ok_execCallx {bb : Bool} {s : State} {f : OpB} (h : Ok bb s) : OkO bb (execCallx f s) := by
  unfold execCallx
  (try dsimp only) <;> with_reducible (repeat' (first | assumption | intro _ | apply okO_next | apply okO_refused | apply okO_no | apply okO_onlyIf | apply okF_done | apply okF_trapFrom | apply okF_trap | apply okF_waitFrom | apply okF_wait | apply okF_oldest | apply okF_parked | apply ok_trap | apply ok_issue | apply ok_notGuessing | apply ok_noRegion | apply ok_moveAll | split | dsimp only | simp only [ok_mk]))

theorem ok_execRet {bb : Bool} {s : State} {f : OpB} (h : Ok bb s) : OkO bb (execRet f s) := by
  unfold execRet
  (try dsimp only) <;> with_reducible (repeat' (first | assumption | intro _ | apply okO_next | apply okO_refused | apply okO_no | apply okO_onlyIf | apply okF_done | apply okF_trapFrom | apply okF_trap | apply okF_waitFrom | apply okF_wait | apply okF_oldest | apply okF_parked | apply ok_issue | apply ok_notGuessing | apply ok_noRegion | apply ok_moveAll | split | dsimp only | simp only [ok_mk]))

theorem ok_exitLanes {bb : Bool} {s : State} {ls : Lanes} (h : Ok bb s) : OkF bb (State.exitLanes s ls) := by
  unfold State.exitLanes
  (try dsimp only) <;> with_reducible (repeat' (first | assumption | intro _ | apply okF_done | apply okF_trapFrom | apply okF_trap | apply okF_waitFrom | apply okF_wait | apply okF_oldest | apply okF_parked | apply ok_updArch | apply ok_moveAll | split | dsimp only | simp only [ok_mk]))

theorem ok_execExit {bb : Bool} {s : State} {f : OpB} (h : Ok bb s) : OkO bb (execExit f s) := by
  unfold execExit
  (try dsimp only) <;> with_reducible (repeat' (first | assumption | intro _ | apply okO_next | apply okO_refused | apply okO_no | apply okO_onlyIf | apply okF_done | apply okF_trapFrom | apply okF_trap | apply okF_waitFrom | apply okF_wait | apply okF_oldest | apply okF_parked | apply ok_ite | apply ok_trap | apply ok_issue | apply ok_noRegion | apply ok_exitLanes | split | dsimp only | simp only [ok_mk]))

theorem ok_execRegang {bb : Bool} {s : State} {f : OpB} (h : Ok bb s) : OkO bb (execRegang f s) := by
  unfold execRegang
  (try dsimp only) <;> with_reducible (repeat' (first | assumption | intro _ | apply okO_next | apply okO_refused | apply okO_no | apply okO_onlyIf | apply okF_done | apply okF_trapFrom | apply okF_trap | apply okF_waitFrom | apply okF_wait | apply okF_oldest | apply okF_parked | apply ok_park | apply ok_issue | apply ok_notGuessing | apply ok_noRegion | apply ok_settleRegang | split | dsimp only | simp only [ok_mk]))

theorem ok_liveWalks {bb : Bool} {s : State} {n : Nat} (h : Ok bb s) : Ok bb (State.liveWalks s n) := by
  unfold State.liveWalks
  (try dsimp only) <;> with_reducible (repeat' (first | assumption | intro _ | apply ok_ite | apply ok_noteVa | split | dsimp only | simp only [ok_mk]))

theorem ok_safePoint {bb : Bool} {s : State} {f : OpB} {rf : Bool} (h : Ok bb s) : OkF bb (State.safePoint s f rf) := by
  unfold State.safePoint
  (try dsimp only) <;> with_reducible (repeat' (first | assumption | intro _ | apply okF_done | apply okF_trapFrom | apply okF_trap | apply okF_waitFrom | apply okF_wait | apply okF_oldest | apply okF_parked | apply ok_foldl | apply ok_foldl1 | apply ok_foldl2 | apply ok_ite | apply ok_updGang | apply ok_advance | apply ok_park | apply ok_repin | apply ok_liveWalks | split | dsimp only | simp only [ok_mk]))

theorem ok_execSafept {bb : Bool} {s : State} {f : OpB} (h : Ok bb s) : OkO bb (execSafept f s) := by
  unfold execSafept
  (try dsimp only) <;> with_reducible (repeat' (first | assumption | intro _ | apply okO_next | apply okO_refused | apply okO_no | apply okO_onlyIf | apply okF_done | apply okF_trapFrom | apply okF_trap | apply okF_waitFrom | apply okF_wait | apply okF_oldest | apply okF_parked | apply ok_issue | apply ok_notGuessing | apply ok_safePoint | split | dsimp only | simp only [ok_mk]))

theorem ok_execSafeptRf {bb : Bool} {s : State} {f : OpB} (h : Ok bb s) : OkO bb (execSafeptRf f s) := by
  unfold execSafeptRf
  (try dsimp only) <;> with_reducible (repeat' (first | assumption | intro _ | apply okO_next | apply okO_refused | apply okO_no | apply okO_onlyIf | apply okF_done | apply okF_trapFrom | apply okF_trap | apply okF_waitFrom | apply okF_wait | apply okF_oldest | apply okF_parked | apply ok_issue | apply ok_notGuessing | apply ok_safePoint | split | dsimp only | simp only [ok_mk]))

theorem ok_execSafePointOverdue {bb : Bool} {s : State} {g : GangRef} (h : Ok bb s) : OkO bb (execSafePointOverdue g s) := by
  unfold execSafePointOverdue
  (try dsimp only) <;> with_reducible (repeat' (first | assumption | intro _ | apply okO_next | apply okO_refused | apply okO_no | apply okO_onlyIf | apply okF_done | apply okF_trapFrom | apply okF_trap | apply okF_waitFrom | apply okF_wait | apply okF_oldest | apply okF_parked | apply ok_ite | apply ok_park | apply ok_trapAt | apply ok_trap | split | dsimp only | simp only [ok_mk]))

theorem ok_execYield {bb : Bool} {s : State} {f : OpB} (h : Ok bb s) : OkO bb (execYield f s) := by
  unfold execYield
  (try dsimp only) <;> with_reducible (repeat' (first | assumption | intro _ | apply okO_next | apply okO_refused | apply okO_no | apply okO_onlyIf | apply okF_done | apply okF_trapFrom | apply okF_trap | apply okF_waitFrom | apply okF_wait | apply okF_oldest | apply okF_parked | apply ok_ite | apply ok_updGang | apply ok_advance | apply ok_issue | apply ok_notGuessing | split | dsimp only | simp only [ok_mk]))

theorem ok_execYieldExpiry {bb : Bool} {s : State} {g : GangRef} (h : Ok bb s) : OkO bb (execYieldExpiry g s) := by
  unfold execYieldExpiry
  (try dsimp only) <;> with_reducible (repeat' (first | assumption | intro _ | apply okO_next | apply okO_refused | apply okO_no | apply okO_onlyIf | apply ok_ite | apply ok_updWarp | apply ok_updArch | apply ok_updGang | split | dsimp only | simp only [ok_mk]))

theorem ok_softTrap {bb : Bool} {s : State} {cause : Nat} {f : OpB} (h : Ok bb s) : OkF bb (State.softTrap s cause f) := by
  unfold State.softTrap
  (try dsimp only) <;> with_reducible (repeat' (first | assumption | intro _ | apply okF_done | apply okF_trapFrom | apply okF_trap | apply okF_waitFrom | apply okF_wait | apply okF_oldest | apply okF_parked | apply ok_trap | split | dsimp only | simp only [ok_mk]))

theorem ok_execTrap {bb : Bool} {s : State} {f : OpB} (h : Ok bb s) : OkO bb (execTrap f s) := by
  unfold execTrap
  (try dsimp only) <;> with_reducible (repeat' (first | assumption | intro _ | apply okO_next | apply okO_refused | apply okO_no | apply okO_onlyIf | apply okF_done | apply okF_trapFrom | apply okF_trap | apply okF_waitFrom | apply okF_wait | apply okF_oldest | apply okF_parked | apply ok_trap | apply ok_issue | apply ok_oldestOnly | apply ok_softTrap | split | dsimp only | simp only [ok_mk]))

theorem ok_execBkpt {bb : Bool} {s : State} {f : OpB} (h : Ok bb s) : OkO bb (execBkpt f s) := by
  unfold execBkpt
  (try dsimp only) <;> with_reducible (repeat' (first | assumption | intro _ | apply okO_next | apply okO_refused | apply okO_no | apply okO_onlyIf | apply okF_done | apply okF_trapFrom | apply okF_trap | apply okF_waitFrom | apply okF_wait | apply okF_oldest | apply okF_parked | apply ok_issue | apply ok_oldestOnly | apply ok_softTrap | split | dsimp only | simp only [ok_mk]))

/-! ## Memory -/

theorem ok_switchOff {bb : Bool} {s : State} {fails : List (Nat × Nat)} (h : Ok bb s) : Ok bb (State.switchOff s fails) := by
  unfold State.switchOff
  (try dsimp only) <;> with_reducible (repeat' (first | assumption | intro _ | apply ok_foldl | apply ok_foldl1 | apply ok_foldl2 | apply ok_ite | apply ok_updArch | apply ok_putSlices | split | dsimp only | simp only [ok_mk]))

theorem ok_poisonTrap {bb : Bool} {s : State} {f : OpM} {off : Int} {kind : Nat} {r : Req} {as : List Acc} (h : Ok bb s) : OkS bb (·.1) (State.poisonTrap s f off kind r as) := by
  unfold State.poisonTrap
  (try dsimp only) <;> with_reducible (repeat' (first | assumption | intro _ | apply okS_some | apply okS_none | apply ok_foldl | apply ok_foldl1 | apply ok_foldl2 | apply ok_logErr | split | dsimp only | simp only [ok_mk]))

theorem ok_poisonTrap_eq {bb : Bool} {s t' : State} {a'} {f : OpM} {off : Int} {kind : Nat} {r : Req} {as : List Acc} (e_ : State.poisonTrap s f off kind r as = some (t', a')) (h : Ok bb s) : Ok bb t' := by
  have := ok_poisonTrap (bb := bb) (s := s) (f := f) (off := off) (kind := kind) (r := r) (as := as) h; rw [e_] at this; exact this

theorem ok_sign {bb : Bool} {s : State} {rd : Bool} {ls : List Nat} (h : Ok bb s) : Ok bb (State.sign s rd ls) := by
  unfold State.sign
  (try dsimp only) <;> with_reducible (repeat' (first | assumption | intro _ | apply ok_ite | apply ok_updCore | split | dsimp only | simp only [ok_mk]))

theorem ok_setRegion {bb : Bool} {s : State} {l : Nat} {g : Region} (h : Ok bb s) : Ok bb (State.setRegion s l g) := by
  unfold State.setRegion
  (try dsimp only) <;> with_reducible (repeat' (first | assumption | intro _ | apply ok_updMy | split | dsimp only | simp only [ok_mk]))

theorem ok_laneLoad {bb : Bool} {s : State} {f : OpM} {a : Acc} {l : Nat} (h : Ok bb s) : Ok bb (State.laneLoad s f a l).1 := by
  unfold State.laneLoad
  (try dsimp only) <;> with_reducible (repeat' (first | assumption | intro _ | apply ok_ite | apply ok_sign | apply ok_setRegion | split | dsimp only | simp only [ok_mk]))

theorem ok_laneLoad_eq {bb : Bool} {s t' : State} {a'} {f : OpM} {a : Acc} {l : Nat} (e_ : State.laneLoad s f a l = (t', a')) (h : Ok bb s) : Ok bb t' := by
  have := ok_laneLoad (bb := bb) (s := s) (f := f) (a := a) (l := l) h; rw [e_] at this; exact this

theorem ok_regionLoad {bb : Bool} {s : State} {f : OpM} {as : List Acc} (h : Ok bb s) : Ok bb (State.regionLoad s f as).1 := by
  unfold State.regionLoad
  (try dsimp only) <;> with_reducible (repeat' (first | assumption | intro _ | refine ok_laneLoad_eq (by assumption) ?_ | apply ok_foldl | apply ok_foldl1 | apply ok_foldl2 | apply ok_laneLoad | split | dsimp only | simp only [ok_mk]))

theorem ok_regionLoad_eq {bb : Bool} {s t' : State} {a'} {f : OpM} {as : List Acc} (e_ : State.regionLoad s f as = (t', a')) (h : Ok bb s) : Ok bb t' := by
  have := ok_regionLoad (bb := bb) (s := s) (f := f) (as := as) h; rw [e_] at this; exact this

theorem ok_laneStore {bb : Bool} {s : State} {f : OpM} {a : Acc} {l : Nat} (h : Ok bb s) : Ok bb (State.laneStore s f a l) := by
  unfold State.laneStore
  (try dsimp only) <;> with_reducible (repeat' (first | assumption | intro _ | apply ok_ite | apply ok_sign | apply ok_setRegion | split | dsimp only | simp only [ok_mk]))

theorem ok_regionStore {bb : Bool} {s : State} {f : OpM} {as : List Acc} (h : Ok bb s) : Ok bb (State.regionStore s f as).1 := by
  unfold State.regionStore
  (try dsimp only) <;> with_reducible (repeat' (first | assumption | intro _ | apply ok_foldl | apply ok_foldl1 | apply ok_foldl2 | apply ok_laneStore | split | dsimp only | simp only [ok_mk]))

theorem ok_regionStore_eq {bb : Bool} {s t' : State} {a'} {f : OpM} {as : List Acc} (e_ : State.regionStore s f as = (t', a')) (h : Ok bb s) : Ok bb t' := by
  have := ok_regionStore (bb := bb) (s := s) (f := f) (as := as) h; rw [e_] at this; exact this

theorem ok_noteReads {bb : Bool} {s : State} {as : List Acc} (h : Ok bb s) : Ok bb (State.noteReads s as) := by
  unfold State.noteReads
  (try dsimp only) <;> with_reducible (repeat' (first | assumption | intro _ | apply ok_ite | apply ok_updWay | apply ok_track | split | dsimp only | simp only [ok_mk]))

theorem ok_noteWrites {bb : Bool} {s : State} {as : List Acc} (h : Ok bb s) : Ok bb (State.noteWrites s as) := by
  unfold State.noteWrites
  (try dsimp only) <;> with_reducible (repeat' (first | assumption | intro _ | apply ok_updWay | apply ok_track | split | dsimp only | simp only [ok_mk]))

theorem ok_bufferStore {bb : Bool} {s : State} {pol : Nat} {as : List Acc} (h : Ok bb s) : OkS bb (fun t => t) (State.bufferStore s pol as) := by
  unfold State.bufferStore
  (try dsimp only) <;> with_reducible (repeat' (first | assumption | intro _ | apply okS_some | apply okS_none | apply ok_foldl | apply ok_foldl1 | apply ok_foldl2 | apply ok_ite | apply ok_updWay | apply ok_noteWrites | split | dsimp only | simp only [ok_mk]))

theorem ok_bufferStore_eq {bb : Bool} {s t' : State} {pol : Nat} {as : List Acc} (e_ : State.bufferStore s pol as = some t') (h : Ok bb s) : Ok bb t' := by
  have := ok_bufferStore (bb := bb) (s := s) (pol := pol) (as := as) h; rw [e_] at this; exact this

theorem ok_load {bb : Bool} {s : State} {f : OpM} (h : Ok bb s) : OkF bb (State.load s f) := by
  unfold State.load
  (try dsimp only) <;> with_reducible (repeat' (first | assumption | intro _ | refine ok_poisonTrap_eq (by assumption) ?_ | refine ok_regionLoad_eq (by assumption) ?_ | apply okF_done | apply okF_trapFrom | apply okF_trap | apply okF_waitFrom | apply okF_wait | apply okF_oldest | apply okF_parked | apply ok_ite | apply ok_advance | apply ok_useTags | apply ok_noteAccess | apply ok_walkTrap | apply ok_await | apply ok_submit | apply ok_switchOff | apply ok_poisonTrap | apply ok_regionLoad | apply ok_noteReads | split | dsimp only | simp only [ok_mk]))

theorem ok_execLd {bb : Bool} {s : State} {f : OpM} (h : Ok bb s) : OkO bb (execLd f s) := by
  unfold execLd
  (try dsimp only) <;> with_reducible (repeat' (first | assumption | intro _ | apply okO_next | apply okO_refused | apply okO_no | apply okO_onlyIf | apply okF_done | apply okF_trapFrom | apply okF_trap | apply okF_waitFrom | apply okF_wait | apply okF_oldest | apply okF_parked | apply ok_issue | apply ok_load | split | dsimp only | simp only [ok_mk]))

theorem ok_store {bb : Bool} {s : State} {f : OpM} (h : Ok bb s) : OkF bb (State.store s f) := by
  unfold State.store
  (try dsimp only) <;> with_reducible (repeat' (first | assumption | intro _ | refine ok_updateLocal_eq (by assumption) ?_ | refine ok_regionStore_eq (by assumption) ?_ | refine ok_bufferStore_eq (by assumption) ?_ | apply okF_done | apply okF_trapFrom | apply okF_trap | apply okF_waitFrom | apply okF_wait | apply okF_oldest | apply okF_parked | apply ok_ite | apply ok_advance | apply ok_useTags | apply ok_noteAccess | apply ok_walkTrap | apply ok_updateLocal | apply ok_submit | apply ok_switchOff | apply ok_regionStore | apply ok_noteWrites | apply ok_bufferStore | split | dsimp only | simp only [ok_mk]))

theorem ok_execSt {bb : Bool} {s : State} {f : OpM} (h : Ok bb s) : OkO bb (execSt f s) := by
  unfold execSt
  (try dsimp only) <;> with_reducible (repeat' (first | assumption | intro _ | apply okO_next | apply okO_refused | apply okO_no | apply okO_onlyIf | apply okF_done | apply okF_trapFrom | apply okF_trap | apply okF_waitFrom | apply okF_wait | apply okF_oldest | apply okF_parked | apply ok_issue | apply ok_store | split | dsimp only | simp only [ok_mk]))

theorem ok_prefetch {bb : Bool} {s : State} {f : OpM} (h : Ok bb s) : OkF bb (State.prefetch s f) := by
  unfold State.prefetch
  (try dsimp only) <;> with_reducible (repeat' (first | assumption | intro _ | apply okF_done | apply okF_trapFrom | apply okF_trap | apply okF_waitFrom | apply okF_wait | apply okF_oldest | apply okF_parked | apply ok_ite | apply ok_advance | apply ok_useTags | apply ok_noteAccess | apply ok_submit | apply ok_noteReads | split | dsimp only | simp only [ok_mk]))

theorem ok_execPrf {bb : Bool} {s : State} {f : OpM} (h : Ok bb s) : OkO bb (execPrf f s) := by
  unfold execPrf
  (try dsimp only) <;> with_reducible (repeat' (first | assumption | intro _ | apply okO_next | apply okO_refused | apply okO_no | apply okO_onlyIf | apply okF_done | apply okF_trapFrom | apply okF_trap | apply okF_waitFrom | apply okF_wait | apply okF_oldest | apply okF_parked | apply ok_issue | apply ok_prefetch | split | dsimp only | simp only [ok_mk]))

theorem ok_execFence {bb : Bool} {s : State} {f : OpM} (h : Ok bb s) : OkO bb (execFence f s) := by
  unfold execFence
  (try dsimp only) <;> with_reducible (repeat' (first | assumption | intro _ | apply okO_next | apply okO_refused | apply okO_no | apply okO_onlyIf | apply okF_done | apply okF_trapFrom | apply okF_trap | apply okF_waitFrom | apply okF_wait | apply okF_oldest | apply okF_parked | apply ok_ite | apply ok_advance | apply ok_issue | apply ok_oldestOnly | apply ok_noRegion | apply ok_submit | split | dsimp only | simp only [ok_mk]))

theorem ok_cctl {bb : Bool} {s : State} {i : Instr} {f : OpM} {op : Nat} (h : Ok bb s) : Ok bb (State.cctl s i f op) := by
  unfold State.cctl
  (try dsimp only) <;> with_reducible (repeat' (first | assumption | intro _ | apply okF_done | apply okF_trapFrom | apply okF_trap | apply okF_waitFrom | apply okF_wait | apply okF_oldest | apply okF_parked | apply ok_ite | apply ok_advance | apply ok_issue | apply ok_oldestOnly | apply ok_noteAccess | apply ok_walkTrap | apply ok_submit | apply ok_noteWrites | split | dsimp only | simp only [ok_mk]))

theorem ok_execCctlInv {bb : Bool} {s : State} {f : OpM} (h : Ok bb s) : OkO bb (execCctlInv f s) := by
  unfold execCctlInv
  (try dsimp only) <;> with_reducible (repeat' (first | assumption | intro _ | apply okO_next | apply okO_refused | apply okO_no | apply okO_onlyIf | apply ok_cctl | split | dsimp only | simp only [ok_mk]))

theorem ok_execCctlWb {bb : Bool} {s : State} {f : OpM} (h : Ok bb s) : OkO bb (execCctlWb f s) := by
  unfold execCctlWb
  (try dsimp only) <;> with_reducible (repeat' (first | assumption | intro _ | apply okO_next | apply okO_refused | apply okO_no | apply okO_onlyIf | apply ok_cctl | split | dsimp only | simp only [ok_mk]))

theorem ok_execCctlWbinv {bb : Bool} {s : State} {f : OpM} (h : Ok bb s) : OkO bb (execCctlWbinv f s) := by
  unfold execCctlWbinv
  (try dsimp only) <;> with_reducible (repeat' (first | assumption | intro _ | apply okO_next | apply okO_refused | apply okO_no | apply okO_onlyIf | apply ok_cctl | split | dsimp only | simp only [ok_mk]))

theorem ok_execCctlZero {bb : Bool} {s : State} {f : OpM} (h : Ok bb s) : OkO bb (execCctlZero f s) := by
  unfold execCctlZero
  (try dsimp only) <;> with_reducible (repeat' (first | assumption | intro _ | apply okO_next | apply okO_refused | apply okO_no | apply okO_onlyIf | apply ok_cctl | split | dsimp only | simp only [ok_mk]))

theorem ok_execCctlInvall {bb : Bool} {s : State} {f : OpM} (h : Ok bb s) : OkO bb (execCctlInvall f s) := by
  unfold execCctlInvall
  (try dsimp only) <;> with_reducible (repeat' (first | assumption | intro _ | apply okO_next | apply okO_refused | apply okO_no | apply okO_onlyIf | apply okF_done | apply okF_trapFrom | apply okF_trap | apply okF_waitFrom | apply okF_wait | apply okF_oldest | apply okF_parked | apply ok_advance | apply ok_issue | apply ok_oldestOnly | apply ok_noRegion | apply ok_submit | split | dsimp only | simp only [ok_mk]))

/-! ## Atomic -/

theorem ok_atomic {bb : Bool} {s : State} {i : Instr} {f : OpM} {w : Want} {off : Int} {k : ReqKind} {traps : Bool} {val cmp : State → Nat → Nat} (h : Ok bb s) : Ok bb (State.atomic s i f w off k traps val cmp) := by
  unfold State.atomic
  with_reducible (repeat' (first | assumption | intro _ | refine ok_poisonTrap_eq (by assumption) ?_ | apply okF_done | apply okF_trapFrom | apply okF_trap | apply okF_waitFrom | apply okF_wait | apply okF_oldest | apply okF_parked | apply ok_ite | apply ok_advance | apply ok_issue | apply ok_oldestOnly | apply ok_noteAccess | apply ok_walkTrap | apply ok_await | apply ok_submit | apply ok_switchOff | apply ok_poisonTrap | apply ok_noteReads | apply ok_noteWrites | split | dsimp only | simp only [ok_mk]))
  all_goals first
    | contradiction
    | exact ok_poisonTrap_eq (by assumption) (by assumption)
    | (rename_i heq; split at heq <;> first | exact ok_poisonTrap_eq (by assumption) (by assumption) | contradiction)

theorem ok_execAtom {bb : Bool} {s : State} {f : OpM} (h : Ok bb s) : OkO bb (execAtom f s) := by
  unfold execAtom
  (try dsimp only) <;> with_reducible (repeat' (first | assumption | intro _ | apply okO_next | apply okO_refused | apply okO_no | apply okO_onlyIf | apply ok_atomic | split | dsimp only | simp only [ok_mk]))

theorem ok_execCas {bb : Bool} {s : State} {f : OpM} (h : Ok bb s) : OkO bb (execCas f s) := by
  unfold execCas
  (try dsimp only) <;> with_reducible (repeat' (first | assumption | intro _ | apply okO_next | apply okO_refused | apply okO_no | apply okO_onlyIf | apply ok_atomic | split | dsimp only | simp only [ok_mk]))

theorem ok_execRed {bb : Bool} {s : State} {f : OpM} (h : Ok bb s) : OkO bb (execRed f s) := by
  unfold execRed
  (try dsimp only) <;> with_reducible (repeat' (first | assumption | intro _ | apply okO_next | apply okO_refused | apply okO_no | apply okO_onlyIf | apply ok_atomic | split | dsimp only | simp only [ok_mk]))

theorem ok_execBupd {bb : Bool} {s : State} {f : OpM} (h : Ok bb s) : OkO bb (execBupd f s) := by
  unfold execBupd
  (try dsimp only) <;> with_reducible (repeat' (first | assumption | intro _ | apply okO_next | apply okO_refused | apply okO_no | apply okO_onlyIf | apply ok_atomic | split | dsimp only | simp only [ok_mk]))

/-! ## Regions -/

theorem ok_tidyRegions {bb : Bool} {s : State} {core : Nat} (h : Ok bb s) : Ok bb (State.tidyRegions s core) := by
  unfold State.tidyRegions
  (try dsimp only) <;> with_reducible (repeat' (first | assumption | intro _ | apply ok_foldl | apply ok_foldl1 | apply ok_foldl2 | apply ok_ite | apply ok_updCore | apply ok_updDie | split | dsimp only | simp only [ok_mk]))

theorem ok_unlockCommits {bb : Bool} {s : State} {d : Nat} {p : Commit → Bool} (h : Ok bb s) : Ok bb (State.unlockCommits s d p) := by
  unfold State.unlockCommits
  (try dsimp only) <;> with_reducible (repeat' (first | assumption | intro _ | apply ok_ite | apply ok_updDie | apply ok_take | split | dsimp only | simp only [ok_mk]))

theorem ok_wakeTokens {bb : Bool} {s : State} {d : Nat} (h : Ok bb s) : Ok bb (State.wakeTokens s d) := by
  unfold State.wakeTokens
  (try dsimp only) <;> with_reducible (repeat' (first | assumption | intro _ | apply ok_ite | apply ok_park | split | dsimp only | simp only [ok_mk]))

theorem ok_releaseToken {bb : Bool} {s : State} {u : Nat} (h : Ok bb s) : Ok bb (State.releaseToken s u) := by
  unfold State.releaseToken
  (try dsimp only) <;> with_reducible (repeat' (first | assumption | intro _ | apply ok_ite | apply ok_updDie | apply ok_wakeTokens | split | dsimp only | simp only [ok_mk]))

theorem ok_forgetObs {bb : Bool} {s : State} {u : Nat} {ls : Lanes} (h : Ok bb s) : Ok bb (State.forgetObs s u ls) := by
  unfold State.forgetObs
  (try dsimp only) <;> with_reducible (repeat' (first | assumption | intro _ | apply ok_ite | split | dsimp only | simp only [ok_mk]))

theorem ok_endRegions {bb : Bool} {s : State} {u k : Nat} {ends : List (Nat × Nat)} {commit : Bool} (h : Ok bb s) : Ok bb (State.endRegions s u k ends commit) := by
  unfold State.endRegions
  (try dsimp only) <;> with_reducible (repeat' (first | assumption | intro _ | apply ok_foldl | apply ok_foldl1 | apply ok_foldl2 | apply ok_updWarp | apply ok_tidyRegions | apply ok_releaseToken | apply ok_forgetObs | split | dsimp only | simp only [ok_mk]))

theorem ok_execAtomb {bb : Bool} {s : State} {f : OpB} (h : Ok bb s) : OkO bb (execAtomb f s) := by
  unfold execAtomb
  (try dsimp only) <;> with_reducible (repeat' (first | assumption | intro _ | apply okO_next | apply okO_refused | apply okO_no | apply okO_onlyIf | apply okF_done | apply okF_trapFrom | apply okF_trap | apply okF_waitFrom | apply okF_wait | apply okF_oldest | apply okF_parked | apply ok_foldl | apply ok_foldl1 | apply ok_foldl2 | apply ok_ite | apply ok_updDie | apply ok_updMy | apply ok_advance | apply ok_putLanes | apply ok_issue | apply ok_oldestOnly | apply ok_noRegion | split | dsimp only | simp only [ok_mk]))

theorem ok_execAtoma {bb : Bool} {s : State} {f : OpB} (h : Ok bb s) : OkO bb (execAtoma f s) := by
  unfold execAtoma
  (try dsimp only) <;> with_reducible (repeat' (first | assumption | intro _ | apply okO_next | apply okO_refused | apply okO_no | apply okO_onlyIf | apply okF_done | apply okF_trapFrom | apply okF_trap | apply okF_waitFrom | apply okF_wait | apply okF_oldest | apply okF_parked | apply ok_foldl | apply ok_foldl1 | apply ok_foldl2 | apply ok_updArch | apply ok_trap | apply ok_issue | apply ok_notGuessing | apply ok_settleRegang | apply ok_endRegions | split | dsimp only | simp only [ok_mk]))

theorem ok_execAtomq {bb : Bool} {s : State} {f : OpB} (h : Ok bb s) : OkO bb (execAtomq f s) := by
  unfold execAtomq
  (try dsimp only) <;> with_reducible (repeat' (first | assumption | intro _ | apply okO_next | apply okO_refused | apply okO_no | apply okO_onlyIf | apply okF_done | apply okF_trapFrom | apply okF_trap | apply okF_waitFrom | apply okF_wait | apply okF_oldest | apply okF_parked | apply ok_advance | apply ok_putLanes | apply ok_useTags | apply ok_issue | apply ok_notGuessing | split | dsimp only | simp only [ok_mk]))

theorem ok_execAtome {bb : Bool} {s : State} {f : OpB} (h : Ok bb s) : OkO bb (execAtome f s) := by
  unfold execAtome
  (try dsimp only) <;> with_reducible (repeat' (first | assumption | intro _ | apply okO_next | apply okO_refused | apply okO_no | apply okO_onlyIf | apply okF_done | apply okF_trapFrom | apply okF_trap | apply okF_waitFrom | apply okF_wait | apply okF_oldest | apply okF_parked | apply ok_foldl | apply ok_foldl1 | apply ok_foldl2 | apply ok_ite | apply ok_advance | apply ok_park | apply ok_trap | apply ok_issue | apply ok_oldestOnly | apply ok_submit | split | dsimp only | simp only [ok_mk]))

theorem ok_commitLane {bb : Bool} {s : State} {u k l : Nat} {buf : Tab Byte} (h : Ok bb s) : Ok bb (State.commitLane s u k l buf).1 := by
  unfold State.commitLane
  (try dsimp only) <;> with_reducible (repeat' (first | assumption | intro _ | apply ok_foldl | apply ok_foldl1 | apply ok_foldl2 | apply ok_ite | apply ok_updWarp | split | dsimp only | simp only [ok_mk]))

theorem ok_commitLane_eq {bb : Bool} {s t' : State} {a'} {u k l : Nat} {buf : Tab Byte} (e_ : State.commitLane s u k l buf = (t', a')) (h : Ok bb s) : Ok bb t' := by
  have := ok_commitLane (bb := bb) (s := s) (u := u) (k := k) (l := l) (buf := buf) h; rw [e_] at this; exact this

theorem ok_doCommit {bb : Bool} {s : State} {d : Nat} {c : Commit} {r : Req} (h : Ok bb s) : Ok bb (State.doCommit s d c r) := by
  unfold State.doCommit
  (try dsimp only) <;> with_reducible (repeat' (first | assumption | intro _ | refine ok_commitLane_eq (by assumption) ?_ | apply okF_done | apply okF_trapFrom | apply okF_trap | apply okF_waitFrom | apply okF_wait | apply okF_oldest | apply okF_parked | apply ok_foldl | apply ok_foldl1 | apply ok_foldl2 | apply ok_ite | apply ok_updWarp | apply ok_updDie | apply ok_bump | apply ok_updWay | apply ok_park | apply ok_updL2 | apply ok_trap | apply ok_dropReq | apply ok_dropCopy | apply ok_addPend | apply ok_performDie | apply ok_ackWrite | apply ok_settleRegang | apply ok_store | apply ok_endRegions | apply ok_commitLane | split | dsimp only | simp only [ok_mk]))

theorem ok_execCommit {bb : Bool} {s : State} {die : Nat} (h : Ok bb s) : OkO bb (execCommit die s) := by
  unfold execCommit
  (try dsimp only) <;> with_reducible (repeat' (first | assumption | intro _ | apply okO_next | apply okO_refused | apply okO_no | apply okO_onlyIf | apply ok_ite | apply ok_updDie | apply ok_updL2 | apply ok_no | apply ok_onlyIf | apply ok_doCommit | split | dsimp only | simp only [ok_mk]))

theorem ok_execConflictNotice {bb : Bool} {s : State} {die line : Nat} (h : Ok bb s) : OkO bb (execConflictNotice die line s) := by
  unfold execConflictNotice
  (try dsimp only) <;> with_reducible (repeat' (first | assumption | intro _ | apply okO_next | apply okO_refused | apply okO_no | apply okO_onlyIf | apply ok_foldl | apply ok_foldl1 | apply ok_foldl2 | apply ok_ite | apply ok_updCore | apply ok_updDie | apply ok_no | split | dsimp only | simp only [ok_mk]))

/-! ## Sync -/

theorem ok_deliver {bb : Bool} {s : State} {u : Nat} {k : Wake} (h : Ok bb s) : Ok bb (State.deliver s u k) := by
  unfold State.deliver
  (try dsimp only) <;> with_reducible (repeat' (first | assumption | intro _ | apply okF_done | apply okF_trapFrom | apply okF_trap | apply okF_waitFrom | apply okF_wait | apply okF_oldest | apply okF_parked | apply ok_updWarp | split | dsimp only | simp only [ok_mk]))

theorem ok_parkOn {bb : Bool} {s : State} {id : Nat} (h : Ok bb s) : Ok bb (State.parkOn s id) := by
  unfold State.parkOn
  (try dsimp only) <;> with_reducible (repeat' (first | assumption | intro _ | apply okF_done | apply okF_trapFrom | apply okF_trap | apply okF_waitFrom | apply okF_wait | apply okF_oldest | apply okF_parked | apply ok_advance | apply ok_park | apply ok_deliver | split | dsimp only | simp only [ok_mk]))

theorem ok_submitWait {bb : Bool} {s : State} {r : Req} {two : Bool} (h : Ok bb s) : OkF bb (State.submitWait s r two) := by
  unfold State.submitWait
  (try dsimp only) <;> with_reducible (repeat' (first | assumption | intro _ | apply okF_done | apply okF_trapFrom | apply okF_trap | apply okF_waitFrom | apply okF_wait | apply okF_oldest | apply okF_parked | apply ok_issue | apply ok_submit | apply ok_parkOn | split | dsimp only | simp only [ok_mk]))

theorem ok_sync {bb : Bool} {s : State} {i : Instr} {f : OpM} {w : Want} {n kind : Nat} {reads : Bool} {go : State → Acc → Eff} (h : Ok bb s) (he : ∀ x0_ x1_, Ok bb x0_ → OkF bb (go x0_ x1_)) : Ok bb (State.sync s i f w n kind reads go) := by
  unfold State.sync
  with_reducible (repeat' (first | assumption | intro _ | refine ok_poisonTrap_eq (by assumption) ?_ | apply okF_done | apply okF_trapFrom | apply okF_trap | apply okF_waitFrom | apply okF_wait | apply okF_oldest | apply okF_parked | apply ok_ite | apply ok_advance | apply ok_trap | apply ok_issue | apply ok_oldestOnly | apply ok_noteAccess | apply ok_walkTrap | apply ok_switchOff | apply ok_poisonTrap | apply ok_noteWrites | apply ok_load | apply he | split | dsimp only | simp only [ok_mk]))
  all_goals first
    | contradiction
    | exact ok_poisonTrap_eq (by assumption) (by assumption)
    | (rename_i heq; split at heq <;> first | exact ok_poisonTrap_eq (by assumption) (by assumption) | contradiction)

theorem ok_execBinit {bb : Bool} {s : State} {f : OpM} (h : Ok bb s) : OkO bb (execBinit f s) := by
  unfold execBinit
  (try dsimp only) <;> with_reducible (repeat' (first | assumption | intro _ | apply okO_next | apply okO_refused | apply okO_no | apply okO_onlyIf | apply ok_advance | apply ok_submit | apply ok_sync | split | dsimp only | simp only [ok_mk]))

theorem ok_execBarv {bb : Bool} {s : State} {f : OpM} (h : Ok bb s) : OkO bb (execBarv f s) := by
  unfold execBarv
  (try dsimp only) <;> with_reducible (repeat' (first | assumption | intro _ | apply okO_next | apply okO_refused | apply okO_no | apply okO_onlyIf | apply ok_advance | apply ok_await | apply ok_submit | apply ok_sync | split | dsimp only | simp only [ok_mk]))

theorem ok_execBwait {bb : Bool} {s : State} {f : OpM} (h : Ok bb s) : OkO bb (execBwait f s) := by
  unfold execBwait
  (try dsimp only) <;> with_reducible (repeat' (first | assumption | intro _ | apply okO_next | apply okO_refused | apply okO_no | apply okO_onlyIf | apply ok_submitWait | apply ok_sync | split | dsimp only | simp only [ok_mk]))

theorem ok_execBarw {bb : Bool} {s : State} {f : OpM} (h : Ok bb s) : OkO bb (execBarw f s) := by
  unfold execBarw
  (try dsimp only) <;> with_reducible (repeat' (first | assumption | intro _ | apply okO_next | apply okO_refused | apply okO_no | apply okO_onlyIf | apply ok_submitWait | apply ok_sync | split | dsimp only | simp only [ok_mk]))

theorem ok_execBexp {bb : Bool} {s : State} {f : OpM} (h : Ok bb s) : OkO bb (execBexp f s) := by
  unfold execBexp
  (try dsimp only) <;> with_reducible (repeat' (first | assumption | intro _ | apply okO_next | apply okO_refused | apply okO_no | apply okO_onlyIf | apply ok_advance | apply ok_submit | apply ok_sync | split | dsimp only | simp only [ok_mk]))

theorem ok_execWaita {bb : Bool} {s : State} {f : OpM} (h : Ok bb s) : OkO bb (execWaita f s) := by
  unfold execWaita
  (try dsimp only) <;> with_reducible (repeat' (first | assumption | intro _ | apply okO_next | apply okO_refused | apply okO_no | apply okO_onlyIf | apply okF_done | apply okF_trapFrom | apply okF_trap | apply okF_waitFrom | apply okF_wait | apply okF_oldest | apply okF_parked | apply ok_submitWait | apply ok_sync | split | dsimp only | simp only [ok_mk]))

theorem ok_execWaitaDeadline {bb : Bool} {s : State} {stack entry : Nat} (h : Ok bb s) : OkO bb (execWaitaDeadline stack entry s) := by
  unfold execWaitaDeadline
  (try dsimp only) <;> with_reducible (repeat' (first | assumption | intro _ | apply okO_next | apply okO_refused | apply okO_no | apply okO_onlyIf | apply okF_done | apply okF_trapFrom | apply okF_trap | apply okF_waitFrom | apply okF_wait | apply okF_oldest | apply okF_parked | apply ok_ite | apply ok_wake | apply ok_no | apply ok_onlyIf | split | dsimp only | simp only [ok_mk]))

end Sys2Proof.Machine
end

