-- ==== Sys2Proof/Laws/KeepEngine.lean ====
section
/-! SUPPORT. What copies, tiles, key-value stores, speculation and trees keep. -/

namespace Sys2Proof.Machine

/-! ## Engine -/

theorem ok_engIssue {bb : Bool} {s : State} {o : EngOp} {tok : Dst} (h : Ok bb s) : OkF bb (State.engIssue s o tok) := by
  unfold State.engIssue
  (try dsimp only) <;> with_reducible (repeat' (first | assumption | intro _ | apply okF_done | apply okF_trapFrom | apply okF_trap | apply okF_waitFrom | apply okF_wait | apply okF_oldest | apply okF_parked | apply ok_ite | apply ok_bump | apply ok_updWay | apply ok_advance | apply ok_pin | apply ok_await | apply ok_submit | split | dsimp only | simp only [ok_mk]))

theorem ok_engine {bb : Bool} {s : State} {i : Instr} {f : OpT} {go : State → Eff} (h : Ok bb s) (he : ∀ x0_, Ok bb x0_ → OkF bb (go x0_)) : Ok bb (State.engine s i f go) := by
  unfold State.engine
  (try dsimp only) <;> with_reducible (repeat' (first | assumption | intro _ | apply okF_done | apply okF_trapFrom | apply okF_trap | apply okF_waitFrom | apply okF_wait | apply okF_oldest | apply okF_parked | apply ok_issue | apply ok_oldestOnly | apply ok_noRegion | apply he | split | dsimp only | simp only [ok_mk]))

theorem ok_putWriteAt {bb : Bool} {s : State} {o : EngOp} {place : Place} {ta : Nat} {unc : Bool} {bs : List Byte} (h : Ok bb s) : Ok bb (State.putWriteAt s o place ta unc bs) := by
  unfold State.putWriteAt
  (try dsimp only) <;> with_reducible (repeat' (first | assumption | intro _ | apply ok_bump | apply ok_store | split | dsimp only | simp only [ok_mk]))

theorem ok_putWrite {bb : Bool} {s : State} {o : EngOp} {ta : Nat} {unc : Bool} {bs : List Byte} (h : Ok bb s) : Ok bb (State.putWrite s o ta unc bs) := by
  unfold State.putWrite
  (try dsimp only) <;> with_reducible (repeat' (first | assumption | intro _ | apply ok_store | apply ok_putWriteAt | split | dsimp only | simp only [ok_mk]))

theorem ok_putPieces {b : Bool} {s : State} {o : EngOp} {ls : List (ELoc × Nat)} {bs : List Byte} (h : Ok b s) :
    Ok b (State.putPieces s o ls bs).1 := by
  induction ls generalizing s bs with
  | nil => exact h
  | cons p r ih =>
    rcases p with ⟨⟨off⟩ | ⟨ta, unc⟩, n⟩
    · exact ih (ok_scrPut h)
    · exact ih (ok_putWrite h)

theorem ok_engWrite {bb : Bool} {s : State} {o : EngOp} {va : Nat} {bs : List Byte} (h : Ok bb s) : OkE bb (·.1) (State.engWrite s o va bs) := by
  unfold State.engWrite
  (try dsimp only) <;> with_reducible (repeat' (first | assumption | intro _ | apply okE_ok | apply okE_error | apply okE_pure | apply ok_putPieces | split | dsimp only | simp only [ok_mk]))

theorem ok_engWrite_eq {bb : Bool} {s t' : State} {a'} {o : EngOp} {va : Nat} {bs : List Byte} (e_ : State.engWrite s o va bs = .ok (t', a')) (h : Ok bb s) : Ok bb t' := by
  have := ok_engWrite (bb := bb) (s := s) (o := o) (va := va) (bs := bs) h; rw [e_] at this; exact this

theorem ok_atHome {bb : Bool} {s : State} {row : String} {o : EngOp} {ta : Nat} {go : State → State} (h : Ok bb s) (he : ∀ x0_, Ok bb x0_ → Ok bb (go x0_)) : OkO bb (State.atHome s row o ta go) := by
  unfold State.atHome
  (try dsimp only) <;> with_reducible (repeat' (first | assumption | intro _ | apply okO_next | apply okO_refused | apply okO_no | apply okO_onlyIf | apply ok_ite | apply ok_updOp | apply ok_onlyIf | apply he | split | dsimp only | simp only [ok_mk]))

theorem ok_addBytesOf {bb : Bool} {s : State} {o : EngOp} {n : Nat} {ids : List Nat} (h : Ok bb s) : Ok bb (State.addBytesOf s o n ids) := by
  unfold State.addBytesOf
  (try dsimp only) <;> with_reducible (repeat' (first | assumption | intro _ | apply ok_ite | apply ok_updOp | apply ok_barChange | split | dsimp only | simp only [ok_mk]))

theorem ok_execByteAddition {bb : Bool} {s : State} {op : Nat} (h : Ok bb s) : OkO bb (execByteAddition op s) := by
  unfold execByteAddition
  (try dsimp only) <;> with_reducible (repeat' (first | assumption | intro _ | apply okO_next | apply okO_refused | apply okO_no | apply okO_onlyIf | apply ok_updOp | apply ok_no | apply ok_barChange | apply ok_atHome | split | dsimp only | simp only [ok_mk]))

theorem ok_endOp {bb : Bool} {s : State} {op c : Nat} (h : Ok bb s) : Ok bb (State.endOp s op c) := by
  unfold State.endOp
  (try dsimp only) <;> with_reducible (repeat' (first | assumption | intro _ | apply ok_ite | apply ok_updOp | split | dsimp only | simp only [ok_mk]))

theorem ok_stopOp {bb : Bool} {s : State} {op : Nat} {e : Stop} (h : Ok bb s) : Ok bb (State.stopOp s op e) := by
  unfold State.stopOp
  (try dsimp only) <;> with_reducible (repeat' (first | assumption | intro _ | apply okF_done | apply okF_trapFrom | apply okF_trap | apply okF_waitFrom | apply okF_wait | apply okF_oldest | apply okF_parked | apply ok_updOp | apply ok_consumed | apply ok_consumedAt | apply ok_postEngine | apply ok_endOp | split | dsimp only | simp only [ok_mk]))

theorem ok_stopped {bb : Bool} {s : State} {row : String} {o : EngOp} {e : Stop} (h : Ok bb s) : OkO bb (State.stopped s row o e) := by
  unfold State.stopped
  (try dsimp only) <;> with_reducible (repeat' (first | assumption | intro _ | apply okO_next | apply okO_refused | apply okO_no | apply okO_onlyIf | apply okF_done | apply okF_trapFrom | apply okF_trap | apply okF_waitFrom | apply okF_wait | apply okF_oldest | apply okF_parked | apply ok_updOp | apply ok_onlyIf | apply ok_stopOp | split | dsimp only | simp only [ok_mk]))

theorem ok_execTokenWrite {bb : Bool} {s : State} {op : Nat} (h : Ok bb s) : OkO bb (execTokenWrite op s) := by
  unfold execTokenWrite
  (try dsimp only) <;> with_reducible (repeat' (first | assumption | intro _ | apply okO_next | apply okO_refused | apply okO_no | apply okO_onlyIf | apply ok_ite | apply ok_updWarp | apply ok_updInst | apply ok_unpin | apply ok_no | apply ok_barChange | apply ok_atHome | split | dsimp only | simp only [ok_mk]))

/-! ## Copy -/

theorem ok_execCpy {bb : Bool} {s : State} {f : OpT} (h : Ok bb s) : OkO bb (execCpy f s) := by
  unfold execCpy
  (try dsimp only) <;> with_reducible (repeat' (first | assumption | intro _ | apply okO_next | apply okO_refused | apply okO_no | apply okO_onlyIf | apply ok_engIssue | apply ok_engine | split | dsimp only | simp only [ok_mk]))

theorem ok_execCpyg {bb : Bool} {s : State} {f : OpT} (h : Ok bb s) : OkO bb (execCpyg f s) := by
  unfold execCpyg
  (try dsimp only) <;> with_reducible (repeat' (first | assumption | intro _ | apply okO_next | apply okO_refused | apply okO_no | apply okO_onlyIf | apply okF_done | apply okF_trapFrom | apply okF_trap | apply okF_waitFrom | apply okF_wait | apply okF_oldest | apply okF_parked | apply ok_ite | apply ok_trap | apply ok_engIssue | apply ok_engine | split | dsimp only | simp only [ok_mk]))

theorem ok_execCpyr {bb : Bool} {s : State} {f : OpT} (h : Ok bb s) : OkO bb (execCpyr f s) := by
  unfold execCpyr
  (try dsimp only) <;> with_reducible (repeat' (first | assumption | intro _ | apply okO_next | apply okO_refused | apply okO_no | apply okO_onlyIf | apply ok_engIssue | apply ok_engine | split | dsimp only | simp only [ok_mk]))

theorem ok_execCpyq {bb : Bool} {s : State} {f : OpT} (h : Ok bb s) : OkO bb (execCpyq f s) := by
  unfold execCpyq
  (try dsimp only) <;> with_reducible (repeat' (first | assumption | intro _ | apply okO_next | apply okO_refused | apply okO_no | apply okO_onlyIf | apply okF_done | apply okF_trapFrom | apply okF_trap | apply okF_waitFrom | apply okF_wait | apply okF_oldest | apply okF_parked | apply ok_advance | apply ok_putLanes | apply ok_engine | split | dsimp only | simp only [ok_mk]))

theorem ok_execCpyc {bb : Bool} {s : State} {f : OpT} (h : Ok bb s) : OkO bb (execCpyc f s) := by
  unfold execCpyc
  (try dsimp only) <;> with_reducible (repeat' (first | assumption | intro _ | apply okO_next | apply okO_refused | apply okO_no | apply okO_onlyIf | apply okF_done | apply okF_trapFrom | apply okF_trap | apply okF_waitFrom | apply okF_wait | apply okF_oldest | apply okF_parked | apply ok_updOp | apply ok_advance | apply ok_engine | split | dsimp only | simp only [ok_mk]))

theorem ok_execOsld {bb : Bool} {s : State} {f : OpT} (h : Ok bb s) : OkO bb (execOsld f s) := by
  unfold execOsld
  (try dsimp only) <;> with_reducible (repeat' (first | assumption | intro _ | apply okO_next | apply okO_refused | apply okO_no | apply okO_onlyIf | apply ok_engIssue | apply ok_engine | split | dsimp only | simp only [ok_mk]))

theorem ok_ahead {bb : Bool} {s : State} {u : Nat} (h : Ok bb s) : Ok bb (State.ahead s u) := by
  unfold State.ahead
  (try dsimp only) <;> with_reducible (repeat' (first | assumption | intro _ | apply okF_done | apply okF_trapFrom | apply okF_trap | apply okF_waitFrom | apply okF_wait | apply okF_oldest | apply okF_parked | apply ok_foldl | apply ok_foldl1 | apply ok_foldl2 | apply ok_poke | apply ok_store | split | dsimp only | simp only [ok_mk]))

theorem ok_execCpyt {bb : Bool} {s : State} {f : OpT} (h : Ok bb s) : OkO bb (execCpyt f s) := by
  unfold execCpyt
  (try dsimp only) <;> with_reducible (repeat' (first | assumption | intro _ | apply okO_next | apply okO_refused | apply okO_no | apply okO_onlyIf | apply ok_engIssue | apply ok_engine | split | dsimp only | simp only [ok_mk]))

theorem ok_execCpys {bb : Bool} {s : State} {f : OpT} (h : Ok bb s) : OkO bb (execCpys f s) := by
  unfold execCpys
  (try dsimp only) <;> with_reducible (repeat' (first | assumption | intro _ | apply okO_next | apply okO_refused | apply okO_no | apply okO_onlyIf | apply okF_done | apply okF_trapFrom | apply okF_trap | apply okF_waitFrom | apply okF_wait | apply okF_oldest | apply okF_parked | apply ok_ite | apply ok_trap | apply ok_engIssue | apply ok_engine | split | dsimp only | simp only [ok_mk]))

theorem ok_execCpyx {bb : Bool} {s : State} {f : OpT} (h : Ok bb s) : OkO bb (execCpyx f s) := by
  unfold execCpyx
  (try dsimp only) <;> with_reducible (repeat' (first | assumption | intro _ | apply okO_next | apply okO_refused | apply okO_no | apply okO_onlyIf | apply okF_done | apply okF_trapFrom | apply okF_trap | apply okF_waitFrom | apply okF_wait | apply okF_oldest | apply okF_parked | apply ok_trap | apply ok_engIssue | apply ok_engine | split | dsimp only | simp only [ok_mk]))

theorem ok_stepOp {bb : Bool} {s : State} {o : EngOp} {n k : Nat} {ids : List Nat} (h : Ok bb s) : Ok bb (State.stepOp s o n k ids) := by
  unfold State.stepOp
  (try dsimp only) <;> with_reducible (repeat' (first | assumption | intro _ | apply ok_updOp | apply ok_addBytesOf | split | dsimp only | simp only [ok_mk]))

theorem ok_copyOne {bb : Bool} {s : State} {o : EngOp} {src dst n : Nat} (h : Ok bb s) : OkE bb (·.1) (State.copyOne s o src dst n) := by
  unfold State.copyOne
  (try dsimp only) <;> with_reducible (repeat' (first | assumption | intro _ | refine ok_engWrite_eq (by assumption) ?_ | apply okE_ok | apply okE_error | apply okE_pure | apply ok_engWrite | split | dsimp only | simp only [ok_mk]))

theorem ok_copyOne_eq {bb : Bool} {s t' : State} {a'} {o : EngOp} {src dst n : Nat} (e_ : State.copyOne s o src dst n = .ok (t', a')) (h : Ok bb s) : Ok bb t' := by
  have := ok_copyOne (bb := bb) (s := s) (o := o) (src := src) (dst := dst) (n := n) h; rw [e_] at this; exact this

theorem ok_cpyElement {bb : Bool} {s : State} {o : EngOp} (h : Ok bb s) : OkE bb (fun t => t) (State.cpyElement s o) := by
  unfold State.cpyElement
  (try dsimp only) <;> with_reducible (repeat' (first | assumption | intro _ | refine ok_engWrite_eq (by assumption) ?_ | apply okE_ok | apply okE_error | apply ok_ite | apply okE_pure | apply ok_take | apply ok_engWrite | apply ok_stepOp | split | dsimp only | simp only [ok_mk]))

theorem ok_cpyElement_eq {bb : Bool} {s t' : State} {o : EngOp} (e_ : State.cpyElement s o = .ok t') (h : Ok bb s) : Ok bb t' := by
  have := ok_cpyElement (bb := bb) (s := s) (o := o) h; rw [e_] at this; exact this

theorem ok_osldElement {bb : Bool} {s : State} {o : EngOp} (h : Ok bb s) : OkE bb (fun t => t) (State.osldElement s o) := by
  unfold State.osldElement
  (try dsimp only) <;> with_reducible (repeat' (first | assumption | intro _ | apply okE_ok | apply okE_error | apply ok_ite | apply okE_pure | apply ok_updCore | apply ok_stepOp | split | dsimp only | simp only [ok_mk]))

theorem ok_osldElement_eq {bb : Bool} {s t' : State} {o : EngOp} (e_ : State.osldElement s o = .ok t') (h : Ok bb s) : Ok bb t' := by
  have := ok_osldElement (bb := bb) (s := s) (o := o) h; rw [e_] at this; exact this

theorem ok_tableElement {bb : Bool} {s : State} {o : EngOp} (h : Ok bb s) : OkE bb (fun t => t) (State.tableElement s o) := by
  unfold State.tableElement
  (try dsimp only) <;> with_reducible (repeat' (first | assumption | intro _ | refine ok_copyOne_eq (by assumption) ?_ | apply okE_ok | apply okE_error | apply ok_ite | apply okE_pure | apply ok_updOp | apply ok_stepOp | apply ok_copyOne | split | dsimp only | simp only [ok_mk]))

theorem ok_tableElement_eq {bb : Bool} {s t' : State} {o : EngOp} (e_ : State.tableElement s o = .ok t') (h : Ok bb s) : Ok bb t' := by
  have := ok_tableElement (bb := bb) (s := s) (o := o) h; rw [e_] at this; exact this

theorem ok_nextDescriptor {bb : Bool} {s : State} {o : EngOp} (h : Ok bb s) : OkE bb (fun t => t) (State.nextDescriptor s o) := by
  unfold State.nextDescriptor
  (try dsimp only) <;> with_reducible (repeat' (first | assumption | intro _ | apply okO_next | apply okO_refused | apply okO_no | apply okO_onlyIf | apply okE_ok | apply okE_error | apply okE_pure | apply ok_updOp | split | dsimp only | simp only [ok_mk]))

theorem ok_nextDescriptor_eq {bb : Bool} {s t' : State} {o : EngOp} (e_ : State.nextDescriptor s o = .ok t') (h : Ok bb s) : Ok bb t' := by
  have := ok_nextDescriptor (bb := bb) (s := s) (o := o) h; rw [e_] at this; exact this

theorem ok_putRcv {bb : Bool} {s : State} {o : EngOp} {ta : Nat} {bs : List Byte} (h : Ok bb s) : Ok bb (State.putRcv s o ta bs) := by
  unfold State.putRcv
  (try dsimp only) <;> with_reducible (repeat' (first | assumption | intro _ | apply ok_foldl | apply ok_foldl1 | apply ok_foldl2 | apply ok_bump | apply ok_take | apply ok_store | split | dsimp only | simp only [ok_mk]))

theorem ok_cpyrElement {bb : Bool} {s : State} {o : EngOp} (h : Ok bb s) : OkE bb (fun t => t) (State.cpyrElement s o) := by
  unfold State.cpyrElement
  extract_lets d hs p0 p hh sbase dbase slots rb srow drow si ss di ds srcPage firstPos
  split
  · trivial
  · split
    · split
      · trivial
      · split
        · extract_lets valid t rows va b0 b1 i t1
          split
          · trivial
          · split
            · have ht : Ok bb t := by
                simp only [t]
                split
                · exact ok_putRcv (ok_putRcv (ok_putRcv h))
                · exact h
              have hr : OkE bb (fun t => t) (if valid = true then rows t else .ok t) := by
                split
                · simp only [rows]
                  split
                  · exact ok_putRcv (ok_putRcv (ok_putRcv ht))
                  all_goals trivial
                · exact ht
              revert hr
              generalize (if valid = true then rows t else .ok t) = x
              intro hr
              cases x with
              | error e => trivial
              | ok t => exact ok_updOp hr
            · exact okE_ok (ok_updOp (ok_stepOp (ok_putRcv h)))
        all_goals trivial
    all_goals trivial

theorem ok_cpyrElement_eq {bb : Bool} {s t' : State} {o : EngOp} (e_ : State.cpyrElement s o = .ok t') (h : Ok bb s) : Ok bb t' := by
  have := ok_cpyrElement (bb := bb) (s := s) (o := o) h; rw [e_] at this; exact this

theorem ok_kvrclElement {bb : Bool} {s : State} {o : EngOp} (h : Ok bb s) : OkE bb (fun t => t) (State.kvrclElement s o) := by
  unfold State.kvrclElement
  (try dsimp only) <;> with_reducible (repeat' (first | assumption | intro _ | refine ok_engWrite_eq (by assumption) ?_ | apply okO_next | apply okO_refused | apply okO_no | apply okO_onlyIf | apply okE_ok | apply okE_error | apply ok_ite | apply okE_pure | apply ok_updOp | apply ok_bump | apply ok_engWrite | split | dsimp only | simp only [ok_mk]))

theorem ok_kvrclElement_eq {bb : Bool} {s t' : State} {o : EngOp} (e_ : State.kvrclElement s o = .ok t') (h : Ok bb s) : Ok bb t' := by
  have := ok_kvrclElement (bb := bb) (s := s) (o := o) h; rw [e_] at this; exact this

theorem ok_element {bb : Bool} {s : State} {o : EngOp} (h : Ok bb s) : OkE bb (fun t => t) (State.element s o) := by
  unfold State.element
  (try dsimp only) <;> with_reducible (repeat' (first | assumption | intro _ | refine ok_cpyElement_eq (by assumption) ?_ | refine ok_osldElement_eq (by assumption) ?_ | refine ok_tableElement_eq (by assumption) ?_ | refine ok_nextDescriptor_eq (by assumption) ?_ | refine ok_cpyrElement_eq (by assumption) ?_ | refine ok_kvrclElement_eq (by assumption) ?_ | apply okO_next | apply okO_refused | apply okO_no | apply okO_onlyIf | apply okE_ok | apply okE_error | apply ok_ite | apply okE_pure | apply ok_cpyElement | apply ok_osldElement | apply ok_tableElement | apply ok_nextDescriptor | apply ok_cpyrElement | apply ok_kvrclElement | split | dsimp only | simp only [ok_mk]))

theorem ok_element_eq {bb : Bool} {s t' : State} {o : EngOp} (e_ : State.element s o = .ok t') (h : Ok bb s) : Ok bb t' := by
  have := ok_element (bb := bb) (s := s) (o := o) h; rw [e_] at this; exact this

theorem ok_settleOp {bb : Bool} {s : State} {op : Nat} (h : Ok bb s) : Ok bb (State.settleOp s op) := by
  unfold State.settleOp
  (try dsimp only) <;> with_reducible (repeat' (first | assumption | intro _ | apply ok_ite | apply ok_updOp | apply ok_endOp | split | dsimp only | simp only [ok_mk]))

theorem ok_beginCopy {bb : Bool} {s : State} {o : EngOp} (h : Ok bb s) : Ok bb (State.beginCopy s o) := by
  unfold State.beginCopy
  (try dsimp only) <;> with_reducible (repeat' (first | assumption | intro _ | apply ok_updOp | apply ok_stopOp | apply ok_settleOp | split | dsimp only | simp only [ok_mk]))

theorem ok_execCopyElement {bb : Bool} {s : State} {op : Nat} (h : Ok bb s) : OkO bb (execCopyElement op s) := by
  unfold execCopyElement
  (try dsimp only) <;> with_reducible (repeat' (first | assumption | intro _ | refine ok_element_eq (by assumption) ?_ | apply okO_next | apply okO_refused | apply okO_no | apply okO_onlyIf | apply ok_ite | apply ok_no | apply ok_endOp | apply ok_stopOp | apply ok_element | apply ok_settleOp | split | dsimp only | simp only [ok_mk]))

/-! ## Tile -/

theorem ok_raiseOp {bb : Bool} {s : State} {o : EngOp} {fl : Word} (h : Ok bb s) : Ok bb (State.raiseOp s o fl) := by
  unfold State.raiseOp
  (try dsimp only) <;> with_reducible (repeat' (first | assumption | intro _ | apply ok_updWarp | split | dsimp only | simp only [ok_mk]))

theorem ok_putAcc {bb : Bool} {s : State} {o : EngOp} (h : Ok bb s) : Ok bb (State.putAcc s o) := by
  unfold State.putAcc
  (try dsimp only) <;> with_reducible (repeat' (first | assumption | intro _ | apply ok_foldl | apply ok_foldl1 | apply ok_foldl2 | apply ok_scrPut | split | dsimp only | simp only [ok_mk]))

theorem ok_mmaStep {bb : Bool} {s : State} {o : EngOp} (h : Ok bb s) : Ok bb (State.mmaStep s o) := by
  unfold State.mmaStep
  (try dsimp only) <;> with_reducible (repeat' (first | assumption | intro _ | apply okO_next | apply okO_refused | apply okO_no | apply okO_onlyIf | apply ok_foldl | apply ok_foldl1 | apply ok_foldl2 | apply ok_ite | apply ok_updOp | apply ok_raiseOp | apply ok_putAcc | split | dsimp only | simp only [ok_mk]))

theorem ok_rowStep {bb : Bool} {s : State} {o : EngOp} (h : Ok bb s) : Ok bb (State.rowStep s o) := by
  unfold State.rowStep
  (try dsimp only) <;> with_reducible (repeat' (first | assumption | intro _ | apply okO_next | apply okO_refused | apply okO_no | apply okO_onlyIf | apply ok_foldl | apply ok_foldl1 | apply ok_foldl2 | apply ok_ite | apply ok_updOp | apply ok_scrPut | apply ok_raiseOp | split | dsimp only | simp only [ok_mk]))

theorem ok_tileStep {bb : Bool} {s : State} {o : EngOp} (h : Ok bb s) : Ok bb (State.tileStep s o) := by
  unfold State.tileStep
  (try dsimp only) <;> with_reducible (repeat' (first | assumption | intro _ | apply ok_ite | apply ok_mmaStep | apply ok_rowStep | split | dsimp only | simp only [ok_mk]))

theorem ok_tile {bb : Bool} {s : State} {i : Instr} {f : OpT} {func : Nat} (h : Ok bb s) : Ok bb (State.tile s i f func) := by
  unfold State.tile
  (try dsimp only) <;> with_reducible (repeat' (first | assumption | intro _ | apply okF_done | apply okF_trapFrom | apply okF_trap | apply okF_waitFrom | apply okF_wait | apply okF_oldest | apply okF_parked | apply ok_ite | apply ok_trap | apply ok_consumed | apply ok_engIssue | apply ok_engine | split | dsimp only | simp only [ok_mk]))

theorem ok_execMma {bb : Bool} {s : State} {f : OpT} (h : Ok bb s) : OkO bb (execMma f s) := by
  unfold execMma
  (try dsimp only) <;> with_reducible (repeat' (first | assumption | intro _ | apply okO_next | apply okO_refused | apply okO_no | apply okO_onlyIf | apply ok_tile | split | dsimp only | simp only [ok_mk]))

theorem ok_execMmag {bb : Bool} {s : State} {f : OpT} (h : Ok bb s) : OkO bb (execMmag f s) := by
  unfold execMmag
  (try dsimp only) <;> with_reducible (repeat' (first | assumption | intro _ | apply okO_next | apply okO_refused | apply okO_no | apply okO_onlyIf | apply ok_tile | split | dsimp only | simp only [ok_mk]))

theorem ok_execTzero {bb : Bool} {s : State} {f : OpT} (h : Ok bb s) : OkO bb (execTzero f s) := by
  unfold execTzero
  (try dsimp only) <;> with_reducible (repeat' (first | assumption | intro _ | apply okO_next | apply okO_refused | apply okO_no | apply okO_onlyIf | apply ok_tile | split | dsimp only | simp only [ok_mk]))

theorem ok_execTqnt {bb : Bool} {s : State} {f : OpT} (h : Ok bb s) : OkO bb (execTqnt f s) := by
  unfold execTqnt
  (try dsimp only) <;> with_reducible (repeat' (first | assumption | intro _ | apply okO_next | apply okO_refused | apply okO_no | apply okO_onlyIf | apply ok_tile | split | dsimp only | simp only [ok_mk]))

theorem ok_execTdq {bb : Bool} {s : State} {f : OpT} (h : Ok bb s) : OkO bb (execTdq f s) := by
  unfold execTdq
  (try dsimp only) <;> with_reducible (repeat' (first | assumption | intro _ | apply okO_next | apply okO_refused | apply okO_no | apply okO_onlyIf | apply ok_tile | split | dsimp only | simp only [ok_mk]))

theorem ok_execTcrt {bb : Bool} {s : State} {f : OpT} (h : Ok bb s) : OkO bb (execTcrt f s) := by
  unfold execTcrt
  (try dsimp only) <;> with_reducible (repeat' (first | assumption | intro _ | apply okO_next | apply okO_refused | apply okO_no | apply okO_onlyIf | apply ok_tile | split | dsimp only | simp only [ok_mk]))

theorem ok_execTtrn {bb : Bool} {s : State} {f : OpT} (h : Ok bb s) : OkO bb (execTtrn f s) := by
  unfold execTtrn
  (try dsimp only) <;> with_reducible (repeat' (first | assumption | intro _ | apply okO_next | apply okO_refused | apply okO_no | apply okO_onlyIf | apply ok_tile | split | dsimp only | simp only [ok_mk]))

theorem ok_execTstat {bb : Bool} {s : State} {f : OpT} (h : Ok bb s) : OkO bb (execTstat f s) := by
  unfold execTstat
  (try dsimp only) <;> with_reducible (repeat' (first | assumption | intro _ | apply okO_next | apply okO_refused | apply okO_no | apply okO_onlyIf | apply ok_tile | split | dsimp only | simp only [ok_mk]))

/-! ## Kv -/

theorem ok_fetchLines {bb : Bool} {s : State} {ls : List Nat} (h : Ok bb s) : Ok bb (State.fetchLines s ls) := by
  unfold State.fetchLines
  (try dsimp only) <;> with_reducible (repeat' (first | assumption | intro _ | apply ok_foldl | apply ok_foldl1 | apply ok_foldl2 | apply ok_ite | apply ok_bump | apply ok_prefetch | split | dsimp only | simp only [ok_mk]))

theorem ok_kv {bb : Bool} {s : State} {i : Instr} {f : OpT} {func : Nat} {rel : Bool} (h : Ok bb s) : Ok bb (State.kv s i f func rel) := by
  unfold State.kv
  refine ok_issue h fun s1 h1 => ok_noRegion h1 fun s h => ?_
  split
  · exact okF_oldest
  extract_lets opf vec args young r q found fails args found hits pick bad reads stuck t due s1 s2 s3 s4 id replay malformed
  have ht : Ok bb t := ok_foldl h fun _ _ ht => ok_noteVa ht
  split
  · exact okF_wait
  split
  · exact okF_waitFrom (ok_fetchLines h)
  split
  · refine okF_trapFrom (ok_foldl ht fun u a hu => ?_)
    split
    · exact ok_consumedAt hu
    · exact ok_consumed hu
  split
  · exact okF_oldest
  have k1 : Ok bb s1 := ok_noteReads ht
  have k2 : Ok bb s2 := ok_ite (okS_getD (ok_bufferStore k1) k1) k1
  have k3 : Ok bb s3 := ok_ite (ok_noteWrites k2) (ok_ite (ok_noteWrites k2) k2)
  exact ok_submit (ok_raise k3) fun u hu => ok_switchOff (ok_advance (ok_await (ok_await hu)))

theorem ok_execKvx {bb : Bool} {s : State} {f : OpT} (h : Ok bb s) : OkO bb (execKvx f s) := by
  unfold execKvx
  (try dsimp only) <;> with_reducible (repeat' (first | assumption | intro _ | apply okO_next | apply okO_refused | apply okO_no | apply okO_onlyIf | apply ok_kv | split | dsimp only | simp only [ok_mk]))

theorem ok_execKvvalSet {bb : Bool} {s : State} {f : OpT} (h : Ok bb s) : OkO bb (execKvvalSet f s) := by
  unfold execKvvalSet
  (try dsimp only) <;> with_reducible (repeat' (first | assumption | intro _ | apply okO_next | apply okO_refused | apply okO_no | apply okO_onlyIf | apply ok_kv | split | dsimp only | simp only [ok_mk]))

theorem ok_execKvvalClr {bb : Bool} {s : State} {f : OpT} (h : Ok bb s) : OkO bb (execKvvalClr f s) := by
  unfold execKvvalClr
  (try dsimp only) <;> with_reducible (repeat' (first | assumption | intro _ | apply okO_next | apply okO_refused | apply okO_no | apply okO_onlyIf | apply ok_kv | split | dsimp only | simp only [ok_mk]))

theorem ok_execSkchSlot {bb : Bool} {s : State} {f : OpT} (h : Ok bb s) : OkO bb (execSkchSlot f s) := by
  unfold execSkchSlot
  (try dsimp only) <;> with_reducible (repeat' (first | assumption | intro _ | apply okO_next | apply okO_refused | apply okO_no | apply okO_onlyIf | apply ok_kv | split | dsimp only | simp only [ok_mk]))

theorem ok_execSkchVec {bb : Bool} {s : State} {f : OpT} (h : Ok bb s) : OkO bb (execSkchVec f s) := by
  unfold execSkchVec
  (try dsimp only) <;> with_reducible (repeat' (first | assumption | intro _ | apply okO_next | apply okO_refused | apply okO_no | apply okO_onlyIf | apply ok_kv | split | dsimp only | simp only [ok_mk]))

theorem ok_execKvrcl {bb : Bool} {s : State} {f : OpT} (h : Ok bb s) : OkO bb (execKvrcl f s) := by
  unfold execKvrcl
  (try dsimp only) <;> with_reducible (repeat' (first | assumption | intro _ | apply okO_next | apply okO_refused | apply okO_no | apply okO_onlyIf | apply ok_engIssue | apply ok_engine | split | dsimp only | simp only [ok_mk]))

theorem ok_bankWrite {bb : Bool} {s : State} {r : Req} {k : ReqKind} {as : List Acc} (h : Ok bb s) : Ok bb (State.bankWrite s r k as) := by
  unfold State.bankWrite
  (try dsimp only) <;> with_reducible (repeat' (first | assumption | intro _ | apply ok_bump | apply ok_addPend | split | dsimp only | simp only [ok_mk]))

theorem ok_setValid {bb : Bool} {s : State} {r : Req} {k : KvRec} (h : Ok bb s) : Ok bb (State.setValid s r k) := by
  unfold State.setValid
  (try dsimp only) <;> with_reducible (repeat' (first | assumption | intro _ | apply ok_foldl | apply ok_foldl1 | apply ok_foldl2 | apply ok_ite | apply ok_bankWrite | split | dsimp only | simp only [ok_mk]))

theorem ok_setLen {bb : Bool} {s : State} {r : Req} {k : KvRec} (h : Ok bb s) : Ok bb (State.setLen s r k) := by
  unfold State.setLen
  (try dsimp only) <;> with_reducible (repeat' (first | assumption | intro _ | apply ok_foldl | apply ok_foldl1 | apply ok_foldl2 | apply ok_ite | apply ok_bankWrite | split | dsimp only | simp only [ok_mk]))

theorem ok_dropPend {bb : Bool} {s : State} {r : Req} (h : Ok bb s) : Ok bb (State.dropPend s r) := by
  unfold State.dropPend
  (try dsimp only) <;> with_reducible (repeat' (first | assumption | intro _ | apply ok_updWarp | split | dsimp only | simp only [ok_mk]))

theorem ok_handWrites {bb : Bool} {s : State} {r : Req} {fresh : Nat} {more : List Nat} (h : Ok bb s) : Ok bb (State.handWrites s r fresh more) := by
  unfold State.handWrites
  (try dsimp only) <;> with_reducible (repeat' (first | assumption | intro _ | apply ok_handOver | split | dsimp only | simp only [ok_mk]))

theorem ok_applyKv {bb : Bool} {s : State} {r : Req} {k : KvRec} (h : Ok bb s) : OkO bb (State.applyKv s r k) := by
  unfold State.applyKv
  (try dsimp only) <;> with_reducible (repeat' (first | assumption | intro _ | apply okO_next | apply okO_refused | apply okO_no | apply okO_onlyIf | apply okF_done | apply okF_trapFrom | apply okF_trap | apply okF_waitFrom | apply okF_wait | apply okF_oldest | apply okF_parked | apply ok_ite | apply ok_no | apply ok_onlyIf | apply ok_putReq | apply ok_dropReq | apply ok_setValid | apply ok_setLen | apply ok_dropPend | apply ok_handWrites | split | dsimp only | simp only [ok_mk]))

theorem ok_kvMasks {bb : Bool} {s : State} {r : Req} {replay bad : Lanes} (h : Ok bb s) : Ok bb (State.kvMasks s r replay bad) := by
  unfold State.kvMasks
  (try dsimp only) <;> with_reducible (repeat' (first | assumption | intro _ | apply ok_updWarp | split | dsimp only | simp only [ok_mk]))

theorem ok_returnKv {bb : Bool} {s : State} {r : Req} {func opf : Nat} {hits : List KvRes} {replay bad : Lanes} (h : Ok bb s) : OkO bb (State.returnKv s r func opf hits replay bad) := by
  unfold State.returnKv
  (try dsimp only) <;> with_reducible (repeat' (first | assumption | intro _ | apply okO_next | apply okO_refused | apply okO_no | apply okO_onlyIf | apply ok_foldl | apply ok_foldl1 | apply ok_foldl2 | apply ok_ite | apply ok_updWarp | apply ok_updWay | apply ok_handOver | apply ok_no | apply ok_putReq | apply ok_dropReq | apply ok_localWrite | apply ok_enterBay | apply ok_addPend | apply ok_store | apply ok_kv | apply ok_dropPend | apply ok_handWrites | apply ok_applyKv | apply ok_kvMasks | split | dsimp only | simp only [ok_mk]))

theorem ok_returnAny {bb : Bool} {s : State} {load : Nat} (h : Ok bb s) : OkO bb (returnAny load s) := by
  unfold returnAny
  (try dsimp only) <;> with_reducible (repeat' (first | assumption | intro _ | apply okO_next | apply okO_refused | apply okO_no | apply okO_onlyIf | apply ok_no | apply ok_returnLoad | apply ok_kv | apply ok_applyKv | apply ok_returnKv | split | dsimp only | simp only [ok_mk]))

/-! ## SpecLoop -/

theorem ok_misuse {bb : Bool} {s : State} (h : Ok bb s) : OkF bb (State.misuse s) := by
  unfold State.misuse
  (try dsimp only) <;> with_reducible (repeat' (first | assumption | intro _ | apply okF_done | apply okF_trapFrom | apply okF_trap | apply okF_waitFrom | apply okF_wait | apply okF_oldest | apply okF_parked | apply ok_trap | split | dsimp only | simp only [ok_mk]))

theorem ok_sploop {bb : Bool} {s : State} {f : OpB} (h : Ok bb s) : OkF bb (State.sploop s f) := by
  unfold State.sploop
  (try dsimp only) <;> with_reducible (repeat' (first | assumption | intro _ | apply okF_done | apply okF_trapFrom | apply okF_trap | apply okF_waitFrom | apply okF_wait | apply okF_oldest | apply okF_parked | apply ok_ite | apply ok_bump | apply ok_updMy | apply ok_advance | apply ok_trap | apply ok_trimL1 | apply ok_putLanes | apply ok_take | apply ok_misuse | split | dsimp only | simp only [ok_mk]))

theorem ok_execSploop {bb : Bool} {s : State} {f : OpB} (h : Ok bb s) : OkO bb (execSploop f s) := by
  unfold execSploop
  (try dsimp only) <;> with_reducible (repeat' (first | assumption | intro _ | apply okO_next | apply okO_refused | apply okO_no | apply okO_onlyIf | apply okF_done | apply okF_trapFrom | apply okF_trap | apply okF_waitFrom | apply okF_wait | apply okF_oldest | apply okF_parked | apply ok_issue | apply ok_notGuessing | apply ok_noRegion | apply ok_sploop | split | dsimp only | simp only [ok_mk]))

theorem ok_execSpacc {bb : Bool} {s : State} {f : OpB} (h : Ok bb s) : OkO bb (execSpacc f s) := by
  unfold execSpacc
  (try dsimp only) <;> with_reducible (repeat' (first | assumption | intro _ | apply okO_next | apply okO_refused | apply okO_no | apply okO_onlyIf | apply okF_done | apply okF_trapFrom | apply okF_trap | apply okF_waitFrom | apply okF_wait | apply okF_oldest | apply okF_parked | apply ok_ite | apply ok_updMy | apply ok_advance | apply ok_issue | apply ok_notGuessing | apply ok_noRegion | apply ok_misuse | split | dsimp only | simp only [ok_mk]))

theorem ok_execSpend {bb : Bool} {s : State} {f : OpB} (h : Ok bb s) : OkO bb (execSpend f s) := by
  unfold execSpend
  (try dsimp only) <;> with_reducible (repeat' (first | assumption | intro _ | apply okO_next | apply okO_refused | apply okO_no | apply okO_onlyIf | apply okF_done | apply okF_trapFrom | apply okF_trap | apply okF_waitFrom | apply okF_wait | apply okF_oldest | apply okF_parked | apply ok_ite | apply ok_updMy | apply ok_advance | apply ok_putLanes | apply ok_issue | apply ok_notGuessing | apply ok_noRegion | apply ok_misuse | split | dsimp only | simp only [ok_mk]))

theorem ok_execSpq {bb : Bool} {s : State} {f : OpB} (h : Ok bb s) : OkO bb (execSpq f s) := by
  unfold execSpq
  (try dsimp only) <;> with_reducible (repeat' (first | assumption | intro _ | apply okO_next | apply okO_refused | apply okO_no | apply okO_onlyIf | apply okF_done | apply okF_trapFrom | apply okF_trap | apply okF_waitFrom | apply okF_wait | apply okF_oldest | apply okF_parked | apply ok_advance | apply ok_putLanes | apply ok_issue | apply ok_notGuessing | apply ok_noRegion | split | dsimp only | simp only [ok_mk]))

theorem ok_settleSput {bb : Bool} {s : State} {u k : Nat} (h : Ok bb s) : Ok bb (State.settleSput s u k) := by
  unfold State.settleSput
  (try dsimp only) <;> with_reducible (repeat' (first | assumption | intro _ | apply ok_ite | apply ok_updWarp | apply ok_updWay | apply ok_park | apply ok_widenReqs | split | dsimp only | simp only [ok_mk]))

theorem ok_execSpput {bb : Bool} {s : State} {f : OpB} (h : Ok bb s) : OkO bb (execSpput f s) := by
  unfold execSpput
  (try dsimp only) <;> with_reducible (repeat' (first | assumption | intro _ | apply okO_next | apply okO_refused | apply okO_no | apply okO_onlyIf | apply okF_done | apply okF_trapFrom | apply okF_trap | apply okF_waitFrom | apply okF_wait | apply okF_oldest | apply okF_parked | apply ok_ite | apply ok_park | apply ok_trap | apply ok_consumed | apply ok_issue | apply ok_oldestOnly | apply ok_noRegion | apply ok_misuse | apply ok_settleSput | split | dsimp only | simp only [ok_mk]))

theorem ok_execSpnext {bb : Bool} {s : State} {f : OpB} (h : Ok bb s) : OkO bb (execSpnext f s) := by
  unfold execSpnext
  (try dsimp only) <;> with_reducible (repeat' (first | assumption | intro _ | apply okO_next | apply okO_refused | apply okO_no | apply okO_onlyIf | apply okF_done | apply okF_trapFrom | apply okF_trap | apply okF_waitFrom | apply okF_wait | apply okF_oldest | apply okF_parked | apply ok_ite | apply ok_updWay | apply ok_park | apply ok_issue | apply ok_notGuessing | apply ok_noRegion | apply ok_misuse | split | dsimp only | simp only [ok_mk]))

theorem ok_squashFrom {bb : Bool} {s : State} {u j : Nat} (h : Ok bb s) : Ok bb (State.squashFrom s u j) := by
  unfold State.squashFrom
  (try dsimp only) <;> with_reducible (repeat' (first | assumption | intro _ | apply ok_updWarp | apply ok_dropWays | split | dsimp only | simp only [ok_mk]))

theorem ok_writeThrough {bb : Bool} {s : State} {u k : Nat} (h : Ok bb s) : Ok bb (State.writeThrough s u k) := by
  unfold State.writeThrough
  (try dsimp only) <;> with_reducible (repeat' (first | assumption | intro _ | apply ok_foldl | apply ok_foldl1 | apply ok_foldl2 | apply ok_ite | apply ok_updWarp | apply ok_bump | apply ok_updWay | apply ok_storeToCopy | apply ok_dropCopy | apply ok_addPend | apply ok_store | split | dsimp only | simp only [ok_mk]))

theorem ok_submitKv {bb : Bool} {s : State} {u k : Nat} {rs : List KvRec} (h : Ok bb s) : Ok bb (State.submitKv s u k rs) := by
  unfold State.submitKv
  (try dsimp only) <;> with_reducible (repeat' (first | assumption | intro _ | apply ok_foldl | apply ok_foldl1 | apply ok_foldl2 | apply ok_ite | apply ok_bump | split | dsimp only | simp only [ok_mk]))

theorem ok_keepWay {bb : Bool} {s : State} {u k : Nat} {l : SpecLoop} {y : Way} (h : Ok bb s) : Ok bb (State.keepWay s u k l y) := by
  unfold State.keepWay
  (try dsimp only) <;> with_reducible (repeat' (first | assumption | intro _ | apply okF_done | apply okF_trapFrom | apply okF_trap | apply okF_waitFrom | apply okF_wait | apply okF_oldest | apply okF_parked | apply ok_ite | apply ok_updWarp | apply ok_updWay | apply ok_start | apply ok_squashFrom | apply ok_writeThrough | split | dsimp only | simp only [ok_mk]))

theorem ok_execWayKeep {bb : Bool} {s : State} {warp : Nat} (h : Ok bb s) : OkO bb (execWayKeep warp s) := by
  unfold execWayKeep
  (try dsimp only) <;> with_reducible (repeat' (first | assumption | intro _ | apply okO_next | apply okO_refused | apply okO_no | apply okO_onlyIf | apply ok_ite | apply ok_updWarp | apply ok_updWay | apply ok_no | apply ok_onlyIf | apply ok_kv | apply ok_submitKv | apply ok_keepWay | split | dsimp only | simp only [ok_mk]))

/-! ## Trees -/

theorem ok_bankPut {bb : Bool} {s : State} {ta : Nat} {bs : List Byte} (h : Ok bb s) : OkE bb (fun t => t) (State.bankPut s ta bs) := by
  unfold State.bankPut
  (try dsimp only) <;> with_reducible (repeat' (first | assumption | intro _ | apply okE_ok | apply okE_error | apply ok_ite | apply okE_pure | apply ok_evalWaits | apply ok_recall | split | dsimp only | simp only [ok_mk] | refine ok_mem ?_ (canon_writeBytes _ _)))

theorem ok_bankPut_eq {bb : Bool} {s t' : State} {ta : Nat} {bs : List Byte} (e_ : State.bankPut s ta bs = .ok t') (h : Ok bb s) : Ok bb t' := by
  have := ok_bankPut (bb := bb) (s := s) (ta := ta) (bs := bs) h; rw [e_] at this; exact this

theorem ok_putLines {b : Bool} {s : State} {k ta : Nat} {bs : List Byte} (h : Ok b s) :
    OkE b (fun t => t) (State.putLines s k ta bs) := by
  induction k generalizing s ta bs with
  | zero => exact h
  | succ k ih => exact okE_bind (ok_bankPut h) fun y hy => ih hy

theorem ok_putCount {bb : Bool} {s : State} {k i x : Nat} (h : Ok bb s) : OkE bb (fun t => t) (State.putCount s k i x) := by
  unfold State.putCount
  (try dsimp only) <;> with_reducible (repeat' (first | assumption | intro _ | refine ok_bankPut_eq (by assumption) ?_ | apply okE_ok | apply okE_error | apply okE_pure | apply ok_bankPut | split | dsimp only | simp only [ok_mk]))

theorem ok_putCount_eq {bb : Bool} {s t' : State} {k i x : Nat} (e_ : State.putCount s k i x = .ok t') (h : Ok bb s) : Ok bb t' := by
  have := ok_putCount (bb := bb) (s := s) (k := k) (i := i) (x := x) h; rw [e_] at this; exact this

theorem ok_raiseCount {bb : Bool} {s : State} {k kind pa n : Nat} (h : Ok bb s) : OkE bb (fun t => t) (State.raiseCount s k kind pa n) := by
  unfold State.raiseCount
  (try dsimp only) <;> with_reducible (repeat' (first | assumption | intro _ | refine ok_putCount_eq (by assumption) ?_ | apply okE_ok | apply okE_error | apply okE_pure | apply ok_putCount | split | dsimp only | simp only [ok_mk]))

theorem ok_raiseCount_eq {bb : Bool} {s t' : State} {k kind pa n : Nat} (e_ : State.raiseCount s k kind pa n = .ok t') (h : Ok bb s) : Ok bb t' := by
  have := ok_raiseCount (bb := bb) (s := s) (k := k) (kind := kind) (pa := pa) (n := n) h; rw [e_] at this; exact this

theorem ok_allocElem {bb : Bool} {s : State} {k : Nat} (h : Ok bb s) : OkE bb (·.1) (State.allocElem s k) := by
  unfold State.allocElem
  (try dsimp only) <;> with_reducible (repeat' (first | assumption | intro _ | refine ok_putCount_eq (by assumption) ?_ | refine okE_bind (ok_putCount ?_) ?_ | apply okE_binds | apply okE_ok | apply okE_error | apply okE_pure | apply ok_updPool | apply ok_putCount | split | dsimp only | simp only [ok_mk]))

theorem ok_allocElem_eq {bb : Bool} {s t' : State} {a'} {k : Nat} (e_ : State.allocElem s k = .ok (t', a')) (h : Ok bb s) : Ok bb t' := by
  have := ok_allocElem (bb := bb) (s := s) (k := k) h; rw [e_] at this; exact this

theorem ok_raiseEntry {bb : Bool} {s : State} {a : Asd} {e n : Nat} (h : Ok bb s) : OkE bb (fun t => t) (State.raiseEntry s a e n) := by
  unfold State.raiseEntry
  (try dsimp only) <;> with_reducible (repeat' (first | assumption | intro _ | refine ok_raiseCount_eq (by assumption) ?_ | apply okE_ok | apply okE_error | apply ok_ite | apply okE_pure | apply ok_raiseCount | split | dsimp only | simp only [ok_mk]))

theorem ok_raiseEntry_eq {bb : Bool} {s t' : State} {a : Asd} {e n : Nat} (e_ : State.raiseEntry s a e n = .ok t') (h : Ok bb s) : Ok bb t' := by
  have := ok_raiseEntry (bb := bb) (s := s) (a := a) (e := e) (n := n) h; rw [e_] at this; exact this

theorem ok_setLevels {bb : Bool} {s : State} {n : Nat} {ls : List Nat} (h : Ok bb s) : Ok bb (State.setLevels s n ls) := by
  unfold State.setLevels
  (try dsimp only) <;> with_reducible (repeat' (first | assumption | intro _ | apply ok_foldl | apply ok_foldl1 | apply ok_foldl2 | split | dsimp only | simp only [ok_mk]))

theorem ok_tnode {bb : Bool} {s : State} {u : Nat} {a : Asd} {cow : Bool} {o i e : Nat} (h : Ok bb s) : OkE bb (·.1) (State.tnode s u a cow o i e) := by
  unfold State.tnode
  (try dsimp only) <;> with_reducible (repeat' (first | assumption | intro _ | refine ok_allocElem_eq (by assumption) ?_ | refine ok_raiseEntry_eq (by assumption) ?_ | refine okE_bind (ok_allocElem ?_) ?_ | refine okE_bind (ok_raiseEntry ?_) ?_ | refine okE_bind (okE_foldlM ?_ ?_) ?_ | apply okE_foldlM | apply okE_binds | apply okE_ok | apply okE_error | apply ok_foldl | apply ok_foldl1 | apply ok_foldl2 | apply ok_ite | apply okE_pure | apply ok_allocElem | apply ok_raiseEntry | apply ok_setLevels | split | dsimp only | simp only [ok_mk]))

theorem ok_tnode_eq {bb : Bool} {s t' : State} {a'} {u : Nat} {a : Asd} {cow : Bool} {o i e : Nat} (e_ : State.tnode s u a cow o i e = .ok (t', a')) (h : Ok bb s) : Ok bb t' := by
  have := ok_tnode (bb := bb) (s := s) (u := u) (a := a) (cow := cow) (o := o) (i := i) (e := e) h; rw [e_] at this; exact this

theorem ok_tnodeNow {bb : Bool} {s : State} {u : Nat} {a : Asd} {cow : Bool} {o i e : Nat} (h : Ok bb s) : OkE bb (·.1) (State.tnodeNow s u a cow o i e) := by
  unfold State.tnodeNow
  (try dsimp only) <;> with_reducible (repeat' (first | assumption | intro _ | refine ok_tnode_eq (by assumption) ?_ | refine okE_bind (ok_putLines ?_) ?_ | refine okE_bind (ok_tnode ?_) ?_ | apply okE_binds | apply okE_ok | apply okE_error | apply okE_pure | apply ok_putLines | apply ok_tnode | split | dsimp only | simp only [ok_mk]))

theorem ok_tnodeNow_eq {bb : Bool} {s t' : State} {a'} {u : Nat} {a : Asd} {cow : Bool} {o i e : Nat} (e_ : State.tnodeNow s u a cow o i e = .ok (t', a')) (h : Ok bb s) : Ok bb t' := by
  have := ok_tnodeNow (bb := bb) (s := s) (u := u) (a := a) (cow := cow) (o := o) (i := i) (e := e) h; rw [e_] at this; exact this

theorem ok_rootsw {bb : Bool} {s : State} {a x n : Nat} (h : Ok bb s) : OkE bb (·.1) (State.rootsw s a x n) := by
  unfold State.rootsw
  refine okE_binds fun _ => okE_binds fun _ => ?_
  split
  · trivial
  · exact okE_bind (ok_raiseCount (ok_updRoot h)) fun y hy =>
      okE_pure (ok_setLevels (ok_noteReady (ok_updAsd (ok_updRoot hy))))

theorem ok_rootsw_eq {bb : Bool} {s t' : State} {a'} {a x n : Nat} (e_ : State.rootsw s a x n = .ok (t', a')) (h : Ok bb s) : Ok bb t' := by
  have := ok_rootsw (bb := bb) (s := s) (a := a) (x := x) (n := n) h; rw [e_] at this; exact this

theorem ok_copyTop {bb : Bool} {s : State} {k q : Nat} {bs : List Byte} {r : Root} (h : Ok bb s) : OkE bb (fun t => t) (State.copyTop s k q bs r) := by
  unfold State.copyTop
  (try dsimp only) <;> with_reducible (repeat' (first | assumption | intro _ | refine ok_raiseCount_eq (by assumption) ?_ | refine ok_allocElem_eq (by assumption) ?_ | refine okE_bind (ok_putLines ?_) ?_ | refine okE_bind (ok_raiseCount ?_) ?_ | refine okE_bind (ok_allocElem ?_) ?_ | apply okE_binds | apply okE_ok | apply okE_error | apply okE_pure | apply ok_updRoot | apply ok_putLines | apply ok_raiseCount | apply ok_allocElem | apply ok_setLevels | split | dsimp only | simp only [ok_mk]))

theorem ok_copyTop_eq {bb : Bool} {s t' : State} {k q : Nat} {bs : List Byte} {r : Root} (e_ : State.copyTop s k q bs r = .ok t') (h : Ok bb s) : Ok bb t' := by
  have := ok_copyTop (bb := bb) (s := s) (k := k) (q := q) (bs := bs) (r := r) h; rw [e_] at this; exact this

theorem ok_rootcp {bb : Bool} {s : State} {u mode dest src : Nat} (h : Ok bb s) : OkE bb (·.1) (State.rootcp s u mode dest src) := by
  unfold State.rootcp
  refine okE_binds fun _ => okE_binds fun _ => ?_
  split
  · refine okE_binds fun _ => okE_bind (okE_foldlM h fun t x ht => ok_raiseEntry ht) fun t ht =>
      okE_bind (ok_copyTop ht) fun u hu => okE_bind (ok_copyTop hu) fun v hv => okE_pure (ok_noteReady ?_)
    split
    · exact ok_updAsd (ok_updAsd (ok_updRoot hv))
    · exact ok_updAsd (ok_updRoot hv)
  · trivial

theorem ok_rootcp_eq {bb : Bool} {s t' : State} {a'} {u mode dest src : Nat} (e_ : State.rootcp s u mode dest src = .ok (t', a')) (h : Ok bb s) : Ok bb t' := by
  have := ok_rootcp (bb := bb) (s := s) (u := u) (mode := mode) (dest := dest) (src := src) h; rw [e_] at this; exact this

theorem ok_rootDrop {bb : Bool} {s : State} {src : Nat} (h : Ok bb s) : Ok bb (State.rootDrop s src).1 := by
  unfold State.rootDrop
  (try dsimp only) <;> with_reducible (repeat' (first | assumption | intro _ | apply ok_ite | apply ok_updRoot | apply ok_noteReady | split | dsimp only | simp only [ok_mk]))

theorem ok_rootDrop_eq {bb : Bool} {s t' : State} {a'} {src : Nat} (e_ : State.rootDrop s src = (t', a')) (h : Ok bb s) : Ok bb t' := by
  have := ok_rootDrop (bb := bb) (s := s) (src := src) h; rw [e_] at this; exact this

theorem ok_rebuild {b : Bool} {s : State} {u : Nat} {a : Asd} {path : List (Nat × Nat × Nat)} {va h k item : Nat} {clear : Bool}
    (hs : Ok b s) : OkE b (·.1) (State.rebuild s u a path va h clear k item) := by
  induction k generalizing s item with
  | zero => exact ok_tnodeNow hs
  | succ k ih => exact okE_bind (ok_tnodeNow hs) fun y hy => ih hy

theorem ok_newFrame {bb : Bool} {s : State} {a : Asd} {bs : List Byte} (h : Ok bb s) : OkE bb (·.1) (State.newFrame s a bs) := by
  unfold State.newFrame
  (try dsimp only) <;> with_reducible (repeat' (first | assumption | intro _ | refine ok_allocElem_eq (by assumption) ?_ | refine okE_bind (ok_putLines ?_) ?_ | refine okE_bind (ok_allocElem ?_) ?_ | apply okE_binds | apply okE_ok | apply okE_error | apply okE_pure | apply ok_putLines | apply ok_allocElem | split | dsimp only | simp only [ok_mk]))

theorem ok_newFrame_eq {bb : Bool} {s t' : State} {a'} {a : Asd} {bs : List Byte} (e_ : State.newFrame s a bs = .ok (t', a')) (h : Ok bb s) : Ok bb t' := by
  have := ok_newFrame (bb := bb) (s := s) (a := a) (bs := bs) h; rw [e_] at this; exact this

theorem ok_pgmap {bb : Bool} {s : State} {u mode va : Nat} (h : Ok bb s) : OkE bb (·.1) (State.pgmap s u mode va) := by
  unfold State.pgmap
  (try dsimp only) <;> with_reducible (repeat' (first | assumption | intro _ | refine ok_rootsw_eq (by assumption) ?_ | refine ok_newFrame_eq (by assumption) ?_ | refine okE_bind (ok_rootsw ?_) ?_ | refine okE_bind (ok_rebuild ?_) ?_ | refine okE_bind (ok_newFrame ?_) ?_ | apply okE_binds | apply okE_ok | apply okE_error | apply ok_ite | apply okE_pure | apply ok_rootsw | apply ok_rebuild | apply ok_newFrame | split | dsimp only | simp only [ok_mk]))

theorem ok_pgmap_eq {bb : Bool} {s t' : State} {a'} {u mode va : Nat} (e_ : State.pgmap s u mode va = .ok (t', a')) (h : Ok bb s) : Ok bb t' := by
  have := ok_pgmap (bb := bb) (s := s) (u := u) (mode := mode) (va := va) h; rw [e_] at this; exact this

theorem ok_treeReq {bb : Bool} {s : State} {f : OpM} {k : ReqKind} {o : Order} {as : List Acc} {n : Nat} {ls : Lanes} (h : Ok bb s) : OkF bb (State.treeReq s f k o as n ls) := by
  unfold State.treeReq
  (try dsimp only) <;> with_reducible (repeat' (first | assumption | intro _ | apply okF_done | apply okF_trapFrom | apply okF_trap | apply okF_waitFrom | apply okF_wait | apply okF_oldest | apply okF_parked | apply ok_advance | apply ok_await | apply ok_submit | split | dsimp only | simp only [ok_mk]))

theorem ok_treeInstr {bb : Bool} {s : State} {i : Instr} {f : OpM} {ok : State → Bool} {go : State → Eff} (h : Ok bb s) (he : ∀ x0_, Ok bb x0_ → OkF bb (go x0_)) : OkO bb (State.treeInstr s i f ok go) := by
  unfold State.treeInstr
  (try dsimp only) <;> with_reducible (repeat' (first | assumption | intro _ | apply okO_next | apply okO_refused | apply okO_no | apply okO_onlyIf | apply okF_done | apply okF_trapFrom | apply okF_trap | apply okF_waitFrom | apply okF_wait | apply okF_oldest | apply okF_parked | apply ok_ite | apply ok_trap | apply ok_issue | apply ok_oldestOnly | apply ok_noRegion | apply he | split | dsimp only | simp only [ok_mk]))

theorem ok_execRootsw {bb : Bool} {s : State} {f : OpM} (h : Ok bb s) : OkO bb (execRootsw f s) := by
  unfold execRootsw
  (try dsimp only) <;> with_reducible (repeat' (first | assumption | intro _ | refine ok_rootsw_eq (by assumption) ?_ | apply okO_next | apply okO_refused | apply okO_no | apply okO_onlyIf | apply ok_rootsw | apply ok_treeReq | apply ok_treeInstr | split | dsimp only | simp only [ok_mk]))

theorem ok_rootcpInstr {bb : Bool} {s : State} {i : Instr} {f : OpM} {mode : Nat} (h : Ok bb s) : OkO bb (State.rootcpInstr s i f mode) := by
  unfold State.rootcpInstr
  (try dsimp only) <;> with_reducible (repeat' (first | assumption | intro _ | apply okO_next | apply okO_refused | apply okO_no | apply okO_onlyIf | apply ok_ite | apply ok_treeReq | apply ok_treeInstr | split | dsimp only | simp only [ok_mk]))

theorem ok_execRootcpFork {bb : Bool} {s : State} {f : OpM} (h : Ok bb s) : OkO bb (execRootcpFork f s) := by
  unfold execRootcpFork
  (try dsimp only) <;> with_reducible (repeat' (first | assumption | intro _ | apply okO_next | apply okO_refused | apply okO_no | apply okO_onlyIf | apply ok_rootcpInstr | split | dsimp only | simp only [ok_mk]))

theorem ok_execRootcpSnap {bb : Bool} {s : State} {f : OpM} (h : Ok bb s) : OkO bb (execRootcpSnap f s) := by
  unfold execRootcpSnap
  (try dsimp only) <;> with_reducible (repeat' (first | assumption | intro _ | apply okO_next | apply okO_refused | apply okO_no | apply okO_onlyIf | apply ok_rootcpInstr | split | dsimp only | simp only [ok_mk]))

theorem ok_execRootcpDrop {bb : Bool} {s : State} {f : OpM} (h : Ok bb s) : OkO bb (execRootcpDrop f s) := by
  unfold execRootcpDrop
  (try dsimp only) <;> with_reducible (repeat' (first | assumption | intro _ | apply okO_next | apply okO_refused | apply okO_no | apply okO_onlyIf | apply ok_rootcpInstr | split | dsimp only | simp only [ok_mk]))

theorem ok_execRfrsh {bb : Bool} {s : State} {f : OpM} (h : Ok bb s) : OkO bb (execRfrsh f s) := by
  unfold execRfrsh
  (try dsimp only) <;> with_reducible (repeat' (first | assumption | intro _ | apply okO_next | apply okO_refused | apply okO_no | apply okO_onlyIf | apply okF_done | apply okF_trapFrom | apply okF_trap | apply okF_waitFrom | apply okF_wait | apply okF_oldest | apply okF_parked | apply ok_advance | apply ok_putLanes | apply ok_repin | apply ok_treeInstr | split | dsimp only | simp only [ok_mk]))

theorem ok_execTnode {bb : Bool} {s : State} {f : OpM} (h : Ok bb s) : OkO bb (execTnode f s) := by
  unfold execTnode
  (try dsimp only) <;> with_reducible (repeat' (first | assumption | intro _ | refine ok_tnode_eq (by assumption) ?_ | apply okO_next | apply okO_refused | apply okO_no | apply okO_onlyIf | apply ok_tnode | apply ok_treeReq | apply ok_treeInstr | split | dsimp only | simp only [ok_mk]))

theorem ok_pgmapInstr {bb : Bool} {s : State} {i : Instr} {f : OpM} {mode : Nat} (h : Ok bb s) : OkO bb (State.pgmapInstr s i f mode) := by
  unfold State.pgmapInstr
  (try dsimp only) <;> with_reducible (repeat' (first | assumption | intro _ | apply okO_next | apply okO_refused | apply okO_no | apply okO_onlyIf | apply ok_treeReq | apply ok_treeInstr | split | dsimp only | simp only [ok_mk]))

theorem ok_execPgmapFt {bb : Bool} {s : State} {f : OpM} (h : Ok bb s) : OkO bb (execPgmapFt f s) := by
  unfold execPgmapFt
  (try dsimp only) <;> with_reducible (repeat' (first | assumption | intro _ | apply okO_next | apply okO_refused | apply okO_no | apply okO_onlyIf | apply ok_pgmapInstr | split | dsimp only | simp only [ok_mk]))

theorem ok_execPgmapCow {bb : Bool} {s : State} {f : OpM} (h : Ok bb s) : OkO bb (execPgmapCow f s) := by
  unfold execPgmapCow
  (try dsimp only) <;> with_reducible (repeat' (first | assumption | intro _ | apply okO_next | apply okO_refused | apply okO_no | apply okO_onlyIf | apply ok_pgmapInstr | split | dsimp only | simp only [ok_mk]))

theorem ok_treeDone {bb : Bool} {s : State} {r : Req} {wide : Bool} {vals : List (Nat × Nat)} (h : Ok bb s) : Ok bb (State.treeDone s r wide vals) := by
  unfold State.treeDone
  (try dsimp only) <;> with_reducible (repeat' (first | assumption | intro _ | apply ok_foldl | apply ok_foldl1 | apply ok_foldl2 | apply ok_updWarp | apply ok_dropReq | split | dsimp only | simp only [ok_mk]))

theorem ok_orStatus {b : Bool} {α : Type} {p : α → State} {t : Tree α} {ok : α → State} {bad : Nat → State}
    (h : OkE b p t) (h1 : ∀ x, Ok b (p x) → Ok b (ok x)) (h2 : ∀ n, Ok b (bad n)) : OkO b (orStatus t ok bad) := by
  unfold orStatus
  split
  · exact h1 _ h
  · exact h2 _
  · trivial

theorem ok_pgmapLanes {b : Bool} {s : State} {u mode : Nat} {as : List Acc} (h : Ok b s) :
    OkE b (fun p : State × List (Nat × Nat) => p.1) (State.pgmapLanes s u mode as) := by
  induction as generalizing s with
  | nil => exact h
  | cons x r ih =>
    have go (y : State × Nat) (hy : Ok b y.1) : OkE b (fun p : State × List (Nat × Nat) => p.1) (do
        let (s, sts) ← (if y.2 % 256 ≤ 1 then y.1.repin u else y.1).pgmapLanes u mode r
        return (s, (x.lane, y.2) :: sts)) := by
      refine okE_bind (p := fun p : State × List (Nat × Nat) => p.1) (ih ?_) fun z hz => hz
      split
      · exact ok_repin hy
      · exact hy
    unfold State.pgmapLanes
    dsimp only
    have h : Ok b (if (s.asd (s.warp u).asd).curv = true then
        s.noteWalk (s.warp u).core (s.root (s.asd (s.warp u).asd).cur) x.ta else s) := ok_ite (ok_noteWalk h) h
    revert h
    generalize (if (s.asd (s.warp u).asd).curv = true then
        s.noteWalk (s.warp u).core (s.root (s.asd (s.warp u).asd).cur) x.ta else s) = t
    intro h
    split
    · exact go (_, _) (ok_pgmap_eq (by assumption) h)
    · exact go (_, _) h
    · trivial

theorem ok_enterNode {bb : Bool} {s : State} {r : Req} {m : Nat} {bs : List Byte} (h : Ok bb s) : Ok bb (State.enterNode s r m bs) := by
  unfold State.enterNode
  (try dsimp only) <;> with_reducible (repeat' (first | assumption | intro _ | apply ok_take | apply ok_enterBay | apply ok_addPend | apply ok_store | split | dsimp only | simp only [ok_mk]))

theorem ok_doTree {bb : Bool} {s : State} {r : Req} {func mode a b c : Nat} (h : Ok bb s) : OkO bb (State.doTree s r func mode a b c) := by
  unfold State.doTree
  split
  · exact ok_orStatus (ok_rootsw h) (fun _ hx => ok_treeDone hx) fun _ => ok_treeDone h
  · dsimp only
    split
    · exact ok_treeDone (ok_rootDrop h)
    · exact ok_orStatus (ok_rootcp h) (fun _ hx => ok_treeDone hx) fun _ => ok_treeDone h
  · split
    · exact okO_no
    · exact ok_orStatus (ok_tnode h) (fun _ hx => ok_treeDone (ok_enterNode hx)) fun _ => ok_treeDone h
  · exact ok_orStatus (ok_pgmapLanes h) (fun _ hx => ok_treeDone hx) fun _ => h

theorem ok_execLoadReturn {bb : Bool} {s : State} {load : Nat} (h : Ok bb s) : OkO bb (execLoadReturn load s) := by
  unfold execLoadReturn
  (try dsimp only) <;> with_reducible (repeat' (first | assumption | intro _ | apply okO_next | apply okO_refused | apply okO_no | apply okO_onlyIf | apply ok_no | apply ok_returnAny | apply ok_doTree | split | dsimp only | simp only [ok_mk]))

theorem ok_lower {bb : Bool} {s : State} {k kind pa : Nat} (h : Ok bb s) : OkE bb (·.1) (State.lower s k kind pa) := by
  unfold State.lower
  (try dsimp only) <;> with_reducible (repeat' (first | assumption | intro _ | refine ok_putCount_eq (by assumption) ?_ | refine okE_bind (ok_putCount ?_) ?_ | apply okE_binds | apply okE_ok | apply okE_error | apply ok_ite | apply okE_pure | apply ok_putCount | split | dsimp only | simp only [ok_mk]))

theorem ok_lower_eq {bb : Bool} {s t' : State} {a'} {k kind pa : Nat} (e_ : State.lower s k kind pa = .ok (t', a')) (h : Ok bb s) : Ok bb t' := by
  have := ok_lower (bb := bb) (s := s) (k := k) (kind := kind) (pa := pa) h; rw [e_] at this; exact this

theorem ok_pushElem {bb : Bool} {s : State} {k kind pa : Nat} (h : Ok bb s) : OkE bb (fun t => t) (State.pushElem s k kind pa) := by
  unfold State.pushElem
  (try dsimp only) <;> with_reducible (repeat' (first | assumption | intro _ | refine ok_bankPut_eq (by assumption) ?_ | refine ok_putCount_eq (by assumption) ?_ | refine okE_bind (ok_bankPut ?_) ?_ | refine okE_bind (ok_putCount ?_) ?_ | apply okE_binds | apply okE_ok | apply okE_error | apply okE_pure | apply ok_updPool | apply ok_bankPut | apply ok_putCount | split | dsimp only | simp only [ok_mk]))

theorem ok_pushElem_eq {bb : Bool} {s t' : State} {k kind pa : Nat} (e_ : State.pushElem s k kind pa = .ok t') (h : Ok bb s) : Ok bb t' := by
  have := ok_pushElem (bb := bb) (s := s) (k := k) (kind := kind) (pa := pa) h; rw [e_] at this; exact this

theorem ok_scanNode {b : Bool} {s : State} {a : Asd} {n : Nat} {js fr : List Nat} (h : Ok b s) :
    OkE b (·.1) (State.scanNode s a n js fr) := by
  induction js generalizing s fr with
  | nil => exact h
  | cons j r ih =>
    unfold State.scanNode
    dsimp only
    split
    · refine okE_bind (ok_lower h) fun y hy => ?_
      split
      · exact hy
      · exact ih hy
    · split
      · exact okE_bind (ok_lower h) fun y hy => ih hy
      · exact ih h

theorem ok_freeNode {bb : Bool} {s : State} {a : Asd} {lvl n : Nat} {freed : List Nat} (h : Ok bb s) : OkE bb (fun t => t) (State.freeNode s a lvl n freed) := by
  unfold State.freeNode
  (try dsimp only) <;> with_reducible (repeat' (first | assumption | intro _ | refine ok_pushElem_eq (by assumption) ?_ | refine okE_bind (ok_pushElem ?_) ?_ | refine okE_bind (okE_foldlM ?_ ?_) ?_ | apply okE_foldlM | apply okE_binds | apply okE_ok | apply okE_error | apply ok_foldl | apply ok_foldl1 | apply ok_foldl2 | apply okE_pure | apply ok_setLevels | apply ok_pushElem | split | dsimp only | simp only [ok_mk]))

theorem ok_freeNode_eq {bb : Bool} {s t' : State} {a : Asd} {lvl n : Nat} {freed : List Nat} (e_ : State.freeNode s a lvl n freed = .ok t') (h : Ok bb s) : Ok bb t' := by
  have := ok_freeNode (bb := bb) (s := s) (a := a) (lvl := lvl) (n := n) (freed := freed) h; rw [e_] at this; exact this

theorem ok_setWalk {bb : Bool} {s : State} {w : Option Walk} (h : Ok bb s) : Ok bb (State.setWalk s w) := by
  unfold State.setWalk
  (try dsimp only) <;> with_reducible (repeat' (first | assumption | intro _ | split | dsimp only | simp only [ok_mk]))

theorem ok_walkStep {bb : Bool} {s : State} {w : Walk} (h : Ok bb s) : OkE bb (fun t => t) (State.walkStep s w) := by
  unfold State.walkStep
  (try dsimp only) <;> with_reducible (repeat' (first | assumption | intro _ | refine ok_lower_eq (by assumption) ?_ | refine ok_freeNode_eq (by assumption) ?_ | refine okE_bind (ok_lower ?_) ?_ | refine okE_bind (ok_scanNode ?_) ?_ | refine okE_bind (ok_freeNode ?_) ?_ | apply okE_binds | apply okE_ok | apply okE_error | apply ok_ite | apply okE_pure | apply ok_updRoot | apply ok_lower | apply ok_scanNode | apply ok_freeNode | apply ok_setWalk | split | dsimp only | simp only [ok_mk]))

theorem ok_walkStep_eq {bb : Bool} {s t' : State} {w : Walk} (e_ : State.walkStep s w = .ok t') (h : Ok bb s) : Ok bb t' := by
  have := ok_walkStep (bb := bb) (s := s) (w := w) h; rw [e_] at this; exact this

theorem ok_execReclaimRoot {bb : Bool} {s : State} (h : Ok bb s) : OkO bb (execReclaimRoot s) := by
  unfold execReclaimRoot
  (try dsimp only) <;> with_reducible (repeat' (first | assumption | intro _ | refine ok_walkStep_eq (by assumption) ?_ | apply okO_next | apply okO_refused | apply okO_no | apply okO_onlyIf | apply ok_updRoot | apply ok_no | apply ok_walkStep | split | dsimp only | simp only [ok_mk]))

end Sys2Proof.Machine
end

