-- ==== Sys2Proof/Laws/KeepSystem.lean ====
section
/-! SUPPORT. What system words, attention, graphs, fetching and the schedulers keep. -/

namespace Sys2Proof.Machine

/-! ## System -/

theorem ok_leaveHandler {bb : Bool} {s : State} {u : Nat} {kill : Bool} (h : Ok bb s) : Ok bb (State.leaveHandler s u kill) := by
  unfold State.leaveHandler
  (try dsimp only) <;> with_reducible (repeat' (first | assumption | intro _ | apply okF_done | apply okF_trapFrom | apply okF_trap | apply okF_waitFrom | apply okF_wait | apply okF_oldest | apply okF_parked | apply ok_ite | apply ok_updWarp | apply ok_trap | apply ok_settleRegang | apply ok_endRegions | split | dsimp only | simp only [ok_mk]))

theorem ok_tret {bb : Bool} {s : State} {i : Instr} {f : OpM} {kill : Bool} (h : Ok bb s) : OkO bb (State.tret s i f kill) := by
  unfold State.tret
  (try dsimp only) <;> with_reducible (repeat' (first | assumption | intro _ | apply okO_next | apply okO_refused | apply okO_no | apply okO_onlyIf | apply okF_done | apply okF_trapFrom | apply okF_trap | apply okF_waitFrom | apply okF_wait | apply okF_oldest | apply okF_parked | apply ok_ite | apply ok_trap | apply ok_issue | apply ok_oldestOnly | apply ok_noRegion | apply ok_leaveHandler | split | dsimp only | simp only [ok_mk]))

theorem ok_execTret {bb : Bool} {s : State} {f : OpM} (h : Ok bb s) : OkO bb (execTret f s) := by
  unfold execTret
  (try dsimp only) <;> with_reducible (repeat' (first | assumption | intro _ | apply okO_next | apply okO_refused | apply okO_no | apply okO_onlyIf | apply ok_tret | split | dsimp only | simp only [ok_mk]))

theorem ok_execTretKill {bb : Bool} {s : State} {f : OpM} (h : Ok bb s) : OkO bb (execTretKill f s) := by
  unfold execTretKill
  (try dsimp only) <;> with_reducible (repeat' (first | assumption | intro _ | apply okO_next | apply okO_refused | apply okO_no | apply okO_onlyIf | apply ok_tret | split | dsimp only | simp only [ok_mk]))

theorem ok_csrWrite {bb : Bool} {s : State} {n l x : Nat} (h : Ok bb s) : Ok bb (State.csrWrite s n l x) := by
  unfold State.csrWrite
  (try dsimp only) <;> with_reducible (repeat' (first | assumption | intro _ | apply okF_done | apply okF_trapFrom | apply okF_trap | apply okF_waitFrom | apply okF_wait | apply okF_oldest | apply okF_parked | apply ok_ite | apply ok_updMy | apply ok_updArch | apply ok_trap | split | dsimp only | simp only [ok_mk]))

theorem ok_execCsrr {bb : Bool} {s : State} {f : OpM} (h : Ok bb s) : OkO bb (execCsrr f s) := by
  unfold execCsrr
  (try dsimp only) <;> with_reducible (repeat' (first | assumption | intro _ | apply okO_next | apply okO_refused | apply okO_no | apply okO_onlyIf | apply okF_done | apply okF_trapFrom | apply okF_trap | apply okF_waitFrom | apply okF_wait | apply okF_oldest | apply okF_parked | apply ok_ite | apply ok_advance | apply ok_trap | apply ok_putLanes | apply ok_issue | apply ok_oldestOnly | apply ok_noRegion | split | dsimp only | simp only [ok_mk]))

theorem ok_execCsrw {bb : Bool} {s : State} {f : OpM} (h : Ok bb s) : OkO bb (execCsrw f s) := by
  unfold execCsrw
  (try dsimp only) <;> with_reducible (repeat' (first | assumption | intro _ | apply okO_next | apply okO_refused | apply okO_no | apply okO_onlyIf | apply okF_done | apply okF_trapFrom | apply okF_trap | apply okF_waitFrom | apply okF_wait | apply okF_oldest | apply okF_parked | apply ok_foldl | apply ok_foldl1 | apply ok_foldl2 | apply ok_ite | apply ok_advance | apply ok_trap | apply ok_issue | apply ok_oldestOnly | apply ok_noRegion | apply ok_csrWrite | split | dsimp only | simp only [ok_mk]))

theorem ok_execFltq {bb : Bool} {s : State} {f : OpM} (h : Ok bb s) : OkO bb (execFltq f s) := by
  unfold execFltq
  (try dsimp only) <;> with_reducible (repeat' (first | assumption | intro _ | apply okO_next | apply okO_refused | apply okO_no | apply okO_onlyIf | apply okF_done | apply okF_trapFrom | apply okF_trap | apply okF_waitFrom | apply okF_wait | apply okF_oldest | apply okF_parked | apply ok_ite | apply ok_advance | apply ok_forward | apply ok_trap | apply ok_issue | apply ok_oldestOnly | apply ok_noRegion | split | dsimp only | simp only [ok_mk]))

theorem ok_sendGroup {bb : Bool} {s : State} {t : Nat} {pages : List (Nat × Bool)} {x : Waiter} (h : Ok bb s) : Ok bb (State.sendGroup s t pages x) := by
  unfold State.sendGroup
  (try dsimp only) <;> with_reducible (repeat' (first | assumption | intro _ | apply ok_updTenant | apply ok_bump | apply ok_setWait | split | dsimp only | simp only [ok_mk]))

theorem ok_roomFor {b : Bool} {s : State} {t : Nat} {l : List Waiter} (h : Ok b s) : Ok b (State.roomFor s t l) := by
  induction l generalizing s with
  | nil => exact h
  | cons x r ih =>
    unfold State.roomFor
    split
    · split
      · exact ih h
      · split
        · exact ih (ok_sendGroup h)
        · exact h
    · exact ih h

theorem ok_execPgreq {bb : Bool} {s : State} {f : OpM} (h : Ok bb s) : OkO bb (execPgreq f s) := by
  unfold execPgreq
  (try dsimp only) <;> with_reducible (repeat' (first | assumption | intro _ | apply okO_next | apply okO_refused | apply okO_no | apply okO_onlyIf | apply okF_done | apply okF_trapFrom | apply okF_trap | apply okF_waitFrom | apply okF_wait | apply okF_oldest | apply okF_parked | apply ok_ite | apply ok_bump | apply ok_updMy | apply ok_advance | apply ok_park | apply ok_trap | apply ok_putLanes | apply ok_issue | apply ok_oldestOnly | apply ok_noRegion | apply ok_roomFor | split | dsimp only | simp only [ok_mk]))

theorem ok_execPageResponse {bb : Bool} {s : State} {group code : Nat} (h : Ok bb s) : OkO bb (execPageResponse group code s) := by
  unfold execPageResponse
  (try dsimp only) <;> with_reducible (repeat' (first | assumption | intro _ | apply okO_next | apply okO_refused | apply okO_no | apply okO_onlyIf | apply okF_done | apply okF_trapFrom | apply okF_trap | apply okF_waitFrom | apply okF_wait | apply okF_oldest | apply okF_parked | apply ok_ite | apply ok_updTenant | apply ok_wake | apply ok_no | apply ok_roomFor | split | dsimp only | simp only [ok_mk]))

theorem ok_engineReply {bb : Bool} {s : State} {o : EngOp} {reply : Nat} (h : Ok bb s) : Ok bb (State.engineReply s o reply) := by
  unfold State.engineReply
  (try dsimp only) <;> with_reducible (repeat' (first | assumption | intro _ | apply ok_ite | apply ok_updOp | apply ok_endOp | split | dsimp only | simp only [ok_mk]))

theorem ok_execFaultReply {bb : Bool} {s : State} {tenant entry : Nat} {reply : Word} (h : Ok bb s) : OkO bb (execFaultReply tenant entry reply s) := by
  unfold execFaultReply
  (try dsimp only) <;> with_reducible (repeat' (first | assumption | intro _ | apply okO_next | apply okO_refused | apply okO_no | apply okO_onlyIf | apply ok_ite | apply ok_homeStore | apply ok_no | apply ok_onlyIf | apply ok_engineReply | split | dsimp only | simp only [ok_mk]))

/-! ## Attn -/

theorem ok_attnIssue {bb : Bool} {s : State} {i : Instr} {f : OpT} {func : Nat} (h : Ok bb s) : Ok bb (State.attnIssue s i f func) := by
  unfold State.attnIssue
  (try dsimp only) <;> with_reducible (repeat' (first | assumption | intro _ | apply okF_done | apply okF_trapFrom | apply okF_trap | apply okF_waitFrom | apply okF_wait | apply okF_oldest | apply okF_parked | apply ok_ite | apply ok_trap | apply ok_engIssue | apply ok_engine | split | dsimp only | simp only [ok_mk]))

theorem ok_execAttn {bb : Bool} {s : State} {f : OpT} (h : Ok bb s) : OkO bb (execAttn f s) := by
  unfold execAttn
  (try dsimp only) <;> with_reducible (repeat' (first | assumption | intro _ | apply okO_next | apply okO_refused | apply okO_no | apply okO_onlyIf | apply ok_attnIssue | split | dsimp only | simp only [ok_mk]))

theorem ok_execAttnq {bb : Bool} {s : State} {f : OpT} (h : Ok bb s) : OkO bb (execAttnq f s) := by
  unfold execAttnq
  (try dsimp only) <;> with_reducible (repeat' (first | assumption | intro _ | apply okO_next | apply okO_refused | apply okO_no | apply okO_onlyIf | apply ok_attnIssue | split | dsimp only | simp only [ok_mk]))

theorem ok_zeros {bb : Bool} {s : State} {o : EngOp} {off n : Nat} (h : Ok bb s) : Ok bb (State.zeros s o off n) := by
  unfold State.zeros
  (try dsimp only) <;> with_reducible (repeat' (first | assumption | intro _ | apply ok_scrPut | split | dsimp only | simp only [ok_mk]))

theorem ok_attnInit {bb : Bool} {s : State} {o : EngOp} {d : AttnD} {m : Nat} (h : Ok bb s) : Ok bb (State.attnInit s o d m) := by
  unfold State.attnInit
  (try dsimp only) <;> with_reducible (repeat' (first | assumption | intro _ | apply okF_done | apply okF_trapFrom | apply okF_trap | apply okF_waitFrom | apply okF_wait | apply okF_oldest | apply okF_parked | apply ok_ite | apply ok_scrPut | apply ok_zeros | split | dsimp only | simp only [ok_mk]))

theorem ok_attnFilter {bb : Bool} {s : State} {o : EngOp} {d : AttnD} {m k : Nat} (h : Ok bb s) : OkE bb (fun t => t) (State.attnFilter s o d m k) := by
  unfold State.attnFilter
  (try dsimp only) <;> with_reducible (repeat' (first | assumption | intro _ | apply okE_ok | apply okE_error | apply ok_foldl | apply ok_foldl1 | apply ok_foldl2 | apply okE_pure | apply ok_scrPut | split | dsimp only | simp only [ok_mk]))

theorem ok_attnFilter_eq {bb : Bool} {s t' : State} {o : EngOp} {d : AttnD} {m k : Nat} (e_ : State.attnFilter s o d m k = .ok t') (h : Ok bb s) : Ok bb t' := by
  have := ok_attnFilter (bb := bb) (s := s) (o := o) (d := d) (m := m) (k := k) h; rw [e_] at this; exact this

theorem ok_attnSelect {bb : Bool} {s : State} {o : EngOp} {d : AttnD} (h : Ok bb s) : OkE bb (fun t => t) (State.attnSelect s o d) := by
  unfold State.attnSelect
  (try dsimp only) <;> with_reducible (repeat' (first | assumption | intro _ | apply okE_ok | apply okE_error | apply ok_ite | apply okE_pure | apply ok_scrPut | split | dsimp only | simp only [ok_mk]))

theorem ok_attnSelect_eq {bb : Bool} {s t' : State} {o : EngOp} {d : AttnD} (e_ : State.attnSelect s o d = .ok t') (h : Ok bb s) : Ok bb t' := by
  have := ok_attnSelect (bb := bb) (s := s) (o := o) (d := d) h; rw [e_] at this; exact this

theorem ok_attnExact {bb : Bool} {s : State} {o : EngOp} {d : AttnD} {m k : Nat} (h : Ok bb s) : OkE bb (fun t => t) (State.attnExact s o d m k) := by
  unfold State.attnExact
  (try dsimp only) <;> with_reducible (repeat' (first | assumption | intro _ | apply okF_done | apply okF_trapFrom | apply okF_trap | apply okF_waitFrom | apply okF_wait | apply okF_oldest | apply okF_parked | apply okE_ok | apply okE_error | apply ok_foldl | apply ok_foldl1 | apply ok_foldl2 | apply ok_ite | apply okE_pure | apply ok_take | apply ok_scrPut | apply ok_raiseOp | split | dsimp only | simp only [ok_mk]))

theorem ok_attnExact_eq {bb : Bool} {s t' : State} {o : EngOp} {d : AttnD} {m k : Nat} (e_ : State.attnExact s o d m k = .ok t') (h : Ok bb s) : Ok bb t' := by
  have := ok_attnExact (bb := bb) (s := s) (o := o) (d := d) (m := m) (k := k) h; rw [e_] at this; exact this

theorem ok_attnNorm {bb : Bool} {s : State} {o : EngOp} {d : AttnD} {m : Nat} (h : Ok bb s) : OkE bb (fun t => t) (State.attnNorm s o d m) := by
  unfold State.attnNorm
  (try dsimp only) <;> with_reducible (repeat' (first | assumption | intro _ | apply okE_ok | apply okE_error | apply ok_foldl | apply ok_foldl1 | apply ok_foldl2 | apply ok_ite | apply okE_pure | apply ok_scrPut | apply ok_raiseOp | split | dsimp only | simp only [ok_mk]))

theorem ok_attnNorm_eq {bb : Bool} {s t' : State} {o : EngOp} {d : AttnD} {m : Nat} (e_ : State.attnNorm s o d m = .ok t') (h : Ok bb s) : Ok bb t' := by
  have := ok_attnNorm (bb := bb) (s := s) (o := o) (d := d) (m := m) h; rw [e_] at this; exact this

theorem ok_attnStep {bb : Bool} {s : State} {o : EngOp} (h : Ok bb s) : OkS bb (fun t => t) (State.attnStep s o) := by
  unfold State.attnStep
  extract_lets d m res
  have hr : OkE bb (fun p : State × Nat × Nat => p.1) res := by
    simp only [res]
    split
    · exact ok_attnInit h
    · split
      · trivial
      · exact ok_attnFilter_eq (by assumption) h
    · split
      · trivial
      · exact ok_attnSelect_eq (by assumption) h
    · split
      · trivial
      · split
        · trivial
        · exact ok_attnExact_eq (by assumption) h
    · split
      · trivial
      · exact ok_attnNorm_eq (by assumption) h
  clear_value res
  split
  · trivial
  · exact okS_some (ok_stopOp (ok_updCore h))
  · exact okS_some (ok_updOp hr)

theorem ok_attnStep_eq {bb : Bool} {s t' : State} {o : EngOp} (e_ : State.attnStep s o = some t') (h : Ok bb s) : Ok bb t' := by
  have := ok_attnStep (bb := bb) (s := s) (o := o) h; rw [e_] at this; exact this

theorem ok_setSeq {bb : Bool} {s : State} {core : Nat} {o : Option Nat} (h : Ok bb s) : Ok bb (State.setSeq s core o) := by
  unfold State.setSeq
  (try dsimp only) <;> with_reducible (repeat' (first | assumption | intro _ | apply ok_updCore | split | dsimp only | simp only [ok_mk]))

theorem ok_seqStart {bb : Bool} {s : State} {o : EngOp} (h : Ok bb s) : Ok bb (State.seqStart s o) := by
  unfold State.seqStart
  (try dsimp only) <;> with_reducible (repeat' (first | assumption | intro _ | apply ok_ite | apply ok_updOp | apply ok_endOp | apply ok_stopOp | apply ok_setSeq | split | dsimp only | simp only [ok_mk]))

theorem ok_execSequencerStart {bb : Bool} {s : State} {core : Nat} (h : Ok bb s) : OkO bb (execSequencerStart core s) := by
  unfold execSequencerStart
  (try dsimp only) <;> with_reducible (repeat' (first | assumption | intro _ | apply okO_next | apply okO_refused | apply okO_no | apply okO_onlyIf | apply ok_ite | apply ok_no | apply ok_endOp | apply ok_seqStart | split | dsimp only | simp only [ok_mk]))

theorem ok_execCpyxFollowOn {bb : Bool} {s : State} {op : Nat} (h : Ok bb s) : OkO bb (execCpyxFollowOn op s) := by
  unfold execCpyxFollowOn
  (try dsimp only) <;> with_reducible (repeat' (first | assumption | intro _ | apply okO_next | apply okO_refused | apply okO_no | apply okO_onlyIf | apply ok_ite | apply ok_no | apply ok_seqStart | split | dsimp only | simp only [ok_mk]))

theorem ok_execTileStep {bb : Bool} {s : State} {core : Nat} (h : Ok bb s) : OkO bb (execTileStep core s) := by
  unfold execTileStep
  split
  · exact okO_no
  · rename_i o _
    split
    · exact okO_no
    · have hr : OkS bb (fun t => t) (if o.attn then s.attnStep o else some (s.tileStep o)) := by
        split
        · exact ok_attnStep h
        · exact okS_some (ok_tileStep h)
      revert hr
      generalize (if o.attn then s.attnStep o else some (s.tileStep o)) = r
      intro hr
      cases r with
      | none => exact okO_no
      | some t =>
        have ht : Ok bb t := hr
        dsimp only
        split
        · refine okO_next (ok_ite (ok_setSeq (ok_endOp ht)) (ok_ite (ok_setSeq ht) ht))
        · exact okO_next (ok_setSeq ht)

theorem ok_execTileStop {bb : Bool} {s : State} {core : Nat} (h : Ok bb s) : OkO bb (execTileStop core s) := by
  unfold execTileStop
  (try dsimp only) <;> with_reducible (repeat' (first | assumption | intro _ | apply okO_next | apply okO_refused | apply okO_no | apply okO_onlyIf | apply ok_ite | apply ok_updOp | apply ok_no | apply ok_endOp | apply ok_putAcc | apply ok_setSeq | split | dsimp only | simp only [ok_mk]))

theorem ok_execTileResume {bb : Bool} {s : State} {core : Nat} (h : Ok bb s) : OkO bb (execTileResume core s) := by
  unfold execTileResume
  (try dsimp only) <;> with_reducible (repeat' (first | assumption | intro _ | apply okO_next | apply okO_refused | apply okO_no | apply okO_onlyIf | apply ok_ite | apply ok_updOp | apply ok_no | apply ok_setSeq | split | dsimp only | simp only [ok_mk]))

/-! ## Graph -/

theorem ok_poolWrite {b : Bool} {s : State} {o : EngOp} {ls : List (Nat × Nat × Bool)} {bs : List Byte} (h : Ok b s) :
    Ok b (State.poolWrite s o ls bs) := by
  induction ls generalizing s bs with
  | nil => exact h
  | cons p r ih =>
    unfold State.poolWrite
    exact ih (ok_putWriteAt h)

theorem ok_asdWrite {bb : Bool} {s : State} {o : EngOp} {a va : Nat} {bs : List Byte} (h : Ok bb s) : OkE bb (fun t => t) (State.asdWrite s o a va bs) := by
  unfold State.asdWrite
  split
  · trivial
  · exact ok_poolWrite h

theorem ok_asdWrite_eq {bb : Bool} {s t' : State} {o : EngOp} {a va : Nat} {bs : List Byte} (e_ : State.asdWrite s o a va bs = .ok t') (h : Ok bb s) : Ok bb t' := by
  have := ok_asdWrite (bb := bb) (s := s) (o := o) (a := a) (va := va) (bs := bs) h; rw [e_] at this; exact this

theorem ok_putNodeQ {bb : Bool} {s : State} {q : NodeQ} (h : Ok bb s) : Ok bb (State.putNodeQ s q) := by
  unfold State.putNodeQ
  (try dsimp only) <;> with_reducible (repeat' (first | assumption | intro _ | split | dsimp only | simp only [ok_mk]))

theorem ok_updNodeQ {bb : Bool} {s : State} {a n : Nat} {f : NodeQ → NodeQ} (h : Ok bb s) : Ok bb (State.updNodeQ s a n f) := by
  unfold State.updNodeQ
  (try dsimp only) <;> with_reducible (repeat' (first | assumption | intro _ | apply ok_putNodeQ | split | dsimp only | simp only [ok_mk]))

theorem ok_newInst {bb : Bool} {s : State} {i : Inst} (h : Ok bb s) : Ok bb (State.newInst s i) := by
  unfold State.newInst
  (try dsimp only) <;> with_reducible (repeat' (first | assumption | intro _ | apply ok_bump | apply ok_putNodeQ | split | dsimp only | simp only [ok_mk]))

theorem ok_graphIssue {bb : Bool} {s : State} {o : EngOp} {tok : Dst} (h : Ok bb s) : OkF bb (State.graphIssue s o tok) := by
  unfold State.graphIssue
  (try dsimp only) <;> with_reducible (repeat' (first | assumption | intro _ | apply okF_done | apply okF_trapFrom | apply okF_trap | apply okF_waitFrom | apply okF_wait | apply okF_oldest | apply okF_parked | apply ok_ite | apply ok_bump | apply ok_updWay | apply ok_advance | apply ok_pin | apply ok_capture | apply ok_await | split | dsimp only | simp only [ok_mk]))

theorem ok_counted {bb : Bool} {s : State} {f : OpT} {func : Nat} (h : Ok bb s) : OkF bb (State.counted s f func) := by
  unfold State.counted
  (try dsimp only) <;> with_reducible (repeat' (first | assumption | intro _ | apply okF_done | apply okF_trapFrom | apply okF_trap | apply okF_waitFrom | apply okF_wait | apply okF_oldest | apply okF_parked | apply ok_ite | apply ok_trap | apply ok_graphIssue | split | dsimp only | simp only [ok_mk]))

theorem ok_execLaunch {bb : Bool} {s : State} {f : OpT} (h : Ok bb s) : OkO bb (execLaunch f s) := by
  unfold execLaunch
  (try dsimp only) <;> with_reducible (repeat' (first | assumption | intro _ | apply okO_next | apply okO_refused | apply okO_no | apply okO_onlyIf | apply ok_engine | apply ok_counted | split | dsimp only | simp only [ok_mk]))

theorem ok_execEmit {bb : Bool} {s : State} {f : OpT} (h : Ok bb s) : OkO bb (execEmit f s) := by
  unfold execEmit
  (try dsimp only) <;> with_reducible (repeat' (first | assumption | intro _ | apply okO_next | apply okO_refused | apply okO_no | apply okO_onlyIf | apply ok_engine | apply ok_counted | split | dsimp only | simp only [ok_mk]))

theorem ok_execNdone {bb : Bool} {s : State} {f : OpT} (h : Ok bb s) : OkO bb (execNdone f s) := by
  unfold execNdone
  (try dsimp only) <;> with_reducible (repeat' (first | assumption | intro _ | apply okO_next | apply okO_refused | apply okO_no | apply okO_onlyIf | apply ok_engine | apply ok_graphIssue | split | dsimp only | simp only [ok_mk]))

theorem ok_execSlotw {bb : Bool} {s : State} {f : OpT} (h : Ok bb s) : OkO bb (execSlotw f s) := by
  unfold execSlotw
  (try dsimp only) <;> with_reducible (repeat' (first | assumption | intro _ | apply okO_next | apply okO_refused | apply okO_no | apply okO_onlyIf | apply okF_done | apply okF_trapFrom | apply okF_trap | apply okF_waitFrom | apply okF_wait | apply okF_oldest | apply okF_parked | apply ok_ite | apply ok_trap | apply ok_engine | apply ok_graphIssue | split | dsimp only | simp only [ok_mk]))

theorem ok_prmpt {bb : Bool} {s : State} {i : Instr} {f : OpT} {evict : Bool} (h : Ok bb s) : OkO bb (State.prmpt s i f evict) := by
  unfold State.prmpt
  (try dsimp only) <;> with_reducible (repeat' (first | assumption | intro _ | apply okO_next | apply okO_refused | apply okO_no | apply okO_onlyIf | apply okF_done | apply okF_trapFrom | apply okF_trap | apply okF_waitFrom | apply okF_wait | apply okF_oldest | apply okF_parked | apply ok_ite | apply ok_trap | apply ok_engine | apply ok_graphIssue | split | dsimp only | simp only [ok_mk]))

theorem ok_execPrmptStop {bb : Bool} {s : State} {f : OpT} (h : Ok bb s) : OkO bb (execPrmptStop f s) := by
  unfold execPrmptStop
  (try dsimp only) <;> with_reducible (repeat' (first | assumption | intro _ | apply okO_next | apply okO_refused | apply okO_no | apply okO_onlyIf | apply ok_prmpt | split | dsimp only | simp only [ok_mk]))

theorem ok_execPrmptEvict {bb : Bool} {s : State} {f : OpT} (h : Ok bb s) : OkO bb (execPrmptEvict f s) := by
  unfold execPrmptEvict
  (try dsimp only) <;> with_reducible (repeat' (first | assumption | intro _ | apply okO_next | apply okO_refused | apply okO_no | apply okO_onlyIf | apply ok_prmpt | split | dsimp only | simp only [ok_mk]))

theorem ok_askWarp {bb : Bool} {s : State} {u : Nat} {evict : Bool} (h : Ok bb s) : Ok bb (State.askWarp s u evict) := by
  unfold State.askWarp
  (try dsimp only) <;> with_reducible (repeat' (first | assumption | intro _ | apply ok_updWarp | apply ok_dropWays | split | dsimp only | simp only [ok_mk]))

theorem ok_takeBack {bb : Bool} {s : State} {i : Nat} (h : Ok bb s) : Ok bb (State.takeBack s i) := by
  unfold State.takeBack
  (try dsimp only) <;> with_reducible (repeat' (first | assumption | intro _ | apply ok_foldl | apply ok_foldl1 | apply ok_foldl2 | apply ok_updInst | split | dsimp only | simp only [ok_mk]))

theorem ok_askStop {bb : Bool} {s : State} {i : Nat} {evict : Bool} (h : Ok bb s) : Ok bb (State.askStop s i evict) := by
  unfold State.askStop
  (try dsimp only) <;> with_reducible (repeat' (first | assumption | intro _ | apply ok_foldl | apply ok_foldl1 | apply ok_foldl2 | apply ok_updInst | apply ok_askWarp | apply ok_takeBack | split | dsimp only | simp only [ok_mk]))

theorem ok_settleStops {bb : Bool} {s : State} (h : Ok bb s) : Ok bb (State.settleStops s) := by
  unfold State.settleStops
  (try dsimp only) <;> with_reducible (repeat' (first | assumption | intro _ | apply ok_foldl | apply ok_foldl1 | apply ok_foldl2 | apply ok_ite | apply ok_endOp | split | dsimp only | simp only [ok_mk]))

theorem ok_launch {bb : Bool} {s : State} {o : EngOp} (h : Ok bb s) : Ok bb (State.launch s o) := by
  unfold State.launch
  (try dsimp only) <;> with_reducible (repeat' (first | assumption | intro _ | apply ok_endOp | apply ok_stopOp | apply ok_newInst | split | dsimp only | simp only [ok_mk]))

theorem ok_emit {bb : Bool} {s : State} {o : EngOp} (h : Ok bb s) : OkO bb (State.emit s o) := by
  unfold State.emit
  split
  · exact ok_stopped h
  · dsimp only
    split
    · exact okO_next (ok_endOp h)
    · split
      · exact ok_stopped h
      · exact ok_stopped h
      · split
        · exact ok_stopped h
        · exact ok_atHome h fun u hu => ok_endOp (ok_updNodeQ (ok_foldl (ok_performHome (ok_recall (ok_mk.mpr (ok_bump hu))))
            fun _ _ ht => ok_poolWrite ht))

theorem ok_doNdone {bb : Bool} {s : State} {o : EngOp} (h : Ok bb s) : OkS bb (fun t => t) (State.doNdone s o) := by
  unfold State.doNdone
  (try dsimp only) <;> with_reducible (repeat' (first | assumption | intro _ | apply okS_some | apply okS_none | apply ok_ite | apply ok_updWarp | apply ok_updInst | apply ok_endOp | split | dsimp only | simp only [ok_mk]))

theorem ok_doNdone_eq {bb : Bool} {s t' : State} {o : EngOp} (e_ : State.doNdone s o = some t') (h : Ok bb s) : Ok bb t' := by
  have := ok_doNdone (bb := bb) (s := s) (o := o) h; rw [e_] at this; exact this

theorem ok_doSlotw {bb : Bool} {s : State} {o : EngOp} (h : Ok bb s) : OkS bb (fun t => t) (State.doSlotw s o) := by
  unfold State.doSlotw
  (try dsimp only) <;> with_reducible (repeat' (first | assumption | intro _ | apply okS_some | apply okS_none | apply ok_ite | apply ok_updCore | apply ok_updOp | apply ok_endOp | apply ok_stopOp | split | dsimp only | simp only [ok_mk]))

theorem ok_doSlotw_eq {bb : Bool} {s t' : State} {o : EngOp} (e_ : State.doSlotw s o = some t') (h : Ok bb s) : Ok bb t' := by
  have := ok_doSlotw (bb := bb) (s := s) (o := o) h; rw [e_] at this; exact this

theorem ok_doPrmpt {bb : Bool} {s : State} {o : EngOp} (h : Ok bb s) : Ok bb (State.doPrmpt s o) := by
  unfold State.doPrmpt
  (try dsimp only) <;> with_reducible (repeat' (first | assumption | intro _ | apply ok_foldl | apply ok_foldl1 | apply ok_foldl2 | apply ok_ite | apply ok_updInst | apply ok_updOp | apply ok_endOp | apply ok_stopOp | apply ok_askStop | apply ok_settleStops | split | dsimp only | simp only [ok_mk]))

theorem ok_execEngineStart {bb : Bool} {s : State} {op : Nat} (h : Ok bb s) : OkO bb (execEngineStart op s) := by
  unfold execEngineStart
  split
  · exact okO_no
  split
  · exact okO_no
  split
  · exact okO_next (ok_endOp h)
  split
  · exact okO_no
  split
  · exact okO_next (ok_beginCopy h)
  have may : ∀ r : Option State, OkS bb (fun t => t) r →
      OkO bb (match r with | some t => .next t | none => no "ENGINE_START") := by
    intro r hr
    cases r with
    | none => trivial
    | some t => exact hr
  dsimp only
  split
  · exact okO_next (ok_launch h)
  · exact ok_emit h
  · exact may _ (ok_doNdone h)
  · exact may _ (ok_doSlotw h)
  · exact okO_next (ok_doPrmpt h)

/-! ## Fetch -/

theorem ok_noteFetch {bb : Bool} {s : State} {n : Nat} (h : Ok bb s) : Ok bb (State.noteFetch s n) := by
  unfold State.noteFetch
  (try dsimp only) <;> with_reducible (repeat' (first | assumption | intro _ | apply ok_foldl | apply ok_foldl1 | apply ok_foldl2 | apply ok_noteVa | split | dsimp only | simp only [ok_mk]))

theorem ok_fetchTrap {bb : Bool} {s : State} {e : Nat × Nat} (h : Ok bb s) : Ok bb (State.fetchTrap s e) := by
  unfold State.fetchTrap
  (try dsimp only) <;> with_reducible (repeat' (first | assumption | intro _ | apply okF_done | apply okF_trapFrom | apply okF_trap | apply okF_waitFrom | apply okF_wait | apply okF_oldest | apply okF_parked | apply ok_foldl | apply ok_foldl1 | apply ok_foldl2 | apply ok_ite | apply ok_trap | apply ok_consumedAt | apply ok_noteFetch | split | dsimp only | simp only [ok_mk]))

theorem ok_skipWord {bb : Bool} {s : State} {w : BitVec 96} (h : Ok bb s) : Ok bb (State.skipWord s w) := ok_passOver h

theorem ok_takeBackReqs {bb : Bool} {s : State} {r : Req} (h : Ok bb s) : Ok bb (State.takeBackReqs s r) := by
  unfold State.takeBackReqs
  (try dsimp only) <;> with_reducible (repeat' (first | assumption | intro _ | apply ok_foldl | apply ok_foldl1 | apply ok_foldl2 | apply ok_updWarp | apply ok_unpin | apply ok_engine | split | dsimp only | simp only [ok_mk]))

/-! ## Sched -/

theorem ok_meets {bb : Bool} {s : State} {row : String} {a : Nat} {e : Stop} (h : Ok bb s) : OkO bb (State.meets s row a e) := by
  unfold State.meets
  (try dsimp only) <;> with_reducible (repeat' (first | assumption | intro _ | apply okO_next | apply okO_refused | apply okO_no | apply okO_onlyIf | apply ok_bump | apply ok_no | apply ok_onlyIf | apply ok_postEngine | split | dsimp only | simp only [ok_mk]))

theorem ok_watchTail {bb : Bool} {s : State} {a n tail : Nat} (h : Ok bb s) : Ok bb (State.watchTail s a n tail) := by
  unfold State.watchTail
  (try dsimp only) <;> with_reducible (repeat' (first | assumption | intro _ | split | dsimp only | simp only [ok_mk]))

theorem ok_execRecordRefetch {bb : Bool} {s : State} {a n r : Nat} (h : Ok bb s) : OkO bb (execRecordRefetch a n r s) := by
  unfold execRecordRefetch
  (try dsimp only) <;> with_reducible (repeat' (first | assumption | intro _ | apply okO_next | apply okO_refused | apply okO_no | apply okO_onlyIf | apply ok_ite | apply ok_logErr | apply ok_no | apply ok_onlyIf | apply ok_putNodeQ | apply ok_meets | apply ok_watchTail | split | dsimp only | simp only [ok_mk]))

theorem ok_formGroup {bb : Bool} {s : State} {a n x hd_ k err : Nat} (h : Ok bb s) : Ok bb (State.formGroup s a n x hd_ k err) := by
  unfold State.formGroup
  (try dsimp only) <;> with_reducible (repeat' (first | assumption | intro _ | apply ok_updNodeQ | apply ok_newInst | split | dsimp only | simp only [ok_mk]))

theorem ok_consume {bb : Bool} {s : State} {i : Inst} (h : Ok bb s) : Ok bb (State.consume s i) := by
  unfold State.consume
  (try dsimp only) <;> with_reducible (repeat' (first | assumption | intro _ | apply ok_ite | apply ok_consumed | apply ok_updNodeQ | split | dsimp only | simp only [ok_mk]))

theorem ok_formDirect {bb : Bool} {s : State} {a n x hd_ : Nat} (h : Ok bb s) : OkO bb (State.formDirect s a n x hd_) := by
  unfold State.formDirect
  (try dsimp only) <;> with_reducible (repeat' (first | assumption | intro _ | apply okO_next | apply okO_refused | apply okO_no | apply okO_onlyIf | apply ok_ite | apply ok_no | apply ok_onlyIf | apply ok_updNodeQ | apply ok_newInst | apply ok_meets | apply ok_consume | split | dsimp only | simp only [ok_mk]))

theorem ok_execGroupForm {bb : Bool} {s : State} {a n : Nat} (h : Ok bb s) : OkO bb (execGroupForm a n s) := by
  unfold execGroupForm
  (try dsimp only) <;> with_reducible (repeat' (first | assumption | intro _ | apply okO_next | apply okO_refused | apply okO_no | apply okO_onlyIf | apply ok_ite | apply ok_onlyIf | apply ok_meets | apply ok_formGroup | apply ok_formDirect | split | dsimp only | simp only [ok_mk]))

theorem ok_execCoalesceTimeout {bb : Bool} {s : State} {a n : Nat} (h : Ok bb s) : OkO bb (execCoalesceTimeout a n s) := by
  unfold execCoalesceTimeout
  (try dsimp only) <;> with_reducible (repeat' (first | assumption | intro _ | apply okO_next | apply okO_refused | apply okO_no | apply okO_onlyIf | apply ok_onlyIf | apply ok_meets | apply ok_formGroup | split | dsimp only | simp only [ok_mk]))

theorem ok_sendTeam {bb : Bool} {s : State} {i : Nat} {x : Inst} {team : Nat} (h : Ok bb s) : Ok bb (State.sendTeam s i x team) := by
  unfold State.sendTeam
  (try dsimp only) <;> with_reducible (repeat' (first | assumption | intro _ | apply ok_updCore | split | dsimp only | simp only [ok_mk]))

theorem ok_startList {bb : Bool} {s : State} {i : Nat} {x : Inst} (h : Ok bb s) : Ok bb (State.startList s i x) := by
  unfold State.startList
  (try dsimp only) <;> with_reducible (repeat' (first | assumption | intro _ | apply ok_bump | apply ok_pin | split | dsimp only | simp only [ok_mk]))

theorem ok_begin' {bb : Bool} {s : State} {i : Nat} {x : Inst} (h : Ok bb s) : Ok bb (State.begin' s i x) := by
  unfold State.begin'
  (try dsimp only) <;> with_reducible (repeat' (first | assumption | intro _ | apply okO_next | apply okO_refused | apply okO_no | apply okO_onlyIf | apply ok_ite | apply ok_updInst | apply ok_consume | apply ok_startList | split | dsimp only | simp only [ok_mk]))

theorem ok_execDispatch {bb : Bool} {s : State} {inst : Nat} (h : Ok bb s) : OkO bb (execDispatch inst s) := by
  unfold execDispatch
  (try dsimp only) <;> with_reducible (repeat' (first | assumption | intro _ | apply okO_next | apply okO_refused | apply okO_no | apply okO_onlyIf | apply ok_ite | apply ok_updInst | apply ok_no | apply ok_onlyIf | apply ok_ahead | apply ok_meets | apply ok_sendTeam | apply ok_begin' | split | dsimp only | simp only [ok_mk]))

theorem ok_place {bb : Bool} {s : State} {c i : Nat} {x : Inst} {tindex : Nat} (h : Ok bb s) : Ok bb (State.place s c i x tindex) := by
  unfold State.place
  (try dsimp only) <;> with_reducible (repeat' (first | assumption | intro _ | apply ok_foldl | apply ok_foldl1 | apply ok_foldl2 | apply ok_ite | apply ok_updCore | apply ok_updInst | apply ok_bump | apply ok_pin | split | dsimp only | simp only [ok_mk]))

theorem ok_execAdmitTeam {bb : Bool} {s : State} {core : Nat} (h : Ok bb s) : OkO bb (execAdmitTeam core s) := by
  unfold execAdmitTeam
  (try dsimp only) <;> with_reducible (repeat' (first | assumption | intro _ | apply okO_next | apply okO_refused | apply okO_no | apply okO_onlyIf | apply ok_updCore | apply ok_trimL1 | apply ok_no | apply ok_onlyIf | apply ok_place | split | dsimp only | simp only [ok_mk]))

theorem ok_freeStore {bb : Bool} {s : State} {c : Nat} (h : Ok bb s) : Ok bb (State.freeStore s c) := by
  unfold State.freeStore
  (try dsimp only) <;> with_reducible (repeat' (first | assumption | intro _ | apply ok_ite | apply ok_updCore | split | dsimp only | simp only [ok_mk]))

theorem ok_suspendOps {bb : Bool} {s : State} {i : Nat} (h : Ok bb s) : Ok bb (State.suspendOps s i) := by
  unfold State.suspendOps
  (try dsimp only) <;> with_reducible (repeat' (first | assumption | intro _ | apply ok_ite | apply ok_tile | split | dsimp only | simp only [ok_mk]))

theorem ok_leftCore {bb : Bool} {s : State} {i : Nat} (h : Ok bb s) : Ok bb (State.leftCore s i) := by
  unfold State.leftCore
  (try dsimp only) <;> with_reducible (repeat' (first | assumption | intro _ | apply ok_ite | apply ok_updInst | apply ok_start | apply ok_settleStops | apply ok_suspendOps | split | dsimp only | simp only [ok_mk]))

theorem ok_execTeamRetire {bb : Bool} {s : State} {team : Nat} (h : Ok bb s) : OkO bb (execTeamRetire team s) := by
  unfold execTeamRetire
  (try dsimp only) <;> with_reducible (repeat' (first | assumption | intro _ | apply okO_next | apply okO_refused | apply okO_no | apply okO_onlyIf | apply ok_ite | apply ok_updWarp | apply ok_updInst | apply ok_unpin | apply ok_no | apply ok_settleStops | apply ok_freeStore | apply ok_leftCore | split | dsimp only | simp only [ok_mk]))

theorem ok_noteTaken {bb : Bool} {s : State} {x : Inst} (h : Ok bb s) : Ok bb (State.noteTaken s x) := by
  unfold State.noteTaken
  (try dsimp only) <;> with_reducible (repeat' (first | assumption | intro _ | apply ok_ite | apply ok_updNodeQ | split | dsimp only | simp only [ok_mk]))

theorem ok_advanceTaken {b : Bool} {s t : State} {o : EngOp} {x : Inst} (h : Ok b s)
    (e : State.advanceTaken s o x = .ok (some t)) : Ok b t := by
  unfold State.advanceTaken at e
  dsimp only at e
  repeat' split at e
  all_goals first
    | contradiction
    | (cases e <;> first | exact h | exact ok_asdWrite_eq (by assumption) h)

theorem ok_completed {bb : Bool} {s : State} {i : Nat} {o : EngOp} (h : Ok bb s) : Ok bb (State.completed s i o) := by
  unfold State.completed
  (try dsimp only) <;> with_reducible (repeat' (first | assumption | intro _ | apply ok_ite | apply ok_updInst | apply ok_settleStops | split | dsimp only | simp only [ok_mk]))

theorem ok_complete {bb : Bool} {s : State} {i : Nat} {o : EngOp} {x : Inst} (h : Ok bb s) : OkO bb (State.complete s i o x) := by
  unfold State.complete
  extract_lets on take r
  have hon (k : Nat) {t : State} (ht : Ok bb t) : Ok bb (on t k) := ok_updOp ht
  have htake (r : Except Stop (Option State)) {skip : State} (hr : ∀ t, r = .ok (some t) → Ok bb t) (hs : Ok bb skip) :
      OkO bb (take r skip) := by
    simp only [take]
    split
    · exact hs
    · split
      · exact hr _ rfl
      · exact okO_no
      · exact hs
      · exact ok_stopped h
  clear_value take
  split
  · refine htake _ (fun t e => ?_) (hon 1 h)
    have hw : OkE bb (fun t => t) r := by
      simp only [r]
      split
      · trivial
      · exact ok_asdWrite h
    clear_value r
    cases r with
    | error => cases e
    | ok u => cases e; exact hon 1 hw
  · refine htake _ (fun t e => ?_) (hon 2 (ok_noteTaken h))
    split at e
    · cases e
      exact hon 2 (ok_noteTaken (ok_advanceTaken h (by assumption)))
    · cases e
    · cases e
  · split
    · exact ok_atHome h fun u hu => ok_completed (ok_barChange hu)
    · split
      · exact okO_no
      · refine htake _ (fun t e => ?_) (ok_completed h)
        split at e
        · cases e; exact ok_updOp h
        · cases e; exact ok_completed h
        · cases e

theorem ok_beginComplete {bb : Bool} {s : State} {i : Nat} {x : Inst} {early : Bool} (h : Ok bb s) : Ok bb (State.beginComplete s i x early) := by
  unfold State.beginComplete
  (try dsimp only) <;> with_reducible (repeat' (first | assumption | intro _ | apply ok_ite | apply ok_bump | split | dsimp only | simp only [ok_mk]))

theorem ok_execInstanceComplete {bb : Bool} {s : State} {inst : Nat} (h : Ok bb s) : OkO bb (execInstanceComplete inst s) := by
  unfold execInstanceComplete
  (try dsimp only) <;> with_reducible (repeat' (first | assumption | intro _ | apply okO_next | apply okO_refused | apply okO_no | apply okO_onlyIf | apply ok_ite | apply ok_no | apply ok_onlyIf | apply ok_complete | apply ok_beginComplete | split | dsimp only | simp only [ok_mk]))

theorem ok_endWarp {bb : Bool} {s : State} {u : Nat} (h : Ok bb s) : Ok bb (State.endWarp s u) := by
  unfold State.endWarp
  (try dsimp only) <;> with_reducible (repeat' (first | assumption | intro _ | apply okF_done | apply okF_trapFrom | apply okF_trap | apply okF_waitFrom | apply okF_wait | apply okF_oldest | apply okF_parked | apply ok_ite | apply ok_updWarp | apply ok_updDie | apply ok_trap | apply ok_unlockCommits | apply ok_endRegions | split | dsimp only | simp only [ok_mk]))

theorem ok_cancelOp {bb : Bool} {s : State} {o : EngOp} (h : Ok bb s) : Ok bb (State.cancelOp s o) := by
  unfold State.cancelOp
  (try dsimp only) <;> with_reducible (repeat' (first | assumption | intro _ | apply ok_ite | apply ok_updOp | apply ok_endOp | split | dsimp only | simp only [ok_mk]))

theorem ok_teardown {bb : Bool} {s : State} {i err : Nat} (h : Ok bb s) : Ok bb (State.teardown s i err) := by
  unfold State.teardown
  (try dsimp only) <;> with_reducible (repeat' (first | assumption | intro _ | apply ok_foldl | apply ok_foldl1 | apply ok_foldl2 | apply ok_updInst | apply ok_takeBack | apply ok_settleStops | apply ok_endWarp | apply ok_cancelOp | split | dsimp only | simp only [ok_mk]))

theorem ok_execGangWake {bb : Bool} {s : State} {warp : Nat} (h : Ok bb s) : OkO bb (execGangWake warp s) := by
  unfold execGangWake
  (try dsimp only) <;> with_reducible (repeat' (first | assumption | intro _ | apply okO_next | apply okO_refused | apply okO_no | apply okO_onlyIf | apply okF_done | apply okF_trapFrom | apply okF_trap | apply okF_waitFrom | apply okF_wait | apply okF_oldest | apply okF_parked | apply ok_ite | apply ok_no | apply ok_deliver | apply ok_leaveHandler | apply ok_teardown | split | dsimp only | simp only [ok_mk]))

theorem ok_execWarpSave {bb : Bool} {s : State} {warp : Nat} (h : Ok bb s) : OkO bb (execWarpSave warp s) := by
  unfold execWarpSave
  (try dsimp only) <;> with_reducible (repeat' (first | assumption | intro _ | apply okO_next | apply okO_refused | apply okO_no | apply okO_onlyIf | apply ok_ite | apply ok_updWarp | apply ok_no | apply ok_prefetch | apply ok_stopped | apply ok_freeStore | apply ok_leftCore | split | dsimp only | simp only [ok_mk]))

theorem ok_restore {bb : Bool} {s : State} {core ctx order : Nat} {u : Nat} (h : Ok bb s) : Ok bb (State.restore s core ctx order u) := by
  unfold State.restore
  (try dsimp only) <;> with_reducible (repeat' (first | assumption | intro _ | apply okF_done | apply okF_trapFrom | apply okF_trap | apply okF_waitFrom | apply okF_wait | apply okF_oldest | apply okF_parked | apply ok_ite | apply ok_updWarp | split | dsimp only | simp only [ok_mk]))

theorem ok_reround {bb : Bool} {s : State} {core : Nat} {u : Nat} (h : Ok bb s) : Ok bb (State.reround s core u) := by
  unfold State.reround
  (try dsimp only) <;> with_reducible (repeat' (first | assumption | intro _ | apply ok_ite | apply ok_updWarp | apply ok_take | split | dsimp only | simp only [ok_mk]))

theorem ok_seatTeam {bb : Bool} {s : State} {team core tenant : Nat} (h : Ok bb s) : Ok bb (State.seatTeam s team core tenant) := by
  unfold State.seatTeam
  (try dsimp only) <;> with_reducible (repeat' (first | assumption | intro _ | apply ok_ite | apply ok_updTeam | apply ok_updCore | split | dsimp only | simp only [ok_mk]))

theorem ok_resumeTeam {bb : Bool} {s : State} {team core tenant : Nat} {ws : List (Nat × Warp)} (h : Ok bb s) : Ok bb (State.resumeTeam s team core tenant ws) := by
  unfold State.resumeTeam
  (try dsimp only) <;> with_reducible (repeat' (first | assumption | intro _ | apply ok_foldl | apply ok_foldl1 | apply ok_foldl2 | apply ok_ite | apply ok_bump | apply ok_trimL1 | apply ok_restore | apply ok_reround | apply ok_seatTeam | split | dsimp only | simp only [ok_mk]))

theorem ok_execWarpResume {bb : Bool} {s : State} {warp core : Nat} (h : Ok bb s) : OkO bb (execWarpResume warp core s) := by
  unfold execWarpResume
  (try dsimp only) <;> with_reducible (repeat' (first | assumption | intro _ | apply okO_next | apply okO_refused | apply okO_no | apply okO_onlyIf | apply ok_ite | apply ok_updInst | apply ok_no | apply ok_resumeTeam | split | dsimp only | simp only [ok_mk]))

theorem ok_execPreemptRequest {bb : Bool} {s : State} {inst : Nat} (h : Ok bb s) : OkO bb (execPreemptRequest inst s) := by
  unfold execPreemptRequest
  (try dsimp only) <;> with_reducible (repeat' (first | assumption | intro _ | apply okO_next | apply okO_refused | apply okO_no | apply okO_onlyIf | apply ok_no | apply ok_onlyIf | apply ok_start | apply ok_askStop | split | dsimp only | simp only [ok_mk]))

theorem ok_execQuantumExpiry {bb : Bool} {s : State} {inst : Nat} (h : Ok bb s) : OkO bb (execQuantumExpiry inst s) := by
  unfold execQuantumExpiry
  (try dsimp only) <;> with_reducible (repeat' (first | assumption | intro _ | apply okO_next | apply okO_refused | apply okO_no | apply okO_onlyIf | apply okF_done | apply okF_trapFrom | apply okF_trap | apply okF_waitFrom | apply okF_wait | apply okF_oldest | apply okF_parked | apply ok_no | apply ok_onlyIf | apply ok_start | apply ok_askStop | split | dsimp only | simp only [ok_mk]))

theorem ok_execParkYield {bb : Bool} {s : State} {inst : Nat} (h : Ok bb s) : OkO bb (execParkYield inst s) := by
  unfold execParkYield
  (try dsimp only) <;> with_reducible (repeat' (first | assumption | intro _ | apply okO_next | apply okO_refused | apply okO_no | apply okO_onlyIf | apply ok_updInst | apply ok_no | apply ok_onlyIf | apply ok_askStop | split | dsimp only | simp only [ok_mk]))

theorem ok_execSlotTableSwap {bb : Bool} {s : State} {x : SlotSwap} (h : Ok bb s) : OkO bb (execSlotTableSwap x s) := by
  unfold execSlotTableSwap
  (try dsimp only) <;> with_reducible (repeat' (first | assumption | intro _ | apply okO_next | apply okO_refused | apply okO_no | apply okO_onlyIf | apply ok_updCore | apply ok_no | apply ok_onlyIf | apply ok_endOp | split | dsimp only | simp only [ok_mk]))

theorem ok_charge {bb : Bool} {s : State} {core slot : Nat} {r : GangRef} (h : Ok bb s) : Ok bb (State.charge s core slot r) := by
  unfold State.charge
  (try dsimp only) <;> with_reducible (repeat' (first | assumption | intro _ | apply okO_next | apply okO_refused | apply okO_no | apply okO_onlyIf | apply okF_done | apply okF_trapFrom | apply okF_trap | apply okF_waitFrom | apply okF_wait | apply okF_oldest | apply okF_parked | apply ok_updWarp | apply ok_updCore | split | dsimp only | simp only [ok_mk]))

theorem ok_execIssueCycle {bb : Bool} {s : State} {core : Nat} (h : Ok bb s) : OkO bb (execIssueCycle core s) := by
  unfold execIssueCycle
  (try dsimp only) <;> with_reducible (repeat' (first | assumption | intro _ | apply okO_next | apply okO_refused | apply okO_no | apply okO_onlyIf | apply ok_ite | apply ok_updWarp | apply ok_updCore | apply ok_updWay | apply ok_no | apply ok_charge | split | dsimp only | simp only [ok_mk]))

end Sys2Proof.Machine
end

