-- ==== Sys2Proof/Laws/KeepPart.lean ====
section
/-! SUPPORT. What the host, recovery and the platform keep. -/

namespace Sys2Proof.Machine

/-! ## Host -/

theorem ok_markHost {bb : Bool} {s : State} {l : Nat} (h : Ok bb s) : Ok bb (State.markHost s l) := by
  unfold State.markHost
  (try dsimp only) <;> with_reducible (repeat' (first | assumption | intro _ | apply ok_ite | apply ok_updDir | split | dsimp only | simp only [ok_mk]))

theorem ok_arriveHost {bb : Bool} {s : State} {a : HostAcc} (h : Ok bb s) : Ok bb (State.arriveHost s a) := by
  unfold State.arriveHost
  (try dsimp only) <;> with_reducible (repeat' (first | assumption | intro _ | apply ok_foldl | apply ok_foldl1 | apply ok_foldl2 | apply ok_markHost | split | dsimp only | simp only [ok_mk]))

theorem ok_answerWith {bb : Bool} {s : State} {c : Cpl} (h : Ok bb s) : Ok bb (State.answerWith s c) := by
  unfold State.answerWith
  (try dsimp only) <;> with_reducible (repeat' (first | assumption | intro _ | split | dsimp only | simp only [ok_mk]))

theorem ok_homeWrite {bb : Bool} {s : State} {addr : Nat} {bs : List Byte} {pois : Bool} (h : Ok bb s) : Ok bb (State.homeWrite s addr bs pois) := by
  unfold State.homeWrite
  (try dsimp only) <;> with_reducible (repeat' (first | assumption | intro _ | apply ok_foldl | apply ok_foldl1 | apply ok_foldl2 | apply ok_ite | apply ok_evalWaits | apply ok_logErr | split | dsimp only | simp only [ok_mk] | refine ok_mem ?_ (canon_foldl _ _ fun _ _ c => Tab.canon_set _ _ c)))

theorem ok_performHost {bb : Bool} {s : State} {a : HostAcc} (h : Ok bb s) : Ok bb (State.performHost s a) := by
  unfold State.performHost
  (try dsimp only) <;> with_reducible (repeat' (first | assumption | intro _ | apply ok_foldl | apply ok_foldl1 | apply ok_foldl2 | apply ok_ite | apply ok_updDir | apply ok_recall | apply ok_passOn | apply ok_markHost | apply ok_answerWith | apply ok_homeWrite | split | dsimp only | simp only [ok_mk]))

theorem ok_execHostAccess {bb : Bool} {s : State} {ph : Phase} {acc : HostAcc} (h : Ok bb s) : OkO bb (execHostAccess ph acc s) := by
  unfold execHostAccess
  (try dsimp only) <;> with_reducible (repeat' (first | assumption | intro _ | apply okO_next | apply okO_refused | apply okO_no | apply okO_onlyIf | apply ok_onlyIf | apply ok_send | apply ok_take | apply ok_arriveHost | apply ok_performHost | split | dsimp only | simp only [ok_mk]))

theorem ok_execHostSnoop {bb : Bool} {s : State} {ph : Phase} {line : Nat} {inv : Bool} (h : Ok bb s) : OkO bb (execHostSnoop ph line inv s) := by
  unfold execHostSnoop
  (try dsimp only) <;> with_reducible (repeat' (first | assumption | intro _ | apply okO_next | apply okO_refused | apply okO_no | apply okO_onlyIf | apply ok_ite | apply ok_updDir | apply ok_recall | apply ok_passOn | apply ok_no | apply ok_onlyIf | apply ok_send | apply ok_take | split | dsimp only | simp only [ok_mk]))

theorem ok_regWrite {bb : Bool} {s : State} {o n v : Nat} (h : Ok bb s) : Ok bb (State.regWrite s o n v) := by
  unfold State.regWrite
  (try dsimp only) <;> with_reducible (repeat' (first | assumption | intro _ | apply ok_ctlWrite | split | dsimp only | simp only [ok_mk]))

theorem ok_unsupported {bb : Bool} {s : State} (h : Ok bb s) : Ok bb (State.unsupported s) := by
  unfold State.unsupported
  (try dsimp only) <;> with_reducible (repeat' (first | assumption | intro _ | apply ok_answerWith | split | dsimp only | simp only [ok_mk]))

theorem ok_refuseHost {bb : Bool} {s : State} {fn addr : Nat} (h : Ok bb s) : Ok bb (State.refuseHost s fn addr) := by
  unfold State.refuseHost
  (try dsimp only) <;> with_reducible (repeat' (first | assumption | intro _ | apply ok_logErr | apply ok_unsupported | split | dsimp only | simp only [ok_mk]))

theorem ok_arriveAll {b : Bool} {s : State} {p : Bool} {ls : List (Nat × Nat)} {bs : List Byte} (h : Ok b s) :
    Ok b (State.arriveAll s p ls bs) := by
  induction ls generalizing s bs with
  | nil => exact h
  | cons q r ih =>
    unfold State.arriveAll
    exact ih (ok_arriveHost h)

theorem ok_regRead {bb : Bool} {s : State} {o n : Nat} (h : Ok bb s) : Ok bb (State.regRead s o n) := by
  unfold State.regRead
  (try dsimp only) <;> with_reducible (repeat' (first | assumption | intro _ | apply ok_answerWith | split | dsimp only | simp only [ok_mk]))

theorem ok_controlBar {bb : Bool} {s : State} {a : HostAcc} (h : Ok bb s) : Ok bb (State.controlBar s a) := by
  unfold State.controlBar
  (try dsimp only) <;> with_reducible (repeat' (first | assumption | intro _ | apply ok_ite | apply ok_answerWith | apply ok_regWrite | apply ok_unsupported | apply ok_regRead | split | dsimp only | simp only [ok_mk]))

theorem ok_execHostBarAccess {bb : Bool} {s : State} {fn : Nat} {ctl : Bool} {acc : HostAcc} (h : Ok bb s) : OkO bb (execHostBarAccess fn ctl acc s) := by
  unfold execHostBarAccess
  (try dsimp only) <;> with_reducible (repeat' (first | assumption | intro _ | apply okO_next | apply okO_refused | apply okO_no | apply okO_onlyIf | apply ok_ite | apply ok_no | apply ok_onlyIf | apply ok_unsupported | apply ok_refuseHost | apply ok_arriveAll | apply ok_controlBar | split | dsimp only | simp only [ok_mk]))

theorem ok_execConfigurationAccess {bb : Bool} {s : State} {fn : Nat} {acc : CfgAcc} (h : Ok bb s) : OkO bb (execConfigurationAccess fn acc s) := by
  unfold execConfigurationAccess
  (try dsimp only) <;> with_reducible (repeat' (first | assumption | intro _ | apply okO_next | apply okO_refused | apply okO_no | apply okO_onlyIf | apply okF_done | apply okF_trapFrom | apply okF_trap | apply okF_waitFrom | apply okF_wait | apply okF_oldest | apply okF_parked | apply ok_ite | apply ok_updTenant | apply ok_no | apply ok_roomFor | split | dsimp only | simp only [ok_mk]))

theorem ok_peerWrite {bb : Bool} {s : State} {part : Nat} {k : ReqKind} {ta n v : Nat} (h : Ok bb s) : Ok bb (State.peerWrite s part k ta n v) := by
  unfold State.peerWrite
  (try dsimp only) <;> with_reducible (repeat' (first | assumption | intro _ | apply ok_bump | split | dsimp only | simp only [ok_mk]))

theorem ok_peerStore {b : Bool} {s : State} {part : Nat} {ls : List (Nat × Nat)} {bs : List Byte} (h : Ok b s) :
    Ok b (State.peerStore s part ls bs) := by
  induction ls generalizing s bs with
  | nil => exact h
  | cons p r ih =>
    unfold State.peerStore
    exact ih (ok_peerWrite h)

theorem ok_execPeerAccess {bb : Bool} {s : State} {acc : PeerAcc} (h : Ok bb s) : OkO bb (execPeerAccess acc s) := by
  unfold execPeerAccess
  (try dsimp only) <;> with_reducible (repeat' (first | assumption | intro _ | apply okO_next | apply okO_refused | apply okO_no | apply okO_onlyIf | apply ok_ite | apply ok_no | apply ok_peerWrite | apply ok_peerStore | split | dsimp only | simp only [ok_mk]))

theorem ok_appMemory {bb : Bool} {s : State} {ta n : Nat} {value : Option Double} (h : Ok bb s) : Ok bb (State.appMemory s ta n value) := by
  unfold State.appMemory
  (try dsimp only) <;> with_reducible (repeat' (first | assumption | intro _ | apply ok_homeStore | apply ok_answerWith | split | dsimp only | simp only [ok_mk]))

theorem ok_execRegisterWrite {bb : Bool} {s : State} {agent : Agent} {offset : Nat} {wide : Bool} {value : Option Double} (h : Ok bb s) : OkO bb (execRegisterWrite agent offset wide value s) := by
  unfold execRegisterWrite
  (try dsimp only) <;> with_reducible (repeat' (first | assumption | intro _ | apply okO_next | apply okO_refused | apply okO_no | apply okO_onlyIf | apply ok_ite | apply ok_no | apply ok_onlyIf | apply ok_regWrite | apply ok_regRead | apply ok_appMemory | split | dsimp only | simp only [ok_mk]))

/-! ## Recovery -/

theorem ok_lifeUp {bb : Bool} {s : State} {k : LifeKind} {unit : Nat} (h : Ok bb s) : Ok bb (State.lifeUp s k unit) := by
  unfold State.lifeUp
  (try dsimp only) <;> with_reducible (repeat' (first | assumption | intro _ | split | dsimp only | simp only [ok_mk, ok_mkp]))

theorem ok_unitCorr {bb : Bool} {s : State} {u : ErrUnit} (h : Ok bb s) : Ok bb (State.unitCorr s u) := by
  unfold State.unitCorr
  (try dsimp only) <;> with_reducible (repeat' (first | assumption | intro _ | apply ok_lifeUp | split | dsimp only | simp only [ok_mk]))

theorem ok_lineBad {bb : Bool} {s : State} {l : Nat} (h : Ok bb s) : Ok bb (State.lineBad s l) := by
  unfold State.lineBad
  (try dsimp only) <;> with_reducible (repeat' (first | assumption | intro _ | apply ok_ite | apply ok_lifeUp | split | dsimp only | simp only [ok_mk]))

theorem ok_execCorrectedError {bb : Bool} {s : State} {log addr : Nat} {unit : ErrUnit} {tenant : Nat} (h : Ok bb s) : OkO bb (execCorrectedError log addr unit tenant s) := by
  unfold execCorrectedError
  (try dsimp only) <;> with_reducible (repeat' (first | assumption | intro _ | apply okO_next | apply okO_refused | apply okO_no | apply okO_onlyIf | apply ok_logErr | apply ok_onlyIf | apply ok_unitCorr | split | dsimp only | simp only [ok_mk]))

theorem ok_poisonLine {bb : Bool} {s : State} {l : Nat} (h : Ok bb s) : Ok bb (State.poisonLine s l) := by
  unfold State.poisonLine
  (try dsimp only) <;> with_reducible (repeat' (first | assumption | intro _ | apply ok_ite | split | dsimp only | simp only [ok_mk]))

theorem ok_execUncorrectableError {bb : Bool} {s : State} {site : ErrSite} (h : Ok bb s) : OkO bb (execUncorrectableError site s) := by
  unfold execUncorrectableError
  (try dsimp only) <;> with_reducible (repeat' (first | assumption | intro _ | apply okO_next | apply okO_refused | apply okO_no | apply okO_onlyIf | apply ok_ite | apply ok_updWarp | apply ok_updTeam | apply ok_updArch | apply ok_logErr | apply ok_onlyIf | apply ok_lifeUp | apply ok_lineBad | apply ok_poisonLine | split | dsimp only | simp only [ok_mk]))

theorem ok_beginRecovery {bb : Bool} {s : State} {l : Nat} (h : Ok bb s) : Ok bb (State.beginRecovery s l) := by
  unfold State.beginRecovery
  (try dsimp only) <;> with_reducible (repeat' (first | assumption | intro _ | apply ok_foldl | apply ok_foldl1 | apply ok_foldl2 | apply ok_ite | apply ok_updDir | apply ok_snoopAll | split | dsimp only | simp only [ok_mk]))

theorem ok_endRecovery {bb : Bool} {s : State} {l : Nat} (h : Ok bb s) : Ok bb (State.endRecovery s l) := by
  unfold State.endRecovery
  (try dsimp only) <;> with_reducible (repeat' (first | assumption | intro _ | apply ok_ite | apply ok_updDir | apply ok_logErr | split | dsimp only | simp only [ok_mk] | refine ok_mem ?_ (canon_writeBytes _ _)))

theorem ok_execDirEntryError {bb : Bool} {s : State} {ph : Phase} {line : Nat} (h : Ok bb s) : OkO bb (execDirEntryError ph line s) := by
  unfold execDirEntryError
  (try dsimp only) <;> with_reducible (repeat' (first | assumption | intro _ | apply okO_next | apply okO_refused | apply okO_no | apply okO_onlyIf | apply okF_done | apply okF_trapFrom | apply okF_trap | apply okF_waitFrom | apply okF_wait | apply okF_oldest | apply okF_parked | apply ok_onlyIf | apply ok_send | apply ok_take | apply ok_beginRecovery | apply ok_endRecovery | split | dsimp only | simp only [ok_mk]))

theorem ok_salvage {bb : Bool} {s : State} {l : Nat} (h : Ok bb s) : Ok bb (State.salvage s l) := by
  unfold State.salvage
  (try dsimp only) <;> with_reducible (repeat' (first | assumption | intro _ | apply ok_ite | apply ok_poke | apply ok_logErr | split | dsimp only | simp only [ok_mk]))

theorem ok_dropPosted {bb : Bool} {s : State} (h : Ok bb s) : Ok bb (State.dropPosted s) := by
  unfold State.dropPosted
  (try dsimp only) <;> with_reducible (repeat' (first | assumption | intro _ | apply ok_foldl | apply ok_foldl1 | apply ok_foldl2 | apply ok_logErr | split | dsimp only | simp only [ok_mk]))

theorem ok_takeLinkDown {bb : Bool} {s : State} (h : Ok bb s) : Ok bb (State.takeLinkDown s) := by
  unfold State.takeLinkDown
  (try dsimp only) <;> with_reducible (repeat' (first | assumption | intro _ | apply ok_foldl | apply ok_foldl1 | apply ok_foldl2 | apply ok_notice | apply ok_salvage | apply ok_dropPosted | split | dsimp only | simp only [ok_mk]))

theorem ok_execHostLinkDown {bb : Bool} {s : State} (h : Ok bb s) : OkO bb (execHostLinkDown s) := by
  unfold execHostLinkDown
  (try dsimp only) <;> with_reducible (repeat' (first | assumption | intro _ | apply okO_next | apply okO_refused | apply okO_no | apply okO_onlyIf | apply ok_onlyIf | apply ok_takeLinkDown | split | dsimp only | simp only [ok_mk]))

theorem ok_execIdeIntegrityFailure {bb : Bool} {s : State} {stream : Nat} (h : Ok bb s) : OkO bb (execIdeIntegrityFailure stream s) := by
  unfold execIdeIntegrityFailure
  (try dsimp only) <;> with_reducible (repeat' (first | assumption | intro _ | apply okO_next | apply okO_refused | apply okO_no | apply okO_onlyIf | apply ok_onlyIf | apply ok_takeLinkDown | split | dsimp only | simp only [ok_mk]))

theorem ok_execLinkRecover {bb : Bool} {s : State} (h : Ok bb s) : OkO bb (execLinkRecover s) := by
  unfold execLinkRecover
  (try dsimp only) <;> with_reducible (repeat' (first | assumption | intro _ | apply okO_next | apply okO_refused | apply okO_no | apply okO_onlyIf | apply ok_ite | apply ok_onlyIf | apply ok_askReplay | split | dsimp only | simp only [ok_mk]))

theorem ok_execReplay {bb : Bool} {s : State} {refused : List Nat} (h : Ok bb s) : OkO bb (execReplay refused s) := by
  unfold execReplay
  (try dsimp only) <;> with_reducible (repeat' (first | assumption | intro _ | apply okO_next | apply okO_refused | apply okO_no | apply okO_onlyIf | apply ok_foldl | apply ok_foldl1 | apply ok_foldl2 | apply ok_ite | apply ok_poke | apply ok_logErr | apply ok_onlyIf | split | dsimp only | simp only [ok_mk]))

theorem ok_execDisc {bb : Bool} {s : State} (h : Ok bb s) : OkO bb (execDisc s) := by
  unfold execDisc
  (try dsimp only) <;> with_reducible (repeat' (first | assumption | intro _ | apply okO_next | apply okO_refused | apply okO_no | apply okO_onlyIf | apply ok_foldl | apply ok_foldl1 | apply ok_foldl2 | apply ok_logErr | split | dsimp only | simp only [ok_mk]))

theorem ok_execLinkRetrain {bb : Bool} {s : State} {unit : Nat} (h : Ok bb s) : OkO bb (execLinkRetrain unit s) := by
  unfold execLinkRetrain
  (try dsimp only) <;> with_reducible (repeat' (first | assumption | intro _ | apply okO_next | apply okO_refused | apply okO_no | apply okO_onlyIf | apply ok_lifeUp | split | dsimp only | simp only [ok_mk]))

/-! ## Platform -/

theorem ok_resetPart {bb : Bool} {s : State} (h : Ok bb s) : Ok bb (State.resetPart s) := by
  unfold State.resetPart
  (try dsimp only) <;> with_reducible (repeat' (first | assumption | intro _ | split | dsimp only | simp only [ok_mk, ok_mkp]))

theorem ok_execCold {bb : Bool} {s : State} {cause : ResetCause} (h : Ok bb s) : OkO bb (execCold cause s) := by
  unfold execCold
  (try dsimp only) <;> with_reducible (repeat' (first | assumption | intro _ | apply okO_next | apply okO_refused | apply okO_no | apply okO_onlyIf | apply ok_onlyIf | apply ok_resetPart | split | dsimp only | simp only [ok_mk]))

theorem ok_execWarm {bb : Bool} {s : State} {cause : ResetCause} (h : Ok bb s) : OkO bb (execWarm cause s) := by
  unfold execWarm
  (try dsimp only) <;> with_reducible (repeat' (first | assumption | intro _ | apply okO_next | apply okO_refused | apply okO_no | apply okO_onlyIf | apply ok_onlyIf | apply ok_resetPart | split | dsimp only | simp only [ok_mk]))

theorem ok_selfTest {bb : Bool} {s : State} {a : Absent} (h : Ok bb s) : Ok bb (State.selfTest s a) := by
  unfold State.selfTest
  exact ⟨h.1, fun e => canon_filter _ (h.2 e)⟩

theorem ok_execBootStage {bb : Bool} {s : State} {fw : Firmware} {absent : Absent} (h : Ok bb s) : OkO bb (execBootStage fw absent s) := by
  unfold execBootStage
  (try dsimp only) <;> with_reducible (repeat' (first | assumption | intro _ | apply okO_next | apply okO_refused | apply okO_no | apply okO_onlyIf | apply ok_ite | apply ok_no | apply ok_selfTest | split | dsimp only | simp only [ok_mk, ok_mkp]))

theorem ok_execThermalTrip {bb : Bool} {s : State} {stack : Nat} (h : Ok bb s) : OkO bb (execThermalTrip stack s) := by
  unfold execThermalTrip
  (try dsimp only) <;> with_reducible (repeat' (first | assumption | intro _ | apply okO_next | apply okO_refused | apply okO_no | apply okO_onlyIf | apply ok_onlyIf | apply ok_lifeUp | split | dsimp only | simp only [ok_mk, ok_mkp]))

theorem ok_throttle {bb : Bool} {s : State} {block : Nat} {e : Option (Option Nat)} (h : Ok bb s) : Ok bb (State.throttle s block e) := by
  unfold State.throttle
  (try dsimp only) <;> with_reducible (repeat' (first | assumption | intro _ | split | dsimp only | simp only [ok_mk, ok_mkp]))

theorem ok_execThermalThrottle {bb : Bool} {s : State} {x : BlockOver} (h : Ok bb s) : OkO bb (execThermalThrottle x s) := by
  unfold execThermalThrottle
  (try dsimp only) <;> with_reducible (repeat' (first | assumption | intro _ | apply okO_next | apply okO_refused | apply okO_no | apply okO_onlyIf | apply ok_ite | apply ok_lifeUp | apply ok_throttle | split | dsimp only | simp only [ok_mk]))

theorem ok_execThrottleRelease {bb : Bool} {s : State} {x : BlockBack} (h : Ok bb s) : OkO bb (execThrottleRelease x s) := by
  unfold execThrottleRelease
  (try dsimp only) <;> with_reducible (repeat' (first | assumption | intro _ | apply okO_next | apply okO_refused | apply okO_no | apply okO_onlyIf | apply ok_no | apply ok_onlyIf | apply ok_throttle | split | dsimp only | simp only [ok_mk]))

theorem ok_execTimeBaseTick {bb : Bool} {s : State} (h : Ok bb s) : OkO bb (execTimeBaseTick s) := by
  unfold execTimeBaseTick
  (try dsimp only) <;> with_reducible (repeat' (first | assumption | intro _ | apply okO_next | apply okO_refused | apply okO_no | apply okO_onlyIf | split | dsimp only | simp only [ok_mk]))

theorem ok_updTrust {bb : Bool} {s : State} {f : Trust → Trust} (h : Ok bb s) : Ok bb (State.updTrust s f) := by
  unfold State.updTrust
  (try dsimp only) <;> with_reducible (repeat' (first | assumption | intro _ | split | dsimp only | simp only [ok_mk, ok_mkp]))

theorem ok_answer {bb : Bool} {s : State} {ws : List Nat} (h : Ok bb s) : Ok bb (State.answer s ws) := by
  unfold State.answer
  (try dsimp only) <;> with_reducible (repeat' (first | assumption | intro _ | apply ok_updTrust | split | dsimp only | simp only [ok_mk]))

theorem ok_spdmError {bb : Bool} {s : State} {code : Nat} (h : Ok bb s) : Ok bb (State.spdmError s code) := by
  unfold State.spdmError
  (try dsimp only) <;> with_reducible (repeat' (first | assumption | intro _ | apply ok_answer | split | dsimp only | simp only [ok_mk]))

theorem ok_answerSigned {bb : Bool} {s : State} {ws : List Nat} (h : Ok bb s) : Ok bb (State.answerSigned s ws) := by
  unfold State.answerSigned
  (try dsimp only) <;> with_reducible (repeat' (first | assumption | intro _ | apply ok_answer | split | dsimp only | simp only [ok_mk]))

theorem ok_inTurn {b : Bool} {s t : State} {c : Bool} (h : Ok b s) (ht : Ok b t) : OkO b (State.inTurn s c t) := by
  unfold State.inTurn
  split
  · exact ht
  · exact ok_spdmError h

theorem ok_execGetVersion {bb : Bool} {s : State} (h : Ok bb s) : OkO bb (execGetVersion s) := by
  unfold execGetVersion
  (try dsimp only) <;> with_reducible (repeat' (first | assumption | intro _ | apply okO_next | apply okO_refused | apply okO_no | apply okO_onlyIf | apply ok_updTrust | apply ok_answer | split | dsimp only | simp only [ok_mk]))

theorem ok_execGetCapabilities {bb : Bool} {s : State} (h : Ok bb s) : OkO bb (execGetCapabilities s) := by
  unfold execGetCapabilities
  (try dsimp only) <;> with_reducible (repeat' (first | assumption | intro _ | apply okO_next | apply okO_refused | apply okO_no | apply okO_onlyIf | apply ok_updTrust | apply ok_answer | apply ok_inTurn | split | dsimp only | simp only [ok_mk]))

theorem ok_execNegotiateAlgorithms {bb : Bool} {s : State} {slhdsa : Bool} (h : Ok bb s) : OkO bb (execNegotiateAlgorithms slhdsa s) := by
  unfold execNegotiateAlgorithms
  (try dsimp only) <;> with_reducible (repeat' (first | assumption | intro _ | apply okO_next | apply okO_refused | apply okO_no | apply okO_onlyIf | apply ok_ite | apply ok_updTrust | apply ok_answer | apply ok_spdmError | apply ok_inTurn | split | dsimp only | simp only [ok_mk]))

theorem ok_execGetDigests {bb : Bool} {s : State} (h : Ok bb s) : OkO bb (execGetDigests s) := by
  unfold execGetDigests
  (try dsimp only) <;> with_reducible (repeat' (first | assumption | intro _ | apply okO_next | apply okO_refused | apply okO_no | apply okO_onlyIf | apply ok_answer | apply ok_inTurn | split | dsimp only | simp only [ok_mk]))

theorem ok_execGetCertificate {bb : Bool} {s : State} {slot : Nat} (h : Ok bb s) : OkO bb (execGetCertificate slot s) := by
  unfold execGetCertificate
  (try dsimp only) <;> with_reducible (repeat' (first | assumption | intro _ | apply okO_next | apply okO_refused | apply okO_no | apply okO_onlyIf | apply ok_answer | apply ok_inTurn | split | dsimp only | simp only [ok_mk]))

theorem ok_execChallenge {bb : Bool} {s : State} {nonce : Nat} (h : Ok bb s) : OkO bb (execChallenge nonce s) := by
  unfold execChallenge
  (try dsimp only) <;> with_reducible (repeat' (first | assumption | intro _ | apply okO_next | apply okO_refused | apply okO_no | apply okO_onlyIf | apply ok_answerSigned | apply ok_inTurn | split | dsimp only | simp only [ok_mk]))

theorem ok_execGetMeasurements {bb : Bool} {s : State} {index : Nat} (h : Ok bb s) : OkO bb (execGetMeasurements index s) := by
  unfold execGetMeasurements
  (try dsimp only) <;> with_reducible (repeat' (first | assumption | intro _ | apply okO_next | apply okO_refused | apply okO_no | apply okO_onlyIf | apply ok_ite | apply ok_answer | apply ok_spdmError | apply ok_inTurn | split | dsimp only | simp only [ok_mk]))

theorem ok_execKeyExchange {bb : Bool} {s : State} {nonce : Nat} (h : Ok bb s) : OkO bb (execKeyExchange nonce s) := by
  unfold execKeyExchange
  (try dsimp only) <;> with_reducible (repeat' (first | assumption | intro _ | apply okO_next | apply okO_refused | apply okO_no | apply okO_onlyIf | apply ok_updTrust | apply ok_answerSigned | apply ok_inTurn | split | dsimp only | simp only [ok_mk]))

theorem ok_execFinish {bb : Bool} {s : State} {proof : Bool} (h : Ok bb s) : OkO bb (execFinish proof s) := by
  unfold execFinish
  (try dsimp only) <;> with_reducible (repeat' (first | assumption | intro _ | apply okO_next | apply okO_refused | apply okO_no | apply okO_onlyIf | apply ok_ite | apply ok_updTrust | apply ok_answer | apply ok_spdmError | apply ok_inTurn | split | dsimp only | simp only [ok_mk]))

theorem ok_execEndSession {bb : Bool} {s : State} (h : Ok bb s) : OkO bb (execEndSession s) := by
  unfold execEndSession
  (try dsimp only) <;> with_reducible (repeat' (first | assumption | intro _ | apply okO_next | apply okO_refused | apply okO_no | apply okO_onlyIf | apply ok_updTrust | apply ok_answer | apply ok_inTurn | split | dsimp only | simp only [ok_mk]))

theorem ok_execIdeKm {bb : Bool} {s : State} {stream key : Nat} (h : Ok bb s) : OkO bb (execIdeKm stream key s) := by
  unfold execIdeKm
  (try dsimp only) <;> with_reducible (repeat' (first | assumption | intro _ | apply okO_next | apply okO_refused | apply okO_no | apply okO_onlyIf | apply okF_done | apply okF_trapFrom | apply okF_trap | apply okF_waitFrom | apply okF_wait | apply okF_oldest | apply okF_parked | apply ok_ite | apply ok_roomFor | apply ok_updTrust | apply ok_spdmError | apply ok_inTurn | split | dsimp only | simp only [ok_mk]))

end Sys2Proof.Machine
end

