-- ==== Sys2Proof/Laws/Words.lean ====
section
/-! SUPPORT. Every word is issued: its meaning is `State.issue` with an effect of its own. -/

namespace Sys2Proof.Machine

/-- The instruction, if it is a word, is issued with one effect in every state. -/
def Issued (i : Instr) : Prop := ∀ u, usesOf i = some u → ∃ eff : State → Eff, ∀ s, exec i s = .next (s.issue i eff)

theorem issued_alu {i : Instr} {f : OpA} {r : RoleA} {fn : OpA → State → Nat → Res Double} (h : i.roleA = some (f, r))
    (he : ∀ s, exec i s = .next (s.alu i fn)) : Issued i := fun _ _ =>
  ⟨fun s => .done (s.runA i f r (fn f s)), fun s => by rw [he]; unfold State.alu; rw [h]⟩

namespace Issued

theorem nop (f : OpB) : Issued (.nop f) := fun _ _ => ⟨_, fun _ => rfl⟩
theorem bra (f : OpB) : Issued (.bra f) := fun _ _ => ⟨_, fun _ => rfl⟩
theorem brx (f : OpB) : Issued (.brx f) := fun _ _ => ⟨_, fun _ => rfl⟩
theorem rcv (f : OpB) : Issued (.rcv f) := fun _ _ => ⟨_, fun _ => rfl⟩
theorem join (f : OpB) : Issued (.join f) := fun _ _ => ⟨_, fun _ => rfl⟩
theorem loop (f : OpB) : Issued (.loop f) := fun _ _ => ⟨_, fun _ => rfl⟩
theorem brk (f : OpB) : Issued (.brk f) := fun _ _ => ⟨_, fun _ => rfl⟩
theorem next (f : OpB) : Issued (.next f) := fun _ _ => ⟨_, fun _ => rfl⟩
theorem call (f : OpB) : Issued (.call f) := fun _ _ => ⟨_, fun _ => rfl⟩
theorem callx (f : OpB) : Issued (.callx f) := fun _ _ => ⟨_, fun _ => rfl⟩
theorem ret (f : OpB) : Issued (.ret f) := fun _ _ => ⟨_, fun _ => rfl⟩
theorem exit (f : OpB) : Issued (.exit f) := fun _ _ => ⟨_, fun _ => rfl⟩
theorem regang (f : OpB) : Issued (.regang f) := fun _ _ => ⟨_, fun _ => rfl⟩
theorem safept (f : OpB) : Issued (.safept f) := fun _ _ => ⟨_, fun _ => rfl⟩
theorem safeptRf (f : OpB) : Issued (.safeptRf f) := fun _ _ => ⟨_, fun _ => rfl⟩
theorem yield (f : OpB) : Issued (.yield f) := fun _ _ => ⟨_, fun _ => rfl⟩
theorem yieldExpiry (g : GangRef) : Issued (.yieldExpiry g) := fun _ h => nomatch h
theorem trap (f : OpB) : Issued (.trap f) := fun _ _ => ⟨_, fun _ => rfl⟩
theorem bkpt (f : OpB) : Issued (.bkpt f) := fun _ _ => ⟨_, fun _ => rfl⟩
theorem safePointOverdue (g : GangRef) : Issued (.safePointOverdue g) := fun _ h => nomatch h
theorem iadd (f : OpA) : Issued (.iadd f) := issued_alu rfl (fun _ => rfl)
theorem isub (f : OpA) : Issued (.isub f) := issued_alu rfl (fun _ => rfl)
theorem imul (f : OpA) : Issued (.imul f) := issued_alu rfl (fun _ => rfl)
theorem imulh (f : OpA) : Issued (.imulh f) := issued_alu rfl (fun _ => rfl)
theorem imad (f : OpA) : Issued (.imad f) := issued_alu rfl (fun _ => rfl)
theorem imadw (f : OpA) : Issued (.imadw f) := issued_alu rfl (fun _ => rfl)
theorem imin (f : OpA) : Issued (.imin f) := issued_alu rfl (fun _ => rfl)
theorem imax (f : OpA) : Issued (.imax f) := issued_alu rfl (fun _ => rfl)
theorem iabs (f : OpA) : Issued (.iabs f) := issued_alu rfl (fun _ => rfl)
theorem andL (f : OpA) : Issued (.andL f) := issued_alu rfl (fun _ => rfl)
theorem orL (f : OpA) : Issued (.orL f) := issued_alu rfl (fun _ => rfl)
theorem xorL (f : OpA) : Issued (.xorL f) := issued_alu rfl (fun _ => rfl)
theorem lop3 (f : OpA) : Issued (.lop3 f) := issued_alu rfl (fun _ => rfl)
theorem shl (f : OpA) : Issued (.shl f) := issued_alu rfl (fun _ => rfl)
theorem shr (f : OpA) : Issued (.shr f) := issued_alu rfl (fun _ => rfl)
theorem sar (f : OpA) : Issued (.sar f) := issued_alu rfl (fun _ => rfl)
theorem shf (f : OpA) : Issued (.shf f) := issued_alu rfl (fun _ => rfl)
theorem popc (f : OpA) : Issued (.popc f) := issued_alu rfl (fun _ => rfl)
theorem clz (f : OpA) : Issued (.clz f) := issued_alu rfl (fun _ => rfl)
theorem ctz (f : OpA) : Issued (.ctz f) := issued_alu rfl (fun _ => rfl)
theorem brev (f : OpA) : Issued (.brev f) := issued_alu rfl (fun _ => rfl)
theorem bfx (f : OpA) : Issued (.bfx f) := issued_alu rfl (fun _ => rfl)
theorem bfi (f : OpA) : Issued (.bfi f) := issued_alu rfl (fun _ => rfl)
theorem sel (f : OpA) : Issued (.sel f) := issued_alu rfl (fun _ => rfl)
theorem mov (f : OpA) : Issued (.mov f) := issued_alu rfl (fun _ => rfl)
theorem movi (f : OpI) : Issued (.movi f) := fun _ _ => ⟨_, fun _ => rfl⟩
theorem lea (f : OpA) : Issued (.lea f) := issued_alu rfl (fun _ => rfl)
theorem idp4 (f : OpA) : Issued (.idp4 f) := issued_alu rfl (fun _ => rfl)
theorem pmac2 (f : OpA) : Issued (.pmac2 f) := issued_alu rfl (fun _ => rfl)
theorem sarn (f : OpA) : Issued (.sarn f) := issued_alu rfl (fun _ => rfl)
theorem isat (f : OpA) : Issued (.isat f) := issued_alu rfl (fun _ => rfl)
theorem rget (f : OpA) : Issued (.rget f) := fun _ _ => ⟨_, fun _ => rfl⟩
theorem rput (f : OpA) : Issued (.rput f) := fun _ _ => ⟨_, fun _ => rfl⟩
theorem isetp (f : OpA) : Issued (.isetp f) := issued_alu rfl (fun _ => rfl)
theorem fsetp (f : OpA) : Issued (.fsetp f) := issued_alu rfl (fun _ => rfl)
theorem plop (f : OpA) : Issued (.plop f) := issued_alu rfl (fun _ => rfl)
theorem pmovGet (f : OpA) : Issued (.pmovGet f) := issued_alu rfl (fun _ => rfl)
theorem pmovSet (f : OpA) : Issued (.pmovSet f) := fun _ _ => ⟨_, fun _ => rfl⟩
theorem vote (f : OpA) : Issued (.vote f) := issued_alu rfl (fun _ => rfl)
theorem shfl (f : OpA) : Issued (.shfl f) := issued_alu rfl (fun _ => rfl)
theorem slide (f : OpA) : Issued (.slide f) := issued_alu rfl (fun _ => rfl)
theorem redux (f : OpA) : Issued (.redux f) := issued_alu rfl (fun _ => rfl)
theorem scan (f : OpA) : Issued (.scan f) := issued_alu rfl (fun _ => rfl)
theorem matchL (f : OpA) : Issued (.matchL f) := issued_alu rfl (fun _ => rfl)
theorem prmt (f : OpA) : Issued (.prmt f) := issued_alu rfl (fun _ => rfl)
theorem fadd (f : OpA) : Issued (.fadd f) := issued_alu rfl (fun _ => rfl)
theorem fsub (f : OpA) : Issued (.fsub f) := issued_alu rfl (fun _ => rfl)
theorem fmul (f : OpA) : Issued (.fmul f) := issued_alu rfl (fun _ => rfl)
theorem ffma (f : OpA) : Issued (.ffma f) := issued_alu rfl (fun _ => rfl)
theorem fmin (f : OpA) : Issued (.fmin f) := issued_alu rfl (fun _ => rfl)
theorem fmax (f : OpA) : Issued (.fmax f) := issued_alu rfl (fun _ => rfl)
theorem frcp (f : OpA) : Issued (.frcp f) := issued_alu rfl (fun _ => rfl)
theorem frsq (f : OpA) : Issued (.frsq f) := issued_alu rfl (fun _ => rfl)
theorem fsqrt (f : OpA) : Issued (.fsqrt f) := issued_alu rfl (fun _ => rfl)
theorem fexp2 (f : OpA) : Issued (.fexp2 f) := issued_alu rfl (fun _ => rfl)
theorem flog2 (f : OpA) : Issued (.flog2 f) := issued_alu rfl (fun _ => rfl)
theorem fclass (f : OpA) : Issued (.fclass f) := issued_alu rfl (fun _ => rfl)
theorem fscale (f : OpA) : Issued (.fscale f) := issued_alu rfl (fun _ => rfl)
theorem frnd (f : OpA) : Issued (.frnd f) := issued_alu rfl (fun _ => rfl)
theorem hadd2 (f : OpA) : Issued (.hadd2 f) := issued_alu rfl (fun _ => rfl)
theorem hmul2 (f : OpA) : Issued (.hmul2 f) := issued_alu rfl (fun _ => rfl)
theorem hfma2 (f : OpA) : Issued (.hfma2 f) := issued_alu rfl (fun _ => rfl)
theorem hmin2 (f : OpA) : Issued (.hmin2 f) := issued_alu rfl (fun _ => rfl)
theorem hmax2 (f : OpA) : Issued (.hmax2 f) := issued_alu rfl (fun _ => rfl)
theorem fdot2 (f : OpA) : Issued (.fdot2 f) := issued_alu rfl (fun _ => rfl)
theorem cvt (f : OpA) : Issued (.cvt f) := issued_alu rfl (fun _ => rfl)
theorem fcvt (f : OpA) : Issued (.fcvt f) := issued_alu rfl (fun _ => rfl)
theorem pk2 (f : OpA) : Issued (.pk2 f) := issued_alu rfl (fun _ => rfl)
theorem upk2 (f : OpA) : Issued (.upk2 f) := issued_alu rfl (fun _ => rfl)
theorem e10enc (f : OpA) : Issued (.e10enc f) := issued_alu rfl (fun _ => rfl)
theorem e10dec (f : OpA) : Issued (.e10dec f) := issued_alu rfl (fun _ => rfl)
theorem rnsenc (f : OpA) : Issued (.rnsenc f) := issued_alu rfl (fun _ => rfl)
theorem rnsdec (f : OpA) : Issued (.rnsdec f) := issued_alu rfl (fun _ => rfl)
theorem qnt (f : OpA) : Issued (.qnt f) := issued_alu rfl (fun _ => rfl)
theorem dqnt (f : OpA) : Issued (.dqnt f) := issued_alu rfl (fun _ => rfl)
theorem ld (f : OpM) : Issued (.ld f) := fun _ _ => ⟨_, fun _ => rfl⟩
theorem st (f : OpM) : Issued (.st f) := fun _ _ => ⟨_, fun _ => rfl⟩
theorem prf (f : OpM) : Issued (.prf f) := fun _ _ => ⟨_, fun _ => rfl⟩
theorem fence (f : OpM) : Issued (.fence f) := fun _ _ => ⟨_, fun _ => rfl⟩
theorem cctlInv (f : OpM) : Issued (.cctlInv f) := fun _ _ => ⟨_, fun _ => rfl⟩
theorem cctlWb (f : OpM) : Issued (.cctlWb f) := fun _ _ => ⟨_, fun _ => rfl⟩
theorem cctlWbinv (f : OpM) : Issued (.cctlWbinv f) := fun _ _ => ⟨_, fun _ => rfl⟩
theorem cctlZero (f : OpM) : Issued (.cctlZero f) := fun _ _ => ⟨_, fun _ => rfl⟩
theorem cctlInvall (f : OpM) : Issued (.cctlInvall f) := fun _ _ => ⟨_, fun _ => rfl⟩
theorem atom (f : OpM) : Issued (.atom f) := fun _ _ => ⟨_, fun _ => rfl⟩
theorem cas (f : OpM) : Issued (.cas f) := fun _ _ => ⟨_, fun _ => rfl⟩
theorem red (f : OpM) : Issued (.red f) := fun _ _ => ⟨_, fun _ => rfl⟩
theorem bupd (f : OpM) : Issued (.bupd f) := fun _ _ => ⟨_, fun _ => rfl⟩
theorem binit (f : OpM) : Issued (.binit f) := fun _ _ => ⟨_, fun _ => rfl⟩
theorem barv (f : OpM) : Issued (.barv f) := fun _ _ => ⟨_, fun _ => rfl⟩
theorem bwait (f : OpM) : Issued (.bwait f) := fun _ _ => ⟨_, fun _ => rfl⟩
theorem barw (f : OpM) : Issued (.barw f) := fun _ _ => ⟨_, fun _ => rfl⟩
theorem bexp (f : OpM) : Issued (.bexp f) := fun _ _ => ⟨_, fun _ => rfl⟩
theorem waita (f : OpM) : Issued (.waita f) := fun _ _ => ⟨_, fun _ => rfl⟩
theorem waitaDeadline (stack : Nat) (entry : Nat) : Issued (.waitaDeadline stack entry) := fun _ h => nomatch h
theorem cpy (f : OpT) : Issued (.cpy f) := fun _ _ => ⟨_, fun _ => rfl⟩
theorem cpyt (f : OpT) : Issued (.cpyt f) := fun _ _ => ⟨_, fun _ => rfl⟩
theorem cpyg (f : OpT) : Issued (.cpyg f) := fun _ _ => ⟨_, fun _ => rfl⟩
theorem cpys (f : OpT) : Issued (.cpys f) := fun _ _ => ⟨_, fun _ => rfl⟩
theorem cpyr (f : OpT) : Issued (.cpyr f) := fun _ _ => ⟨_, fun _ => rfl⟩
theorem cpyx (f : OpT) : Issued (.cpyx f) := fun _ _ => ⟨_, fun _ => rfl⟩
theorem cpyq (f : OpT) : Issued (.cpyq f) := fun _ _ => ⟨_, fun _ => rfl⟩
theorem cpyc (f : OpT) : Issued (.cpyc f) := fun _ _ => ⟨_, fun _ => rfl⟩
theorem osld (f : OpT) : Issued (.osld f) := fun _ _ => ⟨_, fun _ => rfl⟩
theorem engineStart (op : Nat) : Issued (.engineStart op) := fun _ h => nomatch h
theorem copyElement (op : Nat) : Issued (.copyElement op) := fun _ h => nomatch h
theorem tokenWrite (op : Nat) : Issued (.tokenWrite op) := fun _ h => nomatch h
theorem byteAddition (op : Nat) : Issued (.byteAddition op) := fun _ h => nomatch h
theorem cpyxFollowOn (op : Nat) : Issued (.cpyxFollowOn op) := fun _ h => nomatch h
theorem mma (f : OpT) : Issued (.mma f) := fun _ _ => ⟨_, fun s => by
  simp only [exec_mma, execMma, State.tile, State.engine]; rfl⟩
theorem mmag (f : OpT) : Issued (.mmag f) := fun _ _ => ⟨_, fun s => by
  simp only [exec_mmag, execMmag, State.tile, State.engine]; rfl⟩
theorem tzero (f : OpT) : Issued (.tzero f) := fun _ _ => ⟨_, fun s => by
  simp only [exec_tzero, execTzero, State.tile, State.engine]; rfl⟩
theorem tqnt (f : OpT) : Issued (.tqnt f) := fun _ _ => ⟨_, fun s => by
  simp only [exec_tqnt, execTqnt, State.tile, State.engine]; rfl⟩
theorem tdq (f : OpT) : Issued (.tdq f) := fun _ _ => ⟨_, fun s => by
  simp only [exec_tdq, execTdq, State.tile, State.engine]; rfl⟩
theorem tcrt (f : OpT) : Issued (.tcrt f) := fun _ _ => ⟨_, fun s => by
  simp only [exec_tcrt, execTcrt, State.tile, State.engine]; rfl⟩
theorem ttrn (f : OpT) : Issued (.ttrn f) := fun _ _ => ⟨_, fun s => by
  simp only [exec_ttrn, execTtrn, State.tile, State.engine]; rfl⟩
theorem tstat (f : OpT) : Issued (.tstat f) := fun _ _ => ⟨_, fun s => by
  simp only [exec_tstat, execTstat, State.tile, State.engine]; rfl⟩
theorem sequencerStart (core : Nat) : Issued (.sequencerStart core) := fun _ h => nomatch h
theorem tileStep (core : Nat) : Issued (.tileStep core) := fun _ h => nomatch h
theorem tileStop (core : Nat) : Issued (.tileStop core) := fun _ h => nomatch h
theorem tileResume (core : Nat) : Issued (.tileResume core) := fun _ h => nomatch h
theorem kvx (f : OpT) : Issued (.kvx f) := fun _ _ => ⟨_, fun s => by
  simp only [exec_kvx, execKvx, State.kv]; rfl⟩
theorem kvvalSet (f : OpT) : Issued (.kvvalSet f) := fun _ _ => ⟨_, fun s => by
  simp only [exec_kvvalSet, execKvvalSet, State.kv]; rfl⟩
theorem kvvalClr (f : OpT) : Issued (.kvvalClr f) := fun _ _ => ⟨_, fun s => by
  simp only [exec_kvvalClr, execKvvalClr, State.kv]; rfl⟩
theorem kvrcl (f : OpT) : Issued (.kvrcl f) := fun _ _ => ⟨_, fun s => by
  simp only [exec_kvrcl, execKvrcl, State.engine]; rfl⟩
theorem skchSlot (f : OpT) : Issued (.skchSlot f) := fun _ _ => ⟨_, fun s => by
  simp only [exec_skchSlot, execSkchSlot, State.kv]; rfl⟩
theorem skchVec (f : OpT) : Issued (.skchVec f) := fun _ _ => ⟨_, fun s => by
  simp only [exec_skchVec, execSkchVec, State.kv]; rfl⟩
theorem attn (f : OpT) : Issued (.attn f) := fun _ _ => ⟨_, fun s => by
  simp only [exec_attn, execAttn, State.attnIssue, State.engine]; rfl⟩
theorem attnq (f : OpT) : Issued (.attnq f) := fun _ _ => ⟨_, fun s => by
  simp only [exec_attnq, execAttnq, State.attnIssue, State.engine]; rfl⟩
theorem sploop (f : OpB) : Issued (.sploop f) := fun _ _ => ⟨_, fun _ => rfl⟩
theorem spput (f : OpB) : Issued (.spput f) := fun _ _ => ⟨_, fun _ => rfl⟩
theorem spacc (f : OpB) : Issued (.spacc f) := fun _ _ => ⟨_, fun _ => rfl⟩
theorem spnext (f : OpB) : Issued (.spnext f) := fun _ _ => ⟨_, fun _ => rfl⟩
theorem spend (f : OpB) : Issued (.spend f) := fun _ _ => ⟨_, fun _ => rfl⟩
theorem spq (f : OpB) : Issued (.spq f) := fun _ _ => ⟨_, fun _ => rfl⟩
theorem wayKeep (warp : Nat) : Issued (.wayKeep warp) := fun _ h => nomatch h
theorem atomb (f : OpB) : Issued (.atomb f) := fun _ _ => ⟨_, fun _ => rfl⟩
theorem atome (f : OpB) : Issued (.atome f) := fun _ _ => ⟨_, fun _ => rfl⟩
theorem atoma (f : OpB) : Issued (.atoma f) := fun _ _ => ⟨_, fun _ => rfl⟩
theorem atomq (f : OpB) : Issued (.atomq f) := fun _ _ => ⟨_, fun _ => rfl⟩
theorem commit (die : Nat) : Issued (.commit die) := fun _ h => nomatch h
theorem conflictNotice (die : Nat) (line : Nat) : Issued (.conflictNotice die line) := fun _ h => nomatch h
theorem rootsw (f : OpM) : Issued (.rootsw f) := fun _ _ => ⟨_, fun _ => rfl⟩
theorem rootcpFork (f : OpM) : Issued (.rootcpFork f) := fun _ _ => ⟨_, fun _ => rfl⟩
theorem rootcpSnap (f : OpM) : Issued (.rootcpSnap f) := fun _ _ => ⟨_, fun _ => rfl⟩
theorem rootcpDrop (f : OpM) : Issued (.rootcpDrop f) := fun _ _ => ⟨_, fun _ => rfl⟩
theorem rfrsh (f : OpM) : Issued (.rfrsh f) := fun _ _ => ⟨_, fun _ => rfl⟩
theorem tnode (f : OpM) : Issued (.tnode f) := fun _ _ => ⟨_, fun _ => rfl⟩
theorem pgmapFt (f : OpM) : Issued (.pgmapFt f) := fun _ _ => ⟨_, fun _ => rfl⟩
theorem pgmapCow (f : OpM) : Issued (.pgmapCow f) := fun _ _ => ⟨_, fun _ => rfl⟩
theorem tret (f : OpM) : Issued (.tret f) := fun _ _ => ⟨_, fun _ => rfl⟩
theorem tretKill (f : OpM) : Issued (.tretKill f) := fun _ _ => ⟨_, fun _ => rfl⟩
theorem csrr (f : OpM) : Issued (.csrr f) := fun _ _ => ⟨_, fun _ => rfl⟩
theorem csrw (f : OpM) : Issued (.csrw f) := fun _ _ => ⟨_, fun _ => rfl⟩
theorem fltq (f : OpM) : Issued (.fltq f) := fun _ _ => ⟨_, fun _ => rfl⟩
theorem pgreq (f : OpM) : Issued (.pgreq f) := fun _ _ => ⟨_, fun _ => rfl⟩
theorem pageResponse (group : Nat) (code : Nat) : Issued (.pageResponse group code) := fun _ h => nomatch h
theorem faultReply (tenant : Nat) (entry : Nat) (reply : Word) : Issued (.faultReply tenant entry reply) := fun _ h => nomatch h
theorem launch (f : OpT) : Issued (.launch f) := fun _ _ => ⟨_, fun _ => rfl⟩
theorem emit (f : OpT) : Issued (.emit f) := fun _ _ => ⟨_, fun _ => rfl⟩
theorem ndone (f : OpT) : Issued (.ndone f) := fun _ _ => ⟨_, fun _ => rfl⟩
theorem slotw (f : OpT) : Issued (.slotw f) := fun _ _ => ⟨_, fun _ => rfl⟩
theorem prmptStop (f : OpT) : Issued (.prmptStop f) := fun _ _ => ⟨_, fun _ => rfl⟩
theorem prmptEvict (f : OpT) : Issued (.prmptEvict f) := fun _ _ => ⟨_, fun _ => rfl⟩
theorem slotTableSwap (swap : SlotSwap) : Issued (.slotTableSwap swap) := fun _ h => nomatch h
theorem issueCycle (core : Nat) : Issued (.issueCycle core) := fun _ h => nomatch h
theorem gangWake (warp : Nat) : Issued (.gangWake warp) := fun _ h => nomatch h
theorem fetch (load : Nat) (line : Nat) : Issued (.fetch load line) := fun _ h => nomatch h
theorem leaseExpiry (core : Nat) (line : Nat) : Issued (.leaseExpiry core line) := fun _ h => nomatch h
theorem writePerform (write : Nat) : Issued (.writePerform write) := fun _ h => nomatch h
theorem writeAck (write : Nat) : Issued (.writeAck write) := fun _ h => nomatch h
theorem releaseIssue (held : Nat) : Issued (.releaseIssue held) := fun _ h => nomatch h
theorem loadReturn (load : Nat) : Issued (.loadReturn load) := fun _ h => nomatch h
theorem rds (ph : Phase) (die : Nat) (line : Nat) : Issued (.rds ph die line) := fun _ h => nomatch h
theorem rdx (ph : Phase) (die : Nat) (line : Nat) : Issued (.rdx ph die line) := fun _ h => nomatch h
theorem upg (ph : Phase) (die : Nat) (line : Nat) : Issued (.upg ph die line) := fun _ h => nomatch h
theorem wbd (ph : Phase) (die : Nat) (line : Nat) : Issued (.wbd ph die line) := fun _ h => nomatch h
theorem evc (ph : Phase) (die : Nat) (line : Nat) : Issued (.evc ph die line) := fun _ h => nomatch h
theorem snpinv (die : Nat) (line : Nat) : Issued (.snpinv die line) := fun _ h => nomatch h
theorem snpfwd (die : Nat) (line : Nat) : Issued (.snpfwd die line) := fun _ h => nomatch h
theorem snpfwdx (die : Nat) (line : Nat) : Issued (.snpfwdx die line) := fun _ h => nomatch h
theorem ackinv (ph : Phase) (die : Nat) (line : Nat) : Issued (.ackinv ph die line) := fun _ h => nomatch h
theorem rspd (ph : Phase) (die : Nat) (line : Nat) : Issued (.rspd ph die line) := fun _ h => nomatch h
theorem rspi (ph : Phase) (die : Nat) (line : Nat) : Issued (.rspi ph die line) := fun _ h => nomatch h
theorem dats (die : Nat) (line : Nat) : Issued (.dats die line) := fun _ h => nomatch h
theorem date (die : Nat) (line : Nat) : Issued (.date die line) := fun _ h => nomatch h
theorem datm (die : Nat) (line : Nat) : Issued (.datm die line) := fun _ h => nomatch h
theorem grant (die : Nat) (line : Nat) : Issued (.grant die line) := fun _ h => nomatch h
theorem wback (die : Nat) (line : Nat) : Issued (.wback die line) := fun _ h => nomatch h
theorem backInvalidate (line : Nat) : Issued (.backInvalidate line) := fun _ h => nomatch h
theorem hostSnoop (ph : Phase) (line : Nat) (inv : Bool) : Issued (.hostSnoop ph line inv) := fun _ h => nomatch h
theorem hostAccess (ph : Phase) (acc : HostAcc) : Issued (.hostAccess ph acc) := fun _ h => nomatch h
theorem hostBarAccess (fn : Nat) (ctl : Bool) (acc : HostAcc) : Issued (.hostBarAccess fn ctl acc) := fun _ h => nomatch h
theorem postedWriteAck (write : Nat) : Issued (.postedWriteAck write) := fun _ h => nomatch h
theorem flushDone (warp : Nat) : Issued (.flushDone warp) := fun _ h => nomatch h
theorem recordRefetch (asd : Nat) (node : Nat) (record : Nat) : Issued (.recordRefetch asd node record) := fun _ h => nomatch h
theorem groupForm (asd : Nat) (node : Nat) : Issued (.groupForm asd node) := fun _ h => nomatch h
theorem coalesceTimeout (asd : Nat) (node : Nat) : Issued (.coalesceTimeout asd node) := fun _ h => nomatch h
theorem dispatch (inst : Nat) : Issued (.dispatch inst) := fun _ h => nomatch h
theorem admitTeam (core : Nat) : Issued (.admitTeam core) := fun _ h => nomatch h
theorem teamRetire (team : Nat) : Issued (.teamRetire team) := fun _ h => nomatch h
theorem instanceComplete (inst : Nat) : Issued (.instanceComplete inst) := fun _ h => nomatch h
theorem preemptRequest (inst : Nat) : Issued (.preemptRequest inst) := fun _ h => nomatch h
theorem warpSave (warp : Nat) : Issued (.warpSave warp) := fun _ h => nomatch h
theorem warpResume (warp : Nat) (core : Nat) : Issued (.warpResume warp core) := fun _ h => nomatch h
theorem quantumExpiry (inst : Nat) : Issued (.quantumExpiry inst) := fun _ h => nomatch h
theorem parkYield (inst : Nat) : Issued (.parkYield inst) := fun _ h => nomatch h
theorem reclaimRoot  : Issued (.reclaimRoot) := fun _ h => nomatch h
theorem correctedError (log : Nat) (addr : Nat) (unit : ErrUnit) (tenant : Nat) : Issued (.correctedError log addr unit tenant) := fun _ h => nomatch h
theorem uncorrectableError (site : ErrSite) : Issued (.uncorrectableError site) := fun _ h => nomatch h
theorem dirEntryError (ph : Phase) (line : Nat) : Issued (.dirEntryError ph line) := fun _ h => nomatch h
theorem hostLinkDown  : Issued (.hostLinkDown) := fun _ h => nomatch h
theorem ideIntegrityFailure (stream : Nat) : Issued (.ideIntegrityFailure stream) := fun _ h => nomatch h
theorem linkRecover  : Issued (.linkRecover) := fun _ h => nomatch h
theorem replay (refused : List Nat) : Issued (.replay refused) := fun _ h => nomatch h
theorem disc  : Issued (.disc) := fun _ h => nomatch h
theorem cold (cause : ResetCause) : Issued (.cold cause) := fun _ h => nomatch h
theorem warm (cause : ResetCause) : Issued (.warm cause) := fun _ h => nomatch h
theorem bootStage (fw : Firmware) (absent : Absent) : Issued (.bootStage fw absent) := fun _ h => nomatch h
theorem thermalTrip (stack : Nat) : Issued (.thermalTrip stack) := fun _ h => nomatch h
theorem thermalThrottle (block : BlockOver) : Issued (.thermalThrottle block) := fun _ h => nomatch h
theorem throttleRelease (block : BlockBack) : Issued (.throttleRelease block) := fun _ h => nomatch h
theorem getVersion  : Issued (.getVersion) := fun _ h => nomatch h
theorem getCapabilities  : Issued (.getCapabilities) := fun _ h => nomatch h
theorem negotiateAlgorithms (slhdsa : Bool) : Issued (.negotiateAlgorithms slhdsa) := fun _ h => nomatch h
theorem getDigests  : Issued (.getDigests) := fun _ h => nomatch h
theorem getCertificate (slot : Nat) : Issued (.getCertificate slot) := fun _ h => nomatch h
theorem challenge (nonce : Nat) : Issued (.challenge nonce) := fun _ h => nomatch h
theorem getMeasurements (index : Nat) : Issued (.getMeasurements index) := fun _ h => nomatch h
theorem keyExchange (nonce : Nat) : Issued (.keyExchange nonce) := fun _ h => nomatch h
theorem finish (proof : Bool) : Issued (.finish proof) := fun _ h => nomatch h
theorem endSession  : Issued (.endSession) := fun _ h => nomatch h
theorem ideKm (stream : Nat) (key : Nat) : Issued (.ideKm stream key) := fun _ h => nomatch h
theorem registerWrite (agent : Agent) (offset : Nat) (wide : Bool) (value : Option Double) : Issued (.registerWrite agent offset wide value) := fun _ h => nomatch h
theorem timeBaseTick  : Issued (.timeBaseTick) := fun _ h => nomatch h
theorem peerAccess (acc : PeerAcc) : Issued (.peerAccess acc) := fun _ h => nomatch h
theorem backInvalidationResponse (line : Nat) : Issued (.backInvalidationResponse line) := fun _ h => nomatch h
theorem hostCacheResponse (line : Nat) (data : HostLine) : Issued (.hostCacheResponse line data) := fun _ h => nomatch h
theorem configurationAccess (fn : Nat) (acc : CfgAcc) : Issued (.configurationAccess fn acc) := fun _ h => nomatch h
theorem linkRetrain (unit : Nat) : Issued (.linkRetrain unit) := fun _ h => nomatch h

end Issued

theorem issued (i : Instr) : Issued i := by
  cases i
  case nop => exact Issued.nop _
  case bra => exact Issued.bra _
  case brx => exact Issued.brx _
  case rcv => exact Issued.rcv _
  case join => exact Issued.join _
  case loop => exact Issued.loop _
  case brk => exact Issued.brk _
  case next => exact Issued.next _
  case call => exact Issued.call _
  case callx => exact Issued.callx _
  case ret => exact Issued.ret _
  case exit => exact Issued.exit _
  case regang => exact Issued.regang _
  case safept => exact Issued.safept _
  case safeptRf => exact Issued.safeptRf _
  case yield => exact Issued.yield _
  case yieldExpiry => exact Issued.yieldExpiry _
  case trap => exact Issued.trap _
  case bkpt => exact Issued.bkpt _
  case safePointOverdue => exact Issued.safePointOverdue _
  case iadd => exact Issued.iadd _
  case isub => exact Issued.isub _
  case imul => exact Issued.imul _
  case imulh => exact Issued.imulh _
  case imad => exact Issued.imad _
  case imadw => exact Issued.imadw _
  case imin => exact Issued.imin _
  case imax => exact Issued.imax _
  case iabs => exact Issued.iabs _
  case andL => exact Issued.andL _
  case orL => exact Issued.orL _
  case xorL => exact Issued.xorL _
  case lop3 => exact Issued.lop3 _
  case shl => exact Issued.shl _
  case shr => exact Issued.shr _
  case sar => exact Issued.sar _
  case shf => exact Issued.shf _
  case popc => exact Issued.popc _
  case clz => exact Issued.clz _
  case ctz => exact Issued.ctz _
  case brev => exact Issued.brev _
  case bfx => exact Issued.bfx _
  case bfi => exact Issued.bfi _
  case sel => exact Issued.sel _
  case mov => exact Issued.mov _
  case movi => exact Issued.movi _
  case lea => exact Issued.lea _
  case idp4 => exact Issued.idp4 _
  case pmac2 => exact Issued.pmac2 _
  case sarn => exact Issued.sarn _
  case isat => exact Issued.isat _
  case rget => exact Issued.rget _
  case rput => exact Issued.rput _
  case isetp => exact Issued.isetp _
  case fsetp => exact Issued.fsetp _
  case plop => exact Issued.plop _
  case pmovGet => exact Issued.pmovGet _
  case pmovSet => exact Issued.pmovSet _
  case vote => exact Issued.vote _
  case shfl => exact Issued.shfl _
  case slide => exact Issued.slide _
  case redux => exact Issued.redux _
  case scan => exact Issued.scan _
  case matchL => exact Issued.matchL _
  case prmt => exact Issued.prmt _
  case fadd => exact Issued.fadd _
  case fsub => exact Issued.fsub _
  case fmul => exact Issued.fmul _
  case ffma => exact Issued.ffma _
  case fmin => exact Issued.fmin _
  case fmax => exact Issued.fmax _
  case frcp => exact Issued.frcp _
  case frsq => exact Issued.frsq _
  case fsqrt => exact Issued.fsqrt _
  case fexp2 => exact Issued.fexp2 _
  case flog2 => exact Issued.flog2 _
  case fclass => exact Issued.fclass _
  case fscale => exact Issued.fscale _
  case frnd => exact Issued.frnd _
  case hadd2 => exact Issued.hadd2 _
  case hmul2 => exact Issued.hmul2 _
  case hfma2 => exact Issued.hfma2 _
  case hmin2 => exact Issued.hmin2 _
  case hmax2 => exact Issued.hmax2 _
  case fdot2 => exact Issued.fdot2 _
  case cvt => exact Issued.cvt _
  case fcvt => exact Issued.fcvt _
  case pk2 => exact Issued.pk2 _
  case upk2 => exact Issued.upk2 _
  case e10enc => exact Issued.e10enc _
  case e10dec => exact Issued.e10dec _
  case rnsenc => exact Issued.rnsenc _
  case rnsdec => exact Issued.rnsdec _
  case qnt => exact Issued.qnt _
  case dqnt => exact Issued.dqnt _
  case ld => exact Issued.ld _
  case st => exact Issued.st _
  case prf => exact Issued.prf _
  case fence => exact Issued.fence _
  case cctlInv => exact Issued.cctlInv _
  case cctlWb => exact Issued.cctlWb _
  case cctlWbinv => exact Issued.cctlWbinv _
  case cctlZero => exact Issued.cctlZero _
  case cctlInvall => exact Issued.cctlInvall _
  case atom => exact Issued.atom _
  case cas => exact Issued.cas _
  case red => exact Issued.red _
  case bupd => exact Issued.bupd _
  case binit => exact Issued.binit _
  case barv => exact Issued.barv _
  case bwait => exact Issued.bwait _
  case barw => exact Issued.barw _
  case bexp => exact Issued.bexp _
  case waita => exact Issued.waita _
  case waitaDeadline => exact Issued.waitaDeadline _ _
  case cpy => exact Issued.cpy _
  case cpyt => exact Issued.cpyt _
  case cpyg => exact Issued.cpyg _
  case cpys => exact Issued.cpys _
  case cpyr => exact Issued.cpyr _
  case cpyx => exact Issued.cpyx _
  case cpyq => exact Issued.cpyq _
  case cpyc => exact Issued.cpyc _
  case osld => exact Issued.osld _
  case engineStart => exact Issued.engineStart _
  case copyElement => exact Issued.copyElement _
  case tokenWrite => exact Issued.tokenWrite _
  case byteAddition => exact Issued.byteAddition _
  case cpyxFollowOn => exact Issued.cpyxFollowOn _
  case mma => exact Issued.mma _
  case mmag => exact Issued.mmag _
  case tzero => exact Issued.tzero _
  case tqnt => exact Issued.tqnt _
  case tdq => exact Issued.tdq _
  case tcrt => exact Issued.tcrt _
  case ttrn => exact Issued.ttrn _
  case tstat => exact Issued.tstat _
  case sequencerStart => exact Issued.sequencerStart _
  case tileStep => exact Issued.tileStep _
  case tileStop => exact Issued.tileStop _
  case tileResume => exact Issued.tileResume _
  case kvx => exact Issued.kvx _
  case kvvalSet => exact Issued.kvvalSet _
  case kvvalClr => exact Issued.kvvalClr _
  case kvrcl => exact Issued.kvrcl _
  case skchSlot => exact Issued.skchSlot _
  case skchVec => exact Issued.skchVec _
  case attn => exact Issued.attn _
  case attnq => exact Issued.attnq _
  case sploop => exact Issued.sploop _
  case spput => exact Issued.spput _
  case spacc => exact Issued.spacc _
  case spnext => exact Issued.spnext _
  case spend => exact Issued.spend _
  case spq => exact Issued.spq _
  case wayKeep => exact Issued.wayKeep _
  case atomb => exact Issued.atomb _
  case atome => exact Issued.atome _
  case atoma => exact Issued.atoma _
  case atomq => exact Issued.atomq _
  case commit => exact Issued.commit _
  case conflictNotice => exact Issued.conflictNotice _ _
  case rootsw => exact Issued.rootsw _
  case rootcpFork => exact Issued.rootcpFork _
  case rootcpSnap => exact Issued.rootcpSnap _
  case rootcpDrop => exact Issued.rootcpDrop _
  case rfrsh => exact Issued.rfrsh _
  case tnode => exact Issued.tnode _
  case pgmapFt => exact Issued.pgmapFt _
  case pgmapCow => exact Issued.pgmapCow _
  case tret => exact Issued.tret _
  case tretKill => exact Issued.tretKill _
  case csrr => exact Issued.csrr _
  case csrw => exact Issued.csrw _
  case fltq => exact Issued.fltq _
  case pgreq => exact Issued.pgreq _
  case pageResponse => exact Issued.pageResponse _ _
  case faultReply => exact Issued.faultReply _ _ _
  case launch => exact Issued.launch _
  case emit => exact Issued.emit _
  case ndone => exact Issued.ndone _
  case slotw => exact Issued.slotw _
  case prmptStop => exact Issued.prmptStop _
  case prmptEvict => exact Issued.prmptEvict _
  case slotTableSwap => exact Issued.slotTableSwap _
  case issueCycle => exact Issued.issueCycle _
  case gangWake => exact Issued.gangWake _
  case fetch => exact Issued.fetch _ _
  case leaseExpiry => exact Issued.leaseExpiry _ _
  case writePerform => exact Issued.writePerform _
  case writeAck => exact Issued.writeAck _
  case releaseIssue => exact Issued.releaseIssue _
  case loadReturn => exact Issued.loadReturn _
  case rds => exact Issued.rds _ _ _
  case rdx => exact Issued.rdx _ _ _
  case upg => exact Issued.upg _ _ _
  case wbd => exact Issued.wbd _ _ _
  case evc => exact Issued.evc _ _ _
  case snpinv => exact Issued.snpinv _ _
  case snpfwd => exact Issued.snpfwd _ _
  case snpfwdx => exact Issued.snpfwdx _ _
  case ackinv => exact Issued.ackinv _ _ _
  case rspd => exact Issued.rspd _ _ _
  case rspi => exact Issued.rspi _ _ _
  case dats => exact Issued.dats _ _
  case date => exact Issued.date _ _
  case datm => exact Issued.datm _ _
  case grant => exact Issued.grant _ _
  case wback => exact Issued.wback _ _
  case backInvalidate => exact Issued.backInvalidate _
  case hostSnoop => exact Issued.hostSnoop _ _ _
  case hostAccess => exact Issued.hostAccess _ _
  case hostBarAccess => exact Issued.hostBarAccess _ _ _
  case postedWriteAck => exact Issued.postedWriteAck _
  case flushDone => exact Issued.flushDone _
  case recordRefetch => exact Issued.recordRefetch _ _ _
  case groupForm => exact Issued.groupForm _ _
  case coalesceTimeout => exact Issued.coalesceTimeout _ _
  case dispatch => exact Issued.dispatch _
  case admitTeam => exact Issued.admitTeam _
  case teamRetire => exact Issued.teamRetire _
  case instanceComplete => exact Issued.instanceComplete _
  case preemptRequest => exact Issued.preemptRequest _
  case warpSave => exact Issued.warpSave _
  case warpResume => exact Issued.warpResume _ _
  case quantumExpiry => exact Issued.quantumExpiry _
  case parkYield => exact Issued.parkYield _
  case reclaimRoot => exact Issued.reclaimRoot
  case correctedError => exact Issued.correctedError _ _ _ _
  case uncorrectableError => exact Issued.uncorrectableError _
  case dirEntryError => exact Issued.dirEntryError _ _
  case hostLinkDown => exact Issued.hostLinkDown
  case ideIntegrityFailure => exact Issued.ideIntegrityFailure _
  case linkRecover => exact Issued.linkRecover
  case replay => exact Issued.replay _
  case disc => exact Issued.disc
  case cold => exact Issued.cold _
  case warm => exact Issued.warm _
  case bootStage => exact Issued.bootStage _ _
  case thermalTrip => exact Issued.thermalTrip _
  case thermalThrottle => exact Issued.thermalThrottle _
  case throttleRelease => exact Issued.throttleRelease _
  case getVersion => exact Issued.getVersion
  case getCapabilities => exact Issued.getCapabilities
  case negotiateAlgorithms => exact Issued.negotiateAlgorithms _
  case getDigests => exact Issued.getDigests
  case getCertificate => exact Issued.getCertificate _
  case challenge => exact Issued.challenge _
  case getMeasurements => exact Issued.getMeasurements _
  case keyExchange => exact Issued.keyExchange _
  case finish => exact Issued.finish _
  case endSession => exact Issued.endSession
  case ideKm => exact Issued.ideKm _ _
  case registerWrite => exact Issued.registerWrite _ _ _ _
  case timeBaseTick => exact Issued.timeBaseTick
  case peerAccess => exact Issued.peerAccess _
  case backInvalidationResponse => exact Issued.backInvalidationResponse _
  case hostCacheResponse => exact Issued.hostCacheResponse _ _
  case configurationAccess => exact Issued.configurationAccess _ _
  case linkRetrain => exact Issued.linkRetrain _

/-- Where a word of these uses is met, it is issued. -/
theorem exec_issue {i : Instr} {u : Uses} (h : usesOf i = some u) :
    ∃ eff : State → Eff, ∀ s, exec i s = .next (s.issue i eff) := issued i u h

end Sys2Proof.Machine
end

