-- ==== Sys2Proof/Laws/KeepStep.lean ====
section
/-! SUPPORT. What a step keeps: from a supplied part it ends in a supplied part and in no fault, and memory stays
canonical. -/

namespace Sys2Proof.Machine

/-- An instruction or an event, carried out. -/
theorem ok_exec {b : Bool} {s : State} (i : Instr) (h : Ok b s) : OkO b (exec i s) := by
  cases i with
  | nop => exact ok_execNop h
  | bra => exact ok_execBra h
  | brx => exact ok_execBrx h
  | rcv => exact ok_execRcv h
  | join => exact ok_execJoin h
  | loop => exact ok_execLoop h
  | brk => exact ok_execBrk h
  | next => exact ok_execNext h
  | call => exact ok_execCall h
  | callx => exact ok_execCallx h
  | ret => exact ok_execRet h
  | exit => exact ok_execExit h
  | regang => exact ok_execRegang h
  | safept => exact ok_execSafept h
  | safeptRf => exact ok_execSafeptRf h
  | yield => exact ok_execYield h
  | yieldExpiry => exact ok_execYieldExpiry h
  | trap => exact ok_execTrap h
  | bkpt => exact ok_execBkpt h
  | safePointOverdue => exact ok_execSafePointOverdue h
  | iadd => exact ok_execIadd h
  | isub => exact ok_execIsub h
  | imul => exact ok_execImul h
  | imulh => exact ok_execImulh h
  | imad => exact ok_execImad h
  | imadw => exact ok_execImadw h
  | imin => exact ok_execImin h
  | imax => exact ok_execImax h
  | iabs => exact ok_execIabs h
  | andL => exact ok_execAnd h
  | orL => exact ok_execOr h
  | xorL => exact ok_execXor h
  | lop3 => exact ok_execLop3 h
  | shl => exact ok_execShl h
  | shr => exact ok_execShr h
  | sar => exact ok_execSar h
  | shf => exact ok_execShf h
  | popc => exact ok_execPopc h
  | clz => exact ok_execClz h
  | ctz => exact ok_execCtz h
  | brev => exact ok_execBrev h
  | bfx => exact ok_execBfx h
  | bfi => exact ok_execBfi h
  | sel => exact ok_execSel h
  | mov => exact ok_execMov h
  | movi => exact ok_execMovi h
  | lea => exact ok_execLea h
  | idp4 => exact ok_execIdp4 h
  | pmac2 => exact ok_execPmac2 h
  | sarn => exact ok_execSarn h
  | isat => exact ok_execIsat h
  | rget => exact ok_execRget h
  | rput => exact ok_execRput h
  | isetp => exact ok_execIsetp h
  | fsetp => exact ok_execFsetp h
  | plop => exact ok_execPlop h
  | pmovGet => exact ok_execPmovGet h
  | pmovSet => exact ok_execPmovSet h
  | vote => exact ok_execVote h
  | shfl => exact ok_execShfl h
  | slide => exact ok_execSlide h
  | redux => exact ok_execRedux h
  | scan => exact ok_execScan h
  | matchL => exact ok_execMatch h
  | prmt => exact ok_execPrmt h
  | fadd => exact ok_execFadd h
  | fsub => exact ok_execFsub h
  | fmul => exact ok_execFmul h
  | ffma => exact ok_execFfma h
  | fmin => exact ok_execFmin h
  | fmax => exact ok_execFmax h
  | frcp => exact ok_execFrcp h
  | frsq => exact ok_execFrsq h
  | fsqrt => exact ok_execFsqrt h
  | fexp2 => exact ok_execFexp2 h
  | flog2 => exact ok_execFlog2 h
  | fclass => exact ok_execFclass h
  | fscale => exact ok_execFscale h
  | frnd => exact ok_execFrnd h
  | hadd2 => exact ok_execHadd2 h
  | hmul2 => exact ok_execHmul2 h
  | hfma2 => exact ok_execHfma2 h
  | hmin2 => exact ok_execHmin2 h
  | hmax2 => exact ok_execHmax2 h
  | fdot2 => exact ok_execFdot2 h
  | cvt => exact ok_execCvt h
  | fcvt => exact ok_execFcvt h
  | pk2 => exact ok_execPk2 h
  | upk2 => exact ok_execUpk2 h
  | e10enc => exact ok_execE10enc h
  | e10dec => exact ok_execE10dec h
  | rnsenc => exact ok_execRnsenc h
  | rnsdec => exact ok_execRnsdec h
  | qnt => exact ok_execQnt h
  | dqnt => exact ok_execDqnt h
  | ld => exact ok_execLd h
  | st => exact ok_execSt h
  | prf => exact ok_execPrf h
  | fence => exact ok_execFence h
  | cctlInv => exact ok_execCctlInv h
  | cctlWb => exact ok_execCctlWb h
  | cctlWbinv => exact ok_execCctlWbinv h
  | cctlZero => exact ok_execCctlZero h
  | cctlInvall => exact ok_execCctlInvall h
  | atom => exact ok_execAtom h
  | cas => exact ok_execCas h
  | red => exact ok_execRed h
  | bupd => exact ok_execBupd h
  | binit => exact ok_execBinit h
  | barv => exact ok_execBarv h
  | bwait => exact ok_execBwait h
  | barw => exact ok_execBarw h
  | bexp => exact ok_execBexp h
  | waita => exact ok_execWaita h
  | waitaDeadline => exact ok_execWaitaDeadline h
  | cpy => exact ok_execCpy h
  | cpyt => exact ok_execCpyt h
  | cpyg => exact ok_execCpyg h
  | cpys => exact ok_execCpys h
  | cpyr => exact ok_execCpyr h
  | cpyx => exact ok_execCpyx h
  | cpyq => exact ok_execCpyq h
  | cpyc => exact ok_execCpyc h
  | osld => exact ok_execOsld h
  | engineStart => exact ok_execEngineStart h
  | copyElement => exact ok_execCopyElement h
  | tokenWrite => exact ok_execTokenWrite h
  | byteAddition => exact ok_execByteAddition h
  | cpyxFollowOn => exact ok_execCpyxFollowOn h
  | mma => exact ok_execMma h
  | mmag => exact ok_execMmag h
  | tzero => exact ok_execTzero h
  | tqnt => exact ok_execTqnt h
  | tdq => exact ok_execTdq h
  | tcrt => exact ok_execTcrt h
  | ttrn => exact ok_execTtrn h
  | tstat => exact ok_execTstat h
  | sequencerStart => exact ok_execSequencerStart h
  | tileStep => exact ok_execTileStep h
  | tileStop => exact ok_execTileStop h
  | tileResume => exact ok_execTileResume h
  | kvx => exact ok_execKvx h
  | kvvalSet => exact ok_execKvvalSet h
  | kvvalClr => exact ok_execKvvalClr h
  | kvrcl => exact ok_execKvrcl h
  | skchSlot => exact ok_execSkchSlot h
  | skchVec => exact ok_execSkchVec h
  | attn => exact ok_execAttn h
  | attnq => exact ok_execAttnq h
  | sploop => exact ok_execSploop h
  | spput => exact ok_execSpput h
  | spacc => exact ok_execSpacc h
  | spnext => exact ok_execSpnext h
  | spend => exact ok_execSpend h
  | spq => exact ok_execSpq h
  | wayKeep => exact ok_execWayKeep h
  | atomb => exact ok_execAtomb h
  | atome => exact ok_execAtome h
  | atoma => exact ok_execAtoma h
  | atomq => exact ok_execAtomq h
  | commit => exact ok_execCommit h
  | conflictNotice => exact ok_execConflictNotice h
  | rootsw => exact ok_execRootsw h
  | rootcpFork => exact ok_execRootcpFork h
  | rootcpSnap => exact ok_execRootcpSnap h
  | rootcpDrop => exact ok_execRootcpDrop h
  | rfrsh => exact ok_execRfrsh h
  | tnode => exact ok_execTnode h
  | pgmapFt => exact ok_execPgmapFt h
  | pgmapCow => exact ok_execPgmapCow h
  | tret => exact ok_execTret h
  | tretKill => exact ok_execTretKill h
  | csrr => exact ok_execCsrr h
  | csrw => exact ok_execCsrw h
  | fltq => exact ok_execFltq h
  | pgreq => exact ok_execPgreq h
  | pageResponse => exact ok_execPageResponse h
  | faultReply => exact ok_execFaultReply h
  | launch => exact ok_execLaunch h
  | emit => exact ok_execEmit h
  | ndone => exact ok_execNdone h
  | slotw => exact ok_execSlotw h
  | prmptStop => exact ok_execPrmptStop h
  | prmptEvict => exact ok_execPrmptEvict h
  | slotTableSwap => exact ok_execSlotTableSwap h
  | issueCycle => exact ok_execIssueCycle h
  | gangWake => exact ok_execGangWake h
  | fetch => exact ok_execFetch h
  | leaseExpiry => exact ok_execLeaseExpiry h
  | writePerform => exact ok_execWritePerform h
  | writeAck => exact ok_execWriteAck h
  | releaseIssue => exact ok_execReleaseIssue h
  | loadReturn => exact ok_execLoadReturn h
  | rds => exact ok_execRds h
  | rdx => exact ok_execRdx h
  | upg => exact ok_execUpg h
  | wbd => exact ok_execWbd h
  | evc => exact ok_execEvc h
  | snpinv => exact ok_execSnpinv h
  | snpfwd => exact ok_execSnpfwd h
  | snpfwdx => exact ok_execSnpfwdx h
  | ackinv => exact ok_execAckinv h
  | rspd => exact ok_execRspd h
  | rspi => exact ok_execRspi h
  | dats => exact ok_execDats h
  | date => exact ok_execDate h
  | datm => exact ok_execDatm h
  | grant => exact ok_execGrant h
  | wback => exact ok_execWback h
  | backInvalidate => exact ok_execBackInvalidate h
  | hostSnoop => exact ok_execHostSnoop h
  | hostAccess => exact ok_execHostAccess h
  | hostBarAccess => exact ok_execHostBarAccess h
  | postedWriteAck => exact ok_execPostedWriteAck h
  | flushDone => exact ok_execFlushDone h
  | recordRefetch => exact ok_execRecordRefetch h
  | groupForm => exact ok_execGroupForm h
  | coalesceTimeout => exact ok_execCoalesceTimeout h
  | dispatch => exact ok_execDispatch h
  | admitTeam => exact ok_execAdmitTeam h
  | teamRetire => exact ok_execTeamRetire h
  | instanceComplete => exact ok_execInstanceComplete h
  | preemptRequest => exact ok_execPreemptRequest h
  | warpSave => exact ok_execWarpSave h
  | warpResume => exact ok_execWarpResume h
  | quantumExpiry => exact ok_execQuantumExpiry h
  | parkYield => exact ok_execParkYield h
  | reclaimRoot => exact ok_execReclaimRoot h
  | correctedError => exact ok_execCorrectedError h
  | uncorrectableError => exact ok_execUncorrectableError h
  | dirEntryError => exact ok_execDirEntryError h
  | hostLinkDown => exact ok_execHostLinkDown h
  | ideIntegrityFailure => exact ok_execIdeIntegrityFailure h
  | linkRecover => exact ok_execLinkRecover h
  | replay => exact ok_execReplay h
  | disc => exact ok_execDisc h
  | cold => exact ok_execCold h
  | warm => exact ok_execWarm h
  | bootStage => exact ok_execBootStage h
  | thermalTrip => exact ok_execThermalTrip h
  | thermalThrottle => exact ok_execThermalThrottle h
  | throttleRelease => exact ok_execThrottleRelease h
  | getVersion => exact ok_execGetVersion h
  | getCapabilities => exact ok_execGetCapabilities h
  | negotiateAlgorithms => exact ok_execNegotiateAlgorithms h
  | getDigests => exact ok_execGetDigests h
  | getCertificate => exact ok_execGetCertificate h
  | challenge => exact ok_execChallenge h
  | getMeasurements => exact ok_execGetMeasurements h
  | keyExchange => exact ok_execKeyExchange h
  | finish => exact ok_execFinish h
  | endSession => exact ok_execEndSession h
  | ideKm => exact ok_execIdeKm h
  | registerWrite => exact ok_execRegisterWrite h
  | timeBaseTick => exact ok_execTimeBaseTick h
  | peerAccess => exact ok_execPeerAccess h
  | backInvalidationResponse => exact ok_execBackInvalidationResponse h
  | hostCacheResponse => exact ok_execHostCacheResponse h
  | configurationAccess => exact ok_execConfigurationAccess h
  | linkRetrain => exact ok_execLinkRetrain h

/-! ## Words -/

theorem usesOf_buildA {op : Nat} {f : OpA} {i : Instr} (h : buildA op f = some i) : (usesOf i).isSome = true := by
  unfold buildA at h
  (repeat' split at h) <;> first | contradiction | (cases h; rfl)

theorem usesOf_buildI {op : Nat} {f : OpI} {i : Instr} (h : buildI op f = some i) : (usesOf i).isSome = true := by
  unfold buildI at h
  (repeat' split at h) <;> first | contradiction | (cases h; rfl)

theorem usesOf_buildM {op : Nat} {f : OpM} {i : Instr} (h : buildM op f = some i) : (usesOf i).isSome = true := by
  unfold buildM at h
  (repeat' split at h) <;> first | contradiction | (cases h; rfl)

theorem usesOf_buildB {op : Nat} {f : OpB} {i : Instr} (h : buildB op f = some i) : (usesOf i).isSome = true := by
  unfold buildB at h
  (repeat' split at h) <;> first | contradiction | (cases h; rfl)

theorem usesOf_buildT {op : Nat} {f : OpT} {i : Instr} (h : buildT op f = some i) : (usesOf i).isSome = true := by
  unfold buildT at h
  (repeat' split at h) <;> first | contradiction | (cases h; rfl)

/-- What decodes is a word. -/
theorem usesOf_decode {w : BitVec 96} {i : Instr} (h : wordInstr w = some i) : (usesOf i).isSome = true := by
  unfold wordInstr at h
  cases e : decode w with
  | error x => rw [e] at h; contradiction
  | ok j =>
    rw [e] at h
    cases h
    unfold decode at e
    cases ef : parseWord w with
    | error x => rw [ef] at e; contradiction
    | ok f =>
      rw [ef] at e
      cases hj : f.build with
      | none => simp [hj] at e
      | some k =>
        simp only [hj] at e
        split at e
        · cases e
          cases f with
          | a => exact usesOf_buildA hj
          | i => exact usesOf_buildI hj
          | m => exact usesOf_buildM hj
          | b => exact usesOf_buildB hj
          | t => exact usesOf_buildT hj
        · contradiction

/-- What the front end leaves: a state, or a word to run in one. -/
def OkFront (b : Bool) : Front → Prop
  | .took t => Ok b t
  | .run i t => Ok b t ∧ (usesOf i).isSome = true

theorem okFront_took {b : Bool} {t : State} (h : Ok b t) : OkFront b (.took t) := h

theorem ok_enterWord {b : Bool} {s : State} {w : BitVec 96} (h : Ok b s) : OkFront b (s.enterWord w) := by
  unfold State.enterWord
  split
  · exact ⟨h, usesOf_decode (by assumption)⟩
  · split
    · exact okFront_took (ok_trapC h)
    · exact okFront_took (ok_skipWord h)

theorem ok_frontEnd {b : Bool} {s : State} (h : Ok b s) : OkFront b s.frontEnd := by
  unfold State.frontEnd
  dsimp only
  with_reducible (repeat' (first | assumption | apply okFront_took | apply ok_enterWord | apply ok_fetchTrap | apply ok_noteFetch | apply ok_takeBackReqs | apply ok_consumed | apply ok_trapC | apply ok_trap | apply ok_stall | apply ok_ite | apply ok_updGang | split))

/-! ## The schedule -/

/-- Steps that keep the part as it should be. -/
def Keeps (b : Bool) (l : List (State → Out)) : Prop := ∀ f ∈ l, ∀ s, Ok b s → OkO b (f s)

theorem keeps_nil {b : Bool} : Keeps b [] := by simp [Keeps]

theorem keeps_cons {b : Bool} {f : State → Out} {l : List (State → Out)} (hf : ∀ s, Ok b s → OkO b (f s)) (hl : Keeps b l) :
    Keeps b (f :: l) := by
  intro g hg
  rcases List.mem_cons.mp hg with rfl | hg
  exacts [hf, hl g hg]

theorem keeps_append {b : Bool} {l r : List (State → Out)} (hl : Keeps b l) (hr : Keeps b r) : Keeps b (l ++ r) := by
  intro g hg
  rcases List.mem_append.mp hg with hg | hg
  exacts [hl g hg, hr g hg]

theorem keeps_map {α : Type} {b : Bool} {l : List α} {f : α → State → Out} (hf : ∀ x s, Ok b s → OkO b (f x s)) :
    Keeps b (l.map f) := by
  intro g hg
  obtain ⟨x, -, rfl⟩ := List.mem_map.mp hg
  exact hf x

theorem keeps_flatMap {α : Type} {b : Bool} {l : List α} {f : α → List (State → Out)} (hf : ∀ x, Keeps b (f x)) :
    Keeps b (l.flatMap f) := by
  intro g hg
  obtain ⟨x, -, hx⟩ := List.mem_flatMap.mp hg
  exact hf x g hx

theorem keeps_ite {b : Bool} {c : Prop} [Decidable c] {l r : List (State → Out)} (hl : Keeps b l) (hr : Keeps b r) :
    Keeps b (if c then l else r) := by split <;> assumption

theorem keeps_takeOf {b : Bool} {m : Msg} {s : State} (h : Ok b s) : OkO b (takeOf m s) := by
  unfold takeOf
  cases m.kind with
  | rds => exact ok_execRds h
  | rdx => exact ok_execRdx h
  | upg => exact ok_execUpg h
  | wbd => exact ok_execWbd h
  | evc => exact ok_execEvc h
  | ackinv => exact ok_execAckinv h
  | rspd => exact ok_execRspd h
  | rspi => exact ok_execRspi h
  | snpinv => exact ok_execSnpinv h
  | snpfwd => exact ok_execSnpfwd h
  | snpfwdx => exact ok_execSnpfwdx h
  | dats => exact ok_execDats h
  | date => exact ok_execDate h
  | datm => exact ok_execDatm h
  | grant => exact ok_execGrant h
  | wback => exact ok_execWback h

theorem keeps_orderSteps {b : Bool} {s : State} : Keeps b (State.orderSteps s) := by
  unfold State.orderSteps
  with_reducible (repeat' (first | exact keeps_nil | apply keeps_cons | apply keeps_append | apply keeps_map | apply keeps_flatMap | apply keeps_ite | intro _ | dsimp only | assumption | apply ok_execReleaseIssue | apply ok_execLoadReturn | apply ok_execFetch | apply ok_execWritePerform | apply ok_execWriteAck | apply ok_execPostedWriteAck))

theorem keeps_dieSteps {b : Bool} {d l : Nat} : Keeps b (dieSteps d l) := by
  unfold dieSteps
  with_reducible (repeat' (first | exact keeps_nil | apply keeps_cons | apply keeps_append | apply keeps_map | apply keeps_flatMap | apply keeps_ite | intro _ | dsimp only | assumption | apply ok_execRds | apply ok_execRdx | apply ok_execUpg | apply ok_execAckinv | apply ok_execRspd | apply ok_execRspi))

theorem keeps_coherenceSteps {b : Bool} {s : State} : Keeps b (State.coherenceSteps s) := by
  unfold State.coherenceSteps
  with_reducible (repeat' (first | exact keeps_nil | apply keeps_cons | apply keeps_append | apply keeps_map | apply keeps_flatMap | apply keeps_ite | exact keeps_dieSteps | intro _ | dsimp only | assumption | apply keeps_takeOf | apply ok_execBackInvalidate | apply ok_execBackInvalidationResponse | apply ok_execHostCacheResponse | apply ok_execHostSnoop | apply ok_execDirEntryError | apply ok_execHostAccess | apply ok_execLeaseExpiry))

theorem keeps_engineSteps {b : Bool} {s : State} : Keeps b (State.engineSteps s) := by
  unfold State.engineSteps
  with_reducible (repeat' (first | exact keeps_nil | apply keeps_cons | apply keeps_append | apply keeps_map | apply keeps_flatMap | apply keeps_ite | intro _ | dsimp only | assumption | apply ok_execEngineStart | apply ok_execCopyElement | apply ok_execByteAddition | apply ok_execTokenWrite | apply ok_execCpyxFollowOn | apply ok_execSequencerStart | apply ok_execTileStep | apply ok_execTileStop | apply ok_execTileResume | apply ok_execCommit | apply ok_execConflictNotice | apply ok_execReclaimRoot))

theorem keeps_warpSteps {b : Bool} {s : State} : Keeps b (State.warpSteps s) := by
  unfold State.warpSteps
  with_reducible (repeat' (first | exact keeps_nil | apply keeps_cons | apply keeps_append | apply keeps_map | apply keeps_flatMap | apply keeps_ite | intro _ | dsimp only | assumption | apply ok_execGangWake | apply ok_execFlushDone | apply ok_execWayKeep | apply ok_execWarpSave | apply ok_execWarpResume | apply ok_execSafePointOverdue | apply ok_execWaitaDeadline | apply ok_execPageResponse))

theorem keeps_graphSteps {b : Bool} {s : State} : Keeps b (State.graphSteps s) := by
  unfold State.graphSteps
  with_reducible (repeat' (first | exact keeps_nil | apply keeps_cons | apply keeps_append | apply keeps_map | apply keeps_flatMap | apply keeps_ite | intro _ | dsimp only | assumption | apply ok_execGroupForm | apply ok_execCoalesceTimeout | apply ok_execRecordRefetch | apply ok_execDispatch | apply ok_execInstanceComplete | apply ok_execPreemptRequest | apply ok_execQuantumExpiry | apply ok_execParkYield | apply ok_execAdmitTeam | apply ok_execTeamRetire | apply ok_execThrottleRelease))

theorem keeps_candidates {b : Bool} {s : State} : Keeps b s.candidates := by
  unfold State.candidates
  exact keeps_ite (keeps_ite keeps_nil (keeps_cons (fun _ h => ok_execBootStage h) keeps_nil))
    (keeps_append (keeps_append (keeps_append (keeps_append keeps_orderSteps keeps_coherenceSteps) keeps_engineSteps)
      keeps_warpSteps) keeps_graphSteps)

theorem keeps_turned {b : Bool} {n : Nat} {l : List (State → Out)} (h : Keeps b l) : Keeps b (turned n l) := by
  intro f hf
  rcases List.mem_append.mp hf with hf | hf
  · exact h f (List.mem_of_mem_drop hf)
  · exact h f (List.mem_of_mem_take hf)

theorem ok_firstOf {b : Bool} {s t : State} {l : List (State → Out)} (hl : Keeps b l) (h : Ok b s) (e : s.firstOf l = some t) :
    Ok b t := by
  induction l with
  | nil => contradiction
  | cons f r ih =>
    have hf := hl f List.mem_cons_self s h
    unfold State.firstOf at e
    split at e
    · rename_i e'
      cases e
      rw [e'] at hf
      exact hf
    · exact ih (fun g hg => hl g (List.mem_cons_of_mem _ hg)) e

theorem ok_nextEvent {b : Bool} {s : State} (h : Ok b s) : Ok b s.nextEvent := by
  unfold State.nextEvent
  extract_lets n c s' other
  have hs : Ok b s' := ok_mk.mpr h
  have ho : OkS b (fun t => t) other := by
    have key (l : List (State → Out)) (hl : Keeps b l) : OkS b (fun t => t) (s'.firstOf l) := by
      cases e : s'.firstOf l with
      | none => trivial
      | some t => exact ok_firstOf hl hs e
    simp only [other]
    split
    · split
      · exact key _ (keeps_cons (fun _ h => ok_execIssueCycle h) keeps_nil)
      · trivial
    · split
      · exact key _ (keeps_turned keeps_candidates)
      · trivial
  clear_value other s' c
  split
  · exact ho
  · have ht := ok_execTimeBaseTick (bb := b) hs
    split
    · rename_i e
      rw [e] at ht
      exact ht
    · exact hs

end Sys2Proof.Machine
end

