-- ==== Sys2Proof/Laws/Memory.lean ====
section
/-! SUPPORT. What the shared operations of memory instructions answer: a request that goes, an access that every
check passes, walker bitmaps, tags and sets where no region is open and no loop runs. -/

namespace Sys2Proof.Machine
open Sys2Proof.Safety

theorem oldest_eq {b : State} {c : Common} {eff : State → Eff} (h : oldestCode b c) :
    b.noRegion c (fun b => b.oldestOnly eff) = eff b := by
  rw [noRegion_eq h.1]; simp [State.oldestOnly, h.2]

/-- A request that goes. -/
theorem submit_goes {b : State} {r : Req} {t : State → State} (h : goes b r) : b.submit r t = .done (t (sent b r)) := by
  obtain ⟨⟨h1, h4⟩, h2⟩ := h
  have h3 : b.linkLost (b.newReq r) = false := by
    unfold linkFits at h2
    simp only [State.linkLost, Req.sysRelease]
    by_contra h3
    simp only [Bool.not_eq_false, Bool.and_eq_true, beq_iff_eq] at h3
    exact h2 ⟨h3.1.1.1.1.1.1, h3.1.1.1.1.1.2, h3.1.1.1.2, h3.1.1.2, h3.1.2, h3.2⟩
  unfold State.submit sent
  simp only [h3, h4, Bool.false_eq_true, if_false]
  by_cases hc : b.canStart (b.newReq r) = true
  · simp [hc]
  · rcases h1 with h | h
    · exact absurd h hc
    · simp [hc, h]

/-- Entering a walk changes the trees' bitmaps only. -/
theorem noteVa_frame (s : State) (u va : Nat) : ∃ x, s.noteVa u va = { s with trees := x } := by
  unfold State.noteVa; split <;> exact ⟨_, rfl⟩

theorem noteAccess_frame (s : State) (f : OpM) (off : Int) : ∃ x, s.noteAccess f off = { s with trees := x } := by
  unfold State.noteAccess
  generalize s.addrs f off = L
  induction L generalizing s with
  | nil => exact ⟨_, rfl⟩
  | cons p r ih =>
    simp only [List.foldl_cons]
    obtain ⟨x, hx⟩ := noteVa_frame s s.who.warp p.2
    obtain ⟨y, hy⟩ := ih (s.noteVa s.who.warp p.2)
    exact ⟨y, by rw [hy, hx]⟩

theorem Tab.upd_id {α : Type} (t : Tab α) (k : Nat) (f : α → α) (h : ∀ x, t.find k = some x → f x = x) :
    t.upd k f = t := by
  induction t with
  | nil => rfl
  | cons p r ih =>
    obtain ⟨j, x⟩ := p
    unfold Tab.upd
    split
    · next e => rw [h x (by simp [Tab.find, e])]
    · next e => rw [ih (fun y hy => h y (by simp [Tab.find, e, hy]))]

/-- Where no loop runs, no way is changed. -/
theorem updWay_lone {b : State} (f : Way → Way) (h : b.wWarp.loop = none) : b.updWay f = b := by
  have : b.warps.upd b.who.warp (fun w => w.updWay b.who.way f) = b.warps := by
    apply Tab.upd_id
    intro w hw
    have : b.wWarp = w := by simp [State.wWarp, State.warp, hw]
    rw [this] at h
    simp [Warp.updWay, h]
  show ({ b with warps := b.warps.upd b.who.warp (fun w => w.updWay b.who.way f) } : State) = b
  rw [this]

theorem noteReads_lone {b : State} (as : List Acc) (h : b.wWarp.loop = none) : b.noteReads as = b := updWay_lone _ h
theorem noteWrites_lone {b : State} (as : List Acc) (h : b.wWarp.loop = none) : b.noteWrites as = b := updWay_lone _ h

theorem untracked_lone {b : State} (h : b.wWarp.regions = []) : b.untracked = true := by simp [State.untracked, h]
theorem useTags_lone {b : State} (u : Uses) (ls : Lanes) (h : b.wWarp.regions = []) : b.useTags u ls = b := by
  simp [State.useTags, untracked_lone h]
theorem regionLanes_lone {b : State} (ls : Lanes) (h : b.wWarp.regions = []) : b.regionLanes ls = 0 := by
  simp [State.regionLanes, untracked_lone h]
theorem regionsOfAcc_lone {b : State} (u : Bool) (l : Nat) (h : b.wWarp.regions = []) : b.regionsOfAcc u l = [] := by
  simp [State.regionsOfAcc, regionLanes_lone _ h, lanesOf]
theorem regionTrap_lone {b : State} (f : OpM) (off : Int) (k : Nat) (bar : Bool) (as : List Acc) (h : b.wWarp.regions = []) :
    b.regionTrap f off k bar as = none := by
  unfold State.regionTrap
  simp [regionLanes_lone _ h]
theorem foldl_append {α σ : Type} (s : σ) (f : σ × List α → α → σ × List α) (h : ∀ xs a, f (s, xs) a = (s, xs ++ [a])) :
    ∀ (as xs : List α), as.foldl f (s, xs) = (s, xs ++ as)
  | [], xs => by simp
  | a :: r, xs => by rw [List.foldl_cons, h, foldl_append s f h r]; simp
theorem regionLoad_lone {b : State} (f : OpM) (as : List Acc) (h : b.wWarp.regions = []) : b.regionLoad f as = (b, as) := by
  unfold State.regionLoad
  rw [foldl_append b _ (fun xs a => by simp [regionsOfAcc_lone _ _ h])]; rfl
theorem regionStore_lone {b : State} (f : OpM) (as : List Acc) (h : b.wWarp.regions = []) : b.regionStore f as = (b, as) := by
  unfold State.regionStore
  rw [foldl_append b _ (fun xs a => by simp [regionsOfAcc_lone _ _ h])]; rfl
theorem obsPending_lone {b : State} (u : Bool) (as : List Acc) (h : b.wWarp.regions = []) : b.obsPending u as = false := by
  simp [State.obsPending, regionsOfAcc_lone _ _ h]

theorem young_lone {b : State} (h : b.wWarp.loop = none) : b.youngWay = false ∧ b.guessing = false := by
  simp [State.youngWay, State.guessing, Warp.young, Warp.way?, h]

/-- No poisoned data, no trap. -/
theorem poisonTrap_none {b : State} {f : OpM} {off : Int} {k : Nat} {r : Req} {as : List Acc}
    (h : ∀ a ∈ as, b.accPoison r a = false) : b.poisonTrap f off k r as = none := by
  unfold State.poisonTrap
  rw [List.filter_eq_nil_iff.2 (fun a ha => by simp [h a ha])]

theorem dropFailed_nil (as : List Acc) : dropFailed [] as = as := by simp [dropFailed]
theorem switchOff_nil (s : State) : s.switchOff [] = s := rfl

/-- Accesses that pass every check. -/
theorem accs_sound {b : State} {f : OpM} {w : Want} {n k : Nat} {off : Int} {rd : Bool} (h : sound b f w n k off rd) :
    b.accs f w n k off = .ok (accesses b f w n k off) ∧ accesses b f w n k off ≠ [] ∧
      b.scrFails f rd (accesses b f w n k off) = [] := by
  obtain ⟨⟨as, h1, h2⟩, h3⟩ := h
  have e : accesses b f w n k off = as := by simp [accesses, h1]
  rw [e] at h3 ⊢
  exact ⟨h1, h2, h3⟩

end Sys2Proof.Machine
end

