-- ==== Sys2Proof/Laws/PerInstr.lean ====
section
/-! SUPPORT. Families of laws with one lemma per constructor of `Instr`, about the instruction as syntax. -/

namespace Sys2Proof.Laws

/-! ## What is encoded is built again: the fields of a form name one instruction (R27, R49) -/

def Rebuilt.Statement (i : Instr) : Prop := i.wf = true → ∀ f, i.form = some f → f.build = some i

theorem Rebuilt.nop (f : OpB) : Rebuilt.Statement (.nop f) := fun _ _ h => by cases h; rfl
theorem Rebuilt.bra (f : OpB) : Rebuilt.Statement (.bra f) := fun _ _ h => by cases h; rfl
theorem Rebuilt.brx (f : OpB) : Rebuilt.Statement (.brx f) := fun _ _ h => by cases h; rfl
theorem Rebuilt.rcv (f : OpB) : Rebuilt.Statement (.rcv f) := fun _ _ h => by cases h; rfl
theorem Rebuilt.join (f : OpB) : Rebuilt.Statement (.join f) := fun _ _ h => by cases h; rfl
theorem Rebuilt.loop (f : OpB) : Rebuilt.Statement (.loop f) := fun _ _ h => by cases h; rfl
theorem Rebuilt.brk (f : OpB) : Rebuilt.Statement (.brk f) := fun _ _ h => by cases h; rfl
theorem Rebuilt.next (f : OpB) : Rebuilt.Statement (.next f) := fun _ _ h => by cases h; rfl
theorem Rebuilt.call (f : OpB) : Rebuilt.Statement (.call f) := fun _ _ h => by cases h; rfl
theorem Rebuilt.callx (f : OpB) : Rebuilt.Statement (.callx f) := fun _ _ h => by cases h; rfl
theorem Rebuilt.ret (f : OpB) : Rebuilt.Statement (.ret f) := fun _ _ h => by cases h; rfl
theorem Rebuilt.exit (f : OpB) : Rebuilt.Statement (.exit f) := fun _ _ h => by cases h; rfl
theorem Rebuilt.regang (f : OpB) : Rebuilt.Statement (.regang f) := fun _ _ h => by cases h; rfl
theorem Rebuilt.safept (f : OpB) : Rebuilt.Statement (.safept f) := fun w _ h => by
  cases h
  have e : f.ctl = 0 := Fin.ext (by simp [Instr.wf, OpB.zero] at w; simp [w])
  simp [Form.build, buildB, e]
theorem Rebuilt.safeptRf (f : OpB) : Rebuilt.Statement (.safeptRf f) := fun w _ h => by
  cases h
  have e : f.ctl = 1 := Fin.ext (by simp [Instr.wf, OpB.zero] at w; simp [w])
  simp [Form.build, buildB, e]
theorem Rebuilt.yield (f : OpB) : Rebuilt.Statement (.yield f) := fun _ _ h => by cases h; rfl
theorem Rebuilt.yieldExpiry (g : GangRef) : Rebuilt.Statement (.yieldExpiry g) := fun _ _ h => nomatch h
theorem Rebuilt.trap (f : OpB) : Rebuilt.Statement (.trap f) := fun _ _ h => by cases h; rfl
theorem Rebuilt.bkpt (f : OpB) : Rebuilt.Statement (.bkpt f) := fun _ _ h => by cases h; rfl
theorem Rebuilt.safePointOverdue (g : GangRef) : Rebuilt.Statement (.safePointOverdue g) := fun _ _ h => nomatch h
theorem Rebuilt.iadd (f : OpA) : Rebuilt.Statement (.iadd f) := fun _ _ h => by cases h; rfl
theorem Rebuilt.isub (f : OpA) : Rebuilt.Statement (.isub f) := fun _ _ h => by cases h; rfl
theorem Rebuilt.imul (f : OpA) : Rebuilt.Statement (.imul f) := fun _ _ h => by cases h; rfl
theorem Rebuilt.imulh (f : OpA) : Rebuilt.Statement (.imulh f) := fun _ _ h => by cases h; rfl
theorem Rebuilt.imad (f : OpA) : Rebuilt.Statement (.imad f) := fun _ _ h => by cases h; rfl
theorem Rebuilt.imadw (f : OpA) : Rebuilt.Statement (.imadw f) := fun _ _ h => by cases h; rfl
theorem Rebuilt.imin (f : OpA) : Rebuilt.Statement (.imin f) := fun _ _ h => by cases h; rfl
theorem Rebuilt.imax (f : OpA) : Rebuilt.Statement (.imax f) := fun _ _ h => by cases h; rfl
theorem Rebuilt.iabs (f : OpA) : Rebuilt.Statement (.iabs f) := fun _ _ h => by cases h; rfl
theorem Rebuilt.andL (f : OpA) : Rebuilt.Statement (.andL f) := fun _ _ h => by cases h; rfl
theorem Rebuilt.orL (f : OpA) : Rebuilt.Statement (.orL f) := fun _ _ h => by cases h; rfl
theorem Rebuilt.xorL (f : OpA) : Rebuilt.Statement (.xorL f) := fun _ _ h => by cases h; rfl
theorem Rebuilt.lop3 (f : OpA) : Rebuilt.Statement (.lop3 f) := fun _ _ h => by cases h; rfl
theorem Rebuilt.shl (f : OpA) : Rebuilt.Statement (.shl f) := fun _ _ h => by cases h; rfl
theorem Rebuilt.shr (f : OpA) : Rebuilt.Statement (.shr f) := fun _ _ h => by cases h; rfl
theorem Rebuilt.sar (f : OpA) : Rebuilt.Statement (.sar f) := fun _ _ h => by cases h; rfl
theorem Rebuilt.shf (f : OpA) : Rebuilt.Statement (.shf f) := fun _ _ h => by cases h; rfl
theorem Rebuilt.popc (f : OpA) : Rebuilt.Statement (.popc f) := fun _ _ h => by cases h; rfl
theorem Rebuilt.clz (f : OpA) : Rebuilt.Statement (.clz f) := fun _ _ h => by cases h; rfl
theorem Rebuilt.ctz (f : OpA) : Rebuilt.Statement (.ctz f) := fun _ _ h => by cases h; rfl
theorem Rebuilt.brev (f : OpA) : Rebuilt.Statement (.brev f) := fun _ _ h => by cases h; rfl
theorem Rebuilt.bfx (f : OpA) : Rebuilt.Statement (.bfx f) := fun _ _ h => by cases h; rfl
theorem Rebuilt.bfi (f : OpA) : Rebuilt.Statement (.bfi f) := fun _ _ h => by cases h; rfl
theorem Rebuilt.sel (f : OpA) : Rebuilt.Statement (.sel f) := fun _ _ h => by cases h; rfl
theorem Rebuilt.mov (f : OpA) : Rebuilt.Statement (.mov f) := fun _ _ h => by cases h; rfl
theorem Rebuilt.movi (f : OpI) : Rebuilt.Statement (.movi f) := fun _ _ h => by cases h; rfl
theorem Rebuilt.lea (f : OpA) : Rebuilt.Statement (.lea f) := fun _ _ h => by cases h; rfl
theorem Rebuilt.idp4 (f : OpA) : Rebuilt.Statement (.idp4 f) := fun _ _ h => by cases h; rfl
theorem Rebuilt.pmac2 (f : OpA) : Rebuilt.Statement (.pmac2 f) := fun _ _ h => by cases h; rfl
theorem Rebuilt.sarn (f : OpA) : Rebuilt.Statement (.sarn f) := fun _ _ h => by cases h; rfl
theorem Rebuilt.isat (f : OpA) : Rebuilt.Statement (.isat f) := fun _ _ h => by cases h; rfl
theorem Rebuilt.rget (f : OpA) : Rebuilt.Statement (.rget f) := fun _ _ h => by cases h; rfl
theorem Rebuilt.rput (f : OpA) : Rebuilt.Statement (.rput f) := fun _ _ h => by cases h; rfl
theorem Rebuilt.isetp (f : OpA) : Rebuilt.Statement (.isetp f) := fun _ _ h => by cases h; rfl
theorem Rebuilt.fsetp (f : OpA) : Rebuilt.Statement (.fsetp f) := fun _ _ h => by cases h; rfl
theorem Rebuilt.plop (f : OpA) : Rebuilt.Statement (.plop f) := fun _ _ h => by cases h; rfl
theorem Rebuilt.pmovGet (f : OpA) : Rebuilt.Statement (.pmovGet f) := fun w _ h => by
  cases h
  have e : f.opx[0] = false := by
    simp [Instr.wf, wfRole, wfA, Instr.roleA, OpA.opxBits] at w
    simp [BitVec.getElem_eq_testBit_toNat, w]
  simp [Form.build, buildA, e]
theorem Rebuilt.pmovSet (f : OpA) : Rebuilt.Statement (.pmovSet f) := fun w _ h => by
  cases h
  have e : f.opx[0] = true := by
    simp [Instr.wf, wfRole, wfA, Instr.roleA, OpA.opxBits] at w
    simp [BitVec.getElem_eq_testBit_toNat, w]
  simp [Form.build, buildA, e]
theorem Rebuilt.vote (f : OpA) : Rebuilt.Statement (.vote f) := fun _ _ h => by cases h; rfl
theorem Rebuilt.shfl (f : OpA) : Rebuilt.Statement (.shfl f) := fun _ _ h => by cases h; rfl
theorem Rebuilt.slide (f : OpA) : Rebuilt.Statement (.slide f) := fun _ _ h => by cases h; rfl
theorem Rebuilt.redux (f : OpA) : Rebuilt.Statement (.redux f) := fun _ _ h => by cases h; rfl
theorem Rebuilt.scan (f : OpA) : Rebuilt.Statement (.scan f) := fun _ _ h => by cases h; rfl
theorem Rebuilt.matchL (f : OpA) : Rebuilt.Statement (.matchL f) := fun _ _ h => by cases h; rfl
theorem Rebuilt.prmt (f : OpA) : Rebuilt.Statement (.prmt f) := fun _ _ h => by cases h; rfl
theorem Rebuilt.fadd (f : OpA) : Rebuilt.Statement (.fadd f) := fun _ _ h => by cases h; rfl
theorem Rebuilt.fsub (f : OpA) : Rebuilt.Statement (.fsub f) := fun _ _ h => by cases h; rfl
theorem Rebuilt.fmul (f : OpA) : Rebuilt.Statement (.fmul f) := fun _ _ h => by cases h; rfl
theorem Rebuilt.ffma (f : OpA) : Rebuilt.Statement (.ffma f) := fun _ _ h => by cases h; rfl
theorem Rebuilt.fmin (f : OpA) : Rebuilt.Statement (.fmin f) := fun _ _ h => by cases h; rfl
theorem Rebuilt.fmax (f : OpA) : Rebuilt.Statement (.fmax f) := fun _ _ h => by cases h; rfl
theorem Rebuilt.frcp (f : OpA) : Rebuilt.Statement (.frcp f) := fun _ _ h => by cases h; rfl
theorem Rebuilt.frsq (f : OpA) : Rebuilt.Statement (.frsq f) := fun _ _ h => by cases h; rfl
theorem Rebuilt.fsqrt (f : OpA) : Rebuilt.Statement (.fsqrt f) := fun _ _ h => by cases h; rfl
theorem Rebuilt.fexp2 (f : OpA) : Rebuilt.Statement (.fexp2 f) := fun _ _ h => by cases h; rfl
theorem Rebuilt.flog2 (f : OpA) : Rebuilt.Statement (.flog2 f) := fun _ _ h => by cases h; rfl
theorem Rebuilt.fclass (f : OpA) : Rebuilt.Statement (.fclass f) := fun _ _ h => by cases h; rfl
theorem Rebuilt.fscale (f : OpA) : Rebuilt.Statement (.fscale f) := fun _ _ h => by cases h; rfl
theorem Rebuilt.frnd (f : OpA) : Rebuilt.Statement (.frnd f) := fun _ _ h => by cases h; rfl
theorem Rebuilt.hadd2 (f : OpA) : Rebuilt.Statement (.hadd2 f) := fun _ _ h => by cases h; rfl
theorem Rebuilt.hmul2 (f : OpA) : Rebuilt.Statement (.hmul2 f) := fun _ _ h => by cases h; rfl
theorem Rebuilt.hfma2 (f : OpA) : Rebuilt.Statement (.hfma2 f) := fun _ _ h => by cases h; rfl
theorem Rebuilt.hmin2 (f : OpA) : Rebuilt.Statement (.hmin2 f) := fun _ _ h => by cases h; rfl
theorem Rebuilt.hmax2 (f : OpA) : Rebuilt.Statement (.hmax2 f) := fun _ _ h => by cases h; rfl
theorem Rebuilt.fdot2 (f : OpA) : Rebuilt.Statement (.fdot2 f) := fun _ _ h => by cases h; rfl
theorem Rebuilt.cvt (f : OpA) : Rebuilt.Statement (.cvt f) := fun _ _ h => by cases h; rfl
theorem Rebuilt.fcvt (f : OpA) : Rebuilt.Statement (.fcvt f) := fun _ _ h => by cases h; rfl
theorem Rebuilt.pk2 (f : OpA) : Rebuilt.Statement (.pk2 f) := fun _ _ h => by cases h; rfl
theorem Rebuilt.upk2 (f : OpA) : Rebuilt.Statement (.upk2 f) := fun _ _ h => by cases h; rfl
theorem Rebuilt.e10enc (f : OpA) : Rebuilt.Statement (.e10enc f) := fun _ _ h => by cases h; rfl
theorem Rebuilt.e10dec (f : OpA) : Rebuilt.Statement (.e10dec f) := fun _ _ h => by cases h; rfl
theorem Rebuilt.rnsenc (f : OpA) : Rebuilt.Statement (.rnsenc f) := fun _ _ h => by cases h; rfl
theorem Rebuilt.rnsdec (f : OpA) : Rebuilt.Statement (.rnsdec f) := fun _ _ h => by cases h; rfl
theorem Rebuilt.qnt (f : OpA) : Rebuilt.Statement (.qnt f) := fun _ _ h => by cases h; rfl
theorem Rebuilt.dqnt (f : OpA) : Rebuilt.Statement (.dqnt f) := fun _ _ h => by cases h; rfl
theorem Rebuilt.ld (f : OpM) : Rebuilt.Statement (.ld f) := fun _ _ h => by cases h; rfl
theorem Rebuilt.st (f : OpM) : Rebuilt.Statement (.st f) := fun _ _ h => by cases h; rfl
theorem Rebuilt.prf (f : OpM) : Rebuilt.Statement (.prf f) := fun _ _ h => by cases h; rfl
theorem Rebuilt.fence (f : OpM) : Rebuilt.Statement (.fence f) := fun _ _ h => by cases h; rfl
theorem Rebuilt.cctlInv (f : OpM) : Rebuilt.Statement (.cctlInv f) := fun w _ h => by
  cases h
  have e : f.cache = 0 := Fin.ext (by simp [Instr.wf] at w; simp [w])
  simp [Form.build, buildM, e]
theorem Rebuilt.cctlWb (f : OpM) : Rebuilt.Statement (.cctlWb f) := fun w _ h => by
  cases h
  have e : f.cache = 1 := Fin.ext (by simp [Instr.wf] at w; simp [w])
  simp [Form.build, buildM, e]
theorem Rebuilt.cctlWbinv (f : OpM) : Rebuilt.Statement (.cctlWbinv f) := fun w _ h => by
  cases h
  have e : f.cache = 2 := Fin.ext (by simp [Instr.wf] at w; simp [w])
  simp [Form.build, buildM, e]
theorem Rebuilt.cctlZero (f : OpM) : Rebuilt.Statement (.cctlZero f) := fun w _ h => by
  cases h
  have e : f.cache = 3 := Fin.ext (by simp [Instr.wf] at w; simp [w])
  simp [Form.build, buildM, e]
theorem Rebuilt.cctlInvall (f : OpM) : Rebuilt.Statement (.cctlInvall f) := fun w _ h => by
  cases h
  have e : f.cache = 4 := Fin.ext (by simp [Instr.wf] at w; simp [w])
  simp [Form.build, buildM, e]
theorem Rebuilt.atom (f : OpM) : Rebuilt.Statement (.atom f) := fun _ _ h => by cases h; rfl
theorem Rebuilt.cas (f : OpM) : Rebuilt.Statement (.cas f) := fun _ _ h => by cases h; rfl
theorem Rebuilt.red (f : OpM) : Rebuilt.Statement (.red f) := fun _ _ h => by cases h; rfl
theorem Rebuilt.bupd (f : OpM) : Rebuilt.Statement (.bupd f) := fun _ _ h => by cases h; rfl
theorem Rebuilt.binit (f : OpM) : Rebuilt.Statement (.binit f) := fun _ _ h => by cases h; rfl
theorem Rebuilt.barv (f : OpM) : Rebuilt.Statement (.barv f) := fun _ _ h => by cases h; rfl
theorem Rebuilt.bwait (f : OpM) : Rebuilt.Statement (.bwait f) := fun _ _ h => by cases h; rfl
theorem Rebuilt.barw (f : OpM) : Rebuilt.Statement (.barw f) := fun _ _ h => by cases h; rfl
theorem Rebuilt.bexp (f : OpM) : Rebuilt.Statement (.bexp f) := fun _ _ h => by cases h; rfl
theorem Rebuilt.waita (f : OpM) : Rebuilt.Statement (.waita f) := fun _ _ h => by cases h; rfl
theorem Rebuilt.waitaDeadline (stack : Nat) (entry : Nat) : Rebuilt.Statement (.waitaDeadline stack entry) := fun _ _ h => nomatch h
theorem Rebuilt.cpy (f : OpT) : Rebuilt.Statement (.cpy f) := fun _ _ h => by cases h; rfl
theorem Rebuilt.cpyt (f : OpT) : Rebuilt.Statement (.cpyt f) := fun _ _ h => by cases h; rfl
theorem Rebuilt.cpyg (f : OpT) : Rebuilt.Statement (.cpyg f) := fun _ _ h => by cases h; rfl
theorem Rebuilt.cpys (f : OpT) : Rebuilt.Statement (.cpys f) := fun _ _ h => by cases h; rfl
theorem Rebuilt.cpyr (f : OpT) : Rebuilt.Statement (.cpyr f) := fun _ _ h => by cases h; rfl
theorem Rebuilt.cpyx (f : OpT) : Rebuilt.Statement (.cpyx f) := fun _ _ h => by cases h; rfl
theorem Rebuilt.cpyq (f : OpT) : Rebuilt.Statement (.cpyq f) := fun _ _ h => by cases h; rfl
theorem Rebuilt.cpyc (f : OpT) : Rebuilt.Statement (.cpyc f) := fun _ _ h => by cases h; rfl
theorem Rebuilt.osld (f : OpT) : Rebuilt.Statement (.osld f) := fun _ _ h => by cases h; rfl
theorem Rebuilt.engineStart (op : Nat) : Rebuilt.Statement (.engineStart op) := fun _ _ h => nomatch h
theorem Rebuilt.copyElement (op : Nat) : Rebuilt.Statement (.copyElement op) := fun _ _ h => nomatch h
theorem Rebuilt.tokenWrite (op : Nat) : Rebuilt.Statement (.tokenWrite op) := fun _ _ h => nomatch h
theorem Rebuilt.byteAddition (op : Nat) : Rebuilt.Statement (.byteAddition op) := fun _ _ h => nomatch h
theorem Rebuilt.cpyxFollowOn (op : Nat) : Rebuilt.Statement (.cpyxFollowOn op) := fun _ _ h => nomatch h
theorem Rebuilt.mma (f : OpT) : Rebuilt.Statement (.mma f) := fun _ _ h => by cases h; rfl
theorem Rebuilt.mmag (f : OpT) : Rebuilt.Statement (.mmag f) := fun _ _ h => by cases h; rfl
theorem Rebuilt.tzero (f : OpT) : Rebuilt.Statement (.tzero f) := fun _ _ h => by cases h; rfl
theorem Rebuilt.tqnt (f : OpT) : Rebuilt.Statement (.tqnt f) := fun _ _ h => by cases h; rfl
theorem Rebuilt.tdq (f : OpT) : Rebuilt.Statement (.tdq f) := fun _ _ h => by cases h; rfl
theorem Rebuilt.tcrt (f : OpT) : Rebuilt.Statement (.tcrt f) := fun _ _ h => by cases h; rfl
theorem Rebuilt.ttrn (f : OpT) : Rebuilt.Statement (.ttrn f) := fun _ _ h => by cases h; rfl
theorem Rebuilt.tstat (f : OpT) : Rebuilt.Statement (.tstat f) := fun _ _ h => by cases h; rfl
theorem Rebuilt.sequencerStart (core : Nat) : Rebuilt.Statement (.sequencerStart core) := fun _ _ h => nomatch h
theorem Rebuilt.tileStep (core : Nat) : Rebuilt.Statement (.tileStep core) := fun _ _ h => nomatch h
theorem Rebuilt.tileStop (core : Nat) : Rebuilt.Statement (.tileStop core) := fun _ _ h => nomatch h
theorem Rebuilt.tileResume (core : Nat) : Rebuilt.Statement (.tileResume core) := fun _ _ h => nomatch h
theorem Rebuilt.kvx (f : OpT) : Rebuilt.Statement (.kvx f) := fun _ _ h => by cases h; rfl
theorem Rebuilt.kvvalSet (f : OpT) : Rebuilt.Statement (.kvvalSet f) := fun w _ h => by
  cases h
  have e : f.opf[0] = false := by
    simp [Instr.wf, OpT.bits] at w
    simp [BitVec.getElem_eq_testBit_toNat, w]
  simp [Form.build, buildT, e]
theorem Rebuilt.kvvalClr (f : OpT) : Rebuilt.Statement (.kvvalClr f) := fun w _ h => by
  cases h
  have e : f.opf[0] = true := by
    simp [Instr.wf, OpT.bits] at w
    simp [BitVec.getElem_eq_testBit_toNat, w]
  simp [Form.build, buildT, e]
theorem Rebuilt.kvrcl (f : OpT) : Rebuilt.Statement (.kvrcl f) := fun _ _ h => by cases h; rfl
theorem Rebuilt.skchSlot (f : OpT) : Rebuilt.Statement (.skchSlot f) := fun w _ h => by
  cases h
  have e : f.opf[0] = false := by
    simp [Instr.wf, OpT.bits] at w
    simp [BitVec.getElem_eq_testBit_toNat, w]
  simp [Form.build, buildT, e]
theorem Rebuilt.skchVec (f : OpT) : Rebuilt.Statement (.skchVec f) := fun w _ h => by
  cases h
  have e : f.opf[0] = true := by
    simp [Instr.wf, OpT.bits] at w
    simp [BitVec.getElem_eq_testBit_toNat, w]
  simp [Form.build, buildT, e]
theorem Rebuilt.attn (f : OpT) : Rebuilt.Statement (.attn f) := fun _ _ h => by cases h; rfl
theorem Rebuilt.attnq (f : OpT) : Rebuilt.Statement (.attnq f) := fun _ _ h => by cases h; rfl
theorem Rebuilt.sploop (f : OpB) : Rebuilt.Statement (.sploop f) := fun _ _ h => by cases h; rfl
theorem Rebuilt.spput (f : OpB) : Rebuilt.Statement (.spput f) := fun _ _ h => by cases h; rfl
theorem Rebuilt.spacc (f : OpB) : Rebuilt.Statement (.spacc f) := fun _ _ h => by cases h; rfl
theorem Rebuilt.spnext (f : OpB) : Rebuilt.Statement (.spnext f) := fun _ _ h => by cases h; rfl
theorem Rebuilt.spend (f : OpB) : Rebuilt.Statement (.spend f) := fun _ _ h => by cases h; rfl
theorem Rebuilt.spq (f : OpB) : Rebuilt.Statement (.spq f) := fun _ _ h => by cases h; rfl
theorem Rebuilt.wayKeep (warp : Nat) : Rebuilt.Statement (.wayKeep warp) := fun _ _ h => nomatch h
theorem Rebuilt.atomb (f : OpB) : Rebuilt.Statement (.atomb f) := fun _ _ h => by cases h; rfl
theorem Rebuilt.atome (f : OpB) : Rebuilt.Statement (.atome f) := fun _ _ h => by cases h; rfl
theorem Rebuilt.atoma (f : OpB) : Rebuilt.Statement (.atoma f) := fun _ _ h => by cases h; rfl
theorem Rebuilt.atomq (f : OpB) : Rebuilt.Statement (.atomq f) := fun _ _ h => by cases h; rfl
theorem Rebuilt.commit (die : Nat) : Rebuilt.Statement (.commit die) := fun _ _ h => nomatch h
theorem Rebuilt.conflictNotice (die : Nat) (line : Nat) : Rebuilt.Statement (.conflictNotice die line) := fun _ _ h => nomatch h
theorem Rebuilt.rootsw (f : OpM) : Rebuilt.Statement (.rootsw f) := fun _ _ h => by cases h; rfl
theorem Rebuilt.rootcpFork (f : OpM) : Rebuilt.Statement (.rootcpFork f) := fun w _ h => by
  cases h
  have e : f.cache = 0 := Fin.ext (by simp [Instr.wf] at w; simp [w])
  simp [Form.build, buildM, e]
theorem Rebuilt.rootcpSnap (f : OpM) : Rebuilt.Statement (.rootcpSnap f) := fun w _ h => by
  cases h
  have e : f.cache = 1 := Fin.ext (by simp [Instr.wf] at w; simp [w])
  simp [Form.build, buildM, e]
theorem Rebuilt.rootcpDrop (f : OpM) : Rebuilt.Statement (.rootcpDrop f) := fun w _ h => by
  cases h
  have e : f.cache = 2 := Fin.ext (by simp [Instr.wf] at w; simp [w])
  simp [Form.build, buildM, e]
theorem Rebuilt.rfrsh (f : OpM) : Rebuilt.Statement (.rfrsh f) := fun _ _ h => by cases h; rfl
theorem Rebuilt.tnode (f : OpM) : Rebuilt.Statement (.tnode f) := fun _ _ h => by cases h; rfl
theorem Rebuilt.pgmapFt (f : OpM) : Rebuilt.Statement (.pgmapFt f) := fun w _ h => by
  cases h
  have e : f.cache = 0 := Fin.ext (by simp [Instr.wf] at w; simp [w])
  simp [Form.build, buildM, e]
theorem Rebuilt.pgmapCow (f : OpM) : Rebuilt.Statement (.pgmapCow f) := fun w _ h => by
  cases h
  have e : f.cache = 1 := Fin.ext (by simp [Instr.wf] at w; simp [w])
  simp [Form.build, buildM, e]
theorem Rebuilt.tret (f : OpM) : Rebuilt.Statement (.tret f) := fun w _ h => by
  cases h
  have e : f.cache = 0 := Fin.ext (by simp [Instr.wf] at w; simp [w])
  simp [Form.build, buildM, e]
theorem Rebuilt.tretKill (f : OpM) : Rebuilt.Statement (.tretKill f) := fun w _ h => by
  cases h
  have e : f.cache = 1 := Fin.ext (by simp [Instr.wf] at w; simp [w])
  simp [Form.build, buildM, e]
theorem Rebuilt.csrr (f : OpM) : Rebuilt.Statement (.csrr f) := fun _ _ h => by cases h; rfl
theorem Rebuilt.csrw (f : OpM) : Rebuilt.Statement (.csrw f) := fun _ _ h => by cases h; rfl
theorem Rebuilt.fltq (f : OpM) : Rebuilt.Statement (.fltq f) := fun _ _ h => by cases h; rfl
theorem Rebuilt.pgreq (f : OpM) : Rebuilt.Statement (.pgreq f) := fun _ _ h => by cases h; rfl
theorem Rebuilt.pageResponse (group : Nat) (code : Nat) : Rebuilt.Statement (.pageResponse group code) := fun _ _ h => nomatch h
theorem Rebuilt.faultReply (tenant : Nat) (entry : Nat) (reply : Word) : Rebuilt.Statement (.faultReply tenant entry reply) := fun _ _ h => nomatch h
theorem Rebuilt.launch (f : OpT) : Rebuilt.Statement (.launch f) := fun _ _ h => by cases h; rfl
theorem Rebuilt.emit (f : OpT) : Rebuilt.Statement (.emit f) := fun _ _ h => by cases h; rfl
theorem Rebuilt.ndone (f : OpT) : Rebuilt.Statement (.ndone f) := fun _ _ h => by cases h; rfl
theorem Rebuilt.slotw (f : OpT) : Rebuilt.Statement (.slotw f) := fun _ _ h => by cases h; rfl
theorem Rebuilt.prmptStop (f : OpT) : Rebuilt.Statement (.prmptStop f) := fun w _ h => by
  cases h
  have e : f.opf[0] = false := by
    simp [Instr.wf, OpT.bits] at w
    simp [BitVec.getElem_eq_testBit_toNat, w]
  simp [Form.build, buildT, e]
theorem Rebuilt.prmptEvict (f : OpT) : Rebuilt.Statement (.prmptEvict f) := fun w _ h => by
  cases h
  have e : f.opf[0] = true := by
    simp [Instr.wf, OpT.bits] at w
    simp [BitVec.getElem_eq_testBit_toNat, w]
  simp [Form.build, buildT, e]
theorem Rebuilt.slotTableSwap (swap : SlotSwap) : Rebuilt.Statement (.slotTableSwap swap) := fun _ _ h => nomatch h
theorem Rebuilt.issueCycle (core : Nat) : Rebuilt.Statement (.issueCycle core) := fun _ _ h => nomatch h
theorem Rebuilt.gangWake (warp : Nat) : Rebuilt.Statement (.gangWake warp) := fun _ _ h => nomatch h
theorem Rebuilt.fetch (load : Nat) (line : Nat) : Rebuilt.Statement (.fetch load line) := fun _ _ h => nomatch h
theorem Rebuilt.leaseExpiry (core : Nat) (line : Nat) : Rebuilt.Statement (.leaseExpiry core line) := fun _ _ h => nomatch h
theorem Rebuilt.writePerform (write : Nat) : Rebuilt.Statement (.writePerform write) := fun _ _ h => nomatch h
theorem Rebuilt.writeAck (write : Nat) : Rebuilt.Statement (.writeAck write) := fun _ _ h => nomatch h
theorem Rebuilt.releaseIssue (held : Nat) : Rebuilt.Statement (.releaseIssue held) := fun _ _ h => nomatch h
theorem Rebuilt.loadReturn (load : Nat) : Rebuilt.Statement (.loadReturn load) := fun _ _ h => nomatch h
theorem Rebuilt.rds (ph : Phase) (die : Nat) (line : Nat) : Rebuilt.Statement (.rds ph die line) := fun _ _ h => nomatch h
theorem Rebuilt.rdx (ph : Phase) (die : Nat) (line : Nat) : Rebuilt.Statement (.rdx ph die line) := fun _ _ h => nomatch h
theorem Rebuilt.upg (ph : Phase) (die : Nat) (line : Nat) : Rebuilt.Statement (.upg ph die line) := fun _ _ h => nomatch h
theorem Rebuilt.wbd (ph : Phase) (die : Nat) (line : Nat) : Rebuilt.Statement (.wbd ph die line) := fun _ _ h => nomatch h
theorem Rebuilt.evc (ph : Phase) (die : Nat) (line : Nat) : Rebuilt.Statement (.evc ph die line) := fun _ _ h => nomatch h
theorem Rebuilt.snpinv (die : Nat) (line : Nat) : Rebuilt.Statement (.snpinv die line) := fun _ _ h => nomatch h
theorem Rebuilt.snpfwd (die : Nat) (line : Nat) : Rebuilt.Statement (.snpfwd die line) := fun _ _ h => nomatch h
theorem Rebuilt.snpfwdx (die : Nat) (line : Nat) : Rebuilt.Statement (.snpfwdx die line) := fun _ _ h => nomatch h
theorem Rebuilt.ackinv (ph : Phase) (die : Nat) (line : Nat) : Rebuilt.Statement (.ackinv ph die line) := fun _ _ h => nomatch h
theorem Rebuilt.rspd (ph : Phase) (die : Nat) (line : Nat) : Rebuilt.Statement (.rspd ph die line) := fun _ _ h => nomatch h
theorem Rebuilt.rspi (ph : Phase) (die : Nat) (line : Nat) : Rebuilt.Statement (.rspi ph die line) := fun _ _ h => nomatch h
theorem Rebuilt.dats (die : Nat) (line : Nat) : Rebuilt.Statement (.dats die line) := fun _ _ h => nomatch h
theorem Rebuilt.date (die : Nat) (line : Nat) : Rebuilt.Statement (.date die line) := fun _ _ h => nomatch h
theorem Rebuilt.datm (die : Nat) (line : Nat) : Rebuilt.Statement (.datm die line) := fun _ _ h => nomatch h
theorem Rebuilt.grant (die : Nat) (line : Nat) : Rebuilt.Statement (.grant die line) := fun _ _ h => nomatch h
theorem Rebuilt.wback (die : Nat) (line : Nat) : Rebuilt.Statement (.wback die line) := fun _ _ h => nomatch h
theorem Rebuilt.backInvalidate (line : Nat) : Rebuilt.Statement (.backInvalidate line) := fun _ _ h => nomatch h
theorem Rebuilt.hostSnoop (ph : Phase) (line : Nat) (inv : Bool) : Rebuilt.Statement (.hostSnoop ph line inv) := fun _ _ h => nomatch h
theorem Rebuilt.hostAccess (ph : Phase) (acc : HostAcc) : Rebuilt.Statement (.hostAccess ph acc) := fun _ _ h => nomatch h
theorem Rebuilt.hostBarAccess (fn : Nat) (ctl : Bool) (acc : HostAcc) : Rebuilt.Statement (.hostBarAccess fn ctl acc) := fun _ _ h => nomatch h
theorem Rebuilt.postedWriteAck (write : Nat) : Rebuilt.Statement (.postedWriteAck write) := fun _ _ h => nomatch h
theorem Rebuilt.flushDone (warp : Nat) : Rebuilt.Statement (.flushDone warp) := fun _ _ h => nomatch h
theorem Rebuilt.recordRefetch (asd : Nat) (node : Nat) (record : Nat) : Rebuilt.Statement (.recordRefetch asd node record) := fun _ _ h => nomatch h
theorem Rebuilt.groupForm (asd : Nat) (node : Nat) : Rebuilt.Statement (.groupForm asd node) := fun _ _ h => nomatch h
theorem Rebuilt.coalesceTimeout (asd : Nat) (node : Nat) : Rebuilt.Statement (.coalesceTimeout asd node) := fun _ _ h => nomatch h
theorem Rebuilt.dispatch (inst : Nat) : Rebuilt.Statement (.dispatch inst) := fun _ _ h => nomatch h
theorem Rebuilt.admitTeam (core : Nat) : Rebuilt.Statement (.admitTeam core) := fun _ _ h => nomatch h
theorem Rebuilt.teamRetire (team : Nat) : Rebuilt.Statement (.teamRetire team) := fun _ _ h => nomatch h
theorem Rebuilt.instanceComplete (inst : Nat) : Rebuilt.Statement (.instanceComplete inst) := fun _ _ h => nomatch h
theorem Rebuilt.preemptRequest (inst : Nat) : Rebuilt.Statement (.preemptRequest inst) := fun _ _ h => nomatch h
theorem Rebuilt.warpSave (warp : Nat) : Rebuilt.Statement (.warpSave warp) := fun _ _ h => nomatch h
theorem Rebuilt.warpResume (warp : Nat) (core : Nat) : Rebuilt.Statement (.warpResume warp core) := fun _ _ h => nomatch h
theorem Rebuilt.quantumExpiry (inst : Nat) : Rebuilt.Statement (.quantumExpiry inst) := fun _ _ h => nomatch h
theorem Rebuilt.parkYield (inst : Nat) : Rebuilt.Statement (.parkYield inst) := fun _ _ h => nomatch h
theorem Rebuilt.reclaimRoot : Rebuilt.Statement (.reclaimRoot) := fun _ _ h => nomatch h
theorem Rebuilt.correctedError (log : Nat) (addr : Nat) (unit : ErrUnit) (tenant : Nat) : Rebuilt.Statement (.correctedError log addr unit tenant) := fun _ _ h => nomatch h
theorem Rebuilt.uncorrectableError (site : ErrSite) : Rebuilt.Statement (.uncorrectableError site) := fun _ _ h => nomatch h
theorem Rebuilt.dirEntryError (ph : Phase) (line : Nat) : Rebuilt.Statement (.dirEntryError ph line) := fun _ _ h => nomatch h
theorem Rebuilt.hostLinkDown : Rebuilt.Statement (.hostLinkDown) := fun _ _ h => nomatch h
theorem Rebuilt.ideIntegrityFailure (stream : Nat) : Rebuilt.Statement (.ideIntegrityFailure stream) := fun _ _ h => nomatch h
theorem Rebuilt.linkRecover : Rebuilt.Statement (.linkRecover) := fun _ _ h => nomatch h
theorem Rebuilt.replay (refused : List Nat) : Rebuilt.Statement (.replay refused) := fun _ _ h => nomatch h
theorem Rebuilt.disc : Rebuilt.Statement (.disc) := fun _ _ h => nomatch h
theorem Rebuilt.cold (cause : ResetCause) : Rebuilt.Statement (.cold cause) := fun _ _ h => nomatch h
theorem Rebuilt.warm (cause : ResetCause) : Rebuilt.Statement (.warm cause) := fun _ _ h => nomatch h
theorem Rebuilt.bootStage (fw : Firmware) (absent : Absent) : Rebuilt.Statement (.bootStage fw absent) := fun _ _ h => nomatch h
theorem Rebuilt.thermalTrip (stack : Nat) : Rebuilt.Statement (.thermalTrip stack) := fun _ _ h => nomatch h
theorem Rebuilt.thermalThrottle (block : BlockOver) : Rebuilt.Statement (.thermalThrottle block) := fun _ _ h => nomatch h
theorem Rebuilt.throttleRelease (block : BlockBack) : Rebuilt.Statement (.throttleRelease block) := fun _ _ h => nomatch h
theorem Rebuilt.getVersion : Rebuilt.Statement (.getVersion) := fun _ _ h => nomatch h
theorem Rebuilt.getCapabilities : Rebuilt.Statement (.getCapabilities) := fun _ _ h => nomatch h
theorem Rebuilt.negotiateAlgorithms (slhdsa : Bool) : Rebuilt.Statement (.negotiateAlgorithms slhdsa) := fun _ _ h => nomatch h
theorem Rebuilt.getDigests : Rebuilt.Statement (.getDigests) := fun _ _ h => nomatch h
theorem Rebuilt.getCertificate (slot : Nat) : Rebuilt.Statement (.getCertificate slot) := fun _ _ h => nomatch h
theorem Rebuilt.challenge (nonce : Nat) : Rebuilt.Statement (.challenge nonce) := fun _ _ h => nomatch h
theorem Rebuilt.getMeasurements (index : Nat) : Rebuilt.Statement (.getMeasurements index) := fun _ _ h => nomatch h
theorem Rebuilt.keyExchange (nonce : Nat) : Rebuilt.Statement (.keyExchange nonce) := fun _ _ h => nomatch h
theorem Rebuilt.finish (proof : Bool) : Rebuilt.Statement (.finish proof) := fun _ _ h => nomatch h
theorem Rebuilt.endSession : Rebuilt.Statement (.endSession) := fun _ _ h => nomatch h
theorem Rebuilt.ideKm (stream : Nat) (key : Nat) : Rebuilt.Statement (.ideKm stream key) := fun _ _ h => nomatch h
theorem Rebuilt.registerWrite (agent : Agent) (offset : Nat) (wide : Bool) (value : Option Double) : Rebuilt.Statement (.registerWrite agent offset wide value) := fun _ _ h => nomatch h
theorem Rebuilt.timeBaseTick : Rebuilt.Statement (.timeBaseTick) := fun _ _ h => nomatch h
theorem Rebuilt.peerAccess (acc : PeerAcc) : Rebuilt.Statement (.peerAccess acc) := fun _ _ h => nomatch h
theorem Rebuilt.backInvalidationResponse (line : Nat) : Rebuilt.Statement (.backInvalidationResponse line) := fun _ _ h => nomatch h
theorem Rebuilt.hostCacheResponse (line : Nat) (data : HostLine) : Rebuilt.Statement (.hostCacheResponse line data) := fun _ _ h => nomatch h
theorem Rebuilt.configurationAccess (fn : Nat) (acc : CfgAcc) : Rebuilt.Statement (.configurationAccess fn acc) := fun _ _ h => nomatch h
theorem Rebuilt.linkRetrain (unit : Nat) : Rebuilt.Statement (.linkRetrain unit) := fun _ _ h => nomatch h

/-! ## Registers are read and written by words, and words alone have an encoding -/

def Encoded.Statement (i : Instr) : Prop := (Machine.usesOf i).isSome = i.form.isSome

theorem Encoded.nop (f : OpB) : Encoded.Statement (.nop f) := rfl
theorem Encoded.bra (f : OpB) : Encoded.Statement (.bra f) := rfl
theorem Encoded.brx (f : OpB) : Encoded.Statement (.brx f) := rfl
theorem Encoded.rcv (f : OpB) : Encoded.Statement (.rcv f) := rfl
theorem Encoded.join (f : OpB) : Encoded.Statement (.join f) := rfl
theorem Encoded.loop (f : OpB) : Encoded.Statement (.loop f) := rfl
theorem Encoded.brk (f : OpB) : Encoded.Statement (.brk f) := rfl
theorem Encoded.next (f : OpB) : Encoded.Statement (.next f) := rfl
theorem Encoded.call (f : OpB) : Encoded.Statement (.call f) := rfl
theorem Encoded.callx (f : OpB) : Encoded.Statement (.callx f) := rfl
theorem Encoded.ret (f : OpB) : Encoded.Statement (.ret f) := rfl
theorem Encoded.exit (f : OpB) : Encoded.Statement (.exit f) := rfl
theorem Encoded.regang (f : OpB) : Encoded.Statement (.regang f) := rfl
theorem Encoded.safept (f : OpB) : Encoded.Statement (.safept f) := rfl
theorem Encoded.safeptRf (f : OpB) : Encoded.Statement (.safeptRf f) := rfl
theorem Encoded.yield (f : OpB) : Encoded.Statement (.yield f) := rfl
theorem Encoded.yieldExpiry (g : GangRef) : Encoded.Statement (.yieldExpiry g) := rfl
theorem Encoded.trap (f : OpB) : Encoded.Statement (.trap f) := rfl
theorem Encoded.bkpt (f : OpB) : Encoded.Statement (.bkpt f) := rfl
theorem Encoded.safePointOverdue (g : GangRef) : Encoded.Statement (.safePointOverdue g) := rfl
theorem Encoded.iadd (f : OpA) : Encoded.Statement (.iadd f) := rfl
theorem Encoded.isub (f : OpA) : Encoded.Statement (.isub f) := rfl
theorem Encoded.imul (f : OpA) : Encoded.Statement (.imul f) := rfl
theorem Encoded.imulh (f : OpA) : Encoded.Statement (.imulh f) := rfl
theorem Encoded.imad (f : OpA) : Encoded.Statement (.imad f) := rfl
theorem Encoded.imadw (f : OpA) : Encoded.Statement (.imadw f) := rfl
theorem Encoded.imin (f : OpA) : Encoded.Statement (.imin f) := rfl
theorem Encoded.imax (f : OpA) : Encoded.Statement (.imax f) := rfl
theorem Encoded.iabs (f : OpA) : Encoded.Statement (.iabs f) := rfl
theorem Encoded.andL (f : OpA) : Encoded.Statement (.andL f) := rfl
theorem Encoded.orL (f : OpA) : Encoded.Statement (.orL f) := rfl
theorem Encoded.xorL (f : OpA) : Encoded.Statement (.xorL f) := rfl
theorem Encoded.lop3 (f : OpA) : Encoded.Statement (.lop3 f) := rfl
theorem Encoded.shl (f : OpA) : Encoded.Statement (.shl f) := rfl
theorem Encoded.shr (f : OpA) : Encoded.Statement (.shr f) := rfl
theorem Encoded.sar (f : OpA) : Encoded.Statement (.sar f) := rfl
theorem Encoded.shf (f : OpA) : Encoded.Statement (.shf f) := rfl
theorem Encoded.popc (f : OpA) : Encoded.Statement (.popc f) := rfl
theorem Encoded.clz (f : OpA) : Encoded.Statement (.clz f) := rfl
theorem Encoded.ctz (f : OpA) : Encoded.Statement (.ctz f) := rfl
theorem Encoded.brev (f : OpA) : Encoded.Statement (.brev f) := rfl
theorem Encoded.bfx (f : OpA) : Encoded.Statement (.bfx f) := rfl
theorem Encoded.bfi (f : OpA) : Encoded.Statement (.bfi f) := rfl
theorem Encoded.sel (f : OpA) : Encoded.Statement (.sel f) := rfl
theorem Encoded.mov (f : OpA) : Encoded.Statement (.mov f) := rfl
theorem Encoded.movi (f : OpI) : Encoded.Statement (.movi f) := rfl
theorem Encoded.lea (f : OpA) : Encoded.Statement (.lea f) := rfl
theorem Encoded.idp4 (f : OpA) : Encoded.Statement (.idp4 f) := rfl
theorem Encoded.pmac2 (f : OpA) : Encoded.Statement (.pmac2 f) := rfl
theorem Encoded.sarn (f : OpA) : Encoded.Statement (.sarn f) := rfl
theorem Encoded.isat (f : OpA) : Encoded.Statement (.isat f) := rfl
theorem Encoded.rget (f : OpA) : Encoded.Statement (.rget f) := rfl
theorem Encoded.rput (f : OpA) : Encoded.Statement (.rput f) := rfl
theorem Encoded.isetp (f : OpA) : Encoded.Statement (.isetp f) := rfl
theorem Encoded.fsetp (f : OpA) : Encoded.Statement (.fsetp f) := rfl
theorem Encoded.plop (f : OpA) : Encoded.Statement (.plop f) := rfl
theorem Encoded.pmovGet (f : OpA) : Encoded.Statement (.pmovGet f) := rfl
theorem Encoded.pmovSet (f : OpA) : Encoded.Statement (.pmovSet f) := rfl
theorem Encoded.vote (f : OpA) : Encoded.Statement (.vote f) := rfl
theorem Encoded.shfl (f : OpA) : Encoded.Statement (.shfl f) := rfl
theorem Encoded.slide (f : OpA) : Encoded.Statement (.slide f) := rfl
theorem Encoded.redux (f : OpA) : Encoded.Statement (.redux f) := rfl
theorem Encoded.scan (f : OpA) : Encoded.Statement (.scan f) := rfl
theorem Encoded.matchL (f : OpA) : Encoded.Statement (.matchL f) := rfl
theorem Encoded.prmt (f : OpA) : Encoded.Statement (.prmt f) := rfl
theorem Encoded.fadd (f : OpA) : Encoded.Statement (.fadd f) := rfl
theorem Encoded.fsub (f : OpA) : Encoded.Statement (.fsub f) := rfl
theorem Encoded.fmul (f : OpA) : Encoded.Statement (.fmul f) := rfl
theorem Encoded.ffma (f : OpA) : Encoded.Statement (.ffma f) := rfl
theorem Encoded.fmin (f : OpA) : Encoded.Statement (.fmin f) := rfl
theorem Encoded.fmax (f : OpA) : Encoded.Statement (.fmax f) := rfl
theorem Encoded.frcp (f : OpA) : Encoded.Statement (.frcp f) := rfl
theorem Encoded.frsq (f : OpA) : Encoded.Statement (.frsq f) := rfl
theorem Encoded.fsqrt (f : OpA) : Encoded.Statement (.fsqrt f) := rfl
theorem Encoded.fexp2 (f : OpA) : Encoded.Statement (.fexp2 f) := rfl
theorem Encoded.flog2 (f : OpA) : Encoded.Statement (.flog2 f) := rfl
theorem Encoded.fclass (f : OpA) : Encoded.Statement (.fclass f) := rfl
theorem Encoded.fscale (f : OpA) : Encoded.Statement (.fscale f) := rfl
theorem Encoded.frnd (f : OpA) : Encoded.Statement (.frnd f) := rfl
theorem Encoded.hadd2 (f : OpA) : Encoded.Statement (.hadd2 f) := rfl
theorem Encoded.hmul2 (f : OpA) : Encoded.Statement (.hmul2 f) := rfl
theorem Encoded.hfma2 (f : OpA) : Encoded.Statement (.hfma2 f) := rfl
theorem Encoded.hmin2 (f : OpA) : Encoded.Statement (.hmin2 f) := rfl
theorem Encoded.hmax2 (f : OpA) : Encoded.Statement (.hmax2 f) := rfl
theorem Encoded.fdot2 (f : OpA) : Encoded.Statement (.fdot2 f) := rfl
theorem Encoded.cvt (f : OpA) : Encoded.Statement (.cvt f) := rfl
theorem Encoded.fcvt (f : OpA) : Encoded.Statement (.fcvt f) := rfl
theorem Encoded.pk2 (f : OpA) : Encoded.Statement (.pk2 f) := rfl
theorem Encoded.upk2 (f : OpA) : Encoded.Statement (.upk2 f) := rfl
theorem Encoded.e10enc (f : OpA) : Encoded.Statement (.e10enc f) := rfl
theorem Encoded.e10dec (f : OpA) : Encoded.Statement (.e10dec f) := rfl
theorem Encoded.rnsenc (f : OpA) : Encoded.Statement (.rnsenc f) := rfl
theorem Encoded.rnsdec (f : OpA) : Encoded.Statement (.rnsdec f) := rfl
theorem Encoded.qnt (f : OpA) : Encoded.Statement (.qnt f) := rfl
theorem Encoded.dqnt (f : OpA) : Encoded.Statement (.dqnt f) := rfl
theorem Encoded.ld (f : OpM) : Encoded.Statement (.ld f) := rfl
theorem Encoded.st (f : OpM) : Encoded.Statement (.st f) := rfl
theorem Encoded.prf (f : OpM) : Encoded.Statement (.prf f) := rfl
theorem Encoded.fence (f : OpM) : Encoded.Statement (.fence f) := rfl
theorem Encoded.cctlInv (f : OpM) : Encoded.Statement (.cctlInv f) := rfl
theorem Encoded.cctlWb (f : OpM) : Encoded.Statement (.cctlWb f) := rfl
theorem Encoded.cctlWbinv (f : OpM) : Encoded.Statement (.cctlWbinv f) := rfl
theorem Encoded.cctlZero (f : OpM) : Encoded.Statement (.cctlZero f) := rfl
theorem Encoded.cctlInvall (f : OpM) : Encoded.Statement (.cctlInvall f) := rfl
theorem Encoded.atom (f : OpM) : Encoded.Statement (.atom f) := rfl
theorem Encoded.cas (f : OpM) : Encoded.Statement (.cas f) := rfl
theorem Encoded.red (f : OpM) : Encoded.Statement (.red f) := rfl
theorem Encoded.bupd (f : OpM) : Encoded.Statement (.bupd f) := rfl
theorem Encoded.binit (f : OpM) : Encoded.Statement (.binit f) := rfl
theorem Encoded.barv (f : OpM) : Encoded.Statement (.barv f) := rfl
theorem Encoded.bwait (f : OpM) : Encoded.Statement (.bwait f) := rfl
theorem Encoded.barw (f : OpM) : Encoded.Statement (.barw f) := rfl
theorem Encoded.bexp (f : OpM) : Encoded.Statement (.bexp f) := rfl
theorem Encoded.waita (f : OpM) : Encoded.Statement (.waita f) := rfl
theorem Encoded.waitaDeadline (stack : Nat) (entry : Nat) : Encoded.Statement (.waitaDeadline stack entry) := rfl
theorem Encoded.cpy (f : OpT) : Encoded.Statement (.cpy f) := rfl
theorem Encoded.cpyt (f : OpT) : Encoded.Statement (.cpyt f) := rfl
theorem Encoded.cpyg (f : OpT) : Encoded.Statement (.cpyg f) := rfl
theorem Encoded.cpys (f : OpT) : Encoded.Statement (.cpys f) := rfl
theorem Encoded.cpyr (f : OpT) : Encoded.Statement (.cpyr f) := rfl
theorem Encoded.cpyx (f : OpT) : Encoded.Statement (.cpyx f) := rfl
theorem Encoded.cpyq (f : OpT) : Encoded.Statement (.cpyq f) := rfl
theorem Encoded.cpyc (f : OpT) : Encoded.Statement (.cpyc f) := rfl
theorem Encoded.osld (f : OpT) : Encoded.Statement (.osld f) := rfl
theorem Encoded.engineStart (op : Nat) : Encoded.Statement (.engineStart op) := rfl
theorem Encoded.copyElement (op : Nat) : Encoded.Statement (.copyElement op) := rfl
theorem Encoded.tokenWrite (op : Nat) : Encoded.Statement (.tokenWrite op) := rfl
theorem Encoded.byteAddition (op : Nat) : Encoded.Statement (.byteAddition op) := rfl
theorem Encoded.cpyxFollowOn (op : Nat) : Encoded.Statement (.cpyxFollowOn op) := rfl
theorem Encoded.mma (f : OpT) : Encoded.Statement (.mma f) := rfl
theorem Encoded.mmag (f : OpT) : Encoded.Statement (.mmag f) := rfl
theorem Encoded.tzero (f : OpT) : Encoded.Statement (.tzero f) := rfl
theorem Encoded.tqnt (f : OpT) : Encoded.Statement (.tqnt f) := rfl
theorem Encoded.tdq (f : OpT) : Encoded.Statement (.tdq f) := rfl
theorem Encoded.tcrt (f : OpT) : Encoded.Statement (.tcrt f) := rfl
theorem Encoded.ttrn (f : OpT) : Encoded.Statement (.ttrn f) := rfl
theorem Encoded.tstat (f : OpT) : Encoded.Statement (.tstat f) := rfl
theorem Encoded.sequencerStart (core : Nat) : Encoded.Statement (.sequencerStart core) := rfl
theorem Encoded.tileStep (core : Nat) : Encoded.Statement (.tileStep core) := rfl
theorem Encoded.tileStop (core : Nat) : Encoded.Statement (.tileStop core) := rfl
theorem Encoded.tileResume (core : Nat) : Encoded.Statement (.tileResume core) := rfl
theorem Encoded.kvx (f : OpT) : Encoded.Statement (.kvx f) := rfl
theorem Encoded.kvvalSet (f : OpT) : Encoded.Statement (.kvvalSet f) := rfl
theorem Encoded.kvvalClr (f : OpT) : Encoded.Statement (.kvvalClr f) := rfl
theorem Encoded.kvrcl (f : OpT) : Encoded.Statement (.kvrcl f) := rfl
theorem Encoded.skchSlot (f : OpT) : Encoded.Statement (.skchSlot f) := rfl
theorem Encoded.skchVec (f : OpT) : Encoded.Statement (.skchVec f) := rfl
theorem Encoded.attn (f : OpT) : Encoded.Statement (.attn f) := rfl
theorem Encoded.attnq (f : OpT) : Encoded.Statement (.attnq f) := rfl
theorem Encoded.sploop (f : OpB) : Encoded.Statement (.sploop f) := rfl
theorem Encoded.spput (f : OpB) : Encoded.Statement (.spput f) := rfl
theorem Encoded.spacc (f : OpB) : Encoded.Statement (.spacc f) := rfl
theorem Encoded.spnext (f : OpB) : Encoded.Statement (.spnext f) := rfl
theorem Encoded.spend (f : OpB) : Encoded.Statement (.spend f) := rfl
theorem Encoded.spq (f : OpB) : Encoded.Statement (.spq f) := rfl
theorem Encoded.wayKeep (warp : Nat) : Encoded.Statement (.wayKeep warp) := rfl
theorem Encoded.atomb (f : OpB) : Encoded.Statement (.atomb f) := rfl
theorem Encoded.atome (f : OpB) : Encoded.Statement (.atome f) := rfl
theorem Encoded.atoma (f : OpB) : Encoded.Statement (.atoma f) := rfl
theorem Encoded.atomq (f : OpB) : Encoded.Statement (.atomq f) := rfl
theorem Encoded.commit (die : Nat) : Encoded.Statement (.commit die) := rfl
theorem Encoded.conflictNotice (die : Nat) (line : Nat) : Encoded.Statement (.conflictNotice die line) := rfl
theorem Encoded.rootsw (f : OpM) : Encoded.Statement (.rootsw f) := rfl
theorem Encoded.rootcpFork (f : OpM) : Encoded.Statement (.rootcpFork f) := rfl
theorem Encoded.rootcpSnap (f : OpM) : Encoded.Statement (.rootcpSnap f) := rfl
theorem Encoded.rootcpDrop (f : OpM) : Encoded.Statement (.rootcpDrop f) := rfl
theorem Encoded.rfrsh (f : OpM) : Encoded.Statement (.rfrsh f) := rfl
theorem Encoded.tnode (f : OpM) : Encoded.Statement (.tnode f) := rfl
theorem Encoded.pgmapFt (f : OpM) : Encoded.Statement (.pgmapFt f) := rfl
theorem Encoded.pgmapCow (f : OpM) : Encoded.Statement (.pgmapCow f) := rfl
theorem Encoded.tret (f : OpM) : Encoded.Statement (.tret f) := rfl
theorem Encoded.tretKill (f : OpM) : Encoded.Statement (.tretKill f) := rfl
theorem Encoded.csrr (f : OpM) : Encoded.Statement (.csrr f) := rfl
theorem Encoded.csrw (f : OpM) : Encoded.Statement (.csrw f) := rfl
theorem Encoded.fltq (f : OpM) : Encoded.Statement (.fltq f) := rfl
theorem Encoded.pgreq (f : OpM) : Encoded.Statement (.pgreq f) := rfl
theorem Encoded.pageResponse (group : Nat) (code : Nat) : Encoded.Statement (.pageResponse group code) := rfl
theorem Encoded.faultReply (tenant : Nat) (entry : Nat) (reply : Word) : Encoded.Statement (.faultReply tenant entry reply) := rfl
theorem Encoded.launch (f : OpT) : Encoded.Statement (.launch f) := rfl
theorem Encoded.emit (f : OpT) : Encoded.Statement (.emit f) := rfl
theorem Encoded.ndone (f : OpT) : Encoded.Statement (.ndone f) := rfl
theorem Encoded.slotw (f : OpT) : Encoded.Statement (.slotw f) := rfl
theorem Encoded.prmptStop (f : OpT) : Encoded.Statement (.prmptStop f) := rfl
theorem Encoded.prmptEvict (f : OpT) : Encoded.Statement (.prmptEvict f) := rfl
theorem Encoded.slotTableSwap (swap : SlotSwap) : Encoded.Statement (.slotTableSwap swap) := rfl
theorem Encoded.issueCycle (core : Nat) : Encoded.Statement (.issueCycle core) := rfl
theorem Encoded.gangWake (warp : Nat) : Encoded.Statement (.gangWake warp) := rfl
theorem Encoded.fetch (load : Nat) (line : Nat) : Encoded.Statement (.fetch load line) := rfl
theorem Encoded.leaseExpiry (core : Nat) (line : Nat) : Encoded.Statement (.leaseExpiry core line) := rfl
theorem Encoded.writePerform (write : Nat) : Encoded.Statement (.writePerform write) := rfl
theorem Encoded.writeAck (write : Nat) : Encoded.Statement (.writeAck write) := rfl
theorem Encoded.releaseIssue (held : Nat) : Encoded.Statement (.releaseIssue held) := rfl
theorem Encoded.loadReturn (load : Nat) : Encoded.Statement (.loadReturn load) := rfl
theorem Encoded.rds (ph : Phase) (die : Nat) (line : Nat) : Encoded.Statement (.rds ph die line) := rfl
theorem Encoded.rdx (ph : Phase) (die : Nat) (line : Nat) : Encoded.Statement (.rdx ph die line) := rfl
theorem Encoded.upg (ph : Phase) (die : Nat) (line : Nat) : Encoded.Statement (.upg ph die line) := rfl
theorem Encoded.wbd (ph : Phase) (die : Nat) (line : Nat) : Encoded.Statement (.wbd ph die line) := rfl
theorem Encoded.evc (ph : Phase) (die : Nat) (line : Nat) : Encoded.Statement (.evc ph die line) := rfl
theorem Encoded.snpinv (die : Nat) (line : Nat) : Encoded.Statement (.snpinv die line) := rfl
theorem Encoded.snpfwd (die : Nat) (line : Nat) : Encoded.Statement (.snpfwd die line) := rfl
theorem Encoded.snpfwdx (die : Nat) (line : Nat) : Encoded.Statement (.snpfwdx die line) := rfl
theorem Encoded.ackinv (ph : Phase) (die : Nat) (line : Nat) : Encoded.Statement (.ackinv ph die line) := rfl
theorem Encoded.rspd (ph : Phase) (die : Nat) (line : Nat) : Encoded.Statement (.rspd ph die line) := rfl
theorem Encoded.rspi (ph : Phase) (die : Nat) (line : Nat) : Encoded.Statement (.rspi ph die line) := rfl
theorem Encoded.dats (die : Nat) (line : Nat) : Encoded.Statement (.dats die line) := rfl
theorem Encoded.date (die : Nat) (line : Nat) : Encoded.Statement (.date die line) := rfl
theorem Encoded.datm (die : Nat) (line : Nat) : Encoded.Statement (.datm die line) := rfl
theorem Encoded.grant (die : Nat) (line : Nat) : Encoded.Statement (.grant die line) := rfl
theorem Encoded.wback (die : Nat) (line : Nat) : Encoded.Statement (.wback die line) := rfl
theorem Encoded.backInvalidate (line : Nat) : Encoded.Statement (.backInvalidate line) := rfl
theorem Encoded.hostSnoop (ph : Phase) (line : Nat) (inv : Bool) : Encoded.Statement (.hostSnoop ph line inv) := rfl
theorem Encoded.hostAccess (ph : Phase) (acc : HostAcc) : Encoded.Statement (.hostAccess ph acc) := rfl
theorem Encoded.hostBarAccess (fn : Nat) (ctl : Bool) (acc : HostAcc) : Encoded.Statement (.hostBarAccess fn ctl acc) := rfl
theorem Encoded.postedWriteAck (write : Nat) : Encoded.Statement (.postedWriteAck write) := rfl
theorem Encoded.flushDone (warp : Nat) : Encoded.Statement (.flushDone warp) := rfl
theorem Encoded.recordRefetch (asd : Nat) (node : Nat) (record : Nat) : Encoded.Statement (.recordRefetch asd node record) := rfl
theorem Encoded.groupForm (asd : Nat) (node : Nat) : Encoded.Statement (.groupForm asd node) := rfl
theorem Encoded.coalesceTimeout (asd : Nat) (node : Nat) : Encoded.Statement (.coalesceTimeout asd node) := rfl
theorem Encoded.dispatch (inst : Nat) : Encoded.Statement (.dispatch inst) := rfl
theorem Encoded.admitTeam (core : Nat) : Encoded.Statement (.admitTeam core) := rfl
theorem Encoded.teamRetire (team : Nat) : Encoded.Statement (.teamRetire team) := rfl
theorem Encoded.instanceComplete (inst : Nat) : Encoded.Statement (.instanceComplete inst) := rfl
theorem Encoded.preemptRequest (inst : Nat) : Encoded.Statement (.preemptRequest inst) := rfl
theorem Encoded.warpSave (warp : Nat) : Encoded.Statement (.warpSave warp) := rfl
theorem Encoded.warpResume (warp : Nat) (core : Nat) : Encoded.Statement (.warpResume warp core) := rfl
theorem Encoded.quantumExpiry (inst : Nat) : Encoded.Statement (.quantumExpiry inst) := rfl
theorem Encoded.parkYield (inst : Nat) : Encoded.Statement (.parkYield inst) := rfl
theorem Encoded.reclaimRoot : Encoded.Statement (.reclaimRoot) := rfl
theorem Encoded.correctedError (log : Nat) (addr : Nat) (unit : ErrUnit) (tenant : Nat) : Encoded.Statement (.correctedError log addr unit tenant) := rfl
theorem Encoded.uncorrectableError (site : ErrSite) : Encoded.Statement (.uncorrectableError site) := rfl
theorem Encoded.dirEntryError (ph : Phase) (line : Nat) : Encoded.Statement (.dirEntryError ph line) := rfl
theorem Encoded.hostLinkDown : Encoded.Statement (.hostLinkDown) := rfl
theorem Encoded.ideIntegrityFailure (stream : Nat) : Encoded.Statement (.ideIntegrityFailure stream) := rfl
theorem Encoded.linkRecover : Encoded.Statement (.linkRecover) := rfl
theorem Encoded.replay (refused : List Nat) : Encoded.Statement (.replay refused) := rfl
theorem Encoded.disc : Encoded.Statement (.disc) := rfl
theorem Encoded.cold (cause : ResetCause) : Encoded.Statement (.cold cause) := rfl
theorem Encoded.warm (cause : ResetCause) : Encoded.Statement (.warm cause) := rfl
theorem Encoded.bootStage (fw : Firmware) (absent : Absent) : Encoded.Statement (.bootStage fw absent) := rfl
theorem Encoded.thermalTrip (stack : Nat) : Encoded.Statement (.thermalTrip stack) := rfl
theorem Encoded.thermalThrottle (block : BlockOver) : Encoded.Statement (.thermalThrottle block) := rfl
theorem Encoded.throttleRelease (block : BlockBack) : Encoded.Statement (.throttleRelease block) := rfl
theorem Encoded.getVersion : Encoded.Statement (.getVersion) := rfl
theorem Encoded.getCapabilities : Encoded.Statement (.getCapabilities) := rfl
theorem Encoded.negotiateAlgorithms (slhdsa : Bool) : Encoded.Statement (.negotiateAlgorithms slhdsa) := rfl
theorem Encoded.getDigests : Encoded.Statement (.getDigests) := rfl
theorem Encoded.getCertificate (slot : Nat) : Encoded.Statement (.getCertificate slot) := rfl
theorem Encoded.challenge (nonce : Nat) : Encoded.Statement (.challenge nonce) := rfl
theorem Encoded.getMeasurements (index : Nat) : Encoded.Statement (.getMeasurements index) := rfl
theorem Encoded.keyExchange (nonce : Nat) : Encoded.Statement (.keyExchange nonce) := rfl
theorem Encoded.finish (proof : Bool) : Encoded.Statement (.finish proof) := rfl
theorem Encoded.endSession : Encoded.Statement (.endSession) := rfl
theorem Encoded.ideKm (stream : Nat) (key : Nat) : Encoded.Statement (.ideKm stream key) := rfl
theorem Encoded.registerWrite (agent : Agent) (offset : Nat) (wide : Bool) (value : Option Double) : Encoded.Statement (.registerWrite agent offset wide value) := rfl
theorem Encoded.timeBaseTick : Encoded.Statement (.timeBaseTick) := rfl
theorem Encoded.peerAccess (acc : PeerAcc) : Encoded.Statement (.peerAccess acc) := rfl
theorem Encoded.backInvalidationResponse (line : Nat) : Encoded.Statement (.backInvalidationResponse line) := rfl
theorem Encoded.hostCacheResponse (line : Nat) (data : HostLine) : Encoded.Statement (.hostCacheResponse line data) := rfl
theorem Encoded.configurationAccess (fn : Nat) (acc : CfgAcc) : Encoded.Statement (.configurationAccess fn acc) := rfl
theorem Encoded.linkRetrain (unit : Nat) : Encoded.Statement (.linkRetrain unit) := rfl

end Sys2Proof.Laws
end

