-- ==== Sys2Proof/Laws/Values.lean ====
section
/-! SUPPORT. Operands and integer results as bit vectors. -/

namespace Sys2Proof.Machine
open Sys2Proof.Safety

/-! ## Operands read alike before and after counting -/

section
variable {s b : State} (h : State.Alike s b) (f : OpA) (l : Nat)
include h
theorem tA_alike : tA f b l = tA f s l := h.src ..
theorem tB_alike : tB f b l = tB f s l := h.src ..
theorem tC_alike : tC f b l = tC f s l := h.src ..
theorem nA_alike : nA f b l = nA f s l := by unfold nA; rw [h.src32]
theorem nB_alike : nB f b l = nB f s l := by unfold nB; rw [h.src32]
theorem nC_alike : nC f b l = nC f s l := by unfold nC; rw [h.src32]
theorem fA_alike : fA f b l = fA f s l := by unfold fA; rw [tA_alike h]
theorem fB_alike : fB f b l = fB f s l := by unfold fB; rw [tB_alike h]
theorem fC_alike : fC f b l = fC f s l := by unfold fC; rw [tC_alike h]
theorem participants_alike : participants f b = participants f s := by
  unfold participants; rw [h.active, h.executing]
end

/-! ## Integers -/

theorem signedOf_toInt {w : Nat} (x : BitVec w) : signedOf w x.toNat = x.toInt := by
  unfold signedOf
  rw [Nat.mod_eq_of_lt x.isLt, BitVec.toInt]
  cases w with
  | zero => have := x.isLt; simp at this; simp [this]
  | succ n => simp only [Nat.add_sub_cancel]; split <;> split <;> simp_all [Nat.pow_succ] <;> omega

theorem valOf_signed {w : Nat} (x : BitVec w) : valOf w true x.toNat = x.toInt := by
  simp [valOf, signedOf_toInt]

theorem valOf_unsigned {w : Nat} (x : BitVec w) : valOf w false x.toNat = x.toNat := by
  simp [valOf, Nat.mod_eq_of_lt x.isLt]

theorem ofBits_bitsInt (n : Int) : ofBits (bitsInt 64 n) = BitVec.ofInt 64 n := by
  apply BitVec.eq_of_toNat_eq
  simp [ofBits, bitsInt]
  omega

/-- A source in a position of an integer type is the pair or the word. -/
theorem src_int {t : Ty} (s : State) (l : Nat) (x : Src) (ht : t.int = true) :
    s.src l t x = if t.wide then s.src64 l x else (s.src32 l x).setWidth 64 := by
  cases t <;> simp only [Ty.int, Bool.false_eq_true] at ht <;>
    cases x <;> simp only [State.src64, State.src32, State.src, Ty.wide, immBits, if_true, Bool.false_eq_true, if_false] <;>
    first
    | rfl
    | (simp; done)
    | (split <;> rfl)
    | (apply BitVec.eq_of_toNat_eq; simp; omega)

end Sys2Proof.Machine
end

