-- ==== Sys2Proof/Tests/Slice0.lean ====
section
/-! SUPPORT. Tests: ill-formed words are refused, the spec's words decode, and every statement's hypotheses are met
somewhere. -/

set_option Elab.async false

namespace Sys2Proof.Tests
open Sys2Proof.Machine Sys2Proof.Safety

/-! ## Small states -/

/-- A part that has booted a microsecond ago, whose one warp of 32 lanes issues its next word. -/
def s1 : State := { State.reset with clk := { time := 1000 } }.withFetchWord 96 0

/-- The same with its warp changed. -/
def warped (f : Warp → Warp) : State := s1.updWarp 0 f

/-- The same warp with lane 0 alone left. -/
def solo : State := warped (fun w => { w with arch := { w.arch with
  slices := { pc := 0x200040, mask := 1, fin := false } :: List.replicate 7 { pc := 0x200040, mask := 0, fin := true }
  gangs := [{ slices := 1 }] } })

/-- `Ready`, computed. -/
def readyB (i : Instr) (s : State) : Bool :=
  i.wf && (s.warps.find s.who.warp).isSome && (match usesOf i with
    | none => false
    | some u => s.doesWork u.com && (s.member || (!s.busyReg s.active (guardReg u.com) && !s.overBound u && !s.waits? u &&
        !s.poisoned u (s.workLanes u.com))))

theorem ready_of {i : Instr} {s : State} (h : readyB i s = true) : Ready i s := by
  unfold readyB at h
  simp only [Bool.and_eq_true] at h
  obtain ⟨⟨h1, h2⟩, h3⟩ := h
  refine ⟨h1, h2, ?_⟩
  split at h3
  · contradiction
  · rename_i u e
    simp only [Bool.and_eq_true, Bool.or_eq_true, Bool.not_eq_true'] at h3
    obtain ⟨h3, h4⟩ := h3
    exact ⟨u, e, h3, h4.imp id fun ⟨⟨⟨a, b⟩, c⟩, d⟩ => ⟨a, b, c, d⟩⟩

theorem ready_all {l : List Instr} {s : State} (h : l.all (readyB · s) = true) : ∀ i ∈ l, Ready i s :=
  fun i hi => ready_of (List.all_eq_true.mp h i hi)

/-- A register word with the operands that its roles ask for. -/
def aWord (c : OpA → Instr) (ty : Ty) (x : Nat) (u : Bool := false) : Instr :=
  let f : OpA := ⟨⟨u, 0, false⟩, false, 0, 0, .v 0, .v 0, .v 0, .v 0, ty, .rn, BitVec.ofNat 11 x⟩
  match (c f).roleA with
  | none => c f
  | some (_, r) =>
    let src (t : Option Ty) (n : Nat) : Src :=
      if t.isNone then .v 0 else if u then .g (Fin.ofNat 64 n) else .v (Fin.ofNat 512 n)
    let d : Dst := if r.d.isNone then .v 0 else if u then .g 8 else .v 8
    c { f with dst := d, a := src r.a 2, b := src r.b 4, c := src r.c 6 }

/-- The lanes of a warp, and a group: common fields of an unguarded word. -/
def sure : Common := ⟨false, 0, false⟩
def group : Common := ⟨true, 0, false⟩

theorem witness_IntegerArithmeticCompletes : ∀ i ∈ [
    aWord .iadd .s32 0, aWord .iadd .s8x4 1, aWord .isub .u64 1, aWord .imul .u16x2 0, aWord .imulh .s64 0, aWord .imad .u32 1,
    aWord .imadw .s32 0, aWord .imadw .u32 0, aWord .imin .s64 0, aWord .imax .u8x4 0, aWord .iabs .s16x2 1,
    aWord .iadd .s64 0 true], Ready i s1 := ready_all (by decide +kernel)


theorem witness_LogicAndShiftsComplete : ∀ i ∈ [
    aWord .andL .u32 0, aWord .orL .u64 0, aWord .xorL .s16x2 0, aWord .lop3 .u64 255, aWord .shl .s64 0, aWord .shr .u32 0,
    aWord .sar .s64 0, aWord .shf .u32 0, aWord .shf .u32 1, aWord .shf .u32 2, aWord .shf .u32 3, aWord .andL .u64 0 true],
    Ready i s1 := ready_all (by decide +kernel)

theorem witness_FieldsAndMovesComplete : ∀ i ∈ [
    aWord .popc .u64 0, aWord .clz .u32 0, aWord .ctz .s64 0, aWord .brev .u64 0, aWord .bfx .s64 64, aWord .bfx .u64 0,
    aWord .bfx .s32 32, aWord .bfx .u32 1, aWord .bfi .u64 64, aWord .bfi .u32 32, aWord .sel .u64 0, aWord .mov .s8x4 0,
    aWord .lea .s32 7, aWord .lea .u32 0, aWord .lea .u64 3, .movi ⟨sure, false, 0, 0, .v 8, .v 0, .v 0, 0x80000000, .s64, 0⟩,
    .movi ⟨group, false, 0, 0, .g 6, .v 0, .v 0, 0xFE000000, .u64, 0⟩], Ready i s1 := ready_all (by decide +kernel)

theorem witness_NarrowArithmeticCompletes : ∀ i ∈ [
    aWord .idp4 .s8x4 0, aWord .idp4 .u8x4 3, aWord .pmac2 .s16x2 0, aWord .pmac2 .u16x2 0, aWord .sarn .s32 0,
    aWord .sarn .s64 127, aWord .isat .u64 127, aWord .isat .s32 0, aWord .isat .s64 63, aWord .idp4 .u8x4 2 true,
    aWord .pmac2 .u16x2 0 true, aWord .sarn .s64 1 true, aWord .isat .u32 31 true], Ready i s1 := ready_all (by decide +kernel)

theorem witness_PredicatesComplete : ∀ i ∈ [
    aWord .isetp .s64 5, aWord .isetp .u32 28, aWord .fsetp .f32 7, aWord .fsetp .bf16 0, aWord .plop .s32 255,
    aWord .pmovGet .s32 0, aWord .pmovSet .s32 255, aWord .pmovSet .s32 1 true], Ready i s1 := ready_all (by decide +kernel)

theorem witness_CrossLaneCompletes : ∀ i ∈ [
    aWord .vote .s32 0, aWord .vote .s32 1, aWord .vote .s32 2, aWord .vote .s32 3 true, aWord .shfl .u64 0, aWord .shfl .s32 21,
    aWord .shfl .u32 22, aWord .shfl .u32 3, .slide ⟨sure, false, 0, 0, .v 8, .v 2, .g 4, .v 6, .s32, .rn, 0⟩,
    .slide ⟨sure, false, 0, 0, .v 8, .v 2, .imm 31, .v 6, .s64, .rn, 1⟩, aWord .redux .u64 5, aWord .redux .s32 8,
    aWord .scan .s64 16, aWord .matchL .u64 0, aWord .matchL .u32 1, aWord .prmt .s32 0], Ready i s1 :=
  ready_all (by decide +kernel)

theorem witness_LeaAddsAScaledIndex : ∀ i ∈ [aWord .lea .s32 0, aWord .lea .u32 7, aWord .lea .s64 1, aWord .lea .u64 7 true],
    Ready i s1 := ready_all (by decide +kernel)

/-- The base that R99's example adds to: g4 and g5. -/
theorem witness_LeaAddsAScaledIndex_example :
    let s := warped (fun w => { w with arch := { w.arch with g := [(5, 0xFE000000)] } })
    Ready (.lea ⟨sure, false, 0, 0, .v 6, .g 4, .special 0, .v 0, .u32, .rn, 2⟩) s ∧ greg s 4 = 0 ∧ greg s 5 = 0xFE000000 ∧
      s.active.getLsbD 5 = true := ⟨ready_of (by decide +kernel), by decide +kernel⟩

theorem witness_FloatArithmeticCompletes : ∀ i ∈ [
    aWord .fadd .f32 0, aWord .fsub .f32 0, aWord .fmul .f32 0, aWord .ffma .f32 0, aWord .fmin .f32 0, aWord .fmax .f32 0,
    aWord .frcp .f32 0, aWord .frsq .f32 0, aWord .fsqrt .f32 0, aWord .fexp2 .f32 0, aWord .flog2 .f32 0, aWord .fclass .bf16 511,
    aWord .fclass .f32 0, aWord .fscale .f32 0, aWord .frnd .f32 0, aWord .frnd .f32 1, aWord .ffma .f32 0 true], Ready i s1 :=
  ready_all (by decide +kernel)

theorem witness_PackedFloatCompletes : ∀ i ∈ [
    aWord .hadd2 .f16x2 0, aWord .hmul2 .bf16x2 0, aWord .hfma2 .f16x2 0, aWord .hmin2 .bf16x2 0, aWord .hmax2 .f16x2 0,
    aWord .fdot2 .bf16x2 0, aWord .fdot2 .f16x2 0 true], Ready i s1 := ready_all (by decide +kernel)

theorem witness_ConversionsComplete : ∀ i ∈ [
    aWord .cvt .s32 8, aWord .cvt .f16 3, aWord .cvt .u64 10, aWord .fcvt .f32 9, aWord .fcvt .bf16x2 11, aWord .pk2 .f16x2 0,
    aWord .pk2 .u16x2 0, aWord .upk2 .bf16x2 0, aWord .upk2 .s16x2 1, aWord .e10enc .f32 0, aWord .e10dec .f32 0,
    aWord .rnsenc .s32 0, aWord .rnsdec .s32 0, aWord .qnt .f32 0, aWord .qnt .bf16 2, aWord .dqnt .f32 2], Ready i s1 :=
  ready_all (by decide +kernel)

/-- R104, R105: v1 and v3 are read and written by index, in a group g4. -/
theorem witness_IndexedRegistersComplete :
    let get (u : Bool) (ty : Ty) : OpA := ⟨⟨u, 0, false⟩, false, 0, 0, if u then .g 8 else .v 8, if u then .g 2 else .v 2,
      .imm (if u then 63 else 1), .v 0, ty, .rn, 0⟩
    let put (u : Bool) (ty : Ty) : OpA := { get u ty with dst := .v 0, c := if u then .g 6 else .v 6 }
    (∀ p ∈ [(false, Ty.u32), (true, .s64), (false, .s64), (true, .u32)],
      readyB (.rget (get p.1 p.2)) s1 = true ∧ readyB (.rput (put p.1 p.2)) s1 = true ∧
      ∀ q ∈ [(Instr.rget (get p.1 p.2), get p.1 p.2, false), (.rput (put p.1 p.2), put p.1 p.2, true)],
        let f := q.2.1
        let index (l : Nat) : Nat :=
          let n := (s1.src32 l f.a + s1.src32 l f.b).toNat
          if f.ty.wide then n - n % 2 else n
        let top (l : Nat) : Nat := if f.ty.wide then index l + 1 else index l
        ∀ l ∈ lanesOf (s1.calcLanes f.com),
          (if f.com.u then top l < 64 else top l < s1.wWarp.alloc ∨ (s1.inHandler = true ∧ top l < 32)) ∧
          (indexed f (begun q.1 s1) l).any ((begun q.1 s1).busyReg (maskOf [l])) = false ∧
          (begun q.1 s1).poisoned ⟨f.com, indexed f s1 l, []⟩ (maskOf [l]) = false) := by decide +kernel

/-! ## Control -/

/-- A state in which a word issues and its condition holds as it acts. -/
def Met (i : Instr) (s : State) (cond : State → Prop) : Prop := Ready i s ∧ cond (begun i s)

theorem met {i : Instr} {s : State} {cond : State → Prop} (h : readyB i s = true) (hc : cond (begun i s)) : Met i s cond :=
  ⟨ready_of h, hc⟩

/-- Every slice with one token of a kind. -/
def stacked (k : Nat) : State := warped (fun w =>
  { w with arch := { w.arch with slices := w.arch.slices.map (fun x => { x with stack := [⟨k, 15, x.pc.setWidth 56⟩] }) } })

def bWord (u : Bool) (a : Src) : OpB := ⟨⟨u, 0, false⟩, 0, .v 0, a, 0, 0⟩

theorem witness_BranchesComplete :
    let t (b : State) : Double := b.pc + 12 * (0 : BitVec 32).signExtend 64
    let bra (b : State) (_ : Nat) (x : Slice) (E : BitVec 4) : Slice :=
      if E = x.mask then { x with pc := t b }
      else if E ≠ 0 then { x with mask := x.mask &&& ~~~ E, pc := b.pc + 12, stack := ⟨0, E, (t b).setWidth 56⟩ :: x.stack }
      else { x with pc := b.pc + 12 }
    let rcv (b : State) (k : Nat) (_ : Nat) (x : Slice) (_ : BitVec 4) : Slice :=
      { x with pc := b.pc + 12, stack := ⟨k, x.mask, (t b).setWidth 56⟩ :: x.stack }
    let pop (_ : Nat) (x : Slice) (_ : BitVec 4) : Slice :=
      match x.stack with
      | k :: r => Slice.settle { x with mask := k.mask, pc := x.pc.extractLsb' 56 8 ++ k.pc, stack := r }
      | [] => x
    let next (b : State) (_ : Nat) (x : Slice) (_ : BitVec 4) : Slice := { x with pc := t b }
    let f := bWord false (.v 0)
    Met (.nop f) s1 (fun _ => True) ∧ Met (.bra (bWord true (.v 0))) s1 (fun b => targetsOk b b.active (fun _ => t b)) ∧
    Met (.bra f) s1 (fun b => targetsOk b (b.executing f.com) (fun _ => t b) ∧ roomFor b (b.executing f.com) (bra b)) ∧
    Met (.rcv f) s1 (fun b => targetsOk b b.active (fun _ => t b) ∧ roomFor b b.active (rcv b 0)) ∧
    Met (.join f) (stacked 0)
      (fun b => (∀ i ∈ slicesOf b.gang.slices, (b.arch.slice i).stack ≠ []) ∧ roomFor b b.active pop) ∧
    Met (.loop f) s1 (fun b => plainCode b f.com ∧ targetsOk b b.active (fun _ => t b) ∧ roomFor b b.active (rcv b 1)) ∧
    Met (.next f) (stacked 1) (fun b => plainCode b f.com ∧ targetsOk b b.active (fun _ => t b) ∧ roomFor b b.active (next b) ∧
      ∀ i ∈ slicesOf b.gang.slices, ((b.arch.slice i).stack.head?.map (fun k => k.kind)) = some 1) := by
  dsimp only
  refine ⟨met ?_ ?_, met ?_ ?_, met ?_ ?_, met ?_ ?_, met ?_ ?_, met ?_ ?_, met ?_ ?_⟩ <;>
    (try simp only [targetsOk, roomFor, plainCode, outsideRegions]) <;> decide +kernel

/-- BRX: each lane's own pair, or the group's; the targets lie at 0. -/
theorem witness_BranchesComplete_brx :
    let f := bWord false (.v 2)
    let g := bWord true (.g 2)
    let at' (b : State) (l : Nat) : Double := b.src64 l f.a
    let brx (b : State) (i : Nat) (x : Slice) (E : BitVec 4) : Slice := x.splitBy E (b.pc + 12) (fun j => at' b (4 * i + j))
    Met (.brx g) s1 (fun b => plainCode b g.com ∧ targetsOk b b.active (fun _ => b.src64 b.uLane g.a)) ∧
    Met (.brx f) s1 (fun b => plainCode b f.com ∧ targetsOk b (b.executing f.com) (at' b) ∧ roomFor b (b.executing f.com) (brx b)) := by
  dsimp only
  refine ⟨met ?_ ?_, met ?_ ?_⟩ <;> (try simp only [targetsOk, roomFor, plainCode, outsideRegions]) <;> decide +kernel

theorem witness_CallsAndExitsComplete :
    let t (b : State) : Double := b.pc + 12 * (0 : BitVec 32).signExtend 64
    let go (b : State) (x : Slice) : Slice := if x.mask = 0 then x.settle else { x with pc := b.pc + 12 }
    let out (k : Option Nat) (b : State) (_ : Nat) (x : Slice) (E : BitVec 4) : Slice :=
      if E = 0 then { x with pc := b.pc + 12 } else go b (x.remove E k)
    let call (b : State) (x : Slice) (E : BitVec 4) : Slice :=
      { x with mask := E, pc := t b, stack := ⟨2, x.mask, (b.pc + 12).setWidth 56⟩ :: x.stack }
    let callF (b : State) (_ : Nat) (x : Slice) (E : BitVec 4) : Slice :=
      if E = 0 then { x with pc := b.pc + 12 } else call b x E
    let f := bWord false (.v 0)
    let g := bWord false (.v 2)
    let callxF (b : State) (i : Nat) (x : Slice) (E : BitVec 4) : Slice :=
      if E = 0 then { x with pc := b.pc + 12 }
      else (call b x E).splitBy E (b.pc + 12) (fun j => b.src64 (4 * i + j) g.a)
    Met (.brk f) (stacked 1) (fun b => plainCode b f.com ∧ stacksOk b (b.executing f.com) loopOk ∧
      roomFor b (b.executing f.com) (out (some 1) b)) ∧
    Met (.call f) s1 (fun b => plainCode b f.com ∧ targetsOk b (b.executing f.com) (fun _ => t b) ∧
      roomFor b (b.executing f.com) (callF b)) ∧
    Met (.callx g) s1 (fun b => plainCode b g.com ∧ targetsOk b (b.executing g.com) (fun l => b.src64 l g.a) ∧
      roomFor b (b.executing g.com) (callxF b)) ∧
    Met (.ret f) (stacked 2) (fun b => plainCode b f.com ∧
      stacksOk b (b.executing f.com) (fun st => st.any (fun k => k.kind == 2)) ∧
      roomFor b (b.executing f.com) (out (some 2) b)) ∧
    Met (.exit f) s1 (fun b => outsideRegions b f.com ∧ (b.wWarp.loop.isSome && !b.inHandler) = false ∧
      roomFor b (b.executing f.com) (out none b)) := by
  dsimp only
  refine ⟨met ?_ ?_, met ?_ ?_, met ?_ ?_, met ?_ ?_, met ?_ ?_⟩ <;>
    (try simp only [targetsOk, roomFor, plainCode, outsideRegions, stacksOk]) <;> decide +kernel

/-- The warp, asked to stop, whose live-set table at 0x204000 has one entry, of zeros. -/
def stopping : State :=
  { warped (fun w => { w with preempt := true, lstab := 0x204000 }) with mem := writeBytes s1.mem 0x204000 (leBytes 8 1) }

theorem witness_GangControlCompletes :
    let f := bWord false (.v 0)
    let r := { f with ctl := 1 }
    let listed (b : State) : Prop := b.guessing = false ∧ (b.stopsHere = true →
      (match b.readVirt b.who.warp b.wWarp.lstab 8 with | .ok k => decide (0 < k) | .error _ => false) = true ∧
        (b.readVirt b.who.warp (b.wWarp.lstab + 8) 64).toBool = true)
    (begun (.safept f) stopping).stopsHere = true ∧
    Met (.regang f) s1 (fun b => plainCode b f.com) ∧ (∀ s ∈ [s1, stopping], Met (.safept f) s listed ∧ Met (.safeptRf r) s listed) ∧
    Met (.yield f) s1 (fun b => b.guessing = false) ∧ Met (.trap f) s1 (fun b => b.youngWay = false) ∧
    Met (.bkpt f) s1 (fun b => b.youngWay = false) := by
  dsimp only
  refine ⟨?_, met ?_ ?_, fun s hs => ?_, met ?_ ?_, met ?_ ?_, met ?_ ?_⟩
  case refine_4 =>
    simp only [List.mem_cons, List.not_mem_nil, or_false] at hs
    rcases hs with rfl | rfl <;> exact ⟨met (by decide +kernel) (by decide +kernel), met (by decide +kernel) (by decide +kernel)⟩
  all_goals (try simp only [plainCode, outsideRegions]) <;> decide +kernel

/-- A yield that ends, and a gang that has run 65,536 words without a safe point. -/
theorem witness_GangControlCompletes_events :
    let y := warped (fun w => { w with arch := { w.arch with gangs := [{ slices := 255, cyc := 2 }] } })
    let o := warped (fun w => { w with arch := { w.arch with gangs := [{ slices := 255, count := 65536 }] } })
    let h := ((o.warp 0).archOf 0).gang 0
    ((y.warp 0).archOf 0 |>.gang 0).cyc = 2 ∧
    ((o.warp 0).trap = none ∧ h.slices ≠ 0 ∧ 65536 ≤ h.count ∧ h.park = .none ∧ h.chain.isMember = false) := by decide +kernel

theorem witness_RcvPushesAndJoinPops :
    let t (b : State) : Double := b.pc + 12 * (0 : BitVec 32).signExtend 64
    let stack (b : State) (l : Nat) : List Token := (b.arch.slice (l / 4)).stack
    let f := bWord false (.v 0)
    let full := warped (fun w => { w with arch := { w.arch with
      slices := w.arch.slices.map (fun x => { x with stack := List.replicate 64 ⟨0, 15, x.pc.setWidth 56⟩ }) } })
    Met (.join f) s1 (fun b => ∃ l ∈ lanesOf b.active, stack b l = []) ∧
    Met (.rcv f) full (fun b => targetsOk b b.active (fun _ => t b) ∧
      ∃ l ∈ lanesOf b.active, b.depthLimit ≤ (stack b l).length) := by
  dsimp only
  refine ⟨met ?_ ?_, met ?_ ?_⟩ <;> (try simp only [targetsOk]) <;> decide +kernel

/-! ## Memory, atomics, synchronisation -/

theorem sound_of {b : State} {f : OpM} {w : Want} {n kind : Nat} {off : Int} {rd : Bool}
    (h : (match b.accs f w n kind off with | .ok (a :: r) => (b.scrFails f rd (a :: r)).isEmpty | _ => false) = true) :
    sound b f w n kind off rd := by
  unfold sound accesses
  cases e : b.accs f w n kind off with
  | error x => rw [e] at h; contradiction
  | ok as =>
    rw [e] at h
    cases as with
    | nil => contradiction
    | cons a r => exact ⟨⟨_, rfl, by simp⟩, by simpa using h⟩

/-- A memory word at the address g2 + 64, or at each lane's own in v2. -/
def mWord (u : Bool) (sc : Scope) (o : Order) (d : Dst) (b c : Src) (z : Size) (k : Fin 8) (off : BitVec 24) : OpM :=
  ⟨⟨u, 0, false⟩, sc, o, d, .g 2, b, c, z, k, off⟩

theorem witness_MemoryWordsComplete :
    let ld := mWord false .device .relaxed (.v 8) (.v 0) (.imm 0) .word 0 64
    let st := mWord false .device .release (.v 0) (.v 4) (.v 5) .quad 0 64
    let prf := mWord true .warp .relaxed (.v 0) (.v 0) (.imm 0) .byte 0 64
    let fence (sc : Scope) : OpM := ⟨sure, sc, .acqrel, .v 0, .v 0, .v 0, .v 0, .byte, 0, 0⟩
    let at' (f : OpM) (b : State) : State := b.noteAccess f f.off.toInt
    let loads (b : State) : List Acc := accesses b ld wantLdSt ld.size.bytes 0 ld.off.toInt
    let stores (b : State) : List Acc := (accesses b st wantLdSt st.size.bytes 1 st.off.toInt).map (fun a =>
      { a with val := (at' st b).dataOf a.lane st.size st.b, left := [] })
    Met (.ld ld) solo (fun b => lone b ∧ unpoisoned (at' ld b) (mreq ld .load (loads b)) (loads b) ∧
      goes (at' ld b) (mreq ld .load (loads b))) ∧
    sound (begun (.ld ld) solo) ld wantLdSt ld.size.bytes 0 ld.off.toInt true ∧
    Met (.st st) solo (fun b => lone b ∧ (∀ a ∈ stores b, (isCtl a.ta && isBlock a.ta) = false) ∧
      goes (at' st b) (mreq st .store (stores b))) ∧
    sound (begun (.st st) solo) st wantLdSt st.size.bytes 1 st.off.toInt false ∧
    Met (.prf prf) solo (fun b => lone b ∧ goes (at' prf b) (mreq prf .prefetch [])) ∧
    Met (.fence (fence .warp)) solo (fun b => oldestCode b sure) ∧
    Met (.fence (fence .system)) solo (fun b => oldestCode b sure ∧ goes b (mreq (fence .system) .fence [])) := by
  dsimp only
  refine ⟨met ?_ ?_, sound_of ?_, met ?_ ?_, sound_of ?_, met ?_ ?_, met ?_ ?_, met ?_ ?_⟩ <;>
    (try simp only [lone, goes, sendable, linkFits, unpoisoned, oldestCode, outsideRegions]) <;> decide +kernel

/-- A PRF's line is kept, or dropped for a poisoned address register. -/
theorem witness_MemoryWordsComplete_prf :
    let f := mWord false .warp .relaxed (.v 0) (.v 0) (.imm 0) .byte 0 64
    let u := usesM f 2 0 1 0
    let pois := solo.updWarp 0 (fun w => { w with arch := { w.arch with gpois := [(1, true)] } })
    let kept (b : State) : List Acc := (b.addrs f f.off.toInt).filterMap (fun p => match b.resolve b.who.warp wantPrf [p] 1 0 with
      | .ok [(l, t)] => if t.uncached || b.bytesPoison t.addr 1 || b.poisoned u (maskOf [l]) then none
        else some { lane := l, ta := t.addr, len := 1, unc := t.uncached, left := [0] }
      | _ => none)
    let goes' (b : State) : Bool := let b := b.noteAccess f f.off.toInt
      b.canStart (b.newReq (mreq f .prefetch (kept b))) && !b.windowWaits (b.newReq (mreq f .prefetch (kept b)))
    usesOf (.prf f) = some u ∧ (Instr.prf f).wf = true ∧
    (∀ s ∈ [solo, pois], (s.warps.find s.who.warp).isSome = true ∧ s.doesWork u.com = true ∧
      s.busyReg s.active (guardReg u.com) = false ∧ s.overBound u = false ∧ s.waits? (usesFirst (.prf f) u) = false ∧
      (s.begin u).wWarp.regions = [] ∧ (s.begin u).wWarp.loop = none) ∧
    (kept (solo.begin u) ≠ [] ∧ goes' (solo.begin u) = true) ∧ kept (pois.begin u) = [] := by decide +kernel

/-- What a clean of an operation needs, computed. -/
def cleanOk (op : Nat) (f : OpM) (b : State) : Bool :=
  let off := f.off.toInt
  match b.accs f wantPrf (if op = 3 then 64 else 1) (if op = 3 then 1 else 0) off with
  | .error _ => false
  | .ok as =>
    let ls := as.map (fun a => { a with left := [] })
    let b1 := if op = 3 then (b.noteAccess f off).noteWrites ls else b.noteAccess f off
    let r := b1.newReq { mreq f (.clean op) ls with nl1 := false, pol := 0 }
    (b1.newReq { mreq f (.clean op) ls with nl1 := false, pol := 0 } == r) && b1.canStart r &&
      !((b1.newReq r).releases && r.scope == .system && b1.link.down && b1.wWarp.posted.isSome)

theorem witness_MemoryWordsComplete_cctl :
    let cc (k : Fin 8) := mWord false .warp .relaxed (.v 0) (.v 0) (.imm 0) .byte k 64
    let all : OpM := ⟨group, .warp, .relaxed, .v 0, .v 0, .v 0, .v 0, .byte, 4, 0⟩
    (∀ p ∈ [(Instr.cctlInv (cc 0), 0, cc 0), (.cctlWb (cc 1), 1, cc 1), (.cctlWbinv (cc 2), 2, cc 2), (.cctlZero (cc 3), 3, cc 3)],
      readyB p.1 solo = true ∧ cleanOk p.2.1 p.2.2 (begun p.1 solo) = true ∧ (begun p.1 solo).youngWay = false ∧
      (begun p.1 solo).regionLanes ((begun p.1 solo).workLanes p.2.2.com) = 0) ∧
    readyB (.cctlInvall all) solo = true ∧
    (begun (.cctlInvall all) solo).canStart ((begun (.cctlInvall all) solo).newReq { mreq all (.clean 4) [] with nl1 := false, pol := 0 }) = true := by
  decide +kernel

/-- What an atomic word needs where it acts, computed. -/
def atomOk (f : OpM) (off : Int) (w : Want) (k : ReqKind) (returns : Bool) (b : State) : Bool :=
  match b.accs f w f.size.bytes 1 off with
  | .error _ => false
  | .ok as =>
    let b1 := ((b.noteAccess f off).noteReads as).noteWrites as
    let r := { mreq f k as with nl1 := false, pol := 0 }
    !as.isEmpty && (b.scrFails f true as).isEmpty && (!returns || as.all (fun a => !b.accPoison (b.newReq (mreq f k as)) a)) &&
      b1.canStart (b1.newReq r) && b.regionLanes (b.workLanes f.com) == 0 && !b.youngWay

/-- ATOM, RED and BUPD with the first and last operations of R157, and CAS of each size. -/
theorem witness_AtomicsComplete :
    let f (d : Dst) (o : Order) (z : Size) (code : Nat) : OpM :=
      mWord false .device o d (.v 4) (.imm 0) z 0 (BitVec.ofNat 24 (code * 2 ^ 20 + 64))
    let cas (z : Size) : OpM := ⟨sure, .device, .acqrel, .v 8, .v 2, .v 4, .v 12, z, 0, 64⟩
    (∀ p ∈ [(Size.word, 0), (.double, 8), (.word, 11)], let q := f (.v 8) .acqrel p.1 p.2
      readyB (.atom q) solo = true ∧
        atomOk q 64 (wantAtom (q.dst == .discard && p.2 != 8)) (.atom p.2) true (begun (.atom q) solo) = true) ∧
    (∀ p ∈ [(Size.double, 0), (.word, 11)], let q := f (.v 0) .release p.1 p.2
      readyB (.red q) solo = true ∧ atomOk q 64 (wantAtom true) (.red p.2) false (begun (.red q) solo) = true) ∧
    (∀ code ∈ [0, 7], let q := f (.v 0) .relaxed .word code
      readyB (.bupd q) solo = true ∧ atomOk q 64 wantBupd (.bupd code) false (begun (.bupd q) solo) = true) ∧
    (∀ z ∈ [Size.word, .double, .quad], let q := { cas z with c := .imm 0 }
      readyB (.cas (cas z)) solo = true ∧ atomOk q 64 (wantAtom false) (.atom 16) true (begun (.cas (cas z)) solo) = true) := by
  decide +kernel

/-- What a barrier word or WAITA needs where it acts, computed: `op` none for WAITA. -/
def syncOk (f q : OpM) (w : Want) (n kind : Nat) (reads : Bool) (op : Option Nat) (b : State) : Bool :=
  let off := f.off.toInt
  match b.accs q w n kind off with
  | .ok (a0 :: _) =>
    let a := { a0 with left := [] }
    let b1 := (b.noteAccess q off).noteWrites [a]
    let k : Req := match op with
      | some k => { mreq f (.bar k) [{ a with val := (b1.src32 b1.uLane f.b).toNat }] with nl1 := false, pol := 0, size := .word }
      | none => { mreq f (.waita f.cache.val (b1.waitPair f).1 (b1.waitPair f).2 (b1.src32 b1.uLane f.c).toNat) [a] with nl1 := false, pol := 0 }
    let x : Waiter := { id := b1.clk.fresh, on := .issue, warp := b1.who.warp, way := b1.who.way, dst := k.dst, two := op.isNone }
    let c := if op = some 2 || op = some 3 || op.isNone then { b1 with waits := b1.waits ++ [x] } else b1
    b.ganged && (b.scrFails q false [a]).isEmpty && c.canStart (c.newReq k) &&
      (!reads || !b.accPoison (b.newReq (mreq q .load [])) { a with left := List.range n }) &&
      b.regionLanes (b.workLanes f.com) == 0 && !b.youngWay
  | _ => false

theorem witness_SynchronisationCompletes :
    let bar (o : Order) (d : Dst) (c : Src) : OpM := ⟨group, .device, o, d, .g 2, c, .imm 0, .byte, 0, 64⟩
    let wait (z : Size) (k : Fin 8) : OpM := ⟨group, .device, .acquire, .g 8, .g 2, .g 4, .imm 100, z, k, 64⟩
    let b (i : Instr) : State := begun i s1
    (readyB (.binit (bar .relaxed (.v 0) (.imm 1023))) s1 &&
      syncOk (bar .relaxed (.v 0) (.imm 1023)) (bar .relaxed (.v 0) (.imm 1023)) wantBar 16 1 false (some 0)
        (b (.binit (bar .relaxed (.v 0) (.imm 1023))))) = true ∧
    (readyB (.barv (bar .release (.g 8) (.imm 1))) s1 &&
      syncOk (bar .release (.g 8) (.imm 1)) (bar .release (.g 8) (.imm 1)) wantBar 16 1 true (some 1)
        (b (.barv (bar .release (.g 8) (.imm 1))))) = true ∧
    (readyB (.bexp (bar .relaxed (.v 0) (.imm 0))) s1 &&
      syncOk (bar .relaxed (.v 0) (.imm 0)) (bar .relaxed (.v 0) (.imm 0)) wantBar 16 1 true (some 4)
        (b (.bexp (bar .relaxed (.v 0) (.imm 0))))) = true ∧
    (readyB (.bwait (bar .acquire (.g 8) (.imm 1))) s1 &&
      syncOk (bar .acquire (.g 8) (.imm 1)) (bar .acquire (.g 8) (.imm 1)) wantBar 16 0 true (some 2)
        (b (.bwait (bar .acquire (.g 8) (.imm 1))))) = true ∧
    (readyB (.barw (bar .acqrel .discard (.imm 1))) s1 &&
      syncOk (bar .acqrel .discard (.imm 1)) (bar .acqrel .discard (.imm 1)) wantBar 16 1 true (some 3)
        (b (.barw (bar .acqrel .discard (.imm 1))))) = true ∧
    (∀ p ∈ [(Size.word, (0 : Fin 8)), (.double, 5)],
      (readyB (.waita (wait p.1 p.2)) s1 &&
        syncOk (wait p.1 p.2) { wait p.1 p.2 with c := .imm 0 } wantBupd p.1.bytes 0 true none (b (.waita (wait p.1 p.2)))) = true) := by
  decide +kernel

/-- A WAITA whose deadline has come. -/
theorem witness_SynchronisationCompletes_deadline :
    let e : WaitEntry := { expect := 0, mask := 0, deadline := some 1000, ta := 64, cmp := 0, wide := true, waiter := 7, pkg := 0 }
    let s := { s1 with tables := [(4096 * 7 + 4095, e)] }
    s.tables.find (4096 * 7 + 4095) = some e ∧ e.deadline = some 1000 ∧ 1000 ≤ s.dieTime 7 := by decide +kernel

/-! ## The ordering machine -/

/-- Every stream of the host link has its key. -/
def keyed (s : State) : State :=
  { s with plat := { s.plat with trust := { s.plat.trust with keys := (List.range 18).map (fun k => (k, 1)) } } }

/-- One request in flight, one line that it reads at the die. -/
def asked (started : Bool) (k : ReqKind) (a : Acc) : State :=
  { keyed s1 with
    clk := { s1.clk with fresh := 9 }
    reqs := [{ id := 7, warp := 0, kind := k, accs := [a], started := started }]
    dies := [(0, { l2 := [(1, { st := .M, exp := 0 })] })] }

/-- An atomic of warp 0 at core scope, its update of the core's line not yet carried out. -/
def updating (copy : Tab Copy) (ws : List Write) : State :=
  { asked true (.atom 8) { lane := 0, ta := 64, len := 4, left := [0, 1, 2, 3] } with
    reqs := [{ id := 7, warp := 0, kind := .atom 8, scope := .core, accs := [{ lane := 0, ta := 64, len := 4, left := [0, 1, 2, 3] }],
               started := true }]
    cores := [(0, { l1 := copy })], writes := ws }

theorem witness_LoadStepsComplete :
    let r (s : State) : Req := (s.req 7).getD { id := 0, warp := 0, kind := .load }
    let dev : Acc := { lane := 0, ta := 64, len := 4, left := [0, 3] }
    let peer : Acc := { dev with ta := peerBase + 64 }
    let host : Acc := { dev with ta := hostBase + 64, unc := true }
    let a := asked false .load dev
    let b := asked true .load peer
    let c := asked true .load host
    let d := asked true .load dev
    let back (k : ReqKind) := asked true k { dev with left := [] }
    let u := updating [] []
    let near : Write :=
      { id := 8, warp := some 0, line := 1, place := .die, kind := .atom 8, req := 7, accs := [{ lane := 0, ta := 64, len := 4 }]
        near := true, made := false }
    let v := updating [(1, { exp := 2000, stamp := 1 })] [near]
    let f := { s1 with cores := [(511, { l1 := [(1, { exp := 1000 })] })] }
    (a.req 7 = some (r a) ∧ (r a).started = false ∧ a.canStart (r a) = true) ∧
    (∀ p ∈ [(b, peer), (c, host), (d, dev)], let s := p.1
      s.req 7 = some (r s) ∧ (r s).started = true ∧ (r s).returned = false ∧ (r s).kind = .load ∧
        (r s).accs.any (fun a => a.wants (p.2.ta / 64)) = true ∧ s.fetchable (r s) (p.2.ta / 64) = true) ∧
    ((r b).accs.any (fun a => a.wants (peer.ta / 64) && (a.unc || isPeer a.ta)) = true ∧ isHost (64 * (peer.ta / 64)) = false) ∧
    ((r c).accs.any (fun a => a.wants (host.ta / 64) && (a.unc || isPeer a.ta)) = true ∧ isHost (64 * (host.ta / 64)) = true ∧
      c.link.down = false ∧ c.carries (c.warp (r c).warp).tenant = true) ∧
    ((r d).accs.any (fun a => a.wants 1 && (a.unc || isPeer a.ta)) = false ∧ d.readable ((r d).core / 64) 1 = true) ∧
    (u.req 7 = some (r u) ∧ u.fetchable (r u) 1 = true ∧ (r u).accs.any (fun a => a.wants 1 && a.coreLevel (r u).scope) = true ∧
      u.liveCopy (r u).core 1 0 = none ∧ u.readable 0 1 = true) ∧
    (∀ k ∈ [ReqKind.load, .bar 1, .prefetch], let s := back k
      s.req 7 = some (r s) ∧ (r s).started = true ∧ (r s).returned = false ∧ (r s).kind = k ∧
      (r s).accs.all (fun a => a.left.isEmpty) = true ∧ s.writes = []) ∧
    (v.req 7 = some (r v) ∧ (∀ a ∈ (r v).accs, (isGlob a.ta && a.coreLevel (r v).scope) = true) ∧
      (∀ w ∈ v.writes, w.near = true ∧ w.req = 7 ∧ v.nearReady w = true) ∧ v.writes.length = 1) ∧
    ((f.core 511).l1.find 1 = some { exp := 1000 } ∧ 1000 ≤ f.coreTime 511) := by
  dsimp only; refine ⟨?_, ?_, ?_, ?_, ?_, ?_, ?_, ?_, ?_⟩ <;> decide +kernel

/-- One write in a store bay. -/
def wrote (pl : Place) (k : ReqKind) (l : Nat) (done : Bool) : State :=
  { keyed s1 with
    warps := s1.warps.map (fun p => (p.1, { p.2 with posted := some 7, wpend := 1 }))
    writes := [{ id := 7, warp := some 0, line := l, place := pl, kind := k, bytes := [(64 * l, 1)], done := done }]
    dies := [(0, { l2 := [(1, { st := .M, exp := 0 })] })] }

theorem witness_WriteStepsComplete :
    let w (s : State) : Write := (s.writes.find? (fun x => x.id == 7)).getD { id := 0, warp := none, line := 0, place := .die, kind := .load }
    let first (s : State) : Prop := s.writes.find? (fun x => x.id == 7) = some (w s) ∧ (w s).done = false ∧ s.firstWrite (w s) = true
    let die := wrote .die .store 1 false
    let bank := wrote .bank (.red 0) 1 false
    let host := wrote .host (.atom 16) (hostBase / 64) false
    let peer := wrote .peer .store (peerBase / 64) false
    let red := wrote .redwin (.bupd 7) (redBase / 64) false
    let cl (k : Nat) := wrote .die (.clean k) 1 false
    let bar : State := { wrote .bank (.bar 0) 1 false with
      reqs := [{ id := 9, warp := 0, kind := .bar 0 }]
      writes := [{ id := 7, warp := some 0, line := 1, place := .bank, kind := .bar 0, req := 9, accs := [{ lane := 0, ta := 112, len := 16 }] }] }
    let post := wrote .posted .store (hostBase / 64) false
    let acked := wrote .die .store 1 true
    let landed : State := { acked with
      writes := [{ id := 7, warp := none, op := some 5, line := 1, place := .die, kind := .store, done := true }]
      ops := [{ id := 5, cls := 8, func := 0, warp := 0, team := 0, core := 0, caught := [7] }] }
    (first die ∧ ((die.l2 (w die).die (w die).line).st = .M)) ∧
    (first bank ∧ bank.canRecall (w bank).line = true ∧ (bank.dirE (w bank).line).hostc = false) ∧
    (first host ∧ host.canRecall (w host).line = true ∧ host.link.down = false ∧
      host.carries (hostStream (w host).tenant ((w host).accs.any (fun a => a.unc))) = true) ∧
    first peer ∧ first red ∧
    (∀ p ∈ [(1, false), (2, true)], first (cl p.1) ∧ (cl p.1).cleanDies 0 1 p.2 = [0] ∧ (cl p.1).canClean 0 1 p.2 = true) ∧
    (first bar ∧ (bar.req (w bar).req).isSome = true ∧ (w bar).accs ≠ [] ∧ bar.canRecall 1 = true ∧ (bar.dirE 1).hostc = false) ∧
    (first post ∧ post.link.down = false) ∧
    (acked.writes.find? (fun x => x.id == 7) = some (w acked) ∧ (w acked).done = true ∧ (w acked).warp = some 0 ∧ (w acked).op = none) ∧
    (landed.writes.find? (fun x => x.id == 7) = some (w landed) ∧ (w landed).done = true ∧ (w landed).warp = none ∧
      (w landed).op = some 5) ∧
    ((post.warp 0).posted.isSome = true ∧ post.link.down = false ∧ post.carries (post.warp 0).tenant = true) := by
  dsimp only; refine ⟨?_, ?_, ?_, ?_, ?_, ?_, ?_, ?_, ?_, ?_, ?_⟩ <;> decide +kernel

/-! ## Copies, tiles, keys and values -/

/-- The condition of `Launches`. -/
def launch (f : OpT) (cond : State → Prop) (o : State → EngOp) (b : State) : Prop :=
  (oldestCode b f.com ∧ cond b) ∧ engineFits b (o b) f.tok

/-- A group's operation with its operands in g2, g4 and g6 and its token in g8. -/
def tWord (u : Bool) (sc : Scope) (b c : Src) (opf : BitVec 30) : OpT := ⟨⟨u, 0, false⟩, sc, .g 8, .g 2, b, c, opf⟩

theorem witness_CopyWordsComplete :
    let pair (b : State) (r : Src) : Nat := (b.src64 b.uLane r).toNat
    let word (b : State) (r : Src) : Nat := (b.src32 b.uLane r).toNat
    let dst (f : OpT) (b : State) : Nat := (((pair b f.a : Int) + 16 * (f.opf.extractLsb' 8 8).toInt) % 2 ^ 64).toNat
    let src (f : OpT) (b : State) (r : Src) : Nat := (((pair b r : Int) + 16 * (f.opf.extractLsb' 0 8).toInt) % 2 ^ 64).toNat
    let op (f : OpT) (b : State) (k : Nat) : EngOp := { b.newOp 8 k f with barVa := b.flatBar f }
    let sized (f : OpT) (b : State) : Prop := 0 < word b f.c ∧ word b f.c ≤ 1023
    let cpy := tWord true .device (.g 4) (.imm 1023) 0
    let cpyt := tWord true .device (.v 0) (.v 0) 0
    let cpyg := tWord true .device (.g 4) (.imm 1) 63
    let cpys := tWord true .device (.g 4) (.imm 1023) (63 * 256)
    let cpyx : OpT := { tWord false .device (.v 0) (.v 4) 0 with tok := .discard }
    let osld := tWord true .device (.imm 0) (.imm 0) 0
    let rcl := tWord true .device (.g 4) (.v 0) 0
    Met (.cpy cpy) s1 (launch cpy (fun _ => True) (fun b =>
      { op cpy b 0 with a := dst cpy b, b := src cpy b cpy.b, c := word b cpy.c, sdst := scrSpan (dst cpy b) (word b cpy.c) })) ∧
    Met (.cpyt cpyt) s1 (launch cpyt (fun _ => True) (fun b => b.peek { op cpyt b 1 with b := pair b cpyt.a })) ∧
    Met (.cpyg cpyg) s1 (launch cpyg (sized cpyg) (fun b =>
      { op cpyg b 2 with a := dst cpyg b, b := pair b cpyg.b, c := word b cpyg.c,
                         sdst := scrSpan (dst cpyg b) (word b cpyg.c * (bitsOf cpyg.opf.toNat 0 8 + 1)) })) ∧
    Met (.cpys cpys) s1 (launch cpys (sized cpys) (fun b =>
      b.peek { op cpys b 3 with a := pair b cpys.a, b := src cpys b cpys.b, c := word b cpys.c })) ∧
    Met (.cpyr cpyt) s1 (launch cpyt (fun _ => True) (fun b => { b.newOp 8 4 cpyt with b := pair b cpyt.a })) ∧
    Met (.osld osld) s1 (launch osld (fun _ => True) (fun b =>
      { op osld b 8 with a := word b osld.b, b := src osld b osld.a, c := word b osld.c })) ∧
    Met (.kvrcl rcl) s1 (launch rcl (fun _ => True) (fun b => { b.newOp 0xA 2 rcl with b := pair b rcl.a, a := pair b rcl.b })) ∧
    Met (.cpyq { tWord true .warp (.v 0) (.v 0) 63 with a := .v 0 }) s1 (fun b => oldestCode b group) ∧
    Met (.cpyc { tWord true .warp (.v 0) (.v 0) 8 with a := .v 0, tok := .discard }) s1 (fun b => oldestCode b group) ∧
    Met (.cpyx cpyx) solo (launch cpyx (fun b => b.ganged = true ∧ (b.src32 0 cpyx.c).toNat = 0)
      (fun b => b.peek { op cpyx b 5 with b := pair b cpyx.a, fmt := 0 })) := by
  dsimp only
  refine ⟨met ?_ ?_, met ?_ ?_, met ?_ ?_, met ?_ ?_, met ?_ ?_, met ?_ ?_, met ?_ ?_, met ?_ ?_, met ?_ ?_, met ?_ ?_⟩ <;>
    (try simp only [launch, engineFits, goes, sendable, linkFits, oldestCode, outsideRegions, and_true]) <;> decide +kernel

/-- A vote of one lane. -/
theorem votes_solo {b : State} {f : OpT} {w : Nat} (h : b.ganged = true) (h1 : lanesOf (b.executing f.com) = [0])
    (h2 : (b.src32 0 f.c).toNat = w) : votes b f w := ⟨h, 0, [], h1, h2, by simp⟩

theorem witness_CopyWordsComplete_vote :
    let f : OpT := { tWord false .device (.v 0) (.v 4) 0 with tok := .discard }
    votes (begun (.cpyx f) solo) f 0 := votes_solo (by decide +kernel) (by decide +kernel) (by decide +kernel)

/-- Lane 0 alone, its operand pairs at the start of the scratchpad. -/
def tiled : State := solo.updWarp 0 (fun w => { w with arch := { w.arch with g := [(3, 0xFE000000), (5, 0xFE000000)] } })

/-- Every tile operation, with a mask of some column (MASKQ 0 takes in g3) and with none (MASKQ 8). -/
theorem witness_TileWordsComplete :
    let pair (b : State) (r : Src) : Nat := (b.src64 b.uLane r).toNat
    let full (f : OpT) (k w : Nat) (b : State) : EngOp :=
      let x := f.opf.toNat
      let sa := if k = 6 then pair b f.a % 2 ^ 64 else (pair b f.a + 256 * bitsOf x 18 6) % 2 ^ 64
      let sb := if k = 6 then pair b f.b % 2 ^ 64 else (pair b f.b + 256 * bitsOf x 12 6) % 2 ^ 64
      let mk := if k = 0 ∨ k = 1 ∨ k = 2 ∨ k = 5 then regsNat (4 * bitsOf x 24 4) 8 (fun n => b.wWarp.getG b.who.way true n) else 0
      { b.newOp 9 k f with
        fmt := w, mask := mk, tc := offIn sa, ta := if k = 2 then 0 else offIn sb
        tx := 16 * bitsOf x 0 11 + (if k = 1 then offIn sb else 0), tacc := x.testBit 29
        sdst := tileWrites k x (fmtOf w) (offIn sa) mk }
    let word (q : BitVec 30) (k : Nat) : OpT :=
      tWord false .device (if k = 2 then .v 0 else .g 4) (if k = 6 then .v 0 else .v 4)
        (if k = 0 ∨ k = 1 ∨ k = 2 ∨ k = 5 then q <<< 24 else 0)
    let instr (k : Nat) (f : OpT) : Instr := match k with
      | 0 => .mma f | 1 => .mmag f | 2 => .tzero f | 3 => .tqnt f | 4 => .tdq f | 5 => .tcrt f | 6 => .ttrn f | _ => .tstat f
    ∀ p ∈ [(0, 0), (0, 8), (1, 0), (1, 8), (2, 0), (2, 8), (3, 0), (4, 0), (5, 0), (5, 8), (6, 0), (7, 0)],
      let f := word (BitVec.ofNat 30 p.2) p.1
      let i := instr p.1 f
      let b := begun i tiled
      let o := full f p.1 0 b
      let span := tileSpans p.1 f.opf.toNat (fmtOf 0) (1024 * (fmtOf 0).m)
      readyB i tiled = true ∧ b.ganged = true ∧ lanesOf (b.executing f.com) = [0] ∧ (p.1 ≠ 6 → (b.src32 0 f.c).toNat = 0) ∧
        (pair b f.a + 256 * bitsOf f.opf.toNat 18 6) % 2 ^ 64 % 16 = 0 ∧
        outsideScr ((pair b f.a + 256 * bitsOf f.opf.toNat 18 6) % 2 ^ 64) span.1 = false ∧
        (p.1 ≠ 2 → (pair b f.b + 256 * bitsOf f.opf.toNat 12 6) % 2 ^ 64 % 16 = 0 ∧
          outsideScr ((pair b f.b + 256 * bitsOf f.opf.toNat 12 6) % 2 ^ 64) span.2 = false) ∧
        (o.mask = 0 ↔ p.2 = 8 ∨ p.1 = 3 ∨ p.1 = 4 ∨ p.1 = 6 ∨ p.1 = 7) ∧
        (∀ r ∈ (if p.1 = 0 ∨ p.1 = 1 ∨ p.1 = 2 ∨ p.1 = 5 then (List.range 8).map (fun j => 4 * bitsOf f.opf.toNat 24 4 + j) else []).map
          Reg.g ++ Dst.regsFrom f.tok 1, b.busyReg b.active r = false) ∧
        (b.regionLanes (b.workLanes f.com) = 0 ∧ b.youngWay = false) ∧
        (b.opsOf o.warp).length < 32 ∧ (enrolled b o f.tok).canStart ((enrolled b o f.tok).newReq (opReq o)) = true := by
  decide +kernel

theorem witness_TileWordsComplete_attn :
    let attn : OpT := tWord false .device (.v 0) (.v 4) 15
    let attnq : OpT := tWord false .device (.v 0) (.v 4) 0
    (∀ p ∈ [(Instr.attn attn, attn, 4), (.attnq attnq, attnq, 5)], let b := begun p.1 tiled
      let o := b.peekAttn { b.newOp 0xA p.2.2 p.2.1 with b := (b.src64 b.uLane p.2.1.a).toNat, fmt := 0 }
      readyB p.1 tiled = true ∧ b.ganged = true ∧ lanesOf (b.executing sure) = [0] ∧ (b.src32 0 p.2.1.c).toNat = 0 ∧
      (b.src64 b.uLane p.2.1.a).toNat % 16 = 0 ∧ (∀ r ∈ Dst.regsFrom p.2.1.tok 1, b.busyReg b.active r = false) ∧
      b.regionLanes (b.workLanes sure) = 0 ∧ b.youngWay = false ∧ (b.opsOf o.warp).length < 32 ∧
      (enrolled b o p.2.1.tok).canStart ((enrolled b o p.2.1.tok).newReq (opReq o)) = true) := by decide +kernel

/-- `solo` with the first lines of memory in its core's cache. -/
def leased : State := { solo with
  cores := [(0, { l1 := (List.range 4).map (fun l => (l, { exp := 2000, stamp := 1 })) })] }

/-- KVX, KVVAL and SKCH at lane 0's table, which is all zeros: no part of it is poisoned or on its way. -/
theorem witness_KeyValueWordsComplete :
    let w (sc : Scope) (c : Src) (opf : BitVec 30) : OpT := ⟨sure, sc, .discard, .g 6, .g 8, c, opf⟩
    let args (f : OpT) (b : State) : List (Nat × Nat × Nat × Nat) := (lanesOf (b.executing f.com)).map (fun l =>
      (l, (b.src64 l f.a).toNat, (b.src32 l f.b).toNat, match f.c with | .v _ => (b.src64 l f.c).toNat | _ => 0))
    ∀ p ∈ [(Instr.kvx (w .warp (.v 6) 2), w .warp (.v 6) 2, 0, Order.relaxed), (.kvvalSet (w .core (.v 0) 2), w .core (.v 0) 2, 1, .release),
        (.kvvalClr (w .system (.v 0) 1), w .system (.v 0) 1, 1, .relaxed), (.skchSlot (w .warp (.v 0) 0), w .warp (.v 0) 0, 3, .relaxed),
        (.skchVec (w .warp (.v 6) 3), w .warp (.v 6) 3, 3, .relaxed)],
      let f := p.2.1
      let b := begun p.1 leased
      let r (hits : List KvRes) (replay bad : Lanes) : Req :=
        { id := 0, warp := 0, kind := .kv p.2.2.1 f.opf.toNat hits replay bad, scope := f.scope, order := p.2.2.2, dst := f.tok }
      let q := b.newReq (r [] 0 0)
      let found := (args f b).map (b.kvLane q p.2.2.1 f.opf.toNat)
      let hits := found.filterMap (fun x => match x with | .ok h => some h | _ => none)
      let lanes (c : KvLane (KvRes × Word) → Bool) : Lanes :=
        maskOf (((args f b).filter (fun a => c (b.kvLane q p.2.2.1 f.opf.toNat a))).map (fun a => a.1))
      let read := (((args f b).flatMap (b.kvReads q p.2.2.1 f.opf.toNat) ++ (args f b).flatMap (b.kvWrites q p.2.2.1 f.opf.toNat)).foldl
        (fun t va => t.noteVa b.who.warp va) b).raise (hits.foldl (fun fl h => fl ||| h.2) 0)
      let sends := r (hits.map (fun h => h.1)) (lanes (fun x => match x with | .replay => true | _ => false))
        (lanes (fun x => match x with | .malformed => true | _ => false))
      readyB p.1 leased = true ∧ (b.wWarp.regions = [] ∧ b.wWarp.loop = none) ∧ args f b ≠ [] ∧ q.behind = [] ∧
        found.all (fun x => match x with | .poison | .wait _ => false | _ => true) = true ∧
        (p.2.2.1 = 3 → f.opf.getLsbD 0 = true → b.vecFails ((args f b).filter (fun a =>
          match b.kvLane q p.2.2.1 f.opf.toNat a with | .malformed => false | _ => true)) = []) ∧ read.canStart (read.newReq sends) = true := by
  decide +kernel

/-! ## Speculative loops and regions -/

/-- A loop of two ways whose body is the word at hand, in its first round; and the same about to end. -/
def loopRec : SpecLoop := SpecLoop.startRound {
  n := 3, c := 1, b := 8, w := 2, ew := 2, guess := 0x200040, body := 0x200040, depths := List.replicate 8 0, committed := (s1.warp 0).arch }
def looped : State := warped (fun w => { w with loop := some loopRec })
def endRec : SpecLoop := { loopRec with ending := true }

theorem witness_SpeculativeWordsComplete :
    let sp : OpB := ⟨group, 0, .g 4, .imm 3, 0, 0x1208⟩
    let put : OpB := ⟨sure, 0, .v 0, .v 15, 0, 0⟩
    let acc : OpB := ⟨group, 3, .v 0, .imm 1, 0, 8⟩
    let next : OpB := ⟨group, 0, .v 0, .v 0, 0, 0⟩
    let fin : OpB := ⟨group, 0, .g 4, .v 0, 0, 0⟩
    let q : OpB := ⟨group, 0, .g 4, .v 0, 0, 0⟩
    let plain (b : State) : Prop := outsideRegions b group ∧ b.guessing = false
    Met (.sploop sp) s1 (fun b => plain b ∧ b.ganged = true ∧ 8 + 2 ≤ b.wWarp.alloc ∧ b.inHandler = false ∧ b.wWarp.loop = none ∧
      (∀ r ∈ b.wWarp.rules, 8 ≤ r.reg ∧ r.reg < 8 + 2) ∧ b.wayBusy = false ∧ b.wayReqs = false) ∧
    Met (.spput put) { looped with who := ⟨0, 1, 0⟩ } (fun b => b.guessing = true ∧ b.inHandler = false ∧
      b.wWarp.loop.map (fun l => (l.c, l.b)) = some (1, 8) ∧ 15 + 1 ≤ b.wWarp.alloc ∧ b.wayBusy = false ∧
      b.poisoned ⟨put.com, Src.regsFrom put.a 1, []⟩ b.active = false) ∧
    Met (.spacc acc) s1 (fun b => plain b ∧ b.wWarp.loop = none ∧ b.wWarp.rules.length < 8) ∧
    Met (.spnext next) looped (fun b => b.guessing = false ∧ b.inHandler = false ∧ b.wWarp.loop.isSome = true ∧ b.ganged = true ∧
      b.wWarp.loop.all b.depthsOk = true ∧ b.pc + 12 * next.off.signExtend 64 = loopRec.body ∧ outsideRegions b next.com ∧
      b.wayBusy = false ∧ b.wayReqs = false) ∧
    Met (.spend fin) (warped (fun w => { w with loop := some endRec }))
      (fun b => plain b ∧ b.wWarp.loop.map (fun l => l.ending) = some true ∧ b.inHandler = false) ∧
    Met (.spq q) looped plain := by
  dsimp only
  refine ⟨met ?_ ?_, met ?_ ?_, met ?_ ?_, met ?_ ?_, met ?_ ?_, met ?_ ?_⟩ <;>
    (try simp only [outsideRegions]) <;> decide +kernel

/-- Way 0 at SPNEXT with a KVVAL still to be applied, and with none. -/
theorem witness_SpeculativeWordsComplete_keep :
    let done (kv : List KvRec) : State := warped (fun w => { w with loop := some { loopRec with
      ways := loopRec.ways.map (fun p => if p.1 = 0 then (0, { p.2 with st := 3, kv := kv }) else p) } })
    (match ((done [⟨true, false, .device, [(0, 0, 0, 0, 0)]⟩]).warp 0).toKeep with
      | some (0, _, y) => y.kv != [] | _ => false) = true ∧
    (match ((done []).warp 0).toKeep with | some (0, _, y) => y.kv == [] | _ => false) = true ∧
    ((done []).reqs.any (fun r => r.warp == 0 && (match r.kind with | .kvval _ => true | _ => false))) = false ∧
    ((done []).warp 0).wpend + 0 ≤ 255 := by decide +kernel

/-- Lane 0 in a region, alone or with its warp. -/
def shut (s : State) : State := s.updWarp 0 (fun w => { w with regions := [(0, { fallback := 0x200040, status := none, pc := 0x200040 })] })

theorem witness_RegionWordsComplete :
    let f : OpB := ⟨sure, 0, .v 8, .v 0, 0, 0⟩
    let e : OpB := ⟨sure, 0, .v 0, .v 0, 0, 0⟩
    let next (b : State) (l : Nat) : Double :=
      (((b.fallbacks (b.executing e.com)).find? (fun p => p.1 == l)).map (·.2)).getD (b.pc + 12)
    let commit : Req := { id := 0, warp := 0, kind := .commit, scope := .device, order := .release }
    let twice := warped (fun w => { w with aborts := [(0x200040, 2)] })
    Met (.atomb f) s1 (fun b => oldestCode b f.com ∧ b.inHandler = false ∧ b.wWarp.abortsAt b.pc < 2) ∧
    Met (.atomb f) twice (fun b => oldestCode b f.com ∧ b.inHandler = false ∧ 2 ≤ b.wWarp.abortsAt b.pc ∧
      (b.die b.myDie).token = none) ∧
    Met (.atomb f) (solo.updWarp 0 (fun w => w.enter 0 0 { cause := 0x0B, lanes := 1 } 0x200040))
      (fun b => oldestCode b f.com ∧ b.inHandler = true) ∧
    Met (.atome e) s1 (fun b => b.youngWay = false ∧ b.regionLanes b.active = 0) ∧
    Met (.atome e) (shut s1) (fun b => b.youngWay = false ∧ b.regionLanes b.active ≠ 0 ∧
      b.regionLoads (b.regionLanes b.active) = false ∧
      b.tooDeep (fun i => (distinct (((b.fallbacks b.active).filter (fun p => p.1 / 4 == i)).map (·.2))).length) = [] ∧
      b.canStart (b.newReq commit) = true ∧ linkFits b (b.newReq commit)) ∧
    Met (.atoma e) (shut s1) (fun b => b.guessing = false ∧
      b.tooDeep (fun i => (distinct ((lanesOf (laneBits (b.arch.slice i).mask i)).map (next b))).length - 1) = []) ∧
    Met (.atomq f) (shut s1) (fun b => b.guessing = false) := by
  dsimp only
  refine ⟨met ?_ ?_, met ?_ ?_, met ?_ ?_, met ?_ ?_, met ?_ ?_, met ?_ ?_, met ?_ ?_⟩ <;>
    (try simp only [oldestCode, outsideRegions, linkFits]) <;> decide +kernel

/-- A die with a commit of one line still to lock, and with none; and a notice due. -/
theorem witness_RegionWordsComplete_commit :
    let c (n : Nat) : Commit := { id := 5, warp := 0, slice := 0, lines := [64], locked := n }
    let r : Req := { id := 5, warp := 0, kind := .commit }
    let s (n : Nat) : State := { s1.updDie 0 (fun d => { d with l2 := [(64, { st := .E })], commits := [c n], notices := [65] }) with
      reqs := [r] }
    (((s 0).die 0).current = some (c 0) ∧ (c 0).lines[(c 0).locked]? = some 64 ∧ ((s 0).l2 0 64).st = .E ∧
      ((s 0).l2 0 64).snoop = none ∧ ((s 0).l2 0 64).locked = false) ∧
    (((s 1).die 0).current = some (c 1) ∧ (c 1).lines[(c 1).locked]? = none ∧ (s 1).req 5 = some r ∧
      (∀ l ∈ ((s 1).die 0).notices, l ∉ (c 1).lines)) ∧
    (65 ∈ ((s 1).die 0).notices ∧ (∀ p ∈ (s 1).warps, p.2.regions = [])) := by decide +kernel

/-! ## Trees, system words, graphs -/

/-- Lane 0 in the supervisor handler of its tenant, which may change trees and schedule. -/
def handling : State := (solo.updWarp 0 (fun w => w.enter 0 0 { cause := 0x0B, lanes := 1 } 0x200040)).updTenant 0
  (fun t => { t with tree := true, sched := true, prallow := 64, pri := true })

/-- A loop that the handler opens, at SPNEXT and at its end (log 132). -/
theorem witness_SpeculativeWordsComplete_handler :
    let l (e : Bool) : SpecLoop := { loopRec with sup := true, ending := e, body := handling.pc }
    let s (e : Bool) : State := handling.updWarp 0 (fun w => { w with loop := some (l e) })
    let next : OpB := ⟨group, 0, .v 0, .v 0, 0, 0⟩
    let fin : OpB := ⟨group, 0, .g 4, .v 0, 0, 0⟩
    Met (.sploop ⟨group, 0, .g 4, .imm 3, 0, 0x1208⟩) handling (fun b => b.inHandler = true ∧ b.ganged = true ∧ b.wWarp.loop = none) ∧
    Met (.spnext next) (s false) (fun b => b.guessing = false ∧ b.inHandler = (l false).sup ∧ b.ganged = true ∧ b.depthsOk (l false) = true ∧
      b.pc + 12 * next.off.signExtend 64 = (l false).body ∧ outsideRegions b next.com ∧ b.wayBusy = false ∧ b.wayReqs = false) ∧
    Met (.spend fin) (s true) (fun b => b.guessing = false ∧ outsideRegions b group ∧ b.inHandler = (l true).sup ∧ (l true).ending = true) := by
  dsimp only
  refine ⟨met ?_ ?_, met ?_ ?_, met ?_ ?_⟩ <;> (try simp only [outsideRegions]) <;> decide +kernel

theorem witness_SystemWordsComplete_trees :
    let w (d : Dst) (a b c : Src) (k : Fin 8) : OpM := ⟨group, .warp, .relaxed, d, a, b, c, .byte, k, 0⟩
    let pg (k : Fin 8) : OpM := ⟨sure, .warp, .relaxed, .v 8, .v 2, .v 0, .v 0, .byte, k, 0⟩
    let own (b : State) (a : Nat) : Prop := b.foreign a = false
    let word (b : State) (x : Src) : Nat := (b.src32 b.uLane x).toNat
    let pair (b : State) (x : Src) : Nat := (b.src64 b.uLane x).toNat
    let r (f : OpM) (b : State) (k : ReqKind) (o : Order) (as : List Acc) : Req :=
      { id := 0, warp := 0, kind := k, scope := .device, order := o, accs := as, dst := f.dst, u := f.com.u }
    let sw := w (.g 8) (.g 2) (.g 4) (.g 6) 0
    let fork := w (.g 8) (.g 2) (.g 4) (.v 0) 0
    let snap := w (.g 8) (.v 0) (.g 4) (.v 0) 1
    let drop := w (.g 8) (.v 0) (.g 4) (.v 0) 2
    let node := w (.g 8) (.g 2) (.imm 255) (.g 6) 1
    let re := w (.g 8) (.v 0) (.v 0) (.v 0) 0
    Met (.rootsw sw) handling (fun b => oldestCode b sw.com ∧ b.treePriv = true ∧ own b (word b sw.a) ∧
      goes b (r sw b (.tree 0 0 (word b sw.a) (word b sw.b) (pair b sw.c) 0) .release [])) ∧
    Met (.rootcpFork fork) handling (fun b => oldestCode b fork.com ∧
      (b.treePriv = true ∧ own b (b.root (word b fork.b)).asd ∧ own b (word b fork.a)) ∧
      goes b (r fork b (.tree 1 0 (word b fork.a) (word b fork.b) 0 0) .release [])) ∧
    Met (.rootcpSnap snap) handling (fun b => oldestCode b snap.com ∧ (b.treePriv = true ∧ own b (b.root (word b snap.b)).asd) ∧
      goes b (r snap b (.tree 1 1 0 (word b snap.b) 0 0) .release [])) ∧
    Met (.rootcpDrop drop) handling (fun b => oldestCode b drop.com ∧ (b.treePriv = true ∧ own b (b.root (word b drop.b)).asd) ∧
      goes b (r drop b (.tree 1 2 0 (word b drop.b) 0 0) .release [])) ∧
    Met (.tnode node) handling (fun b => oldestCode b node.com ∧ b.treePriv = true ∧
      goes b (r node b (.tree 3 1 (pair b node.a) (word b node.b) (pair b node.c) 0) .relaxed [])) ∧
    Met (.pgmapFt (pg 0)) handling (fun b => oldestCode b sure ∧ b.inHandler = true ∧
      goes b (r (pg 0) b (.tree 4 0 0 0 0 0) .release (b.pgmapAccs (pg 0)))) ∧
    Met (.pgmapCow (pg 1)) handling (fun b => oldestCode b sure ∧ b.inHandler = true ∧
      goes b (r (pg 1) b (.tree 4 1 0 0 0 0) .release (b.pgmapAccs (pg 1)))) ∧
    Met (.rfrsh re) handling (fun b => oldestCode b group) := by
  dsimp only
  refine ⟨met ?_ ?_, met ?_ ?_, met ?_ ?_, met ?_ ?_, met ?_ ?_, met ?_ ?_, met ?_ ?_, met ?_ ?_⟩ <;>
    (try simp only [oldestCode, outsideRegions, goes, sendable, linkFits]) <;> decide +kernel

theorem witness_SystemWordsComplete :
    let csr (u : Bool) (d : Dst) (b : Src) (z : Size) (n : BitVec 24) : OpM := ⟨⟨u, 0, false⟩, .warp, .relaxed, d, .v 0, b, .v 0, z, 0, n⟩
    let w (u : Bool) (d : Dst) (a b : Src) (k : Fin 8) : OpM := ⟨⟨u, 0, false⟩, .warp, .relaxed, d, a, b, .v 0, .byte, k, 0⟩
    let fq := w true (.g 8) (.v 0) (.g 4) 0
    let pg := w false (.v 8) (.v 2) (.v 0)
    let tr := w true (.v 0) (.v 0) (.v 0)
    let ok (i : Instr) (c : State → Bool) : Bool := readyB i handling && c (begun i handling)
    let old (c : Common) (b : State) : Bool := b.regionLanes (b.workLanes c) == 0 && !b.youngWay
    let out (b : State) : Bool := b.inHandler && b.ganged && !b.handlerBusy
    ([(Instr.csrr (csr false (.v 8) (.v 0) .word 0), csr false (.v 8) (.v 0) .word 0, false),
        (.csrr (csr true (.g 8) (.v 0) .word 0x04F), csr true (.g 8) (.v 0) .word 0x04F, false),
        (.csrr (csr false (.v 8) (.v 0) .double 0x015), csr false (.v 8) (.v 0) .double 0x015, false),
        (.csrw (csr true (.v 0) (.g 4) .word 0x040), csr true (.v 0) (.g 4) .word 0x040, true),
        (.csrw (csr false (.v 0) (.v 4) .word 0x030), csr false (.v 0) (.v 4) .word 0x030, true)].all (fun p =>
      ok p.1 (fun b => old p.2.1.com b && b.csrCause p.2.1 p.2.2 == 0)) &&
      ok (.fltq fq) (fun b => old group b && b.inHandler) &&
      [0, 1, 2, 3].all (fun k => ok (.pgreq (pg k)) (fun b => old sure b && b.inHandler)) &&
      ok (.tret (tr 0)) out && ok (.tretKill (tr 1)) out) = true := by
  decide +kernel

/-- A page-request group that waits for its answer; a fault-queue entry that stands, and answered ones on which engines
and the dispatcher wait. -/
theorem witness_SystemWordsComplete_replies :
    let g : PrGroup := ⟨4, 0, 7, [⟨0x200, true, true⟩], 9⟩
    let s : State := { keyed s1 with prgroups := [g], tenants := [(0, { fqbase := 0x210000, fqcap := 8 })] }
    let o (cls func : Nat) (c : Bool) : EngOp :=
      { id := 5, cls := cls, func := func, warp := 0, team := 0, core := 0, slot := some 4, cancel := c, susc := 0x0B }
    let entry (valid : Bool) (r : Nat) (ops : List EngOp) : State := { s with
      mem := writeBytes s.mem 0x21011F ((if valid then 0x80 else 0) :: leBytes 4 r), ops := ops }
    (s.prgroups.find? (fun g => g.id == 4) = some g ∧ s.link.down = false ∧ s.carries 0 = true) ∧
    ((s.tenant 0).fqbase + 64 * 4 = 0x210100 ∧ s.writes = [] ∧ 4 < (s.tenant 0).fqcap) ∧
    ((entry true 0 []).cur 0x21011F).getLsbD 7 = true ∧
    (∀ r ∈ [0, 1, 4], ∀ x ∈ [o 0xE 0 false, o 0xE 1 false, o 8 0 false, o 8 0 true],
      ((entry false r [x]).cur 0x21011F).getLsbD 7 = false ∧ (entry false r [x]).curNat 0x210120 4 % 256 = r ∧
      (entry false r [x]).ops.find? (fun y => y.tenant == 0 && y.slot == some 4) = some x) := by
  decide +kernel

theorem witness_GraphWordsComplete :
    let w (sc : Scope) (a b c : Src) (opf : BitVec 30) : OpT := ⟨group, sc, .g 8, a, b, c, opf⟩
    let ok (i : Instr) (c : State → Bool) : Bool :=
      let b := begun i handling
      readyB i handling && b.regionLanes (b.workLanes group) == 0 && !b.youngWay && c b && decide ((b.opsOf 0).length < 32)
    let may (b : State) : Bool := b.inHandler || (b.tenant b.wWarp.tenant).sched
    let count (x : Src) (b : State) : Bool := decide (1 ≤ (b.src32 b.uLane x).toNat ∧ (b.src32 b.uLane x).toNat < 2 ^ 31)
    (ok (.launch (w .system (.g 2) (.g 4) (.imm 1023) 0)) (count (.imm 1023)) &&
      ok (.emit (w .device (.g 2) (.g 4) (.imm 1) 0)) (count (.imm 1)) &&
      ok (.ndone (w .device (.v 0) (.imm (-1024)) (.v 0) 0)) (fun _ => true) && ok (.slotw (w .device (.g 2) (.imm 1023) (.v 0) 0)) may &&
      ok (.prmptStop (w .device (.g 2) (.v 0) (.v 0) 0)) may && ok (.prmptEvict (w .device (.g 2) (.v 0) (.v 0) 1)) may) = true := by
  decide +kernel

/-! ## Events of engines, the sequencer and cores -/

/-- A node descriptor at 0x201000, of a queue with `q` slots, its launch header at 0x202000. -/
def noded (q : Nat) : State := { s1 with mem := writeBytes s1.mem 0x201000 (leBytes 128
  (0x202000 + 0x203000 * 2 ^ 64 + q * 2 ^ 736 + 3 * 2 ^ 756 + 2 ^ 761 + 2 ^ 780)) }

/-- The addresses from 4 GiB on are not there before they are first touched. -/
def untouched (s : State) : State := { s with mem := writeBytes s.mem 0x101008 (leBytes 8 0x42) }
def isOk {α β : Type} : Except α β → Bool | .ok _ => true | .error _ => false

/-- A node as the dispatcher reads it. -/
def nodeOf (s : State) : Nat × Nat := match s.queueNode 0 0x201000 with | .ok n => n | .error _ => (0, 0)
def nodeD (s : State) : NodeD := NodeD.ofNat (nodeOf s).1
def nodeIo (s : State) : Nat := nodeAsd 0 (nodeOf s).2

/-- An operation of warp 0, past its queue. -/
def anOp (cls func : Nat) : EngOp :=
  { id := 7, cls := cls, func := func, warp := 0, team := 0, core := 0, a := 0x201000, b := 0x204000, c := 1, queued := true }
def opened (s : State) (o : EngOp) : State := { s with ops := [o] }

/-- It is `o`, past its queue and its captured writes, with nothing started, and no other stands at its engine. -/
def waits (s : State) (o : EngOp) : Prop :=
  s.op 7 = some o ∧ (o.started = false ∧ o.stage = 0 ∧ o.code = none ∧ unheld o) ∧ (o.cancel = true ∨ Captured s o) ∧ engineFirst s o

theorem waits_of {s : State} {o : EngOp} (h : (s.op 7 == some o && !o.started && o.stage == 0 && o.code.isNone && !o.susp && !o.away &&
    o.susc == 0 && (o.cancel || (o.queued && o.caught == [] && o.gcap + 4 ≤ s.dieTime (o.core / 64))) && s.ops.all (fun e => e.id == o.id && e.enter == o.enter)) = true) :
    waits s o := by
  simp only [Bool.and_eq_true, Bool.or_eq_true, beq_iff_eq, Bool.not_eq_true', Option.isNone_iff_eq_none, decide_eq_true_eq,
    List.all_eq_true] at h
  obtain ⟨⟨⟨⟨⟨⟨⟨⟨h1, h2⟩, h3⟩, h4⟩, h5⟩, h6⟩, h7⟩, h8⟩, h9⟩ := h
  refine ⟨h1, ⟨h2, h3, h4, h5, h6, h7⟩, h8.imp id fun ⟨⟨a, b⟩, c⟩ => ⟨a, b, .inr (.inr c)⟩, fun e he _ _ _ => .inr ?_⟩
  exact ⟨(h9 e he).2.symm, le_of_eq (h9 e he).1.symm⟩

theorem witness_EngineEventsComplete_start :
    (∀ o ∈ [{ anOp 8 0 with cancel := true }, { anOp 0xD 2 with cancel := true }, anOp 8 0, anOp 8 8, anOp 0xD 2, { anOp 0xD 3 with b := 512 },
      { anOp 0xD 3 with b := 0 }], waits (opened s1 o) o) ∧
    (∀ o ∈ [anOp 0xD 0, anOp 0xD 1, anOp 0xD 4], waits (opened (noded 1) o) o) := by
  constructor <;> (intro o h; simp only [List.mem_cons, List.not_mem_nil, or_false] at h)
  · rcases h with rfl | rfl | rfl | rfl | rfl | rfl | rfl <;> exact waits_of (by decide +kernel)
  · rcases h with rfl | rfl | rfl <;> exact waits_of (by decide +kernel)

/-- `Joins` and `AtHome`, computed. -/
theorem joins_of {o : EngOp} {ta : Nat} (h : (!isScr ta && !isRcv ta && o.home.isNone) = true) : Joins o ta := by
  simp only [Bool.and_eq_true, Bool.not_eq_true', Option.isNone_iff_eq_none] at h
  exact ⟨h.1.1, h.1.2, fun _ _ e => by rw [h.2] at e; cases e⟩
theorem atHome_of {s : State} {o : EngOp} {ta : Nat} (h : (!isScr ta && !isRcv ta && (match o.home with
    | some (l, k) => l == lineOf ta && s.homeTurn l (o.homeKey k)
    | none => false)) = true) : AtHome s o ta (s.updOp o.id (fun e => { e with home := none })) := by
  simp only [Bool.and_eq_true, Bool.not_eq_true'] at h
  obtain ⟨⟨h1, h2⟩, h3⟩ := h
  cases ho : o.home with
  | none => simp [ho] at h3
  | some p =>
    simp only [ho, Bool.and_eq_true, beq_iff_eq] at h3
    exact .inr ⟨h1, h2, rfl, p.2, by rw [ho, ← h3.1], homeTurn_iff.2 (h3.1 ▸ h3.2)⟩

/-- LAUNCH reads its node and its records, EMIT a queue with no room and one with room at a free line, NDONE is the first of its
warp, SLOTW finds no image, PRMPT no instance. -/
theorem witness_EngineEventsComplete_graph :
    let get {α β : Type} (d : β) (x : Except α β) : β := match x with | .ok y => y | .error _ => d
    let fine {α β : Type} (x : Except α β) : Bool := match x with | .ok _ => true | .error _ => false
    let l := anOp 0xD 0
    let e := anOp 0xD 1
    let n := anOp 0xD 2
    let p := anOp 0xD 4
    let s := opened (noded 1) l
    let full := opened (noded 0) e
    let room := opened (noded 1) e
    let x := get (0, 0) (room.readNode e)
    let d := NodeD.ofNat x.1
    let bs := room.devRead e e.b (d.recSize * e.c) 8
    let ta := get 0 (room.engDev e e.a 128 128 1)
    let turn := { e with home := some (lineOf (ta + 120), 5) }
    (fine (s.readNode l) && fine (s.devRead l l.b 8 8)) = true ∧
    (fine (full.readNode e) && (NodeD.ofNat (get (0, 0) (full.readNode e)).1).qcap == 0) = true ∧
    (fine (room.readNode e) && d.qcap != 0 && d.tail + e.c - 1 - d.taken < d.qcap && fine bs &&
      fine (room.engDev e e.a 128 128 1) && fine (room.emitPlaces d (nodeAsd e.asd x.2)
        ((List.range e.c).map (fun i => (d.tail + i, ((get [] bs).drop (d.recSize * i)).take d.recSize))))) = true ∧
    (Joins e (ta + 120) ∧ AtHome (opened (noded 1) turn) turn (ta + 120)
      ((opened (noded 1) turn).updOp turn.id (fun e => { e with home := none }))) ∧
    ((opened s1 n).releaseReady n.warp n.scope = true ∧ (opened s1 n).ops.all (fun e => n.id ≤ e.id) = true) ∧
    ((s1.core 512).image = none ∧ (s1.core 0).image = none) ∧
    ((fine ((opened (noded 1) p).readNode p)) = true ∧ (opened (noded 1) p).insts = []) := by
  dsimp only
  refine ⟨?_, ?_, ?_, ⟨joins_of (by decide +kernel), atHome_of (by decide +kernel)⟩, ?_, ?_, ?_⟩ <;> decide +kernel

/-- What an EMIT meets: a node, a record or a queue that is not there yet, and a node that may not be written. -/
theorem witness_EngineEventsComplete_emit :
    let e := anOp 0xD 1
    let far (o : EngOp) (q : Nat) : State := untouched { opened (noded 1) o with mem := writeBytes (noded 1).mem 0x201000 (leBytes 128
      (0x202000 + q * 2 ^ 64 + 2 ^ 736 + 3 * 2 ^ 756 + 2 ^ 761 + 2 ^ 780)) }
    let copied : State := { opened (noded 1) e with mem := writeBytes (noded 1).mem 0x101000 (leBytes 8 0x3F) }
    let d := NodeD.ofNat (nodeOf (far e 0x100000000)).1
    (far { e with a := 0x100000000 } 0).readNode { e with a := 0x100000000 } = .error (.fault 0x0B 0x100000000) ∧
    (far { e with b := 0x100000000 } 0x203000).devRead { e with b := 0x100000000 } 0x100000000 32 8 = .error (.fault 0x0B 0x100000000) ∧
    copied.engDev e e.a 128 128 1 = .error (.fault 0x0C e.a) ∧
    (far e 0x100000000).emitPlaces d 0 [(0, List.replicate 32 0)] = .error (.fault 0x0B 0x100000000) := by decide +kernel

/-- A copy's elements: one whose source is mapped and one whose source is not, and the whole first chunk written; a
cancelled copy; bytes that have landed for an object; operations that are done, with an error and without. -/
theorem witness_EngineEventsComplete :
    let run (b : Nat) : State := (opened s1 { anOp 8 0 with b := b }).beginCopy { anOp 8 0 with b := b }
    let o (s : State) : EngOp := (s.op 7).getD (anOp 8 0)
    let going (s : State) : Prop := s.op 7 = some (o s) ∧ (o s).copying = true ∧ (o s).susc = 0 ∧ (o s).cancel = false ∧
      (o s).susp = false ∧ (o s).away = false ∧ (o s).cls = 8 ∧ (o s).func = 0 ∧ s.ops.all (fun e => e.id == 7) = true
    let ok (s : State) : Bool := match s.element (o s) with | .ok _ => true | .error _ => false
    let cut := opened s1 { anOp 8 0 with started := true, cancel := true }
    let arrives (h : Option (Nat × Nat)) : EngOp :=
      { anOp 8 0 with started := true, bar := some 0x204000, adds := [(1, 0, [])], home := h }
    let landed (h : Option (Nat × Nat)) := opened s1 (arrives h)
    let at' := some (lineOf 0x204000, 5)
    let past (c : Nat) := opened s1 { anOp 8 0 with started := true, code := some c, bar := some 0x204000 }
    let chunk := cpyChunk (o (run 0x204000)).a (o (run 0x204000)).b (o (run 0x204000)).c 0
    let read := ((o (run 0x204000)).table.drop chunk.1).take chunk.2
    (going (run 0x204000) ∧ ok (run 0x204000) = true) ∧
    ((∀ n ∈ read, n < 256) ∧ ((run 0x204000).engLocs (o (run 0x204000)) 1
      (pieces (addr64 ((o (run 0x204000)).a + chunk.1)) read.length)).toBool = true) ∧
    (going (run 0x100000000) ∧ ok (run 0x100000000) = false) ∧
    (cut.op 7 = some (o cut) ∧ (o cut).copying = true ∧ (o cut).cancel = true ∧ (o cut).next = 0) ∧
    ((∀ h ∈ [none, at'], (landed h).op 7 = some (arrives h) ∧ (arrives h).adds = [] ++ (1, 0, []) :: []) ∧
      Joins (arrives none) 0x204000 ∧
      AtHome (landed at') (arrives at') 0x204000 ((landed at').updOp (arrives at').id (fun e => { e with home := none }))) ∧
    (∀ c ∈ [0, 2], (past c).op 7 = some (o (past c)) ∧ (o (past c)).code = some c ∧ (past c).writes = [] ∧ (o (past c)).gmax = 0 ∧
      (o (past c)).adds = []) := by
  dsimp only
  refine ⟨?_, ?_, ?_, ?_, ⟨?_, joins_of rfl, atHome_of (by decide +kernel)⟩, ?_⟩ <;> decide +kernel

/-- The sequencer's core 0 with a tile operation, started or not, or with another of its kind. -/
def sequenced (o : EngOp) (run : Bool) : State :=
  { opened s1 o with cores := [(0, { seq := if run then some 7 else none })]
                     mem := writeBytes (writeBytes s1.mem 0x207000 (leBytes 32 (0x208000 + 2 ^ 160))) 0x208000 (leBytes 16 1) }

theorem witness_SequencerEventsComplete :
    let zero : EngOp := { anOp 9 2 with mask := 1 }
    let attn : EngOp := { anOp 0xA 4 with b := 0x207000, fmt := 0x133, opf := 8 }
    let gone : EngOp := { zero with cancel := true }
    let step : EngOp := { zero with started := true }
    let stop : EngOp := { step with cancel := true }
    let back : EngOp := { step with susp := true }
    let cpyx : EngOp := { anOp 8 5 with stage := 1, tc := 1024 }
    let fine {α β : Type} (x : Except α β) : Bool := match x with | .ok _ => true | .error _ => false
    let next (o : EngOp) (c : Bool) : Bool := let s := sequenced o false
      (s.core 0).seq == none && s.seqNext 0 == some o && o.started == c
    (next zero false && zero.cls != 8 && (sequenced zero false).seqCancelled 0 == none && !zero.attn &&
      fine ((sequenced zero false).tileChecks zero)) = true ∧
    (next attn false && (sequenced attn false).seqCancelled 0 == none && attn.attn && fine ((sequenced attn false).attnBegin attn)) = true ∧
    (sequenced gone false).seqCancelled 0 = some gone ∧
    (let s := sequenced step true
      let t := s.tileStep step
      s.running 0 == some step && !s.mustStop step && !step.attn && !s.copiesInto step (s.tileReads step) &&
        (match t.op 7 with | some e => e.code == none && e.susc == 0 | none => false)) = true ∧
    ((sequenced stop true).running 0 = some stop ∧ (sequenced stop true).mustStop stop = true) ∧
    (next back true && back.kblk == 0) = true ∧
    (next cpyx false && (sequenced cpyx false).op 7 == some cpyx && cpyx.cls == 8 && !cpyx.attn &&
      !fine ((sequenced cpyx false).tileChecks cpyx)) = true := by
  decide +kernel

/-- `ArrayNext` for the one operation of a state, computed. -/
theorem next_of {s : State} {o : EngOp} (h : s.ops = [o]) (h' : (o.queued && o.caught == [] && o.gcap + 4 ≤ s.dieTime (o.core / 64) &&
    (o.cls == 9 || o.attn || (o.cls == 8 && o.func == 5 && o.stage == 1)) && o.code.isNone && o.susc == 0 && !o.cancel &&
    (!o.started || o.susp) && s.warps.any (fun p => p.2.inst == o.inst && !p.2.retired && p.2.team == o.team && p.2.placed && p.2.core == o.core) &&
    (o.attn || !s.copiesInto o (s.tileReads o))) = true) : ArrayNext s o.core o := by
  simp only [Bool.and_eq_true, Bool.or_eq_true, beq_iff_eq, Bool.not_eq_true', Option.isNone_iff_eq_none, decide_eq_true_eq,
    List.any_eq_true] at h'
  obtain ⟨⟨⟨⟨⟨⟨⟨⟨⟨h1, h2⟩, h3⟩, h4⟩, h5⟩, h6⟩, h7⟩, h8⟩, p, hp, h9⟩, h10⟩ := h'
  have h4' : ofArray o := by unfold ofArray; tauto
  exact ⟨by simp [h], rfl, ⟨⟨h1, h2, .inr (.inr h3)⟩, h4', ⟨h5, h6, h7⟩, h8,
    .inl ⟨p, hp, ⟨h9.1.1.1.1, h9.1.1.1.2⟩, h9.1.1.2, h9.1.2, h9.2⟩,
    fun e he _ _ _ => by rw [h] at he; rw [List.mem_singleton.mp he], h10⟩,
    fun e he _ _ => .inl (by rw [h] at he; exact List.mem_singleton.mp he)⟩

/-- Operations that are next for an array, withdrawn, running on, and made to leave. -/
theorem witness_SequencerEventsComplete_array :
    let zero : EngOp := { anOp 9 2 with mask := 1 }
    let attn : EngOp := { anOp 0xA 4 with b := 0x207000, fmt := 0x133, opf := 8 }
    let gone : EngOp := { zero with cancel := true }
    let back : EngOp := { zero with started := true, susp := true }
    let cpyx : EngOp := { anOp 8 5 with stage := 1, tc := 1024 }
    (∀ o ∈ [zero, attn, cpyx], let s := sequenced o false
      (s.core 0).seq = none ∧ ArrayNext s 0 o ∧ o.started = false ∧ ∀ e ∈ s.ops, ¬withdrawn s 0 e) ∧
    (ArrayNext (sequenced back false) 0 back ∧ back.started = true) ∧
    ((sequenced gone false).ops = [] ++ gone :: [] ∧ withdrawn (sequenced gone false) 0 gone) ∧
    (∀ o : EngOp, o = { zero with started := true } → ¬mustLeave (sequenced o true) o) ∧
    mustLeave (sequenced gone true) gone ∧
    (let s := sequenced zero false
     tileFits s zero []) := by
  refine ⟨?_, ⟨next_of rfl (by decide +kernel), rfl⟩, ⟨rfl, by unfold withdrawn ofArray; decide +kernel⟩, ?_, .inl rfl, ?_⟩
  · intro o ho s
    refine ⟨rfl, ?_, ?_, ?_⟩
    · simp only [List.mem_cons, List.not_mem_nil, or_false] at ho
      rcases ho with rfl | rfl | rfl <;> exact next_of rfl (by decide +kernel)
    · simp only [List.mem_cons, List.not_mem_nil, or_false] at ho
      rcases ho with rfl | rfl | rfl <;> rfl
    · intro e he h
      have : e = o := List.mem_singleton.mp he
      subst this
      have hc := h.2.2.2.1
      simp only [List.mem_cons, List.not_mem_nil, or_false] at ho
      rcases ho with rfl | rfl | rfl <;> exact absurd hc (by decide)
  · rintro o rfl (h | h | ⟨e, he, _, _, h⟩)
    · exact absurd h (by decide)
    · exact h (.inl ⟨_, List.mem_cons_self, by decide +kernel⟩)
    · have := List.mem_singleton.mp he
      subst this
      exact absurd h (by decide)
  · unfold tileFits; decide +kernel

/-- A core whose slot table names tenant 0, an image to be taken, and a wake. -/
theorem witness_IssueEventsComplete :
    let c := warped (fun w => { w with core := 511 })
    let i : State := { s1 with cores := [(0, { image := some ([], 0, 0, 7) })] }
    let w : State := { warped (fun w => { w with wakes := [⟨9, 0, 0⟩] }) with waits := [{ id := 9, on := .woken, warp := 0, way := 0, dst := .discard }] }
    c.plat.absCores.contains 511 = false ∧ (ofTenant ((c.core 511).slots.get 0 0) (c.cands 511 0)).isSome = true ∧
    (ofTenant 0 (s1.cands 1 0) = none ∧ (s1.core 1).donor.getLsbD 0 = false) ∧
    ((i.core 0).image = some ([], 0, 0, 7) ∧ (i.core 0).cyc % 256 = 0 ∧ (i.core 0).slot = 0) ∧
    (i.plat.absCores.contains 0 = false ∧ 2 ≤ i.plat.bstage ∧ i.plat.fail = false) ∧
    ((w.warp 0).wakes = [⟨9, 0, 0⟩] ∧ (w.warp 0).placed = true ∧ (w.waits.find? (fun x => x.id == 9)).map (fun x => x.how) = some 0) := by
  decide +kernel

/-- Wakes of each kind, and a slot with no cycle owed and with one. -/
theorem witness_IssueEventsComplete_wakes :
    let w (st how : Nat) (l : List Waiter) : State := { warped (fun w => { w with wakes := [⟨9, st, 0⟩] }) with
      waits := l.map (fun x => { x with how := how }) }
    let x : Waiter := { id := 9, on := .woken, warp := 0, way := 0, dst := .discard }
    let owes (n : Nat) : State := { warped (fun w => { w with core := 511 }) with cores := [(511, { owed := [(0, n)], donor := 1 })] }
    ((w 0 0 []).waits.find? (fun x => x.id == 9) = none ∧ ((w 0 0 []).warp 0).wakes = [⟨9, 0, 0⟩]) ∧
    (∀ q ∈ [(0, 0), (0, 1), (1, 2), (2, 2), (0, 3)], ((w q.1 q.2 [x]).warp 0).placed = true ∧ ((w q.1 q.2 [x]).warp 0).wakes = [⟨9, q.1, 0⟩] ∧
      ((w q.1 q.2 [x]).waits.find? (fun x => x.id == 9)).map (fun x => x.how) = some q.2) ∧
    (∀ n ∈ [0, 2], (owes n).plat.absCores.contains 511 = false ∧ ((owes n).core 511).owed.get 0 0 = n ∧
      (ofTenant (((owes n).core 511).slots.get 0 0) (if n = 0 then (owes n).cands 511 0 else [])).isSome = decide (n = 0)) := by
  decide +kernel

/-! ## Coherence, the host, other parts -/

/-- Line `l` in a state at die 7, a message of the die on its way, and the line's directory entry. -/
def lined (l : Nat) (x : L2Line) (k : Option MsgKind) (e : DirE) : State :=
  { keyed s1 with
    dies := [(7, { l2 := [(l, x)] })]
    net := match k with | some k => [{ kind := k, die := 7, line := l }] | none => []
    dir := [(l, e)]
    reqs := [{ id := 7, warp := 0, core := 511, kind := .load, accs := [{ lane := 0, ta := 64 * l, len := 4, left := [3] }], started := true }]
    writes := [{ id := 7, warp := some 0, die := 7, line := l, place := .die, kind := .store }] }

theorem witness_CoherenceRequestsComplete :
    let at' (st : L2St) : State := lined 1 { st := st } none {}
    let m (k : MsgKind) (e : DirE) : State := lined 1 {} (some k) e
    let both : BitVec 8 := 0x81
    (((at' .I).l2 7 1).st = .I ∧ (at' .I).needsRead 7 1 = true ∧ (at' .I).needsWrite 7 1 = true) ∧
    (∀ st ∈ [L2St.S, .O], ((at' st).l2 7 1).st = st ∧ ((at' st).l2 7 1).snoop = none ∧ (at' st).needsWrite 7 1 = true) ∧
    (∀ k ∈ [MsgKind.rds, .rdx], ∀ st ∈ [0, 1, 2, 3], ∀ sh ∈ [(0 : BitVec 8), both],
      ((m k { state := st, shar := sh }).takeReq k 7 1).any (fun t => (t.dirE 1).state == st && (t.dirE 1).shar == sh && !(t.dirE 1).hostc) = true) ∧
    (∀ sh ∈ [(0x80 : BitVec 8), both],
      ((m .upg { state := 1, shar := sh }).takeReq .upg 7 1).any (fun t => (t.dirE 1).shar.getLsbD 7 && (t.dirE 1).shar == sh) = true) ∧
    isHost (64 * 1) = false ∧ isHost (64 * (hostBase / 64)) = true ∧
    ((lined (hostBase / 64) {} (some .rds) {}).takeReq .rds 7 (hostBase / 64)).any (fun t => (t.dirE (hostBase / 64)).host == 0) = true := by
  decide +kernel

theorem witness_CoherenceAnswersComplete :
    let at' (st : L2St) (n : Option Nat) : State := lined 1 { st := st, snoop := n, exp := 1000 } none {}
    let m (k : MsgKind) (e : DirE) : State := lined 1 {} (some k) e
    let wait (k : MsgKind) (tr : Nat) : DirE := { state := 2, owner := 7, trans := tr, txn := some { kind := k, die := 0, wait := 0x80 } }
    let took (k : MsgKind) (e : DirE) (c : State → Bool) : Bool := match (m k e).takeMsg k 7 1 with | some (_, t) => c t | none => false
    (∀ p ∈ [(L2St.M, none), (.O, none), (.S, none), (.E, none), (.S, some 0), (.SM, some 0), (.O, some 0), (.M, some 0), (.E, some 2),
        (.M, some 1), (.E, some 1), (.I, some 1), (.IS, some 0), (.IM, some 2)], let x := (at' p.1 p.2).l2 7 1
      x.st = p.1 ∧ x.snoop = p.2 ∧ x.locked = false ∧ (at' p.1 p.2).leasesOver 7 1 = true) ∧
    (took .wbd { state := 2, owner := 7 } (fun t => !t.awaits 7 1 && (t.dirE 1).trans == 0) &&
      took .wbd { state := 2, owner := 6 } (fun t => !t.awaits 7 1 && (t.dirE 1).trans == 0) &&
      took .evc (wait .rdx 1) (fun t => t.awaits 7 1 && (t.dirE 1).trans == 1) && took .evc {} (fun t => !t.awaits 7 1) &&
      took .ackinv (wait .rdx 1) (fun _ => true) &&
      [MsgKind.rds, .rdx].all (fun k => took .rspd (wait k 2) (fun t => t.awaits 7 1 && !(t.txn 1).recov && (t.dirE 1).trans != 3 &&
        (t.txn 1).kind == k)) &&
      took .rspi (wait .rdx 2) (fun t => t.awaits 7 1) && took .rspi {} (fun t => !t.awaits 7 1) &&
      took .rspd { held := 0x80 } (fun t => (t.dirE 1).held.getLsbD 7) &&
      took .wbd {} (fun t => !t.owes 7 1) && took .wbd {} (fun t => (t.send { kind := .rspd, die := 7, line := 1 }).owes 7 1)) = true := by
  decide +kernel

theorem witness_CoherenceDeliveriesComplete :
    ∀ p ∈ [(MsgKind.snpinv, L2St.S), (.snpfwd, .M), (.snpfwdx, .E), (.dats, .IS), (.date, .IS), (.datm, .IM), (.grant, .SM), (.wback, .MI)],
      let s := lined 1 { st := p.2 } (some p.1) {}
      (s.takeMsg p.1 7 1).isSome = true ∧ (s.l2 7 1).st = p.2 := by decide +kernel

theorem witness_HostCoherenceCompletes :
    let h := hostBase / 64
    let acc (b : List (BitVec 8)) : HostAcc := { addr := 64, len := 4, bytes := b, cxl := true }
    let biw (b : Bool) (k : MsgKind) : State := lined 1 {} none { trans := 4, hostc := true, txn := some { kind := k, die := 7, biw := b } }
    let want : State := { lined 1 {} none { hostc := true } with
      writes := [{ id := 7, warp := some 0, line := 1, place := .bank, kind := .red 0 }] }
    let q := lined h {} none { trans := 2, txn := some { kind := .rds, die := 7, hostq := true } }
    let snp (n : Option Bool) := lined h {} none { hsnp := n }
    let pend (a : HostAcc) := (lined 1 {} none {}).arriveHost a
    (((biw false .rds).dirE 1).trans = 4 ∧ ((biw false .rds).txn 1).biw = false) ∧
    ((want.dirE 1).trans = 0 ∧ (want.dirE 1).hostc = true ∧ want.bankWants 1 = true) ∧
    (∀ k ∈ [MsgKind.rds, .rdx, .wback], ((biw true k).dirE 1).trans = 4 ∧ ((biw true k).txn 1).biw = true ∧
      ((biw true k).txn 1).recov = false ∧ ((biw true k).txn 1).kind = k) ∧
    ((q.txn h).hostq = true ∧ isHost (64 * h) = true ∧ (List.replicate 64 0).length = 64 ∧ q.link.down = false ∧ q.carries 17 = true) ∧
    ((snp none).dirE h).hsnp = none ∧
    (∀ b : Bool, ((snp (some b)).dirE h).hsnp = some b ∧ ((snp (some b)).dirE h).trans = 0 ∧ (snp (some b)).diesReady h b = true) ∧
    (∀ b ∈ [[], [1, 2, 3, 4]], (acc b).cxl = true ∧ (snp none).plat.ready = true ∧ (snp none).link.down = false ∧
      (snp none).carries 17 = true ∧ (snp none).goodAcc (acc b) = true ∧ (pend (acc b)).hostTurn (acc b) = true) := by decide +kernel

/-- The first message on its way is one whose turn it is. -/
theorem turn_of {s : State} {k : MsgKind} {d l : Nat} {m : Msg} {b : List Msg} (h : s.net = m :: b)
    (h1 : (s.dirE l).trans = 0) (h2 : isHost (64 * l) = true → (s.dirE l).hsnp = none)
    (h3 : m.kind = k ∧ m.die = d ∧ m.line = l)
    (h4 : headOfLine s l (homeKey m.time 0 d)) : Turn s k d l b :=
  ⟨h1, h2, [], m, b, h, rfl, h3.1, h3.2.1, h3.2.2, nofun, h4⟩

/-- Requests whose turn it is at lines in every state of their entries, and the loads and writes that make a die ask. -/
theorem witness_CoherenceRequestsComplete_turns :
    (∀ k ∈ [MsgKind.rds, .rdx, .upg], ∀ l ∈ [1, hostBase / 64], ∀ h ∈ [0, 1, 2], ∀ st ∈ [0, 1, 2, 3],
      ∀ sh ∈ [(0 : BitVec 8), 0x80, 0x81], ∀ hc : Bool, ∀ e, e = ({ state := st, shar := sh, host := h, hostc := hc } : DirE) →
      let s := lined l {} (some k) e
      Turn s k 7 l [] ∧ s.dirE l = e) ∧
    (∀ st ∈ [L2St.I, .S, .O], let s := lined 1 { st := st } none {}
      (s.l2 7 1).st = st ∧ (s.l2 7 1).snoop = none ∧ loadWants s 7 1 ∧ writeWants s 7 1) := by
  constructor
  · intro k hk l hl h hh st hst sh hsh hc e he s
    subst he
    have hd : s.dirE l = { state := st, shar := sh, host := h, hostc := hc } := by
      simp [s, lined, State.dirE, Tab.find, Tab.get]
    refine ⟨turn_of (m := { kind := k, die := 7, line := l }) rfl ?_ ?_ ⟨rfl, rfl, rfl⟩ ⟨?_, ?_, ?_, ?_⟩, hd⟩
    · rw [hd]
    · rw [hd]; exact fun _ => rfl
    · intro x hx _ _; simp [s, lined] at hx; subst hx; exact le_refl _
    · intro p hp; exact absurd hp (by simp [s, lined, keyed, s1, State.reset, State.withFetchWord])
    · intro w hw _ _ h; simp [s, lined] at hw; subst hw; exact absurd h Bool.false_ne_true
    · intro o ho; exact absurd ho (by simp [s, lined, keyed, s1, State.reset, State.withFetchWord])
  · intro st hst s
    refine ⟨rfl, rfl, ?_, ?_⟩
    · exact ⟨_, List.mem_cons_self, rfl, rfl, by decide, _, List.mem_cons_self, 3, by simp, by decide⟩
    · exact .inl ⟨_, List.mem_cons_self, rfl, rfl, by simp, by simp, rfl, rfl⟩

/-- The first message on its way arrives. -/
theorem arrives_of {s : State} {k : MsgKind} {d l : Nat} {m : Msg} {b : List Msg} (h : s.net = m :: b)
    (h3 : m.kind = k ∧ m.die = d ∧ m.line = l) : Arrives s k d l m b :=
  ⟨[], b, h, rfl, h3.1, h3.2.1, h3.2.2, nofun⟩

/-- Answers and evictions that arrive: unasked, asked for with others or alone, and in a recovery; and lines that a die gives up first. -/
theorem witness_CoherenceAnswersComplete_messages :
    let m (k : MsgKind) (e : DirE) : State := lined 1 {} (some k) e
    let msg (k : MsgKind) : Msg := { kind := k, die := 7, line := 1 }
    let awaiting (k : MsgKind) (rec : Bool) (w : BitVec 8) : Txn := { kind := k, die := 0, wait := w, recov := rec }
    (∀ k ∈ [MsgKind.wbd, .evc, .ackinv, .rspd, .rspi], ∀ e, Arrives (m k e) k 7 1 (msg k) []) ∧
    (∀ k ∈ [MsgKind.wbd, .evc, .rspd, .rspi], ∀ o ∈ [6, 7], let e : DirE := { state := 2, owner := o }
      ((m k e).dirE 1).state = 2 ∧ ((m k e).dirE 1).owner = o ∧ ∀ y, ((m k e).dirE 1).txn = some y → y.wait.getLsbD 7 = false) ∧
    (∀ k ∈ [MsgKind.wbd, .evc, .rspd, .rspi], ∀ q ∈ [MsgKind.rds, .rdx], ∀ tr ∈ [1, 2, 3], ∀ rec : Bool, ∀ w ∈ [(0x80 : BitVec 8), 0x81],
      let y := awaiting q rec w
      let s := m k { state := 2, owner := 7, trans := tr, txn := some y }
      (s.dirE 1).trans = tr ∧ (s.dirE 1).owner = 7 ∧ (s.dirE 1).txn = some y ∧ y.wait.getLsbD 7 = true ∧ y.recov = rec ∧ y.kind = q) ∧
    (∀ st ∈ [L2St.M, .O, .S, .E], let s := lined 1 { st := st, exp := 1000 } none {}
      (s.l2 7 1).st = st ∧ leavesNext s 7 1) := by
  refine ⟨fun k hk e => arrives_of rfl ⟨rfl, rfl, rfl⟩, by decide +kernel, by decide +kernel, ?_⟩
  intro st hst s
  refine ⟨rfl, ?_, ?_⟩
  · refine ⟨?_, rfl, rfl, ?_⟩
    · have e : (s.l2 7 1).st = st := rfl
      rw [e]; revert st; decide
    · revert st; decide +kernel
  · intro p hp h
    have : p = (1, { st := st, exp := 1000 }) := by simpa [s, lined, State.die, Tab.find, Tab.get] using hp
    subst this
    exact absurd h (by decide +kernel +revert)

theorem witness_CoherenceDeliveriesComplete_messages :
    ∀ p ∈ [(MsgKind.snpinv, L2St.S), (.snpfwd, .M), (.snpfwdx, .E), (.dats, .IS), (.date, .IS), (.datm, .IM), (.grant, .SM), (.wback, .MI)],
      let s := lined 1 { st := p.2 } (some p.1) {}
      Arrives s p.1 7 1 { kind := p.1, die := 7, line := 1 } [] ∧ (s.l2 7 1).st = p.2 :=
  fun _ _ => ⟨arrives_of rfl ⟨rfl, rfl, rfl⟩, rfl⟩

/-- Host snoops and accesses whose turn it is, a recovery that waits for the host, and what else may want a bank line. -/
theorem witness_HostCoherenceCompletes_turns :
    let h := hostBase / 64
    let acc (b : List (BitVec 8)) : HostAcc := { addr := 64, len := 4, bytes := b, cxl := true }
    let snp (n : Option Bool) : State := lined h {} none { hsnp := n }
    let pend (a : HostAcc) : State := { lined 1 {} none {} with link := { (lined 1 {} none {}).link with pend := [(a, 1000)] } }
    let rec' : State := lined 1 {} none { trans := 4, hostc := true, txn := some { kind := .rdx, die := 7, biw := true, recov := true } }
    let want : State := lined 1 {} none { hostc := true }
    let op : State := { want with ops := [{ anOp 0xA 2 with home := some (1, 5) }], writes := [] }
    let walk : State := { want with trees := { want.trees with walk := some { root := 5 } } }
    let tree : Req := { id := 8, warp := 0, kind := .tree 3 0 0 0 0 0, started := true }
    (∀ b : Bool, ((snp (some b)).dirE h).hsnp = some b ∧ ((snp (some b)).dirE h).trans = 0 ∧ answerable (snp (some b)) h b) ∧
    (∀ b ∈ [[], [1, 2, 3, 4]], (pend (acc b)).link.pend = [] ++ (acc b, 1000) :: [] ∧ accLines (acc b) = [1] ∧
      ((pend (acc b)).dirE 1).trans = 0 ∧ answerable (pend (acc b)) 1 (accWr (acc b)) ∧ headOfLine (pend (acc b)) 1 (homeKey 1000 1 0)) ∧
    ((rec'.txn 1).recov = true ∧ (rec'.txn 1).biw = true) ∧
    ((want.dirE 1).trans = 0 ∧ (want.dirE 1).hostc = true ∧ (∃ o ∈ op.ops, o.home = some (1, 5)) ∧ walk.trees.walk.isSome = true ∧
      tree.started = true ∧ tree.kind = .tree 3 0 0 0 0 0) := by
  refine ⟨fun b => ⟨rfl, rfl, answerable_iff.2 (by revert b; decide +kernel)⟩,
    fun b hb => ⟨rfl, ?_, rfl, answerable_iff.2 ?_, headOfLine_iff.2 ?_⟩, by decide +kernel, by decide +kernel⟩ <;>
  · revert b; decide +kernel

theorem witness_OutsideAccessesComplete :
    let s := keyed s1
    let cold : State := { s with plat := { s.plat with ready := false } }
    let a (addr len : Nat) : HostAcc := { addr := addr, len := len, bytes := List.replicate len 1, cxl := false }
    let p (addr len : Nat) (op : Option Nat) : PeerAcc := ⟨3, none, addr, len, List.replicate len 1, op⟩
    (s.link.down = false ∧ s.carries 0 = true ∧ s.plat.ready = true ∧ cold.plat.ready = false ∧ cold.carries 0 = true) ∧
    ((s.window 0 (a 64 4)).isSome = true ∧ s.window 15 (a (2 ^ 36 - 1) 1) = none ∧ s.carries 15 = true) ∧
    (∀ n ∈ [4, 8], (a (2 ^ 39 - 8) n).len = n ∧ (a (2 ^ 39 - 8) n).addr % n = 0 ∧ (a (2 ^ 39 - 8) n).bytes ≠ []) ∧
    (∀ w : Bool, isCtl 0x8000000000 = true ∧ 0x8000000000 % (if w then 8 else 4) = 0 ∧ isBlock 0x8000000000 = false ∧ isBlock 0x8050000000 = true) ∧
    (2 ≤ s.plat.bstage ∧ s.plat.fail = false) ∧
    (∀ q ∈ [(64, 4, none), (64, 4, some 11), (128, 8, some 0), (ctlBase - 16, 16, some 16)],
      s.peerLocs (p q.1 q.2.1 q.2.2) 1 = [(q.1, q.2.1)] ∧ (p q.1 q.2.1 q.2.2).bytes.length = q.2.1 ∧ q.1 % q.2.1 = 0) ∧
    ((a 0x0B8 0).bytes = [] ∧ (a 0x0B8 0).addr < 0x0C0) ∧
    (isCtl 64 = false ∧ isDev 64 = true ∧ s.stackAbsent (stackOf (lineOf 64)) = false ∧ isCtl hostBase = false ∧
      isHost hostBase = true ∧ hostBase % 8 = 0) := by decide +kernel

/-! ## The dispatcher, the scheduler, errors, the host link, the platform -/

/-- A node at 0x201000 with `tail` records in a queue of two slots at `base` and groups of `coal`. -/
def queued (coal tail : Nat) (q : NodeQ) (base : Nat := 0x203000) : State := { s1 with
  mem := writeBytes s1.mem 0x201000 (leBytes 128 (0x202000 + base * 2 ^ 64 + 2 * 2 ^ 736 + 3 * 2 ^ 756 + coal * 2 ^ 761 +
    2 ^ 780 + tail * 2 ^ 960))
  nodes := [q] }

/-- A header of one warp of 32 lanes to a team, on die 0, and one of 64 warps of 512 registers. -/
def oneWarp : Nat := 2 ^ 98 + 5 * 2 ^ 128 + 31 * 2 ^ 192
def manyWarps : Nat := 511 * 2 ^ 64 + 63 * 2 ^ 82 + 7 * 2 ^ 95 + 2 ^ 98 + 11 * 2 ^ 128 + 2047 * 2 ^ 192
def anInst (hdr state : Nat) : Inst := { asd := 0, node := 0x201000, num := 0, hdr := hdr, direct := true, state := state, desc := 0x202000 + 2 ^ 780 }
def holding (x : Inst) (f : Warp → Warp) : State :=
  { warped f with insts := [(0, x)], mem := writeBytes s1.mem 0x202000 (leBytes 64 x.hdr) }

/-- Records below the tail whose word is in place or not, and the tail itself; a full group; a malformed node; and faults that
the dispatcher meets at the descriptor, at the sequence word and at the header. -/
theorem witness_DispatcherEventsComplete_queue :
    let q (passed : List Nat) (seen : List (Nat × Nat)) : NodeQ := { asd := 0, node := 0x201000, passed := passed, seen := seen }
    let a := queued 1 2 (q [] [])
    let b := queued 1 1 (q [0] [(0, 900)])
    let c := queued 0 1 (q [] [])
    let far := untouched (queued 1 1 (q [] []) 0x100000000)
    (∀ r ∈ [0, 1], a.queueNode 0 0x201000 = .ok (nodeOf a) ∧ (nodeD a).bad = false ∧ (nodeD a).qcap ≠ 0 ∧ (q [] []).first ≤ r ∧
      r < (nodeD a).tail ∧ r < (q [] []).first + (nodeD a).qcap ∧ r ∉ (a.nodeQ 0 0x201000).passed ∧
      (∀ p ∈ (a.nodeQ 0 0x201000).refetch, p.1 = r → p.2.1 ≤ a.clk.time) ∧ a.emitting (nodeIo a) (nodeD a) r = false ∧
      a.seqOk (nodeD a) (nodeIo a) r = .ok (decide (r = 0))) ∧
    (b.queueNode 0 0x201000 = .ok (nodeOf b) ∧ (nodeD b).bad = false ∧ (nodeD b).qcap ≠ 0 ∧
      (∀ j, j < (nodeD b).coal → (b.nodeQ 0 0x201000).first + j ∈ (b.nodeQ 0 0x201000).passed) ∧
      (b.nodeQ 0 0x201000).seen.find? (fun p => p.1 == (b.nodeQ 0 0x201000).first) = some ((b.nodeQ 0 0x201000).first, 900) ∧
      900 + (nodeD b).tmo ≤ b.clk.time ∧ (b.nodeQ 0 0x201000).first ∈ (b.nodeQ 0 0x201000).passed ∧ 1 ≤ (nodeD b).coal ∧
      1 = (nodeD b).tail ∧ (b.tailEntry 0 0x201000).isSome = true) ∧
    (c.queueNode 0 0x201000 = .ok (nodeOf c) ∧ (nodeD c).bad = true ∧ (nodeD c).qcap ≠ 0 ∧ (c.nodeQ 0 0x201000).first < (nodeD c).tail) ∧
    (far.ops = [] ∧ far.queueNode 0 0x100000000 = .error (.fault 0x0B 0x100000000) ∧
      far.seqOk (nodeD far) (nodeIo far) 0 = .error (.fault 0x0B 0x100000018)) := by decide +kernel

theorem witness_DispatcherEventsComplete :
    let idle := holding (anInst oneWarp 0) (fun w => { w with inst := 9 })
    let bad := holding (anInst 0 0) id
    let send := holding { anInst oneWarp 1 with left := some 0 } id
    let back := holding { anInst oneWarp 1 with back := [0] } id
    let past := holding (anInst oneWarp 1) (fun w => { w with inst := 9 })
    let adm : State := { holding (anInst oneWarp 1) id with cores := [(511, { queue := [(0, 0)] })] }
    let gone (g : Bool) := warped (fun w => { w with team := if g then 9 else 0, arch := { w.arch with gangs := [] } })
    let x (s : State) : Inst := (s.inst 0).getD (anInst 0 0)
    (bad.insts = [(0, x bad)] ∧ (x bad).state = 0 ∧ (x bad).err = 0 ∧ bad.refusal (x bad) ≠ 0 ∧ (x bad).d.preds = [] ∧
      bad.readHdr 0 (x bad).d.hdr = .ok (x bad).hdr) ∧
    (idle.insts = [(0, x idle)] ∧ (x idle).state = 0 ∧ (x idle).err = 0 ∧ idle.refusal (x idle) = 0 ∧ idle.ctxRoom (x idle).tenant = true ∧
      idle.conflict (x idle) = false ∧ (x idle).kind ≠ 1 ∧ (x idle).d.preds = [] ∧ idle.readHdr 0 (x idle).d.hdr = .ok (x idle).hdr) ∧
    ((x send).state = 1 ∧ (x send).stop = false ∧ (x send).back = [] ∧ (x send).left = some 0 ∧ (x send).kind ≠ 1) ∧
    ((x back).state = 1 ∧ (x back).stop = false ∧ (x back).back = [0]) ∧
    ((x past).state = 1 ∧ past.allSent 0 (x past) = true ∧ past.warpsOf 0 = [] ∧ past.ops = []) ∧
    ((adm.core 511).queue = [(0, 0)] ∧ adm.inst 0 = some (x adm) ∧ adm.canAdmit 511 0 (x adm).h 0 = true) ∧
    (((gone false).teams.find 0).isSome = true ∧ ((gone false).leaving 0).isSome = true) ∧
    (((gone true).teams.find 0).isSome = true ∧ (gone true).leaving 0 = none ∧
      (gone true).warps.filter (fun p => p.2.team == 0) = []) := by decide +kernel

theorem witness_SchedulerEventsComplete :
    let late (s : State) : State := { s with clk := { s.clk with time := 4000000 } }
    let beside (y : Inst) (s : State) : State := { s with
      insts := s.insts ++ [(1, y)], plat := { s.plat with absCores := (List.range 511).map (· + 1) } }
    let press := beside { anInst manyWarps 0 with prio := 7 } (holding (anInst oneWarp 1) id)
    let quant := late (beside (anInst oneWarp 0) (holding (anInst oneWarp 1) id))
    let parked (w : Warp) : Warp := { w with since := 1, arch := { w.arch with gangs := [{ slices := 255, park := .wait 9 }] } }
    let idle := late (holding (anInst oneWarp 1) parked)
    let halted (w : Warp) : Warp := { w with preempt := true, arch := { w.arch with gangs := [{ slices := 255, park := .safept 0 }] } }
    let save := holding { anInst oneWarp 1 with stop := true } halted
    let back := holding { anInst oneWarp 1 with stop := true } (fun w => { halted w with placed := false })
    let root : State := { s1 with trees := { s1.trees with ready := [5] } }
    let x (s : State) : Inst := (s.inst 0).getD (anInst 0 0)
    (∀ s ∈ [press, quant, idle], s.inst 0 = some (x s) ∧ s.stoppable 0 (x s) = true) ∧
    ((x press).aged = false ∧ press.pressed 0 (x press) = true) ∧
    ((x quant).start + 2000000 ≤ quant.clk.time ∧ ∃ p ∈ quant.insts, p.1 ≠ 0 ∧ quant.waiting p = true ∧
      ((x quant).prio ≤ p.2.prio ∨ p.2.since + 4000000 ≤ quant.clk.time)) ∧
    (idle.allParked 0 = true ∧ ∀ p ∈ idle.warpsOf 0, p.2.since ≠ 0 ∧ p.2.since + 10000 < idle.clk.time) ∧
    ((save.warp 0).preempt = true ∧ (save.warp 0).placed = true ∧ (save.warp 0).stopped = true ∧ (save.warp 0).retired = false ∧
      (save.warp 0).wpend = 0 ∧ (save.warp 0).evict = false ∧ save.reqs = []) ∧
    (back.inst (back.warp 0).inst = some (x back) ∧ (back.warp 0).placed = false ∧ (x back).stop = true ∧
      back.savedCandidate 0 = true ∧ back.ctxRoom (x back).tenant = true ∧ back.canResume (back.warp 0).team 63 (x back).h = true ∧
      (∀ p ∈ back.insts, back.goesFirst 0 63 (x back) p = false) ∧ ∀ p ∈ back.savedOf (back.warp 0).team, p.1 ≠ 1) ∧
    (root.trees.walk = none ∧ root.trees.ready = [5]) := by decide +kernel

/-- The 1,000th refetch of a record. -/
theorem witness_DispatcherEventsComplete_groups :
    let a := queued 1 2 { asd := 0, node := 0x201000, refetch := [(1, 900, 999)] }
    a.queueNode 0 0x201000 = .ok (nodeOf a) ∧ (nodeD a).bad = false ∧ (nodeD a).qcap ≠ 0 ∧ 1 ∉ (a.nodeQ 0 0x201000).passed ∧
      (∀ p ∈ (a.nodeQ 0 0x201000).refetch, p.1 = 1 → p.2.1 ≤ a.clk.time) ∧
      ((a.nodeQ 0 0x201000).refetch.find? (fun p => p.1 == 1)) = some (1, 900, 999) ∧ a.emitting (nodeIo a) (nodeD a) 1 = false ∧
      a.seqOk (nodeD a) (nodeIo a) 1 = .ok false := by decide +kernel

/-- A node of QCAP 0 with one predecessor, whose barrier object holds `bar`. -/
def preceded (bar : Nat) (ov : Bool) : State := { s1 with
  mem := writeBytes (writeBytes s1.mem 0x201000 (leBytes 128 (0x202000 + 0x204000 * 2 ^ 256 + 3 * 2 ^ 756 + 2 ^ 761 + 2 ^ 769 + 2 ^ 780)))
    0x204000 (leBytes 16 bar)
  nodes := [{ asd := 0, node := 0x201000, overrun := ov }] }

/-- The instance of that node, in a state. -/
def follower (s : State) : Inst :=
  { asd := 0, node := 0x201000, num := 0, desc := (nodeOf s).1, hdr := (nodeOf s).2, owner := (s.asd 0).tenant, direct := true, state := 3 }
def followed (s : State) (st : Nat) (l : Bool) : State := { s with insts := [(0, { follower s with state := st, launched := l })] }

theorem witness_DispatcherEventsComplete_preds :
    let ready := preceded (2 ^ 63) false
    let late := preceded (2 ^ 62) false
    let idle := preceded 0 true
    (∀ s ∈ [ready, late, idle], s.queueNode 0 0x201000 = .ok (nodeOf s) ∧ (follower s).d.qcap = 0 ∧ (follower s).d.preds ≠ [] ∧
      s.undispatched 0 0x201000 = [] ∧ (follower s).d.bad = false) ∧
    (ready.preds (follower ready) = .ok (true, false) ∧ late.preds (follower late) = .ok (false, true) ∧
      (late.nodeQ 0 0x201000).overrun = false ∧ idle.preds (follower idle) = .ok (false, false) ∧
      (idle.nodeQ 0 0x201000).overrun = true) ∧
    (∀ s ∈ [ready, late], (followed s 3 false).inst 0 = some (follower s) ∧ (follower s).state = 3 ∧
      (followed s 3 false).preds (follower s) = s.preds (follower s) ∧ ∀ p ∈ (followed s 3 false).undispatched 0 0x201000, p.1 = 0) ∧
    (∀ s ∈ [ready, late], ∀ l : Bool, let x : Inst := { follower s with state := 0, launched := l }
      (followed s 0 l).inst 0 = some x ∧ x.err = 0 ∧ x.d.preds ≠ [] ∧ (followed s 0 l).preds x = s.preds (follower s) ∧
      (followed s 0 l).readHdr 0 x.d.hdr = .ok x.hdr) := by decide +kernel

/-- What the dispatcher meets at a predecessor and at a header, and a header that a load has replaced. -/
theorem witness_DispatcherEventsComplete_meets :
    let far : Inst := { follower (preceded 0 false) with desc := 0x100002000 + 0x100004000 * 2 ^ 256 + 2 ^ 769 }
    let s (st : Nat) : State := untouched { s1 with insts := [(0, { far with state := st })] }
    let new : State := holding (anInst oneWarp 0) id
    let old : State := { new with insts := [(0, anInst manyWarps 0)] }
    (∀ st ∈ [0, 3], (s st).preds { far with state := st } = .error (.fault 0x0B 0x100004000) ∧ (s st).ops = [] ∧ far.d.preds ≠ [] ∧
      (s st).inst 0 = some { far with state := st } ∧ far.err = 0) ∧
    (s 0).readHdr 0 far.d.hdr = .error (.fault 0x0B 0x100002000) ∧
    (old.inst 0 = some (anInst manyWarps 0) ∧ old.readHdr 0 (anInst manyWarps 0).d.hdr = .ok oneWarp ∧ oneWarp ≠ manyWarps) := by
  decide +kernel

/-- The dispatcher's accesses of a completion, in each of their outcomes. -/
theorem witness_DispatcherEventsComplete_completion :
    let o (st : Nat) : EngOp := {
      id := 7, cls := 0xE, func := 1, warp := 2 ^ 64, team := 2 ^ 64, inst := 0, core := 0, started := true, stage := st }
    let x (crec cbar node : Nat) (dir : Bool) : Inst :=
      { anInst oneWarp 1 with desc := cbar * 2 ^ 128 + crec * 2 ^ 192 + 2 ^ 780, node := node, direct := dir }
    let s (x : Inst) (o : EngOp) : State := untouched { s1 with
      insts := [(0, x)], ops := [o], nodes := [{ asd := 0, node := x.node, groups := [(0, 1, false)] }] }
    let writes (c : Nat) := let x := x c 0 0x201000 true; (s x (o 0)).asdWrite (o 0) x.io x.recordAt ((s x (o 0)).record x)
    let takes (n : Nat) (d : Bool) := let x := x 0 0 n d; (s x (o 1)).advanceTaken (o 1) x
    let joins (c : Nat) := let x := x 0 c 0x201000 true; (s x (o 2)).cbarAt x
    let bar (h : Option (Nat × Nat)) : EngOp := { o 2 with bar := some 0x205000, home := h }
    let at' := some (lineOf 0x205000, 5)
    (∀ st ∈ [0, 1, 2], (s (x 0 0 0x201000 true) (o st)).ops = [] ++ o st :: [] ∧ (o st).susc = 0 ∧ (o st).cancel = false ∧ (o st).adds = []) ∧
    ((x 0 0 0 true).d.crcap ≠ 0 ∧ isOk (writes 0x206000) = true ∧ writes (2 ^ 57) = .error (.code 2) ∧
      writes 0x100000000 = .error (.fault 0x0B 0x100000000)) ∧
    (isOk (takes 0x201000 true) = true ∧ isOk (takes 0x201000 false) = true ∧ takes (2 ^ 57) false = .error (.code 2) ∧
      takes 0x100000000 false = .error (.fault 0x0B 0x100000070)) ∧
    ((s (x 0 0 0x201000 true) (o 2)).writes = [] ∧ (o 2).gmax = 0 ∧ joins 0 = .ok none ∧ joins 0x205000 = .ok (some 0x205000) ∧
      joins 8 = .error (.code 2) ∧ joins 0x100000000 = .error (.fault 0x0B 0x100000000)) ∧
    (Joins (bar none) 0x205000 ∧ AtHome (s (x 0 0x205000 0x201000 true) (bar at')) (bar at') 0x205000
      ((s (x 0 0x205000 0x201000 true) (bar at')).updOp (bar at').id (fun e => { e with home := none }))) := by
  dsimp only
  refine ⟨?_, ?_, ?_, ?_, joins_of rfl, atHome_of (by decide +kernel)⟩ <;> decide +kernel

/-- Instances that start, a team that a core has room for, one that ends with an error, and one whose warps all marked its end. -/
theorem witness_DispatcherEventsComplete_room :
    let idle := holding (anInst oneWarp 0) (fun w => { w with inst := 9 })
    let bad := holding (anInst 0 0) id
    let adm : State := { holding (anInst oneWarp 1) id with cores := [(511, { queue := [(0, 0)] })] }
    let ended := holding { anInst 0 0 with err := 1 } id
    let bar : State := holding { anInst oneWarp 1 with desc := 0x205000 * 2 ^ 128 + 2 ^ 780, marks := true } (fun w => { w with ndone := true })
    let x (s : State) : Inst := (s.inst 0).getD (anInst 0 0)
    (startsNow bad (x bad) ∧ startsNow idle (x idle) ∧ ∀ p ∈ idle.insts, p.1 = 0) ∧
    ((adm.core 511).queue = [(0, 0)] ∧ adm.inst 0 = some (x adm) ∧ HasRoom adm 511 0 (x adm).h 0) ∧
    ((x ended).state ≠ 1 ∧ (x ended).err ≠ 0 ∧ ended.ops = []) ∧
    ((x bar).state = 1 ∧ bar.allSent 0 (x bar) = true ∧ bar.warpsOf 0 ≠ [] ∧ (x bar).marks = true ∧ (x bar).err = 0 ∧
      (x bar).arrived = false ∧ bar.ops = [] ∧
      ∀ p ∈ bar.warpsOf 0, p.2.ndone = true ∨ p.2.retired = true) := by
  refine ⟨⟨.inl (by decide +kernel), .inr (by decide +kernel), by decide +kernel⟩, ⟨by decide +kernel, by decide +kernel, by decide +kernel,
    by decide +kernel, by decide +kernel, by decide +kernel, by decide +kernel, fun h => absurd h (by decide +kernel)⟩, by decide +kernel, ?_⟩
  decide +kernel

/-- A context of higher priority with no room, as the statement has it; saved warps of a context that was asked to stop
and of one that goes on with others of it placed. -/
theorem witness_SchedulerEventsComplete_room :
    let beside (y : Inst) (s : State) : State := { s with
      insts := s.insts ++ [(1, y)], plat := { s.plat with absCores := (List.range 511).map (· + 1) } }
    let press := beside { anInst manyWarps 0 with prio := 7 } (holding (anInst oneWarp 1) id)
    let y : Inst := { anInst manyWarps 0 with prio := 7 }
    let halted (p : Bool) (w : Warp) : Warp := { w with
      preempt := true, placed := p, arch := { w.arch with gangs := [{ slices := 255, park := .safept 0 }] } }
    let save := holding { anInst oneWarp 1 with stop := true } (halted true)
    let half := holding (anInst oneWarp 1) (halted false)
    let back : State := { half with warps := half.warps ++ [(1, { s1.warp 0 with num := 1 })] }
    ((1, y) ∈ press.insts ∧ y.state = 0 ∧ y.err = 0 ∧ 0 < y.prio ∧ press.refusal y = 0 ∧ y.h.nextTeam 0 = some 0 ∧
      (∀ c ∈ press.allowed y.h, ¬HasRoom press c 1 y.h 0) ∧ ∃ q ∈ press.warps, q.2.inst = 0 ∧ q.2.placed = true ∧ q.2.core ∈ press.allowed y.h) ∧
    ((∀ p ∈ press.warps, p.2.inst = 0 ∧ p.2.placed = true ∧ p.2.retired = false)) ∧
    ((save.warp 0).trap = none ∧ (save.warp 0).regions = [] ∧ (save.warp 0).loop = none ∧
      (∀ g ∈ (save.warp 0).arch.gangs, g.park ≠ .none ∧ g.chain.isMember = false) ∧ save.reqs = []) ∧
    ((back.warp 0).placed = false ∧ (back.inst (back.warp 0).inst).map (fun x => (x.state, x.stop)) = some (1, false) ∧
      (∃ p ∈ back.warps, p.2.inst = (back.warp 0).inst ∧ p.2.placed = true ∧ p.2.retired = false) ∧
      back.canResume (back.warp 0).team 0 ((back.inst 0).getD (anInst 0 0)).h = true ∧
      ∀ p ∈ back.insts, back.goesFirst 0 0 ((back.inst 0).getD (anInst 0 0)) p = false) := by
  intro beside press y halted save half back
  refine ⟨⟨by decide +kernel, rfl, rfl, by decide, by decide +kernel, by decide +kernel, ?_, by decide +kernel⟩, by decide +kernel,
    by decide +kernel, by decide +kernel⟩
  have full : ∀ c ∈ (beside y (holding (anInst oneWarp 1) id)).allowed y.h,
      ¬(y.h.warps 0).length ≤ (beside y (holding (anInst oneWarp 1) id)).freeContexts c := by decide +kernel
  exact fun c hc h => full c hc h.1

theorem witness_ErrorEventsComplete :
    let l := 2 ^ 33 - 1
    let r := lined 1 {} none { bad := true, state := 2, trans := 2, txn := some { kind := .wback, die := 0, recov := true } }
    (isDev (64 * l) = true ∧ s1.stackAbsent (stackOf l) = false ∧ (s1.dirE l).trans = 0) ∧
    ((s1.warps.find 0).isSome = true ∧ (s1.warp 0).placed = true ∧ 63 < (s1.warp 0).alloc) ∧
    ((s1.teams.find 0).isSome = true ∧ 1023 < (s1.team 0).size) ∧
    ((r.dirE 1).bad = true ∧ (r.txn 1).recov = true ∧ (r.txn 1).wait = 0 ∧ (r.txn 1).biw = false ∧ (r.txn 1).got = []) := by decide +kernel

theorem witness_HostLinkEventsComplete :
    let down : State := { s1 with link := { s1.link with down := true } }
    let one : State := { s1 with link := { s1.link with scount := 1 } }
    (s1.link.down = false ∧ (keyed s1).carries 17 = true ∧ (keyed s1).link.down = false) ∧ down.link.down = true ∧
    (one.link.down = false ∧ one.link.scount = 1) := by decide +kernel

theorem witness_PlatformEventsComplete :
    let at' (n : Nat) (r : Bool) : State := { s1 with plat := { s1.plat with bstage := n, ready := r } }
    let hot (e : Option Nat) : State :=
      { s1 with plat := { s1.plat with throttled := [(6, none), (7, e)], trip := true }, clk := { s1.clk with time := 1000000 } }
    s1.plat.ready = true ∧ s1.plat.fail = false ∧
    (∀ n ∈ [0, 2], (at' n false).plat.fail = false ∧ (at' n false).plat.ready = false ∧ (at' n false).plat.bstage < 3) ∧
    ((at' 3 false).plat.bstage = 3 ∧ (at' 3 false).plat.ready = false) ∧
    (∀ e ∈ [none, some 0], (hot e).plat.throttled = [(6, none)] ++ (7, e) :: [] ∧ ∀ p ∈ [((6 : Nat), (none : Option Nat))], p.1 ≠ 7) ∧
    ((hot none).plat.trip = true ∧ 0 + 1000000 ≤ (hot none).clk.time) := by decide +kernel

/-- A measurement at each end of its range, and the streams on either side of the last key; the message is in turn. -/
theorem witness_TrustMessagesComplete :
    let s : State := { s1 with plat := { s1.plat with trust := { version := true, caps := true, algs := true, session := true, secure := true } } }
    (∀ k ∈ [1, 3], 1 ≤ k ∧ k ≤ 3) ∧ (17 < 18 ∧ 18 ≤ 18) ∧ s.plat.trust.algs = true ∧ s.plat.trust.secure = true := by decide

/-! ## Issue, traps, whole-machine statements -/

/-- An IADD that p1 guards, and a word that names v63 or v64. -/
def guarded : OpA := ⟨⟨false, 1, false⟩, false, 0, 0, .v 8, .v 2, .v 4, .v 0, .s32, .rn, 0⟩
def over64 (n : Fin 512) : OpA := { guarded with com := sure, dst := .v n }

theorem witness_GuardedOffWordsOnlyAdvance :
    (usesOf (.iadd guarded)).map (fun u => s1.doesWork u.com || s1.busyReg s1.active (guardReg u.com)) = some false ∧
    (s1.warps.find s1.who.warp).isSome = true := by decide +kernel

theorem witness_WordChecksEndInOrder_dropped :
    let f : OpM := { mWord false .warp .relaxed (.v 0) (.v 0) (.imm 0) .byte 0 64 with a := .v 64 }
    let u := usesM f 2 0 1 0
    usesOf (.prf f) = some u ∧ dropsLanes (.prf f) = true ∧ s1.member = false ∧ s1.busyReg s1.active (guardReg u.com) = false ∧
      s1.doesWork u.com = true ∧ s1.overBound u = true := by decide +kernel

theorem witness_WordChecksEndInOrder :
    let uses (f : OpA) : Uses := (usesOf (.iadd f)).getD ⟨sure, [], []⟩
    let busy (d : Dst) := warped (fun w => { w with busy := [⟨7, 0, false, d, 0xFFFFFFFF⟩] })
    let pois := warped (fun w => { w with arch := { w.arch with vpois := [(vkey 2 0 / 2, true)] } })
    let f := over64 63
    let go (s : State) (f : OpA) : Bool := !s.member && !s.busyReg s.active (guardReg f.com) && s.doesWork f.com
    (usesOf (.iadd f)).isSome = true ∧
    ((busy (.p 1)).member = false ∧ (busy (.p 1)).busyReg (busy (.p 1)).active (guardReg guarded.com) = true) ∧
    (go s1 (over64 64) = true ∧ s1.overBound (uses (over64 64)) = true) ∧
    (go (busy (.v 2)) f = true ∧ (busy (.v 2)).overBound (uses f) = false ∧ (busy (.v 2)).waits? (uses f) = true) ∧
    (go pois f = true ∧ pois.overBound (uses f) = false ∧ pois.waits? (uses f) = false ∧
      pois.poisoned (uses f) (pois.workLanes f.com) = true) := by decide +kernel

/-- A word of a register instruction, and words placed one behind the other at the PC. -/
def aBits (f : OpA) : BitVec 96 := (encode (.iadd f)).getD 0
def coded (ws : List (BitVec 96)) : State := { s1 with
  mem := writeBytes s1.mem fetchPc (ws.flatMap (fun w => leBytes 12 w.toNat)) }

theorem witness_StepRunsTheDecodedInstruction :
    let head := { guarded with com := sure }
    let next := { head with a := .by1 }
    let none' : BitVec 96 := 0x0FFDFFFF#32 ++ 0#64
    let at' (pc : Double) : State := warped (fun w => { w with arch := { w.arch with
      slices := w.arch.slices.map (fun x => { x with pc := pc }) } })
    let mem (pc : Double) : State := (at' pc).updWarp 0 (fun w => { w with arch := { w.arch with
      gangs := [{ slices := 255, chain := { pos := 1, left := 1 } }] } })
    let late := warped (fun w => { w with arch := { w.arch with gangs := [{ slices := 255, count := 65536 }] } })
    let busy (s : State) : State := s.updWarp 0 (fun w => { w with busy := [⟨7, 0, false, .v 2, 0xFFFFFFFF⟩] })
    let fails {α β : Type} (x : Except α β) : Bool := match x with | .ok _ => false | .error _ => true
    let fetched (s : State) (ws : List (BitVec 96)) (w : BitVec 96) : Bool := let b := unchained s
      s.issuing && !s.member && !b.overdue 1 && b.pc.toNat % 12 == 0 &&
        (match b.fetchAt 0 b.pc.toNat with | .ok x => x == w | .error _ => false) && !b.loopEnding &&
        (match b.members 0 b.pc.toNat w with | .ok x => x == ws | .error _ => false) && !b.inHandler
    let chain := coded [aBits head, aBits next]
    let bad := coded [aBits head, aBits { next with a := .by2 }]
    (((mem 0x200040).member && (mem 0x200040).issuing && !fails ((mem 0x200040).fetchAt 0 0x200040) &&
      !fails (decode (((mem 0x200040).fetchAt 0 0x200040).toOption.getD 0))) = true ∧
      ((mem 0x100000020).member && fails ((mem 0x100000020).fetchAt 0 0x100000020)) = true) ∧
    (late.member = false ∧ (unchained late).overdue 1 = true) ∧
    ((at' 1).member = false ∧ (unchained (at' 1)).overdue 1 = false ∧ (unchained (at' 1)).pc.toNat % 12 ≠ 0) ∧
    ((unchained (at' 0x100000020)).pc.toNat % 12 = 0 ∧ (unchained (at' 0x100000020)).overdue 1 = false ∧
      fails ((unchained (at' 0x100000020)).fetchAt 0 0x100000020) = true) ∧
    (fetched bad [aBits { next with a := .by2 }] (aBits head) = true ∧
      ((unchained bad).chainCheck [] [aBits head, aBits { next with a := .by2 }]).isSome = true) ∧
    (fetched (busy chain) [aBits next] (aBits head) = true ∧ (unchained (busy chain)).chainCheck [] [aBits head, aBits next] = none ∧
      (unchained (busy chain)).chainWaits [aBits head, aBits next] = true) ∧
    (fetched chain [aBits next] (aBits head) = true ∧ (unchained chain).chainCheck [] [aBits head, aBits next] = none ∧
      (unchained chain).chainWaits [aBits head, aBits next] = false ∧ decode (aBits head) = .ok (.iadd head)) ∧
    (fetched (coded [none']) [] none' = true ∧ (unchained (coded [none'])).chainCheck [] [none'] = none ∧
      (unchained (coded [none'])).chainWaits [none'] = false ∧ fails (decode none') = true) ∧
    ({ s1 with issuing := false, agenda := [.timeBaseTick] }.agenda ≠ [] ∧ s1.agenda = []) := by decide +kernel

/-- A lost release, an illegal member, a word after a loop's end, a chain that runs into poison, and a handler's last word. -/
theorem witness_StepRunsTheDecodedInstruction_rare :
    let head := { guarded with com := sure }
    let none' : BitVec 96 := 0x3FF
    let fails {α β : Type} (x : Except α β) : Bool := match x with | .ok _ => false | .error _ => true
    let rel : Req := { id := 7, warp := 0, kind := .fence, slices := 255, pc := 0x200040, scope := .system, order := .release }
    let lost : State := { warped (fun w => { w with posted := some 0 }) with reqs := [rel], link := { s1.link with down := true } }
    let member : State := (coded [none']).updWarp 0 (fun w => { w with arch := { w.arch with
      gangs := [{ slices := 255, chain := { pos := 1, left := 1 } }] } })
    let ending : State := (coded [aBits head]).updWarp 0 (fun w => { w with loop := some endRec })
    let edge : State := { (warped (fun w => { w with arch := { w.arch with
        slices := w.arch.slices.map (fun x => { x with pc := 0x200070 }) } })) with
      mem := writeBytes s1.mem 0x200070 (leBytes 12 (aBits head).toNat), pois := [(0x8002, true)] }
    let handled : TrapRec := ⟨0, 0, false, 0, 0, 0, 0, [], 3, 0, [], [], 0, [], 0, 0, [], [], [], [], 65535, false, false⟩
    let late : State := (coded [aBits head, aBits { head with a := .by1 }]).updWarp 0 (fun w => { w with trap := some handled })
    let ok (s : State) : Bool := s.plat.supply && s.issuing && !s.member && !(unchained s).overdue 1 && (unchained s).pc.toNat % 12 == 0
    let word (s : State) (w : BitVec 96) : Bool := match (unchained s).fetchAt 0 (unchained s).pc.toNat with | .ok x => x == w | .error _ => false
    (ok lost = true ∧ (unchained lost).lostRelease = some rel) ∧
    (member.member = true ∧ member.issuing = true ∧ fails (decode none') = true ∧ member.doesWork (wordCom none') = true ∧
      (match member.fetchAt 0 member.pc.toNat with | .ok x => x == none' | .error _ => false) = true) ∧
    (ok ending = true ∧ word ending (aBits head) = true ∧ (unchained ending).loopEnding = true ∧ isSpend (aBits head) = false ∧
      (unchained ending).doesWork (wordCom (aBits head)) = true) ∧
    (ok edge = true ∧ word edge (aBits head) = true ∧ (unchained edge).loopEnding = false ∧
      fails ((unchained edge).members 0 (unchained edge).pc.toNat (aBits head)) = true) ∧
    (ok late = true ∧ word late (aBits head) = true ∧ (unchained late).inHandler = true ∧
      (match (unchained late).members 0 (unchained late).pc.toNat (aBits head) with
        | .ok ws => ws.length == 1 | .error _ => false) = true ∧ (unchained late).overdue 2 = true) := by decide +kernel

theorem witness_SuppliedPartsAreSafe : Supplied State.reset := by unfold Supplied; decide

theorem witness_StepsKeepMemoryCanonical : Memory.wf s1 ∧ ∃ t, step s1 = .next t := ⟨by decide +kernel, by
  have h : (match step s1 with | .next _ => true | _ => false) = true := by decide +kernel
  split at h
  · exact ⟨_, by assumption⟩
  · contradiction⟩

theorem witness_DecodeOfEncode : (Instr.iadd guarded).wf = true ∧ (Instr.iadd guarded).form.isSome = true := by decide +kernel
theorem witness_EncodeOfDecode : decode (aBits guarded) = .ok (.iadd guarded) := by decide +kernel

theorem witness_TrapsEnterTheHandler :
    let s := s1.updTenant 0 (fun t => { t with hvec := 0xFF00000000000000 })
    let w := s.wWarp
    (s.warps.find 0).isSome = true ∧ w.trap = none ∧ w.young s.who.way = false ∧ w.way? s.who.way = none ∧ (s.tenant w.tenant).hvec ≠ 0 := by
  decide +kernel

theorem witness_ReturnRestoresTheWarp : let w := s1.warp 0
    w.trap = none ∧ (w.archOf 0).exited = 0 ∧ (w.enter 0 0 { cause := 0x12, lanes := 5 } 0xFF00000000000000).trap.isSome = true := by
  decide +kernel

theorem witness_PrivilegedWordsTrap :
    let w (d : Dst) (a b c : Src) (k : Fin 8) : OpM := ⟨group, .warp, .relaxed, d, a, b, c, .byte, k, 0⟩
    let pg (k : Fin 8) : OpM := ⟨sure, .warp, .relaxed, .v 8, .v 2, .v 0, .v 0, .byte, k, 0⟩
    let t (b : Src) (x : BitVec 30) : OpT := ⟨group, .device, .g 8, .g 2, b, .v 0, x⟩
    let csr (u : Bool) (d : Dst) (b : Src) (z : Size) (n : BitVec 24) : OpM := ⟨⟨u, 0, false⟩, .warp, .relaxed, d, .v 0, b, .v 0, z, 0, n⟩
    let none' : Src := .v 0
    [(Instr.tret (w (.v 0) none' none' none' 0), group), (.tretKill (w (.v 0) none' none' none' 1), group),
      (.fltq (w (.g 8) none' (.g 4) none' 0), group), (.pgreq (pg 3), sure), (.rootsw (w (.g 8) (.g 2) (.g 4) (.g 6) 0), group),
      (.rootcpFork (w (.g 8) (.g 2) (.g 4) none' 0), group), (.rootcpSnap (w (.g 8) none' (.g 4) none' 1), group),
      (.rootcpDrop (w (.g 8) none' (.g 4) none' 2), group), (.tnode (w (.g 8) (.g 2) (.imm 0) (.g 6) 0), group),
      (.pgmapFt (pg 0), sure), (.pgmapCow (pg 1), sure), (.slotw (t (.imm 0) 0), group), (.prmptStop (t none' 0), group),
      (.prmptEvict (t none' 1), group), (.csrr (csr true (.g 8) none' .word 0x002), group), (.csrr (csr false (.v 8) none' .double 0x015), sure),
      (.csrw (csr true (.v 0) (.g 4) .word 0x04F), group), (.csrw (csr false (.v 0) (.v 4) .word 0x030), sure)].all (fun p =>
      let b := begun p.1 s1
      readyB p.1 s1 && b.regionLanes (b.workLanes p.2) == 0 && !b.youngWay && !b.inHandler && !b.treePriv && !b.schedPriv) = true := by
  decide +kernel

/-- Words of several classes that a region shuts out before they act. -/
theorem witness_RegionsShutWordsOut :
    let f := bWord false (.v 0)
    [(Instr.loop f, sure), (.exit f, sure), (.fence ⟨sure, .device, .acqrel, .v 0, .v 0, .v 0, .v 0, .byte, 0, 0⟩, sure),
      (.cpyt ⟨group, .device, .g 8, .g 2, .v 0, .v 0, 0⟩, group)].all (fun p =>
      let b := begun p.1 (shut s1)
      shutOut p.1 && readyB p.1 (shut s1) && b.regionLanes (b.workLanes p.2) != 0) = true := by decide +kernel

/-- Words that it shuts out after their addresses: an acquire load, a store of a group to the scratchpad, an atomic, a barrier
operation of lane 0 alone. -/
theorem witness_RegionsShutWordsOut_reach :
    let ld := mWord false .device .acquire (.v 8) (.v 0) (.imm 0) .word 0 64
    let st : OpM := { mWord true .device .relaxed (.v 0) (.g 6) (.imm 0) .word 0 64 with a := .g 4 }
    let at' : OpM := { ld with order := .relaxed, b := .v 4 }
    let bar : OpM := ⟨group, .device, .relaxed, .v 0, .g 2, .imm 1, .imm 0, .byte, 0, 64⟩
    let s (u : Bool) : State := shut (if u then s1.updWarp 0 (fun w => { w with arch := { w.arch with g := [(5, 0xFE000000)] } }) else solo)
    ([(Instr.ld ld, false), (.st st, true), (.atom at', false), (.binit bar, false)].all (fun p =>
      let b := begun p.1 (s p.2)
      readyB p.1 (s p.2) && !b.youngWay && (!wholeWarp p.1 || b.ganged) && (match reach p.1 with
        | none => false
        | some r => match b.accs r.f r.want r.len r.kind r.off with
          | .error _ => false
          | .ok as => as.any (fun c => (r.never || !isDev c.ta) &&
              (if r.f.com.u then b.regionLanes b.active != 0 else (b.regionLanes b.active).getLsbD c.lane))))) = true := by
  decide +kernel

/-- Each form, at the address 1, and its group form. -/
theorem witness_MisalignedAccessesTrap :
    let f (d : Dst) (b : Src) (off : BitVec 24) : OpM := mWord false .device .relaxed d b (.imm 0) .word 0 off
    let at' (u : Bool) (f : OpM) : OpM := { f with com := ⟨u, 0, false⟩ }
    let ld := mWord false .device .relaxed (.v 8) (.v 0) (.imm 0) .word 0 1
    let ldu := mWord true .device .relaxed (.g 8) (.v 0) (.imm 0) .quad 0 15
    let st := mWord false .device .relaxed (.v 0) (.v 4) (.imm 0) .double 0 4
    let cas : OpM := ⟨sure, .device, .acqrel, .v 8, .v 2, .v 4, .v 12, .quad, 0, 8⟩
    let at0 := f (.v 8) (.v 4) 1
    let red := f (.v 0) (.v 4) 2
    ([(Instr.ld ld, ld, ld.off.toInt), (.ld ldu, ldu, ldu.off.toInt), (.st st, st, st.off.toInt), (.cas cas, { cas with c := .imm 0 }, cas.off.toInt),
      (.atom at0, at' false at0, (at0.off.setWidth 20).toInt), (.red red, red, (red.off.setWidth 20).toInt),
      (.bupd red, red, (red.off.setWidth 20).toInt)].all (fun p =>
      let b := begun p.1 s1
      let ls := if p.2.1.com.u then [b.uLane] else lanesOf (b.executing p.2.1.com)
      readyB p.1 s1 && !b.youngWay &&
        ls.any (fun l => b.addrOf p.2.1 p.2.2 l % p.2.1.size.bytes != 0))) = true := by decide +kernel

theorem witness_RoundingIsFaithful : (0x007F : Nat) < 2 ^ (1 + fmtBf16.eb + fmtBf16.mb) ∧ fmtBf16.sub = false ∧ (0x007F : Nat) / 2 ^ fmtBf16.mb % 2 ^ fmtBf16.eb = 0 ∧
    fmtF32.value 0x7FC00001 = .nan ∧ fmtF16.value 0x0001 ≠ .nan := by decide +kernel

theorem witness_IntegerResultsWrapOrClamp : (0 : Nat) < 1 ∧ (3 : Nat) < (elemOf .s8x4).2.2 ∧ (-128 : Int) ≤ 127 := by decide

/-- A store's bytes, at home and at a die. -/
theorem witness_WritesChangeOnlyTheirBytes :
    let w : Write := { id := 7, warp := some 0, die := 7, line := 1, place := .die, kind := .store, bytes := [(64, 1), (127, 2)] }
    let home := (w.effect (fun ta => s1.mem.get 0 (ta - 64 * 1 + 64 * 1))).1
    let die := (w.effect (fun ta => (s1.l2 7 1).bytes.get 0 ta)).1
    ((∀ p ∈ home, p.1 / 64 = 1) ∧ (home.map Prod.fst).Nodup ∧ home.length = 2 ∧ s1.pois.get false 1 = false) ∧
    ((die.map Prod.fst).Nodup ∧ die.length = 2 ∧ (s1.l2 7 1).pois = false) := by decide +kernel

theorem witness_IssuingLeavesMemory :
    let r : Req := { id := 0, warp := 0, kind := .load, accs := [{ lane := 0, ta := ctlBase - 4, len := 4 }] }
    (s1.warps.find 0).isSome = true ∧ (∀ a ∈ r.accs, isCtl a.ta = false ∧ isRegw a.ta = false) := by decide +kernel

theorem witness_BarriersEvaluate :
    let b : Bar := ⟨0, 0, false, false, 0, 0⟩
    (b.ovr = false ∧ b.reset = 0 ∧ b.expected = 0) ∧
    (let c : Bar := { b with reset := 1 }; c.ovr = false ∧ c.reset ≠ 0 ∧ c.remain = 0 ∧ c.arrived = c.expected) ∧
    (let c : Bar := { b with expected := 1, arrived := 2 }; c.ovr = false ∧ c.remain = 0 ∧ c.expected ≠ 0 ∧ c.expected < c.arrived) ∧
    (let c : Bar := { b with remain := 1 }; c.ovr = false ∧ c.remain ≠ 0 ∧ c.remain < 2 ∧ 1 ≤ c.remain) ∧
    (b.expected + (2 ^ 32 - 1) < 2 ^ 32 ∧ 2 ^ 32 ≤ b.expected + 2 ^ 32 ∧ b.arrived + (2 ^ 32 - 1) < 2 ^ 32 ∧ 2 ^ 32 ≤ b.arrived + 2 ^ 32) ∧
    ({ b with ovr := true }.ovr = true) := by decide

/-! ## Encodings -/

/-- Each word, written out from R28 to R36, R46 and R49, decodes to the instruction beside it. -/
def decodes (l : List (Nat × Nat × Nat × Instr)) : Bool := l.all (fun p =>
  match decode (BitVec.ofNat 96 (p.1 * 2 ^ 64 + p.2.1 * 2 ^ 32 + p.2.2.1)) with | .ok i => i == p.2.2.2 | .error _ => false)

theorem test_decode_control : decodes [
    (0x003E0000, 0x00000000, 0x00000000, .nop ⟨⟨true, 7, true⟩, 0, .v 0, .v 0, 0x0, 0x0⟩),
    (0x00460000, 0x00200000, 0x00000000, .bra ⟨⟨false, 1, true⟩, 0, .v 0, .v 0, 0x80000000, 0x0⟩),
    (0x00A80000, 0x8F800000, 0x00000000, .brx ⟨⟨true, 2, false⟩, 0, .v 0, .g 62, 0x0, 0x0⟩),
    (0x00C00000, 0x00000000, 0x01400000, .rcv ⟨⟨false, 0, false⟩, 0, .v 0, .v 0, 0x5, 0x0⟩),
    (0x01000000, 0x00000000, 0x00000000, .join ⟨⟨false, 0, false⟩, 0, .v 0, .v 0, 0x0, 0x0⟩),
    (0x01400000, 0x00000000, 0x01800000, .loop ⟨⟨false, 0, false⟩, 0, .v 0, .v 0, 0x6, 0x0⟩),
    (0x01900000, 0x00000000, 0x00000000, .brk ⟨⟨false, 4, false⟩, 0, .v 0, .v 0, 0x0, 0x0⟩),
    (0x01C00000, 0x003FFFFF, 0xFF000000, .next ⟨⟨false, 0, false⟩, 0, .v 0, .v 0, 0xFFFFFFFC, 0x0⟩),
    (0x02180000, 0x001FFFFF, 0xFFC00000, .call ⟨⟨false, 6, false⟩, 0, .v 0, .v 0, 0x7FFFFFFF, 0x0⟩),
    (0x02440000, 0x7F800000, 0x00000000, .callx ⟨⟨false, 1, false⟩, 0, .v 0, .v 510, 0x0, 0x0⟩),
    (0x028E0000, 0x00000000, 0x00000000, .ret ⟨⟨false, 3, true⟩, 0, .v 0, .v 0, 0x0, 0x0⟩),
    (0x02C80000, 0x00000000, 0x00000000, .exit ⟨⟨false, 2, false⟩, 0, .v 0, .v 0, 0x0, 0x0⟩),
    (0x03000000, 0x00000000, 0x00000000, .regang ⟨⟨false, 0, false⟩, 0, .v 0, .v 0, 0x0, 0x0⟩),
    (0x03400000, 0x00000000, 0x0000FFFF, .safept ⟨⟨false, 0, false⟩, 0, .v 0, .v 0, 0x0, 0xFFFF⟩),
    (0x03402000, 0x00000000, 0x00000007, .safeptRf ⟨⟨false, 0, false⟩, 1, .v 0, .v 0, 0x0, 0x7⟩),
    (0x03800000, 0x00000000, 0x003FFFFF, .yield ⟨⟨false, 0, false⟩, 0, .v 0, .v 0, 0x0, 0x3FFFFF⟩),
    (0x03D40000, 0x00000000, 0x002AAAAA, .trap ⟨⟨false, 5, false⟩, 0, .v 0, .v 0, 0x0, 0x2AAAAA⟩),
    (0x04000000, 0x00000000, 0x00000001, .bkpt ⟨⟨false, 0, false⟩, 0, .v 0, .v 0, 0x0, 0x1⟩)] = true := by
  decide +kernel

theorem test_decode_integer : decodes [
    (0x100F0FFC, 0x05300000, 0x00080000, .iadd ⟨⟨false, 3, true⟩, true, 0, 0, .discard, .v 20, .imm (-1024), .v 0, .s32, .rn, 1⟩),
    (0x10440004, 0x0060C800, 0x00000000, .isub ⟨⟨false, 1, false⟩, false, 0, 0, .v 1, .v 1, .imm 50, .v 0, .s32, .rn, 0⟩),
    (0x108EA028, 0x0507FC00, 0x00007000, .imul ⟨⟨false, 3, true⟩, false, 2, 2, .v 10, .v 20, .v 511, .v 0, .u8x4, .rn, 0⟩),
    (0x10CE0028, 0xA00A0400, 0x00001000, .imulh ⟨⟨false, 3, true⟩, false, 0, 0, .v 10, .by1, .by2, .v 0, .u32, .rn, 0⟩),
    (0x110E0028, 0x05005806, 0x00082000, .imad ⟨⟨false, 3, true⟩, false, 0, 0, .v 10, .v 20, .v 22, .v 24, .s64, .rn, 1⟩),
    (0x114E0028, 0x05005406, 0x00001000, .imadw ⟨⟨false, 3, true⟩, false, 0, 0, .v 10, .v 20, .v 21, .v 24, .u32, .rn, 0⟩),
    (0x118E0028, 0x050A1800, 0x00004000, .imin ⟨⟨false, 3, true⟩, false, 0, 0, .v 10, .v 20, .lt 2, .v 0, .s16x2, .rn, 0⟩),
    (0x11EE093C, 0x80C93800, 0x00000000, .imax ⟨⟨true, 3, true⟩, false, 0, 0, .gp 7, .g 3, .gp 6, .v 0, .s32, .rn, 0⟩),
    (0x120E0028, 0x05000000, 0x00086000, .iabs ⟨⟨false, 3, true⟩, false, 0, 0, .v 10, .v 20, .v 0, .v 0, .s8x4, .rn, 1⟩),
    (0x124E0028, 0x05091C00, 0x00000000, .andL ⟨⟨false, 3, true⟩, false, 0, 0, .v 10, .v 20, .p 7, .v 0, .s32, .rn, 0⟩),
    (0x128E0028, 0x01001800, 0x00003000, .orL ⟨⟨false, 3, true⟩, false, 0, 0, .v 10, .v 4, .v 6, .v 0, .u64, .rn, 0⟩),
    (0x12CE0028, 0x05001400, 0x00000000, .xorL ⟨⟨false, 3, true⟩, false, 0, 0, .v 10, .v 20, .v 5, .v 0, .s32, .rn, 0⟩),
    (0x130E0028, 0x05005405, 0x87400000, .lop3 ⟨⟨false, 3, true⟩, false, 0, 0, .v 10, .v 20, .v 21, .v 22, .s32, .rn, 232⟩),
    (0x134E0028, 0x05207C00, 0x00001000, .shl ⟨⟨false, 3, true⟩, false, 0, 0, .v 10, .v 20, .imm 31, .v 0, .u32, .rn, 0⟩),
    (0x138E0028, 0x05000C00, 0x00003000, .shr ⟨⟨false, 3, true⟩, false, 0, 0, .v 10, .v 20, .v 3, .v 0, .u64, .rn, 0⟩),
    (0x13CE0028, 0x05000C00, 0x00002000, .sar ⟨⟨false, 3, true⟩, false, 0, 0, .v 10, .v 20, .v 3, .v 0, .s64, .rn, 0⟩),
    (0x140E0028, 0x05005405, 0x80181000, .shf ⟨⟨false, 3, true⟩, false, 0, 0, .v 10, .v 20, .v 21, .v 22, .u32, .rn, 3⟩),
    (0x144E0028, 0x05000000, 0x00003000, .popc ⟨⟨false, 3, true⟩, false, 0, 0, .v 10, .v 20, .v 0, .v 0, .u64, .rn, 0⟩),
    (0x148E0028, 0x05000000, 0x00001000, .clz ⟨⟨false, 3, true⟩, false, 0, 0, .v 10, .v 20, .v 0, .v 0, .u32, .rn, 0⟩),
    (0x14CE0028, 0x05000000, 0x00000000, .ctz ⟨⟨false, 3, true⟩, false, 0, 0, .v 10, .v 20, .v 0, .v 0, .s32, .rn, 0⟩),
    (0x150E0028, 0x05000000, 0x00002000, .brev ⟨⟨false, 3, true⟩, false, 0, 0, .v 10, .v 20, .v 0, .v 0, .s64, .rn, 0⟩),
    (0x154E0028, 0x05000C00, 0x01000000, .bfx ⟨⟨false, 3, true⟩, false, 0, 0, .v 10, .v 20, .v 3, .v 0, .s32, .rn, 32⟩),
    (0x158E0028, 0x05000C00, 0x82003000, .bfi ⟨⟨false, 3, true⟩, false, 0, 0, .v 10, .v 20, .v 3, .v 2, .u64, .rn, 64⟩),
    (0x15CE0028, 0x05005490, 0x40000000, .sel ⟨⟨false, 3, true⟩, false, 0, 0, .v 10, .v 20, .v 21, .p 1, .s32, .rn, 0⟩),
    (0x160E091C, 0xB6C00000, 0x00000000, .mov ⟨⟨false, 3, true⟩, false, 0, 0, .p 7, .special 27, .v 0, .v 0, .s32, .rn, 0⟩),
    (0x16600814, 0x000003F8, 0x00000000, .movi ⟨⟨true, 0, false⟩, false, 0, 0, .g 5, .v 0, .v 0, 0xFE000000, .s32, 0⟩),
    (0x168E0028, 0x050B0000, 0x00381000, .lea ⟨⟨false, 3, true⟩, false, 0, 0, .v 10, .v 20, .special 0, .v 0, .u32, .rn, 7⟩),
    (0x16CE0028, 0x05000C01, 0x00187000, .idp4 ⟨⟨false, 3, true⟩, false, 0, 0, .v 10, .v 20, .v 3, .v 4, .u8x4, .rn, 3⟩),
    (0x170E0028, 0x05000C01, 0x00004000, .pmac2 ⟨⟨false, 3, true⟩, false, 0, 0, .v 10, .v 20, .v 3, .v 4, .s16x2, .rn, 0⟩),
    (0x174E0028, 0x05000C00, 0x03FC2000, .sarn ⟨⟨false, 3, true⟩, false, 0, 0, .v 10, .v 20, .v 3, .v 0, .s64, .ra, 127⟩),
    (0x178E0028, 0x05000000, 0x02F81000, .isat ⟨⟨false, 3, true⟩, false, 0, 0, .v 10, .v 20, .v 0, .v 0, .u32, .rn, 95⟩),
    (0x17CE0028, 0x05000C00, 0x00003000, .rget ⟨⟨false, 3, true⟩, false, 0, 0, .v 10, .v 20, .v 3, .v 0, .u64, .rn, 0⟩),
    (0x180E0000, 0x05000C01, 0x00002000, .rput ⟨⟨false, 3, true⟩, false, 0, 0, .v 0, .v 20, .v 3, .v 4, .s64, .rn, 0⟩)] = true := by
  decide +kernel

theorem test_decode_float : decodes [
    (0x200E0028, 0x05000800, 0x00038000, .fadd ⟨⟨false, 3, true⟩, false, 0, 0, .v 10, .v 20, .v 2, .v 0, .f32, .ru, 0⟩),
    (0x204E0028, 0x05000800, 0x00038000, .fsub ⟨⟨false, 3, true⟩, false, 0, 0, .v 10, .v 20, .v 2, .v 0, .f32, .ru, 0⟩),
    (0x208E0028, 0x05000800, 0x00038000, .fmul ⟨⟨false, 3, true⟩, false, 0, 0, .v 10, .v 20, .v 2, .v 0, .f32, .ru, 0⟩),
    (0x20CC0010, 0x00400800, 0xC0008000, .ffma ⟨⟨false, 3, false⟩, false, 0, 0, .v 4, .v 1, .v 2, .v 3, .f32, .rn, 0⟩),
    (0x210E0028, 0x05000800, 0x00008000, .fmin ⟨⟨false, 3, true⟩, false, 0, 0, .v 10, .v 20, .v 2, .v 0, .f32, .rn, 0⟩),
    (0x214E0028, 0x05000800, 0x00008000, .fmax ⟨⟨false, 3, true⟩, false, 0, 0, .v 10, .v 20, .v 2, .v 0, .f32, .rn, 0⟩),
    (0x218E0028, 0x05000000, 0x00028000, .frcp ⟨⟨false, 3, true⟩, false, 0, 0, .v 10, .v 20, .v 0, .v 0, .f32, .rd, 0⟩),
    (0x21CE0028, 0x05000000, 0x00028000, .frsq ⟨⟨false, 3, true⟩, false, 0, 0, .v 10, .v 20, .v 0, .v 0, .f32, .rd, 0⟩),
    (0x220E0028, 0x05000000, 0x00028000, .fsqrt ⟨⟨false, 3, true⟩, false, 0, 0, .v 10, .v 20, .v 0, .v 0, .f32, .rd, 0⟩),
    (0x224E0028, 0x05000000, 0x00028000, .fexp2 ⟨⟨false, 3, true⟩, false, 0, 0, .v 10, .v 20, .v 0, .v 0, .f32, .rd, 0⟩),
    (0x228E0028, 0x05000000, 0x00028000, .flog2 ⟨⟨false, 3, true⟩, false, 0, 0, .v 10, .v 20, .v 0, .v 0, .f32, .rd, 0⟩),
    (0x22CE0028, 0x05000000, 0x0FF8A000, .fclass ⟨⟨false, 3, true⟩, false, 0, 0, .v 10, .v 20, .v 0, .v 0, .bf16, .rn, 511⟩),
    (0x230E0028, 0x05000800, 0x00018000, .fscale ⟨⟨false, 3, true⟩, false, 0, 0, .v 10, .v 20, .v 2, .v 0, .f32, .rz, 0⟩),
    (0x234E0028, 0x05000000, 0x000C8000, .frnd ⟨⟨false, 3, true⟩, false, 0, 0, .v 10, .v 20, .v 0, .v 0, .f32, .ra, 1⟩),
    (0x238E0028, 0x05000800, 0x0001C000, .hadd2 ⟨⟨false, 3, true⟩, false, 0, 0, .v 10, .v 20, .v 2, .v 0, .bf16x2, .rz, 0⟩),
    (0x23CE0028, 0x05000800, 0x0001C000, .hmul2 ⟨⟨false, 3, true⟩, false, 0, 0, .v 10, .v 20, .v 2, .v 0, .bf16x2, .rz, 0⟩),
    (0x240E0028, 0x05000800, 0xC003B000, .hfma2 ⟨⟨false, 3, true⟩, false, 0, 0, .v 10, .v 20, .v 2, .v 3, .f16x2, .ru, 0⟩),
    (0x244E0028, 0x05000800, 0x0000B000, .hmin2 ⟨⟨false, 3, true⟩, false, 0, 0, .v 10, .v 20, .v 2, .v 0, .f16x2, .rn, 0⟩),
    (0x248E0028, 0x05000800, 0x0000B000, .hmax2 ⟨⟨false, 3, true⟩, false, 0, 0, .v 10, .v 20, .v 2, .v 0, .f16x2, .rn, 0⟩),
    (0x24CE0028, 0x05000800, 0xC002C000, .fdot2 ⟨⟨false, 3, true⟩, false, 0, 0, .v 10, .v 20, .v 2, .v 3, .bf16x2, .rd, 0⟩)] = true := by
  decide +kernel

theorem test_decode_convert : decodes [
    (0x30000008, 0x00400000, 0x00410000, .cvt ⟨⟨false, 0, false⟩, false, 0, 0, .v 2, .v 1, .v 0, .v 0, .s32, .rz, 8⟩),
    (0x304E0028, 0x05000000, 0x00449000, .fcvt ⟨⟨false, 3, true⟩, false, 0, 0, .v 10, .v 20, .v 0, .v 0, .f16, .ra, 8⟩),
    (0x308E0028, 0x05000800, 0x0003B000, .pk2 ⟨⟨false, 3, true⟩, false, 0, 0, .v 10, .v 20, .v 2, .v 0, .f16x2, .ru, 0⟩),
    (0x30CE0028, 0x05000000, 0x00085000, .upk2 ⟨⟨false, 3, true⟩, false, 0, 0, .v 10, .v 20, .v 0, .v 0, .u16x2, .rn, 1⟩),
    (0x310E0028, 0x05000000, 0x00018000, .e10enc ⟨⟨false, 3, true⟩, false, 0, 0, .v 10, .v 20, .v 0, .v 0, .f32, .rz, 0⟩),
    (0x314E0028, 0x05000000, 0x00008000, .e10dec ⟨⟨false, 3, true⟩, false, 0, 0, .v 10, .v 20, .v 0, .v 0, .f32, .rn, 0⟩),
    (0x318E0028, 0x05000000, 0x00000000, .rnsenc ⟨⟨false, 3, true⟩, false, 0, 0, .v 10, .v 20, .v 0, .v 0, .s32, .rn, 0⟩),
    (0x31CE0028, 0x05000000, 0x00000000, .rnsdec ⟨⟨false, 3, true⟩, false, 0, 0, .v 10, .v 20, .v 0, .v 0, .s32, .rn, 0⟩),
    (0x320E0028, 0x05000800, 0x0014A000, .qnt ⟨⟨false, 3, true⟩, false, 0, 0, .v 10, .v 20, .v 2, .v 0, .bf16, .ra, 2⟩),
    (0x324E0028, 0x05000800, 0x00108000, .dqnt ⟨⟨false, 3, true⟩, false, 0, 0, .v 10, .v 20, .v 2, .v 0, .f32, .rn, 2⟩)] = true := by
  decide +kernel

theorem test_decode_lane : decodes [
    (0x40000904, 0x0060C800, 0x00200000, .isetp ⟨⟨false, 0, false⟩, false, 0, 0, .p 1, .v 1, .imm 50, .v 0, .s32, .rn, 4⟩),
    (0x404E0908, 0x05000490, 0xC0F89000, .fsetp ⟨⟨false, 3, true⟩, false, 0, 0, .p 2, .v 20, .v 1, .p 3, .f16, .rn, 31⟩),
    (0x408E0028, 0x90490890, 0xC4B00000, .plop ⟨⟨false, 3, true⟩, false, 0, 0, .v 10, .p 1, .p 2, .p 3, .s32, .rn, 150⟩),
    (0x40CE0028, 0x00000000, 0x00000000, .pmovGet ⟨⟨false, 3, true⟩, false, 0, 0, .v 10, .v 0, .v 0, .v 0, .s32, .rn, 0⟩),
    (0x40CE0000, 0x05000000, 0x07F80000, .pmovSet ⟨⟨false, 3, true⟩, false, 0, 0, .v 0, .v 20, .v 0, .v 0, .s32, .rn, 255⟩),
    (0x410E0028, 0x05000000, 0x00180000, .vote ⟨⟨false, 3, true⟩, false, 0, 0, .v 10, .v 20, .v 0, .v 0, .s32, .rn, 3⟩),
    (0x414E0028, 0x05200400, 0x80B80000, .shfl ⟨⟨false, 3, true⟩, false, 0, 0, .v 10, .v 20, .imm 1, .v 2, .s32, .rn, 23⟩),
    (0x418E0028, 0x05080800, 0x80081000, .slide ⟨⟨false, 3, true⟩, false, 0, 0, .v 10, .v 20, .g 2, .v 2, .u32, .rn, 1⟩),
    (0x41CE0028, 0x05000000, 0x00283000, .redux ⟨⟨false, 3, true⟩, false, 0, 0, .v 10, .v 20, .v 0, .v 0, .u64, .rn, 5⟩),
    (0x420E0028, 0x05000000, 0x00080000, .matchL ⟨⟨false, 3, true⟩, false, 0, 0, .v 10, .v 20, .v 0, .v 0, .s32, .rn, 1⟩),
    (0x424E0028, 0x05000800, 0xC0000000, .prmt ⟨⟨false, 3, true⟩, false, 0, 0, .v 10, .v 20, .v 2, .v 3, .s32, .rn, 0⟩),
    (0x428E0028, 0x05000000, 0x00C00000, .scan ⟨⟨false, 3, true⟩, false, 0, 0, .v 10, .v 20, .v 0, .v 0, .s32, .rn, 24⟩)] = true := by
  decide +kernel

theorem test_decode_memory : decodes [
    (0x500ED030, 0x81000000, 0x64FFFFFF, .ld ⟨⟨false, 3, true⟩, .device, .acquire, .v 12, .g 4, .v 0, .v 1, .quad, 4, 0xFFFFFF⟩),
    (0x5040C000, 0x81000800, 0x50000000, .st ⟨⟨false, 0, false⟩, .device, .relaxed, .v 0, .g 4, .v 2, .v 1, .word, 0, 0x0⟩),
    (0x508E0000, 0x01800200, 0x037FFFFF, .prf ⟨⟨false, 3, true⟩, .warp, .relaxed, .v 0, .v 6, .v 0, .imm 0, .byte, 3, 0x7FFFFF⟩),
    (0x50CF3000, 0x00000000, 0x00000000, .fence ⟨⟨false, 3, true⟩, .system, .acqrel, .v 0, .v 0, .v 0, .v 0, .byte, 0, 0x0⟩),
    (0x510E0000, 0x81800080, 0x40000000, .cctlInv ⟨⟨false, 3, true⟩, .warp, .relaxed, .v 0, .g 6, .v 0, .g 1, .byte, 0, 0x0⟩),
    (0x510E0000, 0x81800200, 0x01000000, .cctlWb ⟨⟨false, 3, true⟩, .warp, .relaxed, .v 0, .g 6, .v 0, .imm 0, .byte, 1, 0x0⟩),
    (0x510E0000, 0x81800200, 0x02000000, .cctlWbinv ⟨⟨false, 3, true⟩, .warp, .relaxed, .v 0, .g 6, .v 0, .imm 0, .byte, 2, 0x0⟩),
    (0x510E0000, 0x81800200, 0x03000000, .cctlZero ⟨⟨false, 3, true⟩, .warp, .relaxed, .v 0, .g 6, .v 0, .imm 0, .byte, 3, 0x0⟩),
    (0x510E0000, 0x00000000, 0x04000000, .cctlInvall ⟨⟨false, 3, true⟩, .warp, .relaxed, .v 0, .v 0, .v 0, .v 0, .byte, 4, 0x0⟩)] = true := by
  decide +kernel

theorem test_decode_atomic : decodes [
    (0x600F3020, 0x81000800, 0x50BFFFFC, .atom ⟨⟨false, 3, true⟩, .system, .acqrel, .v 8, .g 4, .v 2, .v 1, .word, 0, 0xBFFFFC⟩),
    (0x604E4020, 0x01003004, 0x20000010, .cas ⟨⟨false, 3, true⟩, .core, .relaxed, .v 8, .v 4, .v 12, .v 16, .quad, 0, 0x10⟩),
    (0x608EA000, 0x81201E00, 0x18700000, .red ⟨⟨false, 3, true⟩, .die, .release, .v 0, .g 4, .imm 7, .imm 0, .double, 0, 0x700000⟩),
    (0x60CEC000, 0x81000800, 0x50700004, .bupd ⟨⟨false, 3, true⟩, .device, .relaxed, .v 0, .g 4, .v 2, .v 1, .word, 0, 0x700004⟩)] = true := by
  decide +kernel

theorem test_decode_sync : decodes [
    (0x702E4000, 0x812FFE00, 0x00000020, .binit ⟨⟨true, 3, true⟩, .core, .relaxed, .v 0, .g 4, .imm 1023, .imm 0, .byte, 0, 0x20⟩),
    (0x706EE824, 0x81080880, 0x40000000, .barv ⟨⟨true, 3, true⟩, .device, .release, .g 9, .g 4, .g 2, .g 1, .byte, 0, 0x0⟩),
    (0x70AE5924, 0x81200600, 0x00000000, .bwait ⟨⟨true, 3, true⟩, .core, .acquire, .gp 1, .g 4, .imm 1, .imm 0, .byte, 0, 0x0⟩),
    (0x70EE7FFC, 0x81200600, 0x00000000, .barw ⟨⟨true, 3, true⟩, .core, .acqrel, .discard, .g 4, .imm 1, .imm 0, .byte, 0, 0x0⟩),
    (0x712EC000, 0x81080A00, 0x00000000, .bexp ⟨⟨true, 3, true⟩, .device, .relaxed, .v 0, .g 4, .g 2, .imm 0, .byte, 0, 0x0⟩),
    (0x716F1820, 0x810833FF, 0xDD000008, .waita ⟨⟨true, 3, true⟩, .system, .acquire, .g 8, .g 4, .g 12, .imm (-1), .double, 5, 0x8⟩)] = true := by
  decide +kernel

theorem test_decode_copy : decodes [
    (0x8020C828, 0x81081A20, 0x22100000, .cpy ⟨⟨true, 0, false⟩, .device, .g 10, .g 4, .g 6, .imm 128, 0x22100000⟩),
    (0x80750FFC, 0x81000000, 0x23FF0000, .cpyt ⟨⟨true, 5, false⟩, .system, .discard, .g 4, .v 0, .v 0, 0x23FF0000⟩),
    (0x80B44804, 0x81081A00, 0x4000803F, .cpyg ⟨⟨true, 5, false⟩, .core, .g 1, .g 4, .g 6, .imm 1, 0x803F⟩),
    (0x80F4C804, 0x81081880, 0xC0003F80, .cpys ⟨⟨true, 5, false⟩, .device, .g 1, .g 4, .g 6, .g 3, 0x3F80⟩),
    (0x8134C804, 0x81000000, 0x00000000, .cpyr ⟨⟨true, 5, false⟩, .device, .g 1, .g 4, .v 0, .v 0, 0x0⟩),
    (0x8140C834, 0x82000000, 0x40000001, .cpyx ⟨⟨false, 0, false⟩, .device, .g 13, .g 8, .v 0, .v 1, 0x1⟩),
    (0x81B40808, 0x00000000, 0x0000003F, .cpyq ⟨⟨true, 5, false⟩, .warp, .g 2, .v 0, .v 0, .v 0, 0x3F⟩),
    (0x81F40FFC, 0x00000000, 0x00000001, .cpyc ⟨⟨true, 5, false⟩, .warp, .discard, .v 0, .v 0, .v 0, 0x1⟩),
    (0x8234C804, 0x812002FF, 0xC0000000, .osld ⟨⟨true, 5, false⟩, .device, .g 1, .g 4, .imm 0, .imm 1023, 0x0⟩)] = true := by
  decide +kernel

theorem test_decode_tile : decodes [
    (0x90004838, 0x81080800, 0x63080000, .mma ⟨⟨false, 0, false⟩, .core, .g 14, .g 4, .g 2, .v 1, 0x23080000⟩),
    (0x90544804, 0x81080800, 0x400007FF, .mmag ⟨⟨false, 5, false⟩, .core, .g 1, .g 4, .g 2, .v 1, 0x7FF⟩),
    (0x90944804, 0x81000000, 0x48FC0000, .tzero ⟨⟨false, 5, false⟩, .core, .g 1, .g 4, .v 0, .v 1, 0x8FC0000⟩),
    (0x90D44804, 0x81081800, 0x4003F002, .tqnt ⟨⟨false, 5, false⟩, .core, .g 1, .g 4, .g 6, .v 1, 0x3F002⟩),
    (0x91D44804, 0x81081800, 0x4003F002, .tstat ⟨⟨false, 5, false⟩, .core, .g 1, .g 4, .g 6, .v 1, 0x3F002⟩),
    (0x91144804, 0x81081800, 0x40000000, .tdq ⟨⟨false, 5, false⟩, .core, .g 1, .g 4, .g 6, .v 1, 0x0⟩),
    (0x91544804, 0x81081800, 0x4E000000, .tcrt ⟨⟨false, 5, false⟩, .core, .g 1, .g 4, .g 6, .v 1, 0xE000000⟩),
    (0x91944804, 0x81081800, 0x2FFFFFFF, .ttrn ⟨⟨false, 5, false⟩, .core, .g 1, .g 4, .g 6, .v 0, 0x2FFFFFFF⟩)] = true := by
  decide +kernel

theorem test_decode_attention : decodes [
    (0xA0140808, 0x01802002, 0x80000002, .kvx ⟨⟨false, 5, false⟩, .warp, .g 2, .v 6, .v 8, .v 10, 0x2⟩),
    (0xA0444848, 0x81801800, 0x00000002, .kvvalSet ⟨⟨false, 1, false⟩, .core, .g 18, .g 6, .v 6, .v 0, 0x2⟩),
    (0xA0550FFC, 0x01882000, 0x00000003, .kvvalClr ⟨⟨false, 5, false⟩, .system, .discard, .v 6, .g 8, .v 0, 0x3⟩),
    (0xA0B4C804, 0x81081800, 0x00000000, .kvrcl ⟨⟨true, 5, false⟩, .device, .g 1, .g 4, .g 6, .v 0, 0x0⟩),
    (0xA0D40808, 0x01802000, 0x00000000, .skchSlot ⟨⟨false, 5, false⟩, .warp, .g 2, .v 6, .v 8, .v 0, 0x0⟩),
    (0xA0D40808, 0x81882002, 0x80000003, .skchVec ⟨⟨false, 5, false⟩, .warp, .g 2, .g 6, .g 8, .v 10, 0x3⟩),
    (0xA100C850, 0x82000000, 0x4000000F, .attn ⟨⟨false, 0, false⟩, .device, .g 20, .g 8, .v 0, .v 1, 0xF⟩),
    (0xA154C804, 0x82000000, 0x40000000, .attnq ⟨⟨false, 5, false⟩, .device, .g 1, .g 8, .v 0, .v 1, 0x0⟩)] = true := by
  decide +kernel

theorem test_decode_regions : decodes [
    (0xB020082A, 0x01800000, 0x01803208, .sploop ⟨⟨true, 0, false⟩, 0, .g 10, .imm 6, 0x6, 0x3208⟩),
    (0xB0400000, 0x07800000, 0x00000000, .spput ⟨⟨false, 0, false⟩, 0, .v 0, .v 30, 0x0, 0x0⟩),
    (0xB0A06003, 0xFFC00000, 0x000001FF, .spacc ⟨⟨true, 0, false⟩, 3, .v 0, .imm (-1), 0x0, 0x1FF⟩),
    (0xB0E00000, 0x937FFFFF, 0xFF400000, .spnext ⟨⟨true, 0, false⟩, 0, .v 0, .gp 5, 0xFFFFFFFD, 0x0⟩),
    (0xB1200820, 0x00000000, 0x00000000, .spend ⟨⟨true, 0, false⟩, 0, .g 8, .v 0, 0x0, 0x0⟩),
    (0xB160081C, 0x00000000, 0x00000000, .spq ⟨⟨true, 0, false⟩, 0, .g 7, .v 0, 0x0, 0x0⟩),
    (0xB1800024, 0x00000000, 0x02000000, .atomb ⟨⟨false, 0, false⟩, 0, .v 9, .v 0, 0x8, 0x0⟩),
    (0xB1C00000, 0x00000000, 0x00000000, .atome ⟨⟨false, 0, false⟩, 0, .v 0, .v 0, 0x0, 0x0⟩),
    (0xB2080000, 0x00000000, 0x00000000, .atoma ⟨⟨false, 2, false⟩, 0, .v 0, .v 0, 0x0, 0x0⟩),
    (0xB2440024, 0x00000000, 0x00000000, .atomq ⟨⟨false, 1, false⟩, 0, .v 9, .v 0, 0x0, 0x0⟩)] = true := by
  decide +kernel

theorem test_decode_system : decodes [
    (0xC0200804, 0x80C81481, 0x80000000, .rootsw ⟨⟨true, 0, false⟩, .warp, .relaxed, .g 1, .g 3, .g 5, .g 6, .byte, 0, 0x0⟩),
    (0xC0600858, 0x85485000, 0x00000000, .rootcpFork ⟨⟨true, 0, false⟩, .warp, .relaxed, .g 22, .g 21, .g 20, .v 0, .byte, 0, 0x0⟩),
    (0xC0600808, 0x00081400, 0x01000000, .rootcpSnap ⟨⟨true, 0, false⟩, .warp, .relaxed, .g 2, .v 0, .g 5, .v 0, .byte, 1, 0x0⟩),
    (0xC0600808, 0x00081400, 0x02000000, .rootcpDrop ⟨⟨true, 0, false⟩, .warp, .relaxed, .g 2, .v 0, .g 5, .v 0, .byte, 2, 0x0⟩),
    (0xC0A00FFC, 0x00000000, 0x00000000, .rfrsh ⟨⟨true, 0, false⟩, .warp, .relaxed, .discard, .v 0, .v 0, .v 0, .byte, 0, 0x0⟩),
    (0xC0E00808, 0x8123FC81, 0x81000000, .tnode ⟨⟨true, 0, false⟩, .warp, .relaxed, .g 2, .g 4, .imm 255, .g 6, .byte, 1, 0x0⟩),
    (0xC10E0008, 0x01000000, 0x00000000, .pgmapFt ⟨⟨false, 3, true⟩, .warp, .relaxed, .v 2, .v 4, .v 0, .v 0, .byte, 0, 0x0⟩),
    (0xC10E0008, 0x01000000, 0x01000000, .pgmapCow ⟨⟨false, 3, true⟩, .warp, .relaxed, .v 2, .v 4, .v 0, .v 0, .byte, 1, 0x0⟩),
    (0xC1600000, 0x00000000, 0x00000000, .tret ⟨⟨true, 0, false⟩, .warp, .relaxed, .v 0, .v 0, .v 0, .v 0, .byte, 0, 0x0⟩),
    (0xC1600000, 0x00000000, 0x01000000, .tretKill ⟨⟨true, 0, false⟩, .warp, .relaxed, .v 0, .v 0, .v 0, .v 0, .byte, 1, 0x0⟩),
    (0xC1800000, 0x00000000, 0x10000010, .csrr ⟨⟨false, 0, false⟩, .warp, .relaxed, .v 0, .v 0, .v 0, .v 0, .word, 0, 0x10⟩),
    (0xC1EE0000, 0x00080C00, 0x1000004F, .csrw ⟨⟨true, 3, true⟩, .warp, .relaxed, .v 0, .v 0, .g 3, .v 0, .word, 0, 0x4F⟩),
    (0xC22E0804, 0x00080800, 0x00000000, .fltq ⟨⟨true, 3, true⟩, .warp, .relaxed, .g 1, .v 0, .g 2, .v 0, .byte, 0, 0x0⟩),
    (0xC24E0004, 0x00800000, 0x03000000, .pgreq ⟨⟨false, 3, true⟩, .warp, .relaxed, .v 1, .v 2, .v 0, .v 0, .byte, 3, 0x0⟩)] = true := by
  decide +kernel

theorem test_decode_graph : decodes [
    (0xD0350804, 0x81081A00, 0x40000000, .launch ⟨⟨true, 5, false⟩, .system, .g 1, .g 4, .g 6, .imm 1, 0x0⟩),
    (0xD060C850, 0x82082A01, 0x00000000, .emit ⟨⟨true, 0, false⟩, .device, .g 20, .g 8, .g 10, .imm 4, 0x0⟩),
    (0xD0B4C804, 0x00300000, 0x00000000, .ndone ⟨⟨true, 5, false⟩, .device, .g 1, .v 0, .imm (-1024), .v 0, 0x0⟩),
    (0xD0F4CFFC, 0x8127FC00, 0x00000000, .slotw ⟨⟨true, 5, false⟩, .device, .discard, .g 4, .imm 511, .v 0, 0x0⟩),
    (0xD134C804, 0x81000000, 0x00000000, .prmptStop ⟨⟨true, 5, false⟩, .device, .g 1, .g 4, .v 0, .v 0, 0x0⟩),
    (0xD1350804, 0x81000000, 0x00000001, .prmptEvict ⟨⟨true, 5, false⟩, .system, .g 1, .g 4, .v 0, .v 0, 0x1⟩)] = true := by
  decide +kernel

/-! ## Ill-formed terms: each is refused for one reason -/

def noneOk (l : List Instr) : Bool := l.all (fun i => !i.wf)
def okA : OpA := ⟨sure, false, 0, 0, .v 8, .v 2, .v 4, .v 0, .s32, .rn, 0⟩

theorem test_refuses_registers : (Instr.iadd okA).wf = true ∧ noneOk [
    .iadd { okA with c := .v 1 }, .iadd { okA with c := .imm 0 }, .pmovSet { okA with dst := .v 8, b := .v 0, opx := 1 },
    .iadd { okA with a := .special 6 }, .iadd { okA with b := .special 22 }, .iadd { okA with com := group, dst := .g 8, b := .g 1 },
    .iadd { okA with ty := .s64, a := .v 3 }, .iadd { okA with ty := .s64, a := .g 5 }, .iadd { okA with ty := .u64, a := .special 0 },
    .iadd { okA with dst := .g 8 }, .iadd { okA with dst := .gp 1 }, .iadd { okA with com := group, a := .g 2, b := .g 4 },
    .iadd { okA with com := group, a := .g 2, b := .g 4, dst := .p 1 }, .iadd { okA with ty := .s64, dst := .v 9 },
    .iadd { okA with ty := .s64, dst := .p 1 }, .iadd { okA with com := group, a := .g 2, b := .g 4, ty := .s64, dst := .gp 1 },
    .iadd { okA with nwb := true }, .iadd { okA with hold := 0, hslot := 1 }, .iadd { okA with hold := 1, hslot := 3 },
    .iadd { okA with hold := 3 }, .iabs { okA with b := .v 0, hold := 2 }, .pmovGet { okA with a := .v 0, b := .v 0, hold := 1 }] = true := by
  decide +kernel

theorem test_refuses_types : noneOk [
    .iadd { okA with ty := .f32 }, .imulh { okA with ty := .s16x2 }, .imadw { okA with ty := .s64 }, .iabs { okA with b := .v 0, ty := .u32 },
    .idp4 { okA with c := .v 6 }, .sarn { okA with ty := .u32 }, .fadd okA, .hadd2 { okA with ty := .f32 }, .plop { okA with c := .v 6, ty := .u32 },
    .cvt { okA with b := .v 0, opx := 1 }, .cvt { okA with b := .v 0, opx := 13 }, .fcvt { okA with b := .v 0, ty := .f16, opx := 11 },
    .pk2 { okA with ty := .f32 }, .iadd { okA with rnd := .rz }, .fmin { okA with ty := .f32, rnd := .ru }, .pk2 { okA with ty := .s16x2, rnd := .rz },
    .iadd { okA with opx := 2 }, .imul { okA with opx := 1 }, .lop3 { okA with c := .v 6, opx := 256 }, .shf { okA with c := .v 6, ty := .u32, opx := 4 },
    .bfx { okA with opx := 33 }, .lea { okA with ty := .u32, dst := .v 8, opx := 8 }, .sarn { okA with opx := 64 + 2 }, .isat { okA with b := .v 0, opx := 32 },
    .isetp { okA with opx := 6 }, .isetp { okA with c := .v 6 }, .pmovSet { okA with dst := .v 0, b := .v 0, opx := 2 }, .vote { okA with b := .v 0, opx := 4 },
    .shfl { okA with c := .v 6, opx := 24 }, .shfl { okA with com := group, dst := .g 8, a := .g 2, b := .g 4, c := .g 6 }, .slide { okA with c := .v 6 },
    .redux { okA with b := .v 0, opx := 9 }, .rget { okA with hold := 1 }, .qnt { okA with ty := .f32, opx := 3 }, .frnd { okA with ty := .f32, b := .v 0, opx := 2 },
    .fclass { okA with b := .v 0, ty := .f32, opx := 512 }, .fadd { okA with ty := .f32, opx := 1 },
    .movi ⟨sure, false, 0, 0, .v 8, .v 0, .v 0, 5, .f16, 0⟩, .movi ⟨sure, false, 0, 0, .v 8, .v 1, .v 0, 5, .s32, 0⟩,
    .movi ⟨sure, false, 0, 0, .v 8, .v 0, .v 0, 5, .s32, 1⟩, .movi ⟨sure, false, 1, 0, .v 8, .v 0, .v 0, 5, .s32, 0⟩] = true := by decide +kernel

theorem test_refuses_control :
    let f : OpB := ⟨sure, 0, .v 0, .v 0, 0, 0⟩
    let u := { f with com := group }
    let g := { f with com := ⟨false, 1, false⟩ }
    let s : OpB := ⟨group, 0, .g 4, .imm 3, 0, 0x1208⟩
    (Instr.nop f).wf = true ∧ (Instr.sploop s).wf = true ∧ noneOk [
      .nop { f with dst := .v 1 }, .nop { f with ctl := 1 }, .nop { f with a := .v 1 }, .nop { f with off := 1 }, .nop { f with imm := 1 },
      .brx { f with a := .v 3 }, .brx { f with a := .imm 4 }, .brx { u with a := .v 2 }, .rcv u, .rcv g, .join g, .join { f with off := 1 }, .loop u, .loop g,
      .brk u, .next g, .call u, .callx u, .callx { f with a := .g 3 }, .ret u, .exit u, .regang g, .safept { f with imm := 65536 },
      .safept { f with ctl := 1 }, .safeptRf f, .safept g, .yield g, .yield u, .trap u, .bkpt u,
      .sploop { s with com := sure }, .sploop { s with dst := .v 4 }, .sploop { s with a := .imm (-1) }, .sploop { s with imm := 0x0208 },
      .sploop { s with imm := 0x9208 }, .sploop { s with com := ⟨true, 1, false⟩ }, .spput { f with a := .g 2 }, .spput { u with a := .v 2 },
      .spacc { u with ctl := 4 }, .spacc { u with ctl := 1 }, .spacc { u with imm := 512 }, .spacc { u with a := .v 1 }, .spnext { u with a := .gp 0 },
      .spnext { u with a := .p 1 }, .spend { u with dst := .g 5 }, .spq { u with dst := .discard }, .atomb { f with dst := .g 1 }, .atomb u,
      .atome g, .atome { f with imm := 1 }, .atoma u, .atomq { f with dst := .discard }] = true := by decide +kernel

theorem test_refuses_memory :
    let f := mWord false .device .relaxed (.v 8) (.v 0) (.imm 0) .word 0 64
    let st := { f with dst := .v 0, b := .v 4 }
    let cas := { f with c := .v 6, b := .v 4 }
    let bar : OpM := ⟨group, .device, .relaxed, .v 0, .g 2, .imm 1, .imm 0, .byte, 0, 0⟩
    let w : OpM := ⟨group, .device, .acquire, .g 8, .g 2, .g 4, .imm 1, .word, 0, 0⟩
    let fe : OpM := ⟨sure, .device, .release, .v 0, .v 0, .v 0, .v 0, .byte, 0, 0⟩
    let op (k : Nat) : BitVec 24 := BitVec.ofNat 24 (k * 2 ^ 20)
    ((Instr.ld f).wf && (Instr.st st).wf && (Instr.cas cas).wf && (Instr.bexp bar).wf && (Instr.waita w).wf && (Instr.fence fe).wf) = true ∧ noneOk [
      .ld { f with a := .g 3 }, .ld { f with a := .v 3 }, .ld { f with a := .imm 2 }, .ld { f with c := .imm 1 }, .ld { f with c := .p 1 },
      .ld { f with a := .v 2, c := .v 1 }, .ld { f with com := group, dst := .g 8, a := .v 2 }, .ld { f with com := group, dst := .g 8, c := .v 1 },
      .ld { f with b := .v 1 }, .ld { f with order := .release }, .ld { f with cache := 5 }, .ld { f with size := .double, dst := .v 9 },
      .ld { f with size := .quad, dst := .v 10 }, .ld { f with dst := .g 8 }, .ld { f with size := .double, dst := .p 1 }, .ld { f with com := group },
      .st { st with dst := .discard }, .st { st with b := .by1 }, .st { st with size := .double, b := .special 0 }, .st { st with size := .quad, b := .v 6 },
      .st { st with order := .acquire }, .prf { f with dst := .v 0 }, .fence { fe with order := .relaxed }, .fence { fe with a := .g 2 },
      .fence { fe with off := 1 }, .fence { fe with size := .word }, .cctlInv { f with dst := .v 0, scope := .warp }, .cctlWb { f with dst := .v 0, scope := .warp, size := .byte },
      .cctlInvall { fe with order := .relaxed, cache := 4 }, .atom { f with b := .v 4, size := .half }, .atom { f with b := .v 4, off := op 12 },
      .atom { f with b := .v 4, size := .double, off := op 9 }, .atom { f with b := .v 4, cache := 1 }, .cas { cas with size := .byte }, .cas { cas with c := .by1 },
      .red { st with off := op 8 }, .red { st with order := .acqrel }, .bupd { st with scope := .core }, .bupd { st with off := op 8 }, .bupd { st with com := group, b := .g 1 },
      .binit { bar with com := sure }, .binit { bar with order := .release }, .barv { bar with order := .acquire }, .bwait bar, .barw { bar with order := .release },
      .bexp { bar with dst := .discard }, .bexp { bar with b := .imm (-1) }, .bexp { bar with b := .v 1 }, .bexp { bar with size := .word },
      .waita { w with order := .relaxed }, .waita { w with size := .quad }, .waita { w with cache := 6 }, .waita { w with b := .g 5 },
      .waita { w with size := .double, b := .g 6 }, .waita { w with dst := .g 9 }, .waita { w with c := .v 1 }] = true := by decide +kernel

theorem test_refuses_copies :
    let f : OpT := ⟨group, .device, .g 1, .g 4, .g 6, .imm 1, 0⟩
    let t : OpT := ⟨sure, .core, .g 1, .g 4, .g 6, .v 1, 0⟩
    let k : OpT := ⟨sure, .warp, .g 2, .v 6, .v 8, .v 0, 0⟩
    ((Instr.cpy f).wf && (Instr.tcrt t).wf && (Instr.skchSlot k).wf && (Instr.launch f).wf) = true ∧ noneOk [
      .cpy { f with com := sure }, .cpy { f with tok := .v 1 }, .cpy { f with a := .g 5 }, .cpy { f with b := .v 6 }, .cpy { f with c := .imm (-1) },
      .cpy { f with opf := 2 ^ 24 }, .cpy { f with opf := 2 ^ 16 }, .cpyt f, .cpyt { f with b := .v 0, c := .v 0, opf := 1 }, .cpyg { f with c := .imm 0 },
      .cpyg { f with opf := 64 }, .cpys { f with opf := 64 * 256 }, .cpyr { f with b := .v 0, c := .v 0, opf := 1 }, .cpyx f,
      .cpyx { t with b := .v 0, opf := 2 }, .cpyq { f with a := .v 0, b := .v 0, c := .v 0, scope := .warp }, .cpyc { f with a := .v 0, b := .v 0, c := .v 0, scope := .warp },
      .cpyq { f with tok := .g 2, a := .v 0, b := .v 0, c := .v 0, scope := .warp, opf := 64 }, .osld { f with b := .v 1 },
      .mma { t with com := group }, .mma { t with opf := 2 ^ 28 }, .mma { t with opf := 15 * 2 ^ 24 }, .mma { t with opf := 1536 }, .mma { t with c := .g 1 },
      .mma { t with opf := 2 ^ 11 }, .tzero t, .tzero { t with b := .v 0, opf := 2 ^ 29 }, .tzero { t with b := .v 0, opf := 2 ^ 12 }, .tqnt { t with opf := 3 }, .tqnt { t with opf := 2 ^ 24 },
      .tdq { t with opf := 1 }, .tcrt { t with opf := 1 }, .ttrn t, .ttrn { t with c := .v 0, opf := 3 * 2 ^ 28 }, .tstat { t with opf := 3 },
      .kvx { k with c := .v 9 }, .kvx { k with c := .v 10, opf := 3 }, .kvx { k with c := .v 10, scope := .core }, .kvx { k with c := .v 10, tok := .g 3 }, .kvvalSet k,
      .kvvalSet { k with scope := .core, opf := 1 }, .kvvalClr { k with scope := .core }, .kvvalClr { k with scope := .core, opf := 5 }, .skchSlot { k with opf := 1 }, .skchSlot { k with b := .imm 1 },
      .skchSlot { k with a := .v 7 }, .skchVec { k with c := .v 10, opf := 2 }, .kvrcl { f with c := .v 0, scope := .warp }, .attn { t with b := .v 0, opf := 16 },
      .attnq { t with b := .v 0, opf := 1 }, .attn { t with b := .v 0, com := group }, .launch { f with scope := .core }, .launch { f with c := .imm 0 }, .emit { f with opf := 1 },
      .ndone { f with a := .v 0, c := .v 0, b := .imm 0, tok := .discard }, .slotw { f with c := .v 0, b := .imm (-1) }, .prmptStop { f with b := .v 0, c := .v 0, opf := 1 },
      .prmptEvict { f with b := .v 0, c := .v 0 }] = true := by decide +kernel

theorem test_refuses_system :
    let f (d : Dst) (a b c : Src) : OpM := ⟨group, .warp, .relaxed, d, a, b, c, .byte, 0, 0⟩
    let sw := f (.g 1) (.g 3) (.g 5) (.g 6)
    let r : OpM := ⟨sure, .warp, .relaxed, .v 8, .v 0, .v 0, .v 0, .word, 0, 0⟩
    let wr : OpM := { r with dst := .v 0, b := .v 4 }
    let pg : OpM := { f (.v 8) (.v 2) (.v 0) (.v 0) with com := sure }
    ((Instr.rootsw sw).wf && (Instr.csrr r).wf && (Instr.csrw wr).wf && (Instr.pgreq pg).wf) = true ∧ noneOk [
      .rootsw { sw with com := sure }, .rootsw { sw with scope := .device }, .rootsw { sw with order := .release }, .rootsw { sw with size := .word },
      .rootsw { sw with off := 1 }, .rootsw { sw with c := .g 7 }, .rootsw { sw with cache := 1 }, .rootcpFork sw, .rootcpSnap { f (.g 2) (.v 0) (.g 5) (.v 0) with cache := 0 },
      .rootcpDrop { f (.g 3) (.v 0) (.g 5) (.v 0) with cache := 2 }, .rfrsh (f (.v 1) (.v 0) (.v 0) (.v 0)), .tnode (f (.g 2) (.g 4) (.imm 256) (.g 6)),
      .tnode { f (.g 2) (.g 4) (.imm 1) (.g 6) with cache := 2 }, .pgmapFt { pg with com := group }, .pgmapCow pg, .tret (f (.g 1) (.v 0) (.v 0) (.v 0)), .tretKill (f (.v 0) (.v 0) (.v 0) (.v 0)),
      .csrr { r with off := 3 }, .csrr { r with off := 0x1000 }, .csrr { r with size := .double }, .csrr { r with size := .byte }, .csrr { r with scope := .device },
      .csrr { r with off := 1 }, .csrw { wr with size := .double, off := 1 }, .csrw { wr with com := group, b := .g 1, off := 0x030 }, .csrw { wr with dst := .v 8 },
      .csrr { r with off := 0x050 }, .fltq (f (.discard) (.v 0) (.g 1) (.v 0)), .pgreq { pg with cache := 4 }, .pgreq { pg with dst := .discard }] = true := by decide +kernel

/-- Steps of other agents whose arguments are out of range. -/
theorem test_refuses_steps : noneOk [
    .yieldExpiry ⟨0, 8, 0⟩, .safePointOverdue ⟨0, 0, 8⟩, .waitaDeadline 8 0, .waitaDeadline 0 4096, .sequencerStart 512, .tileStep 512, .tileStop 512,
    .tileResume 512, .commit 8, .conflictNotice 8 0, .pageResponse 0 3, .faultReply 16 0 0, .slotTableSwap ⟨512, none⟩, .slotTableSwap ⟨512, some ([], 0, 0)⟩, .issueCycle 512, .leaseExpiry 512 0,
    .rds .send 8 0, .rdx .take 8 0, .upg .send 8 0, .wbd .send 8 0, .evc .send 8 0, .snpinv 8 0, .snpfwd 8 0, .snpfwdx 8 0, .ackinv .send 8 0,
    .rspd .send 8 0, .rspi .send 8 0, .dats 8 0, .date 8 0, .datm 8 0, .grant 8 0, .wback 8 0, .hostBarAccess 16 false ⟨0, 1, [], false, false⟩,
    .admitTeam 512, .warpResume 0 512, .correctedError 10 0 (.core 0) 0, .correctedError 0 0 (.core 512) 0, .correctedError 0 0 (.die 10) 0, .correctedError 0 0 (.layer 32) 0,
    .correctedError 0 0 (.lane 88) 0, .correctedError 0 0 (.core 0) 16, .registerWrite .host (2 ^ 40) false none,
    .hostCacheResponse 0 ⟨[0], false⟩, .configurationAccess 16 .read] = true := by decide +kernel

/-- Words that R47 and R49 leave unassigned, and reserved bits and codes. -/
theorem test_illegal_words : [(0xE0000000, 0, 0), (0xF0000000, 0, 0), (0x04400000, 0, 0), (0x18400000, 0, 0), (0x25000000, 0, 0), (0x10000004, 0, 1),
    (0x10040004, 0, 0xD000), (0x10000004, 0, 0x50000), (0x10000940, 0, 0), (0x10000004, 0xA0800000, 0), (0x10000004, 0x94000000, 0),
    (0x00001000, 0, 0), (0x50014020, 0x81000002, 0x10000000), (0x5000C020, 0x81000002, 0x28000000), (0x8000D004, 0x81081A00, 0)].all
    (fun (p : Nat × Nat × Nat) => match decode (BitVec.ofNat 96 (p.1 * 2 ^ 64 + p.2.1 * 2 ^ 32 + p.2.2)) with | .ok _ => false | .error _ => true) = true := by
  decide +kernel

/-! ## Single steps -/

/-- The state after one step of the word that encodes an instruction. -/
def after (i : Instr) (s : State) : State :=
  match step (s.withFetchWord 96 ((encode i).getD 0).toNat) with | .next t => t | _ => s

/-- R98, R26: MOVI as the spec writes it out; the gang goes on by one word. -/
theorem test_step_movi :
    let t := match step (State.reset.withFetchWord 96 0x16600814000003F800000000) with | .next t => t | _ => State.reset
    greg t 5 = 0xFE000000 ∧ t.pc = 0x20004C ∧ gpreg t 1 = false := by decide +kernel

/-- R34: 300 read as u8x4, 1,023 read as bf16 and 5 read as f16x2. -/
theorem test_step_immediates :
    vreg (after (.mov { okA with a := .imm 300, b := .v 0, ty := .u8x4 }) .reset) 8 31 = 0x2C2C2C2C ∧
    vreg (after (.fcvt { okA with a := .imm 1023, b := .v 0, ty := .f32, opx := 10 }) .reset) 8 0 = 0x44800000 ∧
    vreg (after (.hadd2 { okA with a := .imm 5, b := .imm 0, ty := .f16x2 }) .reset) 8 0 = 0x45004500 := by decide +kernel

/-- R89, R95: a sum out of range clamps with its flag, or wraps without; a shift by the width leaves zero. -/
theorem test_step_integers :
    let a := { okA with a := .imm (-1024), b := .imm (-1) }
    vreg (after (.iadd { a with ty := .s8x4 }) .reset) 8 3 = 0xFFFFFFFF ∧
    vreg (after (.imul { a with a := .imm (-1), ty := .u32 }) .reset) 8 3 = 1 ∧
    vreg (after (.shl { okA with a := .imm 1, b := .imm 32, ty := .u32 }) .reset) 8 3 = 0 ∧
    vreg (after (.isub { okA with a := .imm 0, b := .imm 1, ty := .u32, opx := 1 }) .reset) 8 0 = 0 ∧
    (after (.isub { okA with a := .imm 0, b := .imm 1, ty := .u32, opx := 1 }) .reset).arch.fstat = 0x20 ∧
    (after (.isub { okA with a := .imm 0, b := .imm 1, ty := .u32 }) .reset).arch.fstat = 0 := by decide +kernel

/-- R72, R77: a uniform branch moves its gang; an exited lane is gone. -/
theorem test_step_control :
    (after (.bra ⟨sure, 0, .v 0, .v 0, BitVec.ofInt 32 (-2), 0⟩) .reset).pc = 0x200028 ∧
    (after (.exit ⟨sure, 0, .v 0, .v 0, 0, 0⟩) .reset).arch.exited = 0xFFFFFFFF := by decide +kernel

end Sys2Proof.Tests
end

section
/-! PROOF. The platform's events (R7, R380, R405 to R407): when each row happens and what it leaves, and the statement
that they complete. -/

namespace Sys2Proof.Machine

/-- A step whose condition holds is taken. -/
theorem onlyIf_eq_next (row : String) {c : Bool} (s : State) (h : c = true) : onlyIf row c s = .next s := by
  simp [onlyIf, h]

/-! ## Resets (R406, R407) -/

theorem execCold_powerOn (s : State) : execCold .powerOn s = .next s.resetPart :=
  onlyIf_eq_next _ _ rfl

theorem execCold_thermalTrip {s : State} (h : s.plat.trip = true) : execCold .thermalTrip s = .next s.resetPart :=
  onlyIf_eq_next _ _ (by simp [h])

theorem execCold_statusWrite {s : State} (h : s.plat.ready = true) : execCold .statusWrite s = .next s.resetPart :=
  onlyIf_eq_next _ _ (by simp [h])

theorem execWarm_hotReset (s : State) : execWarm .hotReset s = .next s.resetPart :=
  onlyIf_eq_next _ _ rfl

theorem execWarm_statusWrite {s : State} (h : s.plat.ready = true) : execWarm .statusWrite s = .next s.resetPart :=
  onlyIf_eq_next _ _ (by simp [h])

/-! ## Boot stages (R380) -/

/-- While the sequence runs, stage 3 tests the units and an earlier stage verifies its image: it measures it and goes on,
or stops. -/
theorem execBootStage_running (fw : Firmware) (a : Absent) {s : State} (hf : s.plat.fail = false) (hr : s.plat.ready = false)
    (hb : s.plat.bstage ≤ 3) :
    execBootStage fw a s = .next (
      if s.plat.bstage = 3 then s.selfTest a
      else if Config.slhVerify Config.fusedKey fw.image fw.signature then { s with
        plat := { s.plat with
          bstage := s.plat.bstage + 1, meas := s.plat.meas.set 0 s.plat.bstage (shake256 fw.image) } }
      else { s with plat := { s.plat with fail := true } }) := by
  have hlast : ¬4 ≤ s.plat.bstage := by omega
  by_cases h3 : s.plat.bstage = 3
  · simp [execBootStage, hf, hr, h3]
  · cases hv : Config.slhVerify Config.fusedKey fw.image fw.signature <;> simp [execBootStage, hf, hr, hlast, h3, hv]

/-! ## Heat (R405) -/

/-- The trip of a junction is recorded, and the cold reset that it causes goes to the head of the agenda. -/
theorem execThermalTrip_of_lt {k : Nat} (h : k < 10) (s : State) :
    execThermalTrip k s =
      let t := s.lifeUp .trip k
      .next { t with plat := { t.plat with trip := true }, agenda := .cold .thermalTrip :: t.agenda } :=
  onlyIf_eq_next _ _ (by simp [h])

/-- A block has one entry at most among those at a low clock: the new one takes the place of those it had. -/
theorem State.throttle_eq (s : State) (b : Nat) (e : Option (Option Nat)) :
    s.throttle b e = { s with plat := { s.plat with
      throttled := s.plat.throttled.filter (fun (p : Nat × Option Nat) => p.1 != b) ++ e.toList.map (fun x => (b, x)) } } := by
  cases e with
  | none => simp [State.throttle]
  | some x => rfl

/-- A block's first entry is the one that is looked up. -/
theorem find?_throttled {ts pre post : List (Nat × Option Nat)} {b : Nat} {x : Option Nat} (hs : ts = pre ++ (b, x) :: post)
    (hp : ∀ p ∈ pre, p.1 ≠ b) : ts.find? (fun p => p.1 == b) = some (b, x) :=
  List.find?_eq_some_iff_append.mpr ⟨by simp, pre, post, hs, by simpa using hp⟩

/-- A block that comes back inside its limits waits from now on. -/
theorem execThrottleRelease_inside {s : State} {b : Nat}
    (h : s.plat.throttled.find? (fun p => p.1 == b) = some (b, none)) :
    execThrottleRelease ⟨b, true⟩ s = .next (s.throttle b (some (some s.clk.time))) := by
  simp [execThrottleRelease, h]

/-- A block that has waited for 1 ms gets its clock back. -/
theorem execThrottleRelease_restored {s : State} {b t : Nat}
    (h : s.plat.throttled.find? (fun p => p.1 == b) = some (b, some t)) (ht : t + 1000000 ≤ s.clk.time) :
    execThrottleRelease ⟨b, false⟩ s = .next (s.throttle b none) := by
  simp [execThrottleRelease, h, onlyIf_eq_next, ht]

/-! ## The statement -/

/-- Settles O38: each row's equation above, at the conditions that the statement names. The measurement of an image is the
model's `shake256` (log 142), and the drift of the time base is free (logs 6, 135). -/
theorem platformEventsComplete : Obligations.PlatformEventsComplete := by
  unfold Obligations.PlatformEventsComplete
  intro s low
  have lowered (t : State) (b : Nat) (e : Option (Option Nat)) : t.throttle b e = low t b e.toList := t.throttle_eq b e
  refine ⟨⟨execCold_powerOn s, execCold_thermalTrip, execWarm_hotReset s⟩,
    fun hr => ⟨execCold_statusWrite hr, execWarm_statusWrite hr⟩, ?boot, fun k hk => execThermalTrip_of_lt hk s, ?throttle,
    ?release, rfl⟩
  case boot =>
    intro img sig a hf hr
    have running := execBootStage_running ⟨img, sig⟩ a hf hr
    refine ⟨fun hb hv => ?_, fun hb hv => ?_, fun hb => ?_⟩
    · simpa [hv, show s.plat.bstage ≠ 3 by omega] using running (by omega)
    · simpa [hv, show s.plat.bstage ≠ 3 by omega] using running (by omega)
    · simpa [hb] using running (by omega)
  case throttle =>
    exact fun b r => ⟨congrArg Host.Outcome.next (lowered _ b (some none)), congrArg Host.Outcome.next (lowered _ b (some none))⟩
  case release =>
    intro b pre x post hs hp
    have found := find?_throttled hs hp
    refine ⟨?_, ?_⟩
    · rintro rfl
      exact (execThrottleRelease_inside found).trans (congrArg _ (lowered s b (some (some s.clk.time))))
    · rintro t rfl ht
      exact (execThrottleRelease_restored found ht).trans (congrArg _ (lowered s b none))

end Sys2Proof.Machine
end

section
/-! PROOF. A step of the whole part (R24, R26): what it is in each case, that a supplied part never stops, and that a gang
that issues runs the instruction its word decodes to. -/

namespace Sys2Proof.Machine
open Sys2Proof.Safety

/-! ## The cases of a step -/

section
variable {s : State}

theorem step_unsupplied (hs : s.plat.supply = false) : step s = .fault .outsideOperatingConditions := by
  simp [step, hs]

variable (hs : Supplied s)
include hs

theorem step_took {t : State} (hi : s.issuing = true) (hf : s.frontEnd = .took t) : step s = .next t := by
  have supply : s.plat.supply = true := hs
  simp [step, supply, hi, hf]

theorem step_run {i : Instr} {t : State} (hi : s.issuing = true) (hf : s.frontEnd = .run i t) : step s = exec i t := by
  have supply : s.plat.supply = true := hs
  simp [step, supply, hi, hf]

/-- The agenda's first step cannot happen now: it is passed over (log 27). -/
theorem step_passedOver {i : Instr} {r : List Instr} {e : Refusal} (hi : s.issuing = false) (ha : s.agenda = i :: r)
    (hx : exec i { s with agenda := r } = .refused e) : step s = .next { s with agenda := r } := by
  unfold step
  rw [if_neg (by simp [show s.plat.supply = true from hs]), if_neg (by simp [hi]), ha]
  simp only [hx]

theorem step_agenda {i : Instr} {r : List Instr} (hi : s.issuing = false) (ha : s.agenda = i :: r)
    (hx : ∀ e, exec i { s with agenda := r } ≠ .refused e) : step s = exec i { s with agenda := r } := by
  unfold step
  rw [if_neg (by simp [show s.plat.supply = true from hs]), if_neg (by simp [hi]), ha]
  cases h : exec i { s with agenda := r } with
  | next t => simp only [h]
  | fault e => simp only [h]
  | refused e => exact absurd h (hx e)

theorem step_idle (hi : s.issuing = false) (ha : s.agenda = []) : step s = .next s.nextEvent := by
  have supply : s.plat.supply = true := hs
  simp [step, supply, hi, ha]

end

/-! ## A supplied part never stops (R24) -/

/-- A word's meaning answers with a state on every path; only the steps of other agents, which have no words, can be
refused (log 27). -/
theorem exec_word_next {i : Instr} (hw : (usesOf i).isSome = true) (s : State) : ∃ t, exec i s = .next t := by
  cases i
  case yieldExpiry | safePointOverdue | waitaDeadline | engineStart | copyElement | tokenWrite | byteAddition | cpyxFollowOn
    | sequencerStart | tileStep | tileStop | tileResume | wayKeep | commit | conflictNotice | pageResponse | faultReply
    | slotTableSwap | issueCycle | gangWake | fetch | leaseExpiry | writePerform | writeAck | releaseIssue | loadReturn
    | rds | rdx | upg | wbd | evc | snpinv | snpfwd | snpfwdx | ackinv | rspd | rspi | dats | date | datm | grant | wback
    | backInvalidate | hostSnoop | hostAccess | hostBarAccess | postedWriteAck | flushDone | recordRefetch | groupForm
    | coalesceTimeout | dispatch | admitTeam | teamRetire | instanceComplete | preemptRequest | warpSave | warpResume
    | quantumExpiry | parkYield | reclaimRoot | correctedError | uncorrectableError | dirEntryError | hostLinkDown
    | ideIntegrityFailure | linkRecover | replay | disc | cold | warm | bootStage | thermalTrip | thermalThrottle
    | throttleRelease | getVersion | getCapabilities | negotiateAlgorithms | getDigests | getCertificate | challenge
    | getMeasurements | keyExchange | finish | endSession | ideKm | registerWrite | timeBaseTick | peerAccess
    | backInvalidationResponse | hostCacheResponse | configurationAccess | linkRetrain =>
    contradiction
  all_goals exact ⟨_, rfl⟩

/-- A word that issues leaves a state in which the part is as it should be. -/
theorem exec_word_ok {b : Bool} {s : State} {i : Instr} (hw : (usesOf i).isSome = true) (h : Ok b s) :
    ∃ t, exec i s = .next t ∧ Ok b t := by
  obtain ⟨t, ht⟩ := exec_word_next hw s
  have hk := ok_exec i h
  rw [ht] at hk
  exact ⟨t, ht, hk⟩

/-- Every step of a supplied part ends in a state, and the part is as it should be there. -/
theorem step_ok {b : Bool} {s : State} (h : Ok b s) : ∃ t, step s = .next t ∧ Ok b t := by
  have hs : Supplied s := h.1
  cases hi : s.issuing with
  | true =>
    have hk := ok_frontEnd h
    cases hf : s.frontEnd with
    | took t =>
      rw [hf] at hk
      exact ⟨t, step_took hs hi hf, hk⟩
    | run i t =>
      rw [hf] at hk
      rw [step_run hs hi hf]
      exact exec_word_ok hk.2 hk.1
  | false =>
    cases ha : s.agenda with
    | nil => exact ⟨_, step_idle hs hi ha, ok_nextEvent h⟩
    | cons i r =>
      have hr : Ok b { s with agenda := r } := ok_mk.mpr h
      have hk := ok_exec i hr
      cases hx : exec i { s with agenda := r } with
      | next t =>
        rw [hx] at hk
        exact ⟨t, (step_agenda hs hi ha (by simp [hx])).trans hx, hk⟩
      | fault e => rw [hx] at hk; exact hk.elim
      | refused e => exact ⟨_, step_passedOver hs hi ha hx, hr⟩

theorem run_succ_of_next {M : Host.Core} {k : Nat} {s t : M.State} (h : M.step s = .next t) : M.run (k + 1) s = M.run k t := by
  rw [Host.Core.run, h]

/-- Any number of steps from a supplied part ends in a supplied part. -/
theorem run_ok {b : Bool} {s : State} (k : Nat) (h : Ok b s) : ∃ t, Host.Core.run core k s = .next t ∧ Ok b t := by
  induction k generalizing s with
  | zero => exact ⟨s, rfl, h⟩
  | succ k ih =>
    obtain ⟨t, ht, hk⟩ := step_ok h
    obtain ⟨u, hu, hl⟩ := ih hk
    exact ⟨u, (run_succ_of_next (M := core) ht).trans hu, hl⟩

/-- Settles O43: the supply is an invariant under which every step ends in a state. That no refusal ends one rests on the
passing over of a step that cannot happen (log 27). -/
theorem suppliedPartsAreSafe : Obligations.SuppliedPartsAreSafe := by
  unfold Obligations.SuppliedPartsAreSafe
  intro s hs k
  obtain ⟨t, ht, -⟩ := run_ok (b := false) k ⟨hs, fun h => nomatch h⟩
  exact ⟨t, ht⟩

/-! ## What fetching and the start of a chain leave as they were -/

/-- Entering the walks of a fetch changes the trees' bitmaps only. -/
theorem noteFetch_frame (s : State) (n : Nat) : ∃ x, s.noteFetch n = { s with trees := x } := by
  unfold State.noteFetch
  generalize s.who.warp = u, s.pc.toNat = pc
  induction List.range n generalizing s with
  | nil => exact ⟨s.trees, rfl⟩
  | cons i r ih =>
    obtain ⟨x, hx⟩ := noteVa_frame s u (addr64 (pc + 4 * i : Nat))
    obtain ⟨y, hy⟩ := ih { s with trees := x }
    exact ⟨y, by rw [List.foldl_cons, hx, hy]⟩

@[simp] theorem State.noteFetch_pc (s : State) (n : Nat) : (s.noteFetch n).pc = s.pc := by
  obtain ⟨x, hx⟩ := noteFetch_frame s n; rw [hx]; rfl
@[simp] theorem State.noteFetch_active (s : State) (n : Nat) : (s.noteFetch n).active = s.active := by
  obtain ⟨x, hx⟩ := noteFetch_frame s n; rw [hx]; rfl
@[simp] theorem State.noteFetch_inHandler (s : State) (n : Nat) : (s.noteFetch n).inHandler = s.inHandler := by
  obtain ⟨x, hx⟩ := noteFetch_frame s n; rw [hx]; rfl
@[simp] theorem State.noteFetch_overdue (s : State) (n k : Nat) : (s.noteFetch n).overdue k = s.overdue k := by
  obtain ⟨x, hx⟩ := noteFetch_frame s n; rw [hx]; rfl
@[simp] theorem State.noteFetch_doesWork (s : State) (n : Nat) (c : Common) : (s.noteFetch n).doesWork c = s.doesWork c := by
  obtain ⟨x, hx⟩ := noteFetch_frame s n; rw [hx]; rfl

/-- An update of a gang's chain or count keeps the warp's slices, gangs and registers. -/
theorem near_updGang (s : State) {f : Gang → Gang} (hf : ∀ g, (f g).sig = g.sig) :
    Warp.Near s.who.way s.wWarp (s.updGang f).wWarp s.arch.slices s.arch.fstat := by
  by_cases hp : Present s
  · rw [State.updGang_eq, State.wWarp_updMy s _ hp]
    exact Warp.Near.updGang s.who.way s.who.slice s.wWarp f hf
  · have hn : s.warps.find s.who.warp = none := by simpa [Present] using hp
    have hw : (s.updGang f).wWarp = s.wWarp := by
      simp [State.updGang_eq, State.updMy, State.updWarp, State.wWarp, State.warp, hn]
    rw [hw]
    exact Warp.Near.refl _ _

theorem State.pc_updGang (s : State) {f : Gang → Gang} (hf : ∀ g, (f g).sig = g.sig) : (s.updGang f).pc = s.pc :=
  congrArg (fun sl : List Slice => (sl.getD s.who.slice {}).pc) (near_updGang s hf).slices

theorem State.active_updGang (s : State) {f : Gang → Gang} (hf : ∀ g, (f g).sig = g.sig) :
    (s.updGang f).active = s.active := by
  have near := near_updGang s hf
  have slices : (s.updGang f).arch.slices = s.arch.slices := near.slices
  have gang : (s.updGang f).gang.slices = s.gang.slices := gang_slices_congr s.who.slice _ _ near.gangs
  unfold State.active Arch.activeIn Arch.slice
  rw [slices, gang]

theorem State.doesWork_updGang (s : State) {f : Gang → Gang} (hf : ∀ g, (f g).sig = g.sig) (c : Common) :
    (s.updGang f).doesWork c = s.doesWork c := by
  have near := near_updGang s hf
  unfold State.doesWork State.executesU State.executing
  simp only [State.active_updGang s hf, State.updGang_who, near.p, near.gp]

theorem updGang_chain (s : State) : s.updGang (fun g => { g with chain := {} }) = unchained s := rfl
@[simp] theorem unchained_pc (s : State) : (unchained s).pc = s.pc := s.pc_updGang fun _ => rfl
@[simp] theorem unchained_who (s : State) : (unchained s).who = s.who := rfl

@[simp] theorem headed_doesWork (b : State) (ws : List (BitVec 96)) (c : Common) :
    (headed b ws).doesWork c = b.doesWork c := by
  unfold headed
  split
  · rfl
  · exact b.doesWork_updGang (f := fun g => { g with chain := { left := ws.length } }) (fun _ => rfl) c

@[simp] theorem State.consumed_pc (s : State) (core tenant : Nat) : (s.consumed core tenant).pc = s.pc := by
  rfl

/-! ## Entering a word -/

theorem enterWord_ok {w : BitVec 96} {i : Instr} (h : decode w = .ok i) (s : State) : s.enterWord w = .run i s := by
  simp [State.enterWord, wordInstr, h]

theorem enterWord_error {w : BitVec 96} {e : DecodeError} (h : decode w = .error e) (s : State) :
    s.enterWord w = .took (if s.doesWork (wordCom w) then s.trapC 0x01 (s.faulting (wordCom w)) else s.skipWord w) := by
  simp only [State.enterWord, wordInstr, h]
  split <;> rfl

/-- An illegal word that passes a head's check does no work (R48). -/
theorem doesWork_of_chainCheck {s : State} {w : BitVec 96} {ws : List (BitVec 96)} {e : DecodeError}
    (he : decode w = .error e) (hc : s.chainCheck [] (w :: ws) = none) : s.doesWork (wordCom w) = false := by
  have uses : wordUses w = none := by simp [wordUses, wordInstr, he]
  have known : guardKnown [] w = true := by simp [guardKnown]
  by_contra work
  simp [State.chainCheck, State.wordCause, uses, known, work] at hc

theorem enterWord_headed_error {v : State} {w : BitVec 96} {ws : List (BitVec 96)} {e : DecodeError}
    (he : decode w = .error e) (hc : v.chainCheck [] (w :: ws) = none) :
    (headed v ws).enterWord w = .took ((headed v ws).skipWord w) := by
  rw [enterWord_error he, headed_doesWork, doesWork_of_chainCheck he hc]
  rfl

/-! ## The front end -/

/-- No loop has ended before the word, or it is SPEND, or it does no work (R319). -/
theorem afterLoop_eq_false {b : State} {w : BitVec 96} (h : b.loopEnding = false ∨ isSpend w = true ∨ b.doesWork (wordCom w) = false) :
    (b.loopEnding && !isSpend w && b.doesWork (wordCom w)) = false := by
  rcases h with h | h | h <;> simp [h]

section
variable {s : State} {w : BitVec 96}

/-- A member's word, at the PC with its chain begun. -/
theorem frontEnd_member (hm : s.member = true) (hw : s.fetchAt s.who.warp s.pc.toNat = .ok w) :
    s.frontEnd = (s.noteFetch 3).enterWord w := by
  simp [State.frontEnd, hm, hw]

theorem frontEnd_member_unfetched (hm : s.member = true) {e : Nat × Nat} (he : s.fetchAt s.who.warp s.pc.toNat = .error e) :
    s.frontEnd = .took (s.fetchTrap e) := by
  simp [State.frontEnd, hm, he]

variable (hm : s.member = false)
include hm

theorem frontEnd_overdue (h : (unchained s).overdue 1 = true) :
    s.frontEnd = .took ((unchained s).trapC 0x08 (unchained s).active) := by
  simp [State.frontEnd, hm, updGang_chain, h]

variable (counted : (unchained s).overdue 1 = false)
include counted

theorem frontEnd_lostRelease {r : Req} (h : (unchained s).lostRelease = some r) :
    s.frontEnd = .took (((unchained s).takeBackReqs r).trap { cause := 0x15, lanes := (unchained s).active, at' := some r.pc }) := by
  simp [State.frontEnd, hm, updGang_chain, counted, h]

variable (linked : (unchained s).lostRelease = none)
include linked

theorem frontEnd_misaligned (h : (unchained s).pc.toNat % 12 ≠ 0) :
    s.frontEnd = .took ((unchained s).fetchTrap (0x09, (unchained s).pc.toNat)) := by
  rw [unchained_pc] at h ⊢
  simp [State.frontEnd, hm, updGang_chain, counted, linked, alignedTo, h]

variable (aligned : (unchained s).pc.toNat % 12 = 0)
include aligned

theorem frontEnd_unfetched {e : Nat × Nat} (he : (unchained s).fetchAt (unchained s).who.warp (unchained s).pc.toNat = .error e) :
    s.frontEnd = .took ((unchained s).fetchTrap e) := by
  simp only [unchained_pc, unchained_who] at aligned he
  simp [State.frontEnd, hm, updGang_chain, counted, linked, alignedTo, aligned, he]

variable (word : (unchained s).fetchAt (unchained s).who.warp (unchained s).pc.toNat = .ok w)
include word

theorem frontEnd_afterLoop (h1 : (unchained s).loopEnding = true) (h2 : isSpend w = false)
    (h3 : (unchained s).doesWork (wordCom w) = true) :
    s.frontEnd = .took (((unchained s).noteFetch 3).trapC 0x10 ((unchained s).faulting (wordCom w))) := by
  simp only [unchained_pc, unchained_who] at aligned word
  simp [State.frontEnd, hm, updGang_chain, counted, linked, alignedTo, aligned, word, h1, h2, h3]

variable (ending : (unchained s).loopEnding = false ∨ isSpend w = true ∨ (unchained s).doesWork (wordCom w) = false)
include ending

theorem frontEnd_memberUnfetched {e : Nat × Nat}
    (he : (unchained s).members (unchained s).who.warp (unchained s).pc.toNat w = .error e) :
    s.frontEnd = .took ((unchained s).fetchTrap e) := by
  simp only [unchained_pc, unchained_who] at aligned word he
  have goes := afterLoop_eq_false ending
  simp [State.frontEnd, hm, updGang_chain, counted, linked, alignedTo, aligned, word, goes, he]

theorem frontEnd_handlerFull {ws : List (BitVec 96)}
    (hws : (unchained s).members (unchained s).who.warp (unchained s).pc.toNat w = .ok ws)
    (h1 : (unchained s).inHandler = true) (h2 : (unchained s).overdue (1 + ws.length) = true) :
    s.frontEnd = .took (((unchained s).noteFetch (3 * headWords w ws)).trapC 0x08 (unchained s).active) := by
  simp only [unchained_pc, unchained_who] at aligned word hws
  have goes := afterLoop_eq_false ending
  simp [State.frontEnd, hm, updGang_chain, counted, linked, alignedTo, aligned, word, goes, hws, h1, h2]

end

/-- With its chain fetched a head is checked word by word, then waits for its operands, then enters (R43, R44, R48). -/
theorem frontEnd_fetched {s : State} {w : BitVec 96} {ws : List (BitVec 96)} (hm : s.member = false) (hf : Fetched (unchained s) w ws) :
    let v := (unchained s).noteFetch (3 * headWords w ws)
    (∀ k m c, v.chainCheck [] (w :: ws) = some (k, m, c) →
      let t := if c = 0x0F then v.consumed v.wWarp.core v.wWarp.tenant else v
      s.frontEnd = .took (t.trap {
        cause := c, lanes := t.chainFault ((w :: ws).take k) m c
        memb := if k = 0 then none else some ((unchained s).pc + 12 * BitVec.ofNat 64 k) })) ∧
    (v.chainCheck [] (w :: ws) = none → v.chainWaits (w :: ws) = true → s.frontEnd = .took v.stall) ∧
    (v.chainCheck [] (w :: ws) = none → v.chainWaits (w :: ws) = false → s.frontEnd = (headed v ws).enterWord w) := by
  obtain ⟨counted, linked, aligned, word, ending, hws, handler⟩ := hf
  simp only [unchained_pc, unchained_who] at aligned word hws
  have goes := afterLoop_eq_false ending
  have room : ((unchained s).inHandler && (unchained s).overdue (1 + ws.length)) = false := by
    rcases handler with h | h <;> simp [h]
  intro v
  refine ⟨fun k m c hc => ?_, fun hc hw => ?_, fun hc hw => ?_⟩
  · have pc : (if c = 0x0F then v.consumed v.wWarp.core v.wWarp.tenant else v).pc = (unchained s).pc := by
      split
      · rw [State.consumed_pc, State.noteFetch_pc]
      · exact State.noteFetch_pc _ _
    simp only [v] at pc
    simp [State.frontEnd, hm, updGang_chain, counted, linked, alignedTo, aligned, word, goes, hws, room, hc, pc, v]
  · simp [State.frontEnd, hm, updGang_chain, counted, linked, alignedTo, aligned, word, goes, hws, room, hc, hw, v]
  · simp [State.frontEnd, hm, updGang_chain, counted, linked, alignedTo, aligned, word, goes, hws, room, hc, hw, headed, v]

/-! ## What a step runs -/

/-- Settles O42: the front end's cases above, each taken as a step. A release that is lost traps before the next word (log
23), a chain word's fetch fault comes before the head's own checks (log 141), and a step of the agenda that cannot happen
is passed over (logs 1, 27). -/
theorem stepRunsTheDecodedInstruction : Obligations.StepRunsTheDecodedInstruction := by
  unfold Obligations.StepRunsTheDecodedInstruction
  intro s w b
  refine ⟨step_unsupplied, ?member, ?head, ?other⟩
  case member =>
    intro hs hi hm
    refine ⟨fun e he => step_took hs hi (frontEnd_member_unfetched hm he), fun hw => ⟨fun i hd => ?_, fun e hd => ?_⟩⟩
    · exact step_run hs hi ((frontEnd_member hm hw).trans (enterWord_ok hd _))
    · have front := (frontEnd_member hm hw).trans (enterWord_error hd _)
      rw [State.noteFetch_doesWork] at front
      exact step_took hs hi front
  case head =>
    intro hs hi hm
    refine ⟨fun h => step_took hs hi (frontEnd_overdue hm h),
      fun h r hr => step_took hs hi (frontEnd_lostRelease hm h hr),
      fun h hl ha => step_took hs hi (frontEnd_misaligned hm h hl ha),
      fun h hl ha => ⟨fun e he => step_took hs hi (frontEnd_unfetched hm h hl ha he), fun hw => ⟨?_, ?_⟩⟩, ?_⟩
    · exact fun ⟨h1, h2, h3⟩ => step_took hs hi (frontEnd_afterLoop hm h hl ha hw h1 h2 h3)
    · exact fun hend => ⟨fun e he => step_took hs hi (frontEnd_memberUnfetched hm h hl ha hw hend he),
        fun ws hws h1 h2 => step_took hs hi (frontEnd_handlerFull hm h hl ha hw hend hws h1 h2)⟩
    · intro ws hf v
      obtain ⟨fails, waits, enters⟩ := frontEnd_fetched hm hf
      refine ⟨fun k m c hc => step_took hs hi (fails k m c hc), fun hc hw => step_took hs hi (waits hc hw),
        fun hc hw => ⟨fun i hd => ?_, fun e hd => ?_⟩⟩
      · exact step_run hs hi ((enters hc hw).trans (enterWord_ok hd _))
      · exact step_took hs hi ((enters hc hw).trans (enterWord_headed_error hd hc))
  case other =>
    intro hs hi
    refine ⟨fun i r ha => ?_, step_idle hs hi⟩
    cases hx : exec i { s with agenda := r } with
    | next t => exact (step_agenda hs hi ha (by simp [hx])).trans hx
    | fault e => exact (step_agenda hs hi ha (by simp [hx])).trans hx
    | refused e => exact step_passedOver hs hi ha hx

end Sys2Proof.Machine
end

section
/-! PROOF. Control instructions (R68 to R84): which lanes a move of slices stops for, what each move makes of a slice
that can make it, and the statements that control instructions complete or trap. -/

namespace Sys2Proof.Machine
open Sys2Proof.Safety

/-! ## The lanes of slices -/

/-- The lanes of a mask in slice `i`, put back in their places, are the mask's lanes there. -/
theorem getLsbD_laneBits_sliceBits (E : Lanes) (i : Nat) {l : Nat} (hl : l < 32) :
    (laneBits (sliceBits E i) i).getLsbD l = (decide (l / 4 = i) && E.getLsbD l) := by
  simp only [laneBits, sliceBits, BitVec.getLsbD_shiftLeft, BitVec.getLsbD_setWidth, BitVec.getLsbD_extractLsb']
  by_cases h : l / 4 = i
  · simp [h, hl, show ¬l < 4 * i by omega, show l - 4 * i < 32 by omega, show l - 4 * i < 4 by omega,
      show 4 * i + (l - 4 * i) = l by omega]
  · have : l < 4 * i ∨ ¬l - 4 * i < 4 := by omega
    rcases this with h' | h' <;> simp [h, h']

/-- A union of lanes over some members of a list holds a lane that one of them holds. -/
theorem getLsbD_foldl_or_if (L : List Nat) (p : Nat → Prop) [DecidablePred p] (g : Nat → Lanes) (m : Lanes) (l : Nat) :
    (L.foldl (fun m i => if p i then m ||| g i else m) m).getLsbD l = true ↔
      m.getLsbD l = true ∨ ∃ i ∈ L, p i ∧ (g i).getLsbD l = true := by
  induction L generalizing m with
  | nil => simp
  | cons a r ih =>
    rw [List.foldl_cons, ih]
    by_cases h : p a <;> simp [h, or_assoc]

/-- An active lane lies in a slice of the gang. -/
theorem slice_of_mem_active {b : State} {l : Nat} (h : l ∈ lanesOf b.active) : l / 4 ∈ slicesOf b.gang.slices := by
  obtain ⟨hl, ha⟩ := mem_lanesOf.1 h
  have union := getLsbD_foldl_or_if (slicesOf b.gang.slices) (fun _ => True)
    (fun i => laneBits (b.arch.slice i).mask i) 0 l
  simp only [if_true, true_and] at union
  obtain zero | ⟨i, hi, hb⟩ := union.1 ha
  · simp at zero
  · have : l / 4 = i := by
      simp only [laneBits, BitVec.getLsbD_shiftLeft, Bool.and_eq_true, Bool.not_eq_true', decide_eq_false_iff_not] at hb
      rw [BitVec.getLsbD_setWidth, Bool.and_eq_true] at hb
      have := BitVec.lt_of_getLsbD hb.2.2
      omega
    exact this ▸ hi

/-! ## Moves that some slice cannot make (R78) -/

/-- One slice's move with the check of its depth. -/
def State.tryMove (b : State) (E : Lanes) (f : Nat → Move) (i : Nat) : Except Nat Slice :=
  match f i (b.arch.slice i) (sliceBits E i) with
  | .error c => .error c
  | .ok x => if b.depthLimit < x.stack.length then .error 0x06 else .ok x

/-- The cause for which a slice's move is not made. -/
def moveCause : Except Nat Slice → Option Nat
  | .error c => some c
  | .ok _ => none

/-- The lanes of `E` in slices whose move is not made for this cause. -/
def State.blocked (b : State) (E : Lanes) (f : Nat → Move) (c : Nat) : Lanes :=
  (slicesOf b.gang.slices).foldl
    (fun m i => if moveCause (b.tryMove E f i) = some c then m ||| laneBits (sliceBits E i) i else m) 0

theorem getLsbD_blocked (b : State) (E : Lanes) (f : Nat → Move) (c : Nat) {l : Nat} (hl : l < 32) :
    (b.blocked E f c).getLsbD l = true ↔
      l / 4 ∈ slicesOf b.gang.slices ∧ moveCause (b.tryMove E f (l / 4)) = some c ∧ E.getLsbD l = true := by
  unfold State.blocked
  rw [getLsbD_foldl_or_if]
  simp only [getLsbD_laneBits_sliceBits E _ hl, Bool.and_eq_true, decide_eq_true_eq]
  constructor
  · rintro (h | ⟨i, hi, hc, rfl, he⟩)
    · simp at h
    · exact ⟨hi, hc, he⟩
  · exact fun ⟨hi, hc, he⟩ => .inr ⟨l / 4, hi, hc, rfl, he⟩

/-- No lane is held back for a cause that no slice's move has. -/
theorem blocked_eq_zero {b : State} {E : Lanes} {f : Nat → Move} {c : Nat}
    (h : ∀ i ∈ slicesOf b.gang.slices, moveCause (b.tryMove E f i) ≠ some c) : b.blocked E f c = 0 := by
  refine BitVec.eq_of_getLsbD_eq fun l hl => ?_
  have clear : (b.blocked E f c).getLsbD l = false := Bool.eq_false_iff.2 fun hb =>
    have ⟨hi, hc, _⟩ := (getLsbD_blocked b E f c hl).1 hb
    h _ hi hc
  simpa using clear

theorem blocked_ne_zero {b : State} {E : Lanes} {f : Nat → Move} {c l : Nat}
    (h : (b.blocked E f c).getLsbD l = true) : b.blocked E f c ≠ 0 := by
  intro zero
  rw [zero] at h
  simp at h

/-- The union that `moveAll` forms for a cause. -/
theorem blocked_eq (b : State) (E : Lanes) (f : Nat → Move) (c : Nat) :
    b.blocked E f c = ((slicesOf b.gang.slices).map (fun i => (i, b.tryMove E f i))).foldl (fun m p => match p.2 with
      | .error e => if e = c then m ||| laneBits (sliceBits E p.1) p.1 else m
      | .ok _ => m) 0 := by
  unfold State.blocked
  rw [List.foldl_map]
  congr 1
  funext m i
  cases b.tryMove E f i <;> simp [moveCause]

/-- A gang some slice of which cannot make its move at all traps 0x01. -/
theorem moveAll_malformed {b : State} {E : Lanes} {f : Nat → Move} (h : b.blocked E f 0x01 ≠ 0) :
    b.moveAll E f = .trap { cause := 0x01, lanes := b.blocked E f 0x01 } := by
  rw [blocked_eq] at h ⊢
  exact if_pos h

/-- Else one some slice of which would exceed its depth traps 0x06. -/
theorem moveAll_overflow {b : State} {E : Lanes} {f : Nat → Move} (h1 : b.blocked E f 0x01 = 0)
    (h6 : b.blocked E f 0x06 ≠ 0) : b.moveAll E f = .trap { cause := 0x06, lanes := b.blocked E f 0x06 } := by
  rw [blocked_eq] at h1 h6 ⊢
  exact (if_neg (not_not.2 h1)).trans (if_pos h6)

/-! ## What each move makes of a slice -/

/-- A slice whose top token is popped goes on where that token says, and settles (R74). -/
def Slice.popped (x : Slice) : Slice :=
  match x.stack with
  | k :: r => Slice.settle { x with mask := k.mask, pc := x.pc.extractLsb' 56 8 ++ k.pc, stack := r }
  | [] => x

section
variable {x : Slice} {E : BitVec 4} {pc t : Double}

theorem braMove_eq : braMove pc t x E = .ok (
    if E = x.mask then { x with pc := t }
    else if E ≠ 0 then { x with mask := x.mask &&& ~~~ E, pc := pc, stack := ⟨0, E, t.setWidth 56⟩ :: x.stack }
    else { x with pc := pc }) := by
  unfold braMove
  split_ifs <;> rfl

theorem joinMove_of_ne_nil (h : x.stack ≠ []) : joinMove x E = .ok x.popped := by
  unfold joinMove Slice.popped
  cases hs : x.stack with
  | nil => exact absurd hs h
  | cons k r => rfl

theorem joinMove_of_nil (h : x.stack = []) : joinMove x E = .error 0x01 := by
  unfold joinMove
  rw [h]

theorem nextMove_of_kind (h : x.stack.head?.map (fun k => k.kind) = some 1) : nextMove t x E = .ok { x with pc := t } := by
  unfold nextMove
  cases hs : x.stack with
  | nil => simp [hs] at h
  | cons k r =>
    have kind : k.kind = 1 := by simpa [hs] using h
    exact if_pos kind

theorem callMove_eq : callMove pc t x E = .ok (
    if E = 0 then { x with pc := pc }
    else { x with mask := E, pc := t, stack := ⟨2, x.mask, pc.setWidth 56⟩ :: x.stack }) := by
  unfold callMove
  split_ifs <;> rfl

theorem callxMove_eq {g : Nat → Double} : callxMove pc g x E = .ok (
    if E = 0 then { x with pc := pc } else { x.push 2 x.mask pc with mask := E }.splitBy E pc g) := by
  unfold callxMove
  split_ifs <;> rfl

theorem brkMove_of_loopOk (h : E ≠ 0 → loopOk x.stack = true) : brkMove pc x E = .ok (
    if E = 0 then { x with pc := pc } else (x.remove E (some 1)).leaveBy pc) := by
  unfold brkMove
  by_cases he : E = 0
  · rw [if_pos he, if_pos he]
  · rw [if_neg he, if_neg he, h he]; rfl

theorem retMove_of_call (h : E ≠ 0 → hasToken 2 x.stack = true) : retMove pc x E = .ok (
    if E = 0 then { x with pc := pc } else (x.remove E (some 2)).leaveBy pc) := by
  unfold retMove
  by_cases he : E = 0
  · rw [if_pos he, if_pos he]
  · rw [if_neg he, if_neg he, h he]; rfl

theorem exitMove_eq : exitMove pc x E = .ok (
    if E = 0 then { x with pc := pc } else (x.remove E none).leaveBy pc) := by
  unfold exitMove
  split_ifs <;> rfl

end

/-! ## Words that move the slices of their gang -/

/-- A word whose effect is a move that every slice can make. -/
theorem acts_of_move {i : Instr} {cond : State → Prop} {eff : State → Eff} {E : State → Lanes} {f : State → Nat → Move}
    {F : State → Nat → Slice → BitVec 4 → Slice} (he : ∀ s, exec i s = .next (s.issue i eff))
    (heff : ∀ b, i.wf = true → cond b → eff b = b.moveAll (E b) (f b))
    (hok : ∀ b, cond b → ∀ j ∈ slicesOf b.gang.slices,
      f b j (b.arch.slice j) (sliceBits (E b) j) = .ok (F b j (b.arch.slice j) (sliceBits (E b) j)))
    (hroom : ∀ b, cond b → roomFor b (E b) (F b)) : Acts i cond (fun b => movedBy b (E b) (F b)) :=
  acts_of he fun b wf h => (heff b wf h).trans (moveAll_done (hok b h) (hroom b h))

/-- A slice that goes on behind a new token with its mask and the word's target. -/
def entered (f : OpB) (k : Nat) (b : State) (_ : Nat) (x : Slice) (_ : BitVec 4) : Slice :=
  { x with pc := b.pc + 12, stack := ⟨k, x.mask, (b.target f).setWidth 56⟩ :: x.stack }

/-- The move of RCV (kind 0) and LOOP (kind 1), which every slice can make but for its depth. -/
def enterMove (f : OpB) (k : Nat) (b : State) (i : Nat) : Move := fun x E => .ok (entered f k b i x E)

/-- RCV pushes its target in each slice (R74). -/
theorem acts_rcv (f : OpB) :
    Acts (.rcv f) (fun b => targetsOk b b.active (fun _ => b.target f) ∧ roomFor b b.active (entered f 0 b))
      (fun b => movedBy b b.active (entered f 0 b)) :=
  acts_of_move (f := enterMove f 0) (fun _ => rfl) (fun _ _ ⟨targets, _⟩ => by simp only [checkTargets_none targets]; rfl)
    (fun _ _ _ _ => rfl) (fun _ h => h.2)

/-- JOIN pops the top token of each slice (R74). -/
theorem acts_join (f : OpB) :
    Acts (.join f)
      (fun b => (∀ i ∈ slicesOf b.gang.slices, (b.arch.slice i).stack ≠ []) ∧ roomFor b b.active (fun _ x _ => x.popped))
      (fun b => movedBy b b.active (fun _ x _ => x.popped)) :=
  acts_of_move (fun _ => rfl) (fun _ _ _ => rfl) (fun _ h i hi => joinMove_of_ne_nil (h.1 i hi)) (fun _ h => h.2)

/-! ## RCV and JOIN that trap (R74, R78) -/

/-- JOIN is stopped where the token stack is empty, and there only. -/
theorem joinMove_cause (b : State) (i : Nat) :
    moveCause (b.tryMove b.active (fun _ => joinMove) i) = some 0x01 ↔ (b.arch.slice i).stack = [] := by
  by_cases h : (b.arch.slice i).stack = []
  · simp [State.tryMove, joinMove_of_nil h, moveCause, h]
  · simp only [State.tryMove, joinMove_of_ne_nil h, h, iff_false]
    split_ifs <;> simp [moveCause]

/-- RCV and LOOP are stopped where the token stack is full, for its depth. -/
theorem enterMove_cause (f : OpB) (k : Nat) (b : State) (i c : Nat) :
    moveCause (b.tryMove b.active (enterMove f k b) i) = some c ↔ c = 0x06 ∧ b.depthLimit ≤ (b.arch.slice i).stack.length := by
  by_cases h : b.depthLimit ≤ (b.arch.slice i).stack.length
  · simp [State.tryMove, enterMove, entered, moveCause, h, Nat.lt_succ_of_le h, eq_comm]
  · simp [State.tryMove, enterMove, entered, moveCause, h, show ¬b.depthLimit < (b.arch.slice i).stack.length + 1 by omega]

theorem enterMove_not_malformed (f : OpB) (k : Nat) (b : State) : b.blocked b.active (enterMove f k b) 0x01 = 0 :=
  blocked_eq_zero fun i _ h => absurd ((enterMove_cause f k b i _).1 h).1 (by decide)

/-- The lanes that a move of all active lanes is stopped in are those of the slices that stop it. -/
theorem getLsbD_blocked_active {b : State} {f : Nat → Move} {c : Nat} {bad : Nat → Prop}
    (h : ∀ i, moveCause (b.tryMove b.active f i) = some c ↔ bad i) {l : Nat} (hl : l < 32) :
    (b.blocked b.active f c).getLsbD l = true ↔ l ∈ lanesOf b.active ∧ bad (l / 4) := by
  rw [getLsbD_blocked b _ f c hl, h]
  constructor
  · exact fun ⟨_, hb, ha⟩ => ⟨mem_lanesOf.2 ⟨hl, ha⟩, hb⟩
  · exact fun ⟨ha, hb⟩ => ⟨slice_of_mem_active ha, hb, (mem_lanesOf.1 ha).2⟩

theorem traps_join (f : OpB) :
    Traps (.join f) (fun b => ∃ l ∈ lanesOf b.active, (b.arch.slice (l / 4)).stack = [])
      (fun b => { cause := 0x01, lanes := b.blocked b.active (fun _ => joinMove) 0x01 }) :=
  traps_of (fun _ => rfl) fun b _ ⟨_, hl, he⟩ => moveAll_malformed
    (blocked_ne_zero ((getLsbD_blocked_active (joinMove_cause b) (lt_of_mem_lanesOf hl)).2 ⟨hl, he⟩))

theorem traps_rcv (f : OpB) :
    Traps (.rcv f) (fun b => targetsOk b b.active (fun _ => b.target f) ∧
        ∃ l ∈ lanesOf b.active, b.depthLimit ≤ (b.arch.slice (l / 4)).stack.length)
      (fun b => { cause := 0x06, lanes := b.blocked b.active (enterMove f 0 b) 0x06 }) :=
  traps_of (fun _ => rfl) fun b _ ⟨targets, _, hl, hfull⟩ => by
    simp only [checkTargets_none targets]
    exact moveAll_overflow (enterMove_not_malformed f 0 b) (blocked_ne_zero
      ((getLsbD_blocked_active (fun i => enterMove_cause f 0 b i 0x06) (lt_of_mem_lanesOf hl)).2 ⟨hl, rfl, hfull⟩))

/-- Settles O54: the effects are `acts_rcv` and `acts_join`; each trap falls in the lanes of the slices that stop the gang,
one with an empty stack (0x01) or a full one (0x06). The byte above a token's 56 bits stays the slice's (log 12). -/
theorem rcvPushesAndJoinPops : Obligations.RcvPushesAndJoinPops := by
  unfold Obligations.RcvPushesAndJoinPops
  intro f t rcv join stack traps
  refine ⟨acts_rcv f, acts_join f, fun s hs _ hbad => ⟨_, traps_join f s hs hbad, rfl, fun l hl => ?join⟩,
    fun s hs targets hbad => ⟨_, traps_rcv f s hs ⟨targets, hbad⟩, rfl, fun l hl => ?rcv⟩⟩
  case join => exact getLsbD_blocked_active (joinMove_cause _) hl
  case rcv => exact (getLsbD_blocked_active (fun i => enterMove_cause f 0 _ i 0x06) hl).trans (by simp [stack])

/-! ## Branches (R72 to R75) -/

section
variable {f : OpB}

/-- The lanes that a U = 0 form of BRA takes along: all of a slice, some of it behind a token, or none (R72). -/
def branched (f : OpB) (b : State) (_ : Nat) (x : Slice) (E : BitVec 4) : Slice :=
  if E = x.mask then { x with pc := b.target f }
  else if E ≠ 0 then
    { x with mask := x.mask &&& ~~~ E, pc := b.pc + 12, stack := ⟨0, E, (b.target f).setWidth 56⟩ :: x.stack }
  else { x with pc := b.pc + 12 }

theorem acts_bra_group (u : f.com.u = true) :
    Acts (.bra f) (fun b => targetsOk b b.active (fun _ => b.target f)) (fun b => b.goto (b.target f)) :=
  acts_of (fun _ => rfl) fun _ _ targets => by simp only [State.ctlLanes, u, if_true, checkTargets_none targets]

theorem acts_bra (u : f.com.u = false) :
    Acts (.bra f)
      (fun b => targetsOk b (b.executing f.com) (fun _ => b.target f) ∧ roomFor b (b.executing f.com) (branched f b))
      (fun b => movedBy b (b.executing f.com) (branched f b)) :=
  acts_of_move (f := fun b _ => braMove (b.pc + 12) (b.target f)) (fun _ => rfl)
    (fun _ _ ⟨targets, _⟩ => by
      simp only [State.ctlLanes, u, Bool.false_eq_true, if_false, checkTargets_none targets])
    (fun _ _ _ _ => braMove_eq) (fun _ h => h.2)

/-- Where BRX sends a lane: its own pair, or the group's (R39, R73). -/
def brxTarget (f : OpB) (b : State) (l : Nat) : Double := b.src64 (if f.com.u then b.uLane else l) f.a

theorem acts_brx_group (u : f.com.u = true) :
    Acts (.brx f) (fun b => plainCode b f.com ∧ targetsOk b b.active (brxTarget f b)) (fun b => b.goto (brxTarget f b 0)) :=
  acts_of (fun _ => rfl) fun b _ ⟨plain, targets⟩ => by
    have pass := checkTargets_none targets
    simp only [brxTarget, u, if_true] at pass ⊢
    simp only [plain_eq plain, State.ctlLanes, u, if_true, pass]

theorem acts_brx (u : f.com.u = false) :
    let moved (b : State) (i : Nat) (x : Slice) (E : BitVec 4) : Slice :=
      x.splitBy E (b.pc + 12) (fun j => brxTarget f b (4 * i + j))
    Acts (.brx f)
      (fun b => plainCode b f.com ∧ targetsOk b (b.executing f.com) (brxTarget f b) ∧ roomFor b (b.executing f.com) (moved b))
      (fun b => movedBy b (b.executing f.com) (moved b)) := by
  intro moved
  refine acts_of_move (f := fun b i x E => .ok (moved b i x E)) (fun _ => rfl) (fun b _ ⟨plain, targets, _⟩ => ?_)
    (fun _ _ _ _ => rfl) (fun _ h => h.2.2)
  have pass := checkTargets_none targets
  simp only [moved, brxTarget, u, Bool.false_eq_true, if_false] at pass ⊢
  simp only [plain_eq plain, State.ctlLanes, u, Bool.false_eq_true, if_false, pass]

/-- LOOP pushes its target in each slice (R75). -/
theorem acts_loop :
    Acts (.loop f)
      (fun b => plainCode b f.com ∧ targetsOk b b.active (fun _ => b.target f) ∧ roomFor b b.active (entered f 1 b))
      (fun b => movedBy b b.active (entered f 1 b)) :=
  acts_of_move (f := enterMove f 1) (fun _ => rfl)
    (fun _ _ ⟨plain, targets, _⟩ => by simp only [plain_eq plain, checkTargets_none targets]; rfl)
    (fun _ _ _ _ => rfl) (fun _ h => h.2.2)

/-- NEXT goes back to the loop whose token is on top (R75). -/
theorem acts_next :
    Acts (.next f)
      (fun b => plainCode b f.com ∧ targetsOk b b.active (fun _ => b.target f) ∧
        roomFor b b.active (fun _ x _ => { x with pc := b.target f }) ∧
        ∀ i ∈ slicesOf b.gang.slices, ((b.arch.slice i).stack.head?.map (fun k => k.kind)) = some 1)
      (fun b => movedBy b b.active (fun _ x _ => { x with pc := b.target f })) :=
  acts_of_move (f := fun b _ => nextMove (b.target f)) (fun _ => rfl)
    (fun _ _ ⟨plain, targets, _⟩ => by simp only [plain_eq plain, checkTargets_none targets])
    (fun _ ⟨_, _, _, kinds⟩ i hi => nextMove_of_kind (kinds i hi)) (fun _ ⟨_, _, room, _⟩ => room)

end

/-- Settles O11: the words above, each by what its move makes of a slice. The byte above a token's 56 bits stays the
slice's (log 12). -/
theorem branchesComplete : Obligations.BranchesComplete := by
  unfold Obligations.BranchesComplete
  intro f
  exact ⟨acts_of (fun _ => rfl) fun _ _ _ => rfl, acts_bra_group, acts_bra, acts_brx_group, acts_brx, acts_rcv f, acts_join f,
    acts_loop, acts_next⟩

/-! ## Loops, calls and exits (R75 to R77) -/

/-- One lane of `groupBy`: it joins the group of its key, or opens one. -/
def joinGroup {κ : Type} [BEq κ] (m : BitVec 4) (key : Nat → κ) (gs : List (κ × BitVec 4)) (i : Nat) :
    List (κ × BitVec 4) :=
  if m.getLsbD i then
    if gs.any (fun g => g.1 == key i) then gs.map (fun g => if g.1 == key i then (g.1, g.2 ||| 1#4 <<< i) else g)
    else gs ++ [(key i, 1#4 <<< i)]
  else gs

theorem joinGroup_ne_nil {κ : Type} [BEq κ] {m : BitVec 4} {key : Nat → κ} {gs : List (κ × BitVec 4)} {i : Nat}
    (h : gs ≠ [] ∨ m.getLsbD i = true) : joinGroup m key gs i ≠ [] := by
  unfold joinGroup
  split_ifs with hm hk
  · obtain ⟨g, hg, _⟩ := List.any_eq_true.1 hk
    exact fun e => List.ne_nil_of_mem hg (List.map_eq_nil_iff.1 e)
  · simp
  · exact h.resolve_right hm

theorem foldl_joinGroup_ne_nil {κ : Type} [BEq κ] (m : BitVec 4) (key : Nat → κ) (L : List Nat) (gs : List (κ × BitVec 4))
    (h : gs ≠ [] ∨ ∃ i ∈ L, m.getLsbD i = true) : L.foldl (joinGroup m key) gs ≠ [] := by
  induction L generalizing gs with
  | nil => simpa using h
  | cons a r ih =>
    refine ih _ ?_
    obtain h | ⟨i, hi, hm⟩ := h
    · exact .inl (joinGroup_ne_nil (.inl h))
    · obtain rfl | hr := List.mem_cons.1 hi
      · exact .inl (joinGroup_ne_nil (.inr hm))
      · exact .inr ⟨i, hr, hm⟩

/-- Lanes that are grouped form a group. -/
theorem groupBy_ne_nil {κ : Type} [BEq κ] {m : BitVec 4} (key : Nat → κ) (h : m ≠ 0) : groupBy m key ≠ [] := by
  refine foldl_joinGroup_ne_nil m key [0, 1, 2, 3] [] (.inr ?_)
  by_contra none
  refine h (BitVec.eq_of_getLsbD_eq fun i hi => ?_)
  have lane : i ∈ [0, 1, 2, 3] := by simp; omega
  simpa using fun e => none ⟨i, lane, e⟩

/-- A slice with lanes that is parted goes on where its lanes do, wherever it stood. -/
theorem splitBy_pc {x : Slice} {E : BitVec 4} {pc : Double} {t : Nat → Double} (p : Double) (h : x.mask ≠ 0) :
    ({ x with pc := p } : Slice).splitBy E pc t = x.splitBy E pc t := by
  unfold Slice.splitBy
  cases hg : groupBy x.mask (fun i => if E.getLsbD i then some (t i) else none) with
  | nil => exact absurd hg (groupBy_ne_nil _ h)
  | cons g r => rfl

/-- Lanes that leave a slice, for the innermost token of a kind or for good: with none left it settles. -/
def leaving (k : Option Nat) (b : State) (_ : Nat) (x : Slice) (E : BitVec 4) : Slice :=
  if E = 0 then { x with pc := b.pc + 12 } else (x.remove E k).leaveBy (b.pc + 12)

/-- A slice whose executing lanes are called, the others waiting behind a token with the return address (R76). -/
def called (f : OpB) (b : State) (x : Slice) (E : BitVec 4) : Slice :=
  { x with mask := E, pc := b.target f, stack := ⟨2, x.mask, (b.pc + 12).setWidth 56⟩ :: x.stack }

section
variable {f : OpB}

theorem acts_brk :
    Acts (.brk f)
      (fun b => plainCode b f.com ∧ stacksOk b (b.executing f.com) loopOk ∧ roomFor b (b.executing f.com) (leaving (some 1) b))
      (fun b => movedBy b (b.executing f.com) (leaving (some 1) b)) :=
  acts_of_move (f := fun b _ => brkMove (b.pc + 12)) (fun _ => rfl) (fun _ _ ⟨plain, _⟩ => plain_eq plain)
    (fun _ ⟨_, loops, _⟩ i hi => brkMove_of_loopOk (loops i hi)) (fun _ h => h.2.2)

theorem acts_ret :
    Acts (.ret f)
      (fun b => plainCode b f.com ∧ stacksOk b (b.executing f.com) (hasToken 2) ∧
        roomFor b (b.executing f.com) (leaving (some 2) b))
      (fun b => movedBy b (b.executing f.com) (leaving (some 2) b)) :=
  acts_of_move (f := fun b _ => retMove (b.pc + 12)) (fun _ => rfl) (fun _ _ ⟨plain, _⟩ => plain_eq plain)
    (fun _ ⟨_, calls, _⟩ i hi => retMove_of_call (calls i hi)) (fun _ h => h.2.2)

theorem acts_call :
    let moved (b : State) (_ : Nat) (x : Slice) (E : BitVec 4) : Slice :=
      if E = 0 then { x with pc := b.pc + 12 } else called f b x E
    Acts (.call f)
      (fun b => plainCode b f.com ∧ targetsOk b (b.executing f.com) (fun _ => b.target f) ∧
        roomFor b (b.executing f.com) (moved b))
      (fun b => movedBy b (b.executing f.com) (moved b)) := by
  intro moved
  exact acts_of_move (f := fun b _ => callMove (b.pc + 12) (b.target f)) (fun _ => rfl)
    (fun _ _ ⟨plain, targets, _⟩ => by simp only [plain_eq plain, checkTargets_none targets])
    (fun _ _ _ _ => callMove_eq) (fun _ h => h.2.2)

theorem acts_callx :
    let moved (b : State) (i : Nat) (x : Slice) (E : BitVec 4) : Slice :=
      if E = 0 then { x with pc := b.pc + 12 }
      else (called f b x E).splitBy E (b.pc + 12) (fun j => b.src64 (4 * i + j) f.a)
    Acts (.callx f)
      (fun b => plainCode b f.com ∧ targetsOk b (b.executing f.com) (fun l => b.src64 l f.a) ∧
        roomFor b (b.executing f.com) (moved b))
      (fun b => movedBy b (b.executing f.com) (moved b)) := by
  intro moved
  refine acts_of_move (f := fun b i => callxMove (b.pc + 12) (fun j => b.src64 (4 * i + j) f.a)) (fun _ => rfl)
    (fun _ _ ⟨plain, targets, _⟩ => by simp only [plain_eq plain, checkTargets_none targets])
    (fun b _ i _ => callxMove_eq.trans (congrArg _ ?_)) (fun _ h => h.2.2)
  by_cases h : sliceBits (b.executing f.com) i = 0
  · simp only [moved, h, if_true]
  · simp only [moved, h, if_false]
    exact (splitBy_pc (b.target f) h).symm

/-! ### EXIT -/

/-- An update of the issuing copy of the warp's state reaches it if the warp is there, and else changes nothing. -/
theorem wWarp_updArch (b : State) (g : Arch → Arch) :
    (b.updArch g).wWarp = b.wWarp.updArch b.who.way g ∨ (b.updArch g).wWarp = b.wWarp := by
  by_cases hp : Present b
  · exact .inl (State.wWarp_updMy b _ hp)
  · right
    have absent : b.warps.find b.who.warp = none := by simpa [Present] using hp
    simp [State.updArch, State.updMy, State.updWarp, State.wWarp, State.warp, absent]

/-- The state with lanes entered as exited (R51, R77). -/
def State.exiting (b : State) (ls : Lanes) : State := b.updArch (fun a => { a with exited := a.exited ||| ls })

theorem exiting_arch (b : State) (ls : Lanes) :
    (b.exiting ls).arch.slices = b.arch.slices ∧ (b.exiting ls).arch.gangs = b.arch.gangs := by
  unfold State.arch State.exiting
  rw [State.updArch_who]
  obtain h | h := wWarp_updArch b (fun a => { a with exited := a.exited ||| ls }) <;> simp [h]

@[simp] theorem exiting_slice (b : State) (ls : Lanes) (i : Nat) : (b.exiting ls).arch.slice i = b.arch.slice i := by
  unfold Arch.slice
  rw [(exiting_arch b ls).1]

@[simp] theorem exiting_gang (b : State) (ls : Lanes) : (b.exiting ls).gang = b.gang := by
  unfold State.gang Arch.gang
  rw [(exiting_arch b ls).2]
  rfl

@[simp] theorem exiting_depthLimit (b : State) (ls : Lanes) : (b.exiting ls).depthLimit = b.depthLimit := by
  unfold State.depthLimit State.inHandler State.exiting
  obtain h | h := wWarp_updArch b (fun a => { a with exited := a.exited ||| ls }) <;> simp [h]

theorem acts_exit :
    Acts (.exit f)
      (fun b => outsideRegions b f.com ∧ (b.wWarp.loop.isSome && !b.inHandler) = false ∧
        roomFor b (b.executing f.com) (leaving none b))
      (fun b => movedBy (b.exiting (b.executing f.com)) (b.executing f.com) (leaving none b)) :=
  acts_of (fun _ => rfl) fun b _ ⟨outside, single, room⟩ => by
    have room' : roomFor (b.exiting (b.executing f.com)) (b.executing f.com) (leaving none b) := by simpa [roomFor] using room
    have moved : b.exitLanes (b.executing f.com) =
        .done (movedBy (b.exiting (b.executing f.com)) (b.executing f.com) (leaving none b)) :=
      moveAll_done (fun _ _ => exitMove_eq) room'
    simp only [noRegion_eq outside, single, Bool.false_eq_true, if_false, moved]

end

/-- Settles O12: the words above. A popped token's 56 bits of PC go below the byte of the slice's own PC (log 12), and EXIT
in the handler ends its lanes for good (log 32). -/
theorem callsAndExitsComplete : Obligations.CallsAndExitsComplete := by
  unfold Obligations.CallsAndExitsComplete
  intro f
  exact ⟨acts_brk, acts_call, acts_callx, acts_ret, acts_exit⟩

/-! ## Safe points (R81, R82) -/

/-- What a stop reads of the live-set table (R288). -/
def State.tableEntry (b : State) (n : Nat) : Except Nat Nat := b.readVirt b.who.warp (b.wWarp.lstab + 8 + 64 * n) 64

/-- The entry that the table holds is the one that the gang keeps; none where it cannot be read. -/
def entryValue : Except Nat Nat → Nat
  | .ok x => x
  | .error _ => 0

/-- A stop has an entry to read: the table's count lies above its index, and both can be read. -/
structure State.Listed (b : State) (n : Nat) : Prop where
  count : ∃ k, b.readVirt b.who.warp b.wWarp.lstab 8 = .ok k ∧ n < k
  entry : ∃ x, b.tableEntry n = .ok x

/-- The walks of the table's count and entry (R349). -/
def State.walkTable (b : State) (n : Nat) : State :=
  (b.noteVa b.who.warp b.wWarp.lstab).noteVa b.who.warp (b.wWarp.lstab + 8 + 64 * n)

section
variable {b : State} {n : Nat}

theorem liveEntry_of_listed (h : b.Listed n) : b.liveEntry n = .ok (some (entryValue (b.tableEntry n))) := by
  obtain ⟨⟨k, hk, hn⟩, x, hx⟩ := h
  have read : b.readVirt b.who.warp (b.wWarp.lstab + 8 + 64 * n) 64 = .ok x := hx
  simp [State.liveEntry, hk, read, hx, entryValue, Nat.not_le.2 hn]

theorem liveWalks_of_listed (h : b.Listed n) : b.liveWalks n = b.walkTable n := by
  obtain ⟨⟨k, hk, hn⟩, _⟩ := h
  simp [State.liveWalks, State.walkTable, hk, Nat.not_le.2 hn]

/-- Walks of the table are entered in the trees' bitmaps only. -/
theorem walkTable_frame (b : State) (n : Nat) : ∃ x, b.walkTable n = { b with trees := x } := by
  obtain ⟨x, hx⟩ := noteVa_frame b b.who.warp b.wWarp.lstab
  obtain ⟨y, hy⟩ := noteVa_frame { b with trees := x } b.who.warp (b.wWarp.lstab + 8 + 64 * n)
  exact ⟨y, by rw [State.walkTable, hx, hy]⟩

@[simp] theorem walkTable_who (b : State) (n : Nat) : (b.walkTable n).who = b.who := by
  obtain ⟨x, hx⟩ := walkTable_frame b n; rw [hx]

@[simp] theorem walkTable_stopsHere (b : State) (n : Nat) : (b.walkTable n).stopsHere = b.stopsHere := by
  obtain ⟨x, hx⟩ := walkTable_frame b n; rw [hx]; rfl

/-- A safe point's gang with the count of its words begun anew outside regions (R82). -/
def State.resetCount (b : State) : State :=
  if b.regionLanes b.active = 0 then b.updGang (fun g => { g with count := 0 }) else b

/-- A SAFEPT goes on, or stops its gang with the table's entry; SAFEPT.rf re-pins in both cases (log 122). -/
theorem safePoint_eq (f : OpB) (rf : Bool) (h : b.stopsHere = true → b.Listed (f.imm.toNat % 65536)) :
    let n := f.imm.toNat % 65536
    let r := (if b.stopsHere then b.walkTable n else b).resetCount
    let r' := if rf then r.repin b.who.warp else r
    b.safePoint f rf = .done (if b.stopsHere then r'.advance.park (.safept (entryValue (b.tableEntry n))) else r'.advance) := by
  cases hs : b.stopsHere with
  | false => cases rf <;> simp [State.safePoint, hs, State.resetCount]
  | true =>
    have listed := h hs
    cases rf <;> simp [State.safePoint, hs, liveWalks_of_listed listed, liveEntry_of_listed listed, State.resetCount]

end

/-! ## Gangs (R79 to R84) -/

/-- A count that has run out makes the gang ready (R83). -/
theorem execYieldExpiry_of_out {g : GangRef} {s : State} (h : (((s.warp g.warp).archOf g.way).gang g.slice).cyc = 2) :
    execYieldExpiry g s =
      .next (s.updWarp g.warp (fun w => w.updArch g.way (fun a => a.updGang g.slice (fun h => { h with cyc := 0 })))) :=
  if_pos h

/-- A gang outside the handler and between chains that has run 65,536 words without a safe point traps (R82). -/
theorem execSafePointOverdue_of_due {g : GangRef} {s : State} {h : Gang} (hg : ((s.warp g.warp).archOf g.way).gang g.slice = h)
    (user : (s.warp g.warp).trap = none) (live : h.slices ≠ 0) (due : 65536 ≤ h.count) (running : h.park = .none)
    (between : h.chain.isMember = false) :
    execSafePointOverdue g s = .next (s.trapAt g.warp g.way g.slice
      { cause := 0x08, lanes := ((s.warp g.warp).archOf g.way).activeIn h.slices }) := by
  subst hg
  exact if_pos (by simpa [user, due, running, between] using live)

/-- Settles O13: REGANG parks and settles its copy, a safe point is `safePoint_eq` (SAFEPT.rf: log 122), YIELD sets the
gang's count, and the software traps fall in the executing lanes. -/
theorem gangControlCompletes : Obligations.GangControlCompletes := by
  unfold Obligations.GangControlCompletes
  intro f n table entry reset safe listed
  refine ⟨acts_of (fun _ => rfl) fun _ _ plain => plain_eq plain, acts_of (fun _ => rfl) fun b _ h => ?safept,
    acts_of (fun _ => rfl) fun b _ h => ?safeptRf, acts_of (fun _ => rfl) fun _ _ h => notGuessing_eq h,
    traps_of (fun _ => rfl) fun _ _ oldest => ?trap, traps_of (fun _ => rfl) fun _ _ oldest => ?bkpt,
    fun _ _ => execYieldExpiry_of_out, fun _ _ => execSafePointOverdue_of_due rfl⟩
  case safept =>
    exact (notGuessing_eq h.1).trans (safePoint_eq f false fun hs => ⟨(h.2 hs).1, (h.2 hs).2⟩)
  case safeptRf =>
    exact (notGuessing_eq h.1).trans (safePoint_eq f true fun hs => ⟨(h.2 hs).1, (h.2 hs).2⟩)
  case trap => simp [State.oldestOnly, oldest, State.softTrap]
  case bkpt => simp [State.oldestOnly, oldest, State.softTrap]

end Sys2Proof.Machine
end

section
/-! PROOF. Integer results (R88, R89): a result wraps at its width or is clamped to its type with the saturation flag, and
each element of a packed result is formed alone. -/

namespace Sys2Proof.Machine
open Sys2Proof.Safety

/-! ## One result of `w` bits -/

theorem bitsInt_eq_toNat (w : Nat) (n : Int) : bitsInt w n = (BitVec.ofInt w n).toNat := by
  simp [bitsInt, BitVec.toNat_ofInt]

theorem bitsInt_lt (w : Nat) (n : Int) : bitsInt w n < 2 ^ w := by
  rw [bitsInt_eq_toNat]; exact (BitVec.ofInt w n).isLt

theorem coe_bitsInt (w : Nat) (n : Int) : (bitsInt w n : Int) = n % 2 ^ w :=
  Int.toNat_of_nonneg (Int.emod_nonneg n (by positivity))

/-- An integer of a type's range is the value of its bits. -/
theorem valOf_bitsInt {w : Nat} (hw : 0 < w) (sg : Bool) {n : Int} (lo : loOf w sg ≤ n) (hi : n ≤ hiOf w sg) :
    valOf w sg (bitsInt w n) = n := by
  cases sg with
  | true =>
    have below : n < 2 ^ (w - 1) := Int.lt_of_le_sub_one hi
    rw [bitsInt_eq_toNat, valOf_signed, BitVec.toInt_ofInt_eq_self hw lo below]
  | false =>
    have below : n < 2 ^ w := Int.lt_of_le_sub_one hi
    have e : (valOf w false (bitsInt w n) : Int) = n % 2 ^ w := by
      rw [bitsInt_eq_toNat, valOf_unsigned, ← bitsInt_eq_toNat, coe_bitsInt]
    rw [e, Int.emod_eq_of_lt lo below]

theorem loOf_le_hiOf (w : Nat) (sg : Bool) : loOf w sg ≤ hiOf w sg := by
  have p : (0 : Int) < 2 ^ (w - 1) := by positivity
  have q : (0 : Int) < 2 ^ w := by positivity
  cases sg with
  | true => simp only [loOf, hiOf, if_true]; omega
  | false => simp only [loOf, hiOf, Bool.false_eq_true, if_false]; omega

theorem clampInt_val {n lo hi : Int} (h : lo ≤ hi) : (clampInt n lo hi).val = max lo (min hi n) := by
  unfold clampInt
  split
  · simp only; omega
  · split <;> simp only <;> omega

theorem clampInt_fl (n lo hi : Int) : (clampInt n lo hi).fl = if lo ≤ n ∧ n ≤ hi then 0 else flINTSAT := by
  unfold clampInt
  split
  · next below => rw [if_neg (by omega)]
  · split
    · next above => rw [if_neg (by omega)]
    · rw [if_pos (by omega)]

theorem clampInt_inside {n lo hi : Int} (h1 : lo ≤ n) (h2 : n ≤ hi) : clampInt n lo hi = ⟨n, 0⟩ := by
  rw [clampInt, if_neg (by omega), if_neg (by omega)]

theorem storeInt_clamps (w : Nat) (sg : Bool) (n : Int) :
    storeInt w sg true n =
      ⟨bitsInt w (clampInt n (loOf w sg) (hiOf w sg)).val, (clampInt n (loOf w sg) (hiOf w sg)).fl⟩ := rfl

theorem storeInt_lt (w : Nat) (sg sat : Bool) (n : Int) : (storeInt w sg sat n).val < 2 ^ w := by
  cases sat <;> exact bitsInt_lt w _

/-- A result inside its type's range is stored as it is, saturating or not. -/
theorem storeInt_inside (w : Nat) (sg sat : Bool) {n : Int} (lo : loOf w sg ≤ n) (hi : n ≤ hiOf w sg) :
    storeInt w sg sat n = ⟨bitsInt w n, 0⟩ := by
  cases sat with
  | false => rfl
  | true => rw [storeInt_clamps, clampInt_inside lo hi]

/-! ## Elements of a packed result -/

/-- Elements of `w` bits, the `i`-th from bit `w * i`. -/
def packElems (w : Nat) (r : Nat → Nat) (k : Nat) : Nat := (List.range k).foldl (fun n i => n + r i * 2 ^ (w * i)) 0

theorem packElems_succ (w : Nat) (r : Nat → Nat) (k : Nat) :
    packElems w r (k + 1) = packElems w r k + r k * 2 ^ (w * k) := by
  simp [packElems, List.range_succ]

section
variable {w : Nat} {r : Nat → Nat} (hr : ∀ i, r i < 2 ^ w)
include hr

theorem packElems_lt (k : Nat) : packElems w r k < 2 ^ (w * k) := by
  induction k with
  | zero => simp [packElems]
  | succ k ih =>
    rw [packElems_succ, Nat.mul_succ, Nat.pow_add]
    have : (r k + 1) * 2 ^ (w * k) ≤ 2 ^ w * 2 ^ (w * k) := Nat.mul_le_mul_right _ (hr k)
    rw [Nat.mul_comm (2 ^ (w * k))]
    linarith

theorem packElems_elem {k i : Nat} (hi : i < k) : packElems w r k / 2 ^ (w * i) % 2 ^ w = r i := by
  have pos : 0 < 2 ^ (w * i) := by positivity
  induction k with
  | zero => omega
  | succ k ih =>
    rw [packElems_succ]
    by_cases e : i = k
    · subst e
      rw [Nat.add_mul_div_right _ _ pos, Nat.div_eq_of_lt (packElems_lt hr i), Nat.zero_add, Nat.mod_eq_of_lt (hr i)]
    · have split : w * k = w * (k - i - 1) + w + w * i := by
        rw [← Nat.mul_succ, ← Nat.mul_add]; congr 1; omega
      rw [split, Nat.pow_add, ← Nat.mul_assoc, Nat.add_mul_div_right _ _ pos, Nat.pow_add, ← Nat.mul_assoc,
        Nat.add_mul_mod_self_right, ih (by omega)]

end

/-- Flags gathered over a list are none exactly when each of them is none. -/
theorem foldl_or_eq_zero {α : Type} (L : List α) (g : α → Word) (a : Word) :
    L.foldl (fun fl x => fl ||| g x) a = 0 ↔ a = 0 ∧ ∀ x ∈ L, g x = 0 := by
  induction L generalizing a with
  | nil => simp
  | cons x r ih =>
    have both : a ||| g x = 0 ↔ a = 0 ∧ g x = 0 := BitVec.or_eq_zero_iff
    rw [List.foldl_cons, ih, both, List.forall_mem_cons, and_assoc]

/-- The elements of a type fill at most 64 bits. -/
theorem elemOf_fits (t : Ty) : (elemOf t).1 * (elemOf t).2.2 ≤ 64 := by cases t <;> decide

/-- The result of one element. -/
def elemRes (t : Ty) (sat : Bool) (op : Int → Int → Int → Int) (a b c : Double) (i : Nat) : Res Nat :=
  let (w, sg, _) := elemOf t
  let el (x : Double) : Int := valOf w sg (x.toNat / 2 ^ (w * i))
  storeInt w sg sat (op (el a) (el b) (el c))

theorem perElem_eq (t : Ty) (sat : Bool) (op : Int → Int → Int → Int) (a b c : Double) :
    perElem t sat op a b c =
      ⟨BitVec.ofNat 64 (packElems (elemOf t).1 (fun i => (elemRes t sat op a b c i).val) (elemOf t).2.2),
        (List.range (elemOf t).2.2).foldl (fun fl i => fl ||| (elemRes t sat op a b c i).fl) 0⟩ := by
  simp only [perElem, packElems, elemRes, List.foldl_map]

theorem perElem_elem (t : Ty) (sat : Bool) (op : Int → Int → Int → Int) (a b c : Double) {i : Nat}
    (hi : i < (elemOf t).2.2) :
    (perElem t sat op a b c).val.toNat / 2 ^ ((elemOf t).1 * i) % 2 ^ (elemOf t).1 = (elemRes t sat op a b c i).val := by
  have small : ∀ j, (elemRes t sat op a b c j).val < 2 ^ (elemOf t).1 := fun j => storeInt_lt ..
  have fits := (packElems_lt small (elemOf t).2.2).trans_le (Nat.pow_le_pow_right (by decide) (elemOf_fits t))
  rw [perElem_eq, BitVec.toNat_ofNat, Nat.mod_eq_of_lt fits, packElems_elem small hi]

theorem perElem_fl (t : Ty) (sat : Bool) (op : Int → Int → Int → Int) (a b c : Double) :
    (perElem t sat op a b c).fl = 0 ↔ ∀ i, i < (elemOf t).2.2 → (elemRes t sat op a b c i).fl = 0 := by
  rw [perElem_eq, foldl_or_eq_zero]
  simp

/-- Settles O56: `storeInt` wraps or clamps, and `perElem` packs one `storeInt` for each element. -/
theorem integerResultsWrapOrClamp : Obligations.IntegerResultsWrapOrClamp := by
  unfold Obligations.IntegerResultsWrapOrClamp
  refine ⟨fun w sg sat n hw => ?stored, fun t sat op a b c i hi => perElem_elem t sat op a b c hi,
    fun t sat op a b c => perElem_fl t sat op a b c⟩
  case stored =>
    have ordered := loOf_le_hiOf w sg
    refine ⟨storeInt_lt w sg sat n, ?wraps, ?clamps, fun lo hi => ?inside⟩
    case wraps => rintro rfl; exact ⟨coe_bitsInt w n, rfl⟩
    case clamps =>
      rintro rfl
      rw [storeInt_clamps, clampInt_fl, clampInt_val ordered]
      exact ⟨valOf_bitsInt hw sg (le_max_left _ _) (by omega), rfl⟩
    case inside => rw [storeInt_inside w sg sat lo hi]; exact ⟨valOf_bitsInt hw sg lo hi, rfl⟩

end Sys2Proof.Machine
end

section
/-! PROOF. LEA and narrow arithmetic (R99 to R103): encodings, legal words, and each result as the spec's formula. -/

namespace Sys2Proof

/-! ## The opcode's place in a word (R28) -/

/-- The number of bits that a list of fields takes. -/
def fieldsWidth (fs : List (Nat × Nat)) : Nat := (fs.map Prod.fst).sum

theorem packFields_lt (fs : List (Nat × Nat)) : packFields fs < 2 ^ fieldsWidth fs := by
  induction fs with
  | nil => simp [packFields, fieldsWidth]
  | cons p r ih =>
    obtain ⟨w, x⟩ := p
    have low : x % 2 ^ w < 2 ^ w := Nat.mod_lt _ (by positivity)
    have high : 2 ^ w * (packFields r + 1) ≤ 2 ^ w * 2 ^ fieldsWidth r := Nat.mul_le_mul_left _ ih
    simp only [packFields, fieldsWidth, List.map_cons, List.sum_cons, Nat.pow_add] at high ⊢
    linarith

theorem packFields_append (fs gs : List (Nat × Nat)) :
    packFields (fs ++ gs) = packFields fs + 2 ^ fieldsWidth fs * packFields gs := by
  induction fs with
  | nil => simp [packFields, fieldsWidth]
  | cons p r ih =>
    simp only [List.cons_append, packFields, ih, fieldsWidth, List.map_cons, List.sum_cons, Nat.pow_add]
    ring

/-- A format A word holds its class and function in bits [95:86]. -/
theorem opcode_of_encode {i : Instr} {op : Nat} {f : OpA} (hf : i.form = some (.a op f)) (hop : op < 2 ^ 10) {w : BitVec 96}
    (hw : encode i = some w) : w.extractLsb' 86 10 = BitVec.ofNat 10 op := by
  obtain rfl : Form.encode (.a op f) = w := by simpa [encode, hf] using hw
  have fields : ∃ low, (Form.a op f).fields = low ++ [(6, op % 64), (4, op / 64)] ∧ fieldsWidth low = 86 :=
    ⟨[(12, 0), (4, f.ty.code), (3, f.rnd.code), (11, f.opx.toNat), (12, f.c.code), (12, f.b.code), (12, f.a.code),
      (10, f.dst.code), (2, f.hslot.val), (2, f.hold.val), (1, f.nwb.toNat), (1, f.com.pn.toNat), (3, f.com.pg.val),
      (1, f.com.u.toNat)], rfl, rfl⟩
  obtain ⟨low, split, width⟩ := fields
  have small := width ▸ packFields_lt low
  have high : packFields [(6, op % 64), (4, op / 64)] = op := by
    simp only [packFields]; omega
  apply BitVec.eq_of_toNat_eq
  simp only [Form.encode, split, packFields_append, width, high, BitVec.extractLsb'_toNat, BitVec.toNat_ofNat,
    Nat.shiftRight_eq_div_pow]
  omega

end Sys2Proof

namespace Sys2Proof.Machine
open Sys2Proof.Safety

/-! ## Legal words -/

theorem wfA_of_wf {i : Instr} {f : OpA} {r : RoleA} (hi : i.roleA = some (f, r)) (hw : i.wf = wfRole i) (h : i.wf = true) :
    wfA f r = true := by
  simpa [hw, wfRole, hi] using h

theorem types_of_wf {i : Instr} {f : OpA} {r : RoleA} (hi : i.roleA = some (f, r)) (hw : i.wf = wfRole i) (h : i.wf = true) :
    f.ty ∈ r.types := types_of_wfA (wfA_of_wf hi hw h)

theorem opx_of_wf {i : Instr} {f : OpA} {r : RoleA} (hi : i.roleA = some (f, r)) (hw : i.wf = wfRole i) (h : i.wf = true) :
    r.opx = true := opx_of_wfA (wfA_of_wf hi hw h)

theorem mem_intTypes {t : Ty} : t ∈ intTypes ↔ t = .s32 ∨ t = .u32 ∨ t = .s64 ∨ t = .u64 := by simp [intTypes]

/-- A group-wide word of registers. -/
def groupWord (ty : Ty) (c : Src) (x : BitVec 11) : OpA :=
  ⟨⟨true, 0, false⟩, false, 0, 0, .g 8, .g 2, .g 4, c, ty, .rn, x⟩

/-! ## LEA (R99) -/

/-- LEA's second operand as an integer: extended by the type, a pair as unsigned. -/
def leaIndex (f : OpA) (s : State) (l : Nat) : Int :=
  match f.ty with
  | .s32 => (s.src32 l f.b).toInt
  | .u32 => (s.src32 l f.b).toNat
  | _ => (s.src64 l f.b).toNat

/-- The integer of a 32-bit operand, held in 64 bits. -/
theorem valOf_setWidth (sg : Bool) (x : Word) : valOf 32 sg (x.setWidth 64).toNat =
    if sg then x.toInt else (x.toNat : Int) := by
  rw [BitVec.toNat_setWidth_of_le (by decide)]
  cases sg
  · exact valOf_unsigned x
  · exact valOf_signed x

theorem ofInt_valOf (sg : Bool) (x : Double) : BitVec.ofInt 64 (valOf 64 sg x.toNat) = x := by
  cases sg
  · rw [valOf_unsigned, BitVec.ofInt_natCast, BitVec.ofNat_toNat, BitVec.setWidth_eq]
  · rw [valOf_signed, BitVec.ofInt_toInt]

/-- An integer operand's value is LEA's index modulo 2^64. -/
theorem ofInt_valTy_tB (f : OpA) (s : State) (l : Nat) (ht : f.ty ∈ intTypes) :
    BitVec.ofInt 64 (valTy f.ty (tB f s l)) = BitVec.ofInt 64 (leaIndex f s l) := by
  have pair : BitVec.ofInt 64 ((s.src64 l f.b).toNat : Int) = s.src64 l f.b := by
    rw [BitVec.ofInt_natCast, BitVec.ofNat_toNat, BitVec.setWidth_eq]
  unfold leaIndex tB
  rcases mem_intTypes.1 ht with e | e | e | e <;> rw [e, src_int _ _ _ rfl]
  case inl => exact congrArg _ (valOf_setWidth true _)
  case inr.inl => exact congrArg _ (valOf_setWidth false _)
  case inr.inr.inl => exact (ofInt_valOf true _).trans pair.symm
  case inr.inr.inr => exact (ofInt_valOf false _).trans pair.symm

/-- LEA's result: base plus scaled index, modulo 2^64. -/
theorem resLea_eq (f : OpA) (s : State) (l : Nat) (ht : f.ty ∈ intTypes) :
    resLea f s l = ⟨BitVec.ofInt 64 ((s.src64 l f.a).toNat + leaIndex f s l * 2 ^ f.opx.toNat), 0⟩ := by
  have value : BitVec.ofNat 64 (bitsInt 64 ((s.src64 l f.a).toNat + valTy f.ty (tB f s l) * 2 ^ f.opx.toNat)) = _ :=
    ofBits_bitsInt _
  rw [resLea, plainN, value, BitVec.ofInt_add, BitVec.ofInt_mul, ofInt_valTy_tB f s l ht, ← BitVec.ofInt_mul,
    ← BitVec.ofInt_add]

theorem lea_yields (f : OpA) :
    Yields (.lea f) f .u64 (fun s l =>
      ⟨BitVec.ofInt 64 ((s.src64 l f.a).toNat + leaIndex f s l * 2 ^ (f.opx.extractLsb' 0 3).toNat), 0⟩) := by
  refine yields_of (fn := resLea) (fun _ => rfl) rfl rfl rfl (fun s b h l => ?alike) fun w s l => ?value
  case alike => simp only [resLea, h.src64, tB_alike h]
  case value =>
    have small : f.opx.toNat < 8 := of_decide_eq_true (opx_of_wfA w)
    have scale : (f.opx.extractLsb' 0 3).toNat = f.opx.toNat := by
      simpa [BitVec.extractLsb'_toNat] using small
    rw [scale]
    exact resLea_eq f s l (types_of_wfA w)

/-- An unguarded word executes in every active lane: p0 reads as true (R31). -/
theorem executing_unguarded (s : State) {l : Nat} (hl : l < 32) (h : s.active.getLsbD l = true) :
    (s.executing ⟨false, 0, false⟩).getLsbD l = true := by
  rw [State.executing, getLsbD_maskOf _ hl]
  simpa [mem_lanesOf, Warp.getP] using ⟨hl, h⟩

/-- The spec's example: lane 5 adds 4 times its number to the base in g4 and g5. -/
theorem lea_example {f : OpA} {s t : State} (hc : f.com = ⟨false, 0, false⟩) (hd : f.dst = .v 6) (ha : f.a = .g 4)
    (hb : f.b = .special 0) (ht : f.ty = .u32) (hx : f.opx = 2) (ready : Ready (.lea f) s) (lo : greg s 4 = 0)
    (hi : greg s 5 = 0xFE000000) (active : s.active.getLsbD 5 = true) (run : exec (.lea f) s = .next t) :
    vreg t 6 5 = 0x14 ∧ vreg t 7 5 = 0xFE000000 := by
  obtain ⟨t', run', wrote⟩ := lea_yields f s ready
  obtain rfl : t = t' := by rw [run] at run'; exact Host.Outcome.next.inj run'
  have lane : (s.calcLanes f.com).getLsbD 5 = true := by
    rw [hc]; exact executing_unguarded s (by decide) active
  have base : s.src64 5 f.a = 0xFE00000000000000 := by
    unfold greg at lo hi
    simp [ha, State.src64, State.src, Ty.wide, pairOf, lo, hi]
  have index : leaIndex f s 5 = 5 := by
    simp [leaIndex, ht, hb, State.src32, State.src, State.special]
  rw [wrote.vregs 6 5 (by decide), wrote.vregs 7 5 (by decide)]
  simp [newV, hd, lane, base, index, hx, Ty.wide]

/-- Settles O55: `resLea_eq`, the legal words, the opcode's place in the word, and the spec's example. -/
theorem leaAddsAScaledIndex : Obligations.LeaAddsAScaledIndex := by
  unfold Obligations.LeaAddsAScaledIndex
  intro f
  refine ⟨fun wf => ⟨mem_intTypes.1 (types_of_wf rfl rfl wf), of_decide_eq_true (opx_of_wf rfl rfl wf)⟩,
    fun w => opcode_of_encode rfl (by decide), ⟨groupWord .u64 (.v 0) 7, by decide⟩, lea_yields f,
    fun s t => lea_example⟩

/-! ## Narrow arithmetic (R100 to R103) -/

theorem signedTy_bytes {t : Ty} (h : t ∈ [Ty.s8x4, .u8x4]) : signedTy t = (t == .s8x4) := by
  simp only [List.mem_cons, List.not_mem_nil, or_false] at h
  rcases h with rfl | rfl <;> rfl

theorem signedTy_halves {t : Ty} (h : t ∈ [Ty.s16x2, .u16x2]) : signedTy t = (t == .s16x2) := by
  simp only [List.mem_cons, List.not_mem_nil, or_false] at h
  rcases h with rfl | rfl <;> rfl

theorem signedTy_signed {t : Ty} (h : t ∈ [Ty.s32, .s64]) : signedTy t = true := by
  simp only [List.mem_cons, List.not_mem_nil, or_false] at h
  rcases h with rfl | rfl <;> rfl

theorem opxBits_bit (f : OpA) (i : Nat) : f.opxBits i 1 = (f.opx.getLsbD i).toNat := by
  rw [OpA.opxBits, BitVec.getLsbD, Nat.toNat_testBit, Nat.pow_one]

/-- Settles O4: each word's result as its formula, its opcode, and the types and modifiers of a legal word. -/
theorem narrowArithmeticCompletes : Obligations.NarrowArithmeticCompletes := by
  unfold Obligations.NarrowArithmeticCompletes
  intro f
  refine ⟨yields_of (fn := resIdp4) (fun _ => rfl) rfl rfl rfl (fun s b h l => ?idp4Alike) fun w s l => ?idp4,
    yields_of (fn := resPmac2) (fun _ => rfl) rfl rfl rfl (fun s b h l => ?pmac2Alike) fun w s l => ?pmac2,
    yields_of (fn := resSarn) (fun _ => rfl) rfl rfl rfl (fun s b h l => ?sarnAlike) fun w s l => ?sarn,
    yields_of (fn := resIsat) (fun _ => rfl) rfl rfl rfl (fun s b h l => ?isatAlike) fun w s l => ?isat,
    ⟨fun _ => opcode_of_encode rfl (by decide), fun _ => opcode_of_encode rfl (by decide),
      fun _ => opcode_of_encode rfl (by decide), fun _ => opcode_of_encode rfl (by decide)⟩,
    fun wf => ⟨?idp4Types, of_decide_eq_true (opx_of_wf rfl rfl wf)⟩,
    fun wf => ⟨?pmac2Types, of_decide_eq_true (opx_of_wf rfl rfl wf)⟩, fun wf => ?sarnLegal, fun wf => ?isatLegal,
    ⟨groupWord .u8x4 (.g 6) 0, groupWord .u16x2 (.g 6) 0, groupWord .s32 (.v 0) 0,
      { groupWord .u32 (.v 0) 31 with b := .v 0 }, by decide⟩⟩
  case idp4Alike => simp only [resIdp4, tA_alike h, tB_alike h, nC_alike h]
  case pmac2Alike => simp only [resPmac2, tA_alike h, tB_alike h, nC_alike h]
  case sarnAlike => simp only [resSarn, tA_alike h, nB_alike h]
  case isatAlike => simp only [resIsat, tA_alike h]
  case idp4 =>
    simp only [resIdp4, signedTy_bytes (types_of_wfA w), tA, tB, nC, ofBits, List.range_succ, List.range_zero,
      List.nil_append, List.cons_append, List.foldl_cons, List.foldl_nil, add_assoc]
  case pmac2 =>
    simp only [resPmac2, signedTy_halves (types_of_wfA w), tA, tB, nC, ofBits, Nat.mul_zero, Nat.mul_one, Nat.pow_zero,
      Nat.div_one]
  case sarn =>
    simp only [resSarn, valTy, signedTy_signed (types_of_wfA w), tA, nB]
    cases f.opx.getLsbD 0 <;> rfl
  case isat =>
    simp only [resIsat, valTy, tA]
    cases f.opx.getLsbD 6 <;> rfl
  case idp4Types => simpa using types_of_wf rfl rfl wf
  case pmac2Types => simpa using types_of_wf rfl rfl wf
  case sarnLegal =>
    obtain ⟨-, width, unsaturated⟩ := of_decide_eq_true (opx_of_wf rfl rfl wf)
    refine ⟨by simpa using types_of_wf rfl rfl wf, width, fun plain => unsaturated ?_⟩
    rw [opxBits_bit, plain]; rfl
  case isatLegal =>
    obtain ⟨-, width⟩ := of_decide_eq_true (opx_of_wf rfl rfl wf)
    exact ⟨mem_intTypes.1 (types_of_wf rfl rfl wf), width⟩

end Sys2Proof.Machine
end

section
/-! PROOF. Values combined across the participants of a cross-lane instruction (R111 to R117). -/

namespace Sys2Proof.Machine
open Sys2Proof.Safety

/-! ## Truths, bytes and masks -/

theorem toNat_bne_zero {w : Nat} (x : BitVec w) : (x.toNat != 0) = (x != 0) := by
  rw [Bool.eq_iff_iff, bne_iff_ne, bne_iff_ne, Ne, Ne, ← BitVec.toNat_inj]; rfl

theorem plainN_toNat {w : Nat} (x : BitVec w) : plainN x.toNat = ⟨x.setWidth 64, 0⟩ := by
  rw [plainN, BitVec.ofNat_toNat]

theorem plain_ite (c : Prop) [Decidable c] (x y : Double) :
    (if c then plain x else plain y) = plain (if c then x else y) := (apply_ite plain c x y).symm

/-- Two masks are the same when they hold the same lanes. -/
theorem lanes_ext {m k : Lanes} (h : ∀ l, l < 32 → m.getLsbD l = k.getLsbD l) : m = k :=
  BitVec.eq_of_getLsbD_eq h

section
variable (m : Lanes) (p : Nat → Bool)

theorem getLsbD_maskOf_filter {l : Nat} (hl : l < 32) :
    (maskOf ((lanesOf m).filter p)).getLsbD l = (m.getLsbD l && p l) := by
  rw [getLsbD_maskOf _ hl]
  simp [mem_lanesOf, hl]

/-- The lanes of a mask that pass a test are all of them when each passes. -/
theorem maskOf_filter_eq_self_iff : maskOf ((lanesOf m).filter p) = m ↔ (lanesOf m).all p = true := by
  rw [List.all_eq_true]
  constructor
  · intro h l hl
    obtain ⟨small, lane⟩ := mem_lanesOf.1 hl
    have := getLsbD_maskOf_filter m p small
    rw [h, lane] at this
    simpa using this.symm
  · intro h
    refine lanes_ext fun l hl => ?_
    rw [getLsbD_maskOf_filter m p hl]
    cases lane : m.getLsbD l with
    | false => rfl
    | true => exact h l (mem_lanesOf.2 ⟨hl, lane⟩)

/-- No lane of a mask passes a test when each fails it. -/
theorem maskOf_filter_eq_zero_iff : maskOf ((lanesOf m).filter p) = 0 ↔ (lanesOf m).all (fun l => !p l) = true := by
  rw [List.all_eq_true]
  constructor
  · intro h l hl
    obtain ⟨small, lane⟩ := mem_lanesOf.1 hl
    have := getLsbD_maskOf_filter m p small
    rw [h, lane] at this
    simpa using this.symm
  · intro h
    refine lanes_ext fun l hl => ?_
    rw [getLsbD_maskOf_filter m p hl]
    cases lane : m.getLsbD l with
    | false => simp
    | true => simpa using h l (mem_lanesOf.2 ⟨hl, lane⟩)

theorem maskOf_filter_ne_zero_iff : maskOf ((lanesOf m).filter p) ≠ 0 ↔ (lanesOf m).any p = true := by
  rw [Ne, maskOf_filter_eq_zero_iff, List.any_eq_not_all_not, Bool.not_eq_true', Bool.not_eq_true]

end

/-! ## VOTE (R112) -/

/-- The word whose truth a participant votes with. -/
def ballotWord (f : OpA) (s : State) (k : Nat) : Word := s.src32 (if f.com.u && !f.a.isP then s.uLane else k) f.a

/-- Of a U form a p register is read in each participant, any other source once. -/
theorem ballotWord_eq (f : OpA) (s : State) (k : Nat) :
    ballotWord f s k = (match f.a with | .p _ => s.src32 k f.a | _ => s.src32 (if f.com.u then s.uLane else k) f.a) := by
  unfold ballotWord
  cases f.a <;> simp [Src.isP]

/-- VOTE counts the participants whose word is true. -/
theorem resVote_eq (f : OpA) (s : State) (l : Nat) :
    let yes := maskOf ((lanesOf (participants f s)).filter (fun k => ballotWord f s k != 0))
    resVote f s l = ⟨match f.opxBits 0 2 with
      | 0 => if yes = participants f s then 1 else 0
      | 1 => if yes ≠ 0 then 1 else 0
      | 2 => if yes = participants f s ∨ yes = 0 then 1 else 0
      | _ => yes.setWidth 64, 0⟩ := by
  have truth : ∀ k, (nA f s (if f.com.u && !f.a.isP then s.uLane else k) != 0) = (ballotWord f s k != 0) := fun k =>
    toNat_bne_zero _
  simp only [resVote, truth]
  match f.opxBits 0 2 with
  | 0 => simp only [maskOf_filter_eq_self_iff, plain, boolD]
  | 1 => simp only [maskOf_filter_ne_zero_iff, plain, boolD]
  | 2 => simp only [maskOf_filter_eq_self_iff, maskOf_filter_eq_zero_iff, ← Bool.or_eq_true, plain, boolD]
  | _ + 3 => exact plainN_toNat _

/-! ## SHFL and SLIDE (R113, R114) -/

/-- SHFL reads the lane its mode names in the segment, if that lies there and participates, else its third operand. -/
theorem resShfl_eq (f : OpA) (s : State) (l : Nat) :
    let z := 2 ^ f.opxBits 2 3
    let b := (s.src32 l f.b).toNat
    let valid := match f.opxBits 0 2 with | 1 => decide (b ≤ l % z) | 2 => decide (l % z + b < z) | _ => true
    let k := match f.opxBits 0 2 with | 0 => l - l % z + b % z | 1 => l - b | 2 => l + b | _ => l ^^^ (b % z)
    resShfl f s l = ⟨if valid && (participants f s).getLsbD k then s.src k f.ty f.a else s.src l f.ty f.c, 0⟩ := by
  have inside : l % 2 ^ f.opxBits 2 3 ≤ l := Nat.mod_le ..
  have down (z b : Nat) (h : l % z ≤ l) : b ≤ l - (l - l % z) ↔ b ≤ l % z := by omega
  have up (z b : Nat) (h : l % z ≤ l) : l + b < l - l % z + z ↔ l % z + b < z := by omega
  have chosen (c d : Bool) (x y : Double) :
      (if c then (if d then plain x else plain y) else plain y) = ⟨if c && d then x else y, 0⟩ := by
    cases c <;> cases d <;> rfl
  simp only [resShfl, down _ _ inside, up _ _ inside, tA, tC, nB]
  match f.opxBits 0 2 with
  | 0 => exact chosen true _ _ _
  | 1 =>
    rw [← chosen]
    by_cases h : (s.src32 l f.b).toNat ≤ l % 2 ^ f.opxBits 2 3 <;> simp [h]
  | 2 =>
    rw [← chosen]
    by_cases h : l % 2 ^ f.opxBits 2 3 + (s.src32 l f.b).toNat < 2 ^ f.opxBits 2 3 <;> simp [h]
  | _ + 3 => exact chosen true _ _ _

/-- SLIDE reads the participant that stands a number of ranks above or below, else its third operand. -/
theorem resSlide_eq (f : OpA) (s : State) (l : Nat) :
    let ps := lanesOf (participants f s)
    let m := (s.src32 (ps.headD 0) f.b).toNat
    let j := (ps.filter (· < l)).length
    resSlide f s l =
      ⟨if f.opx.getLsbD 0 then (if j + m < ps.length then s.src (ps.getD (j + m) 0) f.ty f.a else s.src l f.ty f.c)
        else if m ≤ j then s.src (ps.getD (j - m) 0) f.ty f.a else s.src l f.ty f.c, 0⟩ := by
  simp only [resSlide, plain_ite]
  rfl

/-! ## SCAN and MATCH (R115, R116) -/

/-- SCAN combines the participants below, and unless exclusive the lane itself. -/
theorem resScan_eq (f : OpA) (s : State) (l : Nat) :
    resScan f s l = reduce f.ty (f.opxBits 0 3) (f.opx.getLsbD 3)
      (((lanesOf (participants f s)).filter (fun k => decide (k < l) || (!f.opx.getLsbD 4 && decide (k = l)))).map
        (fun k => s.src k f.ty f.a)) := by
  have same (k : Nat) : (if f.opx.getLsbD 4 = true then decide (k < l) else decide (k ≤ l)) =
      (decide (k < l) || (!f.opx.getLsbD 4 && decide (k = l))) := by
    cases f.opx.getLsbD 4
    · simp [Nat.le_iff_lt_or_eq]
    · simp
  simp only [resScan, same]
  rfl

/-- MATCH gives the participants whose value is the lane's own, or with OPX[0] all of them when each has it. -/
theorem resMatch_eq (f : OpA) (s : State) (l : Nat) :
    let same := maskOf ((lanesOf (participants f s)).filter (fun k => tA f s k == tA f s l))
    resMatch f s l =
      ⟨if f.opx.getLsbD 0 then (if same = participants f s then (participants f s).setWidth 64 else 0)
        else same.setWidth 64, 0⟩ := by
  simp only [resMatch, maskOf_filter_eq_self_iff]
  cases f.opx.getLsbD 0 with
  | false => exact plainN_toNat _
  | true =>
    simp only [if_true]
    split
    · exact plainN_toNat _
    · rfl

/-! ## PRMT (R117) -/

/-- The byte that a selector takes from eight. -/
def selectedByte (x : Double) (k : Byte) : Byte :=
  let b : Byte := x.extractLsb' (8 * (k.toNat % 8)) 8
  if k.getLsbD 6 then 0xFF else if k.getLsbD 5 then 0 else if k.getLsbD 4 then (if b.msb then 0xFF else 0) else b

theorem prmtByte_eq (x : Double) (k : Byte) : prmtByte x.toNat k.toNat = (selectedByte x k).toNat := by
  have byte : x.toNat / 2 ^ (8 * (k.toNat % 8)) % 256 = (x.extractLsb' (8 * (k.toNat % 8)) 8).toNat := by
    rw [BitVec.extractLsb'_toNat, Nat.shiftRight_eq_div_pow]
  have sign (b : Byte) : 128 ≤ b.toNat ↔ b.msb = true := by
    rw [BitVec.msb_eq_decide, decide_eq_true_eq]
  simp only [prmtByte, selectedByte, byte, sign, BitVec.getLsbD, apply_ite BitVec.toNat]
  rfl

theorem toNat_append_byte {w : Nat} (x : BitVec w) (y : Byte) : (x ++ y).toNat = x.toNat * 256 + y.toNat := by
  rw [BitVec.toNat_append, ← Nat.shiftLeft_add_eq_or_of_lt y.isLt, Nat.shiftLeft_eq]

/-- Four bytes packed as elements are the word that they form. -/
theorem packElems_bytes (out : Nat → Byte) :
    packElems 8 (fun i => (out i).toNat) 4 = (out 3 ++ out 2 ++ out 1 ++ out 0 : BitVec 32).toNat := by
  rw [toNat_append_byte, toNat_append_byte, toNat_append_byte, packElems_succ, packElems_succ, packElems_succ, packElems_succ]
  simp only [packElems, List.range_zero, List.foldl_nil]
  omega

/-- PRMT picks each byte of its result from the eight of its first two operands. -/
theorem resPrmt_eq (f : OpA) (s : State) (l : Nat) :
    let out (i : Nat) : Byte := selectedByte (s.src32 l f.b ++ s.src32 l f.a) ((s.src32 l f.c).extractLsb' (8 * i) 8)
    resPrmt f s l = ⟨(out 3 ++ out 2 ++ out 1 ++ out 0 : BitVec 32).setWidth 64, 0⟩ := by
  intro out
  have pair : nA f s l + nB f s l * 2 ^ 32 = (s.src32 l f.b ++ s.src32 l f.a : Double).toNat := by
    rw [nA, nB, BitVec.toNat_append, ← Nat.shiftLeft_add_eq_or_of_lt (s.src32 l f.a).isLt, Nat.shiftLeft_eq, Nat.add_comm]
  have selector (i : Nat) : nC f s l / 2 ^ (8 * i) % 256 = ((s.src32 l f.c).extractLsb' (8 * i) 8).toNat := by
    rw [nC, BitVec.extractLsb'_toNat, Nat.shiftRight_eq_div_pow]
  have byte (i : Nat) : prmtByte (nA f s l + nB f s l * 2 ^ 32) (nC f s l / 2 ^ (8 * i) % 256) = (out i).toNat := by
    rw [pair, selector, prmtByte_eq]
  rw [← plainN_toNat, ← packElems_bytes]
  simp only [resPrmt, byte]
  rfl

/-! ## The statement -/

/-- Settles O7: each result's formula above, read in the word's participants (in a U form the active lanes). -/
theorem crossLaneCompletes : Obligations.CrossLaneCompletes := by
  unfold Obligations.CrossLaneCompletes
  intro f
  refine ⟨yields_of (fn := resVote) (fun _ => rfl) rfl rfl rfl (fun s b h l => ?voteAlike) fun _ s l => ?vote,
    yields_of (fn := resShfl) (fun _ => rfl) rfl rfl rfl (fun s b h l => ?shflAlike) fun _ => resShfl_eq f,
    yields_of (fn := resSlide) (fun _ => rfl) rfl rfl rfl (fun s b h l => ?slideAlike) fun _ => resSlide_eq f,
    yields_of (fn := resRedux) (fun _ => rfl) rfl rfl rfl (fun s b h l => ?reduxAlike) fun _ _ _ => rfl,
    yields_of (fn := resScan) (fun _ => rfl) rfl rfl rfl (fun s b h l => ?scanAlike) fun _ => resScan_eq f,
    yields_of (fn := resMatch) (fun _ => rfl) rfl rfl rfl (fun s b h l => ?matchAlike) fun _ => resMatch_eq f,
    yields_of (fn := resPrmt) (fun _ => rfl) rfl rfl rfl (fun s b h l => ?prmtAlike) fun _ => resPrmt_eq f⟩
  case voteAlike => simp only [resVote, participants_alike h, h.uLane, nA_alike h]
  case shflAlike => simp only [resShfl, participants_alike h, tA_alike h, nB_alike h, tC_alike h]
  case slideAlike => simp only [resSlide, participants_alike h, tA_alike h, nB_alike h, tC_alike h]
  case reduxAlike => simp only [resRedux, participants_alike h, funext (tA_alike h f)]
  case scanAlike => simp only [resScan, participants_alike h, funext (tA_alike h f)]
  case matchAlike => simp only [resMatch, participants_alike h, tA_alike h]
  case prmtAlike => simp only [resPrmt, nA_alike h, nB_alike h, nC_alike h]
  case vote =>
    have := resVote_eq f s l
    simp only [ballotWord_eq] at this
    exact this

end Sys2Proof.Machine
end

section
/-! PROOF. Words that write registers or predicates without a result of their own: what they leave as it was. -/

namespace Sys2Proof.Machine
open Sys2Proof.Safety

/-! ## Words gone on by one -/

/-- `x` is `w` with slices `sl` and flags `fs`, and nothing else changed but registers, chains and tags. -/
structure Warp.After (k : Nat) (w x : Warp) (sl : List Slice) (fs : Word) : Prop where
  rest   : restOf x = restOf w
  trap   : x.trap.map savedPart = w.trap.map savedPart
  loop   : x.loop.isSome = w.loop.isSome
  slices : (x.archOf k).slices = sl
  fstat  : (x.archOf k).fstat = fs
  gangs  : (x.archOf k).gangs.map Gang.sig = (w.archOf k).gangs.map Gang.sig
  sfmask : (x.archOf k).sfmask = (w.archOf k).sfmask
  exited : (x.archOf k).exited = (w.archOf k).exited

section
variable {k : Nat} {w x y : Warp} {sl sl' : List Slice} {fs fs' : Word}

theorem Warp.Near.after (h : Warp.Near k w x sl fs) : Warp.After k w x sl fs :=
  ⟨h.rest, h.trap, h.loop, h.slices, h.fstat, h.gangs, h.sfmask, h.exited⟩

theorem Warp.After.kept (a : Warp.After k w x sl fs) (h : Warp.Kept k x y) : Warp.After k w y sl fs :=
  ⟨h.rest.trans a.rest, h.trap.trans a.trap, h.loop.trans a.loop, h.slices.trans a.slices, h.fstat.trans a.fstat,
    (congrArg _ h.gangs).trans a.gangs, h.sfmask.trans a.sfmask, h.exited.trans a.exited⟩

theorem Warp.After.near (a : Warp.After k w x sl fs) (h : Warp.Near k x y sl' fs') : Warp.After k w y sl' fs' :=
  ⟨h.rest.trans a.rest, h.trap.trans a.trap, h.loop.trans a.loop, h.slices, h.fstat, h.gangs.trans a.gangs,
    h.sfmask.trans a.sfmask, h.exited.trans a.exited⟩
end

/-- A change that writes no register, slice or flag. -/
theorem Warp.After.quiet {k : Nat} {w x y : Warp} {sl : List Slice} {fs : Word} (a : Warp.After k w x sl fs)
    (h : Warp.Near k x y (x.archOf k).slices (x.archOf k).fstat) : Warp.After k w y sl fs := by
  have b := a.near h
  rwa [a.slices, a.fstat] at b

/-- A word without a result: it went on by one, left flags and all but registers, and its registers read as in `x`. -/
structure WroteOnly (s t : State) (x : Warp) : Prop extends OnlyRegisters s t, WentOn s t where
  flags : t.arch.fstat = s.arch.fstat
  v     : ∀ n l, vreg t n l = x.getV s.who.way true n l
  g     : ∀ n, greg t n = x.getG s.who.way true n
  p     : ∀ n l, preg t n l = x.getP s.who.way true n l
  gp    : ∀ n, gpreg t n = x.getGp s.who.way true n

/-- The end of a word that left its warp as `x`, gone on by one with its flags as they were. -/
theorem wroteOnly_of {s t : State} {x : Warp} (hp : Present s) (ht : State.To s t x)
    (h : Warp.After s.who.way s.wWarp x (s.arch.goOn s.who.slice).slices s.arch.fstat) (sl : BitVec 8) :
    WroteOnly s (t.clearLate sl).finish x := by
  obtain ⟨y, hy⟩ : ∃ y, y = x.updWay t.who.way (fun y => { y with late := y.late &&& ~~~ sl }) := ⟨_, rfl⟩
  have to_end : State.To s (t.clearLate sl) y := hy ▸ ht.step _
  have who : (t.clearLate sl).finish.who = s.who := to_end.who
  have warp : (t.clearLate sl).finish.wWarp = y := to_end.wWarp hp
  have arch : (t.clearLate sl).finish.arch = y.archOf s.who.way := by rw [State.arch, warp, who]
  have near : Warp.Near s.who.way x y (x.archOf s.who.way).slices (x.archOf s.who.way).fstat := by
    rw [hy, ht.who]; exact Warp.Near.updWay _ _ _ fun _ => rfl
  have final := h.quiet near
  obtain ⟨length, slices⟩ := goOn_slices s.arch s.who.slice
  refine ⟨⟨to_end.onlyWarp, by rw [warp, final.rest], by rw [warp, final.trap], by rw [warp, final.loop],
    by rw [arch, final.sfmask]; rfl, by rw [arch, final.exited]; rfl, by rw [arch]; exact final.gangs⟩,
    ⟨by rw [arch, final.slices, length], fun i hi => ?moved⟩, by rw [arch, final.fstat], fun n l => ?v, fun n => ?g,
    fun n l => ?p, fun n => ?gp⟩
  case moved =>
    have same : (t.clearLate sl).finish.arch.slice i = (s.arch.goOn s.who.slice).slice i := by
      rw [Arch.slice, Arch.slice, arch, final.slices]
    rw [same, slices i hi]; rfl
  case v => rw [vreg, warp, who, near.v]
  case g => rw [greg, warp, who, near.g]
  case p => rw [preg, warp, who, near.p]
  case gp => rw [gpreg, warp, who, near.gp]

theorem fstat_alike {s b : State} (h : State.Alike s b) : b.arch.fstat = s.arch.fstat := by
  have e := congrArg Arch.fstat h.archEq
  exact e

theorem OnlyRegisters.of_alike {s b t : State} (h : State.Alike s b) (o : OnlyRegisters b t) : OnlyRegisters s t where
  frame := by rw [o.frame, h.frame]
  others u hu := (o.others u (h.who ▸ hu)).trans (h.others u hu)
  rest := o.rest.trans h.warp.rest
  trap := by
    have saved := congrArg (Option.map savedPart) h.warp.trap
    simp only [Option.map_map] at saved
    exact o.trap.trans saved
  loop := o.loop.trans h.warp.loop
  sfmask := by have e := congrArg Arch.sfmask h.archEq; exact o.sfmask.trans e
  exited := by have e := congrArg Arch.exited h.archEq; exact o.exited.trans e
  gangs := by
    have same := congrArg (List.map Gang.sig) h.warp.gangs
    simp only [List.map_map] at same
    refine o.gangs.trans ?_
    unfold State.arch; rw [h.who]
    exact same

theorem WentOn.of_alike {s b t : State} (h : State.Alike s b) (o : WentOn b t) : WentOn s t where
  length := by rw [o.length, h.slicesEq]
  slices i hi := by rw [o.slices i (by rw [h.slicesEq]; exact hi), h.gangSlices, h.slice]

/-! ## Changes that write no register -/

/-- `t` is `s` with the issuing warp's slices `sl` and flags `fs`, no register changed. -/
def State.Quiet (s t : State) (sl : List Slice) (fs : Word) : Prop :=
  ∃ x, State.To s t x ∧ Warp.Near s.who.way s.wWarp x sl fs

section
variable {s t u : State} {sl : List Slice} {fs : Word}

theorem State.Quiet.raise (s : State) (fl : Word) : State.Quiet s (s.raise fl) s.arch.slices (s.arch.fstat ||| fl) :=
  ⟨_, ⟨fun w => w.raise s.who.way true fl, rfl, rfl⟩, Warp.Near.raise ..⟩

theorem State.Quiet.when {c : Prop} [Decidable c] (ht : State.Quiet s t sl fs)
    (hu : State.Quiet s t sl fs → State.Quiet s u sl fs) : State.Quiet s (if c then u else t) sl fs := by
  split
  · exact hu ht
  · exact ht

theorem State.Quiet.updRegions (h : State.Quiet s t sl fs) (ls : Lanes) (f : Nat → Region → Region) :
    State.Quiet s (t.updRegions ls f) sl fs := by
  obtain ⟨x, ht, near⟩ := h
  exact ⟨_, ht.step _, near_chain near (Warp.Near.regions _ _ _)⟩

theorem State.Quiet.updGang (h : State.Quiet s t sl fs) {f : Gang → Gang} (hf : ∀ g, (f g).sig = g.sig) :
    State.Quiet s (t.updGang f) sl fs := by
  obtain ⟨x, ht, near⟩ := h
  refine ⟨_, ht.step _, near_chain near ?_⟩
  rw [ht.who]
  exact Warp.Near.updGang _ _ _ _ hf

/-- Going on by one word from slices that are still those of `s`. -/
theorem State.Quiet.advance (h : State.Quiet s t s.arch.slices fs) :
    State.Quiet s t.advance (s.arch.goOn s.who.slice).slices fs := by
  obtain ⟨x, ht, near⟩ := h
  refine ⟨_, ht.step _, ?_⟩
  have on := near.trans (Warp.Near.goOn s.who.way s.who.slice x)
  rw [near.fstat, goOn_congr (x.archOf s.who.way) s.arch s.who.slice near.slices near.gangs] at on
  rw [ht.who]
  exact on
end

/-- A register instruction without a destination and without flags writes no register. -/
theorem runA_quiet (s : State) (i : Instr) (f : OpA) (r : RoleA) (hr : r.d = none) (x : Nat → Double) :
    State.Quiet s (s.runA i f r (fun l => plain (x l))) (s.arch.goOn s.who.slice).slices s.arch.fstat := by
  have flags (L : List Nat) : L.foldl (fun fl l => fl ||| (plain (x l)).fl) (0 : Word) = 0 :=
    (foldl_or_eq_zero L _ 0).2 ⟨rfl, fun _ _ => rfl⟩
  have start := State.Quiet.raise s 0
  have none_raised : s.arch.fstat ||| 0 = s.arch.fstat := by simp
  rw [none_raised] at start
  unfold State.runA
  simp only [flags, hr, Option.isSome_none, Bool.false_eq_true, if_false]
  refine State.Quiet.advance ?_
  split
  on_goal 1 => refine State.Quiet.updGang ?captured fun _ => rfl
  all_goals exact ((start.when fun q => q.updRegions _ _).when fun q => q.updRegions _ _).when fun q => q.updGang fun _ => rfl

end Sys2Proof.Machine
end

section
/-! PROOF. Compares, logic of truths and moves of predicates (R107 to R110): results as the spec's formulas, and the
predicates that PMOV.set leaves. -/

namespace Sys2Proof.Machine
open Sys2Proof.Safety

/-! ## PMOV.set (R110) -/

/-- The bits of a word put in the predicates that a mask names, in one lane or the group. -/
def Warp.setPredBits (w : Warp) (k : Nat) (u : Bool) (m x l : Nat) : Warp :=
  (List.range 8).foldl (fun w i =>
    if m.testBit i then (if u then w.setGp k true i (x.testBit i) else w.setP k true i l (x.testBit i)) else w) w

section
variable (k : Nat) (w : Warp)

/-- A change made for each member of a list keeps what each of them keeps. -/
theorem Warp.Kept.foldl {α : Type} (L : List α) {g : Warp → α → Warp} (h : ∀ w a, Warp.Kept k w (g w a)) :
    Warp.Kept k w (L.foldl g w) := by
  induction L generalizing w with
  | nil => exact .refl k w
  | cons a r ih => exact (h w a).trans (ih _)

/-- What a list's changes leave in a place that only the change for `n` writes, if `c` holds, with `v`. -/
theorem foldl_written {α β : Type} [DecidableEq α] (L : List α) {g : Warp → α → Warp} (rd : Warp → β) (n : α) (c : Prop)
    [Decidable c] (v : β) (h : ∀ w, ∀ a ∈ L, rd (g w a) = if a = n ∧ c then v else rd w) :
    rd (L.foldl g w) = if n ∈ L ∧ c then v else rd w := by
  induction L generalizing w with
  | nil => simp
  | cons a r ih =>
    rw [List.foldl_cons, ih _ fun w b hb => h w b (List.mem_cons_of_mem _ hb), h w a List.mem_cons_self]
    by_cases e : a = n
    · subst e
      by_cases hc : c <;> simp [hc]
    · simp [e, Ne.symm e]

/-- A place that no change of a list writes. -/
theorem foldl_left {α β : Type} (L : List α) {g : Warp → α → Warp} (rd : Warp → β) (h : ∀ w a, rd (g w a) = rd w) :
    rd (L.foldl g w) = rd w := by
  induction L generalizing w with
  | nil => rfl
  | cons a r ih => rw [List.foldl_cons, ih, h]

variable (u : Bool) (m x l : Nat)

theorem Warp.Kept.setPredBits : Warp.Kept k w (w.setPredBits k u m x l) := by
  refine Warp.Kept.foldl k w _ fun w i => ?_
  split
  · cases u
    · exact .setP k w _ _ _
    · exact .setGp k w _ _
  · exact .refl k w

theorem getV_setPredBits (n j : Nat) : (w.setPredBits k u m x l).getV k true n j = w.getV k true n j :=
  foldl_left w _ (fun w => w.getV k true n j) fun w i => by
    cases u <;> split <;> simp [Warp.getV_setP, Warp.getV_setGp]

theorem getG_setPredBits (n : Nat) : (w.setPredBits k u m x l).getG k true n = w.getG k true n :=
  foldl_left w _ (fun w => w.getG k true n) fun w i => by
    cases u <;> split <;> simp [Warp.getG_setP, Warp.getG_setGp]

/-- In a lane the predicates that the mask names receive the word's bits; a group's word leaves them. -/
theorem getP_setPredBits {n : Nat} (j : Nat) (hn : n < 8) :
    (w.setPredBits k u m x l).getP k true n j =
      if l = j ∧ u = false ∧ n ≠ 0 ∧ m.testBit n = true then x.testBit n else w.getP k true n j := by
  rw [Warp.setPredBits, foldl_written w _ (fun w => w.getP k true n j) n
    (l = j ∧ u = false ∧ n ≠ 0 ∧ m.testBit n = true) (x.testBit n) fun w i hi => ?_]
  · simp [hn]
  · have small : i < 8 := List.mem_range.1 hi
    by_cases e : i = n
    · subst e
      rcases eq_or_ne l j with rfl | lane
      · cases u <;> cases bit : m.testBit i <;> simp [Warp.getP_setP _ _ _ _ small small, Warp.getP_setGp]
      · cases u <;> split <;> simp [Warp.getP_setP _ _ _ _ small small, Warp.getP_setGp, lane, lane.symm]
    · cases u <;> split <;> simp [Warp.getP_setP _ _ _ _ small hn, Warp.getP_setGp, e, Ne.symm e]

/-- The group's predicates that the mask names receive the word's bits; a lane's word leaves them. -/
theorem getGp_setPredBits {n : Nat} (hn : n < 8) :
    (w.setPredBits k u m x l).getGp k true n =
      if u = true ∧ n ≠ 0 ∧ m.testBit n = true then x.testBit n else w.getGp k true n := by
  rw [Warp.setPredBits, foldl_written w _ (fun w => w.getGp k true n) n
    (u = true ∧ n ≠ 0 ∧ m.testBit n = true) (x.testBit n) fun w i hi => ?_]
  · simp [hn]
  · have small : i < 8 := List.mem_range.1 hi
    by_cases e : i = n
    · subst e
      cases u <;> cases bit : m.testBit i <;> simp [Warp.getGp_setP, Warp.getGp_setGp _ _ small small]
    · cases u <;> split <;> simp [Warp.getGp_setP, Warp.getGp_setGp _ _ small hn, e, Ne.symm e]

end

/-- PMOV.set runs as a word without a result, then puts the bits of its operand in the predicates it names. -/
theorem execPmovSet_eq (f : OpA) : ∃ r : RoleA, r.d = none ∧ ∀ s, exec (.pmovSet f) s =
    .next (s.issue (.pmovSet f) fun b =>
      .done (setPreds f b (b.runA (.pmovSet f) f r (fun l => plain (b.src l .u32 f.a))))) :=
  ⟨_, rfl, fun _ => rfl⟩

/-- The predicates that a word names, as a mask of eight: bit 0 is not among them. -/
theorem testBit_predMask (f : OpA) {n : Nat} (hn : n < 8) :
    (f.opxBits 1 7 * 2).testBit n = (decide (n ≠ 0) && f.opx.getLsbD n) := by
  cases n with
  | zero => simp
  | succ k =>
    have small : k < 7 := by omega
    rw [Nat.testBit_succ, Nat.mul_div_cancel _ (by decide), OpA.opxBits, Nat.testBit_mod_two_pow, Nat.testBit_div_two_pow]
    simp [small, BitVec.getLsbD]

/-- The warp after PMOV.set's predicates have been set in each lane that computes. -/
def Warp.setPredLanes (w : Warp) (f : OpA) (b : State) : Warp :=
  (lanesOf (b.calcLanes f.com)).foldl (fun w l =>
    w.setPredBits b.who.way f.com.u (f.opxBits 1 7 * 2) (nA f b l) l) w

/-- PMOV.set's end: the word has gone on by one, and its registers read as its predicates were set. -/
theorem pmovSet_ends {f : OpA} {b : State} (hp : Present b) (r : RoleA) (hr : r.d = none) (sl : BitVec 8) :
    ∃ x, WroteOnly b ((setPreds f b (b.runA (.pmovSet f) f r (fun l => plain (b.src l .u32 f.a)))).clearLate sl).finish
        (x.setPredLanes f b) ∧ Warp.Near b.who.way b.wWarp x (b.arch.goOn b.who.slice).slices b.arch.fstat := by
  obtain ⟨x, ht, near⟩ := runA_quiet b (.pmovSet f) f r hr (fun l => b.src l .u32 f.a)
  have set : Warp.Kept b.who.way x (x.setPredLanes f b) :=
    Warp.Kept.foldl _ x _ fun w l => Warp.Kept.setPredBits _ w _ _ _ _
  exact ⟨x, wroteOnly_of hp (ht.step _) (near.after.kept set) sl, near⟩

section
variable (w : Warp) (f : OpA) (b : State)

theorem getV_setPredLanes (n l : Nat) : (w.setPredLanes f b).getV b.who.way true n l = w.getV b.who.way true n l :=
  foldl_left w _ (fun w => w.getV b.who.way true n l) fun _ _ => getV_setPredBits ..

theorem getG_setPredLanes (n : Nat) : (w.setPredLanes f b).getG b.who.way true n = w.getG b.who.way true n :=
  foldl_left w _ (fun w => w.getG b.who.way true n) fun _ _ => getG_setPredBits ..

theorem getP_setPredLanes {n l : Nat} (hn : n < 8) (hl : l < 32) :
    (w.setPredLanes f b).getP b.who.way true n l =
      if f.com.u = false ∧ (b.executing f.com).getLsbD l = true ∧ n ≠ 0 ∧ f.opx.getLsbD n = true then
        (b.src32 l f.a).getLsbD n
      else w.getP b.who.way true n l := by
  rw [Warp.setPredLanes, foldl_written w _ (fun w => w.getP b.who.way true n l) l
    (f.com.u = false ∧ n ≠ 0 ∧ f.opx.getLsbD n = true) ((b.src32 l f.a).getLsbD n) fun w j _ => ?_]
  · simp only [mem_lanesOf, hl, true_and]
    cases hu : f.com.u with
    | true => simp
    | false => simp [State.calcLanes, hu]
  · rw [getP_setPredBits _ _ _ _ _ _ _ hn, testBit_predMask f hn]
    rcases eq_or_ne j l with rfl | lane
    · simp [nA, BitVec.getLsbD]
    · simp [lane]

theorem getGp_setPredLanes {n : Nat} (hn : n < 8) :
    (w.setPredLanes f b).getGp b.who.way true n =
      if f.com.u = true ∧ n ≠ 0 ∧ f.opx.getLsbD n = true then (b.src32 b.uLane f.a).getLsbD n
      else w.getGp b.who.way true n := by
  cases hu : f.com.u with
  | false =>
    simp only [Bool.false_eq_true, false_and, if_false]
    refine foldl_left w _ (fun w => w.getGp b.who.way true n) fun w j => ?_
    rw [getGp_setPredBits _ _ _ _ _ _ hn, hu]; simp
  | true =>
    have one : lanesOf (b.calcLanes f.com) = [b.uLane] := by
      rw [State.calcLanes, if_pos hu, lanesOf_maskOf_one (uLane_lt b)]
    rw [Warp.setPredLanes, one, List.foldl_cons, List.foldl_nil, getGp_setPredBits _ _ _ _ _ _ hn, testBit_predMask f hn]
    simp [hu, nA, BitVec.getLsbD]
end

/-! ## Compares and logic (R107 to R109), and PMOV.get -/

/-- A number of predicates as bits is the same sum or union. -/
theorem packElems_one (p : Nat → Bool) (k : Nat) :
    BitVec.ofNat 64 (packElems 1 (fun i => if p i then 1 else 0) k) =
      (List.range k).foldl (fun x i => if p i then x ||| ((1 <<< i : Nat) : Double) else x) 0 := by
  induction k with
  | zero => rfl
  | succ k ih =>
    have digit (i : Nat) : (if p i then 1 else 0) < 2 ^ 1 := by split <;> decide
    have small : packElems 1 (fun i => if p i then 1 else 0) k < 2 ^ k := by
      simpa using packElems_lt digit k
    rw [packElems_succ, List.range_succ, List.foldl_append, List.foldl_cons, List.foldl_nil, ← ih]
    cases p k with
    | false => simp
    | true =>
      have union := Nat.two_pow_add_eq_or_of_lt small 1
      rw [Nat.mul_one, Nat.add_comm, Nat.or_comm] at union
      simp only [if_true, Nat.one_mul, union, Nat.one_shiftLeft]
      exact BitVec.ofNat_or

theorem resPmovGet_eq (f : OpA) (s : State) (l : Nat) :
    resPmovGet f s l =
      ⟨(List.range 8).foldl (fun x i => if (if f.com.u then gpreg s i else preg s i l) then x ||| 1 <<< i else x) 0, 0⟩ := by
  have bits := packElems_one (fun i => if f.com.u then gpreg s i else preg s i l) 8
  rw [← bits]
  simp only [resPmovGet, packElems, ite_mul, Nat.one_mul, Nat.zero_mul]
  rfl

/-- Settles O6: compares and logic as their formulas, PMOV.get as the byte of its predicates, and PMOV.set's predicates
as they read at its end. -/
theorem predicatesComplete : Obligations.PredicatesComplete := by
  unfold Obligations.PredicatesComplete
  intro f comb bool
  refine ⟨yields_of (fn := resSetp) (fun _ => rfl) rfl rfl rfl (fun s b h l => ?isetpAlike) fun w s l => ?isetp,
    yields_of (fn := resSetp) (fun _ => rfl) rfl rfl rfl (fun s b h l => ?fsetpAlike) fun w s l => ?fsetp,
    yields_of (fn := resPlop) (fun _ => rfl) rfl rfl rfl (fun s b h l => ?plopAlike) fun _ s l => ?plop,
    yields_of (fn := resPmovGet) (fun _ => rfl) rfl rfl rfl (fun s b h l => ?pmovGetAlike) fun _ => resPmovGet_eq f,
    fun s ready => ?pmovSet⟩
  case isetpAlike => simp only [resSetp, tA_alike h, tB_alike h, nC_alike h]
  case fsetpAlike => simp only [resSetp, tA_alike h, tB_alike h, nC_alike h]
  case plopAlike => simp only [resPlop, nA_alike h, nB_alike h, nC_alike h]
  case pmovGetAlike =>
    simp only [resPmovGet_eq, h.preg, h.gpreg]
  case isetp =>
    have kind : f.ty.int = true := by rcases mem_intTypes.1 (types_of_wfA w) with e | e | e | e <;> rw [e] <;> rfl
    simp only [resSetp, cmpTy, kind, if_true, nC, toNat_bne_zero]
    rfl
  case fsetp =>
    have kind : f.ty.int = false := by
      have float := types_of_wfA w
      simp only [List.mem_cons, List.not_mem_nil, or_false] at float
      rcases float with e | e | e <;> rw [e] <;> rfl
    simp only [resSetp, cmpTy, kind, Bool.false_eq_true, if_false, nC, toNat_bne_zero]
    rfl
  case plop =>
    simp only [resPlop, anf, nA, nB, nC, toNat_bne_zero, Bool.xor_assoc, Bool.and_assoc, Bool.and_true]
    rfl
  case pmovSet =>
    obtain ⟨r, hr, run⟩ := execPmovSet_eq f
    obtain ⟨-, hp, u, hu, issues⟩ := ready
    obtain ⟨alike, present⟩ := alike_begin s u hp
    obtain ⟨x, wrote, near⟩ := pmovSet_ends (f := f) present r hr s.gang.slices
    refine ⟨_, (run s).trans (congrArg _ (issue_issues hu issues _)), OnlyRegisters.of_alike alike wrote.toOnlyRegisters,
      WentOn.of_alike alike wrote.toWentOn, fun n l _ => ?v, fun n => ?g, fun n l hn hl => ?p, fun n hn => ?gp, ?flags⟩
    case v => rw [← alike.vreg]; exact (wrote.v n l).trans ((getV_setPredLanes ..).trans (near.v n l))
    case g => rw [← alike.greg]; exact (wrote.g n).trans ((getG_setPredLanes ..).trans (near.g n))
    case p =>
      rw [← alike.preg, ← alike.executing, ← alike.src32]
      refine (wrote.p n l).trans ?_
      rw [getP_setPredLanes _ _ _ hn hl, near.p]; rfl
    case gp =>
      rw [← alike.gpreg, ← alike.uLane, ← alike.src32]
      refine (wrote.gp n).trans ?_
      rw [getGp_setPredLanes _ _ _ hn, near.gp]; rfl
    case flags => exact wrote.flags.trans (fstat_alike alike)

end Sys2Proof.Machine
end

section
/-! PROOF. Registers by computed index (R104 to R106). RGET completes in every state and RPUT wherever the warp's allocation
is at most the 512 registers there are (R61); the statement leaves that bound out and is refuted. -/

namespace Sys2Proof.Machine
open Sys2Proof.Safety

/-! ## An indexed access that passes its checks (R105, R106) -/

/-- The highest register that a lane's index reaches. -/
def topIndex (f : OpA) (s : State) (l : Nat) : Nat := regIndex f s l + (if f.ty.wide then 1 else 0)

/-- Each lane's index lies below its bound, and nothing is still to write the registers it names. -/
structure IndexFree (f : OpA) (b : State) : Prop where
  bound : ∀ l ∈ lanesOf (b.calcLanes f.com),
    if f.com.u then topIndex f b l < 64 else topIndex f b l < b.wWarp.alloc ∨ (b.inHandler = true ∧ topIndex f b l < 32)
  idle  : ∀ l ∈ lanesOf (b.calcLanes f.com),
    (indexed f b l).any (fun r => b.busyReg (maskOf [l]) r || b.lateReg (maskOf [l]) r) = false

/-- No register that a lane's index names holds poison. -/
def IndexClean (f : OpA) (b : State) : Prop :=
  ∀ l ∈ lanesOf (b.calcLanes f.com), b.poisoned ⟨f.com, indexed f b l, []⟩ (maskOf [l]) = false

theorem badIndex_eq_zero {f : OpA} {b : State} (h : IndexFree f b) : badIndex f b = 0 := by
  refine (maskOf_filter_eq_zero_iff _ _).2 (List.all_eq_true.2 fun l hl => ?_)
  have bound := h.bound l hl
  unfold topIndex at bound
  cases hu : f.com.u with
  | true => simpa [hu] using bound
  | false =>
    simp only [hu, Bool.false_eq_true, if_false] at bound ⊢
    rcases bound with below | ⟨handler, below⟩ <;> simp [*]

theorem alike_updWay {s : State} (hp : Present s) {f : Way → Way} (hf : ∀ y, (f y).arch = y.arch) :
    State.Alike s (s.updWay f) ∧ Present (s.updWay f) := by
  refine ⟨State.Alike.updMy s _ hp ?_, present_updMy _ hp⟩
  refine ⟨by simp, by simp, ?_, by rw [Warp.archOf_updWay _ _ _ hf], by rw [Warp.archOf_updWay _ _ _ hf]⟩
  unfold Warp.updWay; split <;> simp_all

theorem alike_updRegions {s : State} (hp : Present s) (ls : Lanes) (f : Nat → Region → Region) :
    State.Alike s (s.updRegions ls f) ∧ Present (s.updRegions ls f) :=
  ⟨State.Alike.updMy s _ hp ⟨rfl, rfl, rfl, rfl, rfl⟩, present_updMy _ hp⟩

theorem Way.track_arch (y : Way) (rd wr : List Nat) : (y.track rd wr).arch = y.arch := by
  unfold Way.track; split <;> rfl

/-- A free access is performed in a state that reads like the one it issues in. -/
theorem indexedOp_done {f : OpA} {write : Bool} {b : State} (hp : Present b) (h : IndexFree f b)
    (clean : write = false → IndexClean f b) (eff : State → State) :
    ∃ t, indexedOp f write b eff = .done (eff t) ∧ State.Alike b t ∧ Present t := by
  have idle : (lanesOf (b.calcLanes f.com)).any (fun l => (indexed f b l).any (fun r =>
      b.busyReg (maskOf [l]) r || b.lateReg (maskOf [l]) r)) = false :=
    List.any_eq_false.2 fun l hl => by rw [h.idle l hl]; decide
  have unpoisoned : (!write && (lanesOf (b.calcLanes f.com)).any (fun l =>
      b.poisoned ⟨f.com, indexed f b l, []⟩ (maskOf [l]))) = false := by
    cases write with
    | true => rfl
    | false => exact List.any_eq_false.2 fun l hl => by rw [clean rfl l hl]; decide
  unfold indexedOp
  rw [if_neg (not_not.2 (badIndex_eq_zero h)), if_neg (by rw [idle]; decide), if_neg (by rw [unpoisoned]; decide)]
  refine ⟨_, rfl, ?_⟩
  generalize tracked : b.updWay _ = t
  obtain ⟨alike, present⟩ : State.Alike b t ∧ Present t :=
    tracked ▸ alike_updWay hp fun y => by cases write <;> exact Way.track_arch ..
  by_cases regions : (!t.untracked) = true
  · rw [if_pos regions]
    obtain ⟨alike', present'⟩ := alike_updRegions present _ _
    exact ⟨alike.trans alike', present'⟩
  · rw [if_neg regions]
    exact ⟨alike, present⟩

theorem regIndex_alike {s b : State} (h : State.Alike s b) (f : OpA) (l : Nat) : regIndex f b l = regIndex f s l := by
  unfold regIndex; rw [nA_alike h, nB_alike h]

/-! ## RGET (R104) -/

/-- Wherever its indexes are free and clean, RGET's result in a lane is the register that the lane's index names. -/
theorem rget_completes {f : OpA} {s : State} (ready : Ready (.rget f) s) (free : IndexFree f (begun (.rget f) s))
    (clean : IndexClean f (begun (.rget f) s)) :
    ∃ t, exec (.rget f) s = .next t ∧
      Wrote s t f.com f.dst f.ty.wide (fun l => ⟨s.src l f.ty (indexSrc f (regIndex f s l)), 0⟩) := by
  obtain ⟨r, hr, role, run⟩ : ∃ r : RoleA, r.d = some f.ty ∧ (Instr.rget f).roleA = some (f, r) ∧ ∀ s, exec (.rget f) s =
      .next (s.issue (.rget f) fun b => indexedOp f false b fun t => t.runA (.rget f) f r (resRget f t)) :=
    ⟨_, rfl, rfl, fun _ => rfl⟩
  obtain ⟨wf, hp, u, hu, issues⟩ := ready
  have names : begun (.rget f) s = s.begin u := by rw [begun, hu]
  obtain ⟨alike, present⟩ := alike_begin s u hp
  obtain ⟨t, done, alike', present'⟩ := indexedOp_done present (names ▸ free) (fun _ => names ▸ clean)
    (fun t => t.runA (.rget f) f r (resRget f t))
  have reads := alike.trans alike'
  have result : resRget f t = fun l => ⟨s.src l f.ty (indexSrc f (regIndex f s l)), 0⟩ := by
    funext l; rw [resRget, reads.src, regIndex_alike reads]; rfl
  have dst := dstOk_of_wfA (wfA_of_wf role rfl wf)
  rw [hr] at dst
  refine ⟨_, (run s).trans (congrArg _ ((issue_issues hu issues _).trans (congrArg _ done))), ?_⟩
  rw [← result]
  exact Wrote.of_alike reads (runA_wrote present' (.rget f) f r hr dst (resRget f t) s.gang.slices)

/-! ## RPUT (R104) -/

/-- One lane's write, and the poison that it clears. -/
def Warp.putAt (w : Warp) (f : OpA) (b : State) (l : Nat) : Warp :=
  (w.put b.who.way true l (indexDst f (regIndex f b l)) f.ty.wide (tC f b l)).cleanDst b.who.way true
    (indexDst f (regIndex f b l)) f.ty.wide (maskOf [l])

theorem putLanes_one {b t : State} (f : OpA) {l : Nat} (hl : l < 32) (who : t.who = b.who) :
    t.putLanes (maskOf [l]) (indexDst f (regIndex f b l)) f.ty.wide (fun l => tC f b l) =
      t.updMy (fun w => w.putAt f b l) := by
  unfold State.putLanes Warp.putAt
  rw [lanesOf_maskOf_one hl, who]
  rfl

/-- Changes of the issuing warp made one after another. -/
theorem State.To.foldl {α : Type} {s : State} {step : State → α → State} {g : Warp → α → Warp} (L : List α)
    (h : ∀ t, t.who = s.who → ∀ a ∈ L, step t a = t.updMy (fun w => g w a)) {t : State} {x : Warp} (ht : State.To s t x) :
    State.To s (L.foldl step t) (L.foldl g x) := by
  induction L generalizing t x with
  | nil => exact ht
  | cons a r ih =>
    rw [List.foldl_cons, List.foldl_cons, h t ht.who a List.mem_cons_self]
    exact ih (fun t who b hb => h t who b (List.mem_cons_of_mem _ hb)) (ht.step _)

theorem Warp.Near.cleanDst (k : Nat) (w : Warp) (d : Dst) (wide : Bool) (ls : Lanes) :
    Warp.Near k w (w.cleanDst k true d wide ls) (w.archOf k).slices (w.archOf k).fstat where
  rest   := (Warp.Kept.cleanDst k w d wide ls).rest
  trap   := (Warp.Kept.cleanDst k w d wide ls).trap
  loop   := (Warp.Kept.cleanDst k w d wide ls).loop
  slices := (Warp.Kept.cleanDst k w d wide ls).slices
  fstat  := (Warp.Kept.cleanDst k w d wide ls).fstat
  gangs  := congrArg _ (Warp.Kept.cleanDst k w d wide ls).gangs
  sfmask := (Warp.Kept.cleanDst k w d wide ls).sfmask
  exited := (Warp.Kept.cleanDst k w d wide ls).exited
  v n l  := (cleanDst_reads k w d wide ls n l).1
  g n    := (cleanDst_reads k w d wide ls n 0).2.1
  p n l  := (cleanDst_reads k w d wide ls n l).2.2.1
  gp n   := (cleanDst_reads k w d wide ls n 0).2.2.2

/-- The poison of a register that the lanes write whole between them. -/
def State.cleanReg (t : State) (f : OpA) (b : State) : Reg → State
  | .v n => t.updMy (fun w => w.cleanDst t.who.way true (indexDst f n) false
      (maskOf ((lanesOf (b.calcLanes f.com)).filter (fun l => (indexed f b l).contains (.v n)))))
  | _ => t

theorem cleanIndexed_eq (f : OpA) (b t : State) : cleanIndexed f b t =
    (distinct ((lanesOf (b.calcLanes f.com)).flatMap (indexed f b))).foldl (fun t r => t.cleanReg f b r) t := by
  have step (t : State) (r : Reg) : t.cleanReg f b r = match r with
    | .v n => t.updMy (fun w => w.cleanDst t.who.way true (indexDst f n) false
        (maskOf ((lanesOf (b.calcLanes f.com)).filter (fun l => (indexed f b l).contains r))))
    | _ => t := by cases r <;> rfl
  simp only [step]
  rfl

/-- Clearing the poison of granules written whole writes no register. -/
theorem cleanIndexed_near {f : OpA} {b t : State} {x : Warp} (ht : State.To b t x) :
    ∃ y, State.To b (cleanIndexed f b t) y ∧
      Warp.Near b.who.way x y (x.archOf b.who.way).slices (x.archOf b.who.way).fstat := by
  rw [cleanIndexed_eq]
  generalize distinct (α := Reg) _ = L
  induction L generalizing t x with
  | nil => exact ⟨x, ht, Warp.Near.refl _ _⟩
  | cons r rs ih =>
    rw [List.foldl_cons]
    cases r with
    | v n =>
      obtain ⟨y, to_end, near⟩ := ih (ht.step fun w => w.cleanDst t.who.way true (indexDst f n) false
        (maskOf ((lanesOf (b.calcLanes f.com)).filter (fun l => (indexed f b l).contains (.v n)))))
      rw [ht.who] at near
      exact ⟨y, to_end, near_chain (Warp.Near.cleanDst _ _ _ _ _) near⟩
    | _ => exact ih ht

/-- The warp after each lane's write. -/
def Warp.putEach (w : Warp) (f : OpA) (b : State) : Warp :=
  (lanesOf (b.calcLanes f.com)).foldl (fun w l => w.putAt f b l) w

section
variable (w : Warp) (f : OpA) (b : State)

theorem Warp.Kept.putAt (l : Nat) : Warp.Kept b.who.way w (w.putAt f b l) :=
  (Warp.Kept.put ..).trans (Warp.Kept.cleanDst ..)

theorem Warp.Kept.putEach : Warp.Kept b.who.way w (w.putEach f b) :=
  Warp.Kept.foldl _ w _ fun w l => Warp.Kept.putAt w f b l

theorem getP_putEach {n : Nat} (j : Nat) (hn : n < 8) :
    (w.putEach f b).getP b.who.way true n j = w.getP b.who.way true n j :=
  foldl_left w _ (fun w => w.getP b.who.way true n j) fun w l => by
    rw [Warp.putAt, (cleanDst_reads ..).2.2.1, getP_put _ _ _ _ _ _ _ hn]
    cases hu : f.com.u <;> simp [indexDst, hu]

theorem getGp_putEach {n : Nat} (hn : n < 8) : (w.putEach f b).getGp b.who.way true n = w.getGp b.who.way true n :=
  foldl_left w _ (fun w => w.getGp b.who.way true n) fun w l => by
    rw [Warp.putAt, (cleanDst_reads _ _ _ _ _ n 0).2.2.2, getGp_put _ _ _ _ _ _ hn]
    cases hu : f.com.u <;> simp [indexDst, hu]

/-- A lane's registers after RPUT, for indexes that are numbers of registers. -/
theorem getV_putEach {n j : Nat} (hj : j < 32)
    (small : f.com.u = false → ∀ l ∈ lanesOf (b.calcLanes f.com), regIndex f b l < 512) :
    (w.putEach f b).getV b.who.way true n j =
      if f.com.u = false ∧ (b.executing f.com).getLsbD j = true ∧ n = regIndex f b j then (tC f b j).setWidth 32
      else if f.com.u = false ∧ (b.executing f.com).getLsbD j = true ∧ f.ty.wide = true ∧ n = regIndex f b j + 1 then
        (tC f b j).extractLsb' 32 32
      else w.getV b.who.way true n j := by
  cases hu : f.com.u with
  | true =>
    simp only [Bool.true_eq_false, false_and, if_false]
    refine foldl_left w _ (fun w => w.getV b.who.way true n j) fun w l => ?_
    rw [Warp.putAt, (cleanDst_reads _ _ _ _ _ n j).1]
    simp only [indexDst, hu, if_true, Warp.put]
    split <;> simp [Warp.getV_setG]
  | false =>
    have lanes : j ∈ lanesOf (b.calcLanes f.com) ↔ (b.executing f.com).getLsbD j = true := by
      rw [mem_lanesOf, State.calcLanes, hu]; simp [hj]
    rw [Warp.putEach, foldl_written w _ (fun w => w.getV b.who.way true n j) j
      (n = regIndex f b j ∨ (f.ty.wide = true ∧ n = regIndex f b j + 1))
      (if n = regIndex f b j then (tC f b j).setWidth 32 else (tC f b j).extractLsb' 32 32) fun w l hl => ?lane]
    case lane =>
      rw [Warp.putAt, (cleanDst_reads _ _ _ _ _ n j).1, getV_put _ _ _ _ _ (lt_of_mem_lanesOf hl) hj]
      simp only [indexDst, hu, Bool.false_eq_true, if_false, Fin.val_ofNat, Nat.mod_eq_of_lt (small hu l hl)]
      rcases eq_or_ne l j with rfl | other
      · by_cases lower : n = regIndex f b l <;> simp [lower]
      · simp [other, other.symm]
    simp only [lanes]
    by_cases lower : n = regIndex f b j <;> simp [lower]

/-- The group's registers after RPUT. -/
theorem getG_putEach (n : Nat) (small : f.com.u = true → regIndex f b b.uLane < 64) :
    (w.putEach f b).getG b.who.way true n =
      if f.com.u = true ∧ n = regIndex f b b.uLane then (tC f b b.uLane).setWidth 32
      else if f.com.u = true ∧ f.ty.wide = true ∧ n = regIndex f b b.uLane + 1 then (tC f b b.uLane).extractLsb' 32 32
      else w.getG b.who.way true n := by
  cases hu : f.com.u with
  | false =>
    simp only [Bool.false_eq_true, false_and, if_false]
    refine foldl_left w _ (fun w => w.getG b.who.way true n) fun w l => ?_
    rw [Warp.putAt, (cleanDst_reads _ _ _ _ _ n 0).2.1, getG_put]
    simp [indexDst, hu]
  | true =>
    have one : lanesOf (b.calcLanes f.com) = [b.uLane] := by
      rw [State.calcLanes, if_pos hu, lanesOf_maskOf_one (uLane_lt b)]
    rw [Warp.putEach, one, List.foldl_cons, List.foldl_nil, Warp.putAt, (cleanDst_reads _ _ _ _ _ n 0).2.1, getG_put]
    simp [indexDst, hu, Nat.mod_eq_of_lt (small hu)]
end

theorem Tab.upd_self {α : Type} (t : Tab α) (k : Nat) : t.upd k (fun x => x) = t := by
  induction t with
  | nil => rfl
  | cons p r ih =>
    obtain ⟨j, x⟩ := p
    by_cases h : j = k <;> simp [Tab.upd, h, ih]

theorem State.To.refl (s : State) : State.To s s s.wWarp :=
  ⟨fun w => w, by rw [State.updMy, State.updWarp, Tab.upd_self], rfl⟩

/-- Going on by one word from slices that are still those of `w`. -/
theorem Warp.After.goOn {k : Nat} {w x : Warp} {fs : Word} (a : Warp.After k w x (w.archOf k).slices fs) (i : Nat) :
    Warp.After k w (x.updArch k (Arch.goOn i)) ((w.archOf k).goOn i).slices fs := by
  have on := a.near (Warp.Near.goOn k i x)
  rwa [a.fstat, goOn_congr (x.archOf k) (w.archOf k) i a.slices a.gangs] at on

/-- RPUT's end: the word has gone on by one, and its registers read as its lanes wrote them. -/
theorem putIndexed_ends {f : OpA} {b : State} (hp : Present b) (sl : BitVec 8) :
    ∃ x sl' fs, WroteOnly b ((putIndexed f b).clearLate sl).finish x ∧
      Warp.Near b.who.way (b.wWarp.putEach f b) x sl' fs := by
  let step (t : State) (l : Nat) : State :=
    t.putLanes (maskOf [l]) (indexDst f (regIndex f b l)) f.ty.wide (fun l => tC f b l)
  have whole : putIndexed f b = (cleanIndexed f b ((lanesOf (b.calcLanes f.com)).foldl step b)).advance := rfl
  have puts : State.To b ((lanesOf (b.calcLanes f.com)).foldl step b) (b.wWarp.putEach f b) :=
    State.To.foldl (step := step) (g := fun w l => w.putAt f b l) _
      (fun t who l hl => putLanes_one f (lt_of_mem_lanesOf hl) who) (State.To.refl b)
  obtain ⟨y, cleaned, near⟩ := cleanIndexed_near (f := f) puts
  have after := (((Warp.Near.refl b.who.way b.wWarp).after.kept (Warp.Kept.putEach _ f b)).quiet near).goOn b.who.slice
  have on : State.To b (putIndexed f b) (y.updArch b.who.way (Arch.goOn b.who.slice)) := by
    rw [whole, State.advance_eq, cleaned.who]
    exact cleaned.step _
  exact ⟨_, _, _, wroteOnly_of hp on after sl, near.trans (Warp.Near.goOn _ _ _)⟩

theorem topIndex_lt {f : OpA} {b : State} (free : IndexFree f b) (alloc : b.wWarp.alloc ≤ 512) :
    (f.com.u = false → ∀ l ∈ lanesOf (b.calcLanes f.com), regIndex f b l < 512) ∧
    (f.com.u = true → regIndex f b b.uLane < 64) := by
  refine ⟨fun hu l hl => ?_, fun hu => ?_⟩
  · have bound := free.bound l hl
    simp only [hu, Bool.false_eq_true, if_false, topIndex] at bound
    omega
  · have lane : b.uLane ∈ lanesOf (b.calcLanes f.com) := by
      rw [State.calcLanes, if_pos hu, lanesOf_maskOf_one (uLane_lt b)]; exact List.mem_singleton_self _
    have bound := free.bound b.uLane lane
    simp only [hu, if_true, topIndex] at bound
    omega

/-- Wherever its indexes are free and the allocation is at most the 512 registers there are (R61), RPUT writes in each lane
the register, or the pair, that the lane's index names, and nothing else. -/
theorem rput_completes {f : OpA} {s : State} (ready : Ready (.rput f) s) (free : IndexFree f (begun (.rput f) s))
    (alloc : s.wWarp.alloc ≤ 512) :
    ∃ t, exec (.rput f) s = .next t ∧ OnlyRegisters s t ∧ WentOn s t ∧
      (∀ n l, l < 32 → vreg t n l =
        if f.com.u = false ∧ (s.executing f.com).getLsbD l = true ∧ n = regIndex f s l then (tC f s l).setWidth 32
        else if f.com.u = false ∧ (s.executing f.com).getLsbD l = true ∧ f.ty.wide = true ∧ n = regIndex f s l + 1 then
          (tC f s l).extractLsb' 32 32
        else vreg s n l) ∧
      (∀ n, greg t n =
        if f.com.u = true ∧ n = regIndex f s s.uLane then (tC f s s.uLane).setWidth 32
        else if f.com.u = true ∧ f.ty.wide = true ∧ n = regIndex f s s.uLane + 1 then (tC f s s.uLane).extractLsb' 32 32
        else greg s n) ∧
      (∀ n l, n < 8 → l < 32 → preg t n l = preg s n l) ∧ (∀ n, n < 8 → gpreg t n = gpreg s n) ∧
      t.arch.fstat = s.arch.fstat := by
  obtain ⟨-, hp, u, hu, issues⟩ := ready
  have names : begun (.rput f) s = s.begin u := by rw [begun, hu]
  rw [names] at free
  obtain ⟨alike, present⟩ := alike_begin s u hp
  obtain ⟨b, done, alike', present'⟩ := indexedOp_done (write := true) present free (fun h => nomatch h) (putIndexed f)
  have reads := alike.trans alike'
  obtain ⟨x, _, _, wrote, near⟩ := putIndexed_ends (f := f) present' s.gang.slices
  have lanes : b.calcLanes f.com = (s.begin u).calcLanes f.com := alike'.calcLanes f.com
  have index : ∀ l, regIndex f b l = regIndex f (s.begin u) l := regIndex_alike alike' f
  have same_alloc : (s.begin u).wWarp.alloc ≤ 512 := by
    have e := congrArg Warp.alloc alike.warp.rest
    exact le_of_eq_of_le e alloc
  obtain ⟨smallV, smallG⟩ := topIndex_lt free same_alloc
  have run : exec (.rput f) s = .next (s.issue (.rput f) fun b => indexedOp f true b (putIndexed f)) := rfl
  rw [issue_issues hu issues, done] at run
  refine ⟨_, run, OnlyRegisters.of_alike reads wrote.toOnlyRegisters, WentOn.of_alike reads wrote.toWentOn,
    fun n l hl => ?v, fun n => ?g, fun n l hn hl => ?p, fun n hn => ?gp,
    wrote.flags.trans (fstat_alike reads)⟩
  case v =>
    rw [← reads.executing, ← regIndex_alike reads, ← tC_alike reads, ← reads.vreg]
    refine ((wrote.v n l).trans (near.v n l)).trans (getV_putEach _ f b hl ?_)
    simpa only [lanes, index] using smallV
  case g =>
    rw [← reads.uLane, ← regIndex_alike reads, ← tC_alike reads, ← reads.greg]
    refine ((wrote.g n).trans (near.g n)).trans (getG_putEach _ f b n ?_)
    simpa only [index, alike'.uLane] using smallG
  case p =>
    rw [← reads.preg]
    exact ((wrote.p n l).trans (near.p n l)).trans (getP_putEach _ f b l hn)
  case gp =>
    rw [← reads.gpreg]
    exact ((wrote.gp n).trans (near.gp n)).trans (getGp_putEach _ f b hn)

/-! ## The statement -/

/-- A part whose one warp has an allocation of `n` registers in each lane. -/
def allocated (n : Nat) : State :=
  ({ State.reset with clk := { time := 1000 } }.withFetchWord 96 0).updWarp 0 (fun w => { w with alloc := n })

/-- RPUT of 5 to the register of index `n` in every lane. -/
def putAt (n : BitVec 11) : OpA := ⟨⟨false, 0, false⟩, false, 0, 0, .v 0, .imm n, .imm 0, .imm 5, .u32, .rn, 0⟩

/-- The conditions of `rput_completes` are met. -/
theorem rput_completes_witness : Ready (.rput (putAt 8)) (allocated 64) ∧
    IndexFree (putAt 8) (begun (.rput (putAt 8)) (allocated 64)) ∧ (allocated 64).wWarp.alloc ≤ 512 where
  left := ⟨by decide, by unfold Present; decide +kernel, _, rfl, by decide +kernel, .inr (by decide +kernel)⟩
  right := ⟨⟨by decide +kernel, by decide +kernel⟩, by decide +kernel⟩

theorem ready_putAt_600 : Ready (.rput (putAt 600)) (allocated 1024) :=
  ⟨by decide, by unfold Present; decide +kernel, _, rfl, by decide +kernel, .inr (by decide +kernel)⟩

/-- With 1,024 registers allocated the index 600 is free in every lane. -/
theorem indexFree_putAt_600 : IndexFree (putAt 600) (begun (.rput (putAt 600)) (allocated 1024)) :=
  ⟨by decide +kernel, by decide +kernel⟩

/-- The write goes to the register of index 600 modulo 512; what is read at index 600 stays 0. -/
theorem exec_putAt_600 : ∃ t, exec (.rput (putAt 600)) (allocated 1024) = .next t ∧ vreg t 600 0 = 0 ∧ vreg t 88 0 = 5 :=
  ⟨_, rfl, by decide +kernel⟩

/-- Refutes O5: with an allocation of 1,024 the index 600 passes its bound, but no register has that number. R61 allocates at
most 512 registers, and the statement does not say so; with that bound `rput_completes` holds, and `rget_completes` needs
none. -/
theorem not_indexedRegistersComplete : ¬ Obligations.IndexedRegistersComplete := by
  unfold Obligations.IndexedRegistersComplete
  intro h
  obtain ⟨t, run, -, -, written, -⟩ := (h (putAt 600) (allocated 1024)).2 ready_putAt_600 fun l hl =>
    ⟨.inl (by revert l; decide +kernel), indexFree_putAt_600.idle l hl⟩
  obtain ⟨t', run', left, -⟩ := exec_putAt_600
  obtain rfl : t = t' := Host.Outcome.next.inj (run.symm.trans run')
  have executes : ((allocated 1024).executing (putAt 600).com).getLsbD 0 = true := by decide +kernel
  have five := written 600 0 (by decide)
  rw [if_pos ⟨rfl, executes, rfl⟩, left] at five
  exact absurd five (by decide +kernel)

end Sys2Proof.Machine
end

section
/-! PROOF. Accesses that are not aligned to their size (R119, R148, R202): the first test of R148 fails before any other is
made, and the word traps in the lanes whose addresses are misaligned. -/

namespace Sys2Proof.Machine
open Sys2Proof.Safety

/-! ## The trap of a test that some lane fails (R148) -/

/-- The trap of the lanes that fail a test, with their addresses. -/
def failTrap (cause kind : Nat) (as : List (Nat × Nat)) (bad : Nat × Nat → Bool) : Trap where
  cause := cause
  lanes := maskOf ((as.filter bad).map (·.1))
  kind := kind
  addr := (as.filter bad).foldl (fun t p => t.set 0 p.1 (BitVec.ofNat 64 p.2)) []

theorem failing_of_any {cause kind : Nat} {as : List (Nat × Nat)} {bad : Nat × Nat → Bool} (h : as.any bad = true) :
    failing cause kind as bad = some (failTrap cause kind as bad) := by
  unfold failing failTrap
  cases hf : as.filter bad with
  | nil => exact absurd h (by simpa using hf)
  | cons p r => rfl

/-- A table of what a function gives at some keys reads as the function at each of them. -/
theorem get_foldl_set {α : Type} [DecidableEq α] (d : α) (g : Nat → α) (ls : List Nat) (t : Tab α) (l : Nat) :
    Tab.get d (ls.foldl (fun t k => t.set d k (g k)) t) l = if l ∈ ls then g l else Tab.get d t l := by
  induction ls generalizing t with
  | nil => simp
  | cons k r ih =>
    rw [List.foldl_cons, ih, Tab.get_set]
    by_cases hr : l ∈ r <;> by_cases hk : l = k <;> simp [hr, hk]

section
variable (cause kind : Nat) (g : Nat → Nat) (bad : Nat × Nat → Bool) {ls : List Nat} {l : Nat}

/-- The lanes that trap are those that fail the test. -/
theorem getLsbD_failTrap_lanes (hl : l < 32) :
    (failTrap cause kind (ls.map (fun l => (l, g l))) bad).lanes.getLsbD l = (ls.contains l && bad (l, g l)) := by
  rw [failTrap, getLsbD_maskOf _ hl, List.filter_map, List.map_map]
  simp [Function.comp_def]

/-- Each of them is given its own address. -/
theorem get_failTrap_addr (hm : ls.contains l = true) (hb : bad (l, g l) = true) :
    (failTrap cause kind (ls.map (fun l => (l, g l))) bad).addr.get 0 l = BitVec.ofNat 64 (g l) := by
  rw [failTrap, List.filter_map, List.foldl_map]
  refine (get_foldl_set 0 (fun l => BitVec.ofNat 64 (g l)) _ _ l).trans (if_pos ?_)
  exact List.mem_filter.2 ⟨List.contains_iff_mem.1 hm, hb⟩

end

/-! ## A misaligned access (R119, R148) -/

/-- The lanes that a memory word's addresses belong to; of a U form the one that stands for the gang. -/
def State.addrLanes (b : State) (f : OpM) : List Nat := if f.com.u then [b.uLane] else lanesOf (b.executing f.com)

/-- An access of `n` bytes in some lane is not aligned to its size. -/
def State.misaligned (b : State) (f : OpM) (n : Nat) (off : Int) : Prop :=
  (b.addrLanes f).any (fun l => !alignedTo (b.addrOf f off l) n) = true

/-- The trap that a misaligned access takes: 0x09, in every active lane of a U form. -/
def State.alignTrap (b : State) (f : OpM) (n kind : Nat) (off : Int) : Trap :=
  b.widen f.com.u (failTrap 0x09 kind (b.addrs f off) (fun p => !alignedTo p.2 n))

section
variable (b : State) (f : OpM) (n kind : Nat) (off : Int)

@[simp] theorem State.widen_cause (u : Bool) (t : Trap) : (b.widen u t).cause = t.cause := by
  cases u <;> rfl

@[simp] theorem State.alignTrap_cause : (b.alignTrap f n kind off).cause = 0x09 := b.widen_cause f.com.u _

theorem State.addrs_eq : b.addrs f off = (b.addrLanes f).map (fun l => (l, b.addrOf f off l)) := rfl

theorem State.getLsbD_alignTrap_lanes {l : Nat} (hl : l < 32) : (b.alignTrap f n kind off).lanes.getLsbD l =
    if f.com.u then b.active.getLsbD l else (b.addrLanes f).contains l && !alignedTo (b.addrOf f off l) n := by
  unfold State.alignTrap
  cases f.com.u with
  | true => rfl
  | false => exact getLsbD_failTrap_lanes _ _ _ _ hl

theorem State.get_alignTrap_addr {l : Nat} (hu : f.com.u = false) (hm : (b.addrLanes f).contains l = true)
    (hb : (!alignedTo (b.addrOf f off l) n) = true) :
    (b.alignTrap f n kind off).addr.get 0 l = BitVec.ofNat 64 (b.addrOf f off l) := by
  unfold State.alignTrap
  rw [hu]
  exact get_failTrap_addr _ _ _ _ hm hb

end

/-- Alignment is the first test, wherever the addresses lie. -/
theorem accs_misaligned {b : State} {f : OpM} {n : Nat} {off : Int} (h : b.misaligned f n off) (w : Want) (kind : Nat) :
    b.accs f w n kind off = .error (b.alignTrap f n kind off) := by
  have any : (b.addrs f off).any (fun p => !alignedTo p.2 n) = true := by
    rw [State.addrs_eq, List.any_map]
    exact h
  simp only [State.accs, State.resolve, failing_of_any any, firstTrap]
  rfl

/-- No address has been translated, so no walk is entered with the trap. -/
theorem State.walkTrap_alignTrap (b : State) (f : OpM) (n kind : Nat) (off : Int) :
    b.walkTrap f off (b.alignTrap f n kind off) = .trap (b.alignTrap f n kind off) := by
  simp [State.walkTrap]

/-! ## The words that take it -/

section
variable (f : OpM)

theorem traps_ld_misaligned :
    Traps (.ld f) (fun b => b.misaligned f f.size.bytes f.off.toInt) (fun b => b.alignTrap f f.size.bytes 0 f.off.toInt) :=
  traps_of (fun _ => rfl) fun b _ h => by
    rw [State.load, OpM.off24, accs_misaligned h]
    exact b.walkTrap_alignTrap ..

theorem traps_st_misaligned :
    Traps (.st f) (fun b => b.misaligned f f.size.bytes f.off.toInt) (fun b => b.alignTrap f f.size.bytes 1 f.off.toInt) :=
  traps_of (fun _ => rfl) fun b _ h => by
    rw [State.store, OpM.off24, accs_misaligned h]
    exact b.walkTrap_alignTrap ..

/-- An atomic word of an oldest way, whatever it computes. -/
theorem traps_atomic_misaligned {i : Instr} {w : Want} {off : Int} {k : ReqKind} {traps : Bool}
    {val cmp : State → Nat → Nat} (he : ∀ s, exec i s = .next (s.atomic i f w off k traps val cmp)) :
    Traps i (fun b => b.youngWay = false ∧ b.misaligned f f.size.bytes off) (fun b => b.alignTrap f f.size.bytes 1 off) :=
  traps_of he fun b _ ⟨old, h⟩ => by
    rw [State.oldestOnly, old, accs_misaligned h]
    exact b.walkTrap_alignTrap ..

end

/-- The cause, the lanes and each lane's address where a word takes the trap; `q` is its format without a source that is no
index. -/
theorem alignTrap_spec {i : Instr} {s : State} {f q : OpM} {kind : Nat} {off : Int} (com : q.com = f.com)
    (run : exec i s = .next (s.trap ((begun i s).alignTrap q f.size.bytes kind off))) :
    let b := begun i s
    let bad (l : Nat) : Bool := b.addrOf q off l % f.size.bytes != 0
    let ls := if f.com.u then [b.uLane] else lanesOf (b.executing f.com)
    ∃ t : Trap, exec i s = .next (s.trap t) ∧ t.cause = 0x09 ∧
      (∀ l, l < 32 → t.lanes.getLsbD l = if f.com.u then b.active.getLsbD l else ls.contains l && bad l) ∧
      (f.com.u = false → ∀ l, ls.contains l = true → bad l = true → t.addr.get 0 l = BitVec.ofNat 64 (b.addrOf q off l)) := by
  rw [← com]
  exact ⟨_, run, State.alignTrap_cause .., fun _ hl => State.getLsbD_alignTrap_lanes _ _ _ _ _ hl,
    fun hu _ hm hb => State.get_alignTrap_addr _ _ _ _ _ hu hm hb⟩

/-- Settles O53: the alignment test comes before every other (R148), so the word traps with nothing translated and no
access made. -/
theorem misalignedAccessesTrap : Obligations.MisalignedAccessesTrap := by
  unfold Obligations.MisalignedAccessesTrap
  intro f i off form s ready old q bad ls mis
  have format : q = if i = .cas f then noIndex f else f := rfl
  clear_value q
  rcases form with form | form | form | form | form | form <;> obtain ⟨rfl, rfl⟩ := Prod.mk.inj form
  · obtain rfl : q = f := format.trans (if_neg nofun)
    exact alignTrap_spec rfl (traps_ld_misaligned q s ready mis)
  · obtain rfl : q = f := format.trans (if_neg nofun)
    exact alignTrap_spec rfl (traps_st_misaligned q s ready mis)
  all_goals replace old : (begun _ s).youngWay = false := old.resolve_left nofun |>.resolve_left nofun
  · obtain rfl : q = noIndex f := format.trans (if_pos rfl)
    exact alignTrap_spec rfl (traps_atomic_misaligned (noIndex f) (fun _ => rfl) s ready ⟨old, mis⟩)
  all_goals
    obtain rfl : q = f := format.trans (if_neg nofun)
    exact alignTrap_spec rfl (traps_atomic_misaligned q (fun _ => rfl) s ready ⟨old, mis⟩)

end Sys2Proof.Machine
end

section
/-! PROOF. What reaches the part from outside (R122, R181, R188, R362, R368, R378, R379, R406, R409): accesses through the
BARs, configuration space, register accesses, and accesses of other parts. -/

namespace Sys2Proof.Machine
open Sys2Proof.Safety

/-! ## BARs (R378, R406) -/

/-- The control BAR serves an aligned word or double, and before READY only a read of the capability and identification
registers. -/
theorem State.controlBar_eq (s : State) (a : HostAcc) : s.controlBar a =
    if (a.len = 4 ∨ a.len = 8) ∧ a.addr % a.len = 0 ∧ (s.plat.ready = true ∨ (a.bytes = [] ∧ a.addr < 0x0C0)) then
      if a.bytes = [] then s.regRead (ctlBase + a.addr) a.len
      else (s.regWrite (ctlBase + a.addr) a.len (leNat a.bytes)).answerWith { ok := true }
    else s.unsupported := by
  unfold State.controlBar
  have sized : ((a.len == 4 || a.len == 8) && a.addr % a.len == 0) = true ↔ (a.len = 4 ∨ a.len = 8) ∧ a.addr % a.len = 0 := by
    simp
  by_cases fits : (a.len = 4 ∨ a.len = 8) ∧ a.addr % a.len = 0
  · rw [if_neg (by rw [sized.2 fits]; decide), accWr]
    cases hb : a.bytes <;> cases hr : s.plat.ready <;> simp only [fits] <;> simp
  · rw [if_pos (by rw [Bool.eq_false_iff.2 (mt sized.1 fits)]; rfl), if_neg (fun h => fits ⟨h.1, h.2.1⟩)]

section
variable {fn : Nat} {a : HostAcc} {s : State} (hfn : fn < 16) (hlen : a.len ≠ 0)
  (hbytes : a.bytes = [] ∨ a.bytes.length = a.len) (hlink : s.link.down = false) (hkeys : s.carries fn = true)
include hfn hlen hbytes hlink hkeys

/-- The conditions under which a function's accesses arrive. -/
theorem hostBar_arrives :
    (16 ≤ fn || a.len == 0 || !(a.bytes.isEmpty || a.bytes.length == a.len) || s.link.down || !s.carries fn) = false := by
  have carried : (a.bytes.isEmpty || a.bytes.length == a.len) = true := by simpa using hbytes
  simp [hfn, hlen, hlink, hkeys, carried]

theorem execHostBarAccess_control (h0 : fn = 0) (hend : a.addr + a.len ≤ 2 ^ 39) :
    execHostBarAccess fn true a s = .next (s.controlBar a) := by
  unfold execHostBarAccess
  rw [hostBar_arrives hfn hlen hbytes hlink hkeys]
  exact onlyIf_eq_next _ _ (by simpa [h0] using hend)

/-- A memory window answers Unsupported Request before READY, logs what the function's tree refuses, and lets the pieces of
the rest arrive at their homes. -/
theorem execHostBarAccess_window (hend : a.addr + a.len ≤ 2 ^ 36) :
    execHostBarAccess fn false a s = .next (
      if s.plat.ready = false then s.unsupported
      else match s.window fn a with
        | some ls => s.arriveAll a.pois ls a.bytes
        | none => s.refuseHost fn a.addr) := by
  unfold execHostBarAccess
  rw [hostBar_arrives hfn hlen hbytes hlink hkeys]
  simp only [Nat.not_lt.2 hend]
  cases s.plat.ready <;> cases s.window fn a <;> rfl

end

/-! ## Configuration space (R368, R406) -/

theorem execConfigurationAccess_of_lt {fn : Nat} (hfn : fn < 16) (a : CfgAcc) (s : State) :
    execConfigurationAccess fn a s = .next (match a with
      | .read => s
      | .enablePri on => (s.updTenant fn (fun t => { t with pri := on })).roomFor fn s.waits
      | .setAllow n => (s.updTenant fn (fun t => { t with prallow := n.toNat })).roomFor fn s.waits) := by
  unfold execConfigurationAccess
  rw [if_neg (Nat.not_le.2 hfn)]
  cases a <;> rfl

/-! ## Register accesses (R362, R374, R379, R409) -/

/-- The agent may reach registers now; the supervisor writes no tenant block. -/
def agentMay (g : Agent) (off : Nat) (write : Bool) (s : State) : Bool :=
  match g with
  | .supervisor => s.plat.ready && !(isBlock off && write)
  | .appCore => 2 ≤ s.plat.bstage && !s.plat.fail
  | .host => s.plat.ready && !s.link.down && s.carries 0

/-- A register of the control space written, or read with an answer. -/
def State.regAccess (s : State) (off n : Nat) : Option Double → State
  | some v => s.ctlWrite off n v.toNat
  | none => s.regRead off n

section
variable {g : Agent} {off : Nat} {wide : Bool} {v : Option Double} {s : State} (may : agentMay g off v.isSome s = true)
  (aligned : off % (if wide then 8 else 4) = 0)
include may aligned

theorem execRegisterWrite_control (hc : isCtl off = true) :
    execRegisterWrite g off wide v s = .next (s.regAccess off (if wide then 8 else 4) v) := by
  have enters : (!agentMay g off v.isSome s || off % (if wide then 8 else 4) != 0) = false := by simp [may, aligned]
  refine (if_neg (Bool.eq_false_iff.1 enters)).trans ((if_pos hc).trans ?_)
  cases v <;> rfl

/-- Memory that is there is reached by an application core (log 144). -/
theorem execRegisterWrite_memory (hc : isCtl off = false) (hg : g = .appCore)
    (there : (isDev off = true ∧ s.stackAbsent (stackOf (lineOf off)) = false) ∨ (isHost off = true ∧ s.link.down = false)) :
    execRegisterWrite g off wide v s = .next (s.appMemory off (if wide then 8 else 4) v) := by
  unfold execRegisterWrite
  have enters : (!agentMay g off v.isSome s || off % (if wide then 8 else 4) != 0) = false := by simp [may, aligned]
  refine (if_neg (Bool.eq_false_iff.1 enters)).trans ((if_neg (Bool.eq_false_iff.1 hc)).trans ?_)
  exact onlyIf_eq_next _ _ (by subst hg; simpa using there)

end

/-! ## Other parts (R122, R181, R188) -/

/-- What carries as many bytes as its length, which is not 0, is no read. -/
theorem peer_bytes_ne_nil {a : PeerAcc} (hlen : a.len ≠ 0) (hbytes : a.bytes.length = a.len) : a.bytes ≠ [] :=
  List.ne_nil_of_length_pos (hbytes ▸ Nat.pos_of_ne_zero hlen)

section
variable {a : PeerAcc} {s : State} (ready : s.plat.ready = true) (hlen : a.len ≠ 0)
include ready hlen

theorem execPeerAccess_read (hbytes : a.bytes = []) (hop : a.op = none) : execPeerAccess a s = .next s := by
  simp [execPeerAccess, ready, hlen, hbytes, hop]

variable (hbytes : a.bytes.length = a.len)
include hbytes

theorem execPeerAccess_store (hop : a.op = none) :
    execPeerAccess a s = .next (s.peerStore a.part (s.peerLocs a 1) a.bytes) := by
  simp [execPeerAccess, ready, hlen, hbytes, hop, peer_bytes_ne_nil hlen hbytes]

/-- An update of anything but one piece of a line is refused, and changes nothing (log 99). -/
theorem execPeerAccess_scattered {op : Nat} (hop : a.op = some op) (hl : ∀ p, s.peerLocs a 1 ≠ [p]) :
    execPeerAccess a s = .next s := by
  have carries := peer_bytes_ne_nil hlen hbytes
  rcases pieces : s.peerLocs a 1 with - | ⟨p, - | ⟨p', r⟩⟩
  · simp [execPeerAccess, ready, hlen, hbytes, hop, carries, pieces]
  · exact absurd pieces (hl p)
  · simp [execPeerAccess, ready, hlen, hbytes, hop, carries, pieces]

/-- An update of one piece: code 16 adds bytes to a barrier object (log 99), a code of R157 but 8 updates an aligned word or
double, and everything else is refused. -/
theorem execPeerAccess_update {op ta n : Nat} (hop : a.op = some op) (hl : s.peerLocs a 1 = [(ta, n)]) :
    execPeerAccess a s = .next (
      if op = 16 then (if ta % 16 = 0 then s.peerWrite a.part .barAdd ta 16 (leNat a.bytes) else s)
      else if op < 12 ∧ op ≠ 8 ∧ (n = 4 ∨ n = 8) ∧ ta % n = 0 then s.peerWrite a.part (.red op) ta n (leNat a.bytes)
      else s) := by
  have carries := peer_bytes_ne_nil hlen hbytes
  by_cases h16 : op = 16
  · subst h16
    by_cases aligned : ta % 16 = 0 <;> simp [execPeerAccess, ready, hlen, hbytes, hop, hl, carries, aligned]
  · simp [execPeerAccess, ready, hlen, hbytes, hop, hl, carries, h16, and_assoc]

end

/-! ## The statement -/

/-- Settles O33: the equations above, at the conditions that the statement names. Code 16, what a refused peer access
changes (log 99) and the form of an application core's access to memory (log 144) are the model's. -/
theorem outsideAccessesComplete : Obligations.OutsideAccessesComplete := by
  unfold Obligations.OutsideAccessesComplete
  intro answered read
  refine ⟨fun fn a s hfn hlen hbytes hlink hkeys => ⟨fun hend => ?window, fun h0 hend => ?control⟩,
    fun fn s hfn => ⟨execConfigurationAccess_of_lt hfn .read s, fun on => execConfigurationAccess_of_lt hfn (.enablePri on) s,
      fun n => execConfigurationAccess_of_lt hfn (.setAllow n) s⟩,
    fun off wide s => ?registers,
    fun a s ready hlen hbytes => ⟨execPeerAccess_store ready hlen hbytes, fun op => execPeerAccess_scattered ready hlen hbytes,
      fun op ta n => execPeerAccess_update ready hlen hbytes⟩,
    fun a s => execPeerAccess_read⟩
  case window => exact execHostBarAccess_window hfn hlen hbytes hlink hkeys hend
  case control =>
    exact (execHostBarAccess_control hfn hlen hbytes hlink hkeys h0 hend).trans (congrArg _ (s.controlBar_eq a))
  case registers =>
    intro n done app aligned
    refine ⟨fun hc v => ?control, fun hc ⟨stage, sound⟩ there => ?memory⟩
    case control =>
      have reached (g : Agent) (may : agentMay g off v.isSome s = true) :
          exec (.registerWrite g off wide v) s = .next (done v) :=
        (execRegisterWrite_control may aligned hc).trans (by cases v <;> rfl)
      refine ⟨fun ready block => reached .supervisor ?_, fun ⟨stage, sound⟩ => reached .appCore ?_,
        fun ready hlink hkeys => reached .host ?_⟩
      · rcases block with outside | rfl
        · simp [agentMay, ready, outside]
        · simp [agentMay, ready]
      · simp [agentMay, stage, sound]
      · simp [agentMay, ready, hlink, hkeys]
    case memory =>
      have may (v : Option Double) : agentMay .appCore off v.isSome s = true := by simp [agentMay, stage, sound]
      exact ⟨execRegisterWrite_memory (may none) aligned hc rfl there,
        fun v => execRegisterWrite_memory (may (some v)) aligned hc rfl there⟩

end Sys2Proof.Machine
end

section
/-! PROOF. Writes that are performed (R133 to R136): the bytes that a store carries, and what a write changes at a die's
home point or at its home; operations that change nothing a line's value is read from. -/

namespace Sys2Proof.Machine

/-! ## Tables of bytes -/

theorem Tab.find_erase_ne {α : Type} (t : Tab α) {k j : Nat} (h : j ≠ k) : (t.erase k).find j = t.find j := by
  induction t with
  | nil => rfl
  | cons p r ih =>
    obtain ⟨i, x⟩ := p
    by_cases hi : i = k
    · simp [Tab.erase, Tab.find, hi, ih, h.symm]
    · simp [Tab.erase, Tab.find, hi, ih]

/-- What is found after an entry has been put. -/
theorem Tab.find_put {α : Type} (t : Tab α) (k j : Nat) (v : α) :
    (t.put k v).find j = if j = k then some v else t.find j := by
  unfold Tab.put
  induction t with
  | nil => simp [Tab.erase, Tab.insert, Tab.find, eq_comm]
  | cons p r ih =>
    obtain ⟨i, x⟩ := p
    by_cases hi : i = k
    · by_cases hj : j = k
      · subst hj
        simpa [Tab.erase, hi] using ih
      · simp [Tab.erase, Tab.find, ih, hi, hj, Ne.symm hj]
    · by_cases hj : j = k
      · subst hj
        by_cases hlt : j < i <;> simp [Tab.erase, Tab.insert, Tab.find, hi, hlt, ih]
      · by_cases hlt : k < i <;> simp [Tab.erase, Tab.insert, Tab.find, hi, hlt, ih, hj, Ne.symm hj, Tab.find_erase_ne]

theorem Tab.find_eq_none {α : Type} {t : Tab α} {k : Nat} (h : k ∉ t.map Prod.fst) : t.find k = none := by
  induction t with
  | nil => rfl
  | cons p r ih =>
    obtain ⟨i, x⟩ := p
    simp only [List.map_cons, List.mem_cons, not_or] at h
    simp [Tab.find, Ne.symm h.1, ih h.2]

/-- Bytes set from a table that lists each place once: what the table holds for a place, else what was there. -/
theorem get_setBytes {bs : Tab Byte} (once : (bs.map Prod.fst).Nodup) (t : Tab Byte) (a : Nat) :
    (setBytes t bs).get 0 a = (bs.find a).getD (t.get 0 a) := by
  unfold setBytes
  induction bs generalizing t with
  | nil => rfl
  | cons p r ih =>
    obtain ⟨i, x⟩ := p
    obtain ⟨fresh, once⟩ := List.nodup_cons.1 once
    rw [List.foldl_cons, ih once, Tab.get_set]
    by_cases ha : i = a
    · subst ha
      simp [Tab.find, Tab.find_eq_none fresh]
    · simp [Tab.find, ha, Ne.symm ha]

/-- A run of places put in a table. -/
theorem find_foldl_put {α : Type} (ta n : Nat) (g : Nat → α) (t : Tab α) (a : Nat) :
    Tab.find ((List.range n).foldl (fun t i => t.put (ta + i) (g i)) t) a =
      if ta ≤ a ∧ a < ta + n then some (g (a - ta)) else t.find a := by
  induction n with
  | zero => simp
  | succ n ih =>
    rw [List.range_succ, List.foldl_append, List.foldl_cons, List.foldl_nil, Tab.find_put, ih]
    by_cases last : a = ta + n
    · simp [last]
    · have inner : ta ≤ a ∧ a < ta + (n + 1) ↔ ta ≤ a ∧ a < ta + n := by omega
      simp [last, inner]

/-- A store carries the bytes of its lanes; where lanes overlap the last one's count (R149). -/
theorem find_storedBytes (as : List Acc) (a : Nat) :
    (storedBytes as).find a = ((as.filter (fun c => c.ta ≤ a && a < c.ta + c.len)).getLast?).map (fun c =>
      BitVec.ofNat 8 (c.val / 256 ^ (a - c.ta))) := by
  unfold storedBytes
  induction as using List.reverseRecOn with
  | nil => rfl
  | append_singleton as c ih =>
    rw [List.foldl_append, List.foldl_cons, List.foldl_nil, find_foldl_put, ih, List.filter_append]
    by_cases h : c.ta ≤ a ∧ a < c.ta + c.len <;> simp [h]

/-! ## Operations that leave every line's value -/

/-- Nothing that a line's value is read from has changed: memory, messages, the directory, the dies' lines. -/
structure State.SameLines (s t : State) : Prop where
  mem : t.mem = s.mem
  net : t.net = s.net
  dir : t.dir = s.dir
  l2  : ∀ d l, t.l2 d l = s.l2 d l

theorem State.l2_updL2 (s : State) (d l : Nat) (f : L2Line → L2Line) (e m : Nat) :
    (s.updL2 d l f).l2 e m = if e = d ∧ m = l then f (s.l2 d l) else s.l2 e m := by
  unfold State.l2 State.die State.updL2
  rw [State.updDie_dies, Tab.get_modify]
  by_cases he : e = d <;> simp [he, Tab.get_modify]

section
variable {s t u : State}

theorem State.SameLines.refl (s : State) : s.SameLines s := ⟨rfl, rfl, rfl, fun _ _ => rfl⟩

theorem State.SameLines.trans (a : s.SameLines t) (b : t.SameLines u) : s.SameLines u :=
  ⟨b.mem.trans a.mem, b.net.trans a.net, b.dir.trans a.dir, fun d l => (b.l2 d l).trans (a.l2 d l)⟩

theorem State.SameLines.of_dies (mem : t.mem = s.mem) (net : t.net = s.net) (dir : t.dir = s.dir) (dies : t.dies = s.dies) :
    s.SameLines t :=
  ⟨mem, net, dir, fun d l => by simp only [State.l2, State.die, dies]⟩

theorem State.SameLines.ite {c : Prop} [Decidable c] (ht : s.SameLines t) (hu : s.SameLines u) :
    s.SameLines (if c then t else u) := by
  split
  · exact ht
  · exact hu

theorem State.SameLines.foldl {α : Type} {f : State → α → State} (L : List α) (h : ∀ (t : State) a, t.SameLines (f t a)) (s : State) :
    s.SameLines (L.foldl f s) := by
  induction L generalizing s with
  | nil => exact .refl s
  | cons a r ih => exact (h s a).trans (ih (f s a))

theorem State.SameLines.updL2 (h : s.SameLines t) (d l : Nat) (f : L2Line → L2Line) :
    (s.updL2 d l f).SameLines (t.updL2 d l f) :=
  ⟨h.mem, h.net, h.dir, fun e m => by rw [State.l2_updL2, State.l2_updL2, h.l2, h.l2]⟩

theorem State.SameLines.wake (s : State) (id status : Nat) (v : Word) : s.SameLines (s.wake id status v) := by
  unfold State.wake
  split
  · exact .refl s
  · exact .of_dies rfl rfl rfl rfl

theorem State.SameLines.evalFaults (s : State) (l : Nat) : s.SameLines (s.evalFaults l) := by
  unfold State.evalFaults
  refine (foldl _ (fun t w => ?_) s).trans (foldl _ (fun t o => ?_) _)
  · split
    · exact .ite (.wake ..) (.refl t)
    · exact .refl t
  · split
    · exact .ite (.of_dies rfl rfl rfl rfl) (.refl t)
    · exact .refl t

theorem State.SameLines.evalWaits (s : State) (l : Nat) : s.SameLines (s.evalWaits l) := by
  unfold State.evalWaits
  refine (foldl _ (fun t p => ?_) s).trans (.evalFaults _ l)
  exact .ite ((of_dies (s := t) (t := { t with tables := t.tables.erase p.1 }) rfl rfl rfl rfl).trans (.wake ..)) (.refl t)

theorem State.SameLines.logErr (s : State) (n kind addr core tenant : Nat) : s.SameLines (s.logErr n kind addr core tenant) :=
  .of_dies rfl rfl rfl rfl

theorem State.SameLines.llcAccess (s : State) (l tenant pol : Nat) : s.SameLines (s.llcAccess l tenant pol) := by
  unfold State.llcAccess
  exact .ite (.refl s) (.of_dies rfl rfl rfl rfl)

theorem State.SameLines.returnOld (s : State) (w : Write) (as : List Acc) : s.SameLines (s.returnOld w as) :=
  .of_dies rfl rfl rfl rfl

/-- A change of a die that leaves its lines. -/
theorem State.SameLines.updDie (s : State) (d : Nat) {f : Die → Die} (h : ∀ x, (f x).l2 = x.l2) :
    s.SameLines (s.updDie d f) := by
  refine ⟨rfl, rfl, rfl, fun e m => ?_⟩
  unfold State.l2 State.die
  rw [State.updDie_dies, Tab.get_modify]
  by_cases he : e = d <;> simp [he, h]

theorem State.SameLines.notice (s : State) (d l : Nat) : s.SameLines (s.notice d l) := by
  unfold State.notice
  exact .ite (.updDie s d fun _ => rfl) (.refl s)

theorem State.SameLines.performed (s : State) (w : Write) (bs : Tab Byte) (g : Nat) : s.SameLines (s.performed w bs g) := by
  unfold State.performed
  refine .trans ?_ (.evalWaits _ _)
  split <;> exact .of_dies rfl rfl rfl rfl
end

/-! ## Writes performed -/

/-- Bytes put into a line's own, which take none but of a write that clears poison where the line is poisoned (R159, R384). -/
def Write.into (w : Write) (bs : Tab Byte) (pois : Bool) (t : Tab Byte) : Tab Byte :=
  if pois && !w.clears bs then t else setBytes t bs

section
variable (w : Write) {bs t : Tab Byte} (once : (bs.map Prod.fst).Nodup) (a : Nat)
include once

theorem Write.get_into_clean : (w.into bs false t).get 0 a =
    (bs.find a).getD (t.get 0 a) :=
  get_setBytes once t a

theorem Write.get_into_other (pois : Bool) (h : bs.find a = none) : (w.into bs pois t).get 0 a = t.get 0 a := by
  unfold Write.into
  split
  · rfl
  · rw [get_setBytes once, h]; rfl
end

section
variable {s : State} {w : Write} {bs : Tab Byte} {olds : List Acc}

/-- A write performed at its line's home changes memory there, and no die's line (R135). -/
theorem performHome_sameLines (carried : w.effect (fun ta => s.mem.get 0 (ta - 64 * w.line + 64 * w.line)) = (bs, olds))
    (inLine : ∀ p ∈ bs, p.1 / 64 = w.line) (g : Nat) :
    State.SameLines { s with mem := w.into bs (s.pois.get false w.line) s.mem } (s.performHome w w.line g) := by
  have placed : bs.foldl (fun m b => m.set 0 (b.1 - 64 * w.line + 64 * w.line) b.2) s.mem = setBytes s.mem bs :=
    List.foldl_ext _ _ _ fun m p hp => by
      have := inLine p hp
      rw [show p.1 - 64 * w.line + 64 * w.line = p.1 by omega]
  unfold State.performHome
  simp only [carried]
  refine .trans ?_ (((State.SameLines.llcAccess _ _ _ _).trans (.returnOld _ _ _)).trans (.performed _ _ _ _))
  unfold Write.into
  by_cases dead : (s.pois.get false w.line && !w.clears bs) = true
  · simp only [dead, if_true]
    exact .of_dies rfl rfl rfl rfl
  · simp only [dead]
    exact .of_dies placed rfl rfl rfl

/-- A write performed at a die's home point changes that die's copy of the line only (R134). -/
theorem performDie_sameLines (carried : w.effect (fun ta => (s.l2 w.die w.line).bytes.get 0 ta) = (bs, olds)) :
    ∃ f, (∀ x, (f x).bytes = w.into bs (s.l2 w.die w.line).pois x.bytes) ∧
      (s.updL2 w.die w.line f).SameLines (s.performDie w) := by
  unfold State.performDie
  simp only [carried]
  refine ⟨_, ?bytes, .trans (.updL2 ?before _ _ _) ((State.SameLines.returnOld _ _ _).trans (.performed _ _ _ _))⟩
  case before =>
    refine .trans (.trans (.ite (.logErr ..) (.refl s)) (.notice _ _ _)) (.ite (.of_dies rfl rfl rfl rfl) (.refl _))
  case bytes =>
    intro x
    unfold L2Line.policy Write.into
    split_ifs <;> rfl
end

/-- Settles O58: `find_storedBytes` for the bytes of the lanes; memory and the die's copy of the line after the write are the
bytes that `Write.into` puts there, and nothing else that a line's value is read from changes. -/
theorem writesChangeOnlyTheirBytes : Obligations.WritesChangeOnlyTheirBytes := by
  unfold Obligations.WritesChangeOnlyTheirBytes
  refine ⟨find_storedBytes, ?home, ?die⟩
  case home =>
    intro s w g a bs t inLine once
    have same := performHome_sameLines (Prod.eta (w.effect _)).symm inLine g
    have mem : t.mem = w.into bs (s.pois.get false w.line) s.mem := same.mem
    refine ⟨fun clean => ?_, fun other => ?_, fun d l => congrArg L2Line.bytes (same.l2 d l)⟩
    · rw [mem, clean]
      exact w.get_into_clean once a
    · rw [mem]
      exact w.get_into_other once a _ other
  case die =>
    intro s w d l a bs t once
    obtain ⟨f, bytes, mem, -, -, l2⟩ := performDie_sameLines (Prod.eta (w.effect _)).symm
    have here : (t.l2 w.die w.line).bytes = w.into bs (s.l2 w.die w.line).pois (s.l2 w.die w.line).bytes := by
      rw [l2, State.l2_updL2, if_pos ⟨rfl, rfl⟩, bytes]
    refine ⟨mem, fun elsewhere => ?_, fun clean => ?_, fun other => ?_⟩
    · rw [l2, State.l2_updL2, if_neg (by simpa using elsewhere)]
    · rw [here, clean]
      exact w.get_into_clean once a
    · rw [here]
      exact w.get_into_other once a _ other

end Sys2Proof.Machine
end

section
/-! PROOF. Requests sent (R129, R133, R135): what a request that starts or is queued leaves as it was. -/

namespace Sys2Proof.Machine
open Sys2Proof.Safety

/-! ## Warps that read alike -/

/-- What the running code of a way sees: its registers, predicates, flags and slices. -/
structure Warp.ReadsAs (k : Nat) (w x : Warp) : Prop where
  v      : ∀ n l, x.getV k true n l = w.getV k true n l
  g      : ∀ n, x.getG k true n = w.getG k true n
  p      : ∀ n l, x.getP k true n l = w.getP k true n l
  gp     : ∀ n, x.getGp k true n = w.getGp k true n
  fstat  : (x.archOf k).fstat = (w.archOf k).fstat
  slices : (x.archOf k).slices = (w.archOf k).slices

section
variable {k : Nat} {w x y : Warp}

theorem Warp.ReadsAs.refl (k : Nat) (w : Warp) : Warp.ReadsAs k w w :=
  ⟨fun _ _ => rfl, fun _ => rfl, fun _ _ => rfl, fun _ => rfl, rfl, rfl⟩

theorem Warp.ReadsAs.trans (a : Warp.ReadsAs k w x) (b : Warp.ReadsAs k x y) : Warp.ReadsAs k w y :=
  ⟨fun n l => (b.v n l).trans (a.v n l), fun n => (b.g n).trans (a.g n), fun n l => (b.p n l).trans (a.p n l),
    fun n => (b.gp n).trans (a.gp n), b.fstat.trans a.fstat, b.slices.trans a.slices⟩

/-- The way's copy but for its gangs, and the handler's window, are all that the running code sees. -/
theorem Warp.ReadsAs.of_arch (sup : x.trap.map TrapRec.sup = w.trap.map TrapRec.sup)
    (arch : (x.archOf k).noGangs = (w.archOf k).noGangs) : Warp.ReadsAs k w x := by
  have v : (x.archOf k).v = (w.archOf k).v := (congrArg Arch.v arch :)
  have g : (x.archOf k).g = (w.archOf k).g := (congrArg Arch.g arch :)
  have p : (x.archOf k).p = (w.archOf k).p := (congrArg Arch.p arch :)
  have gp : (x.archOf k).gp = (w.archOf k).gp := (congrArg Arch.gp arch :)
  refine ⟨fun n l => ?_, fun n => ?_, fun n l => ?_, fun n => ?_, (congrArg Arch.fstat arch :),
    (congrArg Arch.slices arch :)⟩
  all_goals
    cases hx : x.trap <;> cases hw : w.trap <;> rw [hx, hw] at sup <;>
      simp_all [Warp.getV, Warp.getG, Warp.getP, Warp.getGp]
end

theorem Tab.find_map {α β : Type} (t : Tab α) (f : Nat → α → β) (k : Nat) :
    Tab.find (t.map (fun p => (p.1, f p.1 p.2))) k = (t.find k).map (f k) := by
  induction t with
  | nil => rfl
  | cons p r ih =>
    obtain ⟨j, x⟩ := p
    by_cases hj : j = k
    · subst hj
      simp [Tab.find]
    · simp [Tab.find, hj, ih]

/-! ## Full fences (R140) -/

/-- A fence's stamp on the gangs of its slices. -/
def Arch.fenceAt (sl : BitVec 8) (n : Nat) (a : Arch) : Arch :=
  { a with gangs := a.gangs.map (fun (g : Gang) => if g.slices &&& sl != 0 then { g with fence := n } else g) }

/-- The stamp on the gangs of the way that fenced, saved ones where its handler runs, and on those of every other way. -/
def Warp.fenceAt (sup : Bool) (k : Nat) (sl : BitVec 8) (n : Nat) (w : Warp) : Warp :=
  let w := if sup then w.updArch k (Arch.fenceAt sl n) else w.updUser k (Arch.fenceAt sl n)
  { w with loop := w.loop.map (fun l => { l with
      committed := l.committed.fenceAt sl n
      ways := l.ways.map (fun (p : Nat × Way) => (p.1,
        { p.2 with start := p.2.start.fenceAt sl n, arch := if p.1 = k then p.2.arch else p.2.arch.fenceAt sl n })) }) }

theorem State.fenced_eq (s : State) (r : Req) : s.fenced r =
    if r.order = .acqrel ∧ (r.scope = .die ∨ r.scope = .device ∨ r.scope = .system) then
      { s.bump.updWarp r.warp (Warp.fenceAt r.sup r.way r.slices s.clk.fresh) with
        reqs := s.reqs.map (fun (q : Req) => if q.behind.contains r.id then { q with fence := s.clk.fresh } else q) }
    else s := rfl

section
variable (k : Nat) (sl : BitVec 8) (n : Nat) (w : Warp)

theorem Warp.ReadsAs.updArch_fenceAt : Warp.ReadsAs k w (w.updArch k (Arch.fenceAt sl n)) :=
  .of_arch (by simp) (by simp [Arch.fenceAt, Arch.noGangs])

theorem Warp.ReadsAs.updUser_fenceAt : Warp.ReadsAs k w (w.updUser k (Arch.fenceAt sl n)) := by
  unfold Warp.updUser
  cases ht : w.trap with
  | none => exact .updArch_fenceAt k sl n w
  | some r =>
    refine .of_arch (by simp [ht]) ?_
    rw [Warp.archOf_trap, Warp.archOf_updArch]
    simp [Warp.user, ht, Arch.fenceAt, Arch.noGangs]

/-- A fence's stamps are on gangs, which no register, predicate, flag or slice is part of. -/
theorem Warp.ReadsAs.fenceAt (sup : Bool) : Warp.ReadsAs k w (w.fenceAt sup k sl n) := by
  have own : Warp.ReadsAs k w (if sup then w.updArch k (Arch.fenceAt sl n) else w.updUser k (Arch.fenceAt sl n)) := by
    split
    · exact .updArch_fenceAt k sl n w
    · exact .updUser_fenceAt k sl n w
  unfold Warp.fenceAt
  generalize (if sup then w.updArch k (Arch.fenceAt sl n) else w.updUser k (Arch.fenceAt sl n)) = x at own
  refine own.trans (.of_arch rfl ?_)
  cases hl : x.loop with
  | none => simp [Warp.archOf, hl]
  | some l =>
    simp only [Warp.archOf, hl, Option.map_some, Tab.find_map l.ways
      (fun i y => { y with start := y.start.fenceAt sl n, arch := if i = k then y.arch else y.arch.fenceAt sl n }) k]
    cases l.ways.find k <;> simp
end

/-! ## What a request leaves -/

/-- `t` is `s` once a request has been sent: no line's value, no other warp's registers and no other state of the issuing
warp's code have changed, but scratchpad where the request reaches it (`scr`) and registers where it reaches the window
(`win`). -/
structure State.Sends (scr win : Prop) (s t : State) : Prop where
  lines  : s.SameLines t
  who    : t.who = s.who
  others : ∀ u, u ≠ s.who.warp → (t.warp u).arch = (s.warp u).arch
  teams  : ¬scr → t.teams = s.teams
  mine   : ¬win → Warp.ReadsAs s.who.way s.wWarp t.wWarp

/-- What holds between a warp and itself, and between a warp and its update, holds of every warp's. -/
theorem State.warp_updWarp_of {R : Warp → Warp → Prop} (s : State) (u : Nat) {f : Warp → Warp} (same : ∀ w, R w w)
    (h : ∀ w, R w (f w)) (v : Nat) : R (s.warp v) ((s.updWarp u f).warp v) := by
  unfold State.warp
  rw [State.updWarp_warps, Tab.find_upd]
  split
  · cases s.warps.find v
    · exact same _
    · exact h _
  · exact same _

section
variable {scr win : Prop} {s t u : State}

theorem State.Sends.of_lines (lines : s.SameLines t) (who : t.who = s.who) (warps : t.warps = s.warps)
    (teams : t.teams = s.teams) : s.Sends scr win t := by
  have same (v : Nat) : t.warp v = s.warp v := by simp only [State.warp, warps]
  exact ⟨lines, who, fun v _ => congrArg Warp.arch (same v), fun _ => teams,
    fun _ => by simp only [State.wWarp, who, same]; exact .refl ..⟩

/-- A change of queues, waits, cores or clocks. -/
theorem State.Sends.of_fields (mem : t.mem = s.mem) (net : t.net = s.net) (dir : t.dir = s.dir) (dies : t.dies = s.dies)
    (who : t.who = s.who) (warps : t.warps = s.warps) (teams : t.teams = s.teams) : s.Sends scr win t :=
  .of_lines (.of_dies mem net dir dies) who warps teams

theorem State.Sends.refl (s : State) : s.Sends scr win s := .of_lines (.refl s) rfl rfl rfl

theorem State.Sends.trans (a : s.Sends scr win t) (b : t.Sends scr win u) : s.Sends scr win u := by
  have hw := a.who
  refine ⟨a.lines.trans b.lines, b.who.trans hw, fun v hv => (b.others v (hw ▸ hv)).trans (a.others v hv),
    fun h => (b.teams h).trans (a.teams h), fun h => (a.mine h).trans ?_⟩
  rw [← hw]
  exact b.mine h

theorem State.Sends.ite {c : Prop} [Decidable c] (ht : s.Sends scr win t) (hu : s.Sends scr win u) :
    s.Sends scr win (if c then t else u) := by
  split
  · exact ht
  · exact hu

theorem State.Sends.foldl {α : Type} {f : State → α → State} (L : List α) (h : ∀ (t : State) a, t.Sends scr win (f t a))
    (s : State) : s.Sends scr win (L.foldl f s) := by
  induction L generalizing s with
  | nil => exact .refl s
  | cons a r ih => exact (h s a).trans (ih (f s a))

/-- A change of the issuing warp that its code does not see. -/
theorem State.Sends.updMine {f : Warp → Warp} (h : ∀ w, Warp.ReadsAs s.who.way w (f w)) {v : Nat} (hv : v = s.who.warp) :
    s.Sends scr win (s.updWarp v f) where
  lines := .of_dies rfl rfl rfl rfl
  who := rfl
  others x hx := by
    unfold State.warp
    rw [State.updWarp_warps, Tab.find_upd_ne _ _ (hv ▸ hx)]
  teams _ := rfl
  mine _ := s.warp_updWarp_of v (.refl _) h _

/-- A change of any warp that leaves its copies and its trap record. -/
theorem State.Sends.updAny (s : State) (v : Nat) {f : Warp → Warp}
    (h : ∀ w, (f w).arch = w.arch ∧ (f w).loop = w.loop ∧ (f w).trap = w.trap) : s.Sends scr win (s.updWarp v f) where
  lines := .of_dies rfl rfl rfl rfl
  who := rfl
  others x _ := s.warp_updWarp_of (R := fun w x => x.arch = w.arch) v (fun _ => rfl) (fun w => (h w).1) x
  teams _ := rfl
  mine _ := s.warp_updWarp_of v (.refl _) (fun w => .of_arch (by rw [(h w).2.2]) (by
    simp only [Warp.archOf, (h w).1, (h w).2.1])) _

/-! ## The steps of a request -/

theorem State.Sends.wake (s : State) (id status : Nat) (x : Word) : s.Sends scr win (s.wake id status x) := by
  unfold State.wake
  split
  · exact .refl s
  · refine .trans ?_ (.updAny _ _ fun _ => ⟨rfl, rfl, rfl⟩)
    exact .of_fields rfl rfl rfl rfl rfl rfl rfl

theorem State.Sends.wakeAll (s : State) (ta : Nat) (team : Option Nat) (st : Nat) : s.Sends scr win (s.wakeAll ta team st) :=
  .foldl _ (fun _ _ => .wake ..) s

theorem State.Sends.setWait (s : State) (id : Nat) (on : WaitOn) : s.Sends scr win (s.setWait id on) :=
  .of_fields rfl rfl rfl rfl rfl rfl rfl

theorem State.Sends.dropReq (s : State) (i : Nat) : s.Sends scr win (s.dropReq i) := .of_fields rfl rfl rfl rfl rfl rfl rfl

theorem State.Sends.putReq (s : State) (r : Req) : s.Sends scr win (s.putReq r) := by
  unfold State.putReq
  exact .ite (.of_fields rfl rfl rfl rfl rfl rfl rfl) (.of_fields rfl rfl rfl rfl rfl rfl rfl)

theorem State.Sends.dropCopy (s : State) (c l : Nat) : s.Sends scr win (s.dropCopy c l) :=
  .of_fields rfl rfl rfl rfl rfl rfl rfl

theorem State.Sends.addPend (s : State) (v n : Nat) : s.Sends scr win (s.addPend v n) := .updAny s v fun _ => ⟨rfl, rfl, rfl⟩

theorem State.Sends.enterBay (s : State) (r : Req) (as : List Acc) : s.Sends scr win (s.enterBay r as) := by
  unfold State.enterBay
  refine .foldl _ (fun t l => ?_) s
  dsimp only
  split <;> exact .of_fields rfl rfl rfl rfl rfl rfl rfl

/-- A barrier operation wakes waiters, and its request returns, waits or ends. -/
theorem State.Sends.barOp (s : State) (r : Req) (op : Nat) (a : Acc) (team : Option Nat) (x : Nat) :
    s.Sends scr win (s.barOp r op a team x).2 := by
  have woken (p : Bar × Option Nat) (t : State) :
      t.Sends scr win (match p.2 with | some st => t.wakeAll a.ta team st | none => t) := by
    split
    · exact .wakeAll ..
    · exact .refl t
  have waits (t : State) : t.Sends scr win ((t.setWait r.id (.bar a.ta team)).dropReq r.id) :=
    .trans (.setWait ..) (.dropReq ..)
  have answered (t : State) (st : Nat) : t.Sends scr win ((t.wake r.id st).dropReq r.id) := .trans (.wake ..) (.dropReq ..)
  unfold State.barOp
  dsimp only
  split
  · exact .trans (.wakeAll ..) (.trans (woken ..) (.dropReq ..))
  · exact .trans (woken ..) (.putReq ..)
  · split_ifs
    · exact answered ..
    · exact answered ..
    · exact waits s
  · exact .trans (woken ..) (.ite (answered ..) (.ite (answered ..) (waits _)))
  · exact .trans (woken ..) (.dropReq ..)

theorem State.Sends.doWaita (s : State) (r : Req) (cmp e m tmo : Nat) : s.Sends scr win (s.doWaita r cmp e m tmo) := by
  have back (n : Nat) (v : Word) : s.Sends scr win ((s.wake r.id n v).dropReq r.id) := .trans (.wake ..) (.dropReq ..)
  unfold State.doWaita
  split
  · exact .dropReq ..
  · refine .ite (back ..) (.ite (back ..) ?_)
    split
    · exact back ..
    · exact .of_fields rfl rfl rfl rfl rfl rfl rfl

/-- A full fence marks gangs of the issuing warp and requests behind it (R140). -/
theorem State.Sends.fenced {r : Req} (hu : r.warp = s.who.warp) (hk : r.way = s.who.way) : s.Sends scr win (s.fenced r) := by
  rw [State.fenced_eq]
  refine .ite ?_ (.refl s)
  have bumped : s.Sends scr win s.bump := .of_fields rfl rfl rfl rfl rfl rfl rfl
  refine bumped.trans (.trans (.updMine (fun w => ?_) hu) (.of_fields rfl rfl rfl rfl rfl rfl rfl))
  rw [hk]
  exact .fenceAt _ _ _ w _

theorem State.Sends.capture (s : State) (o : Nat) : s.Sends scr win (s.capture o) := .of_fields rfl rfl rfl rfl rfl rfl rfl

/-- A request of the issuing warp and way that reaches scratchpad only where `scr` holds, the register window only where
`win` does, and the control register space nowhere. -/
structure Req.Within (r : Req) (s : State) (scr win : Prop) : Prop where
  warp : r.warp = s.who.warp
  way  : r.way = s.who.way
  scr  : ∀ a ∈ r.accs, isScr a.ta = true → scr
  win  : ∀ a ∈ r.accs, isRegw a.ta = true → win
  ctl  : ∀ a ∈ r.accs, isCtl a.ta = false

/-- Bytes put in scratchpad. -/
theorem State.Sends.scrPut (h : scr) (s : State) (team off : Nat) (bs : List Byte) : s.Sends scr win (s.scrPut team off bs) :=
  ⟨.of_dies rfl rfl rfl rfl, rfl, fun _ _ => rfl, fun no => absurd h no, fun _ => .refl ..⟩

section
variable {r : Req} (hr : r.Within s scr win)
include hr

theorem State.Sends.localWrite {a : Acc} (ha : a ∈ r.accs) (here : isLocal a.ta = true) (who : t.who = s.who) (v : Nat) :
    t.Sends scr win (t.localWrite r a v) := by
  unfold State.localWrite
  by_cases hscr : isScr a.ta = true
  · rw [if_pos hscr]
    exact .scrPut (hr.scr a ha hscr) ..
  · have hreg : isRegw a.ta = true := by simpa [isLocal, hscr, hr.ctl a ha] using here
    rw [if_neg hscr, if_pos hreg]
    refine ⟨.of_dies rfl rfl rfl rfl, rfl, fun x hx => ?_, fun _ => rfl, fun no => absurd (hr.win a ha hreg) no⟩
    rw [who, ← hr.warp] at hx
    unfold State.warp
    rw [State.updWarp_warps, Tab.find_upd_ne _ _ hx]

theorem State.Sends.updateLocal : s.Sends scr win (s.updateLocal r).1 := by
  unfold State.updateLocal
  refine List.foldlRecOn (motive := fun (p : State × Req) => s.Sends scr win p.1) _ _ (.refl s) fun p hp a ha => ?_
  by_cases here : isLocal a.ta = true
  · rw [if_pos here]
    exact hp.trans (.localWrite hr ha here hp.who _)
  · rw [if_neg here]
    exact hp

/-- A request that leaves the issue queue. -/
theorem State.Sends.start : s.Sends scr win (s.start r) := by
  obtain ⟨q, hq⟩ : ∃ q, q = { r with started := true, behind := [], seq := s.clk.fresh } := ⟨_, rfl⟩
  have within : q.Within s.bump scr win := by
    rw [hq]
    exact ⟨hr.warp, hr.way, hr.scr, hr.win, hr.ctl⟩
  have bumped : s.Sends scr win s.bump := .of_fields rfl rfl rfl rfl rfl rfl rfl
  have entered (t : State) (q : Req) (as : List Acc) (u n : Nat) : t.Sends scr win ((t.enterBay q as).addPend u n) :=
    .trans (.enterBay ..) (.addPend ..)
  refine bumped.trans ?_
  unfold State.start
  rw [← hq]
  dsimp only
  generalize s.bump = b at within
  cases q.kind with
  | load | prefetch | tree | ndone | barAdd => exact .putReq ..
  | store => exact (State.Sends.updateLocal within).trans ((entered ..).trans (.dropReq ..))
  | atom op | red op =>
    exact (State.Sends.updateLocal within).trans (.ite ((entered ..).trans (.putReq ..)) ((entered ..).trans (.dropReq ..)))
  | bupd op => exact (entered ..).trans (.dropReq ..)
  | clean op =>
    match op with
    | 0 => exact .trans (.foldl q.accs (fun t a => .dropCopy t q.core (lineOf a.ta)) b) (.dropReq ..)
    | 4 => exact .of_fields rfl rfl rfl rfl rfl rfl rfl
    | 1 | 2 | 3 | _ + 5 => exact (entered ..).trans (.dropReq ..)
  | fence => exact .trans (.fenced within.warp within.way) (.dropReq ..)
  | bar op =>
    dsimp only
    split
    · exact .dropReq ..
    · next a as ha =>
      split
      · next hscr => exact .trans (.barOp ..) (.scrPut (within.scr a (ha ▸ List.mem_cons_self) hscr) ..)
      · exact .trans (.putReq ..) (.of_fields rfl rfl rfl rfl rfl rfl rfl)
  | waita cmp e m tmo => exact .doWaita ..
  | kv | kvval => exact .trans (.putReq ..) (.addPend ..)
  | engine o => exact .trans (.capture ..) (.dropReq ..)
  | commit => exact .trans (.putReq ..) (.of_lines (.updDie _ _ fun _ => rfl) rfl rfl rfl)
end

/-- A request sent, started or put in its gang's queue. -/
theorem State.Sends.sent {r : Req} (hs : ∀ a ∈ r.accs, isScr a.ta = true → scr) (hw : ∀ a ∈ r.accs, isRegw a.ta = true → win)
    (hc : ∀ a ∈ r.accs, isCtl a.ta = false) : s.Sends scr win (sent s r) := by
  have within : (s.newReq r).Within s.bump scr win := ⟨rfl, rfl, hs, hw, hc⟩
  have bumped : s.Sends scr win s.bump := .of_fields rfl rfl rfl rfl rfl rfl rfl
  exact .ite (bumped.trans (.start within)) (bumped.trans (.putReq ..))
end

theorem State.SameLines.dirE {s t : State} (h : s.SameLines t) (l : Nat) : t.dirE l = s.dirE l := by
  simp only [State.dirE, h.dir]

/-- A line's latest value is read from memory, messages, the directory and the dies' lines. -/
theorem State.SameLines.cur {s t : State} (h : s.SameLines t) (a : Nat) : t.cur a = s.cur a := by
  simp only [State.cur, State.lineTab, State.holder, State.inFlight, State.dirE, h.mem, h.net, h.dir, h.l2]

/-- Settles O59, by `State.Sends.sent`: scratchpad is reached where some access does so, and so is the register window. No
clause speaks of a core's lease copies, which a store that starts updates at once (R133). -/
theorem issuingLeavesMemory : Obligations.IssuingLeavesMemory := by
  unfold Obligations.IssuingLeavesMemory
  intro s r _ t hc
  obtain ⟨lines, who, others, teams, mine⟩ : s.Sends (∃ a ∈ r.accs, isScr a.ta = true) (∃ a ∈ r.accs, isRegw a.ta = true) t :=
    .sent (fun a ha h => ⟨a, ha, h⟩) (fun a ha h => ⟨a, ha, h⟩) hc
  refine ⟨lines.cur, lines.mem, lines.l2, lines.dirE, others, fun no => teams ?_, fun no => ?_⟩
  · rintro ⟨a, ha, h⟩
    rw [no a ha] at h
    exact absurd h (by decide)
  · obtain ⟨v, g, p, gp, fstat, slices⟩ := mine fun ⟨a, ha, h⟩ => by
      rw [no a ha] at h
      exact absurd h (by decide)
    unfold vreg greg preg gpreg State.arch
    rw [who]
    exact ⟨v, g, p, gp, fstat, slices⟩

end Sys2Proof.Machine
end

section
/-! PROOF. Loads (R129 to R140, R153, R158, R166): when a queued request starts, what a fetch brings, when a value returns. -/

namespace Sys2Proof.Machine

/-! ## Fetches (R131, R132) -/

/-- The bytes of a line given to a request's accesses that still want them. -/
def State.filled (s : State) (i l : Nat) (bs : Tab Byte) (pois : Bool) : State :=
  s.updReq i (fun r => { r with accs := r.accs.map (fun a => a.fill l bs pois) })

/-- Some byte of the line is wanted from an uncached home or from another part. -/
def Req.far (r : Req) (l : Nat) : Bool := r.accs.any (fun a => a.wants l && (a.unc || isPeer a.ta))

/-- An atomic operation or a reduction. -/
def Req.atomic (r : Req) : Bool := match r.kind with | .atom _ | .red _ => true | _ => false

theorem Req.atomic_eq_false {r : Req} (h : ∀ op, r.kind ≠ .atom op ∧ r.kind ≠ .red op) : r.atomic = false := by
  unfold Req.atomic
  split
  · next op hk => exact absurd hk (h op).1
  · next op hk => exact absurd hk (h op).2
  · rfl

theorem Req.atomic_eq_true {r : Req} {op : Nat} (h : r.kind = .atom op ∨ r.kind = .red op) : r.atomic = true := by
  rcases h with h | h <;> simp [Req.atomic, h]

/-- A die's home point answers: it watches the line for a region's load; a load that takes no copy leaves none from before
it (log 130), and another installs one. -/
def State.served (s : State) (r : Req) (l : Nat) : State :=
  let d := r.core / 64
  let w := if r.accs.any (fun a => a.wants l && a.obs.isSome) then s.updL2 d l (fun x => { x with watched := true }) else s
  let t := if r.nl1 then (if r.kind = .load then w.dropCopy r.core l else w) else w.install r.core l r.pol
  t.updL2 d l (fun x => x.policy r.pol)

section
variable {s : State} {i l : Nat} {r : Req} (hr : s.req i = some r) (hs : r.started = true) (hn : r.returned = false)
  (wants : r.accs.any (fun a => a.wants l) = true) (ready : s.fetchable r l = true)
include hr hs hn wants ready

/-- The cases of a fetch that may be taken. -/
theorem execFetch_eq : execFetch i l s =
    if r.far l && !r.atomic then
      let t := if isHost (64 * l) then s.pushPosted else s
      onlyIf "FETCH" (!isHost (64 * l) || (!t.link.down && t.carries (t.warp r.warp).tenant))
        (t.filled i l t.mem (t.pois.get false l))
    else if !s.readable (r.core / 64) l then no "FETCH"
    else if r.atomic then
      onlyIf "FETCH" (r.accs.any (fun a => a.wants l && a.coreLevel r.scope) && (s.liveCopy r.core l 0).isNone)
        (s.install r.core l r.pol)
    else .next ((s.served r l).filled i l (s.l2 (r.core / 64) l).bytes (s.l2 (r.core / 64) l).pois) := by
  unfold execFetch State.served
  simp only [hr, hs, hn, wants, ready, beq_iff_eq]
  rfl
end

/-! ## Returns (R138, R153, R158) -/

section
variable {s : State} {i : Nat} {r : Req} (hr : s.req i = some r)
include hr

theorem id_of_req : r.id = i := by
  have found := List.find?_some hr
  simpa using found

/-- Requests of the memory instructions return as `returnLoad` says. -/
theorem execLoadReturn_eq (h : r.kind = .load ∨ r.kind = .bar 1 ∨ r.kind = .prefetch ∨ r.atomic = true) :
    execLoadReturn i s = returnLoad i s := by
  unfold execLoadReturn returnAny
  simp only [hr]
  cases hk : r.kind <;> simp_all [Req.atomic]
end

/-- The value given to the warp that asked for it. -/
def State.given (t : State) (i : Nat) (r : Req) : State := (t.updWarp r.warp (fun w => (w.receive r).observe r)).dropReq i

theorem id_coreAtomic (s : State) (r : Req) : (s.coreAtomic r).2.id = r.id := by
  unfold State.coreAtomic
  exact List.foldlRecOn (motive := fun (p : State × Req) => p.2.id = r.id) _ _ rfl fun p hp w _ => hp

section
variable {s : State} {i : Nat} {r : Req} (hr : s.req i = some r) (hs : r.started = true) (hn : r.returned = false)
include hr hs hn

theorem execLoadReturn_load (hk : r.kind = .load) (all : r.accs.all (fun a => a.left.isEmpty) = true) :
    execLoadReturn i s = .next (s.given i r) := by
  rw [execLoadReturn_eq hr (.inl hk)]
  simp [returnLoad, hr, hs, hn, hk, onlyIf_eq_next _ _ all, State.given, id_of_req hr]

theorem execLoadReturn_arrival (hk : r.kind = .bar 1) (performed : ∀ w ∈ s.writes, w.req ≠ i) :
    execLoadReturn i s = .next (s.given i r) := by
  have none_left : (!s.writes.any (fun w => w.req == i)) = true := by simpa using performed
  rw [execLoadReturn_eq hr (.inr (.inl hk))]
  simp [returnLoad, hr, hs, hn, hk, onlyIf_eq_next _ _ none_left, State.given, id_of_req hr]

theorem execLoadReturn_prefetch (hk : r.kind = .prefetch) (all : r.accs.all (fun a => a.left.isEmpty) = true) :
    execLoadReturn i s = .next (s.dropReq i) := by
  rw [execLoadReturn_eq hr (.inr (.inr (.inl hk)))]
  simp [returnLoad, hr, hs, hn, hk, onlyIf_eq_next _ _ all, id_of_req hr]

/-- An atomic returns once each of its old values is there, or can be read on the core's own line (R125, R158). -/
theorem execLoadReturn_atomic {op : Nat} (hk : r.kind = .atom op ∨ r.kind = .red op)
    (old : ∀ a ∈ r.accs, (isGlob a.ta && a.coreLevel r.scope) = true ∨ a.left = [])
    (near : ∀ w ∈ s.writes, w.near = true → w.req = i → s.nearReady w = true) :
    execLoadReturn i s = .next ((s.coreAtomic r).1.given i (s.coreAtomic r).2) := by
  have values : r.accs.all (fun a => (isGlob a.ta && a.coreLevel r.scope) || a.left.isEmpty) = true := by
    rw [List.all_eq_true]
    intro a ha
    rcases old a ha with h | h <;> simp [h]
  have carried : (s.nearWrites r).all s.nearReady = true := by
    rw [List.all_eq_true]
    intro w hw
    simp only [State.nearWrites, id_of_req hr, List.mem_filter, Bool.and_eq_true, beq_iff_eq] at hw
    exact near w hw.1 hw.2.1 hw.2.2
  have id := (id_coreAtomic s r).trans (id_of_req hr)
  rw [execLoadReturn_eq hr (.inr (.inr (.inr (Req.atomic_eq_true hk))))]
  rcases hk with hk | hk <;>
    simp only [returnLoad, hr, hs, hn, hk, values, carried, State.given, id] <;> rfl
end

/-! ## The statement -/

/-- Settles O17: each row's equation above at the conditions that the statement names. That a load with policy nl1 drops the
core's lease copy is the model's (log 130), and so are the place of a core-scope atomic (log 47) and the pushing of posted
writes by an uncached read (log 115). -/
theorem loadStepsComplete : Obligations.LoadStepsComplete := by
  unfold Obligations.LoadStepsComplete
  intro i l core s
  refine ⟨?issue, ?fetch, ?ret, ?expiry⟩
  case issue =>
    intro r hr hs hc
    simp [execReleaseIssue, hr, onlyIf_eq_next, hs, hc]
  case fetch =>
    intro r hr hs hn wants ready d filled far
    have eq := execFetch_eq hr hs hn wants ready
    refine ⟨fun kind => ?_, fun op hk own none_live (readable : s.readable (r.core / 64) l = true) => eq.trans ?_⟩
    · have plain := Req.atomic_eq_false kind
      refine ⟨fun (hfar : r.far l = true) device => eq.trans ?_, fun (hfar : r.far l = true) host up keys => eq.trans ?_,
        fun (hfar : r.far l = false) (readable : s.readable (r.core / 64) l = true) => eq.trans ?_⟩
      · simp only [hfar, plain, device]
        exact onlyIf_eq_next "FETCH" _ rfl
      · have sent : (!s.pushPosted.link.down && s.pushPosted.carries (s.pushPosted.warp r.warp).tenant) = true :=
          Bool.and_eq_true_iff.mpr ⟨by rw [Bool.not_eq_true']; exact up, keys⟩
        simp only [hfar, plain, host]
        exact onlyIf_eq_next "FETCH" _ sent
      · simp only [hfar, plain, readable]
        rfl
    · simp only [Req.atomic_eq_true hk, readable, own, none_live]
      exact (if_neg (by simp)).trans (onlyIf_eq_next "FETCH" _ rfl)
  case ret =>
    intro r hr hs hn given
    exact ⟨execLoadReturn_load hr hs hn, execLoadReturn_arrival hr hs hn, execLoadReturn_prefetch hr hs hn,
      fun op hk => execLoadReturn_atomic hr hs hn hk⟩
  case expiry =>
    intro p hp passed
    simp [execLeaseExpiry, hp, onlyIf_eq_next, passed, State.dropCopy]

end Sys2Proof.Machine
end

section
/-! PROOF. Writes (R133 to R135, R143, R144, R156, R196): performed at their homes, acknowledged, pushed to the host. -/

namespace Sys2Proof.Machine
open Sys2Proof.Safety

/-! ## Performing (R134, R135) -/

/-- A write of data: no clean, no operation on a barrier object. -/
structure Write.Ordinary (w : Write) : Prop where
  wb     : w.kind ≠ .clean 1
  wbinv  : w.kind ≠ .clean 2
  barAdd : w.kind ≠ .barAdd
  bar    : ∀ op, w.kind ≠ .bar op

/-- A write of data performed where its place says (R134, R135). -/
def State.performAt (s : State) (w : Write) : Out :=
  match w.place with
  | .die => onlyIf "WRITE_PERFORM" ((s.l2 w.die w.line).st == .M || (s.l2 w.die w.line).st == .E) (s.performDie w)
  | .bank => onlyIf "WRITE_PERFORM" (s.homeTurn w.line w.key)
      ((s.recall w.line).performHome w w.line (s.dieTime (stackOf w.line)))
  | .host => onlyIf "WRITE_PERFORM"
      (s.canRecall w.line && !s.homeAhead w.line w.key && !s.link.down &&
        s.carries (hostStream w.tenant (w.accs.any (fun a => a.unc))))
      (((s.pushPosted.recall w.line).updDir w.line (fun e => { e with host := 0 })).performHome w w.line s.clk.time)
  | .peer => .next (s.performHome w w.line s.clk.time)
  | .redwin => .next (s.performHome w (w.line - redBase / 64 + peerBase / 64) s.clk.time)
  | .posted => no "WRITE_PERFORM"

section
variable {s : State} {i : Nat} {w : Write} (hw : s.writes.find? (fun x => x.id == i) = some w) (hd : w.done = false)
  (first : s.firstWrite w = true)
include hw hd first

theorem execWritePerform_data (h : w.Ordinary) : execWritePerform i s = s.performAt w := by
  obtain ⟨wb, wbinv, barAdd, bar⟩ := h
  unfold execWritePerform State.performAt
  simp only [hw, hd, first]
  cases hp : w.place <;> simp_all

theorem execWritePerform_wb (hk : w.kind = .clean 1) : execWritePerform i s = s.performClean w false := by
  unfold execWritePerform
  simp [hw, hd, first, hk]

theorem execWritePerform_wbinv (hk : w.kind = .clean 2) : execWritePerform i s = s.performClean w true := by
  unfold execWritePerform
  simp [hw, hd, first, hk]
end

/-! ## Cleans and barrier operations at home (R156, R162) -/

theorem performClean_next {s : State} {w : Write} {inv : Bool}
    (h : ∀ d ∈ s.cleanDies w.die w.line inv, s.canClean d w.line inv = true) :
    s.performClean w inv = .next (((s.cleanDies w.die w.line inv).foldl (fun t d => t.cleanLine d w.line inv) s).performed w []
      ((s.cleanDies w.die w.line inv).foldl (fun g d => if inv then max g (s.l2 d w.line).exp else g) (s.dieTime w.die))) :=
  onlyIf_eq_next "WRITE_PERFORM" _ (List.all_eq_true.mpr h)

/-- A write that leaves the part's list as it has been performed. -/
def State.dropWrite (s : State) (w : Write) : State := { s with writes := s.writes.filter (fun y => y.id != w.id) }

/-- A barrier operation carried out at its home; at a poisoned line it changes nothing and is logged (log 50). -/
def State.performBar (s : State) (w : Write) (op : Nat) (r : Req) (a : Acc) : State :=
  let h := s.recall w.line
  let x := h.curNat a.ta 16
  let p := h.barOp r op a none x
  let t := if p.2.pois.get false w.line then p.2.logErr (logOf a.ta) 3 (64 * w.line) w.core w.tenant
    else { p.2 with mem := writeBytes p.2.mem a.ta (leBytes 16 p.1) }.noteFlip a.ta x p.1 (op == 0)
  (t.dropWrite w).evalWaits w.line

section
variable {s : State} {i : Nat} {w : Write} (hw : s.writes.find? (fun x => x.id == i) = some w) (hd : w.done = false)
  (first : s.firstWrite w = true)
include hw hd first

theorem execWritePerform_barAdd {a : Acc} {as : List Acc} (hk : w.kind = .barAdd) (ha : w.accs = a :: as)
    (turn : s.homeTurn w.line w.key = true) :
    execWritePerform i s = .next ((s.dropWrite w).barChange 0 a.ta (fun b => b.addBytes a.val)) := by
  unfold execWritePerform
  simp only [hw, hd, first, hk, ha, turn]
  exact onlyIf_eq_next "WRITE_PERFORM" _ rfl

theorem execWritePerform_bar {op : Nat} {r : Req} {a : Acc} {as : List Acc} (hk : w.kind = .bar op)
    (hr : s.req w.req = some r) (ha : w.accs = a :: as) (turn : s.homeTurn w.line w.key = true) :
    execWritePerform i s = .next (s.performBar w op r a) := by
  unfold execWritePerform
  simp only [hw, hd, first, hk, hr, ha, turn]
  rfl

end

/-! ## Acknowledgements (R135, R143, R144, R196) -/

/-- The acknowledged write leaves the list, its bytes kept in the core's copy. -/
def State.acked (s : State) (w : Write) : State := { (s.ackCopy w) with writes := s.writes.filter (fun x => x.id != w.id) }

/-- The operations that captured the write wait for it no more (R143). -/
def State.released (t : State) (w : Write) : State := { t with ops := t.ops.map (fun e =>
  if w.id ∈ e.caught then { e with
    caught := e.caught.filter (fun k => k != w.id)
    gcap := if e.scope = .warp ∨ e.scope = .core then e.gcap else max e.gcap w.gwct }
  else e) }

/-- An engine's operation takes the acknowledgement of one of its writes (R144). -/
def EngOp.acked (e : EngOp) (w : Write) : EngOp :=
  { e with
    gmax := max e.gmax w.gwct
    adds := e.adds.map (fun a =>
      if w.id ∈ a.2.2 then (a.1, max a.2.1 w.gwct, a.2.2.filter (fun k => k != w.id)) else a) }

/-- A warp takes the acknowledgement of one of its writes (R135). -/
def Warp.acked (v : Warp) (w : Write) : Warp :=
  { (v.raiseGwct w.place (isHost (64 * w.line)) (w.accs.any (fun a => a.unc)) w.gwct) with wpend := v.wpend - 1 }

theorem ackWrite_warp {s : State} {w : Write} {u : Nat} (hu : w.warp = some u) (ho : w.op = none) :
    s.ackWrite w = ((s.acked w).updWarp u (fun v => v.acked w)).released w := by
  simp [State.ackWrite, hu, ho, State.released, State.acked, Warp.acked]

theorem ackWrite_none {s : State} {w : Write} (hu : w.warp = none) (ho : w.op = none) :
    s.ackWrite w = (s.acked w).released w := by
  simp [State.ackWrite, hu, ho, State.released, State.acked]

theorem ackWrite_op {s : State} {w : Write} {o : Nat} (hu : w.warp = none) (ho : w.op = some o) :
    s.ackWrite w = ((s.acked w).updOp o (fun e => e.acked w)).released w := by
  simp [State.ackWrite, hu, ho, State.released, State.acked, EngOp.acked]

theorem execWriteAck_next {s : State} {i : Nat} {w : Write} (hw : s.writes.find? (fun x => x.id == i) = some w)
    (hd : w.done = true) : execWriteAck i s = .next (s.ackWrite w) := by
  unfold execWriteAck
  simp only [hw]
  exact onlyIf_eq_next "WRITE_ACK" _ hd

/-- A posted write in the egress queue. -/
def State.queued (s : State) (w : Write) : State := { s with link := { s.link with
  egress := s.link.egress ++ [({ id := w.id, warp := w.src, relaxed := !w.strict, bytes := w.bytes } : Posted)] } }

theorem execPostedWriteAck_next {s : State} {i : Nat} {w : Write} (hw : s.writes.find? (fun x => x.id == i) = some w)
    (hd : w.done = false) (first : s.firstWrite w = true) (hp : w.place = .posted) (up : s.link.down = false) :
    execPostedWriteAck i s = .next ((if w.op = none then (s.queued w).updWarp w.src (fun v => { v with posted := some w.id })
      else s.queued w).performed w w.bytes (s.dieTime 8)) := by
  unfold execPostedWriteAck
  simp only [hw]
  rw [if_neg (by simp [hd, first, hp, up])]
  cases w.op <;> rfl

theorem execFlushDone_next {s : State} {u : Nat} (posted : (s.warp u).posted.isSome = true) (up : s.link.down = false)
    (keys : s.carries (s.warp u).tenant = true) :
    execFlushDone u s = .next (s.pushPosted.updWarp u (fun v => { v with posted := none })) := by
  obtain ⟨k, hk⟩ := Option.isSome_iff_exists.mp posted
  simp [execFlushDone, hk, up, keys]

/-! ## The statement -/

/-- Settles O18: each row's equation above at the conditions that the statement names. The recall of every die in one step
(log 19), the unchanged object at a poisoned line (log 50) and the dies that CCTL.wb and CCTL.wbinv concern (log 131) are the
model's choices. -/
theorem writeStepsComplete : Obligations.WriteStepsComplete := by
  unfold Obligations.WriteStepsComplete
  intro i u w s
  refine ⟨fun hw hd first => ?perform, fun hw hd => ?ack, execFlushDone_next⟩
  case perform =>
    intro x cleaned
    refine ⟨fun wb wbinv barAdd bar => ?data, fun hk clean => ?_, fun hk clean => ?_, fun a as hk ha turn => ?_,
      fun op r a as hk hr ha turn => ?_, execPostedWriteAck_next hw hd first⟩
    case data =>
      have data := execWritePerform_data hw hd first ⟨wb, wbinv, barAdd, bar⟩
      refine ⟨fun hp state => data.trans ?_, fun hp turn => data.trans ?_, fun hp idle head up keys => data.trans ?_,
        fun hp => data.trans ?_, fun hp => data.trans ?_⟩ <;> simp only [State.performAt, hp]
      · refine onlyIf_eq_next "WRITE_PERFORM" _ ?_
        rcases state with state | state <;> simp [x] at state <;> simp [state]
      · exact onlyIf_eq_next "WRITE_PERFORM" _ (homeTurn_iff.mp turn)
      · exact onlyIf_eq_next "WRITE_PERFORM" _ (by simp [idle, headOfLine_iff.mp head, up, keys])
    · exact (execWritePerform_wb hw hd first hk).trans (performClean_next clean)
    · exact (execWritePerform_wbinv hw hd first hk).trans (performClean_next clean)
    · exact execWritePerform_barAdd hw hd first hk ha (homeTurn_iff.mp turn)
    · exact execWritePerform_bar hw hd first hk hr ha (homeTurn_iff.mp turn)
  case ack =>
    have next := execWriteAck_next hw hd
    exact ⟨fun hu ho => next.trans (congrArg _ (ackWrite_warp hu ho)),
      fun hu ho => next.trans (congrArg _ (ackWrite_none hu ho)),
      fun o hu ho => next.trans (congrArg _ (ackWrite_op hu ho))⟩

end Sys2Proof.Machine
end

section
/-! PROOF. Answers (R187, R189, R191): when a die gives a line up or answers a snoop, and what the home makes of it. -/

namespace Sys2Proof.Machine
open Sys2Proof.Safety

/-! ## The next message on a channel (R188) -/

theorem splitMsg_append {k : MsgKind} {d l : Nat} {m : Msg} {a b : List Msg} (hk : m.kind = k) (hd : m.die = d)
    (hl : m.line = l) (ahead : ∀ x ∈ a, x.die = d → x.line = l → x.kind ≠ k) :
    splitMsg k d l (a ++ m :: b) = some (a, m, b) := by
  induction a with
  | nil => simp [splitMsg, hk, hd, hl]
  | cons x a ih =>
    have other : ¬(x.kind = k ∧ x.die = d ∧ x.line = l) :=
      fun ⟨kind, die, line⟩ => ahead x List.mem_cons_self die line kind
    simp [splitMsg, other, ih fun y hy => ahead y (List.mem_cons_of_mem x hy)]

theorem takeMsg_of_arrives {s : State} {k : MsgKind} {d l : Nat} {m : Msg} {rest : List Msg} (h : Arrives s k d l m rest) :
    s.takeMsg k d l = some (m, { s with net := rest }) := by
  obtain ⟨a, b, net, rfl, hk, hd, hl, ahead⟩ := h
  have split := splitMsg_append (b := b) hk hd hl fun x hx die line kind => ahead x hx die line (congrArg _ kind)
  have clear : a.any (fun x => x.die == d && x.line == l && x.kind.channel == k.channel) = false := by
    simpa using ahead
  simp [State.takeMsg, net, split, clear]

/-! ## What the home waits for (R189) -/

theorem txn_eq_of_some {s : State} {l : Nat} {y : Txn} (h : (s.dirE l).txn = some y) : s.txn l = y := by
  simp [State.txn, h]

theorem awaits_of_some {s : State} {d l : Nat} {y : Txn} (h : (s.dirE l).txn = some y) (wait : y.wait.getLsbD d = true) :
    s.awaits d l = true := by
  simp [State.awaits, State.txn, h, wait]

theorem awaits_eq_false {s : State} {d l : Nat} (h : ∀ y, (s.dirE l).txn = some y → y.wait.getLsbD d = false) :
    s.awaits d l = false := by
  unfold State.awaits
  cases ht : (s.dirE l).txn with
  | none => rfl
  | some y => simp [txn_eq_of_some ht, h y ht]

/-! ## Lines that a die gives up (R151, R187) -/

theorem unleased_iff {s : State} {d l : Nat} : unleased s d l ↔ (!(s.l2 d l).locked && s.leasesOver d l) = true := by
  simp [unleased]

theorem leavable_iff {s : State} {d l : Nat} : leavable s d l ↔ s.evictable d l = true := by
  simp only [leavable, unleased, State.evictable, Bool.and_eq_true, Bool.or_eq_true, beq_iff_eq, Option.isNone_iff_eq_none,
    Bool.not_eq_true']
  tauto

theorem evictNext_of_leavesNext {s : State} {d l : Nat} (h : leavesNext s d l) : s.evictNext d l = true := by
  obtain ⟨leaves, first⟩ := h
  simp only [State.evictNext, leavable_iff.mp leaves, Bool.true_and, Bool.not_eq_true', List.any_eq_false, Bool.and_eq_true,
    decide_eq_true_eq, not_and]
  exact fun p hp rank evictable => first p hp rank (leavable_iff.mpr evictable)

/-! ## The die's answers (R187, R189) -/

section
variable {s : State} {d l : Nat}

theorem execWbd_send (state : (s.l2 d l).st = .M ∨ (s.l2 d l).st = .O) (next : leavesNext s d l) :
    execWbd .send d l s = .next (((s.notice d l).toState d l .MI).send
      { kind := .wbd, die := d, line := l, bytes := (s.l2 d l).bytes, pois := (s.l2 d l).pois, dirty := true }) :=
  onlyIf_eq_next "WBD" _ (by simp [state, evictNext_of_leavesNext next])

theorem execEvc_send (state : (s.l2 d l).st = .S ∨ (s.l2 d l).st = .E) (next : leavesNext s d l) :
    execEvc .send d l s = .next (((s.notice d l).updL2 d l (fun _ => {})).send { kind := .evc, die := d, line := l }) :=
  onlyIf_eq_next "EVC" _ (by simp [state, evictNext_of_leavesNext next])

theorem execAckinv_send (state : (s.l2 d l).st = .S ∨ (s.l2 d l).st = .SM ∨ (s.l2 d l).st = .O)
    (snoop : (s.l2 d l).snoop = some 0) (ended : unleased s d l) :
    execAckinv .send d l s = .next ((s.giveUp d l).send { kind := .ackinv, die := d, line := l }) :=
  onlyIf_eq_next "ACKINV" _ (by simp [or_assoc, state, snoop, ended.1, ended.2])

theorem execRspi_send (state : (s.l2 d l).st = .I ∨ (s.l2 d l).st = .IS ∨ (s.l2 d l).st = .IM)
    (snoop : (s.l2 d l).snoop.isSome = true) :
    execRspi .send d l s = .next ((s.updL2 d l (fun x => { x with snoop := none })).send
      { kind := .rspi, die := d, line := l }) :=
  onlyIf_eq_next "RSPI" _ (by simp [or_assoc, state, snoop])

/-- The line is one of those whose data the die can pass on. -/
def L2Line.copy (x : L2Line) : Prop := x.st = .M ∨ x.st = .E ∨ x.st = .O ∨ x.st = .SM ∨ x.st = .S

/-- The die's copy as an answer. -/
def State.rspdMsg (s : State) (d l : Nat) : Msg :=
  let x := s.l2 d l
  { kind := .rspd, die := d, line := l, bytes := x.bytes, pois := x.pois
    dirty := x.st == .M || x.st == .O || x.st == .SM || x.st == .MI }

theorem execRspd_send_buffer (state : (s.l2 d l).st = .MI) (snoop : (s.l2 d l).snoop.isSome = true) :
    execRspd .send d l s = .next ((s.giveUp d l).send (s.rspdMsg d l)) :=
  if_pos ⟨state, snoop⟩

theorem execRspd_send_shared (copy : (s.l2 d l).copy) (snoop : (s.l2 d l).snoop = some 1)
    (unlocked : (s.l2 d l).locked = false) :
    execRspd .send d l s = .next ((s.updL2 d l (fun x =>
      { x with snoop := none, st := if x.st = .M ∨ x.st = .E then .O else x.st })).send (s.rspdMsg d l)) := by
  have buffered : ¬((s.l2 d l).st = .MI ∧ (s.l2 d l).snoop.isSome) := by
    rintro ⟨state, -⟩
    simp [L2Line.copy, state] at copy
  refine (if_neg buffered).trans ((if_pos ⟨snoop, copy⟩).trans (onlyIf_eq_next "RSPD" _ ?_))
  simp [unlocked]

theorem execRspd_send_given (asked : ((s.l2 d l).st = .M ∨ (s.l2 d l).st = .E) ∧ (s.l2 d l).snoop = some 0 ∨
      (s.l2 d l).copy ∧ (s.l2 d l).snoop = some 2) (ended : unleased s d l) :
    execRspd .send d l s = .next ((s.giveUp d l).send (s.rspdMsg d l)) := by
  have buffered : ¬((s.l2 d l).st = .MI ∧ (s.l2 d l).snoop.isSome) := by
    rintro ⟨state, -⟩
    simp [L2Line.copy, state] at asked
  have shared : ¬((s.l2 d l).snoop = some 1 ∧ (s.l2 d l).copy) := by
    rintro ⟨snoop, -⟩
    simp [snoop] at asked
  refine (if_neg buffered).trans ((if_neg shared).trans ((if_pos ?_).trans
    (onlyIf_eq_next "RSPD" _ (unleased_iff.mp ended))))
  exact asked.symm.imp And.symm And.symm

end

/-! ## The home takes the answers (R189, R191) -/

/-- The home has a die's data, or knows it has none, and waits for it no more (R388). -/
def State.noted (t : State) (d l : Nat) (dirty : Bool) (m : Msg) : State :=
  t.updDir l (fun e => { e with txn := some { t.txn l with
    wait := (t.txn l).wait &&& ~~~ bit8 d, got := (t.txn l).got ++ [(d, dirty, m.bytes, m.pois)] } })

/-- A die's answer that it holds the line no more. -/
def State.relinquished (t : State) (d l : Nat) : State := ((t.unwait d l).unshare d l).answered l

/-- The owner's write-back stands for its data (R191, third way). -/
def State.wroteBack (t : State) (d l : Nat) (m : Msg) : State :=
  let u := (t.homeData m).unshare d l
  let waits (p : Bool) (v : State) : State := v.updDir l (fun e => { e with trans := 3, txn := some { t.txn l with wbd := p } })
  if (t.txn l).wait = bit8 d then
    waits true ((u.updDir l (fun e => { e with txn := some { t.txn l with wait := 0 } })).answered l)
  else waits false u

section
variable {s t : State} {d l : Nat} {m : Msg}

section
variable (taken : s.takeMsg .wbd d l = some (m, t))
include taken

theorem execWbd_take_unasked {e : DirE} (dir : t.dirE l = e) (asked : t.awaits d l = false) : execWbd .take d l s =
    .next ((if 2 ≤ e.state ∧ e.owner = d then (t.homeData m).unshare d l else t).wbAck d l) := by
  subst dir
  unfold execWbd
  simp only [taken, asked]
  by_cases owns : 2 ≤ (t.dirE l).state ∧ (t.dirE l).owner = d <;> simp [owns]

theorem execWbd_take_recov (asked : t.awaits d l = true) (recov : (t.txn l).recov = true) :
    execWbd .take d l s = .next ((t.noted d l true m).wbAck d l) := by
  unfold execWbd
  simp only [taken]
  exact if_pos (by simp [asked, recov])

theorem execWbd_take_given (asked : t.awaits d l = true) (recov : (t.txn l).recov = false)
    (other : (t.dirE l).trans ≠ 2 ∨ (t.dirE l).owner ≠ d) :
    execWbd .take d l s = .next ((t.relinquished d l).wbAck d l) := by
  unfold execWbd
  simp only [taken]
  refine (if_neg (by simp [recov])).trans ((if_neg ?_).trans (if_pos asked))
  rcases other with other | other <;> simp [other]

theorem execWbd_take_owner (asked : t.awaits d l = true) (recov : (t.txn l).recov = false)
    (trans : (t.dirE l).trans = 2) (owner : (t.dirE l).owner = d) :
    execWbd .take d l s = .next (t.wroteBack d l m) := by
  unfold execWbd
  simp only [taken]
  exact (if_neg (by simp [recov])).trans (if_pos (by simp [asked, trans, owner]))

end

theorem execEvc_take_awaited (taken : s.takeMsg .evc d l = some (m, t)) (asked : t.awaits d l = true)
    (trans : (t.dirE l).trans = 1) : execEvc .take d l s = .next ((t.dropSnoop d l).relinquished d l) := by
  unfold execEvc
  simp only [taken]
  exact if_pos (by simp [asked, trans])

theorem execEvc_take_unasked (taken : s.takeMsg .evc d l = some (m, t))
    (h : t.awaits d l = false ∨ (t.dirE l).trans ≠ 1) : execEvc .take d l s = .next (t.unshare d l) := by
  unfold execEvc
  simp only [taken]
  exact if_neg (by rcases h with h | h <;> simp [h])

theorem execAckinv_take (taken : s.takeMsg .ackinv d l = some (m, t)) :
    execAckinv .take d l s = .next (t.relinquished d l) := by
  unfold execAckinv
  simp only [taken]
  rfl

theorem execRspi_take_unasked (taken : s.takeMsg .rspi d l = some (m, t)) (asked : t.awaits d l = false) :
    execRspi .take d l s = .next t := by
  unfold execRspi
  simp only [taken]
  exact if_pos (by simp [asked])

theorem execRspi_take_awaited (taken : s.takeMsg .rspi d l = some (m, t)) (asked : t.awaits d l = true) :
    execRspi .take d l s = .next (t.relinquished d l) := by
  unfold execRspi
  simp only [taken]
  exact if_neg (by simp [asked])

section
variable (taken : s.takeMsg .rspd d l = some (m, t))
include taken

theorem execRspd_take_held (held : (t.dirE l).held.getLsbD d = true) : execRspd .take d l s =
    .next ((t.updDir l (fun e => { e with held := e.held &&& ~~~ bit8 d })).send { kind := .wback, die := d, line := l }) := by
  unfold execRspd
  simp only [taken]
  exact if_pos held

variable (held : (t.dirE l).held.getLsbD d = false)
include held

theorem execRspd_take_unasked (asked : t.awaits d l = false) : execRspd .take d l s = .next t := by
  unfold execRspd
  simp only [taken]
  exact (if_neg (by simp [held])).trans (if_pos (by simp [asked]))

variable (asked : t.awaits d l = true)
include asked

theorem execRspd_take_recov (recov : (t.txn l).recov = true) :
    execRspd .take d l s = .next (t.noted d l m.dirty m) := by
  unfold execRspd
  simp only [taken]
  exact (if_neg (by simp [held])).trans ((if_neg (by simp [asked])).trans (if_pos recov))

/-- The answer of an owner whose write-back was taken for its data. -/
theorem execRspd_take_written (recov : (t.txn l).recov = false) (trans : (t.dirE l).trans = 3) : execRspd .take d l s =
    .next (if (t.txn l).wbd then ((t.send { kind := .wback, die := d, line := l }).unwait d l).endTxn l
      else ((t.send { kind := .wback, die := d, line := l }).unwait d l).answered l) := by
  unfold execRspd
  simp only [taken]
  exact (if_neg (by simp [held])).trans ((if_neg (by simp [asked])).trans ((if_neg (by simp [recov])).trans (if_pos trans)))

theorem execRspd_take_data {y : Txn} (txn : t.txn l = y) (recov : y.recov = false) (trans : (t.dirE l).trans ≠ 3) :
    execRspd .take d l s = .next (if y.kind = .rds then
        (((t.homeData m).unwait d l).updDir l (fun e => { e with state := 3 })).answered l
      else (((t.homeData m).unwait d l).unshare d l).answered l) := by
  subst txn
  unfold execRspd
  simp only [taken]
  refine (if_neg (by simp [held])).trans ((if_neg (by simp [asked])).trans ((if_neg (by simp [recov])).trans
    ((if_neg trans).trans ?_)))
  by_cases kind : (t.txn l).kind = .rds <;> simp [kind]

end
end

/-! ## The statement -/

/-- Settles O30: each row's equation above at the conditions that the statement names. That an Evc drops a snoop not yet
delivered (log 17) and that passed data is also written home (log 16) are the model's choices. -/
theorem coherenceAnswersComplete : Obligations.CoherenceAnswersComplete := by
  unfold Obligations.CoherenceAnswersComplete
  intro d l s x e dirty data copy awaited unasked freed back given noted
  have asked : ∀ y, awaited y → s.awaits d l = true ∧ y = s.txn l :=
    fun y ⟨txn, wait⟩ => ⟨awaits_of_some txn wait, (txn_eq_of_some txn).symm⟩
  have idle : unasked → s.awaits d l = false := awaits_eq_false
  refine ⟨execWbd_send, execEvc_send, execAckinv_send, execRspd_send_given, execRspd_send_shared, execRspd_send_buffer,
    execRspi_send, fun m rest arr => ?wbd, fun m rest arr => ?evc, fun m rest arr => execAckinv_take (takeMsg_of_arrives arr),
    fun m rest arr => ?rspd, fun m rest arr => ?rspi⟩
  case wbd =>
    have taken := takeMsg_of_arrives arr
    refine ⟨fun h => execWbd_take_unasked taken rfl (idle h), fun y hy recov => ?_, fun y hy recov other => ?_,
      fun y hy recov trans owner => ?_⟩ <;> obtain ⟨awaits, rfl⟩ := asked y hy
    · exact execWbd_take_recov taken awaits recov
    · exact execWbd_take_given taken awaits recov other
    · exact execWbd_take_owner taken awaits recov trans owner
  case evc =>
    have taken := takeMsg_of_arrives arr
    exact ⟨fun y hy => execEvc_take_awaited taken (asked y hy).1, fun h => execEvc_take_unasked taken (h.imp_left idle)⟩
  case rspd =>
    have taken := takeMsg_of_arrives arr
    refine ⟨execRspd_take_held taken, fun held h => execRspd_take_unasked taken held (idle h),
      fun y held hy recov => ?_, fun y held hy recov trans => ?_, fun y held hy recov trans => ?_⟩ <;>
      obtain ⟨awaits, rfl⟩ := asked y hy
    · exact execRspd_take_recov taken held awaits recov
    · exact execRspd_take_written taken held awaits recov trans
    · exact execRspd_take_data taken held awaits rfl recov trans
  case rspi =>
    have taken := takeMsg_of_arrives arr
    exact ⟨fun h => execRspi_take_unasked taken (idle h), fun y hy => execRspi_take_awaited taken (asked y hy).1⟩

end Sys2Proof.Machine
end

section
/-! PROOF. Engines (R143 to R145, R171 to R184, R300 to R305): first reads, elements, landed bytes, tokens. -/

namespace Sys2Proof.Machine
open Sys2Proof.Safety

/-! ## What an engine waits for (R129, R143, R144) -/

section
variable {s : State} {o : EngOp}

theorem behind_iff {g : Nat} : behind s o g ↔ s.passed o g = true := by
  simp [behind, State.passed]

theorem mayRead_of_captured (h : Captured s o) : s.mayRead o = true := by
  obtain ⟨queued, caught, passed⟩ := h
  simp [State.mayRead, queued, caught, or_assoc, passed]

theorem engineTurn_of_engineFirst (h : engineFirst s o) : s.engineTurn o = true := by
  simp only [State.engineTurn, Bool.not_eq_true', List.any_eq_false, Bool.and_eq_true, Bool.or_eq_true, beq_iff_eq,
    decide_eq_true_eq]
  rintro e he ⟨⟨⟨standing, die⟩, engine⟩, before⟩
  have := h e he standing die engine
  omega

theorem unacked_eq_false (h : ∀ w ∈ s.writes, w.op ≠ some o.id) : s.unacked o.id = false := by
  simpa [State.unacked] using h

theorem unperformed_eq_false (h : performed s o) : s.unperformed o.id = false := by
  simpa [State.unperformed, performed] using h

theorem elementReady_of_elementFree (h : elementFree s o) : s.elementReady o = true := by
  unfold elementFree at h
  unfold State.elementReady
  split
  · next half =>
    rw [if_pos half] at h
    simp [unacked_eq_false h.1, behind_iff.mp h.2]
  · next half =>
    rw [if_neg half] at h
    rcases h with ⟨cls, func⟩ | done
    · simp [cls, or_assoc, func]
    · simp [unperformed_eq_false done]

theorem tokenReady_of_settled (h : settled s o) (adds : o.adds = []) : s.tokenReady o = true := by
  simp [State.tokenReady, unacked_eq_false h.1, adds, behind_iff.mp h.2]

theorem id_of_op {op : Nat} (ho : s.op op = some o) : o.id = op := by
  have found := List.find?_some ho
  simpa using found

end

/-! ## Starts (R143, R301 to R305) -/

theorem stopped_eq_next {s : State} {o : EngOp} {e : Stop} (row : String) (h : e ≠ .wait) :
    s.stopped row o e = .next (s.stopOp o.id e) := by
  cases e with
  | wait => exact absurd rfl h
  | _ => rfl

theorem Stop.graph_ne_wait {e : Stop} (h : e ≠ .wait) : e.graph ≠ .wait := by
  cases e with
  | code c => simp [Stop.graph]
  | _ => exact h

/-- What a graph operation is for, carried out (R301 to R305). -/
def State.graphStart (s : State) (o : EngOp) : Out :=
  match o.func with
  | 0 => .next (s.launch o)
  | 1 => s.emit o
  | 2 => match s.doNdone o with | some t => .next t | none => no "ENGINE_START"
  | 3 => match s.doSlotw o with | some t => .next t | none => no "ENGINE_START"
  | _ => .next (s.doPrmpt o)

section
variable {s : State} {op : Nat} {o : EngOp} (ho : s.op op = some o) (started : o.started = false) (stage : o.stage = 0)
  (code : o.code = none)
include ho started stage code

theorem execEngineStart_cancelled (queue : o.queued' = true) (cancel : o.cancel = true) :
    execEngineStart op s = .next (s.endOp op 1) := by
  unfold execEngineStart
  simp only [ho]
  exact (if_neg (by simp [queue, started, stage, code])).trans (if_pos cancel)

variable (cancel : o.cancel = false) (free : unheld o) (captured : Captured s o)
include cancel free captured

theorem execEngineStart_eq (queue : o.queued' = true) (turn : o.copies = true → engineFirst s o) :
    execEngineStart op s = if o.cls ≠ 0xD then .next (s.beginCopy o) else s.graphStart o := by
  obtain ⟨susp, away, susc⟩ := free
  have first : (o.copies && !s.engineTurn o) = false := by
    cases copies : o.copies
    · rfl
    · simp [engineTurn_of_engineFirst (turn copies)]
  unfold execEngineStart
  simp only [ho]
  refine (if_neg (by simp [queue, started, stage, code])).trans ((if_neg (by simp [cancel])).trans ((if_neg ?_).trans rfl))
  simp [susp, away, susc, mayRead_of_captured captured, first]

theorem execEngineStart_copy (copies : o.copies = true) (turn : engineFirst s o) :
    execEngineStart op s = .next (s.beginCopy o) := by
  have other : o.cls ≠ 0xD := by
    intro cls
    simp [EngOp.copies, cls] at copies
  exact (execEngineStart_eq ho started stage code cancel free captured (by simp [EngOp.queued', copies]) fun _ => turn).trans
    (if_pos other)

theorem execEngineStart_graph (cls : o.cls = 0xD) : execEngineStart op s = s.graphStart o :=
  (execEngineStart_eq ho started stage code cancel free captured (by simp [EngOp.queued', cls])
    fun copies => by simp [EngOp.copies, cls] at copies).trans (if_neg (by simp [cls]))

end

section
variable {s : State} {o : EngOp}

/-- A CPY without a barrier object reads its source at once (R176). -/
theorem beginCopy_cpy (cls : o.cls = 8) (func : o.func = 0) (bar : o.barVa = none) :
    s.beginCopy o = (s.updOp o.id (fun _ =>
      { o with bar := none, table := s.snapshot o o.b o.c, started := true })).settleOp o.id := by
  have prepared : s.prepare { o with bar := none } = .ok { o with bar := none, table := s.snapshot o o.b o.c } := by
    unfold State.prepare
    rw [if_neg (by simp [cls]), if_neg (by simp [cls])]
    simp only [func]
    rfl
  unfold State.beginCopy
  simp only [bar] at prepared ⊢
  simp only [prepared]

theorem graphStart_launch (func : o.func = 0) : s.graphStart o = .next (s.launch o) := by
  simp only [State.graphStart, func]

theorem graphStart_emit (func : o.func = 1) : s.graphStart o = s.emit o := by
  simp only [State.graphStart, func]

theorem graphStart_prmpt (func : o.func = 4) : s.graphStart o = .next (s.doPrmpt o) := by
  simp only [State.graphStart, func]

theorem graphStart_ndone (func : o.func = 2) (ready : s.releaseReady o.warp o.scope = true)
    (first : ∀ e ∈ s.ops, e.cls = 0xD → e.func = 2 → e.warp = o.warp → e.code = none → o.id ≤ e.id) :
    s.graphStart o = .next (if (s.warp o.warp).ndone then s.endOp o.id 1 else
      ((s.updWarp o.warp (fun w => { w with ndone := true })).updInst o.inst (fun i =>
        { i with marks := true, status := i.status ||| BitVec.ofNat 32 o.b })).endOp o.id 0) := by
  have alone : s.ops.any (fun e => e.cls == 0xD && e.func == 2 && e.warp == o.warp && e.id < o.id && e.code.isNone) = false := by
    simp only [List.any_eq_false, Bool.and_eq_true, beq_iff_eq, decide_eq_true_eq, Option.isNone_iff_eq_none]
    rintro e he ⟨⟨⟨⟨cls, func⟩, warp⟩, before⟩, code⟩
    exact absurd (first e he cls func warp code) (Nat.not_le.mpr before)
  simp only [State.graphStart, func, State.doNdone, ready, alone]
  cases (s.warp o.warp).ndone <;> rfl

/-- What SLOTW does once the core has no image that waits (R304). -/
def State.putImage (s : State) (o : EngOp) : State :=
  if 512 ≤ o.b ∨ s.plat.absCores.contains o.b then s.endOp o.id 2
  else match s.devRead o o.a 528 1 with
    | .error e => s.stopOp o.id e
    | .ok bs =>
      let x := leNat bs
      if bitsOf x 4128 96 ≠ 0 then s.endOp o.id 9
      else (s.updCore o.b (fun c => { c with image := some ((List.range 1024).map (fun e => bitsOf x (4 * e) 4),
          bitsOf x 4096 16, bitsOf x 4112 16, o.id) })).updOp o.id (fun e => { e with started := true })

theorem graphStart_slotw (func : o.func = 3) (image : (s.core o.b).image = none) :
    s.graphStart o = .next (s.putImage o) := by
  have written : s.doSlotw o = some (s.putImage o) := if_neg (by simp [image])
  simp only [State.graphStart, func, written]

/-- The contexts of the node that PRMPT names (R305). -/
def State.named (s : State) (o : EngOp) : List Nat :=
  (s.insts.filter (fun p => p.2.asd == o.asd && p.2.node == o.a && p.2.state == 1 && s.resident p.1)).map (·.1)

/-- PRMPT asks every context of its node to stop; its token has code 0x21 where there is none (R305). -/
def State.prmpted (s : State) (o : EngOp) : State :=
  match s.readNode o with
  | .error e => s.stopOp o.id e
  | .ok _ => if s.named o = [] then s.endOp o.id 0x21
    else (((s.named o).foldl (fun s i => (s.askStop i (o.b == 1)).updInst i (fun x =>
      { x with stopops := x.stopops ++ [o.id] })) s).updOp o.id (fun e => { e with started := true })).settleStops

theorem doPrmpt_eq : s.doPrmpt o = s.prmpted o := by
  unfold State.doPrmpt State.prmpted
  cases s.readNode o with
  | error e => rfl
  | ok p =>
    by_cases none_runs : s.named o = []
    · exact (if_pos (List.isEmpty_iff.mpr none_runs)).trans (if_pos none_runs).symm
    · exact (if_neg fun h => none_runs (List.isEmpty_iff.mp h)).trans (if_neg none_runs).symm

/-! ## EMIT (R302) -/

theorem emit_unread {e : Stop} (node : s.readNode o = .error e) (h : e ≠ .wait) : s.emit o = .next (s.stopOp o.id e) := by
  unfold State.emit
  simp only [node]
  exact stopped_eq_next "ENGINE_START" h

/-- The node's queue cannot take the records. -/
def NodeD.lacks (d : NodeD) (n : Nat) : Prop := d.qcap = 0 ∨ d.qcap ≤ d.tail + n - 1 - d.taken

/-- The places of EMIT's records, cut out of what it has read. -/
def State.emitRecs (s : State) (o : EngOp) (d : NodeD) (a : Nat) (bs : List Byte) :
    Except Stop (List (List (Nat × Nat × Bool) × List Byte)) :=
  s.emitPlaces d a ((List.range o.c).map (fun i => (d.tail + i, (bs.drop (d.recSize * i)).take d.recSize)))

/-- The pool takes EMIT: TAIL first, then the records (log 126). -/
def State.emitted (u : State) (o : EngOp) (d : NodeD) (ta : Nat) (ps : List (List (Nat × Nat × Bool) × List Byte)) : State :=
  let l := lineOf (ta + 120)
  let tail : Write := {
    id := u.clk.fresh, warp := none, src := o.warp, op := some o.id, core := o.core, die := o.core / 64
    line := l, place := .bank, kind := .store, tenant := o.tenant, time := u.clk.time
    bytes := (leBytes 8 (d.tail + o.c)).mapIdx (fun i b => (ta + 120 + i, b)) }
  let t := ({ u.bump with writes := u.writes ++ [tail] }.recall l).performHome tail l (u.dieTime (stackOf l))
  ((ps.foldl (fun t p => t.poolWrite o p.1 p.2) t).updNodeQ o.asd o.a id).endOp o.id 0

/-- EMIT into a node whose queue has room. -/
def State.emitInto (s : State) (o : EngOp) (d : NodeD) (a : Nat) : Out :=
  match s.devRead o o.b (d.recSize * o.c) 8, s.engDev o o.a 128 128 1 with
  | .error e, _ => s.stopped "ENGINE_START" o e
  | _, .error e => s.stopped "ENGINE_START" o e.graph
  | .ok bs, .ok ta => match s.emitRecs o d a bs with
    | .error e => s.stopped "ENGINE_START" o e
    | .ok ps => s.atHome "ENGINE_START" o (ta + 120) (fun u => u.emitted o d ta ps)

section
variable {x h : Nat} (node : s.readNode o = .ok (x, h))
include node

theorem emit_full (full : (NodeD.ofNat x).lacks o.c) : s.emit o = .next (s.endOp o.id 0x20) := by
  unfold State.emit
  simp only [node]
  exact if_pos full

theorem emit_room (room : ¬(NodeD.ofNat x).lacks o.c) :
    s.emit o = s.emitInto o (NodeD.ofNat x) (nodeAsd o.asd h) := by
  unfold State.emit
  simp only [node]
  exact if_neg room

end

section
variable {d : NodeD} {a : Nat}

theorem emitInto_source {e : Stop} (source : s.devRead o o.b (d.recSize * o.c) 8 = .error e) (he : e ≠ .wait) :
    s.emitInto o d a = .next (s.stopOp o.id e) := by
  simp only [State.emitInto, source]
  exact stopped_eq_next "ENGINE_START" he

variable {bs : List Byte} (source : s.devRead o o.b (d.recSize * o.c) 8 = .ok bs)
include source

theorem emitInto_target {e : Stop} (target : s.engDev o o.a 128 128 1 = .error e) (he : e ≠ .wait) :
    s.emitInto o d a = .next (s.stopOp o.id e.graph) := by
  simp only [State.emitInto, source, target]
  exact stopped_eq_next "ENGINE_START" (Stop.graph_ne_wait he)

variable {ta : Nat} (target : s.engDev o o.a 128 128 1 = .ok ta)
include target

theorem emitInto_places {e : Stop} (places : s.emitRecs o d a bs = .error e) (he : e ≠ .wait) :
    s.emitInto o d a = .next (s.stopOp o.id e) := by
  simp only [State.emitInto, source, target, places]
  exact stopped_eq_next "ENGINE_START" he

theorem emitInto_eq {ps : List (List (Nat × Nat × Bool) × List Byte)} (places : s.emitRecs o d a bs = .ok ps) :
    s.emitInto o d a = s.atHome "ENGINE_START" o (ta + 120) (fun u => u.emitted o d ta ps) := by
  simp only [State.emitInto, source, target, places]

end
end

/-! ## Elements, landed bytes and tokens (R144, R145, R173 to R181) -/

/-- What a copy read at its start of a part of its source (R176). -/
def EngOp.kept (o : EngOp) (chunk : Nat × Nat) : List Nat := (o.table.drop chunk.1).take chunk.2

/-- The same as bytes. -/
def EngOp.keptBytes (o : EngOp) (chunk : Nat × Nat) : List Byte := (o.kept chunk).map (fun n => BitVec.ofNat 8 n)

/-- One line of a CPY whose source was read whole (R176, R177). -/
theorem element_cpy {s : State} {o : EngOp} {chunk : Nat × Nat} {ls : List (ELoc × Nat)} (cls : o.cls = 8) (func : o.func = 0)
    (hc : cpyChunk o.a o.b o.c o.idx = chunk) (read : ∀ n ∈ o.kept chunk, n < 256)
    (locs : s.engLocs o 1 (pieces (addr64 (o.a + chunk.1)) (o.kept chunk).length) = .ok ls) :
    s.element o = .ok ((s.putPieces o ls (o.keptBytes chunk)).1.stepOp o chunk.2 chunk.2
      (s.putPieces o ls (o.keptBytes chunk)).2) := by
  have lacks (k : Nat) (hk : 256 ≤ k) : ((o.table.drop chunk.1).take chunk.2).contains k = false := by
    simp only [List.contains_eq_mem, decide_eq_false_iff_not]
    exact fun mem => absurd (read k mem) (Nat.not_lt.mpr hk)
  have written : s.engWrite o (addr64 (o.a + chunk.1)) (o.keptBytes chunk) = .ok (s.putPieces o ls (o.keptBytes chunk)) := by
    simp only [State.engWrite, EngOp.keptBytes, List.length_map, locs]
  have once : s.element o = s.cpyElement o := by
    unfold State.element
    rw [if_neg (by simp [cls]), if_neg (by simp [cls])]
    simp only [func]
  unfold EngOp.keptBytes EngOp.kept at written ⊢
  rw [once]
  simp only [State.cpyElement, hc, lacks 256 (Nat.le_refl _), lacks 257 (by decide), Bool.false_eq_true, if_false, written]

section
variable {s : State} {op : Nat} {o : EngOp} (ho : s.op op = some o)
include ho

theorem execCopyElement_cancelled (copying : o.copying = true) (cancel : o.cancel = true) (between : o.next = 0 ∨ o.susc ≠ 0) :
    execCopyElement op s = .next (s.endOp op 1) := by
  unfold execCopyElement
  simp only [ho]
  refine (if_neg (by simp [copying])).trans (if_pos ?_)
  simpa [cancel] using between

theorem execCopyElement_eq (copying : o.copying = true) (susc : o.susc = 0) (turn : engineFirst s o) (free : elementFree s o)
    (between : o.next = 0 → o.cancel = false ∧ o.susp = false ∧ o.away = false) :
    execCopyElement op s = .next (match s.element o with
      | .error e => s.stopOp op e
      | .ok t => t.settleOp op) := by
  have goes : (o.cancel && (o.next == 0 || o.susc != 0)) = false := by
    rcases Nat.eq_zero_or_pos o.next with next | next
    · simp [(between next).1]
    · simp [susc, next.ne']
  have runs : ((o.susp || o.away) && o.next == 0) = false := by
    rcases Nat.eq_zero_or_pos o.next with next | next
    · simp [(between next).2.1, (between next).2.2]
    · simp [next.ne']
  unfold execCopyElement
  simp only [ho]
  refine (if_neg (by simp [copying])).trans ((if_neg (by simp [goes])).trans ((if_neg ?_).trans ?_))
  · simp only [runs, susc, engineTurn_of_engineFirst turn, elementReady_of_elementFree free]
    decide
  · cases s.element o <;> rfl

theorem execByteAddition_eq {ta n g : Nat} {pre post : List (Nat × Nat × List Nat)} (bar : o.bar = some ta)
    (adds : o.adds = pre ++ (n, g, []) :: post) (landed : behind s o g) (first : ∀ a ∈ pre, a.2.2 = [] → ¬behind s o a.2.1) :
    execByteAddition op s = s.atHome "BYTE_ADDITION" o ta (fun u =>
      (u.updOp op (fun e => { e with adds := e.adds.erase (n, g, []) })).barChange o.team ta (fun b => b.addBytes n)) := by
  have found : o.adds.find? (fun a => a.2.2.isEmpty && s.passed o a.2.1) = some (n, g, []) := by
    rw [adds, List.find?_append, List.find?_eq_none.mpr]
    · simp [behind_iff.mp landed]
    · intro a ha
      simpa [behind_iff] using first a ha
  unfold execByteAddition
  simp only [ho, bar, found]

/-- The token is given, and the operation gone. -/
def State.tokened (t : State) (op : Nat) (o : EngOp) (c : Nat) : State :=
  let gone := { t with ops := t.ops.filter (fun (e : EngOp) => e.id != op) }.unpin o.root
  if o.cls = 0xF then gone.updInst o.inst (fun i => { i with err := if c = 0 then i.err else 5, left := none })
  else gone.updWarp o.warp (fun w => w.putToken o (BitVec.ofNat 32 (c + 2 ^ 8 * o.info)))

theorem execTokenWrite_eq {c : Nat} (code : o.code = some c) (done : settled s o) (adds : o.adds = []) :
    execTokenWrite op s = match o.bar with
      | some ta => if c = 0 then .next (s.tokened op o c)
        else s.atHome "TOKEN_WRITE" o ta (fun u => (u.barChange o.team ta Bar.setOver).tokened op o c)
      | none => .next (s.tokened op o c) := by
  unfold execTokenWrite
  simp only [ho, code, tokenReady_of_settled done adds, EngOp.listOp, beq_iff_eq]
  rfl

end

/-! ## The statement -/

/-- Settles O26: each row's equation above at the conditions that the statement names. That EMIT writes TAIL first and the
records after it (log 126), and that SLOTW of an absent core ends with code 2 (log 89), are the model's choices. -/
theorem engineEventsComplete : Obligations.EngineEventsComplete := by
  unfold Obligations.EngineEventsComplete
  refine ⟨fun op o s ho started stage code => ?start, fun op o s ho => ?goes⟩
  case start =>
    intro starts graph
    have begins (n : Nat) (h : graph n) : exec (.engineStart op) s = s.graphStart o := by
      obtain ⟨cancel, free, captured, cls, -⟩ := h
      exact execEngineStart_graph ho started stage code cancel free captured cls
    have func (n : Nat) (h : graph n) : o.func = n := by
      obtain ⟨-, -, -, -, func⟩ := h
      exact func
    refine ⟨fun queue cancel => ?_, fun copies cancel free captured turn => ?_, fun h => ?_, fun h => ?emit, fun h ready first => ?_,
      fun h image => ?_, fun h => ?_⟩
    · exact execEngineStart_cancelled ho started stage code (by simpa [EngOp.queued'] using queue) cancel
    · have copy := execEngineStart_copy ho started stage code cancel free captured copies turn
      exact ⟨copy, fun cls func bar => copy.trans (congrArg _ (beginCopy_cpy cls func bar))⟩
    · exact (begins 0 h).trans (graphStart_launch (func 0 h))
    case emit =>
      have emit := (begins 1 h).trans (graphStart_emit (func 1 h))
      refine ⟨fun e node he => emit.trans (emit_unread node he), fun x hd node => ?_⟩
      intro d full places
      refine ⟨fun h => emit.trans (emit_full node h), fun room => ?_⟩
      have goes := emit.trans (emit_room node room)
      refine ⟨fun e source he => goes.trans (emitInto_source source he), fun bs source =>
        ⟨fun e target he => goes.trans (emitInto_target source target he), fun ta target =>
          ⟨fun e places he => goes.trans (emitInto_places source target places he), fun ps places => ?_⟩⟩⟩
      have home := goes.trans (emitInto_eq source target places)
      exact ⟨fun joins => home.trans (atHome_joins joins), fun u at_home => home.trans (atHome_runs at_home)⟩
    · exact (begins 2 h).trans (graphStart_ndone (func 2 h) ready first)
    · exact (begins 3 h).trans (graphStart_slotw (func 3 h) image)
    · exact (begins 4 h).trans ((graphStart_prmpt (func 4 h)).trans (congrArg _ doPrmpt_eq))
  case goes =>
    intro starts
    refine ⟨execCopyElement_cancelled ho, fun ⟨copying, susc, turn, free⟩ between => ?element,
      fun ta pre n g post bar adds landed first => ?add, fun c code done adds => ?token⟩
    case element =>
      have goes := execCopyElement_eq ho copying susc turn free between
      refine ⟨goes, fun ls cls func => ?_⟩
      intro chunk read bs small locs
      have line := element_cpy cls func rfl small locs
      exact goes.trans (by rw [line]; rfl)
    case add =>
      have home := execByteAddition_eq ho bar adds landed first
      exact ⟨fun joins => home.trans (atHome_joins joins), fun u at_home => home.trans (atHome_runs at_home)⟩
    case token =>
      have writes := execTokenWrite_eq ho code done adds
      refine ⟨fun plain => writes.trans ?_, fun ta bar error => ?_⟩
      · rcases plain with rfl | bar
        · cases o.bar <;> rfl
        · simp only [bar]
          rfl
      · have home : exec (.tokenWrite op) s = s.atHome "TOKEN_WRITE" o ta (fun u =>
            (u.barChange o.team ta Bar.setOver).tokened op o c) := by
          refine writes.trans ?_
          simp only [bar]
          exact if_neg error
        exact ⟨fun joins => home.trans (atHome_joins joins), fun u at_home => home.trans (atHome_runs at_home)⟩

end Sys2Proof.Machine
end

section
/-! PROOF. The accesses of memory words (R126, R148, R202, R349): what their walks leave as it was, which lanes they belong
to, and which of them a region does not permit. -/

namespace Sys2Proof.Machine
open Sys2Proof.Safety

/-! ## What walks leave as it was -/

/-- What does not read the trees' bitmaps reads the same after the walks of a word's addresses (R349). -/
theorem noteAccess_reads {α : Type} (g : State → α) (hg : ∀ s x, g { s with trees := x } = g s) (b : State) (f : OpM)
    (off : Int) : g (b.noteAccess f off) = g b := by
  obtain ⟨x, hx⟩ := noteAccess_frame b f off
  rw [hx, hg]

section
variable (b : State) (f : OpM) (off : Int)

@[simp] theorem wWarp_noteAccess : (b.noteAccess f off).wWarp = b.wWarp :=
  noteAccess_reads State.wWarp (fun _ _ => rfl) b f off

@[simp] theorem scrFails_noteAccess (q : OpM) (rd : Bool) (as : List Acc) :
    (b.noteAccess f off).scrFails q rd as = b.scrFails q rd as :=
  noteAccess_reads (fun s => s.scrFails q rd as) (fun _ _ => rfl) b f off

@[simp] theorem dataOf_noteAccess (l : Nat) (sz : Size) (x : Src) : (b.noteAccess f off).dataOf l sz x = b.dataOf l sz x :=
  noteAccess_reads (fun s => s.dataOf l sz x) (fun _ _ => rfl) b f off

@[simp] theorem accPoison_noteAccess (r : Req) (a : Acc) :
    (b.noteAccess f off).accPoison ((b.noteAccess f off).newReq r) a = b.accPoison (b.newReq r) a :=
  noteAccess_reads (fun s => s.accPoison (s.newReq r) a) (fun _ _ => rfl) b f off

@[simp] theorem regionTrap_noteAccess (q : OpM) (o : Int) (kind : Nat) (never : Bool) (as : List Acc) :
    (b.noteAccess f off).regionTrap q o kind never as = b.regionTrap q o kind never as :=
  noteAccess_reads (fun s => s.regionTrap q o kind never as) (fun _ _ => rfl) b f off

variable {b f off}

theorem lone_noteAccess (h : lone b) : lone (b.noteAccess f off) := by
  unfold lone
  rwa [wWarp_noteAccess]

end

/-! ## The accesses of a word and the lanes that they belong to (R148) -/

/-- The access that an address leads to, where its translation succeeds. -/
def State.accAt (b : State) (n kind : Nat) (p : Nat × Nat) : Option Acc :=
  match b.tgtAt b.who.warp p.2 kind with
  | .ok x => some { lane := p.1, ta := x.addr, len := n, unc := x.uncached, left := List.range n }
  | .error _ => none

theorem lane_of_accAt {b : State} {n kind : Nat} {p : Nat × Nat} {a : Acc} (h : b.accAt n kind p = some a) : a.lane = p.1 := by
  unfold State.accAt at h
  split at h
  · exact (Option.some.inj h) ▸ rfl
  · contradiction

/-- Addresses that pass the checks lead to what each of them translates to. -/
theorem resolve_ok {b : State} {u : Nat} {w : Want} {ps : List (Nat × Nat)} {n kind : Nat} {ts : List (Nat × Tgt)}
    (h : b.resolve u w ps n kind = .ok ts) :
    ts = ps.filterMap (fun p => match b.tgtAt u p.2 kind with | .ok x => some (p.1, x) | .error _ => none) := by
  unfold State.resolve at h
  dsimp only at h
  split at h
  · contradiction
  split at h
  · contradiction
  split at h
  · contradiction
  rw [← Except.ok.inj h, List.filterMap_map]
  rfl

theorem accs_ok {b : State} {f : OpM} {w : Want} {n kind : Nat} {off : Int} {as : List Acc} (h : b.accs f w n kind off = .ok as) :
    as = (b.addrs f off).filterMap (b.accAt n kind) := by
  unfold State.accs at h
  split at h
  · contradiction
  · next ts hts =>
    rw [← Except.ok.inj h, resolve_ok hts, List.map_filterMap]
    congr 1
    funext p
    unfold State.accAt
    cases b.tgtAt b.who.warp p.2 kind <;> rfl

section
variable {b : State} {f : OpM} {w : Want} {n kind : Nat} {off : Int} {as : List Acc} (h : b.accs f w n kind off = .ok as)
include h

theorem lane_of_accs {c : Acc} (hc : c ∈ as) : c.lane ∈ b.addrLanes f := by
  rw [accs_ok h, State.addrs_eq] at hc
  obtain ⟨p, hp, ha⟩ := List.mem_filterMap.1 hc
  obtain ⟨l, hl, rfl⟩ := List.mem_map.1 hp
  rwa [lane_of_accAt ha]

theorem lane_lt_of_accs {c : Acc} (hc : c ∈ as) : c.lane < 32 := by
  have hl := lane_of_accs h hc
  unfold State.addrLanes at hl
  split at hl
  · rw [List.mem_singleton.1 hl]; exact uLane_lt b
  · exact lt_of_mem_lanesOf hl

/-- A U form has one access. -/
theorem accs_of_group (hu : f.com.u = true) {c : Acc} (hc : c ∈ as) : as = [c] := by
  rw [accs_ok h, State.addrs_eq, State.addrLanes, if_pos hu] at hc ⊢
  cases hp : b.accAt n kind (b.uLane, b.addrOf f off b.uLane) with
  | none => simp [hp] at hc
  | some a => simp_all

end

/-! ## The lanes of a word that are in a region -/

theorem getLsbD_regionLanes (b : State) (ls : Lanes) {l : Nat} (hl : l < 32) :
    (b.regionLanes ls).getLsbD l = (!b.untracked && ls.getLsbD l && (b.wWarp.regions.find l).isSome) := by
  unfold State.regionLanes
  cases b.untracked with
  | true => simp
  | false => rw [if_neg (by simp), getLsbD_maskOf _ hl]; simp [mem_lanesOf, hl]

/-- Regions are the oldest way's, outside any guess routine and outside the handler (R203). -/
theorem tracked_of_regionLanes {b : State} {ls : Lanes} (h : b.regionLanes ls ≠ 0) :
    b.inHandler = false ∧ b.youngWay = false ∧ b.guessing = false := by
  have tracked : b.untracked = false := by
    by_contra hu
    exact h (if_pos (Bool.eq_true_of_not_eq_false hu))
  simp only [State.untracked, Bool.or_eq_false_iff] at tracked
  obtain ⟨⟨own, -⟩, old⟩ := tracked
  exact ⟨own, old, (Bool.or_eq_false_iff.1 old).2⟩

/-! ## The trap of the lanes that reach what their region may not -/

/-- What `regionTrap` tests of an access. -/
def State.shuts (b : State) (u never : Bool) (c : Acc) : Bool :=
  (if u then b.regionLanes b.active != 0 else (b.regionLanes b.active).getLsbD c.lane) && (never || !isDev c.ta)

theorem shuts_iff {b : State} {r : Reach} {c : Acc} : b.shuts r.f.com.u r.never c = true ↔ shutAt b r c := by
  unfold State.shuts shutAt
  cases r.f.com.u <;> simp

section
variable {b : State} {f : OpM} {off : Int} {kind : Nat} {never : Bool} {as : List Acc}

theorem regionTrap_none (h : ∀ c ∈ as, b.shuts f.com.u never c = false) : b.regionTrap f off kind never as = none := by
  have none_left : as.filter (b.shuts f.com.u never) = [] := List.filter_eq_nil_iff.2 fun c hc => by simp [h c hc]
  unfold State.shuts at none_left
  simp only [State.regionTrap, none_left]

theorem regionTrap_some (h : ∃ c ∈ as, b.shuts f.com.u never c = true) : b.regionTrap f off kind never as =
    some (b.accTrap f off 0x11 kind ((as.filter (b.shuts f.com.u never)).map (·.lane))) := by
  obtain ⟨c, hc, shut⟩ := h
  have some_left : as.filter (b.shuts f.com.u never) ≠ [] := List.ne_nil_of_mem (List.mem_filter.2 ⟨hc, shut⟩)
  unfold State.shuts at some_left ⊢
  unfold State.regionTrap
  dsimp only
  split
  · contradiction
  · rfl

/-- The test looks at an access's lane and target only. -/
@[simp] theorem regionTrap_unread (b : State) (f : OpM) (off : Int) (kind : Nat) (never : Bool) (as : List Acc) :
    b.regionTrap f off kind never (as.map fun a => { a with left := [] }) = b.regionTrap f off kind never as := by
  by_cases h : ∃ c ∈ as, b.shuts f.com.u never c = true
  · obtain ⟨c, hc, shut⟩ := h
    rw [regionTrap_some ⟨c, hc, shut⟩, regionTrap_some ⟨_, List.mem_map_of_mem hc, shut⟩, List.filter_map, List.map_map]
    rfl
  · simp only [not_exists, not_and, Bool.not_eq_true] at h
    rw [regionTrap_none h]
    exact regionTrap_none (List.forall_mem_map.2 h)

end

@[simp] theorem State.widen_kind (b : State) (u : Bool) (t : Trap) : (b.widen u t).kind = t.kind := by cases u <;> rfl

@[simp] theorem State.accTrap_cause (b : State) (f : OpM) (off : Int) (cause kind : Nat) (bad : List Nat) :
    (b.accTrap f off cause kind bad).cause = cause := b.widen_cause f.com.u _

@[simp] theorem State.accTrap_kind (b : State) (f : OpM) (off : Int) (cause kind : Nat) (bad : List Nat) :
    (b.accTrap f off cause kind bad).kind = kind := b.widen_kind f.com.u _

theorem getLsbD_accTrap_lanes (b : State) (f : OpM) (off : Int) (cause kind : Nat) (bad : List Nat) {l : Nat} (hl : l < 32) :
    (b.accTrap f off cause kind bad).lanes.getLsbD l = if f.com.u then b.active.getLsbD l else decide (l ∈ bad) := by
  unfold State.accTrap
  cases f.com.u with
  | true => rfl
  | false => exact getLsbD_maskOf bad hl

/-! ## Words outside regions (R202) -/

section
variable {b : State} {f : OpM} {w : Want} {n kind : Nat} {off : Int} {as : List Acc} (out : outsideRegions b f.com)
  (accs : b.accs f w n kind off = .ok as)
include out accs

theorem shuts_outside (never : Bool) {c : Acc} (hc : c ∈ as) : b.shuts f.com.u never c = false := by
  have lane := lane_of_accs accs hc
  have hl := lane_lt_of_accs accs hc
  unfold outsideRegions State.workLanes at out
  unfold State.addrLanes at lane
  unfold State.shuts
  cases hu : f.com.u with
  | true =>
    rw [hu, if_pos rfl] at out
    simp [out]
  | false =>
    rw [hu, if_neg (by decide)] at out lane
    have idle : (b.regionLanes (b.executing f.com)).getLsbD c.lane = false := by rw [out]; exact BitVec.getLsbD_zero
    rw [getLsbD_regionLanes _ _ hl, (mem_lanesOf.1 lane).2, Bool.and_true] at idle
    rw [getLsbD_regionLanes _ _ hl, Bool.and_right_comm, idle, Bool.false_and]
    rfl

theorem regionTrap_outside (o : Int) (k : Nat) (never : Bool) : b.regionTrap f o k never as = none :=
  regionTrap_none fun _ hc => shuts_outside out accs never hc

end

end Sys2Proof.Machine
end

section
/-! PROOF. Words in a region (R202, R203): what it shuts out before it acts, and what it shuts out by the addresses that the
word reaches. -/

namespace Sys2Proof.Machine
open Sys2Proof.Safety

/-! ## Words that a region shuts out before they act -/

/-- The trap of a word that its region does not permit (R202). -/
def State.shutTrap (b : State) (c : Common) : Trap :=
  { cause := 0x11, lanes := if c.u then b.active else b.regionLanes (b.workLanes c) }

theorem noRegion_shut {b : State} {c : Common} {eff : State → Eff} (h : b.regionLanes (b.workLanes c) ≠ 0) :
    b.noRegion c eff = .trap (b.shutTrap c) := if_neg h

/-- The word is issued with an effect that is region misuse wherever a lane that would work is in a region. -/
def ShutsOut (i : Instr) (c : Common) : Prop :=
  ∃ eff : State → Eff, (∀ s, exec i s = .next (s.issue i eff)) ∧
    ∀ b, b.regionLanes (b.workLanes c) ≠ 0 → eff b = .trap (b.shutTrap c)

theorem ShutsOut.traps {i : Instr} {u : Uses} (h : ShutsOut i u.com) :
    Traps i (fun b => b.regionLanes (b.workLanes u.com) ≠ 0) (fun b => b.shutTrap u.com) := by
  obtain ⟨_, he, shut⟩ := h
  exact traps_of he fun b _ hb => shut b hb

section
variable {i : Instr} {c : Common} {eff : State → Eff}

/-- A word that looks for a region first. -/
theorem ShutsOut.of_noRegion (he : ∀ s, exec i s = .next (s.issue i (fun b => b.noRegion c eff))) : ShutsOut i c :=
  ⟨_, he, fun _ => noRegion_shut⟩

/-- A word that a guess routine may not use. -/
theorem ShutsOut.of_notGuessing (he : ∀ s, exec i s = .next (s.issue i (fun b => b.notGuessing fun b => b.noRegion c eff))) :
    ShutsOut i c :=
  ⟨_, he, fun _ h => (notGuessing_eq (tracked_of_regionLanes h).2.2).trans (noRegion_shut h)⟩

end

/-- A return from the handler, outside it. -/
theorem ShutsOut.tret {i : Instr} {f : OpM} {kill : Bool} (he : ∀ s, exec i s = s.tret i f kill) : ShutsOut i f.com :=
  ⟨_, he, fun b h => by
    simp only [(tracked_of_regionLanes h).1, Bool.not_false, if_true]
    exact noRegion_shut h⟩

/-- SPPUT outside a guess routine. -/
theorem ShutsOut.spput (f : OpB) : ShutsOut (.spput f) f.com :=
  ⟨_, fun _ => rfl, fun b h => by
    simp only [(tracked_of_regionLanes h).2.2, Bool.false_and]
    exact noRegion_shut h⟩

/-- Every word that R202 does not permit, and that has no address to check first, is shut out. -/
theorem shutsOut {i : Instr} {u : Uses} (h : shutOut i = true) (hu : usesOf i = some u) : ShutsOut i u.com := by
  cases i
  case brx | loop | brk | next | call | callx | ret | regang | spq | spnext =>
    cases hu
    exact .of_notGuessing fun _ => rfl
  case spput =>
    cases hu
    exact .spput _
  case tret | tretKill =>
    cases hu
    exact .tret fun _ => rfl
  case exit | fence | cctlInvall | cpy | cpyt | cpyg | cpys | cpyr | cpyx | cpyq | cpyc | osld | mma | mmag | tzero | tqnt | tdq
    | tcrt | ttrn | tstat | kvx | kvvalSet | kvvalClr | kvrcl | skchSlot | skchVec | attn | attnq | sploop | spacc | spend
    | atomb | rootsw | rootcpFork | rootcpSnap | rootcpDrop | rfrsh | tnode | pgmapFt | pgmapCow | csrr | csrw | fltq | pgreq
    | launch | emit | ndone | slotw | prmptStop | prmptEvict =>
    cases hu
    exact .of_noRegion fun _ => rfl
  -- the rest are permitted, or looked at with their addresses, or no words
  all_goals contradiction

/-! ## Words that a region shuts out by their addresses -/

/-- The trap of the lanes that reach what their region may not (R202). -/
def State.reachTrap (b : State) (r : Reach) (as : List Acc) : Trap :=
  b.accTrap r.f r.off 0x11 r.kind ((as.filter (b.shuts r.f.com.u r.never)).map (·.lane))

theorem getLsbD_reachTrap_lanes (b : State) (r : Reach) (as : List Acc) {l : Nat} (hl : l < 32) :
    (b.reachTrap r as).lanes.getLsbD l = true ↔
      if r.f.com.u then b.active.getLsbD l = true else ∃ c ∈ as, c.lane = l ∧ shutAt b r c := by
  rw [State.reachTrap, getLsbD_accTrap_lanes _ _ _ _ _ _ hl]
  split
  · rfl
  · simp [shuts_iff, and_assoc, and_comm (a := shutAt b r _)]

/-- A word whose lanes reach what their region may not: it takes the trap of those lanes, its walks entered. -/
def ShutAtAddresses (i : Instr) (r : Reach) (s : State) (as : List Acc) : Prop :=
  ∃ t : Trap, exec i s = .next ({ (begun i s).noteAccess r.f r.off with warps := s.warps }.trap t) ∧ t.cause = 0x11 ∧
    t.kind = r.kind ∧ (∀ l, l < 32 → (t.lanes.getLsbD l = true ↔
      if r.f.com.u then (begun i s).active.getLsbD l = true else ∃ c ∈ as, c.lane = l ∧ shutAt (begun i s) r c))

section
variable {i : Instr} {r : Reach} {s : State} {as : List Acc} (ready : Ready i s) (shut : ∃ c ∈ as, shutAt (begun i s) r c)
include ready shut

/-- The trap found where the word tests its region is the one that it ends with. -/
theorem shutAtAddresses {eff : State → Eff} (he : ∀ s, exec i s = .next (s.issue i eff))
    (traps : (begun i s).regionTrap r.f r.off r.kind r.never as = some ((begun i s).reachTrap r as) →
      eff (begun i s) = .trapFrom ((begun i s).noteAccess r.f r.off) ((begun i s).reachTrap r as)) :
    ShutAtAddresses i r s as := by
  obtain ⟨-, -, u, hu, issues⟩ := ready
  have entered : begun i s = s.begin u := by unfold begun; rw [hu]
  have trapped := traps (regionTrap_some (by simpa only [shuts_iff] using shut))
  refine ⟨(begun i s).reachTrap r as, ?_, State.accTrap_cause .., State.accTrap_kind ..,
    fun l hl => getLsbD_reachTrap_lanes _ _ _ hl⟩
  rw [he, issue_issues hu issues, ← entered, trapped]
  rfl

variable (accs : (begun i s).accs r.f r.want r.len r.kind r.off = .ok as) {f : OpM}
include accs

theorem shut_ld (hi : i = .ld f) (hr : r = ⟨f, wantLdSt, f.size.bytes, 0, f.off.toInt, f.order != .relaxed⟩) :
    ShutAtAddresses i r s as :=
  shutAtAddresses (eff := fun b => b.load f) ready shut (fun _ => hi ▸ rfl) fun trap => by
    subst hr
    simp only [State.load, OpM.off24, accs, regionTrap_noteAccess, trap]

theorem shut_st (hi : i = .st f) (hr : r = ⟨f, wantLdSt, f.size.bytes, 1, f.off.toInt, f.order != .relaxed⟩) :
    ShutAtAddresses i r s as :=
  shutAtAddresses (eff := fun b => b.store f) ready shut (fun _ => hi ▸ rfl) fun trap => by
    subst hr
    simp only [State.store, OpM.off24, accs, regionTrap_noteAccess, trap]

variable (old : (begun i s).youngWay = false)
include old

theorem shut_atomic {w : Want} {off : Int} {k : ReqKind} {traps : Bool} {val cmp : State → Nat → Nat}
    (hr : r = ⟨f, w, f.size.bytes, 1, off, true⟩) (he : ∀ s, exec i s = .next (s.atomic i f w off k traps val cmp)) :
    ShutAtAddresses i r s as :=
  shutAtAddresses ready shut he fun trap => by
    subst hr
    simp only [State.oldestOnly, old, accs, regionTrap_noteAccess, trap]
    rfl

theorem shut_cctl {op : Nat}
    (hr : r = ⟨f, wantPrf, if op = 3 then 64 else 1, if op = 3 then 1 else 0, f.off.toInt, true⟩)
    (he : ∀ s, exec i s = .next (s.cctl i f op)) : ShutAtAddresses i r s as :=
  shutAtAddresses ready shut he fun trap => by
    subst hr
    simp only [State.oldestOnly, old, OpM.off24, accs, regionTrap_noteAccess, regionTrap_unread, trap]
    rfl

theorem shut_sync {w : Want} {n kind : Nat} {reads : Bool} {go : State → Acc → Eff}
    (hr : r = ⟨f, w, n, kind, f.off.toInt, true⟩) (he : ∀ s, exec i s = .next (s.sync i f w n kind reads go))
    (whole : (begun i s).ganged = true) (hu : f.com.u = true) : ShutAtAddresses i r s as :=
  shutAtAddresses ready shut he fun trap => by
    subst hr
    obtain ⟨c, hc, -⟩ := shut
    obtain rfl := accs_of_group accs hu hc
    simp only [State.oldestOnly, old, OpM.off24, whole, accs, regionTrap_noteAccess, trap]
    rfl

end

/-- A barrier word and WAITA exist as a group's word only (R163, R165). -/
theorem group_of_wholeWarp {i : Instr} {r : Reach} (whole : wholeWarp i = true) (hr : reach i = some r) (wf : i.wf = true) :
    r.f.com.u = true := by
  cases i
  case binit | barv | barw | bexp | bwait | waita =>
    cases hr
    simp only [Instr.wf, OpM.barOk, Bool.and_eq_true] at wf
    simp [wf, noIndex]
  all_goals contradiction

/-- Words of `reach` that run in a way that is not the oldest, too (R315). -/
def anyWay : Instr → Bool
  | .ld _ | .st _ => true
  | _ => false

/-- Settles O52. A word without addresses is shut out as it issues, before its own checks (log 11: R202 names the place only
of a word that accesses memory); one with addresses once they are translated. -/
theorem regionsShutWordsOut : Obligations.RegionsShutWordsOut := by
  unfold Obligations.RegionsShutWordsOut
  refine ⟨fun i u shut hu => (shutsOut shut hu).traps, ?_⟩
  intro i r hr s as ready b old whole accs shut
  have oldest : anyWay i = false → b.youngWay = false := fun only => old.resolve_left fun h => by
    obtain ⟨f, rfl | rfl⟩ := h <;> contradiction
  cases i
  case ld =>
    cases hr
    exact shut_ld ready shut accs rfl rfl
  case st =>
    cases hr
    exact shut_st ready shut accs rfl rfl
  case atom | cas | red | bupd =>
    cases hr
    exact shut_atomic ready shut accs (oldest rfl) rfl fun _ => rfl
  case cctlInv | cctlWb | cctlWbinv =>
    cases hr
    exact shut_cctl ready shut accs (oldest rfl) rfl fun _ => rfl
  case cctlZero =>
    cases hr
    exact shut_cctl (op := 3) ready shut accs (oldest rfl) rfl fun _ => rfl
  case binit | barv | barw | bexp | bwait | waita =>
    cases hr
    exact shut_sync ready shut accs (oldest rfl) rfl (fun _ => rfl) (whole rfl) (group_of_wholeWarp rfl rfl ready.wf)
  all_goals contradiction

end Sys2Proof.Machine
end

section
/-! PROOF. Memory words (R146 to R156): the request that each becomes where its checks pass. -/

namespace Sys2Proof.Machine
open Sys2Proof.Safety

/-! ## Loads and stores (R148, R149, R153) -/

section
variable {b : State} {f : OpM} {as : List Acc}

theorem load_done (alone : lone b) (accs : b.accs f wantLdSt f.size.bytes 0 f.off.toInt = .ok as) (some_access : as ≠ [])
    (scr : b.scrFails f true as = []) (clean : unpoisoned (b.noteAccess f f.off.toInt) (mreq f .load as) as)
    (go : goes (b.noteAccess f f.off.toInt) (mreq f .load as)) :
    b.load f = .done (((sent (b.noteAccess f f.off.toInt) (mreq f .load as)).await (b.noteAccess f f.off.toInt).clk.fresh f.dst
      f.size.regs (maskOf (as.map (·.lane)))).advance) := by
  obtain ⟨regions, loop⟩ := lone_noteAccess (f := f) (off := f.off.toInt) alone
  unfold State.load
  simp only [OpM.off24, accs, regionTrap_lone _ _ _ _ _ regions, scrFails_noteAccess, scr, dropFailed_nil,
    obsPending_lone _ _ regions, poisonTrap_none clean, useTags_lone _ _ regions, regionLoad_lone _ _ regions,
    noteReads_lone _ loop, List.isEmpty_iff, some_access, submit_goes go]
  rfl

theorem store_done (alone : lone b) (accs : b.accs f wantLdSt f.size.bytes 1 f.off.toInt = .ok as) (some_access : as ≠ [])
    (scr : b.scrFails f false as = []) (blocks : blockStores as = []) {ds : List Acc}
    (data : ds = as.map (fun a => { a with val := (b.noteAccess f f.off.toInt).dataOf a.lane f.size f.b, left := [] }))
    (go : goes (b.noteAccess f f.off.toInt) (mreq f .store ds)) :
    b.store f = .done (sent (b.noteAccess f f.off.toInt) (mreq f .store ds)).advance := by
  obtain ⟨regions, loop⟩ := lone_noteAccess (f := f) (off := f.off.toInt) alone
  obtain ⟨old, guess⟩ := young_lone loop
  unfold State.store
  simp only [OpM.off24, accs, regionTrap_lone _ _ _ _ _ regions, blocks, guess, old, scrFails_noteAccess, scr, dropFailed_nil,
    ← data, useTags_lone _ _ regions, regionStore_lone _ _ regions, noteWrites_lone _ loop, submit_goes go]
  simp [data, some_access, switchOff_nil]

end

/-! ## Prefetches (R148, R154) -/

/-- A word that drops the lanes that fail is issued whatever poison its registers hold. -/
theorem issue_drops {s : State} {i : Instr} {u : Uses} (hu : usesOf i = some u) (drops : dropsLanes i = true)
    (work : s.doesWork u.com = true)
    (regs : s.member = true ∨
      (s.busyReg s.active (guardReg u.com) = false ∧ s.overBound u = false ∧ s.waits? (usesFirst i u) = false))
    (eff : State → Eff) : s.issue i eff = s.ended (eff (s.begin u)) := by
  unfold State.issue
  simp only [hu, work, drops]
  rcases regs with member | ⟨guard, bound, there⟩
  · simp [member]
  · simp [guard, bound, there]

/-- The access of a prefetch at an address, where its lane is not dropped. -/
def State.prefetchAt (b : State) (f : OpM) (p : Nat × Nat) : Option Acc :=
  match b.resolve b.who.warp wantPrf [p] 1 0 with
  | .ok [(l, t)] =>
    if t.uncached || b.bytesPoison t.addr 1 || b.poisoned (usesM f 2 0 1 0) (maskOf [l]) then none
    else some { lane := l, ta := t.addr, len := 1, unc := t.uncached, left := [0] }
  | _ => none

theorem prefetch_done {b : State} {f : OpM} {as : List Acc} (alone : lone b)
    (kept : as = (b.addrs f f.off.toInt).filterMap (b.prefetchAt f))
    (go : as ≠ [] → goes (b.noteAccess f f.off.toInt) (mreq f .prefetch as)) :
    b.prefetch f = .done (if as = [] then (b.noteAccess f f.off.toInt).advance
      else (sent (b.noteAccess f f.off.toInt) (mreq f .prefetch as)).advance) := by
  obtain ⟨regions, loop⟩ := lone_noteAccess (f := f) (off := f.off.toInt) alone
  have same (g : Nat × Nat → Option Acc) (hg : ∀ p, g p = b.prefetchAt f p) : (b.addrs f f.off.toInt).filterMap g = as := by
    rw [kept, funext hg]
  unfold State.prefetch
  simp only [OpM.off24, regionsOfAcc_lone _ _ alone.1, List.isEmpty_nil, Bool.not_true, Bool.false_and, Bool.or_false,
    useTags_lone _ _ regions, noteReads_lone _ loop]
  rw [same _ ?prefetch_at]
  case prefetch_at => exact fun _ => rfl
  by_cases empty : as = []
  · simp [empty]
  · simp [empty, submit_goes (go empty)]

/-! ## Cleans (R156) -/

section
variable {i : Instr} {f : OpM} {op : Nat}

/-- The lines that a clean names. -/
def State.cleanLines (b : State) (f : OpM) (op : Nat) : List Acc :=
  (accesses b f wantPrf (if op = 3 then 64 else 1) (if op = 3 then 1 else 0) f.off.toInt).map (fun a => { a with left := [] })

/-- The state that a clean's request goes from. -/
def State.cleaning (b : State) (f : OpM) (op : Nat) : State :=
  if op = 3 then (b.noteAccess f f.off.toInt).noteWrites (b.cleanLines f op) else b.noteAccess f f.off.toInt

def cleanReq (f : OpM) (op : Nat) (as : List Acc) : Req := { mreq f (.clean op) as with nl1 := false, pol := 0 }

theorem acts_cctl (he : ∀ s, exec i s = .next (s.cctl i f op)) :
    Acts i (fun b => oldestCode b f.com ∧
        (∃ as, b.accs f wantPrf (if op = 3 then 64 else 1) (if op = 3 then 1 else 0) f.off.toInt = .ok as) ∧
        goes (b.cleaning f op) (cleanReq f op (b.cleanLines f op)))
      (fun b => (sent (b.cleaning f op) (cleanReq f op (b.cleanLines f op))).advance) :=
  acts_of he fun b _ ⟨⟨out, old⟩, ⟨as, accs⟩, go⟩ => by
    have lines : b.cleanLines f op = as.map (fun a => { a with left := [] }) := by simp [State.cleanLines, accesses, accs]
    unfold State.cleaning cleanReq at *
    rw [lines] at go ⊢
    simp only [State.oldestOnly, old, OpM.off24, accs, regionTrap_noteAccess, regionTrap_unread, regionTrap_outside out accs]
    exact submit_goes go

end

/-! ## The statement -/

/-- Settles O14: each word's checks pass as the conditions say, so what is left of its effect is its request. That CCTL.wb and
CCTL.wbinv are walked as reads is the model's choice (log 46). -/
theorem memoryWordsComplete : Obligations.MemoryWordsComplete := by
  unfold Obligations.MemoryWordsComplete
  intro f
  refine ⟨?ld, ?st, ?prf, ?fence_warp, ?fence, acts_cctl fun _ => rfl, acts_cctl fun _ => rfl, acts_cctl fun _ => rfl,
    acts_cctl fun _ => rfl, ?invall⟩
  case ld =>
    refine acts_of (fun _ => rfl) fun b _ ⟨alone, passes, clean, go⟩ => ?_
    obtain ⟨accs, some_access, scr⟩ := accs_sound passes
    exact load_done alone accs some_access scr clean go
  case st =>
    refine acts_of (fun _ => rfl) fun b _ ⟨alone, passes, blocks, go⟩ => ?_
    obtain ⟨accs, some_access, scr⟩ := accs_sound passes
    refine store_done alone accs some_access scr ?_ rfl go
    unfold blockStores
    rw [List.filter_eq_nil_iff.2 fun a ha => by simpa using blocks _ (List.mem_map_of_mem ha)]
    rfl
  case prf =>
    intro s u _ _ hu work regs b alone go
    have run : exec (.prf f) s = .next (s.ended (b.prefetch f)) := congrArg _ (issue_drops hu rfl work regs fun b => b.prefetch f)
    rw [run, prefetch_done alone rfl go]
    rfl
  case fence_warp =>
    refine fun warp => acts_of (fun _ => rfl) fun b _ old => ?_
    rw [oldest_eq old, if_pos warp]
  case fence =>
    refine fun wider => acts_of (fun _ => rfl) fun b _ ⟨old, go⟩ => ?_
    rw [oldest_eq old, if_neg wider, submit_goes go]
  case invall =>
    refine acts_of (fun _ => rfl) fun b _ ⟨old, go⟩ => ?_
    rw [oldest_eq old, submit_goes go]

end Sys2Proof.Machine
end

section
/-! PROOF. Atomics (R157 to R160): their requests, with each lane's operands. -/

namespace Sys2Proof.Machine
open Sys2Proof.Safety

section
variable (b : State) (f : OpM) (off : Int)

/-- The accesses of an atomic word with each lane's operands. -/
def State.operands (w : Want) (val cmp : State → Nat → Nat) : List Acc :=
  (accesses b f w f.size.bytes 1 off).map (fun a => { a with val := val b a.lane, cmp := cmp b a.lane })

/-- The state that an atomic's request goes from: its walks, its reads and its writes entered. -/
def State.updating (as : List Acc) : State := ((b.noteAccess f off).noteReads as).noteWrites as

/-- The request of an atomic word. -/
def atomicReq (k : ReqKind) (as : List Acc) : Req := { mreq f k as with nl1 := false, pol := 0 }

end

/-- What an atomic word needs, and what it leaves, where its addresses are sound. -/
theorem acts_atomic {i : Instr} {f : OpM} {off : Int} {w : Want} {k : ReqKind} {returns : Bool} {val cmp : State → Nat → Nat}
    (he : ∀ s, exec i s = .next (s.atomic i f w off k returns val cmp))
    (hval : ∀ b l, val (b.noteAccess f off) l = val b l) (hcmp : ∀ b l, cmp (b.noteAccess f off) l = cmp b l) :
    let as (b : State) : List Acc := b.operands f off w val cmp
    let from' (b : State) : State := b.updating f off (as b)
    let r (b : State) : Req := atomicReq f k (as b)
    Acts i (fun b => oldestCode b f.com ∧ sound b f w f.size.bytes 1 off true ∧
        (returns = true → unpoisoned b (mreq f k (as b)) (as b)) ∧ goes (from' b) (r b))
      (fun b => if returns then ((sent (from' b) (r b)).await (from' b).clk.fresh f.dst f.size.regs
          (maskOf ((as b).map (·.lane)))).advance
        else (sent (from' b) (r b)).advance) := by
  intro as from' r
  refine acts_of he fun b _ ⟨⟨out, old⟩, passes, clean, go⟩ => ?_
  obtain ⟨accs, some_access, scr⟩ := accs_sound passes
  have operands : (accesses b f w f.size.bytes 1 off).map (fun a => { a with
      val := val (b.noteAccess f off) a.lane, cmp := cmp (b.noteAccess f off) a.lane }) = as b := by
    simp only [hval, hcmp]
    rfl
  have whole : (as b).isEmpty = false := by simpa [as, State.operands] using some_access
  simp only [State.oldestOnly, old, accs, regionTrap_noteAccess, regionTrap_outside out accs, scrFails_noteAccess, scr,
    dropFailed_nil, operands, switchOff_nil, whole, Bool.false_eq_true, if_false]
  cases returns with
  | false => exact submit_goes go
  | true =>
    have unread : (b.noteAccess f off).poisonTrap f off 1 ((b.noteAccess f off).newReq (mreq f k (as b))) (as b) = none :=
      poisonTrap_none fun a ha => by rw [accPoison_noteAccess]; exact clean rfl a ha
    simp only [if_true, unread]
    exact submit_goes go

/-- Settles O15: `acts_atomic` for each word; the operation code of CAS's request is 16, and its SC is no index (R157). -/
theorem atomicsComplete : Obligations.AtomicsComplete := by
  unfold Obligations.AtomicsComplete
  intro f
  have data (q : OpM) (off : Int) (x : Src) (b : State) (l : Nat) :
      (b.noteAccess q off).dataOf l f.size x = b.dataOf l f.size x := dataOf_noteAccess ..
  exact ⟨(acts_atomic (i := .atom f) (fun _ => rfl) (data _ _ f.b) (fun _ _ => rfl) :),
    (acts_atomic (i := .red f) (fun _ => rfl) (data _ _ f.b) (fun _ _ => rfl) :),
    (acts_atomic (i := .bupd f) (fun _ => rfl) (data _ _ f.b) (fun _ _ => rfl) :),
    fun s ready ⟨old, passes, clean, go⟩ =>
      (acts_atomic (i := .cas f) (fun _ => rfl) (data _ _ f.c) (data _ _ f.b) :) s ready ⟨old, passes, fun _ => clean, go⟩⟩

end Sys2Proof.Machine
end

section
/-! PROOF. Barrier words and WAITA (R161 to R167): the one request of a whole warp, and the gang that parks for its wake. -/

namespace Sys2Proof.Machine
open Sys2Proof.Safety

section
variable (b : State) (f : OpM) (w : Want) (n kind : Nat)

/-- The one access of a word of a whole warp. -/
def State.syncAcc : Acc := { ((accesses b f w n kind f.off.toInt).headD { lane := 0, ta := 0, len := 0 }) with left := [] }

/-- The state that its request goes from: its walk and its write entered. -/
def State.syncing : State := (b.noteAccess f f.off.toInt).noteWrites [b.syncAcc f w n kind]

/-- The checks of R148, R163 and R384 that it passes. -/
def SyncPasses (reads : Bool) : Prop :=
  oldestCode b f.com ∧ b.ganged = true ∧ (∃ as, b.accs f w n kind f.off.toInt = .ok as ∧ as ≠ []) ∧
    b.scrFails f false [b.syncAcc f w n kind] = [] ∧
    (reads = true → b.accPoison (b.newReq (mreq f .load [])) { b.syncAcc f w n kind with left := List.range n } = false)

end

/-- The scratchpad rules look at an access's lane and place only (R126). -/
theorem scrFails_unread (b : State) (f : OpM) (rd : Bool) (as : List Acc) :
    b.scrFails f rd (as.map fun a => { a with left := [] }) = b.scrFails f rd as := by
  unfold State.scrFails
  rw [List.filter_map, List.filterMap_map]
  rfl

/-- Past its checks the word's own request is made, from the state with its walk and its write entered. -/
theorem acts_sync {i : Instr} {f : OpM} {w : Want} {n kind : Nat} {reads : Bool} {go : State → Acc → Eff}
    {fits : State → Prop} {g : State → State} (he : ∀ s, exec i s = .next (s.sync i f w n kind reads go))
    (done : ∀ b, fits b → go (b.syncing f w n kind) (b.syncAcc f w n kind) = .done (g b)) :
    Acts i (fun b => SyncPasses b f w n kind reads ∧ fits b) g := by
  refine acts_of he fun b _ ⟨⟨⟨out, old⟩, whole, ⟨as, accs, some_access⟩, scr, clean⟩, fit⟩ => ?_
  obtain ⟨a, rest, rfl⟩ := List.exists_cons_of_ne_nil some_access
  have acc : b.syncAcc f w n kind = { a with left := [] } := by simp [State.syncAcc, accesses, accs]
  have trap : b.regionTrap f f.off.toInt kind true [a] = none :=
    regionTrap_none fun c hc => shuts_outside out accs true (List.mem_singleton.1 hc ▸ List.mem_cons_self)
  have fails : b.scrFails f false [a] = [] := by
    rw [acc] at scr
    exact (scrFails_unread b f false [a]).symm.trans scr
  have went := done b fit
  rw [State.syncing, acc] at went
  rw [acc] at clean
  simp only [State.oldestOnly, old, whole, OpM.off24, accs, regionTrap_noteAccess, trap, scrFails_noteAccess, fails]
  cases reads with
  | false => exact went
  | true =>
    have unread : (b.noteAccess f f.off.toInt).poisonTrap f f.off.toInt kind
        ((b.noteAccess f f.off.toInt).newReq (mreq f .load [])) [{ a with left := List.range n }] = none :=
      poisonTrap_none fun c hc => by rw [accPoison_noteAccess, List.mem_singleton.1 hc]; exact clean rfl
    simp only [if_true, unread]
    exact went

/-- A request that parks its gang until its wake, with the waiter that holds its destination. -/
theorem submitWait_goes {s : State} {r : Req} {two : Bool} {x : Waiter}
    (hx : x = { id := s.clk.fresh, on := .issue, warp := s.who.warp, way := s.who.way, dst := r.dst, two := two })
    (go : goes { s with waits := s.waits ++ [x] } r) :
    s.submitWait r two = .done ((sent { s with waits := s.waits ++ [x] } r).parkOn s.clk.fresh) := by
  subst hx
  exact submit_goes (t := fun u => u.parkOn s.clk.fresh) go

/-- Settles O16: `acts_sync` for each word, with its own request. The gang of a BWAIT, BARW or WAITA parks as it issues, even
where R164 or R166 lets it go at once: its wake is a later event. -/
theorem synchronisationCompletes : Obligations.SynchronisationCompletes := by
  unfold Obligations.SynchronisationCompletes
  intro f
  refine ⟨?binit, ?barv, ?bexp, ?bwait, ?barw, ?waita, ?deadline⟩
  case binit => exact (acts_sync (i := .binit f) (fun _ => rfl) fun b go => submit_goes go :)
  case barv => exact (acts_sync (i := .barv f) (fun _ => rfl) fun b go => submit_goes go :)
  case bexp => exact (acts_sync (i := .bexp f) (fun _ => rfl) fun b go => submit_goes go :)
  case bwait => exact (acts_sync (i := .bwait f) (fun _ => rfl) fun b go => submitWait_goes rfl go :)
  case barw => exact (acts_sync (i := .barw f) (fun _ => rfl) fun b go => submitWait_goes rfl go :)
  case waita => exact (acts_sync (i := .waita f) (fun _ => rfl) fun b go => submitWait_goes rfl go :)
  case deadline =>
    intro stack entry t e s waiting deadline due
    simp only [exec_waitaDeadline, execWaitaDeadline, waiting, deadline]
    exact onlyIf_eq_next _ _ (decide_eq_true due)

end Sys2Proof.Machine
end

section
/-! PROOF. Barrier objects (R162, R164): when a phase ends, when a count overruns, and what OVER shuts. -/

namespace Sys2Proof.Machine

/-! ## `evaluate` -/

namespace Bar

section
variable {b : Bar}

theorem evaluate_over (ovr : b.ovr = true) : b.evaluate = (b, some 1) := if_pos ovr

variable (fine : b.ovr = false)
include fine

/-- An object that counts nothing. -/
theorem evaluate_idle (arrivals : b.reset = 0) (bytes : b.expected = 0) : b.evaluate = (b, none) := by
  simp [evaluate, fine, arrivals, bytes]

/-- A phase that is complete. -/
theorem evaluate_complete (counting : b.reset ≠ 0 ∨ b.expected ≠ 0) (arrivals : b.remain = 0) (bytes : b.arrived = b.expected) :
    b.evaluate = (⟨0, 0, !b.phase, false, b.reset, b.reset⟩, some 0) := by
  have busy : ¬(b.reset = 0 ∧ b.expected = 0) := by omega
  rw [evaluate, if_neg (by simp [fine]), if_neg busy, if_pos ⟨arrivals, bytes⟩, fine]

/-- More bytes than a phase expects, once its arrivals are there. -/
theorem evaluate_excess (arrivals : b.remain = 0) (bytes : b.expected ≠ 0) (excess : b.expected < b.arrived) :
    b.evaluate = ({ b with ovr := true }, some 1) := by
  rw [evaluate, if_neg (by simp [fine]), if_neg (by omega), if_neg (by omega), if_pos ⟨arrivals, bytes, excess⟩]

/-- A phase that still waits for arrivals or for bytes. -/
theorem evaluate_incomplete (waits : b.remain ≠ 0 ∨ b.arrived < b.expected) : b.evaluate = (b, none) := by
  have incomplete : ¬(b.remain = 0 ∧ b.arrived = b.expected) := by omega
  have no_excess : ¬(b.remain = 0 ∧ b.expected ≠ 0 ∧ b.expected < b.arrived) := by omega
  rw [evaluate, if_neg (by simp [fine]), if_neg incomplete, if_neg no_excess, ite_self]

end

/-! ## Operations: each counts unless its count would overrun -/

/-- An operation that makes `c` of the object where `overrun` does not stop it. -/
def operate (b : Bar) (overrun : Bool) (c : Bar) : Bar × Option Nat :=
  (if b.ovr then b else if overrun then { b with ovr := true } else c).evaluate

theorem arrive_eq (b : Bar) (n : Nat) :
    b.arrive n = b.operate (decide (b.remain < n)) { b with remain := b.remain - n } := by
  simp [arrive, operate]

theorem expect_eq (b : Bar) (n : Nat) :
    b.expect n = b.operate (decide (2 ^ 32 ≤ b.expected + n)) { b with expected := b.expected + n } := by
  simp [expect, operate, Nat.lt_iff_add_one_le]

theorem addBytes_eq (b : Bar) (n : Nat) :
    b.addBytes n = b.operate (decide (2 ^ 32 ≤ b.arrived + n)) { b with arrived := b.arrived + n } := by
  simp [addBytes, operate, Nat.lt_iff_add_one_le]

section
variable {b c : Bar} {overrun : Bool}

theorem operate_over (ovr : b.ovr = true) : b.operate overrun c = (b, some 1) := by
  rw [operate, if_pos ovr, evaluate_over ovr]

theorem operate_overrun (fine : b.ovr = false) (h : overrun = true) : b.operate overrun c = ({ b with ovr := true }, some 1) := by
  rw [operate, if_neg (by simp [fine]), if_pos h, evaluate_over rfl]

theorem operate_counts (fine : b.ovr = false) (h : overrun = false) : b.operate overrun c = c.evaluate := by
  rw [operate, if_neg (by simp [fine]), if_neg (by simp [h])]

end

end Bar

/-- Settles O60: the cases of `evaluate`, and each operation as a count that overruns or is made. -/
theorem barriersEvaluate : Obligations.BarriersEvaluate := by
  unfold Obligations.BarriersEvaluate
  intro b n
  simp only [Bar.arrive_eq, Bar.expect_eq, Bar.addBytes_eq]
  exact ⟨fun ovr => ⟨Bar.evaluate_over ovr, Bar.operate_over ovr, Bar.operate_over ovr, Bar.operate_over ovr⟩,
    Bar.evaluate_idle, Bar.evaluate_complete, Bar.evaluate_excess, Bar.evaluate_incomplete,
    fun fine h => Bar.operate_overrun fine (decide_eq_true h),
    fun fine h => Bar.operate_counts fine (decide_eq_false (Nat.not_lt.2 h)),
    fun fine h => Bar.operate_overrun fine (decide_eq_true h),
    fun fine h => Bar.operate_counts fine (decide_eq_false (Nat.not_le.2 h)),
    fun fine h => Bar.operate_overrun fine (decide_eq_true h),
    fun fine h => Bar.operate_counts fine (decide_eq_false (Nat.not_le.2 h)), rfl⟩

end Sys2Proof.Machine
end

section
/-! PROOF. Copy instructions (R168 to R184, R330): a word that issues as one engine operation, the vote of a whole warp, and
what each word's operation is. -/

namespace Sys2Proof.Machine
open Sys2Proof.Safety

/-! ## Words that issue as engine operations (R143, R170) -/

/-- An operation that fits is enrolled, its request goes, and the gang goes on. -/
theorem engIssue_fits {b : State} {o : EngOp} {tok : Dst} (h : engineFits b o tok) :
    b.engIssue o tok = .done (Safety.issued b o tok) := by
  obtain ⟨room, go⟩ := h
  exact (if_neg (Nat.not_le.mpr room)).trans (submit_goes go)

section
variable {i : Instr} {f : OpT} {go : State → Eff} (he : ∀ s, exec i s = .next (s.engine i f go))
include he

/-- A word of the engines acts outside regions, in its warp's oldest way (R202, R315). -/
theorem acts_of_engine {cond : State → Prop} {g : State → State} (h : ∀ b, cond b → go b = .done (g b)) :
    Acts i (fun b => oldestCode b f.com ∧ cond b) g :=
  acts_of he fun _ _ ⟨old, holds⟩ => (oldest_eq old).trans (h _ holds)

theorem launches_of {cond : State → Prop} {o : State → EngOp} (h : ∀ b, cond b → go b = b.engIssue (o b) f.tok) :
    Launches i f cond o :=
  acts_of_engine he fun b ⟨holds, fits⟩ => (h b holds).trans (engIssue_fits fits)

end

/-! ## Checks before the issue (R180, R264) -/

theorem sizeOk_iff {n : Nat} : sizeOk n = true ↔ 0 < n ∧ n ≤ 1023 := by
  simp [sizeOk]

theorem vote_of_votes {b : State} {f : OpT} {w : Nat} (h : votes b f w) : b.vote f = .ok w := by
  obtain ⟨ganged, l, r, lanes, first, same⟩ := h
  have agree : (l :: r).find? (fun k => b.src32 k f.c != b.src32 l f.c) = none := by
    simpa [List.find?_eq_none] using same
  simp [State.vote, ganged, lanes, agree, first]

/-! ## The statement -/

/-- Settles O19: a word's operation is the one that it gives to `engIssue`, once the size of its element is legal (CPYG, CPYS)
and its warp has voted (CPYX). The engine that takes it is the model's choice among its die's (log 55). -/
theorem copyWordsComplete : Obligations.CopyWordsComplete := by
  unfold Obligations.CopyWordsComplete
  intro f x pair word dst src op sized
  have legal {b : State} (h : sized b) : ¬(!sizeOk (b.u32Of f.c)) = true := by
    have size : sizeOk (b.u32Of f.c) = true := sizeOk_iff.mpr h
    simp [size]
  refine ⟨launches_of (fun _ => rfl) fun _ _ => rfl, launches_of (fun _ => rfl) fun _ _ => rfl,
    launches_of (fun _ => rfl) fun _ size => if_neg (legal size), launches_of (fun _ => rfl) fun _ size => if_neg (legal size),
    launches_of (fun _ => rfl) fun _ _ => rfl, fun w => launches_of (fun _ => rfl) fun b vote => ?vote,
    launches_of (fun _ => rfl) fun _ _ => rfl, launches_of (fun _ => rfl) fun _ _ => rfl, ?query, ?cancel⟩
  case vote =>
    simp only [vote_of_votes vote]
    rfl
  case query => exact acts_of (fun _ => rfl) fun _ _ old => oldest_eq old
  case cancel =>
    refine acts_of (fun _ => rfl) fun b _ old => (oldest_eq old).trans ?_
    cases b.holderOf (bitsOf x 0 6) <;> rfl

end Sys2Proof.Machine
end

section
/-! PROOF. The macro sequencer (R182, R265 to R267, R277 to R279, R334): which operation is next for an array, when the running
one must leave it, and what starts, steps, stops and resumptions make of them. -/

namespace Sys2Proof.Machine
open Sys2Proof.Safety

/-! ## What an operation of an array waits for (R143, R267, R282) -/

section
variable {s : State} {o : EngOp}

theorem ofArray_iff : ofArray o ↔ (o.cls == 9 || o.attn || o.tile) = true := by
  simp only [ofArray, EngOp.tile, Bool.or_eq_true, Bool.and_eq_true, beq_iff_eq]
  tauto

theorem captured_iff : Captured s o ↔ s.mayRead o = true := by
  refine ⟨mayRead_of_captured, fun h => ?_⟩
  simp only [State.mayRead, Bool.and_eq_true, Bool.or_eq_true, beq_iff_eq, decide_eq_true_eq, List.isEmpty_iff, or_assoc] at h
  obtain ⟨⟨queued, caught⟩, passed⟩ := h
  exact ⟨queued, caught, passed⟩

theorem placedOn_iff : placedOn s o ↔ s.onCore o = true := by
  let live (p : Nat × Warp) : Prop := p.2.inst = o.inst ∧ p.2.retired = false
  have own : ((s.warps.filter (fun p => p.2.inst == o.inst && !p.2.retired)).filter
      (fun p => p.2.team == o.team)).isEmpty = true ↔ ∀ p ∈ s.warps, live p → p.2.team ≠ o.team := by
    simp only [List.isEmpty_iff, List.filter_filter, List.filter_eq_nil_iff]
    refine forall₂_congr fun p _ => ?_
    simp only [Bool.and_eq_true, beq_iff_eq, Bool.not_eq_true']
    tauto
  unfold placedOn State.onCore
  by_cases none_own : ∀ p ∈ s.warps, live p → p.2.team ≠ o.team
  · have none_here : ¬∃ p ∈ s.warps, live p ∧ p.2.team = o.team ∧ p.2.placed = true ∧ p.2.core = o.core :=
      fun ⟨p, hp, alive, team, _⟩ => none_own p hp alive team
    rw [if_pos (own.mpr none_own)]
    refine (or_iff_right none_here).trans ((and_iff_right none_own).trans ?_)
    simp [and_assoc]
  · rw [if_neg fun empty => none_own (own.mp empty)]
    refine (or_iff_left fun ⟨h, _⟩ => none_own h).trans ?_
    simp only [List.any_filter, List.any_eq_true]
    exact exists_congr fun p => and_congr_right fun _ => by simp [and_assoc, and_left_comm]

/-- Nothing of its warp that is still in the sequencer's queue was issued before the operation. -/
theorem firstOfWarp_iff : (∀ e ∈ s.ops, e.queueOp = true → e.warp = o.warp → e.code = none → o.id ≤ e.id) ↔
    (!s.ops.any (fun e => e.queueOp && e.warp == o.warp && e.id < o.id && e.code.isNone)) = true := by
  simp only [Bool.not_eq_true', List.any_eq_false]
  refine forall₂_congr fun e _ => ?_
  simp only [Bool.and_eq_true, beq_iff_eq, decide_eq_true_eq, Option.isNone_iff_eq_none, not_and, ← Nat.not_lt]
  tauto

theorem arrayReady_iff : ArrayReady s o ↔ s.seqReady o = true := by
  simp only [State.seqReady, Bool.and_eq_true]
  rw [← ofArray_iff, ← captured_iff, ← placedOn_iff, ← firstOfWarp_iff]
  simp only [Bool.or_eq_true, Bool.not_eq_true', beq_iff_eq, Option.isNone_iff_eq_none]
  constructor
  · rintro ⟨captured, kind, ⟨code, susc, cancel⟩, halted, placed, first, copies⟩
    exact ⟨⟨⟨⟨⟨⟨⟨⟨kind, code⟩, susc⟩, halted⟩, captured⟩, placed⟩, cancel⟩, first⟩, copies⟩
  · rintro ⟨⟨⟨⟨⟨⟨⟨⟨kind, code⟩, susc⟩, halted⟩, captured⟩, placed⟩, cancel⟩, first⟩, copies⟩
    exact ⟨captured, kind, ⟨code, susc, cancel⟩, halted, placed, first, copies⟩

end

/-! ## The operation whose turn it is (R277) -/

/-- It goes before the other on the array: of a higher priority, or of the same and issued earlier. -/
def EngOp.outranks (o b : EngOp) : Prop := b.prio < o.prio ∨ (b.prio = o.prio ∧ o.id < b.id)

theorem outranks_irrefl (o : EngOp) : ¬o.outranks o := by
  unfold EngOp.outranks
  omega

theorem not_outranks_trans {a b c : EngOp} (h : ¬a.outranks b) (h' : ¬b.outranks c) : ¬a.outranks c := by
  unfold EngOp.outranks at *
  omega

/-- The best of the operations looked at so far, one more considered. -/
def bestOf (best : Option EngOp) (o : EngOp) : Option EngOp :=
  match best with
  | none => some o
  | some b => if b.prio < o.prio ∨ (b.prio = o.prio ∧ o.id < b.id) then some o else some b

/-- Of two operations one is kept that neither outranks. -/
theorem bestOf_some (b o : EngOp) :
    ∃ c, bestOf (some b) o = some c ∧ (c = b ∨ c = o) ∧ ¬b.outranks c ∧ ¬o.outranks c := by
  by_cases h : o.outranks b
  · refine ⟨o, if_pos h, .inr rfl, ?_, outranks_irrefl o⟩
    unfold EngOp.outranks at *
    omega
  · exact ⟨b, if_neg h, .inl rfl, outranks_irrefl b, h⟩

theorem foldl_bestOf (os : List EngOp) (b : EngOp) :
    ∃ r, os.foldl bestOf (some b) = some r ∧ r ∈ b :: os ∧ ∀ e ∈ b :: os, ¬e.outranks r := by
  induction os generalizing b with
  | nil => exact ⟨b, rfl, by simp, by simp [outranks_irrefl]⟩
  | cons o os ih =>
    obtain ⟨c, kept, which, hb, ho⟩ := bestOf_some b o
    obtain ⟨r, best, mem, top⟩ := ih c
    have below : ¬c.outranks r := top c (by simp)
    refine ⟨r, by rw [List.foldl_cons, kept, best], ?_, ?_⟩
    · rcases which with rfl | rfl <;> simp only [List.mem_cons] at mem ⊢ <;> tauto
    · simp only [List.forall_mem_cons] at top ⊢
      exact ⟨not_outranks_trans hb below, not_outranks_trans ho below, top.2⟩

section
variable {s : State} {core : Nat} {o : EngOp}

/-- A core's operations that may go on its array now. -/
def State.arrayWaiting (s : State) (core : Nat) : List EngOp := s.ops.filter (fun o => o.core == core && s.seqReady o)

theorem mem_arrayWaiting {e : EngOp} : e ∈ s.arrayWaiting core ↔ e ∈ s.ops ∧ e.core = core ∧ ArrayReady s e := by
  simp [State.arrayWaiting, arrayReady_iff]

theorem seqNext_eq : s.seqNext core = (s.arrayWaiting core).foldl bestOf none := rfl

/-- What the sequencer takes next: nothing where no operation is ready, else a ready one that no other outranks. -/
theorem seqNext_spec (s : State) (core : Nat) : match s.seqNext core with
    | none => ∀ e ∈ s.ops, e.core = core → ¬ArrayReady s e
    | some r => (r ∈ s.ops ∧ r.core = core ∧ ArrayReady s r) ∧
      ∀ e ∈ s.ops, e.core = core → ArrayReady s e → ¬e.outranks r := by
  have waiting (e : EngOp) := mem_arrayWaiting (s := s) (core := core) (e := e)
  rw [seqNext_eq]
  generalize s.arrayWaiting core = os at waiting
  cases os with
  | nil => exact fun e he at_core ready => by simpa using (waiting e).mpr ⟨he, at_core, ready⟩
  | cons b os =>
    obtain ⟨r, best, mem, top⟩ := foldl_bestOf os b
    simp only [List.foldl_cons, show bestOf none b = some b from rfl, best]
    exact ⟨(waiting r).mp mem, fun e he at_core ready => top e ((waiting e).mpr ⟨he, at_core, ready⟩)⟩

theorem seqNext_of_arrayNext (h : ArrayNext s core o) : s.seqNext core = some o := by
  obtain ⟨mem, at_core, ready, ahead⟩ := h
  have spec := seqNext_spec s core
  cases next : s.seqNext core with
  | none =>
    rw [next] at spec
    exact absurd ready (spec o mem at_core)
  | some r =>
    rw [next] at spec
    obtain ⟨⟨r_mem, r_core, r_ready⟩, top⟩ := spec
    rcases ahead r r_mem r_core r_ready with same | below
    · rw [same]
    · exact absurd below (top o mem at_core ready)

theorem mustStop_iff : s.mustStop o = true ↔ mustLeave s o := by
  have outranked : (match s.seqNext o.core with | some e => decide (o.prio < e.prio) | none => false) = true ↔
      ∃ e ∈ s.ops, e.core = o.core ∧ ArrayReady s e ∧ o.prio < e.prio := by
    have spec := seqNext_spec s o.core
    cases next : s.seqNext o.core with
    | none =>
      rw [next] at spec
      simpa using fun e he at_core ready => absurd ready (spec e he at_core)
    | some r =>
      rw [next] at spec
      obtain ⟨⟨mem, at_core, ready⟩, top⟩ := spec
      refine ⟨fun h => ⟨r, mem, at_core, ready, by simpa using h⟩, fun ⟨e, he, e_core, e_ready, above⟩ => ?_⟩
      have := top e he e_core e_ready
      unfold EngOp.outranks at this
      simp only [decide_eq_true_eq]
      omega
  unfold State.mustStop mustLeave
  rw [Bool.or_eq_true, Bool.or_eq_true, Bool.not_eq_true', ← Bool.not_eq_true, ← placedOn_iff, or_assoc]
  exact or_congr_right (or_congr_right outranked)

theorem mustStop_eq_false (h : ¬mustLeave s o) : s.mustStop o = false :=
  Bool.eq_false_iff.mpr fun stop => h (mustStop_iff.mp stop)

/-! ## Cancelled operations (R184, R279) -/

/-- What `seqCancelled` looks for. -/
def State.withdraws (s : State) (core : Nat) (o : EngOp) : Bool :=
  o.core == core && (o.cls == 9 || o.attn || o.tile) && o.code.isNone && o.cancel && o.queued && (s.core core).seq != some o.id

theorem withdraws_iff : s.withdraws core o = true ↔ withdrawn s core o := by
  simp only [State.withdraws, withdrawn, Bool.and_eq_true, ← ofArray_iff, beq_iff_eq, bne_iff_ne, Option.isNone_iff_eq_none,
    and_assoc, ne_eq]

theorem seqCancelled_eq : s.seqCancelled core = s.ops.find? (s.withdraws core) := rfl

theorem seqCancelled_none (h : ∀ e ∈ s.ops, ¬withdrawn s core e) : s.seqCancelled core = none := by
  rw [seqCancelled_eq, List.find?_eq_none]
  exact fun e he cancelled => h e he (withdraws_iff.mp cancelled)

theorem seqCancelled_first {pre post : List EngOp} (ops : s.ops = pre ++ o :: post) (h : withdrawn s core o)
    (first : ∀ e ∈ pre, ¬withdrawn s core e) : s.seqCancelled core = some o := by
  rw [seqCancelled_eq, List.find?_eq_some_iff_append]
  refine ⟨withdraws_iff.mpr h, pre, post, ops, fun e he => ?_⟩
  simpa using fun cancelled => first e he (withdraws_iff.mp cancelled)

/-! ## Starts (R182, R265, R266, R270) -/

/-- The groups of an operation that has no table of them: the one group of MMA, none for the rest. -/
def EngOp.ownGroups (o : EngOp) : List Group :=
  if o.tileFunc = 0 then
    [(0, (fmtOf o.fmt).m, o.tx, o.tx + ((fmtOf o.fmt).nkb * blockBytes (fmtOf o.fmt).tb + 15) / 16 * 16)]
  else []

/-- What `tileChecks` checks once it knows the groups. -/
def State.fitChecks (s : State) (o : EngOp) (gs : List Group) : Except Nat (List Group) :=
  let f := fmtOf o.fmt
  let size := (s.team o.team).size
  let span := tileSpans o.tileFunc o.opf f (bytesC f.m o.mask)
  if size < o.tc + span.1 ∨ (o.tileFunc ≠ 2 ∧ size < o.ta + span.2) then .error 0x07
  else if o.tileFunc ≤ 1 && (!(s.team o.team).opst || badB f gs) then .error 0x08
  else .ok gs

section
variable {gs : List Group} (fits : tileFits s o gs)
include fits

theorem fitChecks_fits : s.fitChecks o gs = .ok gs := by
  obtain ⟨-, span_a, span_b, store⟩ := fits
  refine (if_neg (by omega)).trans (if_neg ?_)
  by_cases multiplies : o.tileFunc ≤ 1
  · obtain ⟨opst, good⟩ := store multiplies
    simp [opst, good]
  · simp [multiplies]

/-- A group table is read only where the operand store is there. -/
theorem tileChecks_fits (named : if o.tileFunc = 1 then s.groups o (fmtOf o.fmt) = .ok gs else gs = o.ownGroups) :
    s.tileChecks o = .ok gs := by
  have checked := fitChecks_fits fits
  obtain ⟨format, -, -, store⟩ := fits
  unfold State.tileChecks
  refine (if_neg (by simp [format])).trans ?_
  split
  · next func =>
    obtain rfl : gs = o.ownGroups := by simpa [func] using named
    simp only [EngOp.ownGroups, if_pos func] at checked ⊢
    exact checked
  · next func =>
    have table : s.groups o (fmtOf o.fmt) = .ok gs := by simpa [func] using named
    obtain ⟨opst, -⟩ := store (by omega)
    exact (if_neg (by simp [opst])).trans (by simp only [table]; exact checked)
  · next mma mmag =>
    obtain rfl : gs = [] := by
      rw [if_neg mmag] at named
      exact named.trans (if_neg mma)
    exact checked

end

/-- The operation's first step is due. -/
def State.begins (s : State) (o : EngOp) (gs : List Group) : State :=
  (s.updOp o.id (fun _ => s.tileBegin o gs)).setSeq o.core (some o.id)

theorem seqStart_fits {gs : List Group} (tile : o.attn = false) (checks : s.tileChecks o = .ok gs) :
    s.seqStart o = s.begins o gs := by
  simp [State.seqStart, tile, checks, State.begins]

theorem seqStart_other (other : o.cls ≠ 8) : s.seqStart o =
    if o.attn then
      match s.attnBegin o with
      | .error e => s.stopOp o.id e
      | .ok e => (s.updOp o.id (fun _ => e)).setSeq o.core (some o.id)
    else match s.tileChecks o with
      | .error c => s.endOp o.id c
      | .ok gs => s.begins o gs := by
  unfold State.seqStart
  simp only [if_neg other]
  rfl

theorem seqStart_cpyx (copy : o.cls = 8) (tile : o.attn = false) : s.seqStart o =
    match s.tileChecks o with
      | .error _ => s.endOp o.id 0x0C
      | .ok gs => s.begins o gs := by
  unfold State.seqStart
  simp only [if_pos copy, tile]
  rfl

theorem execSequencerStart_cancelled {pre post : List EngOp} (ops : s.ops = pre ++ o :: post) (h : withdrawn s core o)
    (first : ∀ e ∈ pre, ¬withdrawn s core e) : execSequencerStart core s = .next (s.endOp o.id 1) := by
  simp [execSequencerStart, seqCancelled_first ops h first]

/-- The accumulators that a stopped operation reads back from C. -/
def State.accOf (s : State) (o : EngOp) : Tab Word :=
  let grp := (unflatGroups o.table).getD o.next (0, 0, 0, 0)
  if o.attn = false ∧ (o.tileFunc ≤ 1 ∨ o.cls = 8) ∧ o.kblk ≠ 0 then
    s.readAcc o ((List.range grp.2.1).map (fun i => grp.1 + i)) else []

section
variable (free : (s.core core).seq = none) (next : ArrayNext s core o)
include free next

theorem execSequencerStart_eq (waits : o.started = false) (other : o.cls ≠ 8) (kept : ∀ e ∈ s.ops, ¬withdrawn s core e) :
    execSequencerStart core s = .next (s.seqStart o) := by
  simp [execSequencerStart, seqCancelled_none kept, free, seqNext_of_arrayNext next, waits, other]

theorem execCpyxFollowOn_eq (waits : o.started = false) (copy : o.cls = 8) (held : s.op o.id = some o) (here : o.core = core) :
    execCpyxFollowOn o.id s = .next (s.seqStart o) := by
  subst here
  simp [execCpyxFollowOn, held, free, seqNext_of_arrayNext next, waits, copy]

theorem execTileResume_eq (started : o.started = true) : execTileResume core s =
    .next ((s.updOp o.id (fun e => { e with susp := false, acc := s.accOf o })).setSeq core (some o.id)) := by
  simp [execTileResume, free, seqNext_of_arrayNext next, started, State.accOf, and_assoc]

end

/-! ## Steps and stops (R277, R279, R334) -/

/-- What the array is left with after a step of the operation: its last step ends it; one that has ended or been stopped is off
the array. -/
def State.leftBy (t : State) (core id : Nat) : State :=
  match t.op id with
  | some e =>
    if e.code = none ∧ e.arrayDone then (t.endOp id 0).setSeq core none
    else if e.code ≠ none ∨ e.susc ≠ 0 then t.setSeq core none else t
  | none => t.setSeq core none

section
variable (seq : (s.core core).seq = some o.id) (held : s.op o.id = some o)
include seq held

theorem running_eq : s.running core = some o := by
  simp [State.running, seq, held]

theorem execTileStep_eq (stays : ¬mustLeave s o) (copies : o.attn = false → s.copiesInto o (s.tileReads o) = false) {t : State}
    (step : (if o.attn then s.attnStep o else some (s.tileStep o)) = some t) :
    execTileStep core s = .next (t.leftBy core o.id) := by
  have clear : (!o.attn && s.copiesInto o (s.tileReads o)) = false := by
    cases attn : o.attn <;> simp [copies, attn]
  unfold execTileStep
  simp only [running_eq seq held, mustStop_eq_false stays, clear, step]
  unfold State.leftBy
  cases t.op o.id with
  | none => rfl
  | some e => simp [Option.isSome_iff_ne_none]

theorem execTileStop_eq (leaves : mustLeave s o) : execTileStop core s =
    .next (if o.cancel then (s.endOp o.id 1).setSeq core none else
      ((s.putAcc o).updOp o.id (fun e => { e with susp := true, acc := [] })).setSeq core none) := by
  unfold execTileStop
  simp only [running_eq seq held, mustStop_iff.mpr leaves]
  cases o.cancel <;> rfl

end
end

/-! ## The statement -/

/-- Settles O27: the operation that `ArrayNext` names is the one `seqNext` finds, and `mustLeave` is `mustStop`; each row then
does what its equation above says. -/
theorem sequencerEventsComplete : Obligations.SequencerEventsComplete := by
  unfold Obligations.SequencerEventsComplete
  intro core o s groupsOf began starts runs stays done stepped
  refine ⟨fun ⟨free, next, waits⟩ other kept => ?start, fun pre post => execSequencerStart_cancelled,
    fun ⟨⟨seq, held⟩, stays⟩ tile copies => ?tile, fun t ⟨⟨seq, held⟩, stays⟩ attn step => ?attn,
    fun ⟨seq, held⟩ leaves => execTileStop_eq seq held leaves, fun free next started => execTileResume_eq free next started,
    fun ⟨free, next, waits⟩ here copy tile held => ?follow⟩
  case start =>
    have go := execSequencerStart_eq free next waits other kept
    have fit (gs : List Group) (tile : o.attn = false) (checks : s.tileChecks o = .ok gs) :
        exec (.sequencerStart core) s = .next (began gs) := go.trans (congrArg _ (seqStart_fits tile checks))
    refine ⟨go.trans (congrArg _ (seqStart_other other)), fun tile func fits => ?_, fun gs tile func table fits => ?_⟩
    · exact fit _ tile (tileChecks_fits fits ((if_neg func).mpr rfl))
    · exact fit gs tile (tileChecks_fits fits ((if_pos func).mpr table))
  case tile => exact execTileStep_eq seq held stays (fun _ => copies) (if_neg (by simp [tile]))
  case attn => exact execTileStep_eq seq held stays (fun tile => by simp [attn] at tile) ((if_pos attn).trans step)
  case follow =>
    exact (execCpyxFollowOn_eq free next waits copy held here).trans (congrArg _ (seqStart_cpyx copy tile))

end Sys2Proof.Machine
end

section
/-! PROOF. Requests (R186, R188, R190, R193, R194): when a die asks for a line, when the home takes the request, and how it
grants the line. -/

namespace Sys2Proof.Machine
open Sys2Proof.Safety

/-! ## What a die asks for (R132, R133, R210) -/

section
variable {s : State} {d l : Nat}

theorem needsRead_of_loadWants (h : loadWants s d l) : s.needsRead d l = true := by
  obtain ⟨r, hr, started, waits, here, a, ha, i, left, line⟩ := h
  simp only [State.needsRead, List.any_eq_true, Bool.and_eq_true, Bool.not_eq_true', beq_iff_eq]
  refine ⟨r, hr, ⟨⟨⟨started, waits⟩, here⟩, a, ha, ?_⟩⟩
  simpa [Acc.wants] using ⟨i, left, line⟩

theorem needsWrite_of_writeWants (h : writeWants s d l) : s.needsWrite d l = true := by
  rw [State.needsWrite, Bool.or_eq_true]
  refine h.imp (fun ⟨w, hw, waits, place, wb, wbinv, die, line⟩ => ?_) (fun ⟨c, current, line⟩ => ?_)
  · exact List.any_eq_true.mpr ⟨w, hw, by simp [waits, place, wb, wbinv, die, line]⟩
  · simpa only [current, beq_iff_eq] using line

theorem execRds_send (state : (s.l2 d l).st = .I) (wants : loadWants s d l) :
    execRds .send d l s = .next ((s.toState d l .IS).send { kind := .rds, die := d, line := l }) :=
  onlyIf_eq_next "RDS" _ (by simp [state, needsRead_of_loadWants wants])

theorem execRdx_send (state : (s.l2 d l).st = .I) (wants : writeWants s d l) :
    execRdx .send d l s = .next ((s.toState d l .IM).send { kind := .rdx, die := d, line := l }) :=
  onlyIf_eq_next "RDX" _ (by simp [state, needsWrite_of_writeWants wants])

theorem execUpg_send (state : (s.l2 d l).st = .S ∨ (s.l2 d l).st = .O) (unsnooped : (s.l2 d l).snoop = none)
    (wants : writeWants s d l) :
    execUpg .send d l s = .next ((s.toState d l .SM).send { kind := .upg, die := d, line := l }) :=
  onlyIf_eq_next "UPG" _ (by simp [state, unsnooped, needsWrite_of_writeWants wants])

/-! ## The home takes a request (R188) -/

theorem takeReq_of_turn {k : MsgKind} {rest : List Msg} (request : k.channel < 2) (h : Turn s k d l rest) :
    s.takeReq k d l = some { s with net := rest } := by
  obtain ⟨stable, host, a, m, b, net, rfl, hk, hd, hl, ahead, head⟩ := h
  have split := splitMsg_append (b := b) hk hd hl fun x hx die line kind => by
    have later := ahead x hx die line
    rw [kind] at later
    omega
  have free : ¬((s.dirE l).trans ≠ 0 ∨ (isHost (64 * l) = true ∧ (s.dirE l).hsnp.isSome = true)) := by
    rintro (busy | ⟨hosted, snooped⟩)
    · exact busy stable
    · simp [host hosted] at snooped
  have clear : a.any (fun x => x.die == d && x.line == l && decide (x.kind.channel < 2)) = false := by
    simpa [Nat.succ_le_iff] using ahead
  unfold State.takeReq
  rw [net, split]
  exact (if_neg free).trans (if_neg (by simp only [clear, headOfLine_iff.mp head]; decide))

theorem execRds_take {rest : List Msg} (h : Turn s .rds d l rest) :
    execRds .take d l s = .next (State.take { s with net := rest } .rds d l) := by
  simp only [execRds, takeReq_of_turn (by decide) h]

theorem execRdx_take {rest : List Msg} (h : Turn s .rdx d l rest) :
    execRdx .take d l s = .next (State.take { s with net := rest } .rdx d l) := by
  simp only [execRdx, takeReq_of_turn (by decide) h]

theorem execUpg_take {rest : List Msg} (h : Turn s .upg d l rest) :
    execUpg .take d l s = .next (State.take { s with net := rest } .upg d l) := by
  simp only [execUpg, takeReq_of_turn (by decide) h]

end

/-! ## The home deals with the host first (R193, R194) -/

/-- The home asks the host for the line. -/
def State.askHost (t : State) (k : MsgKind) (d l : Nat) : State :=
  let u := t.updDir l (fun e => { e with trans := 2, txn := some { kind := k, die := d, hostq := true } })
  { u with link := { u.link with asked := u.link.asked ++ [(l, k == .rds)] } }

/-- The home waits for the host to give its copy up. -/
def State.awaitBack (t : State) (k : MsgKind) (d l : Nat) : State :=
  t.updDir l (fun e => { e with trans := 4, txn := some { kind := k, die := d } })

theorem take_eq {t : State} {k : MsgKind} {d l : Nat} {e : DirE} {host : Prop} [Decidable host] {served : State}
    (dir : t.dirE l = e) (needs : t.needsHost k l = true ↔ host)
    (serve : e.hostc = false → t.serve k d l = served) :
    t.take k d l = if host then t.askHost k d l else if e.hostc then t.awaitBack k d l else served := by
  subst dir
  unfold State.take
  exact ite_congr (propext needs) (fun _ => rfl) fun _ =>
    ite_congr rfl (fun _ => rfl) fun clear => serve (Bool.eq_false_iff.mpr clear)

theorem needsHost_rds {t : State} {l : Nat} :
    t.needsHost .rds l = true ↔ isHost (64 * l) = true ∧ (t.dirE l).host = 0 := by
  simp [State.needsHost]

theorem needsHost_write {t : State} {l : Nat} {k : MsgKind} (write : k ≠ .rds) :
    t.needsHost k l = true ↔ isHost (64 * l) = true ∧ (t.dirE l).host ≠ 2 := by
  simp [State.needsHost, write]

/-! ## The home grants the line (R186, R187, R190) -/

/-- The last-level cache leaves every line's value and entry. -/
theorem State.SameLines.throughLlc (s : State) (d l : Nat) : s.SameLines (s.throughLlc d l) := by
  unfold State.throughLlc
  split
  · exact .ite (.llcAccess ..) (.refl s)
  · exact .refl s

/-- The home waits for dies' answers. -/
def State.awaitDies (u : State) (k : MsgKind) (d l trans : Nat) (w : BitVec 8) : State :=
  u.updDir l (fun e => { e with trans := trans, txn := some { kind := k, die := d, wait := w } })

/-- Dies of an entry other than the one that asks. -/
def DirE.others (e : DirE) (d : Nat) : BitVec 8 := e.shar &&& ~~~ bit8 d

/-- RdS from the home's own copy or from the owner's. -/
def State.serveRds (u : State) (e : DirE) (d l : Nat) : State :=
  if e.state = 0 then (if isHost (64 * l) ∧ e.host ≠ 2 then u.grantS d l 1 else u.grantE d l)
  else if e.state = 1 then u.grantS d l 1
  else (u.send { kind := .snpfwd, die := e.owner, line := l }).awaitDies .rds d l 2 (bit8 e.owner)

/-- RdX, once every other copy is given up. -/
def State.serveRdx (u : State) (e : DirE) (d l : Nat) : State :=
  if e.state < 2 then
    (if e.others d = 0 then u.grantM d l else (u.snoopAll .snpinv (e.others d) l).awaitDies .rdx d l 1 (e.others d))
  else ((u.send { kind := .snpfwdx, die := e.owner, line := l }).snoopAll .snpinv (e.others d &&& ~~~ bit8 e.owner) l).awaitDies
    .rdx d l 2 ((e.others d &&& ~~~ bit8 e.owner) ||| bit8 e.owner)

/-- Upg of a sharer, once every other copy is given up. -/
def State.serveUpg (u : State) (e : DirE) (d l : Nat) : State :=
  if e.others d = 0 then u.grantUp d l else (u.snoopAll .snpinv (e.others d) l).awaitDies .upg d l 1 (e.others d)

section
variable {t : State} {d l : Nat} {e : DirE} (dir : t.dirE l = e)
include dir

theorem serve_rds (clear : e.hostc = false) : t.serve .rds d l = (t.throughLlc d l).serveRds e d l := by
  have same := (State.SameLines.throughLlc t d l).dirE l
  unfold State.serve State.serveRds
  simp only [same, dir, clear]
  simp
  rfl

theorem serve_rdx : t.serve .rdx d l = (t.throughLlc d l).serveRdx e d l := by
  have same := (State.SameLines.throughLlc t d l).dirE l
  unfold State.serve State.serveRdx
  simp only [same, dir]
  rfl

/-- A die that is no sharer any more is served as for RdX (R190). -/
theorem serve_upg : t.serve .upg d l =
    if e.shar.getLsbD d = false then (t.throughLlc d l).serveRdx e d l else (t.throughLlc d l).serveUpg e d l := by
  have same := (State.SameLines.throughLlc t d l).dirE l
  unfold State.serve State.serveUpg State.serveRdx
  simp only [same, dir]
  cases e.shar.getLsbD d <;> rfl

end

/-! ## The statement -/

/-- Settles O29: each row's equation above at the conditions that the statement names. The way that a line takes in the
last-level cache is the model's choice (log 143). -/
theorem coherenceRequestsComplete : Obligations.CoherenceRequestsComplete := by
  unfold Obligations.CoherenceRequestsComplete
  intro d l s x e others waiting exclusive hosted cached asked recalled
  refine ⟨execRds_send, execRdx_send, execUpg_send, fun rest turn => ?rds, fun rest turn => ?rdx, fun rest turn => ?upg⟩
  case rds => exact (execRds_take turn).trans (congrArg _ (take_eq rfl needsHost_rds (serve_rds rfl)))
  case rdx => exact (execRdx_take turn).trans (congrArg _ (take_eq rfl (needsHost_write (by decide)) fun _ => serve_rdx rfl))
  case upg => exact (execUpg_take turn).trans (congrArg _ (take_eq rfl (needsHost_write (by decide)) fun _ => serve_upg rfl))

end Sys2Proof.Machine
end

section
/-! PROOF. Deliveries (R186, R189, R191, R208): snoops, data, grants and acknowledgements reach their die. -/

namespace Sys2Proof.Machine
open Sys2Proof.Safety

section
variable {s : State} {k : MsgKind} {d l : Nat} {m : Msg} {rest : List Msg} (arr : Arrives s k d l m rest)
include arr

theorem snooped_of_arrives (n : Nat) : s.snooped k n d l =
    some ((State.notice { s with net := rest } d l).updL2 d l (fun x => { x with snoop := some n })) := by
  simp only [State.snooped, takeMsg_of_arrives arr]

theorem received_data {asked : L2St} (state : (s.l2 d l).st = asked) (st : L2St) : s.received k d l [asked] st true =
    some (State.updL2 { s with net := rest } d l (fun x => { x with st := st, bytes := m.bytes, pois := m.pois })) := by
  simp [State.received, takeMsg_of_arrives arr, state]

theorem received_grant {asked : L2St} (state : (s.l2 d l).st = asked) (st : L2St) : s.received k d l [asked] st false =
    some (State.toState { s with net := rest } d l st) := by
  simp [State.received, takeMsg_of_arrives arr, state]

end

/-- Settles O31: a message that arrives is taken, and does to the die's line what its row says. -/
theorem coherenceDeliveriesComplete : Obligations.CoherenceDeliveriesComplete := by
  unfold Obligations.CoherenceDeliveriesComplete
  intro d l m rest s t filled snooped
  refine ⟨fun arr => ?_, fun arr => ?_, fun arr => ?_, fun arr state => ?_, fun arr state => ?_, fun arr state => ?_,
    fun arr state => ?_, fun arr state => ?_⟩
  · simp only [exec_snpinv, execSnpinv, snooped_of_arrives arr]; rfl
  · simp only [exec_snpfwd, execSnpfwd, snooped_of_arrives arr]; rfl
  · simp only [exec_snpfwdx, execSnpfwdx, snooped_of_arrives arr]; rfl
  · simp only [exec_dats, execDats, received_data arr state]; rfl
  · simp only [exec_date, execDate, received_data arr state]; rfl
  · simp only [exec_datm, execDatm, received_data arr state]; rfl
  · simp only [exec_grant, execGrant, received_grant arr state]; rfl
  · simp [execWback, state, takeMsg_of_arrives arr, t]

end Sys2Proof.Machine
end

section
/-! PROOF. The host's side of coherence (R192 to R195): back-invalidation, host snoops, the host's own lines, and its accesses
at their home. -/

namespace Sys2Proof.Machine
open Sys2Proof.Safety

/-! ## Back-invalidation (R194) -/

/-- What else than a die's request may want a line that the host has: a write at its home, an operation's request there, the
reclaim walker, a tree instruction. -/
def State.BankWants (s : State) (l : Nat) : Prop :=
  (∃ w ∈ s.writes, w.done = false ∧ w.place = .bank ∧ w.line = l) ∨
    (∃ o ∈ s.ops, ∃ k, o.home = some (l, k)) ∨ s.trees.walk.isSome = true ∨
    (∃ r ∈ s.reqs, r.started = true ∧ ∃ i j a b c x, r.kind = .tree i j a b c x)

theorem bankWants_of {s : State} {l : Nat} (h : s.BankWants l) : s.bankWants l = true := by
  simp only [State.bankWants, Bool.or_eq_true, List.any_eq_true, Bool.and_eq_true, Bool.not_eq_true', beq_iff_eq]
  rcases h with ⟨w, hw, waits, place, line⟩ | ⟨o, ho, k, home⟩ | walk | ⟨r, hr, started, i, j, a, b, c, x, kind⟩
  · exact .inl (.inl (.inl ⟨w, hw, ⟨waits, place⟩, line⟩))
  · exact .inl (.inl (.inr ⟨o, ho, by simp [home]⟩))
  · exact .inl (.inr walk)
  · exact .inr ⟨r, hr, started, by simp [kind]⟩

section
variable {s : State} {l : Nat}

theorem execBackInvalidate_request (trans : (s.dirE l).trans = 4) (unsent : (s.txn l).biw = false) :
    execBackInvalidate l s = .next (s.updDir l (fun e => { e with txn := e.txn.map (fun t => { t with biw := true }) })) :=
  if_pos ⟨trans, by simp [unsent]⟩

theorem execBackInvalidate_bank (trans : (s.dirE l).trans = 0) (hostc : (s.dirE l).hostc = true) (wants : s.BankWants l) :
    execBackInvalidate l s =
      .next (s.updDir l (fun e => { e with trans := 4, txn := some { kind := .wback, die := 0, biw := true } })) :=
  (if_neg (by simp [trans])).trans (if_pos ⟨trans, hostc, bankWants_of wants⟩)

/-- The host's answer to a snoop of a recovery (R388). -/
theorem execBackInvalidationResponse_recov (recov : (s.txn l).recov = true) (sent : (s.txn l).biw = true) :
    execBackInvalidationResponse l s =
      .next (s.updDir l (fun e => { e with txn := e.txn.map (fun t => { t with biw := false }) })) :=
  if_pos ⟨recov, sent⟩

/-- The request that has waited for the host goes on: the host keeps a copy for RdS, and none for anything else. -/
def State.backServed (s : State) (l : Nat) : State :=
  let t := s.txn l
  let gone := s.updDir l (fun e => { e with hostc := false, trans := 0, txn := none })
  if t.kind = .rds then (s.updDir l (fun e => { e with trans := 0, txn := none })).serve .rds t.die l
  else if t.kind = .wback then gone else gone.serve t.kind t.die l

theorem execBackInvalidationResponse_eq (trans : (s.dirE l).trans = 4) (sent : (s.txn l).biw = true)
    (recov : (s.txn l).recov = false) : execBackInvalidationResponse l s = .next (s.backServed l) := by
  unfold execBackInvalidationResponse State.backServed
  refine (if_neg (by simp [recov])).trans ((if_neg (by simp [trans, sent])).trans ?_)
  by_cases read : (s.txn l).kind = .rds
  · simp only [read, if_true]
  · simp only [read, if_false]

/-! ## The host's own lines (R193, R195, R384) -/

/-- The host's line, written at the line's place. -/
def State.hostLine (s : State) (l : Nat) (data : HostLine) : State := { s with
  pois := s.pois.set false l data.pois
  mem := (List.range 64).foldl (fun m i => m.set 0 (64 * l + i) (BitVec.ofNat 8 (data.bytes.getD i 0))) s.mem
  link := { s.link with asked := s.link.asked.filter (fun p => p.1 != l) } }

theorem execHostCacheResponse_eq {data : HostLine} (asked : (s.txn l).hostq = true) (hosted : isHost (64 * l) = true)
    (whole : data.bytes.length = 64) (up : s.link.down = false) (keys : s.carries 17 = true) :
    execHostCacheResponse l data s = .next (((s.hostLine l data).updDir l (fun e => { e with
      trans := 0, txn := none, host := if (s.txn l).kind = .rds then max e.host 1 else 2 })).serve
      (s.txn l).kind (s.txn l).die l) :=
  if_neg (by simp [asked, hosted, whole, up, keys])

/-- The dies have answered a snoop of the host (log 19). -/
def State.hostSnooped (s : State) (l : Nat) (inv : Bool) : State :=
  if inv then (s.recall l).updDir l (fun e => { e with hsnp := none, host := 0 })
  else (s.passOn l).updDir l (fun e => { e with hsnp := none, host := min 1 e.host })

variable {inv : Bool} (hosted : isHost (64 * l) = true)
include hosted

theorem execHostSnoop_send (none_waits : (s.dirE l).hsnp = none) (up : s.link.down = false) (keys : s.carries 17 = true) :
    execHostSnoop .send l inv s = .next (s.updDir l (fun e => { e with hsnp := some inv })) :=
  (if_neg (by simp [hosted])).trans (onlyIf_eq_next "HOST_SNOOP" _ (by simp [none_waits, up, keys]))

theorem execHostSnoop_take (waits : (s.dirE l).hsnp = some inv) (stable : (s.dirE l).trans = 0 ∨ (s.txn l).hostq = true)
    (answers : answerable s l inv) : execHostSnoop .take l inv s = .next (s.hostSnooped l inv) :=
  (if_neg (by simp [hosted])).trans
    (onlyIf_eq_next "HOST_SNOOP" _ (by simpa [waits, answerable_iff.mp answers] using stable))

end

/-! ## Host accesses (R192) -/

section
variable {s : State} {a : HostAcc}

theorem execHostAccess_send (cxl : a.cxl = true) (ready : s.plat.ready = true) (up : s.link.down = false)
    (keys : s.carries 17 = true) (len : 0 < a.len) (device : a.addr + a.len ≤ ctlBase)
    (bytes : a.bytes = [] ∨ a.bytes.length = a.len) (present : ∀ l ∈ accLines a, s.stackAbsent (stackOf l) = false) :
    execHostAccess .send a s = .next ({ s with link := { s.link with cxlmem := true } }.arriveHost a) := by
  have good : s.goodAcc a = true := by
    simp only [State.goodAcc, Bool.and_eq_true, Bool.or_eq_true, decide_eq_true_eq, List.isEmpty_iff, beq_iff_eq,
      List.all_eq_true, Bool.not_eq_true']
    exact ⟨⟨⟨len, device⟩, bytes⟩, present⟩
  exact onlyIf_eq_next "HOST_ACCESS" _ (by simp [cxl, ready, up, keys, good])

/-- Of the accesses that wait it is the first at each of its lines, and has its turn there. -/
theorem hostTurn_of {pre post : List (HostAcc × Nat)} {time : Nat} (waits : s.link.pend = pre ++ (a, time) :: post)
    (lines : accLines a ≠ []) (first : ∀ p ∈ pre, ∀ l ∈ accLines a, l ∉ accLines p.1)
    (turn : ∀ l ∈ accLines a, (s.dirE l).trans = 0 ∧ answerable s l (accWr a) ∧ headOfLine s l (homeKey time 1 0)) :
    s.hostTurn a = true := by
  have itself : (accLines a).any (fun l => (accLines a).contains l) = true := by
    obtain ⟨l, hl⟩ := List.exists_mem_of_ne_nil _ lines
    exact List.any_eq_true.mpr ⟨l, hl, List.contains_iff_mem.mpr hl⟩
  have found : s.link.pend.find? (fun p => (accLines p.1).any (fun l => (accLines a).contains l)) = some (a, time) := by
    rw [waits, List.find?_append, List.find?_eq_none.mpr]
    · simp only [Option.none_or]
      exact List.find?_cons_of_pos itself
    · intro p hp meets
      obtain ⟨l, theirs, ours⟩ := List.any_eq_true.mp meets
      exact first p hp l (List.contains_iff_mem.mp ours) theirs
  unfold State.hostTurn
  rw [found]
  simp only [BEq.rfl, Bool.true_and, List.all_eq_true]
  intro l hl
  obtain ⟨stable, answers, head⟩ := turn l hl
  simp [stable, answerable_iff.mp answers, headOfLine_iff.mp head]

end

/-! ## The statement -/

/-- Settles O32: each row's equation above at the conditions that the statement names. That a host snoop recalls every die in
one step (log 19), and that an access of several lines is performed in one step (log 96), are the model's choices. -/
theorem hostCoherenceCompletes : Obligations.HostCoherenceCompletes := by
  unfold Obligations.HostCoherenceCompletes
  intro l inv data a s e t live bankWants
  exact ⟨execBackInvalidate_request, execBackInvalidate_bank, execBackInvalidationResponse_recov,
    execBackInvalidationResponse_eq,
    fun asked hosted whole ⟨up, keys⟩ pois => execHostCacheResponse_eq asked hosted whole up keys,
    fun hosted waits ⟨up, keys⟩ => execHostSnoop_send hosted waits up keys,
    execHostSnoop_take,
    fun cxl ready ⟨up, keys⟩ => execHostAccess_send cxl ready up keys,
    fun pre time post waits lines first turn => onlyIf_eq_next "HOST_ACCESS" _ (hostTurn_of waits lines first turn)⟩

end Sys2Proof.Machine
end

section
/-! PROOF. The state after reset (R185, R295, R343, R345, R374, R385, R388, R406): every table is empty, so each thing in one
has its default fields. -/

namespace Sys2Proof.Machine
open Sys2Proof.Safety

@[simp] theorem reset_dirE (l : Nat) : State.reset.dirE l = {} := rfl
@[simp] theorem reset_l2 (d l : Nat) : State.reset.l2 d l = {} := rfl
@[simp] theorem reset_core (c : Nat) : State.reset.core c = {} := rfl
@[simp] theorem reset_tenant (t : Nat) : State.reset.tenant t = {} := rfl
@[simp] theorem reset_asd (a : Nat) : State.reset.asd a = {} := rfl
@[simp] theorem reset_root (r : Nat) : State.reset.root r = {} := rfl
@[simp] theorem reset_pool (k : Nat) : State.reset.pool k = {} := rfl

/-- No die holds a line, so its value is at its home. -/
@[simp] theorem reset_holder (l : Nat) : State.reset.holder l = none := rfl
@[simp] theorem reset_inFlight (l : Nat) : State.reset.inFlight l = none := rfl

theorem reset_cur (a : Nat) : State.reset.cur a = 0 := by
  simp only [State.cur, State.lineTab, reset_holder, reset_inFlight]
  rfl

theorem reset_linePoison (l : Nat) : State.reset.linePoison l = false := by
  simp only [State.linePoison, reset_holder, reset_inFlight]
  rfl

/-- Settles O44, field by field. The sound supply, lines that read zero at their homes, in no die, and the zeros of handler
vectors and fault queues are the model's choices (logs 3 to 5). -/
theorem resetState : Obligations.ResetState := by
  unfold Obligations.ResetState
  intro s
  refine ⟨reset_canon, rfl, rfl, rfl, rfl, rfl, rfl, rfl, rfl, rfl, rfl, rfl, rfl, rfl, rfl, rfl, rfl, rfl, rfl,
    reset_cur, reset_linePoison, fun l => ?dir, fun d l => ?die, fun c => ?core, fun t => ?tenant, fun a => ?asd,
    fun r => ?root, fun k => ?pool⟩
  case dir => rw [reset_dirE]; exact ⟨rfl, rfl, rfl⟩
  case die => rw [reset_l2]; exact ⟨rfl, rfl, rfl⟩
  case core => rw [reset_core]; exact ⟨rfl, rfl, rfl, rfl, fun _ => rfl⟩
  case tenant => rw [reset_tenant]; exact ⟨rfl, rfl, rfl, rfl⟩
  case asd => rw [reset_asd]
  case root => rw [reset_root]; exact ⟨rfl, rfl⟩
  case pool => rw [reset_pool]

end Sys2Proof.Machine
end

section
/-! PROOF. The dispatcher (R198, R285 to R294, R303, R370): records, groups, instances, teams and completions. -/

namespace Sys2Proof.Machine
open Sys2Proof.Safety

/-! ## Faults that the dispatcher meets (R370) -/

/-- The fault waits in the form of an operation, posted to the descriptor's tenant (log 90). -/
def State.met (s : State) (a cause va : Nat) : State :=
  let o : EngOp := {
    id := s.clk.fresh, cls := 0xE, func := 0, warp := 2 ^ 64, team := 2 ^ 64, inst := 2 ^ 64, core := 0, asd := a
    tenant := (s.asd a).tenant, susp := true, susc := cause, fault := va }
  { s.bump with ops := s.ops ++ [o] }.postEngine o

/-- The fault does not stand yet. -/
def State.Unmet (s : State) (a va : Nat) : Prop := ∀ x ∈ s.ops, x.cls = 0xE → x.func = 0 → x.asd = a → x.fault ≠ va

theorem meets_fault {s : State} {a c va : Nat} (row : String) (once : s.Unmet a va) :
    s.meets row a (.fault c va) = .next (s.met a c va) := by
  refine onlyIf_eq_next row _ ?_
  simpa [State.Unmet] using once

section
variable {s : State} {a n : Nat}

/-! ## Records (R198, R285) -/

/-- The record's turn to be read has come: its slot is in the ring and no EMIT is still to write it; it has not passed; and
after a word that differed, 1,000 ns are over. -/
structure State.RecordDue (s : State) (a n r : Nat) (d : NodeD) (io : Nat) : Prop where
  sound   : d.bad = false
  queue   : d.qcap ≠ 0
  untaken : (s.nodeQ a n).first ≤ r
  ring    : r < (s.nodeQ a n).first + d.qcap
  unread  : r ∉ (s.nodeQ a n).passed
  due     : ∀ p ∈ (s.nodeQ a n).refetch, p.1 = r → p.2.1 ≤ s.clk.time
  written : s.emitting io d r = false

/-- How often the record has been read again. -/
def NodeQ.rereads (q : NodeQ) (r : Nat) : Nat := match q.refetch.find? (fun p => p.1 == r) with
  | some p => p.2.2 + 1
  | none => 0

/-- The queue with the record seen, from now on if not before, and its reread over. -/
def NodeQ.see (q : NodeQ) (r time : Nat) : NodeQ := { q with
  seen := if q.seen.any (fun p => p.1 == r) then q.seen else q.seen ++ [(r, time)]
  refetch := q.refetch.filter (fun p => p.1 != r) }

/-- The record is to be read again 1,000 ns later. -/
def State.readLater (s : State) (a n r tail : Nat) : State :=
  let p := (s.nodeQ a n).see r s.clk.time
  (s.watchTail a n tail).putNodeQ { p with refetch := p.refetch ++ [(r, s.clk.time + 1000, (s.nodeQ a n).rereads r)] }

/-- The record's word has been read: it passes where the word is its index, and is else read later, which is logged once it
has been 1,000 times. -/
def State.readRecord (s : State) (a n r tail : Nat) (same : Bool) : State :=
  let p := (s.nodeQ a n).see r s.clk.time
  let late := s.readLater a n r tail
  if same then (s.watchTail a n tail).putNodeQ { p with passed := insertNat r p.passed }
  else if (s.nodeQ a n).rereads r = 1000 then
    late.logErr (late.nodeLog a n).1 (1 + Config.stalledKind.toNat) (late.nodeLog a n).2 0 0
  else late

/-- A record that is due is read, or at the tail waited for. -/
def State.atRecord (s : State) (a n r : Nat) (d : NodeD) (io : Nat) : Out :=
  if r = d.tail then
    onlyIf "RECORD_REFETCH" (s.tailEntry a n).isSome ((s.watchTail a n d.tail).putNodeQ (s.nodeQ a n))
  else match s.seqOk d io r with
    | .error e => s.meets "RECORD_REFETCH" io e
    | .ok same => .next (s.readRecord a n r d.tail same)

section
variable {c va : Nat} (node : s.queueNode a n = .error (.fault c va)) (once : s.Unmet a va)
include node once

theorem execRecordRefetch_unread (r : Nat) : execRecordRefetch a n r s = .next (s.met a c va) := by
  unfold execRecordRefetch
  simp only [node]
  exact meets_fault _ once

theorem execGroupForm_unread : execGroupForm a n s = .next (s.met a c va) := by
  unfold execGroupForm
  simp only [node]
  exact meets_fault _ once

theorem execCoalesceTimeout_unread : execCoalesceTimeout a n s = .next (s.met a c va) := by
  unfold execCoalesceTimeout
  simp only [node]
  exact meets_fault _ once

end

section
variable {x h : Nat} (node : s.queueNode a n = .ok (x, h))
include node

theorem execRecordRefetch_eq {r : Nat} (due : s.RecordDue a n r (NodeD.ofNat x) (nodeAsd a h))
    (below : r ≤ (NodeD.ofNat x).tail) :
    execRecordRefetch a n r s = s.atRecord a n r (NodeD.ofNat x) (nodeAsd a h) := by
  obtain ⟨sound, queue, untaken, ring, unread, due, written⟩ := due
  unfold execRecordRefetch State.atRecord
  simp only [node]
  refine (if_neg ?_).trans ?_
  · simp only [Bool.or_eq_true, not_or]
    refine ⟨⟨⟨⟨⟨⟨⟨?_, ?_⟩, ?_⟩, ?_⟩, ?_⟩, ?_⟩, ?_⟩, ?_⟩
    · simp [sound]
    · simp [queue]
    · simpa using untaken
    · simpa using below
    · simpa using ring
    · simpa using unread
    · simp only [Bool.not_eq_true', Bool.not_eq_false]
      split
      · next p found => simpa using due p (List.mem_of_find?_eq_some found) (by simpa using List.find?_some found)
      · rfl
    · simp [written]
  · cases s.seqOk (NodeD.ofNat x) (nodeAsd a h) r with
    | error e => rfl
    | ok same => cases same <;> rfl

/-! ## Groups (R198, R284, R286) -/

theorem execGroupForm_full (sound : (NodeD.ofNat x).bad = false) (queue : (NodeD.ofNat x).qcap ≠ 0)
    (passed : ∀ j, j < (NodeD.ofNat x).coal → (s.nodeQ a n).first + j ∈ (s.nodeQ a n).passed) :
    execGroupForm a n s = .next (s.formGroup a n x h ((s.nodeQ a n).ripe (NodeD.ofNat x)) 0) := by
  have full : (s.nodeQ a n).full (NodeD.ofNat x) = true := by
    simpa [NodeQ.full] using passed
  unfold execGroupForm
  simp only [node]
  exact (if_neg queue).trans ((if_neg (by simp [sound])).trans (onlyIf_eq_next "GROUP_FORM" _ full))

/-- A malformed node's group is whatever its tail covers (R284). -/
theorem execGroupForm_bad (bad : (NodeD.ofNat x).bad = true) (queue : (NodeD.ofNat x).qcap ≠ 0)
    (some_left : (s.nodeQ a n).first < (NodeD.ofNat x).tail) :
    execGroupForm a n s =
      .next (s.formGroup a n x h (min (max 1 (NodeD.ofNat x).coal) ((NodeD.ofNat x).tail - (s.nodeQ a n).first)) 3) := by
  unfold execGroupForm
  simp only [node]
  exact (if_neg queue).trans ((if_pos bad).trans (onlyIf_eq_next "GROUP_FORM" _ (decide_eq_true some_left)))

theorem execGroupForm_direct (queue : (NodeD.ofNat x).qcap = 0) : execGroupForm a n s = s.formDirect a n x h := by
  unfold execGroupForm
  simp only [node]
  exact if_pos queue

end

/-- The instance of a node without a queue. -/
def State.direct (s : State) (a n x h : Nat) : Inst := {
  asd := a, node := n, num := 0, desc := x, hdr := h, owner := (s.asd a).tenant, direct := true, state := 3
  err := if (NodeD.ofNat x).bad then 3 else 0 }

/-- An overrun of the node's predecessors is known to have been reported, or to be over. -/
def State.markOverrun (s : State) (a n : Nat) (b : Bool) : State := s.updNodeQ a n (fun q => { q with overrun := b })

section
variable {x h : Nat} (preds : (NodeD.ofNat x).preds ≠ []) (none_waits : s.undispatched a n = [])
include preds none_waits

theorem formDirect_eq : s.formDirect a n x h = match s.preds (s.direct a n x h) with
    | .ok (_, true) => onlyIf "GROUP_FORM" (!(s.nodeQ a n).overrun) ((s.newInst (s.direct a n x h)).markOverrun a n true)
    | .ok (true, false) => .next (State.markOverrun
        (if (NodeD.ofNat x).bad then (s.newInst (s.direct a n x h)).consume (s.direct a n x h)
          else s.newInst (s.direct a n x h)) a n false)
    | .ok (false, false) => onlyIf "GROUP_FORM" (s.nodeQ a n).overrun (s.markOverrun a n false)
    | .error e => s.meets "GROUP_FORM" (s.direct a n x h).io e :=
  if_neg (by simp [preds, none_waits])

theorem formDirect_overrun {b : Bool} (bars : s.preds (s.direct a n x h) = .ok (b, true))
    (unsaid : (s.nodeQ a n).overrun = false) :
    s.formDirect a n x h = .next ((s.newInst (s.direct a n x h)).markOverrun a n true) := by
  rw [formDirect_eq preds none_waits, bars]
  exact onlyIf_eq_next "GROUP_FORM" _ (by simp [unsaid])

theorem formDirect_flipped (bars : s.preds (s.direct a n x h) = .ok (true, false)) :
    s.formDirect a n x h = .next (State.markOverrun
      (if (NodeD.ofNat x).bad then (s.newInst (s.direct a n x h)).consume (s.direct a n x h)
        else s.newInst (s.direct a n x h)) a n false) := by
  rw [formDirect_eq preds none_waits, bars]

theorem formDirect_cleared (bars : s.preds (s.direct a n x h) = .ok (false, false))
    (said : (s.nodeQ a n).overrun = true) : s.formDirect a n x h = .next (s.markOverrun a n false) := by
  rw [formDirect_eq preds none_waits, bars]
  exact onlyIf_eq_next "GROUP_FORM" _ said

theorem formDirect_fault {c va : Nat} (bars : s.preds (s.direct a n x h) = .error (.fault c va))
    (once : s.Unmet (s.direct a n x h).io va) :
    s.formDirect a n x h = .next (s.met (s.direct a n x h).io c va) := by
  rw [formDirect_eq preds none_waits, bars]
  exact meets_fault _ once

end

/-- The first untaken record makes a group by itself. -/
theorem ripe_pos {q : NodeQ} {d : NodeD} (queue : d.qcap ≠ 0) (coal : 1 ≤ d.coal) (passed : q.first ∈ q.passed) :
    0 < q.ripe d := by
  have room : 0 < min d.coal (d.qcap - q.first % d.qcap) :=
    lt_min coal (Nat.sub_pos_of_lt (Nat.mod_lt _ (Nat.pos_of_ne_zero queue)))
  obtain ⟨k, hk⟩ := Nat.exists_eq_succ_of_ne_zero room.ne'
  simp [NodeQ.ripe, hk, List.range_succ_eq_map, passed]

theorem execCoalesceTimeout_eq {x h time : Nat} (node : s.queueNode a n = .ok (x, h)) (sound : (NodeD.ofNat x).bad = false)
    (queue : (NodeD.ofNat x).qcap ≠ 0)
    (seen : (s.nodeQ a n).seen.find? (fun p => p.1 == (s.nodeQ a n).first) = some ((s.nodeQ a n).first, time))
    (late : time + (NodeD.ofNat x).tmo ≤ s.clk.time) (passed : (s.nodeQ a n).first ∈ (s.nodeQ a n).passed)
    (coal : 1 ≤ (NodeD.ofNat x).coal) :
    execCoalesceTimeout a n s = .next (s.formGroup a n x h ((s.nodeQ a n).ripe (NodeD.ofNat x)) 0) := by
  unfold execCoalesceTimeout
  simp only [node, seen]
  exact onlyIf_eq_next "COALESCE_TIMEOUT" _ (by simp [sound, queue, late, ripe_pos queue coal passed])

end

/-! ## Instances that wait for their predecessors (R286, R294) -/

section
variable {s : State} {i : Nat} {x : Inst}

/-- Of the undispatched instances of its node it is the first. -/
def State.FirstOfNode (s : State) (i : Nat) (x : Inst) : Prop :=
  ∀ p ∈ s.undispatched x.asd x.node,
    p.1 = i ∨ (p.2.state = 3 ∧ x.num ≤ p.2.num) ∨ (p.2.launched = true ∧ p.2.state = 0)

theorem firstOfNode_iff : s.FirstOfNode i x ↔ (s.undispatched x.asd x.node).all (fun p =>
    p.1 == i || (p.2.state == 3 && x.num ≤ p.2.num) || (p.2.launched && p.2.state == 0)) = true := by
  simp [State.FirstOfNode, or_assoc]

/-- The step with an instance whose predecessors have not been seen to flip. -/
def State.atPending (s : State) (i : Nat) (x : Inst) : Out :=
  let first := (s.undispatched x.asd x.node).all (fun p =>
    p.1 == i || (p.2.state == 3 && x.num ≤ p.2.num) || (p.2.launched && p.2.state == 0))
  match s.preds x with
  | .ok (_, true) => onlyIf "DISPATCH" first (s.updInst i (fun y => { y with err := 6 }))
  | .ok (true, false) => onlyIf "DISPATCH" first (s.updInst i (fun y => { y with state := 0, since := s.clk.time }))
  | .ok _ => no "DISPATCH"
  | .error e => s.meets "DISPATCH" x.io e

theorem execDispatch_pending (held : s.inst i = some x) (sound : x.err = 0) (pending : x.state = 3) :
    execDispatch i s = s.atPending i x := by
  unfold execDispatch State.atPending
  simp only [held]
  exact (if_neg (by simp [sound])).trans ((if_pos pending).trans rfl)

theorem atPending_fault {c va : Nat} (bars : s.preds x = .error (.fault c va)) (once : s.Unmet x.io va) :
    s.atPending i x = .next (s.met x.io c va) := by
  simp only [State.atPending, bars]
  exact meets_fault _ once

theorem atPending_overrun {b : Bool} (first : s.FirstOfNode i x) (bars : s.preds x = .ok (b, true)) :
    s.atPending i x = .next (s.updInst i (fun y => { y with err := 6 })) := by
  simp only [State.atPending, bars]
  exact onlyIf_eq_next "DISPATCH" _ (firstOfNode_iff.mp first)

theorem atPending_flipped (first : s.FirstOfNode i x) (bars : s.preds x = .ok (true, false)) :
    s.atPending i x = .next (s.updInst i (fun y => { y with state := 0, since := s.clk.time })) := by
  simp only [State.atPending, bars]
  exact onlyIf_eq_next "DISPATCH" _ (firstOfNode_iff.mp first)

end

/-! ## Instances that are taken (R286, R290, R291) -/

section
variable {s : State} {i : Nat} {x : Inst}

theorem startsNow_iff : startsNow s x ↔ s.startable x = true := by
  simp [startsNow, State.startable, or_assoc, and_assoc]

/-- It may start, and no other ready instance and no saved context goes before it. -/
structure State.Foremost (s : State) (i : Nat) (x : Inst) : Prop where
  starts : startsNow s x
  rivals : ∀ p ∈ s.insts, p.1 ≠ i → p.2.state = 0 → p.2.err = 0 → p.2.ahead x = true → ¬startsNow s p.2
  saved  : ∀ p ∈ s.insts, p.2.state = 1 → p.2.stop = true → s.savedCandidate p.1 = true → s.before p.2 x = true →
    p.2.h.dies &&& x.h.dies = 0

/-- The instance is taken, if it is its turn. -/
def State.takeReady (s : State) (i : Nat) (x : Inst) : Out :=
  onlyIf "DISPATCH" (s.startable x &&
    !s.insts.any (fun p => p.1 != i && p.2.state == 0 && p.2.err == 0 && p.2.ahead x && s.startable p.2) &&
    !s.insts.any (fun p => p.2.state == 1 && p.2.stop && s.savedCandidate p.1 && s.before p.2 x &&
      (p.2.h.dies &&& x.h.dies) != 0)) (s.begin' i x)

theorem takeReady_next (h : s.Foremost i x) : s.takeReady i x = .next (s.begin' i x) := by
  refine onlyIf_eq_next "DISPATCH" _ ?_
  simp only [Bool.and_eq_true, Bool.not_eq_true', List.any_eq_false, beq_iff_eq, bne_iff_ne, ne_eq]
  refine ⟨⟨startsNow_iff.mp h.starts, fun p hp => ?_⟩, fun p hp => ?_⟩
  · rintro ⟨⟨⟨⟨other, ready⟩, fine⟩, ahead⟩, starts⟩
    exact h.rivals p hp other ready fine ahead (startsNow_iff.mpr starts)
  · rintro ⟨⟨⟨⟨runs, stop⟩, candidate⟩, before⟩, meet⟩
    exact meet (h.saved p hp runs stop candidate before)

/-- The step with a ready instance: its header is read afresh, then the predecessors of one that has some to wait for. -/
def State.atReady (s : State) (i : Nat) (x : Inst) : Out :=
  match s.freshHdr x with
  | .error e => s.meets "DISPATCH" x.asd e
  | .ok h =>
    if h ≠ x.hdr then .next (s.updInst i (fun y => y.rehead h))
    else if x.launched || x.d.preds.isEmpty then s.takeReady i x
    else match s.preds x with
      | .ok (_, true) => .next (s.updInst i (fun y => { y with err := 6 }))
      | .error (.fault c va) => s.meets "DISPATCH" x.io (.fault c va)
      | _ => s.takeReady i x

theorem execDispatch_ready (held : s.inst i = some x) (sound : x.err = 0) (ready : x.state = 0) :
    execDispatch i s = s.atReady i x := by
  unfold execDispatch State.atReady State.takeReady
  simp only [held]
  refine (if_neg (by simp [sound])).trans ((if_neg (by simp [ready])).trans ((if_pos ready).trans ?_))
  rfl

theorem atReady_unread {c va : Nat} (fresh : s.freshHdr x = .error (.fault c va)) (once : s.Unmet x.asd va) :
    s.atReady i x = .next (s.met x.asd c va) := by
  unfold State.atReady
  rw [fresh]
  exact meets_fault _ once

theorem atReady_replaced {h : Nat} (fresh : s.freshHdr x = .ok h) (other : h ≠ x.hdr) :
    s.atReady i x = .next (s.updInst i (fun y => y.rehead h)) := by
  unfold State.atReady
  rw [fresh]
  exact if_pos other

/-- It has no predecessors to wait for. -/
def Inst.Alone (x : Inst) : Prop := x.launched = true ∨ x.d.preds = []

theorem alone_iff : x.Alone ↔ (x.launched || x.d.preds.isEmpty) = true := by
  simp [Inst.Alone]

section
variable (fresh : s.freshHdr x = .ok x.hdr)
include fresh

theorem atReady_alone (alone : x.Alone) : s.atReady i x = s.takeReady i x := by
  unfold State.atReady
  rw [fresh]
  exact (if_neg (by simp)).trans (if_pos (alone_iff.mp alone))

variable (waits : ¬x.Alone)
include waits

theorem atReady_overrun {b : Bool} (bars : s.preds x = .ok (b, true)) :
    s.atReady i x = .next (s.updInst i (fun y => { y with err := 6 })) := by
  unfold State.atReady
  rw [fresh, bars]
  exact (if_neg (by simp)).trans (if_neg (alone_iff.not.mp waits))

theorem atReady_fault {c va : Nat} (bars : s.preds x = .error (.fault c va)) (once : s.Unmet x.io va) :
    s.atReady i x = .next (s.met x.io c va) := by
  unfold State.atReady
  rw [fresh, bars]
  exact (if_neg (by simp)).trans ((if_neg (alone_iff.not.mp waits)).trans (meets_fault _ once))

theorem atReady_flipped (fine : ∀ b, s.preds x ≠ .ok (b, true)) (read : ∀ c va, s.preds x ≠ .error (.fault c va)) :
    s.atReady i x = s.takeReady i x := by
  unfold State.atReady
  rw [fresh]
  refine (if_neg (by simp)).trans ((if_neg (alone_iff.not.mp waits)).trans ?_)
  split
  · next b bars => exact absurd bars (fine b)
  · next c va bars => exact absurd bars (read c va)
  · rfl

end

/-! ## Teams that are sent, admitted and retired (R66, R286, R291, R346) -/

/-- The step with a running instance: its next team is sent, first those that it has taken back. -/
def State.sendNext (s : State) (i : Nat) (x : Inst) : Out :=
  match x.back, x.left with
  | t :: r, _ => .next ((s.sendTeam i x t).updInst i (fun y => { y with back := r }))
  | [], some t =>
    if x.kind = 1 then no "DISPATCH"
    else .next ((s.sendTeam i x t).updInst i (fun y => { y with left := y.h.nextTeam (t + 1) }))
  | [], none => no "DISPATCH"

theorem execDispatch_runs (held : s.inst i = some x) (sound : x.err = 0) (runs : x.state = 1) (goes : x.stop = false) :
    execDispatch i s = s.sendNext i x := by
  unfold execDispatch State.sendNext
  simp only [held]
  refine (if_neg (by simp [sound])).trans ((if_neg (by simp [runs])).trans ((if_neg (by simp [runs])).trans
    ((if_neg (by simp [goes])).trans rfl)))

theorem sendNext_back {t : Nat} {r : List Nat} (back : x.back = t :: r) :
    s.sendNext i x = .next ((s.sendTeam i x t).updInst i (fun y => { y with back := r })) := by
  simp only [State.sendNext, back]

theorem sendNext_left {t : Nat} (back : x.back = []) (left : x.left = some t) (teams : x.kind ≠ 1) :
    s.sendNext i x = .next ((s.sendTeam i x t).updInst i (fun y => { y with left := y.h.nextTeam (t + 1) })) := by
  simp only [State.sendNext, back, left]
  exact if_neg teams

end

theorem hasRoom_iff {s : State} {c i t : Nat} {h : Hdr} : HasRoom s c i h t ↔ s.canAdmit c i h t = true := by
  unfold HasRoom State.canAdmit State.roomOn
  cases needed : h.opst
  · simp [and_assoc]
  · cases owner : (s.core c).osten <;> simp [and_assoc]

section
variable {s : State} {c i t : Nat} {r : List (Nat × Nat)} (queue : (s.core c).queue = (i, t) :: r)
include queue

theorem execAdmitTeam_gone (gone : s.inst i = none) :
    execAdmitTeam c s = .next (s.updCore c (fun k => { k with queue := r })) := by
  unfold execAdmitTeam
  simp only [queue, gone]

theorem execAdmitTeam_room {x : Inst} (held : s.inst i = some x) (room : HasRoom s c i x.h t)
    (first : ∀ p ∈ s.insts, s.savedFirst i c x p = false) :
    execAdmitTeam c s = .next (((s.updCore c (fun k => { k with queue := r })).place c i x t).trimL1 c) := by
  have none_first : s.insts.any (s.savedFirst i c x) = false := List.any_eq_false.mpr fun p hp => by simp [first p hp]
  unfold execAdmitTeam
  simp only [queue, held]
  exact onlyIf_eq_next "ADMIT_TEAM" _ (by simp [hasRoom_iff.mp room, none_first])

end

section
variable {s : State} {t : Nat} {x : Team} (held : s.teams.find t = some x)
include held

/-- The first warp of the team that has retired and still holds its pin lets it go. -/
theorem execTeamRetire_warp {pre post : List (Nat × Warp)} {p : Nat × Warp} (warps : s.warps = pre ++ p :: post)
    (team : p.2.team = t) (retired : p.2.retired = true) (pinned : p.2.gone = false)
    (first : ∀ q ∈ pre, q.2.team = t → q.2.retired = false ∨ q.2.gone = true) :
    execTeamRetire t s =
      .next (((s.unpin p.2.root).updWarp p.1 (fun w => { w with gone := true })).leftCore p.2.inst) := by
  have leaving : s.leaving t = some p := by
    unfold State.leaving
    rw [warps, List.find?_append, List.find?_eq_none.mpr]
    · simp [team, retired, pinned]
    · intro q hq
      by_cases mine : q.2.team = t
      · rcases first q hq mine with h | h <;> simp [h]
      · simp [mine]
  unfold execTeamRetire
  simp only [held, leaving]

/-- The team's warps. -/
def State.warpsOfTeam (s : State) (t : Nat) : List (Nat × Warp) := s.warps.filter (fun p => p.2.team == t)

/-- The team is gone with its warps, whose failed lanes its instance notes. -/
def State.teamGone (s : State) (t : Nat) (x : Team) : State :=
  let ws := s.warpsOfTeam t
  let fs := (ws.filter (fun p => p.2.current.sfmask != 0)).map (fun p => (x.index, p.2.num, p.2.current.sfmask))
  let u := s.updInst x.inst (fun y => { y with faults := y.faults ++ fs })
  (State.freeStore { u with warps := u.warps.filter (fun p => !ws.any (fun q => q.1 == p.1)), teams := u.teams.erase t }
    x.core).settleStops

theorem execTeamRetire_team (gone : ∀ p ∈ s.warpsOfTeam t, p.2.gone = true)
    (idle : ∀ p ∈ s.warpsOfTeam t, (∀ o ∈ s.ops, o.warp ≠ p.1) ∧ ∀ r ∈ s.reqs, r.warp ≠ p.1) :
    execTeamRetire t s = .next (s.teamGone t x) := by
  have leaving : s.leaving t = none := by
    refine List.find?_eq_none.mpr fun p hp leaves => ?_
    simp only [Bool.and_eq_true, beq_iff_eq, Bool.not_eq_true'] at leaves
    obtain ⟨⟨team, -⟩, pinned⟩ := leaves
    simp [gone p (List.mem_filter.mpr ⟨hp, by simp [team]⟩)] at pinned
  have all_gone : (s.warpsOfTeam t).all (fun p => p.2.gone) = true := List.all_eq_true.mpr gone
  have not_mine (u : Nat) (h : ∀ p ∈ s.warpsOfTeam t, u ≠ p.1) : ¬(s.warpsOfTeam t).any (fun p => p.1 == u) = true := by
    intro found
    obtain ⟨p, hp, same⟩ := List.any_eq_true.mp found
    exact h p hp (beq_iff_eq.mp same).symm
  have no_op : s.ops.any (fun o => (s.warpsOfTeam t).any (fun p => p.1 == o.warp)) = false :=
    List.any_eq_false.mpr fun o ho => not_mine o.warp fun p hp => (idle p hp).1 o ho
  have no_req : s.reqs.any (fun r => (s.warpsOfTeam t).any (fun p => p.1 == r.warp)) = false :=
    List.any_eq_false.mpr fun r hr => not_mine r.warp fun p hp => (idle p hp).2 r hr
  unfold State.warpsOfTeam at all_gone no_op no_req
  unfold execTeamRetire
  simp only [held, leaving]
  exact if_neg (by simp only [all_gone, no_op, no_req]; decide)

end

/-! ## Completion (R293, R294, R303) -/

/-- An access of a completion: it is left out where it has been answered with a code, or its fault has been (log 90). -/
def State.goesOn (s : State) (o : EngOp) (skip : State) (r : Except Stop (Option State)) : Out :=
  if o.cancel then .next skip
  else match r with
    | .ok (some t) => .next t
    | .ok none => no "INSTANCE_COMPLETE"
    | .error (.code _) => .next skip
    | .error e => s.stopped "INSTANCE_COMPLETE" o e

section
variable {s skip : State} {o : EngOp} {r : Except Stop (Option State)}

theorem goesOn_cancelled (cancel : o.cancel = true) : s.goesOn o skip r = .next skip := if_pos cancel

section
variable (cancel : o.cancel = false)
include cancel

theorem goesOn_done {t : State} (h : r = .ok (some t)) : s.goesOn o skip r = .next t := by
  simp [State.goesOn, cancel, h]

theorem goesOn_code {c : Nat} (h : r = .error (.code c)) : s.goesOn o skip r = .next skip := by
  simp [State.goesOn, cancel, h]

theorem goesOn_fault {c va : Nat} (h : r = .error (.fault c va)) :
    s.goesOn o skip r = .next (s.stopOp o.id (.fault c va)) := by
  simp only [State.goesOn, cancel, h]
  exact (if_neg (by simp)).trans (stopped_eq_next _ (by simp))

end

/-- The completion's next stage. -/
def State.staged (t : State) (o : EngOp) (k : Nat) : State := t.updOp o.id (fun e => { e with stage := k, cancel := false })

variable {i : Nat} {x : Inst}

theorem complete_record (stage : o.stage = 0) : s.complete i o x = s.goesOn o (s.staged o 1)
    (if x.d.crcap = 0 then .error (.code 2)
      else (s.asdWrite o x.io x.recordAt (s.record x)).map (fun t => some (t.staged o 1))) := by
  unfold State.complete State.goesOn
  simp only [stage]
  by_cases none_kept : x.d.crcap = 0
  · simp only [none_kept, if_true]
    rfl
  · simp only [none_kept, if_false]
    cases s.asdWrite o x.io x.recordAt (s.record x) <;> rfl

theorem complete_taken (stage : o.stage = 1) : s.complete i o x = s.goesOn o ((s.noteTaken x).staged o 2)
    ((s.advanceTaken o x).map (fun t => t.map (fun t => (t.noteTaken x).staged o 2))) := by
  unfold State.complete State.goesOn
  simp only [stage]
  rcases s.advanceTaken o x with e | (_ | t) <;> rfl

theorem complete_arrive (stage : 2 ≤ o.stage) (bar : o.bar = none) (done : settled s o) (adds : o.adds = []) :
    s.complete i o x = s.goesOn o (s.completed i o) ((s.cbarAt x).map (fun ta => some (match ta with
      | some ta => s.updOp o.id (fun e => { e with bar := some ta })
      | none => s.completed i o))) := by
  obtain ⟨k, stage⟩ := Nat.exists_eq_add_of_le' stage
  unfold State.complete State.goesOn
  simp only [stage, bar, tokenReady_of_settled done adds]
  rcases s.cbarAt x with e | (_ | ta) <;> rfl

/-- The instance's arrival on CBAR, at the object's home. -/
theorem complete_home {ta : Nat} (stage : 2 ≤ o.stage) (bar : o.bar = some ta) :
    s.complete i o x = s.atHome "INSTANCE_COMPLETE" o ta (fun u =>
      (u.barChange 0 ta (fun b => if x.err = 0 then b.arrive 1 else b.setOver)).completed i o) := by
  obtain ⟨k, stage⟩ := Nat.exists_eq_add_of_le' stage
  unfold State.complete
  simp only [stage, bar]

end

/-- The instance is over: refused or failed before it started, or with every team sent and gone. -/
def State.Ended (s : State) (i : Nat) (x : Inst) : Prop :=
  (x.state ≠ 1 ∧ x.err ≠ 0) ∨ (x.state = 1 ∧ s.allSent i x = true ∧ s.warpsOf i = [] ∧ ∀ o ∈ s.ops, o.inst ≠ i)

theorem ended_iff {s : State} {i : Nat} {x : Inst} : s.Ended i x ↔ ((x.state ≠ 1 ∧ x.err ≠ 0) ∨
    ((x.state == 1 && s.allSent i x) && (s.warpsOf i).isEmpty && !s.ops.any (fun o => o.inst == i)) = true) := by
  simp [State.Ended, and_assoc]

theorem unbegun_find {s : State} {i : Nat} (unbegun : ∀ o ∈ s.ops, o.cls = 0xE → o.func = 1 → o.inst ≠ i) :
    s.ops.find? (fun o => o.cls == 0xE && o.func == 1 && o.inst == i) = none := by
  simpa using unbegun

section
variable {s : State} {i : Nat} {x : Inst} (held : s.inst i = some x)
include held

theorem execInstanceComplete_runs {pre post : List EngOp} {o : EngOp} (ops : s.ops = pre ++ o :: post)
    (cls : o.cls = 0xE) (func : o.func = 1) (mine : o.inst = i)
    (first : ∀ e ∈ pre, e.cls = 0xE → e.func = 1 → e.inst ≠ i) (free : o.susc = 0) :
    execInstanceComplete i s = s.complete i o x := by
  have found : s.ops.find? (fun o => o.cls == 0xE && o.func == 1 && o.inst == i) = some o := by
    rw [ops, List.find?_append, List.find?_eq_none.mpr]
    · simp [cls, func, mine]
    · simpa using first
  unfold execInstanceComplete
  simp only [held, found]
  exact if_neg (by simp [free])

variable (unbegun : ∀ o ∈ s.ops, o.cls = 0xE → o.func = 1 → o.inst ≠ i)
include unbegun

theorem execInstanceComplete_ended (ended : s.Ended i x) : execInstanceComplete i s = .next (s.beginComplete i x false) := by
  unfold execInstanceComplete
  simp only [held, unbegun_find unbegun]
  exact if_pos (ended_iff.mp ended)

/-- It arrives on CBAR ahead of its end, once each of its warps has marked it or retired (R303). -/
theorem execInstanceComplete_early (goes : ¬s.Ended i x) (runs : x.state = 1) (sent : s.allSent i x = true)
    (marks : x.marks = true) (unarrived : x.arrived = false) (sound : x.err = 0)
    (done : ∀ p ∈ s.warpsOf i, p.2.ndone = true ∨ p.2.retired = true) :
    execInstanceComplete i s = .next (s.beginComplete i x true) := by
  have marked : (s.warpsOf i).all (fun p => p.2.ndone || p.2.retired) = true := by simpa using done
  unfold execInstanceComplete
  simp only [held, unbegun_find unbegun]
  exact (if_neg (ended_iff.not.mp goes)).trans
    (onlyIf_eq_next "INSTANCE_COMPLETE" _ (by simp only [runs, sent, marks, unarrived, sound, marked]; rfl))

end

/-! ## The statement -/

/-- Settles O34: each row's equation above at the conditions that the statement names. That the dispatcher waits on a queue's
tail by an entry of the wait table (log 134), that a completion leaves out an access answered with a code or without a slot
(logs 90, 93), and the form in which a fault waits (log 90), are the model's choices. -/
theorem dispatcherEventsComplete : Obligations.DispatcherEventsComplete := by
  unfold Obligations.DispatcherEventsComplete
  refine ⟨fun a n r c va s node once => ⟨execRecordRefetch_unread node once r, execGroupForm_unread node once,
      execCoalesceTimeout_unread node once⟩, fun a n r x h s node => ?queue, fun i x s held sound => ?dispatch,
    fun c i t r s queue => ⟨execAdmitTeam_gone queue, fun x => execAdmitTeam_room queue⟩,
    fun t x s held => ⟨fun pre p post => execTeamRetire_warp held, execTeamRetire_team held⟩, fun i x s held => ?complete⟩
  case queue =>
    intro d io q p k t late i mark opens
    refine ⟨fun sound ring untaken inside unread due written => ?record, execGroupForm_full node, execGroupForm_bad node,
      fun b ⟨queue, preds, idle⟩ bars said => ?_, fun ⟨queue, preds, idle⟩ bars => ?_,
      fun ⟨queue, preds, idle⟩ bars said => ?_, fun c va ⟨queue, preds, idle⟩ bars once => ?_,
      fun time sound ring seen late passed coal => execCoalesceTimeout_eq node sound ring seen late passed coal⟩
    case record =>
      have reads (below : r ≤ d.tail) := execRecordRefetch_eq node ⟨sound, ring, untaken, inside, unread, due, written⟩ below
      refine ⟨fun below b word => (reads below.le).trans ?_, fun below c va word once => (reads below.le).trans ?_,
        fun tail entry => (reads tail.le).trans ((if_pos tail).trans (onlyIf_eq_next "RECORD_REFETCH" _ entry))⟩
      · refine (if_neg below.ne).trans ?_
        rw [word]
        rfl
      · refine (if_neg below.ne).trans ?_
        rw [word]
        exact meets_fault _ once
    · exact (execGroupForm_direct node queue).trans (formDirect_overrun preds idle bars said)
    · exact (execGroupForm_direct node queue).trans (formDirect_flipped preds idle bars)
    · exact (execGroupForm_direct node queue).trans (formDirect_cleared preds idle bars said)
    · exact (execGroupForm_direct node queue).trans (formDirect_fault preds idle bars once)
  case dispatch =>
    intro ends mine fresh alone t
    have waits (h : x.state = 3) := execDispatch_pending held sound h
    have ready (h : x.state = 0) := execDispatch_ready held sound h
    have runs (h : x.state = 1) (goes : x.stop = false) := execDispatch_runs held sound h goes
    refine ⟨fun b pending first bars => (waits pending).trans (atPending_overrun first bars),
      fun pending first bars => (waits pending).trans (atPending_flipped first bars),
      fun c va which bars once => ?fault, fun c va idle unread once => (ready idle).trans (atReady_unread unread once),
      fun h idle read other => (ready idle).trans (atReady_replaced read other),
      fun b idle read preceded bars => (ready idle).trans (atReady_overrun read preceded bars),
      fun idle read preds starts rivals saved => (ready idle).trans ?taken,
      fun t state goes back left teams => (runs state goes).trans (sendNext_left back left teams),
      fun t r state goes back => (runs state goes).trans (sendNext_back back)⟩
    case fault =>
      rcases which with pending | ⟨idle, read, preceded⟩
      · exact (waits pending).trans (atPending_fault bars once)
      · exact (ready idle).trans (atReady_fault read preceded bars once)
    case taken =>
      have take : s.atReady i x = s.takeReady i x := by
        by_cases only : x.Alone
        · exact atReady_alone read only
        · obtain ⟨fine, known⟩ := preds.resolve_left only
          exact atReady_flipped read only fine known
      exact take.trans (takeReady_next ⟨starts, rivals, saved⟩)
  case complete =>
    intro ended begins
    refine ⟨fun unbegun => ⟨execInstanceComplete_ended held unbegun,
      fun goes runs sent marks unarrived fine => execInstanceComplete_early held unbegun goes runs sent marks unarrived fine⟩,
      fun pre o post ops cls func mine first free => ?_⟩
    have runs := execInstanceComplete_runs held ops cls func mine first free
    intro goes on last
    refine ⟨fun stage => ?record, fun stage => ?taken, fun stage bar done adds => ?arrive, fun ta stage bar => ?home⟩
    case record =>
      have step := runs.trans (complete_record stage)
      refine ⟨fun skip => step.trans ?_, fun kept cancel => ⟨fun t h => step.trans (goesOn_done cancel ?_),
        fun c h => step.trans (goesOn_code (c := c) cancel ?_), fun c va h => step.trans (goesOn_fault cancel ?_)⟩⟩
      · rcases Bool.eq_false_or_eq_true o.cancel with cancel | cancel
        · exact goesOn_cancelled cancel
        · exact goesOn_code cancel (if_pos (skip.resolve_right (by simp [cancel])))
      all_goals
        rw [if_neg kept, h]
        rfl
    case taken =>
      have step := runs.trans (complete_taken stage)
      exact ⟨fun cancel => step.trans (goesOn_cancelled cancel), fun cancel =>
        ⟨fun t h => step.trans (goesOn_done cancel (by rw [h]; rfl)),
          fun c h => step.trans (goesOn_code (c := c) cancel (by rw [h]; rfl)),
          fun c va h => step.trans (goesOn_fault cancel (by rw [h]; rfl))⟩⟩
    case arrive =>
      have step := runs.trans (complete_arrive stage bar done adds)
      refine ⟨fun cancel => step.trans (goesOn_cancelled cancel), fun cancel =>
        ⟨fun ta h => step.trans (goesOn_done cancel (by rw [h]; rfl)), ?_,
          fun c va h => step.trans (goesOn_fault cancel (by rw [h]; rfl))⟩⟩
      rintro (h | ⟨c, h⟩)
      · exact step.trans (goesOn_done cancel (by rw [h]; rfl))
      · exact step.trans (goesOn_code (c := c) cancel (by rw [h]; rfl))
    case home =>
      have step := runs.trans (complete_home stage bar)
      exact ⟨fun joins => step.trans (atHome_joins joins), fun u at_home => step.trans (atHome_runs at_home)⟩

end Sys2Proof.Machine
end

section
/-! PROOF. Rounding (R221 to R224): what a bit pattern reads as, how a magnitude goes onto a grid, and `round_to` as a value
that is exact, below or above. -/

namespace Sys2Proof.Machine

/-! ## Finite values as rationals -/

theorem two_zpow_shift {e g : Int} (h : g ≤ e) : (2 : ℚ) ^ e = 2 ^ (e - g).toNat * 2 ^ g := by
  rw [← zpow_natCast, Int.toNat_of_nonneg (by omega), ← zpow_add₀ two_ne_zero, sub_add_cancel]

theorem two_pow_mul_zpow (k : Nat) (g : Int) : ((2 ^ k : Nat) : ℚ) * 2 ^ g = 2 ^ (g + k) := by
  rw [Nat.cast_pow, Nat.cast_ofNat, ← zpow_natCast, ← zpow_add₀ two_ne_zero, add_comm]

/-- The rational number ±m × 2^e. -/
def scaled (neg : Bool) (m : Nat) (e : Int) : ℚ := if neg then -(m * 2 ^ e) else m * 2 ^ e

theorem numer_scaled (neg : Bool) (m : Nat) {e g : Int} (h : g ≤ e) :
    (numer neg m e g : ℚ) * 2 ^ g = scaled neg m e := by
  cases neg <;> simp [numer, scaled, two_zpow_shift h, mul_assoc]

/-- Finite values compare as the rationals that they are. -/
theorem cmpFVal_fin (a b : Bool) (m n : Nat) (e d : Int) (c c' : Bool) :
    cmpFVal (.fin a m e c) (.fin b n d c') =
      if scaled a m e < scaled b n d then -1 else if scaled a m e = scaled b n d then 0 else 1 := by
  have unit : (0 : ℚ) < 2 ^ min e d := by positivity
  rw [← numer_scaled a m (min_le_left e d), ← numer_scaled b n (min_le_right e d)]
  simp only [cmpFVal, mul_lt_mul_iff_left₀ unit, mul_left_inj' unit.ne', Int.cast_lt, Int.cast_inj]

theorem cmpFVal_nonpos {a b : Bool} {m n : Nat} {e d : Int} {c c' : Bool} (h : scaled a m e ≤ scaled b n d) :
    cmpFVal (.fin a m e c) (.fin b n d c') ≤ 0 := by
  rw [cmpFVal_fin]
  split
  · decide
  · next above => rw [if_pos (le_antisymm h (not_lt.mp above))]

theorem cmpFVal_nonneg {a b : Bool} {m n : Nat} {e d : Int} {c c' : Bool} (h : scaled b n d ≤ scaled a m e) :
    0 ≤ cmpFVal (.fin a m e c) (.fin b n d c') := by
  rw [cmpFVal_fin, if_neg (not_lt.mpr h)]
  split <;> decide

/-! ## A magnitude on a grid -/

theorem bitLen_eq_size (m : Nat) : bitLen m = m.size := by
  unfold bitLen
  split
  · next zero => rw [zero, Nat.size_zero]
  · next nonzero =>
    exact le_antisymm (Nat.lt_size.mpr (Nat.log2_self_le nonzero)) (Nat.size_le.mpr Nat.lt_log2_self)

theorem bitLen_shift {m : Nat} (h : m ≠ 0) (k : Nat) : bitLen (m * 2 ^ k) = bitLen m + k := by
  rw [bitLen_eq_size, bitLen_eq_size, ← Nat.shiftLeft_eq, Nat.size_shiftLeft h]

/-- The leading bit of a magnitude. -/
theorem bitLen_lead {m : Nat} (h : m ≠ 0) : 2 ^ (bitLen m - 1) ≤ m ∧ m < 2 ^ bitLen m := by
  rw [bitLen_eq_size]
  exact ⟨Nat.lt_size.mp (by have := Nat.size_pos.mpr (Nat.pos_of_ne_zero h); omega), Nat.lt_size_self m⟩

theorem dropShift_fst (m sh : Nat) (cut : Bool) : (dropShift m sh cut).1 = m / 2 ^ sh := by
  unfold dropShift
  split
  · next zero => simp [zero]
  · split
    · next above =>
      rw [bitLen_eq_size] at above
      exact (Nat.div_eq_of_lt (Nat.size_le.mp (by omega))).symm
    · rfl

theorem dropShift_snd_eq_zero (m sh : Nat) : (dropShift m sh false).2 = 0 ↔ m % 2 ^ sh = 0 := by
  unfold dropShift
  split
  · next zero => simp [zero, Nat.mod_one]
  · split
    · next above =>
      rw [bitLen_eq_size] at above
      rw [Nat.mod_eq_of_lt (Nat.size_le.mp (by omega : m.size ≤ sh))]
      simp
    · have half : 0 < 2 ^ (sh - 1) := by positivity
      simp only
      split
      · simp
      · split <;> simp <;> omega

@[simp] theorem roundUp_exact (rm : Rnd) (neg odd : Bool) : roundUp rm neg odd 0 = false := by
  cases rm <;> simp [roundUp]

/-- The magnitude `v` rounded to a multiple of 2^g: a multiple stays, and one between two multiples becomes the lower or,
where the mode takes the part lost up, the upper. -/
def OnGrid (rm : Rnd) (neg : Bool) (v : ℚ) (g : Int) (n : Nat × Bool) : Prop :=
  ∃ q : Nat, (v = q * 2 ^ g ∧ n = (q, true)) ∨
    (q * 2 ^ g < v ∧ v < (q + 1) * 2 ^ g ∧
      ∃ odd pos, pos ≠ 0 ∧ n = (if roundUp rm neg odd pos then q + 1 else q, false))

theorem roundGrid_onGrid (rm : Rnd) (neg : Bool) (m : Nat) (e g : Int) :
    OnGrid rm neg (m * 2 ^ e) g (roundGrid rm neg m e false g) := by
  by_cases fine : g ≤ e
  · exact ⟨m * 2 ^ (e - g).toNat, .inl ⟨by rw [two_zpow_shift fine]; push_cast; ring, by simp [roundGrid, fine]⟩⟩
  · have shift := two_zpow_shift (le_of_not_ge fine)
    generalize hs : (g - e).toNat = sh at shift
    have parts : (m : ℚ) = 2 ^ sh * (m / 2 ^ sh : Nat) + (m % 2 ^ sh : Nat) := by
      exact_mod_cast (Nat.div_add_mod m (2 ^ sh)).symm
    have grid : roundGrid rm neg m e false g =
        (if roundUp rm neg (m / 2 ^ sh % 2 == 1) (dropShift m sh false).2 then m / 2 ^ sh + 1 else m / 2 ^ sh,
          (dropShift m sh false).2 == 0) := by
      rw [roundGrid, if_neg fine, hs]
      simp only [dropShift_fst]
    have unit : (0 : ℚ) < 2 ^ e := by positivity
    refine ⟨m / 2 ^ sh, ?_⟩
    by_cases exact : m % 2 ^ sh = 0
    · left
      refine ⟨by rw [shift, parts, exact]; push_cast; ring, ?_⟩
      rw [grid, (dropShift_snd_eq_zero m sh).mpr exact, roundUp_exact]
      rfl
    · right
      have lost : (dropShift m sh false).2 ≠ 0 := mt (dropShift_snd_eq_zero m sh).mp exact
      have low : (0 : ℚ) < (m % 2 ^ sh : Nat) := by exact_mod_cast Nat.pos_of_ne_zero exact
      have high : ((m % 2 ^ sh : Nat) : ℚ) < 2 ^ sh := by exact_mod_cast Nat.mod_lt m (by positivity)
      refine ⟨?_, ?_, _, _, lost, by rw [grid, beq_eq_false_iff_ne.mpr lost]⟩
      · rw [shift, ← mul_assoc, mul_lt_mul_iff_left₀ unit]; linarith
      · rw [shift, ← mul_assoc, mul_lt_mul_iff_left₀ unit]; linarith

namespace OnGrid

section
variable {rm : Rnd} {neg : Bool} {v : ℚ} {g : Int} {n : Nat × Bool} (h : OnGrid rm neg v g n)
include h

/-- Multiples of the grid that bound a magnitude bound what it is rounded to. -/
theorem ge_of_ge {lo : Nat} (low : lo * 2 ^ g ≤ v) : lo ≤ n.1 := by
  have unit : (0 : ℚ) < 2 ^ g := by positivity
  obtain ⟨q, ⟨rfl, rfl⟩ | ⟨-, below, odd, pos, -, rfl⟩⟩ := h
  · exact_mod_cast le_of_mul_le_mul_right low unit
  · have : lo < q + 1 := by exact_mod_cast lt_of_mul_lt_mul_right (low.trans_lt below) unit.le
    dsimp only
    split <;> omega

theorem le_of_le {hi : Nat} (high : v ≤ hi * 2 ^ g) : n.1 ≤ hi := by
  have unit : (0 : ℚ) < 2 ^ g := by positivity
  obtain ⟨q, ⟨rfl, rfl⟩ | ⟨above, -, odd, pos, -, rfl⟩⟩ := h
  · exact_mod_cast le_of_mul_le_mul_right high unit
  · have : q < hi := by exact_mod_cast lt_of_mul_lt_mul_right (above.trans_le high) unit.le
    dsimp only
    split <;> omega

theorem eq_of_multiple {k : Nat} (exact : v = k * 2 ^ g) : n = (k, true) := by
  have unit : (0 : ℚ) < 2 ^ g := by positivity
  obtain ⟨q, ⟨same, rfl⟩ | ⟨above, below, -⟩⟩ := h
  · rw [exact] at same
    rw [Nat.cast_injective (mul_right_cancel₀ unit.ne' same)]
  · rw [exact] at above below
    have : q < k := by exact_mod_cast lt_of_mul_lt_mul_right above unit.le
    have : k < q + 1 := by exact_mod_cast lt_of_mul_lt_mul_right below unit.le
    omega

theorem le_of_down (down : ∀ odd pos, roundUp rm neg odd pos = false) : n.1 * 2 ^ g ≤ v := by
  obtain ⟨q, ⟨rfl, rfl⟩ | ⟨above, -, odd, pos, -, rfl⟩⟩ := h
  · rfl
  · rw [down]; exact above.le

theorem ge_of_up (up : ∀ odd pos, pos ≠ 0 → roundUp rm neg odd pos = true) : v ≤ n.1 * 2 ^ g := by
  obtain ⟨q, ⟨rfl, rfl⟩ | ⟨-, below, odd, pos, lost, rfl⟩⟩ := h
  · rfl
  · rw [up odd pos lost]; push_cast; exact below.le

end

end OnGrid

/-! ## Bit patterns -/

namespace FFmt

/-- A bit pattern by its sign, biased exponent and fraction (R221). -/
def bits (f : FFmt) (neg : Bool) (ex frac : Nat) : Nat := f.signBit neg + ex * 2 ^ f.mb + frac

theorem signBit_eq (f : FFmt) (neg : Bool) : f.signBit neg = neg.toNat * 2 ^ (f.mb + f.eb) := by
  cases neg <;> simp [signBit]

@[simp] theorem bits_zero (f : FFmt) (neg : Bool) : f.bits neg 0 0 = f.signBit neg := by simp [bits]

section
variable {f : FFmt} {neg : Bool} {ex frac : Nat}

theorem bits_eq : f.bits neg ex frac = (neg.toNat * 2 ^ f.eb + ex) * 2 ^ f.mb + frac := by
  rw [bits, signBit_eq, pow_add]; ring

theorem bits_frac (hf : frac < 2 ^ f.mb) : f.bits neg ex frac % 2 ^ f.mb = frac := by
  rw [bits_eq, Nat.mul_add_mod_self_right, Nat.mod_eq_of_lt hf]

theorem bits_upper (hf : frac < 2 ^ f.mb) : f.bits neg ex frac / 2 ^ f.mb = neg.toNat * 2 ^ f.eb + ex := by
  rw [bits_eq, Nat.add_comm, Nat.add_mul_div_right _ _ (by positivity), Nat.div_eq_of_lt hf, Nat.zero_add]

theorem bits_exp (he : ex < 2 ^ f.eb) (hf : frac < 2 ^ f.mb) : f.bits neg ex frac / 2 ^ f.mb % 2 ^ f.eb = ex := by
  rw [bits_upper hf, Nat.mul_add_mod_self_right, Nat.mod_eq_of_lt he]

theorem bits_sign (he : ex < 2 ^ f.eb) (hf : frac < 2 ^ f.mb) :
    f.bits neg ex frac / 2 ^ (f.mb + f.eb) = neg.toNat := by
  rw [pow_add, ← Nat.div_div_eq_div_mul, bits_upper hf, Nat.add_comm, Nat.add_mul_div_right _ _ (by positivity),
    Nat.div_eq_of_lt he, Nat.zero_add]

/-- Every pattern of the format's width has a sign, an exponent and a fraction. -/
theorem exists_bits (f : FFmt) {x : Nat} (h : x < 2 ^ (1 + f.eb + f.mb)) :
    ∃ neg ex frac, ex < 2 ^ f.eb ∧ frac < 2 ^ f.mb ∧ x = f.bits neg ex frac := by
  have top : x / 2 ^ f.mb / 2 ^ f.eb < 2 := by
    rw [Nat.div_div_eq_div_mul, Nat.div_lt_iff_lt_mul (by positivity)]
    calc x < 2 ^ (1 + f.eb + f.mb) := h
      _ = 2 * (2 ^ f.mb * 2 ^ f.eb) := by ring
  refine ⟨decide (x / 2 ^ f.mb / 2 ^ f.eb = 1), x / 2 ^ f.mb % 2 ^ f.eb, x % 2 ^ f.mb, Nat.mod_lt _ (by positivity),
    Nat.mod_lt _ (by positivity), ?_⟩
  have sign : (decide (x / 2 ^ f.mb / 2 ^ f.eb = 1)).toNat = x / 2 ^ f.mb / 2 ^ f.eb := by
    interval_cases x / 2 ^ f.mb / 2 ^ f.eb <;> rfl
  rw [bits_eq, sign, Nat.div_add_mod', Nat.div_add_mod']

theorem value_bits (he : ex < 2 ^ f.eb) (hf : frac < 2 ^ f.mb) : f.value (f.bits neg ex frac) =
    if ex = 2 ^ f.eb - 1 then (if frac = 0 then .inf neg else .nan)
    else if ex = 0 then (if f.sub then .fin neg frac (1 - f.bias - f.mb) false else .fin neg 0 0 false)
    else .fin neg (2 ^ f.mb + frac) (ex - f.bias - f.mb) false := by
  have sign : (neg.toNat % 2 == 1) = neg := by cases neg <;> rfl
  simp only [value, bits_frac hf, bits_exp he hf, bits_sign he hf, sign]

end

theorem bias_nonneg (f : FFmt) : 0 ≤ f.bias := sub_nonneg.mpr (one_le_pow₀ (by decide))

/-- The largest exponent field of a finite value is twice the bias. -/
theorem two_bias {f : FFmt} (h : 0 < f.eb) : ((2 ^ f.eb : Nat) : Int) = 2 * f.bias + 2 := by
  obtain ⟨k, hk⟩ := Nat.exists_eq_add_of_lt h
  simp [bias, hk, pow_succ]
  ring

/-- The largest finite value. -/
theorem maxBits_eq {f : FFmt} (h : 1 < f.eb) (neg : Bool) :
    f.maxBits neg = f.bits neg (2 ^ f.eb - 2) (2 ^ f.mb - 1) := by
  have unit : 0 < 2 ^ f.mb := by positivity
  have range : 2 ^ 2 ≤ 2 ^ f.eb := Nat.pow_le_pow_right two_pos h
  obtain ⟨k, hk⟩ : ∃ k, 2 ^ f.eb = k + 2 := Nat.exists_eq_add_of_le' (by omega)
  rw [maxBits, infBits, bits, hk, Nat.add_sub_cancel, show k + 2 - 1 = k + 1 from rfl, Nat.succ_mul]
  omega

/-! ## Rounding to a format -/

/-- The result of `round` (R224) from the exponent of the leading bit, the magnitude rounded to full precision and the
magnitude rounded to the subnormal grid. -/
def pack (f : FFmt) (rm : Rnd) (neg : Bool) (top : Int) (n s : Nat × Bool) : Res Nat :=
  let top' := if n.1 = 2 ^ (f.mb + 1) then top + 1 else top
  if f.bias < top' then ⟨if roundUp rm neg false 3 then f.infBits neg else f.maxBits neg, flOF ||| flNX⟩
  else if top' < 1 - f.bias then
    if f.sub then ⟨f.signBit neg + s.1, if s.2 then 0 else flUF ||| flNX⟩ else ⟨f.signBit neg, flUF ||| flNX⟩
  else
    ⟨f.bits neg (top' + f.bias).toNat (if n.1 = 2 ^ (f.mb + 1) then 0 else n.1 - 2 ^ f.mb), if n.2 then 0 else flNX⟩

theorem round_zero (f : FFmt) (rm : Rnd) (neg : Bool) (e : Int) :
    f.round rm (.fin neg 0 e false) = ⟨f.signBit neg, 0⟩ := rfl

theorem round_eq_pack (f : FFmt) (rm : Rnd) (neg : Bool) {m : Nat} (e : Int) (h : m ≠ 0) :
    ∃ n s, OnGrid rm neg (m * 2 ^ e) (e + bitLen m - 1 - f.mb) n ∧ OnGrid rm neg (m * 2 ^ e) (1 - f.bias - f.mb) s ∧
      f.round rm (.fin neg m e false) = f.pack rm neg (e + bitLen m - 1) n s := by
  let k := f.mb + 4 - bitLen m
  have same : ((m * 2 ^ k : Nat) : ℚ) * 2 ^ (e - k) = m * 2 ^ e := by
    push_cast
    rw [mul_assoc, ← zpow_natCast, ← zpow_add₀ two_ne_zero, add_sub_cancel]
  have lead : e - k + bitLen (m * 2 ^ k) - 1 = e + bitLen m - 1 := by
    rw [bitLen_shift h]; push_cast; ring
  refine ⟨roundGrid rm neg (m * 2 ^ k) (e - k) false _, roundGrid rm neg (m * 2 ^ k) (e - k) false _,
    same ▸ roundGrid_onGrid .., same ▸ roundGrid_onGrid .., ?_⟩
  rw [← lead]
  simp only [round, h, false_and, if_false, pack, bits]
  cases rm <;> cases neg <;> rfl

theorem lead_bounds {m : Nat} (h : m ≠ 0) (e : Int) :
    (2 : ℚ) ^ (e + bitLen m - 1) ≤ m * 2 ^ e ∧ (m : ℚ) * 2 ^ e < 2 ^ (e + bitLen m) := by
  have pos : 0 < bitLen m := by rw [bitLen_eq_size]; exact Nat.size_pos.mpr (Nat.pos_of_ne_zero h)
  obtain ⟨low, high⟩ := bitLen_lead h
  have unit : (0 : ℚ) < 2 ^ e := by positivity
  constructor
  · rw [two_zpow_shift (by omega : e ≤ e + bitLen m - 1), show (e + bitLen m - 1 - e).toNat = bitLen m - 1 by omega]
    exact mul_le_mul_of_nonneg_right (by exact_mod_cast low) unit.le
  · rw [two_zpow_shift (by omega : e ≤ e + bitLen m), show (e + bitLen m - e).toNat = bitLen m by omega]
    exact mul_lt_mul_of_pos_right (by exact_mod_cast high) unit

/-- A significand of full precision and an exponent in range make a normal value. -/
theorem value_normal {f : FFmt} (h : 0 < f.eb) (neg : Bool) {q : Nat} {top : Int}
    (least : 2 ^ f.mb ≤ q) (most : q < 2 ^ (f.mb + 1)) (low : 1 - f.bias ≤ top) (high : top ≤ f.bias) :
    f.value (f.bits neg (top + f.bias).toNat (q - 2 ^ f.mb)) = .fin neg q (top - f.mb) false := by
  have range := two_bias h
  rw [pow_succ] at most
  rw [value_bits (by omega) (by omega), if_neg (by omega), if_neg (by omega)]
  congr 1 <;> omega

/-- A magnitude on the subnormal grid, up to the least normal value, is read back from its bits. -/
theorem value_subnormal {f : FFmt} (h : 1 < f.eb) (sub : f.sub = true) (neg : Bool) {q : Nat} (most : q ≤ 2 ^ f.mb) :
    f.value (f.signBit neg + q) = .fin neg q (1 - f.bias - f.mb) false := by
  have range : 2 ^ 2 ≤ 2 ^ f.eb := Nat.pow_le_pow_right two_pos h
  rcases most.lt_or_eq with below | rfl
  · have := value_bits (f := f) (neg := neg) (ex := 0) (by positivity) below
    rwa [if_neg (by omega), if_pos rfl, if_pos sub, bits, Nat.zero_mul, Nat.add_zero] at this
  · have := value_bits (f := f) (neg := neg) (ex := 1) (frac := 0) (by omega) (by positivity)
    rwa [if_neg (by omega), if_neg one_ne_zero, bits, Nat.one_mul] at this

theorem value_maxBits {f : FFmt} (h : 1 < f.eb) (neg : Bool) :
    f.value (f.maxBits neg) = .fin neg (2 ^ (f.mb + 1) - 1) (f.bias - f.mb) false := by
  have range := two_bias (f := f) (by omega)
  have unit : 0 < 2 ^ f.mb := by positivity
  have most : 2 ^ 2 ≤ 2 ^ f.eb := Nat.pow_le_pow_right two_pos h
  rw [maxBits_eq h, ← value_normal (f := f) (by omega) neg (q := 2 ^ (f.mb + 1) - 1) (by rw [pow_succ]; omega)
    (by rw [pow_succ]; omega) (by omega) le_rfl]
  congr 2
  · omega
  · rw [pow_succ]; omega

theorem value_infBits (f : FFmt) (neg : Bool) : f.value (f.infBits neg) = .inf neg := by
  have unit : 0 < 2 ^ f.eb := by positivity
  have := value_bits (f := f) (neg := neg) (ex := 2 ^ f.eb - 1) (frac := 0) (by omega) (by positivity)
  rwa [if_pos rfl, if_pos rfl] at this

/-! ## Values of the format round to themselves -/

theorem bitLen_normal {p frac : Nat} (h : frac < 2 ^ p) : bitLen (2 ^ p + frac) = p + 1 := by
  rw [bitLen_eq_size]
  exact le_antisymm (Nat.size_le.mpr (by rw [pow_succ]; omega)) (Nat.lt_size.mpr (Nat.le_add_right _ _))

theorem round_normal {f : FFmt} (rm : Rnd) (neg : Bool) {ex frac : Nat} (h : 0 < f.eb)
    (low : 0 < ex) (high : ex < 2 ^ f.eb - 1) (hf : frac < 2 ^ f.mb) :
    f.round rm (.fin neg (2 ^ f.mb + frac) (ex - f.bias - f.mb) false) = ⟨f.bits neg ex frac, 0⟩ := by
  have range := two_bias h
  obtain ⟨n, s, hn, -, hr⟩ := f.round_eq_pack rm neg (m := 2 ^ f.mb + frac) (ex - f.bias - f.mb) (by positivity)
  rw [bitLen_normal hf] at hn hr
  have top : ex - f.bias - f.mb + (f.mb + 1 : Nat) - 1 = ex - f.bias := by push_cast; ring
  rw [top] at hn hr
  rw [hr, hn.eq_of_multiple (k := 2 ^ f.mb + frac) rfl, pack]
  have less : 2 ^ f.mb + frac ≠ 2 ^ (f.mb + 1) := by rw [pow_succ]; omega
  simp only [less, if_false, if_true]
  rw [if_neg (by omega), if_neg (by omega)]
  congr 2 <;> omega

theorem round_subnormal {f : FFmt} (rm : Rnd) (neg : Bool) {frac : Nat} (h : 0 < f.eb) (sub : f.sub = true)
    (hf : frac < 2 ^ f.mb) :
    f.round rm (.fin neg frac (1 - f.bias - f.mb) false) = ⟨f.bits neg 0 frac, 0⟩ := by
  have range := two_bias h
  rcases eq_or_ne frac 0 with rfl | some
  · rw [round_zero, bits_zero]
  · obtain ⟨n, s, hn, hs, hr⟩ := f.round_eq_pack rm neg (1 - f.bias - f.mb) some
    have short : bitLen frac ≤ f.mb := by rw [bitLen_eq_size]; exact Nat.size_le.mpr hf
    have fine := two_zpow_shift (e := 1 - f.bias - f.mb) (g := 1 - f.bias - f.mb + bitLen frac - 1 - f.mb) (by omega)
    rw [show (1 - f.bias - f.mb - (1 - f.bias - f.mb + bitLen frac - 1 - f.mb)).toNat = f.mb + 1 - bitLen frac by
      omega] at fine
    have exact := hn.eq_of_multiple (k := frac * 2 ^ (f.mb + 1 - bitLen frac)) (by rw [fine]; push_cast; ring)
    have less : frac * 2 ^ (f.mb + 1 - bitLen frac) ≠ 2 ^ (f.mb + 1) := by
      have := Nat.mul_lt_mul_of_pos_right (bitLen_lead some).2 (Nat.two_pow_pos (f.mb + 1 - bitLen frac))
      rw [← pow_add, Nat.add_sub_cancel' (by omega)] at this
      exact this.ne
    have bias := f.bias_nonneg
    rw [hr, exact, hs.eq_of_multiple (k := frac) rfl, pack]
    simp only [less, if_false, if_true, sub]
    rw [if_neg (by omega), if_pos (by omega), bits, Nat.zero_mul, Nat.add_zero]

/-- Every value that a format holds rounds to itself in every mode; a NaN becomes the canonical one, and where the format
has no subnormals their patterns are zeros. -/
theorem round_value {f : FFmt} (h : 0 < f.eb) (rm : Rnd) {x : Nat} (hx : x < 2 ^ (1 + f.eb + f.mb)) :
    f.round rm (f.value x) =
      ⟨if f.value x = .nan then f.nanBits
        else if f.sub = false ∧ x / 2 ^ f.mb % 2 ^ f.eb = 0 then x / 2 ^ (f.mb + f.eb) * 2 ^ (f.mb + f.eb)
        else x, 0⟩ := by
  obtain ⟨neg, ex, frac, he, hf, rfl⟩ := f.exists_bits hx
  rw [value_bits he hf, bits_exp he hf, bits_sign he hf, ← signBit_eq]
  by_cases last : ex = 2 ^ f.eb - 1
  · rw [if_pos last]
    by_cases zero : frac = 0
    · simp [zero, round, bits, infBits, last]
    · simp [zero, round]
  · rw [if_neg last]
    by_cases first : ex = 0
    · subst first
      cases sub : f.sub
      · simp [round_zero]
      · simp [round_subnormal rm neg h sub hf]
    · simp [first, round_normal rm neg h (Nat.pos_of_ne_zero first) (by omega : ex < 2 ^ f.eb - 1) hf]

/-! ## Results lie on their mode's side of the exact value -/

section
variable {f : FFmt} {rm : Rnd} {neg : Bool} {top : Int} {n s : Nat × Bool}

/-- A significand that rounds up to the next power of two carries into the exponent, and keeps its value. -/
theorem pack_carried (sub : f.sub = true) (least : 2 ^ f.mb ≤ n.1) (most : n.1 ≤ 2 ^ (f.mb + 1)) :
    ∃ (q : Nat) (t : Int), 2 ^ f.mb ≤ q ∧ q < 2 ^ (f.mb + 1) ∧ top ≤ t ∧
      (q : ℚ) * 2 ^ (t - f.mb) = n.1 * 2 ^ (top - f.mb) ∧
      (f.pack rm neg top n s).val =
        if f.bias < t then (if roundUp rm neg false 3 then f.infBits neg else f.maxBits neg)
        else if t < 1 - f.bias then f.signBit neg + s.1
        else f.bits neg (t + f.bias).toNat (q - 2 ^ f.mb) := by
  by_cases full : n.1 = 2 ^ (f.mb + 1)
  · refine ⟨2 ^ f.mb, top + 1, le_rfl, Nat.pow_lt_pow_right one_lt_two (Nat.lt_succ_self _), by omega, ?_, ?_⟩
    · rw [full, two_pow_mul_zpow, two_pow_mul_zpow]
      congr 1
      push_cast
      ring
    · simp only [pack, full, sub, if_true, Nat.sub_self]
      split_ifs <;> rfl
  · refine ⟨n.1, top, least, by omega, le_rfl, rfl, ?_⟩
    simp only [pack, full, sub, if_true, if_false]
    split_ifs <;> rfl

/-- What packing makes of a magnitude `v`: beyond the largest exponent an overflow value, and otherwise a finite value that
is `v` on some grid. -/
theorem pack_cases (h : 1 < f.eb) (sub : f.sub = true) {v : ℚ} (lead : 2 ^ top ≤ v) (above : v < 2 ^ (top + 1))
    (hn : OnGrid rm neg v (top - f.mb) n) (hs : OnGrid rm neg v (1 - f.bias - f.mb) s) :
    ((2 : ℚ) ^ (f.bias + 1) ≤ n.1 * 2 ^ (top - f.mb) ∧
      (f.pack rm neg top n s).val = if roundUp rm neg false 3 then f.infBits neg else f.maxBits neg) ∨
    ∃ g w a d, OnGrid rm neg v g w ∧ f.value (f.pack rm neg top n s).val = .fin neg a d false ∧
      (a : ℚ) * 2 ^ d = w.1 * 2 ^ g := by
  have least : 2 ^ f.mb ≤ n.1 := hn.ge_of_ge (by rwa [two_pow_mul_zpow, sub_add_cancel])
  have most : n.1 ≤ 2 ^ (f.mb + 1) := hn.le_of_le (by
    rw [two_pow_mul_zpow, Nat.cast_succ, ← add_assoc, sub_add_cancel]
    exact above.le)
  obtain ⟨q, t, low, high, upward, same, result⟩ :=
    pack_carried (rm := rm) (neg := neg) (top := top) (s := s) sub least most
  rw [result]
  by_cases beyond : f.bias < t
  · left
    rw [if_pos beyond]
    refine ⟨?_, rfl⟩
    calc (2 : ℚ) ^ (f.bias + 1) ≤ 2 ^ t := zpow_le_zpow_right₀ one_le_two beyond
      _ = (2 ^ f.mb : Nat) * 2 ^ (t - f.mb) := by rw [two_pow_mul_zpow, sub_add_cancel]
      _ ≤ q * 2 ^ (t - f.mb) := by gcongr
      _ = _ := same
  · right
    rw [if_neg beyond]
    by_cases under : t < 1 - f.bias
    · rw [if_pos under]
      have small : s.1 ≤ 2 ^ f.mb := hs.le_of_le (by
        rw [two_pow_mul_zpow, sub_add_cancel]
        exact above.le.trans (zpow_le_zpow_right₀ one_le_two (by omega)))
      exact ⟨_, s, _, _, hs, value_subnormal h sub neg small, rfl⟩
    · rw [if_neg under]
      exact ⟨_, n, _, _, hn, value_normal (by omega) neg low high (by omega) (by omega), same⟩

/-- Where the mode takes no lost part up, the result is finite and at most the exact magnitude. -/
theorem round_down (h : 1 < f.eb) (sub : f.sub = true) (down : ∀ odd pos, roundUp rm neg odd pos = false)
    (m : Nat) (e : Int) :
    ∃ (a : Nat) (d : Int), f.value (f.round rm (.fin neg m e false)).val = .fin neg a d false ∧
      (a : ℚ) * 2 ^ d ≤ m * 2 ^ e := by
  rcases eq_or_ne m 0 with rfl | some
  · exact ⟨0, _, value_subnormal h sub neg (Nat.zero_le _), by simp⟩
  · obtain ⟨n, s, hn, hs, hr⟩ := f.round_eq_pack rm neg e some
    obtain ⟨lead, above⟩ := lead_bounds some e
    rw [hr]
    rcases pack_cases h sub lead (by rwa [sub_add_cancel]) hn hs with ⟨beyond, result⟩ | ⟨g, w, a, d, hw, result, same⟩
    · rw [result, down, if_neg Bool.false_ne_true]
      refine ⟨_, _, value_maxBits h neg, ?_⟩
      calc ((2 ^ (f.mb + 1) - 1 : Nat) : ℚ) * 2 ^ (f.bias - f.mb)
        _ ≤ (2 ^ (f.mb + 1) : Nat) * 2 ^ (f.bias - f.mb) := by gcongr; exact Nat.sub_le _ _
        _ = 2 ^ (f.bias + 1) := by rw [two_pow_mul_zpow]; congr 1; push_cast; ring
        _ ≤ _ := beyond
        _ ≤ m * 2 ^ e := hn.le_of_down down
    · exact ⟨a, d, result, same.trans_le (hw.le_of_down down)⟩

/-- Where the mode takes every lost part up, the result is an infinity or at least the exact magnitude. -/
theorem round_up (h : 1 < f.eb) (sub : f.sub = true) (up : ∀ odd pos, pos ≠ 0 → roundUp rm neg odd pos = true)
    (m : Nat) (e : Int) :
    f.value (f.round rm (.fin neg m e false)).val = .inf neg ∨
    ∃ (a : Nat) (d : Int), f.value (f.round rm (.fin neg m e false)).val = .fin neg a d false ∧
      (m : ℚ) * 2 ^ e ≤ a * 2 ^ d := by
  rcases eq_or_ne m 0 with rfl | some
  · exact .inr ⟨0, _, value_subnormal h sub neg (Nat.zero_le _), by simp⟩
  · obtain ⟨n, s, hn, hs, hr⟩ := f.round_eq_pack rm neg e some
    obtain ⟨lead, above⟩ := lead_bounds some e
    rw [hr]
    rcases pack_cases h sub lead (by rwa [sub_add_cancel]) hn hs with ⟨-, result⟩ | ⟨g, w, a, d, hw, result, same⟩
    · rw [result, up false 3 (by decide), if_pos rfl]
      exact .inl (f.value_infBits neg)
    · exact .inr ⟨a, d, result, (hw.ge_of_up up).trans_eq same.symm⟩

end

section
variable {f : FFmt} (h : 1 < f.eb) (sub : f.sub = true)
include h sub

theorem round_rd_le (neg : Bool) (m : Nat) (e : Int) :
    cmpFVal (f.value (f.round .rd (.fin neg m e false)).val) (.fin neg m e false) ≤ 0 := by
  cases neg with
  | false =>
    obtain ⟨a, d, result, le⟩ := round_down (rm := .rd) (neg := false) h sub (fun _ _ => rfl) m e
    rw [result]
    exact cmpFVal_nonpos le
  | true =>
    rcases round_up (rm := .rd) (neg := true) h sub (fun odd pos lost => by simp [roundUp, lost]) m e
      with result | ⟨a, d, result, le⟩
    · rw [result]; simp [cmpFVal]
    · rw [result]
      exact cmpFVal_nonpos (neg_le_neg le)

theorem round_ru_ge (neg : Bool) (m : Nat) (e : Int) :
    0 ≤ cmpFVal (f.value (f.round .ru (.fin neg m e false)).val) (.fin neg m e false) := by
  cases neg with
  | true =>
    obtain ⟨a, d, result, le⟩ := round_down (rm := .ru) (neg := true) h sub (fun _ _ => rfl) m e
    rw [result]
    exact cmpFVal_nonneg (neg_le_neg le)
  | false =>
    rcases round_up (rm := .ru) (neg := false) h sub (fun odd pos lost => by simp [roundUp, lost]) m e
      with result | ⟨a, d, result, le⟩
    · rw [result]; simp [cmpFVal]
    · rw [result]
      exact cmpFVal_nonneg le

theorem round_rz_abs_le (neg : Bool) (m : Nat) (e : Int) :
    cmpFVal (f.value (f.round .rz (.fin neg m e false)).val).abs (FVal.fin neg m e false).abs ≤ 0 := by
  obtain ⟨a, d, result, le⟩ := round_down (rm := .rz) (neg := neg) h sub (fun _ _ => rfl) m e
  rw [result]
  exact cmpFVal_nonpos le

end

end FFmt

/-- Settles O57: a value of a format is a multiple of the grid that it is rounded on, and a directed mode takes
every lost part the same way. -/
theorem roundingIsFaithful : Obligations.RoundingIsFaithful := by
  unfold Obligations.RoundingIsFaithful
  refine ⟨fun f rm x hf hx => ?held, fun f neg m e hf => ?directed⟩
  case held =>
    have width : 0 < f.eb := by rcases hf with rfl | rfl | rfl <;> decide
    exact FFmt.round_value width rm hx
  case directed =>
    have width : 1 < f.eb := by rcases hf with rfl | rfl <;> decide
    have sub : f.sub = true := by rcases hf with rfl | rfl <;> rfl
    exact ⟨FFmt.round_rd_le width sub neg m e, FFmt.round_ru_ge width sub neg m e,
      FFmt.round_rz_abs_le width sub neg m e⟩

end Sys2Proof.Machine
end

section
/-! PROOF. Memory keeps its one form: an invariant of every step. -/

namespace Sys2Proof.Machine
open Sys2Proof.Safety

/-- A step that ends in a state is a step of a supplied part (R24). -/
theorem supplied_of_step {s t : State} (h : step s = .next t) : Supplied s := by
  by_contra unsupplied
  rw [step_unsupplied (Bool.eq_false_of_not_eq_true unsupplied)] at h
  cases h

/-- Settles O45: `Ok true` says that the part is supplied and that its memory is canonical, and every step keeps it
(`step_ok`). -/
theorem stepsKeepMemoryCanonical : Obligations.StepsKeepMemoryCanonical := by
  unfold Obligations.StepsKeepMemoryCanonical
  intro s t wf run
  obtain ⟨u, run', -, canonical⟩ := step_ok (b := true) ⟨supplied_of_step run, fun _ => wf⟩
  obtain rfl : t = u := by rw [run] at run'; exact Host.Outcome.next.inj run'
  exact canonical rfl

end Sys2Proof.Machine
end

section
/-! PROOF. Floating point within each lane (R221 to R225, R237 to R247): every result of a format has the format's width,
and single-precision and packed results are the spec's formulas. -/

namespace Sys2Proof.Machine
open Sys2Proof.Safety

/-! ## A format's results have its width -/

/-- A magnitude below `2 ^ j` steps of the grid, lost bits or not, is rounded to at most as many. -/
theorem roundGrid_le_two_pow {rm : Rnd} {neg cut : Bool} {m j : Nat} {e g : Int} (h : e + bitLen m ≤ g + j) :
    (roundGrid rm neg m e cut g).1 ≤ 2 ^ j := by
  have small : m < 2 ^ bitLen m := by rw [bitLen_eq_size]; exact Nat.lt_size_self m
  by_cases fine : g ≤ e
  · have below : m * 2 ^ (e - g).toNat < 2 ^ j := by
      calc m * 2 ^ (e - g).toNat < 2 ^ bitLen m * 2 ^ (e - g).toNat := by gcongr
        _ = 2 ^ (bitLen m + (e - g).toNat) := (pow_add ..).symm
        _ ≤ 2 ^ j := Nat.pow_le_pow_right two_pos (by omega)
    rw [roundGrid, if_pos fine]
    split
    · dsimp only
      split <;> omega
    · exact below.le
  · have below : m / 2 ^ (g - e).toNat < 2 ^ j := by
      rw [Nat.div_lt_iff_lt_mul (by positivity), ← pow_add]
      exact small.trans_le (Nat.pow_le_pow_right two_pos (by omega))
    rw [roundGrid, if_neg fine]
    simp only [dropShift_fst]
    split <;> omega

namespace FFmt

section
variable {f : FFmt} (hm : 0 < f.mb) (he : 0 < f.eb)

theorem bits_lt {neg : Bool} {ex frac : Nat} (hex : ex < 2 ^ f.eb) (hf : frac < 2 ^ f.mb) :
    f.bits neg ex frac < 2 ^ (1 + f.eb + f.mb) := by
  have sign : neg.toNat ≤ 1 := neg.toNat_le
  calc f.bits neg ex frac = (neg.toNat * 2 ^ f.eb + ex) * 2 ^ f.mb + frac := bits_eq
    _ < (neg.toNat * 2 ^ f.eb + ex + 1) * 2 ^ f.mb := by rw [Nat.succ_mul]; omega
    _ ≤ (1 * 2 ^ f.eb + 2 ^ f.eb) * 2 ^ f.mb := by rw [Nat.add_assoc]; gcongr; omega
    _ = 2 ^ (1 + f.eb + f.mb) := by ring

theorem signBit_lt (neg : Bool) : f.signBit neg < 2 ^ (1 + f.eb + f.mb) := by
  rw [← bits_zero]
  exact bits_lt (by positivity) (by positivity)

theorem infBits_lt (neg : Bool) : f.infBits neg < 2 ^ (1 + f.eb + f.mb) := by
  have unit : 0 < 2 ^ f.eb := by positivity
  exact bits_lt (f := f) (neg := neg) (ex := 2 ^ f.eb - 1) (frac := 0) (by omega) (by positivity)

include hm in
theorem nanBits_lt : f.nanBits < 2 ^ (1 + f.eb + f.mb) := by
  have unit : 0 < 2 ^ f.eb := by positivity
  have := bits_lt (f := f) (neg := false) (ex := 2 ^ f.eb - 1) (frac := 2 ^ (f.mb - 1)) (by omega)
    (Nat.pow_lt_pow_right one_lt_two (by omega))
  simpa [bits, signBit, nanBits] using this

include hm he in
/-- A rounded result has the bits of its format only. -/
theorem round_lt (rm : Rnd) (x : FVal) : (f.round rm x).val < 2 ^ (1 + f.eb + f.mb) := by
  cases x with
  | nan => exact nanBits_lt hm
  | inf neg => exact infBits_lt neg
  | fin neg m e cut =>
    have range := two_bias he
    have unit : 0 < 2 ^ f.mb := by positivity
    unfold round
    simp only
    split
    · exact signBit_lt neg
    generalize m * 2 ^ (f.mb + 4 - bitLen m) = n
    generalize e - ↑(f.mb + 4 - bitLen m) = d
    have most : (roundGrid rm neg n d cut (d + bitLen n - 1 - f.mb)).1 ≤ 2 ^ (f.mb + 1) :=
      roundGrid_le_two_pow (by push_cast; omega)
    rw [pow_succ] at most ⊢
    generalize (roundGrid rm neg n d cut (d + bitLen n - 1 - f.mb)) = q at *
    generalize htop : (if q.1 = 2 ^ f.mb * 2 then d + bitLen n - 1 + 1 else d + bitLen n - 1) = top
    have overflow (up : Bool) : (if up then f.infBits neg else f.maxBits neg) < 2 ^ (1 + f.eb + f.mb) := by
      split
      · exact infBits_lt neg
      · exact (Nat.sub_le _ _).trans_lt (infBits_lt neg)
    split
    · exact overflow _
    · split
      · next low =>
        split
        · have least : (roundGrid rm neg n d cut (1 - f.bias - f.mb)).1 ≤ 2 ^ f.mb :=
            roundGrid_le_two_pow (by split at htop <;> omega)
          have room : 2 ^ f.mb < 2 ^ (f.mb + f.eb) := Nat.pow_lt_pow_right one_lt_two (by omega)
          have whole : 2 ^ (1 + f.eb + f.mb) = 2 * 2 ^ (f.mb + f.eb) := by ring
          cases neg <;> simp only [signBit] <;> simp <;> omega
        · exact signBit_lt neg
      · exact bits_lt (f := f) (neg := neg) (by omega) (by split <;> omega)

include hm he in
theorem keepBits_lt (x : Nat) : keepBits f x < 2 ^ (1 + f.eb + f.mb) := round_lt hm he .rz _

include hm he in
theorem fminmax_lt (max : Bool) (x y : Nat) : fminmax f max x y < 2 ^ (1 + f.eb + f.mb) := by
  unfold fminmax
  dsimp only
  split_ifs
  · exact nanBits_lt hm
  all_goals exact keepBits_lt hm he _

include hm he in
theorem fmul_lt (rm : Rnd) (x y : FVal) : (fmul f rm x y).val < 2 ^ (1 + f.eb + f.mb) := round_lt hm he rm _

include hm he in
theorem fadd_lt (rm : Rnd) (x y : FVal) : (fadd f rm x y).val < 2 ^ (1 + f.eb + f.mb) := round_lt hm he rm _

include hm he in
theorem ffma_lt (rm : Rnd) (x y z : FVal) : (ffma f rm x y z).val < 2 ^ (1 + f.eb + f.mb) := by
  unfold ffma
  dsimp only
  split_ifs
  · exact nanBits_lt hm
  · exact nanBits_lt hm
  · exact round_lt hm he rm _

/-- A pattern's bits above the format's width are not read. -/
theorem value_mod (f : FFmt) (x : Nat) : f.value (x % 2 ^ (1 + f.eb + f.mb)) = f.value x := by
  have frac : x % 2 ^ (1 + f.eb + f.mb) % 2 ^ f.mb = x % 2 ^ f.mb :=
    Nat.mod_mod_of_dvd _ (pow_dvd_pow 2 (by omega))
  have upper : x % 2 ^ (1 + f.eb + f.mb) / 2 ^ f.mb = x / 2 ^ f.mb % 2 ^ (1 + f.eb) := by
    rw [pow_add 2 (1 + f.eb), mul_comm, Nat.mod_mul_right_div_self]
  have ex : x / 2 ^ f.mb % 2 ^ (1 + f.eb) % 2 ^ f.eb = x / 2 ^ f.mb % 2 ^ f.eb :=
    Nat.mod_mod_of_dvd _ (pow_dvd_pow 2 (by omega))
  have sign : x % 2 ^ (1 + f.eb + f.mb) / 2 ^ (f.mb + f.eb) % 2 = x / 2 ^ (f.mb + f.eb) % 2 := by
    rw [show 1 + f.eb + f.mb = f.mb + f.eb + 1 by omega, pow_succ, Nat.mod_mul_right_div_self, Nat.mod_mod]
  simp only [value, frac, upper, ex, sign]

end

end FFmt

/-! ## Single precision (R240 to R245) -/

/-- The bits of a single-precision result. -/
theorem f32Res_eq (r : Res Nat) : f32Res r = ⟨BitVec.ofNat 64 r.val, r.fl⟩ := rfl

theorem ty_of_types_one {f : OpA} {r : RoleA} {t : Ty} (ht : r.types = [t]) (w : wfA f r = true) : f.ty = t := by
  simpa [ht] using types_of_wfA w

/-- A single-precision word yields its result, read from operands of type f32. -/
theorem yields_f32 {i : Instr} {f : OpA} {r : RoleA} {fn : OpA → State → Nat → Res Double} {res : State → Nat → Res Double}
    (he : ∀ s, exec i s = .next (s.alu i fn)) (hi : i.roleA = some (f, r)) (hr : r.d = some f.ty) (ht : r.types = [.f32])
    (hw : i.wf = wfRole i) (hfn : ∀ s b, State.Alike s b → ∀ l, fn f b l = fn f s l)
    (hv : f.ty = .f32 → ∀ s l, fn f s l = res s l) : Yields i f .f32 res := by
  intro s ready
  have ty : f.ty = .f32 := ty_of_types_one ht (wfA_of_wf hi hw ready.wf)
  exact yields_of he hi (hr.trans (congrArg some ty)) hw hfn (fun _ => hv ty) s ready

/-- The words of one operand (R243). -/
theorem yields_fun1 {i : Instr} {f : OpA} {r : RoleA} (g : FVal → Res FVal)
    (he : ∀ s, exec i s = .next (s.alu i (fun1 g))) (hi : i.roleA = some (f, r)) (hr : r.d = some f.ty)
    (ht : r.types = [.f32]) (hw : i.wf = wfRole i) :
    Yields i f .f32 (fun s l =>
      let x := rounded fmtF32 f.rnd (g (fmtF32.value (s.src l .f32 f.a).toNat))
      ⟨BitVec.ofNat 64 x.val, x.fl⟩) :=
  yields_f32 he hi hr ht hw (fun s b h l => by simp only [fun1, fA_alike h]) fun ty s l => by
    simp only [fun1, fA, tA, ty, fval, f32Res_eq]

/-- Settles O8: each word's result as its formula, of operands read as f32. That FEXP2 and FLOG2 are computed in fixed point
of 200 bits and then rounded once is the model's (log 8). -/
theorem floatArithmeticCompletes : Obligations.FloatArithmeticCompletes := by
  unfold Obligations.FloatArithmeticCompletes
  intro f x y out fun1
  refine ⟨yields_f32 (fn := resFadd) (fun _ => rfl) rfl rfl rfl rfl (fun s b h l => ?faddAlike) fun ty s l => ?fadd,
    yields_f32 (fn := resFsub) (fun _ => rfl) rfl rfl rfl rfl (fun s b h l => ?fsubAlike) fun ty s l => ?fsub,
    yields_f32 (fn := resFmul) (fun _ => rfl) rfl rfl rfl rfl (fun s b h l => ?fmulAlike) fun ty s l => ?fmul,
    yields_f32 (fn := resFfma) (fun _ => rfl) rfl rfl rfl rfl (fun s b h l => ?ffmaAlike) fun ty s l => ?ffma,
    yields_f32 (fn := resFmin) (fun _ => rfl) rfl rfl rfl rfl (fun s b h l => ?fminAlike) fun ty s l => ?fmin,
    yields_f32 (fn := resFmax) (fun _ => rfl) rfl rfl rfl rfl (fun s b h l => ?fmaxAlike) fun ty s l => ?fmax,
    yields_fun1 frcp (fun _ => rfl) rfl rfl rfl rfl, yields_fun1 frsq (fun _ => rfl) rfl rfl rfl rfl,
    yields_fun1 fsqrt (fun _ => rfl) rfl rfl rfl rfl, yields_fun1 fexp2 (fun _ => rfl) rfl rfl rfl rfl,
    yields_fun1 flog2 (fun _ => rfl) rfl rfl rfl rfl,
    yields_of (fn := resFclass) (fun _ => rfl) rfl rfl rfl (fun s b h l => ?fclassAlike) fun _ _ _ => rfl,
    yields_f32 (fn := resFscale) (fun _ => rfl) rfl rfl rfl rfl (fun s b h l => ?fscaleAlike) fun ty s l => ?fscale,
    yields_f32 (fn := resFrnd) (fun _ => rfl) rfl rfl rfl rfl (fun s b h l => ?frndAlike) fun ty s l => ?frnd⟩
  case faddAlike => simp only [resFadd, fA_alike h, fB_alike h]
  case fsubAlike => simp only [resFsub, fA_alike h, fB_alike h]
  case fmulAlike => simp only [resFmul, fA_alike h, fB_alike h]
  case ffmaAlike => simp only [resFfma, fA_alike h, fB_alike h, fC_alike h]
  case fminAlike => simp only [resFmin, tA_alike h, tB_alike h]
  case fmaxAlike => simp only [resFmax, tA_alike h, tB_alike h]
  case fclassAlike => simp only [resFclass, tA_alike h]
  case fscaleAlike => simp only [resFscale, fA_alike h, h.src32]
  case frndAlike => simp only [resFrnd, fA_alike h, tA_alike h]
  case fadd => simp only [resFadd, fA, fB, tA, tB, ty]; rfl
  case fsub => simp only [resFsub, fA, fB, tA, tB, ty]; rfl
  case fmul => simp only [resFmul, fA, fB, tA, tB, ty]; rfl
  case ffma => simp only [resFfma, fA, fB, fC, tA, tB, tC, ty]; rfl
  case fmin => simp only [resFmin, tA, tB, ty]; rfl
  case fmax => simp only [resFmax, tA, tB, ty]; rfl
  case fscale =>
    simp only [resFscale, fA, tA, ty, fval, x]
    cases fmtF32.value (s.src l .f32 f.a).toNat <;> rfl
  case frnd =>
    simp only [resFrnd, fA, tA, ty, fval, x]
    cases fmtF32.value (s.src l .f32 f.a).toNat <;> rfl

/-! ## Packed halves (R246, R247) -/

/-- Two halves of 16 bits side by side. -/
theorem ofBits_halves {a b : Nat} (ha : a < 2 ^ 16) (hb : b < 2 ^ 16) :
    ofBits (a + b * 2 ^ 16) = (BitVec.ofNat 16 b ++ BitVec.ofNat 16 a : BitVec 32).setWidth 64 := by
  apply BitVec.eq_of_toNat_eq
  have sum : (BitVec.ofNat 16 b ++ BitVec.ofNat 16 a : BitVec 32).toNat = b * 2 ^ 16 + a := by
    rw [BitVec.toNat_append, BitVec.toNat_ofNat, BitVec.toNat_ofNat, Nat.mod_eq_of_lt ha, Nat.mod_eq_of_lt hb,
      Nat.shiftLeft_eq, Nat.mul_comm, Nat.two_pow_add_eq_or_of_lt ha, Nat.mul_comm]
  rw [BitVec.toNat_setWidth, sum, ofBits, BitVec.toNat_ofNat, Nat.add_comm]

theorem toNat_half (x : Double) (i : Nat) : (x.extractLsb' (16 * i) 16).toNat = x.toNat / 2 ^ (16 * i) % 2 ^ 16 := by
  rw [BitVec.extractLsb'_toNat, Nat.shiftRight_eq_div_pow]

/-- The formats of half width. -/
theorem half_width {t : Ty} (h : t = .f16x2 ∨ t = .bf16x2) :
    1 + (ffmtOf t).eb + (ffmtOf t).mb = 16 ∧ 0 < (ffmtOf t).mb ∧ 0 < (ffmtOf t).eb := by
  rcases h with rfl | rfl <;> decide

/-- A word of packed halves, each of whose results has its format's width. -/
theorem yields_packed2 {i : Instr} {f : OpA} {r : RoleA} {fn : OpA → State → Nat → Res Double} {g : Nat → Nat → Nat → Res Nat}
    (he : ∀ s, exec i s = .next (s.alu i fn)) (hi : i.roleA = some (f, r)) (hr : r.d = some f.ty)
    (ht : r.types = [.f16x2, .bf16x2]) (hw : i.wf = wfRole i) (hg : fn f = packed2 g f)
    (small : f.ty = .f16x2 ∨ f.ty = .bf16x2 → ∀ a b c, (g a b c).val < 2 ^ 16) :
    Yields i f f.ty (fun s l =>
      let half (x : Src) (i : Nat) : Nat := ((s.src l f.ty x).extractLsb' (16 * i) 16).toNat
      let r (i : Nat) : Res Nat := g (half f.a i) (half f.b i) (half f.c i)
      ⟨(BitVec.ofNat 16 (r 1).val ++ BitVec.ofNat 16 (r 0).val : BitVec 32).setWidth 64, (r 0).fl ||| (r 1).fl⟩) := by
  refine yields_of he hi hr hw (fun s b h l => ?_) fun w s l => ?_
  · simp only [hg, packed2, tA_alike h, tB_alike h, tC_alike h]
  · have ty : f.ty = .f16x2 ∨ f.ty = .bf16x2 := by simpa [ht] using types_of_wfA w
    simp only [hg, packed2, tA, tB, tC, toNat_half, ofBits_halves (small ty _ _ _) (small ty _ _ _)]

section
variable {t : Ty} (ht : t = .f16x2 ∨ t = .bf16x2)
include ht

theorem half_small {n : Nat} (h : 0 < (ffmtOf t).mb → 0 < (ffmtOf t).eb → n < 2 ^ (1 + (ffmtOf t).eb + (ffmtOf t).mb)) :
    n < 2 ^ 16 := by
  obtain ⟨width, hm, he⟩ := half_width ht
  exact width ▸ h hm he

/-- A packed operand's half as a value: the bits above it are not read. -/
theorem value_half (x : Double) (i : Nat) :
    (ffmtOf t).value (x.extractLsb' (16 * i) 16).toNat = (ffmtOf t).value (x.toNat / 2 ^ (16 * i)) := by
  rw [toNat_half, ← (half_width ht).1, FFmt.value_mod]

end

/-- FDOT2's result in the words of R247. -/
theorem resFdot2_eq {f : OpA} (ty : f.ty = .f16x2 ∨ f.ty = .bf16x2) (s : State) (l : Nat) :
    let half (x : Src) (i : Nat) : FVal := (ffmtOf f.ty).value ((s.src l f.ty x).extractLsb' (16 * i) 16).toNat
    let z := fmtF32.value (s.src l .f32 f.c).toNat
    let p := mulFVal (half f.a 0) (half f.b 0)
    let q := mulFVal (half f.a 1) (half f.b 1)
    resFdot2 f s l = f32Res (
      if (half f.a 0).isNan || (half f.a 1).isNan || (half f.b 0).isNan || (half f.b 1).isNan || z.isNan then ⟨fmtF32.nanBits, 0⟩
      else if p.2 || q.2 then ⟨fmtF32.nanBits, flNV⟩
      else rounded fmtF32 f.rnd (sumFVal f.rnd [z, p.1, q.1])) := by
  intro half z p q
  simp only [half, z, p, q, value_half ty, resFdot2, tA, tB, fval, List.any_cons, List.any_nil, Bool.or_false, Bool.or_assoc,
    apply_ite f32Res]
  rfl

/-- Settles O9: each half as its formula, of the format's width, and FDOT2 as R247's sum. -/
theorem packedFloatCompletes : Obligations.PackedFloatCompletes := by
  unfold Obligations.PackedFloatCompletes
  intro f half val both
  refine ⟨(yields_packed2 (i := .hadd2 f) (fun _ => rfl) rfl rfl rfl rfl rfl fun ty _ _ _ => ?hadd2 :),
    (yields_packed2 (i := .hmul2 f) (fun _ => rfl) rfl rfl rfl rfl rfl fun ty _ _ _ => ?hmul2 :),
    (yields_packed2 (i := .hfma2 f) (fun _ => rfl) rfl rfl rfl rfl rfl fun ty _ _ _ => ?hfma2 :),
    (yields_packed2 (i := .hmin2 f) (fun _ => rfl) rfl rfl rfl rfl rfl fun ty _ _ _ => ?hmin2 :),
    (yields_packed2 (i := .hmax2 f) (fun _ => rfl) rfl rfl rfl rfl rfl fun ty _ _ _ => ?hmax2 :),
    yields_of (fn := resFdot2) (fun _ => rfl) rfl rfl rfl (fun s b h l => ?fdot2Alike) fun w s l => ?fdot2⟩
  case hadd2 => exact half_small ty fun hm he => FFmt.fadd_lt hm he ..
  case hmul2 => exact half_small ty fun hm he => FFmt.fmul_lt hm he ..
  case hfma2 => exact half_small ty fun hm he => FFmt.ffma_lt hm he ..
  case hmin2 => exact half_small ty fun hm he => FFmt.fminmax_lt hm he ..
  case hmax2 => exact half_small ty fun hm he => FFmt.fminmax_lt hm he ..
  case fdot2Alike => simp only [resFdot2, tA_alike h, tB_alike h, h.src]
  case fdot2 => exact resFdot2_eq (by simpa using types_of_wfA w) s l

end Sys2Proof.Machine
end

section
/-! PROOF. Conversions between the number formats (R248 to R256): each result as its formula, in the type's width. -/

namespace Sys2Proof.Machine
open Sys2Proof.Safety

/-! ## Operands -/

/-- A 32-bit operand as a signed integer. -/
theorem valOf_src_s32 (s : State) (l : Nat) (x : Src) : valOf 32 true (s.src l .s32 x).toNat = (s.src32 l x).toInt := by
  rw [src_int s l x rfl]
  exact valOf_setWidth true _

/-- The low half of a 32-bit operand. -/
theorem toNat_src32_low (s : State) (l : Nat) (x : Src) :
    ((s.src l .u32 x).extractLsb' (16 * 0) 16).toNat = (s.src32 l x).toNat % 2 ^ 16 := by
  rw [toNat_half, State.src32, BitVec.toNat_setWidth, Nat.mul_zero, pow_zero, Nat.div_one,
    Nat.mod_mod_of_dvd _ (pow_dvd_pow 2 (by decide))]

/-- The signed integer of a word's low bits. -/
theorem signedOf_setWidth {w : Nat} (n : Nat) (x : BitVec w) : signedOf n x.toNat = (x.setWidth n).toInt := by
  rw [← signedOf_toInt, BitVec.toNat_setWidth, signedOf, signedOf, Nat.mod_mod]

/-! ## Integer results in 32 bits -/

theorem ofBits_bitsInt_32 (n : Int) : ofBits (bitsInt 32 n) = (BitVec.ofInt 32 n).setWidth 64 := by
  apply BitVec.eq_of_toNat_eq
  simp [ofBits, bitsInt]

/-- A half extended to 32 bits by its sign. -/
theorem ofBits_signed_half {n : Nat} (h : n < 2 ^ 16) :
    ofBits (bitsInt 32 (valOf 16 true n)) = ((BitVec.ofNat 16 n).signExtend 32).setWidth 64 := by
  have value : valOf 16 true n = (BitVec.ofNat 16 n).toInt := by
    rw [← valOf_signed, BitVec.toNat_ofNat, Nat.mod_eq_of_lt h]
  rw [ofBits_bitsInt_32, value, BitVec.signExtend]

theorem bitsInt_unsigned_half {n : Nat} (h : n < 2 ^ 16) : bitsInt 32 (valOf 16 false n) = n := by
  have value : valOf 16 false n = n := by
    rw [valOf, if_neg Bool.false_ne_true, Nat.mod_eq_of_lt h]
  rw [value, bitsInt]
  omega

/-! ## Packed conversions (R250, R251) -/

theorem packedFloat_iff {t : Ty} : t.packedFloat = true ↔ t = .f16x2 ∨ t = .bf16x2 := by
  cases t <;> simp [Ty.packedFloat]

/-- A rounded half has 16 bits. -/
theorem round_half_lt {t : Ty} (h : t.packedFloat = true) (rm : Rnd) (x : FVal) : ((ffmtOf t).round rm x).val < 2 ^ 16 :=
  half_small (packedFloat_iff.1 h) fun hm he => FFmt.round_lt hm he rm x

/-- Both elements are converted on their own (R250). -/
theorem resFcvt_packed {f : OpA} (ht : f.ty.packedFloat = true) (hs : f.st.packedFloat = true) (s : State) (l : Nat) :
    let r (i : Nat) : Res Nat :=
      (ffmtOf f.ty).round f.rnd ((ffmtOf f.st).value ((s.src l f.st f.a).extractLsb' (16 * i) 16).toNat)
    resFcvt f s l =
      ⟨(BitVec.ofNat 16 (r 1).val ++ BitVec.ofNat 16 (r 0).val : BitVec 32).setWidth 64, (r 0).fl ||| (r 1).fl⟩ := by
  intro r
  have low : (ffmtOf f.st).value ((s.src l f.st f.a).toNat % 2 ^ 16) =
      (ffmtOf f.st).value ((s.src l f.st f.a).extractLsb' (16 * 0) 16).toNat := by
    rw [toNat_half, Nat.mul_zero, pow_zero, Nat.div_one]
  have high : (ffmtOf f.st).value ((s.src l f.st f.a).toNat / 2 ^ 16) =
      (ffmtOf f.st).value ((s.src l f.st f.a).extractLsb' (16 * 1) 16).toNat := (value_half (packedFloat_iff.1 hs) _ 1).symm
  simp only [resFcvt, ht, if_true, low, high, ofBits_halves (round_half_lt ht ..) (round_half_lt ht ..), r]

/-- Two words become halves side by side (R251). -/
theorem resPk2_eq {f : OpA} (s : State) (l : Nat) (types : f.ty ∈ [Ty.s16x2, .u16x2, .f16x2, .bf16x2]) :
    let r (i : Nat) : Res Nat :=
      let x := if i = 0 then f.a else f.b
      if f.ty.packedFloat then (ffmtOf f.ty).round f.rnd (fmtF32.value (s.src l .f32 x).toNat)
      else storeInt 16 (f.ty == .s16x2) true (s.src32 l x).toInt
    resPk2 f s l =
      ⟨(BitVec.ofNat 16 (r 1).val ++ BitVec.ofNat 16 (r 0).val : BitVec 32).setWidth 64, (r 0).fl ||| (r 1).fl⟩ := by
  intro r
  cases float : f.ty.packedFloat with
  | true =>
    simp only [resPk2, float, if_true, ofBits_halves (round_half_lt float ..) (round_half_lt float ..), r, fval]
    rfl
  | false =>
    have sign : signedTy f.ty = (f.ty == .s16x2) := by
      simp only [List.mem_cons, List.not_mem_nil, or_false] at types
      rcases types with ty | ty | ty | ty <;> rw [ty] <;> rfl
    simp only [resPk2, float, Bool.false_eq_true, if_false, valOf_src_s32, sign,
      ofBits_halves (storeInt_lt ..) (storeInt_lt ..), r]
    rfl

/-- A half is widened by its type (R251). -/
theorem resUpk2_eq {f : OpA} (s : State) (l : Nat) (types : f.ty ∈ [Ty.s16x2, .u16x2, .f16x2, .bf16x2]) :
    let h := ((s.src l f.ty f.a).extractLsb' (16 * f.opx.toNat) 16).toNat
    resUpk2 f s l =
      if f.ty.packedFloat then ⟨BitVec.ofNat 64 (fmtF32.round .rn ((ffmtOf f.ty).value h)).val, 0⟩
      else if f.ty = .s16x2 then ⟨((BitVec.ofNat 16 h).signExtend 32).setWidth 64, 0⟩ else ⟨BitVec.ofNat 64 h, 0⟩ := by
  intro h
  have small : h < 2 ^ 16 := BitVec.isLt _
  have half : (tA f s l).toNat / 2 ^ (16 * f.opx.toNat) % 2 ^ 16 = h := (toNat_half ..).symm
  simp only [resUpk2, half]
  simp only [List.mem_cons, List.not_mem_nil, or_false] at types
  rcases types with ty | ty | ty | ty
  case inl =>
    simp only [ty, Ty.packedFloat, Bool.false_eq_true, if_false, if_true]
    exact congrArg plain (ofBits_signed_half small)
  case inr.inl =>
    simp only [ty, Ty.packedFloat, Bool.false_eq_true, if_false, reduceCtorEq]
    exact congrArg plainN (bitsInt_unsigned_half small)
  all_goals
    simp only [ty, Ty.packedFloat, if_true]
    rfl

/-! ## The statement -/

/-- A packed word of FCVT converts from a packed format (R250). -/
theorem packed_of_wfA {f : OpA} {r : RoleA} (w : wfA f r = true) (ht : f.ty.packedFloat = true)
    (hr : r.opx = decide (f.stOk ∧ ((f.ty.scalarFloat ∧ f.st.scalarFloat) ∨ (f.ty.packedFloat ∧ f.st.packedFloat)))) :
    f.st.packedFloat = true := by
  have legal := opx_of_wfA w
  rw [hr, decide_eq_true_eq] at legal
  rcases legal.2 with ⟨scalar, -⟩ | ⟨-, packed⟩
  · rcases packedFloat_iff.1 ht with ty | ty <;> simp [ty, Ty.scalarFloat] at scalar
  · exact packed

/-- Settles O10: each word's result as its formula; a packed result's halves have their format's width. -/
theorem conversionsComplete : Obligations.ConversionsComplete := by
  unfold Obligations.ConversionsComplete
  intro f out fmt half both
  refine ⟨yields_of (fn := resCvt) (fun _ => rfl) rfl rfl rfl (fun s b h l => ?cvtAlike) fun _ _ _ => rfl,
    yields_of (fn := resFcvt) (fun _ => rfl) rfl rfl rfl (fun s b h l => ?fcvtAlike) fun w s l => ?fcvt,
    yields_of (fn := resPk2) (fun _ => rfl) rfl rfl rfl (fun s b h l => ?pk2Alike)
      fun w s l => resPk2_eq s l (types_of_wfA w),
    yields_of (fn := resUpk2) (fun _ => rfl) rfl rfl rfl (fun s b h l => ?upk2Alike)
      fun w s l => resUpk2_eq s l (types_of_wfA w),
    yields_of (fn := resE10enc) (fun _ => rfl) rfl rfl rfl (fun s b h l => ?e10encAlike) fun _ _ _ => rfl,
    yields_of (fn := resE10dec) (fun _ => rfl) rfl rfl rfl (fun s b h l => ?e10decAlike) fun w s l => ?e10dec,
    yields_of (fn := resRnsenc) (fun _ => rfl) rfl rfl rfl (fun s b h l => ?rnsencAlike) fun _ _ _ => rfl,
    yields_of (fn := resRnsdec) (fun _ => rfl) rfl rfl rfl (fun s b h l => ?rnsdecAlike) fun _ _ _ => rfl,
    yields_of (fn := resQnt) (fun _ => rfl) rfl rfl rfl (fun s b h l => ?qntAlike) fun w s l => ?qnt,
    yields_of (fn := resDqnt) (fun _ => rfl) rfl rfl rfl (fun s b h l => ?dqntAlike) fun w s l => ?dqnt⟩
  case cvtAlike => simp only [resCvt, h.src]
  case fcvtAlike => simp only [resFcvt, h.src]
  case pk2Alike => simp only [resPk2, h.src]
  case upk2Alike => simp only [resUpk2, tA_alike h]
  case e10encAlike => simp only [resE10enc, h.src]
  case e10decAlike => simp only [resE10dec, nA_alike h]
  case rnsencAlike => simp only [resRnsenc, h.src32]
  case rnsdecAlike => simp only [resRnsdec, nA_alike h]
  case qntAlike => simp only [resQnt, tA_alike h, nB_alike h]
  case dqntAlike => simp only [resDqnt, nA_alike h, nB_alike h]
  case fcvt =>
    cases packed : f.ty.packedFloat with
    | true =>
      simp only [if_true]
      exact resFcvt_packed packed (packed_of_wfA w packed rfl) s l
    | false =>
      simp only [resFcvt, packed, Bool.false_eq_true, if_false]
      rfl
  case e10dec =>
    simp only [half, toNat_src32_low]
    rfl
  case qnt =>
    simp only [half, toNat_src32_low, ← ofBits_bitsInt_32]
    rfl
  case dqnt =>
    simp only [half, toNat_src32_low, ← signedOf_setWidth]
    rfl

end Sys2Proof.Machine
end

section
/-! PROOF. Graph words and the privilege of words (R300 to R305, R350, R361 to R368): what each issues as, and the trap that
a word takes where its context may not run it. -/

namespace Sys2Proof.Machine
open Sys2Proof.Safety

/-! ## Graph words (R300 to R305) -/

/-- With room among the warp's operations, a graph word's operation enters and captures the warp's writes. -/
theorem graphIssue_room {b : State} {o : EngOp} {tok : Dst} (room : (b.opsOf o.warp).length < 32) :
    b.graphIssue o tok = .done ((((({ b.bump with ops := b.ops ++ [o] }.pin o.root).await o.id tok 1 0).updWay
      (fun y => { y with blocks := distinct (y.blocks ++ [anyBlock]) })).capture o.id).advance) :=
  if_neg (Nat.not_le.mpr room)

theorem acts_graph {i : Instr} {f : OpT} {go : State → Eff} {cond : State → Prop} {o : State → EngOp}
    (he : ∀ s, exec i s = .next (s.engine i f go)) (h : ∀ b, cond b → go b = b.graphIssue (o b) f.tok) :
    Acts i (fun b => oldestCode b f.com ∧ cond b ∧ (b.opsOf (o b).warp).length < 32)
      (fun b => (((({ b.bump with ops := b.ops ++ [o b] }.pin (o b).root).await (o b).id f.tok 1 0).updWay
        (fun y => { y with blocks := distinct (y.blocks ++ [anyBlock]) })).capture (o b).id).advance) :=
  acts_of_engine he fun b ⟨holds, room⟩ => (h b holds).trans (graphIssue_room room)

/-- LAUNCH and EMIT take a positive count. -/
theorem counted_eq {b : State} {f : OpT} (func : Nat) (h : 1 ≤ b.u32Of f.c ∧ b.u32Of f.c < 2 ^ 31) :
    b.counted f func = b.graphIssue
      { b.newOp 0xD func f with a := b.pairVal f.a, b := b.pairVal f.b, c := b.u32Of f.c } f.tok :=
  if_neg (by omega)

theorem schedPriv_iff (b : State) :
    b.schedPriv = true ↔ b.inHandler = true ∨ (b.tenant b.wWarp.tenant).sched = true := by
  simp [State.schedPriv]

/-- Settles O25: `acts_graph` for each word, past its count or its privilege. -/
theorem graphWordsComplete : Obligations.GraphWordsComplete := by
  unfold Obligations.GraphWordsComplete
  intro f pair word put enters count may
  have may_run {b : State} (h : may b) : b.schedPriv = true := (schedPriv_iff b).mpr h
  exact ⟨acts_graph (fun _ => rfl) fun _ => counted_eq 0, acts_graph (fun _ => rfl) fun _ => counted_eq 1,
    acts_graph (fun _ => rfl) fun _ _ => rfl, acts_graph (fun _ => rfl) fun _ h => if_pos (may_run h),
    acts_graph (fun _ => rfl) fun _ h => if_pos (may_run h), acts_graph (fun _ => rfl) fun _ h => if_pos (may_run h)⟩

/-! ## Privilege (R300, R350, R361 to R368) -/

/-- A word outside regions, in its warp's oldest way, traps as its own checks say. -/
theorem traps_of_oldest {i : Instr} {c : Common} {eff : State → Eff} {cond : State → Prop} {t : State → Trap}
    (he : ∀ s, exec i s = .next (s.issue i (fun s => s.noRegion c (fun s => s.oldestOnly eff))))
    (h : ∀ b, cond b → eff b = .trap (t b)) : Traps i (fun b => oldestCode b c ∧ cond b) t :=
  traps_of he fun b _ ⟨old, holds⟩ => (oldest_eq old).trans (h b holds)

/-- A tree word that its context may not run takes privilege. -/
theorem traps_of_tree {i : Instr} {f : OpM} {ok : State → Bool} {go : State → Eff} {priv : State → Prop}
    (he : ∀ s, exec i s = s.treeInstr i f ok go) (h : ∀ b, ¬ priv b → ok b = false) :
    Traps i (fun b => oldestCode b f.com ∧ ¬ priv b) (fun b => { cause := 0x14, lanes := b.faulting f.com }) :=
  traps_of_oldest he fun b out => if_neg (by simp [h b out])

/-- A return outside the handler takes privilege (R365). -/
theorem traps_of_tret {i : Instr} {f : OpM} {kill : Bool} (he : ∀ s, exec i s = s.tret i f kill) :
    Traps i (fun b => oldestCode b f.com ∧ ¬ b.inHandler = true) (fun b => { cause := 0x14, lanes := b.active }) :=
  traps_of he fun b _ ⟨old, out⟩ => by
    simp only [Bool.eq_false_of_not_eq_true out, Bool.not_false, if_true]
    exact oldest_eq old

/-- A handler-only CSR that exists as the word reads or writes it takes privilege elsewhere (R361, R364). -/
theorem csrCause_privilege {b : State} {f : OpM} {write : Bool} {c : Csr} (named : csrOf (f.off.toNat % 4096) = some c)
    (hand : c.hand = true) (size : c.wide = (f.size == .double))
    (may : write = true → c.rw = true ∧ (c.lane && f.com.u) = false) (out : ¬ b.inHandler = true) :
    b.csrCause f write = 0x14 := by
  have legal : (c.wide != (f.size == .double) || (write && (!c.rw || (c.lane && f.com.u)))) = false := by
    cases write with
    | false => simp [size]
    | true => simp [size, (may rfl).1, (may rfl).2]
  simp only [State.csrCause, named, legal, Bool.false_eq_true, if_false, hand, Bool.eq_false_of_not_eq_true out,
    Bool.not_false, Bool.and_true, if_true]

/-- Settles O51: each word's check of its privilege comes once regions and ways have let it through. -/
theorem privilegedWordsTrap : Obligations.PrivilegedWordsTrap := by
  unfold Obligations.PrivilegedWordsTrap
  intro f g only handler trees bad
  have outside {b : State} (h : ¬ handler b) : b.inHandler = false := Bool.eq_false_of_not_eq_true h
  have unprivileged (b : State) (h : ¬ trees b) : b.treePriv = false := Bool.eq_false_of_not_eq_true h
  refine ⟨traps_of_tret fun _ => rfl, traps_of_tret fun _ => rfl,
    traps_of_oldest (fun _ => rfl) fun b out => ?fltq, traps_of_oldest (fun _ => rfl) fun b out => ?pgreq,
    traps_of_tree (fun _ => rfl) fun b out => ?rootsw, traps_of_tree (fun _ => rfl) fun b out => ?fork,
    traps_of_tree (fun _ => rfl) fun b out => ?snap, traps_of_tree (fun _ => rfl) fun b out => ?drop,
    traps_of_tree (fun _ => rfl) unprivileged, traps_of_tree (fun _ => rfl) fun _ => outside,
    traps_of_tree (fun _ => rfl) fun _ => outside, traps_of_oldest (fun _ => rfl) fun _ out => if_neg out,
    traps_of_oldest (fun _ => rfl) fun _ out => if_neg out, traps_of_oldest (fun _ => rfl) fun _ out => if_neg out,
    fun c named hand size => ⟨traps_of_oldest (fun _ => rfl) fun b out => ?csrr,
      fun rw lane => traps_of_oldest (fun _ => rfl) fun b out => ?csrw⟩⟩
  case fltq => simp only [outside out, Bool.not_false, if_true]
  case pgreq => simp only [outside out, Bool.not_false, if_true]
  case rootsw | fork | snap | drop => simp only [unprivileged b out, Bool.false_and]
  case csrr =>
    have cause : b.csrCause f false = 0x14 := csrCause_privilege named hand size (fun h => nomatch h) out
    simp [cause, bad]
  case csrw =>
    have cause : b.csrCause f true = 0x14 := csrCause_privilege named hand size (fun _ => ⟨rw, lane⟩) out
    simp [cause, bad]

/-! ## Tree words (R350 to R356) -/

/-- A tree word with its privilege sends its request, whose destination waits for it. -/
theorem acts_tree {i : Instr} {f : OpM} {ok : State → Bool} {priv : State → Prop} {k : State → ReqKind} {o : Order}
    {as : State → List Acc} {n : Nat} {ls : State → Lanes}
    (he : ∀ s, exec i s = s.treeInstr i f ok (fun s => s.treeReq f (k s) o (as s) n (ls s)))
    (h : ∀ b, priv b → ok b = true) :
    let r (b : State) : Req :=
      { id := 0, warp := 0, kind := k b, scope := .device, order := o, accs := as b, dst := f.dst, u := f.com.u }
    Acts i (fun b => oldestCode b f.com ∧ priv b ∧ goes b (r b))
      (fun b => ((sent b (r b)).await b.clk.fresh f.dst n (ls b)).advance) :=
  acts_of he fun b _ ⟨old, may, go⟩ => by
    rw [oldest_eq old, if_pos (h b may)]
    exact submit_goes (t := fun u => (u.await b.clk.fresh f.dst n (ls b)).advance) go

/-! ## Replies (R366, R368) -/

/-- What an engine or the dispatcher makes of its entry's reply (R366, R370). -/
theorem engineReply_eq (s : State) (o : EngOp) (reply : Nat) :
    s.engineReply o reply =
      if o.cls = 0xE ∧ o.func = 0 then { s with ops := s.ops.filter (fun (x : EngOp) => x.id != o.id) }
      else if o.cls = 0xE then
        s.updOp o.id (fun e => { e with susp := false, susc := 0, slot := none, cancel := decide (reply % 256 ≠ 0) })
      else if reply % 256 = 0 then s.updOp o.id (fun e => { e with susp := e.attn && e.started, susc := 0, slot := none })
      else s.endOp o.id (if o.cancel then 1 else if reply % 256 = 4 then 4 else 3) := by
  unfold State.engineReply
  by_cases cls : o.cls = 0xE <;> by_cases func : o.func = 0 <;> simp only [cls, func, if_true, if_false, and_self, and_true,
    and_false]

section
variable {s : State} {tenant entry : Nat} (reply : Word)

theorem fqPending_eq_false (h : ∀ w ∈ s.writes, w.line = lineOf (s.fqAt tenant entry) → 2 ^ 65 ≤ w.src → w.done = true) :
    s.fqPending (lineOf (s.fqAt tenant entry)) = false := by
  rw [State.fqPending, List.any_eq_false]
  intro w hw
  simp only [Bool.and_eq_true, beq_iff_eq, decide_eq_true_eq, Bool.not_eq_true', not_and, Bool.not_eq_false, and_imp]
  exact h w hw

variable (quiet : s.fqPending (lineOf (s.fqAt tenant entry)) = false)
include quiet

/-- An entry that is valid is answered: its reply is written and VALID cleared. -/
theorem execFaultReply_valid (valid : (s.cur (s.fqAt tenant entry + 31)).getLsbD 7 = true)
    (inside : entry < (s.tenant tenant).fqcap) :
    execFaultReply tenant entry reply s = .next (s.homeStore (2 ^ 65 + 1) none (s.fqAt tenant entry + 31)
      ((s.cur (s.fqAt tenant entry + 31) &&& 0x7F) :: leBytes 4 reply.toNat)) := by
  simp only [execFaultReply, quiet, valid, Bool.false_eq_true, if_false, if_true]
  exact onlyIf_eq_next _ _ (decide_eq_true inside)

/-- Once it is not, the engine that waits on it takes the reply. -/
theorem execFaultReply_taken (clear : (s.cur (s.fqAt tenant entry + 31)).getLsbD 7 = false) {o : EngOp}
    (found : s.ops.find? (fun x => x.tenant == tenant && x.slot == some entry) = some o) :
    execFaultReply tenant entry reply s = .next (s.engineReply o (s.curNat (s.fqAt tenant entry + 32) 4)) := by
  simp only [execFaultReply, quiet, clear, Bool.false_eq_true, if_false, found]

end

/-- The response to a group of page requests (R368). -/
theorem execPageResponse_found {s : State} {i code : Nat} {g : PrGroup} (found : s.prgroups.find? (fun x => x.id == i) = some g)
    (hc : code ≤ 2) (up : s.link.down = false) (carries : s.carries g.tenant = true) :
    execPageResponse i code s =
      let t := (({ s with prgroups := s.prgroups.filter (fun x => x.id != i) }).updTenant g.tenant (fun q =>
        { q with prout := q.prout - g.reqs.length, pri := q.pri && code != 2 })).wake g.waiter code
      .next (t.roomFor g.tenant t.waits) := by
  simp [execPageResponse, found, Nat.not_lt.mpr hc, up, carries]

/-! ## System words (R361 to R368) -/

/-- TRET leaves the handler once nothing of the handler's own is under way (R365). -/
theorem acts_tret {i : Instr} {f : OpM} {kill : Bool} (he : ∀ s, exec i s = s.tret i f kill) :
    Acts i (fun b => b.inHandler = true ∧ b.ganged = true ∧ b.handlerBusy = false)
      (fun b => b.leaveHandler b.who.warp kill) :=
  acts_of he fun b _ ⟨handler, whole, idle⟩ => by simp [handler, whole, idle]

/-- A root of its own tenant may be copied or dropped, a fork's into a descriptor of its own tenant too (R353). -/
theorem rootcp_may {b : State} {f : OpM} {mode : Nat} (may : b.treePriv = true)
    (root : (b.root (b.u32Of f.b)).valid = true → b.foreign (b.root (b.u32Of f.b)).asd = false)
    (mine : mode = 0 → b.foreign (b.u32Of f.a) = false) :
    (b.treePriv && !((b.root (b.u32Of f.b)).valid && b.foreign (b.root (b.u32Of f.b)).asd) &&
      !(mode == 0 && b.foreign (b.u32Of f.a))) = true := by
  simp only [may, Bool.true_and, Bool.and_eq_true, Bool.not_eq_true', Bool.and_eq_false_imp, beq_iff_eq]
  exact ⟨root, mine⟩

/-- Settles O24: each word past its privilege, each reply once its entry's line is quiet. A fault of the dispatcher waits as an
operation of class 0xE by the model's choice (log 90). -/
theorem systemWordsComplete : Obligations.SystemWordsComplete := by
  unfold Obligations.SystemWordsComplete
  intro f word pair tree own ownRoot csr lanes
  refine ⟨acts_tree (fun _ => rfl) fun b ⟨may, mine⟩ => ?rootsw, acts_tree (fun _ => rfl) fun b ⟨may, root, mine⟩ =>
    rootcp_may may root fun _ => mine,
    acts_tree (fun _ => rfl) fun b ⟨may, root⟩ => ?snap, acts_tree (fun _ => rfl) fun b ⟨may, root⟩ => ?drop,
    acts_tree (fun _ => rfl) fun _ may => may, acts_tree (fun _ => rfl) fun _ may => may,
    acts_tree (fun _ => rfl) fun _ may => may, acts_of (fun _ => rfl) fun b _ old => oldest_eq old,
    acts_of (fun _ => rfl) fun b _ ⟨old, may⟩ => ?csrr, acts_of (fun _ => rfl) fun b _ ⟨old, may⟩ => ?csrw,
    acts_of (fun _ => rfl) fun b _ ⟨old, handler⟩ => ?fltq, acts_of (fun _ => rfl) fun b _ ⟨old, handler⟩ => ?pgreq,
    acts_tret fun _ => rfl, acts_tret fun _ => rfl, fun i code g s found hc up carries => ?response, ?reply⟩
  case rootsw =>
    have mine' : b.foreign (b.u32Of f.a) = false := mine
    simp [may, mine']
  case snap | drop => exact rootcp_may may root fun copies => nomatch copies
  case csrr | csrw =>
    rw [oldest_eq old]
    simp only [may, ne_eq, not_true_eq_false, if_false]
    rfl
  case fltq =>
    rw [oldest_eq old]
    simp only [handler, Bool.not_true, Bool.false_eq_true, if_false]
  case pgreq =>
    rw [oldest_eq old]
    simp only [handler, Bool.not_true, Bool.false_eq_true, if_false]
    by_cases opened : f.cache.val < 2
    · have more : (!decide (2 ≤ f.cache.val)) = true := by simpa using opened
      rw [if_pos more, if_pos opened]
    · have last : ¬(!decide (2 ≤ f.cache.val)) = true := by simpa using opened
      rw [if_neg last, if_neg opened]
      by_cases down : b.link.down = true
      · rw [if_pos down]
        exact if_pos down
      rw [if_neg down]
      refine (if_neg down).trans ?_
      by_cases many : min 64 (b.tenant b.wWarp.tenant).prallow < (distinct ((distinct (b.wWarp.group ++
          (lanesOf (b.executing f.com)).map (fun l => ((b.src64 l f.a).toNat / 4096, f.cache.val % 2 == 1)))).map
            (fun p => p.1))).length
      · rw [if_pos many]
        exact if_pos many
      rw [if_neg many]
      refine (if_neg many).trans ?_
      cases enabled : (b.tenant b.wWarp.tenant).pri with
      | false => exact if_pos (congrArg Bool.not enabled)
      | true =>
        have open' : ¬(!(b.tenant b.wWarp.tenant).pri) = true := by simp [enabled]
        exact if_neg open'
  case response => exact execPageResponse_found found hc up carries
  case reply =>
    intro tenant entry reply s at' r quiet
    have idle : s.fqPending (lineOf (s.fqAt tenant entry)) = false := fqPending_eq_false quiet
    exact ⟨execFaultReply_valid reply idle, fun o clear found =>
      (execFaultReply_taken reply idle clear found).trans (congrArg _ (engineReply_eq s o _))⟩

end Sys2Proof.Machine
end


section
/-! PROOF. Tile instructions (R264, R384): an operand byte that holds poison as the word issues makes it trap, which the
statement leaves out of its conditions; where none does, the word issues its operation. -/

namespace Sys2Proof.Machine
open Sys2Proof.Safety

/-! ## A tile word whose operands hold no poison (R264) -/

section
variable (f : OpT) (k w : Nat) (b : State)

/-- Where the operand of SA lies. -/
def tileSa : Nat := addr64 ((b.pairVal f.a : Int) + (if k = 6 then 0 else 256 * bitsOf f.opf.toNat 18 6 : Nat))

/-- Where the operand of SB lies. -/
def tileSb : Nat := addr64 ((b.pairVal f.b : Int) + (if k = 6 then 0 else 256 * bitsOf f.opf.toNat 12 6 : Nat))

/-- The words with a column mask. -/
def tileMasked : Bool := k == 0 || k == 1 || k == 2 || k == 5

def tileMask : Nat := if tileMasked k then regsNat (4 * bitsOf f.opf.toNat 24 4) 8 (fun n => b.wWarp.getG b.who.way true n) else 0

/-- The operation of the word. -/
def tileOp : EngOp := { b.newOp 9 k f with
  fmt := w, mask := tileMask f k b, tc := offIn (tileSa f k b), ta := if k = 2 then 0 else offIn (tileSb f k b)
  tx := 16 * bitsOf f.opf.toNat 0 11 + (if k = 1 then offIn (tileSb f k b) else 0), tacc := f.opf.toNat.testBit 29
  sdst := tileWrites k f.opf.toNat (fmtOf w) (offIn (tileSa f k b)) (tileMask f k b) }

/-- The format word of the word's warp, 0 for TTRN (R264). -/
def tileVote : Except Trap Nat :=
  if k = 6 then (if b.ganged then .ok 0 else .error { cause := 0x05, lanes := b.active }) else b.vote f

/-- Its mask registers and its token register. -/
def tileNamed : List Reg :=
  (if tileMasked k then (List.range 8).map (fun j => Reg.g (4 * bitsOf f.opf.toNat 24 4 + j)) else []) ++ Dst.regsFrom f.tok 1

/-- Every check of the word passes, some column is named, and no operand byte holds poison (R264, R384). -/
structure TileClear : Prop where
  vote : tileVote f k b = .ok w
  aligned : ¬(tileSa f k b % 16 ≠ 0 ∨ (k ≠ 2 ∧ tileSb f k b % 16 ≠ 0))
  inside : (outsideScr (tileSa f k b) (tileSpans k f.opf.toNat (fmtOf w) (1024 * (fmtOf w).m)).1 ||
    (k != 2 && outsideScr (tileSb f k b) (tileSpans k f.opf.toNat (fmtOf w) (1024 * (fmtOf w).m)).2)) = false
  free : (tileNamed f k).any (b.busyReg b.active) = false
  columns : (tileMasked k && tileMask f k b == 0) = false
  clean : b.tilePoison (tileOp f k w b) = false

end

/-- A tile word issues its operation where its operands hold no poison. -/
theorem tile_launches {i : Instr} {f : OpT} {k : Nat} (w : Nat) (he : ∀ s, exec i s = .next (s.tile i f k)) :
    Launches i f (TileClear f k w) (tileOp f k w) :=
  launches_of he fun b clear => by
    obtain ⟨vote, aligned, inside, free, columns, clean⟩ := clear
    unfold tileVote at vote
    simp only [vote]
    exact (if_neg aligned).trans ((if_neg (Bool.eq_false_iff.mp inside)).trans ((if_neg (Bool.eq_false_iff.mp free)).trans
      ((if_neg (Bool.eq_false_iff.mp columns)).trans (if_neg (Bool.eq_false_iff.mp clean)))))

/-! ## The counterexample -/

/-- A part whose first warp runs its lane 0 alone, with operands at the start of the scratchpad. -/
def oneLane : State :=
  ({ State.reset with clk := { time := 1000 } }.withFetchWord 96 0).updWarp 0 (fun w => { w with arch := { w.arch with
    g := [(3, 0xFE000000), (5, 0xFE000000)]
    slices := { pc := 0x200040, mask := 1, fin := false } :: List.replicate 7 { pc := 0x200040, mask := 0, fin := true }
    gangs := [{ slices := 1 }] } })

/-- The same part with poison in the first 8 bytes of the scratchpad (R384). -/
def poisonedScratch : State := oneLane.updTeam 0 (fun t => { t with pois := [(0, true)] })

/-- TTRN from the pair of g4 to the pair of g2. -/
def transposeWord : OpT := ⟨⟨false, 0, false⟩, .device, .g 8, .g 2, .g 4, .v 0, 0⟩

theorem ready_transposeWord : Ready (.ttrn transposeWord) poisonedScratch :=
  ⟨by decide, by unfold Present; decide +kernel, _, rfl, by decide +kernel, .inr (by decide +kernel)⟩

/-- TTRN consumes the poison: it traps, and no operation issues. -/
theorem exec_transposeWord : ∃ t, exec (.ttrn transposeWord) poisonedScratch = .next t ∧ t.ops = [] :=
  ⟨_, rfl, by decide +kernel⟩

/-- Refutes O20: with poison in an operand in scratchpad, which no condition of the statement excludes, a tile word takes
trap 0x0F (R384) and issues nothing; with that condition `tile_launches` holds. -/
theorem not_tileWordsComplete : ¬ Obligations.TileWordsComplete := by
  unfold Obligations.TileWordsComplete
  intro h
  obtain ⟨-, -, -, -, -, -, ⟨launches, -⟩, -⟩ := h transposeWord 0
  have run := launches poisonedScratch ready_transposeWord
    ⟨⟨by unfold outsideRegions; decide +kernel, by decide +kernel⟩, ⟨⟨by rw [if_pos rfl]; decide +kernel, by decide +kernel,
      .inr (by decide +kernel), by decide +kernel, .inr (by decide +kernel), by decide +kernel⟩, by decide⟩,
      ⟨by decide +kernel, ⟨.inl (by decide +kernel), by decide +kernel⟩, fun hang => absurd hang.1 (by decide +kernel)⟩⟩
  obtain ⟨t, run', none⟩ := exec_transposeWord
  obtain rfl := Host.Outcome.next.inj (run.symm.trans run')
  revert none
  decide +kernel

end Sys2Proof.Machine
end


section
/-! PROOF. Taking a trap and returning from it (R357 to R360, R365): what entering the handler saves and leaves, what
squashing the younger ways drops, and what the return restores. -/

namespace Sys2Proof.Machine
open Sys2Proof.Safety

/-! ## Scalar registers 48 to 63 (R357) -/

/-- A table with g48 to g63 set from a list of values. -/
def setTop (g : Tab Word) (f : Nat → Word) : Tab Word := (List.range 16).foldl (fun t i => t.set 0 (48 + i) (f i)) g

theorem get_setTop (g : Tab Word) (f : Nat → Word) (n : Nat) :
    (setTop g f).get 0 n = if 48 ≤ n ∧ n < 64 then f (n - 48) else g.get 0 n := by
  have top : setTop g f = ((List.range 16).map (48 + ·)).foldl (fun t k => t.set 0 k (f (k - 48))) g := by
    simp [setTop, List.foldl_map]
  have mem : n ∈ (List.range 16).map (48 + ·) ↔ 48 ≤ n ∧ n < 64 := by
    simp only [List.mem_map, List.mem_range]
    constructor
    · rintro ⟨i, hi, rfl⟩; omega
    · exact fun h => ⟨n - 48, by omega, by omega⟩
  rw [top, get_foldl_set 0 (fun k => f (k - 48))]
  simp only [mem]

/-! ## Slices built from an index -/

theorem getD_map_range {α : Type} (f : Nat → α) (d : α) {n i : Nat} (h : i < n) :
    ((List.range n).map f).getD i d = f i := by
  simp [List.getD, h]

/-- No lane has ended: the slices stay. -/
theorem killLanes_zero (sl : List Slice) : killLanes 0 sl = sl := by
  refine List.ext_getElem (by simp [killLanes]) fun i h h' => ?_
  have no_lane : sliceBits (0#32) i = 0#4 := by simp [sliceBits]
  simp [killLanes, no_lane, h']

/-! ## Squashing younger ways (R313) -/

theorem find_filter_notAbove {α : Type} (t : Tab α) (k : Nat) : Tab.find (t.filter (fun p => !decide (k < p.1))) k = t.find k := by
  induction t with
  | nil => rfl
  | cons p r ih =>
    obtain ⟨j, x⟩ := p
    by_cases above : k < j
    · have other : ¬ j = k := by omega
      simpa [above, Tab.find, other] using ih
    · by_cases same : j = k <;> simp [above, Tab.find, same, ih]

@[simp] theorem Warp.archOf_squashAbove (w : Warp) (k : Nat) : (w.squashAbove k).archOf k = w.archOf k := by
  unfold Warp.squashAbove Warp.archOf
  cases h : w.loop with
  | none => simp [h]
  | some l => simp only [find_filter_notAbove]

/-! ## The handler's state (R357) -/

/-- The record of a trap. -/
def Warp.record (w : Warp) (k sl : Nat) (t : Trap) (hvec : Double) : TrapRec where
  cause := t.cause
  code := t.code
  spec := match w.way? k with | some y => y.late &&& ((w.archOf k).gang sl).slices != 0 | none => false
  tpc := t.at'.getD ((w.archOf k).slice sl).pc
  tepc := t.tepc ((w.archOf k).slice sl).pc
  tmemb := t.memb.getD (t.at'.getD ((w.archOf k).slice sl).pc)
  tmask := t.lanes
  taddr := t.addr
  tkind := t.kind
  way := k
  slices := (w.archOf k).slices
  gangs := (w.archOf k).gangs
  gang := sl
  p := (w.archOf k).p
  gp := (w.archOf k).gp
  fstat := (w.archOf k).fstat
  g := (List.range 16).map (fun i => (w.archOf k).g.get 0 (48 + i))
  fwd := hvec == 0

/-- A slice of the trapping gang as the handler starts: its faulting lanes at HVEC. -/
def Trap.start (t : Trap) (hvec : Double) (i : Nat) : Slice := ⟨hvec, sliceBits t.lanes i, [], sliceBits t.lanes i == 0⟩

/-- What the handler starts with in place of the state saved. -/
def Arch.handled (a : Arch) (sl : Nat) (t : Trap) (hvec : Double) : Arch :=
  { a with
    slices := (List.range a.slices.length).map (fun i =>
      if (a.gang sl).slices.getLsbD i then t.start hvec i else a.slice i)
    gangs := [{ slices := (a.gang sl).slices &&&
      (List.range 8).foldl (fun m i => if sliceBits t.lanes i = 0 then m else m ||| bit8 i) (0 : BitVec 8) }]
    p := [], gp := 0, fstat := 0, g := setTop a.g (fun _ => 0) }

@[simp] theorem Warp.trap_enter (w : Warp) (k sl : Nat) (t : Trap) (hvec : Double) :
    (w.enter k sl t hvec).trap = some (w.record k sl t hvec) := rfl

@[simp] theorem Warp.archOf_enter (w : Warp) (k sl : Nat) (t : Trap) (hvec : Double) :
    (w.enter k sl t hvec).archOf k = (w.archOf k).handled sl t hvec := by
  unfold Warp.enter
  rw [Warp.archOf_trap, Warp.archOf_updWay _ _ _ (by exact fun _ => rfl), Warp.archOf_updArch, Warp.archOf_squashAbove]
  rfl

section
variable {w : Warp} (k sl : Nat) (t : Trap) (hvec : Double)

theorem slice_handled (a : Arch) {i : Nat} (h : i < a.slices.length) : (a.handled sl t hvec).slice i =
    if (a.gang sl).slices.getLsbD i then t.start hvec i else a.slice i :=
  getD_map_range _ _ h

theorem getD_record_g {i : Nat} (h : i < 16) : (w.record k sl t hvec).g.getD i 0 = (w.archOf k).g.get 0 (48 + i) :=
  getD_map_range _ _ h

theorem getV_enter (user : w.trap = none) (n l : Nat) :
    (w.enter k sl t hvec).getV k true n l = if n < 32 then 0 else w.getV k true n l := by
  simp only [Warp.getV, Warp.trap_enter, Warp.archOf_enter, user, Bool.true_and, decide_eq_true_eq]
  rfl

theorem getG_enter (user : w.trap = none) (n : Nat) :
    (w.enter k sl t hvec).getG k true n = if 48 ≤ n ∧ n < 64 then 0 else w.getG k true n := by
  simp only [Warp.getG, Warp.trap_enter, Warp.archOf_enter, user, Bool.not_true, Bool.false_and, Bool.false_eq_true, if_false,
    Arch.handled, get_setTop]

theorem getP_enter (n l : Nat) : (w.enter k sl t hvec).getP k true n l = (n == 0) := by
  simp [Warp.getP, Arch.handled]

theorem getGp_enter (n : Nat) : (w.enter k sl t hvec).getGp k true n = (n == 0) := by
  simp [Warp.getGp, Arch.handled]

end

/-! ## The state as the handler starts -/

/-- A request of a way younger than `k` of warp `u`: squashing takes it away. -/
def Req.squashed (u k : Nat) (r : Req) : Bool := r.warp == u && decide (k < r.way)

/-- Only captured requests of operations change. -/
def OnlyCaught (s n : State) : Prop :=
  n = { s with ops := n.ops } ∧
    ∀ (k : Nat) (o : EngOp), n.ops[k]? = some o → ∃ p : EngOp, s.ops[k]? = some p ∧ o = { p with caught := o.caught }

theorem OnlyCaught.refl (s : State) : OnlyCaught s s := ⟨rfl, fun _ o h => ⟨o, h, rfl⟩⟩

theorem onlyCaught_handOver {s n : State} (h : OnlyCaught s n) (req : Nat) (ids : List Nat) : OnlyCaught s (n.handOver req ids) := by
  obtain ⟨rest, ops⟩ := h
  refine ⟨by rw [rest]; rfl, fun k o found => ?_⟩
  simp only [State.handOver, List.getElem?_map, Option.map_eq_some_iff] at found
  obtain ⟨e, at', rfl⟩ := found
  obtain ⟨p, was, same⟩ := ops k e at'
  refine ⟨p, was, ?_⟩
  split <;> rw [same]

theorem onlyCaught_foldl (s : State) (rs : List Req) (n : State) (h : OnlyCaught s n) :
    OnlyCaught s (rs.foldl (fun s r => s.handOver r.id []) n) := by
  induction rs generalizing n with
  | nil => exact h
  | cons r rs ih => exact ih _ (onlyCaught_handOver h _ _)

/-- Operations that captured a squashed request wait for it no longer. -/
def State.unheld (s : State) (u k : Nat) : State := (s.reqs.filter (Req.squashed u k)).foldl (fun s r => s.handOver r.id []) s

theorem onlyCaught_unheld (s : State) (u k : Nat) : OnlyCaught s (s.unheld u k) := onlyCaught_foldl s _ s (.refl s)

theorem unheld_of_none {s : State} {u k : Nat} (h : s.reqs.filter (Req.squashed u k) = []) : s.unheld u k = s := by
  rw [State.unheld, h]
  rfl

/-- The room in wpend that the squashed requests give back. -/
def State.roomBack (s : State) (u k : Nat) : Nat := ((s.reqs.filter (Req.squashed u k)).filter Req.pends).length

/-- Squashing a warp's younger ways: their requests go, with their room in wpend and their place in what waits. -/
theorem dropWays_eq (s : State) (u k : Nat) : s.dropWays u k = { s with
    warps := s.warps.upd u (fun w => { w with wpend := w.wpend - s.roomBack u k })
    reqs := s.reqs.filter (fun r => !r.squashed u k)
    ops := (s.unheld u k).ops } := by
  obtain ⟨rest, -⟩ := onlyCaught_unheld s u k
  calc s.dropWays u k = { (s.unheld u k).updWarp u (fun w => { w with wpend := w.wpend - s.roomBack u k }) with
        reqs := (s.unheld u k).reqs.filter (fun r => !r.squashed u k) } := rfl
    _ = _ := by rw [rest]; rfl

/-- The issuing gang's warp in its handler. -/
def State.entered (s : State) (t : Trap) : State :=
  s.updWarp s.who.warp (fun w => w.enter s.who.way s.who.slice t (s.tenant s.wWarp.tenant).hvec)

/-- A trap that its warp takes at once, with a handler to enter (R357). -/
theorem trap_enters {s : State} (t : Trap) (user : s.wWarp.trap = none) (old : s.wWarp.young s.who.way = false)
    (sure : ∀ y, s.wWarp.way? s.who.way = some y → y.st ≠ 1) (handler : (s.tenant s.wWarp.tenant).hvec ≠ 0) :
    s.trap t = { (s.entered t).dropWays s.who.warp s.who.way with issuing := false } := by
  refine congrArg (fun n : State => { n with issuing := false }) ?_
  unfold State.trapAt
  have taken : ¬(s.wWarp.young s.who.way || match s.wWarp.way? s.who.way with | some y => y.st == 1 | none => false) = true := by
    rw [old]
    cases h : s.wWarp.way? s.who.way with
    | none => simp
    | some y => simpa using sure y h
  refine (if_neg taken).trans ?_
  rw [show (s.warp s.who.warp).trap = none from user]
  exact if_neg handler

/-! ## The statements -/

/-- Settles O49: the handler's state is `Arch.handled`, the record is `Warp.record`, and squashing takes requests of younger ways
only. -/
theorem trapsEnterTheHandler : Obligations.TrapsEnterTheHandler := by
  unfold Obligations.TrapsEnterTheHandler
  intro s t w n here user old sure handler
  have eq : n = _ := trap_enters t user old sure handler
  rw [dropWays_eq] at eq
  have warp : n.wWarp = { w.enter s.who.way s.who.slice t (s.tenant w.tenant).hvec with wpend := n.wWarp.wpend } := by
    rw [eq]
    obtain ⟨x, found⟩ := Option.isSome_iff_exists.mp here
    simp [State.entered, State.wWarp, State.warp, w, found]
  have arch : n.arch = s.arch.handled s.who.slice t (s.tenant w.tenant).hvec := by
    have way : n.who = s.who := by rw [eq]; rfl
    rw [State.arch, warp, way]
    exact Warp.archOf_enter ..
  have way : n.who = s.who := by rw [eq]; rfl
  have record : n.wWarp.trap = some (w.record s.who.way s.who.slice t (s.tenant w.tenant).hvec) := by
    rw [warp]
    rfl
  obtain ⟨-, caught⟩ := onlyCaught_unheld (s.entered t) s.who.warp s.who.way
  have ops : n.ops = ((s.entered t).unheld s.who.warp s.who.way).ops := by rw [eq]
  have stays {r : Req} (h : r.warp ≠ s.who.warp ∨ r.way ≤ s.who.way) : r.squashed s.who.warp s.who.way = false := by
    rcases h with other | older
    · simp [Req.squashed, other]
    · simp [Req.squashed, Nat.not_lt.mpr older]
  refine ⟨?frame, ?ops, ?none, ?others, ?kept, ⟨_, record, rfl, rfl, rfl, rfl, rfl, rfl, rfl, rfl, rfl, rfl, rfl, rfl, rfl,
    fun k hk => ?scalars, rfl, ?fwd, rfl⟩, ?slices, ?vregs, ?gregs, ?pregs, ?gpregs, ?flags⟩
  case frame => rw [eq]; rfl
  case ops =>
    intro k o found
    rw [ops] at found
    exact caught k o found
  case none =>
    intro all
    have filter : s.reqs.filter (Req.squashed s.who.warp s.who.way) = [] :=
      List.filter_eq_nil_iff.mpr fun r mem => by simp [stays (all r mem)]
    have held : (s.entered t).unheld s.who.warp s.who.way = s.entered t := unheld_of_none filter
    rw [ops, held, eq]
    exact ⟨List.filter_eq_self.mpr fun r mem => by simp [stays (all r mem)], rfl⟩
  case others =>
    intro u other
    rw [eq]
    exact (Tab.find_upd_ne _ _ other).trans (Tab.find_upd_ne _ _ other)
  case kept =>
    intro r mem old
    rw [eq]
    exact List.mem_filter.mpr ⟨mem, by simp [stays old]⟩
  case scalars => 
    rw [getD_record_g _ _ _ _ hk, greg, Warp.getG, user]
  case fwd => simpa [Warp.record] using handler
  case slices =>
    intro i hi
    rw [arch]
    exact slice_handled _ _ _ _ hi
  case vregs => 
    intro k l
    rw [vreg, warp, way]
    exact getV_enter _ _ _ _ user k l
  case gregs => 
    intro k
    rw [greg, warp, way]
    exact getG_enter _ _ _ _ user k
  case pregs => 
    intro k l
    rw [preg, warp, way]
    exact getP_enter _ _ _ _ k l
  case gpregs => 
    intro k
    rw [gpreg, warp, way]
    exact getGp_enter _ _ _ _ k
  case flags => rw [arch]; rfl

/-! ## The return (R365) -/

/-- Who began the warp's loop: its handler or its own code (R318, log 132). -/
def Warp.loopSup (w : Warp) : Option Bool := w.loop.map SpecLoop.sup

@[simp] theorem Warp.loopSup_squashAbove (w : Warp) (k : Nat) : (w.squashAbove k).loopSup = w.loopSup := by
  unfold Warp.squashAbove Warp.loopSup
  cases h : w.loop <;> simp [h]

@[simp] theorem Warp.loopSup_updArch (w : Warp) (k : Nat) (f : Arch → Arch) : (w.updArch k f).loopSup = w.loopSup := by
  unfold Warp.updArch Warp.loopSup
  cases h : w.loop with
  | none => rfl
  | some l => cases hy : Tab.find l.ways k <;> simp [hy]

@[simp] theorem Warp.loopSup_updWay (w : Warp) (k : Nat) (f : Way → Way) : (w.updWay k f).loopSup = w.loopSup := by
  unfold Warp.updWay Warp.loopSup
  cases h : w.loop <;> simp [h]

/-- Entering the handler begins and ends no loop. -/
theorem Warp.loopSup_enter (w : Warp) (k sl : Nat) (t : Trap) (hvec : Double) : (w.enter k sl t hvec).loopSup = w.loopSup := by
  unfold Warp.enter
  change Warp.loopSup (Warp.updWay _ _ _) = _
  rw [Warp.loopSup_updWay, Warp.loopSup_updArch, Warp.loopSup_squashAbove]

theorem Warp.dropSup_eq {w : Warp} (h : w.loopSup ≠ some true) : w.dropSup = w := by
  unfold Warp.dropSup
  unfold Warp.loopSup at h
  cases hl : w.loop with
  | none => rfl
  | some l =>
    have own : ¬ l.sup = true := by simpa [hl] using h
    simp [own]

/-- A slice as the return finds it: those of the trapping gang at TEPC. -/
def TrapRec.resumed (r : TrapRec) (i : Nat) : Slice :=
  if ((r.gangs.find? (fun g => g.slices.getLsbD r.gang)).getD {}).slices.getLsbD i then { r.slices.getD i {} with pc := r.tepc }
  else r.slices.getD i {}

/-- With no lane ended, the return gives the trapping way its saved state, the gangs apart. -/
theorem archOf_leave {w : Warp} {r : TrapRec} (own : w.loopSup ≠ some true) (ends : (w.archOf r.way).exited = 0) :
    ∃ gangs, (w.leave r false).archOf r.way = { w.archOf r.way with
      slices := (List.range r.slices.length).map r.resumed, gangs := gangs, p := r.p, gp := r.gp, fstat := r.fstat, exited := 0
      g := setTop (w.archOf r.way).g (fun i => r.g.getD i 0) } := by
  unfold Warp.leave
  rw [Warp.dropSup_eq own, ends]
  exact ⟨_, (Warp.archOf_updArch _ _ _).trans (by simp only [Bool.false_eq_true, if_false, killLanes_zero, Arch.part]; rfl)⟩

/-- The return leaves the handler. -/
theorem trap_leave (w : Warp) (r : TrapRec) (kill : Bool) : (w.leave r kill).trap = none :=
  Warp.updArch_trap _ _ _

/-- What the statement of the return says of the warp `x` that comes back. -/
structure Restored (w x : Warp) (k sl : Nat) (t : Trap) : Prop where
  trap : x.trap = none
  v : ∀ n l, x.getV k true n l = w.getV k true n l
  g : ∀ n, x.getG k true n = w.getG k true n
  p : ∀ n l, x.getP k true n l = w.getP k true n l
  gp : ∀ n, x.getGp k true n = w.getGp k true n
  fstat : (x.archOf k).fstat = (w.archOf k).fstat
  length : (x.archOf k).slices.length = (w.archOf k).slices.length
  slices : ∀ i, i < (w.archOf k).slices.length → (x.archOf k).slice i =
    if ((w.archOf k).gang sl).slices.getLsbD i then { (w.archOf k).slice i with pc := t.tepc ((w.archOf k).slice sl).pc }
    else (w.archOf k).slice i

/-- In a warp whose loop, if any, is not its handler's, the return restores what entering the handler saved (R365). -/
theorem leave_enter {w : Warp} {k sl : Nat} (t : Trap) (hvec : Double) (own : w.loopSup ≠ some true)
    (user : w.trap = none) (ends : (w.archOf k).exited = 0) :
    Restored w ((w.enter k sl t hvec).leave (w.record k sl t hvec) false) k sl t := by
  obtain ⟨gangs, arch⟩ := archOf_leave (w := w.enter k sl t hvec) (r := w.record k sl t hvec) (by rwa [Warp.loopSup_enter])
    (by rw [show (w.record k sl t hvec).way = k from rfl, Warp.archOf_enter]; exact ends)
  rw [show (w.record k sl t hvec).way = k from rfl, Warp.archOf_enter] at arch
  have back := trap_leave (w.enter k sl t hvec) (w.record k sl t hvec) false
  refine ⟨back, fun n l => ?_, fun n => ?scalars, fun n l => ?_, fun n => ?_, ?_, ?_, fun i hi => ?slices⟩
  case scalars =>
    simp only [Warp.getG, back, user, arch, get_setTop]
    split
    case isTrue top =>
      rw [getD_record_g _ _ _ _ (by omega), show 48 + (n - 48) = n by omega]
    case isFalse low => simp only [Arch.handled, get_setTop, if_neg low]
  case slices => 
    rw [arch]
    exact getD_map_range _ _ hi
  · simp only [Warp.getV, back, user, arch]; rfl
  · simp only [Warp.getP, back, user, arch]; rfl
  · simp only [Warp.getGp, back, user, arch]; rfl
  · rw [arch]; rfl
  · rw [arch]; exact List.length_map _ |>.trans (List.length_range)

/-- A warp outside its handler with a loop that a handler began, and a register that only its own state holds. -/
def strayLoop : Warp where
  arch := { v := [(0, 1)] }
  loop := some { sup := true, n := 1, c := 1, b := 1, w := 1, ew := 1, guess := 0, body := 0
                 ways := [(0, { arch := {}, start := {}, st := 0 })] }

/-- Refutes O50: the return drops a loop that the handler began (R318, log 132), and no condition of the statement says that the
warp outside its handler has none; with that condition `leave_enter` holds. -/
theorem not_returnRestoresTheWarp : ¬ Obligations.ReturnRestoresTheWarp := by
  unfold Obligations.ReturnRestoresTheWarp
  intro h
  obtain ⟨-, regs, -⟩ := h strayLoop 0 0 { cause := 0x12, lanes := 1 } 0x200040 rfl rfl _ rfl
  exact absurd (regs 0 0) (by decide +kernel)

end Sys2Proof.Machine
end


section
/-! PROOF. SPDM messages and the programming of keys (R381, R382): each is a message whose turn has come, or the error that it has
not. -/

namespace Sys2Proof.Machine
open Sys2Proof.Safety

/-- GET_MEASUREMENTS of one register answers with that register. -/
theorem execGetMeasurements_one (s : State) {k : Nat} (low : 1 ≤ k) (high : k ≤ 3) :
    execGetMeasurements k s = s.inTurn s.plat.trust.algs (s.answer [0x60, s.plat.meas.get 0 (k - 1)]) := by
  obtain rfl | rfl | rfl : k = 1 ∨ k = 2 ∨ k = 3 := by omega
  all_goals rfl

/-- One of the 18 streams takes the key, and page requests that waited for it go out. -/
theorem execIdeKm_stream (s : State) {k : Nat} (key : Nat) (h : k < 18) : execIdeKm k key s = s.inTurn s.plat.trust.secure
    ((s.updTrust (fun t => { t with keys := t.keys.set 0 k (key + 1), count := t.count + 1 })).roomFor k s.waits) :=
  congrArg (s.inTurn _) (if_pos h)

theorem execIdeKm_none (s : State) {k : Nat} (key : Nat) (h : 18 ≤ k) :
    execIdeKm k key s = s.inTurn s.plat.trust.secure (s.spdmError 1) :=
  congrArg (s.inTurn _) (if_neg (Nat.not_lt.mpr h))

/-- Settles O39: the statement's `inTurn` is the model's, message by message. Codes, order and errors are presumed (log 110), the
18 streams are the model's (log 111). -/
theorem trustMessagesComplete : Obligations.TrustMessagesComplete := by
  unfold Obligations.TrustMessagesComplete
  intro s t say signed inTurn m
  exact ⟨rfl, rfl, rfl, rfl, rfl, fun _ => rfl, fun _ => rfl, rfl, fun _ low high => execGetMeasurements_one s low high, rfl,
    fun _ => rfl, rfl, rfl, rfl, fun _ key h => execIdeKm_stream s key h, fun _ key h => execIdeKm_none s key h⟩

end Sys2Proof.Machine
end


section
/-! PROOF. The host link (R382, R387 to R389): each event has its one step wherever its condition holds. -/

namespace Sys2Proof.Machine
open Sys2Proof.Safety

theorem execHostLinkDown_up {s : State} (up : s.link.down = false) : execHostLinkDown s = .next s.takeLinkDown :=
  onlyIf_eq_next _ _ (by simp [up])

/-- An integrity failure on a stream that has keys takes the link down (R382). -/
theorem execIdeIntegrityFailure_up {s : State} {stream : Nat} (up : s.link.down = false) (h : stream < 18)
    (keyed : s.carries stream = true) : execIdeIntegrityFailure stream s = .next s.takeLinkDown :=
  onlyIf_eq_next _ _ (by simp [up, h, keyed])

/-- Settles O37: outside its condition an event is refused, under it the event is the model's one step. That the REPLAY and DISC
bits clear then, and that a recovery takes a replay asked for meanwhile, is the model's choice (logs 106, 133). -/
theorem hostLinkEventsComplete : Obligations.HostLinkEventsComplete := by
  unfold Obligations.HostLinkEventsComplete
  refine ⟨fun stream s up => ⟨execHostLinkDown_up up, execIdeIntegrityFailure_up up⟩, fun s down => ?recover,
    fun refused s up => ?replay, fun s => rfl⟩
  case recover => exact onlyIf_eq_next _ _ down
  case replay => exact onlyIf_eq_next _ _ (by simp [up])

end Sys2Proof.Machine
end


section
/-! PROOF. Errors and the rebuilding of directory entries (R383 to R386, R390). -/

namespace Sys2Proof.Machine
open Sys2Proof.Safety

/-! ## Directory entries (R386) -/

/-- Answers that disagree: two values of dirty copies, or a clean copy that is not the line's value. -/
def Apart (got : List (Nat × Bool × Tab Byte × Bool)) (vals : List (List Byte)) (v : List Byte) (l : Nat) : Prop :=
  1 < vals.length ∨ ∃ g ∈ got, g.2.1 = false ∧ lineBytes g.2.2.1 l ≠ v

theorem apart_iff (got : List (Nat × Bool × Tab Byte × Bool)) (vals : List (List Byte)) (v : List Byte) (l : Nat) :
    (1 < vals.length || got.any (fun g => !g.2.1 && lineBytes g.2.2.1 l != v)) = true ↔ Apart got vals v l := by
  simp [Apart, List.any_eq_true]

/-- Settles O36: where its unit exists an error takes its one step, and a rebuilt entry takes the value that the answers agree
on. What an uncorrectable error of a line counts at is the model's choice (log 145). -/
theorem errorEventsComplete : Obligations.ErrorEventsComplete := by
  unfold Obligations.ErrorEventsComplete
  refine ⟨fun log addr n tenant s h => ?corrected, fun l s h => ?line, ?registers, ?scratch, ?entry, fun _ _ => rfl⟩
  case corrected =>
    have exists' : decide (log < 10) = true := decide_eq_true h
    exact ⟨onlyIf_eq_next _ _ exists', onlyIf_eq_next _ _ exists', onlyIf_eq_next _ _ exists', onlyIf_eq_next _ _ exists'⟩
  case line => exact onlyIf_eq_next _ _ (by simpa using h)
  case registers =>
    intro u l n s w here placed
    exact ⟨fun hn hl => onlyIf_eq_next _ _ (by simp [here, show (s.warp u).placed = true from placed, hl]; exact hn),
      fun hn => onlyIf_eq_next _ _ (by simp [here, show (s.warp u).placed = true from placed, hn])⟩
  case scratch =>
    intro t off s x here inside
    exact onlyIf_eq_next _ _ (by simpa [here] using inside)
  case entry =>
    intro l s e
    refine ⟨fun dev there quiet => onlyIf_eq_next _ _ (by simpa [dev, there] using quiet), fun bad recov all host => ?_⟩
    refine (onlyIf_eq_next _ _ (by simpa [recov, all, host] using bad)).trans (congrArg Host.Outcome.next ?_)
    exact congrArg (fun t => State.updDir t l _) (if_congr (apart_iff ..) rfl rfl)

end Sys2Proof.Machine
end


section
/-! PROOF. Pre-emption, saving and resuming warps, and the taking up of roots to reclaim (R297 to R299, R316, R347, R348). -/

namespace Sys2Proof.Machine
open Sys2Proof.Safety

/-! ## What stops a context (R297, R299) -/

section
variable {s : State} {i : Nat} {x : Inst}

/-- The warps of a context that are on a core and not at their end. -/
theorem warpsOf_all {q : Nat × Warp → Bool} : (s.warpsOf i).all (fun p => !p.2.placed || p.2.retired || q p) = true ↔
    ∀ p ∈ s.warps, p.2.inst = i → p.2.placed = true → p.2.retired = false → q p = true := by
  simp only [State.warpsOf, List.all_eq_true, List.mem_filter, beq_iff_eq, and_imp, Bool.or_eq_true, Bool.not_eq_true', or_assoc]
  refine forall₃_congr fun p _ _ => ?_
  cases p.2.placed <;> cases p.2.retired <;> simp

theorem allParked_iff : s.allParked i = true ↔ ∀ p ∈ s.warps, p.2.inst = i → p.2.placed = true → p.2.retired = false →
    p.2.trap = none ∧ ∀ g ∈ p.2.arch.gangs, g.waits = true :=
  warpsOf_all.trans (by simp [List.all_eq_true])

theorem resident_of_mem {p : Nat × Warp} (mem : p ∈ s.warps) (inst : p.2.inst = i) (placed : p.2.placed = true)
    (live : p.2.retired = false) : s.resident i = true :=
  List.any_eq_true.mpr ⟨p, List.mem_filter.mpr ⟨mem, by simp [inst]⟩, by simp [placed, live]⟩

theorem stoppable_of (running : x.state = 1) (asked : x.stop = false) (here : s.resident i = true) : s.stoppable i x = true := by
  simp [State.stoppable, running, asked, here]

/-- A context taken back because it aged may be stopped after 2 ms, or once all its warps are parked (R299). -/
theorem execPreemptRequest_of (held : s.inst i = some x) (stoppable : s.stoppable i x = true)
    (askable : x.aged = false ∨ x.start + 2000000 ≤ s.clk.time ∨ s.allParked i = true) (pressed : s.pressed i x = true) :
    execPreemptRequest i s = .next (s.askStop i false) := by
  have spent : (x.aged && decide (s.clk.time < x.start + 2000000) && !s.allParked i) = false := by
    rcases askable with young | late | parked
    · simp [young]
    · simp [Nat.not_lt.mpr late]
    · simp [parked]
  unfold execPreemptRequest
  simp only [held, spent]
  exact onlyIf_eq_next _ _ (by simp [stoppable, pressed])

/-- A ready context of higher priority that no core has room for presses one that holds such a core (R297). -/
theorem pressed_of_ready {p : Nat × Inst} {q : Nat × Warp} {t : Nat} (mem : p ∈ s.insts) (other : p.1 ≠ i) (ready : p.2.state = 0)
    (sound : p.2.err = 0) (above : x.prio < p.2.prio) (legal : s.refusal p.2 = 0) (team : p.2.h.nextTeam 0 = some t)
    (full : ∀ c ∈ s.allowed p.2.h, ¬HasRoom s c p.1 p.2.h t) (warp : q ∈ s.warps) (inst : q.2.inst = i)
    (placed : q.2.placed = true) (holds : q.2.core ∈ s.allowed p.2.h) : s.pressed i x = true := by
  have waits : s.waiting p = true := by simp [State.waiting, ready, sound]
  have fresh : s.queuedOnly p = false := by simp [State.queuedOnly, ready]
  have none : (s.allowed p.2.h).any (fun c => s.canAdmit c p.1 p.2.h t) = false :=
    List.any_eq_false.mpr fun c hc => mt hasRoom_iff.mpr (full c hc)
  have mine : (s.warpsOf i).any (fun w => w.2.placed && (s.allowed p.2.h).contains w.2.core) = true :=
    List.any_eq_true.mpr ⟨q, List.mem_filter.mpr ⟨warp, by simp [inst]⟩, by simp [placed, holds]⟩
  refine List.any_eq_true.mpr ⟨p, mem, ?_⟩
  simp only [waits, above, other, fresh, ready, team, legal, none, mine, decide_true, bne_iff_ne, ne_eq, not_false_eq_true,
    if_true, Bool.false_eq_true, if_false, Bool.not_false, Bool.and_true, Bool.true_and, beq_self_eq_true]

theorem execQuantumExpiry_of (held : s.inst i = some x) (stoppable : s.stoppable i x = true)
    (late : x.start + 2000000 ≤ s.clk.time) (waiter : ∃ p ∈ s.insts, p.1 ≠ i ∧ s.waiting p = true ∧
      (x.prio ≤ p.2.prio ∨ p.2.since + 4000000 ≤ s.clk.time)) :
    execQuantumExpiry i s = .next (s.askStop i false) := by
  unfold execQuantumExpiry
  simp only [held]
  refine onlyIf_eq_next _ _ ?_
  simpa [stoppable, late, and_assoc] using waiter

theorem execParkYield_of (held : s.inst i = some x) (stoppable : s.stoppable i x = true) (parked : s.allParked i = true)
    (long : ∀ p ∈ s.warps, p.2.inst = i → p.2.placed = true → p.2.retired = false →
      p.2.since ≠ 0 ∧ p.2.since + 10000 < s.clk.time) :
    execParkYield i s = .next ((s.askStop i false).updInst i (fun y => { y with yielded := true })) := by
  unfold execParkYield
  simp only [held]
  refine onlyIf_eq_next _ _ ?_
  rw [stoppable, parked, Bool.true_and, Bool.and_true]
  exact warpsOf_all.mpr fun p mem inst placed live => by simpa using long p mem inst placed live

end

/-! ## Saving a warp (R298) -/

theorem stopped_of {w : Warp} (user : w.trap = none) (closed : w.regions = [])
    (loop : ∀ l, w.loop = some l → l.ways = [] ∧ l.ending = false)
    (gangs : ∀ g ∈ w.arch.gangs, g.park ≠ .none ∧ g.chain.isMember = false) : w.stopped = true := by
  unfold Warp.stopped
  cases h : w.loop with
  | none => simpa [user, closed] using gangs
  | some l =>
    obtain ⟨ways, open'⟩ := loop l h
    simpa [user, closed, ways, open'] using gangs

/-- A stopped warp with nothing in flight is saved. -/
theorem execWarpSave_of {s : State} {u : Nat} (asked : (s.warp u).preempt = true) (placed : (s.warp u).placed = true)
    (live : (s.warp u).retired = false) (settled : (s.warp u).wpend = 0) (stopped : (s.warp u).stopped = true)
    (quiet : ∀ r ∈ s.reqs, r.warp = u → r.kind = .prefetch) :
    execWarpSave u s = .next (((s.updWarp u (fun v => { v with
      placed := false, arch := (s.warp u).arch.keepLive, since := 0, late := []
      loop := v.loop.map (fun l => { l with ew := 1, ctxs := [] }) })).leftCore (s.warp u).inst).freeStore (s.warp u).core) := by
  have reqs : s.reqs.any (fun r => r.warp == u && r.kind != .prefetch) = false :=
    List.any_eq_false.mpr fun r hr => by simpa using quiet r hr
  exact if_neg (by simp [reqs, asked, placed, live, settled, stopped])

/-! ## Resuming a team (R298, R299) -/

@[simp] theorem State.freeStore_warps (s : State) (c : Nat) : (s.freeStore c).warps = s.warps := by
  unfold State.freeStore
  split
  · rfl
  · split <;> rfl

@[simp] theorem State.trimL1_warps (s : State) (c : Nat) : (s.trimL1 c).warps = s.warps := by
  unfold State.trimL1
  dsimp only
  split <;> rfl

@[simp] theorem State.seatTeam_warps (s : State) (team core tenant : Nat) : (s.seatTeam team core tenant).warps = s.warps := by
  unfold State.seatTeam
  dsimp only
  split <;> split <;> rfl

theorem find_reround (s : State) (core : Nat) {u v : Nat} (other : v ≠ u) : (s.reround core u).warps.find v = s.warps.find v := by
  unfold State.reround
  split
  · rfl
  · split
    · rfl
    · exact Tab.find_upd_ne _ _ other

/-- Steps that each leave a warp as it was leave it so together. -/
theorem find_foldl {α : Type} (f : State → α → State) (v : Nat) (xs : List α)
    (h : ∀ s, ∀ x ∈ xs, (f s x).warps.find v = s.warps.find v) (s : State) : (xs.foldl f s).warps.find v = s.warps.find v := by
  induction xs generalizing s with
  | nil => rfl
  | cons x xs ih =>
    exact (ih (fun s y hy => h s y (List.mem_cons_of_mem _ hy)) _).trans (h s x List.mem_cons_self)

/-- Restoring saved warps leaves every other warp as it was. -/
theorem find_resumeTeam (s : State) (team core tenant : Nat) {ws : List (Nat × Warp)} {v : Nat} (other : ∀ p ∈ ws, p.1 ≠ v) :
    (s.resumeTeam team core tenant ws).warps.find v = s.warps.find v := by
  unfold State.resumeTeam
  dsimp only
  rw [State.trimL1_warps]
  refine (find_foldl _ v ws (fun s p hp => find_reround s core (other p hp).symm) _).trans ?_
  refine (find_foldl _ v _ (fun s p hp => ?_) _).trans (congrArg (Tab.find · v) (State.seatTeam_warps ..))
  exact Tab.find_upd_ne _ _ (other p.1 (List.of_mem_zip hp).1).symm

section
variable {s : State} {u core : Nat} {x : Inst} (held : s.inst (s.warp u).inst = some x) (away : (s.warp u).placed = false)
  (room : s.canResume (s.warp u).team core x.h = true) (first : ∀ p ∈ s.insts, s.goesFirst (s.warp u).inst core x p = false)
include held away room first

/-- A saved context that may go on: it starts its quantum anew. -/
theorem execWarpResume_stopped (stop : x.stop = true) (saved : s.savedCandidate (s.warp u).inst = true)
    (ctx : s.ctxRoom x.tenant = true) : execWarpResume u core s =
      .next ((s.resumeTeam (s.warp u).team core x.h.tenant (s.savedOf (s.warp u).team)).updInst (s.warp u).inst (fun y =>
        { y with
          stop := false, evict := false, yielded := false, stopops := [], start := s.clk.time
          aged := y.since + 4000000 ≤ s.clk.time })) := by
  have none_first : s.insts.any (s.goesFirst (s.warp u).inst core x) = false :=
    List.any_eq_false.mpr fun p hp => by simp [first p hp]
  unfold execWarpResume
  simp only [held]
  refine (if_neg (by simp [away, stop, saved, ctx, room, none_first])).trans ?_
  simp [stop]

/-- A team of a context that goes on with other warps of it on cores. -/
theorem execWarpResume_partly (running : x.state = 1) (unasked : x.stop = false) (here : s.resident (s.warp u).inst = true) :
    execWarpResume u core s =
      .next ((s.resumeTeam (s.warp u).team core x.h.tenant (s.savedOf (s.warp u).team)).updInst (s.warp u).inst (fun y => y)) := by
  have none_first : s.insts.any (s.goesFirst (s.warp u).inst core x) = false :=
    List.any_eq_false.mpr fun p hp => by simp [first p hp]
  unfold execWarpResume
  simp only [held]
  refine (if_neg (by simp [away, running, unasked, here, room, none_first])).trans ?_
  simp [running, unasked, here]

end

/-- Settles O35: the model's conditions are the statement's, by `allParked_iff`, `stopped_of` and `hasRoom_iff`; of reclaiming it
states the taking up of a root. -/
theorem schedulerEventsComplete : Obligations.SchedulerEventsComplete := by
  unfold Obligations.SchedulerEventsComplete
  refine ⟨?stops, ?save, ?resume, ?reclaim⟩
  case stops =>
    intro i x s held running unasked ⟨p, mem, inst, placed, live⟩ parked askable asked
    have stoppable := stoppable_of running unasked (resident_of_mem mem inst placed live)
    have may (h : askable) : x.aged = false ∨ x.start + 2000000 ≤ s.clk.time ∨ s.allParked i = true :=
      h.imp_right (Or.imp_right allParked_iff.mpr)
    exact ⟨fun h pressed => execPreemptRequest_of held stoppable (may h) pressed,
      fun p mem t h other ready sound above legal team full ⟨q, warp, inst, placed, holds⟩ =>
        execPreemptRequest_of held stoppable (may h)
          (pressed_of_ready mem other ready sound above legal team full warp inst placed holds),
      execQuantumExpiry_of held stoppable, fun h => execParkYield_of held stoppable (allParked_iff.mpr h)⟩
  case save =>
    intro u s w asked placed live settled user closed loop gangs quiet
    have stopped : w.stopped = true := stopped_of user closed loop gangs
    exact execWarpSave_of asked placed live settled stopped quiet
  case resume =>
    intro u core x s w t held away room first
    exact ⟨fun stop saved ctx => execWarpResume_stopped held away room first stop saved ctx,
      fun running unasked ⟨p, mem, inst, placed, live⟩ =>
        execWarpResume_partly held away room first running unasked (resident_of_mem mem inst placed live),
      fun v others => find_resumeTeam s _ core _ others⟩
  case reclaim =>
    intro r rest s idle ready
    change execReclaimRoot s = _
    simp only [execReclaimRoot, idle, ready]

end Sys2Proof.Machine
end


section
/-! PROOF. Speculative loops (R308 to R320): what each word does where its checks pass, and the keeping of a way. -/

namespace Sys2Proof.Machine
open Sys2Proof.Safety

/-! ## The words (R310, R311, R317 to R320) -/

/-- A loop opens where its block lies in the allocation, none runs, and the rules name registers of the block. -/
theorem sploop_checks {b : State} {f : OpB} (ganged : b.ganged = true)
    (fits : bitsOf f.imm.toNat 0 9 + (bitsOf f.imm.toNat 9 3 + 1) ≤ b.wWarp.alloc) (lone : b.wWarp.loop = none)
    (rules : ∀ r ∈ b.wWarp.rules, bitsOf f.imm.toNat 0 9 ≤ r.reg ∧ r.reg < bitsOf f.imm.toNat 0 9 + (bitsOf f.imm.toNat 9 3 + 1))
    (idle : b.wayBusy = false) (quiet : b.wayReqs = false) :
    ¬(!b.ganged) = true ∧ ¬ b.wWarp.alloc ≤ bitsOf f.imm.toNat 0 9 + (bitsOf f.imm.toNat 9 3 + 1) - 1 ∧
      ¬(b.wWarp.loop.isSome || b.wWarp.rules.any (fun r => decide (r.reg < bitsOf f.imm.toNat 0 9) ||
        decide (bitsOf f.imm.toNat 0 9 + (bitsOf f.imm.toNat 9 3 + 1) ≤ r.reg))) = true ∧ ¬(b.wayBusy || b.wayReqs) = true := by
  refine ⟨by simp [ganged], by omega, ?_, by simp [idle, quiet]⟩
  have inside : b.wWarp.rules.any (fun r => decide (r.reg < bitsOf f.imm.toNat 0 9) ||
      decide (bitsOf f.imm.toNat 0 9 + (bitsOf f.imm.toNat 9 3 + 1) ≤ r.reg)) = false :=
    List.any_eq_false.mpr fun r hr => by
      obtain ⟨low, high⟩ := rules r hr
      simp [Nat.not_lt.mpr low, Nat.not_le.mpr high]
  simp [lone, inside]

/-- Settles O22: each word's checks pass one after the other, and what is left is its effect. The clones' contexts and the loops of
the handler are as the model chooses (logs 77, 132). -/
theorem speculativeWordsComplete : Obligations.SpeculativeWordsComplete := by
  unfold Obligations.SpeculativeWordsComplete
  intro f l first n wmax plain rule loop
  refine ⟨?sploop, fun k reg => ?spput, fun mode => ?spacc, ?spnext, ?spend, ?spq, ?keep⟩
  case sploop =>
    refine acts_of (fun _ => rfl) fun b _ ⟨⟨outside, sure⟩, ganged, fits, lone, rules, idle, quiet⟩ => ?_
    obtain ⟨whole, inside, free, ready⟩ := sploop_checks ganged fits lone rules idle quiet
    refine (noRegion_eq outside).trans ((notGuessing_eq sure).trans ?_)
    exact (if_neg whole).trans ((if_neg inside).trans ((if_neg free).trans (if_neg ready)))
  case spput =>
    refine acts_of (fun _ => rfl) fun b _ ⟨guessing, user, running, fits, some', idle, sound⟩ => ?_
    have inside : ¬ b.wWarp.alloc ≤ k.val + l.c - 1 := by omega
    have awake : ¬ b.wayBusy = true := by simp [idle]
    rw [reg] at sound
    simp only [guessing, user, running, reg]
    exact (if_neg inside).trans ((if_neg awake).trans (if_neg (by simp [sound])))
  case spacc =>
    refine acts_of (fun _ => rfl) fun b _ ⟨⟨outside, sure⟩, lone, room, exact'⟩ => ?_
    refine (noRegion_eq outside).trans ((notGuessing_eq sure).trans ?_)
    simp only [Nat.mod_eq_of_lt mode]
    have free : b.wWarp.loop.isSome = false := by simp [lone]
    have fits : (decide (b.wWarp.rules.length ≥ 8) && !b.wWarp.rules.any (fun x => x.reg == first)) = false := by
      rcases room with few | old
      · simp [few]
      · simp [old]
    have plainRule : (f.ctl.val == 0 && (rule b).param != 0) = false := by simpa using exact'
    refine if_neg ?_
    rw [free, fits, Bool.false_or, Bool.false_or]
    exact Bool.eq_false_iff.mp plainRule
  case spnext =>
    refine acts_of (fun _ => rfl) fun b _ ⟨sure, mine, running, ganged, depths, target, outside, idle, quiet⟩ => ?_
    refine (notGuessing_eq sure).trans ((noRegion_eq outside).trans ?_)
    have aimed : b.target f = l.body := target
    simp only [running]
    exact (if_neg (by simp [mine, ganged, depths, aimed])).trans (if_neg (by simp [idle, quiet]))
  case spend =>
    refine acts_of (fun _ => rfl) fun b _ ⟨⟨outside, sure⟩, running, mine, ends⟩ => ?_
    refine (noRegion_eq outside).trans ((notGuessing_eq sure).trans ?_)
    simp only [running]
    exact if_neg (by simp [mine, ends])
  case spq => exact acts_of (fun _ => rfl) fun b _ ⟨outside, sure⟩ => (notGuessing_eq sure).trans (noRegion_eq outside)
  case keep =>
    intro u k y s kept
    refine ⟨fun deferred => ?_, fun none quiet room => ?_⟩
    · change execWayKeep u s = _
      unfold execWayKeep
      simp only [kept]
      exact if_pos (by simpa using deferred)
    · change execWayKeep u s = _
      unfold execWayKeep
      simp only [kept, none]
      exact onlyIf_eq_next _ _ (Bool.and_eq_true_iff.mpr ⟨decide_eq_true room, congrArg Bool.not quiet⟩)

end Sys2Proof.Machine
end


section
/-! PROOF. Per-lane words (R322 to R329): where no lane waits or meets poison, a word sends what its lanes found. -/

namespace Sys2Proof.Machine
open Sys2Proof.Safety

/-- Noting walks changes the trees' bitmaps only. -/
theorem noteVas_frame (vas : List Nat) (u : Nat) (b : State) :
    ∃ x, vas.foldl (fun t va => t.noteVa u va) b = { b with trees := x } := by
  induction vas generalizing b with
  | nil => exact ⟨_, rfl⟩
  | cons va vas ih =>
    obtain ⟨x, first⟩ := noteVa_frame b u va
    obtain ⟨y, rest⟩ := ih (b.noteVa u va)
    exact ⟨y, by rw [List.foldl_cons, rest, first]⟩

section
variable (f : OpT) (k : Nat) (ord : Order) (d : Dst)

/-- The request of a per-lane word, with what its lanes found. -/
def kvReq (hits : List KvRes) (replay bad : Lanes) : Req :=
  { id := 0, warp := 0, kind := .kv k f.opf.toNat hits replay bad, scope := f.scope, order := ord, dst := f.tok }

variable (b : State)

def kvFound (a : Nat × Nat × Nat × Nat) : KvLane (KvRes × Word) := b.kvLane (b.newReq (kvReq f k ord [] 0 0)) k f.opf.toNat a

/-- What the lanes found that found something. -/
def kvHits : List (KvRes × Word) := (b.kvArgs f (b.executing f.com)).filterMap
  (fun a => match kvFound f k ord b a with | .ok h => some h | _ => none)

/-- The lanes that fare as `p` says. -/
def kvLanes (p : KvLane (KvRes × Word) → Bool) : Lanes :=
  maskOf (((b.kvArgs f (b.executing f.com)).filter (fun a => p (kvFound f k ord b a))).map (fun a => a.1))

/-- The request that goes. -/
def kvSends : Req := kvReq f k ord ((kvHits f k ord b).map (fun h => h.1))
  (kvLanes f k ord b (fun x => match x with | .replay => true | _ => false))
  (kvLanes f k ord b (fun x => match x with | .malformed => true | _ => false))

/-- The lanes' reads made: their walks noted, their flags raised. -/
def kvRead : State :=
  (((b.kvArgs f (b.executing f.com)).flatMap (b.kvReads (b.newReq (kvReq f k ord [] 0 0)) k f.opf.toNat) ++
    (b.kvArgs f (b.executing f.com)).flatMap (b.kvWrites (b.newReq (kvReq f k ord [] 0 0)) k f.opf.toNat)).foldl
      (fun t va => t.noteVa b.who.warp va) b).raise ((kvHits f k ord b).foldl (fun fl h => fl ||| h.2) 0)

/-- No lane waits for a line, meets poison, or violates the scratchpad rules; and the request goes. -/
structure KvClear : Prop where
  lone : Safety.lone b
  first : (b.newReq (kvReq f k ord [] 0 0)).behind = []
  lanes : ∀ a ∈ b.kvArgs f (b.executing f.com), kvFound f k ord b a ≠ .poison ∧ ∀ ls, kvFound f k ord b a ≠ .wait ls
  scratch : (k = 3 ∧ f.opf.getLsbD 0 = true) → b.vecFails ((b.kvArgs f (b.executing f.com)).filter
    (fun a => match kvFound f k ord b a with | .malformed => false | _ => true)) = []
  goes : Safety.goes (kvRead f k ord b) (kvSends f k ord b)

end

/-- The order of a per-lane word outside young ways: a release, or none (R327). -/
def kvOrder (rel : Bool) : Order := if rel then .release else .relaxed

/-- A per-lane word whose lanes are clear sends what they found. -/
theorem acts_kv {i : Instr} {f : OpT} {k : Nat} {rel : Bool} (he : ∀ s, exec i s = .next (s.kv i f k rel)) :
    Acts i (KvClear f k (kvOrder rel)) (fun b =>
      let r := kvRead f k (kvOrder rel) b
      let t := sent r (kvSends f k (kvOrder rel) b)
      ((t.await r.clk.fresh f.tok 2 t.active).await r.clk.fresh (if k = 0 then srcDst f.c else .discard) 2
        (maskOf ((b.kvArgs f (b.executing f.com)).map (fun a => a.1)))).advance) := by
  refine acts_of he fun b _ ⟨⟨closed, noLoop⟩, first, clear, scratch, goes⟩ => ?_
  have outside : outsideRegions b f.com := regionLanes_lone _ closed
  obtain ⟨old, sure⟩ := young_lone noLoop
  refine (noRegion_eq outside).trans ((if_neg (by simp [sure])).trans ?_)
  extract_lets opf vec args young r q found fails args' found' hits pick bad reads stuck t due s1 s2 s3 s4 id replay malformed read after
  have young_eq : young = false := old
  have r_eq : r = kvReq f k (kvOrder rel) [] 0 0 := by
    simp only [r, young_eq, kvReq, kvOrder, Bool.not_false, Bool.and_true, opf]
  have found_eq : found = args.map (fun a => (a, kvFound f k (kvOrder rel) b a)) := by
    simp only [found, q, r_eq]
    rfl
  have fails_eq : fails = [] := by
    by_cases slot : vec = true
    · have both : k = 3 ∧ f.opf.getLsbD 0 = true := by
        simpa only [vec, opf, Bool.and_eq_true, beq_iff_eq, BitVec.testBit_toNat] using slot
      have legal := scratch both
      simp only [fails, if_pos slot, found_eq, List.filter_map, List.map_map]
      refine Eq.trans (congrArg b.vecFails ?_) legal
      exact List.map_id _
    · exact if_neg slot
  have args_eq : args' = args := by simp [args', fails_eq]
  have found'_eq : found' = found := by simp [found', fails_eq]
  have hits_eq : hits = kvHits f k (kvOrder rel) b := by
    simp only [hits, found'_eq, found_eq, List.filterMap_map]
    rfl
  have pick_eq (p : KvLane (KvRes × Word) → Bool) : pick p = kvLanes f k (kvOrder rel) b p := by
    simp only [pick, found'_eq, found_eq, List.filter_map, List.map_map]
    rfl
  have sound : bad = [] := by
    simp only [bad, found'_eq, found_eq, List.filterMap_map]
    refine List.filterMap_eq_nil_iff.mpr fun a ha => ?_
    obtain ⟨clean, -⟩ := clear a ha
    simp only [Function.comp_apply]
  have here : found'.any (fun p => match p.2 with | .wait _ => true | _ => false) = false := by
    simp only [found'_eq, found_eq, List.any_map]
    refine List.any_eq_false.mpr fun a ha => ?_
    obtain ⟨-, ready⟩ := clear a ha
    simp only [Function.comp_apply]
    cases h : kvFound f k (kvOrder rel) b a with
    | wait ls => exact absurd h (ready ls)
    | _ => simp
  have taken : stuck = false := by simp [stuck, young_eq]
  have walks : t = { b with trees := t.trees } := by
    obtain ⟨x, frame⟩ := noteVas_frame (reads ++ args'.flatMap (b.kvWrites q k opf)) b.who.warp b
    rw [show t = _ from frame]
  have noLoop' : t.wWarp.loop = none := by rw [walks]; exact noLoop
  refine (if_neg (by rw [show q.behind = [] by rw [← first]; simp only [q, r_eq]]; simp)).trans
    ((if_neg (Bool.eq_false_iff.mp here)).trans ((if_neg (by rw [sound]; simp)).trans ((if_neg (Bool.eq_false_iff.mp taken)).trans ?_)))
  have read1 : s1 = t := noteReads_lone _ noLoop'
  have read2 : s2 = t := by simp only [s2, young_eq, read1, Bool.and_false, Bool.false_eq_true, if_false]
  have read3 : s3 = t := by
    simp only [s3, read2]
    split
    · exact noteWrites_lone _ noLoop'
    · split
      · exact noteWrites_lone _ noLoop'
      · rfl
  have read4 : s4 = kvRead f k (kvOrder rel) b := by
    simp only [s4, read3, hits_eq, t, reads, args_eq, q, r_eq]
    rfl
  have sends : ({ r with kind := .kv k opf (if vec && young then [] else hits.map (·.1)) replay malformed } : Req) =
      kvSends f k (kvOrder rel) b := by
    simp only [young_eq, Bool.and_false, Bool.false_eq_true, if_false, hits_eq, replay, malformed, pick_eq, r_eq]
    rfl
  rw [sends, read4]
  refine (submit_goes goes).trans (congrArg Eff.done ?_)
  simp only [fails_eq, switchOff_nil, args_eq, id, read4]
  rfl

/-- Settles O21: the statement's conditions are `KvClear`, its effect that of `acts_kv`. That a word's reads are all made as it
issues, behind nothing that its gang holds, is the model's choice (log 70). -/
theorem keyValueWordsComplete : Obligations.KeyValueWordsComplete := by
  unfold Obligations.KeyValueWordsComplete
  intro f args word
  have of {i : Instr} {k : Nat} {rel : Bool} (he : ∀ s, exec i s = .next (s.kv i f k rel)) :
      word i k (kvOrder rel) (if k = 0 then srcDst f.c else .discard) :=
    fun s ready ⟨lone, _, first, clear, scratch, goes⟩ => acts_kv he s ready ⟨lone, first, clear, scratch, goes⟩
  exact ⟨of (k := 0) (rel := false) (fun _ => rfl), of (k := 1) (rel := true) (fun _ => rfl), of (k := 1) (rel := false) (fun _ => rfl),
    of (k := 3) (rel := false) (fun _ => rfl), of (k := 3) (rel := false) (fun _ => rfl)⟩

end Sys2Proof.Machine
end

section
/-! PROOF. Words and instructions (R28 to R36, R46 to R49): the fields of a word and the codes of its operands, what the
decoder makes of them, and the words that the spec writes out. -/

namespace Sys2Proof

/-! ## Fields of a number -/

/-- Each value fits its field. -/
def Fits (fs : List (Nat × Nat)) : Prop := ∀ p ∈ fs, p.2 < 2 ^ p.1

theorem unpackFields_packFields {fs : List (Nat × Nat)} (fit : Fits fs) :
    unpackFields (fs.map Prod.fst) (packFields fs) = fs.map Prod.snd := by
  induction fs with
  | nil => rfl
  | cons p r ih =>
    obtain ⟨w, x⟩ := p
    have low : x < 2 ^ w := fit _ List.mem_cons_self
    have rest := ih (List.forall_mem_cons.1 fit).2
    simp only [List.map_cons, packFields, unpackFields, Nat.mod_eq_of_lt low, Nat.add_mul_mod_self_left,
      Nat.add_mul_div_left _ _ (Nat.two_pow_pos w), Nat.div_eq_of_lt low, Nat.zero_add, rest]

theorem packFields_unpackFields (ws : List Nat) {n : Nat} (h : n < 2 ^ ws.sum) :
    packFields (ws.zip (unpackFields ws n)) = n := by
  induction ws generalizing n with
  | nil =>
    obtain rfl : n = 0 := by simpa using h
    rfl
  | cons w r ih =>
    have high : n / 2 ^ w < 2 ^ r.sum := Nat.div_lt_of_lt_mul (by rwa [List.sum_cons, Nat.pow_add] at h)
    simp only [unpackFields, List.zip_cons_cons, packFields, ih high, Nat.mod_mod]
    exact Nat.mod_add_div n (2 ^ w)

/-! ## Codes of operands and modifiers (R31, R32, R35, R46) -/

@[simp] theorem Src.ofCode_code (s : Src) : Src.ofCode s.code = .ok s := by
  unfold Src.ofCode Src.code
  cases s with
  | v n => grind [Fin.ofNat_val_eq_self]
  | g n => grind [Fin.ofNat_val_eq_self]
  | p n => grind [Fin.ofNat_val_eq_self]
  | gp n => grind [Fin.ofNat_val_eq_self]
  | by1 => rfl
  | by2 => rfl
  | lt n => grind [Fin.ofNat_val_eq_self]
  | special n => grind [Fin.ofNat_val_eq_self]
  | imm n => have := n.isLt; grind

@[simp] theorem Dst.ofCode_code (d : Dst) : Dst.ofCode d.code = .ok d := by
  unfold Dst.ofCode Dst.code
  cases d with
  | v n => grind [Fin.ofNat_val_eq_self]
  | g n => grind [Fin.ofNat_val_eq_self]
  | p n => grind [Fin.ofNat_val_eq_self]
  | gp n => grind [Fin.ofNat_val_eq_self]
  | discard => rfl

@[simp] theorem Ty.decode_code (t : Ty) : Ty.decode t.code = .ok t := by cases t <;> rfl
@[simp] theorem Rnd.ofCode_code (r : Rnd) : Rnd.ofCode r.code = .ok r := by cases r <;> rfl
@[simp] theorem Scope.ofCode_code (s : Scope) : Scope.ofCode s.code = .ok s := by cases s <;> rfl
@[simp] theorem Order.ofCode_code (o : Order) : Order.ofCode o.code = o := by cases o <;> rfl
@[simp] theorem Size.ofCode_code (z : Size) : Size.ofCode z.code = .ok z := by cases z <;> rfl

theorem Src.code_of_ofCode {c : Nat} {s : Src} (h : Src.ofCode c = .ok s) : s.code = c := by
  unfold Src.ofCode at h
  grind [Src.code, Fin.ofNat]

theorem Dst.code_of_ofCode {c : Nat} {d : Dst} (h : Dst.ofCode c = .ok d) : d.code = c := by
  unfold Dst.ofCode at h
  grind [Dst.code, Fin.ofNat]

theorem Ty.code_of_decode {c : Nat} {t : Ty} (h : Ty.decode c = .ok t) : t.code = c := by
  unfold Ty.decode Ty.ofCode at h
  grind [Ty.code]

theorem Rnd.code_of_ofCode {c : Nat} {r : Rnd} (h : Rnd.ofCode c = .ok r) : r.code = c := by
  unfold Rnd.ofCode at h
  grind [Rnd.code]

theorem Scope.code_of_ofCode {c : Nat} {s : Scope} (h : Scope.ofCode c = .ok s) : s.code = c := by
  unfold Scope.ofCode at h
  grind [Scope.code]

theorem Order.code_ofCode {c : Nat} (h : c < 4) : (Order.ofCode c).code = c := by
  unfold Order.ofCode
  grind [Order.code]

theorem Size.code_of_ofCode {c : Nat} {z : Size} (h : Size.ofCode c = .ok z) : z.code = c := by
  unfold Size.ofCode at h
  grind [Size.code]

theorem Src.code_lt (s : Src) : s.code < 2 ^ 12 := by cases s <;> simp only [Src.code] <;> omega
theorem Dst.code_lt (d : Dst) : d.code < 2 ^ 10 := by cases d <;> simp only [Dst.code] <;> omega
theorem Ty.code_lt (t : Ty) : t.code < 2 ^ 4 := by cases t <;> decide
theorem Rnd.code_lt (r : Rnd) : r.code < 2 ^ 3 := by cases r <;> decide
theorem Scope.code_lt (s : Scope) : s.code < 2 ^ 3 := by cases s <;> decide
theorem Order.code_lt (o : Order) : o.code < 2 ^ 2 := by cases o <;> decide
theorem Size.code_lt (z : Size) : z.code < 2 ^ 3 := by cases z <;> decide

theorem toNat_beq_one {x : Nat} (h : x < 2) : (x == 1).toNat = x := by
  obtain rfl | rfl : x = 0 ∨ x = 1 := by omega
  all_goals rfl

@[simp] theorem toNat_beq (b : Bool) : (b.toNat == 1) = b := by cases b <;> rfl

@[simp] theorem Common.ofBits_fields (c : Common) : Common.ofBits c.pn.toNat c.pg.val c.u.toNat = c := by
  simp [Common.ofBits]

/-! ## A form and the fields of its word (R29) -/

/-- The widths of a format's fields, lowest first. -/
def Fmt.widths : Fmt → List Nat
  | .a => widthsA | .i => widthsI | .m => widthsM | .b => widthsB | .t => widthsT

def Form.fmt : Form → Fmt
  | .a _ _ => .a | .i _ _ => .i | .m _ _ => .m | .b _ _ => .b | .t _ _ => .t

def Form.op : Form → Nat
  | .a op _ | .i op _ | .m op _ | .b op _ | .t op _ => op

theorem Fmt.widths_sum (k : Fmt) : k.widths.sum = 96 := by cases k <;> rfl

theorem Form.fields_widths (f : Form) : f.fields.map Prod.fst = f.fmt.widths := by cases f <;> rfl

theorem Common.fields_fit (c : Common) {op : Nat} (small : op < 2 ^ 10) : Fits (c.fields op) := by
  have func : op % 64 < 64 := Nat.mod_lt op (by decide)
  have cls : op / 64 < 16 := Nat.div_lt_of_lt_mul small
  simpa [Fits, Common.fields, func, cls] using ⟨c.pn.toNat_le, c.u.toNat_le⟩

theorem Fits.append {fs gs : List (Nat × Nat)} (hf : Fits fs) (hg : Fits gs) : Fits (fs ++ gs) :=
  List.forall_mem_append.2 ⟨hf, hg⟩

theorem Form.fields_fit {f : Form} (small : f.op < 2 ^ 10) : Fits f.fields := by
  cases f with
  | a op f =>
    refine Fits.append ?_ (f.com.fields_fit small)
    simpa [Fits] using ⟨f.ty.code_lt, f.rnd.code_lt, f.opx.isLt, f.c.code_lt, f.b.code_lt, f.a.code_lt, f.dst.code_lt,
      f.nwb.toNat_le⟩
  | i op f =>
    refine Fits.append ?_ (f.com.fields_fit small)
    simpa [Fits] using ⟨f.ty.code_lt, f.opx.isLt, f.imm.isLt, f.b.code_lt, f.a.code_lt, f.dst.code_lt, f.nwb.toNat_le⟩
  | m op f =>
    refine Fits.append ?_ (f.com.fields_fit small)
    simpa [Fits] using ⟨f.off.isLt, f.size.code_lt, f.c.code_lt, f.b.code_lt, f.a.code_lt, f.dst.code_lt,
      f.order.code_lt, f.scope.code_lt⟩
  | b op f =>
    refine Fits.append ?_ (f.com.fields_fit small)
    simpa [Fits] using ⟨f.imm.isLt, f.off.isLt, f.a.code_lt, f.dst.code_lt⟩
  | t op f =>
    refine Fits.append ?_ (f.com.fields_fit small)
    simpa [Fits] using ⟨f.opf.isLt, f.c.code_lt, f.b.code_lt, f.a.code_lt, f.tok.code_lt, f.scope.code_lt⟩

/-- A form's fields are read back from its number. -/
theorem Form.unpack_fields {f : Form} (small : f.op < 2 ^ 10) :
    unpackFields f.fmt.widths (packFields f.fields) = f.fields.map Prod.snd := by
  rw [← f.fields_widths, unpackFields_packFields (Form.fields_fit small)]

/-- Values in a format's fields that are those of a form are parsed as it. -/
theorem parse_of_unpack {f : Form} {n : Nat} (fields : unpackFields f.fmt.widths n = f.fields.map Prod.snd) :
    parse f.fmt n = .ok f := by
  cases f
  all_goals
    simp only [Form.fmt, Fmt.widths] at fields
    simp only [parse, Form.fmt, fields]
    simp [Form.fields, Common.fields, Nat.div_add_mod']
    rfl

/-! ## What parsing takes from a word -/

theorem bind_eq_ok {ε α β : Type} {x : Except ε α} {g : α → Except ε β} {b : β} :
    x >>= g = .ok b ↔ ∃ a, x = .ok a ∧ g a = .ok b := by
  cases x with
  | error e => exact ⟨nofun, nofun⟩
  | ok a => exact ⟨fun h => ⟨a, rfl, h⟩, fun ⟨_, e, h⟩ => Except.ok.inj e ▸ h⟩

/-- A check of a reserved field, passed. -/
theorem reserved_eq_ok {α : Type} {z : Nat} {e : DecodeError} {g : PUnit → Except DecodeError α} {b : α}
    (h : (if z ≠ 0 then throw e >>= g else g PUnit.unit) = .ok b) : z = 0 ∧ g PUnit.unit = .ok b := by
  split at h
  · exact nomatch h
  · exact ⟨Decidable.not_not.1 ‹_›, h⟩

theorem fits_unpackFields (ws : List Nat) (n : Nat) : Fits (ws.zip (unpackFields ws n)) := by
  induction ws generalizing n with
  | nil => simp [Fits]
  | cons w r ih => exact List.forall_mem_cons.2 ⟨Nat.mod_lt n (Nat.two_pow_pos w), ih _⟩

theorem Common.fields_ofBits {pn pg u fn cls : Nat} (hpn : pn < 2) (hpg : pg < 8) (hu : u < 2) (hfn : fn < 64) :
    (Common.ofBits pn pg u).fields (cls * 64 + fn) = [(1, pn), (3, pg), (1, u), (6, fn), (4, cls)] := by
  have func : (cls * 64 + fn) % 64 = fn := by omega
  have high : (cls * 64 + fn) / 64 = cls := by omega
  simp [Common.fields, Common.ofBits, toNat_beq_one hpn, toNat_beq_one hu, hpg, func, high]

theorem fields_of_parse {k : Fmt} {n : Nat} {f : Form} (h : parse k n = .ok f) :
    f.fields = k.widths.zip (unpackFields k.widths n) := by
  have fit := fits_unpackFields k.widths n
  cases k with
  | a =>
    simp only [Fmt.widths] at fit ⊢
    simp only [parse] at h
    generalize unpackFields widthsA n = vs at h fit ⊢
    split at h
    · obtain ⟨rfl, parsed⟩ := reserved_eq_ok h
      simp only [bind_eq_ok] at parsed
      obtain ⟨ty, hty, rnd, hrnd, c, hc, b, hb, a, ha, d, hd, e⟩ := parsed
      cases e
      simp [Fits, widthsA] at fit
      simp [Form.fields, widthsA, Common.fields_ofBits, Ty.code_of_decode hty, Rnd.code_of_ofCode hrnd,
        Src.code_of_ofCode hc, Src.code_of_ofCode hb, Src.code_of_ofCode ha, Dst.code_of_ofCode hd, toNat_beq_one, fit]
    · cases h
  | i =>
    simp only [Fmt.widths] at fit ⊢
    simp only [parse] at h
    generalize unpackFields widthsI n = vs at h fit ⊢
    split at h
    · simp only [bind_eq_ok] at h
      obtain ⟨ty, hty, b, hb, a, ha, d, hd, e⟩ := h
      cases e
      simp [Fits, widthsI] at fit
      simp [Form.fields, widthsI, Common.fields_ofBits, Ty.code_of_decode hty, Src.code_of_ofCode hb, Src.code_of_ofCode ha,
        Dst.code_of_ofCode hd, toNat_beq_one, fit]
    · cases h
  | m =>
    simp only [Fmt.widths] at fit ⊢
    simp only [parse] at h
    generalize unpackFields widthsM n = vs at h fit ⊢
    split at h
    · simp only [bind_eq_ok] at h
      obtain ⟨size, hsize, c, hc, b, hb, a, ha, d, hd, sc, hsc, e⟩ := h
      cases e
      simp [Fits, widthsM] at fit
      simp [Form.fields, widthsM, Common.fields_ofBits, Size.code_of_ofCode hsize, Src.code_of_ofCode hc,
        Src.code_of_ofCode hb, Src.code_of_ofCode ha, Dst.code_of_ofCode hd, Scope.code_of_ofCode hsc, Order.code_ofCode,
        fit]
    · cases h
  | b =>
    simp only [Fmt.widths] at fit ⊢
    simp only [parse] at h
    generalize unpackFields widthsB n = vs at h fit ⊢
    split at h
    · obtain ⟨rfl, parsed⟩ := reserved_eq_ok h
      simp only [bind_eq_ok] at parsed
      obtain ⟨a, ha, d, hd, e⟩ := parsed
      cases e
      simp [Fits, widthsB] at fit
      simp [Form.fields, widthsB, Common.fields_ofBits, Src.code_of_ofCode ha, Dst.code_of_ofCode hd, fit]
    · cases h
  | t =>
    simp only [Fmt.widths] at fit ⊢
    simp only [parse] at h
    generalize unpackFields widthsT n = vs at h fit ⊢
    split at h
    · obtain ⟨rfl, parsed⟩ := reserved_eq_ok h
      simp only [bind_eq_ok] at parsed
      obtain ⟨c, hc, b, hb, a, ha, tok, htok, sc, hsc, e⟩ := parsed
      cases e
      simp [Fits, widthsT] at fit
      simp [Form.fields, widthsT, Common.fields_ofBits, Src.code_of_ofCode hc, Src.code_of_ofCode hb,
        Src.code_of_ofCode ha, Dst.code_of_ofCode htok, Scope.code_of_ofCode hsc, fit]
    · cases h

/-! ## Instructions and their forms (R27, R49) -/

theorem formatOf_form {i : Instr} {f : Form} (h : i.form = some f) : formatOf f.op = .ok f.fmt := by
  cases i <;> cases h <;> simp [formatOf, Form.op, Form.fmt, lastFunc]

theorem op_lt_of_form {i : Instr} {f : Form} (h : i.form = some f) : f.op < 2 ^ 10 := by
  cases i <;> cases h <;> simp [Form.op]

theorem buildA_form {op : Nat} {f : OpA} {i : Instr} (h : buildA op f = some i) : i.form = some (.a op f) := by
  unfold buildA at h
  (repeat' split at h) <;> cases h <;> rfl

theorem buildI_form {op : Nat} {f : OpI} {i : Instr} (h : buildI op f = some i) : i.form = some (.i op f) := by
  unfold buildI at h
  split at h <;> cases h
  rfl

theorem buildM_form {op : Nat} {f : OpM} {i : Instr} (h : buildM op f = some i) : i.form = some (.m op f) := by
  unfold buildM at h
  (repeat' split at h) <;> cases h <;> rfl

theorem buildB_form {op : Nat} {f : OpB} {i : Instr} (h : buildB op f = some i) : i.form = some (.b op f) := by
  unfold buildB at h
  (repeat' split at h) <;> cases h <;> rfl

theorem buildT_form {op : Nat} {f : OpT} {i : Instr} (h : buildT op f = some i) : i.form = some (.t op f) := by
  unfold buildT at h
  (repeat' split at h) <;> cases h <;> rfl

/-- The instruction built from a form has that form. -/
theorem form_of_build {f : Form} {i : Instr} (h : f.build = some i) : i.form = some f := by
  cases f with
  | a op f => exact buildA_form h
  | i op f => exact buildI_form h
  | m op f => exact buildM_form h
  | b op f => exact buildB_form h
  | t op f => exact buildT_form h

/-! ## Words -/

theorem fieldsWidth_fields (f : Form) : fieldsWidth f.fields = 96 := by
  rw [fieldsWidth, f.fields_widths, f.fmt.widths_sum]

theorem toNat_encode (f : Form) : f.encode.toNat = packFields f.fields :=
  Nat.mod_eq_of_lt (fieldsWidth_fields f ▸ packFields_lt f.fields)

/-- The class and function of a form stand in the top ten bits of its word. -/
theorem op_of_packFields {f : Form} (small : f.op < 2 ^ 10) : packFields f.fields / 2 ^ 86 = f.op := by
  have split : f.fields = f.fields.dropLast.dropLast ++ [(6, f.op % 64), (4, f.op / 64)] := by cases f <;> rfl
  have width : fieldsWidth f.fields.dropLast.dropLast = 86 := by
    have total := fieldsWidth_fields f
    rw [split] at total
    simpa [fieldsWidth] using total
  have below := width ▸ packFields_lt f.fields.dropLast.dropLast
  rw [split, packFields_append, width, Nat.add_mul_div_left _ _ (by decide), Nat.div_eq_of_lt below]
  simp only [packFields]
  omega

theorem parseWord_encode {i : Instr} {f : Form} (h : i.form = some f) : parseWord f.encode = .ok f := by
  have small := op_lt_of_form h
  rw [parseWord, toNat_encode, op_of_packFields small, formatOf_form h]
  exact parse_of_unpack (Form.unpack_fields small)

theorem encode_of_parseWord {w : BitVec 96} {f : Form} (h : parseWord w = .ok f) : f.encode = w := by
  unfold parseWord at h
  split at h
  · cases h
  · next k _ =>
    apply BitVec.eq_of_toNat_eq
    rw [toNat_encode, fields_of_parse h, packFields_unpackFields _ (by rw [k.widths_sum]; exact w.isLt)]

/-- Decoding, taken apart. -/
theorem decode_eq_ok {w : BitVec 96} {i : Instr} :
    decode w = .ok i ↔ ∃ f, parseWord w = .ok f ∧ f.build = some i ∧ i.wf = true := by
  unfold decode
  cases parseWord w with
  | error e => simp
  | ok f => cases hb : f.build with
    | none => simp [hb]
    | some j => by_cases hw : j.wf = true <;> grind

end Sys2Proof
end


section
/-! PROOF. The decoder inverts the encoder on well-formed words, and every word that it takes is one (R47). -/

namespace Sys2Proof

/-- A well-formed instruction is built again from its form; a modifier that splits an opcode into rows is one of those
that its legality fixes. -/
theorem build_of_form {i : Instr} {f : Form} (wf : i.wf = true) (h : i.form = some f) : f.build = some i := by
  cases i
  case safept => exact Laws.Rebuilt.safept _ wf f h
  case safeptRf => exact Laws.Rebuilt.safeptRf _ wf f h
  case pmovGet => exact Laws.Rebuilt.pmovGet _ wf f h
  case pmovSet => exact Laws.Rebuilt.pmovSet _ wf f h
  case cctlInv => exact Laws.Rebuilt.cctlInv _ wf f h
  case cctlWb => exact Laws.Rebuilt.cctlWb _ wf f h
  case cctlWbinv => exact Laws.Rebuilt.cctlWbinv _ wf f h
  case cctlZero => exact Laws.Rebuilt.cctlZero _ wf f h
  case cctlInvall => exact Laws.Rebuilt.cctlInvall _ wf f h
  case kvvalSet => exact Laws.Rebuilt.kvvalSet _ wf f h
  case kvvalClr => exact Laws.Rebuilt.kvvalClr _ wf f h
  case skchSlot => exact Laws.Rebuilt.skchSlot _ wf f h
  case skchVec => exact Laws.Rebuilt.skchVec _ wf f h
  case rootcpFork => exact Laws.Rebuilt.rootcpFork _ wf f h
  case rootcpSnap => exact Laws.Rebuilt.rootcpSnap _ wf f h
  case rootcpDrop => exact Laws.Rebuilt.rootcpDrop _ wf f h
  case pgmapFt => exact Laws.Rebuilt.pgmapFt _ wf f h
  case pgmapCow => exact Laws.Rebuilt.pgmapCow _ wf f h
  case tret => exact Laws.Rebuilt.tret _ wf f h
  case tretKill => exact Laws.Rebuilt.tretKill _ wf f h
  case prmptStop => exact Laws.Rebuilt.prmptStop _ wf f h
  case prmptEvict => exact Laws.Rebuilt.prmptEvict _ wf f h
  all_goals cases h <;> rfl

/-- Settles O46: the word of a form is parsed as that form, from which the well-formed instruction is built again. -/
theorem decodeOfEncode : Obligations.DecodeOfEncode := by
  unfold Obligations.DecodeOfEncode
  intro i wf word
  obtain ⟨f, form⟩ := Option.isSome_iff_exists.1 word
  exact ⟨f.encode, by rw [encode, form]; rfl, decode_eq_ok.2 ⟨f, parseWord_encode form, build_of_form wf form, wf⟩⟩

/-- Settles O47: parsing reads every field of a word, and the instruction built from a form has that form. -/
theorem encodeOfDecode : Obligations.EncodeOfDecode := by
  unfold Obligations.EncodeOfDecode
  intro w i h
  obtain ⟨f, parsed, built, wf⟩ := decode_eq_ok.1 h
  exact ⟨wf, by rw [encode, form_of_build built, Option.map_some, encode_of_parseWord parsed]⟩

/-- Settles O48: the words of the spec, each decoded. -/
theorem specWordsDecode : Obligations.SpecWordsDecode := by
  unfold Obligations.SpecWordsDecode
  decide

end Sys2Proof
end

section
/-! PROOF. What is checked before a word acts, and a word that does no work (R26, R37, R43 to R48, R82, R106, R384). -/

namespace Sys2Proof.Machine
open Sys2Proof.Safety

/-! ## The checks of a word that heads its chain, in their order -/

section
variable {s : State} {i : Instr} {u : Uses} (uses : usesOf i = some u) (eff : State → Eff)
include uses

theorem issue_guardAwaited (head : s.member = false) (guard : s.busyReg s.active (guardReg u.com) = true) :
    s.issue i eff = s.stall := by
  simp [State.issue, uses, head, guard]

theorem issue_noWork (known : s.member = true ∨ s.busyReg s.active (guardReg u.com) = false)
    (idle : s.doesWork u.com = false) : s.issue i eff = (s.guardTags u.com).noWork i := by
  have waits : (!s.member && s.busyReg s.active (guardReg u.com)) = false := by
    rcases known with h | h <;> simp [h]
  simp [State.issue, uses, waits, idle]

variable (head : s.member = false) (guard : s.busyReg s.active (guardReg u.com) = false) (work : s.doesWork u.com = true)
include head guard work

theorem issue_overBound (above : s.overBound u = true) : s.issue i eff =
    if dropsLanes i then s.ended (.done (s.begin u).advance) else s.trapC 0x03 (s.faulting u.com) := by
  cases drops : dropsLanes i <;> simp [State.issue, uses, head, guard, work, above, drops]

variable (bounded : s.overBound u = false)
include bounded

theorem issue_awaited (waits : s.waits? (usesFirst i u) = true) : s.issue i eff = s.stall := by
  simp [State.issue, uses, head, guard, work, bounded, waits]

theorem issue_poisoned (there : s.waits? (usesFirst i u) = false) (poison : s.poisoned u (s.workLanes u.com) = true)
    (keeps : dropsLanes i = false) :
    s.issue i eff = (s.consumed s.wWarp.core s.wWarp.tenant).trapC 0x0F (s.poisonFault u) := by
  simp [State.issue, uses, head, guard, work, bounded, there, poison, keeps]

end

/-- Settles O41: `exec` issues the word, and `issue` checks in this order. That the scoreboard is awaited before poison is
looked at is the model's choice (log 13). -/
theorem wordChecksEndInOrder : Obligations.WordChecksEndInOrder := by
  unfold Obligations.WordChecksEndInOrder
  intro i u s uses head
  obtain ⟨eff, issued⟩ := exec_issue uses
  rw [issued]
  exact ⟨fun guard => congrArg _ (issue_guardAwaited uses eff head guard), fun guard work =>
    ⟨fun above => congrArg _ (issue_overBound uses eff head guard work above),
      fun bounded waits => congrArg _ (issue_awaited uses eff head guard work bounded waits),
      fun bounded there poison keeps => congrArg _ (issue_poisoned uses eff head guard work bounded there poison keeps)⟩⟩

/-! ## A word that does no work -/

theorem Warp.Alike.near {k : Nat} {w x : Warp} (h : Warp.Alike k w x) :
    Warp.Near k w x (w.archOf k).slices (w.archOf k).fstat := by
  have saved := congrArg (Option.map savedPart) h.trap
  have sigs := congrArg (List.map Gang.sig) h.gangs
  simp only [Option.map_map, List.map_map] at saved sigs
  have field {β : Type} (g : Arch → β) : g (x.archOf k).noGangs = g (w.archOf k).noGangs := congrArg g h.arch
  exact ⟨h.rest, saved, h.loop, field Arch.slices, field Arch.fstat, sigs, field Arch.sfmask, field Arch.exited,
    h.getV true, h.getG true, h.getP true, h.getGp true⟩

/-- `t` is `s` with nothing changed but the issuing warp's counts, chains, tags and sets. -/
structure State.Idled (s t : State) : Prop extends OnlyWarp s t where
  present : Present t
  warp    : Warp.Near s.who.way s.wWarp t.wWarp s.arch.slices s.arch.fstat

namespace State.Idled
variable {s t u : State}

theorem who (h : s.Idled t) : t.who = s.who := by rw [h.frame]

theorem slices (h : s.Idled t) : t.arch.slices = s.arch.slices := by
  unfold State.arch; rw [h.who]; exact h.warp.slices

theorem fstat (h : s.Idled t) : t.arch.fstat = s.arch.fstat := by
  unfold State.arch; rw [h.who]; exact h.warp.fstat

theorem gangSlices (h : s.Idled t) : t.gang.slices = s.gang.slices := by
  unfold State.gang State.arch; rw [h.who]; exact gang_slices_congr _ _ _ h.warp.gangs

theorem trans (a : s.Idled t) (b : t.Idled u) : s.Idled u := by
  refine ⟨⟨by rw [b.frame, a.frame], fun v hv => ?_⟩, b.present, ?_⟩
  · rw [b.others v (a.who ▸ hv), a.others v hv]
  · have near := b.warp
    rw [a.who, a.slices, a.fstat] at near
    exact a.warp.trans near

theorem of_alike (h : State.Alike s t) (present : Present t) : s.Idled t := ⟨h.toOnlyWarp, present, h.warp.near⟩

theorem updMy (present : Present s) {f : Warp → Warp}
    (near : Warp.Near s.who.way s.wWarp (f s.wWarp) s.arch.slices s.arch.fstat) : s.Idled (s.updMy f) :=
  ⟨⟨rfl, fun _ hu => State.find_updMy_ne s f hu⟩, Machine.present_updMy f present, by rwa [State.wWarp_updMy s f present]⟩

theorem ite {c : Prop} [Decidable c] (yes : s.Idled t) (no : s.Idled u) : s.Idled (if c then t else u) := by
  split
  exacts [yes, no]

end State.Idled

section
variable {s : State} (present : Present s)
include present

theorem idled_updGang {f : Gang → Gang} (same : ∀ g, (f g).sig = g.sig) : s.Idled (s.updGang f) :=
  .updMy present (Warp.Near.updGang _ _ _ f same)

theorem idled_updRegions (ls : Lanes) (f : Nat → Region → Region) : s.Idled (s.updRegions ls f) :=
  .updMy present (Warp.Near.regions _ _ _)

theorem idled_refl : s.Idled s := .of_alike (.refl s) present

/-- A word passed over is a state that only its chain, tags and count tell from the one before, gone on by one word. -/
theorem passOver_idled (chained : Bool) : ∃ t, s.Idled t ∧ s.passOver chained = t.advance.finish := by
  have bypassed : s.Idled (if chained then s.bypass [] else s) :=
    .ite (idled_updGang present fun _ => rfl) (idled_refl present)
  have tagged (u : State) (there : Present u) : u.Idled (if (chained && !s.untracked) = true then
      u.updRegions s.active (fun _ q => q.chainStep s.member 0 0 none none) else u) :=
    .ite (idled_updRegions there _ _) (idled_refl there)
  have both := bypassed.trans (tagged _ bypassed.present)
  obtain ⟨counted, there⟩ := alike_countOne _ both.present
  exact ⟨_, both.trans (.of_alike counted there), rfl⟩

end

/-- Going on by one word keeps every register and flag. -/
theorem advance_finish_idled {s t : State} (h : s.Idled t) : OnlyRegisters s t.advance.finish ∧ WentOn s t.advance.finish ∧
    (∀ n l, vreg t.advance.finish n l = vreg s n l) ∧ (∀ n, greg t.advance.finish n = greg s n) ∧
    (∀ n l, preg t.advance.finish n l = preg s n l) ∧ (∀ n, gpreg t.advance.finish n = gpreg s n) ∧
    t.advance.finish.arch.fstat = s.arch.fstat := by
  have warp : t.advance.finish.wWarp = t.wWarp.updArch s.who.way (Arch.goOn s.who.slice) := by
    rw [← h.who]; exact State.wWarp_updMy t _ h.present
  have who : t.advance.finish.who = s.who := h.who
  have arch : t.advance.finish.arch = t.advance.finish.wWarp.archOf s.who.way := by unfold State.arch; rw [who]
  have source : t.wWarp.archOf s.who.way = t.arch := by unfold State.arch; rw [h.who]
  have near := h.warp.trans (Warp.Near.goOn s.who.way s.who.slice t.wWarp)
  rw [← warp, source] at near
  obtain ⟨length, gone⟩ := goOn_slices t.arch s.who.slice
  have gang : (t.arch.gang s.who.slice).slices = s.gang.slices := by
    rw [← h.gangSlices]; unfold State.gang; rw [h.who]
  refine ⟨⟨⟨by rw [h.frame]; rfl, fun u hu => ?_⟩, near.rest, near.trap, near.loop, ?_, ?_, ?_⟩,
    ⟨?_, fun k hk => ?_⟩, fun n l => ?_, fun n => ?_, fun n l => ?_, fun n => ?_, ?_⟩
  · exact (State.find_updMy_ne t _ (h.who ▸ hu)).trans (h.others u hu)
  · rw [arch]; exact near.sfmask
  · rw [arch]; exact near.exited
  · rw [arch]; exact near.gangs
  · rw [arch, near.slices, length, h.slices]
  · have here : t.advance.finish.arch.slice k = (t.arch.goOn s.who.slice).slice k := by
      unfold Arch.slice; rw [arch, near.slices]
    have before : t.arch.slice k = s.arch.slice k := by unfold Arch.slice; rw [h.slices]
    rw [here, gone k (h.slices ▸ hk), gang, before]
  · unfold vreg; rw [who]; exact near.v n l
  · unfold greg; rw [who]; exact near.g n
  · unfold preg; rw [who]; exact near.p n l
  · unfold gpreg; rw [who]; exact near.gp n
  · rw [arch, near.fstat, h.fstat]

/-- Settles O40: such a word is passed over, in a chain with zeros in its place of the bypass (`passOver_idled`), and goes on
by one word. -/
theorem guardedOffWordsOnlyAdvance : Obligations.GuardedOffWordsOnlyAdvance := by
  unfold Obligations.GuardedOffWordsOnlyAdvance
  intro i u s uses present idle known
  obtain ⟨eff, issued⟩ := exec_issue uses
  obtain ⟨read, there⟩ := alike_guardTags s u.com present
  obtain ⟨t, idled, passed⟩ := passOver_idled there ((s.guardTags u.com).member || chainEligible i)
  exact ⟨_, by rw [issued, issue_noWork uses eff known idle, State.noWork, passed],
    advance_finish_idled ((State.Idled.of_alike read there).trans idled)⟩

end Sys2Proof.Machine
end

section
/-! PROOF. The cycles of a core's slots, images of their tables, and wakes (R59, R295, R296, R304, R366). -/

namespace Sys2Proof.Machine

theorem State.core_updCore (s : State) (c : Nat) (f : Core → Core) : (s.updCore c f).core c = f (s.core c) := by
  simp [State.core, Tab.get_modify]

/-! ## A slot's cycle -/

/-- The entry of the slot table for the cycle: the tenant that it names. -/
def State.slotEntry (s : State) (core : Nat) : Nat :=
  (s.core core).slots.get 0 (256 * (s.core core).slot + (s.core core).cyc % 256)

/-- The gangs that may issue; none while earlier words hold the slot. -/
def State.slotCands (s : State) (core : Nat) : List Cand :=
  if (s.core core).owed.get 0 (s.core core).slot = 0 then s.cands core (s.core core).slot else []

/-- The gang that the named tenant issues. -/
def State.slotNamed (s : State) (core : Nat) : Option Cand := ofTenant (s.slotEntry core) (s.slotCands core)

/-- The gang that a donated slot goes to. -/
def State.slotGiven (s : State) (core : Nat) : Option Cand :=
  if (s.slotNamed core).isNone && (s.core core).donor.getLsbD (s.slotEntry core) then
    nextRecv (s.core core).recv ((s.core core).served.get 15 (s.core core).slot) (s.slotCands core)
  else none

/-- The counters of a core after a slot's cycle. -/
def Core.tick (k : Core) : Core :=
  { k with
    slot := (k.slot + 1) % 4
    cyc := if k.slot = 3 then (k.cyc + 1) % 256 else k.cyc
    owed := k.owed.set 0 k.slot (k.owed.get 0 k.slot - 1) }

/-- The cycle passed: waits of YIELD shortened, counters moved on, and what falls due now first on the agenda. -/
def State.slotPassed (s : State) (core : Nat) : State :=
  let k := s.core core
  let t := { s with warps := s.warps.map (fun (p : Nat × Warp) =>
    if p.2.placed && p.2.core == core then (p.1, p.2.yieldPass k.slot) else p) }
  let t := t.updCore core (fun k' => { k' with
    slot := (k.slot + 1) % 4, cyc := if k.slot = 3 then (k.cyc + 1) % 256 else k.cyc
    owed := k'.owed.set 0 k.slot (k.owed.get 0 k.slot - 1) })
  { t with agenda := t.yielded core k.slot ++
    (if k.image.isSome && k.slot == 3 && (if k.slot = 3 then (k.cyc + 1) % 256 else k.cyc) == 0 then
      [Instr.slotTableSwap ⟨core, none⟩] else []) ++ t.agenda }

/-- A receiver noted as the one served last. -/
def State.slotServed (t : State) (core slot : Nat) (given : Option Cand) : State :=
  match given with
  | some c => t.updCore core (fun k => { k with served := k.served.set 15 slot c.tenant })
  | none => t

/-- A warp or a way of it with a gang noted as its last to issue. -/
def Cand.noted (c : Cand) (w : Warp) : Warp :=
  match w.way? c.ref.way with
  | some _ => w.updWay c.ref.way (fun y => { y with last := c.ref.slice })
  | none => { w with last := c.ref.slice }

/-- The chosen gang is the next to issue. -/
def State.slotIssues (t : State) (core slot : Nat) (c : Cand) : State :=
  { (t.updWarp c.ref.warp c.noted).charge core slot c.ref with who := c.ref, issuing := true }

/-- The state after a slot's cycle. -/
def State.slotCycle (s : State) (core : Nat) : State :=
  let t := (s.slotPassed core).slotServed core (s.core core).slot (s.slotGiven core)
  match (s.slotNamed core).orElse (fun _ => s.slotGiven core) with
  | none => t
  | some c => t.slotIssues core (s.core core).slot c

theorem execIssueCycle_eq {s : State} {core : Nat} (here : core < 512) (there : s.plat.absCores.contains core = false) :
    execIssueCycle core s = .next (s.slotCycle core) := by
  have runs : ¬((s.plat.absCores.contains core || 512 ≤ core) = true) := by rw [there]; simp [here]
  refine (if_neg runs).trans ?_
  unfold State.slotCycle
  change (match (s.slotNamed core).orElse (fun _ => s.slotGiven core) with
    | none => Host.Outcome.next ((s.slotPassed core).slotServed core (s.core core).slot (s.slotGiven core))
    | some c => .next (((s.slotPassed core).slotServed core (s.core core).slot (s.slotGiven core)).slotIssues core
        (s.core core).slot c)) = _
  cases (s.slotNamed core).orElse (fun _ => s.slotGiven core) <;> rfl

/-- Nothing has changed but warps, cores, the agenda and who issues. -/
def State.OnlyCores (s t : State) : Prop :=
  t = { s with warps := t.warps, cores := t.cores, agenda := t.agenda, who := t.who, issuing := t.issuing }

theorem State.OnlyCores.trans {s t u : State} (a : s.OnlyCores t) (b : t.OnlyCores u) : s.OnlyCores u := by
  unfold State.OnlyCores at *
  rw [b, a]

theorem State.OnlyCores.rest {s t : State} (h : s.OnlyCores t) : t.mem = s.mem ∧ t.clk = s.clk ∧ t.ops = s.ops ∧
    t.reqs = s.reqs ∧ t.writes = s.writes ∧ t.dies = s.dies := by
  rw [h]
  exact ⟨rfl, rfl, rfl, rfl, rfl, rfl⟩

theorem charge_onlyCores (s : State) (core slot : Nat) (r : GangRef) : s.OnlyCores (s.charge core slot r) := by
  unfold State.charge
  split <;> rfl

theorem slotIssues_onlyCores (t : State) (core slot : Nat) (c : Cand) : t.OnlyCores (t.slotIssues core slot c) := by
  have noted : t.OnlyCores (t.updWarp c.ref.warp c.noted) := rfl
  have charged := noted.trans (charge_onlyCores (t.updWarp c.ref.warp c.noted) core slot c.ref)
  exact charged.trans rfl

theorem slotServed_onlyCores (t : State) (core slot : Nat) (given : Option Cand) :
    t.OnlyCores (t.slotServed core slot given) := by
  cases given <;> rfl

theorem slotCycle_onlyCores (s : State) (core : Nat) : s.OnlyCores (s.slotCycle core) := by
  have served : s.OnlyCores ((s.slotPassed core).slotServed core (s.core core).slot (s.slotGiven core)) :=
    .trans (t := s.slotPassed core) rfl (slotServed_onlyCores ..)
  unfold State.slotCycle
  dsimp only
  split
  · exact served
  · exact served.trans (slotIssues_onlyCores ..)

/-- Words that hold a slot are counted at that slot alone. -/
theorem core_slotIssues (t : State) (core slot : Nat) (c : Cand) :
    ∃ o, (t.slotIssues core slot c).core core = { t.core core with owed := o } ∧
      ∀ j, j ≠ slot → o.get 0 j = (t.core core).owed.get 0 j := by
  unfold State.slotIssues State.charge
  split
  · exact ⟨_, rfl, fun _ _ => rfl⟩
  · next ws _ =>
    let cost := ({ t.updWarp c.ref.warp c.noted with who := c.ref }).issueCost ws
    refine ⟨(t.core core).owed.set 0 slot (cost.1 - 1), ?_, fun j other => Tab.get_set_ne 0 _ _ other⟩
    simp only [State.core, State.updWarp_cores, State.updCore_cores, Tab.get_modify, if_true]
    rfl

theorem core_slotServed (t : State) (core slot : Nat) (given : Option Cand) :
    ∃ v, (t.slotServed core slot given).core core = { t.core core with served := v } := by
  cases given with
  | none => exact ⟨_, rfl⟩
  | some c => exact ⟨_, State.core_updCore ..⟩

theorem core_slotPassed (s : State) (core : Nat) : (s.slotPassed core).core core = (s.core core).tick := by
  simp [State.slotPassed, State.core, Tab.get_modify, Core.tick]

/-- The core after a cycle: its counters moved on, but for the receiver served last and the cycles that the slot owes. -/
theorem core_slotCycle (s : State) (core : Nat) : ∃ o v,
    (s.slotCycle core).core core = { (s.core core).tick with owed := o, served := v } ∧
    (∀ j, j ≠ (s.core core).slot → o.get 0 j = (s.core core).owed.get 0 j) ∧
    ((s.slotNamed core).orElse (fun _ => s.slotGiven core) = none →
      o.get 0 (s.core core).slot = (s.core core).owed.get 0 (s.core core).slot - 1) := by
  obtain ⟨v, served⟩ := core_slotServed (s.slotPassed core) core (s.core core).slot (s.slotGiven core)
  rw [core_slotPassed] at served
  have others (j : Nat) (other : j ≠ (s.core core).slot) : (s.core core).tick.owed.get 0 j = (s.core core).owed.get 0 j :=
    Tab.get_set_ne 0 _ _ other
  unfold State.slotCycle
  dsimp only
  split
  · exact ⟨_, v, served, others, fun _ => Tab.get_set_self ..⟩
  · next c chosen =>
    obtain ⟨o, charged, same⟩ := core_slotIssues _ core (s.core core).slot c
    refine ⟨o, v, charged.trans (by rw [served]), fun j other => ?_, fun none => nomatch none.symm.trans chosen⟩
    rw [same j other, served]
    exact others j other

/-- A slot that its tenant leaves and that is not donated goes to no gang. -/
theorem slotNone_of {s : State} {core : Nat} (idle : s.slotNamed core = none)
    (kept : (s.core core).donor.getLsbD (s.slotEntry core) = false) :
    (s.slotNamed core).orElse (fun _ => s.slotGiven core) = none := by
  simp [State.slotGiven, idle, kept]

theorem slotCycle_named {s : State} {core : Nat} {c : Cand} (chosen : s.slotNamed core = some c) :
    (s.slotCycle core).who = c.ref ∧ (s.slotCycle core).issuing = true := by
  simp [State.slotCycle, chosen, State.slotIssues]

theorem slotCycle_none {s : State} {core : Nat} (idle : (s.slotNamed core).orElse (fun _ => s.slotGiven core) = none) :
    (s.slotCycle core).who = s.who ∧ (s.slotCycle core).issuing = s.issuing := by
  unfold State.slotCycle
  rw [idle]
  cases s.slotGiven core <;> exact ⟨rfl, rfl⟩

/-! ## Images of the slot tables (R304, R376) -/

theorem execSlotTableSwap_slotw {s : State} {core op dn rc : Nat} {es : List Nat} (start : (s.core core).cyc % 256 = 0)
    (first : (s.core core).slot = 0) (image : (s.core core).image = some (es, dn, rc, op)) :
    execSlotTableSwap ⟨core, none⟩ s =
      .next ((s.updCore core (fun k => { k.putTables es dn rc with image := none })).endOp op 0) := by
  unfold execSlotTableSwap
  simp [image, start, first, onlyIf]

theorem execSlotTableSwap_written {s : State} {core dn rc : Nat} {es : List Nat} (start : (s.core core).cyc % 256 = 0)
    (first : (s.core core).slot = 0) (here : core < 512) (there : s.plat.absCores.contains core = false)
    (booted : 2 ≤ s.plat.bstage) (sound : s.plat.fail = false) :
    execSlotTableSwap ⟨core, some (es, dn, rc)⟩ s = .next (s.updCore core (fun k => k.putTables es dn rc)) := by
  unfold execSlotTableSwap
  refine onlyIf_eq_next _ _ ?_
  simp only [start, first, there, sound]
  simp [here, booted]

/-! ## Wakes (R164, R296, R366) -/

section
variable {s : State} {u : Nat} {w : Wake} {ws : List Wake} (wakes : (s.warp u).wakes = w :: ws)
  (placed : (s.warp u).placed = true)
include wakes placed

theorem execGangWake_gone (gone : s.waits.find? (fun x => x.id == w.id) = none) : execGangWake u s =
    .next (s.updWarp u (fun v => { v with wakes := v.wakes.filter (fun (y : Wake) => y.id != w.id) })) := by
  simp [execGangWake, wakes, placed, gone, State.deliver]

theorem execGangWake_waiter {x : Waiter} (waits : s.waits.find? (fun x => x.id == w.id) = some x) :
    execGangWake u s = .next (
      let t := { s.updWarp u (fun v => v.awake x w) with waits := s.waits.filter (fun (y : Waiter) => y.id != w.id) }
      if x.how = 3 ∨ (x.how = 2 ∧ 2 ≤ w.status) then t.teardown (s.warp u).inst 4
      else if x.how = 2 then t.leaveHandler u (w.status == 1) else t) := by
  simp [execGangWake, wakes, placed, waits, State.deliver]

end

/-- Settles O28: a cycle is `slotCycle`, which counts at its own slot alone; the images and wakes as above. -/
theorem issueEventsComplete : Obligations.IssueEventsComplete := by
  unfold Obligations.IssueEventsComplete
  intro core u s k entry named
  refine ⟨fun here there => ?cycle, fun start first es dn rc => ⟨fun op image => execSlotTableSwap_slotw start first image,
    execSlotTableSwap_written start first⟩, fun w ws wakes placed => ⟨execGangWake_gone wakes placed,
      fun x => execGangWake_waiter wakes placed⟩⟩
  case cycle =>
    obtain ⟨o, v, ticked, others, unchosen⟩ := core_slotCycle s core
    obtain ⟨mem, clk, ops, reqs, writes, dies⟩ := (slotCycle_onlyCores s core).rest
    have next : (k.slot + 1) % 4 ≠ k.slot := by omega
    refine ⟨s.slotCycle core, execIssueCycle_eq here there, ?_, ?_, ?_, fun idle => ?_, mem, clk, ops, reqs, writes, dies,
      fun c chosen => slotCycle_named chosen, fun idle kept => slotCycle_none (slotNone_of idle kept)⟩
    · rw [ticked]; rfl
    · rw [ticked]; rfl
    · rw [ticked]; exact others _ next
    · by_cases donated : k.donor.getLsbD entry = true
      · exact .inr donated
      · rw [ticked]
        exact .inl (unchosen (slotNone_of idle (Bool.eq_false_iff.mpr donated)))

end Sys2Proof.Machine
end

section
/-! PROOF. Numbers of a width's bits as bit vectors: shifts, counts, fields (R94 to R99). -/

namespace Sys2Proof.Machine

section
variable {w : Nat} (x : BitVec w) (n : Nat)

theorem shl_toNat : (if w ≤ n then 0 else x.toNat * 2 ^ n % 2 ^ w) = (x <<< n).toNat := by
  rw [BitVec.toNat_shiftLeft, Nat.shiftLeft_eq]
  split
  · next all => rw [Nat.mod_eq_zero_of_dvd (Dvd.dvd.mul_left (Nat.pow_dvd_pow 2 all) _)]
  · rfl

theorem shr_toNat : (if w ≤ n then 0 else x.toNat / 2 ^ n) = (x >>> n).toNat := by
  rw [BitVec.toNat_ushiftRight, Nat.shiftRight_eq_div_pow]
  split
  · next all => rw [Nat.div_eq_of_lt (x.isLt.trans_le (Nat.pow_le_pow_right (by decide) all))]
  · rfl

/-- Beyond the width an arithmetic shift leaves the sign alone. -/
theorem toInt_div_pow_of_le (all : w ≤ n) : x.toInt / 2 ^ w = x.toInt / 2 ^ n := by
  have small : (2 : Int) ^ w ≤ 2 ^ n := pow_le_pow_right₀ (by decide) all
  have hi := BitVec.toInt_lt (x := x)
  have lo := BitVec.le_toInt x
  have half : (2 : Int) ^ (w - 1) ≤ 2 ^ w := pow_le_pow_right₀ (by decide) (Nat.sub_le w 1)
  rcases lt_or_ge x.toInt 0 with neg | pos
  · rw [Int.ediv_eq_neg_one_of_neg_of_le neg (by omega), Int.ediv_eq_neg_one_of_neg_of_le neg (by omega)]
  · rw [Int.ediv_eq_zero_of_lt pos (by omega), Int.ediv_eq_zero_of_lt pos (by omega)]

theorem sarBits_toNat : sarBits w x.toNat n = (x.sshiftRight n).toNat := by
  have quotient : x.toInt / 2 ^ min n w = x.toInt >>> n := by
    rw [Int.shiftRight_eq_div_pow, Nat.cast_pow, Nat.cast_ofNat]
    rcases le_total n w with within | all
    · rw [min_eq_left within]
    · rw [min_eq_right all, toInt_div_pow_of_le x n all]
  rw [sarBits, signedOf_toInt, quotient, bitsInt_eq_toNat, BitVec.sshiftRight_eq]

end

/-! ## Counts of bits -/

theorem onesIn_toNat {w : Nat} (x : BitVec w) : onesIn w x.toNat = x.cpop.toNat := by
  induction x using BitVec.concat_induction with
  | nil => rfl
  | @concat w x b ih =>
    have low : (x.concat b).toNat % 2 = b.toNat := by
      rw [BitVec.toNat_concat]; have := b.toNat_lt; omega
    have high : (x.concat b).toNat / 2 = x.toNat := by
      rw [BitVec.toNat_concat]; have := b.toNat_lt; omega
    rw [onesIn, low, high, ih, BitVec.toNat_cpop_concat]

/-- A width fits in as many bits. -/
theorem toNat_natCast_width (w : Nat) : (w : BitVec w).toNat = w := by simp [Nat.mod_eq_of_lt Nat.lt_two_pow_self]

theorem bitLen_toNat {w : Nat} (x : BitVec w) : w - bitLen x.toNat = x.clz.toNat := by
  by_cases zero : x = 0#w
  · rw [BitVec.clz_eq_iff_eq_zero.2 zero, toNat_natCast_width, zero]
    simp [bitLen]
  · have some_bit : x.toNat ≠ 0 := fun h => zero (BitVec.eq_of_toNat_eq h)
    have short : x.clz.toNat < w := by
      have := BitVec.lt_def.1 (BitVec.clz_lt_iff_ne_zero.2 zero)
      rwa [toNat_natCast_width] at this
    have log : Nat.log2 x.toNat = w - 1 - x.clz.toNat := by
      refine (Nat.log2_eq_iff some_bit).2 ⟨BitVec.two_pow_sub_clz_le_toNat_of_ne_zero (by omega) zero, ?_⟩
      rw [show w - 1 - x.clz.toNat + 1 = w - x.clz.toNat by omega]
      exact BitVec.toNat_lt_two_pow_sub_clz
    rw [bitLen, if_neg some_bit, log]
    omega

theorem zerosBelow_of {w : Nat} : ∀ {n k : Nat}, k ≤ w → (∀ i < k, n.testBit i = false) →
    (k < w → n.testBit k = true) → zerosBelow w n = k := by
  induction w with
  | zero => intro n k le _ _; exact (Nat.le_zero.1 le).symm
  | succ w ih =>
    intro n k le below at_k
    cases k with
    | zero =>
      have odd : n % 2 = 1 := by simpa [Nat.testBit_zero] using at_k (by omega)
      simp [zerosBelow, odd]
    | succ k =>
      have even : n % 2 ≠ 1 := by simpa [Nat.testBit_zero] using below 0 (by omega)
      have rest := ih (n := n / 2) (k := k) (by omega) (fun i hi => by rw [Nat.testBit_div_two]; exact below _ (by omega))
        (fun hk => by rw [Nat.testBit_div_two]; exact at_k (by omega))
      rw [zerosBelow, if_neg even, rest, Nat.add_comm]

theorem zerosBelow_toNat {w : Nat} (x : BitVec w) : zerosBelow w x.toNat = x.ctz.toNat := by
  have lowest (some_bit : x ≠ 0#w) : x.getLsbD x.ctz.toNat = true := BitVec.getLsbD_true_ctz_of_ne_zero some_bit
  have full_count (zero : x = 0#w) : x.ctz.toNat = w := by
    rw [BitVec.ctz_eq_reverse_clz, BitVec.clz_eq_iff_eq_zero.2 (BitVec.reverse_eq_zero_iff.2 zero),
      toNat_natCast_width]
  refine zerosBelow_of ?_ (fun i hi => BitVec.getLsbD_false_of_lt_ctz hi) fun short => lowest fun zero => ?_
  · by_cases zero : x = 0#w
    · exact (full_count zero).le
    · exact (BitVec.lt_of_getLsbD (lowest zero)).le
  · exact absurd (full_count zero) short.ne

theorem testBit_revBits (w n i : Nat) : (revBits w n).testBit i = (decide (i < w) && n.testBit (w - 1 - i)) := by
  induction w generalizing n i with
  | zero => simp [revBits]
  | succ w ih =>
    have small : revBits w (n / 2) < 2 ^ w := Nat.lt_pow_two_of_testBit _ fun j hj => by rw [ih]; simp [Nat.not_lt.2 hj]
    rw [revBits, Nat.mul_comm, Nat.testBit_two_pow_mul_add _ small, ih, Nat.testBit_div_two]
    rcases lt_trichotomy i w with lt | rfl | gt
    · simp [lt, show i < w + 1 by omega, show w - 1 - i + 1 = w - i by omega]
    · simp [Nat.testBit_zero]
    · have high : (n % 2).testBit (i - w) = false :=
        Nat.testBit_lt_two_pow ((Nat.mod_lt n (by decide)).trans_le (Nat.le_self_pow (by omega) 2))
      simp [show ¬i < w by omega, show ¬i < w + 1 by omega, high]

theorem revBits_toNat {w : Nat} (x : BitVec w) : revBits w x.toNat = x.reverse.toNat := by
  refine Nat.eq_of_testBit_eq fun i => ?_
  rw [testBit_revBits, BitVec.testBit_toNat, BitVec.testBit_toNat, BitVec.getLsbD_reverse, BitVec.getMsbD]

end Sys2Proof.Machine
end

section
/-! PROOF. O1: integer arithmetic (R92, R93). -/

namespace Sys2Proof.Machine
open Sys2Proof.Safety

theorem arith_alike (f : OpA) (sat : Bool) (op : Int → Int → Int → Int) {s b : State} (h : State.Alike s b) (l : Nat) :
    arith f sat op b l = arith f sat op s l := by
  simp only [arith, tA_alike h, tB_alike h, tC_alike h]

/-- A word of R92 whose result is `arith` of its operands. -/
theorem arith_yields {i : Instr} {f : OpA} {r : RoleA} {sat : Bool} {op : Int → Int → Int → Int}
    {fn : OpA → State → Nat → Res Double} {res : State → Nat → Res Double} (he : ∀ s, exec i s = .next (s.alu i fn))
    (hf : fn f = arith f sat op)
    (hi : i.roleA = some (f, r)) (hr : r.d = some f.ty) (hw : i.wf = wfRole i)
    (hv : ∀ s l, arith f sat op s l = res s l) : Yields i f f.ty res :=
  yields_of he hi hr hw (fun _ _ h l => by rw [hf]; exact arith_alike f sat op h l) fun _ s l => by rw [hf]; exact hv s l

/-- An operation of two operands does not look at the third. -/
theorem perElem_binary (t : Ty) (sat : Bool) (op : Int → Int → Int) (a b c : Double) :
    perElem t sat (fun a b _ => op a b) a b c = perElem t sat (fun a b _ => op a b) a b 0 := rfl

/-- An operation of one operand does not look at the others. -/
theorem perElem_unary (t : Ty) (sat : Bool) (op : Int → Int) (a b c : Double) :
    perElem t sat (fun a _ _ => op a) a b c = perElem t sat (fun a _ _ => op a) a 0 0 := rfl

theorem ofInt_toInt_signExtend (x : Word) : BitVec.ofInt 64 x.toInt = x.signExtend 64 := rfl

theorem ofInt_toNat_setWidth (x : Word) : BitVec.ofInt 64 (x.toNat : Int) = x.setWidth 64 := by
  rw [BitVec.ofInt_natCast, BitVec.ofNat_toNat]

/-- The wide product and sum modulo 2^64, the operands extended by their type. -/
theorem resImadw_eq (f : OpA) (s : State) (l : Nat) (h : f.ty ∈ [Ty.s32, .u32]) :
    resImadw f s l =
      ⟨if f.ty = .s32 then (s.src32 l f.a).signExtend 64 * (s.src32 l f.b).signExtend 64 +
          s.src l (if f.ty = .s32 then .s64 else .u64) f.c
        else (s.src32 l f.a).setWidth 64 * (s.src32 l f.b).setWidth 64 +
          s.src l (if f.ty = .s32 then .s64 else .u64) f.c, 0⟩ := by
  rw [resImadw, ofBits_bitsInt, BitVec.ofInt_add, BitVec.ofInt_mul, ofInt_valOf, plain]
  simp only [List.mem_cons, List.not_mem_nil, or_false] at h
  rcases h with e | e <;> rw [e]
  · rw [show signedTy .s32 = true from rfl, valOf_signed, valOf_signed, ofInt_toInt_signExtend, ofInt_toInt_signExtend]
    rfl
  · rw [show signedTy .u32 = false from rfl, valOf_unsigned, valOf_unsigned, ofInt_toNat_setWidth, ofInt_toNat_setWidth]
    rfl

/-- Settles O1: each word's result is its integer operation element by element; the operands a word does not
have play no part. -/
theorem integerArithmeticCompletes : Obligations.IntegerArithmeticCompletes := by
  unfold Obligations.IntegerArithmeticCompletes
  intro f
  refine ⟨arith_yields (fun _ => rfl) rfl rfl rfl rfl fun _ _ => perElem_binary _ _ (· + ·) _ _ _,
    arith_yields (fun _ => rfl) rfl rfl rfl rfl fun _ _ => perElem_binary _ _ (· - ·) _ _ _,
    arith_yields (fun _ => rfl) rfl rfl rfl rfl fun _ _ => perElem_binary _ _ (· * ·) _ _ _,
    arith_yields (fun _ => rfl) rfl rfl rfl rfl fun _ _ => perElem_binary _ _ (fun a b => a * b / 2 ^ f.ty.bits) _ _ _,
    arith_yields (fun _ => rfl) rfl rfl rfl rfl fun _ _ => rfl,
    yields_of (fn := resImadw) (fun _ => rfl) rfl rfl rfl (fun s b h l => ?imadwAlike)
      fun w s l => resImadw_eq f s l (types_of_wfA w),
    arith_yields (fun _ => rfl) rfl rfl rfl rfl fun _ _ => perElem_binary _ _ min _ _ _,
    arith_yields (fun _ => rfl) rfl rfl rfl rfl fun _ _ => perElem_binary _ _ max _ _ _,
    arith_yields (fun _ => rfl) rfl rfl rfl rfl fun s l => ?iabs⟩
  case imadwAlike => simp only [resImadw, h.src, h.src32]
  case iabs =>
    simp only [Int.abs_eq_natAbs]
    exact perElem_unary _ _ (fun a => (a.natAbs : Int)) _ _ _

end Sys2Proof.Machine
end

section
/-! PROOF. O2: logic and shifts (R94 to R96). -/

namespace Sys2Proof.Machine
open Sys2Proof.Safety

theorem int_of_mem {t : Ty} (h : t ∈ intTypes) : t.int = true := by
  rcases mem_intTypes.1 h with rfl | rfl | rfl | rfl <;> rfl

/-- A function of the bits of an operand's width, as the function of the pair or of the word. -/
theorem plainN_unary (N : Nat → Nat → Nat) (F : ∀ w, BitVec w → BitVec w)
    (value : ∀ w (x : BitVec w), N w x.toNat = (F w x).toNat) (f : OpA) (s : State) (l : Nat) (h : f.ty ∈ intTypes) :
    plainN (N f.ty.bits (tA f s l).toNat) =
      ⟨if f.ty.wide then F 64 (s.src64 l f.a) else (F 32 (s.src32 l f.a)).setWidth 64, 0⟩ := by
  rw [tA, src_int _ _ _ (int_of_mem h), Ty.bits]
  cases f.ty.wide with
  | true => rw [if_pos rfl, if_pos rfl, if_pos rfl, value, plainN_toNat, BitVec.setWidth_eq]
  | false =>
    rw [if_neg (by decide), if_neg (by decide), if_neg (by decide), BitVec.toNat_setWidth_of_le (by decide), value,
      plainN_toNat]

/-! ## The funnel shift (R96) -/

theorem toNat_append_words (b a : Word) : b.toNat * 2 ^ 32 + a.toNat = (b ++ a).toNat := by
  rw [BitVec.toNat_append, Nat.shiftLeft_eq, Nat.mul_comm, Nat.two_pow_add_eq_or_of_lt a.isLt]

/-- The value written twice, as R96's rotation reads it. -/
theorem testBit_twice (x : Double) (j : Nat) (h : j < 128) :
    (x.toNat + x.toNat * 2 ^ 64).testBit j = x.getLsbD (j % 64) := by
  rw [Nat.add_comm, Nat.mul_comm, Nat.testBit_two_pow_mul_add _ x.isLt, BitVec.testBit_toNat, BitVec.testBit_toNat]
  split
  · next low => rw [Nat.mod_eq_of_lt low]
  · rw [show j - 64 = j % 64 by omega]

/-- A word cut out of a longer number at bit `p`, bit by bit. -/
theorem word_at_eq {n p : Nat} {y : Word} (h : ∀ i < 32, n.testBit (p + i) = y.getLsbD i) : n / 2 ^ p % 2 ^ 32 = y.toNat := by
  refine Nat.eq_of_testBit_eq fun i => ?_
  rw [Nat.testBit_mod_two_pow, Nat.testBit_div_two_pow, BitVec.testBit_toNat, Nat.add_comm i p]
  by_cases low : i < 32
  · simp only [low, decide_true, Bool.true_and, h i low]
  · rw [decide_eq_false low, Bool.false_and, BitVec.getLsbD_of_ge y i (by omega)]

theorem funnel_rotateRight (x : Double) (n : Nat) :
    (x.toNat + x.toNat * 2 ^ 64) / 2 ^ (n % 64) % 2 ^ 32 = ((x.rotateRight n).extractLsb' 0 32).toNat := by
  refine word_at_eq fun i hi => ?_
  rw [testBit_twice x _ (by omega), BitVec.getLsbD_extractLsb', BitVec.getLsbD_rotateRight, Nat.zero_add]
  simp only [hi, decide_true, Bool.true_and, show i < 64 by omega]
  rcases lt_or_ge i (64 - n % 64) with below | above
  · rw [decide_eq_true below, cond_true, Nat.mod_eq_of_lt (by omega)]
  · rw [decide_eq_false (by omega), cond_false, show (n % 64 + i) % 64 = i - (64 - n % 64) by omega]

theorem funnel_rotateLeft (x : Double) (n : Nat) :
    (x.toNat + x.toNat * 2 ^ 64) / 2 ^ ((96 - n % 64) % 64) % 2 ^ 32 = ((x.rotateLeft n).extractLsb' 32 32).toNat := by
  refine word_at_eq fun i hi => ?_
  rw [testBit_twice x _ (by omega), BitVec.getLsbD_extractLsb', BitVec.getLsbD_rotateLeft]
  simp only [hi, decide_true, Bool.true_and, show 32 + i < 64 by omega]
  rcases lt_or_ge (32 + i) (n % 64) with below | above
  · rw [decide_eq_true below, cond_true, show ((96 - n % 64) % 64 + i) % 64 = 64 - n % 64 + (32 + i) by omega]
  · rw [decide_eq_false (by omega), cond_false, show ((96 - n % 64) % 64 + i) % 64 = 32 + i - n % 64 by omega]

theorem funnel_shiftLeft (x : Double) (n : Nat) :
    x.toNat / 2 ^ (32 - min n 32) % 2 ^ 32 = ((x <<< min n 32).extractLsb' 32 32).toNat := by
  refine word_at_eq fun i hi => ?_
  rw [BitVec.testBit_toNat, BitVec.getLsbD_extractLsb', BitVec.getLsbD_shiftLeft]
  simp only [hi, decide_true, Bool.true_and, show 32 + i < 64 by omega, show ¬32 + i < min n 32 by omega, decide_false,
    Bool.not_false]
  rw [show 32 - min n 32 + i = 32 + i - min n 32 by omega]

theorem funnel_shiftRight (x : Double) (n : Nat) :
    x.toNat / 2 ^ min n 32 % 2 ^ 32 = ((x >>> min n 32).extractLsb' 0 32).toNat := by
  refine word_at_eq fun i hi => ?_
  rw [BitVec.testBit_toNat, BitVec.getLsbD_extractLsb', BitVec.getLsbD_ushiftRight, Nat.zero_add, decide_eq_true hi,
    Bool.true_and]

/-- The word that SHF selects from a pair: rotated or shifted, from the top or from the bottom (R96). -/
def funnel (rotate high : Bool) (x : Double) (n : Nat) : Word :=
  if rotate then if high then (x.rotateLeft n).extractLsb' 32 32 else (x.rotateRight n).extractLsb' 0 32
  else if high then (x <<< min n 32).extractLsb' 32 32 else (x >>> min n 32).extractLsb' 0 32

theorem resShf_eq (f : OpA) (s : State) (l : Nat) :
    resShf f s l =
      plainN (funnel (f.opx.getLsbD 1) (f.opx.getLsbD 0) (s.src32 l f.b ++ s.src32 l f.a) (nC f s l)).toNat := by
  simp only [resShf, nA, nB, toNat_append_words, funnel]
  cases f.opx.getLsbD 1 <;> cases f.opx.getLsbD 0 <;> simp only [if_true, if_false, Bool.false_eq_true]
  · rw [funnel_shiftRight]
  · rw [funnel_shiftLeft]
  · rw [funnel_rotateRight]
  · rw [funnel_rotateLeft]

/-- Settles O2: shifts by `plainN_unary`, the funnel shift by `resShf_eq`; the model's logic is the statement's own. -/
theorem logicAndShiftsComplete : Obligations.LogicAndShiftsComplete := by
  unfold Obligations.LogicAndShiftsComplete
  intro f
  refine ⟨yields_of (fn := resAnd) (fun _ => rfl) rfl rfl rfl (fun s b h l => ?andAlike) fun _ _ _ => rfl,
    yields_of (fn := resOr) (fun _ => rfl) rfl rfl rfl (fun s b h l => ?orAlike) fun _ _ _ => rfl,
    yields_of (fn := resXor) (fun _ => rfl) rfl rfl rfl (fun s b h l => ?xorAlike) fun _ _ _ => rfl,
    yields_of (fn := resLop3) (fun _ => rfl) rfl rfl rfl (fun s b h l => ?lop3Alike) fun _ _ _ => rfl,
    yields_of (fn := resShl) (fun _ => rfl) rfl rfl rfl (fun s b h l => ?shlAlike) fun w s l =>
      plainN_unary (fun w x => if w ≤ nB f s l then 0 else x * 2 ^ nB f s l % 2 ^ w) (fun _ x => x <<< nB f s l)
        (fun _ x => shl_toNat x _) f s l (types_of_wfA w),
    yields_of (fn := resShr) (fun _ => rfl) rfl rfl rfl (fun s b h l => ?shrAlike) fun w s l =>
      plainN_unary (fun w x => if w ≤ nB f s l then 0 else x / 2 ^ nB f s l) (fun _ x => x >>> nB f s l)
        (fun _ x => shr_toNat x _) f s l (types_of_wfA w),
    yields_of (fn := resSar) (fun _ => rfl) rfl rfl rfl (fun s b h l => ?sarAlike) fun w s l =>
      plainN_unary (fun w x => sarBits w x (nB f s l)) (fun _ x => x.sshiftRight (nB f s l))
        (fun _ x => sarBits_toNat x _) f s l (types_of_wfA w),
    yields_of (fn := resShf) (fun _ => rfl) rfl rfl rfl (fun s b h l => ?shfAlike) fun w s l => ?shf⟩
  case andAlike => simp only [resAnd, tA_alike h, tB_alike h]
  case orAlike => simp only [resOr, tA_alike h, tB_alike h]
  case xorAlike => simp only [resXor, tA_alike h, tB_alike h]
  case lop3Alike => simp only [resLop3, tA_alike h, tB_alike h, tC_alike h]
  case shlAlike => simp only [resShl, tA_alike h, nB_alike h]
  case shrAlike => simp only [resShr, tA_alike h, nB_alike h]
  case sarAlike => simp only [resSar, tA_alike h, nB_alike h]
  case shfAlike => simp only [resShf, nA_alike h, nB_alike h, nC_alike h]
  case shf =>
    rw [resShf_eq, plainN_toNat, funnel, nC]
    cases f.opx.getLsbD 1 <;> cases f.opx.getLsbD 0 <;> rfl

end Sys2Proof.Machine
end

section
/-! PROOF. O3: bit counts and fields (R94, R97), moves and selection (R98), LEA (R99). -/

namespace Sys2Proof.Machine
open Sys2Proof.Safety

/-! ## BFX (R97) -/

/-- The field of `n` bits at bit `p` of the low `w` bits, extended to them as the model does it. -/
def fieldBits (sg : Bool) (n p w a : Nat) : Nat :=
  let x := if sg then sarBits w a p else if w ≤ p then 0 else a / 2 ^ p
  if n = 0 then 0 else if sg then bitsInt w (signedOf n x) else x % 2 ^ n

/-- The same field as a bit vector. -/
def fieldOf (sg : Bool) (n p w : Nat) (x : BitVec w) : BitVec w :=
  if sg then ((x.sshiftRight p).setWidth n).signExtend w else ((x >>> p).setWidth n).setWidth w

theorem setWidth_setWidth_toNat {w : Nat} (x : BitVec w) (n : Nat) : ((x.setWidth n).setWidth w).toNat = x.toNat % 2 ^ n := by
  rw [BitVec.toNat_setWidth, BitVec.toNat_setWidth, Nat.mod_eq_of_lt ((Nat.mod_le _ _).trans_lt x.isLt)]

theorem fieldBits_toNat (sg : Bool) (n p w : Nat) (x : BitVec w) : fieldBits sg n p w x.toNat = (fieldOf sg n p w x).toNat := by
  cases sg with
  | true =>
    simp only [fieldBits, fieldOf, if_true, sarBits_toNat, signedOf_setWidth, bitsInt_eq_toNat]
    split
    · next empty => subst empty; simp [BitVec.of_length_zero, BitVec.signExtend]
    · rfl
  | false =>
    simp only [fieldBits, fieldOf, Bool.false_eq_true, if_false, shr_toNat, setWidth_setWidth_toNat]
    split
    · next empty => rw [empty, Nat.pow_zero, Nat.mod_one]
    · rfl

theorem resBfx_eq (f : OpA) (s : State) (l : Nat) (h : f.ty ∈ intTypes) :
    resBfx f s l = ⟨if f.ty.wide then fieldOf (signedTy f.ty) f.opx.toNat (nB f s l) 64 (s.src64 l f.a)
      else (fieldOf (signedTy f.ty) f.opx.toNat (nB f s l) 32 (s.src32 l f.a)).setWidth 64, 0⟩ :=
  plainN_unary (fieldBits _ _ _) (fieldOf _ _ _) (fieldBits_toNat _ _ _) f s l h

/-- A field of a word, unsigned, is the same in the word and in the pair. -/
theorem fieldOf_unsigned_word (n p : Nat) (x : Word) :
    (fieldOf false n p 32 x).setWidth 64 = ((x >>> p).setWidth n).setWidth 64 := by
  refine BitVec.eq_of_toNat_eq ?_
  rw [fieldOf, if_neg (by decide), BitVec.toNat_setWidth_of_le (by decide), setWidth_setWidth_toNat, BitVec.toNat_setWidth,
    BitVec.toNat_setWidth]
  exact (Nat.mod_eq_of_lt ((Nat.mod_le _ _).trans_lt ((x >>> p).isLt.trans (show 2 ^ 32 < 2 ^ 64 by decide)))).symm

/-! ## BFI (R97) -/

/-- The low bits of `a` put into `c` as a field of `k` bits at bit `p`. -/
theorem testBit_insert (a c p k j : Nat) :
    (c % 2 ^ p + a % 2 ^ k * 2 ^ p + c / 2 ^ (p + k) * 2 ^ (p + k)).testBit j =
      if p ≤ j ∧ j < p + k then a.testBit (j - p) else c.testBit j := by
  have low : c % 2 ^ p < 2 ^ p := Nat.mod_lt _ (by positivity)
  have field : 2 ^ p * (a % 2 ^ k) + c % 2 ^ p < 2 ^ (p + k) := by
    have := Nat.mod_lt a (show 0 < 2 ^ k by positivity)
    calc 2 ^ p * (a % 2 ^ k) + c % 2 ^ p < 2 ^ p * (a % 2 ^ k) + 2 ^ p := by omega
      _ = 2 ^ p * (a % 2 ^ k + 1) := by ring
      _ ≤ 2 ^ p * 2 ^ k := Nat.mul_le_mul_left _ this
      _ = 2 ^ (p + k) := (pow_add 2 p k).symm
  rw [show c % 2 ^ p + a % 2 ^ k * 2 ^ p + c / 2 ^ (p + k) * 2 ^ (p + k) =
      2 ^ (p + k) * (c / 2 ^ (p + k)) + (2 ^ p * (a % 2 ^ k) + c % 2 ^ p) by ring,
    Nat.testBit_two_pow_mul_add _ field, Nat.testBit_two_pow_mul_add _ low, Nat.testBit_div_two_pow, Nat.testBit_mod_two_pow,
    Nat.testBit_mod_two_pow]
  by_cases above : j < p + k
  · by_cases below : j < p
    · simp [above, below, show ¬p ≤ j by omega]
    · simp [above, below, show p ≤ j by omega, show j - p < k by omega]
  · simp [above, show j - (p + k) + (p + k) = j by omega]

/-- BFI's result by the masks of the statement: the field's bits from `a` moved to it, the others from `c`. -/
def maskedInsert (n p : Nat) (a c : Double) : Double :=
  let field : Double := (BitVec.allOnes n).setWidth 64 <<< p
  (c &&& ~~~field) ||| (a <<< p &&& field)

theorem getLsbD_maskedInsert (n p : Nat) (a c : Double) {j : Nat} (h : j < 64) :
    (maskedInsert n p a c).getLsbD j = if p ≤ j ∧ j < p + n then a.getLsbD (j - p) else c.getLsbD j := by
  by_cases below : j < p
  · simp [maskedInsert, h, below, show ¬p ≤ j by omega]
  · by_cases inside : j < p + n
    · simp [maskedInsert, h, below, inside, show p ≤ j by omega, show j - p < 64 by omega, show j - p < n by omega]
    · simp [maskedInsert, h, below, inside, show ¬j - p < n by omega]

theorem insert_eq (w n p : Nat) (a c : Double) (hc : c.toNat < 2 ^ w) (hw : w ≤ 64) :
    (if w ≤ p then c.toNat
      else c.toNat % 2 ^ p + a.toNat % 2 ^ min n (w - p) * 2 ^ p +
        c.toNat / 2 ^ (p + min n (w - p)) * 2 ^ (p + min n (w - p))) = ((maskedInsert n p a c).setWidth w).toNat := by
  have outside (j : Nat) (hj : w ≤ j) : c.toNat.testBit j = false :=
    Nat.testBit_lt_two_pow (hc.trans_le (Nat.pow_le_pow_right (by decide) hj))
  refine Nat.eq_of_testBit_eq fun j => ?_
  rw [BitVec.testBit_toNat, BitVec.getLsbD_setWidth]
  by_cases hj : j < w
  · rw [decide_eq_true hj, Bool.true_and, getLsbD_maskedInsert n p a c (by omega)]
    split
    · rw [if_neg (by omega), BitVec.testBit_toNat]
    · have inside : j < p + min n (w - p) ↔ j < p + n := by omega
      simp only [testBit_insert, BitVec.testBit_toNat, inside]
  · rw [decide_eq_false hj, Bool.false_and]
    split
    · exact outside j (by omega)
    · rw [testBit_insert, if_neg (by omega), outside j (by omega)]

/-- An operand of an integer type has no bit beyond the type's width. -/
theorem src_toNat_lt (s : State) (l : Nat) {t : Ty} (x : Src) (h : t ∈ intTypes) : (s.src l t x).toNat < 2 ^ t.bits := by
  rw [src_int s l x (int_of_mem h), Ty.bits]
  cases t.wide with
  | true => exact BitVec.isLt _
  | false =>
    rw [if_neg (by decide), if_neg (by decide), BitVec.toNat_setWidth_of_le (by decide)]
    exact BitVec.isLt _

theorem resBfi_eq (f : OpA) (s : State) (l : Nat) (h : f.ty ∈ intTypes) :
    resBfi f s l = ⟨((maskedInsert f.opx.toNat (nB f s l) (tA f s l) (tC f s l)).setWidth f.ty.bits).setWidth 64, 0⟩ := by
  have width : f.ty.bits ≤ 64 := by rw [Ty.bits]; split <;> decide
  rw [← plainN_toNat, ← insert_eq f.ty.bits f.opx.toNat (nB f s l) (tA f s l) (tC f s l) (src_toNat_lt s l f.c h) width]
  rfl

/-! ## LEA and MOVI (R98, R99) -/

theorem ofInt_mul_two_pow (k : Int) (n : Nat) : BitVec.ofInt 64 (k * 2 ^ n) = BitVec.ofInt 64 k <<< n := by
  have scale : BitVec.ofInt 64 (2 ^ n) = BitVec.twoPow 64 n := by
    rw [show (2 : Int) ^ n = ((2 ^ n : Nat) : Int) by norm_cast, BitVec.ofInt_natCast]
    exact BitVec.eq_of_toNat_eq (by rw [BitVec.toNat_ofNat, BitVec.toNat_twoPow])
  rw [BitVec.ofInt_mul, scale, BitVec.shiftLeft_eq_mul_twoPow]

/-- LEA's index as a bit vector of the pair's width, as the statement names it. -/
def leaOffset (f : OpA) (s : State) (l : Nat) : Double :=
  match f.ty with
  | .s32 => (s.src32 l f.b).signExtend 64
  | .u32 => (s.src32 l f.b).setWidth 64
  | _ => s.src64 l f.b

theorem ofInt_leaIndex (f : OpA) (s : State) (l : Nat) : BitVec.ofInt 64 (leaIndex f s l) = leaOffset f s l := by
  unfold leaIndex leaOffset
  cases f.ty with
  | s32 => rfl
  | u32 => exact ofInt_toNat_setWidth _
  | _ => rw [BitVec.ofInt_natCast, BitVec.ofNat_toNat, BitVec.setWidth_eq]

/-- MOVI has no source: it writes its immediate in every state (R98). -/
theorem movi_completes (f : OpI) (s : State) (ready : Ready (.movi f) s) : ∃ t, exec (.movi f) s = .next t ∧
    Wrote s t f.com f.dst f.ty.wide (fun _ => ⟨if f.ty = .s64 then f.imm.signExtend 64 else f.imm.setWidth 64, 0⟩) := by
  obtain ⟨wf, present, u, uses, issues⟩ := ready
  have legal : dstOk f.com.u (some f.ty) f.dst = true := by
    have : wfI f = true := wf
    simp only [wfI, Bool.and_eq_true] at this
    exact this.1.2
  obtain ⟨alike, there⟩ := alike_begin s u present
  refine ⟨_, rfl, ?_⟩
  rw [issue_issues uses issues]
  exact Wrote.of_alike alike
    (runA_wrote there _ (moviA f) ⟨some f.ty, none, none, none, [], false, true, true, true⟩ rfl legal _ _)

/-- Settles O3: counts, reversal and BFX by `plainN_unary`, BFI by its bits, LEA by `resLea_eq`, MOVI by
`movi_completes`. -/
theorem fieldsAndMovesComplete : Obligations.FieldsAndMovesComplete := by
  unfold Obligations.FieldsAndMovesComplete
  refine ⟨fun f => ⟨yields_of (fn := resPopc) (fun _ => rfl) rfl rfl rfl (fun s b h l => ?popcAlike) fun w s l =>
      plainN_unary onesIn (fun _ x => x.cpop) (fun _ => onesIn_toNat) f s l (types_of_wfA w),
    yields_of (fn := resClz) (fun _ => rfl) rfl rfl rfl (fun s b h l => ?clzAlike) fun w s l =>
      plainN_unary (fun w n => w - bitLen n) (fun _ x => x.clz) (fun _ => bitLen_toNat) f s l (types_of_wfA w),
    yields_of (fn := resCtz) (fun _ => rfl) rfl rfl rfl (fun s b h l => ?ctzAlike) fun w s l =>
      plainN_unary zerosBelow (fun _ x => x.ctz) (fun _ => zerosBelow_toNat) f s l (types_of_wfA w),
    yields_of (fn := resBrev) (fun _ => rfl) rfl rfl rfl (fun s b h l => ?brevAlike) fun w s l =>
      plainN_unary revBits (fun _ x => x.reverse) (fun _ => revBits_toNat) f s l (types_of_wfA w),
    yields_of (fn := resBfx) (fun _ => rfl) rfl rfl rfl (fun s b h l => ?bfxAlike) fun w s l => ?bfx,
    yields_of (fn := resBfi) (fun _ => rfl) rfl rfl rfl (fun s b h l => ?bfiAlike) fun w s l => ?bfi,
    yields_of (fn := resSel) (fun _ => rfl) rfl rfl rfl (fun s b h l => ?selAlike) fun w s l => ?sel,
    yields_of (fn := resMov) (fun _ => rfl) rfl rfl rfl (fun s b h l => ?movAlike) fun _ _ _ => rfl,
    yields_of (fn := resLea) (fun _ => rfl) rfl rfl rfl (fun s b h l => ?leaAlike) fun w s l => ?lea⟩, movi_completes⟩
  case popcAlike => simp only [resPopc, tA_alike h]
  case clzAlike => simp only [resClz, tA_alike h]
  case ctzAlike => simp only [resCtz, tA_alike h]
  case brevAlike => simp only [resBrev, tA_alike h]
  case bfxAlike => simp only [resBfx, tA_alike h, nB_alike h]
  case bfiAlike => simp only [resBfi, tA_alike h, nB_alike h, tC_alike h]
  case selAlike => simp only [resSel, tA_alike h, tB_alike h, nC_alike h]
  case movAlike => simp only [resMov, tA_alike h]
  case leaAlike => simp only [resLea, h.src64, tB_alike h]
  case bfx =>
    rw [resBfx_eq f s l (types_of_wfA w)]
    rcases mem_intTypes.1 (types_of_wfA w) with e | e | e | e <;> rw [e]
    case inr.inl => exact congrArg (Res.mk · 0) (fieldOf_unsigned_word _ _ _)
    all_goals rfl
  case bfi =>
    rw [resBfi_eq f s l (types_of_wfA w), Ty.bits]
    cases f.ty.wide with
    | true => exact congrArg (Res.mk · 0) ((BitVec.setWidth_eq _).trans (BitVec.setWidth_eq _))
    | false => rfl
  case sel =>
    have zero : nC f s l ≠ 0 ↔ s.src32 l f.c ≠ 0 := not_congr (BitVec.toNat_inj (y := 0#32))
    simp only [resSel, zero]; rfl
  case lea =>
    rw [resLea_eq f s l (types_of_wfA w), BitVec.ofInt_add, BitVec.ofInt_natCast, BitVec.ofNat_toNat, BitVec.setWidth_eq,
      ofInt_mul_two_pow, ofInt_leaIndex]
    rfl

end Sys2Proof.Machine
end
